-- ==== Sys2Proof/Word.lean ====
section
/-! DEFINITION. The word types of the AXM-E32 and nothing else: a byte, a 32-bit word (R4) and an FP32 code (R56). -/

namespace Sys2Proof

/-- One byte, the smallest addressable unit. -/
abbrev Byte := BitVec 8

/-- A word is 32 bits (R4). -/
abbrev Word := BitVec 32

/-- The 32 bits of an FP32 value (R56). -/
abbrev F32 := BitVec 32

end Sys2Proof
end

