-- ==== Sys2Proof/Types.lean ====
section
/-! DEFINITION. The named alternatives that commands and state share: functions, job and context states, and what a
step meets in the world outside the device boundary (a read that fails, a frame that arrives, a sensor's reading). -/

namespace Sys2Proof

/-- A PCIe function: the physical function, or the VF of PTv (R322). -/
inductive Fn where
  | pf
  | vf (v : Nat)
  deriving DecidableEq, Repr

/-- The states of R39 but NONE, which is the absence of an unfinished job. -/
inductive JobSt where
  | queued | running | suspending | suspended | cancelling
  deriving DecidableEq, Repr

/-- The context states of R99 but FREE: a FREE context is one that the engine's list of contexts does not hold. -/
inductive CtxSt where
  | loaded | ready | waitMem | waitDep | retire | faulted
  deriving DecidableEq, Repr

/-- CAUSE of a FAULTED context (the value table beside ENG_CTX_STATUS). -/
inductive CtxCause where
  | none | dataUncorrected | link | badDivisor | checksum | localStore | writeError | badAppend | address
  deriving DecidableEq, Repr

/-- ENG_STATE.CAUSE of a mapped-out engine. -/
inductive OutCause where
  | none | checksum | localStore | powerOrTest
  deriving DecidableEq, Repr

/-- What a task's step meets in the stores, the link and the array while it runs (R115, R130, R413). -/
inductive StepMet where
  | clean
  | uncorrectable          -- an error response of a store to FETCH
  | linkDown               -- host window unreachable, in FETCH or WRITE
  | localStore             -- uncorrectable local-store error
  | parity                 -- fetch-pool tag, context or pipeline register
  | checksum (group row col : Nat) (delta : Int)   -- a cell of the 65 x 65 grid whose sum of a group is off by delta
  | writeError             -- any other error response to WRITE
  deriving DecidableEq, Repr

/-- What one attempt at a training step finds (R275): of each delay the passing range in ps, a setting passing where 65,536 bursts
give no error on any lane, and of each Vref the lowest and the highest passing code. -/
structure Sweep where
  delays : List (Int × Int)
  vrefs : List (Nat × Nat)
  deriving DecidableEq, Repr

/-- A channel's training (R274): the attempts at each of steps 1 to 4, and whether the array check of step 6 finds an error. -/
structure ChanTraining where
  steps : List (List Sweep)
  arrayError : Bool
  deriving DecidableEq, Repr

/-- What the last write of a task is answered with. -/
inductive WriteMet where
  | acknowledged | linkDown | writeError
  deriving DecidableEq, Repr

/-- How the pause of a live update ends (R381). -/
inductive FwMet where
  | confirmed | notQuiescent | notConfirmed | watchdog (cp : Nat)
  deriving DecidableEq, Repr

/-- How a flash die's operation ends (R295, R299, R301): with the pages' data (retries shifted read levels used), a page
that stays uncorrectable, a train that verified, or a train that failed its last verify. -/
inductive FlashMet where
  | readOk (retries : Nat) | readBad | verified | failed
  deriving DecidableEq, Repr

/-- Why a Siphon transfer stops (R320). -/
inductive SiphonMet where
  | readBad | linkDown | writeError
  deriving DecidableEq, Repr

/-- What an Echo work unit meets while it reads (R185). -/
inductive EchoMet where
  | clean
  | badSummary (index : Nat)   -- an uncorrectable read of a summary: the block or page scores +infinity
  | badTable                   -- an uncorrectable read of the table or its scales
  | outside                    -- an address outside the partition at run time
  deriving DecidableEq, Repr

/-- A run of an Echo work unit: what it meets, and the quantities T0, pages planned and pages not yet issued that R260 takes for
the layer of its job. -/
structure EchoRun where
  met : EchoMet
  t0 : Nat
  planned : Nat
  unissued : Nat
  deriving DecidableEq, Repr

/-- Why a Passage port goes down (R336), in the INFO coding of PORT_DOWN (R409). -/
inductive DownWhy where
  | phy | replayLimit | disabled
  deriving DecidableEq, Repr

/-- A received or sent Passage frame (R332), already decrypted. `crcOk`, `tagOk` and `stomped` say how its CRC and TAG
stand against the bytes that arrived. -/
structure Frame where
  ctr : Nat
  type : Nat
  vc : Nat
  keyPhase : Bool
  hops : Nat
  seq : Nat
  ackSeq : Nat
  payload : List Byte
  crcOk : Bool
  tagOk : Bool
  stomped : Bool
  deriving DecidableEq, Repr

/-- What SP finds of a KEYX frame (R337): whether the peer's certificate chain and signature hold, and the peer's identity
certificate. -/
structure KeyxMet where
  signed : Bool
  cert : List Byte
  deriving DecidableEq, Repr

/-- Who sends an end-to-end message and whom it names (R345), as PASSAGE_IDs. -/
structure ShipIds where
  origin : Nat
  peer : Nat
  deriving DecidableEq, Repr

/-- One monitor's answer to a dripline poll (R403): its position, whether its CRC is valid, whether its reading lies in
the fused plausible range, the margin in 5 mV steps that the monitor needs, and whether its droop passes the threshold. -/
structure DripFrame where
  pos : Nat
  crcOk : Bool
  plausible : Bool
  needs : Nat
  droop : Bool
  deriving DecidableEq, Repr

/-- Which target an MSI-X unmask names (R326): one entry, the function mask, or the enable in the capability. -/
inductive MsixTarget where
  | entry (e : Nat) | function | enable
  deriving DecidableEq, Repr

/-- The PEC that an SMBus write carries (R453). -/
inductive Pec where
  | absent | right | wrong
  deriving DecidableEq, Repr

/-- What the boot ROM's self-test of R422 finds, line by line. -/
structure SelfTest where
  rngOk : Bool
  cryptoOk : Bool
  badGroups : List Nat      -- shared-SRAM bank groups with an error that ECC cannot correct
  badEngines : List Nat     -- engines that fail their march test or known-answer tiles
  shorted : List Nat        -- engines whose domain is shorted while it ramps (R393)
  hottest : Nat             -- hottest of the 40 readings in degrees C
  sensor : Nat
  drip : List (List DripFrame)   -- the three polls of the dripline
  rngRetests : List Bool    -- the re-tests of R371 that followed a failed start-up test, in order
  floorW : Nat              -- the power manager's first floor estimate
  ssc : Bool                -- spread spectrum on the reference (R388)
  deriving DecidableEq, Repr

/-- What a BAR0 write carries, and what happens where it resets the device or boots a processor: what the self-test finds and
whether the firmware image can be read from the host. -/
structure RegData where
  value : BitVec 64
  found : SelfTest
  hostReadOk : Bool
  deriving DecidableEq, Repr

/-- What triggers a warm reset (R419). -/
inductive WarmTrigger where
  | perst | hot | flr | software
  deriving DecidableEq, Repr

/-- The demand that the power manager sees at one evaluation (R396, R397), in units of 10 mW. -/
structure PowerDemand where
  floor : Nat
  link : Nat
  passage : Nat
  compute : List Nat        -- per partition, PT0 first
  passagePart : List Nat    -- Passage demand per partition, PT0 first
  input : Nat               -- input power averaged over the last 1 ms
  deriving DecidableEq, Repr

/-- An SPDM request's carrier: in the clear, or under secure session `sid`. -/
inductive SpdmVia where
  | clear | session (sid : Nat)
  deriving DecidableEq, Repr

/-- What an IDE_KM exchange programs (R327): a stream and its AES-256 key. -/
structure IdeKey where
  stream : Nat
  key : List Byte
  deriving DecidableEq, Repr

/-- How a BAR4 access arrives and what it meets (R324): whether over the partition's IDE stream, and the DRAM words, as device
address ÷ 32, whose read meets a single-bit or an uncorrectable error. -/
structure Bar4Met where
  ide : Bool
  single : List Nat
  bad : List Nat
  deriving DecidableEq, Repr

end Sys2Proof
end

