-- ==== Sys2Proof/Syntax.lean ====
section
/-! DEFINITION. The commands of the device, one constructor per row of spec/opcode_table.json, in the table's order.
A job command names its job by `uid`, the number the job received when its descriptor was taken. -/

namespace Sys2Proof

inductive Instr where
  -- rings and doorbells (R16 to R46, R438, R459)
  | ringDoorbell (fn : Fn) (offset size : Nat) (value : BitVec 64)
  | pushDoorbell (fn : Fn) (offset size : Nat) (desc : BitVec 512)
  | takeDescriptor
  | writeCompletion (qp : Nat)
  | moderationTimeout (qp : Nat)
  | hostAccessReturns (fn : Fn)
  | qpEnable (fn : Fn) (qp : Nat)
  | qpDisable (fn : Fn) (qp : Nat)
  -- jobs on models and sequences
  | loadModel (uid : Nat) (badUnit : Option Nat)
  | unloadModel (uid : Nat)
  | prefill (uid : Nat)
  | prefillChunk (uid : Nat)
  | decodeStep (uid : Nat)
  | verifyTree (uid : Nat)
  | samplerDraw (uid : Nat)
  | kvMove (uid : Nat) (badRead : Bool)
  | kvShipOut (uid : Nat)
  | kvShipIn (uid : Nat)
  | prefixLookup (uid : Nat)
  | prefixInsert (uid : Nat)
  | variantLoad (uid : Nat)
  | trainStep (uid : Nat)
  | trainBatch (uid : Nat)
  | visionFrame (uid : Nat)
  | echoSearch (uid : Nat)
  -- control, flash, expert and partition jobs
  | suspend (uid : Nat)
  | resume (uid : Nat)
  | cancel (uid : Nat)
  | query (uid : Nat)
  | flashRead (uid : Nat)
  | flashProgram (uid : Nat)
  | flashErase (uid : Nat)
  | flashProtect (uid : Nat)
  | tileList (uid : Nat)
  | dmaRaw (uid : Nat)
  | createPartition (uid : Nat)
  | destroyPartition (uid : Nat)
  | attest (uid : Nat)
  | fwUpdate (uid : Nat) (met : FwMet)
  | safePoint (uid : Nat)
  | deadlineTick (uid : Nat)
  | withdrawalEnd (uid : Nat)
  -- engines (R92 to R132)
  | tileTaskLoad (uid : Nat) (words : List Nat)
  | slotGrant (eng : Nat)
  | fetchStepIssue (eng : Nat)
  | fetchStepComplete (eng ctx : Nat) (met : StepMet)
  | stopRamp (eng : Nat)
  | taskRetire (eng ctx : Nat) (met : WriteMet)
  | priorityAging (eng ctx : Nat)
  | contextRelease (eng ctx : Nat)
  | engineMapOut (eng : Nat) (cause : OutCause)
  -- KV cache, merge unit and Echo
  | sumpUnitGrant (part : Nat)
  | appendTimeout (eng ctx : Nat)
  | parkGroup (part : Nat)
  | groupFlush (part : Nat)
  | unitsFreed (part : Nat)
  | idleEpochTick (part : Nat)
  | pageReclaim (part : Nat)
  | mergeFold (uid : Nat) (uncorrectable : Bool)
  | echoWorkUnit (run : EchoRun)
  | echoAging
  -- vision intake
  | progressPoll
  | visionBurst (linkDown : Bool)
  | stallTimeout
  | lateDataDiscard
  | warpPatch (uncorrectable : Bool)
  -- memory tiers
  | promotion (uid layer expert need planned unissued : Nat)
  | moveLanded (mv : Nat)
  | fetchDeadline (mv uid : Nat) (unreadable : Bool)
  -- DRAM
  | dramRequest (port addr len : Nat) (write : Option (List Byte))
  | urgencyChange (port : Nat)
  | crossingGrant (ch : Nat)
  | dramReadComplete (ch : Nat) (single bad : List Nat)
  | patrolScrub (ch unit : Nat) (single bad : List Nat)
  | perBankRefresh (ch : Nat)
  | tempReadout (readings : List (Nat × Bool))
  | driftTrack (ch : Nat) (drift : Int)
  | channelRetrain (ch : Nat) (steps : List (List Sweep))
  | channelMapOut (ch : Nat)
  | powerDownEntry (ch : Nat)
  | dramTrainGo (fn : Fn) (value : Word)
  | dramTraining (found : List ChanTraining)
  -- flash
  | flashMount
  | gapMove (die : Nat)
  | eraseSuspend (die : Nat)
  | eraseResume (die : Nat)
  | eraseWindowEnd (die : Nat)
  | eraseStarved (die : Nat)
  | powerLoss
  -- Siphon
  | siphonBurstIssue
  | siphonTransferComplete (ch : Nat)
  | siphonAging (ch : Nat)
  | siphonError (ch : Nat) (met : SiphonMet)
  -- host link
  | linkTrained
  | linkLoss
  | flrVf (v : Nat)
  | flrPf (found : SelfTest)
  | hotReset (found : SelfTest)
  | bar4Access (fn : Fn) (offset len : Nat) (met : Bar4Met) (write : Option (List Byte))
  | owningFunctionChange (vfEnable : Bool) (numVfs : Nat)
  | msixUnmask (fn : Fn) (target : MsixTarget)
  | busMasterEnable (fn : Fn)
  | ideIntegrityFail (stream : Nat)
  | ideKm (via : SpdmVia) (key : IdeKey)
  | doeDiscovery (index : Nat)
  | getVersion (via : SpdmVia)
  | getCapabilities (via : SpdmVia)
  | negotiateAlgorithms (via : SpdmVia) (offered : Bool)
  | getDigests (via : SpdmVia)
  | getCertificate (via : SpdmVia) (slot offset len : Nat)
  | challenge (via : SpdmVia) (slot : Nat) (nonce : List Byte)
  | getMeasurements (via : SpdmVia) (index : Nat) (nonce : List Byte)
  | keyExchange (via : SpdmVia) (publicKey : List Byte)
  | finish (via : SpdmVia) (macOk : Bool)
  | heartbeat (via : SpdmVia)
  | keyUpdate (via : SpdmVia)
  | endSession (via : SpdmVia)
  -- Passage ports
  | data (port : Nat) (frame : Frame)
  | ack (port : Nat) (frame : Frame)
  | nak (port : Nat) (frame : Frame)
  | credit (port : Nat) (frame : Frame)
  | probe (port : Nat) (frame : Frame)
  | probeReply (port : Nat) (frame : Frame)
  | keyx (port : Nat) (frame : Frame) (met : KeyxMet)
  | discover (port : Nat) (frame : Frame)
  | portLinkUp (port : Nat)
  | portDown (port : Nat) (why : DownWhy)
  | replayTimeout (port : Nat)
  | ackTimer (port : Nat)
  | creditTimer (port : Nat)
  | rekeyThreshold (port : Nat)
  | portLocked (port : Nat)
  | keyxRetry (port : Nat)
  | xferReady (port : Nat) (ids : ShipIds) (tag : Nat)
  | readyResend (uid : Nat)
  | e2eAck (uid : Nat) (offset : Nat) (final : Bool)
  | xferHold (uid : Nat)
  | holdTimer (uid : Nat)
  | xferAbort (uid : Nat) (confMismatch : Bool)
  | shipProgressTimeout (uid : Nat)
  | probeTimeout (uid : Nat)
  | passageRekey (fn : Fn) (port : Nat)
  | passageEnable (fn : Fn) (port : Nat) (enable : Bool)
  -- randomness and crypto
  | rngHealthFail
  | rngRetestEnd (passed : Bool)
  | rngRetest (fn : Fn)
  | drbgReseed
  | cryptoSegment
  | quantumExpiry (eng : Nat)
  -- Kadon
  | cpBootGo (fn : Fn) (hostReadOk : Bool)
  | cpWatchdog (cp : Nat)
  | cpRestartDone (cp : Nat)
  | spWatchdog
  | traceEnable (fn : Fn) (value : Word)
  | traceTailWrite (fn : Fn) (value : Word)
  | replayGo (fn : Fn) (value : Word)
  | replayStop (fn : Fn)
  -- power, clocks, thermal, dripline
  | powerCapEval (demand : PowerDemand)
  | pwrCapWrite (fn : Fn) (value : Word)
  | pwrbrkN (asserted : Bool)
  | thermalSample (readings : List Nat)
  | thermalTrip
  | domainRamp (eng : Nat)
  | rampComplete (eng : Nat)
  | idleGate (eng : Nat)
  | domainShort (eng : Nat) (railLow : Bool)
  | sectorFault (sector : Nat)
  | clockLoss
  | timebaseLoRead (fn : Fn)
  | dripPoll (frames : List DripFrame)
  | dripReplan (needs : List Nat)
  -- faults
  | faultOccurrence (source cls detail : Nat) (part : Option Nat) (tag info : Nat)
  | continuedRecord (source cls : Nat)
  | faultTailWrite (fn : Fn) (value : Word)
  -- start-up, reset, shutdown
  | powerOn (found : SelfTest)
  | fullReset (fn : Fn) (found : SelfTest)
  | warmReset (fn : Fn) (found : SelfTest)
  | perstN (asserted : Bool) (lowNs : Nat) (found : SelfTest)
  | deviceReady
  | shutdown (fn : Fn)
  | d3hotEntry
  | d3hotExit (found : SelfTest)
  | railsValid
  | p12vOvervoltage
  | strapSample (mid : Nat)
  -- SMBus
  | status
  | tempHottest
  | tempModule (celsius : Int)
  | powerIn
  | capSet (write : Option Byte) (pec : Pec)
  | emergency (write : Option Byte) (pec : Pec)
  | clearAlert (pec : Pec)
  | fruOffset (value : Byte) (pec : Pec)
  | fruRead
  | alertResponse
  -- registers and the remaining rows
  | registerWrite (fn : Fn) (offset size : Nat) (data : RegData)
  | flashOperationDone (die : Nat) (met : FlashMet)
  | dramWriteComplete (ch : Nat) (single bad : List Nat)
  | sramPatrolScrub (group : Nat) (corrected : Nat) (bad : List Nat)
  | auxRailLoss
  | referenceClockRestored (found : SelfTest)
  | refreshManagement (ch bank : Nat)
  deriving DecidableEq, Repr

end Sys2Proof
end

