-- ==== Sys2Proof/Machine/Bits.lean ====
section
/-! DEFINITION. Bit fields, little-endian bytes (R4) and small list helpers that every family uses. -/

namespace Sys2Proof.Machine

/-- Field [hi:lo] of a number. -/
def bits (hi lo w : Nat) : Nat := w / 2 ^ lo % 2 ^ (hi + 1 - lo)

/-- Field [hi:lo] replaced by `v`. -/
def putBits (hi lo v w : Nat) : Nat := w - bits hi lo w * 2 ^ lo + v % 2 ^ (hi + 1 - lo) * 2 ^ lo

def bit (i w : Nat) : Bool := w / 2 ^ i % 2 == 1

def b2n (b : Bool) : Nat := if b then 1 else 0

/-- A two's complement field of `w` bits as an integer. -/
def sext (w n : Nat) : Int := if n < 2 ^ (w - 1) then (n : Int) else (n : Int) - 2 ^ w

/-- The two's complement code of an integer in `w` bits. -/
def tc (w : Nat) (x : Int) : Nat := (x % 2 ^ w).toNat

/-- Bytes in ascending address order as a little-endian number. -/
def leNat : List Byte → Nat
  | [] => 0
  | b :: bs => b.toNat + 256 * leNat bs

/-- The `n` little-endian bytes of a number. -/
def leBytes : Nat → Nat → List Byte
  | 0, _ => []
  | n + 1, v => BitVec.ofNat 8 v :: leBytes n (v / 256)

/-- `n` bytes of the word list `ws` of 32-bit words, in order. -/
def wordsBytes (ws : List Nat) : List Byte := ws.flatMap (leBytes 4)

/-- The words of a byte string, four bytes each. -/
def bytesWords (n : Nat) (bs : List Byte) : List Nat :=
  (List.range n).map fun i => leNat ((bs.drop (4 * i)).take 4)

/-- The words of a 512-bit descriptor, word 0 lowest. -/
def descWords (d : BitVec 512) : List Nat := (List.range 16).map fun i => d.toNat / 2 ^ (32 * i) % 2 ^ 32

def wordAt (ws : List Nat) (i : Nat) : Nat := ws.getD i 0

/-- A 48-bit address: low word, and bits [15:0] of the next (R31). -/
def addr48 (ws : List Nat) (i : Nat) : Nat := wordAt ws i + 2 ^ 32 * bits 15 0 (wordAt ws (i + 1))

def ceilDiv (a b : Nat) : Nat := (a + b - 1) / b

def satInc (top n k : Nat) : Nat := min top (n + k)

def top32 : Nat := 0xFFFFFFFF

/-- An association list's value at a key. -/
def assoc {β : Type} (l : List (Nat × β)) (k : Nat) : Option β := (l.find? fun p => p.1 == k).map Prod.snd

/-- Set the value at a key, dropping what stood there. -/
def assocSet {β : Type} (l : List (Nat × β)) (k : Nat) (v : β) : List (Nat × β) := (k, v) :: l.filter fun p => p.1 != k

def assocDel {β : Type} (l : List (Nat × β)) (k : Nat) : List (Nat × β) := l.filter fun p => p.1 != k

/-- The first element in cyclic order after position `after`, among the numbers below `n`, that satisfies `p`. -/
def cyclicFind (n after : Nat) (p : Nat → Bool) : Option Nat :=
  ((List.range n).map fun i => (after + 1 + i) % n).find? p

/-- The element with the greatest key, the earlier one on a tie. -/
def maxBy {α : Type} (key : α → Nat) : List α → Option α
  | [] => none
  | a :: as => match maxBy key as with
    | none => some a
    | some b => if key a < key b then some b else some a

/-- The element with the least key, the earlier one on a tie. -/
def minBy {α : Type} (key : α → Nat) : List α → Option α
  | [] => none
  | a :: as => match minBy key as with
    | none => some a
    | some b => if key b < key a then some b else some a

/-- Insert by a key into an ascending list, after equals. -/
def insertBy {α : Type} (before : α → α → Bool) (a : α) : List α → List α
  | [] => [a]
  | b :: bs => if before a b then a :: b :: bs else b :: insertBy before a bs

/-- Insertion sort: equals stay in the order of the list. -/
def sortBy {α : Type} (before : α → α → Bool) (l : List α) : List α := l.foldl (fun acc a => insertBy before a acc) []

/-- FNV-1a 64 over a byte string (R197). -/
def fnv1a (bs : List Byte) : Nat :=
  bs.foldl (fun h b => (h ^^^ b.toNat) * 0x00000100000001B3 % 2 ^ 64) 0xCBF29CE484222325

/-- CRC-32 with polynomial 0x04C1_1DB7, bit-reflected, initial value and final complement all ones (R332, R455). -/
def crc32 (bs : List Byte) : Nat :=
  let stepBit (c : Nat) : Nat := if c % 2 == 1 then (c / 2) ^^^ 0xEDB88320 else c / 2
  let stepByte (c : Nat) (b : Byte) : Nat := (List.range 8).foldl (fun c _ => stepBit c) (c ^^^ b.toNat)
  bs.foldl stepByte 0xFFFFFFFF ^^^ 0xFFFFFFFF

end Sys2Proof.Machine
end

