-- ==== Sys2Proof/Machine/Num.lean ====
section
/-! DEFINITION. Exact values and their rounding: IEEE 754 binary32 arithmetic (R56, R64, R66), one rounding per
operation, to nearest with ties to even, subnormals kept, every NaN canonical. -/

namespace Sys2Proof.Machine

/-- The exact value of a floating-point code: a finite magnitude num / den with its sign (zero keeps one). -/
inductive FV where
  | nan
  | inf (neg : Bool)
  | fin (neg : Bool) (num den : Nat)
  deriving DecidableEq, Repr

def FV.zero : FV := .fin false 0 1

def FV.ofInt (x : Int) : FV := .fin (decide (x < 0)) x.natAbs 1

/-- Division of naturals rounded to nearest, ties to even. -/
def rneDiv (a b : Nat) : Nat :=
  let q := a / b
  let r := a % b
  if 2 * r < b then q else if b < 2 * r then q + 1 else if q % 2 = 0 then q else q + 1

/-- ⌊log2 (num / den)⌋ for positive num and den. -/
def floorLog2 (num den : Nat) : Int :=
  let e : Int := (Nat.log2 num : Int) - (Nat.log2 den : Int)
  if den * 2 ^ e.toNat ≤ num * 2 ^ (-e).toNat then e else e - 1

/-- The magnitude code nearest num / den in a format of `p` significant bits whose smallest unit is 2^qmin, as if the
exponent had no upper end: exponent field and mantissa follow from carrying. -/
def roundMag (p : Nat) (qmin : Int) (num den : Nat) : Nat :=
  if num = 0 then 0 else
    let q := max (floorLog2 num den - (p - 1 : Nat)) qmin
    let m := rneDiv (num * 2 ^ (-q).toNat) (den * 2 ^ q.toNat)
    (q - qmin).toNat * 2 ^ (p - 1) + m

/-- The value of a magnitude code of such a format: numerator and denominator. -/
def magVal (p : Nat) (qmin : Int) (c : Nat) : Nat × Nat :=
  let e := c / 2 ^ (p - 1)
  let m := if e = 0 then c else 2 ^ (p - 1) + c % 2 ^ (p - 1)
  let q := qmin + ((e - 1 : Nat) : Int)
  (m * 2 ^ q.toNat, 2 ^ (-q).toNat)

def f32NaN : F32 := 0x7FC00000

/-- The exact value of an FP32 code (R56). -/
def f32Val (w : F32) : FV :=
  let n := w.toNat
  let neg := 2 ^ 31 ≤ n
  let m := n % 2 ^ 31
  if m < 0x7F800000 then let v := magVal 24 (-149) m; .fin neg v.1 v.2
  else if m = 0x7F800000 then .inf neg else .nan

/-- The FP32 code nearest an exact value (R58): overflow gives infinity by IEEE 754. -/
def toF32 : FV → F32
  | .nan => f32NaN
  | .inf neg => BitVec.ofNat 32 (0x7F800000 + b2n neg * 2 ^ 31)
  | .fin neg num den => BitVec.ofNat 32 (min 0x7F800000 (roundMag 24 (-149) num den) + b2n neg * 2 ^ 31)

/-- An FP32 result as the device stores it: a NaN is the canonical one (R56). -/
def canonF32 (w : F32) : F32 :=
  match f32Val w with
  | .nan => f32NaN
  | _ => w

/-- Exact sum; a zero sum is negative only when both terms are. -/
def FV.add : FV → FV → FV
  | .nan, _ => .nan
  | _, .nan => .nan
  | .inf a, .inf b => if a = b then .inf a else .nan
  | .inf a, _ => .inf a
  | _, .inf b => .inf b
  | .fin s a b, .fin t c d =>
    let x : Int := if s then -((a * d : Nat) : Int) else ((a * d : Nat) : Int)
    let y : Int := if t then -((c * b : Nat) : Int) else ((c * b : Nat) : Int)
    .fin (if x + y = 0 then s && t else decide (x + y < 0)) (x + y).natAbs (b * d)

def FV.neg : FV → FV
  | .nan => .nan
  | .inf a => .inf (!a)
  | .fin s a b => .fin (!s) a b

def FV.mul : FV → FV → FV
  | .nan, _ => .nan
  | _, .nan => .nan
  | .inf a, .inf b => .inf (a != b)
  | .inf a, .fin t c _ => if c = 0 then .nan else .inf (a != t)
  | .fin s a _, .inf b => if a = 0 then .nan else .inf (s != b)
  | .fin s a b, .fin t c d => .fin (s != t) (a * c) (b * d)

def FV.div : FV → FV → FV
  | .nan, _ => .nan
  | _, .nan => .nan
  | .inf _, .inf _ => .nan
  | .inf a, .fin t _ _ => .inf (a != t)
  | .fin s _ _, .inf b => .fin (s != b) 0 1
  | .fin s a b, .fin t c d =>
    if c = 0 then (if a = 0 then .nan else .inf (s != t)) else .fin (s != t) (a * d) (b * c)

def FV.isNaN : FV → Bool
  | .nan => true
  | _ => false

def FV.isFin : FV → Bool
  | .fin _ _ _ => true
  | _ => false

def FV.isZero : FV → Bool
  | .fin _ n _ => n == 0
  | _ => false

def FV.sign : FV → Bool
  | .nan => false
  | .inf s => s
  | .fin s _ _ => s

def FV.abs : FV → FV
  | .nan => .nan
  | .inf _ => .inf false
  | .fin _ a b => .fin false a b

/-- a < b for values that are not NaN; the two zeros are equal; false if either is NaN. -/
def FV.lt : FV → FV → Bool
  | .nan, _ => false
  | _, .nan => false
  | .inf a, .inf b => a && !b
  | .inf a, _ => a
  | _, .inf b => !b
  | .fin s a b, .fin t c d =>
    let x : Int := if s then -((a * d : Nat) : Int) else ((a * d : Nat) : Int)
    let y : Int := if t then -((c * b : Nat) : Int) else ((c * b : Nat) : Int)
    decide (x < y)

def fadd (a b : F32) : F32 := toF32 ((f32Val a).add (f32Val b))
def fsub (a b : F32) : F32 := toF32 ((f32Val a).add (f32Val b).neg)
def fmul (a b : F32) : F32 := toF32 ((f32Val a).mul (f32Val b))
def fdiv (a b : F32) : F32 := toF32 ((f32Val a).div (f32Val b))
def flt (a b : F32) : Bool := (f32Val a).lt (f32Val b)
def fIsNaN (a : F32) : Bool := (f32Val a).isNaN
def fIsFin (a : F32) : Bool := (f32Val a).isFin
def f32Int (x : Int) : F32 := toF32 (FV.ofInt x)

/-- The exact maximum: NaN if either is NaN (R111, R166). -/
def fmax (a b : F32) : F32 := if fIsNaN a || fIsNaN b then f32NaN else if flt a b then b else a

def f32NegInf : F32 := 0xFF800000
def f32Inf : F32 := 0x7F800000
def f32One : F32 := 0x3F800000

/-- Integer square root, bit by bit from bit `k - 1`. -/
def isqrtGo (n : Nat) : Nat → Nat → Nat
  | 0, r => r
  | k + 1, r => let t := r + 2 ^ k; if t * t ≤ n then isqrtGo n k t else isqrtGo n k r

def isqrt (n : Nat) : Nat := isqrtGo n (Nat.log2 n / 2 + 1) 0

/-- √(num / den) as a rational that rounds as the exact root does: 200 extra bits and a sticky bit. -/
def sqrtRat (num den : Nat) : Nat × Nat :=
  let n := num * den * 4 ^ 200
  let r := isqrt n
  (2 * r + (if r * r = n then 0 else 1), den * 2 ^ 201)

/-- IEEE 754 binary32 square root (R90). -/
def fsqrt (a : F32) : F32 :=
  match f32Val a with
  | .nan => f32NaN
  | .inf neg => if neg then f32NaN else f32Inf
  | .fin neg n d =>
    if n = 0 then a else if neg then f32NaN else let r := sqrtRat n d; toF32 (.fin false r.1 r.2)

/-- Sum over up to 64 lanes: adjacent pairs, six levels (R66). Missing lanes of the last level do not occur: spans are
multiples of 64; a shorter list adds what it has pairwise. -/
def pairSums : List F32 → List F32
  | a :: b :: r => fadd a b :: pairSums r
  | l => l

def laneSum (l : List F32) : F32 :=
  ((List.range 6).foldl (fun x _ => pairSums x) l).headD 0

/-- A sum longer than 64 elements: 64-lane results in ascending chunk order (R66). -/
def chunkSum (l : List F32) : F32 :=
  let n := ceilDiv l.length 64
  let sums := (List.range n).map fun i => laneSum ((l.drop (64 * i)).take 64)
  match sums with
  | [] => 0
  | a :: r => r.foldl fadd a

end Sys2Proof.Machine
end

