-- ==== Sys2Proof/Machine/Formats.lean ====
section
/-! DEFINITION. The Onxel formats (R47 to R60): the value of every code, packing in memory, and every conversion with its
saturation count; scales and zero points (R74 to R79, R88 to R90); the conversion of R63; ROTATE (R84, R86). -/

namespace Sys2Proof.Machine

/-- The element formats of R47, with FP32, which has no format code. -/
inductive Fmt where
  | s4 | s3 | s2 | t1 | s8 | u4z | u8z | f4 | f8a | f8b | bf16
  deriving DecidableEq, Repr

/-- The 4-bit format codes of R47; 0xB to 0xF are invalid (R48). -/
def fmtOf : Nat → Option Fmt
  | 0 => some .s4 | 1 => some .s3 | 2 => some .s2 | 3 => some .t1 | 4 => some .s8 | 5 => some .u4z | 6 => some .u8z
  | 7 => some .f4 | 8 => some .f8a | 9 => some .f8b | 10 => some .bf16 | _ => none

def Fmt.tokenSide : Fmt → Bool
  | .s3 | .s2 | .t1 => false
  | _ => true

def Fmt.weightSide : Fmt → Bool
  | .u4z | .u8z => false
  | _ => true

/-- Written by PACK or Siphon (R47). -/
def Fmt.packed : Fmt → Bool
  | .s3 | .s2 | .t1 => false
  | _ => true

/-- Bits per element; T1 packs 64 elements in 13 bytes (R50). -/
def Fmt.width : Fmt → Nat
  | .s4 | .u4z | .f4 => 4
  | .s3 => 3
  | .s2 => 2
  | .t1 => 0
  | .s8 | .u8z | .f8a | .f8b => 8
  | .bf16 => 16

/-- Bytes that `n` elements take. -/
def Fmt.bytesFor (f : Fmt) (n : Nat) : Nat :=
  match f with
  | .t1 => 13 * ceilDiv n 64
  | _ => ceilDiv (f.width * n) 8

def Fmt.isU : Fmt → Bool
  | .u4z | .u8z => true
  | _ => false

/-- F8A, F8B and BF16 enter the array through R63's conversion. -/
def Fmt.converted : Fmt → Bool
  | .f8a | .f8b | .bf16 => true
  | _ => false

/-- Whether a token-side operand of this format has token scale records (R78, R79). -/
def Fmt.scaled : Fmt → Bool
  | .bf16 => false
  | _ => true

/-! ## Values of codes -/

/-- A small float's value: significant bits, smallest unit, first code that is not finite, whether that code is
infinity. -/
def floatVal (p : Nat) (qmin : Int) (signBit top : Nat) (hasInf : Bool) (c : Nat) : FV :=
  let neg := bit signBit c
  let m := c % 2 ^ signBit
  if m < top then let v := magVal p qmin m; .fin neg v.1 v.2
  else if hasInf && m == top then .inf neg else .nan

def f4Val (c : Nat) : FV := floatVal 2 (-1) 3 8 false c
def f8aVal (c : Nat) : FV := floatVal 4 (-9) 7 0x7F false c
def f8bVal (c : Nat) : FV := floatVal 3 (-16) 7 0x7C true c
def bf16Val (c : Nat) : FV := floatVal 8 (-133) 15 0x7F80 true c

/-- UE5M3 (R57). -/
def ue5m3Val (c : Nat) : FV := if c = 0xFF then .nan else let v := magVal 4 (-17) c; .fin false v.1 v.2

/-- The value v(k) of a code; the U formats give the code itself, zero point not subtracted. -/
def Fmt.val (f : Fmt) (c : Nat) : FV :=
  match f with
  | .s4 => .ofInt (sext 4 c)
  | .s3 => .ofInt (sext 3 c)
  | .s2 => .ofInt (sext 2 c)
  | .t1 => .ofInt (sext 2 c)      -- unpacked trits are held as two-bit two's complement
  | .s8 => .ofInt (sext 8 c)
  | .u4z | .u8z => .ofInt c
  | .f4 => f4Val c
  | .f8a => f8aVal c
  | .f8b => f8bVal c
  | .bf16 => bf16Val c

/-! ## Packing (R49, R50) -/

/-- Element `i` of width `w` in the little-endian bit stream of a byte string. -/
def unpackAt (w : Nat) (bs : List Byte) (i : Nat) : Nat :=
  let k := w * i
  leNat ((bs.drop (k / 8)).take 3) / 2 ^ (k % 8) % 2 ^ w

/-- The five trits of a T1 byte; 243 to 255 read as zeros (R51). -/
def tritAt (b j : Nat) : Int := if 243 ≤ b then 0 else (b / 3 ^ j % 3 : Nat) - 1

def unpackTrit (bs : List Byte) (i : Nat) : Int := tritAt (bs.getD (13 * (i / 64) + i % 64 / 5) 0).toNat (i % 64 % 5)

/-- The first `n` element codes of a byte string. -/
def Fmt.unpack (f : Fmt) (bs : List Byte) (n : Nat) : List Nat :=
  match f with
  | .t1 => (List.range n).map fun i => tc 2 (unpackTrit bs i)
  | _ => (List.range n).map fun i => unpackAt f.width bs i

/-- Whether a T1 operand holds an invalid byte (R51). -/
def t1Bad (f : Fmt) (bs : List Byte) : Bool := f == .t1 && bs.any fun b => decide (243 ≤ b.toNat)

/-- The first `k` pieces of `n` elements. -/
def chunksOf {α : Type} (n : Nat) : Nat → List α → List (List α)
  | 0, _ => []
  | k + 1, l => l.take n :: chunksOf n k (l.drop n)

/-- Pack element codes of width `w`, the last byte filled with zero bits. -/
def packBits (w : Nat) (cs : List Nat) : List Byte :=
  let stream := cs.foldr (fun c acc => c % 2 ^ w + 2 ^ w * acc) 0
  leBytes (ceilDiv (w * cs.length) 8) stream

/-- One trit block: 64 trits (two-bit codes) in 13 bytes, the last digit of byte 12 as 1 (R50). -/
def packTrits (cs : List Nat) : List Byte :=
  (List.range 13).map fun b =>
    BitVec.ofNat 8 (((List.range 5).map fun j =>
      (if 5 * b + j < 64 then (sext 2 (cs.getD (5 * b + j) 0) + 1).toNat else 1) * 3 ^ j).sum)

def Fmt.pack (f : Fmt) (cs : List Nat) : List Byte :=
  match f with
  | .t1 => (chunksOf 64 (ceilDiv cs.length 64) cs).flatMap packTrits
  | _ => packBits f.width cs

/-- FP32 values stored little-endian. -/
def f32Bytes (l : List F32) : List Byte := l.flatMap fun x => leBytes 4 x.toNat

/-- `n` FP32 values of a byte string. -/
def bytesF32 (n : Nat) (bs : List Byte) : List F32 :=
  (List.range n).map fun i => BitVec.ofNat 32 (leNat ((bs.drop (4 * i)).take 4))

def bytesBf16 (n : Nat) (bs : List Byte) : List F32 :=
  (List.range n).map fun i => BitVec.ofNat 32 (2 ^ 16 * leNat ((bs.drop (2 * i)).take 2))

/-! ## Conversions (R58, R59): the code and whether it counts as a saturation (R60) -/

/-- The integer nearest a finite value, ties to even. -/
def rneInt (neg : Bool) (num den : Nat) : Int := if neg then -((rneDiv num den : Nat) : Int) else (rneDiv num den : Nat)

/-- To an integer range, as an integer. -/
def toIntRange (lo hi : Int) : FV → Int × Bool
  | .nan => (0, true)
  | .inf neg => (if neg then lo else hi, true)
  | .fin neg num den => let r := rneInt neg num den
    (max lo (min hi r), decide (r < lo) || decide (hi < r))

/-- To U4Z or U8Z with zero point z: RNE(x) + z, clamped. -/
def toU (w z : Nat) : FV → Nat × Bool
  | .nan => (z, true)
  | .inf neg => (if neg then 0 else 2 ^ w - 1, true)
  | .fin neg num den => let r := rneInt neg num den + z
    ((max 0 (min (2 ^ w - 1) r)).toNat, decide (r < 0) || decide ((2 ^ w - 1 : Int) < r))

/-- To a small float: `top` is the largest finite code; `inf` what an infinity maps to (none: top, counted); `nan` the
NaN's code and whether that is no NaN. A magnitude above the largest finite value saturates. -/
def toSmall (p : Nat) (qmin : Int) (signBit top : Nat) (inf : Option Nat) (nan : Nat × Bool) : FV → Nat × Bool
  | .nan => nan
  | .inf neg => (inf.getD top + b2n neg * 2 ^ signBit, inf.isNone)
  | .fin neg num den =>
    let t := magVal p qmin top
    let tooBig := decide (t.1 * den < num * t.2)
    (min top (roundMag p qmin num den) + b2n neg * 2 ^ signBit, tooBig)

def toF4 : FV → Nat × Bool := toSmall 2 (-1) 3 7 none (0, true)
def toF8A : FV → Nat × Bool := toSmall 4 (-9) 7 0x7E none (0x7F, false)
def toF8B : FV → Nat × Bool := toSmall 3 (-16) 7 0x7B (some 0x7C) (0x7E, false)

/-- BF16 overflows to infinity by IEEE 754 and counts nothing (R59, R60). -/
def toBf16 : FV → Nat
  | .nan => 0x7FC0
  | .inf neg => 0x7F80 + b2n neg * 2 ^ 15
  | .fin neg num den => min 0x7F80 (roundMag 8 (-133) num den) + b2n neg * 2 ^ 15

/-- UE5M3: a negative finite value gives 0x00. Such a value counts as a clamp, and so does one above 114,688 that rounds onto 0xFE
(DESIGN CHOICE, log entry 79: R60 counts clamps, and R59 says for F4, F8A and F8B alone which values lie beyond the range). -/
def toUE5M3 : FV → Nat × Bool
  | .nan => (0xFF, false)
  | .inf neg => (if neg then 0 else 0xFE, true)
  | .fin neg num den =>
    if neg then (0, decide (num ≠ 0)) else
      let t := magVal 4 (-17) 0xFE
      (min 0xFE (roundMag 4 (-17) num den), decide (t.1 * den < num * t.2))

/-- Conversion of a value (already divided by its scale) to a format's code. Integer targets of PACK and of the flush
clamp S4 and S8 to -Q_f .. Q_f where `sym` is set (R76). -/
def Fmt.conv (f : Fmt) (sym : Bool) (z : Nat) (x : FV) : Nat × Bool :=
  match f with
  | .s4 => let r := toIntRange (if sym then -7 else -8) 7 x; (tc 4 r.1, r.2)
  | .s8 => let r := toIntRange (if sym then -127 else -128) 127 x; (tc 8 r.1, r.2)
  | .s3 => let r := toIntRange (-4) 3 x; (tc 3 r.1, r.2)
  | .s2 => let r := toIntRange (-2) 1 x; (tc 2 r.1, r.2)
  | .t1 => let r := toIntRange (-1) 1 x; (tc 2 r.1, r.2)
  | .u4z => toU 4 z x
  | .u8z => toU 8 z x
  | .f4 => toF4 x
  | .f8a => toF8A x
  | .f8b => toF8B x
  | .bf16 => (toBf16 x, false)

/-- Q_f of R74. -/
def Fmt.qf : Fmt → Nat
  | .s4 => 7
  | .s8 => 127
  | .f4 => 6
  | .f8a => 448
  | .f8b => 57344
  | _ => 1

/-! ## Group scales (R74) -/

/-- The largest magnitude of a list of finite values. -/
def maxAbs (xs : List FV) : FV := xs.foldl (fun m x => if m.lt x.abs then x.abs else m) FV.zero

def allFin (xs : List FV) : Bool := xs.all FV.isFin

def countTrue (l : List (Nat × Bool)) : Nat := (l.filter Prod.snd).length

/-- Quantise a group: its UE5M3 scale, its codes, and the saturations counted. A group with a NaN or an infinity, whose codes are
all 0, counts none: the rules do not say whether its values saturate (DESIGN CHOICE, log entry 113). -/
def groupQuant (f : Fmt) (sym : Bool) (xs : List FV) : Nat × List Nat × Nat :=
  if !allFin xs then (0xFF, xs.map fun _ => 0, 0) else
    let s := toUE5M3 ((maxAbs xs).div (.ofInt f.qf))
    if s.1 = 0 then (0, xs.map fun _ => 0, b2n s.2) else
      let cs := xs.map fun x => f.conv sym 0 (x.div (ue5m3Val s.1))
      (s.1, cs.map Prod.fst, b2n s.2 + countTrue cs)

/-- R63's conversion of a group to S8, elements clamped to -127 .. 127. -/
def decodeGroup (xs : List FV) : Nat × List Nat × Nat := groupQuant .s8 true xs

/-- The second moment's square roots (R90): scale M / 255, codes 0 to 255. -/
def secondMoment (rs : List FV) : Nat × List Nat × Nat :=
  if !allFin rs then (0xFF, rs.map fun _ => 0, 0) else
    let s := toUE5M3 ((maxAbs rs).div (.ofInt 255))
    if s.1 = 0 then (0, rs.map fun _ => 0, b2n s.2) else
      let cs := rs.map fun r => toU 8 0 (r.div (ue5m3Val s.1))
      (s.1, cs.map Prod.fst, b2n s.2 + countTrue cs)

/-! ## Per-token scales in PACK (R75 to R79) -/

/-- A row span's scale, zero point, codes and saturations. -/
def spanQuant (f : Fmt) (xs : List FV) : Nat × Nat × List Nat × Nat :=
  if f == .bf16 then (0x3F80, 0, xs.map toBf16, 0)
  else if !allFin xs then (0x7FC0, 0, xs.map fun _ => 0, 1)
  else if f.isU then
    let lo := xs.foldl (fun m x => if x.lt m then x else m) FV.zero
    let hi := xs.foldl (fun m x => if m.lt x then x else m) FV.zero
    let w := f.width
    let d32 := f32Val (toF32 (hi.add lo.neg))
    let d := if d32.isFin then d32 else hi.add lo.neg
    let sc := toBf16 (d.div (.ofInt (2 ^ w - 1)))
    if sc = 0 then (0, 0, xs.map fun _ => 0, 0) else
      let z := (toU w 0 (lo.neg.div (bf16Val sc))).1
      let cs := xs.map fun x => toU w z (x.div (bf16Val sc))
      (sc, z, cs.map Prod.fst, countTrue cs)
  else
    let sc := toBf16 ((maxAbs xs).div (.ofInt f.qf))
    if sc = 0 then (0, 0, xs.map fun _ => 0, 0) else
      let cs := xs.map fun x => f.conv true 0 (x.div (bf16Val sc))
      (sc, 0, cs.map Prod.fst, countTrue cs)

/-- The token scale record of R79. -/
def scaleRecord (sc z : Nat) : List Byte := leBytes 4 (sc + 2 ^ 16 * z)

/-! ## What enters the cells (R61, R62) -/

/-- The cell image of a code as one integer: F4 enters as 2v; eight-bit codes recombine exactly. -/
def Fmt.image (f : Fmt) (c : Nat) : Int :=
  match f with
  | .s4 => sext 4 c
  | .s3 => sext 3 c
  | .s2 | .t1 => sext 2 c
  | .s8 => sext 8 c
  | .u4z | .u8z => c
  | .f4 => match f4Val c with
    | .fin neg num den => (if neg then -1 else 1) * ((2 * num / den : Nat) : Int)
    | _ => 0
  | _ => sext 8 c

/-- One group's operand as the array sees it: images, the scale that R63 formed (none otherwise), saturations. -/
def groupImages (f : Fmt) (codes : List Nat) : List Int × Option Nat × Nat :=
  if f.converted then
    let r := decodeGroup (codes.map f.val)
    (r.2.1.map (sext 8), some r.1, r.2.2)
  else (codes.map f.image, none, 0)

/-- The exact sum of products of one group. -/
def dot : List Int → List Int → Int
  | a :: as, b :: bs => a * b + dot as bs
  | _, _ => 0

def ue5m3F32 (c : Nat) : F32 := toF32 (ue5m3Val c)
def bf16F32 (c : Nat) : F32 := BitVec.ofNat 32 (2 ^ 16 * c)

/-- R64's step for one group: acc, the sum g, the F4 operands, the weight-side and token-side scales. -/
def accGroup (acc : F32) (g : Int) (f4s : Nat) (sw : F32) (sa : Option F32) : F32 :=
  let p := toF32 ((FV.ofInt g).mul (.fin false 1 (2 ^ f4s)))
  let t := fmul p sw
  let t := match sa with
    | some a => fmul t a
    | none => t
  fadd acc t

/-- R82's finish of one output element. -/
def finishElem (acc : F32) (z : Nat) (wsum : F32) (sigma : Option F32) (bias : Option F32) : F32 :=
  let u := if z = 0 then acc else fsub acc (fmul (f32Int z) wsum)
  let u := match sigma with
    | some g => fmul u g
    | none => u
  match bias with
  | some b => fadd u b
  | none => u

/-! ## ROTATE (R84, R86) -/

/-- One stage of the Hadamard transform: bit k of the index. -/
def hadStage (k : Nat) (x : List F32) : List F32 :=
  (List.range x.length).map fun i =>
    if i / 2 ^ k % 2 = 0 then fadd (x.getD i 0) (x.getD (i + 2 ^ k) 0) else fsub (x.getD (i - 2 ^ k) 0) (x.getD i 0)

def hadScale (b : Nat) : F32 := if b = 64 then 0x3E000000 else if b = 128 then 0x3DB504F3 else 0x3D800000

/-- One block of B elements. -/
def hadBlock (b : Nat) (x : List F32) : List F32 :=
  ((List.range (Nat.log2 b)).foldl (fun x k => hadStage k x) x).map fun v => fmul v (hadScale b)

/-- Smoothing by BF16 divisors, then the block transform (b = 0: none). -/
def rotateRow (div : Option (List F32)) (b : Nat) (x : List F32) : List F32 :=
  let x := match div with
    | some d => List.zipWith fdiv x d
    | none => x
  if b = 0 then x else (chunksOf b (x.length / b) x).flatMap (hadBlock b)

end Sys2Proof.Machine
end

