-- ==== Sys2Proof/Machine/Mem.lean ====
section
/-! DEFINITION. Sparse byte memories: lists of (address, byte) in rising order of address, with no entry that equals what
the unlisted address reads as (`blank`). Multi-byte values are little-endian (R4). -/

namespace Sys2Proof.Machine

/-- The byte at an address. -/
def Mem.get (blank : Nat → Byte) : List Host.Cell → Nat → Byte
  | [], a => blank a
  | c :: r, a => if c.1 = a then c.2 else Mem.get blank r a

/-- The cells that hold `bs` from address `a`. -/
def Mem.cells (blank : Nat → Byte) : Nat → List Byte → List Host.Cell
  | _, [] => []
  | a, b :: bs => if b = blank a then Mem.cells blank (a + 1) bs else (a, b) :: Mem.cells blank (a + 1) bs

/-- Write bytes at consecutive addresses, keeping the canonical form. -/
def Mem.put (blank : Nat → Byte) (a : Nat) (bs : List Byte) (m : List Host.Cell) : List Host.Cell :=
  (m.filter fun c => decide (c.1 < a)) ++ (Mem.cells blank a bs ++ m.filter fun c => decide (a + bs.length ≤ c.1))

/-- Every address of [lo, hi) reads as blank afterwards. -/
def Mem.clear (lo hi : Nat) (m : List Host.Cell) : List Host.Cell := m.filter fun c => decide (c.1 < lo) || decide (hi ≤ c.1)

/-- The canonical form: addresses strictly rising, no entry equal to blank. -/
def Mem.wf (blank : Nat → Byte) (m : List Host.Cell) : Bool :=
  decide (m.Pairwise fun c d => c.1 < d.1) && m.all fun c => c.2 != blank c.1

/-- `n` bytes from `a`: Mem.get at each address, looked up among the cells of that range. -/
def Mem.read (blank : Nat → Byte) (m : List Host.Cell) (a n : Nat) : List Byte :=
  let near := m.filter fun c => decide (a ≤ c.1) && decide (c.1 < a + n)
  (List.range n).map fun i => Mem.get blank near (a + i)

end Sys2Proof.Machine
end

