-- ==== Sys2Proof/Config.lean ====
section
/-! DEFINITION. What a module fixes at manufacture, what the spec leaves open, and the free values: constants without a
body, so that nothing can be proved about which value they have. The numbered free values are drawn by the state's
counter `free`; log entry 6 names them. -/

namespace Sys2Proof.Config

/-! ## Free values (log entry 6) -/

/-- Byte `i` of free value number `n`: contents that the spec leaves undefined or does not fix. -/
opaque freeByte : Nat → Nat → Byte

/-- What the step of operation code `op` of 0x20 to 0x2F makes of channel `c`: a function of the row, of the row of its
operand, and of the two constants, for the spec names these steps and gives no formula (R109). -/
opaque adaptElem : Nat → List F32 → List F32 → List F32 → Nat → F32

/-! A model's forward and backward pass. The spec fixes the order of the tasks and what the tensors' roles are, and leaves the
architecture between them to the image; these functions of the image (by its load digest, R255) stand for it (log entry 12). -/

/-- The residual row that a token enters with. -/
opaque netEmbed : List Byte → Nat → List F32

/-- The row that stands at input point `p` (R252) of a layer, from the rows before it. -/
opaque netInput : List Byte → Nat → Nat → List (List F32) → List F32

/-- FP32 output of the tensor of a role in a layer, after R82, for a row at its input point. -/
opaque netTensor : List Byte → Nat → Nat → List F32 → List F32

/-- A head's query row, or (true) its key row, at a position. -/
opaque netRotate : List Byte → Nat → Bool → Nat → List F32 → List F32

/-- The feed-forward output of an expert layer, the listed experts read from their shadows. -/
opaque netExperts : List Byte → Nat → List Nat → List F32 → List F32

/-- The scale of a layer's attention scores (const0 of R166). -/
opaque netScale : List Byte → Nat → F32

/-- The residual row after the attention output, from the row before and the output. -/
opaque netMid : List Byte → Nat → List F32 → List F32 → List F32

/-- Logits of a final residual row. -/
opaque netHead : List Byte → List F32 → List F32

/-- Saturations under DECODE and under PACK that the image's own tasks count for a row in a layer, the logits' being those of
the layer after the last; from the row, and in the second half its attention output too (R60). -/
opaque netSats : List Byte → Nat → List (List F32) → Nat × Nat

/-! The backward pass (R223), for one row of a batch: positions in order. The arguments are
the image, the settings (TRAIN, RANK, TARGETS, FIRST_LAYER, LAST_LAYER and ALPHA), the masters' bytes, the layer, then for a
parameter its kind and row, and last the rows and the gradients. -/

/-- The gradients of the rows that leave the last layer, from those rows and the gradients of the logits by position. -/
opaque netHeadGrad : List Byte → List (List F32) → List (Nat × List F32) → List (List F32)

/-- The gradients of the rows that enter a layer, from those rows and the gradients of the rows that leave it. -/
opaque netBack : List Byte → List Nat → List Byte → Nat → List (List F32) → List (List F32) → List (List F32)

/-- The gradient of one row of a trained tensor of a layer, from the batch's rows that enter the layer and the gradients of
those that leave it. -/
opaque netGrad : List Byte → List Nat → List Byte → Nat × Nat × Nat → List (List (List F32)) → List (List (List F32)) → List F32

/-- A byte of the work area after a batch: no rule gives its layout. It holds the batch's keys and values in the sump's
encoding and its gradients (R88, R223). -/
opaque workByte : List Byte → List Byte → Nat → Byte

/-- A free choice number `n`, a truth value. -/
opaque freeBool : Nat → Bool

/-- A free number, number `n`. -/
opaque freeNat : Nat → Nat

/-- MiB of work area that a TRAIN_STEP needs (R219): a function of the model's digest, TRAIN with RANK and TARGETS, the
layers with BUCKET and BATCH. -/
opaque workMib : List Byte → Nat → Nat → Nat

/-- Rank (mod 2), bank (mod 16) and row of an ECC block of a channel (R268 gives no bank mapping). -/
opaque dramPlace : Nat → Nat × Nat × Nat

/-- The 16-bit SEC-DED code over 32 data bytes and the bits [31:5] of their channel-local address (R268 names no matrix), and the
field that stands for a poisoned word (R270). -/
opaque checkCode : List Byte → Nat → BitVec 16
opaque poisonCode : List Byte → Nat → BitVec 16

/-- Bit errors that lane `l` makes in helper command number `n` (R277). -/
opaque laneErrors : Nat → Nat → Nat

/-- Where in its sequence a helper's pattern 0 starts on a lane, or pattern 1 or 2 (R277 gives no phase); and what an array location
that no helper has written holds: channel, rank and bank, burst, byte. -/
opaque patternPhase : Nat → Nat → Nat
opaque rawByte : Nat → Nat → Nat → Nat → Byte

/-- The ephemeral P-384 public key that SP makes of fresh value `n`, byte by byte, and the secret that it shares with the holder
of a peer's public key (R337). -/
opaque ecdhePublic : Nat → Nat → Byte
opaque ecdheSecret : Nat → List Byte → List Byte

/-- The key that HKDF-SHA-384 gives for a direction of a Passage link, from the shared secret, the exchange's transcript and the
direction's identifier without the generation (R337). The rule gives neither salt nor context. -/
opaque linkKey : List Byte → List Byte → Nat → List Byte

/-- What seals the frames of a link that has no key yet, or none any more: the spec names none (log entry 125). -/
opaque firstKey : List Byte

/-! ## Fused at manufacture or held by the module (log entry 9) -/

/-- The fused device identity, 16 bytes (R366, ID_UNIQUE). -/
opaque deviceId : Nat → Byte

/-- SHA-384 of the fuse array and of the boot ROM (R366). -/
opaque fuseDigest : Nat → Byte
opaque romDigest : Nat → Byte

/-- The slot-0 certificate chain (R328): its length and bytes. -/
opaque certLength : Nat
opaque certByte : Nat → Byte

/-- The least SVN that the fuses accept (R375). -/
opaque minSvn : Nat

/-- Whether DEBUG is fused on (R366 STATE). -/
opaque debugFused : Bool

/-- The fused voltage, in mV, that an engine needs at a CLK_ENG divider (R390). -/
opaque engVolt : Nat → Nat → Nat

/-- What one eighth of an engine's allowance adds to the power manager's estimate of total power, in 10 mW (R399). -/
opaque eighthPower : Nat

/-- The fused margin bounds of shared domain `d`, in 5 mV steps (R404). -/
opaque minMargin : Nat → Nat
opaque maxMargin : Nat → Nat

/-- The margin and the powered hours that the flash system blocks hold when the module first starts (R404). -/
opaque firstMargin : Nat → Nat
opaque firstHours : Nat

/-- Serial number and manufacture date (R455). -/
opaque serialByte : Nat → Byte
opaque madeDay : Nat

/-! ## Functions of keys that never leave SP (log entry 22) -/

/-- ECDSA P-384 with the identity key over a digest: the 96 bytes r, s (R368). -/
opaque identitySign : List Byte → Nat → Byte

/-- Whether a signature verifies under the firmware-signing key in the boot ROM (R375): digest, signature. -/
opaque firmwareVerify : List Byte → List Byte → Bool

/-- The fused sealing secret, and the context under which HKDF makes the wrapping key of it (R363, R364). -/
opaque sealingSecret : List Byte
opaque wrapContext : List Byte

/-- The AES-256-GCM key of an SPDM session, from the shared secret and the requester's public key, and the key that a KEY_UPDATE
makes of one (R328, R363). -/
opaque sessionKey : List Byte → List Byte → List Byte
opaque updatedKey : List Byte → List Byte

/-- Byte `i` of fresh random value number `n` of the DRBG (R370). -/
opaque drbgByte : Nat → Nat → Byte

/-! ## Chosen by the model -/

/-- What an address of DRAM, shared SRAM, a local store or host memory reads as before it is written (log entry 1). -/
def blankByte : Byte := 0

/-- What an erased flash byte reads as (R295). -/
def erasedByte : Byte := 0xFF

/-- MID[3:0] with every strap contact left open (R452; log entry 7). -/
def openStraps : Nat := 15

/-- Extra bits that the correctly rounded functions of R110 carry (log entry 10). -/
def guardBits : Nat := 400

end Sys2Proof.Config
end

