-- ==== Sys2Proof/Machine/State.lean ====
section
/-! DEFINITION. The state of the AXM-E32 as plain data: every register, queue, buffer, counter, mode and pin that the
spec names, the queue of waiting commands, and State.reset. Sub-records follow the spec's chapters. Times are
timebase ticks (10 ns, R389); sparse collections are lists keyed by number. -/

namespace Sys2Proof.Machine

/-! ## Why a step can stop -/

/-- No step of this model stops with a fault: whatever the spec says the device detects, it reports by a fault record, a
completion status or a drop, and goes on (safe: there is nothing to raise). -/
inductive Fault where
  deriving DecidableEq, Repr

/-- Raised only by an arm of exec for a command that has no meaning yet (safe). -/
inductive Refusal where
  | notModelled (mnemonic : String)
  deriving DecidableEq, Repr

/-! ## Rings, jobs and interrupts -/

/-- A waiting completion record: the words of R33 that are fixed when the job's result becomes final or it suspends;
SQ_HEAD and PHASE are taken when the record is written. `final` is false for SUSPENDED. -/
structure Comp where
  uid : Nat
  jobId : Nat
  status : Nat
  quality : Nat
  opcode : Nat
  startTs : Nat
  endTs : Nat
  result : Nat
  notify : Bool
  final : Bool
  deriving DecidableEq, Repr

/-- An announcement that the queue pair has not used up: ring descriptors up to `upto`, or one pushed descriptor, with
its arrival (START_TS, R33) and the function it came through (R30). -/
inductive Ann where
  | ring (upto ts : Nat) (fn : Fn)
  | push (words : List Nat) (ts : Nat) (fn : Fn)
  deriving DecidableEq, Repr

/-- One queue pair (R16 to R25, R46, R438). A `..Held` field is a _LO write that waits for its _HI (R433). -/
structure Qp where
  sqBase : Nat
  cqBase : Nat
  sqHeld : Option Nat
  cqHeld : Option Nat
  sqLog : Nat
  cqLog : Nat
  vector : Nat
  modCount : Nat
  modTime : Nat
  enabled : Bool
  refuse : Nat
  part : Nat
  sqTail : Nat
  sqHead : Nat
  cqTail : Nat
  cqHead : Nat
  cqPhase : Bool
  drops : Nat
  anns : List Ann
  waiting : List Comp
  unsignalled : Nat
  unsignalledSince : Option Nat
  deriving DecidableEq, Repr

/-- One sequence entry of a running PREFILL, DECODE_STEP or VERIFY_TREE (R189): what it asks, and how far it is.
`node` is the node of R204's walk (none: the pending token), `path` the accepted drafts so far, `ready` that final
logits stand for the sampler, `rows` its rows of the residual stream, `done` that its result is written. -/
structure Ent where
  index : Nat
  seqIdx : Nat
  handle : Nat
  created : Bool
  oldLen : Nat
  ntok : Nat
  tokens : List Nat
  input : Nat
  sample : Bool
  logits : Bool
  retrieval : Nat          -- the setting of R177
  samplerAddr : Nat
  logitsAddr : Nat
  parents : List Nat
  path : List Nat
  node : Option Nat
  ready : Bool
  rows : List (List F32)   -- the chunk's positions; or the pending token, then the drafts
  token : Nat
  tokenValid : Bool
  allMasked : Bool
  nanLogits : Bool
  done : Bool
  deriving DecidableEq, Repr

/-- Work data of the kinds of job that run over several steps. -/
structure ShipSt where
  out : Bool
  port : Nat
  hops : Nat
  entry : Nat              -- entry in progress
  count : Nat
  probed : Bool            -- the path probe was answered OK (R343)
  probeSent : Option Nat
  ready : Bool             -- READY received (OUT) or answered (IN)
  lastReady : Nat
  sent : Nat               -- bytes sent or received of this entry
  acked : Nat
  total : Nat
  image : List Byte        -- the entry's stream: what is sent, or what has arrived
  lastProgress : Nat
  lastHold : Nat
  held : Bool              -- OUT: the other side is suspended; nothing is sent until it acknowledges (R345)
  words : List Nat         -- the entry in progress
  deriving DecidableEq, Repr

/-- A TRAIN_STEP's progress (R223 to R226). -/
structure TrainSt where
  started : Bool
  batches : Nat
  deriving DecidableEq, Repr

/-- An ECHO_SEARCH's scan (R183): pass, next row, eligible rows scanned in the first pass, top-K lists. -/
structure SearchSt where
  pass : Nat
  row : Nat
  scanned : Nat
  tops : List (List (Nat × F32))
  deriving DecidableEq, Repr

/-- A task out of a context: it waits for one on its engine (another partition holds the engine, or no context is FREE), or in
its job for an engine. -/
structure Placed where
  part : Nat
  uid : Nat
  words : List Nat
  runs : Nat
  lastChance : Bool
  avoid : Option Nat           -- the engine that its retry must leave (R130)
  source : List (List Byte)    -- Kadon's copy in T2 of the operands that it placed in the resident area (R116)
  deriving DecidableEq, Repr

/-- The kind-specific part of a job. -/
inductive Ext where
  | none
  | serve (ents : List Ent) (chunk step : Nat) (waitFrom : Option Nat)   -- waits for a sump unit since
  | train (t : TrainSt)
  | search (s : SearchSt) (area : Nat)   -- the frame to which a suspension saves the scan (R184)
  | flash (left done : Nat)
  | tiles (records : List (List Nat)) (next retired : Nat)
    (lens : List (Nat × Nat))   -- its sequences' lengths when the job started (R141)
  | dma (start acked : Nat)
  | ship (s : ShipSt)
  | items (done : Nat) (waitFrom : Option Nat)   -- entries applied; waits for a sump unit since
  | vision (block : List Nat)   -- the argument block's words, read when the job entered RUNNING (R232)
  | load (pos : Nat) (hash : List Nat)   -- image bytes read so far; the digest's state after them
  | control (target : Nat)   -- the job on which an applied SUSPEND or CANCEL acted
  deriving DecidableEq, Repr

/-- How a job in CANCELLING ends: by CANCEL, by ABORT at its deadline, or without a record (R38, R41). -/
inductive EndKind where
  | cancel | abort | silent
  deriving DecidableEq, Repr

/-- A job (R26, R37 to R43). `words` is its descriptor; `cp` the processor that expands it (0, 1, or 3 for SP). -/
structure Job where
  uid : Nat
  qp : Nat
  part : Nat
  jobId : Nat
  opcode : Nat
  expert : Bool
  prio : Nat
  notify : Bool
  fence : Bool
  words : List Nat
  startTs : Nat
  deadlineUs : Nat
  policy : Nat
  cp : Nat
  takenBy : Nat            -- the processor that took and validated it (R43); a handed-over job keeps it
  pool : List Nat          -- engines of its pool when it was taken (R194)
  state : JobSt
  ending : Option EndKind
  epoch : Nat
  quality : Nat
  lateRaised : Bool
  status : Nat             -- most severe error status met so far, 0 for none (R36)
  finished : Bool          -- its result is final; only its record is missing
  silent : Bool            -- no record will be written for it (R38)
  ctrs : Option (Nat × Nat)   -- its sync counters (R104): the first, and how many blocks of 16
  window : Option Nat      -- its merge window (R173)
  unitWait : Option Nat    -- since when it waits, before RUNNING, for a unit for a parked group (R143)
  redo : List Placed       -- withdrawn tasks to be loaded again: on another engine, or after RESUME (R116, R130)
  partsOn : List (Nat × List Nat)   -- engines and records of retired parts of splits whose last part is to come (R112)
  areas : List Nat         -- frames that hold its lists and its saved scan (R180, R184)
  shadowed : List (Nat × Nat)   -- (layer, expert) for which it reads the shadow (R261)
  ext : Ext
  deriving DecidableEq, Repr

/-- Jobs and the order in which they are taken (R37, R44, R112). -/
structure Jobs where
  list : List Job
  nextUid : Nat
  cpTurn : Nat
  rr : List Nat            -- queue pair last chosen, by priority 0 to 3
  slices : List (Nat × Nat × Nat)   -- shared SRAM that holds a partition's data: partition, address, length (R357)
  deriving DecidableEq, Repr

/-- MSI-X and bus-master state of one function (R322, R325, R326). -/
structure FnSt where
  busMaster : Bool
  msixOn : Bool
  fnMask : Bool
  masked : List Nat
  pending : List Nat
  deriving DecidableEq, Repr

/-- What the DOE mailbox answers (R328): an answer by name with its bytes. -/
inductive DoeMsg where
  | discovery (protocols : List Nat)
  | version | capabilities | algorithms | digests (bytes : List Byte) | certificate (bytes : List Byte)
  | challengeAuth (bytes : List Byte) | measurements (bytes : List Byte)
  | keyExchangeRsp (sid : Nat) (bytes : List Byte) | finishRsp | heartbeatAck | keyUpdateAck | endSessionAck | ideKmAck (stream : Nat)
  | errorBusy | errorUnspecified | errorInvalid | errorSessions
  deriving DecidableEq, Repr

/-- What the host's configuration and the training of the link have settled (R321, R323): the speed (1 to 5: 2.5 to 32 GT/s) and
the width, 0 before the first training; the largest payload and read request; and the size of the PF's BAR4. -/
structure LinkCfg where
  speed : Nat
  width : Nat
  maxPayload : Nat
  maxRead : Nat
  bar4Size : Nat
  deriving DecidableEq, Repr

/-- The host link (R321 to R331). -/
structure Link where
  pf : FnSt
  vfs : List FnSt          -- eight, PT0's VF first
  vfEnable : Bool
  numVfs : Nat
  ide : List Bool          -- eight streams, true in the secure state
  ideKeys : List (List Byte)   -- the key of each stream, none before the first IDE_KM (R363)
  cfg : LinkCfg
  up : Bool
  fnReady : Bool           -- ready for configuration (R330)
  lost : Bool              -- the device stands in LINK_LOST
  perst : Bool             -- PERST_N asserted (low)
  d3hot : Bool
  negotiated : Bool        -- SPDM version, capabilities and algorithms agreed
  handshakes : List Nat    -- sessions between KEY_EXCHANGE and FINISH
  sessions : List Nat      -- secure sessions, at most 4
  sessKeys : List (Nat × List Byte)   -- the key of each handshake and session (R363)
  nextSid : Nat
  deriving DecidableEq, Repr

/-! ## Faults -/

/-- A fault record (R406). -/
structure FaultRec where
  cls : Nat
  source : Nat
  part : Option Nat
  mixed : Bool
  afterLoss : Bool
  continued : Bool
  count : Nat
  firstTs : Nat
  lastTs : Nat
  detail : Nat
  tag : Nat
  info : Nat
  deriving DecidableEq, Repr

/-- The fault queue (R411, R412). `head` and `tail` count without wrapping; the registers show them modulo 65,536.
`recs` holds the records by their number; `gathered` what would fold into consumed records. -/
structure Faults where
  head : Nat
  tail : Nat
  overflow : Bool
  lost : Nat
  afterLoss : Bool
  recs : List (Nat × FaultRec)
  gathered : List (Nat × FaultRec)   -- with the tick at which the window of R411 ends
  enginesOut : Nat
  channelsOut : Nat
  diesWorn : Nat
  dripFallback : Nat
  portALocked : Bool
  portBLocked : Bool
  engineOutMask : Nat
  sramErrs : List (Nat × Nat)   -- (bank group, time) of uncorrectable shared-SRAM errors (R415)
  groupFailed : List Nat
  sramCorrected : List Nat      -- corrected words per bank group (R413)
  deriving DecidableEq, Repr

/-! ## Engines -/

/-- A row state of an attention task (R167): m, l and o for each channel. -/
structure RowState where
  m : F32
  l : F32
  o : List F32
  deriving DecidableEq, Repr

/-- A tile context that is not FREE (R96, R99 to R102). `steps` counts steps issued, `done` steps complete; `acc` is
its accumulator slot, token-major; `rows` its attention states; `runs` how often it started after mismatches (R130). -/
structure Ctx where
  idx : Nat
  state : CtxSt
  cause : CtxCause
  uid : Nat
  part : Nat
  words : List Nat
  loadSeq : Nat
  granted : Bool
  waited : Bool            -- its start wait is met
  combining : Bool         -- part S - 1 waits for, or has met, COMBINE_CTR
  steps : Nat
  done : Nat
  slotsHeld : Nat
  starved : Bool           -- WAIT_MEM because no pool slots were free
  acc : List F32
  rows : List RowState
  written : Bool           -- its last write is issued
  readySince : Nat
  aged : Bool
  runs : Nat
  lastChance : Bool        -- it re-runs on another engine after two mismatches
  awaitUnit : Option Nat   -- waits for a sump unit since this time (R142)
  source : List (List Byte)   -- as of Placed
  deriving DecidableEq, Repr

/-- The activity ramp of an array (R132): rows enabled or disabled one after another since a time, from the number that were
enabled then. -/
structure Ramp where
  up : Bool
  len : Nat                -- the ramp length R, taken from RAMP_CYCLES when the last start ramp began
  base : Nat
  since : Nat
  deriving DecidableEq, Repr

def Ramp.off : Ramp := { up := false, len := 32, base := 0, since := 0 }

/-- An engine's power domain (R392 to R394). -/
structure Domain where
  powered : Bool
  ramping : Bool
  held : Bool              -- its ramp is held while the sector's rail is low (R394)
  heldSince : Nat
  rampStart : Nat
  wants : Bool             -- a ramp request waits
  deriving DecidableEq, Repr

/-- One engine (R92 to R132, R356, R390, R397). -/
structure Engine where
  mappedOut : Bool
  outCause : OutCause
  rampCycles : Nat
  ramp : Ramp
  idleSince : Nat          -- since when no unit or beat is in the array
  decodeSat : Nat
  packSat : Nat
  corrected : Nat
  ctxs : List Ctx
  leaving : List Ctx       -- withdrawn contexts whose step in hand is still in the pipeline (R116, R130)
  nextLoad : Nat
  lastIssued : List Nat    -- context last chosen, by priority
  mismatches : List Nat    -- times of checksum mismatches
  storeErrs : List Nat     -- times of uncorrectable local-store errors
  holder : Option Nat
  holdSince : Nat
  placed : List Placed
  freeSince : Nat          -- since when all contexts are FREE
  domain : Domain
  div : Nat                -- 3, 4, 6 or 8
  allow : Nat              -- allowance in eighths
  target : Nat             -- allowance that the cap grants, reached under R399
  residentValid : Bool     -- the resident area was written since the last power-up
  deriving DecidableEq, Repr

/-- One part of a split attention as the merge unit sees it (R172). -/
structure Merge where
  uid : Nat
  offset : Nat             -- absolute offset of the merge record in the merge buffers
  parts : Nat
  tokens : Nat
  dim : Nat
  retired : List Nat
  folded : Nat
  dest : Nat
  pitch : Nat
  f32 : Bool
  signal : Option Nat
  deriving DecidableEq, Repr

/-! ## Partitions, sequences and the KV cache -/

/-- PART_POWER (R396, R397, R400). -/
structure PartPower where
  share : Nat
  passageFirst : Bool
  prefillOpp : Nat
  decodeOpp : Nat
  deriving DecidableEq, Repr

/-- The partition counters of the register map. -/
structure PartCtr where
  sumpUsed : Nat
  stagUsed : Nat
  overflows : Nat
  backpressure : Nat
  parks : Nat
  flushes : Nat
  lateFetches : Nat
  shadowUses : Nat
  pagesDropped : Nat
  flushSat : Nat
  deriving DecidableEq, Repr

/-- One appended token of a group: its position in the page (or draft index), and its keys and values as S8 codes with
their BF16 scale. -/
structure Tok where
  pos : Nat
  key : Option (Nat × List Byte)
  val : Option (Nat × List Byte)
  deriving DecidableEq, Repr

/-- What stood in one half (keys, or values) of a position before an unfinished job's append (R145). -/
structure Undo where
  uid : Nat
  pos : Nat
  values : Bool
  old : Option (Nat × List Byte)
  deriving DecidableEq, Repr

/-- A level-1 record (R175). `u1` is a bit pattern in FP32; +0.0 marks a block with no page. -/
structure L1 where
  u1 : F32
  lo : List Byte
  hi : List Byte
  deriving DecidableEq, Repr

/-- An unflushed group, or the speculative entries of one (sequence, layer, head) (R139, R143 to R146). -/
structure Group where
  seq : Nat
  layer : Nat
  head : Nat
  page : Nat
  spec : Bool
  dim : Nat
  toks : List Tok
  sump : Nat               -- units held in the sump
  stag : Nat               -- units held in the staging region
  tail : Option Nat        -- tail frame while parked
  last : Nat               -- time of the latest append
  jobs : List Nat          -- unfinished jobs that appended to it
  flushed : Option Nat     -- epoch of its flush, until its units are freed
  undo : List Undo         -- what unfinished jobs' appends replaced, the latest first
  fullAt : Option (Nat × Nat)   -- since when it is full, with its place in the order of completion (R144)
  l1Was : Option L1        -- its block's level-1 record before its flush
  poisoned : Bool
  deriving DecidableEq, Repr

/-- A summary frame: the level-1 records of 64 blocks from `first` on, at `addr` in DRAM (R175). -/
structure SumFrame where
  seq : Nat
  layer : Nat
  head : Nat
  first : Nat
  dim : Nat
  addr : Nat
  deriving DecidableEq, Repr

/-- A resident sequence (R186, R187). -/
structure Seq where
  idx : Nat
  gen : Nat
  part : Nat
  slot : Nat
  variant : Option Nat
  seed : List Byte
  prefillPool : Bool
  len : Nat
  chunks : List Nat        -- 64 KiB frames that hold its token history (R187)
  dir : List (Nat × Nat × Nat × Nat)   -- (layer, head, page index, page-table index), in the order of installation
  deriving DecidableEq, Repr

/-- One partition (R350, R352, R355, R461). `frames` are its allocated frames, slots and tables as (address, length). -/
structure Part where
  valid : Bool
  conf : Bool
  expert : Bool
  powerPriv : Bool
  policy : Nat
  share : Bool
  quantumUs : Nat
  granules : List Nat
  sumpQuota : Nat
  engines : List Nat
  prefillCount : Nat
  cacheGib : Nat
  ratePct : Nat
  cheapDecode : Bool
  cheapPrefill : Bool
  pageTable : Nat
  pfxIndex : Nat
  variants : Nat
  staging : Nat
  keyImported : Bool
  keyGen : Nat             -- number of its data key, 0 for none
  key : List Byte          -- its 64 bytes; no register, job or trace shows them
  keyCheck : List Byte
  ctr : PartCtr
  power : PartPower
  deriving DecidableEq, Repr

/-- A frame that a page left for flash; readers that held it finish on it (R242). -/
structure OldFrame where
  page : Nat
  payload : Nat
  sidecar : Nat
  compressed : Bool
  epoch : Nat
  deriving DecidableEq, Repr

/-- The KV and serving structures of one partition, beside its registers. -/
structure Kv where
  epoch : Nat
  lastAdvance : Nat
  pages : Nat              -- page-table entries in use or used so far
  groups : List Group
  sums : List SumFrame
  frames : List (Nat × Nat)
  stale : List OldFrame
  tails : List (Nat × Nat)   -- tail frames that groups have left, with the epoch of the move (R242)
  fulls : Nat              -- groups that have become full so far (R144)
  ptMore : List Nat        -- granules that continue the page table (R461)
  freed : List (Nat × Nat)   -- granules of unloaded slots, with the epoch of the unloading (R257)
  deriving DecidableEq, Repr

/-! ## Model slots and moves -/

/-- The manifest fields (R249). -/
structure Manifest where
  imageBytes : Nat
  dirFirst : Nat
  dirCount : Nat
  payFirst : Nat
  payUnits : Nat
  sideFirst : Nat
  width : Nat
  vocab : Nat
  layers : Nat
  headDim : Nat
  experts : Nat
  active : Nat
  deriving DecidableEq, Repr

/-- One layer's record (R250). -/
structure LayerRec where
  fmtS4 : Bool
  expertLayer : Bool
  kvHeads : Nat
  hpk : Nat
  deriving DecidableEq, Repr

/-- An expert of a slot (R258, R259). -/
structure Expert where
  layer : Nat
  number : Nat
  heat : Nat
  runs : List (Nat × Nat)   -- runs of TRUs that stay together, as (first TRU, count)
  frames : List Nat        -- cache slots that hold or await its TRUs, in the order of the runs
  cached : Bool            -- its home is the expert cache
  moving : Bool
  lastUse : Nat
  deriving DecidableEq, Repr

/-- Where a loaded image came from (R254). -/
inductive Source where
  | volume (vol start blocks : Nat)
  | dram
  | host (addr : Nat)
  deriving DecidableEq, Repr

/-- A model slot (R255, R256). `pinned` gives runs of TRUs with a home in T2 as (first TRU, count, address); `cache` the
granules of the expert cache; `retired` the cache slots of evicted experts with the epoch of the eviction; `ents` the
directory, 16 words an entry. -/
structure Slot where
  idx : Nat
  part : Nat
  loaded : Bool
  manifest : Manifest
  layerRecs : List LayerRec
  digest : List Byte
  source : Source
  granules : List Nat
  pinned : List (Nat × Nat × Nat)
  cache : List Nat
  experts : List Expert
  retired : List (Nat × Nat)
  ents : List (List Nat)
  deriving DecidableEq, Repr

/-- What a move carries: an expert, or a page of a sequence. -/
inductive MoveWhat where
  | expert (slot layer number : Nat)
  | page (page : Nat)
  deriving DecidableEq, Repr

/-- The path of a job that waits on a move: R261 has not decided it, the job waits for the late fetch, or it takes the cheaper
path. -/
inductive WaitPath where
  | undecided | late | cheap
  deriving DecidableEq, Repr

/-- A job that needs what a move carries: its fetch deadline (none under replay, R386), and for a page the place in its
sequence's directory that wants it. -/
structure Waiter where
  uid : Nat
  deadline : Option Nat
  exact : Bool             -- for a list without retrieval, which is always exact (R262)
  path : WaitPath
  layer : Nat
  seq : Nat
  head : Nat
  index : Nat
  deriving DecidableEq, Repr

/-- A move between tiers in progress (R243, R259, R260), with the jobs that wait on it. -/
structure Move where
  id : Nat
  part : Nat
  what : MoveWhat
  started : Bool           -- frames are reserved
  frames : List Nat        -- a page's frame and sidecar slot
  waiters : List Waiter
  deriving DecidableEq, Repr

/-- What a granule holds that is not plain data: lost contents, a free value by its number (R278); or the ciphertext, under a
destroyed data key, of the cells and fills that were there, over lost contents where there were such (R359, R361). -/
inductive DramMark where
  | lost (n : Nat)
  | sealed (key : List Byte) (cells : List Host.Cell) (fills : List (Nat × Nat × Byte)) (under : Option Nat)
  deriving DecidableEq, Repr

/-- Memory outside registers (R241, R309): device address space, flash cells, and the granules that hold ciphertext under a
destroyed key (R359), or lost contents (R278). `fills` are areas of DRAM that the device
has filled with one byte value, newest first, as (address, length, value): an unlisted address there reads so. -/
structure Mems where
  bytes : List Host.Cell
  cipher : List (Nat × DramMark)
  fills : List (Nat × Nat × Byte)
  flash : List Host.Cell
  deriving DecidableEq, Repr

/-! ## Echo and vision -/

/-- A work unit of Echo (R180). -/
inductive EchoKind where
  | level1 (seq layer head : Nat)
  | level0 (seq layer head : Nat)
  | search
  deriving DecidableEq, Repr

structure EchoUnit where
  uid : Nat
  part : Nat
  prio : Nat
  aged : Bool
  arrived : Nat
  kind : EchoKind
  ent : Nat                -- sequence entry whose retrieval it serves
  deriving DecidableEq, Repr

/-- The attention list of one (job, sequence, layer, head), complete or with its retrieval in progress (R174, R179). Handles,
then for a retrieved list page indices, lie in the job's list area from `list` on (R180). -/
structure Retrieval where
  uid : Nat
  seq : Nat
  layer : Nat
  head : Nat
  rows : List (F32 × List Byte)   -- the query group: each row's scale and S8 codes
  blocks : List (Nat × F32)
  pages : List Nat         -- the page indices that the list has entries for, once it is finished
  list : Nat
  len : Nat                -- entries as written, a TAIL among them
  retrieved : Bool
  done : Bool
  deriving DecidableEq, Repr

structure Echo where
  queue : List EchoUnit
  retrievals : List Retrieval
  satCount : Nat
  lastKind : Nat
  lastPrio : Nat
  lastPart : Nat
  deriving DecidableEq, Repr

/-- The vision intake (R231 to R240). -/
structure Vision where
  job : Option Nat
  block : List Nat         -- the running job's argument block and mesh, as words, read when it entered RUNNING
  mesh : List Nat
  frameSeq : Nat
  timeoutMs : Nat
  ready : Nat              -- source rows known ready, the greatest ROWS_READY taken
  current : Bool           -- the progress word last read carried the job's FRAME_SEQ (R234)
  copied : Nat             -- source rows copied
  lastPoll : Nat
  stallFrom : Nat
  inFlight : List Nat      -- FRAME_SEQ of reads whose frame was dropped
  part : Nat               -- the partition of the running or the last job
  satCount : Nat
  deriving DecidableEq, Repr

/-! ## DRAM -/

/-- A request at the DRAM controller (R281). -/
structure Req where
  id : Nat
  port : Nat
  addr : Nat
  len : Nat
  write : Option (List Byte)
  arrival : Nat
  scrub : Bool             -- a read of the patrol scrubber, at NORMAL urgency (R270)
  single : List Nat := []  -- words that the array holds with a single-bit error, as the scrubber comes to them
  bad : List Nat := []     -- words that it holds beyond correction
  snap : List Byte := []   -- of a read: the bytes that it returns, fixed at its acceptance (R283)
  deriving DecidableEq, Repr

/-- The grant in progress on a channel (R284 to R286). -/
structure Grant where
  req : Nat
  reserved : Bool
  started : Nat
  deriving DecidableEq, Repr

structure Chan where
  active : Bool
  queue : List Req
  grant : Option Grant
  grantCount : Nat
  openRows : List (Nat × Nat × Nat)   -- rank, bank, row
  corrected : Nat
  drift : Int
  errTimes : List Nat
  powerDown : Bool
  idleSince : Nat
  nextBank : Nat
  lastRefresh : Nat
  refreshes : Nat
  rfm : Nat                -- refresh-management commands honoured
  scrubNext : Nat          -- next data unit of the patrol scrub
  retrains : Nat
  trained : List Sweep     -- what steps 1 to 4 left; each delay and Vref is set to the centre of its passing range (R275)
  deriving DecidableEq, Repr

/-- What an ARRAY helper wrote on a mapped-out channel (R277): from column 0 of a row, `bursts` bursts of a pattern. -/
structure ArrayRun where
  chan : Nat
  place : Nat              -- DRAM_TRAIN_ADDR's rank and bank
  row : Nat
  bursts : Nat
  pattern : Nat
  user : Word
  deriving DecidableEq, Repr

/-- One requester port (R280 to R282): its target, the requests held at it, its unanswered requests in issue order, the
answers that wait for earlier ones, and what it was answered. -/
structure Port where
  targetNs : Nat
  urgency : Nat
  held : List Req
  order : List Nat
  early : List (Nat × Option (List Byte))
  answered : List (Nat × Option (List Byte))
  deriving DecidableEq, Repr

structure Dram where
  chans : List Chan
  ports : List Port
  nextReq : Nat
  poisoned : List Nat      -- device addresses div 32 of words whose check field is poisoned
  mult : List Nat          -- refresh multiplier of each package
  overTemp : List Bool
  granulesBacked : Nat
  trained : Bool
  trainCmd : Word
  trainResult : Word
  trainOffset : Word
  trainUser : Word
  trainAddr : Word
  arrays : List ArrayRun   -- newest first
  deriving DecidableEq, Repr

/-! ## Flash -/

inductive FOpKind where
  | read | program | erase
  deriving DecidableEq, Repr

/-- An operation queued at, or running on, a flash die. `slot` is the slot that names the block, `band` the volume and
band, `page` the page within the block. -/
structure FOp where
  kind : FOpKind
  uid : Nat
  slot : Nat
  block : Nat              -- physical block
  page : Nat
  band : Nat × Nat
  wp : Option Nat          -- the band's write pointer once this page is programmed
  fast : Bool
  data : List Byte         -- the page buffer of a program
  suspended : Bool
  started : Option Nat     -- when an erase's first pulse came
  windowFrom : Option Nat  -- start of the uninterrupted window of R302
  starved : Nat            -- ERASE_STARVED occurrences raised for it
  deriving DecidableEq, Repr

/-- What a die knows of one physical block: pages programmed, its mode, its erases, its header's volume and band. -/
structure FBlock where
  num : Nat
  pages : Nat
  fast : Bool
  denseErases : Nat
  fastErases : Nat
  header : Option (Nat × Nat × Nat)   -- volume, slot, band
  half : Bool              -- an erase was aborted
  deriving DecidableEq, Repr

/-- One flash die (R288 to R303). `remap` holds ring positions whose physical block is not the shipped one. -/
structure Die where
  start : Nat
  gap : Nat
  sinceMove : Nat
  remap : List (Nat × Nat)
  pool : List Nat
  retired : Nat
  worn : Bool
  wearRaised : Bool
  blocks : List FBlock
  ops : List FOp
  deriving DecidableEq, Repr

/-- One entry of the volume table (R292). -/
structure Volume where
  num : Nat
  fast : Bool
  conf : Bool
  owner : Nat
  first : Nat
  bands : Nat
  sealed : Bool
  keyCheck : List Byte
  deriving DecidableEq, Repr

/-- A protection region (R307). -/
structure Region where
  state : Nat              -- 0 OPEN, 1 WRITE_LOCKED, 2 PERMANENT
  first : Nat
  last : Nat
  password : Nat
  deriving DecidableEq, Repr

/-- A journal record (R303). -/
inductive JRec where
  | eraseIntent (die block : Nat)
  | eraseDone (die block : Nat)
  | gapIntent (die source : Nat)
  | gapDone (die : Nat)
  | retire (die old new : Nat)
  deriving DecidableEq, Repr

structure Flash where
  dies : List Die
  volumes : List Volume
  regions : List Region
  fails : Nat
  lockout : Bool
  windowUs : Nat
  corrected : List Nat     -- FLASH_CORRECTED by channel
  journal : List JRec
  pendingJ : List JRec
  wps : List (Nat × Nat × Nat)   -- (volume, band, write pointer)
  torn : List (Nat × Nat)
  mounted : Bool
  powerLost : Bool
  dripHours : Nat          -- DRIP_HOURS and the margins, kept in the system blocks (R404)
  margins : List Nat
  deriving DecidableEq, Repr

/-! ## Siphon -/

/-- A transfer (R311, R315). `issued` and `written` count source bytes; `acked` those whose writes returned. -/
structure Xfer where
  uid : Nat
  part : Nat
  prio : Nat
  src : Nat
  dst : Nat
  len : Nat
  transform : Nat
  issued : Nat
  acked : Nat
  failed : Option Nat      -- status that it ends its job with
  start : Nat              -- source bytes before it, when it was placed again
  stopped : Bool           -- it issues no more, and leaves when its responses are there (R319)
  own : Option Nat         -- Kadon's own transfer, for this move
  deriving DecidableEq, Repr

structure SChan where
  active : Option Xfer
  shadow : Option Xfer
  draining : Option Xfer
  queue : List Xfer
  passed : Nat             -- consecutive grants without being chosen
  aged : Bool
  deriving DecidableEq, Repr

structure Siphon where
  chans : List SChan
  lastChosen : List Nat    -- channel last chosen, by priority
  satCount : Nat
  deriving DecidableEq, Repr

/-! ## Passage -/

inductive PState where
  | down | training | discovery | keying | ready | locked | disabled
  deriving DecidableEq, Repr

/-- End-to-end control of a shipment (R345, R349). -/
inductive ShipMsg where
  | ready | hold | abort
  | denied                 -- ABORT for unequal CONF (R348)
  | progress (offset : Nat)
  | final
  deriving DecidableEq, Repr

/-- One Passage port (R332 to R340). Credits and counters are cumulative; the frame fields take them modulo 2^16. -/
structure PPort where
  enable : Bool
  state : PState
  hopNs : Nat
  events : Nat
  peerId : Nat
  pin : List Word          -- twelve words
  keyGen : Nat
  txKey : List Byte        -- key of the sending direction, empty for none
  rxKeys : List (List Byte)   -- keys of the receiving direction: the present one, then the one before (R339)
  ephemeral : Option Nat   -- fresh value of the exchange in progress whose KEYX frame has left (R337)
  peerKeyx : Option (List Byte)   -- the peer's verified KEYX payload of that exchange
  peerPort : Nat           -- the peer's port, as its DISCOVER gives it
  txPhase : Bool
  rxPhase : Bool
  rxNew : Bool             -- an exchange has made a key that no accepted frame has used yet (R339)
  txCtr : Nat
  rxCtr : Option Nat       -- last FRAME_CTR accepted under the present key
  rekeying : Bool
  lastKeyx : Nat
  txSeq : Nat
  rxSeq : Nat              -- next SEQ expected
  retry : List Frame       -- unacknowledged frames, oldest first
  replays : Nat            -- replays of the oldest frame without progress
  lastProgress : Nat
  credits : List Nat       -- credits left to send, VC0 and VC1
  granted : List Nat       -- cumulative credits that the peer has returned
  owed : List Nat          -- cumulative credits that this side returns
  told : List Nat          -- what the last CREDIT frame carried
  lastCredit : Nat
  unacked : Nat            -- frames received since the last acknowledgement
  lastAck : Nat
  probes : Nat             -- PROBE_REPLY frames received in hop measurement
  probeAt : Nat            -- when the hop measurement's PROBE frames were sent
  waiting : List Frame     -- sequenced frames that wait for credits or retry room
  relays : List Frame      -- those among them that came in at the other port and still occupy its buffer (R334)
  buffered : List Frame    -- those that came in there and lie in this port's relay buffer (R342)
  replyAt : List (Frame × Nat)   -- own PROBE_REPLY frames among them, with the time of their PROBE (R340)
  control : List (ShipMsg × Nat × Nat)   -- end-to-end control sent, newest first: message, PEER, XFER_TAG
  sent : List Frame        -- frames sent, newest first
  wire : List (List Byte)  -- the same frames as they left: header, ciphertext, TAG and CRC (R332)
  deriving DecidableEq, Repr

structure Passage where
  id : Nat
  partMask : Nat
  ports : List PPort
  deriving DecidableEq, Repr

/-! ## Security processor -/

inductive RngSt where
  | startup | serving | retesting | failed
  deriving DecidableEq, Repr

/-- Who waits for fresh randomness (R370). -/
inductive RngUse where
  | dataKey (uid : Nat) | passage (port : Nat) | spdm
  deriving DecidableEq, Repr

structure Rng where
  state : RngSt
  failed : Bool            -- RNG_FAILED stands: until a reset or a passing re-test (R371 step 4)
  retests : Nat
  queue : List RngUse
  requests : Nat           -- requests since the last reseed
  lastReseed : Nat
  draws : Nat              -- fresh values drawn so far
  deriving DecidableEq, Repr

/-- A message at the crypto engine (R372, R373): its requester (0 to 7 a partition, 8 SP), the job whose digest it serves (none
for SP's own work), bytes left. -/
structure CMsg where
  requester : Nat
  uid : Option Nat
  left : Nat
  context : Bool           -- it holds a saved message context
  deriving DecidableEq, Repr

structure Sec where
  rng : Rng
  crypto : List CMsg
  lastServed : Nat
  keys : Nat               -- data keys made so far
  fwUpdates : Nat
  debugActive : Bool
  cryptoBad : Bool         -- the crypto engine failed its start-up test (R422)
  deriving DecidableEq, Repr

/-! ## Kadon -/

inductive CpSt where
  | held | running | restarting | stopped
  deriving DecidableEq, Repr

structure Cp where
  state : CpSt
  expiries : Nat
  times : List Nat         -- times of recent expiries
  version : Nat
  stateVersion : Nat
  digest : List Byte
  image : List Byte        -- the verified copy of the running image (R375)
  record : Option Nat      -- STATE_VERSION of the state record that its latest pause wrote (R381)
  started : Nat            -- tick at which it last started: its watchdog runs from there (R377)
  deriving DecidableEq, Repr

/-- A trace record before its words are formed (R383). -/
structure TraceRec where
  type : Nat
  part : Nat
  qp : Nat
  ts : Nat
  words : List Nat         -- DATA and further units
  deriving DecidableEq, Repr

structure Trace where
  enable : Bool
  stall : Bool
  size : Nat
  partMask : Nat
  base : Nat
  baseHeld : Option Nat
  head : Nat
  tail : Nat
  lost : Nat
  pendingLost : Nat        -- dropped since the last LOST record
  seqno : Nat
  store : List TraceRec    -- records held under STALL
  deriving DecidableEq, Repr

inductive RepSt where
  | idle | running | done | stopped | refused
  deriving DecidableEq, Repr

structure Replay where
  state : RepSt
  part : Nat
  addr : Nat
  addrHeld : Option Nat
  units : Nat
  pos : Nat                -- next unit of the trace
  stopping : Bool
  mismatch : Bool
  mismatchSeq : Nat
  uncertain : Bool
  expect : List (Nat × List Nat)   -- (SEQNO, words) of DRAW and COMPLETION records not yet compared
  tiers : List (Nat × List Nat)    -- (SEQNO, data words) of TIER records of kinds 0 and 1 to force
  origin : List (Nat × Nat)        -- jobs, by number, with the SEQNO of their DESCRIPTOR records
  deriving DecidableEq, Repr

/-- CP_BOOT_* and the processors (R374 to R382). -/
structure Kadon where
  cps : List Cp            -- CP0, CP1, CP2, SP
  bootAddr : Nat
  bootHeld : Option Nat
  bootBytes : Nat
  bootResult : Nat
  deriving DecidableEq, Repr

/-! ## Power, clocks, thermal, dripline -/

inductive Level where
  | normal | throttle | limit
  deriving DecidableEq, Repr

structure Power where
  capW : Nat
  emergW : Nat
  gateIdle : Bool
  pwrbrk : Bool            -- PWRBRK_N asserted
  lastBrk : Option Nat     -- when PWRBRK_N was last seen asserted
  effective : Nat          -- in W
  byCap : Bool
  byThermal : Bool
  byEmerg : Bool
  bySmbus : Bool
  limiting : Bool
  floorW : Nat
  inputPower : Nat         -- 10 mW
  grants : List Nat        -- floor, host link, compute, Passage, in 10 mW
  partGrants : List Nat    -- compute by partition, in 10 mW
  lastServed : Nat         -- engine last served under the device rule
  risenAt : Nat            -- up to when allowances have risen (R399)
  rrDiv : List Nat         -- by partition, the engine whose divider was lowered last
  railLow : List (Option Nat)   -- by sector, since when its rail is low after a short (R394)
  level : Level
  hottest : Nat
  sensor : Nat
  thermalCap : Option Nat  -- in W
  thermalAt : Nat          -- when the thermal cap last moved
  dramHot : Bool
  tripped : Bool           -- a trip preceded this power-up
  rootLock : Bool
  sscSeen : Bool
  lossSeen : Bool
  tbLatch : Word
  deriving DecidableEq, Repr

structure Drip where
  chainOk : Bool
  breakPos : Nat
  faulty : List Nat
  fallback : List Nat      -- domains in fallback
  polls : List (List DripFrame)   -- the latest polls, newest first, at most three
  lastRaise : List Nat     -- time of each domain's latest immediate raise, plus one; 0 for none
  plannedDay : Nat         -- multiple of 24 hours last planned
  deriving DecidableEq, Repr

/-! ## Device, rails and SMBus -/

inductive Stage where
  | selfTest | waitKadon | kadon | training | ready | warmReset | shutdown
  deriving DecidableEq, Repr

structure Dev where
  ready : Bool
  fault : Bool
  secureHalt : Bool
  linkLost : Bool
  shutdownDone : Bool
  stage : Stage
  lastReset : Nat
  noTake : Bool            -- Kadon takes no descriptors (R278, R331, R425, R428)
  released : Bool          -- a warm reset has been released (R425)
  clockLost : Bool         -- the die is held in reset after a clock loss
  fullWanted : Bool        -- PERST_N or a power-on has asked for the full reset after a clock loss
  globalLock : Bool
  partLock : Bool
  dramLock : Bool
  bar4Base : Nat
  shutting : Bool          -- a SHUTDOWN waits for the last jobs (R428)
  startFaults : List (Nat × Nat × Nat × Nat)   -- records that DEVICE_READY enters: source, class, detail, INFO
  deriving DecidableEq, Repr

/-- Rails, straps and the SMBus interface (R444 to R455). -/
structure Smbus where
  p12v : Bool              -- P12V within range
  aux : Bool               -- P3V3_AUX within range
  dieOn : Bool             -- the die rails are on
  tripOff : Bool           -- TRIP has switched the die off until a power cycle
  mid : Nat
  addr : Nat
  capSet : Nat
  emergency : Bool
  tripped : Bool
  clockLoss : Bool
  alert : Bool
  fruOff : Nat
  deriving DecidableEq, Repr

/-- What the device last answered or sent to the outside: DOE answers, BAR4 read data, register reads, SMBus reads, and
MSI-X messages sent, newest first. -/
structure Out where
  msix : List (Fn × Nat)
  doe : List DoeMsg
  bar4 : Option (List Byte)
  bar4Poisoned : Bool
  cfgRetry : Bool          -- the latest configuration request completed with retry status (R330)
  regRead : Word
  smbus : Option (List Byte)
  smbusPec : Byte          -- the PEC that follows a read if the host clocks one more byte (R453)
  smbusNack : Bool
  deriving DecidableEq, Repr

/-- The whole device. `free` numbers the free values drawn so far (the model's own field). -/
structure State where
  pending : List Instr
  now : Nat
  free : Nat
  dev : Dev
  qps : List Qp
  jobs : Jobs
  link : Link
  faults : Faults
  engines : List Engine
  merges : List Merge
  counters : List (Nat × Nat)     -- sync counters that are not 0 (R104)
  ctrBlocks : List Nat            -- allocated blocks of 16 counters
  parts : List Part
  kvs : List Kv
  seqs : List Seq
  gens : List (Nat × Nat)         -- GEN of each sequence index used so far
  slots : List Slot
  moves : List Move
  mems : Mems
  echo : Echo
  vision : Vision
  dram : Dram
  flash : Flash
  siphon : Siphon
  passage : Passage
  sec : Sec
  kadon : Kadon
  trace : Trace
  replay : Replay
  power : Power
  drip : Drip
  smbus : Smbus
  out : Out
  deriving DecidableEq, Repr

/-! ## Reset -/

def Qp.reset : Qp :=
  { sqBase := 0, cqBase := 0, sqHeld := none, cqHeld := none, sqLog := 4, cqLog := 4, vector := 0, modCount := 1
    modTime := 0, enabled := false, refuse := 0, part := 0, sqTail := 0, sqHead := 0, cqTail := 0, cqHead := 0
    cqPhase := true, drops := 0, anns := [], waiting := [], unsignalled := 0, unsignalledSince := none }

/-- Bus Master Enable and MSI-X Enable clear, every entry masked, as PCIe has them (log entry 29). -/
def FnSt.reset (entries : Nat) : FnSt :=
  { busMaster := false, msixOn := false, fnMask := false, masked := List.range entries, pending := [] }

/-- Payload and read request as PCIe resets them, BAR4 at its largest (log entry 132). -/
def LinkCfg.reset : LinkCfg := { speed := 0, width := 0, maxPayload := 128, maxRead := 512, bar4Size := 2 ^ 37 }

def Link.reset : Link :=
  { pf := FnSt.reset 64, vfs := List.replicate 8 (FnSt.reset 8), vfEnable := false, numVfs := 0
    ide := List.replicate 8 false, ideKeys := List.replicate 8 [], cfg := LinkCfg.reset, up := false, fnReady := false
    lost := false, perst := false, d3hot := false
    negotiated := false, handshakes := [], sessions := [], sessKeys := [], nextSid := 0 }

def Faults.reset : Faults :=
  { head := 0, tail := 0, overflow := false, lost := 0, afterLoss := false, recs := [], gathered := []
    enginesOut := 0, channelsOut := 0, diesWorn := 0, dripFallback := 0, portALocked := false, portBLocked := false
    engineOutMask := 0, sramErrs := [], groupFailed := [], sramCorrected := List.replicate 8 0 }

def Domain.reset : Domain :=
  { powered := false, ramping := false, held := false, heldSince := 0, rampStart := 0, wants := false }

def Engine.reset : Engine :=
  { mappedOut := false, outCause := .none, rampCycles := 32, ramp := Ramp.off, idleSince := 0, decodeSat := 0, packSat := 0
    corrected := 0, ctxs := [], leaving := [], nextLoad := 0, lastIssued := List.replicate 4 127, mismatches := [], storeErrs := []
    holder := none, holdSince := 0, placed := [], freeSince := 0, domain := Domain.reset, div := 3, allow := 0
    target := 0, residentValid := false }

def PartPower.reset : PartPower := { share := 8, passageFirst := false, prefillOpp := 0, decodeOpp := 0 }

def PartCtr.reset : PartCtr :=
  { sumpUsed := 0, stagUsed := 0, overflows := 0, backpressure := 0, parks := 0, flushes := 0, lateFetches := 0
    shadowUses := 0, pagesDropped := 0, flushSat := 0 }

/-- A partition that does not exist. -/
def Part.absent : Part :=
  { valid := false, conf := false, expert := false, powerPriv := false, policy := 1, share := false, quantumUs := 2000
    granules := [], sumpQuota := 0, engines := [], prefillCount := 0, cacheGib := 0, ratePct := 90, cheapDecode := true
    cheapPrefill := false, pageTable := 0, pfxIndex := 0, variants := 0, staging := 0, keyImported := false, keyGen := 0
    key := [], keyCheck := [], ctr := PartCtr.reset, power := PartPower.reset }

def Kv.empty : Kv :=
  { epoch := 0, lastAdvance := 0, pages := 0, groups := [], sums := [], frames := [], stale := [], tails := []
    fulls := 0, ptMore := [], freed := [] }

def Mems.reset : Mems := { bytes := [], cipher := [], fills := [], flash := [] }

def Echo.reset : Echo :=
  { queue := [], retrievals := [], satCount := 0, lastKind := 0, lastPrio := 0, lastPart := 0 }

def Vision.reset : Vision :=
  { job := none, block := [], mesh := [], frameSeq := 0, timeoutMs := 0, ready := 0
    current := false, copied := 0, lastPoll := 0, stallFrom := 0, inFlight := [], part := 0
    satCount := 0 }

def Chan.reset : Chan :=
  { active := false, queue := [], grant := none, grantCount := 0, openRows := [], corrected := 0, drift := 0
    errTimes := [], powerDown := false, idleSince := 0, nextBank := 0, lastRefresh := 0, refreshes := 0, rfm := 0
    scrubNext := 0, retrains := 0, trained := [] }

/-- Reset targets of R280. -/
def portTargets : List Nat :=
  List.replicate 32 400 ++ List.replicate 4 1000 ++ [600, 400, 2000, 1000, 800, 1000, 300, 500]

def Port.reset (target : Nat) : Port :=
  { targetNs := target, urgency := 0, held := [], order := [], early := [], answered := [] }

def Dram.reset : Dram :=
  { chans := List.replicate 24 Chan.reset, ports := portTargets.map Port.reset, nextReq := 0, poisoned := []
    mult := List.replicate 6 1, overTemp := List.replicate 6 false, granulesBacked := 0, trained := false, trainCmd := 0
    trainResult := 0, trainOffset := 0, trainUser := 0, trainAddr := 0, arrays := [] }

/-- A die as shipped (log entry 8): ring position p on physical block p, the gap last, then the remap pool. -/
def Die.shipped : Die :=
  { start := 0, gap := 1792, sinceMove := 0, remap := [], pool := List.range' 1793 128, retired := 0, worn := false
    wearRaised := false, blocks := [], ops := [] }

def Region.shipped : Region := { state := 0, first := 0, last := 0, password := 0 }

def Flash.shipped : Flash :=
  { dies := List.replicate 32 Die.shipped, volumes := [], regions := List.replicate 16 Region.shipped, fails := 0
    lockout := false, windowUs := 0, corrected := List.replicate 16 0, journal := [], pendingJ := [], wps := [], torn := []
    mounted := false, powerLost := false, dripHours := Config.firstHours
    margins := (List.range 8).map Config.firstMargin }

def SChan.reset : SChan :=
  { active := none, shadow := none, draining := none, queue := [], passed := 0, aged := false }

def Siphon.reset : Siphon :=
  { chans := List.replicate 16 SChan.reset, lastChosen := List.replicate 4 15, satCount := 0 }

def PPort.reset : PPort :=
  { enable := true, state := .down, hopNs := 0, events := 0, peerId := 0, pin := List.replicate 12 0, keyGen := 0
    txKey := [], rxKeys := [], ephemeral := none, peerKeyx := none, peerPort := 0, txPhase := false, rxPhase := false
    rxNew := false, txCtr := 0, rxCtr := none, rekeying := false, lastKeyx := 0, txSeq := 0
    rxSeq := 0, retry := [], replays := 0, lastProgress := 0, credits := [256, 256], granted := [0, 0], owed := [0, 0]
    told := [0, 0], lastCredit := 0, unacked := 0, lastAck := 0, probes := 0, probeAt := 0, waiting := [], relays := []
    buffered := [], replyAt := [], control := [], sent := [], wire := [] }

def Passage.reset (mid : Nat) : Passage := { id := mid, partMask := 1, ports := List.replicate 2 PPort.reset }

def Rng.reset : Rng := { state := .startup, failed := false, retests := 0, queue := [], requests := 0, lastReseed := 0, draws := 0 }

def Sec.reset : Sec :=
  { rng := Rng.reset, crypto := [], lastServed := 8, keys := 0, fwUpdates := 0, debugActive := false, cryptoBad := false }

def Cp.reset : Cp :=
  { state := .held, expiries := 0, times := [], version := 0, stateVersion := 0, digest := [], image := []
    record := none, started := 0 }

def Kadon.reset : Kadon :=
  { cps := List.replicate 4 Cp.reset, bootAddr := 0, bootHeld := none, bootBytes := 0, bootResult := 0 }

def Trace.reset : Trace :=
  { enable := false, stall := false, size := 11, partMask := 1, base := 0, baseHeld := none, head := 0, tail := 0
    lost := 0, pendingLost := 0, seqno := 0, store := [] }

def Replay.reset : Replay :=
  { state := .idle, part := 0, addr := 0, addrHeld := none, units := 0, pos := 0, stopping := false, mismatch := false
    mismatchSeq := 0, uncertain := false, expect := [], tiers := [], origin := [] }

def Power.reset : Power :=
  { capW := 45, emergW := 15, gateIdle := true, pwrbrk := false, lastBrk := none, effective := 45, byCap := false
    byThermal := false, byEmerg := false, bySmbus := false, limiting := false, floorW := 0, inputPower := 0
    grants := [0, 0, 0, 0], partGrants := List.replicate 8 0, lastServed := 31, risenAt := 0, rrDiv := List.replicate 8 31
    railLow := List.replicate 4 none, level := .normal
    hottest := 0, sensor := 0, thermalCap := none, thermalAt := 0, dramHot := false, tripped := false, rootLock := false
    sscSeen := false, lossSeen := false, tbLatch := 0 }

def Drip.reset : Drip :=
  { chainOk := false, breakPos := 0x7F, faulty := [], fallback := [], polls := [], lastRaise := List.replicate 8 0
    plannedDay := 0 }

def Dev.reset : Dev :=
  { ready := false, fault := false, secureHalt := false, linkLost := false, shutdownDone := false, stage := .selfTest
    lastReset := 0, noTake := false, released := false, clockLost := false, fullWanted := false, globalLock := false
    partLock := false, dramLock := false, bar4Base := 0, shutting := false, startFaults := [] }

def Smbus.reset : Smbus :=
  { p12v := true, aux := true, dieOn := true, tripOff := false, mid := Config.openStraps
    addr := 0x20 + Config.openStraps, capSet := 0, emergency := false, tripped := false, clockLoss := false
    alert := false, fruOff := 0 }

def Out.reset : Out :=
  { msix := [], doe := [], bar4 := none, bar4Poisoned := false, cfgRetry := false, regRead := 0, smbus := none, smbusPec := 0
    smbusNack := false }

def Jobs.reset : Jobs :=
  { list := [], nextUid := 0, cpTurn := 0, rr := List.replicate 4 63, slices := [] }

/-- The device right after a power-on reset has begun (R419, R421 step 1): the rails are up, every register is at its
reset value, no command waits. READY's initial configuration (R424) is what DEVICE_READY establishes. -/
def State.reset : State :=
  { pending := [], now := 0, free := 0, dev := Dev.reset, qps := List.replicate 64 Qp.reset, jobs := Jobs.reset
    link := Link.reset, faults := Faults.reset, engines := List.replicate 32 Engine.reset, merges := [], counters := []
    ctrBlocks := [], parts := List.replicate 8 Part.absent, kvs := List.replicate 8 Kv.empty, seqs := [], gens := []
    slots := [], moves := [], mems := Mems.reset, echo := Echo.reset, vision := Vision.reset, dram := Dram.reset
    flash := Flash.shipped, siphon := Siphon.reset, passage := Passage.reset Config.openStraps, sec := Sec.reset
    kadon := Kadon.reset, trace := Trace.reset, replay := Replay.reset, power := Power.reset, drip := Drip.reset
    smbus := Smbus.reset, out := Out.reset }

end Sys2Proof.Machine
end

