-- ==== Sys2Proof/Machine/Aes.lean ====
section
/-! DEFINITION. The AES-128 block function of the sampler's counter mode (R209), from the arithmetic of its field rather
than from tables. Bytes are numbers below 256; a state is 16 bytes, column by column. -/

namespace Sys2Proof.Machine

/-- Doubling in the field of AES. -/
def gfDouble (a : Nat) : Nat := if a < 128 then 2 * a else (2 * a - 256) ^^^ 0x1B

def gfMulGo : Nat → Nat → Nat → Nat
  | 0, _, _ => 0
  | k + 1, a, b => (if b % 2 = 1 then a else 0) ^^^ gfMulGo k (gfDouble a) (b / 2)

def gfMul (a b : Nat) : Nat := gfMulGo 8 a b

/-- The inverse, as the power 254. -/
def gfInv (a : Nat) : Nat :=
  let a2 := gfMul a a
  let a3 := gfMul a2 a
  let a12 := gfMul (gfMul a3 a3) (gfMul a3 a3)
  let a15 := gfMul a12 a3
  let q := gfMul a15 a15
  let q := gfMul q q
  let q := gfMul q q
  let a240 := gfMul q q
  gfMul (gfMul a240 a12) a2

def rotByte (k b : Nat) : Nat := (b * 2 ^ k ||| b / 2 ^ (8 - k)) % 256

def sboxOf (a : Nat) : Nat :=
  let b := gfInv a
  b ^^^ rotByte 1 b ^^^ rotByte 2 b ^^^ rotByte 3 b ^^^ rotByte 4 b ^^^ 0x63

def xorList (a b : List Nat) : List Nat := List.zipWith (· ^^^ ·) a b

/-- The next round key from one round key (16 bytes) and the round constant. -/
def nextKey (rcon : Nat) (k : List Nat) : List Nat :=
  let t := [sboxOf (k.getD 13 0) ^^^ rcon, sboxOf (k.getD 14 0), sboxOf (k.getD 15 0), sboxOf (k.getD 12 0)]
  let w0 := xorList (k.take 4) t
  let w1 := xorList ((k.drop 4).take 4) w0
  let w2 := xorList ((k.drop 8).take 4) w1
  let w3 := xorList (k.drop 12) w2
  w0 ++ w1 ++ w2 ++ w3

def shiftRows (s : List Nat) : List Nat := (List.range 16).map fun i => s.getD ((i + 4 * (i % 4)) % 16) 0

def mixColumn (c : List Nat) : List Nat :=
  (List.range 4).map fun i =>
    gfMul 2 (c.getD i 0) ^^^ gfMul 3 (c.getD ((i + 1) % 4) 0) ^^^ c.getD ((i + 2) % 4) 0 ^^^ c.getD ((i + 3) % 4) 0

def mixColumns (s : List Nat) : List Nat := (List.range 4).flatMap fun c => mixColumn ((s.drop (4 * c)).take 4)

/-- Rounds from `n` left, with the key before this round and its round constant. -/
def aesRounds : Nat → Nat → List Nat → List Nat → List Nat
  | 0, _, _, s => s
  | n + 1, rcon, k, s =>
    let k' := nextKey rcon k
    let t := shiftRows (s.map sboxOf)
    aesRounds n (gfDouble rcon) k' (xorList (if n = 0 then t else mixColumns t) k')

/-- AES-128 of one block. -/
def aes128 (key block : List Byte) : List Byte :=
  let k := key.map BitVec.toNat
  (aesRounds 10 1 k (xorList (block.map BitVec.toNat) k)).map (BitVec.ofNat 8)

end Sys2Proof.Machine
end

