-- ==== Sys2Proof/Machine/Xts.lean ====
section
/-! DEFINITION. AES-256 in two modes: GCM for Passage frames (R332), and XTS as IEEE 1619 has it for the confidential flash
volumes of R361: the first 32 key bytes encrypt the data, the last 32 the tweak, which is the volume page index in little-endian
order. -/

namespace Sys2Proof.Machine

def subWord (w : List Nat) : List Nat := w.map sboxOf

/-- The next 32 bytes of the AES-256 key schedule. -/
def nextKey256 (rcon : Nat) (k : List Nat) : List Nat :=
  let t := xorList (subWord [k.getD 29 0, k.getD 30 0, k.getD 31 0, k.getD 28 0]) [rcon, 0, 0, 0]
  let w0 := xorList (k.take 4) t
  let w1 := xorList ((k.drop 4).take 4) w0
  let w2 := xorList ((k.drop 8).take 4) w1
  let w3 := xorList ((k.drop 12).take 4) w2
  let w4 := xorList ((k.drop 16).take 4) (subWord w3)
  let w5 := xorList ((k.drop 20).take 4) w4
  let w6 := xorList ((k.drop 24).take 4) w5
  let w7 := xorList (k.drop 28) w6
  w0 ++ w1 ++ w2 ++ w3 ++ w4 ++ w5 ++ w6 ++ w7

def keySchedule : Nat → Nat → List Nat → List Nat
  | 0, _, k => k
  | n + 1, rcon, k => k ++ keySchedule n (gfDouble rcon) (nextKey256 rcon k)

/-- The fifteen round keys of 16 bytes. -/
def roundKeys (key : List Byte) : List (List Nat) :=
  let ks := keySchedule 7 1 (key.map BitVec.toNat)
  (List.range 15).map fun i => (ks.drop (16 * i)).take 16

def invSbox (b : Nat) : Nat := gfInv (rotByte 1 b ^^^ rotByte 3 b ^^^ rotByte 6 b ^^^ 5)

def invShiftRows (s : List Nat) : List Nat := (List.range 16).map fun i => s.getD ((i + 12 * (i % 4)) % 16) 0

def invMixColumn (c : List Nat) : List Nat :=
  (List.range 4).map fun i =>
    gfMul 14 (c.getD i 0) ^^^ gfMul 11 (c.getD ((i + 1) % 4) 0) ^^^ gfMul 13 (c.getD ((i + 2) % 4) 0) ^^^
      gfMul 9 (c.getD ((i + 3) % 4) 0)

def invMixColumns (s : List Nat) : List Nat := (List.range 4).flatMap fun c => invMixColumn ((s.drop (4 * c)).take 4)

def aes256Enc (rk : List (List Nat)) (block : List Nat) : List Nat :=
  let key (i : Nat) : List Nat := rk.getD i []
  let s := (List.range 13).foldl
    (fun s i => xorList (mixColumns (shiftRows (s.map sboxOf))) (key (i + 1))) (xorList block (key 0))
  xorList (shiftRows (s.map sboxOf)) (key 14)

def aes256Dec (rk : List (List Nat)) (block : List Nat) : List Nat :=
  let key (i : Nat) : List Nat := rk.getD i []
  let s := (List.range 13).foldl
    (fun s i => invMixColumns (xorList ((invShiftRows s).map invSbox) (key (13 - i)))) (xorList block (key 14))
  xorList ((invShiftRows s).map invSbox) (key 0)

/-- The next tweak: doubling in the field of 2^128 elements, bytes little-endian. -/
def tweakDouble (t : Nat) : Nat := if t < 2 ^ 127 then 2 * t else (2 * t - 2 ^ 128) ^^^ 0x87

def xtsBlocks (f : List Nat → List Nat) : Nat → List Nat → Nat → List Nat
  | 0, _, _ => []
  | n + 1, data, t =>
    let tw := (leBytes 16 t).map BitVec.toNat
    xorList (f (xorList (data.take 16) tw)) tw ++ xtsBlocks f n (data.drop 16) (tweakDouble t)

def xtsTweak (key : List Byte) (index : Nat) : Nat :=
  leNat ((aes256Enc (roundKeys (key.drop 32)) ((leBytes 16 index).map BitVec.toNat)).map (BitVec.ofNat 8))

def xtsEncrypt (key : List Byte) (index : Nat) (data : List Byte) : List Byte :=
  (xtsBlocks (aes256Enc (roundKeys (key.take 32))) (data.length / 16) (data.map BitVec.toNat)
    (xtsTweak key index)).map (BitVec.ofNat 8)

def xtsDecrypt (key : List Byte) (index : Nat) (data : List Byte) : List Byte :=
  (xtsBlocks (aes256Dec (roundKeys (key.take 32))) (data.length / 16) (data.map BitVec.toNat)
    (xtsTweak key index)).map (BitVec.ofNat 8)

/-! ## AES-256-GCM -/

/-- The product of two 128-bit elements, the most significant bit being the coefficient of x^0. -/
def ghashMul (x y : Nat) : Nat :=
  ((List.range 128).foldl (fun (a : Nat × Nat) i =>
    (if x.testBit (127 - i) then a.1 ^^^ a.2 else a.1, a.2 / 2 ^^^ if a.2 % 2 = 1 then 0xE1 * 2 ^ 120 else 0)) (0, y)).1

def gcmNat (bs : List Byte) : Nat := leNat bs.reverse
def gcmBytes (n v : Nat) : List Byte := (leBytes n v).reverse

/-- Whole blocks of 16 bytes, the last filled with zeros. -/
def gcmPad (bs : List Byte) : List Byte := bs ++ List.replicate (ceilDiv bs.length 16 * 16 - bs.length) 0

def ghash (h : Nat) (bs : List Byte) : Nat :=
  ((List.range (bs.length / 16)).map fun i => (bs.drop (16 * i)).take 16).foldl (fun y b => ghashMul (y ^^^ gcmNat b) h) 0

/-- Ciphertext and tag under a key and a 12-byte nonce. -/
def gcmSeal (key nonce aad text : List Byte) : List Byte × List Byte :=
  let rk := roundKeys key
  let enc (b : List Byte) : List Byte := (aes256Enc rk (b.map BitVec.toNat)).map (BitVec.ofNat 8)
  let stream := (List.range (ceilDiv text.length 16)).flatMap fun i => enc (nonce ++ gcmBytes 4 (i + 2))
  let cipher := List.zipWith (fun a b => a ^^^ b) text stream
  let h := gcmNat (enc (List.replicate 16 0))
  let sum := ghash h (gcmPad aad ++ gcmPad cipher ++ gcmBytes 8 (8 * aad.length) ++ gcmBytes 8 (8 * cipher.length))
  (cipher, List.zipWith (fun a b => a ^^^ b) (gcmBytes 16 sum) (enc (nonce ++ gcmBytes 4 1)))

end Sys2Proof.Machine
end

