-- ==== Sys2Proof/Machine/Ops.lean ====
section
/-! DEFINITION. The named operations over State that every family uses: memory, free values, functions and interrupts
(R322, R326), fault records (R410 to R412), sync counters (R104, R105), trace records (R383, R384), and access by number to
the parts of the state. -/

namespace Sys2Proof.Machine

/-! ## Parts of the state by number -/

def State.qp (s : State) (n : Nat) : Qp := s.qps.getD n Qp.reset
def State.modQp (s : State) (n : Nat) (f : Qp → Qp) : State := { s with qps := s.qps.modify n f }
def State.part (s : State) (p : Nat) : Part := s.parts.getD p Part.absent
def State.modPart (s : State) (p : Nat) (f : Part → Part) : State := { s with parts := s.parts.modify p f }
def State.kv (s : State) (p : Nat) : Kv := s.kvs.getD p Kv.empty
def State.modKv (s : State) (p : Nat) (f : Kv → Kv) : State := { s with kvs := s.kvs.modify p f }
def State.eng (s : State) (e : Nat) : Engine := s.engines.getD e Engine.reset
def State.modEng (s : State) (e : Nat) (f : Engine → Engine) : State := { s with engines := s.engines.modify e f }
def State.chan (s : State) (c : Nat) : Chan := s.dram.chans.getD c Chan.reset
def State.modChan (s : State) (c : Nat) (f : Chan → Chan) : State :=
  { s with dram := { s.dram with chans := s.dram.chans.modify c f } }
def State.dport (s : State) (n : Nat) : Port := s.dram.ports.getD n (Port.reset 0)
def State.modDport (s : State) (n : Nat) (f : Port → Port) : State :=
  { s with dram := { s.dram with ports := s.dram.ports.modify n f } }
def State.die (s : State) (n : Nat) : Die := s.flash.dies.getD n Die.shipped
def State.modDie (s : State) (n : Nat) (f : Die → Die) : State :=
  { s with flash := { s.flash with dies := s.flash.dies.modify n f } }
def State.sch (s : State) (n : Nat) : SChan := s.siphon.chans.getD n SChan.reset
def State.modSch (s : State) (n : Nat) (f : SChan → SChan) : State :=
  { s with siphon := { s.siphon with chans := s.siphon.chans.modify n f } }
def State.pport (s : State) (n : Nat) : PPort := s.passage.ports.getD n PPort.reset
def State.modPport (s : State) (n : Nat) (f : PPort → PPort) : State :=
  { s with passage := { s.passage with ports := s.passage.ports.modify n f } }
def State.cp (s : State) (n : Nat) : Cp := s.kadon.cps.getD n Cp.reset
def State.modCp (s : State) (n : Nat) (f : Cp → Cp) : State :=
  { s with kadon := { s.kadon with cps := s.kadon.cps.modify n f } }

def State.job? (s : State) (uid : Nat) : Option Job := s.jobs.list.find? fun j => j.uid == uid

def State.modJob (s : State) (uid : Nat) (f : Job → Job) : State :=
  { s with jobs := { s.jobs with list := s.jobs.list.map fun j => if j.uid == uid then f j else j } }

def State.dropJob (s : State) (uid : Nat) : State :=
  { s with jobs := { s.jobs with list := s.jobs.list.filter fun j => j.uid != uid } }

def State.seq? (s : State) (idx : Nat) : Option Seq := s.seqs.find? fun q => q.idx == idx

def State.modSeq (s : State) (idx : Nat) (f : Seq → Seq) : State :=
  { s with seqs := s.seqs.map fun q => if q.idx == idx then f q else q }

/-- The loaded slot of a number. -/
def State.slot? (s : State) (n : Nat) : Option Slot := s.slots.find? fun t => t.idx == n && t.loaded

def State.modSlot (s : State) (n : Nat) (f : Slot → Slot) : State :=
  { s with slots := s.slots.map fun t => if t.idx == n then f t else t }

def State.ctx? (s : State) (e c : Nat) : Option Ctx := (s.eng e).ctxs.find? fun x => x.idx == c

def State.modCtx (s : State) (e c : Nat) (f : Ctx → Ctx) : State :=
  s.modEng e fun g => { g with ctxs := g.ctxs.map fun x => if x.idx == c then f x else x }

/-- Fetch-pool slots that an engine's contexts hold. -/
def Engine.slotsUsed (g : Engine) : Nat := (g.ctxs.map Ctx.slotsHeld).sum

/-- Where the engine `g` has freed pool slots, becoming `h`, contexts that wait for slots become READY (R100). -/
def Engine.wakeSlots (g : Engine) (now : Nat) (h : Engine) : Engine :=
  if h.slotsUsed < g.slotsUsed then
    { h with ctxs := h.ctxs.map fun x =>
      if x.starved && x.state == .waitMem then { x with state := .ready, starved := false, readySince := now } else x }
  else h

/-- Only the contexts that `keep` names stay; the others become FREE. What a withdrawn one has in hand is still in the pipeline,
where a mismatch of it counts (R130). -/
def Engine.keepCtxs (g : Engine) (now : Nat) (keep : Ctx → Bool) : Engine :=
  let left := g.ctxs.filter keep
  g.wakeSlots now { g with
    ctxs := left
    leaving := g.leaving ++ g.ctxs.filter fun x => !keep x && x.state != .faulted && decide (x.done < x.steps)
    freeSince := if left.isEmpty && !g.ctxs.isEmpty then now else g.freeSince }

def State.dropCtx (s : State) (e c : Nat) : State := s.modEng e fun g => g.keepCtxs s.now fun x => x.idx != c

/-- A context's task as it waits to be loaded again. -/
def Ctx.placed (x : Ctx) (runs : Nat) (last : Bool) (avoid : Option Nat) : Placed :=
  { part := x.part, uid := x.uid, words := x.words, runs := runs, lastChance := last, avoid := avoid, source := x.source }

/-- The tasks on an engine that are not FAULTED. -/
def Engine.tasks (g : Engine) : List Placed :=
  ((g.ctxs.filter fun x => x.state != .faulted).map fun x => x.placed x.runs x.lastChance none) ++ g.placed

/-! ## Time -/

/-- The timebase in microseconds would lose ticks: conditions are tested in ticks of 10 ns (R389). -/
def usTicks : Nat := 100
def msTicks : Nat := 100000

/-- Number `s.free` is used up. -/
def State.drawFree (s : State) : State := { s with free := s.free + 1 }

/-! ## Memory -/

def granuleBytes : Nat := 0x40000000

def sramBase : Nat := 0x008000000000
def sramBytes : Nat := 0x3000000
def localBase (e : Nat) : Nat := 0x008100000000 + e * 0x1000000
def hostBase : Nat := 0x400000000000

/-- What an address reads as in a granule that was marked: a free value, or the ciphertext of what was there, each 32-byte word a
data unit with its number as the tweak (R361). -/
def DramMark.byte : DramMark → Nat → Byte
  | .lost n, a => Config.freeByte n a
  | .sealed key cells fills under, a =>
    let blank (x : Nat) : Byte := match fills.find? fun f => decide (f.1 ≤ x) && decide (x < f.1 + f.2.1) with
      | some f => f.2.2
      | none => match under with
        | some n => Config.freeByte n x
        | none => Config.blankByte
    (xtsEncrypt key (a / 32) (Mem.read blank cells (a / 32 * 32) 32)).getD (a % 32) 0

/-- What an unlisted address reads as: what the device filled its area with, ciphertext or lost contents (R359, R278),
else log entry 1. -/
def Mems.blank (m : Mems) (a : Nat) : Byte :=
  match m.fills.find? fun f => decide (f.1 ≤ a) && decide (a < f.1 + f.2.1) with
  | some f => f.2.2
  | none => match assoc m.cipher (a / granuleBytes) with
    | some k => if a < 96 * granuleBytes then k.byte a else Config.blankByte
    | none => Config.blankByte

def State.blank (s : State) (a : Nat) : Byte := s.mems.blank a

def State.byte (s : State) (a : Nat) : Byte := Mem.get s.blank s.mems.bytes a
def State.bytesAt (s : State) (a n : Nat) : List Byte := Mem.read s.blank s.mems.bytes a n
def State.readN (s : State) (a n : Nat) : Nat := leNat (s.bytesAt a n)
def State.wordsAt (s : State) (a n : Nat) : List Nat := (List.range n).map fun i => s.readN (a + 4 * i) 4

/-- `n` bytes from `a` cover the whole 32-byte word `w` of DRAM. -/
def covers (a n w : Nat) : Bool := decide (a ≤ 32 * w) && decide (32 * w + 32 ≤ a + n)

/-- Poisoned words that a write of `n` bytes at `a` covers whole are good again (R270). -/
def State.heal (s : State) (a n : Nat) : State :=
  { s with dram := { s.dram with poisoned := s.dram.poisoned.filter fun w => !covers a n w } }

def State.put (s : State) (a : Nat) (bs : List Byte) : State :=
  { s with mems := { s.mems with bytes := Mem.put s.blank a bs s.mems.bytes } }.heal a bs.length

def State.putN (s : State) (a n v : Nat) : State := s.put a (leBytes n v)
def State.putWords (s : State) (a : Nat) (ws : List Nat) : State := s.put a (wordsBytes ws)

/-- Drop what is listed in [a, a + n): those addresses read as blank. -/
def State.clearCells (s : State) (a n : Nat) : State :=
  { s with mems := { s.mems with bytes := Mem.clear a (a + n) s.mems.bytes } }.heal a n

/-- Fill [a, a + n) of DRAM with one byte value. -/
def State.fill (s : State) (a n : Nat) (b : Byte) : State :=
  let s := s.clearCells a n
  { s with mems := { s.mems with fills := (a, n, b) :: s.mems.fills } }

/-- Granules of DRAM with all channels active. -/
def dramGranules : Nat := 90

/-- Volatile memory below `keep` is lost: DRAM contents are free values, one for each granule, and flash stays. -/
def Mems.lost (m : Mems) (keep free : Nat) : Mems :=
  { bytes := m.bytes.filter fun c => decide (keep ≤ c.1), fills := m.fills.filter fun f => decide (keep ≤ f.1)
    flash := m.flash
    cipher := (List.range dramGranules).map fun g => (g, .lost (free + g)) }

/-- The contents of DRAM become free values. -/
def State.loseDram (s : State) : State :=
  { s with free := s.free + dramGranules, mems := s.mems.lost (96 * granuleBytes) s.free }

/-- `n` bytes of the present free value. -/
def State.freeBytes (s : State) (n : Nat) : List Byte := (List.range n).map (Config.freeByte s.free)

/-- Contents that the spec leaves undefined: fresh free bytes over [a, a + n). -/
def State.scramble (s : State) (a n : Nat) : State := (s.put a (s.freeBytes n)).drawFree

/-- Flash cells, keyed ((die * 2048 + block) * 1024 + page) * 16384 + offset. -/
def flashKey (die block page : Nat) : Nat := ((die * 2048 + block) * 1024 + page) * 16384

def flashBlank (_ : Nat) : Byte := Config.erasedByte

def State.flashRead (s : State) (a n : Nat) : List Byte := Mem.read flashBlank s.mems.flash a n

def State.flashPut (s : State) (a : Nat) (bs : List Byte) : State :=
  { s with mems := { s.mems with flash := Mem.put flashBlank a bs s.mems.flash } }

def State.flashClear (s : State) (a n : Nat) : State :=
  { s with mems := { s.mems with flash := Mem.clear a (a + n) s.mems.flash } }

/-! ## Functions and interrupts -/

/-- The owning function of a partition (R322). -/
def State.ownFn (s : State) (p : Nat) : Fn := if s.link.vfEnable && decide (p < s.link.numVfs) then .vf p else .pf

def State.fnSt (s : State) : Fn → FnSt
  | .pf => s.link.pf
  | .vf v => s.link.vfs.getD v (FnSt.reset 8)

def State.modFn (s : State) (fn : Fn) (f : FnSt → FnSt) : State :=
  match fn with
  | .pf => { s with link := { s.link with pf := f s.link.pf } }
  | .vf v => { s with link := { s.link with vfs := s.link.vfs.modify v f } }

/-- Whether the link carries anything. -/
def State.linkUp (s : State) : Bool := s.link.up && !s.link.lost && !s.link.d3hot

def State.conf (s : State) (p : Nat) : Bool := (s.part p).valid && (s.part p).conf

/-- Whether the owning function of a partition can reach host memory (R322, R327, R459). -/
def State.hostOk (s : State) (p : Nat) : Bool :=
  s.linkUp && (s.fnSt (s.ownFn p)).busMaster &&
    (!s.conf p || (s.ownFn p == .vf p && s.link.ide.getD p false))

def State.pfHostOk (s : State) : Bool := s.linkUp && s.link.pf.busMaster

/-- Whether entry e of a function may send (R326). -/
def FnSt.sendable (f : FnSt) (e : Nat) : Bool := f.busMaster && f.msixOn && !f.fnMask && !f.masked.contains e

/-- Raise an MSI-X entry: one message, or its pending bit. -/
def State.raiseMsix (s : State) (fn : Fn) (e : Nat) : State :=
  if s.linkUp && (s.fnSt fn).sendable e then { s with out := { s.out with msix := (fn, e) :: s.out.msix } }
  else if (s.fnSt fn).pending.contains e then s
  else s.modFn fn fun f => { f with pending := e :: f.pending }

/-- Send every pending message that R326 now allows. -/
def State.flushMsix (s : State) (fn : Fn) : State :=
  if s.linkUp then
    let f := s.fnSt fn
    let go := f.pending.filter f.sendable
    let s := { s with out := { s.out with msix := go.map (fun e => (fn, e)) ++ s.out.msix } }
    s.modFn fn fun f => { f with pending := f.pending.filter fun e => !go.contains e }
  else s

/-! ## Fault records -/

/-- The details of R409 that mark a change of state. -/
def eventDetail (d : Nat) : Bool := [0x2, 0x3, 0x4, 0x6, 0x7, 0x8, 0x9, 0xB, 0xC, 0xE, 0x12, 0x13, 0x14, 0x15, 0x16,
  0x1B, 0x1C].contains d

/-- Enter a record (R412): dropped when the queue is full; otherwise MSI-X entry 63 of the PF. -/
def State.enterFault (s : State) (r : FaultRec) : State :=
  let q := s.faults
  if 256 ≤ q.head - q.tail then
    { s with faults := { q with overflow := true, lost := satInc top32 q.lost 1, afterLoss := true } }
  else
    let old := q.recs.filter fun x => decide (q.head < x.1 + 256) || decide (s.now ≤ x.2.firstTs + msTicks)
    let s := { s with faults :=
      { q with head := q.head + 1, afterLoss := false, recs := (q.head, { r with afterLoss := q.afterLoss }) :: old } }
    s.raiseMsix .pf 63

def foldFault (part : Option Nat) (now : Nat) (r : FaultRec) : FaultRec :=
  { r with count := satInc top32 r.count 1, lastTs := now, mixed := r.mixed || r.part != part }

/-- One occurrence at its origin (R410, R411). -/
def State.raise (s : State) (source cls detail : Nat) (part : Option Nat) (tag info : Nat) : State :=
  let hide := match part with
    | some p => s.conf p
    | none => false
  let fresh : FaultRec :=
    { cls := cls, source := source, part := part, mixed := false, afterLoss := false, continued := false, count := 1
      firstTs := s.now, lastTs := s.now, detail := if hide then 0 else detail, tag := if hide then 0 else tag
      info := if hide then 0 else info }
  if eventDetail detail then s.enterFault fresh else
    let q := s.faults
    match q.recs.find? fun x => x.2.source == source && x.2.cls == cls with
    | none => s.enterFault fresh
    | some (n, r) =>
      if r.firstTs + msTicks < s.now then s.enterFault fresh
      else if q.tail ≤ n then
        let recs := q.recs.map fun x => if x.1 == n then (n, foldFault part s.now r) else x
        { s with faults := { q with recs := recs } }
      else
        let due := r.firstTs + msTicks
        let held := q.gathered.find? fun g => g.1 == due && g.2.source == source && g.2.cls == cls
        let others := q.gathered.filter fun g => !(g.1 == due && g.2.source == source && g.2.cls == cls)
        let g := match held with
          | some g => foldFault part s.now g.2
          | none => { fresh with continued := true }
        { s with faults := { q with gathered := (due, g) :: others } }

/-- `k` occurrences in a row. -/
def State.raiseMany (s : State) (k source cls detail : Nat) (part : Option Nat) (tag info : Nat) : State :=
  (List.range k).foldl (fun s _ => s.raise source cls detail part tag info) s

/-- A record of start-up, entered when the device becomes READY (R424). -/
def State.later (s : State) (source cls detail info : Nat) : State :=
  { s with dev := { s.dev with startFaults := s.dev.startFaults ++ [(source, cls, detail, info)] } }

/-- A record of the device itself: during the self-test it waits for READY. -/
def State.report (s : State) (source cls detail info : Nat) : State :=
  if s.dev.stage == .selfTest then s.later source cls detail info else s.raise source cls detail none 0 info

/-- The device enters DEVICE_FAULT, and ALERT_N asserts (R279, R454). -/
def State.setFault (s : State) : State :=
  if s.dev.fault then s else { s with dev := { s.dev with fault := true }, smbus := { s.smbus with alert := true } }

/-! ## Sync counters (R104, R105) -/

def State.counter (s : State) (c : Nat) : Nat := (assoc s.counters c).getD 0

def State.setCounter (s : State) (c v : Nat) : State :=
  { s with counters := if v = 0 then assocDel s.counters c else assocSet s.counters c v }

/-- A context whose awaited counter has reached its value becomes READY. -/
def Ctx.wake (now : Nat) (val : Nat → Nat) (x : Ctx) : Ctx :=
  if x.state != .waitDep then x
  else if x.combining then
    if bits 19 16 (wordAt x.words 0) ≤ val (bits 25 16 (wordAt x.words 25)) then
      { x with state := .ready, readySince := now } else x
  else if bits 31 16 (wordAt x.words 24) ≤ val (bits 9 0 (wordAt x.words 24)) then
    { x with state := .ready, waited := true, readySince := now }
  else x

def State.wakeAll (s : State) : State :=
  { s with engines := s.engines.map fun e => { e with ctxs := e.ctxs.map (Ctx.wake s.now s.counter) } }

/-- Increment a counter; an increment at 0xFFFF is lost and reported by the unit that issued it. -/
def State.signal (s : State) (c source : Nat) (part : Option Nat) : State :=
  if 0xFFFF ≤ s.counter c then s.raise source 1 0 part 0 0
  else (s.setCounter c (s.counter c + 1)).wakeAll

/-! ## Trace records (R383, R384; log entry 25) -/

def TraceRec.units (r : TraceRec) : Nat := if r.words.length ≤ 4 then 1 else ceilDiv (4 + r.words.length) 8

def State.traceRoom (s : State) (n : Nat) : Bool :=
  decide (s.trace.head + n ≤ s.trace.tail + 2 ^ s.trace.size) && s.pfHostOk

/-- The words of a record, `units` times eight of them. -/
def State.traceWords (s : State) (r : TraceRec) : List Nat :=
  let u := r.units
  let phase := 1 - s.trace.head / 2 ^ s.trace.size % 2
  let w0 := r.type + 2 ^ 8 * (u - 1) + 2 ^ 10 * r.part + 2 ^ 15 * phase + 2 ^ 16 * r.qp
  let body := [w0, s.trace.seqno % 2 ^ 32, r.ts % 2 ^ 32, r.ts / 2 ^ 32 % 2 ^ 32] ++ r.words
  body ++ List.replicate (8 * u - body.length) 0

/-- Write one record at HEAD; each unit lies at its own slot (R442). -/
def State.traceWrite (s : State) (r : TraceRec) : State :=
  let ws := s.traceWords r
  let h := s.trace.head
  let base := hostBase + s.trace.base
  let s := (List.range r.units).foldl
    (fun s i => s.putWords (base + 32 * ((h + i) % 2 ^ s.trace.size)) ((ws.drop (8 * i)).take 8)) s
  { s with trace := { s.trace with head := h + r.units, seqno := s.trace.seqno + 1 } }

def State.keepStore (s : State) (held : List TraceRec) : State := { s with trace := { s.trace with store := held } }

/-- Records held under STALL, then a LOST record, as room allows. -/
def State.traceDrain (s : State) : Nat → State
  | 0 => s
  | n + 1 =>
    match s.trace.store with
    | r :: rest =>
      if s.traceRoom r.units then
        State.traceDrain ((s.traceWrite r).keepStore rest) n
      else s
    | [] =>
      if 0 < s.trace.pendingLost && s.traceRoom 1 then
        let t := s.traceWrite { type := 0x0B, part := 0, qp := 0, ts := s.now, words := [s.trace.pendingLost] }
        { t with trace := { t.trace with pendingLost := 0 } }
      else s

def State.traceEmit (s : State) (r : TraceRec) : State :=
  let s := s.traceDrain (s.trace.store.length + 1)
  if s.trace.store.isEmpty && s.trace.pendingLost == 0 && s.traceRoom r.units then s.traceWrite r
  else if s.trace.stall && decide (s.trace.store.length < 4096) then
    { s with trace := { s.trace with store := s.trace.store ++ [r] } }
  else { s with trace := { s.trace with lost := satInc top32 s.trace.lost 1, pendingLost := s.trace.pendingLost + 1 } }

def State.traced (s : State) (p : Nat) : Bool := s.trace.enable && bit p s.trace.partMask && !s.conf p

/-- A record of a partition, written only while it is traced. -/
def State.tracePart (s : State) (type p qp : Nat) (words : List Nat) : State :=
  if s.traced p then s.traceEmit { type := type, part := p, qp := qp, ts := s.now, words := words } else s

/-- An EVENT record: unit and event code (1 watchdog restart, 2 map-out, 3 FW_UPDATE switch; log entry 25). -/
def State.traceEvent (s : State) (unit code : Nat) : State :=
  if s.trace.enable then s.traceEmit { type := 0x0A, part := 0, qp := 0, ts := s.now, words := [unit, code] } else s

/-- A processor starts from SP's verified copy of its image, and only from it (R375). -/
def Cp.start (c : Cp) (now : Nat) : Cp := if c.image.isEmpty then c else { c with state := .running, started := now }

/-- During replay, compare a DRAW or COMPLETION with its record, time fields left out (R386). `key` words select the
record; the rest must agree. -/
def State.replayCompare (s : State) (p : Nat) (key rest : List Nat) : State :=
  let r := s.replay
  if r.state == .running && r.part == p then
    match r.expect.find? fun x => x.2.take key.length == key with
    | none => s
    | some (n, ws) =>
      let left := r.expect.filter fun x => x.1 != n
      if ws.drop key.length == rest then { s with replay := { r with expect := left } }
      else { s with replay :=
        { r with expect := left, mismatch := true, mismatchSeq := if r.mismatch then r.mismatchSeq else n } }
  else s

/-! ## Resources of a partition (R351, R241) -/

def State.granuleOwned (s : State) (p g : Nat) : Bool :=
  decide (g < s.dram.granulesBacked) && (s.part p).granules.contains g

/-- Whether [a, a + n) lies in the partition's DRAM. -/
def State.inDram (s : State) (p a n : Nat) : Bool :=
  decide (a + n ≤ 96 * granuleBytes) &&
    (List.range ((a + n - 1) / granuleBytes + 1 - a / granuleBytes)).all fun i =>
      s.granuleOwned p (a / granuleBytes + i)

def inHost (a n : Nat) : Bool := decide (hostBase ≤ a) && decide (a + n ≤ 2 ^ 48)

def inResident (e a n : Nat) : Bool := decide (localBase e + 0x180000 ≤ a) && decide (a + n ≤ localBase e + 0x200000)

/-- DRAM of the partition or the host window. -/
def State.inDramHost (s : State) (p a n : Nat) : Bool := inHost a n || s.inDram p a n

/-! ## Shared SRAM (R12): the allocations in the order of the table (log entry 16) -/

def sumpBase : Nat := sramBase
def mergeBase : Nat := sramBase + 0x800000
def echoCacheBase : Nat := sramBase + 0xC00000
def nodeCacheBase : Nat := sramBase + 0x1C00000
def steerCacheBase : Nat := sramBase + 0x2000000
def firmwareBase : Nat := sramBase + 0x2800000

/-- Bytes that Kadon's own tasks read: the steering-vector cache and the firmware's working data (R202, R12; log entry 32). -/
def kadonReads (a n : Nat) : Bool := decide (steerCacheBase ≤ a) && decide (a + n ≤ sramBase + sramBytes)

/-- Bytes that they write: the firmware's working data. -/
def kadonWrites (a n : Nat) : Bool := decide (firmwareBase ≤ a) && decide (a + n ≤ sramBase + sramBytes)

end Sys2Proof.Machine
end

