-- ==== Sys2Proof/Machine/DramMap.lean ====
section
/-! DEFINITION. Where a DRAM address lies (R269, R271), uncorrectable and poisoned words as every reader and writer of DRAM
meets them (R270), and a write that the host or a unit makes. -/

namespace Sys2Proof.Machine

/-! ## The interleave (R269, R271) -/

def State.activeChans (s : State) : List Nat := (List.range 24).filter fun c => (s.chan c).active

def foldBits (x : Nat) : Nat :=
  (x ^^^ (x / 2 ^ 5) ^^^ (x / 2 ^ 10) ^^^ (x / 2 ^ 15) ^^^ (x / 2 ^ 20)) % 32

/-- Channel, ECC block, unit and channel-local offset of a DRAM address over active channels `a`. -/
structure DramLoc where
  chan : Nat
  block : Nat
  unit : Nat
  offset : Nat
  deriving DecidableEq, Repr

def dramLoc (a : List Nat) (addr : Nat) : DramLoc :=
  let c := a.length
  let g := addr / 256
  let st := g / (16 * c)
  let r := g % (16 * c)
  let q := 16 * st + r / c
  { chan := a.getD ((r + foldBits st) % c) 0, block := q / 15, unit := q % 15
    offset := q / 15 * 4096 + q % 15 * 256 + addr % 256 }

/-- The address of unit index `q` of the channel at position `k` of the active channels: the interleave turned round. -/
def unitAddr (a : List Nat) (k q : Nat) : Nat :=
  let c := a.length
  let st := q / 16
  let r := c * (q % 16) + (k + c - foldBits st % c) % c
  256 * (16 * c * st + r)

/-- The channel-local offset of word `w`'s check field in unit `unit` of an ECC block (R268). -/
def checkOffset (block unit w : Nat) : Nat := 4096 * block + 3840 + 2 * (8 * unit + w)

/-- The partition that owns the granule of an address. -/
def State.ownerOf (s : State) (addr : Nat) : Option Nat :=
  (List.range 8).find? fun p => (s.part p).valid && (s.part p).granules.contains (addr / granuleBytes)

/-- Word `w` of 32 bytes as DRAM stores it: a confidential partition's under its data key, the word's number being the tweak
(R264, R361). -/
def State.arrayWord (s : State) (w : Nat) : List Byte :=
  let data := s.bytesAt (32 * w) 32
  match s.ownerOf (32 * w) with
  | some p => if (s.part p).conf && !(s.part p).key.isEmpty then xtsEncrypt (s.part p).key w data else data
  | none => data

/-- The byte of a channel's array at a channel-local offset, for the channel at position `k` of the active ones: data units, check
fields over the stored data and address bits [31:5], and the reserved zeros (R268). -/
def State.arrayByte (s : State) (a : List Nat) (k off : Nat) : Byte :=
  let block := off / 4096
  let at_ := off % 4096
  if at_ < 3840 then
    let addr := unitAddr a k (15 * block + at_ / 256) + at_ % 256
    (s.arrayWord (addr / 32)).getD (addr % 32) 0
  else if at_ < 4080 then
    let i := (at_ - 3840) / 2
    let addr := unitAddr a k (15 * block + i / 8) + 32 * (i % 8)
    let local_ := 4096 * block + 32 * i
    let data := s.arrayWord (addr / 32)
    let code := if s.dram.poisoned.contains (addr / 32) then Config.poisonCode data (local_ / 32)
      else Config.checkCode data (local_ / 32)
    BitVec.ofNat 8 (code.toNat / 2 ^ (8 * (at_ % 2)))
  else 0

def backedGranules (c : Nat) : Nat := if c < 16 then 0 else 15 * c / 4

/-- One uncorrectable word: an occurrence of the channel (R270, R409). -/
def State.dramWordError (s : State) (addr : Nat) : State :=
  let l := dramLoc s.activeChans addr
  let s := s.raise (0x20 + l.chan) 5 1 (s.ownerOf addr) 0 (l.offset / 32)
  s.modChan l.chan fun c => { c with errTimes := s.now :: c.errTimes.filter fun t => decide (s.now ≤ t + 1000 * msTicks) }

/-! ## Uncorrectable and poisoned words (R270) -/

/-- Words of 32 bytes that a range touches. -/
def wordsOf (addr len : Nat) : List Nat := List.range' (addr / 32) ((addr + len - 1) / 32 + 1 - addr / 32)

/-- The poisoned words that `n` bytes from `a` touch. -/
def State.badWords (s : State) (a n : Nat) : List Nat :=
  if n = 0 || s.dram.poisoned.isEmpty then [] else (wordsOf a n).filter fun w => s.dram.poisoned.contains w

/-- A read of words that are uncorrectable: one occurrence each. -/
def State.reportWords (s : State) (ws : List Nat) : State := ws.foldl (fun s w => s.dramWordError (32 * w)) s

/-- A write. A poisoned word that it covers in part is read first, which is an occurrence, and stays poisoned; one that it
covers whole is good again. -/
def State.store (s : State) (a : Nat) (bs : List Byte) : State :=
  let bad := s.badWords a bs.length
  (s.reportWords (bad.filter fun w => !covers a bs.length w)).put a bs

def State.storeN (s : State) (a n v : Nat) : State := s.store a (leBytes n v)
def State.storeWords (s : State) (a : Nat) (ws : List Nat) : State := s.store a (wordsBytes ws)

end Sys2Proof.Machine
end

