-- ==== Sys2Proof/Machine/Operands.lean ====
section
/-! DEFINITION. Every operand form: the descriptor (R26 to R32) with its checks, the tile task record (R96) and its static
validity (R98, R108, R128), page handles and page-table entries (R147, R148). -/

namespace Sys2Proof.Machine

/-! ## Descriptors -/

/-- The assigned opcodes (R28). -/
def opcodes : List Nat := [0x01, 0x02, 0x03, 0x04, 0x05, 0x06, 0x07, 0x08, 0x09, 0x0A, 0x0B, 0x0C, 0x0D, 0x0E, 0x10, 0x11,
  0x12, 0x13, 0x20, 0x21, 0x22, 0x23, 0x30, 0x31, 0x40, 0x41, 0x42, 0x43]

def all32 : Nat := 0xFFFFFFFF

/-- The bits of body word `w` that R31 and R32 name; the others are reserved. UNLOAD_MODEL ("SLOT only") has R31's prefix, and
whether its words 4 to 7 must be 0 is not stated: DESIGN CHOICE, they are accepted and ignored (log entry 78). -/
def bodyMask (op : Nat) (expert : Bool) (w : Nat) : Nat :=
  if op ≤ 0x0E then
    match w with
    | 3 => 0xFFFF000F
    | 4 | 6 => all32
    | 5 | 7 => 0xFFFF
    | 8 => match op with
      | 0x01 | 0x07 | 0x08 => 0xFF01
      | 0x0D => all32
      | 0x0E => 0x7FF
      | _ => 0
    | 9 => if op == 0x01 then all32 else if op == 0x0D then 0x3FF else 0
    | 10 | 11 => if op == 0x01 then all32 else 0
    | _ => 0
  else if op ≤ 0x12 then (if w == 3 then all32 else 0)
  else if op == 0x13 then (match w with
    | 3 => 0xFF
    | 4 => all32
    | _ => 0)
  else if op ≤ 0x22 then (match w with
    | 3 => if expert then 0x1F else 0xFF
    | 4 => all32
    | 5 => if op == 0x22 then 0 else 0x07FF03FF
    | 6 => if op == 0x22 then 0 else all32
    | 7 => if op == 0x22 then 0 else 0xFFFF
    | _ => 0)
  else if op == 0x23 then (match w with
    | 3 => 0x30F
    | 4 | 5 | 6 | 7 | 8 | 9 => all32
    | _ => 0)
  else if op == 0x30 then (match w with
    | 3 | 5 => 0xFFFF
    | 4 | 6 => all32
    | _ => 0)
  else if op == 0x31 then (match w with
    | 3 => 0xF
    | 5 | 7 => 0xFFFF
    | 4 | 6 | 8 | 9 => all32
    | _ => 0)
  else if op == 0x40 then (match w with
    | 3 => 0x3707
    | 4 | 5 | 6 | 8 => all32
    | 7 => 0x7F
    | 9 => 0xFFFF
    | _ => 0)
  else if op == 0x41 then (if w == 3 then 7 else 0)
  else if op == 0x42 then (match w with
    | 4 | 6 | 8 => all32
    | 5 | 7 => 0xFFFF
    | _ => 0)
  else (match w with
    | 3 => 0xF
    | 4 | 6 => all32
    | 5 => 0xFFFF
    | _ => 0)

def maskClear (mask w : Nat) : Bool := w &&& mask == w

def dOpcode (ws : List Nat) : Nat := bits 7 0 (wordAt ws 0)
def dNotify (ws : List Nat) : Bool := bit 8 (wordAt ws 0)
def dFence (ws : List Nat) : Bool := bit 9 (wordAt ws 0)
def dPart (ws : List Nat) : Nat := bits 18 16 (wordAt ws 0)
def dPrio (ws : List Nat) : Nat := bits 20 19 (wordAt ws 0)
def dExpert (ws : List Nat) : Bool := bit 21 (wordAt ws 0)
def dJobId (ws : List Nat) : Nat := wordAt ws 1
def dDeadline (ws : List Nat) : Nat := bits 23 0 (wordAt ws 2)
def dPolicy (ws : List Nat) : Nat := bits 25 24 (wordAt ws 2)
def dSlot (ws : List Nat) : Nat := bits 3 0 (wordAt ws 3)
def dCount (ws : List Nat) : Nat := bits 31 16 (wordAt ws 3)
def dArg (ws : List Nat) : Nat := addr48 ws 4
def dOut (ws : List Nat) : Nat := addr48 ws 6

/-- The first check of R30. -/
def descWellFormed (ws : List Nat) : Bool :=
  opcodes.contains (dOpcode ws) && dPolicy ws != 3 &&
    maskClear 0x3F03FF (wordAt ws 0) && maskClear 0x3FFFFFF (wordAt ws 2) &&
    (List.range' 3 13).all fun w => maskClear (bodyMask (dOpcode ws) (dExpert ws) w) (wordAt ws w)

/-- Opcodes reserved to the physical function (R32). -/
def pfOnly (op : Nat) : Bool := [0x40, 0x41, 0x43].contains op

/-- Whether an opcode allows LEVEL 1, and LEVEL 0 (R32). -/
def expertAllowed (op : Nat) : Bool := [0x20, 0x21, 0x22, 0x30, 0x31, 0x40].contains op
def basicAllowed (op : Nat) : Bool := !([0x30, 0x31].contains op)

/-! ## The TRANSFORM word (R315) and the checks of DMA_RAW (R318) -/

def xOp (t : Nat) : Nat := bits 1 0 t
def xSrc (t : Nat) : Option Fmt := fmtOf (bits 5 2 t)
def xDst (t : Nat) : Option Fmt := fmtOf (bits 9 6 t)
def xRows (t : Nat) : Nat := bits 15 10 t + 1
def xUnitCode (t : Nat) : Nat := bits 18 16 t
def xUnit (t : Nat) : Nat := 8 * 2 ^ xUnitCode t
def xPitch (t : Nat) : Nat := 16 * bits 31 19 t

/-- Eighths of a bit per element, so that T1's 1.625 is whole. -/
def Fmt.width8 (f : Fmt) : Nat := if f == .t1 then 13 else 8 * f.width

def Fmt.convertible : Fmt → Bool
  | .s4 | .s8 | .f4 | .f8a | .f8b | .bf16 => true
  | _ => false

/-- Destination bytes of `n` source bytes (R317). -/
def dstBytes (a b : Fmt) (n : Nat) : Nat := n * b.width8 / a.width8

/-- Elements of a source row of TRANSPOSE. -/
def xCols (a : Fmt) (rowBytes : Nat) : Nat := rowBytes * 64 / a.width8

/-- The extent of the destination from DST. -/
def xExtent (t len : Nat) (a b : Fmt) : Nat :=
  let row := len / xRows t
  match xOp t with
  | 0 => dstBytes a b len
  | 1 => (xRows t - 1) * (xPitch t + xUnit t) + dstBytes a b row
  | _ => (xCols a row - 1) * xPitch t + xRows t * b.width8 / 64

/-- R318's structural checks. -/
def dmaValid (src dst len t : Nat) : Bool :=
  match xSrc t, xDst t with
  | some a, some b =>
    let row := len / xRows t
    let n := xExtent t len a b
    len != 0 && decide (len ≤ 0x7FFFFFF0) && src % 16 == 0 && dst % 16 == 0 && len % 16 == 0 &&
      xOp t != 3 && (a == b || (a.convertible && b.convertible)) && decide (xUnitCode t ≤ 4) &&
      (xOp t == 1 || xUnitCode t == 0) && (len * b.width8) % a.width8 == 0 && dstBytes a b len % 16 == 0 &&
      (xOp t == 0 || len % xRows t == 0) &&
      (xOp t != 1 || (xUnit t * a.width8 % b.width8 == 0 && row % (xUnit t * a.width8 / b.width8) == 0 &&
        decide (dstBytes a b row ≤ xPitch t))) &&
      (xOp t != 2 || (row * 64 % a.width8 == 0 && decide (1 ≤ xCols a row) && decide (xCols a row ≤ 64) &&
        xRows t * b.width8 % 64 == 0 && decide (xRows t * b.width8 / 64 ≤ xPitch t))) &&
      !(decide (src < dst + n) && decide (dst < src + len))
  | _, _ => false

/-! ## Body fields -/

/-- The range of COUNT (R32). -/
def countRange (op : Nat) : Nat × Nat :=
  match op with
  | 0x03 | 0x04 | 0x05 | 0x09 | 0x0A | 0x0E => (1, 256)
  | 0x06 | 0x07 | 0x08 => (1, 1024)
  | 0x0B => (1, 4096)
  | 0x0C => (1, 65535)
  | 0x0D => (1, 1)
  | _ => (0, 0)

/-- Body fields within their stated ranges, and no reserved value (R30's sixth check): COUNT and the fields of R32's table,
the blocks of a LOCK (R307, R308: the other actions do not use them), and TRANSFORM with the checks of R318 that need no
address of the partition. -/
def bodyInRange (ws : List Nat) : Bool :=
  let op := dOpcode ws
  if op ≤ 0x0E then
    decide ((countRange op).1 ≤ dCount ws) && decide (dCount ws ≤ (countRange op).2) &&
      (op != 0x0D || decide (bits 9 0 (wordAt ws 9) ≤ 1000)) &&
      (op != 0x0E || (decide (1 ≤ wordAt ws 8) && decide (wordAt ws 8 ≤ 1024)))
  else if op == 0x13 then decide (wordAt ws 3 ≤ 1)
  else if op == 0x20 || op == 0x21 then
    decide (1 ≤ bits 26 16 (wordAt ws 5)) && decide (bits 26 16 (wordAt ws 5) ≤ 1024) &&
      (!dExpert ws || decide (wordAt ws 4 ≤ 2047))
  else if op == 0x22 then !dExpert ws || decide (wordAt ws 4 ≤ 2047)
  else if op == 0x23 then
    bits 9 8 (wordAt ws 3) != 1 || (decide (wordAt ws 4 ≤ 1791) && decide (wordAt ws 5 ≤ 1791))
  else if op == 0x31 then dmaValid (addr48 ws 4) (addr48 ws 6) (wordAt ws 8) (wordAt ws 9)
  else if op == 0x30 then
    decide (1 ≤ wordAt ws 3) && decide (wordAt ws 3 ≤ 4096) && addr48 ws 4 % 128 == 0
  else if op == 0x40 then bits 13 12 (wordAt ws 3) != 3
  else if op == 0x42 then decide (1808 ≤ wordAt ws 8)
  else if op == 0x43 then wordAt ws 3 != 0
  else true

/-- Opcodes that can be suspended (R40). -/
def suspendable (op : Nat) : Bool := [0x01, 0x03, 0x0C, 0x0E, 0x07, 0x08, 0x20, 0x21, 0x31].contains op

/-- Opcodes that cannot be cancelled (R40). -/
def uncancellable (op : Nat) : Bool := [0x40, 0x41, 0x42, 0x43].contains op

/-- PREFILL, DECODE_STEP and VERIFY_TREE. -/
def servingOp (op : Nat) : Bool := op == 3 || op == 4 || op == 5

def controlOp (op : Nat) : Bool := [0x10, 0x11, 0x12, 0x13].contains op

/-! ## Tile task records (R96) -/

def tKind (t : List Nat) : Nat := bits 1 0 (wordAt t 0)
def tStripe (t : List Nat) : Bool := bit 2 (wordAt t 0)
def tPrio (t : List Nat) : Nat := bits 7 6 (wordAt t 0)
def tTransA (t : List Nat) : Bool := bit 8 (wordAt t 0)
def tTransB (t : List Nat) : Bool := bit 9 (wordAt t 0)
def tConv (t : List Nat) : Nat := bits 11 10 (wordAt t 0)
def tBMode (t : List Nat) : Nat := bits 13 12 (wordAt t 0)
def tWMode (t : List Nat) : Nat := bits 15 14 (wordAt t 0)
def tSplit (t : List Nat) : Nat := bits 19 16 (wordAt t 0)      -- S - 1
def tPart (t : List Nat) : Nat := bits 23 20 (wordAt t 0)
def tUseWsum (t : List Nat) : Bool := bit 24 (wordAt t 0)
def tUseBias (t : List Nat) : Bool := bit 25 (wordAt t 0)
def tOutF32 (t : List Nat) : Bool := bit 26 (wordAt t 0)
def tTag (t : List Nat) : Nat := bits 15 0 (wordAt t 1)
def tK (t : List Nat) : Nat := bits 19 0 (wordAt t 2)
def tFmtA (t : List Nat) : Nat := bits 3 0 (wordAt t 3)
def tFmtB (t : List Nat) : Nat := bits 7 4 (wordAt t 3)
def tFmtOut (t : List Nat) : Nat := bits 11 8 (wordAt t 3)
def tGroupCode (t : List Nat) : Nat := bits 13 12 (wordAt t 3)
def tGroup (t : List Nat) : Nat := 32 * 2 ^ tGroupCode t
def tHadCode (t : List Nat) : Nat := bits 15 14 (wordAt t 3)
def tHad (t : List Nat) : Nat := if tHadCode t = 0 then 0 else 32 * 2 ^ tHadCode t
def tSmooth (t : List Nat) : Bool := bit 16 (wordAt t 3)
def tTokens (t : List Nat) : Nat := bits 23 17 (wordAt t 3)
def tChannels (t : List Nat) : Nat := bits 30 24 (wordAt t 3)
def tAAddr (t : List Nat) : Nat := addr48 t 4
def tAStride (t : List Nat) : Nat := 16 * bits 31 16 (wordAt t 5)
def tBAddr (t : List Nat) : Nat := addr48 t 6
def tBStride (t : List Nat) : Nat := 16 * bits 31 16 (wordAt t 7)
def tOutAddr (t : List Nat) : Nat := addr48 t 8
def tOutStride (t : List Nat) : Nat := 16 * bits 31 16 (wordAt t 9)
def tPartAddr (t : List Nat) : Nat := addr48 t 10
def tPartStride (t : List Nat) : Nat := 16 * bits 31 16 (wordAt t 11)
def tWsumAddr (t : List Nat) : Nat := addr48 t 12
def tBiasAddr (t : List Nat) : Nat := addr48 t 14
def tListHi (t : List Nat) : Nat := bits 18 16 (wordAt t 15)
def tVecAddr (t : List Nat) (i : Nat) : Nat := addr48 t (16 + 2 * i)
def tVecStrideRaw (t : List Nat) (i : Nat) : Nat := bits 31 16 (wordAt t (17 + 2 * i))
def tStep (t : List Nat) (i : Nat) : Nat := wordAt t (20 + i / 4) / 2 ^ (8 * (i % 4)) % 256
def tConst (t : List Nat) (i : Nat) : F32 := BitVec.ofNat 32 (wordAt t (22 + i))
def tWaitCtr (t : List Nat) : Nat := bits 9 0 (wordAt t 24)
def tWaitEn (t : List Nat) : Bool := bit 10 (wordAt t 24)
def tWaitVal (t : List Nat) : Nat := bits 31 16 (wordAt t 24)
def tSignalCtr (t : List Nat) : Nat := bits 9 0 (wordAt t 25)
def tSignalEn (t : List Nat) : Bool := bit 10 (wordAt t 25)
def tCombineCtr (t : List Nat) : Nat := bits 25 16 (wordAt t 25)
def tParam (t : List Nat) : Nat := wordAt t 26 + 2 ^ 32 * wordAt t 27
def tPinEngine (t : List Nat) : Nat := bits 4 0 (wordAt t 28)
def tPin (t : List Nat) : Bool := bit 5 (wordAt t 28)
def tVecBf16 (t : List Nat) (i : Nat) : Bool := bit (8 + i) (wordAt t 28)
def tListLen (t : List Nat) : Nat := bits 27 16 (wordAt t 7) + 4096 * tListHi t
def tC0 (t : List Nat) : Nat := bits 31 28 (wordAt t 7)

/-- The program's steps before its first END; none when eight steps hold no END. -/
def tProgram (t : List Nat) : List Nat := ((List.range 8).map (tStep t)).takeWhile fun b => b % 64 != 0

/-- The END byte that closes the program, if one of the eight steps is END. -/
def tEnd (t : List Nat) : Option Nat := ((List.range 8).map (tStep t)).find? fun b => b % 64 == 0

def reducingOp (o : Nat) : Bool := o == 0x08 || o == 0x09 || o == 0x0A
/-- The adaptation steps, which only tasks of a TRAIN_STEP may hold (R230). -/
def adaptOp (o : Nat) : Bool := decide (0x20 ≤ o) && decide (o ≤ 0x2F)

/-! ## Skew units (R118) -/

def Fmt.unitElems : Fmt → Nat
  | .s4 | .f4 | .s3 | .u4z => 32
  | .s2 | .t1 => 64
  | _ => 16

def Fmt.unitBytes : Fmt → Nat
  | .s3 => 12
  | .t1 => 13
  | .bf16 => 32
  | _ => 16

/-! ## TRU regions and sidecars (R244) -/

/-- Base and payload length of the TRU region that holds an address. -/
def truRegion (a : Nat) : Option (Nat × Nat) :=
  if a < 96 * granuleBytes || hostBase ≤ a then some (a / granuleBytes * granuleBytes, 0x3C000000)
  else if localBase 0 ≤ a && a < localBase 32 then
    let b := localBase ((a - localBase 0) / 0x1000000) + 0x180000
    if b ≤ a && a < b + 0x80000 then some (b, 0x78000) else none
  else none

/-- The sidecar address of the byte at `x` of a region's payload. -/
def sidecarOf (x : Nat) : Nat :=
  match truRegion x with
  | some (b, p) => b + p + (x - b) / 16
  | none => 0

def isSlotAddr (x : Nat) : Bool :=
  match truRegion x with
  | some (b, p) => (x - b) % 16384 == 0 && decide (x < b + p)
  | none => false

/-- The tile base of token `t` (which may be negative under R126) counted from `a`. -/
def tileBase (a stride : Nat) (t : Int) : Nat := ((a : Int) + 64 * (t / 64) * (stride : Int)).toNat

/-- The place of token `t`'s scale record (R246). -/
def tokenRecord (a stride : Nat) (t : Int) : Nat :=
  let b := tileBase a stride t
  sidecarOf (b - b % 16384) + 256 * (b % 16384 / 4096) + 4 * (t % 64).toNat

/-! ## Page handles and page-table entries (R147, R148) -/

def handleTail (h : Nat) : Bool := bit 31 h
def tailHandle (seq layer head page : Nat) : Nat :=
  seq + 2 ^ 10 * layer + 2 ^ 18 * head + 2 ^ 23 * (page % 256) + 2 ^ 31

def dimOf (code : Nat) : Nat := 64 * 2 ^ code
def dimCode (d : Nat) : Nat := if d = 64 then 0 else if d = 128 then 1 else 2

/-- One page-table entry. -/
structure Pte where
  state : Nat
  fmtS4 : Bool
  dim : Nat
  compressed : Bool
  encrypted : Bool
  nanKeys : Bool
  slot : Nat
  refs : Nat
  epoch : Nat
  payload : Nat
  volume : Nat
  sidecar : Nat
  deriving DecidableEq, Repr

def Pte.ofWords (w : List Nat) : Pte :=
  let w0 := wordAt w 0
  { state := bits 2 0 w0, fmtS4 := bit 3 w0, dim := dimOf (bits 5 4 w0), compressed := bit 6 w0, encrypted := bit 7 w0
    nanKeys := bit 8 w0, slot := bits 15 12 w0, refs := bits 31 16 w0, epoch := wordAt w 1 + 2 ^ 32 * wordAt w 2
    payload := addr48 w 3, volume := bits 23 16 (wordAt w 4), sidecar := addr48 w 5 }

def Pte.toWords (p : Pte) : List Nat :=
  [p.state + 8 * b2n p.fmtS4 + 16 * dimCode p.dim + 64 * b2n p.compressed + 128 * b2n p.encrypted + 256 * b2n p.nanKeys +
     2 ^ 12 * p.slot + 2 ^ 16 * (p.refs % 2 ^ 16),
   p.epoch % 2 ^ 32, p.epoch / 2 ^ 32 % 2 ^ 32, p.payload % 2 ^ 32, p.payload / 2 ^ 32 % 2 ^ 16 + 2 ^ 16 * p.volume,
   p.sidecar % 2 ^ 32, p.sidecar / 2 ^ 32 % 2 ^ 16, 0]

/-- Entries of the page table that the reserve granule has room for; it continues in whole granules (R461, log entry 15). -/
def tableRoom : Nat := 15204352
def granuleEntries : Nat := 0x2000000

def State.pteAddr (s : State) (part i : Nat) : Nat :=
  if i < tableRoom then (s.part part).pageTable + 32 * i
  else (s.kv part).ptMore.getD ((i - tableRoom) / granuleEntries) 0 * granuleBytes + 32 * ((i - tableRoom) % granuleEntries)

def State.pte (s : State) (part i : Nat) : Pte := Pte.ofWords (s.wordsAt (s.pteAddr part i) 8)
def State.setPte (s : State) (part i : Nat) (e : Pte) : State := s.storeWords (s.pteAddr part i) e.toWords

/-- Bytes of a page's payload and sidecar slot (R134). -/
def payloadBytes (s4 : Bool) (d : Nat) : Nat := if s4 then 64 * d else 128 * d
def sidecarBytes (d : Nat) : Nat := if d = 256 then 1024 else 512

end Sys2Proof.Machine
end

