-- ==== Sys2Proof/Machine/Flags.lean ====
section
/-! DEFINITION. Status codes (R34), quality bits (R35), the precedence of statuses (R36), lateness (R42), and the words of
status registers that several families read. -/

namespace Sys2Proof.Machine

def stOk : Nat := 0x0000
def stDegraded : Nat := 0x0001
def stCancelled : Nat := 0x0010
def stSuspended : Nat := 0x0011
def stDeadline : Nat := 0x0020
def stInvalid : Nat := 0x0030
def stDenied : Nat := 0x0031
def stExhausted : Nat := 0x0040
def stData : Nat := 0x0050
def stFault : Nat := 0x0060
def stRng : Nat := 0x0070
def stLink : Nat := 0x0080
def stProtected : Nat := 0x0090

/-- QUALITY bits, as bits of the 12-bit field. -/
def qShadow : Nat := 1
def qDropped : Nat := 2
def qStaging : Nat := 4
def qRetried : Nat := 8
def qLate : Nat := 16
def qAborted : Nat := 32

/-- DEADLINE_US is not 0 and the time used exceeds it (R42). -/
def isLate (deadlineUs used : Nat) : Bool := deadlineUs != 0 && decide (deadlineUs * usTicks < used)

/-- R36: an error status first, then CANCELLED, DEADLINE_MISSED, OK_DEGRADED, OK. -/
def finalStatus (error : Nat) (cancelled late : Bool) (quality : Nat) : Nat :=
  if error ≠ 0 then error
  else if cancelled then stCancelled
  else if late then stDeadline
  else if quality % 4 ≠ 0 then stDegraded
  else stOk

/-- The first detected error stays (R36). -/
def firstError (old new : Nat) : Nat := if old = 0 then new else old

/-- Statuses that raise the vector regardless of moderation (R46). -/
def raisesAtOnce (st : Nat) : Bool := !(st == stOk || st == stDegraded || st == stSuspended)

def jobStateCode : JobSt → Nat
  | .queued => 1
  | .running => 2
  | .suspending => 3
  | .suspended => 4
  | .cancelling => 5

def ctxStateCode : CtxSt → Nat
  | .loaded => 1
  | .ready => 2
  | .waitMem => 3
  | .waitDep => 4
  | .retire => 5
  | .faulted => 6

def ctxCauseCode : CtxCause → Nat
  | .none => 0
  | .dataUncorrected => 1
  | .link => 2
  | .badDivisor => 3
  | .checksum => 4
  | .localStore => 5
  | .writeError => 6
  | .badAppend => 7
  | .address => 8

/-- The status that a job completes with when one of its contexts faults (R115, R130). -/
def ctxCauseStatus : CtxCause → Nat
  | .none => 0
  | .dataUncorrected => stData
  | .link => stLink
  | .badDivisor => stInvalid
  | .checksum => stFault
  | .localStore => stData
  | .writeError => stFault
  | .badAppend => stInvalid
  | .address => stFault

def outCauseCode : OutCause → Nat
  | .none => 0
  | .checksum => 1
  | .localStore => 2
  | .powerOrTest => 3

/-- LAST_RESET and STAGE are coded in §22. -/
def stageCode : Stage → Nat
  | .selfTest => 0
  | .waitKadon => 1
  | .kadon => 2
  | .training => 3
  | .ready => 4
  | .warmReset => 5
  | .shutdown => 6

/-! ## Replay: which record of a JOB_ID is whose (R386) -/

/-- The final COMPLETION record of a JOB_ID that the trace holds after record `origin` (R37: SUSPENDED records are not final). -/
def State.replayFinal (s : State) (origin jobId : Nat) : Option (Nat × List Nat) :=
  s.replay.expect.find? fun x =>
    decide (origin < x.1) && x.2.take 2 == [0x09, jobId] && bits 15 0 (wordAt x.2 2) != stSuspended

/-- The SEQNO of a job's DESCRIPTOR record in the trace that is replayed. -/
def State.replayOrigin (s : State) (uid : Nat) : Nat :=
  ((s.replay.origin.find? fun x => x.1 == uid).map Prod.snd).getD 0

/-- The TIER record of a job's cheaper path: between its DESCRIPTOR and its final COMPLETION, for JOB_IDs are used again (R37). -/
def State.replayTier (s : State) (j : Job) (key : List Nat) : Option (Nat × List Nat) :=
  let a := s.replayOrigin j.uid
  let last := s.replayFinal a j.jobId
  s.replay.tiers.find? fun x => decide (a < x.1) && x.2 == key && last.all fun y => decide (x.1 < y.1)

end Sys2Proof.Machine
end

