-- ==== Sys2Proof/Machine/KvOps.lean ====
section
/-! DEFINITION. Operations of the key-value cache that several families share: frames (R151), units and appends (R139 to
R142), page quantisation and flush (R134 to R138, R144), level-1 records (R175, R176), references and reclamation (R152 to
R154), Flowstone (R157), sequences (R186 to R188), and what a cancelled job leaves (R41, R145). -/

namespace Sys2Proof.Machine

/-! ## Epochs (R153, R154) -/

/-- Whether a job counts for the safe epoch: RUNNING, SUSPENDING or CANCELLING, its result not final. -/
def Job.active (j : Job) : Bool :=
  !j.finished && (j.state == .running || j.state == .suspending || j.state == .cancelling)

def State.partJobs (s : State) (p : Nat) : List Job := s.jobs.list.filter fun j => j.part == p

def State.safeEpoch (s : State) (p : Nat) : Nat :=
  match minBy Job.epoch ((s.partJobs p).filter Job.active) with
  | some j => j.epoch
  | none => (s.kv p).epoch + 1

def State.advanceEpoch (s : State) (p : Nat) : State :=
  s.modKv p fun k => { k with epoch := k.epoch + 1, lastAdvance := s.now }

/-! ## Frames (R151; placement: log entry 15) -/

/-- The part of a granule that frames may use: all of it, or in the reserve granule what lies above the tables. -/
def frameFloor (reserve g : Nat) : Nat := g * granuleBytes + if g = reserve then 0x30000000 else 0

/-- The reserve granule: the one that holds the partition's tables (R461). -/
def State.reserve (s : State) (p : Nat) : Nat := (s.part p).staging / granuleBytes

/-- Granules of the partition that hold no model image. -/
def State.frameGranules (s : State) (p : Nat) : List Nat :=
  (s.part p).granules.filter fun g =>
    !(s.kv p).ptMore.contains g && (s.slots.all fun t => !(t.part == p && t.granules.contains g)) &&
      (s.kv p).freed.all fun f => f.1 != g

def clashes (frames : List (Nat × Nat)) (a n : Nat) : Bool :=
  frames.any fun f => decide (f.1 < a + n) && decide (a < f.1 + f.2)

/-- Highest granule first, and the lowest address within it. -/
def frameOrder (a : Nat) : Nat := (96 - a / granuleBytes) * granuleBytes + a % granuleBytes

/-- The first place in that order for `n` bytes, in steps of 256 bytes, among the granule bottoms and the ends of frames in
use. -/
def State.findFrame (s : State) (p n : Nat) : Option Nat :=
  let k := s.kv p
  let gs := s.frameGranules p
  let starts := gs.map (frameFloor (s.reserve p)) ++ k.frames.map fun f => ceilDiv (f.1 + f.2) 256 * 256
  minBy frameOrder (starts.filter fun a =>
    gs.any (fun g => decide (frameFloor (s.reserve p) g ≤ a) && decide (a + n ≤ (g + 1) * granuleBytes)) &&
      !clashes k.frames a n)

def State.allocFrame (s : State) (p n : Nat) : Option (Nat × State) :=
  match s.findFrame p n with
  | some a => some (a, s.modKv p fun k => { k with frames := (a, n) :: k.frames })
  | none => none

def State.freeFrame (s : State) (p a : Nat) : State :=
  s.modKv p fun k => { k with frames := k.frames.filter fun f => f.1 != a }

/-! ## Token history (R187): 4 bytes a token, 16,384 tokens to a chunk -/

def chunkLen : Nat := 16384

def Seq.tokenAddr (q : Seq) (i : Nat) : Nat := q.chunks.getD (i / chunkLen) 0 + 4 * (i % chunkLen)

/-- The tokens at a sequence's committed positions. -/
def State.history (s : State) (q : Seq) : List Nat := (List.range q.len).map fun i => s.readN (q.tokenAddr i) 4

/-- Where a sequence's history lies, for a reader of all of it. -/
def Seq.historyReads (q : Seq) : List (Nat × Nat) :=
  q.chunks.zipIdx.map fun c => (c.1, 4 * min chunkLen (q.len - chunkLen * c.2))

/-- Give a sequence `n` more chunks; none when no frame is free. -/
def State.growHistory (s : State) (p idx : Nat) : Nat → Option State
  | 0 => some s
  | n + 1 => match s.allocFrame p 0x10000 with
    | none => none
    | some (a, s) => State.growHistory (s.modSeq idx fun q => { q with chunks := q.chunks ++ [a] }) p idx n

/-- Write tokens from position `at_` on, in chunks taken as they are needed. -/
def State.putTokens (s : State) (idx at_ : Nat) (toks : List Nat) : Option State :=
  match s.seq? idx with
  | none => some s
  | some q =>
    (s.growHistory q.part idx (ceilDiv (at_ + toks.length) chunkLen - q.chunks.length)).map fun s =>
      match s.seq? idx with
      | none => s
      | some q => toks.zipIdx.foldl (fun s x => s.storeN (q.tokenAddr (at_ + x.2)) 4 x.1) s

/-- A sequence's length changes; chunks that hold no position any more are free. -/
def State.setLength (s : State) (idx n : Nat) : State :=
  match s.seq? idx with
  | none => s
  | some q =>
    let keep := ceilDiv n chunkLen
    ((q.chunks.drop keep).foldl (fun s a => s.freeFrame q.part a) s).modSeq idx fun q =>
      { q with len := n, chunks := q.chunks.take keep }

/-! ## Units (R139, R140, R142) -/

/-- Tokens of a unit: 2,048 bytes hold D bytes of keys and D of values each. -/
def unitTokens (d : Nat) : Nat := 1024 / d

def stagingUnits : Nat := 122880

/-- Take one unit: from the sump within the quota, else from the staging region (true), counted as an overflow. -/
def State.takeUnit (s : State) (p : Nat) : Option (Bool × State) :=
  let q := s.part p
  if q.ctr.sumpUsed < q.sumpQuota then
    some (false, s.modPart p fun q => { q with ctr := { q.ctr with sumpUsed := q.ctr.sumpUsed + 1 } })
  else if q.ctr.stagUsed < stagingUnits then
    some (true, s.modPart p fun q =>
      { q with ctr := { q.ctr with stagUsed := q.ctr.stagUsed + 1, overflows := satInc top32 q.ctr.overflows 1 } })
  else none

def State.freeUnits (s : State) (p sump stag : Nat) : State :=
  s.modPart p fun q =>
    { q with ctr := { q.ctr with sumpUsed := q.ctr.sumpUsed - sump, stagUsed := q.ctr.stagUsed - stag } }

def Group.at (g : Group) (seq layer head page : Nat) (spec : Bool) : Bool :=
  g.seq == seq && g.layer == layer && g.head == head && g.spec == spec && (spec || g.page == page)

def State.findGroup (s : State) (p seq layer head page : Nat) (spec : Bool) : Option Group :=
  (s.kv p).groups.find? fun g => g.at seq layer head page spec && g.flushed.isNone

/-- A group with nothing in it. -/
def Group.empty (seq layer head page : Nat) (spec : Bool) (d now : Nat) : Group :=
  { seq := seq, layer := layer, head := head, page := page, spec := spec, dim := d, toks := [], sump := 0, stag := 0
    tail := none, last := now, jobs := [], flushed := none, undo := [], fullAt := none, l1Was := none, poisoned := false }

/-- All 64 positions hold keys and values from non-speculative appends (R144). -/
def Group.complete (g : Group) : Bool :=
  !g.spec && g.toks.length == 64 && g.toks.all fun t => t.key.isSome && t.val.isSome

/-- Keep a group, with the place of a complete one in the order of completion. -/
def State.setGroup (s : State) (p : Nat) (g : Group) : State :=
  s.modKv p fun k =>
    let fresh := g.complete && g.fullAt.isNone
    let g := { g with fullAt := if g.complete then (if fresh then some (s.now, k.fulls) else g.fullAt) else none }
    { k with
      fulls := k.fulls + b2n fresh
      groups := g :: k.groups.filter fun h => !(h.at g.seq g.layer g.head g.page g.spec && h.flushed.isNone) }

def State.dropGroup (s : State) (p : Nat) (g : Group) : State :=
  s.modKv p fun k => { k with groups := k.groups.filter fun h => h != g }

/-- Take units until the group can hold `n` tokens; none when no unit is left. True marks a staging unit taken. -/
def State.growGroup (s : State) (p : Nat) (g : Group) (n : Nat) : Nat → Option (State × Group × Bool)
  | 0 => if n ≤ (g.sump + g.stag) * unitTokens g.dim then some (s, g, false) else none
  | fuel + 1 =>
    if n ≤ (g.sump + g.stag) * unitTokens g.dim then some (s, g, false) else
      match s.takeUnit p with
      | none => none
      | some (st, s) =>
        match State.growGroup s p (if st then { g with stag := g.stag + 1 } else { g with sump := g.sump + 1 }) n fuel with
        | none => none
        | some (s, g, b) => some (s, g, b || st)

/-- What an append meets. -/
inductive AppRes where
  | ok (s : State) (staged : Bool)
  | noUnit
  | bad
  deriving DecidableEq, Repr

def halfOf (toks : List Tok) (pos : Nat) (values : Bool) : Option (Nat × List Byte) :=
  (toks.find? fun t => t.pos == pos).bind fun t => if values then t.val else t.key

/-- Set one half of a position; a position without either half is gone. -/
def putHalf (toks : List Tok) (pos : Nat) (values : Bool) (v : Option (Nat × List Byte)) : List Tok :=
  let old := (toks.find? fun t => t.pos == pos).getD { pos := pos, key := none, val := none }
  let new := if values then { old with val := v } else { old with key := v }
  let rest := toks.filter fun t => t.pos != pos
  if new.key.isNone && new.val.isNone then rest else insertBy (fun a b => decide (a.pos < b.pos)) new rest

def Undo.half (u : Undo) : Nat × Bool := (u.pos, u.values)

/-- The next later append to the half now replaces what `u` replaced; none where there is no later one. `later` has the oldest
first. -/
def inheritOld (u : Undo) : List Undo → Option (List Undo)
  | [] => none
  | k :: ks => if k.half == u.half then some ({ k with old := u.old } :: ks) else (inheritOld u ks).map fun l => k :: l

/-- Discard the appends of job `uid`: the other jobs' undo records, and the tokens. -/
def undoJob (uid : Nat) (log : List Undo) (toks : List Tok) : List Undo × List Tok :=
  let r := log.foldl (fun (a : List Undo × List Tok) u =>
    if u.uid != uid then (u :: a.1, a.2)
    else match inheritOld u a.1 with
      | some later => (later, a.2)
      | none => (a.1, putHalf a.2 u.pos u.values u.old)) ([], toks)
  (r.1.reverse, r.2)

/-- The appends of job `uid` stay: what it or an earlier job replaced in the same halves is forgotten. -/
def settleJob (uid : Nat) (log : List Undo) : List Undo :=
  (log.foldl (fun (a : List Undo × List (Nat × Bool)) u =>
    if a.2.contains u.half then a
    else if u.uid == uid then (a.1, u.half :: a.2)
    else (u :: a.1, a.2)) ([], [])).1.reverse

/-- Append the keys or the values of one token (R141): `pos` is the position, or the draft index of a speculative
entry; `base` the sequence's length when the job began. -/
def State.appendTok (s : State) (p uid seq layer head pos base : Nat) (spec values : Bool) (d : Nat)
    (v : Nat × List Byte) : AppRes :=
  match s.seq? seq with
  | none => .bad
  | some q =>
    let page := if spec then 0 else pos / 64
    let flushed := !spec && q.dir.any fun e => e.1 == layer && e.2.1 == head && e.2.2.1 == page
    if flushed || (!spec && decide (base + 65536 ≤ pos)) then .bad else
      let g := (s.findGroup p seq layer head page spec).getD (Group.empty seq layer head page spec d s.now)
      let at_ := if spec then pos else pos % 64
      let toks := putHalf g.toks at_ values (some v)
      let undo := { uid := uid, pos := at_, values := values, old := halfOf g.toks at_ values } :: g.undo
      match s.growGroup p g toks.length 64 with
      | none => .noUnit
      | some (s, g, staged) =>
        let g := { g with
          toks := toks, last := s.now, undo := undo
          jobs := if g.jobs.contains uid then g.jobs else uid :: g.jobs }
        .ok (s.setGroup p g) staged

/-- A full group that the flush unit can take (R144). -/
def Group.full (g : Group) : Bool := !g.poisoned && g.flushed.isNone && g.complete

/-- Keep only `toks`: give back the units they no longer need, or drop the group, with its tail frame, when nothing is left. -/
def State.shrinkGroup (s : State) (p : Nat) (g : Group) (toks : List Tok) : State :=
  let need := ceilDiv toks.length (unitTokens g.dim)
  let stag := min g.stag (g.sump + g.stag - need)
  let sump := g.sump + g.stag - need - stag
  let s := (s.dropGroup p g).freeUnits p sump stag
  if toks.isEmpty then
    match g.tail with
    | some a => s.modKv p fun k => { k with tails := (a, k.epoch) :: k.tails }
    | none => s
  else s.setGroup p
    { g with
      toks := toks, sump := g.sump - sump, stag := g.stag - stag, flushed := none, l1Was := none
      undo := g.undo.filter fun u => toks.any fun t => t.pos == u.pos }

/-! ## Page contents (R134 to R138) -/

/-- The exact value of an S8 code under a BF16 scale. -/
def s8Val (v : Nat × List Byte) (c : Nat) : FV := (FV.ofInt (sext 8 (v.2.getD c 0).toNat)).mul (bf16Val v.1)

def FV.floorInt : FV → Int
  | .fin neg n d => if neg then -((ceilDiv n d : Nat) : Int) else ((n / d : Nat) : Int)
  | _ => 0

def FV.ceilInt : FV → Int
  | .fin neg n d => if neg then -((n / d : Nat) : Int) else ((ceilDiv n d : Nat) : Int)
  | _ => 0

/-- A page as the flush unit forms it. -/
structure PageImg where
  payload : List Byte
  sidecar : List Byte
  nanKeys : Bool
  u : FV
  lo : List Int
  hi : List Int
  sat : Nat
  deriving DecidableEq, Repr

def pageFmt (s4 : Bool) : Fmt := if s4 then .s4 else .s8

/-- One value token under R136: base scale, shifts by group, codes, saturations. -/
def quantValue (f : Fmt) (xs : List FV) : Nat × List Nat × List Nat × Nat :=
  let groups := chunksOf 32 (xs.length / 32) xs
  if !allFin xs then (0xFF, groups.map fun _ => 0, xs.map fun _ => 0, 0) else
    let b := toUE5M3 ((maxAbs xs).div (.ofInt f.qf))
    if b.1 = 0 then (0, groups.map fun _ => 0, xs.map fun _ => 0, b2n b.2) else
      let e := b.1 / 8
      let shiftOf (g : List FV) : Nat :=
        let m := maxAbs g
        ((List.range 4).filter fun d =>
          decide (d ≤ e - 1) && !(((FV.ofInt f.qf).mul (ue5m3Val b.1)).mul (.fin false 1 (2 ^ d))).lt m).foldl max 0
      let ds := groups.map shiftOf
      let cs := (List.zipWith (fun g d => g.map fun x => f.conv false 0 (x.div (ue5m3Val (b.1 - 8 * d)))) groups ds).flatten
      (b.1, ds, cs.map Prod.fst, b2n b.2 + countTrue cs)

/-- Minimum and maximum of a list of integers. -/
def minInt (l : List Int) : Int := l.foldl min (l.headD 0)
def maxInt (l : List Int) : Int := l.foldl max (l.headD 0)

/-- The page that 64 tokens of keys and values make. -/
def makePage (s4 : Bool) (d : Nat) (keys vals : List (Nat × List Byte)) : PageImg :=
  let f := pageFmt s4
  let cols := (List.range d).map fun c => groupQuant f false (keys.map fun k => s8Val k c)
  let scales := cols.map Prod.fst
  let codes := cols.map fun q => q.2.1
  let keyCodes := (List.range 64).flatMap fun i => codes.map fun col => col.getD i 0
  let vq := vals.map fun v => quantValue f ((List.range d).map fun c => s8Val v c)
  let valCodes := vq.flatMap fun q => q.2.2.1
  let nan := scales.contains 0xFF
  let p := maxAbs (scales.map ue5m3Val)
  let u := if s4 then p.mul (.fin false 1 16) else p
  let empty := nan || p.isZero
  let quot (c : Nat) : List FV := (codes.getD c []).map fun k =>
    ((f.val k).mul (ue5m3Val (scales.getD c 0))).div u
  let lo := (List.range d).map fun c => if empty then 0 else minInt ((quot c).map FV.floorInt)
  let hi := (List.range d).map fun c => if empty then 0 else maxInt ((quot c).map FV.ceilInt)
  let shifts := packBits 2 (vq.flatMap fun q => q.2.1)
  let s8 (x : Int) : Byte := BitVec.ofInt 8 x
  let body := scales.map (BitVec.ofNat 8) ++ vq.map (fun q => BitVec.ofNat 8 q.1) ++ shifts ++ lo.map s8 ++ hi.map s8
  { payload := packBits f.width keyCodes ++ packBits f.width valCodes
    sidecar := body ++ List.replicate (sidecarBytes d - body.length) 0
    nanKeys := nan, u := if nan then .nan else u, lo := lo, hi := hi
    sat := (cols.map fun q => q.2.2).sum + (vq.map fun q => q.2.2.2).sum }

/-! ## Level-1 records (R175, R176) -/

/-- Widen a block by one page's summary. A block is empty while u1 is +0.0: one whose pages all have a zero unit counts as
empty, and its record is taken from the next page (DESIGN CHOICE, log entry 84: R175 marks the empty block by u1 alone). -/
def L1.widen (r : L1) (u : FV) (lo hi : List Int) (nan : Bool) : L1 :=
  let s8 (x : Int) : Byte := BitVec.ofInt 8 x
  let val (b : Byte) : FV := .ofInt (sext 8 b.toNat)
  if nan || fIsNaN r.u1 then { r with u1 := f32NaN }
  else if r.u1 = 0 then { r with u1 := toF32 u, lo := lo.map s8, hi := hi.map s8 }
  else
    let u1 := f32Val r.u1
    let grow := u1.lt u
    let lo1 := if grow then r.lo.map fun b => s8 (((val b).mul u1).div u).floorInt else r.lo
    let hi1 := if grow then r.hi.map fun b => s8 (((val b).mul u1).div u).ceilInt else r.hi
    let n := if grow then u else u1
    { r with
      u1 := toF32 n
      lo := List.zipWith (fun b x => s8 (min (sext 8 b.toNat) (((FV.ofInt x).mul u).div n).floorInt)) lo1 lo
      hi := List.zipWith (fun b x => s8 (max (sext 8 b.toNat) (((FV.ofInt x).mul u).div n).ceilInt)) hi1 hi }

/-- The summary frame of a block, if there is one. -/
def State.sumFrame (s : State) (p seq layer head block : Nat) : Option SumFrame :=
  (s.kv p).sums.find? fun f => f.seq == seq && f.layer == layer && f.head == head && f.first == block / 64 * 64

/-- Where a block's record lies in its frame, and where its unit. -/
def SumFrame.recAddr (f : SumFrame) (block : Nat) : Nat := f.addr + 2 * f.dim * (block - f.first)
def SumFrame.unitAddr (f : SumFrame) (block : Nat) : Nat := f.addr + 128 * f.dim + 4 * (block - f.first)

def sumBytes (d : Nat) : Nat := 128 * d + 256

def State.readL1 (s : State) (f : SumFrame) (block : Nat) : L1 :=
  { u1 := BitVec.ofNat 32 (s.readN (f.unitAddr block) 4), lo := s.bytesAt (f.recAddr block) f.dim
    hi := s.bytesAt (f.recAddr block + f.dim) f.dim }

def State.writeL1 (s : State) (f : SumFrame) (block : Nat) (r : L1) : State :=
  (s.store (f.recAddr block) (r.lo ++ r.hi)).storeN (f.unitAddr block) 4 r.u1.toNat

/-- The frame of a block's record, taken from the frame pool with every block empty where there is none yet. -/
def State.needSum (s : State) (p seq layer head block d : Nat) : Option (SumFrame × State) :=
  match s.sumFrame p seq layer head block with
  | some f => some (f, s)
  | none => (s.allocFrame p (sumBytes d)).map fun x =>
    let f : SumFrame := { seq := seq, layer := layer, head := head, first := block / 64 * 64, dim := d, addr := x.1 }
    (f, (x.2.store x.1 (List.replicate (sumBytes d) 0)).modKv p fun k => { k with sums := f :: k.sums })

/-- Widen the block of page `page` by a page's summary; none when no frame is free. -/
def State.sumPage (s : State) (p seq layer head page d : Nat) (u : FV) (lo hi : List Int) (nan : Bool) : Option State :=
  (s.needSum p seq layer head (page / 16) d).map fun x =>
    x.2.writeL1 x.1 (page / 16) ((x.2.readL1 x.1 (page / 16)).widen u lo hi nan)

/-- Empty the blocks of a sequence from `first` on (R176). -/
def State.emptyBlocks (s : State) (p seq first : Nat) : State :=
  ((s.kv p).sums.filter fun f => f.seq == seq).foldl (fun s f =>
    ((List.range 64).filter fun i => decide (first ≤ f.first + i)).foldl
      (fun s i => s.storeN (f.unitAddr (f.first + i)) 4 0) s) s

/-- RELEASE frees a sequence's summary frames. -/
def State.freeSums (s : State) (p seq : Nat) : State :=
  (((s.kv p).sums.filter fun f => f.seq == seq).foldl (fun s f => s.freeFrame p f.addr) s).modKv p fun k =>
    { k with sums := k.sums.filter fun f => f.seq != seq }

/-- FORK copies them; none when no frame is free. -/
def State.copySums (s : State) (p new : Nat) : List SumFrame → Option State
  | [] => some s
  | f :: rest => match s.allocFrame p (sumBytes f.dim) with
    | none => none
    | some (a, s) =>
      State.copySums ((s.store a (s.bytesAt f.addr (sumBytes f.dim))).modKv p fun k =>
        { k with sums := { f with seq := new, addr := a } :: k.sums }) p new rest

/-! ## The page table (R148) -/

/-- The lowest FREE entry. -/
def State.freePte (s : State) (p : Nat) : Nat :=
  ((List.range (s.kv p).pages).find? fun i => (s.pte p i).state == 0).getD (s.kv p).pages

/-- Free granules of a partition: no image, frame, table or reserved area (R354, R461). -/
def State.spareGranules (s : State) (p : Nat) : List Nat :=
  (s.frameGranules p).filter fun g => g != s.reserve p && !clashes (s.kv p).frames (g * granuleBytes) granuleBytes

/-- Extend the page table by the highest-numbered free granule, all entries FREE. -/
def State.extendTable (s : State) (p : Nat) : Option State :=
  match maxBy id (s.spareGranules p) with
  | none => none
  | some g => some ((s.fill (g * granuleBytes) granuleBytes 0).modKv p fun k => { k with ptMore := k.ptMore ++ [g] })

/-- Take a FREE entry; none when the table has no room and no granule is left for it. -/
def State.newPte (s : State) (p : Nat) (e : Pte) : Option (Nat × State) :=
  let i := s.freePte p
  let use (s : State) : Nat × State := (i, (s.setPte p i e).modKv p fun k => { k with pages := max k.pages (i + 1) })
  if i < tableRoom + granuleEntries * (s.kv p).ptMore.length then some (use s)
  else (s.extendTable p).map use

/-- Drop one reference (R152, R154). -/
def State.dropRef (s : State) (p i : Nat) : State :=
  let e := s.pte p i
  s.setPte p i { e with refs := e.refs - 1, epoch := (s.kv p).epoch, state := if e.refs ≤ 1 then 4 else e.state }

def State.addRef (s : State) (p i : Nat) : State :=
  let e := s.pte p i
  s.setPte p i { e with refs := e.refs + 1 }

/-! ## The flush (R144) -/

/-- The record of layer `l` of a loaded slot. -/
def Slot.layer (m : Slot) (l : Nat) : LayerRec :=
  m.layerRecs.getD l { fmtS4 := false, expertLayer := false, kvHeads := 0, hpk := 0 }

def State.layerFmt (s : State) (q : Seq) (layer : Nat) : Bool := ((s.slot? q.slot).map fun t => (t.layer layer).fmtS4).getD false

/-- Flush a full group: none when no frame is free. -/
def State.flushGroup (s : State) (p : Nat) (g : Group) : Option State :=
  match s.seq? g.seq with
  | none => none
  | some q =>
    let s4 := s.layerFmt q g.layer
    match s.allocFrame p (payloadBytes s4 g.dim) with
    | none => none
    | some (pay, s) =>
      match s.allocFrame p (sidecarBytes g.dim) with
      | none => none
      | some (side, s) =>
        let img := makePage s4 g.dim (g.toks.filterMap Tok.key) (g.toks.filterMap Tok.val)
        let s := (s.store pay img.payload).store side img.sidecar
        let block := g.page / 16
        match (s.newPte p
          { state := 1, fmtS4 := s4, dim := g.dim, compressed := false, encrypted := s.conf p, nanKeys := img.nanKeys
            slot := q.slot, refs := 1, epoch := (s.kv p).epoch, payload := pay, volume := 0, sidecar := side }).bind
              fun r => (r.2.needSum p g.seq g.layer g.head block g.dim).map fun f => (r.1, f.1, f.2) with
        | none => none
        | some (i, f, s) =>
          let s := s.modSeq g.seq fun q => { q with dir := q.dir ++ [(g.layer, g.head, g.page, i)] }
          let s := s.modPart p fun q => { q with
            ctr := { q.ctr with flushes := satInc top32 q.ctr.flushes 1, flushSat := satInc top32 q.ctr.flushSat img.sat } }
          let old := s.readL1 f block
          some ((s.writeL1 f block (old.widen img.u img.lo img.hi img.nanKeys)).modKv p fun k => { k with
            groups := k.groups.map fun h => if h == g then { h with flushed := some k.epoch, l1Was := some old } else h })

/-! ## Reading pages -/

/-- Flowstone levels of a page's codes (R157): `l` of `n` levels. -/
def flowLevels (s4 : Bool) (codes : List Int) : List Int :=
  let n := codes.length
  let lv := if s4 then 8 else 32
  let lo : Int := if s4 then -8 else -128
  let span := if s4 then 16 else 256
  (List.range lv).map fun l =>
    let r := (2 * l + 1) * n / (2 * lv)
    match (List.range span).find? (fun (k : Nat) => decide (r < (codes.filter fun c => decide (c ≤ lo + (k : Int))).length)) with
    | some k => lo + (k : Int)
    | none => lo + (span : Int) - 1

def flowIndex (levels : List Int) (x : Int) : Nat :=
  (minBy (fun l => (x - levels.getD l 0).natAbs) (List.range levels.length)).getD 0

/-- Header and compressed payload of a page (R157). -/
def flowCompress (s4 : Bool) (d : Nat) (payload : List Byte) : List Byte :=
  let f := pageFmt s4
  let codes := (f.unpack payload (128 * d)).map fun c => sext f.width c
  let levels := flowLevels s4 codes
  let header := levels.map (BitVec.ofInt 8)
  header ++ List.replicate (64 - header.length) 0 ++ packBits (if s4 then 3 else 5) (codes.map (flowIndex levels))

/-- Bytes of a page's frame: a compressed page keeps its header in front (log entry 26). -/
def Pte.frameBytes (e : Pte) : Nat :=
  if e.compressed then 64 + (if e.fmtS4 then 48 * e.dim else 80 * e.dim) else payloadBytes e.fmtS4 e.dim

/-- Where a page in DRAM lies: its payload and its sidecar. -/
def Pte.reads (e : Pte) : List (Nat × Nat) := [(e.payload, e.frameBytes), (e.sidecar, sidecarBytes e.dim)]

/-- What a reader of page `i` reads of DRAM: nothing while the page lies in flash. -/
def State.pageReads (s : State) (p i : Nat) : List (Nat × Nat) :=
  if (s.pte p i).state = 1 then (s.pte p i).reads else []

/-- The code of element `i` of a page's payload order (keys first), as an integer. -/
def pageCode (e : Pte) (frame : List Byte) (i : Nat) : Int :=
  if e.compressed then
    sext 8 ((frame.getD (unpackAt (if e.fmtS4 then 3 else 5) (frame.drop 64) i) 0).toNat)
  else sext (pageFmt e.fmtS4).width (unpackAt (pageFmt e.fmtS4).width frame i)

/-- The exact value of key (or value) channel `c` of token `t`. -/
def pageVal (e : Pte) (frame side : List Byte) (values : Bool) (t c : Nat) : FV :=
  let d := e.dim
  if values then
    let b := (side.getD (d + t) 0).toNat
    let sh := unpackAt 2 (side.drop (d + 64)) (t * (d / 32) + c / 32)
    (FV.ofInt (pageCode e frame (64 * d + t * d + c))).mul (ue5m3Val (b - 8 * sh))
  else (FV.ofInt (pageCode e frame (t * d + c))).mul (ue5m3Val (side.getD c 0).toNat)

/-- A page's summary read back from its sidecar: u, lo, hi (R137). -/
def pageSummary (e : Pte) (side : List Byte) : FV × List Int × List Int :=
  let d := e.dim
  let p := maxAbs ((List.range d).map fun c => ue5m3Val (side.getD c 0).toNat)
  let at_ (o c : Nat) : Int := sext 8 (side.getD (o + c) 0).toNat
  (if e.fmtS4 then p.mul (.fin false 1 16) else p, (List.range d).map (at_ (d + 64 + d / 2)),
    (List.range d).map (at_ (d + 64 + d / 2 + d)))

/-! ## Reopening (R152) -/

/-- The first `k` positions of a page as sump tokens: S8 under per-token scales (R76). CP2's own clamps are counted nowhere: no
counter of the list is CP2's (DESIGN CHOICE, log entry 112). -/
def reopenToks (e : Pte) (frame side : List Byte) (k : Nat) : List Tok :=
  (List.range k).map fun t =>
    let q (values : Bool) : Nat × List Byte :=
      let r := spanQuant .s8 ((List.range e.dim).map fun c => pageVal e frame side values t c)
      (r.1, r.2.2.1.map (BitVec.ofNat 8))
    { pos := t, key := some (q false), val := some (q true) }

/-- Reopen page `pg` (table index `i`) of a sequence, keeping `k` positions; none when no unit is left. The flag says that
staging units were taken. -/
def State.reopen (s : State) (p seq layer head pg i k : Nat) : Option (State × Bool) :=
  let e := s.pte p i
  let toks := reopenToks e (s.bytesAt e.payload e.frameBytes) (s.bytesAt e.sidecar (sidecarBytes e.dim)) k
  let g := { Group.empty seq layer head pg false e.dim s.now with toks := toks }
  match s.growGroup p g k 64 with
  | none => none
  | some (s, g, staged) =>
    let s := if k = 0 then s else s.setGroup p g
    let s := s.modSeq seq fun q =>
      { q with dir := q.dir.filter fun x => !(x.1 == layer && x.2.1 == head && x.2.2.1 == pg) }
    let s := s.dropRef p i
    some (s.tracePart 0x07 p 0 [seq, layer, head, pg, k], staged)

/-! ## Sequences (R186 to R188) -/

def Seq.handle (q : Seq) : Nat := q.idx + 2 ^ 10 * q.gen + 2 ^ 26 * q.part

/-- The resident sequence that a handle names in a partition. -/
def State.resident (s : State) (p h : Nat) : Option Seq := s.seqs.find? fun q => q.handle == h && q.part == p

/-- The lowest index that no resident sequence has. -/
def State.freeSeqIdx (s : State) : Option Nat :=
  (List.range 1024).find? fun i => s.seqs.all fun q => q.idx != i

/-- Create a sequence; none when 1,024 are resident. -/
def State.newSeq (s : State) (p slot : Nat) (variant : Option Nat) (seed : List Byte) (prefillPool : Bool) (len : Nat)
    (dir : List (Nat × Nat × Nat × Nat)) : Option (Seq × State) :=
  match s.freeSeqIdx with
  | none => none
  | some i =>
    let gen := match assoc s.gens i with
      | some g => (g + 1) % 2 ^ 16
      | none => 0
    let q : Seq :=
      { idx := i, gen := gen, part := p, slot := slot, variant := variant, seed := seed, prefillPool := prefillPool
        len := len, chunks := [], dir := dir }
    some (q, { s with seqs := q :: s.seqs, gens := assocSet s.gens i gen })

def State.dropGroups (s : State) (p : Nat) (gs : List Group) : State :=
  gs.foldl (fun s g =>
    let s := (s.dropGroup p g).freeUnits p g.sump g.stag
    match g.tail with
    | some a => s.freeFrame p a
    | none => s) s

/-- Release a sequence: every reference, group, tail frame and record; the handle becomes free (R160, R175). -/
def State.releaseSeq (s : State) (q : Seq) : State :=
  let p := q.part
  let s := q.dir.foldl (fun s e => s.dropRef p e.2.2.2) s
  let s := s.dropGroups p ((s.kv p).groups.filter fun g => g.seq == q.idx)
  let s := q.chunks.foldl (fun s a => s.freeFrame p a) (s.freeSums p q.idx)
  { s with seqs := s.seqs.filter fun x => x.idx != q.idx }

/-! ## What jobs leave behind (R41, R145) -/

/-- A job's appends become permanent: it leaves the groups' lists. -/
def State.settleAppends (s : State) (p uid : Nat) : State :=
  s.modKv p fun k => { k with groups := k.groups.map fun g =>
    { g with jobs := g.jobs.filter fun u => u != uid, undo := settleJob uid g.undo } }

/-- Whether a directory entry is the page of a group. -/
def Group.owns (g : Group) (x : Nat × Nat × Nat × Nat) : Bool := x.1 == g.layer && x.2.1 == g.head && x.2.2.1 == g.page

/-- Put a block's level-1 record back as it was before the flush of `g`, and widen it again by the pages of the block that were
installed after it. -/
def State.rewiden (s : State) (p : Nat) (q : Seq) (g : Group) : State :=
  let block := g.page / 16
  match s.sumFrame p g.seq g.layer g.head block, g.l1Was with
  | some f, some r =>
    let later := (q.dir.dropWhile fun x => !g.owns x).tail.filter fun x =>
      x.1 == g.layer && x.2.1 == g.head && x.2.2.1 / 16 == block && (s.pte p x.2.2.2).state == 1
    let out := later.foldl (fun (a : State × L1) x =>
      let e := a.1.pte p x.2.2.2
      let m := pageSummary e (a.1.bytesAt e.sidecar (sidecarBytes e.dim))
      (a.1.modKv p fun k => { k with groups := k.groups.map fun h =>
          if h.seq == g.seq && h.flushed.isSome && h.owns x then { h with l1Was := some a.2 } else h },
        a.2.widen m.1 m.2.1 m.2.2 e.nanKeys)) (s, r)
    out.1.writeL1 f block out.2
  | _, _ => s

/-- Discard the appends of an unfinished job to one group; a page that they completed loses the sequence's reference, and the
block that it widened is as it was. -/
def State.undoGroup (s : State) (p uid : Nat) (g : Group) : State :=
  let s := if g.flushed.isSome then
      match s.seq? g.seq with
      | none => s
      | some q =>
        let s := s.rewiden p q g
        let s := (q.dir.filter g.owns).foldl (fun s x => s.dropRef p x.2.2.2) s
        s.modSeq g.seq fun q => { q with dir := q.dir.filter fun x => !g.owns x }
    else s
  let r := undoJob uid g.undo g.toks
  let g' := { g with jobs := g.jobs.filter fun u => u != uid, undo := r.1 }
  let s := s.modKv p fun k => { k with groups := k.groups.map fun h => if h == g then g' else h }
  s.shrinkGroup p g' (if g.spec then [] else r.2)

/-- The group of the list that `g` is now: another group's undoing may have changed its level-1 record. -/
def State.sameGroup (s : State) (p : Nat) (g : Group) : Option Group :=
  (s.kv p).groups.find? fun h => { h with l1Was := g.l1Was } == g

def State.undoAppends (s : State) (p uid : Nat) : State :=
  ((s.kv p).groups.filter fun g => g.jobs.contains uid).foldl (fun s g => match s.sameGroup p g with
    | some h => s.undoGroup p uid h
    | none => s) s

/-- Park a group in a tail frame. Its units are free at once: an append waits for them (R142, R143). -/
def State.park (s : State) (p : Nat) (g : Group) : Option State :=
  match s.allocFrame p (128 * g.dim + 256) with
  | none => none
  | some (a, s) =>
    let s := (s.dropGroup p g).freeUnits p g.sump g.stag
    let s := s.modKv p fun k => { k with groups := { g with sump := 0, stag := 0, tail := some a } :: k.groups }
    some (s.modPart p fun q => { q with ctr := { q.ctr with parks := satInc top32 q.ctr.parks 1 } })

/-- Move a parked group back into units; none when no unit is free. Its tail frame is freed when the safe epoch has passed the
move (R242). The flag says that staging units were taken. -/
def State.unpark (s : State) (p : Nat) (g : Group) : Option (State × Bool) :=
  match g.tail with
  | none => some (s, false)
  | some a =>
    match (s.dropGroup p g).growGroup p { g with tail := none } g.toks.length 64 with
    | none => none
    | some (s2, g, staged) =>
      some (s2.modKv p fun k => { k with groups := g :: k.groups, tails := (a, k.epoch) :: k.tails }, staged)

end Sys2Proof.Machine
end

