-- ==== Sys2Proof/Machine/Sha.lean ====
section
/-! DEFINITION. SHA-384, which the load digest (R255), the key check (R364), KADON_DIGEST (R375) and the attestation report
(R366) name. The constants are computed from what defines them: cube and square roots of primes. -/

namespace Sys2Proof.Machine

def isPrime (n : Nat) : Bool := decide (2 ≤ n) && (List.range n).all fun d => d < 2 || n % d != 0

/-- The first 80 primes are those up to 409. -/
def shaPrimes : List Nat := (List.range 410).filter isPrime

def icbrtGo (n : Nat) : Nat → Nat → Nat
  | 0, r => r
  | k + 1, r => let t := r + 2 ^ k; if t * t * t ≤ n then icbrtGo n k t else icbrtGo n k r

def shaK : List Nat := shaPrimes.map fun p => icbrtGo (p * 2 ^ 192) 68 0 % 2 ^ 64

/-- Initial hash values of SHA-384: square roots of the ninth to sixteenth primes. -/
def shaH : List Nat := ((shaPrimes.drop 8).take 8).map fun p => isqrt (p * 2 ^ 128) % 2 ^ 64

def rotr64 (k x : Nat) : Nat := (x / 2 ^ k ||| x * 2 ^ (64 - k)) % 2 ^ 64

def shaS0 (x : Nat) : Nat := rotr64 28 x ^^^ rotr64 34 x ^^^ rotr64 39 x
def shaS1 (x : Nat) : Nat := rotr64 14 x ^^^ rotr64 18 x ^^^ rotr64 41 x
def shaT0 (x : Nat) : Nat := rotr64 1 x ^^^ rotr64 8 x ^^^ x / 2 ^ 7
def shaT1 (x : Nat) : Nat := rotr64 19 x ^^^ rotr64 61 x ^^^ x / 2 ^ 6

def beNat (bs : List Byte) : Nat := bs.foldl (fun n b => 256 * n + b.toNat) 0
def beBytes (n v : Nat) : List Byte := (leBytes n v).reverse

/-- The message schedule, newest word first, `n` words still to add. -/
def shaSched : Nat → List Nat → List Nat
  | 0, w => w
  | n + 1, w =>
    shaSched n ((shaT1 (w.getD 1 0) + w.getD 6 0 + shaT0 (w.getD 14 0) + w.getD 15 0) % 2 ^ 64 :: w)

def shaRound (v : List Nat) (kw : Nat) : List Nat :=
  let a := v.getD 0 0
  let b := v.getD 1 0
  let c := v.getD 2 0
  let e := v.getD 4 0
  let f := v.getD 5 0
  let g := v.getD 6 0
  let t1 := v.getD 7 0 + shaS1 e + ((e &&& f) ^^^ ((2 ^ 64 - 1 - e) &&& g)) + kw
  let t2 := shaS0 a + ((a &&& b) ^^^ (a &&& c) ^^^ (b &&& c))
  [(t1 + t2) % 2 ^ 64, a, b, c, (v.getD 3 0 + t1) % 2 ^ 64, e, f, g]

def shaBlock (h : List Nat) (block : List Byte) : List Nat :=
  let w0 := (List.range 16).map fun i => beNat ((block.drop (8 * i)).take 8)
  let w := (shaSched 64 w0.reverse).reverse
  let v := (List.zipWith (· + ·) shaK w).foldl shaRound h
  List.zipWith (fun x y => (x + y) % 2 ^ 64) h v

def shaBlocks : Nat → List Nat → List Byte → List Nat
  | 0, h, _ => h
  | n + 1, h, m => shaBlocks n (shaBlock h (m.take 128)) (m.drop 128)

/-- The digest from the state after whole blocks, the rest of the message, and its whole length in bytes. -/
def shaFinish (h : List Nat) (m : List Byte) (total : Nat) : List Byte :=
  let pad := (239 - m.length % 128) % 128
  let p := m ++ 0x80 :: (List.replicate pad 0 ++ beBytes 16 (8 * total))
  ((shaBlocks (p.length / 128) h p).flatMap (beBytes 8)).take 48

/-- SHA-384 of a byte string: 48 bytes. -/
def sha384 (m : List Byte) : List Byte := shaFinish shaH m m.length

end Sys2Proof.Machine
end

