-- ==== Sys2Proof/Machine/PassageOps.lean ====
section
/-! DEFINITION. Requests for fresh randomness (R370, R371), and what a Passage port sends (R332 to R335, R345; payload
layouts: log entry 24). -/

namespace Sys2Proof.Machine

/-! ## Randomness -/

/-- One request to the DRBG: the number of the fresh value, or none while it does not serve; a request then waits in the
queue of 32 unless the RNG has failed. -/
def State.rngAsk (s : State) (u : RngUse) : Option Nat × State :=
  let r := s.sec.rng
  match r.state with
  | .serving =>
    (some r.draws, { s with sec := { s.sec with rng := { r with draws := r.draws + 1, requests := r.requests + 1 } } })
  | _ =>
    if !r.failed && decide (r.queue.length < 32) then (none, { s with sec := { s.sec with rng := { r with queue := r.queue ++ [u] } } })
    else (none, s)

def State.drbgBytes (n k : Nat) : List Byte := (List.range k).map (Config.drbgByte n)

/-! ## Frames -/

def typeDATA : Nat := 0
def typeACK : Nat := 1
def typeNAK : Nat := 2
def typeCREDIT : Nat := 3
def typePROBE : Nat := 4
def typeREPLY : Nat := 5
def typeKEYX : Nat := 6
def typeDISCOVER : Nat := 7

def sequenced (t : Nat) : Bool := t == 0 || t == 4 || t == 5

/-- Credits that a sequenced frame costs (R334). -/
def frameCost (f : Frame) : Nat := ceilDiv (f.payload.length + 36) 64

/-- Bytes of a frame on the wire. -/
def frameBytes (f : Frame) : Nat := 16 + f.payload.length + 20

def ctrLimit : Nat := 2 ^ 48

/-- The last SEQ received in order. -/
def PPort.ackSeq (p : PPort) : Nat := (p.rxSeq + 2 ^ 16 - 1) % 2 ^ 16

/-- Whether a sequenced frame can leave now. -/
def PPort.canSend (p : PPort) (f : Frame) : Bool :=
  (p.state == .ready || p.state == .keying) && decide (frameCost f ≤ p.credits.getD f.vc 0) && decide (p.retry.length < 512) &&
    decide ((p.retry.map frameBytes).sum + frameBytes f ≤ 65536) && decide (p.txCtr < ctrLimit)

/-- Encrypt under the present key: the next counter, the key phase and the acknowledgement. -/
def PPort.seal (p : PPort) (f : Frame) : Frame := { f with ctr := p.txCtr, keyPhase := p.txPhase, ackSeq := p.ackSeq }

/-- Bytes 0 to 15 of a frame, the additional authenticated data (R332). -/
def frameHeader (f : Frame) : List Byte :=
  leBytes 8 f.ctr ++ leBytes 1 (f.type + 2 ^ 4 * f.vc + 2 ^ 5 * b2n f.keyPhase) ++ leBytes 1 f.hops ++ leBytes 2 f.seq ++
    leBytes 2 f.payload.length ++ leBytes 2 f.ackSeq

/-- A frame as it travels, sealed under a key and a link-direction identifier; KEYX is not encrypted (R333), and a stomped frame
has the complement of its CRC (R335, R338). -/
def wireBytes (f : Frame) (key : List Byte) (id : Nat) : List Byte :=
  let sealed := if f.type = typeKEYX then (f.payload, List.replicate 16 0)
    else gcmSeal key (leBytes 4 id ++ leBytes 8 f.ctr) (frameHeader f) f.payload
  let body := frameHeader f ++ sealed.1 ++ sealed.2
  body ++ leBytes 4 (if f.stomped then 2 ^ 32 - 1 - crc32 body else crc32 body)

/-- The identifier of a port's sending direction, without the key generation (R338). -/
def State.linkDir (s : State) (n : Nat) : Nat := 2 ^ 16 * s.passage.id + 2 ^ 15 * n

/-- The key under which a port sends. -/
def PPort.sealKey (p : PPort) : List Byte := if p.txKey.isEmpty then Config.firstKey else p.txKey

/-- A frame leaves the port, whose direction is `dir`. -/
def PPort.leave (p : PPort) (dir : Nat) (f : Frame) : PPort :=
  { p with sent := f :: p.sent, wire := wireBytes f p.sealKey (dir + p.keyGen % 2 ^ 15) :: p.wire }

/-- A PROBE_REPLY of this module reports, when it leaves, how long its PROBE has been here, in ns (R340). -/
def PPort.stamp (p : PPort) (now : Nat) (f : Frame) : Frame :=
  match p.replyAt.find? fun r => f.type == typeREPLY && r.1 == f with
  | some r => { f with payload := f.payload.take 14 ++ leBytes 2 (min 0xFFFF (10 * (now - r.2))) }
  | none => f

/-- A sequenced frame leaves under the next SEQ. -/
def PPort.emit (p : PPort) (dir now : Nat) (f : Frame) : PPort :=
  let g := f
  let f := { p.seal (p.stamp now f) with seq := p.txSeq }
  { p.leave dir f with
    replyAt := p.replyAt.filter fun r => r.1 != g, txCtr := p.txCtr + 1, txSeq := (p.txSeq + 1) % 2 ^ 16
    credits := p.credits.modify f.vc fun c => c - frameCost f
    retry := p.retry ++ [f], unacked := 0, lastAck := now
    lastProgress := if p.retry.isEmpty then now else p.lastProgress }

/-- Frames that wait leave in order, per VC. -/
def PPort.pump (dir now : Nat) : Nat → PPort → PPort
  | 0, p => p
  | fuel + 1, p =>
    let first (vc : Nat) : Option Frame := p.waiting.find? fun f => f.vc == vc
    match ([0, 1].filterMap first).find? p.canSend with
    | none => p
    | some f => PPort.pump dir now fuel ({ p with waiting := p.waiting.erase f }.emit dir now f)

/-- A frame leaves the receive buffer of a port: its credits go back to the peer (R334). -/
def State.freeRx (s : State) (n : Nat) (f : Frame) : State :=
  s.modPport n fun p => { p with owed := p.owed.modify f.vc fun c => c + frameCost f }

/-- The first frames of a list that `room` bytes hold, and the rest. -/
def fillBuffer : Nat → List Frame → List Frame × List Frame
  | _, [] => ([], [])
  | room, f :: rest =>
    if room < frameBytes f then ([], f :: rest) else
      let r := fillBuffer (room - frameBytes f) rest
      (f :: r.1, r.2)

/-- Relayed frames leave the receive buffer of the port where they came in when they have been sent, or for the 4 KiB relay
buffer of port `n` when it has room (R342). -/
def State.settleRelays (s : State) (n : Nat) : State :=
  let p := s.pport n
  let gone := p.relays.diff p.waiting
  let buffered := p.buffered.filter p.waiting.contains
  let moved := fillBuffer (4096 - (buffered.map frameBytes).sum) (p.relays.diff gone)
  (gone ++ moved.1).foldl (fun s f => s.freeRx (1 - n) f)
    (s.modPport n fun p => { p with relays := moved.2, buffered := buffered ++ moved.1 })

def State.pumpPort (s : State) (n : Nat) : State :=
  (s.modPport n fun p => p.pump (s.linkDir n) s.now (p.waiting.length + 1)).settleRelays n

def mkFrame (type vc hops : Nat) (payload : List Byte) : Frame :=
  { ctr := 0, type := type, vc := vc, keyPhase := false, hops := hops, seq := 0, ackSeq := 0, payload := payload
    crcOk := true, tagOk := true, stomped := false }

/-- Send a sequenced frame, after those that already wait. -/
def State.sendFrame (s : State) (n : Nat) (f : Frame) : State :=
  (s.modPport n fun p => { p with waiting := p.waiting ++ [f] }).pumpPort n

/-- Send an unsequenced frame; every one but KEYX uses a counter value. -/
def State.sendPlain (s : State) (n type : Nat) (payload : List Byte) : State :=
  let f := mkFrame type 0 1 payload
  if type = typeKEYX then s.modPport n fun p => p.leave (s.linkDir n) { f with ackSeq := p.ackSeq }
  else s.modPport n fun p =>
    if p.state == .locked || decide (ctrLimit ≤ p.txCtr) then p
    else { p.leave (s.linkDir n) (p.seal f) with txCtr := p.txCtr + 1 }

/-- SP's own work at the crypto engine: `n` bytes of a message to hash, wrap or encrypt (R372). It takes its segments in turn with
the loads'; what it makes is there in the command that asks for it (log entry 133). -/
def State.spWork (s : State) (n : Nat) : State :=
  { s with sec := { s.sec with crypto := s.sec.crypto ++ [{ requester := 8, uid := none, left := n, context := false }] } }

/-- Sign bytes with the identity key: r then s, 48 little-endian bytes each. -/
def signed (body : List Byte) : List Byte := (List.range 96).map (Config.identitySign (sha384 body))

/-- This module's KEYX payload of fresh value `n`: its public key and its signature over it (R337; layout: log entry 24). -/
def keyxBytes (n : Nat) : List Byte :=
  let pub := (List.range 96).map (Config.ecdhePublic n)
  pub ++ signed pub

/-- The KEYX frame of an exchange for which fresh value `d` was drawn. -/
def State.sendKeyx (s : State) (n d : Nat) : State :=
  ((s.modPport n fun p => { p with ephemeral := some d }).spWork 96).sendPlain n typeKEYX (keyxBytes d)

/-! ## Transport (R344, R345) -/

/-- The 16-byte transport header: ORIGIN, XFER_TAG, OFFSET, CONF, packed in that order. -/
def transport (origin tag offset : Nat) (conf : Bool) : List Byte :=
  leBytes 2 origin ++ leBytes 4 tag ++ leBytes 5 offset ++ leBytes 5 (b2n conf)

def tOrigin (bs : List Byte) : Nat := leNat (bs.take 2)
def tXfer (bs : List Byte) : Nat := leNat ((bs.drop 2).take 4)
def tOffset (bs : List Byte) : Nat := leNat ((bs.drop 6).take 5)
def tConf (bs : List Byte) : Bool := bit 0 (bs.getD 11 0).toNat

/-- Send end-to-end control of a ship entry on VC0; `conf` as in its data (R348). -/
def State.sendControl (s : State) (port hops peer tag : Nat) (conf : Bool) (m : ShipMsg) : State :=
  let f := mkFrame typeDATA 0 hops (transport s.passage.id tag 0 conf)
  (s.sendFrame port f).modPport port fun p => { p with control := (m, peer, tag) :: p.control }

end Sys2Proof.Machine
end

