-- ==== Sys2Proof/Machine/SiphonOps.lean ====
section
/-! DEFINITION. Siphon's channels (R311, R312, R319): how transfers are placed, move up, and are withdrawn. -/

namespace Sys2Proof.Machine

def Xfer.doneIssuing (x : Xfer) : Bool := x.failed.isSome || x.stopped || decide (x.len ≤ x.issued)

/-- Transfers move up into free register sets (R312). -/
def SChan.settle (c : SChan) : SChan :=
  let c := if c.active.isNone then { c with active := c.shadow, shadow := none } else c
  let c := if c.active.isNone then { c with active := c.queue.head?, queue := c.queue.tail } else c
  if c.shadow.isNone then { c with shadow := c.queue.head?, queue := c.queue.tail } else c

/-- An active transfer that issues no more goes to the draining slot once that is free, and the shadow moves up. -/
def SChan.promote (c : SChan) : SChan :=
  match c.active, c.draining with
  | some x, none => if x.doneIssuing then ({ c with active := none, draining := some x }).settle else c.settle
  | _, _ => c.settle

/-- Withdraw the transfers that `gone` names: those with no write of theirs out leave at once; an active one stops, and leaves
when its write responses have returned (R319). -/
def SChan.withdraw (gone : Xfer → Bool) (c : SChan) : SChan :=
  ({ c with
    active := (c.active.filter fun x => !(gone x && x.issued == x.start)).map fun x =>
      if gone x then { x with stopped := true } else x
    shadow := c.shadow.filter fun x => !gone x
    queue := c.queue.filter fun x => !gone x }).promote

def State.withdrawXfers (s : State) (gone : Xfer → Bool) : State :=
  { s with siphon := { s.siphon with chans := s.siphon.chans.map (SChan.withdraw gone) } }

/-- A transfer of a job, not one of Kadon's own. -/
def Xfer.isOf (uid : Nat) (x : Xfer) : Bool := x.own.isNone && x.uid == uid

/-- Siphon stops for a job (R319). -/
def State.withdrawSiphon (s : State) (uid : Nat) : State := s.withdrawXfers (Xfer.isOf uid)

/-- Whether a transfer still awaits write responses. -/
def State.xferOut (s : State) (mine : Xfer → Bool) : Bool :=
  s.siphon.chans.any fun c => c.active.any mine || c.draining.any mine

def State.placeXfer (s : State) (ch : Nat) (x : Xfer) : State :=
  s.modSch ch fun c => ({ c with queue := c.queue ++ [x] }).promote

/-! ## Kadon's own transfers (R311) -/

/-- Bytes that a channel still has to issue. -/
def SChan.queued (c : SChan) : Nat := ((c.active.toList ++ c.shadow.toList ++ c.queue).map fun x => x.len - x.issued).sum

/-- The channel with the fewest queued bytes, the lower number on a tie. -/
def State.ownChannel (s : State) : Nat := (minBy (fun n => (s.sch n).queued) (List.range 16)).getD 0

/-- Kadon places a transfer of a move into DRAM. -/
def State.placeOwn (s : State) (part mv prio dst len : Nat) : State :=
  s.placeXfer s.ownChannel
    { uid := 0, part := part, prio := prio, src := dst, dst := dst, len := len, transform := 0, issued := 0, acked := 0
      failed := none, start := 0, stopped := false, own := some mv }

/-- A move whose transfers have not all completed. -/
def State.ownOut (s : State) (mv : Nat) : Bool :=
  s.siphon.chans.any fun c =>
    (c.active.toList ++ c.shadow.toList ++ c.draining.toList ++ c.queue).any fun x => x.own == some mv

/-! ## The safe point (R319) -/

/-- Source bytes of a transfer whose whole units are acknowledged: 4 KiB for COPY, a row of SKEW, none of a TRANSPOSE that
is not finished. -/
def dmaSafe (t len acked : Nat) : Nat :=
  if len ≤ acked then len
  else if xOp t = 0 then acked / 4096 * 4096
  else if xOp t = 1 then acked / (len / xRows t) * (len / xRows t)
  else 0

/-- A transfer placed again, from its safe point. -/
def Xfer.again (x : Xfer) : Xfer :=
  let k := dmaSafe x.transform x.len x.acked
  { x with issued := k, acked := k, start := k, stopped := false }

/-- Engine `e` passes to another tenant: the transfers of its partitions that touch its resident area are withdrawn, their late
responses are dropped, and they are placed again from their safe points (R320; log entry 131). -/
def State.switchXfers (s : State) (e : Nat) : State :=
  let touches (x : Xfer) : Bool := x.own.isNone &&
    (decide (localBase e ≤ x.src) && decide (x.src < localBase (e + 1)) ||
      decide (localBase e ≤ x.dst) && decide (x.dst < localBase (e + 1)))
  { s with siphon := { s.siphon with chans := s.siphon.chans.map fun c =>
    let moved := (c.draining.toList ++ c.active.toList ++ c.shadow.toList ++ c.queue).filter fun x => touches x && x.failed.isNone
    let keep (o : Option Xfer) : Option Xfer := o.filter fun x => !moved.contains x
    ({ c with active := keep c.active, shadow := keep c.shadow, draining := keep c.draining
              queue := (c.queue.filter fun x => !moved.contains x) ++ moved.map Xfer.again }).promote } }

end Sys2Proof.Machine
end

