-- ==== Sys2Proof/Machine/JobEnd.lean ====
section
/-! DEFINITION. How jobs come to their end: the final result and its waiting record (R33, R36), jobs that end without a
record (R38), withdrawal (R116), and the effects that R41 states for a cancelled or aborted job. -/

namespace Sys2Proof.Machine

/-- Bytes of a job's output block, where its opcode has one (log entry 27). -/
def outBytes (j : Job) : Nat :=
  let n := dCount j.words
  match j.opcode with
  | 0x01 => 48
  | 0x03 | 0x04 | 0x05 => 32 * n
  | 0x06 | 0x08 => 4 * n
  | 0x09 | 0x0A => 8 * n
  | 0x0C => 8 * n
  | 0x0E => 8 * n * bits 10 0 (wordAt j.words 8)
  | 0x42 => wordAt j.words 8
  | _ => 0

/-! ## Withdrawal (R116) -/

/-- Every context of a job that is not FAULTED becomes FREE; its placed records, merges and Echo units go with it. -/
def State.withdrawTasks (s : State) (uid : Nat) : State :=
  { s with
    engines := s.engines.map fun e =>
      let g := e.keepCtxs s.now fun x => x.uid != uid || x.state == .faulted
      { g with placed := g.placed.filter fun t => t.uid != uid }
    merges := s.merges.filter fun m => m.uid != uid
    echo := { s.echo with
      queue := s.echo.queue.filter fun u => u.uid != uid
      retrievals := s.echo.retrievals.filter fun r => r.uid != uid } }

/-- Whether an operation has started: the head, or the read that a suspended erase at the head lets through. -/
def Die.running (d : Die) (o : FOp) : Bool :=
  match d.ops with
  | [] => false
  | h :: rest => h == o || (h.suspended && (rest.find? fun x => x.kind == .read) == some o)

/-- Flash operations that have not started are dropped; a started one finishes (R305, R298). -/
def State.withdrawFlash (s : State) (uid : Nat) : State :=
  { s with flash := { s.flash with dies := s.flash.dies.map fun d =>
    { d with ops := d.ops.filter fun o => o.uid != uid || d.running o } } }

/-- The job waits on no move any more; a move nobody waits on goes on. -/
def State.withdrawMoves (s : State) (uid : Nat) : State :=
  { s with moves := s.moves.map fun m => { m with waiters := m.waiters.filter fun w => w.uid != uid } }

def State.withdraw (s : State) (uid : Nat) : State :=
  let s := (((s.withdrawTasks uid).withdrawSiphon uid).withdrawFlash uid).withdrawMoves uid
  let s := { s with sec := { s.sec with crypto := s.sec.crypto.filter fun c => c.uid != some uid } }
  if s.vision.job == some uid then
    { s with vision := { s.vision with job := none, inFlight := s.vision.frameSeq :: s.vision.inFlight } }
  else s

/-! ## Finished jobs (R37, R38, R104, R173) -/

/-- The job becomes finished: its identity, its sync counters and its merge window are free. -/
def State.retireJob (s : State) (j : Job) : State :=
  let s := s.dropJob j.uid
  match j.ctrs with
  | none => s
  | some (c, n) =>
    { s with
      counters := s.counters.filter fun x => decide (x.1 < c) || decide (c + 16 * n ≤ x.1)
      ctrBlocks := s.ctrBlocks.filter fun b => decide (b < c / 16) || decide (c / 16 + n ≤ b) }

/-- RESULT where the spec states none: a free value (log entry 6). -/
def noResult : Nat := 2 ^ 31

/-- A record waits for its slot. -/
def State.queueComp (s : State) (qp : Nat) (c : Comp) : State :=
  if c.result = noResult then
    (s.modQp qp fun q =>
      { q with waiting := q.waiting ++ [{ c with result := Config.freeNat s.free % 2 ^ 31 }] }).drawFree
  else s.modQp qp fun q => { q with waiting := q.waiting ++ [c] }

def Job.quality' (j : Job) (now : Nat) : Nat :=
  j.quality ||| (if isLate j.deadlineUs (now - j.startTs) then qLate else 0) |||
    (if j.ending == some .abort then qAborted ||| qLate else 0)

/-- The status of R36 at the end of a job. -/
def Job.endStatus (j : Job) (now : Nat) : Nat :=
  finalStatus j.status (j.ending == some .cancel) (j.ending == some .abort || isLate j.deadlineUs (now - j.startTs))
    (j.quality' now)

def Job.comp (j : Job) (now status result : Nat) (final : Bool) : Comp :=
  { uid := j.uid, jobId := j.jobId, status := status, quality := j.quality' now, opcode := j.opcode, startTs := j.startTs
    endTs := now, result := result, notify := j.notify, final := final }

/-- The job's result becomes final: its record waits, or, where none will be written, it is finished (R33, R37, R38). The
appends are settled, its list area is free, and the partition's epoch advances where R153 says so; a slot that it was still
loading is free (R255). -/
def State.finishJob (s : State) (j : Job) (result : Nat) : State :=
  let s := { s with engines := s.engines.map fun (g : Engine) =>
    { g with leaving := g.leaving.filter fun x => x.uid != j.uid } }
  let s := j.areas.foldl (fun s a => s.freeFrame j.part a) (s.settleAppends j.part j.uid)
  let s := if servingOp j.opcode then s.advanceEpoch j.part else s
  let s := if j.opcode == 0x01 then
      { s with slots := s.slots.filter fun t => t.loaded || t.part != j.part || t.idx != dSlot j.words }
    else s
  let q := s.qp j.qp
  if j.silent || !q.enabled || j.ending == some .silent then s.retireJob j
  else
    (s.queueComp j.qp (j.comp s.now (j.endStatus s.now) result true)).modJob j.uid fun j => { j with finished := true }

/-- As finishJob, for the job as it now stands in the state. -/
def State.finishUid (s : State) (uid result : Nat) : State :=
  match s.job? uid with
  | some j => s.finishJob j result
  | none => s

/-- Note an error status; the first one stays (R36). -/
def State.jobError (s : State) (uid status : Nat) : State :=
  s.modJob uid fun j => { j with status := firstError j.status status }

def State.jobQuality (s : State) (uid q : Nat) : State := s.modJob uid fun j => { j with quality := j.quality ||| q }

/-! ## R41 -/

/-- The output area of a VISION_FRAME job whose argument block has the words `w` (R232, R239): patch rows, bytes of a row,
and whether token scale records go with them. -/
def patchArea (w : List Nat) : Nat × Nat × Bool :=
  let p := if bit 4 (wordAt w 0) then 16 else 14
  let elems := if bit 4 (wordAt w 0) then 768 else 640
  let s8 := bit 5 (wordAt w 0)
  ((bits 11 0 (wordAt w 2) / p) * (bits 27 16 (wordAt w 2) / p), if s8 then elems else 2 * elems, s8)

/-- Undefined contents of an output area (R41): only where the job could have written it, in its partition's DRAM or in host
memory that its owning function reaches (R241). -/
def State.scrambleOut (s : State) (p a n : Nat) : State :=
  if n != 0 && s.inDramHost p a n && (decide (a < hostBase) || s.hostOk p) then s.scramble a n else s

/-- Output rows whose contents are undefined: those of the block that the job read when it entered RUNNING (R232), or, where
it has not started, of the block that stands at ARG_ADDR. -/
def State.scramblePatches (s : State) (j : Job) : State :=
  let r := patchArea (match j.ext with
    | .vision block => block
    | _ => s.wordsAt (dArg j.words) 3)
  let s := s.scrambleOut j.part (dOut j.words) (r.1 * r.2.1)
  if r.2.2 then (List.range r.1).foldl
    (fun (s : State) (k : Nat) => s.scrambleOut j.part (tokenRecord (dOut j.words) r.2.1 k) 4) s else s

/-- A sequence of a cancelled or failed job is as before; one that the job created is released (DESIGN CHOICE, log entry 91: R41
speaks of the sequences that the job names, and none named it). -/
def State.restoreEnt (s : State) (e : Ent) : State :=
  if e.created then
    match s.seq? e.seqIdx with
    | some q => s.releaseSeq q
    | none => s
  else s.setLength e.seqIdx e.oldLen

/-- What a cancelled or aborted job leaves: output contents undefined, sequences as before, tokens discarded. -/
def State.cancelEffects (s : State) (j : Job) : State :=
  let s := s.scrambleOut j.part (dOut j.words) (outBytes j)
  let s := if j.opcode == 0x0D then s.scramblePatches j else s
  let s := if servingOp j.opcode then s.undoAppends j.part j.uid else s
  match j.ext with
  | .serve ents _ _ _ => ents.foldl State.restoreEnt s
  | .flash left _ =>
    if j.opcode == 0x22 && !j.expert && decide (0 < left) then
      { s with flash := { s.flash with torn := (wordAt j.words 3, wordAt j.words 4 / 16) :: s.flash.torn } }
    else s
  | _ => s

/-- RESULT of a job that ends before its own end, from its progress. -/
def Job.progress (j : Job) : Nat :=
  match j.ext with
  | .tiles _ _ retired _ => retired
  | .dma start acked => start + acked
  | .flash _ done => if j.opcode == 0x22 then noResult else done
  | .train t => t.batches
  | .search sr _ => sr.scanned
  | .ship sh => sh.entry
  | .items done _ => if j.opcode == 0x06 then done else noResult
  | .none => if [0x06, 0x07, 0x08, 0x0C, 0x20, 0x21, 0x30, 0x31].contains j.opcode then 0 else noResult
  | _ => noResult

/-- Frames of a shipment that have not left are discarded (R331). -/
def State.dropFrames (s : State) (port tag : Nat) : State :=
  s.modPport port fun p => { p with
    waiting := p.waiting.filter fun f => !(tOrigin f.payload == s.passage.id && tXfer f.payload == tag) }

/-- The peer of a shipment in progress receives ABORT (R349, R425). -/
def State.abortPeer (s : State) (uid : Nat) : State :=
  match s.job? uid with
  | none => s
  | some j => match j.ext with
    | .ship sh =>
      if sh.entry < sh.count && (s.pport sh.port).state == .ready then
        let tag := wordAt sh.words 2
        (s.dropFrames sh.port tag).sendControl sh.port sh.hops (bits 31 16 (wordAt sh.words 1)) tag (s.conf j.part) .abort
      else s
    | _ => s

/-- Begin to end a job: CANCELLING, its work withdrawn (R40, R43, R38). WITHDRAWAL_END completes it. -/
def State.startEnding (s : State) (uid : Nat) (k : EndKind) : State :=
  ((s.abortPeer uid).withdraw uid).modJob uid fun j => { j with state := .cancelling, ending := some k }

/-- The end of a withdrawal: R41's effects, then the final result. -/
def State.endWithdrawal (s : State) (j : Job) : State := (s.cancelEffects j).finishJob j j.progress

/-- End a job with an error at once: work withdrawn, R41's effects where the opcode changes sequences (R145, R378; log
entry 27), final result. -/
def State.failJob (s : State) (uid status result : Nat) : State :=
  let s := (s.jobError uid status).withdraw uid
  match s.job? uid with
  | none => s
  | some j =>
    if j.finished then s else
      let s := if servingOp j.opcode && j.ext != .none then s.cancelEffects j else s
      s.finishJob j result

/-- An access of a job outside its partition, met by the processor that expands it: R241, R185, with a COMMAND record. -/
def State.outsideJob (s : State) (uid : Nat) : State :=
  match s.job? uid with
  | none => s
  | some j =>
    (s.raise (if uncancellable j.opcode then 0x5B else 0x58 + j.cp) 1 0 (some j.part) 0 0).failJob uid stFault j.progress

/-- As failJob with the result that the job's progress gives. -/
def State.failJob' (s : State) (uid status : Nat) : State :=
  match s.job? uid with
  | none => s
  | some j => s.failJob uid status j.progress

/-- Every unfinished job ends with DEVICE_FAULT (R278 step 3, R418). -/
def State.failAllJobs (s : State) : State :=
  (s.jobs.list.filter fun j => !j.finished).foldl (fun s j => s.failJob' j.uid stFault) s

/-- Whether a withdrawn job still has work that is ending: a flash operation that has started, or write responses that Siphon
awaits. -/
def State.stillOut (s : State) (uid : Nat) : Bool :=
  (s.flash.dies.any fun d => d.ops.any fun o => o.uid == uid) || s.xferOut (Xfer.isOf uid)

/-- End an unfinished job without a record (R38): withdrawn, then R41's effects and finished when its withdrawal has ended,
which a started flash operation holds up until it is done (WITHDRAWAL_END). -/
def State.endSilently (s : State) (j : Job) : State :=
  let s := (if j.finished then s else s.abortPeer j.uid).withdraw j.uid
  if j.finished then s.retireJob j else
    let j := { j with state := .cancelling, ending := some .silent, silent := true }
    if s.stillOut j.uid then s.modJob j.uid fun _ => j
    else (s.cancelEffects j).finishJob j noResult

/-- A descriptor that failed validation gets its record (R30, R37). -/
def State.refuseDesc (s : State) (qp uid ts status : Nat) (ws : List Nat) : State :=
  s.queueComp qp
    { uid := uid, jobId := dJobId ws, status := status
      quality := if isLate (dDeadline ws) (s.now - ts) then qLate else 0
      opcode := dOpcode ws, startTs := ts, endTs := s.now, result := noResult, notify := dNotify ws, final := true }

/-! ## Queue pairs (R17, R438) -/

/-- Disable a queue pair: untaken descriptors are discarded; jobs taken from it will have no record. -/
def State.disableQp (s : State) (n : Nat) (byDevice : Bool) : State :=
  let s := s.modQp n fun q =>
    { q with enabled := false, anns := [], waiting := [], unsignalled := 0, unsignalledSince := none
             refuse := if byDevice then 0 else q.refuse }
  let s := (s.jobs.list.filter fun j => j.qp == n && j.finished).foldl State.retireJob s
  { s with jobs := { s.jobs with list := s.jobs.list.map fun j => if j.qp == n then { j with silent := true } else j } }

def State.disableAllQps (s : State) : State := (List.range 64).foldl (fun s n => s.disableQp n true) s

/-- Owned queue pairs of a partition. -/
def State.qpsOf (s : State) (p : Nat) : List Nat := (List.range 64).filter fun n => (s.qp n).part == p

/-! ## Blocks that a job reads or writes (R31, R241; log entry 35) -/

/-- The state after a job finds `n` bytes at `a` that it writes outside its partition, or the host out of reach; none when it
can go on. -/
def State.blockedOut (s : State) (j : Job) (a n : Nat) : Option State :=
  if n = 0 then none
  else if !s.inDramHost j.part a n then some (s.outsideJob j.uid)
  else if hostBase ≤ a && !s.hostOk j.part then some (s.failJob' j.uid stLink)
  else none

/-- As blockedOut, for a block that the job reads: a poisoned word in it is an occurrence of its channel, and the job ends
with DATA_UNCORRECTED (R34, R270). -/
def State.blocked (s : State) (j : Job) (a n : Nat) : Option State :=
  match s.blockedOut j a n with
  | some t => some t
  | none =>
    let bad := s.badWords a n
    if bad.isEmpty then none else some ((s.reportWords bad).failJob' j.uid stData)

/-- As blocked, for several blocks in turn. -/
def State.anyBlocked (s : State) (j : Job) : List (Nat × Nat) → Option State
  | [] => none
  | r :: rest => match s.blocked j r.1 r.2 with
    | some t => some t
    | none => State.anyBlocked s j rest

end Sys2Proof.Machine
end

