-- ==== Sys2Proof/Machine/FlashOps.lean ====
section
/-! DEFINITION. The flash as its controller sees it: slots, ring positions and physical blocks (R289, R290), volumes and
their pages (R292 to R294), the blocks that protection and loaded slots hold back (R297, R307), the journal (R303),
retirement (R299 to R301), and whole pages read from and programmed into a volume. -/

namespace Sys2Proof.Machine

def pageBytes : Nat := 16384
def ringSlots : Nat := 1792
def bandBytes : Nat := 0x10000000

/-! ## Slots and blocks -/

/-- The physical block of a slot (R290). -/
def Die.phys (d : Die) (slot : Nat) : Nat :=
  let p := (slot + d.start) % ringSlots
  let p := if d.gap ≤ p then p + 1 else p
  (assoc d.remap p).getD p

/-- The ring position and the physical block of the gap. -/
def Die.gapBlock (d : Die) : Nat := (assoc d.remap d.gap).getD d.gap

/-- The slot that names a physical block. -/
def Die.slotOf (d : Die) (block : Nat) : Option Nat := (List.range ringSlots).find? fun t => d.phys t == block

def FBlock.blank (n : Nat) : FBlock :=
  { num := n, pages := 0, fast := false, denseErases := 0, fastErases := 0, header := none, half := false }

def Die.block (d : Die) (n : Nat) : FBlock := (d.blocks.find? fun b => b.num == n).getD (FBlock.blank n)

def Die.modBlock (d : Die) (n : Nat) (f : FBlock → FBlock) : Die :=
  { d with blocks := f (d.block n) :: d.blocks.filter fun b => b.num != n }

/-- WEAR of a die (R301). -/
def Die.wear (d : Die) : Nat :=
  min 1023 ((d.blocks.map fun b => (10 * b.denseErases + b.fastErases) * 1000 / 30000).foldl max 0)

/-- The operation that the die runs: its head, or while an erase is suspended the first read. -/
def Die.current (d : Die) : Option FOp :=
  match d.ops with
  | [] => none
  | o :: rest => if o.suspended then rest.find? fun x => x.kind == .read else some o

/-! ## Volumes -/

def State.volume? (s : State) (n : Nat) : Option Volume := s.flash.volumes.find? fun v => v.num == n

/-- Slots that a volume takes (R292): their number, from FIRST_SLOT. -/
def volSlots (fast : Bool) (bands : Nat) : Nat := if fast then 3 * bands / 2 else bands / 2

/-- The slots of die-logical block `i` (R294). -/
def Volume.slotsOf (v : Volume) (i : Nat) : List Nat :=
  if v.fast then [v.first + 3 * i, v.first + 3 * i + 1, v.first + 3 * i + 2] else [v.first + i]

/-- Slot and page of die page `q` in die-logical block `i`. -/
def Volume.slotPage (v : Volume) (i q : Nat) : Nat × Nat :=
  if v.fast then (v.first + 3 * i + q / 342, q % 342) else (v.first + i, q)

/-- Where a volume page lies. -/
structure PageLoc where
  die : Nat
  slot : Nat
  block : Nat
  page : Nat
  band : Nat
  v : Nat                  -- its page index within the band
  deriving DecidableEq, Repr

/-- The place of volume page `n` = 1,024 b + p (R293). -/
def State.pageLoc (s : State) (vol : Volume) (n : Nat) : PageLoc :=
  let k := n / 16384
  let v := n % 16384
  let die := 2 * (v % 16) + k % 2
  let t := vol.slotPage (k / 2) (v / 16)
  { die := die, slot := t.1, block := (s.die die).phys t.1, page := t.2, band := k, v := v }

def Volume.pages (v : Volume) : Nat := 16384 * v.bands

/-- The dies and slots of a band. -/
def Volume.bandSlots (v : Volume) (k : Nat) : List (Nat × Nat) :=
  (List.range 16).flatMap fun c => (v.slotsOf (k / 2)).map fun t => (2 * c + k % 2, t)

/-- The volume that a slot belongs to. -/
def State.volumeOfSlot (s : State) (slot : Nat) : Option Volume :=
  s.flash.volumes.find? fun v => decide (v.first ≤ slot) && decide (slot < v.first + volSlots v.fast v.bands)

/-- The band that a slot of a volume on one of a channel's two dies backs. -/
def Volume.bandOf (v : Volume) (slot die : Nat) : Nat :=
  2 * (if v.fast then (slot - v.first) / 3 else slot - v.first) + die % 2

def State.isTorn (s : State) (vol band : Nat) : Bool := s.flash.torn.contains (vol, band)

/-- Whether `n` bytes of a volume from byte `y` touch a torn band, which is never served as data (R306). -/
def State.tornAt (s : State) (vol y n : Nat) : Bool :=
  s.flash.torn.any fun x => x.1 == vol && decide (y < bandBytes * (x.2 + 1)) && decide (bandBytes * x.2 < y + n)

/-- A band's write pointer (R296). -/
def State.writePtr (s : State) (vol band : Nat) : Nat :=
  ((s.flash.wps.find? fun w => w.1 == vol && w.2.1 == band).map fun w => w.2.2).getD 0

def State.setWritePtr (s : State) (vol band v : Nat) : State :=
  let left := s.flash.wps.filter fun w => !(w.1 == vol && w.2.1 == band)
  { s with flash := { s.flash with wps := if v = 0 then left else (vol, band, v) :: left } }

/-- A slot of a WRITE_LOCKED or PERMANENT region (R307). -/
def State.slotLocked (s : State) (slot : Nat) : Bool :=
  s.flash.regions.any fun r => r.state != 0 && decide (r.first ≤ slot) && decide (slot ≤ r.last)

/-- Whether volume blocks [lo, hi] back a loaded slot (R254). -/
def State.backs (s : State) (vol lo hi : Nat) : Bool :=
  s.slots.any fun t => match t.source with
    | .volume v start n => v == vol && decide (start ≤ hi) && decide (lo < start + n)
    | _ => false

/-! ## What a flash job touches (R44, R297) -/

def flashOp (op : Nat) : Bool := op == 0x20 || op == 0x21 || op == 0x22

def fDie (ws : List Nat) : Nat := 2 * bits 3 0 (wordAt ws 3) + bits 4 4 (wordAt ws 3)
def fFirst (ws : List Nat) : Nat := bits 9 0 (wordAt ws 5)
def fCount (ws : List Nat) : Nat := bits 26 16 (wordAt ws 5)
def fPage0 (ws : List Nat) : Nat := 1024 * wordAt ws 4 + fFirst ws

/-- The slots, with their dies, that a flash job names. -/
def State.flashSlots (s : State) (ws : List Nat) : List (Nat × Nat) :=
  if dExpert ws then
    match (s.die (fDie ws)).slotOf (wordAt ws 4) with
    | some t => [(fDie ws, t)]
    | none => []
  else
    match s.volume? (wordAt ws 3) with
    | none => []
    | some v =>
      if dOpcode ws == 0x22 then v.bandSlots (wordAt ws 4 / 16)
      else (List.range (fCount ws)).map fun i => let l := s.pageLoc v (fPage0 ws + i); (l.die, l.slot)

/-- The slot range of a FLASH_PROTECT job: what LOCK names, or what the region holds. -/
def State.protectRange (s : State) (ws : List Nat) : Nat × Nat :=
  if bits 9 8 (wordAt ws 3) = 1 then (wordAt ws 4, wordAt ws 5)
  else
    let r := s.flash.regions.getD (bits 3 0 (wordAt ws 3)) Region.shipped
    (r.first, r.last)

/-- First and last volume block of a basic flash job. -/
def fBlocks (ws : List Nat) : Nat × Nat :=
  if dOpcode ws == 0x22 then (wordAt ws 4, wordAt ws 4 + 15) else (fPage0 ws / 1024, (fPage0 ws + fCount ws - 1) / 1024)

/-- Whether two jobs work on one block: a volume block of two basic jobs, a block of a die where one of them is raw. -/
def State.sameBlock (s : State) (a b : List Nat) : Bool :=
  if dExpert a || dExpert b then (s.flashSlots a).any fun x => (s.flashSlots b).contains x
  else wordAt a 3 == wordAt b 3 && decide ((fBlocks a).1 ≤ (fBlocks b).2) && decide ((fBlocks b).1 ≤ (fBlocks a).2)

/-- The slots that a flash job's protection is judged on: a raw job's own, and for a basic job all those of the die-logical
blocks of its bands (R297, R307). -/
def State.guardSlots (s : State) (ws : List Nat) : List (Nat × Nat) :=
  if dExpert ws then s.flashSlots ws
  else match s.volume? (wordAt ws 3) with
    | none => []
    | some v => (List.range' ((fBlocks ws).1 / 16) ((fBlocks ws).2 / 16 + 1 - (fBlocks ws).1 / 16)).flatMap v.bandSlots

/-- Whether two flash jobs touch overlapping blocks. -/
def State.flashOverlap (s : State) (a b : List Nat) : Bool :=
  let inRange (r : Nat × Nat) (ws : List Nat) : Bool :=
    (s.guardSlots ws).any fun x => decide (r.1 ≤ x.2) && decide (x.2 ≤ r.2)
  if flashOp (dOpcode a) && flashOp (dOpcode b) then s.sameBlock a b
  else if flashOp (dOpcode a) && dOpcode b == 0x23 then inRange (s.protectRange b) a
  else if dOpcode a == 0x23 && flashOp (dOpcode b) then inRange (s.protectRange a) b
  else if dOpcode a == 0x23 && dOpcode b == 0x23 then
    decide ((s.protectRange a).1 ≤ (s.protectRange b).2) && decide ((s.protectRange b).1 ≤ (s.protectRange a).2) ||
      bits 3 0 (wordAt a 3) == bits 3 0 (wordAt b 3)
  else false

/-! ## The journal (R303) -/

/-- Write the queued records and `r` in one journal page. -/
def State.journalNow (s : State) (r : JRec) : State :=
  { s with flash := { s.flash with journal := s.flash.journal ++ s.flash.pendingJ ++ [r], pendingJ := [] } }

def State.journalLater (s : State) (r : JRec) : State :=
  { s with flash := { s.flash with pendingJ := s.flash.pendingJ ++ [r] } }

/-- The queued records are programmed in a page of their own once the block has nothing else to do. -/
def State.flushJournal (s : State) : State :=
  if s.flash.powerLost then s else
    { s with flash := { s.flash with journal := s.flash.journal ++ s.flash.pendingJ, pendingJ := [] } }

/-! ## Physical blocks -/

/-- Copy the programmed pages of a block into another (R291, R299). -/
def State.copyBlock (s : State) (die old new : Nat) : State :=
  let b := (s.die die).block old
  let s := (List.range b.pages).foldl
    (fun s i => s.flashPut (flashKey die new i) (s.flashRead (flashKey die old i) pageBytes)) s
  s.modDie die fun d => d.modBlock new fun n =>
    { n with pages := b.pages, fast := b.fast, header := b.header, half := false }

/-- The mode of a block: that of the volume whose slot names it, else the one it was last programmed in. -/
def State.blockFast (s : State) (die block : Nat) : Bool :=
  match ((s.die die).slotOf block).bind s.volumeOfSlot with
  | some v => v.fast
  | none => ((s.die die).block block).fast

/-- A block's pages are erased, and the erase is counted in its mode (R301). -/
def State.eraseBlock (s : State) (die block : Nat) (fast : Bool) : State :=
  let s := s.flashClear (flashKey die block 0) (1024 * pageBytes)
  let s := s.modDie die fun d => d.modBlock block fun b =>
    { b with
      pages := 0, header := none, half := false
      denseErases := b.denseErases + b2n (!fast), fastErases := b.fastErases + b2n fast }
  if 900 ≤ (s.die die).wear && !(s.die die).wearRaised then
    (s.modDie die fun d => { d with wearRaised := true }).raise (0x40 + die / 2) 5 4 none 0 die
  else s

/-- Put a pool block in a failed block's ring position: its number, or none when the pool is empty and the die becomes
worn (R299, R300). -/
def State.retireBlock (s : State) (die old : Nat) : Option Nat × State :=
  let d := s.die die
  match d.pool with
  | [] =>
    if d.worn then (none, s) else
      let t := s.modDie die fun d => { d with worn := true }
      (none, { t with faults := { t.faults with diesWorn := t.faults.diesWorn + 1 } })
  | new :: rest =>
    let pos := ((List.range (ringSlots + 1)).find? fun p => (assoc d.remap p).getD p == old).getD 0
    let s := s.modDie die fun d => { d with pool := rest, remap := assocSet d.remap pos new, retired := d.retired + 1 }
    let s := s.raise (0x40 + die / 2) 5 3 none 0 (die + 2 ^ 8 * old + 2 ^ 19 * new)
    (some new, s.journalLater (.retire die old new))

/-! ### The controller's own programs and erases: gap moves, spills, deletions and mounting

Whether a pulse train verifies is a free value (log entry 109). -/

/-- The block that takes what is programmed into `block`: itself, or the pool block of the first retirement whose trains
verify; none when the pool runs out and the die becomes worn (R299, R300). -/
def State.ownTrains : Nat → State → Nat → Nat → Option Nat × State
  | 0, s, _, block => (some block, s)
  | n + 1, s, die, block =>
    if Config.freeBool s.free then (some block, s.drawFree)
    else match s.drawFree.retireBlock die block with
      | (none, s) => (none, s)
      | (some new, s) => State.ownTrains n s die new

def State.ownProgram (s : State) (die block : Nat) : Option Nat × State :=
  if (s.die die).worn then (none, s) else s.ownTrains ((s.die die).pool.length + 1) die block

/-- Erase a block under R303: whether it is erased, or a pool block stands in its place. -/
def State.ownErase (s : State) (die block : Nat) (fast : Bool) : Bool × State :=
  if (s.die die).worn then (false, s) else
    let s := s.journalNow (.eraseIntent die block)
    if Config.freeBool s.free then (true, (s.drawFree.eraseBlock die block fast).journalLater (.eraseDone die block))
    else match s.drawFree.retireBlock die block with
      | (none, s) => (false, s)
      | (some _, s) => (true, s.journalLater (.eraseDone die block))

/-- Program the next page of a block with 16 KiB of stored bytes. -/
def State.programPage (s : State) (die block page : Nat) (fast : Bool) (vol slot band : Nat) (bs : List Byte) : State :=
  (s.flashPut (flashKey die block page) bs).modDie die fun d => d.modBlock block fun b =>
    { b with pages := page + 1, fast := fast, header := if page = 0 then some (vol, slot, band) else b.header }

/-! ## Volume pages -/

/-- The stored bytes of a page: 0xFF where it was never programmed (R295). -/
def State.storedPage (s : State) (die block page : Nat) : List Byte :=
  if page < ((s.die die).block block).pages then s.flashRead (flashKey die block page) pageBytes
  else List.replicate pageBytes Config.erasedByte

/-- The key of a confidential volume: its owner's. -/
def State.volKey (s : State) (vol : Volume) : List Byte := (s.part vol.owner).key

/-- Volume page `n` after decryption. -/
def State.volPage (s : State) (vol : Volume) (n : Nat) : List Byte :=
  let l := s.pageLoc vol n
  let bs := s.storedPage l.die l.block l.page
  if vol.conf && decide (l.page < ((s.die l.die).block l.block).pages) then xtsDecrypt (s.volKey vol) n bs else bs

/-- What is stored for 16 KiB of data at volume page `n`. -/
def State.sealPage (s : State) (vol : Volume) (n : Nat) (bs : List Byte) : List Byte :=
  if vol.conf then xtsEncrypt (s.volKey vol) n bs else bs

/-- `n` bytes of a volume from byte `y`. -/
def State.volBytes (s : State) (vol : Volume) (y n : Nat) : List Byte :=
  let first := y / pageBytes
  let last := (y + n - 1) / pageBytes
  (((List.range (last + 1 - first)).flatMap fun i => s.volPage vol (first + i)).drop (y % pageBytes)).take n

/-- Program volume page `n`: whether it could be done. -/
def State.programOwn (s : State) (vol : Volume) (n : Nat) (bs : List Byte) : Bool × State :=
  let l := s.pageLoc vol n
  match s.ownProgram l.die l.block with
  | (none, s) => (false, s)
  | (some b, s) =>
    let s := if b = l.block then s else s.copyBlock l.die l.block b
    (true, (s.programPage l.die b l.page vol.fast vol.num l.slot l.band (s.sealPage vol n bs)).setWritePtr vol.num l.band
      (l.v + 1))

/-- Program a run of volume pages from page `n` on, the last one filled with 0xFF: whether every page could be done. -/
def State.programRun (s : State) (vol : Volume) (n : Nat) (bs : List Byte) : Bool × State :=
  let count := ceilDiv bs.length pageBytes
  let bs := bs ++ List.replicate (count * pageBytes - bs.length) Config.erasedByte
  (List.range count).foldl (fun r i =>
    if r.1 then r.2.programOwn vol (n + i) ((bs.drop (i * pageBytes)).take pageBytes) else r) (true, s)

/-! ## The controller's own accesses and a die's erase (R302) -/

/-- The dies of `count` volume pages from page `n`. -/
def runDies (n count : Nat) : List Nat :=
  ((List.range count).map fun i => 2 * ((n + i) % 16384 % 16) + (n + i) / 16384 % 2).eraseDups

/-- The dies that hold `n` bytes of a volume from byte `y`. -/
def byteDies (y n : Nat) : List Nat := runDies (y / pageBytes) ((y + n - 1) / pageBytes + 1 - y / pageBytes)

/-- The erase at the head of a die that has started. -/
def Die.erasing (d : Die) : Option FOp := d.ops.head?.filter fun o => o.kind == .erase && o.started.isSome

/-- A read that the window of a resumed erase holds back. -/
def State.readHeld (s : State) (dies : List Nat) : Bool :=
  dies.any fun n => match (s.die n).erasing with
    | some o => !o.suspended && o.windowFrom.isSome
    | none => false

/-- The controller's own reads suspend the erases that they meet, and those that nothing else holds up then resume. -/
def State.readThrough (s : State) (dies : List Nat) : State :=
  dies.foldl (fun s n => match (s.die n).erasing with
    | some o =>
      if o.suspended || s.flash.windowUs = 0 then s
      else s.modDie n fun d => { d with ops := { o with windowFrom := some s.now } :: d.ops.tail }
    | none => s) s

/-- Programs wait for an erase of their die to finish. -/
def State.programHeld (s : State) (dies : List Nat) : Bool := dies.any fun n => (s.die n).erasing.isSome

/-- Where a run of `count` pages fits: the first band that is not full, with the bands after it empty, and clear of blocks that
back a loaded slot (R254). -/
def State.findRun (s : State) (vol : Volume) (count : Nat) : Option Nat :=
  let usable (k : Nat) : Bool := !s.isTorn vol.num k && !(vol.bandSlots k).any fun x => (s.die x.1).worn || s.slotLocked x.2
  ((List.range vol.bands).find? fun k =>
    let w := s.writePtr vol.num k
    let first := k * 16384 + w
    decide (w < 16384) && usable k && decide (first + count ≤ vol.pages) &&
      !s.backs vol.num (first / 1024) ((first + count - 1) / 1024) &&
      (List.range (vol.bands - k - 1)).all fun i =>
        decide (count ≤ (16384 - w) + 16384 * i) || (s.writePtr vol.num (k + 1 + i) == 0 && usable (k + 1 + i))).map
    fun k => k * 16384 + s.writePtr vol.num k

end Sys2Proof.Machine
end

