-- ==== Sys2Proof/Machine/Image.lean ====
section
/-! DEFINITION. The Ibmal model image: manifest, layer table and directory (R248 to R252), what makes them invalid (R253),
and where the tile-ready units of a loaded image go (R244, R255; placement: log entry 15). -/

namespace Sys2Proof.Machine

/-! ## Manifest and layer table (R249, R250) -/

def byteAt (bs : List Byte) (i : Nat) : Nat := (bs.getD i 0).toNat
def fieldAt (bs : List Byte) (i n : Nat) : Nat := leNat ((bs.drop i).take n)
def zeroAt (bs : List Byte) (lo hi : Nat) : Bool := ((bs.drop lo).take (hi - lo)).all fun b => b == 0

def magic : List Byte := [0x41, 0x58, 0x4D, 0x49, 0x4D, 0x41, 0x47, 0x45]

def Manifest.ofBytes (u : List Byte) : Manifest :=
  { imageBytes := fieldAt u 16 8, dirFirst := fieldAt u 24 4, dirCount := fieldAt u 28 4, payFirst := fieldAt u 32 4
    payUnits := fieldAt u 36 4, sideFirst := fieldAt u 40 4, width := fieldAt u 44 4, vocab := fieldAt u 48 4
    layers := fieldAt u 52 2, headDim := byteAt u 54, experts := byteAt u 56, active := byteAt u 57 }

def Manifest.dirUnits (m : Manifest) : Nat := ceilDiv m.dirCount 256
def Manifest.sideUnits (m : Manifest) : Nat := ceilDiv m.payUnits 16

/-- The areas of an image as (first unit, units). -/
def Manifest.areas (m : Manifest) : List (Nat × Nat) :=
  [(0, 1), (m.dirFirst, m.dirUnits), (m.payFirst, m.payUnits), (m.sideFirst, m.sideUnits)]

def apart (a b : Nat × Nat) : Bool := a.2 = 0 || b.2 = 0 || decide (a.1 + a.2 ≤ b.1) || decide (b.1 + b.2 ≤ a.1)

def manifestOk (u : List Byte) (bytes : Nat) : Bool :=
  let m := Manifest.ofBytes u
  u.take 8 == magic && fieldAt u 8 4 == 1 && zeroAt u 12 16 && byteAt u 55 == 0 && zeroAt u 58 1024 &&
    m.imageBytes == bytes && m.imageBytes % 16384 == 0 && decide (1 ≤ m.dirCount) && decide (m.dirCount ≤ 1048575) &&
    m.width % 64 == 0 && decide (1 ≤ m.vocab) && decide (m.vocab ≤ 262144) &&
    decide (1 ≤ m.layers) && decide (m.layers ≤ 160) && decide (m.headDim ≤ 2) &&
    (if m.experts = 0 then m.active == 0 else decide (1 ≤ m.active) && decide (m.active ≤ 32)) &&
    (m.areas.all fun a => decide (a.1 + a.2 ≤ bytes / 16384)) && decide (m.areas.Pairwise fun a b => apart a b = true)

/-- Layer `l`'s 32 bytes. -/
def layerBytes (u : List Byte) (l : Nat) : List Byte := (u.drop (1024 + 32 * l)).take 32

def layerRecOf (b : List Byte) : LayerRec :=
  { fmtS4 := bit 0 (byteAt b 0), expertLayer := bit 1 (byteAt b 0), kvHeads := byteAt b 1, hpk := byteAt b 2 }

def layerOk (m : Manifest) (b : List Byte) : Bool :=
  let r := layerRecOf b
  decide (byteAt b 0 < 4) && decide (r.kvHeads ≤ 32) && decide (1 ≤ r.hpk) && decide (r.hpk ≤ 16) && byteAt b 3 == 0 &&
    (!r.expertLayer || m.experts != 0) && ((List.range 4).all fun i => decide (byteAt b (4 + i) < 8)) && zeroAt b 24 32

/-- The divisors of input point `p` in a layer's bytes, and whether SMOOTH is set there. -/
def pointDiv (b : List Byte) (p : Nat) : Nat := fieldAt b (8 + 4 * p) 4
def pointSmooth (b : List Byte) (p : Nat) : Bool := bit 2 (byteAt b (4 + p))

/-- The manifest and the layer table hold (R253). -/
def headOk (u : List Byte) (bytes : Nat) : Bool :=
  let m := Manifest.ofBytes u
  manifestOk u bytes && ((List.range m.layers).all fun l => layerOk m (layerBytes u l)) && zeroAt u (1024 + 32 * m.layers) 16384

/-! ## Directory entries (R251, R252) -/

def eKind (e : List Nat) : Nat := bits 3 0 (wordAt e 0)
def eRole (e : List Nat) : Nat := bits 15 8 (wordAt e 0)
def eLayer (e : List Nat) : Nat := bits 23 16 (wordAt e 0)
def eExpert (e : List Nat) : Nat := bits 31 24 (wordAt e 0)
def eFmt (e : List Nat) : Option Fmt := fmtOf (bits 3 0 (wordAt e 1))
def eGroupCode (e : List Nat) : Nat := bits 5 4 (wordAt e 1)
def eGroup (e : List Nat) : Nat := 32 * 2 ^ eGroupCode e
def eInput (e : List Nat) : Nat := bits 8 6 (wordAt e 1)      -- HADAMARD and SMOOTH, coded as an input point's byte
def eShadow (e : List Nat) : Bool := bit 9 (wordAt e 1)
def eExpertRes (e : List Nat) : Bool := bit 10 (wordAt e 1)
def eSplit (e : List Nat) : Nat := bits 15 12 (wordAt e 1) + 1
def eStride (e : List Nat) : Nat := 16 * bits 31 16 (wordAt e 1)
def eRows (e : List Nat) : Nat := bits 19 0 (wordAt e 2)
def eK (e : List Nat) : Nat := wordAt e 3
def eFirst (e : List Nat) : Nat := wordAt e 4
def eCount (e : List Nat) : Nat := wordAt e 5
def eBlock (e : List Nat) : Nat := bits 15 0 (wordAt e 6)
def eHeat (e : List Nat) : Nat := bits 31 16 (wordAt e 6)
def eWsum (e : List Nat) : Nat := wordAt e 7
def eShadowEntry (e : List Nat) : Nat := wordAt e 8

def noEntry : Nat := 0xFFFFFFFF

/-- The kind that a role has. -/
def roleKind (r : Nat) : Option Nat :=
  if r = 11 then some 1 else if r ≤ 12 then some 0 else if r ≤ 17 then some 2 else none

/-- The input point of a role. -/
def roleInput (r : Nat) : Option Nat :=
  match r with
  | 0 | 1 | 2 => some 0
  | 3 => some 1
  | 4 | 5 | 7 | 8 | 9 => some 2
  | 6 | 10 => some 3
  | _ => none

def expertRole (r : Nat) : Bool := decide (8 ≤ r) && decide (r ≤ 10)

/-- Reserved bits, kind, role, layer and expert numbers. -/
def entNames (m : Manifest) (layers : List LayerRec) (e : List Nat) : Bool :=
  let r := eRole e
  let l := eLayer e
  let x := eExpert e
  bits 7 4 (wordAt e 0) == 0 && roleKind r == some (eKind e) && !bit 11 (wordAt e 1) && decide (wordAt e 2 < 2 ^ 20) &&
    ((List.range' 9 7).all fun i => wordAt e i == 0) && (l == 0xFF || decide (l < m.layers)) &&
    (x == 0xFF || decide (x < m.experts)) && (!decide (r ≤ 10) || l != 0xFF) && (!expertRole r || x != 0xFF) &&
    (!eExpertRes e || expertRole r) && (!eShadow e || expertRole r) &&
    (match layers[l]? with
      | none => true
      | some y => if y.expertLayer then !(decide (4 ≤ r) && decide (r ≤ 6)) else !(decide (7 ≤ r) && decide (r ≤ 10)))

/-- Slots of a TRU region in T2 (R244). -/
def granuleSlots : Nat := 61440

/-- A WEIGHT or TABLE entry's shape: format, K, split, blocks and footprint (R119, R245). -/
def entShape (e : List Nat) : Bool :=
  match eFmt e with
  | none => false
  | some f =>
    let s := eSplit e
    let n := ceilDiv (eK e / s) f.unitElems
    let block := 16384 * eBlock e
    f.weightSide && eGroupCode e != 3 && eK e % eGroup e == 0 &&
      (f != .t1 || eK e % 64 == 0) && eK e / eGroup e % s == 0 && eCount e == ceilDiv (eRows e) 64 * eBlock e &&
      decide (s * n * f.unitBytes ≤ eStride e) &&
      decide (eBlock e ≤ granuleSlots) && decide (63 * eStride e + (s * n + 63) * f.unitBytes ≤ block) &&
      (f.converted || decide (ceilDiv (eK e / eGroup e) 16 ≤ eBlock e))

def entAux (e : List Nat) : Bool :=
  bits 3 0 (wordAt e 1) == 0 && eBlock e == 0 && decide (eK e ≤ 16384 * eCount e)

def entAt (ents : List (List Nat)) (i : Nat) : List Nat := ents.getD i []

/-- The divisor entry of an input point, where it names one. -/
def isDivisor (ents : List (List Nat)) (d : Nat) : Bool :=
  decide (d < ents.length) && eRole (entAt ents d) == 16 && eKind (entAt ents d) == 2

/-- Each input point names a directory index or none, and one that smooths names divisors (R250, R253). -/
def pointsOk (u : List Byte) (layers : Nat) (ents : List (List Nat)) : Bool :=
  (List.range layers).all fun l => (List.range 4).all fun p =>
    let b := layerBytes u l
    if pointSmooth b p then isDivisor ents (pointDiv b p)
    else pointDiv b p == noEntry || decide (pointDiv b p < ents.length)

/-- HADAMARD and SMOOTH as the input point has them, and divisors of its length (R87). A role without an input point has
nothing to agree with. -/
def entInput (u : List Byte) (ents : List (List Nat)) (e : List Nat) : Bool :=
  match roleInput (eRole e) with
  | none => true
  | some p =>
    let b := layerBytes u (eLayer e)
    eInput e == byteAt b (4 + p) && (!pointSmooth b p || eK (entAt ents (pointDiv b p)) == 2 * eK e)

/-- An expert tensor's shadow. Any other entry names none; what a shadow's own entry names the rule leaves open, but it is an
entry of the directory (R251; log entry 104). -/
def shadowOk (ents : List (List Nat)) (e : List Nat) : Bool :=
  if eShadow e then eShadowEntry e == noEntry || decide (eShadowEntry e < ents.length)
  else if !expertRole (eRole e) then eShadowEntry e == noEntry
  else
    let h := entAt ents (eShadowEntry e)
    decide (eShadowEntry e < ents.length) && eShadow h && eKind h == 0 && eFmt h == some .s2 && !eExpertRes h &&
      bits 31 8 (wordAt h 0) == bits 31 8 (wordAt e 0) && eRows h == eRows e && eK h == eK e && eInput h == eInput e &&
      (eWsum h == noEntry) == (eWsum e == noEntry)

/-- The same (ROLE, LAYER, EXPERT), shadows apart from the tensors that they shadow. -/
def sameTensor (a b : List Nat) : Bool :=
  bits 31 8 (wordAt a 0) == bits 31 8 (wordAt b 0) && eShadow a == eShadow b

/-- Entry `e` after the entries `before`. -/
def entOk (u : List Byte) (layers : List LayerRec) (ents before : List (List Nat)) (e : List Nat) : Bool :=
  let m := Manifest.ofBytes u
  entNames m layers e && (if eKind e = 2 then entAux e else entShape e) && decide (eFirst e + eCount e ≤ m.payUnits) &&
    (before.all fun b => apart (eFirst b, eCount b) (eFirst e, eCount e) && !sameTensor b e) && entInput u ents e &&
    (eWsum e == noEntry || (decide (eWsum e < ents.length) && eRole (entAt ents (eWsum e)) == 15)) && shadowOk ents e

/-- The first failing entry. -/
def badEntry (u : List Byte) (layers : List LayerRec) (ents : List (List Nat)) : List (List Nat) → List (List Nat) → Option Nat
  | _, [] => none
  | before, e :: rest =>
    if entOk u layers ents before e then badEntry u layers ents (before ++ [e]) rest else some before.length

/-- The tensors that a layer record implies, as (role, expert). -/
def implied (m : Manifest) (r : LayerRec) : List (Nat × Nat) :=
  (if r.kvHeads = 0 then [] else [(0, 0xFF), (1, 0xFF), (2, 0xFF), (3, 0xFF)]) ++
    (if r.expertLayer then (7, 0xFF) :: (List.range m.experts).flatMap fun x => [(8, x), (9, x), (10, x)]
    else [(4, 0xFF), (5, 0xFF), (6, 0xFF)])

def allPresent (m : Manifest) (layers : List LayerRec) (ents : List (List Nat)) : Bool :=
  layers.zipIdx.all fun l => (implied m l.1).all fun t =>
    ents.any fun e => eKind e == 0 && !eShadow e && eRole e == t.1 && eLayer e == l.2 && (!expertRole t.1 || eExpert e == t.2)

/-- RESULT of an image that breaks R253: the failing entry, or 0xF_FFFF. -/
def imageFault (u : List Byte) (dir : List Byte) (bytes : Nat) (layers : List LayerRec) (ents : List (List Nat)) : Option Nat :=
  let m := Manifest.ofBytes u
  if !(headOk u bytes && pointsOk u layers.length ents) then some 0xFFFFF
  else match badEntry u layers ents [] ents with
    | some i => some i
    | none => if zeroAt dir (64 * m.dirCount) (16384 * m.dirUnits) && allPresent m layers ents then none else some 0xFFFFF

/-! ## Placement -/

/-- `count` TRUs from `first`, in runs of at most `n`. -/
def runsOf (n first count : Nat) : List (Nat × Nat) :=
  (List.range (ceilDiv count n)).map fun i => (first + i * n, min n (count - i * n))

/-- The runs of TRUs of an entry that stay together: the blocks of a weight; of a table, or of AUX contents, as many whole
blocks or TRUs as one region holds. -/
def entRuns (e : List Nat) : List (Nat × Nat) :=
  if eBlock e = 0 then runsOf granuleSlots (eFirst e) (eCount e)
  else if eKind e = 0 then runsOf (eBlock e) (eFirst e) (eCount e)
  else runsOf (granuleSlots / eBlock e * eBlock e) (eFirst e) (eCount e)

/-- Place runs one after another, none across two granules: (first TRU, count, granule, slot). -/
def placeRuns (runs : List (Nat × Nat)) : List (Nat × Nat × Nat × Nat) :=
  (runs.foldl (fun (a : Nat × Nat × List (Nat × Nat × Nat × Nat)) r =>
    let at_ := if granuleSlots < a.2.1 + r.2 then (a.1 + 1, 0) else (a.1, a.2.1)
    (at_.1, at_.2 + r.2, (r.1, r.2, at_.1, at_.2) :: a.2.2)) (0, 0, [])).2.2.reverse

def placeGranules (runs : List (Nat × Nat × Nat × Nat)) : Nat := runs.foldl (fun m r => max m (r.2.2.1 + 1)) 0

/-- The TRUs of a whole expert. -/
def Expert.trus (x : Expert) : List Nat := x.runs.flatMap fun r => List.range' r.1 r.2

/-- The experts of a directory, in the order of their first entries. -/
def expertsOf (ents : List (List Nat)) : List Expert :=
  let mine := ents.filter eExpertRes
  let names := (mine.map fun e => (eLayer e, eExpert e)).eraseDups
  names.map fun n =>
    let es := mine.filter fun e => (eLayer e, eExpert e) == n
    { layer := n.1, number := n.2, heat := es.foldl (fun h e => min h (eHeat e)) 0xFFFF
      runs := es.flatMap entRuns, frames := [], cached := false, moving := false
      lastUse := 0 }

/-! ## Tensors of loaded images -/

/-- The slot address of TRU `n` of a loaded image: a pinned one, or one of an expert in the cache. -/
def Slot.truAddr (t : Slot) (n : Nat) : Option Nat :=
  match t.pinned.find? fun r => decide (r.1 ≤ n) && decide (n < r.1 + r.2.1) with
  | some r => some (r.2.2 + (n - r.1) * 16384)
  | none => t.experts.findSome? fun x =>
    if x.cached then ((x.trus.zip x.frames).find? fun y => y.1 == n).map Prod.snd else none

/-- The directory entry of which a 64-row block begins at address `a`. -/
def Slot.entryAt (t : Slot) (a : Nat) : Option (List Nat) :=
  t.ents.find? fun e => decide (eKind e < 2) &&
    (List.range (ceilDiv (eRows e) 64)).any fun m => t.truAddr (eFirst e + m * eBlock e) == some a

/-- The same, over the images that a partition has loaded. -/
def State.tensorEntry (s : State) (p a : Nat) : Option (List Nat) :=
  s.slots.findSome? fun t => if t.loaded && t.part == p then t.entryAt a else none

end Sys2Proof.Machine
end

