-- ==== Sys2Proof/Machine/TrainOps.lean ====
section
/-! DEFINITION. The argument block of TRAIN_STEP and the size and layout of a training state (R213 to R218). -/

namespace Sys2Proof.Machine

/-- The argument block's 32 words. -/
def State.trainBlock (s : State) (j : Job) : List Nat := s.wordsAt (dArg j.words) 32

def tbTrain (b : List Nat) : Nat := bits 2 0 (wordAt b 0)
def tbSteer (b : List Nat) : Bool := bit 0 (wordAt b 0)
def tbScale (b : List Nat) : Bool := bit 1 (wordAt b 0)
def tbLora (b : List Nat) : Bool := bit 2 (wordAt b 0)
def tbInit (b : List Nat) : Bool := bit 3 (wordAt b 0)
def tbRank (b : List Nat) : Nat := bits 8 4 (wordAt b 0)
def tbTargets (b : List Nat) : Nat := bits 22 16 (wordAt b 0)
def tbFirst (b : List Nat) : Nat := bits 7 0 (wordAt b 1)
def tbLast (b : List Nat) : Nat := bits 15 8 (wordAt b 1)
def tbBucket (b : List Nat) : Nat := bits 19 16 (wordAt b 1)
def tbBatch (b : List Nat) : Nat := bits 28 20 (wordAt b 1)
def tbState (b : List Nat) : Nat := addr48 b 2
def tbInitAddr (b : List Nat) : Nat := addr48 b 4
def tbSampleAddr (b : List Nat) : Nat := addr48 b 6
def tbSamples (b : List Nat) : Nat := bits 24 0 (wordAt b 8)
def tbStartEpoch (b : List Nat) : Nat := wordAt b 9
def tbStartBatch (b : List Nat) : Nat := wordAt b 10
def tbWorkMib (b : List Nat) : Nat := wordAt b 11
def tbWorkAddr (b : List Nat) : Nat := addr48 b 12
def tbF32 (b : List Nat) (i : Nat) : F32 := BitVec.ofNat 32 (wordAt b i)

/-- Input and output sizes of a layer's tensor of a role, as its directory entry has them. -/
def Slot.shape (t : Slot) (layer role : Nat) : Option (Nat × Nat) :=
  (t.ents.find? fun e => eKind e == 0 && eLayer e == layer && eRole e == role).map fun e => (eK e, eRows e)

/-- The steering masters in order: (trained, layer) for each vector. -/
def steerRows (t : Slot) (b : List Nat) : List Bool :=
  if !(tbSteer b || tbScale b) then [] else
    (List.range t.layerRecs.length).flatMap fun l =>
      let inside := decide (tbFirst b ≤ l) && decide (l ≤ tbLast b)
      (tbSteer b && inside) :: if tbScale b then [inside] else []

/-- The target tensors in master order: layer, role, input and output sizes (R214, R215). -/
def loraTargets (t : Slot) (b : List Nat) : List (Nat × Nat × Nat × Nat) :=
  if !tbLora b then [] else
    (List.range' (tbFirst b) (tbLast b + 1 - tbFirst b)).flatMap fun l =>
      ((List.range 7).filter fun r => bit r (tbTargets b)).filterMap fun r => (t.shape l r).map fun x => (l, r, x.1, x.2)

/-- Elements of a target's A and B. -/
def loraSize (b : List Nat) (x : Nat × Nat × Nat × Nat) : Nat := tbRank b * (x.2.2.1 + x.2.2.2)

def loraElems (t : Slot) (b : List Nat) : Nat := ((loraTargets t b).map (loraSize b)).sum

def pad (m n : Nat) : Nat := ceilDiv n m * m

/-- Sizes in elements: the steering masters; all masters, padded with zero elements to whole blocks of 128. The padding stands
after the last master (log entry 95). -/
def steerElems (t : Slot) (b : List Nat) : Nat := (steerRows t b).length * t.manifest.width
def trainElems (t : Slot) (b : List Nat) : Nat := pad 128 (steerElems t b + loraElems t b)

/-- Elements that the steering region and the LoRA region of a copy hold, the padding among them. -/
def steerStored (t : Slot) (b : List Nat) : Nat := if tbLora b then steerElems t b else trainElems t b
def loraStored (t : Slot) (b : List Nat) : Nat := trainElems t b - steerStored t b

/-- Offsets in a copy: LoRA masters, first-moment codes and scales, second-moment codes and scales, end. -/
def copyOffsets (t : Slot) (b : List Nat) : List Nat :=
  let n := trainElems t b
  let o1 := pad 64 (2 * steerStored t b)
  let o2 := o1 + pad 64 (2 * loraStored t b)
  let o3 := o2 + pad 64 n
  let o4 := o3 + pad 64 (n / 128)
  let o5 := o4 + pad 64 n
  [o1, o2, o3, o4, o5, o5 + pad 64 (n / 128)]

/-- COPY_BYTES. -/
def copyBytesOf (t : Slot) (b : List Nat) : Nat := (copyOffsets t b).getD 5 0

/-- Bytes of the state that a job names, 256 where its slot is not loaded. -/
def State.copyBytes (s : State) (j : Job) : Nat :=
  match s.slot? (dSlot j.words) with
  | some t => copyBytesOf t (s.trainBlock j)
  | none => 0

end Sys2Proof.Machine
end

