-- ==== Sys2Proof/Machine/JobStart.lean ====
section
/-! DEFINITION. When a job may start: FENCE (R27), the ordering of R44, the processors (R377, R378), the parked groups of the
sequences that it names (R143). -/

namespace Sys2Proof.Machine

/-- The sequence handles that a descriptor's argument block names (R189, R159, R198, R344): a PREFILL entry with CREATE
names none. -/
def State.namedHandles (s : State) (ws : List Nat) : List Nat :=
  let n := dCount ws
  let a := dArg ws
  let every (step : Nat) : List Nat := (List.range n).map fun i => s.readN (a + step * i) 4
  match dOpcode ws with
  | 0x03 => ((List.range n).filter fun i => !bit 0 (s.readN (a + 64 * i + 4) 4)).map fun i => s.readN (a + 64 * i) 4
  | 0x04 | 0x05 => every 64
  | 0x06 | 0x0A => every 16
  | 0x07 => ((List.range n).filter fun i => !bit 0 (s.readN (a + 32 * i + 4) 4)).map fun i => s.readN (a + 32 * i) 4
  | _ => []

/-- Indices of the resident sequences that a job of partition `p` names. -/
def State.namedSeqs (s : State) (p : Nat) (ws : List Nat) : List Nat :=
  (s.namedHandles ws).filterMap fun h => (s.resident p h).map Seq.idx

/-- The sequences of a job: those that it names, and those that it has made. -/
def State.jobSeqs (s : State) (j : Job) : List Nat :=
  s.namedSeqs j.part j.words ++ match j.ext with
    | .serve ents _ _ _ => if servingOp j.opcode then ents.map Ent.seqIdx else []
    | _ => []

/-- The sequences that a tile list's records name: those that they append to, and those whose draft entries they read (R141,
R165). -/
def recordSeqs (records : List (List Nat)) : List Nat :=
  records.flatMap fun t =>
    (if tKind t = 1 && tWMode t = 1 then [bits 30 21 (tOutAddr t)] else []) ++
      if tKind t = 0 && ((tProgram t).any fun b => b % 64 == 0x10) && decide (0 < bits 34 28 (tParam t)) then
        [bits 50 41 (tParam t)] else []

/-- The sequences of partition `p` that the records of a tile list's descriptor name. -/
def State.tileSeqs (s : State) (p : Nat) (ws : List Nat) : List Nat :=
  if dOpcode ws != 0x30 then [] else
    (recordSeqs ((List.range (wordAt ws 3)).map fun i => s.wordsAt (addr48 ws 4 + 128 * i) 32)).filter fun i =>
      (s.seq? i).any fun q => q.part == p

/-- The sequences whose groups stay in units for a job (R143). -/
def State.heldSeqs (s : State) (j : Job) : List Nat :=
  s.jobSeqs j ++ match j.ext with
    | .tiles records _ _ _ => recordSeqs records
    | _ => s.tileSeqs j.part j.words

/-- The variants that a job uses: those of its sequences, and of those it is yet to create (R201). -/
def State.usedVariants (s : State) (j : Job) : List Nat :=
  let asked := if j.opcode != 0x03 then [] else ((List.range (dCount j.words)).map fun i =>
      s.readN (dArg j.words + 64 * i + 4) 4).filterMap fun w =>
    if bit 0 w && bit 20 w then some (bits 19 8 w) else none
  asked ++ ((s.jobSeqs j).filterMap fun i => (s.seq? i).bind Seq.variant)

/-- The variants that a VARIANT_LOAD changes. -/
def State.loadedBy (s : State) (j : Job) : List Nat :=
  if j.opcode == 0x0B then (List.range (dCount j.words)).map fun i => bits 11 0 (s.readN (dArg j.words + 16 * i) 4) else []

def slotOp (op : Nat) : Bool := op == 0x01 || op == 0x02

/-- Opcodes whose SLOT field names a model slot, beside LOAD_MODEL and UNLOAD_MODEL. -/
def usesSlot (op : Nat) : Bool := [0x03, 0x04, 0x05, 0x08, 0x09, 0x0A, 0x0B, 0x0C].contains op

/-- TRAIN_STEP jobs whose training states overlap (R215, R227). -/
def State.trainRegion (s : State) (j : Job) : Option (Nat × Nat) :=
  if j.opcode != 0x0C then none else
    let st := tbState (s.trainBlock j)
    some (st, st + 256 + 2 * s.copyBytes j)

def State.statesOverlap (s : State) (j k : Job) : Bool :=
  match s.trainRegion j, s.trainRegion k with
  | some a, some b => decide (a.1 < b.2) && decide (b.1 < a.2)
  | _, _ => false

/-- What one partition's jobs share: sequences, variants, training states, and the order of control jobs; and a slot that an
UNLOAD_MODEL is to take away: a job taken later finds it gone (R257). -/
def State.blocksOwn (s : State) (k j : Job) : Bool :=
  k.part == j.part &&
    ((s.namedSeqs j.part j.words).any (fun q => (s.jobSeqs k).contains q) ||
      (s.loadedBy k).any (fun v => (s.usedVariants j).contains v) ||
      (k.opcode == 0x02 && usesSlot j.opcode && dSlot j.words == dSlot k.words) || s.statesOverlap j k ||
      (controlOp j.opcode && controlOp k.opcode))

/-- Whether job `k`, taken earlier, holds back job `j` (R44, R201, R227, R365). Model slots and flash blocks are the
device's (R256, R293): their jobs run in take order across partitions too. -/
def State.blocks (s : State) (k j : Job) : Bool :=
  !k.finished &&
    ((slotOp j.opcode && slotOp k.opcode && dSlot j.words == dSlot k.words) || s.flashOverlap j.words k.words ||
      s.blocksOwn k j)

def needsCp2 (op : Nat) : Bool := [0x01, 0x06, 0x0C, 0x20, 0x21, 0x22, 0x23].contains op

def State.cpRunning (s : State) (n : Nat) : Bool := (s.cp n).state == .running

/-- Whether a QUEUED job may enter RUNNING. -/
def State.startable (s : State) (j : Job) : Bool :=
  let before := s.jobs.list.filter fun k => decide (k.uid < j.uid)
  j.state == .queued && !j.finished && s.cpRunning j.cp && (!needsCp2 j.opcode || s.cpRunning 2) &&
    !(j.fence && before.any fun k => k.qp == j.qp) &&
    !(before.any fun k => s.blocks k j) &&
    !(j.cp == 3 && before.any fun k => k.cp == 3 && !k.finished)

/-- Move the parked groups of the sequences back into units for a job, which takes STAGING_USED with staging units (R142,
R143); none when no unit is free. -/
def State.unparkSeqs (s : State) (p uid : Nat) (seqs : List Nat) : Option State :=
  ((s.kv p).groups.filter fun g => g.tail.isSome && seqs.contains g.seq).foldl
    (fun o g => o.bind fun s => (s.unpark p g).map fun r => if r.2 then r.1.jobQuality uid qStaging else r.1) (some s)

/-- The first of `n` neighbouring free blocks of 16 counters. -/
def State.freeBlocks (s : State) (n : Nat) : Option Nat :=
  (List.range (65 - n)).find? fun b => (List.range n).all fun i => !s.ctrBlocks.contains (b + i)

/-- Allocate a job's counters, cleared to 0 (R104). -/
def State.takeBlocks (s : State) (uid b n : Nat) : State :=
  let s := { s with
    ctrBlocks := (List.range n).map (fun i => b + i) ++ s.ctrBlocks
    counters := s.counters.filter fun x => decide (x.1 < 16 * b) || decide (16 * (b + n) ≤ x.1) }
  s.modJob uid fun j => { j with ctrs := some (16 * b, n) }

/-- Opcodes that Kadon expands into tile tasks itself. -/
def expands (op : Nat) : Bool := servingOp op || op == 0x0C

/-- A job that Kadon expands receives one block of counters (log entry 82); none while no block is free. -/
def State.giveCounters (s : State) (j : Job) : Option State :=
  if expands j.opcode && j.ctrs.isNone then (s.freeBlocks 1).map fun b => s.takeBlocks j.uid b 1 else some s

/-- Enter RUNNING with the partition's epoch (R153). -/
def State.run (s : State) (uid : Nat) : State :=
  s.modJob uid fun j => { j with state := .running, unitWait := none, epoch := (s.kv j.part).epoch }

/-- The job of one of the opcodes, as its command starts it: QUEUED, startable, its groups in units. -/
def State.starting (s : State) (uid op : Nat) : Option (Job × State) :=
  match s.job? uid with
  | none => none
  | some j =>
    if j.opcode == op && s.startable j then
      match (s.giveCounters j).bind fun s => s.unparkSeqs j.part uid (s.heldSeqs j) with
      | none => none
      | some s => some (j, s.run uid)
    else none

end Sys2Proof.Machine
end

