-- ==== Sys2Proof/Machine/Doorbell.lean ====
section
/-! DEFINITION. Rings and doorbells: RING_DOORBELL, PUSH_DOORBELL, TAKE_DESCRIPTOR, WRITE_COMPLETION, MODERATION_TIMEOUT,
HOST_ACCESS_RETURNS, QP_ENABLE and QP_DISABLE (R16 to R46, R438, R459). -/

namespace Sys2Proof.Machine

abbrev Res := Host.Outcome State Fault Refusal

/-! ## BAR2 (R20, R21, R323) -/

/-- Where a BAR2 offset lies: a doorbell or push slot of a partition's page, or neither. -/
inductive Bar2 where
  | ring (part qp : Nat)
  | push (part qp : Nat)
  | empty
  deriving DecidableEq, Repr

def bar2At (fn : Fn) (offset : Nat) : Bar2 :=
  let ringIn (p o : Nat) : Bar2 := if o < 0x200 then .ring p (o / 8) else .empty
  match fn with
  | .pf =>
    if offset < 0x8000 then ringIn (offset / 0x1000) (offset % 0x1000)
    else if offset < 0x10000 then .push (offset / 0x1000 - 8) (offset % 0x1000 / 64)
    else .empty
  | .vf v =>
    if offset < 0x1000 then ringIn v offset
    else if offset < 0x2000 then .push v (offset % 0x1000 / 64)
    else .empty

/-- The function exists: a VF while VF Enable is set and NumVFs is above it (R322). -/
def State.hasFn (s : State) : Fn → Bool
  | .pf => true
  | .vf v => s.link.vfEnable && decide (v < s.link.numVfs)

/-- A configuration request to a function: until the function is ready it completes with retry status and does nothing (R330). -/
def State.configure (s : State) (fn : Fn) (f : State → State) : State :=
  if !(s.link.up && s.hasFn fn) then s
  else if !s.link.fnReady then { s with out := { s.out with cfgRetry := true } }
  else f { s with out := { s.out with cfgRetry := false } }

/-- Whether a host access through a function reaches the device: the link is up, the function ready and in D0, and it exists.
In LINK_LOST the host still reaches the device once the link is back (R331). -/
def State.reaches (s : State) (fn : Fn) : Bool :=
  s.link.up && s.link.fnReady && !s.link.d3hot && s.hasFn fn

/-- A dropped write to a slot: counted and reported (R21). -/
def State.dropWrite (s : State) (qp : Nat) : State :=
  let s := s.modQp qp fun q => { q with drops := satInc top32 q.drops 1 }
  s.raise 0x50 1 0x18 (some (s.qp qp).part) 0 qp

/-- The checks of R21 that a ring write and a push share. -/
def State.slotRefused (s : State) (fn : Fn) (part qp : Nat) : Bool :=
  !(fn == .pf || fn == .vf part) || (s.qp qp).part != part || !(s.qp qp).enabled ||
    (s.conf part && !(s.ownFn part == .vf part && s.link.ide.getD part false)) ||
    (s.replay.state == .running && s.replay.part == part)

def ringLen (log : Nat) : Nat := 2 ^ log

/-- The tail that the latest ring announcement gives, or SQ_HEAD. -/
def Qp.announced (q : Qp) : Nat :=
  q.anns.foldl (fun t a => match a with
    | .ring u _ _ => u
    | .push _ _ _ => t) q.sqHead

/-- Apply a ring doorbell's valid fields (R23; log entry 5). -/
def State.applyRing (s : State) (fn : Fn) (qp : Nat) (v : Nat) : State :=
  let q := s.qp qp
  let tail := bits 15 0 v
  let head := bits 47 32 v
  let sv := bit 16 v
  let cv := bit 48 v
  if (sv && decide (ringLen q.sqLog ≤ tail)) || (cv && decide (ringLen q.cqLog ≤ head)) then s.dropWrite qp else
    let s := s.modQp qp fun q =>
      let q := if cv then { q with cqHead := head } else q
      if sv then
        { q with sqTail := tail
                 anns := if tail == q.announced then q.anns else q.anns ++ [.ring tail s.now fn] }
      else q
    s.tracePart 0x02 q.part qp [v % 2 ^ 32, v / 2 ^ 32]

/-- Any write to BAR2: a ring write is 8 aligned bytes, a push 64 aligned bytes. -/
def State.bar2Write (s : State) (fn : Fn) (offset size : Nat) (isPush : Bool) (v : Nat) (ws : List Nat) : State :=
  if !(s.reaches fn && s.dev.ready) then s else
    match bar2At fn offset with
    | .empty => s.raise 0x50 1 0x18 none 0 0
    | .ring p n =>
      if s.slotRefused fn p n || size != 8 || offset % 8 != 0 || isPush then s.dropWrite n else s.applyRing fn n v
    | .push p n =>
      let untaken := ((s.qp n).anns.filter fun a => match a with
        | .push _ _ _ => true
        | .ring _ _ _ => false).length
      if s.slotRefused fn p n || size != 64 || offset % 64 != 0 || !isPush || decide (4 ≤ untaken) then s.dropWrite n
      else s.modQp n fun q => { q with anns := q.anns ++ [.push ws s.now fn] }

/-- A read of BAR2 through any function returns 0 (R21). It has no row in the table and changes nothing. -/
def State.bar2Read (_ : State) (_ : Fn) (_ _ : Nat) : Nat := 0

def execRingDoorbell (fn : Fn) (offset size : Nat) (value : BitVec 64) (s : State) : Res :=
  .next (s.bar2Write fn offset size false value.toNat [])

def execPushDoorbell (fn : Fn) (offset size : Nat) (desc : BitVec 512) (s : State) : Res :=
  .next (s.bar2Write fn offset size true 0 (descWords desc))

/-! ## Taking descriptors (R30, R37, R44, R45, R112 rule 1) -/

/-- A descriptor at the head of a queue pair: its words, announcement time, function, and whether it was pushed. -/
structure Head where
  words : List Nat
  ts : Nat
  fn : Fn
  pushed : Bool
  deriving DecidableEq, Repr

/-- An EVENT record that ends a replay: an FW_UPDATE switch or the map-out of a DRAM channel (R386; codes: log entry 25). -/
def endsReplay (w : List Nat) : Bool :=
  bits 7 0 (wordAt w 0) == 0x0A &&
    (wordAt w 5 == 3 || (wordAt w 5 == 2 && decide (0x20 ≤ wordAt w 4) && decide (wordAt w 4 < 0x38)))

/-- What a running replay meets next in its trace: a DESCRIPTOR record (queue pair, words, whether it was pushed, the
position after it), an EVENT that ends it, or its end. -/
inductive ReplayNext where
  | take (qp : Nat) (words : List Nat) (pushed : Bool) (pos : Nat)
  | event
  | done
  deriving DecidableEq, Repr

def State.replayNext (s : State) : Nat → Nat → ReplayNext
  | 0, _ => .done
  | fuel + 1, pos =>
    if s.replay.units ≤ pos then .done else
      let w := s.wordsAt (s.replay.addr + 32 * pos) 24
      let n := bits 9 8 (wordAt w 0) + 1
      if endsReplay w then .event
      else if bits 7 0 (wordAt w 0) == 0x03 && bits 12 10 (wordAt w 0) == s.replay.part then
        .take (bits 21 16 (wordAt w 0)) (w.drop 8) (bit 0 (wordAt w 4)) (pos + n)
      else State.replayNext s fuel (pos + n)

def State.replayHead (s : State) : Option (Nat × List Nat × Bool × Nat) :=
  if s.replay.state == .running && !s.replay.stopping then
    match s.replayNext (s.replay.units + 1) s.replay.pos with
    | .take n ws pushed pos => some (n, ws, pushed, pos)
    | _ => none
  else none

/-- A replay with no job left ends: at STOP or at an ending EVENT as STOPPED, at the end of its trace as DONE. -/
def State.replaySettle (s : State) : State :=
  if s.replay.state != .running || s.jobs.list.any fun j => j.part == s.replay.part then s
  else if s.replay.stopping then { s with replay := { s.replay with state := .stopped } }
  else match s.replayNext (s.replay.units + 1) s.replay.pos with
    | .take _ _ _ _ => s
    | .event => { s with replay := { s.replay with state := .stopped } }
    | .done => { s with replay := { s.replay with state := .done } }

/-- The head descriptor of a queue pair, if the device may take one from it. -/
def State.head? (s : State) (n : Nat) : Option Head :=
  let q := s.qp n
  let mine := s.jobs.list.filter fun j => j.qp == n
  let held := s.trace.stall && decide (2048 < s.trace.store.length) && s.traced q.part
  if !q.enabled || s.dev.noTake || !s.dev.ready || held || decide (64 < q.waiting.length) || decide (256 ≤ mine.length) ||
      decide (4096 ≤ s.jobs.list.length) then none
  else if s.replay.state == .running && s.replay.part == q.part then
    match s.replayHead with
    | some (m, ws, pushed, _) => if m == n then some { words := ws, ts := s.now, fn := .pf, pushed := pushed } else none
    | none => none
  else match q.anns with
  | [] => none
  | .push ws ts fn :: _ => some { words := ws, ts := ts, fn := fn, pushed := true }
  | .ring _ ts fn :: _ =>
    if s.hostOk q.part then
      some { words := s.wordsAt (hostBase + q.sqBase + 64 * q.sqHead) 16, ts := ts, fn := fn, pushed := false }
    else none

/-- The queue pair to take from: highest priority of its head, then round robin (R29, R44). -/
def State.takeFrom (s : State) (among : List Nat) : Option (Nat × Head) :=
  let heads := among.filterMap fun n => (s.head? n).map fun h => (n, h)
  match maxBy (fun x => dPrio x.2.words) heads with
  | none => none
  | some (_, top) =>
    let p := dPrio top.words
    (cyclicFind 64 (s.jobs.rr.getD p 63) fun n => heads.any fun x => x.1 == n && dPrio x.2.words == p).bind fun n =>
      heads.find? fun x => x.1 == n

/-- The head leaves its queue; under replay a ring descriptor advances SQ_HEAD as it did when it was captured (DEDUCED: the
COMPLETION records compared hold SQ_HEAD). -/
def State.popHead (s : State) (n : Nat) : State :=
  if s.replay.state == .running && s.replay.part == (s.qp n).part then
    match s.replayHead with
    | some (_, _, pushed, pos) =>
      let s := { s with replay := { s.replay with pos := pos } }
      if pushed then s else s.modQp n fun q => { q with sqHead := (q.sqHead + 1) % ringLen q.sqLog }
    | none => s
  else s.modQp n fun q => match q.anns with
    | .push _ _ _ :: rest => { q with anns := rest }
    | .ring u ts fn :: rest =>
      let h := (q.sqHead + 1) % ringLen q.sqLog
      { q with sqHead := h, anns := if h == u then rest else .ring u ts fn :: rest }
    | [] => q

def needsEngines (op : Nat) : Bool := servingOp op || op == 0x0C || op == 0x30

/-- Jobs that work on objects or buffers in DRAM: in a partition without a granule they end with RESOURCE_EXHAUSTED
(R278 step 5; DEDUCED: when they are taken). -/
def needsDram (ws : List Nat) : Bool :=
  let op := dOpcode ws
  decide (op ≤ 0x0E) || ((op == 0x20 || op == 0x21) && decide (dOut ws < hostBase)) ||
    ((op == 0x30 || op == 0x31) && (decide (dArg ws < hostBase) || (op == 0x31 && decide (dOut ws < hostBase))))

/-- The status of the first check of R30 that fails. -/
def State.validate (s : State) (qp : Nat) (fn : Fn) (ws : List Nat) : Option Nat :=
  let p := (s.qp qp).part
  let op := dOpcode ws
  if !descWellFormed ws then some stInvalid
  else if dPart ws != p then some stDenied
  else if pfOnly op && fn != .pf then some stDenied
  else if (dExpert ws && !expertAllowed op) || (!dExpert ws && !basicAllowed op) then some stInvalid
  else if dExpert ws && !(s.part p).expert then some stDenied
  else if s.jobs.list.any (fun j => j.part == p && j.jobId == dJobId ws) then some stInvalid
  else if !bodyInRange ws || (op == 0x41 && (wordAt ws 3 == 0 || !(s.part (wordAt ws 3)).valid)) then some stInvalid
  else if needsEngines op && ((s.part p).engines.all fun e => (s.eng e).mappedOut) then some stExhausted
  else if (s.part p).granules.isEmpty && needsDram ws then some stExhausted
  else none

/-- The processor that takes the next job: alternately CP0 and CP1, or the one that runs (R112, R378). -/
def State.nextCp (s : State) : Nat := if s.cpRunning s.jobs.cpTurn then s.jobs.cpTurn else 1 - s.jobs.cpTurn

/-- Under replay, a job whose capture ended CANCELLED or ABORTED is cancelled when taken (R386): the COMPLETION record of
its JOB_ID that ends it says so. -/
def State.replayCancelled (s : State) (p uid jobId : Nat) : Bool :=
  s.replay.state == .running && s.replay.part == p &&
    (s.replayFinal (s.replayOrigin uid) jobId).any fun x =>
      bits 15 0 (wordAt x.2 2) == stCancelled || bit 21 (wordAt x.2 2)

/-- Note the DESCRIPTOR record, of three units, that a replayed job comes from. -/
def State.noteOrigin (s : State) (uid : Nat) : State :=
  let seq := s.readN (s.replay.addr + 32 * (s.replay.pos - 3) + 4) 4
  { s with replay := { s.replay with origin := (uid, seq) :: s.replay.origin } }

def reproducible (op : Nat) : Bool := [0x03, 0x04, 0x05, 0x01, 0x08].contains op

/-- Engines of a partition that are not mapped out, ascending. -/
def State.liveEngines (s : State) (p : Nat) : List Nat :=
  (List.range 32).filter fun e => (s.part p).engines.contains e && !(s.eng e).mappedOut

/-- The pool of a job of an opcode (R194); TILE_LIST names its engines itself. -/
def State.poolOf (s : State) (p op : Nat) : List Nat :=
  let live := s.liveEngines p
  let n := (s.part p).prefillCount
  let pool := if op == 0x03 || op == 0x0C then live.take n else live.drop n
  if pool.isEmpty then live else pool

/-- Create the job of a valid descriptor. -/
def State.acceptDesc (s : State) (qp uid : Nat) (h : Head) : State :=
  let ws := h.words
  let p := (s.qp qp).part
  let op := dOpcode ws
  let sp := uncancellable op
  let cp := if sp then 3 else s.nextCp
  let replayed := s.replay.state == .running && s.replay.part == p
  let j : Job :=
    { uid := uid, qp := qp, part := p, jobId := dJobId ws, opcode := op, expert := dExpert ws, prio := dPrio ws
      notify := dNotify ws, fence := dFence ws, words := ws, startTs := h.ts
      deadlineUs := if replayed then 0 else dDeadline ws
      policy := if dPolicy ws = 0 then (s.part p).policy else dPolicy ws
      cp := cp, takenBy := cp, pool := s.poolOf p op, state := .queued, ending := none
      epoch := 0, quality := 0, lateRaised := false, status := 0, finished := false, silent := false, ctrs := none
      window := none, unitWait := none, redo := [], partsOn := [], areas := [], shadowed := [], ext := .none }
  let s := { s with jobs :=
    { s.jobs with list := s.jobs.list ++ [j], cpTurn := if sp then s.jobs.cpTurn else 1 - s.nextCp } }
  let s := (s.unparkSeqs p uid (s.namedSeqs p ws ++ s.tileSeqs p ws)).getD s
  let s := if replayed then s.noteOrigin uid else s
  if s.replayCancelled p uid j.jobId then
    let s := if reproducible op then s else { s with replay := { s.replay with uncertain := true } }
    match s.job? uid with
    | some j => (s.cancelEffects j).finishJob { j with state := .cancelling, ending := some .cancel } j.progress
    | none => s
  else s

/-- A descriptor as the trace shows it: the passwords of a FLASH_PROTECT read 0 there (R307; DESIGN CHOICE, log entry 110: the
spec keeps them out of any trace and names nothing in their place). -/
def tracedWords (ws : List Nat) : List Nat :=
  if dOpcode ws == 0x23 then ws.zipIdx.map fun x => if 6 ≤ x.2 ∧ x.2 ≤ 9 then 0 else x.1 else ws

/-- Take the head of one queue pair: trace it, validate it, and make it a job or a record. In DEVICE_FAULT and in secure
halt every descriptor taken completes with DEVICE_FAULT (R279, R379). -/
def State.takeHead (s : State) (n : Nat) (h : Head) : State :=
  let p := (s.qp n).part
  let uid := s.jobs.nextUid
  let s := s.popHead n
  let prio := dPrio h.words
  let s := { s with jobs := { s.jobs with nextUid := uid + 1, rr := s.jobs.rr.set prio n } }
  let s := s.tracePart 0x03 p n ([b2n h.pushed, 0, 0, 0] ++ tracedWords h.words)
  if s.dev.fault || s.dev.secureHalt then s.refuseDesc n uid h.ts stFault h.words else
    match s.validate n h.fn h.words with
    | some st => s.refuseDesc n uid h.ts st h.words
    | none => s.acceptDesc n uid h

/-- Whether a processor can take jobs: CP0 or CP1 runs, or the device answers DEVICE_FAULT for all. -/
def State.canTake (s : State) : Bool := s.cpRunning 0 || s.cpRunning 1 || s.dev.fault

def State.takeAmong (s : State) (among : List Nat) : State :=
  if s.canTake then
    match s.takeFrom among with
    | some (n, h) => s.takeHead n h
    | none => s
  else s

def execTakeDescriptor (s : State) : Res := .next (s.takeAmong (List.range 64)).replaySettle

/-! ## Completion records (R19, R33, R46) -/

/-- A control job's record waits until its target's record is written (R40). -/
def State.compHeld (s : State) (c : Comp) : Bool :=
  match s.job? c.uid with
  | none => false
  | some j =>
    match j.ext with
    | .control t =>
      (match s.job? t with
        | some t => t.state == .suspending || t.state == .cancelling || t.finished
        | none => false) || s.qps.any fun q => q.waiting.any fun w => w.uid == t
    | _ => false

def Comp.words (c : Comp) (sqHead qp : Nat) (phase : Bool) : List Nat :=
  [c.jobId, c.status + 2 ^ 16 * c.quality, sqHead + 2 ^ 16 * c.opcode + 2 ^ 24 * qp, c.startTs % 2 ^ 32,
    c.startTs / 2 ^ 32 % 2 ^ 32, c.endTs % 2 ^ 32, c.endTs / 2 ^ 32 % 2 ^ 32, c.result % 2 ^ 31 + 2 ^ 31 * b2n phase]

/-- The next completion slot is free (R19). -/
def Qp.room (q : Qp) : Bool := (q.cqTail + 1) % ringLen q.cqLog != q.cqHead

/-- Raise the vector of a queue pair and begin a new moderation interval. -/
def State.raiseVector (s : State) (n : Nat) : State :=
  let s := s.modQp n fun q => { q with unsignalled := 0, unsignalledSince := none }
  s.raiseMsix (s.ownFn (s.qp n).part) (s.qp n).vector

/-- Write one waiting record. -/
def State.writeComp (s : State) (n : Nat) : State :=
  let q := s.qp n
  match q.waiting.find? fun c => !s.compHeld c with
  | none => s
  | some c =>
    if !(q.enabled && q.room && s.hostOk q.part) then s else
      let ws := c.words q.sqHead n q.cqPhase
      let s := s.storeWords (hostBase + q.cqBase + 32 * q.cqTail) ws
      let last := q.cqTail + 1 == ringLen q.cqLog
      let s := s.modQp n fun q =>
        { q with
          cqTail := if last then 0 else q.cqTail + 1, cqPhase := if last then !q.cqPhase else q.cqPhase
          waiting := q.waiting.erase c, unsignalled := q.unsignalled + 1
          unsignalledSince := if q.unsignalledSince.isNone then some s.now else q.unsignalledSince }
      let s := s.tracePart 0x09 q.part n ([0, 0, 0, 0] ++ ws)
      let s := s.replayCompare q.part [0x09, c.jobId] [wordAt ws 1, wordAt ws 2, wordAt ws 7]
      let s := if c.final then
          match s.job? c.uid with
          | some j => s.retireJob j
          | none => s
        else s
      if c.notify || raisesAtOnce c.status || q.modTime == 0 || decide (q.modCount ≤ (s.qp n).unsignalled) then
        s.raiseVector n
      else s

def execWriteCompletion (qp : Nat) (s : State) : Res := .next (s.writeComp qp).replaySettle

def execModerationTimeout (qp : Nat) (s : State) : Res :=
  .next (match (s.qp qp).unsignalledSince with
    | some t => if (s.qp qp).modTime ≠ 0 ∧ t + (s.qp qp).modTime * usTicks ≤ s.now then s.raiseVector qp else s
    | none => s)

/-- When a function reaches host memory again: the waiting records are written in ring order and the announced
descriptors fetched, as far as rings and limits allow (R459). -/
def execHostAccessReturns (fn : Fn) (s : State) : Res :=
  let mine := (List.range 64).filter fun n => s.ownFn (s.qp n).part == fn && s.hostOk (s.qp n).part
  let s := mine.foldl (fun s n => (List.range (s.qp n).waiting.length).foldl (fun s _ => s.writeComp n) s) s
  let untaken := (mine.map fun n => (s.qp n).anns.length * ringLen (s.qp n).sqLog).sum
  .next ((List.range untaken).foldl (fun s _ => s.takeAmong mine) s)

/-! ## Enabling and disabling (R17, R325, R438) -/

/-- Whether a function's writes to a queue pair's registers take effect (R323). -/
def State.qpWritable (s : State) (fn : Fn) (n : Nat) : Bool :=
  s.reaches fn && decide (n < 64) && (match fn with
    | .pf => true
    | .vf v => (s.qp n).part == v)

/-- The cause that refuses an enable, in R438's order: 3 NOT_READY, 1 VECTOR, 2 BASE. -/
def State.enableRefusal (s : State) (n : Nat) : Nat :=
  let q := s.qp n
  let top := if s.ownFn q.part == .pf then 62 else 7
  if !s.dev.ready then 3
  else if top < q.vector then 1
  else if 0xC00000000000 ≤ q.sqBase || 0xC00000000000 ≤ q.cqBase then 2
  else 0

def State.enableQp (s : State) (n : Nat) : State :=
  let r := s.enableRefusal n
  if s.link.lost then s
  else if r = 0 then
    s.modQp n fun q =>
      { q with enabled := true, refuse := 0, sqTail := 0, sqHead := 0, cqTail := 0, cqHead := 0, cqPhase := true
               anns := [], unsignalled := 0, unsignalledSince := none }
  else s.modQp n fun q => { q with refuse := r }

def execQpEnable (fn : Fn) (qp : Nat) (s : State) : Res :=
  .next (if s.qpWritable fn qp && !(s.qp qp).enabled then s.enableQp qp else s)

def execQpDisable (fn : Fn) (qp : Nat) (s : State) : Res :=
  .next (if s.qpWritable fn qp && (s.qp qp).enabled then s.disableQp qp false else s)

end Sys2Proof.Machine
end

