-- ==== Sys2Proof/Machine/FlashCtl.lean ====
section
/-! DEFINITION. The flash controller: FLASH_READ, FLASH_PROGRAM, FLASH_ERASE, FLASH_PROTECT, FLASH_OPERATION_DONE, GAP_MOVE,
ERASE_SUSPEND, ERASE_RESUME, ERASE_WINDOW_END, ERASE_STARVED and FLASH_MOUNT (R288 to R310), and what power loss leaves. A
read or a program has one page at the dies at a time (log entry 28); an erase has all its blocks there at once. -/

namespace Sys2Proof.Machine

/-! ## The dies' queues -/

/-- An erase that has come to the head of a die starts: its ERASE_INTENT is programmed first (R303). A worn die begins none. -/
def State.pumpDie (s : State) (die : Nat) : State :=
  match (s.die die).ops with
  | o :: rest =>
    if o.kind == .erase && o.started.isNone && !(s.die die).worn && !s.flash.powerLost then
      (s.journalNow (.eraseIntent die o.block)).modDie die fun d => { d with ops := { o with started := some s.now } :: rest }
    else s
  | [] => s

def State.queueOp (s : State) (die : Nat) (o : FOp) : State :=
  (s.modDie die fun d => { d with ops := d.ops ++ [o] }).pumpDie die

/-- The current operation of a die leaves it. -/
def State.endOp (s : State) (die : Nat) (o : FOp) : State :=
  (s.modDie die fun d => { d with ops := d.ops.erase o }).pumpDie die

/-! ## Starting flash jobs -/

/-- Which volume a flash job works in, and how many pages of it (raw: of the block) there are. -/
structure FTarget where
  vol : Volume
  raw : Bool
  limit : Nat
  deriving DecidableEq, Repr

/-- The target, or the status that refuses it (R292, R310, R351, R362). -/
def State.flashTarget (s : State) (j : Job) : FTarget ⊕ Nat :=
  let ws := j.words
  if j.expert then
    match (s.die (fDie ws)).slotOf (wordAt ws 4) with
    | none => .inr stDenied
    | some t => match s.volumeOfSlot t with
      | none => .inr stDenied
      | some v => if v.owner == j.part && !v.sealed then .inl { vol := v, raw := true, limit := if v.fast then 342 else 1024 }
        else .inr stDenied
  else
    match s.volume? (wordAt ws 3) with
    | none => .inr stDenied
    | some v => if v.owner == j.part && !v.sealed then .inl { vol := v, raw := false, limit := v.pages } else .inr stDenied

/-- The first page of a read or program: in the volume, or in the raw block. -/
def FTarget.page0 (t : FTarget) (ws : List Nat) : Nat := if t.raw then fFirst ws else fPage0 ws

/-- Where page `i` of a job lies. -/
def State.jobPage (s : State) (t : FTarget) (ws : List Nat) (i : Nat) : PageLoc :=
  if t.raw then
    let die := fDie ws
    let slot := ((s.die die).slotOf (wordAt ws 4)).getD 0
    { die := die, slot := slot, block := wordAt ws 4, page := fFirst ws + i, band := t.vol.bandOf slot die, v := 0 }
  else s.pageLoc t.vol (fPage0 ws + i)

def State.lockedSlots (s : State) (ws : List Nat) : Bool := (s.guardSlots ws).any fun x => s.slotLocked x.2

/-- Whether a program or erase touches a block that backs a loaded slot. -/
def State.jobBacks (s : State) (t : FTarget) (ws : List Nat) : Bool :=
  if t.raw then
    let k := t.vol.bandOf (((s.die (fDie ws)).slotOf (wordAt ws 4)).getD 0) (fDie ws)
    s.backs t.vol.num (16 * k) (16 * k + 15)
  else if dOpcode ws == 0x22 then s.backs t.vol.num (wordAt ws 4) (wordAt ws 4 + 15)
  else s.backs t.vol.num (fPage0 ws / 1024) ((fPage0 ws + fCount ws - 1) / 1024)

/-- The checks of R296 to R298 and R310 before a job begins: the status that ends it, or none. -/
def State.flashCheck (s : State) (t : FTarget) (j : Job) : Option Nat :=
  let ws := j.words
  let op := j.opcode
  let n := fCount ws
  let first := t.page0 ws
  let l := s.jobPage t ws 0
  if op == 0x22 then
    if !t.raw && (wordAt ws 4 % 16 != 0 || decide (16 * t.vol.bands ≤ wordAt ws 4)) then some stInvalid
    else if s.lockedSlots ws || s.jobBacks t ws then some stProtected
    else if (s.flashSlots ws).any fun x => (s.die x.1).worn then some stFault
    else none
  else if t.limit < first + n || (op == 0x21 && !t.raw && decide (1024 < fFirst ws + n)) then some stInvalid
  else if op == 0x20 then none
  else if s.isTorn t.vol.num l.band then some stInvalid
  else if t.raw && l.page != ((s.die l.die).block l.block).pages then some stInvalid
  else if !t.raw && l.v != s.writePtr t.vol.num l.band then some stInvalid
  else if s.lockedSlots ws || s.jobBacks t ws then some stProtected
  else none

/-- Give the dies the job's next page, or end the job. -/
def State.issuePage (s : State) (uid : Nat) : State :=
  match s.job? uid with
  | none => s
  | some j =>
    match j.ext, s.flashTarget j with
    | .flash left done, .inl t =>
      let l := s.jobPage t j.words done
      let buf := dOut j.words + pageBytes * done
      if left = 0 then s.finishJob j done
      else if decide (hostBase ≤ buf) && !s.hostOk j.part then s.failJob uid stLink done
      else if j.opcode == 0x20 then
        if s.isTorn t.vol.num l.band then s.failJob uid stData done
        else s.queueOp l.die
          { kind := .read, uid := uid, slot := l.slot, block := l.block, page := l.page, band := (t.vol.num, l.band)
            wp := none, fast := t.vol.fast, data := [], suspended := false, started := none, windowFrom := none
            starved := 0 }
      else if (s.die l.die).worn then s.failJob uid stFault done
      else if !(s.badWords buf pageBytes).isEmpty then (s.reportWords (s.badWords buf pageBytes)).failJob uid stData done
      else
        let bs := s.bytesAt buf pageBytes
        s.queueOp l.die
          { kind := .program, uid := uid, slot := l.slot, block := l.block, page := l.page, band := (t.vol.num, l.band)
            wp := if t.raw then none else some (l.v + 1), fast := t.vol.fast
            data := if t.raw then bs else s.sealPage t.vol (fPage0 j.words + done) bs, suspended := false, started := none
            windowFrom := none, starved := 0 }
    | .flash _ done, .inr st => s.failJob uid st done
    | _, _ => s

/-- Begin or go on with a read or a program. -/
def State.startPages (s : State) (j : Job) : State :=
  match j.ext with
  | .flash _ _ => s.issuePage j.uid
  | _ =>
    match s.flashTarget j with
    | .inr st => s.failJob j.uid st j.progress
    | .inl t =>
      match s.flashCheck t j with
      | some st => s.failJob j.uid st j.progress
      | none =>
        if !s.inDramHost j.part (dOut j.words) (pageBytes * fCount j.words) then s.outsideJob j.uid
        else (s.modJob j.uid fun j => { j with ext := .flash (fCount j.words) 0 }).issuePage j.uid

def execFlashRead (uid : Nat) (s : State) : Res :=
  .next (match s.starting uid 0x20 with
    | none => s
    | some (j, t) => t.startPages j)

def execFlashProgram (uid : Nat) (s : State) : Res :=
  .next (match s.starting uid 0x21 with
    | none => s
    | some (j, t) => t.startPages j)

/-- Put every physical erase of a job at its die. -/
def State.startErase (s : State) (t : FTarget) (j : Job) : State :=
  let at_ := s.flashSlots j.words
  let s := s.modJob j.uid fun j => { j with ext := .flash at_.length 0 }
  at_.foldl (fun s x => s.queueOp x.1
    { kind := .erase, uid := j.uid, slot := x.2, block := (s.die x.1).phys x.2, page := 0
      band := (t.vol.num, t.vol.bandOf x.2 x.1), wp := none, fast := t.vol.fast, data := [], suspended := false
      started := none, windowFrom := none, starved := 0 }) s

def execFlashErase (uid : Nat) (s : State) : Res :=
  .next (match s.starting uid 0x22 with
    | none => s
    | some (j, t) =>
      match t.flashTarget j with
      | .inr st => t.failJob uid st noResult
      | .inl target =>
        match t.flashCheck target j with
        | some st => t.failJob uid st noResult
        | none => t.startErase target j)

/-! ## FLASH_PROTECT (R307 to R309) -/

def State.setRegion (s : State) (n : Nat) (r : Region) : State :=
  { s with flash := { s.flash with regions := s.flash.regions.set n r } }

/-- A wrong password: counted, and at the eighth in a row protection control locks. -/
def State.wrongPassword (s : State) : State :=
  { s with flash := { s.flash with fails := s.flash.fails + 1, lockout := decide (8 ≤ s.flash.fails + 1) } }

/-- A FLASH_PROTECT action: its status and the state after it. -/
def State.protect (s : State) (p : Nat) (ws : List Nat) : Nat × State :=
  let n := bits 3 0 (wordAt ws 3)
  let action := bits 9 8 (wordAt ws 3)
  let r := s.flash.regions.getD n Region.shipped
  let password := wordAt ws 6 + 2 ^ 32 * wordAt ws 7
  let fresh := wordAt ws 8 + 2 ^ 32 * wordAt ws 9
  let range := s.protectRange ws
  let owned := (List.range (range.2 + 1 - range.1)).all fun i =>
    match s.volumeOfSlot (range.1 + i) with
    | some v => v.owner == p
    | none => false
  let right := { s with flash := { s.flash with fails := 0 } }
  if s.flash.lockout then (stProtected, s)
  else if r.state = 2 || (action = 1 && r.state != 0) || ((action = 0 || action = 3) && r.state != 1) then (stProtected, s)
  else if action = 1 && decide (range.2 < range.1) then (stInvalid, s)
  else if !owned then (stDenied, s)
  else if action = 1 then
    (stOk, s.setRegion n { state := 1, first := range.1, last := range.2, password := fresh })
  else if action = 2 && r.state = 0 then (stOk, s.setRegion n { r with state := 2 })
  else if r.password != password then (stProtected, s.wrongPassword)
  else if action = 0 then (stOk, right.setRegion n { r with state := 0 })
  else if action = 2 then (stOk, right.setRegion n { r with state := 2 })
  else (stOk, right.setRegion n { r with password := fresh })

def execFlashProtect (uid : Nat) (s : State) : Res :=
  .next (match s.starting uid 0x23 with
    | none => s
    | some (j, t) =>
      let r := t.protect j.part j.words
      if r.1 = stOk then r.2.finishUid uid noResult else r.2.failJob uid r.1 noResult)

/-! ## The end of an operation (R295, R299, R300) -/

/-- One page of a read or program is done: count it and go on. -/
def State.pageDone (s : State) (uid : Nat) : State :=
  match s.job? uid with
  | none => s
  | some j =>
    match j.ext with
    | .flash left done =>
      let s := s.modJob uid fun j => { j with ext := .flash (left - 1) (done + 1) }
      if j.state == .running || (j.state == .suspending && left == 1) then s.issuePage uid else s
    | _ => s

/-- Deliver a page that was read. -/
def State.deliver (s : State) (o : FOp) (die : Nat) : State :=
  match s.job? o.uid with
  | none => s
  | some j =>
    match j.ext, s.volume? o.band.1 with
    | .flash _ done, some v =>
      let bs := if j.expert then s.storedPage die o.block o.page else s.volPage v (fPage0 j.words + done)
      let buf := dOut j.words + pageBytes * done
      if decide (hostBase ≤ buf) && !s.hostOk j.part then s.failJob o.uid stLink done
      else (s.store buf bs).pageDone o.uid
    | _, _ => s

/-- A page has been programmed into `block`. -/
def State.programmed (s : State) (o : FOp) (die block : Nat) : State :=
  let s := s.programPage die block o.page o.fast o.band.1 o.slot o.band.2 o.data
  let s := match o.wp with
    | some w => s.setWritePtr o.band.1 o.band.2 w
    | none => s
  s.pageDone o.uid

def State.mendBand (s : State) (band : Nat × Nat) : State :=
  { s with flash := { s.flash with torn := s.flash.torn.filter fun x => x != band } }

/-- A block has been erased, or a pool block has taken its place. The band is erased with its last block, also where the job has
been cancelled in the meantime (R298). -/
def State.erased (s : State) (o : FOp) (die : Nat) : State :=
  let s := s.journalLater (.eraseDone die o.block)
  let s := s.modDie die fun d => { d with sinceMove := d.sinceMove + 1 }
  match s.job? o.uid with
  | none => s
  | some j =>
    match j.ext with
    | .flash left done =>
      let s := s.modJob o.uid fun j => { j with ext := .flash (left - 1) (done + 1) }
      let s := if left = 1 && !j.expert then (s.setWritePtr o.band.1 o.band.2 0).mendBand o.band else s
      if left = 1 && j.state == .running then s.finishUid o.uid noResult else s
    | _ => s

/-- An erase that cannot end leaves its band torn, as a cancelled one does (log entry 28). -/
def State.tear (s : State) (uid : Nat) (band : Nat × Nat) : State :=
  match s.job? uid with
  | none => s
  | some j => if j.expert then s else { s with flash := { s.flash with torn := band :: s.flash.torn } }

/-- No retirement copy of a job runs on a die that another unfinished job names raw (R310); one that R44 holds back until this
job is done does not count (DESIGN CHOICE, log entry 100). -/
def State.rawHeld (s : State) (die uid : Nat) : Bool :=
  s.jobs.list.any fun j => flashOp j.opcode && j.expert && fDie j.words == die && j.uid != uid && !j.finished &&
    !(j.state == .queued && ((s.job? uid).any fun k => s.flashOverlap j.words k.words))

/-- A program or an erase that comes to a worn die ends its job (R300). -/
def State.wornEnd (s : State) (o : FOp) (result : Nat) : State :=
  (if o.kind == .erase then s.tear o.uid o.band else s).failJob o.uid stFault result

/-- A read meets a page that LDPC cannot correct at any of the eight read levels. -/
def State.readFails (s : State) (die : Nat) (o : FOp) (done : Nat) : State :=
  (s.raise (0x40 + die / 2) 5 1 ((s.job? o.uid).map Job.part) 0 (die + 2 ^ 8 * o.block)).failJob o.uid stData done

/-- The end of a die's operation. A page that was never programmed reads as erased whatever the cells show (R295). -/
def State.opDone (s : State) (die : Nat) (o : FOp) (met : FlashMet) : State :=
  let c := die / 2
  let doneSoFar := match s.job? o.uid with
    | some j => j.progress
    | none => 0
  if o.kind != .read && (s.die die).worn then
    match met with
    | .verified | .failed => (s.endOp die o).wornEnd o (if o.kind == .erase then noResult else doneSoFar)
    | _ => s
  else match o.kind, met with
  | .read, .readOk retries =>
    let s := s.endOp die o
    if 7 < retries && decide (o.page < ((s.die die).block o.block).pages) then s.readFails die o doneSoFar else
    let s := if retries = 0 then s else
      { s with flash := { s.flash with corrected := s.flash.corrected.modify c fun n => satInc top32 n 1 } }
    s.deliver o die
  | .read, .readBad =>
    let s := s.endOp die o
    if o.page < ((s.die die).block o.block).pages then s.readFails die o doneSoFar else s.deliver o die
  | .program, .verified => (s.endOp die o).programmed o die o.block
  | .program, .failed =>
    if s.rawHeld die o.uid then (s.modDie die fun d => { d with ops := d.ops.erase o ++ [o] }).pumpDie die else
    let r := (s.endOp die o).retireBlock die o.block
    match r.1 with
    | some new =>
      let s := r.2.modJob o.uid fun j => if j.expert then { j with words := j.words.set 4 new } else j
      (s.copyBlock die o.block new).programmed o die new
    | none => r.2.failJob o.uid stFault doneSoFar
  | .erase, .verified => ((s.endOp die o).eraseBlock die o.block o.fast).erased o die
  | .erase, .failed =>
    let r := (s.endOp die o).retireBlock die o.block
    match r.1 with
    | some _ => r.2.erased o die
    | none => r.2.wornEnd o noResult
  | _, _ => s

def execFlashOperationDone (die : Nat) (met : FlashMet) (s : State) : Res :=
  .next (match (s.die die).current with
    | none => s
    | some o => if s.flash.powerLost then s else s.opDone die o met)

/-! ## Gap moves (R291); a worn die takes no program or erase (R300), theirs among them -/

/-- The ring position that the next gap move copies from. -/
def Die.gapSource (d : Die) : Nat := if d.gap = 0 then ringSlots else d.gap - 1

/-- Whether an unfinished flash job names the slot that the move takes, or works raw on the die. -/
def State.gapHeld (s : State) (die : Nat) : Bool :=
  let d := s.die die
  let block := (assoc d.remap d.gapSource).getD d.gapSource
  s.jobs.list.any fun j => flashOp j.opcode && !j.finished &&
    ((j.expert && fDie j.words == die) || (match d.slotOf block with
      | some t => (s.flashSlots j.words).contains (die, t)
      | none => false))

/-- The move. A copy that the die cannot make leaves the gap where it is, with the move open in the journal. -/
def State.moveGap (s : State) (die : Nat) : State :=
  let d := s.die die
  let from_ := d.gapSource
  let block := (assoc d.remap from_).getD from_
  let fast := s.blockFast die block
  let s := s.journalNow (.gapIntent die from_)
  match if (d.block block).pages = 0 then (some d.gapBlock, s) else s.ownProgram die d.gapBlock with
  | (none, s) => s
  | (some new, s) =>
    let s := (s.copyBlock die block new).journalNow (.gapDone die)
    let s := s.modDie die fun d => { d with
        start := if d.gap = 0 then (d.start + 1) % ringSlots else d.start, gap := from_, sinceMove := d.sinceMove - 100 }
    (s.ownErase die block fast).2

def execGapMove (die : Nat) (s : State) : Res :=
  .next (let d := s.die die
    if decide (100 ≤ d.sinceMove) && d.ops.isEmpty && !d.worn && !s.gapHeld die && !s.flash.powerLost then s.moveGap die
    else s)

/-! ## Suspended erases (R302) -/

def State.modHead (s : State) (die : Nat) (f : FOp → FOp) : State :=
  s.modDie die fun d => { d with
      ops := match d.ops with
        | o :: rest => f o :: rest
        | [] => [] }

def Die.readQueued (d : Die) : Bool := d.ops.any fun o => o.kind == .read

/-- A queued read suspends the erase, unless its window still runs. -/
def execEraseSuspend (die : Nat) (s : State) : Res :=
  .next (match (s.die die).erasing with
    | none => s
    | some o =>
      if !o.suspended && o.windowFrom.isNone && (s.die die).readQueued then
        s.modHead die fun o => { o with suspended := true } else s)

def execEraseResume (die : Nat) (s : State) : Res :=
  .next (match (s.die die).erasing with
    | none => s
    | some o =>
      if o.suspended && !(s.die die).readQueued then
        s.modHead die fun o =>
          { o with suspended := false, windowFrom := if s.flash.windowUs = 0 then none else some s.now }
      else s)

def execEraseWindowEnd (die : Nat) (s : State) : Res :=
  .next (match (s.die die).erasing with
    | none => s
    | some o => match o.windowFrom with
      | none => s
      | some t => if t + s.flash.windowUs * usTicks ≤ s.now then s.modHead die fun o => { o with windowFrom := none } else s)

/-- Each further second that a started erase has not finished. -/
def execEraseStarved (die : Nat) (s : State) : Res :=
  .next (match (s.die die).erasing with
    | none => s
    | some o =>
      if (o.started.getD s.now) + (o.starved + 1) * (1000 * msTicks) ≤ s.now then
        (s.modHead die fun o => { o with starved := o.starved + 1 }).raise (0x40 + die / 2) 5 5
          ((s.job? o.uid).map Job.part) 0 (die + 2 ^ 8 * o.block)
      else s)

/-! ## Mounting (R306) and power loss (R304) -/

/-- Erases begun and not done, by the journal. -/
def openErases : List JRec → List (Nat × Nat)
  | [] => []
  | .eraseIntent d b :: rest => if rest.contains (.eraseDone d b) then openErases rest else (d, b) :: openErases rest
  | _ :: rest => openErases rest

/-- Gap moves begun and not done: their dies. -/
def openGaps : List JRec → List Nat
  | [] => []
  | .gapIntent d _ :: rest => if rest.contains (.gapDone d) then openGaps rest else d :: openGaps rest
  | _ :: rest => openGaps rest

/-- The lowest page of a band that reads as erased. -/
def State.scanPtr (s : State) (v : Volume) (k : Nat) : Nat :=
  ((List.range 16384).find? fun i =>
    let l := s.pageLoc v (16384 * k + i)
    decide (((s.die l.die).block l.block).pages ≤ l.page)).getD 16384

/-- Erase a half-erased block again, and mark its band torn. -/
def State.repair (s : State) (x : Nat × Nat) : State :=
  let slot := (s.die x.1).slotOf x.2
  let s := (s.ownErase x.1 x.2 (s.blockFast x.1 x.2)).2
  match slot with
  | none => s
  | some t => match s.volumeOfSlot t with
    | none => s
    | some v =>
      let band := (v.num, v.bandOf t x.1)
      if s.flash.torn.contains band then s else { s with flash := { s.flash with torn := band :: s.flash.torn } }

def State.mountFlash (s : State) : State :=
  let gaps := openGaps s.flash.journal
  let s := gaps.foldl (fun s d => (s.ownErase d (s.die d).gapBlock ((s.die d).block (s.die d).gapBlock).fast).2) s
  let halves := (List.range 32).flatMap fun d => ((s.die d).blocks.filter FBlock.half).map fun b => (d, b.num)
  let opened := openErases s.flash.journal
  let s := (opened ++ halves.filter fun x => !opened.contains x).foldl State.repair s
  let s := s.flash.volumes.foldl (fun s v =>
    (List.range v.bands).foldl (fun s k => s.setWritePtr v.num k (s.scanPtr v k)) s) s
  { s with flash := { s.flash with
      journal := [], pendingJ := [], mounted := true, powerLost := false
      dies := s.flash.dies.map fun d => { d with ops := [] } } }

/-- Mount the flash; the dripline's plan starts from the hours found (R404, R423). -/
def execFlashMount (s : State) : Res :=
  .next (if s.dev.stage == .training && !s.flash.mounted then
      { s.mountFlash with drip := { s.drip with plannedDay := s.flash.dripHours / 24 } }
    else s)

/-- What the dies have in hand when power goes: a started program finishes, an erase in progress or suspended is aborted,
everything else never starts. -/
def State.lossAt (s : State) (die : Nat) : State :=
  let d := s.die die
  let s := match d.current with
    | some o => if o.kind == FOpKind.program then
        let s := s.programPage die o.block o.page o.fast o.band.1 o.slot o.band.2 o.data
        match o.wp with
        | some w => s.setWritePtr o.band.1 o.band.2 w
        | none => s
      else s
    | none => s
  let s := match d.erasing with
    | some o => s.modDie die fun d => d.modBlock o.block fun b => { b with half := true }
    | none => s
  s.modDie die fun d => { d with ops := [] }

/-- The controller's power-loss sequence. -/
def State.flashLoss (s : State) : State :=
  let s := (List.range 32).foldl State.lossAt s
  { s with flash := { s.flash with journal := s.flash.journal ++ s.flash.pendingJ, pendingJ := [], powerLost := true } }

/-- The die stops without the sequence (R391): a program or an erase that a die has started completes inside it, a suspended
erase is left half done, and journal records that still wait are lost. -/
def State.stopAt (s : State) (die : Nat) : State :=
  let s := match (s.die die).current with
    | some o => match o.kind with
      | .program =>
        let s := s.programPage die o.block o.page o.fast o.band.1 o.slot o.band.2 o.data
        match o.wp with
        | some w => s.setWritePtr o.band.1 o.band.2 w
        | none => s
      | .erase => s.eraseBlock die o.block o.fast
      | .read => s
    | none => s
  let s := match (s.die die).erasing with
    | some o => if o.suspended then s.modDie die fun d => d.modBlock o.block fun b => { b with half := true } else s
    | none => s
  s.modDie die fun d => { d with ops := [] }

def State.flashStop (s : State) : State :=
  let s := (List.range 32).foldl State.stopAt s
  { s with flash := { s.flash with pendingJ := [] } }

end Sys2Proof.Machine
end

