-- ==== Sys2Proof/Machine/ServeOps.lean ====
section
/-! DEFINITION. Tables that the serving jobs and the model slots share: the prefix index (R196 to R199), the variant table
(R200, R201), who may name a model slot (R256), and the decision at a missed fetch deadline (R261). -/

namespace Sys2Proof.Machine

/-! ## The prefix index (R196, R197) -/

def noNode : Nat := 0xFFFFFFFF

structure PNode where
  hash : Nat
  parent : Nat
  slot : Nat
  variant : Option Nat
  valid : Bool
  children : Nat
  lastUse : Nat
  handles : Nat
  tokens : List Nat
  deriving DecidableEq, Repr

/-- Nodes follow the bucket table (log entry 21). -/
def State.nodeAddr (s : State) (p n : Nat) : Nat := (s.part p).pfxIndex + 0x80000 + 512 * n

def State.bucket (s : State) (p i : Nat) : Nat := s.readN ((s.part p).pfxIndex + 4 * i) 4

def State.setBucket (s : State) (p i v : Nat) : State := s.storeN ((s.part p).pfxIndex + 4 * i) 4 v

def State.node (s : State) (p n : Nat) : PNode :=
  let a := s.nodeAddr p n
  let w := s.readN (a + 12) 4
  { hash := s.readN a 8, parent := s.readN (a + 8) 4, slot := bits 3 0 w
    variant := if bit 16 w then some (bits 15 4 w) else none, valid := bit 17 w, children := s.readN (a + 16) 2
    lastUse := s.readN (a + 24) 8, handles := s.readN (a + 32) 6, tokens := s.wordsAt (a + 64) 64 }

def State.setNode (s : State) (p n : Nat) (x : PNode) : State :=
  let a := s.nodeAddr p n
  let w := x.slot + 16 * x.variant.getD 0 + 2 ^ 16 * b2n x.variant.isSome + 2 ^ 17 * b2n x.valid
  s.store a (leBytes 8 x.hash ++ leBytes 4 x.parent ++ leBytes 4 w ++ leBytes 2 x.children ++ leBytes 6 0 ++
    leBytes 8 x.lastUse ++ leBytes 6 x.handles ++ List.replicate 26 0 ++ wordsBytes x.tokens ++ List.replicate 192 0)

/-- The hash of a block (R197). -/
def blockHash (prev : Option Nat) (slot : Nat) (variant : Option Nat) (tokens : List Nat) : Nat :=
  fnv1a (leBytes 8 (prev.getD 0) ++ leBytes 1 slot ++ leBytes 2 (variant.getD 0xFFFF) ++ wordsBytes tokens)

/-- The entries of the bucket table that a search for `hash` visits: up to the first empty one. -/
def State.probeFrom (s : State) (p b : Nat) : Nat → List (Nat × Nat)
  | 0 => []
  | n + 1 =>
    let v := s.bucket p (b % 131072)
    if v = noNode then [] else (b % 131072, v) :: s.probeFrom p (b + 1) n

def State.probe (s : State) (p hash : Nat) : List (Nat × Nat) := s.probeFrom p hash 131072

/-- The node of a block. -/
def State.findNode (s : State) (p hash parent slot : Nat) (variant : Option Nat) (tokens : List Nat) : Option Nat :=
  ((s.probe p hash).find? fun x =>
    let n := s.node p x.2
    n.valid && n.hash == hash && n.parent == parent && n.slot == slot && n.variant == variant && n.tokens == tokens).map
    Prod.snd

def State.addBucket (s : State) (p hash n : Nat) : State :=
  s.setBucket p ((hash + (s.probe p hash).length) % 131072) n

/-- Take a node out of the bucket table; the entries of its run after it are entered again, so that no search ends early
(log entry 21). -/
def State.delBucket (s : State) (p hash n : Nat) : State :=
  let run := s.probe p hash
  let after := (run.dropWhile fun x => x.2 != n).drop 1
  let s := (run.dropWhile fun x => x.2 != n).foldl (fun s x => s.setBucket p x.1 noNode) s
  after.foldl (fun s x => s.addBucket p (s.node p x.2).hash x.2) s

/-- (layer, KV head) pairs of a model, layer-major. -/
def Slot.heads (t : Slot) : List (Nat × Nat) :=
  t.layerRecs.zipIdx.flatMap fun l => (List.range l.1.kvHeads).map fun h => (l.2, h)

/-- The page-table indices that a node's handles name. -/
def State.nodePages (s : State) (x : PNode) (n : Nat) : List Nat :=
  (s.wordsAt x.handles n).map fun h => bits 26 0 h

/-- Remove a node: its page references, its handles, its bucket, its place under its parent. -/
def State.dropNode (s : State) (p n : Nat) : State :=
  let x := s.node p n
  let count := ((s.slots.find? fun t => t.idx == x.slot && t.part == p).map fun t => t.heads.length).getD 0
  let s := (s.nodePages x count).foldl (fun s i => s.dropRef p i) s
  let s := (s.freeFrame p x.handles).delBucket p x.hash n
  let s := s.setNode p n { x with valid := false }
  if x.parent = noNode then s
  else let q := s.node p x.parent; s.setNode p x.parent { q with children := q.children - 1 }

def State.nodeValid (s : State) (p n : Nat) : Bool := bit 17 (s.readN (s.nodeAddr p n + 12) 4)

def State.validNodes (s : State) (p : Nat) : List Nat := (List.range 65536).filter (s.nodeValid p)

/-- Remove the nodes of an unloaded slot (R199). -/
def State.dropSlotNodes (s : State) (p slot : Nat) : State :=
  ((s.validNodes p).filter fun n => (s.node p n).slot == slot).foldl (fun s n => s.dropNode p n) s

/-! ## The variant table (R200) -/

structure Variant where
  valid : Bool
  scales : Bool
  slot : Nat
  data : Nat
  deriving DecidableEq, Repr

def State.variant (s : State) (p v : Nat) : Variant :=
  let w := s.wordsAt ((s.part p).variants + 16 * v) 4
  { valid := bit 0 (wordAt w 0), scales := bit 1 (wordAt w 0), slot := bits 5 2 (wordAt w 0), data := addr48 w 2 }

def State.setVariant (s : State) (p v : Nat) (x : Variant) : State :=
  s.storeWords ((s.part p).variants + 16 * v) [b2n x.valid + 2 * b2n x.scales + 4 * x.slot, 0, x.data % 2 ^ 32, x.data / 2 ^ 32]

/-- Clear an entry and free its storage. -/
def State.dropVariant (s : State) (p v : Nat) : State :=
  let x := s.variant p v
  if x.valid then (s.setVariant p v { x with valid := false }).freeFrame p x.data else s

/-- Loaded variants of a partition; one that does not exist has no table. -/
def State.loadedVariants (s : State) (p : Nat) : Nat :=
  if (s.part p).valid then ((List.range 4096).filter fun v => (s.variant p v).valid).length else 0

/-- A variant that a sequence of the slot may use: none, or one that is loaded for the slot (R190, R201). -/
def State.variantOk (s : State) (p slot : Nat) : Option Nat → Bool
  | none => true
  | some v => (s.variant p v).valid && (s.variant p v).slot == slot

/-- A sequence whose variant is not loaded: a job that names it fails (R201). -/
def State.variantLost (s : State) (q : Seq) : Bool := !s.variantOk q.part q.slot q.variant

def State.dropSlotVariants (s : State) (p slot : Nat) : State :=
  ((List.range 4096).filter fun v => (s.variant p v).valid && (s.variant p v).slot == slot).foldl
    (fun s v => s.dropVariant p v) s

/-! ## Naming a slot (R256) -/

/-- The loaded slot that a job of partition `p` names, or the status that refuses it. -/
def State.namedSlot (s : State) (p n : Nat) : Slot ⊕ Nat :=
  match s.slots.find? fun t => t.idx == n with
  | none => .inr stInvalid
  | some t => if t.part != p then .inr stDenied else if t.loaded then .inl t else .inr stInvalid

/-! ## Missed fetch deadlines (R261, R386) -/

/-- Whether a job's kind may take the cheaper path. -/
def State.cheapOk (s : State) (j : Job) : Bool :=
  if j.opcode == 0x03 then (s.part j.part).cheapPrefill
  else (j.opcode == 0x04 || j.opcode == 0x05) && (s.part j.part).cheapDecode

/-- The data words of the TIER record of a decision (log entry 25). -/
def tierWords (j : Job) (what : MoveWhat) (w : Waiter) (kind : Nat) : List Nat :=
  match what with
  | .expert _ layer number => [j.jobId, layer, kind, number]
  | .page _ => [j.jobId, w.layer, kind, w.seq + 2 ^ 10 * w.head + 2 ^ 15 * w.index]

def cheapKind : MoveWhat → Nat
  | .expert _ _ _ => 0
  | .page _ => 1

def State.modMove (s : State) (id : Nat) (f : Move → Move) : State :=
  { s with moves := s.moves.map fun m => if m.id == id then f m else m }

/-- The waiters of a move to whom one decision applies: the job's, with all its sequences, for the layer (R261). -/
def Waiter.with (w v : Waiter) : Bool := v.uid == w.uid && v.layer == w.layer && !v.exact

def State.setPath (s : State) (m : Move) (w : Waiter) (path : WaitPath) : State :=
  s.modMove m.id fun m => { m with
    waiters := m.waiters.map fun (v : Waiter) => if w.with v then { v with path := path } else v }

/-- A page leaves the lists of a job's layer: of every sequence and head that has it at that place. -/
def State.dropEntry (s : State) (m : Move) (w : Waiter) : State :=
  let gone (r : Retrieval) (n : Nat) : Bool :=
    r.uid == w.uid && r.layer == w.layer &&
      m.waiters.any fun (v : Waiter) => w.with v && v.seq == r.seq && v.head == r.head && v.index == n
  { s with echo := { s.echo with retrievals := s.echo.retrievals.map fun (r : Retrieval) =>
    { r with pages := r.pages.filter fun n => !gone r n } } }

/-- The job takes the cheaper path: it reads the expert's shadow, or its lists do without the page. -/
def State.takeCheap (s : State) (m : Move) (w : Waiter) (j : Job) : State :=
  let s := (s.setPath m w .cheap).tracePart 0x05 j.part j.qp (tierWords j m.what w (cheapKind m.what))
  match m.what with
  | .expert _ layer number =>
    ((s.modJob j.uid fun j => { j with shadowed := (layer, number) :: j.shadowed }).jobQuality j.uid qShadow).modPart j.part
      fun q => { q with ctr := { q.ctr with shadowUses := satInc top32 q.ctr.shadowUses 1 } }
  | .page _ =>
    ((s.dropEntry m w).jobQuality j.uid qDropped).modPart j.part fun q =>
      { q with ctr := { q.ctr with pagesDropped := satInc top32 q.ctr.pagesDropped 1 } }

/-- The job waits for the late fetch. -/
def State.waitLate (s : State) (m : Move) (w : Waiter) (j : Job) : State :=
  let s := (s.setPath m w .late).tracePart 0x05 j.part j.qp (tierWords j m.what w 2)
  s.modPart j.part fun q => { q with ctr := { q.ctr with lateFetches := satInc top32 q.ctr.lateFetches 1 } }

/-- The decision of R261 for one job and layer. -/
def State.decidePath (s : State) (m : Move) (w : Waiter) : State :=
  match s.job? w.uid with
  | none => s
  | some j => if s.cheapOk j then s.takeCheap m w j else s.waitLate m w j

/-- The decision that the job has already had for this move and layer. -/
def Move.decision (m : Move) (w : Waiter) : Option WaitPath :=
  (m.waiters.find? fun v => w.with v && v.path != .undecided).map Waiter.path

/-- A job joins a move. One decision serves the job and layer; under replay a recorded cheaper path is taken at once and every
other fetch is waited for (R386); a deadline that has passed is decided at once (R260). -/
def State.joinMove (s : State) (id : Nat) (w : Waiter) : State :=
  match s.job? w.uid, s.moves.find? fun m => m.id == id with
  | some j, some m =>
    if m.waiters.any fun v => v.uid == w.uid && v.layer == w.layer && v.seq == w.seq && v.head == w.head && v.index == w.index
    then s else
      let replayed := s.replay.state == .running && s.replay.part == j.part
      let w := { w with
        deadline := if replayed then none else w.deadline
        path := if w.exact then .undecided else (m.decision w).getD .undecided }
      let s := s.modMove id fun m => { m with waiters := m.waiters ++ [w] }
      let m := { m with waiters := m.waiters ++ [w] }
      let key := tierWords j m.what w (cheapKind m.what)
      if w.exact then s
      else if w.path == .cheap then s.dropEntry m w
      else match (s.replayTier j key).filter fun _ => w.path == .undecided && replayed with
      | some r => { s with replay := { s.replay with tiers := s.replay.tiers.erase r } }.takeCheap m w j
      | none => match w.deadline with
        | some d => if w.path == .undecided && d < s.now then s.decidePath m w else s
        | none => s
  | _, _ => s

/-- A job still waits on a move: for an expert or page that it takes no cheaper path for. -/
def State.waitsMove (s : State) (uid : Nat) : Bool :=
  s.moves.any fun m => m.waiters.any fun w => w.uid == uid && w.path != .cheap

/-- Tick D of a fetch: P_end - W / ρ (R260), ρ in bytes per tick being 4,608 * RATE_PCT / 100. -/
def fetchTick (rate t0 planned unissued : Nat) : Nat := (t0 * 4608 * rate + 100 * planned - 100 * unissued) / (4608 * rate)

def State.nextMove (s : State) : Nat := (s.moves.map fun m => m.id + 1).foldl max 0

end Sys2Proof.Machine
end

