-- ==== Sys2Proof/Machine/PageOps.lean ====
section
/-! DEFINITION. Pages between DRAM and flash: KV records (R156, R157), spilling, fetching, and moves of single pages (R155,
R242, R243). -/

namespace Sys2Proof.Machine

/-- Bytes of a KV record of a page (R156). -/
def recordBytes (e : Pte) (compressed : Bool) : Nat :=
  64 + (if compressed then (if e.fmtS4 then 48 * e.dim else 80 * e.dim) else payloadBytes e.fmtS4 e.dim) + sidecarBytes e.dim

/-- The record of a DRAM page; outside confidential partitions its payload is compressed. R156 gives every record a 64-byte
header and R157 the contents of a compressed one's: that of an uncompressed record is zeros (DESIGN CHOICE, log entry 85). -/
def State.kvRecord (s : State) (p : Nat) (e : Pte) : List Byte :=
  let frame := s.bytesAt e.payload e.frameBytes
  let side := s.bytesAt e.sidecar (sidecarBytes e.dim)
  let body := if e.compressed then frame
    else if s.conf p then List.replicate 64 0 ++ frame
    else flowCompress e.fmtS4 e.dim frame
  body ++ side

/-- The record of a FLASH page, as it lies in its volume. -/
def State.flashRecord (s : State) (p : Nat) (e : Pte) : List Byte :=
  match s.volume? e.volume with
  | some v => s.volBytes v e.payload (recordBytes e (!s.conf p))
  | none => []

/-- A FLASH page (or one MOVING from flash) whose record lies in a torn band (R306). -/
def State.pageTorn (s : State) (p i : Nat) : Bool :=
  let e := s.pte p i
  (e.state == 2 || e.state == 3) && s.tornAt e.volume e.payload (recordBytes e (!s.conf p))

/-- The dies that hold the record of a FLASH page, or of one MOVING from flash; none for a page elsewhere. -/
def State.pageDies (s : State) (p i : Nat) : List Nat :=
  let e := s.pte p i
  if e.state == 2 || e.state == 3 then byteDies e.payload (recordBytes e (!s.conf p)) else []

/-- Frames for a page that comes to DRAM from flash; none when the partition has none. -/
def State.pageFrames (s : State) (p : Nat) (e : Pte) : Option (Nat × Nat × State) :=
  let c := { e with compressed := !s.conf p }
  match s.allocFrame p c.frameBytes with
  | none => none
  | some (pay, s) =>
    match s.allocFrame p (sidecarBytes e.dim) with
    | none => none
    | some (side, s) => some (pay, side, s)

/-- Write a record's parts into frames and change the page's home (R155, R243, R302). -/
def State.landPage (s : State) (p i pay side : Nat) : State :=
  let s := s.readThrough (s.pageDies p i)
  let e := s.pte p i
  let r := s.flashRecord p e
  let c := !s.conf p
  let body := r.take (r.length - sidecarBytes e.dim)
  let s := s.store pay (if c then body else body.drop 64)
  let s := s.store side (r.drop (r.length - sidecarBytes e.dim))
  s.setPte p i { e with state := 1, compressed := c, payload := pay, volume := 0, sidecar := side }

/-- Fetch a FLASH page at once; none when no frame is free. -/
def State.fetchPage (s : State) (p i : Nat) : Option State :=
  match s.pageFrames p (s.pte p i) with
  | none => none
  | some (pay, side, s) => some (s.landPage p i pay side)

/-- Pages that a sequence holds, by layer, KV head and page index. -/
def Seq.pages (q : Seq) : List (Nat × Nat × Nat × Nat) :=
  sortBy (fun a b => decide (a.1 < b.1) || (a.1 == b.1 && (decide (a.2.1 < b.2.1) ||
    (a.2.1 == b.2.1 && decide (a.2.2.1 < b.2.2.1))))) q.dir

/-- Write the pages of a run to a volume as records, back to back from byte `at_` (R156, R242). -/
def State.spillPages (s : State) (p : Nat) (v : Volume) : Nat → List Nat → List Byte → State × List Byte
  | _, [], out => (s, out)
  | at_, i :: rest, out =>
    let e := s.pte p i
    let r := s.kvRecord p e
    let old : OldFrame :=
      { page := i, payload := e.payload, sidecar := e.sidecar, compressed := e.compressed, epoch := (s.kv p).epoch }
    let s := s.setPte p i { e with state := 2, compressed := !s.conf p, payload := at_, volume := v.num, sidecar := 0 }
    let s := s.modKv p fun k => { k with stale := old :: k.stale }
    State.spillPages s p v (at_ + r.length) rest (out ++ r)

/-- How a run of records fares at its volume: no room for it, an erase that its programs wait for (R302), a die that can take
no program (R300), or all programmed. -/
inductive RunRes where
  | noRoom
  | held
  | worn (s : State)
  | done (first : Nat) (s : State)

/-- Program a run of bytes where the volume has room for it. -/
def State.placeRun (s : State) (v : Volume) (bytes : List Byte) : RunRes :=
  match s.findRun v (ceilDiv bytes.length pageBytes) with
  | none => .noRoom
  | some first =>
    if s.programHeld (runDies first (ceilDiv bytes.length pageBytes)) then .held
    else match s.programRun v first bytes with
      | (true, s) => .done first s
      | (false, s) => .worn s

/-- Spill DRAM pages. -/
def State.spill (s : State) (p : Nat) (v : Volume) (pages : List Nat) : RunRes :=
  if pages.isEmpty then .done 0 s else
    match s.placeRun v (s.spillPages p v 0 pages []).2 with
    | .done first s => .done first (s.spillPages p v (first * pageBytes) pages []).1
    | r => r

/-! ## Moves of single pages -/

/-- The priority of a job's transfers (R314). -/
def State.jobPrio (s : State) (uid : Nat) : Nat := ((s.job? uid).map Job.prio).getD 0

/-- Reserve frames for a page move; the page is MOVING, and Siphon has its two transfers (R155, R311). It waits while no frame is
free. -/
def State.startPageMove (s : State) (m : Move) (prio : Nat) : State :=
  match m.what with
  | .page i =>
    if m.started || !s.cpRunning 2 then s else
      match s.pageFrames m.part (s.pte m.part i) with
      | none => s
      | some (pay, side, s) =>
        let e := s.pte m.part i
        let s := (s.setPte m.part i { e with state := 3 }).modMove m.id fun m =>
          { m with started := true, frames := [pay, side] }
        (s.placeOwn m.part m.id prio pay e.frameBytes).placeOwn m.part m.id prio side (sidecarBytes e.dim)
  | .expert _ _ _ => s

/-- Fetch a FLASH page for a job (R179, R262): on a move of its own, or on the one in progress. -/
def State.wantPage (s : State) (p i : Nat) (w : Waiter) : State :=
  match s.moves.find? fun m => m.part == p && m.what == .page i with
  | some m => s.joinMove m.id w
  | none =>
    if (s.pte p i).state != 2 then s else
      let m : Move :=
        { id := s.nextMove, part := p, what := .page i, started := false, frames := [], waiters := [] }
      ({ s with moves := s.moves ++ [m] }.startPageMove m (s.jobPrio w.uid)).joinMove m.id w

/-- Free the frames and records whose last readers have ended (R154, R242, R257). -/
def State.reclaimStale (s : State) (p : Nat) : State :=
  let safe := s.safeEpoch p
  let gone := (s.kv p).stale.filter fun o => decide (o.epoch < safe)
  let s := gone.foldl (fun s o => (s.freeFrame p o.payload).freeFrame p o.sidecar) s
  let s := ((s.kv p).tails.filter fun t => decide (t.2 < safe)).foldl (fun s t => s.freeFrame p t.1) s
  s.modKv p fun k => { k with
    stale := k.stale.filter fun o => !decide (o.epoch < safe), tails := k.tails.filter fun t => !decide (t.2 < safe)
    freed := k.freed.filter fun f => !decide (f.2 < safe) }

end Sys2Proof.Machine
end

