-- ==== Sys2Proof/Machine/Model.lean ====
section
/-! DEFINITION. Model slots and moves between tiers: LOAD_MODEL, UNLOAD_MODEL, PROMOTION, MOVE_LANDED and FETCH_DEADLINE (R241
to R264). -/

namespace Sys2Proof.Machine

/-! ## Where an image lies (R254) -/

def mSource (ws : List Nat) : Nat := bits 0 0 (wordAt ws 8)
def mVolume (ws : List Nat) : Nat := bits 15 8 (wordAt ws 8)
def mBytes (ws : List Nat) : Nat := wordAt ws 10 + 2 ^ 32 * wordAt ws 11

def sourceOf (ws : List Nat) : Source :=
  if mSource ws = 0 then .volume (mVolume ws) (wordAt ws 9) (ceilDiv (mBytes ws) 0x1000000)
  else if hostBase ≤ dArg ws then .host (dArg ws)
  else .dram

/-- `n` image bytes from `off`. `ram` is the source buffer of an image in the partition's DRAM. -/
def State.imageBytes (s : State) (src : Source) (ram off n : Nat) : List Byte :=
  match src with
  | .volume v start _ => match s.volume? v with
    | some vol => s.volBytes vol (0x1000000 * start + off) n
    | none => []
  | .dram => s.bytesAt (ram + off) n
  | .host a => s.bytesAt (a + off) n

/-- Whether `n` image bytes from `off` touch a torn band of the image's volume. -/
def State.sourceTorn (s : State) (src : Source) (off n : Nat) : Bool :=
  match src with
  | .volume v start _ => s.tornAt v (0x1000000 * start + off) n
  | _ => false

/-- Whether the window of a resumed erase holds back a read of `n` image bytes from `off` (R302). -/
def State.sourceHeld (s : State) (src : Source) (off n : Nat) : Bool :=
  match src with
  | .volume _ start _ => s.readHeld (byteDies (0x1000000 * start + off) n)
  | _ => false

/-- The erases that such a read suspends have resumed after it. -/
def State.sourceThrough (s : State) (src : Source) (off n : Nat) : State :=
  match src with
  | .volume _ start _ => s.readThrough (byteDies (0x1000000 * start + off) n)
  | _ => s

/-- Whether a source can be read now. -/
def State.sourceUp (s : State) (p : Nat) : Source → Bool
  | .host _ => s.hostOk p
  | _ => true

/-- The source lies within the partition's volume or memory (R255 step 1). -/
def State.sourceOk (s : State) (p : Nat) (ws : List Nat) : Bool :=
  if mSource ws = 0 then
    match s.volume? (mVolume ws) with
    | none => false
    | some v => v.owner == p && !v.sealed && decide (1024 * wordAt ws 9 + ceilDiv (mBytes ws) pageBytes ≤ v.pages)
  else s.inDramHost p (dArg ws) (mBytes ws)

/-- An image unit that the flash cannot give is recorded by its channel (R295, R410). -/
def State.badUnitRecord (s : State) (p : Nat) (src : Source) (unit : Nat) : State :=
  match src with
  | .volume v start _ => match s.volume? v with
    | some vol =>
      let l := s.pageLoc vol (1024 * start + unit)
      s.raise (0x40 + l.die / 2) 5 1 (some p) 0 (l.die + 2 ^ 8 * l.block)
    | none => s
  | _ => s

/-! ## Granules (R255 step 3, R256) -/

/-- Whole free granules of a partition, highest first (log entry 15): they hold no image, no frames, no tables and none of
the source buffer. -/
def State.freeGranules (s : State) (p ram n : Nat) : List Nat :=
  sortBy (fun a b => decide (b < a)) ((s.spareGranules p).filter fun g =>
    !(decide (ram < (g + 1) * granuleBytes) && decide (g * granuleBytes < ram + n)))

def State.cacheGranules (s : State) (p left : Nat) : Nat :=
  if (s.part p).cacheGib = 0 then max 1 (left / 2) else (s.part p).cacheGib

/-! ## Cache frames (R259) -/

def slotBytes : Nat := 16384

/-- Cache slots that hold, or still owe a reader, an expert's TRUs. -/
def Slot.cacheUsed (t : Slot) (safe : Nat) : List Nat :=
  t.experts.flatMap Expert.frames ++ (t.retired.filter fun r => decide (safe ≤ r.2)).map Prod.fst

/-- The lowest place for `n` free slots within one granule of the cache (log entry 15). -/
def Slot.cacheRun (t : Slot) (n : Nat) (used : List Nat) : Option Nat :=
  let starts := t.cache.map (fun g => g * granuleBytes) ++ used.map fun u => u + slotBytes
  minBy id (starts.filter fun a =>
    t.cache.any (fun g =>
        decide (g * granuleBytes ≤ a) && decide (a + n * slotBytes ≤ g * granuleBytes + granuleSlots * slotBytes)) &&
      used.all fun u => decide (u + slotBytes ≤ a) || decide (a + n * slotBytes ≤ u))

/-- Slots for the runs of an expert, each run within one granule; none when they do not all find room. -/
def Slot.cachePlace (t : Slot) : List (Nat × Nat) → List Nat → Option (List Nat)
  | [], _ => some []
  | r :: rest, used =>
    match t.cacheRun r.2 used with
    | none => none
    | some a =>
      let mine := (List.range r.2).map fun i => a + i * slotBytes
      (t.cachePlace rest (mine ++ used)).map fun more => mine ++ more

/-- Evict the least recently used expert that is not in motion. -/
def Slot.evict (t : Slot) (epoch : Nat) : Option Slot :=
  (minBy Expert.lastUse (t.experts.filter fun x => x.cached && !x.moving)).map fun v =>
    { t with
      retired := v.frames.map (fun a => (a, epoch)) ++ t.retired
      experts := t.experts.map fun x => if x == v then { x with cached := false, frames := [] } else x }

/-- Reserve slots for an expert's runs, evicting while that can help: the slots, or none while the evicted frames are still
owed. -/
def Slot.reserve (runs : List (Nat × Nat)) (safe epoch : Nat) : Nat → Slot → Option (List Nat) × Slot
  | 0, t => (t.cachePlace runs (t.cacheUsed safe), t)
  | fuel + 1, t =>
    match t.cachePlace runs (t.cacheUsed safe) with
    | some l => (some l, t)
    | none =>
      if (t.cachePlace runs (t.experts.flatMap Expert.frames)).isSome then (none, t)
      else match t.evict epoch with
        | none => (none, t)
        | some u => Slot.reserve runs safe epoch fuel u

def Slot.modExpert (t : Slot) (layer number : Nat) (f : Expert → Expert) : Slot :=
  { t with experts := t.experts.map fun x => if x.layer == layer && x.number == number then f x else x }

/-- Copy TRUs with their sidecars from the image into slots. -/
def State.copyTrus (s : State) (t : Slot) (ram : Nat) (trus frames : List Nat) : State :=
  let m := t.manifest
  (trus.zip frames).foldl (fun s x =>
    let s := s.sourceThrough t.source (slotBytes * (m.payFirst + x.1)) slotBytes
    let s := s.sourceThrough t.source (slotBytes * m.sideFirst + 1024 * x.1) 1024
    let s := s.store x.2 (s.imageBytes t.source ram (slotBytes * (m.payFirst + x.1)) slotBytes)
    s.store (sidecarOf x.2) (s.imageBytes t.source ram (slotBytes * m.sideFirst + 1024 * x.1) 1024)) s

/-! ## LOAD_MODEL (R255) -/

/-- The slot that a validated image takes, with the granules it needs when they are too few. -/
def State.makeSlot (s : State) (j : Job) (u : List Byte) (layers : List LayerRec) (ents : List (List Nat)) : Slot ⊕ Nat :=
  let p := j.part
  let src := sourceOf j.words
  let inRam := src == .dram
  let runs := placeRuns ((ents.filter fun e => inRam || !eExpertRes e).flatMap entRuns)
  let pinned := placeGranules runs
  let free := s.freeGranules p (dArg j.words) (if inRam then mBytes j.words else 0)
  let cache := if inRam || !ents.any eExpertRes then 0 else s.cacheGranules p (free.length - pinned)
  if free.length < pinned + cache then .inr (pinned + cache) else
    .inl
      { idx := dSlot j.words, part := p, loaded := false, manifest := Manifest.ofBytes u, layerRecs := layers, digest := []
        source := src, granules := free.take (pinned + cache)
        pinned := runs.map fun r => (r.1, r.2.1, free.getD r.2.2.1 0 * granuleBytes + r.2.2.2 * slotBytes)
        cache := (free.drop pinned).take cache, experts := if inRam then [] else expertsOf ents, retired := [], ents := ents }

/-- A message of `n` bytes for the crypto engine (R372): the image bytes that a load has still to hash. -/
def State.hashMessage (s : State) (j : Job) (n : Nat) : State :=
  if n = 0 || s.sec.crypto.any fun c => c.uid == some j.uid then s else
    let m : CMsg := { requester := j.part, uid := some j.uid, left := n, context := false }
    { s with sec := { s.sec with crypto := s.sec.crypto ++ [m] } }

/-- The window of an erase holds back the reads that steps 1 and 2 make (R302). -/
def State.loadHeld (s : State) (j : Job) : Bool :=
  let src := sourceOf j.words
  let m := Manifest.ofBytes (s.imageBytes src (dArg j.words) 0 16384)
  s.sourceOk j.part j.words && !(s.slots.any fun t => t.idx == dSlot j.words) &&
    (s.sourceHeld src 0 16384 || s.sourceHeld src (16384 * m.dirFirst) (16384 * m.dirUnits))

/-- Steps 1 to 3: validate, and take the slot with its granules. -/
def State.startLoad (s : State) (j : Job) (badUnit : Option Nat) : State :=
  let ws := j.words
  let p := j.part
  let src := sourceOf ws
  match s.slots.find? fun t => t.idx == dSlot ws with
  | some t => s.failJob j.uid (if t.part == p then stInvalid else stDenied) noResult
  | none =>
    if !s.sourceOk p ws then s.failJob j.uid stDenied noResult
    else if !s.inDramHost p (dOut ws) 48 then s.outsideJob j.uid
    else if !s.sourceUp p src then s.failJob j.uid stLink noResult
    else
      let u := s.imageBytes src (dArg ws) 0 16384
      let m := Manifest.ofBytes u
      let dir := s.imageBytes src (dArg ws) (16384 * m.dirFirst) (16384 * m.dirUnits)
      let hit := badUnit.filter fun b =>
        b = 0 || (headOk u (mBytes ws) && decide (m.dirFirst ≤ b) && decide (b < m.dirFirst + m.dirUnits))
      match hit with
      | some b => (s.badUnitRecord p src b).failJob j.uid stData noResult
      | none =>
        if s.sourceTorn src 0 16384 || (headOk u (mBytes ws) && s.sourceTorn src (16384 * m.dirFirst) (16384 * m.dirUnits)) then
          s.failJob j.uid stData noResult
        else
        let s := s.sourceThrough src 0 16384
        let s := if headOk u (mBytes ws) then s.sourceThrough src (16384 * m.dirFirst) (16384 * m.dirUnits) else s
        let layers := (List.range (min m.layers 160)).map fun l => layerRecOf (layerBytes u l)
        let ents := (List.range (if headOk u (mBytes ws) then m.dirCount else 0)).map fun i =>
          bytesWords 16 ((dir.drop (64 * i)).take 64)
        match imageFault u dir (mBytes ws) layers ents with
        | some i => s.failJob j.uid stInvalid i
        | none => match s.makeSlot j u layers ents with
          | .inr n => s.failJob j.uid stExhausted n
          | .inl t =>
            ({ s with slots := t :: s.slots }.hashMessage j (mBytes ws)).modJob j.uid fun j => { j with ext := .load 0 shaH }

/-- Put the part of [start, start + len) that lies in image bytes [pos, pos + bs.length) at `dst`. -/
def State.putPart (s : State) (pos : Nat) (bs : List Byte) (start len dst : Nat) : State :=
  let lo := max pos start
  let hi := min (pos + bs.length) (start + len)
  if lo < hi then s.store (dst + (lo - start)) ((bs.drop (lo - pos)).take (hi - lo)) else s

/-- Step 4 for one run of image bytes: the pinned TRUs and sidecars among them go to their slots. -/
def State.scatter (s : State) (t : Slot) (pos : Nat) (bs : List Byte) : State :=
  let m := t.manifest
  t.pinned.foldl (fun s r =>
    let s := s.putPart pos bs (slotBytes * (m.payFirst + r.1)) (slotBytes * r.2.1) r.2.2
    s.putPart pos bs (slotBytes * m.sideFirst + 1024 * r.1) (1024 * r.2.1) (sidecarOf r.2.2)) s

/-- Experts are promoted in ascending HEAT while the cache has room. -/
def State.firstExperts (s : State) (t : Slot) (ram : Nat) : State :=
  (sortBy (fun a b => decide (a.heat < b.heat)) t.experts).foldl (fun s x =>
    match s.slots.find? fun u => u.idx == t.idx with
    | none => s
    | some u =>
      match u.cachePlace x.runs (u.cacheUsed 0) with
      | none => s
      | some frames =>
        (s.copyTrus u ram x.trus frames).modSlot u.idx fun u =>
          u.modExpert x.layer x.number fun x => { x with frames := frames, cached := true, lastUse := s.now }) s

/-- Steps 5 and 6: the digest is written and the slot is loaded. -/
def State.endLoad (s : State) (j : Job) (t : Slot) (hash : List Nat) : State :=
  if (hostBase ≤ dOut j.words && !s.hostOk j.part) || (!t.experts.isEmpty && !s.sourceUp j.part t.source) then
    s.failJob j.uid stLink noResult
  else if !t.experts.isEmpty && s.sourceHeld t.source 0 t.manifest.imageBytes then s else
    let digest := shaFinish hash [] t.manifest.imageBytes
    let s := (s.firstExperts t (dArg j.words)).store (dOut j.words) digest
    let s := s.modSlot t.idx fun u => { u with loaded := true, digest := digest }
    s.finishUid j.uid t.granules.length

/-- The next 16 MiB of the image (R255); the load ends once every byte is hashed. -/
def State.loadMore (s : State) (j : Job) (pos : Nat) (hash : List Nat) (badUnit : Option Nat) : State :=
  match s.slots.find? fun t => t.idx == dSlot j.words && t.part == j.part with
  | none => s
  | some t =>
    let n := min 0x1000000 (t.manifest.imageBytes - pos)
    if n = 0 then (if s.sec.crypto.any fun c => c.uid == some j.uid then s else s.endLoad j t hash)
    else if !s.sourceUp j.part t.source then s.failJob j.uid stLink noResult
    else match badUnit.filter fun b => decide (pos ≤ slotBytes * b) && decide (slotBytes * b < pos + n) with
    | some b => (s.badUnitRecord j.part t.source b).failJob j.uid stData noResult
    | none =>
      if s.sourceTorn t.source pos n then s.failJob j.uid stData noResult else
      if s.sourceHeld t.source pos n then s else
      let bs := s.imageBytes t.source (dArg j.words) pos n
      ((s.sourceThrough t.source pos n).scatter t pos bs).modJob j.uid fun j =>
        { j with ext := .load (pos + n) (shaBlocks (n / 128) hash bs) }

/-- The image bytes that a resumed load has still to hash. -/
def State.rehash (s : State) (j : Job) (pos : Nat) : State := s.hashMessage j (mBytes j.words - pos)

/-- A LOAD_MODEL starts, resumes, or goes on with its next 16 MiB. -/
def execLoadModel (uid : Nat) (badUnit : Option Nat) (s : State) : Res :=
  .next (match s.starting uid 0x01 with
    | some (j, t) => match j.ext with
      | .load pos hash => (t.rehash j pos).loadMore j pos hash badUnit
      | _ => if t.loadHeld j then s else t.startLoad j badUnit
    | none => match s.job? uid with
      | none => s
      | some j => match j.ext with
        | .load pos hash =>
          if j.opcode == 0x01 && j.state == .running && !j.finished && s.cpRunning j.cp && s.cpRunning 2 then
            s.loadMore j pos hash badUnit
          else s
        | _ => s)

/-! ## UNLOAD_MODEL (R257) -/

/-- The unfinished jobs that an UNLOAD_MODEL cancels: those of its partition that name its slot, taken before it; later ones
find the slot gone. -/
def State.slotJobs (s : State) (u : Job) : List Job :=
  s.jobs.list.filter fun j => j.part == u.part && !j.finished && usesSlot j.opcode && dSlot j.words == dSlot u.words &&
    decide (j.uid < u.uid)

/-- Take a slot out of use: sequences, prefix nodes, variants and moves go; its granules wait for the epoch (R242). -/
def State.unloadSlot (s : State) (t : Slot) : State :=
  let p := t.part
  let s := (s.seqs.filter fun q => q.slot == t.idx && q.part == p).foldl (fun s q => s.releaseSeq q) s
  let s := (s.dropSlotNodes p t.idx).dropSlotVariants p t.idx
  let ofSlot : MoveWhat → Bool := fun w => match w with
    | .expert n _ _ => n == t.idx
    | .page _ => false
  let s := { s with
    moves := s.moves.filter fun m => !ofSlot m.what
    slots := s.slots.filter fun u => u.idx != t.idx }.withdrawXfers fun x =>
      s.moves.any fun m => ofSlot m.what && x.own == some m.id
  s.modKv p fun k => { k with freed := t.granules.map (fun g => (g, k.epoch)) ++ k.freed }

/-- Steps 2 to 4 once the cancelled jobs are final. -/
def State.unloadRest (s : State) (j : Job) : State :=
  if (s.slotJobs j).isEmpty then
    match s.slots.find? fun t => t.idx == dSlot j.words && t.part == j.part with
    | some t => (s.unloadSlot t).finishUid j.uid noResult
    | none => s.finishUid j.uid noResult
  else s

def State.startUnload (s : State) (j : Job) : State :=
  match s.namedSlot j.part (dSlot j.words) with
  | .inr st => s.failJob j.uid st noResult
  | .inl _ =>
    let s := (s.slotJobs j).foldl
      (fun s k => if k.state == .cancelling then s else s.startEnding k.uid .cancel) s
    s.unloadRest j

def execUnloadModel (uid : Nat) (s : State) : Res :=
  .next (match s.starting uid 0x02 with
    | some (j, t) => t.startUnload j
    | none => match s.job? uid with
      | some j => if j.opcode == 0x02 && j.state == .running && !j.finished then s.unloadRest j else s
      | none => s)

/-! ## PROMOTION (R259, R260) -/

/-- Reserve cache frames for a waiting promotion; Siphon has its transfers, TRU by TRU. -/
def State.startExpertMove (s : State) (m : Move) (prio : Nat) : State :=
  match m.what with
  | .page _ => s
  | .expert slot layer number =>
    match s.slot? slot with
    | none => s
    | some t =>
      match t.experts.find? fun x => x.layer == layer && x.number == number with
      | none => s
      | some x =>
        if m.started || !s.cpRunning 2 then s else
          let r := t.reserve x.runs (s.safeEpoch t.part) (s.kv t.part).epoch t.experts.length
          match r.1 with
          | none => s.modSlot slot fun _ => r.2
          | some frames =>
            let s := s.modSlot slot fun _ => r.2.modExpert layer number fun x => { x with frames := frames, moving := true }
            frames.foldl (fun s a =>
                (s.placeOwn m.part m.id prio a slotBytes).placeOwn m.part m.id prio (sidecarOf a) 1024)
              (s.modMove m.id fun m => { m with started := true })

/-- Moves that wait for frames try again. -/
def State.startMoves (s : State) (p : Nat) : State :=
  (s.moves.filter fun m => m.part == p && !m.started).foldl (fun s m =>
    let prio := (m.waiters.map fun w => s.jobPrio w.uid).foldl max 0
    (s.startExpertMove m prio).startPageMove m prio) s

/-- A job's need for an expert, as its router choice names it. -/
def State.needExpert (s : State) (j : Job) (t : Slot) (layer number t0 planned unissued : Nat) : State :=
  let s := s.modSlot t.idx fun t => t.modExpert layer number fun x => { x with lastUse := s.now }
  match t.experts.find? fun x => x.layer == layer && x.number == number with
  | none => s
  | some x =>
    if x.cached then s else
      let w : Waiter :=
        { uid := j.uid, deadline := some (fetchTick (s.part j.part).ratePct t0 planned unissued), exact := false
          path := .undecided, layer := layer, seq := 0, head := 0, index := number }
      match s.moves.find? fun m => m.what == .expert t.idx layer number with
      | some m => (s.startExpertMove m j.prio).joinMove m.id w
      | none =>
        let m : Move :=
          { id := s.nextMove, part := j.part, what := .expert t.idx layer number, started := false, frames := [], waiters := [] }
        ({ s with moves := s.moves ++ [m] }.startExpertMove m j.prio).joinMove m.id w

def execPromotion (uid layer expert need planned unissued : Nat) (s : State) : Res :=
  .next (match s.job? uid with
    | none => s
    | some j =>
      if (servingOp j.opcode || j.opcode == 0x0C) && j.state == .running && !j.finished && s.cpRunning 2 then
        match s.namedSlot j.part (dSlot j.words) with
        | .inl t => s.needExpert j t layer expert need planned unissued
        | .inr _ => s
      else s)

/-! ## MOVE_LANDED (R243, R155, R259) -/

/-- A source that cannot be read is a missed deadline where a cheaper path is allowed; elsewhere, and for a list that is always
exact, it ends the job (R261, R262). -/
def State.unreadable (s : State) (m : Move) (w : Waiter) (status : Nat) : State :=
  match s.job? w.uid with
  | none => s
  | some j =>
    if w.path == .cheap then s
    else if s.cheapOk j && !w.exact && w.path == .undecided then s.takeCheap m w j
    else s.failJob' j.uid status

/-- The counters that a landed move signals: the one of its block that each waiting job's expansion names for its moves (R105;
log entry 82). -/
def State.moveCounters (s : State) (m : Move) : List Nat :=
  ((m.waiters.map Waiter.uid).eraseDups.filterMap s.job?).filterMap fun j =>
    if expands j.opcode then j.ctrs.map fun c => c.1 + 14 else none

def State.landMove (s : State) (m : Move) : State :=
  let s := { s with moves := s.moves.filter fun k => k.id != m.id }
  let s := match m.what with
    | .page i =>
      if (s.pte m.part i).state == 3 then s.landPage m.part i (m.frames.getD 0 0) (m.frames.getD 1 0)
      else (s.freeFrame m.part (m.frames.getD 0 0)).freeFrame m.part (m.frames.getD 1 0)
    | .expert slot layer number =>
      match s.slot? slot with
      | none => s
      | some t => match t.experts.find? fun (x : Expert) => x.layer == layer && x.number == number with
        | none => s
        | some x =>
          (s.copyTrus t 0 x.trus x.frames).modSlot slot fun t =>
            t.modExpert layer number fun x => { x with cached := true, moving := false, lastUse := s.now }
  let s := (s.moveCounters m).foldl (fun s c => s.signal c 0x5A (some m.part)) s
  s.startMoves m.part

def State.moveSourceUp (s : State) (m : Move) : Bool :=
  match m.what with
  | .expert slot _ _ => match s.slot? slot with
    | some t => s.sourceUp m.part t.source
    | none => true
  | .page _ => true

/-- The window of an erase holds back the reads of a move's source. -/
def State.moveHeld (s : State) (m : Move) : Bool :=
  match m.what with
  | .expert slot layer number => match s.slot? slot with
    | none => false
    | some t => (t.experts.filter fun x => x.layer == layer && x.number == number).any fun x => x.trus.any fun k =>
      s.sourceHeld t.source (slotBytes * (t.manifest.payFirst + k)) slotBytes ||
        s.sourceHeld t.source (slotBytes * t.manifest.sideFirst + 1024 * k) 1024
  | .page i => s.readHeld (s.pageDies m.part i)

/-- A move whose source lies in a torn band reads nothing (R306). -/
def State.moveTorn (s : State) (m : Move) : Bool :=
  match m.what with
  | .expert slot layer number => match s.slot? slot with
    | none => false
    | some t => (t.experts.filter fun x => x.layer == layer && x.number == number).any fun x => x.trus.any fun k =>
      s.sourceTorn t.source (slotBytes * (t.manifest.payFirst + k)) slotBytes ||
        s.sourceTorn t.source (slotBytes * t.manifest.sideFirst + 1024 * k) 1024
  | .page i => s.pageTorn m.part i

/-- The move as it stands, for each waiter in turn: an earlier one's decision may have been for it too. -/
def State.eachWaiter (s : State) (m : Move) (ws : List Waiter) (status : Nat) : State :=
  ws.foldl (fun s w => match s.moves.find? fun k => k.id == m.id with
    | none => s
    | some k => match k.waiters.find? fun v => v.uid == w.uid && v.layer == w.layer && v.seq == w.seq && v.head == w.head &&
        v.index == w.index with
      | none => s
      | some v => s.unreadable k v status) s

/-- A move has landed when its transfers are complete (R243). A backing in the host window that cannot be reached is recorded by
the host link (R261; log entry 92). -/
def execMoveLanded (mv : Nat) (s : State) : Res :=
  .next (match s.moves.find? fun m => m.id == mv && m.started with
    | none => s
    | some m =>
      if s.moveTorn m then s.eachWaiter m m.waiters stData
      else if s.moveHeld m || !s.cpRunning 2 || s.ownOut mv then s
      else if s.moveSourceUp m then s.landMove m
      else (s.raise 0x50 6 0 (some m.part) 0 0).eachWaiter m m.waiters stLink)

/-! ## FETCH_DEADLINE (R260, R261) -/

/-- The record of an uncorrectable read of a move's source, by the channel of its first unit. -/
def State.moveReadRecord (s : State) (m : Move) : State :=
  match m.what with
  | .expert slot layer number => match s.slot? slot with
    | none => s
    | some t =>
      let tru := ((t.experts.find? fun x => x.layer == layer && x.number == number).map fun x => x.trus.headD 0).getD 0
      s.badUnitRecord m.part t.source (t.manifest.payFirst + tru)
  | .page i =>
    let e := s.pte m.part i
    s.badUnitRecord m.part (.volume e.volume 0 0) (e.payload / pageBytes)

/-- At tick D of a fetch that has not landed, the job's path is decided; an unreadable source counts as a missed deadline. -/
def execFetchDeadline (mv uid : Nat) (unreadable : Bool) (s : State) : Res :=
  .next (match s.moves.find? fun m => m.id == mv with
    | none => s
    | some m =>
      let mine := m.waiters.filter fun w => w.uid == uid && w.path != .cheap
      if unreadable then (if mine.isEmpty then s else (s.moveReadRecord m).eachWaiter m mine stData)
      else match mine.find? fun w => w.path == .undecided && w.deadline.any fun d => decide (d ≤ s.now) with
        | some w => s.decidePath m w
        | none => s)

end Sys2Proof.Machine
end

