-- ==== Sys2Proof/Machine/MathFn.lean ====
section
/-! DEFINITION. The correctly rounded functions of R110 and log of R223: each is evaluated in fixed point with
Config.guardBits fraction bits and rounded once (log entry 10). -/

namespace Sys2Proof.Machine

/-- One in fixed point. -/
def fxOne : Nat := 2 ^ Config.guardBits

/-- Σ t_n with t_0 = first and t_(n+1) = f n t_n, over `fuel` terms. -/
def series (f : Nat → Nat → Nat) (fuel first : Nat) : Nat :=
  ((List.range fuel).foldl (fun (st : Nat × Nat) n => (st.1 + st.2, f n st.2)) (0, first)).1

/-- exp(num / den) in fixed point, for 0 ≤ num / den ≤ 256: the argument is divided by 2^16, summed and squared back. -/
def fxExp (num den : Nat) : Nat :=
  let y := num * fxOne / (den * 2 ^ 16)
  let e := series (fun n t => t * y / (fxOne * (n + 1))) 60 fxOne
  (List.range 16).foldl (fun e _ => e * e / fxOne) e

/-- exp of a finite value as a positive rational; beyond ±256 the result's rounding is already decided. -/
def expRat (neg : Bool) (num den : Nat) : Nat × Nat :=
  let big := 256 * den < num
  let e := if big then 2 ^ 400 * fxOne else fxExp num den
  if neg then (fxOne, e) else (e, fxOne)

def fexp (x : F32) : F32 :=
  match f32Val x with
  | .nan => f32NaN
  | .inf neg => if neg then 0 else f32Inf
  | .fin neg n d => if n = 0 then f32One else let r := expRat neg n d; toF32 (.fin false r.1 r.2)

/-- σ(x) = 1 / (1 + e⁻ˣ). -/
def fsigmoid (x : F32) : F32 :=
  match f32Val x with
  | .nan => f32NaN
  | .inf neg => if neg then 0 else f32One
  | .fin neg n d =>
    let r := expRat neg n d
    toF32 (.fin false r.1 (r.1 + r.2))

def ftanh (x : F32) : F32 :=
  match f32Val x with
  | .nan => f32NaN
  | .inf neg => toF32 (.fin neg 1 1)
  | .fin neg n d =>
    if n = 0 then x else
      let r := expRat false (2 * n) d
      toF32 (.fin neg (r.1 - r.2) (r.1 + r.2))

/-- arctan(1 / k) in fixed point. -/
def fxArctanInv (k : Nat) : Nat :=
  let t := (List.range 200).map fun n => fxOne / ((2 * n + 1) * k ^ (2 * n + 1))
  ((List.range 100).map fun i => t.getD (2 * i) 0 - t.getD (2 * i + 1) 0).sum

/-- π in fixed point by Machin's formula. -/
def fxPi : Nat := 16 * fxArctanInv 5 - 4 * fxArctanInv 239

/-- erf by e^(−z²) Σ 2ⁿ z^(2n+1) / (2n+1)!!, every term positive. -/
def ferf (x : F32) : F32 :=
  match f32Val x with
  | .nan => f32NaN
  | .inf neg => toF32 (.fin neg 1 1)
  | .fin neg n d =>
    if n = 0 then x else if 6 * d < n then toF32 (.fin neg 1 1) else
      let z := n * fxOne / d
      let zz := z * z / fxOne
      let s := series (fun k t => t * 2 * zz / (fxOne * (2 * k + 3))) 400 z
      let e := fxExp (n * n) (d * d)
      toF32 (.fin neg (2 * s * fxOne) (e * isqrt (fxPi * fxOne)))

/-- rsqrt(x) = 1 / √x. -/
def frsqrt (x : F32) : F32 :=
  match f32Val x with
  | .nan => f32NaN
  | .inf neg => if neg then f32NaN else 0
  | .fin neg n d =>
    if n = 0 then toF32 (.inf neg) else if neg then f32NaN else let r := sqrtRat d n; toF32 (.fin false r.1 r.2)

/-- 2·artanh(num / den) in fixed point, for num / den ≤ 1/3. -/
def fxLog1 (num den : Nat) : Nat :=
  let z := num * fxOne / den
  let zz := z * z / fxOne
  2 * ((List.range 140).foldl (fun (st : Nat × Nat) n => (st.1 + st.2 / (2 * n + 1), st.2 * zz / fxOne)) (0, z)).1

/-- The natural logarithm (R223). -/
def flog (x : F32) : F32 :=
  match f32Val x with
  | .nan => f32NaN
  | .inf neg => if neg then f32NaN else f32Inf
  | .fin neg n d =>
    if n = 0 then f32NegInf else if neg then f32NaN else
      let e := floorLog2 n d
      let mn := n * 2 ^ (-e).toNat
      let md := d * 2 ^ e.toNat
      let v : Int := e * (fxLog1 1 3 : Int) + (fxLog1 (mn - md) (mn + md) : Int)
      toF32 (.fin (decide (v < 0)) v.natAbs fxOne)

end Sys2Proof.Machine
end

