-- ==== Sys2Proof/Machine/TileData.lean ====
section
/-! DEFINITION. What a tile task reads, and the values it makes of it: stored elements, sidecars (R244 to R246), the weight
side (R119, R124, R150, R245), the token side (R120, R125 to R127), page lists and attention partials (R165 to R168), the
VECTOR program (R97, R108 to R111), and PACK's output (R75 to R79). -/

namespace Sys2Proof.Machine

/-! ## Stored elements -/

/-- The code of element `i` of the stream at `base` (R49, R50). -/
def State.codeAt (s : State) (f : Fmt) (base i : Nat) : Nat :=
  match f with
  | .t1 => tc 2 (tritAt (s.byte (base + 13 * (i / 64) + i % 64 / 5)).toNat (i % 64 % 5))
  | _ =>
    let k := f.width * i
    s.readN (base + k / 8) 3 / 2 ^ (k % 8) % 2 ^ f.width

def State.codesAt (s : State) (f : Fmt) (base first n : Nat) : List Nat :=
  (List.range n).map fun i => s.codeAt f base (first + i)

/-- The byte in which element `i` of a stream begins, counted from its start (R49, R50). -/
def Fmt.place (f : Fmt) (i : Nat) : Nat := if f == .t1 then 13 * (i / 64) + i % 64 / 5 else f.width * i / 8

/-- The bytes of elements first to first + n - 1 of the stream at `base`. -/
def Fmt.range (f : Fmt) (base first n : Nat) : Nat × Nat :=
  let last := if f == .t1 then f.place (first + n - 1) + 1 else ceilDiv (f.width * (first + n)) 8
  (base + f.place first, last - f.place first)

/-- Whether the byte of element `i` is invalid (R51). -/
def State.t1Bad (s : State) (f : Fmt) (base i : Nat) : Bool :=
  f == .t1 && decide (243 ≤ (s.byte (base + f.place i)).toNat)

/-- Invalid T1 bytes whose first element lies in [first, first + n). -/
def State.t1Errors (s : State) (f : Fmt) (base first n : Nat) : Nat :=
  ((List.range n).filter fun i => (first + i) % 64 % 5 == 0 && s.t1Bad f base (first + i)).length

def State.f32At (s : State) (a : Nat) : F32 := BitVec.ofNat 32 (s.readN a 4)
def State.bf16At (s : State) (a : Nat) : F32 := bf16F32 (s.readN a 2)

/-- σ and z of a token scale record. -/
def State.tokenScale (s : State) (at_ : Nat) : F32 × Nat :=
  let w := s.readN at_ 4
  (bf16F32 (w % 2 ^ 16), bits 23 16 w)

/-! ## One operand group -/

/-- A group as the array sees it: images, the group scale where there is one, counted saturations and DATA occurrences. -/
structure OpGroup where
  images : List Int
  scale : Option F32
  sat : Nat
  data : Nat
  deriving DecidableEq, Repr

/-- A group converted under R63 from exact values. -/
def OpGroup.ofVals (xs : List FV) : OpGroup :=
  let r := decodeGroup xs
  { images := r.2.1.map (sext 8), scale := some (ue5m3F32 r.1), sat := r.2.2, data := 0 }

def fmtD (c : Nat) : Fmt := (fmtOf c).getD .s4

/-! ## Pages and page lists (R147 to R150) -/

/-- What a list entry supplies: keys and values of up to 64 positions, `none` where a position is absent. -/
structure Block where
  keys : List (Option (List FV))
  vals : List (Option (List FV))
  data : Nat               -- DATA occurrences
  deriving DecidableEq, Repr

def Block.absent (data : Nat) : Block :=
  { keys := List.replicate 64 none, vals := List.replicate 64 none, data := data }

def tokVals (d : Nat) (v : Option (Nat × List Byte)) : Option (List FV) :=
  v.map fun x => (List.range d).map fun c => s8Val x c

/-- The 64 positions of an unflushed group. -/
def Group.block (g : Group) (d : Nat) : Block :=
  let at_ (i : Nat) : Option Tok := g.toks.find? fun t => t.pos == i
  { keys := (List.range 64).map fun i => (at_ i).bind fun t => tokVals d t.key
    vals := (List.range 64).map fun i => (at_ i).bind fun t => tokVals d t.val
    data := 0 }

/-- Whether a page's frame can be read by a job of epoch `e`: DRAM, or RECLAIM with the last drop not before the job's
epoch (R150, R154, R174). -/
def Pte.readable (x : Pte) (e : Nat) : Bool := x.state == 1 || (x.state == 4 && x.sidecar != 0 && decide (e ≤ x.epoch))

/-- The page as a job of epoch `e` reads it: where it lies, or the frame that it has left since (R242); none when it is
absent. -/
def State.pageFor (s : State) (p e i : Nat) : Option Pte :=
  let x := s.pte p i
  if x.readable e then some x
  else ((s.kv p).stale.find? fun o => o.page == i && decide (e ≤ o.epoch)).map fun o =>
    { x with state := 1, payload := o.payload, sidecar := o.sidecar, compressed := o.compressed }

/-- A page entry that the task's dimension and format (where it judges them, R169) agree with. -/
def State.pageBlock (s : State) (p epoch i d : Nat) (s4 : Option Bool) : Block :=
  let e := s.pte p i
  if e.state == 0 then Block.absent 1
  else if e.dim != d || (match s4 with
      | some f => f != e.fmtS4
      | none => false) then Block.absent 1
  else match s.pageFor p epoch i with
  | none => Block.absent 0
  | some e =>
    let frame := s.bytesAt e.payload e.frameBytes
    let side := s.bytesAt e.sidecar (sidecarBytes d)
    let row (values : Bool) (t : Nat) : Option (List FV) := some ((List.range d).map fun c => pageVal e frame side values t c)
    { keys := (List.range 64).map (row false), vals := (List.range 64).map (row true), data := 0 }

/-- The group that a TAIL entry names; `page` is the index that the list gives it. -/
def State.tailGroup (s : State) (p h page : Nat) : Option Group :=
  let named := (s.kv p).groups.filter fun g =>
    !g.spec && g.seq == bits 9 0 h && g.layer == bits 17 10 h && g.head == bits 22 18 h && g.page % 256 == bits 30 23 h
  match named.find? fun g => g.page == page && g.flushed.isNone with
  | some g => some g
  | none => match named.find? fun g => g.page == page with
    | some g => some g
    | none => named.head?

/-- Entry `n` of the list at `b`, for page index `page`. -/
def State.listBlock (s : State) (p epoch b n page d : Nat) (s4 : Option Bool) : Block :=
  let h := s.readN (b + 4 * n) 4
  if handleTail h then
    match s.tailGroup p h page with
    | some g => g.block d
    | none => Block.absent 0
  else s.pageBlock p epoch (bits 26 0 h) d s4

/-! ## The weight side -/

def tEndB (t : List Nat) : Fmt := fmtD (tFmtB t)

/-- E of R118: a transposed weight side and a page list reach the array as S8. -/
def tArrayE (t : List Nat) : Nat := if tTransB t || tBMode t = 1 then 16 else (tEndB t).unitElems

/-- U_A of R118. -/
def tUnitA (t : List Nat) : Nat := tArrayE t * (fmtD (tFmtA t)).width / 8

/-- Skew units in a row (R119). -/
def tUnits (t : List Nat) : Nat := ceilDiv (tK t) (tEndB t).unitElems

/-- The block base of an untransposed weight operand (R245). -/
def tBlockBase (t : List Nat) : Nat := tBAddr t - tPart t * tUnits t * (tEndB t).unitBytes

/-- The exact value of element (j, k) of a transposed operand (R124, R125), with the DATA occurrences of its scale. -/
def State.transVal (s : State) (t : List Nat) (weight : Bool) (j k : Nat) : FV × Nat :=
  let f := if weight then tEndB t else fmtD (tFmtA t)
  let x := if weight then tBAddr t else tAAddr t
  let stride := if weight then tBStride t else tAStride t
  let q := k / 64
  let r := k % 64
  let c := bits 19 0 (tParam t) + j
  let b := x + q * (16 * bits 51 20 (tParam t))
  let code := s.codeAt f (b + r * stride + if weight then r * f.unitBytes else 0) c
  if weight then
    if f.converted then (f.val code, 0) else
      let sc := (s.byte (sidecarOf b + 64 * (c / tGroup t) + r)).toNat
      let bad := s.t1Bad f (b + r * stride + r * f.unitBytes) c && decide (j = 0 ∨ c % 64 % 5 = 0)
      ((f.val code).mul (ue5m3Val sc), b2n bad + b2n (sc == 0xFF && decide (j = 0 ∨ c % tGroup t = 0)))
  else if f.scaled then
    let r' := s.tokenScale (sidecarOf (b - b % 16384) + 256 * (b % 16384 / 4096) + 4 * r)
    (((f.val code).add (FV.ofInt (if f.isU then -(r'.2 : Int) else 0))).mul (f32Val r'.1), 0)
  else (f.val code, 0)

/-- Head dimension of entry `n` of a page list. -/
def State.entryDim (s : State) (p b n : Nat) : Nat :=
  let h := s.readN (b + 4 * n) 4
  if handleTail h then ((s.tailGroup p h n).map Group.dim).getD 64 else (s.pte p (bits 26 0 h)).dim

/-- The list entry in which position `k` of a page-list operand lies, when it is not an attention step that reads it: values
run along the list, keys are those of its first entry (R150). -/
def State.operandBlock (s : State) (t : List Nat) (p epoch k : Nat) : Block :=
  let n := if tTransB t then k / 64 else 0
  s.listBlock p epoch (tBAddr t) n n (s.entryDim p (tBAddr t) n) none

/-- Element `k` of output index `j` of a page-list operand, absent ones as zero, with the DATA occurrences of its entry, which
are met once: at the first position that the task reads of it. A channel at or beyond the page's D, which R150 rules out without
a consequence, reads as zero (DESIGN CHOICE, log entry 114). -/
def State.listVal (s : State) (t : List Nat) (p epoch j k : Nat) : FV × Nat :=
  let b := s.operandBlock t p epoch k
  let row := if tTransB t then b.vals.getD (k % 64) none else b.keys.getD j none
  let c := if tTransB t then 64 * tC0 t + j else k
  ((row.map fun v => v.getD c FV.zero).getD FV.zero, if j = 0 && (if tTransB t then k % 64 else k) = 0 then b.data else 0)

/-- Group `g` of the weight side for output channel `j`. -/
def State.weightGroup (s : State) (t : List Nat) (p epoch g j : Nat) : OpGroup :=
  let n := tGroup t
  let f := tEndB t
  if tBMode t = 1 then
    let xs := (List.range n).map fun i => s.listVal t p epoch j (g * n + i)
    { OpGroup.ofVals (xs.map Prod.fst) with data := (xs.map Prod.snd).sum }
  else if tTransB t then
    let xs := (List.range n).map fun i => s.transVal t true j (g * n + i)
    { OpGroup.ofVals (xs.map Prod.fst) with data := (xs.map Prod.snd).sum }
  else
    let base := tBAddr t + j * tBStride t + j * f.unitBytes
    let codes := s.codesAt f base (g * n) n
    let bad := s.t1Errors f base (g * n) n
    if f.converted then OpGroup.ofVals (codes.map f.val)
    else
      let sc := (s.byte (sidecarOf (tBlockBase t) + 64 * (tPart t * (tK t / n) + g) + j)).toNat
      { images := codes.map f.image, scale := some (ue5m3F32 sc), sat := 0, data := bad + b2n (sc == 0xFF) }

/-! ## The token side -/

/-- The source row and channel that a one-dimensional convolution reads, or none for a zero element (R126). -/
def conv1At (t : List Nat) (i r : Nat) : Option (Int × Nat) :=
  let km1 := bits 2 0 (tParam t)
  let cin := bits 27 8 (tParam t)
  let row : Int := (i : Int) - km1 + (r / cin : Nat)
  if row < -(bits 5 3 (tParam t) : Int) then none else some (row, r % cin)

/-- The pixel position that a patch embedding reads: image row, element in the row; none beyond the kernel (R127). -/
def conv2At (t : List Nat) (i r : Nat) : Option (Nat × Nat) :=
  let q := tParam t
  let kh := bits 4 0 q + 1
  let kw := bits 9 5 q + 1
  let ch := bits 23 20 q + 1
  let n := bits 55 36 q + i
  let py := n / bits 35 24 q
  let px := n % bits 35 24 q
  if kh * kw * ch ≤ r then none else
    some (py * (bits 14 10 q + 1) + r / (ch * kw), (px * (bits 19 15 q + 1) + r / ch % kw) * ch + r % ch)

/-- Group `g` of the token side for token `i`. -/
def State.tokenGroup (s : State) (t : List Nat) (g i : Nat) : OpGroup :=
  let n := tGroup t
  let f := fmtD (tFmtA t)
  let plain (codes : List Nat) : OpGroup :=
    if f.converted then OpGroup.ofVals (codes.map f.val) else { images := codes.map f.image, scale := none, sat := 0, data := 0 }
  if tTransA t then OpGroup.ofVals ((List.range n).map fun k => (s.transVal t false i (g * n + k)).1)
  else if tConv t = 1 then
    match conv1At t i (g * n) with
    | none => { images := List.replicate n 0, scale := none, sat := 0, data := 0 }
    | some (row, c) =>
      let base := ((tAAddr t : Int) + row * (tAStride t : Int)).toNat
      let o := plain (s.codesAt f base c n)
      if f.scaled then
        let sigma := (s.tokenScale (tokenRecord (tAAddr t) (tAStride t) row)).1
        { o with scale := some (match o.scale with
            | some a => fmul a sigma
            | none => sigma) }
      else o
  else if tConv t = 2 then
    OpGroup.ofVals ((List.range n).map fun k => match conv2At t i (g * n + k) with
      | none => FV.zero
      | some (y, x) => f.val (s.codeAt f (tAAddr t + y * tAStride t) x))
  else
    let skew := if (truRegion (tAAddr t)).isSome && localBase 0 ≤ tAAddr t && tAAddr t < hostBase then i * tUnitA t else 0
    plain (s.codesAt f (tAAddr t + i * tAStride t + skew) (g * n) n)

/-- σ and z of token `i` at the finish: none where there is no record, or where R125 or R126 takes its place. -/
def State.tokenFinish (s : State) (t : List Nat) (i : Nat) : Option F32 × Nat :=
  let f := fmtD (tFmtA t)
  if f.scaled && !tTransA t && tConv t = 0 then
    let r := s.tokenScale (tokenRecord (tAAddr t) (tAStride t) i)
    (some r.1, if f.isU then r.2 else 0)
  else (none, 0)

/-- F4 operands that enter the cells as they are stored (R64). -/
def tF4s (t : List Nat) : Nat :=
  b2n (fmtD (tFmtA t) == .f4 && !tTransA t) + b2n (tEndB t == .f4 && !tTransB t && tBMode t = 0)

/-! ## ARRAY steps -/

/-- Accumulate group `g` into the tile; saturations and DATA occurrences are counted once per operand group. -/
def State.arrayGroup (s : State) (t : List Nat) (p epoch g : Nat) (acc : List F32) : List F32 × Nat × Nat :=
  let ws := (List.range (tChannels t)).map fun j => s.weightGroup t p epoch g j
  let ts := (List.range (tTokens t)).map fun i => s.tokenGroup t g i
  let new := ts.flatMap fun a => ws.map fun w => (a, w)
  let acc := List.zipWith (fun x y =>
    accGroup x (dot y.1.images y.2.images) (tF4s t) (y.2.scale.getD f32One) y.1.scale) acc new
  (acc, (ws.map OpGroup.sat).sum + (ts.map OpGroup.sat).sum, (ws.map OpGroup.data).sum + (ts.map OpGroup.data).sum)

/-- A tile of accumulators, +0.0. -/
def zeroTile (t : List Nat) : List F32 := List.replicate (tTokens t * tChannels t) 0

/-- Groups of step `k`: one in tile mode, those of 1,024 elements in stripe mode (R102, R123). -/
def stepGroups (t : List Nat) (k : Nat) : List Nat :=
  if tStripe t then
    let per := 1024 / tGroup t
    (List.range per).map (fun i => k * per + i) |>.filter fun g => decide (g * tGroup t < tK t)
  else [k]

/-- The part result of token `i`, channel `j`, of part `q` (R105; log entry 30). -/
def partAddr (t : List Nat) (q i j : Nat) : Nat := tPartAddr t + q * tPartStride t + 256 * i + 4 * j

/-! ## Checksums (R129) -/

/-- Row `i` of 64 rows of images; row 64 is what the edge forms: their sum by reduction index. -/
def edgeRow (m : List (List Int)) (i : Nat) : List Int :=
  if i < 64 then m.getD i [] else
    (List.range ((m.headD []).length)).map fun k => (m.map fun r => r.getD k 0).sum

/-- What cell (i, j) of the 65 x 65 grid sums for a group of token images `a` and weight images `b`: a group sum, or one of the
40-bit sums of the checksum row, the checksum column and the corner. -/
def cellSum (a b : List (List Int)) (i j : Nat) : Int := dot (edgeRow a i) (edgeRow b j)

/-- The checker's equalities over what the cells hold: by rows, and in tile mode by columns and at the corner. -/
def checksHold (stripe : Bool) (cell : Nat → Nat → Int) : Bool :=
  let sum (f : Nat → Int) : Int := ((List.range 64).map f).sum
  ((List.range 64).all fun i => sum (cell i) == cell i 64) &&
    (stripe || (((List.range 64).all fun j => sum (fun i => cell i j) == cell 64 j) &&
      sum (fun i => cell i 64) == cell 64 64 && sum (fun j => cell 64 j) == cell 64 64))

/-- The checks of a group when cell (row, col) is off by `delta`. -/
def checksWith (stripe : Bool) (a b : List (List Int)) (row col : Nat) (delta : Int) : Bool :=
  checksHold stripe fun i j => cellSum a b i j + if i = row && j = col then delta else 0

/-- Token and weight images of group `g` of an ARRAY task without attention. -/
def State.groupImages (s : State) (t : List Nat) (p epoch g : Nat) : List (List Int) × List (List Int) :=
  ((List.range (tTokens t)).map fun i => (s.tokenGroup t g i).images,
    (List.range (tChannels t)).map fun j => (s.weightGroup t p epoch g j).images)

/-- Combine the earlier parts with this one in ascending part index (R65). -/
def State.combineParts (s : State) (t : List Nat) (acc : List F32) : List F32 :=
  let c := tChannels t
  acc.zipIdx.map fun x =>
    let q (n : Nat) : F32 := s.f32At (partAddr t n (x.2 / c) (x.2 % c))
    fadd ((List.range' 1 (tSplit t - 1)).foldl (fun a n => fadd a (q n)) (q 0)) x.1

/-- The finish of R82 for a whole tile, by rows. -/
def State.finishTile (s : State) (t : List Nat) (acc : List F32) : List (List F32) :=
  let c := tChannels t
  (List.range (tTokens t)).map fun i =>
    let sz := s.tokenFinish t i
    (List.range c).map fun j =>
      finishElem (acc.getD (i * c + j) 0) sz.2 (if tUseWsum t then s.f32At (tWsumAddr t + 4 * j) else 0) sz.1
        (if tUseBias t then some (s.bf16At (tBiasAddr t + 2 * j)) else none)

/-! ## The VECTOR program -/

/-- The address of the row of vector operand `v` for token `i` (R97). -/
def State.vecRow (s : State) (t : List Nat) (v i : Nat) : Nat :=
  if tVecStrideRaw t v = 0xFFFF then s.readN (tVecAddr t v + 8 * i) 6 else tVecAddr t v + i * (16 * tVecStrideRaw t v)

def State.vecElems (s : State) (t : List Nat) (v i n : Nat) : List F32 :=
  let a := s.vecRow t v i
  if tVecBf16 t v then (List.range n).map fun c => s.bf16At (a + 2 * c) else (List.range n).map fun c => s.f32At (a + 4 * c)

/-- The operand of a step, one value per channel. -/
def State.vecOperand (s : State) (t : List Nat) (sel i n : Nat) : List F32 :=
  if sel < 2 then s.vecElems t sel i n else List.replicate n (tConst t (sel - 2))

def half : F32 := 0x3F000000

def geluErf (x : F32) : F32 := fmul half (fmul x (fadd f32One (ferf (fmul x 0x3F3504F3))))

def geluTanh (x : F32) : F32 :=
  let u := fmul (fmul (fmul x x) x) 0x3D372713
  fmul half (fmul x (fadd f32One (ftanh (fmul (fadd x u) 0x3F4C422A))))

def relu (x : F32) : F32 := if flt x 0 then 0 else x

def rmsNorm (x g : List F32) (eps : F32) : List F32 :=
  let m := fdiv (chunkSum (x.map fun a => fmul a a)) (f32Int x.length)
  let r := frsqrt (fadd m eps)
  List.zipWith (fun a b => fmul (fmul a r) b) x g

def layerNorm (x g b : List F32) (eps : F32) : List F32 :=
  let mu := fdiv (chunkSum x) (f32Int x.length)
  let d := x.map fun a => fsub a mu
  let v := fdiv (chunkSum (d.map fun a => fmul a a)) (f32Int x.length)
  let r := frsqrt (fadd v eps)
  List.zipWith fadd (List.zipWith (fun a k => fmul (fmul a r) k) d g) b

def softmax (x : List F32) : List F32 :=
  let m := x.foldl fmax (x.headD 0)
  let e := x.map fun a => fexp (fsub a m)
  let t := chunkSum e
  e.map fun a => fdiv a t

/-- ROPE over the pairs of a span; `cs` holds D / 2 pairs (cosine, sine). -/
def ropeSpan (d : Nat) (cs x : List F32) : List F32 :=
  (List.range x.length).map fun c =>
    let i := c % d / 2
    let a := x.getD (c - c % 2) 0
    let b := x.getD (c - c % 2 + 1) 0
    let co := cs.getD (2 * i) 0
    let si := cs.getD (2 * i + 1) 0
    if c % 2 = 0 then fsub (fmul a co) (fmul b si) else fadd (fmul a si) (fmul b co)

/-- One step over one row (R109). What an adaptation step makes of the row is a free function of what it is given, any NaN
canonical (R56; log entry 6). -/
def State.vecStep (s : State) (t : List Nat) (i : Nat) (x : List F32) (b : Nat) : List F32 :=
  let op := b % 64
  let sel := b / 64
  let n := x.length
  match op with
  | 0x01 => List.zipWith fadd x (s.vecOperand t sel i n)
  | 0x02 => List.zipWith fmul x (s.vecOperand t sel i n)
  | 0x03 => x.map relu
  | 0x04 => x.map fsigmoid
  | 0x05 => x.map fun a => fmul a (fsigmoid a)
  | 0x06 => x.map geluErf
  | 0x07 => x.map geluTanh
  | 0x08 => rmsNorm x (s.vecOperand t sel i n) (tConst t 1)
  | 0x09 => layerNorm x (s.vecElems t 0 i n) (s.vecElems t 1 i n) (tConst t 1)
  | 0x0A => softmax x
  | 0x0B => let d := dimOf (tParam t % 4); ropeSpan d (s.vecElems t sel i d) x
  | _ =>
    if adaptOp op then
      (List.range n).map fun c => canonF32 (Config.adaptElem op x (s.vecOperand t sel i n) [tConst t 0, tConst t 1] c)
    else x

def State.runProgram (s : State) (t : List Nat) (i : Nat) (x : List F32) : List F32 :=
  (tProgram t).foldl (fun x b => s.vecStep t i x b) x

/-- The stored bytes of an output row in FP32 or BF16. -/
def rowBytes (f32 : Bool) (x : List F32) : List Byte :=
  if f32 then f32Bytes x else Fmt.bf16.pack (x.map fun a => toBf16 (f32Val a))

/-! ## Spans of ROW and GATHER tasks (R106, R107) -/

/-- Token `i`'s span of a ROW task, widened. -/
def State.rowSpan (s : State) (t : List Nat) (i : Nat) : List F32 :=
  let f := fmtD (tFmtA t)
  let codes := s.codesAt f (tAAddr t + i * tAStride t) 0 (tK t)
  if f.scaled then
    let r := s.tokenScale (tokenRecord (tAAddr t) (tAStride t) i)
    codes.map fun c => toF32 (((f.val c).add (FV.ofInt (if f.isU then -(r.2 : Int) else 0))).mul (f32Val r.1))
  else codes.map fun c => toF32 (f.val c)

/-- The index that token `i` of a GATHER task reads. -/
def State.gatherIndex (s : State) (t : List Nat) (i : Nat) : Nat := s.readN (tAAddr t + 4 * i) 4

/-- Token `i`'s row of a GATHER task with its DATA occurrences. -/
def State.gatherSpan (s : State) (t : List Nat) (i : Nat) : List F32 × Nat :=
  let f := tEndB t
  let n := s.gatherIndex t i
  let k := tK t
  if bits 31 0 (tParam t) ≤ n then (List.replicate k 0, 1) else
    let base := tBAddr t + n * tBStride t + n % 64 * f.unitBytes
    let codes := s.codesAt f base 0 k
    if f.converted then (codes.map fun c => toF32 (f.val c), 0) else
      let g := tGroup t
      let side := sidecarOf (tBAddr t + (n - n % 64) * tBStride t)
      let sc := (List.range (k / g)).map fun q => (s.byte (side + 64 * q + n % 64)).toNat
      (codes.zipIdx.map fun c => toF32 ((f.val c.1).mul (ue5m3Val (sc.getD (c.2 / g) 0))),
        s.t1Errors f base 0 k + (sc.filter fun x => x == 0xFF).length)

/-- The smoothing divisors (R85). -/
def State.divisors (s : State) (t : List Nat) : Option (List F32) :=
  if tSmooth t then some ((List.range (tK t)).map fun c => s.bf16At (tWsumAddr t + 2 * c)) else none

def badDivisors (d : Option (List F32)) : Bool :=
  match d with
  | none => false
  | some l => l.any fun x => !fIsFin x || (f32Val x).isZero

/-- The span of token `i` after ROTATE and VECTOR, with DATA occurrences. -/
def State.spanOut (s : State) (t : List Nat) (i : Nat) : List F32 × Nat :=
  let x := if tKind t = 1 then (s.rowSpan t i, 0) else s.gatherSpan t i
  (s.runProgram t i (rotateRow (s.divisors t) (tHad t) x.1), x.2)

/-- Store token `i`'s span: its bytes, and its token scale record where the format carries one (R75 to R79). The number is
PACK's saturations. -/
def State.storeSpan (s : State) (t : List Nat) (i : Nat) (x : List F32) : State × Nat :=
  let a := tOutAddr t + i * tOutStride t
  if tOutF32 t then (s.store a (f32Bytes x), 0) else
    let f := fmtD (tFmtOut t)
    let q := spanQuant f (x.map f32Val)
    let s := s.store a (f.pack q.2.2.1)
    (if f.scaled then s.store (tokenRecord (tOutAddr t) (tOutStride t) i) (scaleRecord q.1 q.2.1) else s, q.2.2.2)

/-! ## Attention (R162 to R168) -/

def aQPos (t : List Nat) : Nat := bits 20 0 (tParam t)
def aHpk (t : List Nat) : Nat := bits 24 21 (tParam t) + 1
def aMask (t : List Nat) : Nat := bits 26 25 (tParam t)
def aRetrieved (t : List Nat) : Bool := bit 27 (tParam t)
def aNDraft (t : List Nat) : Nat := bits 34 28 (tParam t)
def aDraft0 (t : List Nat) : Nat := bits 40 35 (tParam t)
def aSeq (t : List Nat) : Nat := bits 50 41 (tParam t)
def aLayer (t : List Nat) : Nat := bits 58 51 (tParam t)
def aHead (t : List Nat) : Nat := bits 63 59 (tParam t)

def isAttn (t : List Nat) : Bool := tKind t = 0 && (tProgram t).any fun b => b % 64 == 0x10

/-- The page index of list entry `n`. -/
def State.entryPage (s : State) (t : List Nat) (n : Nat) : Nat :=
  if aRetrieved t then s.readN (tPartAddr t + 4 * n) 4 else n

/-- The list entries that the part consumes (R165). -/
def State.attnEntries (s : State) (t : List Nat) : List Nat :=
  let n := tListLen t
  let parts := tSplit t + 1
  let lo := tPart t * n / parts
  let hi := (tPart t + 1) * n / parts
  let last := aQPos t + tTokens t / aHpk t - 1
  (List.range' lo (hi - lo)).filter fun e => aMask t != 1 || decide (64 * s.entryPage t e ≤ last)

/-- Whether the part also reads the draft block. -/
def attnDrafts (t : List Nat) : Bool := decide (0 < aNDraft t) && tPart t = tSplit t

/-- The draft block: draft entries 0 to NDRAFT - 1 of (SEQ, LAYER, HEAD). -/
def State.draftBlock (s : State) (t : List Nat) (p : Nat) : Block :=
  match s.findGroup p (aSeq t) (aLayer t) (aHead t) 0 true with
  | none => Block.absent 0
  | some g =>
    let b := g.block (tK t)
    let read (l : List (Option (List FV))) : List (Option (List FV)) :=
      l.zipIdx.map fun x => if x.2 < aNDraft t then x.1 else none
    { b with keys := read b.keys, vals := read b.vals }

/-- Whether position `j` of an entry is visible to row `r`; `page` is none for the draft block (R168). -/
def State.visible (s : State) (t : List Nat) (r : Nat) (page : Option Nat) (j : Nat) : Bool :=
  let q := r / aHpk t
  match page with
  | some n => aMask t != 1 || decide (64 * n + j ≤ aQPos t + q)
  | none => bit j (s.readN (tVecAddr t 1 + (aDraft0 t + q) * 8) 8)

/-- The groups of query row `r`. -/
def State.queryGroups (s : State) (t : List Nat) (r : Nat) : List OpGroup :=
  (List.range (tK t / tGroup t)).map fun g => s.tokenGroup t g r

/-- The scores of one query row against the keys of a block: one accumulation per key over the groups of D (R166). `seen` says
which positions the row sees, `f4` whether its codes are F4. -/
def scoreRow (seen : Nat → Bool) (f4 : Bool) (sigma : Option F32) (scale : F32) (b : Block) (qs : List OpGroup)
    (keys : List (List OpGroup)) : List F32 :=
  (List.range 64).map fun j =>
    if (b.keys.getD j none).isNone || !seen j then f32NegInf else
      let acc := (List.zipWith Prod.mk qs (keys.getD j [])).foldl (fun acc (x : OpGroup × OpGroup) =>
        accGroup acc (dot x.1.images x.2.images) (b2n f4) (x.2.scale.getD f32One) x.1.scale) 0
      fmul (finishElem acc 0 0 sigma none) scale

/-- As scoreRow, for row `r` of a task. -/
def State.attnScores (s : State) (t : List Nat) (b : Block) (page : Option Nat) (r : Nat) (qs : List OpGroup)
    (keys : List (List OpGroup)) : List F32 :=
  scoreRow (s.visible t r page) (fmtD (tFmtA t) == .f4) (s.tokenFinish t r).1 (tConst t 0) b qs keys

/-- 128 times the exponential of a score. -/
def attnExp (m x : F32) : F32 := if x = f32NegInf then 0 else fmul (fexp (fsub x m)) 0x43000000

/-- The weight integer of a score: 128 times exp, rounded, at most 127. -/
def attnWeight (m x : F32) : Int := min 127 (toIntRange 0 255 (f32Val (attnExp m x))).1

/-- The page partial of one row; none when it sees no key. A score of +inf makes its own weight a NaN, which the row then has
met (R167; log entry 72). -/
def attnPartial (scores : List F32) (vals : List OpGroup) : Option RowState :=
  let m := scores.foldl fmax f32NegInf
  if m = f32NegInf then none else
    let q := scores.map (attnWeight m)
    let sum := toF32 ((FV.ofInt (q.foldl (· + ·) 0)).mul (.fin false 1 128))
    some { m := m, l := if scores.any (fun x => fIsNaN (attnExp m x)) then f32NaN else sum
           o := vals.map fun v => accGroup 0 (dot q v.images) 0 (v.scale.getD f32One) (some (ue5m3F32 0x40)) }

def RowState.start (d : Nat) : RowState := { m := f32NegInf, l := 0, o := List.replicate d 0 }

/-- The combine of R167. -/
def RowState.combine (a b : RowState) : RowState :=
  if b.m = f32NegInf then a else if a.m = f32NegInf then b else
    let x := fmax a.m b.m
    let p := fexp (fsub a.m x)
    let q := fexp (fsub b.m x)
    { m := x, l := fadd (fmul a.l p) (fmul b.l q), o := List.zipWith (fun u v => fadd (fmul u p) (fmul v q)) a.o b.o }

/-- Fold a page partial into a row's state. -/
def RowState.fold (a : RowState) (scores : List F32) (vals : List OpGroup) : RowState :=
  match attnPartial scores vals with
  | none => a
  | some p => a.combine p

/-- The finish of R167: canonical NaN for a row that met a NaN. -/
def RowState.finish (a : RowState) : List F32 :=
  a.o.map fun o =>
    if fIsNaN a.m || fIsNaN a.l then f32NaN else if flt 0 a.l then fdiv o a.l else 0

/-- The keys of a block in groups of `g` channels, none for an absent one. -/
def Block.keyGroups (b : Block) (d g : Nat) : List (List OpGroup) :=
  b.keys.map fun k => match k with
    | none => []
    | some v => (chunksOf g (d / g) v).map OpGroup.ofVals

/-- The values of a block: one group of its 64 positions for each channel. -/
def Block.valGroups (b : Block) (d : Nat) : List OpGroup :=
  (List.range d).map fun c => OpGroup.ofVals (b.vals.map fun v => (v.map fun x => x.getD c FV.zero).getD FV.zero)

/-- Fold one block into every row state; the number is the saturations of the groups that DECODE converts (R60, R63). The query
groups count again with each block: the spec does not say how often DECODE converts them (DESIGN CHOICE, log entry 111). -/
def State.attnFold (s : State) (t : List Nat) (b : Block) (page : Option Nat) (rows : List RowState) :
    List RowState × Nat :=
  let d := tK t
  let keys := b.keyGroups d (tGroup t)
  let vals := b.valGroups d
  let qs := (List.range rows.length).map fun r => s.queryGroups t r
  let rows := rows.zipIdx.map fun x => x.1.fold (s.attnScores t b page x.2 (qs.getD x.2 []) keys) vals
  let sats (l : List (List OpGroup)) : Nat := (l.map fun k => (k.map OpGroup.sat).sum).sum
  (rows, sats qs + sats keys + (vals.map OpGroup.sat).sum)

/-- The stored form of a row state in a merge record (R171). -/
def RowState.bytes (a : RowState) : List Byte := f32Bytes (a.m :: a.l :: a.o)

def State.rowStateAt (s : State) (a d : Nat) : RowState :=
  { m := s.f32At a, l := s.f32At (a + 4), o := (List.range d).map fun c => s.f32At (a + 8 + 4 * c) }

end Sys2Proof.Machine
end

