-- ==== Sys2Proof/Machine/TileCheck.lean ====
section
/-! DEFINITION. The validity of a tile task record: R81, R83, R98, R108, R113, R128, R141, R150, R162, R169, R171, R173, R230
and R245 to R247. A record comes from a tile list, or from Kadon's own expansion of a job. -/

namespace Sys2Proof.Machine

/-! ## Fields -/

/-- The bits that R96 reserves in each word. -/
def tReserved : List (Nat × Nat) :=
  [(0, 0xF8000038), (1, 0x80000000), (2, 0xFFF00000), (3, 0x80000000), (13, 0xFFFF0000), (15, 0xFFF80000), (24, 0xF800),
    (25, 0xFC00F800), (28, 0xFFFFFCC0), (29, 0xFFFFFFFF), (30, 0xFFFFFFFF), (31, 0xFFFFFFFF)]

def tReservedOk (t : List Nat) : Bool := t.length == 32 && tReserved.all fun r => wordAt t r.1 &&& r.2 == 0

/-- PARAM's reserved bits (R96, R124, R126, R127, R163). -/
def tParamOk (t : List Nat) : Bool :=
  let q := tParam t
  match tKind t with
  | 1 => decide (q < 3)
  | 2 => decide (q < 2 ^ 32)
  | _ =>
    if isAttn t then true
    else if tConv t = 1 then bits 7 6 q == 0 && decide (q < 2 ^ 28)
    else if tConv t = 2 then decide (q < 2 ^ 56)
    else if tTransA t || (tTransB t && tBMode t = 0) then decide (q < 2 ^ 52)
    else q == 0

/-- Fields of ARRAY tasks that must be 0 elsewhere (R98). -/
def tArrayFields (t : List Nat) : Nat :=
  (wordAt t 0 &&& 0x03FF3F04) + bits 25 16 (wordAt t 25) + tChannels t + tListHi t

def fmtOk (f : Option Fmt) (p : Fmt → Bool) : Bool :=
  match f with
  | some f => p f
  | none => false

/-- Formats (R47, R48, R81, R96, R98). A U4Z or U8Z token side needs weight sums: a transposed weight side and a page list carry
none (R125, R150; log entry 80). -/
def tFormatsOk (t : List Nat) : Bool :=
  let a := fmtOf (tFmtA t)
  let b := fmtOf (tFmtB t)
  let o := fmtOf (tFmtOut t)
  let out := if tOutF32 t then tFmtOut t == 0 else fmtOk o fun f => if tKind t = 0 then f == .bf16 else f.packed
  out && fmtOk a Fmt.tokenSide && (match tKind t with
    | 0 => fmtOk b Fmt.weightSide &&
      (!(fmtOk a Fmt.isU) || (fmtOk b (fun f => !f.converted) && tUseWsum t && !tTransB t && tBMode t = 0))
    | 1 => true
    | _ => fmtOk b Fmt.weightSide)

/-- TOKENS, CHANNELS and K_LEN (R98, R71, R75, R84). -/
def tShapeOk (t : List Nat) : Bool :=
  let n := tTokens t
  let k := tK t
  if tKind t = 0 then
    decide (1 ≤ n) && decide (n ≤ if tStripe t then 8 else 64) && decide (1 ≤ tChannels t) && decide (tChannels t ≤ 64) &&
      decide (tGroup t ≤ k) && k % tGroup t == 0 && (tEndB t != .t1 || k % 64 == 0)
  else
    decide (1 ≤ n) && decide (n ≤ 64) && decide (64 ≤ k) && decide (k ≤ 16384) && k % 64 == 0 &&
      (tHad t = 0 || k % tHad t == 0) && (tKind t = 1 || (tEndB t).converted || k % tGroup t == 0)

/-- One step of a program (R108, R109, R230). -/
def stepOk (t : List Nat) (adapt : Bool) (b : Nat) : Bool :=
  let op := b % 64
  let sel := b / 64
  if op == 0x01 || op == 0x02 then true
  else if 0x03 ≤ op && op ≤ 0x07 then sel == 0
  else if op == 0x08 then tKind t != 0
  else if op == 0x09 || op == 0x0A then tKind t != 0 && sel == 0
  else if op == 0x0B then tKind t == 1 && decide (sel ≤ 1)
  else if op == 0x10 then tKind t == 0 && tProgram t == [0x10] && (tEnd t).isSome
  else adapt && adaptOp op

/-- R108's judgement. A program with no END among its eight bytes is valid and runs all eight steps (DESIGN CHOICE, log
entry 81: the rule says neither). -/
def tProgramOk (t : List Nat) (adapt : Bool) : Bool :=
  (tProgram t).all (stepOk t adapt) && (match tEnd t with
    | some b => b == 0
    | none => true)

/-- Write modes, splits and modes of the operands (R98, R128, R150, R171; a MERGE_PARTIAL of a task without attention has
no row states to write: log entry 31). -/
def tModesOk (t : List Nat) : Bool :=
  tKind t != 3 && tConv t != 3 && decide (tBMode t ≤ 1) && tWMode t != 3 && tGroupCode t != 3 &&
    (tBMode t = 1 || tListHi t = 0) &&
    (if tKind t = 0 then
      tHadCode t = 0 && !tSmooth t && decide (tPart t ≤ tSplit t) && tWMode t != 1 && (tWMode t != 2 || isAttn t) &&
        (tConv t = 0 || (tBMode t = 0 && !isAttn t && !tTransA t && !tTransB t)) && !(tTransA t && tTransB t) &&
        (tBMode t = 0 || (decide (1 ≤ tListLen t) && decide (tListLen t ≤ 32767)))
    else tWMode t != 2 && (tWMode t != 1 || tKind t = 1) && tArrayFields t == 0)

/-! ## Kinds of operand -/

/-- The convolutions' conditions (R126 to R128). -/
def tConvOk (t : List Nat) : Bool :=
  let q := tParam t
  let f := fmtD (tFmtA t)
  let resident := localBase 0 ≤ tAAddr t && tAAddr t < hostBase
  if tConv t = 1 then
    let cin := bits 27 8 q
    (bits 2 0 q + 1) * cin == tK t && cin % tGroup t == 0 && !f.isU && !resident
  else if tConv t = 2 then
    let kh := bits 4 0 q + 1
    let kw := bits 9 5 q + 1
    let n := kh * kw * (bits 23 20 q + 1)
    decide (8 ≤ kh) && decide (8 ≤ kw) && decide (bits 14 10 q < kh) && decide (bits 19 15 q < kw) &&
      decide (1 ≤ bits 35 24 q) && tK t == ceilDiv n (tGroup t) * tGroup t && f.converted && !resident
  else true

/-- A transposed operand (R124, R128): not resident, its output range within the stored rows. -/
def tTransOk (t : List Nat) : Bool :=
  let within (f : Fmt) (a stride n : Nat) : Bool :=
    !(localBase 0 ≤ a && a < hostBase) && decide (f.bytesFor (bits 19 0 (tParam t) + n) ≤ stride)
  if tTransA t then within (fmtD (tFmtA t)) (tAAddr t) (tAStride t) (tTokens t)
  else if tTransB t && tBMode t = 0 then within (tEndB t) (tBAddr t) (tBStride t) (tChannels t)
  else true

/-- A page list outside attention (R150): C0 with keys is 0; a channel is below the largest D. -/
def tListOk (t : List Nat) : Bool :=
  tBMode t = 0 || isAttn t || ((tTransB t || tC0 t = 0) &&
    (!tTransB t || (decide (tK t ≤ 64 * tListLen t) && decide (64 * tC0 t + tChannels t ≤ 256))))

/-- R162 and R169. -/
def tAttnOk (t : List Nat) : Bool :=
  !isAttn t || (tBMode t = 1 && !tStripe t && !tTransA t && !tTransB t && tC0 t = 0 && !tUseWsum t && !tUseBias t &&
    tChannels t = 64 && !(fmtD (tFmtA t)).isU && (tEndB t == .s8 || tEndB t == .s4) &&
    (tK t = 64 || tK t = 128 || tK t = 256) && decide (tGroup t ≤ tK t) && tTokens t % aHpk t == 0 &&
    (tWMode t = 2 || (tWMode t = 0 && tSplit t = 0)) && aMask t != 3 &&
    (if aMask t = 2 then
      decide (1 ≤ aNDraft t) && decide (aNDraft t ≤ 64) && decide (aDraft0 t + tTokens t / aHpk t ≤ aNDraft t)
    else aNDraft t = 0) && tConst t 1 = 0)

/-- A merge record: OUT_ADDR's reserved bits, its alignment and extent, the counters (R171, R173). -/
def tMergeOk (t : List Nat) (limit : Nat) : Bool :=
  tWMode t != 2 || (decide (tOutAddr t < 2 ^ 22) && tOutAddr t % 64 == 0 && tCombineCtr t = 0 &&
    (tPart t = tSplit t || !tSignalEn t) &&
    decide (tOutAddr t + (tSplit t + 1) * (tTokens t * (4 * tK t + 8)) ≤ limit))

/-- Target of a KV append: position or draft index, sequence, layer, head, values, speculative (R141). -/
def kPos (t : List Nat) : Nat := bits 20 0 (tOutAddr t)
def kSeq (t : List Nat) : Nat := bits 30 21 (tOutAddr t)
def kLayer (t : List Nat) : Nat := bits 38 31 (tOutAddr t)
def kHead (t : List Nat) : Nat := bits 43 39 (tOutAddr t)
def kValues (t : List Nat) : Bool := bit 44 (tOutAddr t)
def kSpec (t : List Nat) : Bool := bit 45 (tOutAddr t)

def headDim (m : Manifest) : Nat := dimOf m.headDim

/-- With draft entries, SEQ and LAYER name the layer whose page format FMT_B must be (R169). A SEQ that is not resident in the
partition, or a LAYER beyond its model, names no such layer: the record is invalid (DESIGN CHOICE, log entry 117). -/
def State.tDraftOk (s : State) (p : Nat) (t : List Nat) : Bool :=
  !(isAttn t && decide (0 < aNDraft t)) || (match s.seq? (aSeq t) with
    | none => false
    | some q => match s.slot? q.slot with
      | none => false
      | some m => q.part == p && decide (aLayer t < m.manifest.layers) &&
          (tEndB t == .s4) == (m.layer (aLayer t)).fmtS4)

/-- R141. -/
def State.tAppendOk (s : State) (p : Nat) (t : List Nat) : Bool :=
  tWMode t != 1 || (match s.seq? (kSeq t) with
    | none => false
    | some q => match s.slot? q.slot with
      | none => false
      | some m =>
        q.part == p && bits 47 46 (tOutAddr t) == 0 && tOutStride t = 0 && tFmtOut t = 4 && !tOutF32 t &&
          tK t = headDim m.manifest && decide (kLayer t < m.manifest.layers) &&
          decide (kHead t < (m.layer (kLayer t)).kvHeads) &&
          (!kSpec t || decide (kPos t + tTokens t ≤ 64)))

/-- R81's second condition, where the weight side is a tensor of a loaded image. Another weight side has no directory entry, and
USE_WSUM stands for its sidecar (log entry 80). -/
def State.tSumsOk (s : State) (p : Nat) (t : List Nat) : Bool :=
  !(tKind t = 0 && (fmtD (tFmtA t)).isU) || (match s.tensorEntry p (tBlockBase t) with
    | some e => eWsum e != noEntry
    | none => true)

/-! ## Address ranges -/

/-- The vector operands that a program reads, with their elements (R97, R109). -/
def vecUses (t : List Nat) : List (Nat × Nat) :=
  let n := if tKind t = 0 then tChannels t else tK t
  (tProgram t).flatMap fun b =>
    let op := b % 64
    let sel := b / 64
    if op == 0x09 then [(0, n), (1, n)]
    else if op == 0x0B then [(sel, dimOf (tParam t % 4))]
    else if (op == 0x01 || op == 0x02 || op == 0x08 || adaptOp op) && decide (sel < 2) then [(sel, n)]
    else []

def vecWidth (t : List Nat) (v : Nat) : Nat := if tVecBf16 t v then 2 else 4

def vecRanges (t : List Nat) : List (Nat × Nat) :=
  (vecUses t).map fun u =>
    let raw := tVecStrideRaw t u.1
    (tVecAddr t u.1, if raw = 0xFFFF then 8 * tTokens t else (tTokens t - 1) * (16 * raw) + u.2 * vecWidth t u.1)

/-- Bytes from a token operand's address that its rows take (R120). -/
def tokenExtent (t : List Nat) (a stride : Nat) (f : Fmt) (rows n : Nat) : Nat :=
  if localBase 0 ≤ a && a < hostBase then
    (rows - 1) * stride + (ceilDiv n (tArrayE t) + rows - 1) * tUnitA t
  else (rows - 1) * stride + f.bytesFor n

/-- The range of a transposed operand (R124). -/
def transRange (t : List Nat) (x stride : Nat) (f : Fmt) (skewed : Bool) (n : Nat) : Nat × Nat :=
  let k := tK t
  let last := (k - 1) / 64
  let r := if last = 0 then k - 1 else 63
  (x, last * (16 * bits 51 20 (tParam t)) + r * (stride + if skewed then f.unitBytes else 0) +
    f.bytesFor (bits 19 0 (tParam t) + n))

/-- The largest row and position that a patch embedding reads. -/
def conv2Extent (t : List Nat) : Nat × Nat :=
  let ends := (List.range (tTokens t)).flatMap fun i =>
    let q := tParam t
    let n := (bits 4 0 q + 1) * (bits 9 5 q + 1) * (bits 23 20 q + 1)
    (conv2At t i (n - 1)).toList
  (ends.foldl (fun m e => max m e.1) 0, ends.foldl (fun m e => max m e.2) 0)

/-- The token side's range (R120, R124, R126, R127). -/
def tokenRange (t : List Nat) : Nat × Nat :=
  let f := fmtD (tFmtA t)
  let a := tAAddr t
  if tKind t = 2 then (a, 4 * tTokens t)
  else if tKind t = 1 then (a, (tTokens t - 1) * tAStride t + f.bytesFor (tK t))
  else if tTransA t then transRange t a (tAStride t) f false (tTokens t)
  else if tConv t = 1 then
    let back := min (bits 5 3 (tParam t)) (bits 2 0 (tParam t))
    (a - back * tAStride t, (back + tTokens t - 1) * tAStride t + f.bytesFor (bits 27 8 (tParam t)))
  else if tConv t = 2 then
    let e := conv2Extent t
    (a, e.1 * tAStride t + f.bytesFor (e.2 + 1))
  else (a, tokenExtent t a (tAStride t) f (tTokens t) (tK t))

/-- Bytes of a GATHER table's block, and how many blocks it has (R107, R245). -/
def tableBlock (t : List Nat) : Nat × Nat :=
  (63 * tBStride t + (tUnits t + 63) * (tEndB t).unitBytes, ceilDiv (bits 31 0 (tParam t)) 64)

/-- The weight side's ranges (R107, R119, R124, R150, R165, R168). -/
def weightRanges (t : List Nat) : List (Nat × Nat) :=
  if tKind t = 1 then []
  else if tKind t = 2 then
    let b := tableBlock t
    if b.2 = 0 then [] else [(tBAddr t, (b.2 - 1) * 64 * tBStride t + b.1)]
  else if tBMode t = 1 then
    (tBAddr t, 4 * tListLen t) ::
      ((if isAttn t && aRetrieved t then [(tPartAddr t, 4 * tListLen t)] else []) ++
        (if isAttn t && aMask t = 2 then [(tVecAddr t 1 + 8 * aDraft0 t, 8 * (tTokens t / aHpk t))] else []))
  else if tTransB t then [transRange t (tBAddr t) (tBStride t) (tEndB t) true (tChannels t)]
  else [(tBAddr t, 63 * tBStride t + (tUnits t + 63) * (tEndB t).unitBytes)]

/-- The extent of one part result (log entry 30). -/
def partExtent (t : List Nat) : Nat := 256 * (tTokens t - 1) + 4 * tChannels t

def splits (t : List Nat) : Bool := tKind t = 0 && !isAttn t && decide (0 < tSplit t)

def readRanges (t : List Nat) : List (Nat × Nat) :=
  tokenRange t :: (weightRanges t ++ vecRanges t ++
    (if tKind t = 0 && tUseWsum t then [(tWsumAddr t, 4 * tChannels t)] else []) ++
    (if tKind t = 0 && tUseBias t then [(tBiasAddr t, 2 * tChannels t)] else []) ++
    (if tKind t != 0 && tSmooth t then [(tWsumAddr t, 2 * tK t)] else []) ++
    (if splits t && tPart t = tSplit t then [(tPartAddr t, (tSplit t - 1) * tPartStride t + partExtent t)] else []))

/-- Where a task stores, beside its token scale records. -/
def writeRanges (t : List Nat) : List (Nat × Nat) :=
  if tWMode t = 1 then []
  else if tWMode t = 2 then
    [(tWsumAddr t, (tTokens t - 1) * tOutStride t + tK t * if tOutF32 t then 4 else 2)]
  else if splits t && decide (tPart t < tSplit t) then [(tPartAddr t + tPart t * tPartStride t, partExtent t)]
  else
    let row :=
      if tOutF32 t then 4 * (if isAttn t || tKind t != 0 then tK t else tChannels t)
      else if tKind t = 0 then 2 * (if isAttn t then tK t else tChannels t)
      else (fmtD (tFmtOut t)).bytesFor (tK t)
    [(tOutAddr t, (tTokens t - 1) * tOutStride t + row)]

/-- The engine whose resident area holds a read operand. -/
def homeEngine (t : List Nat) : Option Nat :=
  ((readRanges t).find? fun r => localBase 0 ≤ r.1 && r.1 < localBase 32).map fun r => (r.1 - localBase 0) / 0x1000000

def isLocal (a : Nat) : Bool := localBase 0 ≤ a && decide (a < localBase 32)

/-- The absolute window of a job, if it has one. -/
def windowRange (w : Nat) : Nat × Nat := (mergeBase + 0x40000 * w, 0x40000)

def inWindow (window : Option Nat) (r : Nat × Nat) : Bool :=
  match window with
  | some w => decide ((windowRange w).1 ≤ r.1) && decide (r.1 + r.2 ≤ (windowRange w).1 + (windowRange w).2)
  | none => false

/-- Whether a range that a task of partition `p` reads lies in the resources that it may name (R351): its DRAM, the host
window, the job's merge window, the resident area of its own engine; Kadon's own tasks read shared SRAM too (log entry 32). -/
def State.rangeOk (s : State) (p : Nat) (kadon : Bool) (window home : Option Nat) (r : Nat × Nat) : Bool :=
  r.2 = 0 || s.inDramHost p r.1 r.2 || (match home with
      | some e => inResident e r.1 r.2
      | none => false) || inWindow window r || (kadon && kadonReads r.1 r.2)

/-- As rangeOk, for a range that it stores to. What the merge unit writes lies in shared SRAM, for it has no DRAM port (R11,
R171). -/
def State.storeOk (s : State) (p : Nat) (kadon : Bool) (window : Option Nat) (merged : Bool) (r : Nat × Nat) : Bool :=
  r.2 = 0 || (!merged && s.inDramHost p r.1 r.2) || inWindow window r || (kadon && kadonWrites r.1 r.2)

/-! ## Sidecars (R245 to R247) -/

/-- A block at `b` of `n` bytes with `groups` scale rows lies in one TRU region from a slot address. -/
def blockOk (b n groups : Nat) : Bool :=
  match truRegion b with
  | none => false
  | some (base, p) => isSlotAddr b && decide (b + n ≤ base + p) && decide (sidecarOf b + 64 * groups ≤ base + p + p / 16)

/-- Token tiles from `a`, of `n` bytes in all: 4 KiB start, 64-byte stride, one TRU region (R246). `back` rows precede
token 0. -/
def tokensOk (a stride n back : Nat) : Bool :=
  a % 4096 == 0 && stride % 64 == 0 && (match truRegion a with
    | none => false
    | some (base, p) => decide (a + n ≤ base + p) && decide (base + (if back = 0 then 0 else 64 * stride) ≤ a))

def sidecarsOk (t : List Nat) : Bool :=
  let fa := fmtD (tFmtA t)
  let fo := fmtD (tFmtOut t)
  let a := tokenRange t
  let back := if tConv t = 1 then min (bits 5 3 (tParam t)) (bits 2 0 (tParam t)) else 0
  let token := !fa.scaled || tKind t = 2 || tConv t = 2 ||
    tokensOk (tAAddr t) (tAStride t) (a.2 - (tAAddr t - a.1)) back
  let weight :=
    if tKind t = 1 || (tEndB t).converted || tBMode t = 1 then true
    else if tKind t = 2 then
      let b := tableBlock t
      (List.range b.2).all fun m => blockOk (tBAddr t + 64 * m * tBStride t) b.1 (tK t / tGroup t)
    else if tTransB t then
      (List.range (ceilDiv (tK t) 64)).all fun q => blockOk (tBAddr t + q * (16 * bits 51 20 (tParam t)))
        (63 * (tBStride t + (tEndB t).unitBytes) + (tEndB t).bytesFor (bits 19 0 (tParam t) + tChannels t))
        (ceilDiv (bits 19 0 (tParam t) + tChannels t) (tGroup t))
    else
      let own := 63 * tBStride t + (tUnits t + 63) * (tEndB t).unitBytes
      decide (tPart t * tUnits t * (tEndB t).unitBytes ≤ tBAddr t) &&
        blockOk (tBlockBase t) (tBAddr t - tBlockBase t + own) ((tPart t + 1) * (tK t / tGroup t))
  let out := tKind t = 0 || tOutF32 t || tWMode t = 1 || !fo.scaled ||
    tokensOk (tOutAddr t) (tOutStride t) ((tTokens t - 1) * tOutStride t + fo.bytesFor (tK t)) 0
  token && weight && out

/-! ## A whole record -/

/-- The checks that need no state but its fields. -/
def recordOk (t : List Nat) (adapt : Bool) : Bool :=
  tReservedOk t && tModesOk t && tParamOk t && tFormatsOk t && tShapeOk t && tProgramOk t adapt && tConvOk t && tTransOk t &&
    tListOk t && tAttnOk t &&
    (tKind t != 0 || tBMode t = 1 || tTransB t || decide (tUnits t * (tEndB t).unitBytes ≤ tBStride t)) && sidecarsOk t

/-- Validity of a record for a job of partition `p` whose tasks may run on `pool` (R98 and the rules it gathers). -/
def State.tileOk (s : State) (p : Nat) (kadon adapt : Bool) (window : Option Nat) (pool : List Nat) (t : List Nat) : Bool :=
  let home := homeEngine t
  recordOk t adapt && tMergeOk t (if kadon then 0x400000 else 0x40000) && s.tAppendOk p t && s.tDraftOk p t && s.tSumsOk p t &&
    (match home with
      | none => true
      | some e => pool.contains e && (!tPin t || tPinEngine t == e)) &&
    (tWMode t != 0 || !isLocal (tOutAddr t)) &&
    (readRanges t).all (s.rangeOk p kadon window home) &&
    (writeRanges t).all (s.storeOk p kadon window (tWMode t = 2))

/-! ## A whole list (R113) -/

/-- The counters that a record names. -/
def tCounters (t : List Nat) : List Nat :=
  (if tWaitEn t then [tWaitCtr t] else []) ++ (if tSignalEn t then [tSignalCtr t] else []) ++
    (if splits t && tPart t = tSplit t then [tCombineCtr t] else [])

/-- Records that signal a counter: for a merge its last part, whose counter the merge unit increments (R172). -/
def signalsOf (l : List (List Nat)) (c : Nat) : Nat := (l.filter fun t => tSignalEn t && tSignalCtr t == c).length

/-- The parts of one split have its SPLIT, PART_ADDR and PART_STRIDE, or for a merge its record (log entry 31). -/
def sameSplit (a b : List Nat) : Bool :=
  tSplit a == tSplit b && tWMode a == tWMode b &&
    (if tWMode a = 2 then tOutAddr a == tOutAddr b else tPartAddr a == tPartAddr b && tPartStride a == tPartStride b)

/-- Record `t` after the earlier records `before`. -/
def State.listRecordOk (s : State) (p : Nat) (window : Option Nat) (pool : List Nat) (before : List (List Nat))
    (t : List Nat) : Bool :=
  s.tileOk p false false window pool t && (!tPin t || pool.contains (tPinEngine t)) &&
    (tCounters t).all (fun c => decide (c < 256)) &&
    (!tWaitEn t || decide (tWaitVal t ≤ signalsOf before (tWaitCtr t))) &&
    (tKind t != 0 || tSplit t = 0 || tPart t != tSplit t ||
      (List.range (tSplit t)).all fun q => before.any fun u => tKind u = 0 && sameSplit u t && tPart u == q)

/-- The index of the first invalid record. -/
def State.badRecord (s : State) (p : Nat) (window : Option Nat) (pool : List Nat) :
    List (List Nat) → List (List Nat) → Option Nat
  | _, [] => none
  | before, t :: rest =>
    if s.listRecordOk p window pool before t then State.badRecord s p window pool (before ++ [t]) rest else some before.length

end Sys2Proof.Machine
end

