-- ==== Sys2Proof/Machine/TileSched.lean ====
section
/-! DEFINITION. Contexts and their scheduling: placement and loading (R100, R112, R356, R392), steps and fetch-pool slots
(R101, R102), faults of a context (R115), re-runs and map-out (R116, R130, R131, R416). -/

namespace Sys2Proof.Machine

/-! ## Pools and placement -/

def tileListOp (op : Nat) : Bool := op == 0x30

/-- The engines that a job's tasks may go to now: ENGINE_MASK for a tile list, else its pool, or the other pool when that
one is empty (R113, R194, R416). -/
def State.jobPool (s : State) (j : Job) : List Nat :=
  let live := s.liveEngines j.part
  if tileListOp j.opcode then live.filter fun e => bit e (wordAt j.words 6)
  else
    let mine := live.filter fun e => j.pool.contains e
    if mine.isEmpty then live else mine

/-- Tasks of a job loaded ahead on an engine (R112 rule 8). -/
def Engine.load (g : Engine) (uid : Nat) : Nat :=
  (g.ctxs.filter fun x => x.uid == uid && x.state != .faulted).length + (g.placed.filter fun x => x.uid == uid).length

/-- A switched-off engine lost its resident area (R392). -/
def State.residentReady (s : State) (e : Nat) (t : List Nat) : Bool := homeEngine t != some e || (s.eng e).residentValid

/-- Whether a part of the task's split is, or was until it retired, on engine `e`. -/
def State.hasPart (s : State) (uid e : Nat) (t : List Nat) : Bool :=
  let g := s.eng e
  (g.ctxs.any fun x => x.uid == uid && tSplit x.words != 0 && sameSplit x.words t) ||
    (g.placed.any fun w => w.uid == uid && tSplit w.words != 0 && sameSplit w.words t) ||
    (((s.job? uid).map Job.partsOn).getD []).any fun p => p.1 == e && sameSplit p.2 t

/-- The engine for a task (R112 rules 7 and 8): fewest non-FREE contexts, parts of one split on distinct engines where the
pool allows it. `kept` says that Kadon has the source of its resident operands. -/
def State.chooseEngine (s : State) (uid : Nat) (pool : List Nat) (kept : Bool) (t : List Nat) : Option Nat :=
  let ok := pool.filter fun e => decide ((s.eng e).load uid < 32) && (kept || s.residentReady e t)
  let apart := ok.filter fun e => tSplit t = 0 || !s.hasPart uid e t
  minBy (fun e => (s.eng e).ctxs.length) (if apart.isEmpty then ok else apart)

/-! ## Loading -/

def Engine.freeCtx (g : Engine) : Option Nat := (List.range 128).find? fun i => g.ctxs.all fun x => x.idx != i

def Ctx.fresh (i seq : Nat) (w : Placed) (t : List Nat) : Ctx :=
  { idx := i, state := .loaded, cause := .none, uid := w.uid, part := w.part, words := t, loadSeq := seq, granted := false
    waited := false, combining := false, steps := 0, done := 0, slotsHeld := 0, starved := false, acc := [], rows := []
    written := false
    readySince := 0, aged := false, runs := w.runs, lastChance := w.lastChance, awaitUnit := none, source := w.source }

/-- A record as it is first placed. -/
def Placed.first (part uid : Nat) (words : List Nat) (source : List (List Byte)) : Placed :=
  { part := part, uid := uid, words := words, runs := 0, lastChance := false, avoid := none, source := source }

/-- JOB_REF and PARTITION as the device sets them on loading (R96; log entry 33). -/
def stampRecord (uid part : Nat) (t : List Nat) : List Nat :=
  t.set 1 (putBits 30 28 part (putBits 27 16 uid (wordAt t 1)))

/-- Whether a partition may load on an engine now (R356). -/
def Engine.admits (g : Engine) (part : Nat) : Bool := g.holder.isNone || g.holder == some part

/-- Token scale records and weight scale rows of a task's operands (R245, R246). -/
def sidecarRanges (t : List Nat) : List (Nat × Nat) :=
  (if (fmtD (tFmtA t)).scaled && tKind t != 2 && tConv t = 0 && !tTransA t then
      (List.range (tTokens t)).map fun i => (tokenRecord (tAAddr t) (tAStride t) i, 4)
    else []) ++
  (if tKind t = 2 && !(tEndB t).converted then
      (List.range (tableBlock t).2).map fun m => (sidecarOf (tBAddr t + 64 * m * tBStride t), 64 * (tK t / tGroup t))
    else []) ++
  (if tKind t = 0 && tBMode t = 0 && !tTransB t && !(tEndB t).converted then
      [(sidecarOf (tBlockBase t) + 64 * (tPart t * (tK t / tGroup t)), 64 * (tK t / tGroup t))]
    else [])

/-- What a task reads of an engine's resident area. -/
def residentRanges (e : Nat) (t : List Nat) : List (Nat × Nat) :=
  (readRanges t ++ sidecarRanges t).filter fun r => decide (0 < r.2) && inResident e r.1 r.2

/-- Kadon's copy of a task's resident operands with their sidecars (R116). -/
def State.residentSource (s : State) (e : Nat) (t : List Nat) : List (List Byte) :=
  (residentRanges e t).map fun r => s.bytesAt r.1 r.2

/-- Siphon writes the operands of a task that Kadon keeps the source of into the engine's resident area (R116; log
entry 34). -/
def State.putSource (s : State) (e : Nat) (w : Placed) : State :=
  if w.source.isEmpty then s else
    ((List.zipWith (fun (r : Nat × Nat) b => (r.1, b)) (residentRanges e w.words) w.source).foldl
      (fun s x => s.put x.1 x.2) s).modEng e fun g => { g with residentValid := true }

/-! The divider that a holder's operating point asks for (R400) -/

def oppDiv (code : Nat) : Nat := if code = 2 then 4 else if code = 3 then 6 else if code = 4 then 8 else 3

/-- The least divider that an engine's holder allows: its operating point for the pool of the engine. -/
def State.baseDiv (s : State) (e : Nat) : Nat :=
  match (s.eng e).holder with
  | none => 3
  | some p =>
    let q := s.part p
    if !q.powerPriv then 3
    else if ((s.liveEngines p).take q.prefillCount).contains e then oppDiv q.power.prefillOpp else oppDiv q.power.decodeOpp

/-- Put a task into the lowest FREE context, ramping a switched-off engine; or keep it as placed. From its holder's first task on
an engine runs no faster than the holder prefers (R400). -/
def State.placeTask (s : State) (e : Nat) (w : Placed) : State :=
  let g := s.eng e
  let keep := s.modEng e fun g => { g with placed := g.placed ++ [w] }
  if !g.admits w.part then keep else
    match g.freeCtx with
    | none => keep
    | some i =>
      let s := (s.putSource e w).modEng e fun g =>
        { g with
          ctxs := g.ctxs ++ [Ctx.fresh i g.nextLoad w (stampRecord w.uid w.part w.words)]
          nextLoad := g.nextLoad + 1, holder := some w.part
          holdSince := if g.holder == some w.part then g.holdSince else s.now
          domain := if g.domain.powered || g.domain.ramping then g.domain else { g.domain with wants := true } }
      s.modEng e fun g => { g with div := max (s.baseDiv e) g.div }

/-- Load a placed task of a job that can be loaded now. -/
def State.loadPlaced (s : State) (uid : Nat) : Option State :=
  let ready (e : Nat) : Option (Nat × Placed) :=
    let g := s.eng e
    if g.mappedOut || g.freeCtx.isNone then none
    else (g.placed.find? fun w => w.uid == uid && g.admits w.part && (!w.source.isEmpty || s.residentReady e w.words)).map
      fun w => (e, w)
  ((List.range 32).findSome? ready).map fun x =>
    (s.modEng x.1 fun g => { g with placed := g.placed.erase x.2 }).placeTask x.1 x.2

/-! ## Steps -/

/-- Steps that read operands (R102); the combine of part S - 1 is one more. -/
def State.baseSteps (s : State) (t : List Nat) : Nat :=
  if tKind t != 0 then tTokens t
  else if isAttn t then max 1 ((s.attnEntries t).length + b2n (attnDrafts t))
  else if tStripe t then ceilDiv (tK t) 1024
  else tK t / tGroup t

def combines (t : List Nat) : Bool := splits t && tPart t == tSplit t

def State.totalSteps (s : State) (t : List Nat) : Nat := s.baseSteps t + b2n (combines t)

def slotsFor (bytes : Nat) : Nat := ceilDiv bytes 4096

/-- Fetch-pool slots of step `k`: each operand's bytes in slots of 4 KiB; operands in the resident area, with their scale rows,
use none. -/
def State.stepSlots (s : State) (t : List Nat) (k : Nat) : Nat :=
  let fa := fmtD (tFmtA t)
  let fb := tEndB t
  let pooled (a n : Nat) : Nat := if isLocal a then 0 else slotsFor n
  if tKind t = 1 then pooled (tAAddr t) (fa.bytesFor (tK t))
  else if tKind t = 2 then pooled (tAAddr t) 4 + pooled (tBAddr t) (fb.bytesFor (tK t)) +
      if fb.converted then 0 else pooled (tBAddr t) (tK t / tGroup t)
  else if s.baseSteps t ≤ k then slotsFor (tSplit t * partExtent t)
  else if isAttn t then
    pooled (tAAddr t) (tTokens t * fa.bytesFor (tK t)) + slotsFor (payloadBytes (fb == .s4) (tK t)) + slotsFor (sidecarBytes (tK t))
  else
    let groups := (stepGroups t k).length
    let n := groups * tGroup t
    pooled (tAAddr t) (tTokens t * fa.bytesFor n) + pooled (tBAddr t) (64 * fb.bytesFor n) +
      if fb.converted || tBMode t = 1 then 0 else pooled (tBAddr t) (64 * groups)

/-- The state of a context that has steps in hand or left. -/
def State.afterStep (s : State) (x : Ctx) : Ctx :=
  let x := { x with starved := false }
  let n := s.totalSteps x.words
  let base := s.baseSteps x.words
  if x.written || x.awaitUnit.isSome then { x with state := .waitMem }
  else if combines x.words && x.done == base && !x.combining then
    let y := { x with combining := true, state := .waitDep }
    y.wake s.now s.counter
  else if x.steps < (if combines x.words && !x.combining then base else n) && x.steps - x.done < 2 then
    { x with state := .ready, readySince := if x.state == .ready then x.readySince else s.now }
  else { x with state := .waitMem }

/-- Change a context; where this frees slots, those that wait for them become READY (R100). -/
def State.setCtx (s : State) (e c : Nat) (f : Ctx → Ctx) : State :=
  s.modEng e fun g => g.wakeSlots s.now { g with ctxs := g.ctxs.map fun x => if x.idx == c then f x else x }

/-! ## Faults of a context (R115) -/

/-- FAULTED with its cause; the job's other tasks are withdrawn and the job ends. -/
def State.faultCtx (s : State) (e : Nat) (x : Ctx) (cause : CtxCause) (status : Nat) : State :=
  (s.setCtx e x.idx fun x => { x with state := .faulted, cause := cause, slotsHeld := 0 }).failJob' x.uid status

def State.recordOf (s : State) (e : Nat) (x : Ctx) (cls detail info : Nat) : State :=
  s.raise e cls detail (some x.part) (tTag x.words) info

/-! ## Map-out (R116, R131, R416) -/

/-- The operand addresses of a task in engine `e`'s resident area, moved so that `src` becomes `dst`. -/
def moveResident (e src dst : Nat) (t : List Nat) : List Nat :=
  [4, 6, 10, 12, 14, 16, 18].foldl (fun t i =>
    let x := addr48 t i
    if localBase e ≤ x && x < localBase (e + 1) then
      let y := x + dst - src
      (t.set i (y % 2 ^ 32)).set (i + 1) (putBits 15 0 (y / 2 ^ 32) (wordAt t (i + 1)))
    else t) t

def disjoint (a b : Nat × Nat) : Bool := decide (a.1 + a.2 ≤ b.1) || decide (b.1 + b.2 ≤ a.1)

/-- What the tasks on an engine read of its resident area. -/
def State.residentUse (s : State) (e : Nat) : List (Nat × Nat) :=
  (((s.eng e).ctxs.filter fun x => x.state != .faulted).map Ctx.words ++ (s.eng e).placed.map Placed.words).flatMap
    (residentRanges e)

/-- The record of a task of engine `e` with its resident operands at a place of engine `n` that no other task there reads, in
steps of 4 KiB, so that every sidecar stays its operand's. -/
def State.residentPlace (s : State) (e n : Nat) (t : List Nat) : Option (List Nat) :=
  let mine := residentRanges e t
  let src := (mine.foldl (fun m r => min m r.1) (localBase (e + 1))) / 4096 * 4096
  let used := s.residentUse n
  ((List.range 120).map fun k => moveResident e src (localBase n + 0x180000 + 4096 * k) t).find? fun u =>
    let there := residentRanges n u
    there.length == mine.length && sidecarsOk u && there.all fun r => used.all (disjoint r)

/-- A withdrawn task waits in its job to be loaded on another engine than `e`; where none qualifies, its job ends. -/
def State.rerun (s : State) (e : Nat) (w : Placed) : State :=
  match s.job? w.uid with
  | none => s
  | some j =>
    if j.finished || j.state == .cancelling then s else
      let pool := (s.jobPool j).filter fun n => n != e
      if pool.isEmpty then s.failJob' w.uid (if (s.jobPool j).isEmpty then stExhausted else stFault)
      else if homeEngine w.words == some e && tileListOp j.opcode then s.failJob' w.uid stFault
      else s.modJob w.uid fun j => { j with redo := j.redo ++ [w] }

/-- Load the first task that waits in its job: on the engine that holds its resident operands if it may go there, else on one
chosen under R112 rule 7, its operands moved with it; none while every engine of the pool is full. -/
def State.loadRedo (s : State) (j : Job) : Option State :=
  match j.redo with
  | [] => none
  | w :: rest =>
    let pool := (s.jobPool j).filter fun n => w.avoid != some n
    let t := s.modJob j.uid fun j => { j with redo := rest }
    if pool.isEmpty then some (s.failJob' j.uid (if (s.jobPool j).isEmpty then stExhausted else stFault))
    else match homeEngine w.words with
      | none => (s.chooseEngine j.uid pool true w.words).map fun n => t.placeTask n w
      | some h =>
        if pool.contains h then (s.chooseEngine j.uid [h] (!w.source.isEmpty) w.words).map fun n => t.placeTask n w
        else if tileListOp j.opcode then some (s.failJob' j.uid stFault)
        else (s.chooseEngine j.uid (pool.filter fun n => (s.residentPlace h n w.words).isSome) true w.words).bind fun n =>
          (s.residentPlace h n w.words).map fun u => t.placeTask n { w with words := u }

def outCauseClass : OutCause → Option Nat
  | .checksum => some 3
  | .localStore => some 5
  | _ => none

/-- Jobs of a partition that has no engine left end (R416). -/
def State.failEngineless (s : State) : State :=
  (s.jobs.list.filter fun j => needsEngines j.opcode && (s.liveEngines j.part).isEmpty && !j.finished).foldl
    (fun s j => s.failJob' j.uid stExhausted) s

/-- Map an engine out: its state, FAULT_DEGRADED, its partitions, then its tasks elsewhere; for a task whose retry was pending
on it, that run is the last (R131). -/
def State.mapOutEngine (s : State) (e : Nat) (cause : OutCause) : State :=
  if (s.eng e).mappedOut then s else
    let g := s.eng e
    let tasks := (g.ctxs.filter fun x => x.state != .faulted).map
      (fun x => x.placed x.runs (x.lastChance || decide (0 < x.runs)) none) ++ g.placed
    let s := s.modEng e fun g =>
      { g with
        mappedOut := true, outCause := cause, ctxs := g.ctxs.filter fun x => x.state == .faulted
        leaving := [], placed := [], holder := none, ramp := Ramp.off, domain := { g.domain with wants := false } }
    let s := { s with
      faults := { s.faults with enginesOut := s.faults.enginesOut + 1, engineOutMask := s.faults.engineOutMask + 2 ^ e }
      parts := s.parts.map fun (p : Part) => { p with engines := p.engines.filter fun n => n != e } }
    let s := match outCauseClass cause with
      | some c => s.raise e c 7 none 0 e
      | none => s
    let s := s.traceEvent e 2
    let s := tasks.foldl (fun s w => s.rerun e w) s
    let s := s.failEngineless
    if s.engines.all Engine.mappedOut then s.setFault else s

/-- Three occurrences within 1,000,000 ticks (R131, R416). -/
def thirdIn (times : List Nat) (now : Nat) : Bool := decide (3 ≤ (times.filter fun t => decide (now ≤ t + 1000000)).length)

/-! ## Checksum mismatch (R130) -/

/-- Accumulators at +0.0, or attention rows at their start (R94, R167). -/
def Ctx.clear (x : Ctx) : Ctx :=
  { x with
    acc := if tKind x.words = 0 && !isAttn x.words then zeroTile x.words else []
    rows := if isAttn x.words then List.replicate (tTokens x.words) (RowState.start (tK x.words)) else [] }

def State.restartCtx (s : State) (e : Nat) (x : Ctx) : State :=
  s.setCtx e x.idx fun x =>
    { x.clear with
      state := .ready, starved := false, combining := false, steps := 0, done := 0, slotsHeld := 0, written := false, readySince := s.now
      runs := x.runs + 1 }

/-- A mismatch is recorded and counted. -/
def State.noteMismatch (s : State) (e : Nat) (x : Ctx) : State :=
  (s.recordOf e x 3 0 0).modEng e fun (g : Engine) =>
    { g with mismatches := s.now :: g.mismatches.filter fun t => decide (s.now ≤ t + 1000000) }

/-- A mismatch of a withdrawn task counts and is not retried. -/
def State.lateMismatch (s : State) (e : Nat) (x : Ctx) : State :=
  let s := (s.noteMismatch e x).modEng e fun (g : Engine) => { g with leaving := g.leaving.erase x }
  if thirdIn (s.eng e).mismatches s.now then s.mapOutEngine e .checksum else s

/-- A mismatch: recorded, retried on the same engine, then elsewhere, then FAULTED. -/
def State.mismatch (s : State) (e : Nat) (x : Ctx) : State :=
  let s := s.noteMismatch e x
  let out := thirdIn (s.eng e).mismatches s.now
  if x.lastChance then
    let s := s.faultCtx e x .checksum stFault
    if out then s.mapOutEngine e .checksum else s
  else if !out && x.runs = 0 then s.restartCtx e x
  else
    let w := x.placed (x.runs + 1) true (some e)
    let pool := match s.job? x.uid with
      | some j => (s.jobPool j).filter fun n => n != e
      | none => []
    let tileResident := homeEngine x.words == some e && (match s.job? x.uid with
      | some j => tileListOp j.opcode
      | none => true)
    let s := if pool.isEmpty || tileResident then s.faultCtx e x .checksum stFault
      else (s.dropCtx e x.idx).rerun e w
    if out then s.mapOutEngine e .checksum else s

end Sys2Proof.Machine
end

