-- ==== Sys2Proof/Machine/Tile.lean ====
section
/-! DEFINITION. Tile lists, tile tasks, the engines and the merge unit: TILE_LIST, TILE_TASK_LOAD, SLOT_GRANT,
FETCH_STEP_ISSUE, FETCH_STEP_COMPLETE, STOP_RAMP, TASK_RETIRE, PRIORITY_AGING, CONTEXT_RELEASE, ENGINE_MAP_OUT,
SUMP_UNIT_GRANT, APPEND_TIMEOUT and MERGE_FOLD (R92 to R132, R141, R142, R162 to R173). A step's data are read and its
results written when the step completes (log entry 11). -/

namespace Sys2Proof.Machine

/-! ## TILE_LIST (R113, R114, R173) -/

def isMerge (t : List Nat) : Bool := tWMode t = 2

def Merge.size (m : Merge) : Nat := m.parts * (m.tokens * (4 * m.dim + 8))

/-- The merge record of the task's split, as its first part gives it (R171). -/
def Merge.ofTask (uid : Nat) (t : List Nat) : Merge :=
  { uid := uid, offset := tOutAddr t, parts := tSplit t + 1, tokens := tTokens t, dim := tK t, retired := [], folded := 0
    dest := tWsumAddr t, pitch := tOutStride t, f32 := tOutF32 t, signal := none }

def Merge.range (m : Merge) : Nat × Nat := (m.offset, m.size)

/-- Windows of the merge buffers that jobs hold, as offsets. -/
def State.heldWindows (s : State) : List (Nat × Nat) :=
  (s.jobs.list.filterMap Job.window).map fun w => (0x40000 * w, 0x40000)

/-- The lowest merge window that no job holds and no merge record of Kadon's lies in. -/
def State.freeWindow (s : State) : Option Nat :=
  (List.range 16).find? fun w =>
    (s.jobs.list.all fun j => j.window != some w) && s.merges.all fun m => disjoint (0x40000 * w, 0x40000) m.range

/-- Blocks that the records' relative counters need. -/
def blocksFor (records : List (List Nat)) : Nat :=
  ceilDiv ((records.flatMap tCounters).foldl (fun m c => max m (min (c + 1) 256)) 0) 16

/-- What is left of a range when another is taken out of it. -/
def rangeCut (r m : Nat × Nat) : List (Nat × Nat) :=
  let hi := max r.1 (m.1 + m.2)
  [(r.1, min (r.1 + r.2) m.1 - r.1), (hi, r.1 + r.2 - hi)].filter fun x => decide (0 < x.2)

/-- A range of shared SRAM goes to partition `p`: where it holds another partition's data, it is scrubbed first (R357). -/
def State.takeSlice (s : State) (p : Nat) (r : Nat × Nat) : State :=
  let s := if s.jobs.slices.any fun x => x.1 != p && !disjoint x.2 r then s.clearCells r.1 r.2 else s
  let left := s.jobs.slices.flatMap fun x => (rangeCut x.2 r).map fun y => (x.1, y)
  { s with jobs := { s.jobs with slices := (p, r) :: left } }

/-- A merge window goes to a job of partition `p`. -/
def State.giveWindow (s : State) (uid p w : Nat) : State :=
  (s.takeSlice p (windowRange w)).modJob uid fun j => { j with window := some w }

/-- Give the job its counters and, for merges, its window; none while they cannot be allocated. -/
def State.allocTiles (s : State) (uid p : Nat) (records : List (List Nat)) : Option (State × Option Nat) :=
  let n := blocksFor records
  match if n = 0 then some s else (s.freeBlocks n).map fun b => s.takeBlocks uid b n with
  | none => none
  | some s =>
    if records.any isMerge then
      s.freeWindow.map fun w => (s.giveWindow uid p w, some w)
    else some (s, none)

/-- A started tile list: none while its counters or its window cannot be allocated. -/
def State.startTiles (s : State) (j : Job) : Option State :=
  let n := wordAt j.words 3
  let a := addr48 j.words 4
  match s.blocked j a (128 * n) with
  | some s => some s
  | none =>
    let pool := (s.liveEngines j.part).filter fun e => bit e (wordAt j.words 6)
    if pool.isEmpty then some (s.failJob j.uid stInvalid noResult) else
      let records := (List.range n).map fun i => s.wordsAt (a + 128 * i) 32
      (s.allocTiles j.uid j.part records).map fun r =>
        match r.1.badRecord j.part r.2 pool [] records with
        | some i => r.1.failJob j.uid stInvalid i
        | none =>
          let lens := (r.1.seqs.filter fun q => q.part == j.part).map fun q => (q.idx, q.len)
          r.1.modJob j.uid fun j => { j with ext := .tiles records 0 0 lens }

/-- Something begins to wait for a unit (R142). -/
def State.backpressure (s : State) (p tag : Nat) : State :=
  (s.modPart p fun q => { q with ctr := { q.ctr with backpressure := satInc top32 q.ctr.backpressure 1 } }).raise
    0x78 4 0x1A (some p) tag 0

/-- After 1 ms the job ends with RESOURCE_EXHAUSTED and the effects of a cancelled job. -/
def State.exhaustJob (s : State) (uid : Nat) : State :=
  let s := (s.jobError uid stExhausted).withdraw uid
  match s.job? uid with
  | none => s
  | some j => if j.finished then s else (s.cancelEffects j).finishJob j j.progress

/-- A job that could enter RUNNING but for a parked group that finds no unit waits for one, at most 1 ms (R143, R142). -/
def State.waitStart (s : State) (uid op : Nat) : State :=
  match s.job? uid with
  | none => s
  | some j =>
    match s.giveCounters j with
    | none => s
    | some t =>
      if j.opcode == op && s.startable j && (t.unparkSeqs j.part uid (s.heldSeqs j)).isNone then
        match j.unitWait with
        | none => (s.backpressure j.part 0).modJob uid fun j => { j with unitWait := some s.now }
        | some since => if since + msTicks ≤ s.now then s.exhaustJob uid else s
      else s

def execTileList (uid : Nat) (s : State) : Res :=
  .next (match s.starting uid 0x30 with
    | none => s.waitStart uid 0x30
    | some (j, t) => (t.startTiles j).getD s)

/-! ## TILE_TASK_LOAD (R100, R112) -/

/-- A record of a tile list with its counters and its merge offset made absolute. -/
def relocate (base : Nat) (window : Option Nat) (t : List Nat) : List Nat :=
  let up (hi lo i : Nat) (t : List Nat) : List Nat :=
    t.set i (putBits hi lo (bits hi lo (wordAt t i) + base) (wordAt t i))
  let t := up 9 0 24 (up 9 0 25 (up 25 16 25 t))
  match window with
  | some w => if isMerge t then t.set 8 (wordAt t 8 + 0x40000 * w) else t
  | none => t

/-- Load the next record of a tile list. -/
def State.loadNext (s : State) (j : Job) (records : List (List Nat)) (next retired : Nat)
    (lens : List (Nat × Nat)) : State :=
  match records[next]? with
  | none => s
  | some r =>
    let t := relocate ((j.ctrs.map Prod.fst).getD 0) j.window r
    let pool := s.jobPool j
    let pool := if tPin t then pool.filter fun e => e == tPinEngine t else
      match homeEngine t with
      | some h => pool.filter fun e => e == h
      | none => pool
    if pool.isEmpty then s.failJob' j.uid (if (s.jobPool j).isEmpty then stExhausted else stFault)
    else match s.chooseEngine j.uid pool false t with
      | none => s
      | some e =>
        (s.placeTask e (Placed.first j.part j.uid t [])).modJob j.uid fun j =>
          { j with ext := .tiles records (next + 1) retired lens }

/-- Whether an untransposed weight operand is block `m` of directory entry `e`, with the entry's format, group, split, pitch
and channels (R71, R112 rules 2 and 3). -/
def Slot.blockIs (t : Slot) (w : List Nat) (e : List Nat) (m : Nat) : Bool :=
  t.truAddr (eFirst e + m * eBlock e) == some (tBlockBase w) && tFmtB w == bits 3 0 (wordAt e 1) &&
    tGroupCode w == eGroupCode e && tSplit w + 1 == eSplit e && tBStride w == eStride e &&
    tK w == eK e / eSplit e && tChannels w == min 64 (eRows e - 64 * m)

/-- Whether a record is one that Kadon makes of the job by R112: its weights are a block of the slot's directory; in a decode
step the tensors that every token takes run in stripe mode when there are at most 8 (rule 2). A table and a transposed weight
side have the format and the group of the tensor that they are (R71). -/
def State.weightsFit (s : State) (j : Job) (w : List Nat) : Bool :=
  if tKind w = 1 || (tKind w = 0 && tBMode w = 1) then true
  else if tKind w = 2 || tTransB w then
    match s.tensorEntry j.part (tBAddr w) with
    | some e => tFmtB w == bits 3 0 (wordAt e 1) && tGroupCode w == eGroupCode e
    | none => true
  else (match s.slot? (dSlot j.words) with
    | none => false
    | some t => t.ents.any fun e => eKind e == 0 &&
        ((List.range (ceilDiv (eRows e) 64)).any fun m => t.blockIs w e m) &&
        (j.opcode != 0x04 || 7 < eRole e || tStripe w == decide (dCount j.words ≤ 8)))

/-- The length bucket of a list of `n` entries (R170). -/
def lengthBucket (n : Nat) : Nat :=
  ((List.range 15).map fun i => 64 * 2 ^ i).find? (fun b => decide (64 * n ≤ b)) |>.getD 0x100000

/-- The split count S of an attention task (R170). -/
def splitCount (op n : Nat) : Nat :=
  if op = 0x04 || op = 0x05 then max 1 (min 16 (lengthBucket n / 4096)) else 1

/-- The form that R170 and R174 give an attention task of a job. -/
def attnFits (op : Nat) (w : List Nat) : Bool :=
  !isAttn w || op == 0x0C || (tSplit w + 1 == splitCount op (tListLen w) &&
    (let decode := tTokens w == aHpk w && (aMask w == 1 || (aMask w == 0 && aRetrieved w))
    match op with
      | 0x03 => aMask w == 1 && !aRetrieved w
      | 0x04 => decode
      | _ => aMask w == 2 || decode))

/-- Kadon allocates a merge record before it loads a part of it (R173): none while the place is taken, or where the parts do
not agree. -/
def State.allotMerge (s : State) (uid p : Nat) (w : List Nat) : Option State :=
  if !isMerge w then some s else
    let m := Merge.ofTask uid w
    match s.merges.find? fun n => n.uid == uid && n.offset == m.offset with
    | some n => if n.parts == m.parts && n.tokens == m.tokens && n.dim == m.dim then some s else none
    | none =>
      if s.merges.all (fun n => disjoint m.range n.range) && s.heldWindows.all (disjoint m.range) then
        some ({ s with merges := m :: s.merges }.takeSlice p (mergeBase + m.offset, m.size))
      else none

/-- Whether the counters that a record of Kadon's names are of the job's block (R104). -/
def Job.ownCounters (j : Job) (w : List Nat) : Bool :=
  match j.ctrs with
  | some (c, n) => (tCounters w).all fun k => decide (c ≤ k) && decide (k < c + 16 * n)
  | none => (tCounters w).isEmpty

/-- Load a record of Kadon's own expansion of a job, with the job's PRIORITY (R29); an invalid one is a firmware fault (R98);
one that R112 or R174 would not make of the job, or whose merge record cannot be allocated, is not loaded. -/
def State.loadOwn (s : State) (j : Job) (t : List Nat) : State :=
  let pool := s.jobPool j
  let t := t.set 0 (putBits 7 6 j.prio (wordAt t 0))
  if !expands j.opcode then s
  else if !(s.tileOk j.part true (j.opcode == 0x0C) none pool t && j.ownCounters t) then s.failJob' j.uid stFault
  else if !(s.weightsFit j t && attnFits j.opcode t && (tWMode t != 1 || (s.jobSeqs j).contains (kSeq t))) then s
  else
    let home := homeEngine t
    let pool := match home with
      | some h => pool.filter fun e => e == h
      | none => pool
    match s.chooseEngine j.uid pool false t with
    | none => s
    | some e => match s.allotMerge j.uid j.part t with
      | none => s
      | some u =>
        let mine := (writeRanges t).filter fun r => decide (0 < r.2) && kadonWrites r.1 r.2
        (mine.foldl (fun s r => s.takeSlice j.part r) u).placeTask e (Placed.first j.part j.uid t (s.residentSource e t))

def State.taskLoad (s : State) (j : Job) (words : List Nat) : State :=
  match (s.loadPlaced j.uid).orElse fun _ => s.loadRedo j with
  | some t => t
  | none =>
    match j.ext with
    | .tiles records next retired lens => s.loadNext j records next retired lens
    | _ => if words.isEmpty then s else s.loadOwn j words

def execTileTaskLoad (uid : Nat) (words : List Nat) (s : State) : Res :=
  .next (match s.job? uid with
    | none => s
    | some j => if j.state == .running && !j.finished && s.cpRunning j.cp then s.taskLoad j words else s)

/-! ## SLOT_GRANT (R94, R164) -/

/-- Accumulator slots and row buffers that a task holds. -/
def slotNeeds (t : List Nat) : Nat × Nat :=
  if tKind t != 0 then (0, 1) else if isAttn t then (tK t / 64, 1) else (1, 0)

/-- What the contexts of an engine hold. A FAULTED context keeps its record and its cause for Kadon; whether it keeps its slot
or buffer too the spec does not say, and the model frees them at the fault (DESIGN CHOICE, log entry 83). -/
def Engine.held (g : Engine) : Nat × Nat :=
  let l := (g.ctxs.filter fun x => x.granted && x.state != .faulted).map fun x => slotNeeds x.words
  ((l.map Prod.fst).sum, (l.map Prod.snd).sum)

/-- The context that receives its grant next: first in load order among the waiters of every kind it needs. -/
def Engine.grantable (g : Engine) : Option Ctx :=
  let waiting := g.ctxs.filter fun x => x.state == .loaded && !x.granted
  let h := g.held
  minBy Ctx.loadSeq (waiting.filter fun x =>
    let n := slotNeeds x.words
    let first (need : Nat × Nat → Nat) : Bool :=
      need n = 0 || waiting.all fun y => need (slotNeeds y.words) = 0 || decide (x.loadSeq ≤ y.loadSeq)
    first Prod.fst && first Prod.snd && decide (h.1 + n.1 ≤ 96) && decide (h.2 + n.2 ≤ 8))

def State.grantCtx (s : State) (e : Nat) (x : Ctx) : State :=
  s.modCtx e x.idx fun x =>
    let y := { x.clear with granted := true }
    if tWaitEn x.words then ({ y with state := .waitDep } : Ctx).wake s.now s.counter
    else { y with state := .ready, waited := true, readySince := s.now }

def execSlotGrant (eng : Nat) (s : State) : Res :=
  .next (if !(s.eng eng).domain.powered then s else
    match (s.eng eng).grantable with
    | none => s
    | some x => s.grantCtx eng x)

/-! ## FETCH_STEP_ISSUE (R101, R102) -/

def Ctx.effPrio (x : Ctx) : Nat := min 3 (tPrio x.words + b2n x.aged)

/-- The READY context that FETCH takes next. -/
def Engine.nextReady (g : Engine) : Option Ctx :=
  let ready := g.ctxs.filter fun x => x.state == .ready
  match maxBy Ctx.effPrio ready with
  | none => none
  | some top =>
    let p := top.effPrio
    (cyclicFind 128 (g.lastIssued.getD p 127) fun i => ready.any fun x => x.idx == i && x.effPrio == p).bind fun i =>
      ready.find? fun x => x.idx == i

/-- Whether the task reads the host window. -/
def readsHost (t : List Nat) : Bool := (readRanges t).any fun r => decide (0 < r.2) && decide (hostBase ≤ r.1)

def State.issueStep (s : State) (e : Nat) (x : Ctx) : State :=
  if readsHost x.words && !s.hostOk x.part then s.faultCtx e x .link stLink else
    let n := s.stepSlots x.words x.steps
    if 64 < x.slotsHeld + n || 128 < (s.eng e).slotsUsed + n then
      s.modCtx e x.idx fun x => { x with state := .waitMem, starved := true }
    else
      let s := s.modEng e fun (g : Engine) => { g with lastIssued := g.lastIssued.set x.effPrio x.idx }
      s.modCtx e x.idx fun x =>
        s.afterStep { x with steps := x.steps + 1, slotsHeld := x.slotsHeld + n, aged := false, readySince := s.now }

def execFetchStepIssue (eng : Nat) (s : State) : Res :=
  .next (if !(s.eng eng).domain.powered then s else
    match (s.eng eng).nextReady with
    | none => s
    | some x => s.issueStep eng x)

/-! ## A step's results -/

/-- How a step ends: with the context's data advanced, or with the context's fault. -/
inductive StepRes where
  | done (s : State) (x : Ctx)
  | fault (s : State) (cause : CtxCause) (status : Nat)
  | wait (s : State)       -- an append waits for a unit
  deriving DecidableEq, Repr

/-- Count saturations of DECODE and PACK. -/
def State.countSat (s : State) (e dec pack : Nat) : State :=
  s.modEng e fun (g : Engine) =>
    { g with decodeSat := satInc top32 g.decodeSat dec, packSat := satInc top32 g.packSat pack }

/-- DATA occurrences of a step (R51, R73, R107, R115). -/
def State.dataFaults (s : State) (e k : Nat) (x : Ctx) : State := s.raiseMany k e 2 0x19 (some x.part) (tTag x.words) 0

/-- Rows that a ramp has gone through after `c` CLK_ENG cycles: row r at cycle ⌊r R / 64⌋ (R132). -/
def rampRows (len c : Nat) : Nat := min 64 (ceilDiv (64 * c) len)

/-- CLK_ENG cycles since a time, at 48 / div to the tick. -/
def Engine.cycles (g : Engine) (since now : Nat) : Nat := 48 * (now - since) / g.div

/-- Rows of the array that are enabled now. -/
def Engine.rowsOn (g : Engine) (now : Nat) : Nat :=
  let n := rampRows g.ramp.len (g.cycles g.ramp.since now)
  if g.ramp.up then min 64 (g.ramp.base + n) else g.ramp.base - n

/-- A beat is available: a start ramp begins with the R that stands in RAMP_CYCLES, or a stop ramp that is under way turns
round from its row count at the same rate. -/
def Engine.rampUp (g : Engine) (now : Nat) : Engine :=
  if g.ramp.up then g else
    let rows := g.rowsOn now
    { g with ramp := { up := true, len := if rows = 0 then g.rampCycles else g.ramp.len, base := rows, since := now } }

/-- When every row is enabled, if the ramp goes on. -/
def Engine.fullAt (g : Engine) : Nat := g.ramp.since + ceilDiv (ceilDiv ((64 - g.ramp.base) * g.ramp.len) 64 * g.div) 48

/-- The array runs beats, once every row is enabled (R132). -/
def State.beat (s : State) (e : Nat) : State :=
  s.modEng e fun (g : Engine) =>
    let g := g.rampUp s.now
    { g with idleSince := max s.now g.fullAt }

/-- Whether a job is a tile list, so that its tasks are not Kadon's own. -/
def State.ownTask (s : State) (uid : Nat) : Bool := ((s.job? uid).map fun j => !tileListOp j.opcode).getD false

/-- Whether the task may store to a range now (R115, R241). -/
def State.mayStore (s : State) (x : Ctx) (r : Nat × Nat) : Bool :=
  s.storeOk x.part (s.ownTask x.uid) ((s.job? x.uid).bind Job.window) false r

def State.outsideTask (s : State) (e : Nat) (x : Ctx) : StepRes :=
  .fault (s.recordOf e x 1 0 0) .address stFault

/-- Whether the task's stores reach their target. -/
def State.writeReach (s : State) (x : Ctx) : Bool :=
  s.hostOk x.part || (writeRanges x.words).all fun r => decide (r.1 < hostBase)

/-- Store rows of `n` tokens, as the array finishes them. -/
def State.storeRows (s : State) (t : List Nat) (rows : List (List F32)) : State :=
  rows.zipIdx.foldl (fun s r => s.store (tOutAddr t + r.2 * tOutStride t) (rowBytes (tOutF32 t) r.1)) s

/-- The last write of an ARRAY task whose accumulators are whole: a part result, or the finished rows. -/
def State.writeArray (s : State) (e : Nat) (x : Ctx) : StepRes :=
  let t := x.words
  if !(writeRanges t).all (s.mayStore x) then s.outsideTask e x
  else if !s.writeReach x then .fault s .link stLink
  else if splits t && !combines t then
    let c := tChannels t
    let s := (List.range (tTokens t)).foldl (fun s i =>
      s.store (partAddr t (tPart t) i 0) (f32Bytes ((x.acc.drop (i * c)).take c))) s
    .done s { x with written := true }
  else
    let rows := (s.finishTile t x.acc).zipIdx.map fun r => s.runProgram t r.2 r.1
    .done (s.storeRows t rows) { x with written := true }

/-- One step of an ARRAY task without attention. -/
def State.arrayStep (s : State) (e epoch : Nat) (x : Ctx) : StepRes :=
  let t := x.words
  if x.done < s.baseSteps t then
    let r := (stepGroups t x.done).foldl (fun (a : List F32 × Nat × Nat) g =>
      let b := s.arrayGroup t x.part epoch g a.1
      (b.1, a.2.1 + b.2.1, a.2.2 + b.2.2)) (x.acc, 0, 0)
    let y := { x with acc := r.1, done := x.done + 1 }
    let s := (s.beat e).countSat e r.2.1 0
    let s := s.dataFaults e r.2.2 x
    if y.done = s.totalSteps t then s.writeArray e y else .done s y
  else s.writeArray e { x with acc := s.combineParts t x.acc, done := x.done + 1 }

/-- The last write of an attention task. -/
def State.writeAttn (s : State) (e : Nat) (x : Ctx) : StepRes :=
  let t := x.words
  if !isMerge t && !(writeRanges t).all (s.mayStore x) then s.outsideTask e x
  else if !s.writeReach x then .fault s .link stLink
  else if isMerge t then
    let n := tTokens t * (4 * tK t + 8)
    .done (s.put (mergeBase + tOutAddr t + tPart t * n) (x.rows.flatMap RowState.bytes)) { x with written := true }
  else .done (s.storeRows t (x.rows.map RowState.finish)) { x with written := true }

/-- What step `k` of an attention task reads: a list entry with its page index, or the draft block. -/
def State.attnBlock (s : State) (x : Ctx) (epoch : Nat) : Option (Block × Option Nat) :=
  let t := x.words
  let entries := s.attnEntries t
  match entries[x.done]? with
  | some n =>
    some (s.listBlock x.part epoch (tBAddr t) n (s.entryPage t n) (tK t) (some (tEndB t == .s4)), some (s.entryPage t n))
  | none => if attnDrafts t && x.done == entries.length then some (s.draftBlock t x.part, none) else none

/-- One step of an attention task: one list entry, or the draft block. -/
def State.attnStep (s : State) (e epoch : Nat) (x : Ctx) : StepRes :=
  let t := x.words
  match s.attnBlock x epoch with
  | none =>
    let y := { x with done := x.done + 1 }
    if y.done = s.totalSteps t then s.writeAttn e y else .done s y
  | some (b, page) =>
    let r := s.attnFold t b page x.rows
    let s := ((s.beat e).countSat e r.2 0).dataFaults e b.data x
    let y := { x with rows := r.1, done := x.done + 1 }
    if y.done = s.totalSteps t then s.writeAttn e y else .done s y

/-- The length from which R141 bounds a job's appends: its sequence's at the job's start. -/
def State.appendBase (s : State) (uid seq : Nat) : Nat :=
  let now := ((s.seq? seq).map Seq.len).getD 0
  match (s.job? uid).map Job.ext with
  | some (.serve ents _ _ _) => ((ents.find? fun n => n.seqIdx == seq).map Ent.oldLen).getD now
  | some (.tiles _ _ _ lens) => (assoc lens seq).getD now
  | _ => now

/-- Append token `i` of a task (R141, R142). -/
def State.appendStep (s : State) (e : Nat) (x : Ctx) (i : Nat) (v : List F32) : StepRes :=
  let t := x.words
  let q := spanQuant .s8 (v.map f32Val)
  let pos := kPos t + i
  let old := s.findGroup x.part (kSeq t) (kLayer t) (kHead t) (if kSpec t then 0 else pos / 64) (kSpec t)
  if (old.map Group.poisoned).getD false then .fault s .dataUncorrected stData else
    match s.appendTok x.part x.uid (kSeq t) (kLayer t) (kHead t) pos (s.appendBase x.uid (kSeq t)) (kSpec t) (kValues t)
      (tK t) (q.1, q.2.2.1.map (BitVec.ofNat 8)) with
    | .bad => .fault (s.recordOf e x 1 0 0) .badAppend stInvalid
    | .noUnit =>
      if x.awaitUnit.isSome then .wait s else
        let s := s.backpressure x.part (tTag t)
        .wait (s.modCtx e x.idx fun x => { x with awaitUnit := some s.now, state := .waitMem })
    | .ok s staged =>
      let s := if staged then s.jobQuality x.uid qStaging else s
      .done (s.countSat e 0 q.2.2.2) { x with awaitUnit := none }

/-- Where the span of token `i` goes. -/
def spanWrites (t : List Nat) (i : Nat) : List (Nat × Nat) :=
  let f := fmtD (tFmtOut t)
  let a := tOutAddr t + i * tOutStride t
  if tWMode t = 1 then []
  else if tOutF32 t then [(a, 4 * tK t)]
  else (a, f.bytesFor (tK t)) :: if f.scaled then [(tokenRecord (tOutAddr t) (tOutStride t) i, 4)] else []

/-- One span of a ROW or GATHER task (R106, R107). -/
def State.spanStep (s : State) (e : Nat) (x : Ctx) : StepRes :=
  let t := x.words
  let i := x.done
  if badDivisors (s.divisors t) then .fault (s.recordOf e x 2 0x19 0) .badDivisor stInvalid
  else if !(spanWrites t i).all (s.mayStore x) then s.outsideTask e x
  else if !s.writeReach x then .fault s .link stLink
  else
    let r := s.spanOut t i
    let out := if tWMode t = 1 then s.appendStep e x i r.1 else
      let w := s.storeSpan t i r.1
      .done (w.1.countSat e 0 w.2) x
    match out with
    | .done s y =>
      .done (s.dataFaults e r.2 x) { y with done := i + 1, written := decide (i + 1 = tTokens t) }
    | other => other

/-- The frame and sidecar of a page that a list entry names, as a job of epoch `e` reads it. -/
def State.entryReads (s : State) (p e b n : Nat) : List (Nat × Nat) :=
  let h := s.readN (b + 4 * n) 4
  (b + 4 * n, 4) :: if handleTail h then [] else
    match s.pageFor p e (bits 26 0 h) with
    | some y => [(s.pteAddr p (bits 26 0 h), 32), (y.payload, y.frameBytes), (y.sidecar, sidecarBytes y.dim)]
    | none => [(s.pteAddr p (bits 26 0 h), 32)]

/-- The entries of a page-list operand that a group reads (R150). -/
def groupEntries (t : List Nat) (g : Nat) : List Nat :=
  if tTransB t then (List.range (ceilDiv (tGroup t) 64)).map fun i => g * tGroup t / 64 + i else [0]

/-- Bytes of a transposed operand's group: in each stored row the elements of its outputs, with their scale bytes. -/
def transReads (t : List Nat) (weight : Bool) (g : Nat) : List (Nat × Nat) :=
  let f := if weight then tEndB t else fmtD (tFmtA t)
  let x := if weight then tBAddr t else tAAddr t
  let stride := if weight then tBStride t else tAStride t
  let c := bits 19 0 (tParam t)
  let n := if weight then tChannels t else tTokens t
  (List.range (tGroup t)).flatMap fun i =>
    let k := g * tGroup t + i
    let b := x + k / 64 * (16 * bits 51 20 (tParam t))
    let r := k % 64
    f.range (b + r * stride + if weight then r * f.unitBytes else 0) c n ::
      if weight then
        if f.converted then [] else
          (List.range' (c / tGroup t) ((c + n - 1) / tGroup t + 1 - c / tGroup t)).map fun q => (sidecarOf b + 64 * q + r, 1)
      else if f.scaled then
        [(sidecarOf (b - b % 16384) + 256 * (b % 16384 / 4096) + 4 * r, 4)]
      else []

/-- What group `g` reads of the weight side (R119, R124, R150, R245). -/
def State.weightReads (s : State) (t : List Nat) (p epoch g : Nat) : List (Nat × Nat) :=
  let n := tGroup t
  let f := tEndB t
  if tBMode t = 1 then (groupEntries t g).flatMap fun k => s.entryReads p epoch (tBAddr t) k
  else if tTransB t then transReads t true g
  else ((List.range (tChannels t)).map fun j => f.range (tBAddr t + j * tBStride t + j * f.unitBytes) (g * n) n) ++
    if f.converted then [] else [(sidecarOf (tBlockBase t) + 64 * (tPart t * (tK t / n) + g), tChannels t)]

/-- What group `g` reads of the token side (R120, R124, R126, R127). -/
def tokenReads (t : List Nat) (g : Nat) : List (Nat × Nat) :=
  let n := tGroup t
  let f := fmtD (tFmtA t)
  let rows := List.range (tTokens t)
  if tTransA t then transReads t false g
  else if tConv t = 1 then rows.flatMap fun i => match conv1At t i (g * n) with
    | none => []
    | some (row, c) =>
      f.range ((tAAddr t : Int) + row * (tAStride t : Int)).toNat c n ::
        if f.scaled then [(tokenRecord (tAAddr t) (tAStride t) row, 4)] else []
  else if tConv t = 2 then rows.flatMap fun i => (List.range n).filterMap fun k =>
    (conv2At t i (g * n + k)).map fun y => f.range (tAAddr t + y.1 * tAStride t) y.2 1
  else
    let skew (i : Nat) : Nat := if isLocal (tAAddr t) then i * tUnitA t else 0
    rows.map fun i => f.range (tAAddr t + i * tAStride t + skew i) (g * n) n

/-- What the finish of a task reads: token scale records, weight sums, bias, vector rows (R82, R97). -/
def State.finishReads (s : State) (t : List Nat) : List (Nat × Nat) :=
  let rows := List.range (tTokens t)
  let f := fmtD (tFmtA t)
  (if f.scaled && !tTransA t && tConv t = 0 then rows.map fun i => (tokenRecord (tAAddr t) (tAStride t) (i : Int), 4) else []) ++
    (if tUseWsum t then [(tWsumAddr t, 4 * tChannels t)] else []) ++
    (if tUseBias t then [(tBiasAddr t, 2 * tChannels t)] else []) ++
    rows.flatMap fun i => (vecUses t).map fun u => (s.vecRow t u.1 i, u.2 * vecWidth t u.1)

/-- What the step in hand of an ARRAY task reads. -/
def State.arrayReads (s : State) (epoch : Nat) (x : Ctx) : List (Nat × Nat) :=
  let t := x.words
  let last := x.done + 1 = s.totalSteps t
  if isAttn t then
    let queries := ((List.range (tK t / tGroup t)).flatMap fun g => tokenReads t g) ++ s.finishReads t
    match (s.attnEntries t)[x.done]? with
    | some n => queries ++ s.entryReads x.part epoch (tBAddr t) n ++ if aRetrieved t then [(tPartAddr t + 4 * n, 4)] else []
    | none => if attnDrafts t then queries ++ [(tVecAddr t 1 + 8 * aDraft0 t, 8 * (tTokens t / aHpk t))] else []
  else if x.done < s.baseSteps t then
    (stepGroups t x.done).flatMap (fun g => s.weightReads t x.part epoch g ++ tokenReads t g) ++
      if last && !(splits t && !combines t) then s.finishReads t else []
  else (List.range (tSplit t)).map (fun q => (partAddr t q 0 0, partExtent t)) ++ s.finishReads t

/-- What the step in hand of a ROW or GATHER task reads. -/
def State.spanReads (s : State) (x : Ctx) : List (Nat × Nat) :=
  let t := x.words
  let i := x.done
  let f := fmtD (tFmtA t)
  let row :=
    if tKind t = 1 then
      f.range (tAAddr t + i * tAStride t) 0 (tK t) :: if f.scaled then [(tokenRecord (tAAddr t) (tAStride t) i, 4)] else []
    else
      let n := s.gatherIndex t i
      let b := tEndB t
      (tAAddr t + 4 * i, 4) :: if bits 31 0 (tParam t) ≤ n then [] else
        b.range (tBAddr t + n * tBStride t + n % 64 * b.unitBytes) 0 (tK t) ::
          if b.converted then [] else
            (List.range (tK t / tGroup t)).map fun q => (sidecarOf (tBAddr t + (n - n % 64) * tBStride t) + 64 * q + n % 64, 1)
  row ++ ((vecUses t).map fun u => (s.vecRow t u.1 i, u.2 * vecWidth t u.1)) ++
    if tSmooth t then [(tWsumAddr t, 2 * tK t)] else []

/-- What the step in hand reads. -/
def State.stepReads (s : State) (x : Ctx) : List (Nat × Nat) :=
  if tKind x.words = 0 then s.arrayReads (((s.job? x.uid).map Job.epoch).getD 0) x else s.spanReads x

/-- A read that meets the host window while it cannot be reached. -/
def State.fetchReach (s : State) (x : Ctx) : Bool :=
  s.hostOk x.part || (s.stepReads x).all fun r => decide (r.1 < hostBase)

def State.stepResult (s : State) (e : Nat) (x : Ctx) : StepRes :=
  let epoch := ((s.job? x.uid).map Job.epoch).getD 0
  if tKind x.words != 0 then s.spanStep e x
  else if isAttn x.words then s.attnStep e epoch x
  else s.arrayStep e epoch x

/-- Run the step that is complete. -/
def State.runStep (s : State) (e : Nat) (x : Ctx) : State :=
  match s.stepResult e x with
  | .wait s => s
  | .fault s c st => s.faultCtx e x c st
  | .done s y =>
    let y := { y with slotsHeld := y.slotsHeld - s.stepSlots y.words x.done }
    s.setCtx e x.idx fun _ => s.afterStep y

/-! ## FETCH_STEP_COMPLETE (R102, R115, R130, R413, R416) -/

/-- An uncorrectable local-store error is recorded by the engine, and the third within 10 ms maps it out. -/
def State.storeError (s : State) (e part tag info : Nat) : State :=
  let s := (s.raise e 5 1 (some part) tag info).modEng e fun (g : Engine) =>
    { g with storeErrs := s.now :: g.storeErrs.filter fun t => decide (s.now ≤ t + 1000000) }
  if thirdIn (s.eng e).storeErrs s.now then s.mapOutEngine e .localStore else s

/-- The same, met by a context's step. -/
def State.localStoreError (s : State) (e : Nat) (x : Ctx) : State :=
  ((s.faultCtx e x .localStore stData).storeError e x.part (tTag x.words) (Config.freeNat s.free % 0x60000)).drawFree

/-- The unflushed groups that the step in hand reads: the tails among its list entries, or its draft block. -/
def State.readGroups (s : State) (x : Ctx) : List Group :=
  let t := x.words
  let tail (n page : Nat) : List Group :=
    let h := s.readN (tBAddr t + 4 * n) 4
    if handleTail h then (s.tailGroup x.part h page).toList else []
  if tKind t != 0 || tBMode t != 1 then []
  else if isAttn t then match (s.attnEntries t)[x.done]? with
    | some n => tail n (s.entryPage t n)
    | none => if attnDrafts t then (s.findGroup x.part (aSeq t) (aLayer t) (aHead t) 0 true).toList else []
  else (stepGroups t x.done).flatMap fun g => (groupEntries t g).flatMap fun n => tail n n

def State.poisonGroup (s : State) (p : Nat) (g : Group) : State :=
  s.modKv p fun k => { k with groups := k.groups.map fun h => if h == g then { h with poisoned := true } else h }

/-- An uncorrectable read of an unflushed group poisons it (R414). -/
def State.poisonRead (s : State) (x : Ctx) : State :=
  match s.readGroups x with
  | g :: _ => s.poisonGroup x.part g
  | [] => s

/-- Whether everything that the step in hand reads lies in the task's resources now (R115, R241). -/
def State.readsOk (s : State) (e : Nat) (x : Ctx) : Bool :=
  (s.stepReads x).all (s.rangeOk x.part (s.ownTask x.uid) ((s.job? x.uid).bind Job.window) (some e))

/-- A step whose stores and link answer: an operand outside the partition's resources, uncorrectable words of DRAM that it
reads, and a host window out of reach, fault it all the same. -/
def State.cleanStep (s : State) (e : Nat) (x : Ctx) : State :=
  if !s.readsOk e x then (s.recordOf e x 1 0 0).faultCtx e x .address stFault else
  let bad := if s.dram.poisoned.isEmpty then [] else (s.stepReads x).flatMap fun r => s.badWords r.1 r.2
  if !bad.isEmpty || (s.readGroups x).any Group.poisoned then
    (s.reportWords bad.eraseDups).faultCtx e x .dataUncorrected stData
  else if !s.fetchReach x then s.faultCtx e x .link stLink
  else s.runStep e x

/-- Token and weight images of group `i` of the step in hand, in the order in which its groups run: for attention those of
the channel groups of its keys, then those of its weights with the channel blocks of its values (R166). -/
def State.stepImages (s : State) (epoch : Nat) (x : Ctx) (i : Nat) : Option (List (List Int) × List (List Int)) :=
  let t := x.words
  let d := tK t
  let g := tGroup t
  if tKind t != 0 then none
  else if isAttn t then (s.attnBlock x epoch).bind fun b =>
    let qs := (List.range (tTokens t)).map fun r => s.queryGroups t r
    let keys := b.1.keyGroups d g
    if i < d / g then
      let image (l : List OpGroup) : List Int := (l[i]?.map OpGroup.images).getD (List.replicate g 0)
      some (qs.map image, keys.map image)
    else if i < d / g + d / 64 then
      let weights := (List.range (tTokens t)).map fun r =>
        let scores := s.attnScores t b.1 b.2 r (qs.getD r []) keys
        scores.map (attnWeight (scores.foldl fmax f32NegInf))
      some (weights, (((b.1.valGroups d).drop (64 * (i - d / g))).take 64).map OpGroup.images)
    else none
  else if s.baseSteps t ≤ x.done then none
  else (stepGroups t x.done)[i]?.map fun k => s.groupImages t x.part epoch k

/-- A cell of the grid is off by `delta` in a group of the step: the task is retried where the checks show it (R129, R130). -/
def State.checkStep (s : State) (e : Nat) (x : Ctx) (group row col : Nat) (delta : Int) : State :=
  match s.stepImages (((s.job? x.uid).map Job.epoch).getD 0) x group with
  | some (a, b) => if checksWith (tStripe x.words) a b row col delta then s.cleanStep e x else s.mismatch e x
  | none => s.cleanStep e x

/-- A step of a withdrawn task ends: its data is discarded (R116), but a mismatch counts (R130). -/
def State.leftStep (s : State) (e : Nat) (x : Ctx) (met : StepMet) : State :=
  let gone := s.modEng e fun (g : Engine) => { g with leaving := g.leaving.erase x }
  match met with
  | .checksum group row col delta =>
    match s.stepImages (((s.job? x.uid).map Job.epoch).getD 0) x group with
    | some (a, b) => if checksWith (tStripe x.words) a b row col delta then gone else s.lateMismatch e x
    | none => gone
  | _ => gone

/-- What the step met, then its outcome. -/
def State.completeStep (s : State) (e : Nat) (x : Ctx) (met : StepMet) : State :=
  match met with
  | .clean => s.cleanStep e x
  | .uncorrectable => (s.poisonRead x).faultCtx e x .dataUncorrected stData
  | .linkDown => s.faultCtx e x .link stLink
  | .localStore => s.localStoreError e x
  | .parity => (s.recordOf e x 5 0 0).faultCtx e x .none stFault
  | .checksum group row col delta => s.checkStep e x group row col delta
  | .writeError => s.faultCtx e x .writeError stFault

def execFetchStepComplete (eng ctx : Nat) (met : StepMet) (s : State) : Res :=
  .next (match s.ctx? eng ctx with
    | none => (((s.eng eng).leaving.find? fun x => x.idx == ctx).map fun x => s.leftStep eng x met).getD s
    | some x =>
      if (s.eng eng).domain.powered && x.state != .faulted && decide (x.done < x.steps) && x.awaitUnit.isNone then
        s.completeStep eng x met
      else s)

/-! ## STOP_RAMP (R132) -/

/-- 64 CLK_ENG cycles, at 48 / div cycles per tick. -/
def State.idle64 (s : State) (g : Engine) : Bool := decide (64 * g.div ≤ 48 * (s.now - g.idleSince))

/-- A beat is available once a step's data have arrived, and idleSince is when the last one has run: a stop ramp follows it by
64 cycles, and a step that completes meanwhile turns the ramp round (State.beat). -/
def execStopRamp (eng : Nat) (s : State) : Res :=
  .next (let g := s.eng eng
    if g.ramp.up && g.rowsOn s.now = 64 && s.idle64 g then
      s.modEng eng fun (g : Engine) => { g with ramp := { g.ramp with up := false, base := 64, since := s.now } }
    else s)

/-! ## TASK_RETIRE (R100, R105, R172) -/

/-- A part of a split attention has retired: the merge unit learns of it. -/
def State.notePart (s : State) (x : Ctx) : State :=
  let t := x.words
  let m := (s.merges.find? fun m => m.uid == x.uid && m.offset == tOutAddr t).getD (Merge.ofTask x.uid t)
  let m := { m with retired := tPart t :: m.retired }
  let m := if tPart t = tSplit t then
      { m with dest := tWsumAddr t, pitch := tOutStride t, f32 := tOutF32 t
               signal := if tSignalEn t then some (tSignalCtr t) else none }
    else m
  { s with merges := m :: s.merges.filter fun n => !(n.uid == x.uid && n.offset == tOutAddr t) }

/-- The end of a tile list: every record retired, every merge written (R114). -/
def State.tilesEnd (s : State) (uid : Nat) : State :=
  match s.job? uid with
  | none => s
  | some j =>
    match j.ext with
    | .tiles records _ retired _ =>
      if retired = records.length && s.merges.all (fun m => m.uid != uid) && !j.finished && j.state == .running then
        s.finishUid uid retired
      else s
    | _ => s

/-- The engines of a split's retired parts, kept until the last of them (R112 rule 7). -/
def Job.notePart (j : Job) (e : Nat) (t : List Nat) : Job :=
  if tSplit t = 0 then j else
    let mine := j.partsOn.filter fun p => sameSplit p.2 t
    if tSplit t ≤ mine.length then { j with partsOn := j.partsOn.filter fun p => !sameSplit p.2 t }
    else { j with partsOn := (e, t) :: j.partsOn }

def State.retireTask (s : State) (e : Nat) (x : Ctx) : State :=
  let t := x.words
  let s := (s.dropCtx e x.idx).modJob x.uid fun j => j.notePart e t
  let s := if isMerge t then s.notePart x else if tSignalEn t then s.signal (tSignalCtr t) e (some x.part) else s
  let s := if x.runs = 0 then s else s.jobQuality x.uid qRetried
  let s := s.modJob x.uid fun j => match j.ext with
    | .tiles r n k l => { j with ext := .tiles r n (k + 1) l }
    | _ => j
  s.tilesEnd x.uid

def execTaskRetire (eng ctx : Nat) (met : WriteMet) (s : State) : Res :=
  .next (match s.ctx? eng ctx with
    | none => s
    | some x =>
      if !(x.written && x.state == .waitMem) then s else
        match met with
        | .acknowledged => s.retireTask eng x
        | .linkDown => s.faultCtx eng x .link stLink
        | .writeError => s.faultCtx eng x .writeError stFault)

/-! ## PRIORITY_AGING, CONTEXT_RELEASE, ENGINE_MAP_OUT -/

def execPriorityAging (eng ctx : Nat) (s : State) : Res :=
  .next (s.modCtx eng ctx fun x =>
    if x.state == .ready && decide (65536 * (s.eng eng).div ≤ 48 * (s.now - x.readySince)) then { x with aged := true } else x)

def execContextRelease (eng ctx : Nat) (s : State) : Res :=
  .next (match s.ctx? eng ctx with
    | none => s
    | some x =>
      if x.state != .faulted then s else s.dropCtx eng ctx)

/-- A mapped-out engine stays so; the row's causes are R131, R393, R394 and R416. -/
def execEngineMapOut (eng : Nat) (cause : OutCause) (s : State) : Res :=
  .next (if decide (eng < 32) && cause != .none then s.mapOutEngine eng cause else s)

/-! ## SUMP_UNIT_GRANT and APPEND_TIMEOUT (R142) -/

/-- Contexts of a partition that wait for a unit, with their engines. -/
def State.waitingAppends (s : State) (p : Nat) : List (Nat × Ctx) :=
  (List.range 32).flatMap fun e =>
    ((s.eng e).ctxs.filter fun x => x.part == p && x.awaitUnit.isSome && x.state != .faulted).map fun x => (e, x)

def execSumpUnitGrant (part : Nat) (s : State) : Res :=
  .next (match minBy (fun w => w.2.awaitUnit.getD 0) (s.waitingAppends part) with
    | none => s
    | some (e, x) => s.runStep e x)

def execAppendTimeout (eng ctx : Nat) (s : State) : Res :=
  .next (match s.ctx? eng ctx with
    | none => s
    | some x =>
      match x.awaitUnit with
      | none => s
      | some t => if decide (t + msTicks ≤ s.now) && x.state != .faulted then s.exhaustJob x.uid else s)

/-! ## MERGE_FOLD (R172, R185, R415) -/

/-- An uncorrectable error of shared-SRAM bank group `g` at store offset `8 * info` (R413, R415). -/
def State.sramError (s : State) (g : Nat) (part : Option Nat) (info : Nat) : State :=
  let s := s.raise (0x78 + g) 5 1 part 0 info
  let errs := (g, s.now) :: s.faults.sramErrs.filter fun x => decide (s.now ≤ x.2 + 100000000)
  let s := { s with faults := { s.faults with sramErrs := errs } }
  if 16 ≤ (errs.filter fun x => x.1 == g).length && !s.faults.groupFailed.contains g then
    let s := { s with faults := { s.faults with groupFailed := g :: s.faults.groupFailed } }.setFault
    (s.raise (0x78 + g) 5 6 none 0 g).failAllJobs
  else s

/-- Bytes of one part's row states. -/
def Merge.partBytes (m : Merge) : Nat := m.tokens * (4 * m.dim + 8)

def State.mergeRows (s : State) (m : Merge) (part : Nat) : List RowState :=
  (List.range m.tokens).map fun r =>
    s.rowStateAt (mergeBase + m.offset + part * m.partBytes + r * (4 * m.dim + 8)) m.dim

/-- Fold the next part, and after the last finish the rows, write them and signal. -/
def State.fold (s : State) (m : Merge) : State :=
  let n := m.folded + 1
  let rows := if n < m.parts then List.zipWith RowState.combine (s.mergeRows m 0) (s.mergeRows m n) else s.mergeRows m 0
  let s := if n < m.parts then s.put (mergeBase + m.offset) (rows.flatMap RowState.bytes) else s
  let part := (s.job? m.uid).map Job.part
  if n + 1 < m.parts then
    { s with merges := s.merges.map fun k => if k == m then { m with folded := n } else k }
  else
    let s := rows.zipIdx.foldl (fun s r => s.store (m.dest + r.2 * m.pitch) (rowBytes m.f32 r.1.finish)) s
    let s := { s with merges := s.merges.filter fun k => k != m }
    let s := match m.signal with
      | some c => s.signal c 0x63 part
      | none => s
    s.tilesEnd m.uid

/-- The part that the next fold needs has retired. -/
def Merge.foldable (m : Merge) : Bool :=
  m.retired.contains 0 && (decide (m.parts ≤ m.folded + 1) || m.retired.contains (m.folded + 1))

def execMergeFold (uid : Nat) (uncorrectable : Bool) (s : State) : Res :=
  .next (match s.merges.find? fun m => m.uid == uid && m.foldable with
    | none => s
    | some m =>
      if uncorrectable then
        let g := Config.freeNat s.free % 8
        let s := (s.sramError g ((s.job? uid).map Job.part) (Config.freeNat (s.free + 1) % 0x600000)).drawFree.drawFree
        s.failJob' uid stData
      else s.fold m)

end Sys2Proof.Machine
end

