-- ==== Sys2Proof/Machine/SiphonDma.lean ====
section
/-! DEFINITION. Siphon: DMA_RAW, SIPHON_BURST_ISSUE, SIPHON_TRANSFER_COMPLETE, SIPHON_AGING and SIPHON_ERROR (R311 to
R320). A burst's bytes are written when it is issued; the write responses still owed hold the transfer in the draining
slot until SIPHON_TRANSFER_COMPLETE. -/

namespace Sys2Proof.Machine

/-- A range of the partition's resources: a resident area counts where the partition has the engine (R318). -/
def State.dmaOwns (s : State) (p a n : Nat) : Bool :=
  s.inDramHost p a n || (s.part p).engines.any fun e => inResident e a n

/-- A range that DMA_RAW may reach at this moment: the resident areas are those of engines that no other partition holds now
(R318, R351). -/
def State.dmaReach (s : State) (p a n : Nat) : Bool :=
  s.inDramHost p a n || (s.part p).engines.any fun e => inResident e a n && (s.eng e).admits p

/-! ## Placing and starting -/

/-- The transfer of a DMA_RAW job, from source byte `start`. -/
def dmaXfer (j : Job) (start : Nat) : Xfer :=
  { uid := j.uid, part := j.part, prio := j.prio, src := addr48 j.words 4, dst := addr48 j.words 6, len := wordAt j.words 8
    transform := wordAt j.words 9, issued := start, acked := start, failed := none, start := start, stopped := false
    own := none }

def execDmaRaw (uid : Nat) (s : State) : Res :=
  .next (match s.starting uid 0x31 with
    | none => s
    | some (j, t) =>
      match j.ext with
      | .dma start acked =>
        let s := t.modJob uid fun j => { j with ext := .dma (start + acked) 0 }
        if wordAt j.words 8 ≤ start + acked then s.finishUid uid (start + acked)
        else s.placeXfer (wordAt j.words 3) (dmaXfer j (start + acked))
      | _ =>
        let x := dmaXfer j 0
        match xSrc x.transform, xDst x.transform with
        | some a, some b =>
          if !(t.dmaReach j.part x.src x.len && t.dmaReach j.part x.dst (xExtent x.transform x.len a b)) then
            t.failJob uid stDenied 0
          else (t.modJob uid fun j => { j with ext := .dma 0 0 }).placeXfer (wordAt j.words 3) x
        | _, _ => t.failJob uid stInvalid 0)

/-! ## Bursts (R312 to R314) -/

/-- Bytes that a transfer writes from its destination address on. -/
def Xfer.extent (x : Xfer) : Nat :=
  match xSrc x.transform, xDst x.transform with
  | some a, some b => if x.own.isSome then x.len else xExtent x.transform x.len a b
  | _, _ => 0

def Xfer.dstRange (x : Xfer) : Nat × Nat :=
  (x.dst, x.dst + x.extent)

def meets (a b : Nat × Nat) : Bool := decide (a.1 < b.2) && decide (b.1 < a.2)

/-- A channel has a burst ready: its active transfer has bytes to read and does not overlap the draining one. -/
def SChan.ready (c : SChan) : Bool :=
  match c.active with
  | none => false
  | some x => !x.doneIssuing && (match c.draining with
    | none => true
    | some d => !(meets (x.src, x.src + x.len) d.dstRange || meets x.dstRange d.dstRange))

/-- Its engines are there for it: it waits while another partition holds one of them (log entry 131). -/
def State.chanReady (s : State) (c : SChan) : Bool :=
  c.ready && c.active.all fun x => x.own.isSome ||
    ((s.dmaReach x.part x.src x.len || !s.dmaOwns x.part x.src x.len) &&
      (s.dmaReach x.part x.dst x.extent || !s.dmaOwns x.part x.dst x.extent))

def SChan.prio (c : SChan) : Nat :=
  match c.active with
  | none => 0
  | some x => min 3 (x.prio + b2n c.aged)

/-- Convert element codes; the count is of saturations. -/
def convCodes (a b : Fmt) (cs : List Nat) : List Nat × Nat :=
  if a == b then (cs, 0) else
    let r := cs.map fun c => b.conv false 0 (a.val c)
    (r.map Prod.fst, countTrue r)

/-- Convert bytes that hold whole elements. -/
def convBytes (a b : Fmt) (bs : List Byte) : List Byte × Nat :=
  if a == b then (bs, 0) else
    let r := convCodes a b (a.unpack bs (bs.length * 64 / a.width8))
    (b.pack r.1, r.2)

/-- The size of the next read burst: within one aligned 256-byte unit of the source, and within a row of SKEW. -/
def Xfer.burst (x : Xfer) : Nat :=
  let n := min (256 - (x.src + x.issued) % 256) (x.len - x.issued)
  if xOp x.transform == 1 then min n (x.len / xRows x.transform - x.issued % (x.len / xRows x.transform)) else n

/-- The bytes that a finished TRANSPOSE writes, by destination row. -/
def State.transposed (s : State) (x : Xfer) (a b : Fmt) : List (List Byte) × Nat :=
  let rows := xRows x.transform
  let rowBytes := x.len / rows
  let cols := xCols a rowBytes
  let src := (List.range rows).map fun i => a.unpack (s.bytesAt (x.src + i * rowBytes) rowBytes) cols
  let out := (List.range cols).map fun j => convCodes a b (src.map fun r => r.getD j 0)
  (out.map fun r => b.pack r.1, (out.map Prod.snd).sum)

/-- Write bytes in bursts, each within an aligned 256-byte unit of the destination (R313). -/
def State.writeBursts (s : State) : Nat → Nat → List Byte → State
  | 0, _, _ => s
  | k + 1, a, bs =>
    let n := 256 - a % 256
    if bs.isEmpty then s else State.writeBursts (s.store a (bs.take n)) k (a + n) (bs.drop n)

/-- Move one burst of a transfer. -/
def State.moveBurst (s : State) (x : Xfer) (a b : Fmt) (n : Nat) : State × Nat :=
  let t := x.transform
  match xOp t with
  | 2 =>
    if x.issued + n < x.len then (s, 0) else
      let r := s.transposed x a b
      (r.1.zipIdx.foldl (fun s row => s.writeBursts (row.1.length / 256 + 2) (x.dst + row.2 * xPitch t) row.1) s, r.2)
  | 1 =>
    let row := x.len / xRows t
    let i := x.issued / row
    let r := convBytes a b (s.bytesAt (x.src + x.issued) n)
    (s.writeBursts (r.1.length / 256 + 2) (x.dst + i * xPitch t + i * xUnit t + dstBytes a b (x.issued % row)) r.1, r.2)
  | _ =>
    let r := convBytes a b (s.bytesAt (x.src + x.issued) n)
    (s.writeBursts (r.1.length / 256 + 2) (x.dst + dstBytes a b x.issued) r.1, r.2)

/-- A transfer stops with a status and issues nothing more (R320). -/
def State.failXfer (s : State) (ch st : Nat) : State :=
  s.modSch ch fun c => ({ c with active := c.active.map fun (x : Xfer) => { x with failed := some st } }).promote

def State.xferReach (s : State) (x : Xfer) : Bool :=
  (decide (x.src < hostBase) && decide (x.dst < hostBase)) || s.hostOk x.part

/-- A write to a local store puts its resident area back in use after the engine was switched off (R392). -/
def State.markResident (s : State) (dst : Nat) : State :=
  if localBase 0 ≤ dst ∧ dst < localBase 32 then
    s.modEng ((dst - localBase 0) / 0x1000000) fun g => { g with residentValid := true }
  else s

/-- Saturations of a transfer count. -/
def State.noteSat (s : State) (n : Nat) : State :=
  { s with siphon := { s.siphon with satCount := satInc top32 s.siphon.satCount n } }

/-- A burst of Kadon's own transfer: what it carries is there when the move lands. -/
def State.issueOwn (s : State) (ch : Nat) (x : Xfer) : State :=
  let n := min 256 (x.len - x.issued)
  s.modSch ch fun c => ({ c with active := some { x with issued := x.issued + n, acked := x.acked + n } }).promote

/-- Source bytes whose writes a burst makes: a TRANSPOSE writes when its last burst is read. -/
def Xfer.ackAfter (x : Xfer) (n : Nat) : Nat :=
  if xOp x.transform = 2 && decide (x.issued + n < x.len) then x.acked else x.issued + n

def State.issueOn (s : State) (ch : Nat) (x : Xfer) : State :=
  if x.own.isSome then s.issueOwn ch x
  else if !s.xferReach x then s.failXfer ch stLink
  else if !(s.dmaOwns x.part x.src x.len && s.dmaOwns x.part x.dst x.extent) then s.outsideJob x.uid
  else
    match xSrc x.transform, xDst x.transform with
    | some a, some b =>
      let n := x.burst
      let bad := s.badWords (x.src + x.issued) n
      if !bad.isEmpty then (s.reportWords bad).failXfer ch stData else
      let r := s.moveBurst x a b n
      let s := r.1.noteSat r.2
      let y := { x with issued := x.issued + n, acked := x.ackAfter n }
      let s := s.markResident x.dst
      let s := s.modSch ch fun c => ({ c with active := some y }).promote
      s.modJob x.uid fun j => match j.ext with
        | .dma st _ => { j with ext := .dma st (y.acked - st) }
        | _ => j
    | _, _ => s

/-- The channel that gets the next read burst, with its priority (R314). -/
def State.siphonChoice (s : State) : Option (Nat × Nat) :=
  let ready := (List.range 16).filter fun c => s.chanReady (s.sch c)
  match maxBy (fun c => (s.sch c).prio) ready with
  | none => none
  | some c =>
    let p := (s.sch c).prio
    (cyclicFind 16 (s.siphon.lastChosen.getD p 15) fun n => ready.contains n && (s.sch n).prio == p).map fun n => (n, p)

def execSiphonBurstIssue (s : State) : Res :=
  .next (match s.siphonChoice with
    | none => s
    | some (n, p) =>
      let ready := (List.range 16).filter fun c => s.chanReady (s.sch c)
      let s := { s with siphon :=
        { s.siphon with
          lastChosen := s.siphon.lastChosen.set p n
          chans := s.siphon.chans.zipIdx.map fun c =>
            { c.1 with
              passed := if ready.contains c.2 && c.2 != n then c.1.passed + 1 else 0, aged := c.1.aged && c.2 != n } } }
      match (s.sch n).active with
      | none => s
      | some x => s.issueOn n x)

def execSiphonTransferComplete (ch : Nat) (s : State) : Res :=
  .next (match (s.sch ch).draining with
    | none => s
    | some x =>
      let s := s.modSch ch fun c => ({ c with draining := none }).promote
      match x.own with
      | some mv => match x.failed, s.moves.find? fun m => m.id == mv with
        | some st, some m => s.eachWaiter m m.waiters st
        | _, _ => s
      | none => match s.job? x.uid with
        | none => s
        | some j =>
          if j.ending.isSome || j.finished then s else match x.failed with
            | some st => s.failJob x.uid st x.acked
            | none => if x.len ≤ x.issued then s.finishUid x.uid x.len else s)

/-- 4,096 grants without being chosen raise a channel by one priority until it is next chosen. -/
def execSiphonAging (ch : Nat) (s : State) : Res :=
  .next (s.modSch ch fun c => if s.chanReady c && decide (4096 ≤ c.passed) then { c with aged := true } else c)

def siphonStatus : SiphonMet → Nat
  | .readBad => stData
  | .linkDown => stLink
  | .writeError => stFault

/-- An uncorrectable read of a transfer's source is recorded by its origin (R320, R410): the DRAM channel, the engine whose
resident area it is, or the host link (log entry 92). -/
def State.sourceError (s : State) (x : Xfer) : State :=
  match x.own with
  | some mv => ((s.moves.find? fun m => m.id == mv).map s.moveReadRecord).getD s
  | none =>
  let a := x.src + x.issued
  if hostBase ≤ a then s.raise 0x50 6 0 (some x.part) 0 0
  else if localBase 0 ≤ a then s.storeError ((a - localBase 0) / 0x1000000) x.part 0 (a % 0x1000000 / 8)
  else s.dramWordError a

/-- The transfer that an answer fails: a read is the active one's; a write, or the link's loss, may be the draining one's, and
where both have writes out which it is stays open (log entry 131). -/
def State.erring (s : State) (c : SChan) (met : SiphonMet) : Option Bool :=
  match met, c.active, c.draining with
  | .readBad, some _, _ => some true
  | .readBad, none, _ => none
  | _, some x, some _ => some (x.issued != x.start && Config.freeBool s.free)
  | _, some _, none => some true
  | _, none, some _ => some false
  | _, none, none => none

def execSiphonError (ch : Nat) (met : SiphonMet) (s : State) : Res :=
  let c := s.sch ch
  .next (match s.erring c met, c.active with
    | some true, some x => ((if met == .readBad then s.sourceError x else s).failXfer ch (siphonStatus met)).drawFree
    | some false, _ => (s.modSch ch fun c => { c with
        draining := c.draining.map fun (x : Xfer) => { x with failed := some (x.failed.getD (siphonStatus met)) } }).drawFree
    | _, _ => s)

end Sys2Proof.Machine
end

