-- ==== Sys2Proof/Machine/JobCtl.lean ====
section
/-! DEFINITION. Job control: SUSPEND, RESUME, CANCEL and QUERY (R39, R40), SAFE_POINT, DEADLINE_TICK (R42, R43, R211, R212) and
WITHDRAWAL_END (R38, R41). -/

namespace Sys2Proof.Machine

/-! ## Control jobs -/

/-- The unfinished job of a partition that has an identity. -/
def State.target? (s : State) (p id : Nat) : Option Job := s.jobs.list.find? fun t => t.part == p && t.jobId == id

/-- A job suspends: its record waits, its transfers and tasks are gone (R40). -/
def State.suspendNow (s : State) (t : Job) : State :=
  let s := s.modJob t.uid fun t => { t with state := .suspended }
  if t.silent || !(s.qp t.qp).enabled then s
  else s.queueComp t.qp { t.comp s.now stSuspended t.progress false with quality := t.quality' s.now }

def State.applyControl (s : State) (j t : Job) : State :=
  let s := s.modJob j.uid fun j => { j with ext := .control t.uid }
  if j.opcode == 0x10 then
    if t.state == .queued then s.suspendNow t
    else (s.modJob t.uid fun t => { t with state := .suspending }).withdrawSiphon t.uid
  else if j.opcode == 0x11 then
    let s := s.modJob j.uid fun j => { j with ext := .none }
    let s := s.modJob t.uid fun t => { t with state := .queued }
    (s.unparkSeqs t.part t.uid (s.heldSeqs t)).getD s
  else s.startEnding t.uid .cancel

/-- The outcome of a control job, by the first row of R40's table that applies. -/
def State.outcome (s : State) (j : Job) : Nat :=
  let id := wordAt j.words 3
  if id = j.jobId then 2
  else match s.target? j.part id with
  | none => 1
  | some t =>
    if (if j.opcode == 0x12 then uncancellable t.opcode else !suspendable t.opcode) then 3
    else if t.finished then 2
    else if (j.opcode == 0x10 && (t.state == .queued || t.state == .running)) || (j.opcode == 0x11 && t.state == .suspended) ||
        (j.opcode == 0x12 && t.state != .cancelling) then 0
    else 2

def State.runControl (s : State) (j : Job) : State :=
  let r := s.outcome j
  let s := match s.target? j.part (wordAt j.words 3) with
    | some t => if r = 0 then s.applyControl j t else s
    | none => s
  s.finishUid j.uid r

def execSuspend (uid : Nat) (s : State) : Res :=
  .next (match s.starting uid 0x10 with
    | none => s
    | some (j, t) => t.runControl j)

def execResume (uid : Nat) (s : State) : Res :=
  .next (match s.starting uid 0x11 with
    | none => s
    | some (j, t) => t.runControl j)

def execCancel (uid : Nat) (s : State) : Res :=
  .next (match s.starting uid 0x12 with
    | none => s
    | some (j, t) => t.runControl j)

/-- KIND 0: the state code of the target; KIND 1: the unfinished jobs of the partition, the QUERY among them. -/
def execQuery (uid : Nat) (s : State) : Res :=
  .next (match s.starting uid 0x13 with
    | none => s
    | some (j, t) =>
      let answer :=
        if wordAt j.words 3 = 0 then
          match t.target? j.part (wordAt j.words 4) with
          | some x => jobStateCode x.state
          | none => 0
        else (t.partJobs j.part).length
      t.finishUid uid answer)

/-! ## SAFE_POINT -/

/-- Whether a job has work in hand that must end before its safe point. A sender's is the last MiB that it has sent whole, once
that is acknowledged; what follows it is sent again (R349; log entry 126). -/
def State.busyAt (s : State) (j : Job) : Bool :=
  if flashOp j.opcode then s.flash.dies.any fun d => d.ops.any fun o => o.uid == j.uid && d.running o
  else match j.ext with
    | .ship sh => sh.out && sh.probed && (sh.sent == sh.total || decide (sh.acked / 2 ^ 20 < sh.sent / 2 ^ 20))
    | .serve _ _ step _ => step != 0
    | .dma _ _ => s.xferOut (Xfer.isOf j.uid)
    | _ => false

/-- The tasks of a job that Kadon expands, withdrawn by its suspension: they wait to be loaded again on RESUME, and its merge
records keep the parts that have retired (R116). -/
def State.withdrawOwn (s : State) (j : Job) : State :=
  let tasks := s.engines.flatMap fun g => g.tasks.filter fun w => w.uid == j.uid
  let merges := s.merges.filter fun m => m.uid == j.uid
  let s := s.withdraw j.uid
  { s with merges := merges ++ s.merges }.modJob j.uid fun j => { j with redo := j.redo ++ tasks }

/-! The saved scan of an ECHO_SEARCH (R184): pass, row and rows scanned, then each query's K results in the form of R182. -/

def searchK (j : Job) : Nat := bits 10 0 (wordAt j.words 8)

/-- Results (R182): entries in order, unused ones filled. -/
def topBytes (k : Nat) (l : List (Nat × F32)) : List Byte :=
  (l.flatMap fun e => leBytes 4 e.1 ++ leBytes 4 e.2.toNat) ++
    (List.replicate (k - l.length) ()).flatMap fun _ => leBytes 4 0xFFFFFFFF ++ leBytes 4 0xFF800000

def saveBytes (j : Job) : Nat := 16 + 8 * searchK j * dCount j.words

def State.saveSearch (s : State) (j : Job) (x : SearchSt) (area : Nat) : State :=
  s.store area (wordsBytes [x.pass, x.row, x.scanned, 0] ++ x.tops.flatMap (topBytes (searchK j)))

/-- The scan as the frame holds it: an unused result has no row. -/
def State.savedSearch (s : State) (j : Job) (area : Nat) : SearchSt :=
  let k := searchK j
  let top (q : Nat) : List (Nat × F32) :=
    ((List.range k).map fun i =>
      let a := area + 16 + 8 * (k * q + i)
      (s.readN a 4, BitVec.ofNat 32 (s.readN (a + 4) 4))).filter fun e => e.1 != 0xFFFFFFFF
  { pass := s.readN area 4, row := s.readN (area + 4) 4, scanned := s.readN (area + 8) 4
    tops := (List.range (dCount j.words)).map top }

/-- A SUSPENDING job reaches its safe point. -/
def State.safePoint (s : State) (j : Job) : State :=
  let s := s.withdrawOwn j
  let s := match j.ext with
    | .search x area => (s.saveSearch j x area).modJob j.uid fun t =>
        { t with ext := .search { pass := 0, row := 0, scanned := x.scanned, tops := [] } area }
    | .dma start acked =>
      let safe := dmaSafe (wordAt j.words 9) (wordAt j.words 8) (start + acked)
      s.modJob j.uid fun t => { t with ext := .dma safe 0 }
    | .ship sh =>
      let s := s.modJob j.uid fun t => { t with ext := .ship { sh with sent := if sh.out then sh.acked else sh.sent } }
      if sh.ready then
        s.sendControl sh.port sh.hops (bits 31 16 (wordAt sh.words 1)) (wordAt sh.words 2) (s.conf j.part) .hold
      else s
    | _ => s
  match s.job? j.uid with
  | some t => s.suspendNow t
  | none => s

def execSafePoint (uid : Nat) (s : State) : Res :=
  .next (match s.job? uid with
    | none => s
    | some j => if j.state == .suspending && !j.finished && !s.busyAt j then s.safePoint j else s)

/-! ## DEADLINE_TICK -/

/-- SOURCE of a DEADLINE record (R43). -/
def Job.deadlineSource (j : Job) : Nat := if uncancellable j.opcode then 0x5B else 0x58 + j.takenBy

/-- Whether a CANCEL of the job was taken before and has not run yet (R212). -/
def State.cancelTaken (s : State) (j : Job) : Bool :=
  s.jobs.list.any fun c => c.opcode == 0x12 && c.part == j.part && !c.finished && c.jobId != j.jobId &&
    wordAt c.words 3 == j.jobId && !uncancellable j.opcode

def execDeadlineTick (uid : Nat) (s : State) : Res :=
  .next (match s.job? uid with
    | none => s
    | some j =>
      if j.finished || j.lateRaised || !isLate j.deadlineUs (s.now - j.startTs) || s.now < j.startTs then s else
        let s := s.modJob uid fun j => { j with lateRaised := true }
        let s := s.raise j.deadlineSource 8 0x17 (some j.part) 0 j.jobId
        if j.policy == 2 && j.state != .cancelling && !s.cancelTaken j then s.startEnding uid .abort else s)

/-! ## WITHDRAWAL_END -/

def execWithdrawalEnd (uid : Nat) (s : State) : Res :=
  .next (match s.job? uid with
    | none => s
    | some j => if j.state == .cancelling && !j.finished && !s.stillOut uid then s.endWithdrawal j else s)

end Sys2Proof.Machine
end

