-- ==== Sys2Proof/Machine/KeyWrap.lean ====
section
/-! DEFINITION. The key blobs of R364: AES key wrap (KW of SP 800-38F) with AES-256, under the key that HKDF-SHA-384 makes of the
sealing secret with the fuse-state digest as salt. -/

namespace Sys2Proof.Machine

def fuseBytes : List Byte := (List.range 48).map Config.fuseDigest

def hmacPad (x : Byte) (key : List Byte) : List Byte := (key ++ List.replicate (128 - key.length) 0).map (· ^^^ x)

/-- HMAC-SHA-384 under a key of at most 128 bytes. -/
def hmac384 (key m : List Byte) : List Byte := sha384 (hmacPad 0x5C key ++ sha384 (hmacPad 0x36 key ++ m))

/-- HKDF-SHA-384, one block of output: 32 bytes. -/
def hkdf384 (salt secret info : List Byte) : List Byte := (hmac384 (hmac384 salt secret) (info ++ [1])).take 32

/-- The wrapping key; the context that HKDF takes beside the secret and the salt, no rule gives (log entry 22). -/
def wrappingKey : List Byte := hkdf384 fuseBytes Config.sealingSecret Config.wrapContext

def kwStart : List Nat := List.replicate 8 0xA6

/-- One step of the wrap: the block function over the check value and a half-block, then the step's number. -/
def kwStep (rk : List (List Nat)) (t : Nat) (a r : List Nat) : List Nat × List Nat :=
  let b := aes256Enc rk (a ++ r)
  (xorList (b.take 8) ((leBytes 8 t).reverse.map BitVec.toNat), b.drop 8)

def kwUnstep (rk : List (List Nat)) (t : Nat) (a r : List Nat) : List Nat × List Nat :=
  let b := aes256Dec rk (xorList a ((leBytes 8 t).reverse.map BitVec.toNat) ++ r)
  (b.take 8, b.drop 8)

def halfBlocks : List Nat → Nat → List (List Nat)
  | _, 0 => []
  | bs, n + 1 => bs.take 8 :: halfBlocks (bs.drop 8) n

/-- Six passes over the half-blocks, in order. -/
def kwWrap (kek key : List Byte) : List Byte :=
  let rk := roundKeys kek
  let n := key.length / 8
  let out := (List.range (6 * n)).foldl (fun (x : List Nat × List (List Nat)) k =>
    let y := kwStep rk (k + 1) x.1 (x.2.getD (k % n) [])
    (y.1, x.2.set (k % n) y.2)) (kwStart, halfBlocks (key.map BitVec.toNat) n)
  (out.1 ++ out.2.flatten).map (BitVec.ofNat 8)

/-- The passes backwards; none where the check value does not come out. -/
def kwUnwrap (kek blob : List Byte) : Option (List Byte) :=
  let rk := roundKeys kek
  let n := blob.length / 8 - 1
  let bs := blob.map BitVec.toNat
  let out := (List.range (6 * n)).reverse.foldl (fun (x : List Nat × List (List Nat)) k =>
    let y := kwUnstep rk (k + 1) x.1 (x.2.getD (k % n) [])
    (y.1, x.2.set (k % n) y.2)) (bs.take 8, halfBlocks (bs.drop 8) n)
  if out.1 == kwStart then some (out.2.flatten.map (BitVec.ofNat 8)) else none

end Sys2Proof.Machine
end

