-- ==== Sys2Proof/Machine/KvCache.lean ====
section
/-! DEFINITION. The key-value cache: KV_MOVE, PARK_GROUP, GROUP_FLUSH, UNITS_FREED, IDLE_EPOCH_TICK and PAGE_RECLAIM (R133 to
R161). -/

namespace Sys2Proof.Machine

/-! ## KV_MOVE entries (R159) -/

def State.kmEntry (s : State) (j : Job) (i : Nat) : List Nat := s.wordsAt (dArg j.words + 16 * i) 4

def kmAction (w : List Nat) : Nat := bits 3 0 (wordAt w 1)
def kmVolume (w : List Nat) : Nat := bits 15 8 (wordAt w 1)
def kmLength (w : List Nat) : Nat := bits 20 0 (wordAt w 2)
def kmDest (w : List Nat) : Nat := addr48 w 2

/-- R161's check of one entry, and R201's of its sequence's variant; `forks` counts the FORK entries before it. -/
def State.kmOk (s : State) (p forks : Nat) (w : List Nat) : Bool :=
  bits 7 4 (wordAt w 1) == 0 && bits 31 16 (wordAt w 1) == 0 && bits 31 16 (wordAt w 3) == 0 && decide (kmAction w ≤ 6) &&
    (match s.resident p (wordAt w 0) with
      | none => false
      | some q =>
        !s.variantLost q && (kmAction w != 3 || decide (kmLength w ≤ q.len)) &&
          (kmAction w != 1 || (match s.volume? (kmVolume w) with
            | none => false
            | some v => v.fast && v.owner == p && !v.sealed)) &&
          (kmAction w != 4 || decide (s.seqs.length + forks < 1024)))

/-- The first entry of a KV_MOVE that is invalid. A FORK has room where the sequences and the earlier FORKs leave some; what an
earlier RELEASE of the same job frees is not counted, for R161 does not say that it makes room (DESIGN CHOICE, log entry 116). -/
def State.kmBad (s : State) (p : Nat) : Nat → Nat → List (List Nat) → Option Nat
  | _, _, [] => none
  | i, forks, w :: rest =>
    if s.kmOk p forks w then State.kmBad s p (i + 1) (forks + b2n (kmAction w == 4)) rest else some i

/-- How the application of an entry ends. -/
inductive ItemRes where
  | done (s : State)
  | noUnit                 -- waits for a unit (R142)
  | later                  -- waits for a move in progress
  | fail (status : Nat)
  | failIn (status : Nat) (s : State)   -- fails after work that stays done
  deriving DecidableEq, Repr

/-! ## The actions (R160) -/

/-- TRUNCATE: directory entries at or beyond the new length. -/
def State.cutPages (s : State) (q : Seq) (n : Nat) : State :=
  let gone := q.dir.filter fun x => decide (n ≤ 64 * x.2.2.1)
  let s := gone.foldl (fun s x => s.dropRef q.part x.2.2.2) s
  s.modSeq q.idx fun q => { q with dir := q.dir.filter fun x => !decide (n ≤ 64 * x.2.2.1) }

/-- Reopen the pages that hold position `n`, keeping n mod 64 positions. R152 does not say how a page in FLASH is read: it first
moves to DRAM, for all its holders, and without a frame the job ends RESOURCE_EXHAUSTED (DESIGN CHOICE, log entry 115). -/
def State.reopenAll (s : State) (uid : Nat) (q : Seq) (n : Nat) : List (Nat × Nat × Nat × Nat) → ItemRes
  | [] => .done s
  | x :: rest =>
    let st := (s.pte q.part x.2.2.2).state
    if st = 3 || s.readHeld (s.pageDies q.part x.2.2.2) then .later
    else if s.pageTorn q.part x.2.2.2 then .fail stData
    else
      match if st = 2 then s.fetchPage q.part x.2.2.2 else some s with
      | none => .fail stExhausted
      | some s => match s.reopen q.part q.idx x.1 x.2.1 x.2.2.1 x.2.2.2 (n % 64) with
        | none => .noUnit
        | some (s, staged) => State.reopenAll (if staged then s.jobQuality uid qStaging else s) uid q n rest

/-- Groups and level-1 blocks beyond the new length; speculative entries stay. -/
def State.cutGroups (s : State) (q : Seq) (n : Nat) : State :=
  let p := q.part
  let mine := (s.kv p).groups.filter fun g => g.seq == q.idx && g.flushed.isNone && !g.spec
  let s := s.dropGroups p (mine.filter fun g => decide (n ≤ 64 * g.page))
  let s := (mine.filter fun g => g.page == n / 64 && n % 64 != 0).foldl
    (fun s g => s.shrinkGroup p g (g.toks.filter fun t => decide (t.pos < n % 64))) s
  s.emptyBlocks p q.idx (ceilDiv n 1024)

def State.truncate (s : State) (uid : Nat) (q : Seq) (n : Nat) : ItemRes :=
  let s := (s.cutPages q n).cutGroups q n
  let cut := q.dir.filter fun x => x.2.2.1 == n / 64 && n % 64 != 0
  match s.reopenAll uid q n cut with
  | .done s => .done (s.setLength q.idx n)
  | other => other

/-- Copy a sequence's groups unit by unit; none when no unit is left. -/
def State.copyGroups (s : State) (p new : Nat) : List Group → Option (State × Bool)
  | [] => some (s, false)
  | g :: rest =>
    match s.growGroup p
        { g with seq := new, sump := 0, stag := 0, tail := none, jobs := [], undo := [], fullAt := none, last := s.now }
      g.toks.length 64 with
    | none => none
    | some (s, g, staged) =>
      match State.copyGroups (s.setGroup p g) p new rest with
      | none => none
      | some (s, b) => some (s, b || staged)

/-- A new sequence with the same positions. It is owned by the prefill pool, as every created sequence is (R195). -/
def State.forkSeq (s : State) (j : Job) (i : Nat) (q : Seq) : ItemRes :=
  let p := q.part
  match s.newSeq p q.slot q.variant q.seed true q.len q.dir with
  | none => .fail stExhausted
  | some (n, s) =>
    match (s.putTokens n.idx 0 (s.history q)).bind fun s => s.copySums p n.idx ((s.kv p).sums.filter fun f => f.seq == q.idx) with
    | none => .fail stExhausted
    | some s =>
      let s := q.dir.foldl (fun s x => s.addRef p x.2.2.2) s
      match s.copyGroups p n.idx ((s.kv p).groups.filter fun g => g.seq == q.idx && g.flushed.isNone) with
      | none => .noUnit
      | some (s, staged) =>
        let s := if staged then s.jobQuality j.uid qStaging else s
        .done (s.storeN (dOut j.words + 4 * i) 4 n.handle)

/-- LIST: the handles. The TAIL entries of a (layer, KV head) stand after its pages, one for each unflushed group, in ascending
page index (DESIGN CHOICE, log entry 86: R160 orders the pages and says only that TAIL entries are included). -/
def State.handleList (s : State) (q : Seq) : List Nat :=
  let gs := (s.kv q.part).groups.filter fun g => g.seq == q.idx && g.flushed.isNone && !g.spec
  let heads := ((q.dir.map fun x => (x.1, x.2.1)) ++ gs.map fun g => (g.layer, g.head)).eraseDups
  let heads := sortBy (fun a b => decide (a.1 < b.1) || (a.1 == b.1 && decide (a.2 < b.2))) heads
  heads.flatMap fun h =>
    ((q.pages.filter fun x => (x.1, x.2.1) == h).map fun x => x.2.2.2) ++
      ((sortBy (fun a b => decide (a.page < b.page)) (gs.filter fun g => (g.layer, g.head) == h)).map fun g =>
        tailHandle q.idx g.layer g.head g.page)

def State.spillSeq (s : State) (q : Seq) (vol : Nat) : ItemRes :=
  let p := q.part
  let pages := (q.pages.map fun x => x.2.2.2).eraseDups
  if pages.any fun i => (s.pte p i).state == 3 then .later else
    match s.volume? vol with
    | none => .fail stInvalid
    | some v => match s.spill p v (pages.filter fun i => (s.pte p i).state == 1) with
      | .noRoom => .fail stExhausted
      | .held => .later
      | .worn s => .failIn stFault s
      | .done _ s =>
        match ((s.kv p).groups.filter fun g => g.seq == q.idx && g.flushed.isNone && g.tail.isNone).foldl
            (fun o g => o.bind fun s => s.park p g) (some s) with
        | some s => .done s
        | none => .fail stExhausted

def State.fetchSeq (s : State) (q : Seq) (badRead : Bool) : ItemRes :=
  let p := q.part
  let pages := (q.pages.map fun x => x.2.2.2).eraseDups
  if pages.any fun i => (s.pte p i).state == 3 then .later else
    let cold := pages.filter fun i => (s.pte p i).state == 2
    if (badRead && !cold.isEmpty) || cold.any (s.pageTorn p) then .fail stData
    else if s.readHeld (cold.flatMap (s.pageDies p)) then .later else
      match cold.foldl (fun o i => o.bind fun s => s.fetchPage p i) (some s) with
      | some s => .done s
      | none => .fail stExhausted

/-- Apply entry `i` (R160). -/
def State.kmApply (s : State) (j : Job) (i : Nat) (badRead : Bool) : ItemRes :=
  let w := s.kmEntry j i
  match s.resident j.part (wordAt w 0) with
  | none => .fail stInvalid
  | some q =>
    match kmAction w with
    | 0 => .done (s.modSeq q.idx fun q => { q with prefillPool := !q.prefillPool })
    | 1 => s.spillSeq q (kmVolume w)
    | 2 => s.fetchSeq q badRead
    | 3 => if q.len < kmLength w then .fail stInvalid else s.truncate j.uid q (kmLength w)
    | 4 => s.forkSeq j i q
    | 5 => .done (s.releaseSeq q)
    | _ =>
      let l := s.handleList q
      .done (s.storeWords (kmDest w) l)

/-- What an entry writes to memory. -/
def State.kmTarget (s : State) (j : Job) (i : Nat) : Nat × Nat :=
  let w := s.kmEntry j i
  match s.resident j.part (wordAt w 0) with
  | none => (0, 0)
  | some q =>
    if kmAction w = 4 then (dOut j.words + 4 * i, 4)
    else if kmAction w = 6 then (kmDest w, 4 * (s.handleList q).length) else (0, 0)

/-- What an entry reads of the partition's DRAM: pages that it spills or reopens, history and summaries that it copies. -/
def State.kmReads (s : State) (j : Job) (i : Nat) : List (Nat × Nat) :=
  let w := s.kmEntry j i
  match s.resident j.part (wordAt w 0) with
  | none => []
  | some q =>
    let n := kmLength w
    let pages := if kmAction w = 1 then q.dir
      else if kmAction w = 3 then q.dir.filter fun x => x.2.2.1 == n / 64 && n % 64 != 0
      else []
    (pages.flatMap fun x => s.pageReads j.part x.2.2.2) ++
      if kmAction w = 4 then
        q.historyReads ++ ((s.kv j.part).sums.filter fun f => f.seq == q.idx).map fun f => (f.addr, sumBytes f.dim)
      else []

/-- The channel that reported an uncorrectable flash page of a FETCH (R295). -/
def State.fetchRecord (s : State) (j : Job) (i : Nat) : State :=
  match s.resident j.part (wordAt (s.kmEntry j i) 0) with
  | none => s
  | some q => match (q.pages.map fun x => x.2.2.2).find? fun n => (s.pte j.part n).state == 2 with
    | none => s
    | some n => s.badUnitRecord j.part (.volume (s.pte j.part n).volume 0 0) ((s.pte j.part n).payload / pageBytes)

/-- A wait for a unit: counted and recorded when it begins, at its end after 1 ms RESOURCE_EXHAUSTED (R142). -/
def State.waitUnit (s : State) (j : Job) (since : Option Nat) (set : Option Nat → Ext) : State :=
  match since with
  | some t => if t + msTicks ≤ s.now then s.exhaustJob j.uid else s
  | none =>
    (s.backpressure j.part 0).modJob j.uid fun j => { j with ext := set (some s.now) }

/-- Apply the next entry of a KV_MOVE, or end it. -/
def State.kmStep (s : State) (j : Job) (done : Nat) (since : Option Nat) (badRead : Bool) : State :=
  if dCount j.words ≤ done then s.finishUid j.uid done else
    let t := s.kmTarget j done
    match (s.blockedOut j t.1 t.2).or (s.anyBlocked j (s.kmReads j done)) with
    | some s => s
    | none => match s.kmApply j done badRead with
      | .later => s
      | .noUnit => s.waitUnit j since (Ext.items done)
      | .fail st =>
        let s := if st = stData && badRead then s.fetchRecord j done else s
        s.failJob j.uid st done
      | .failIn st s => s.failJob j.uid st done
      | .done s =>
        let s := s.modJob j.uid fun j => { j with ext := .items (done + 1) none }
        if done + 1 = dCount j.words then s.finishUid j.uid (done + 1) else s

/-- Validate every entry (R161), then apply the first. -/
def State.startKvMove (s : State) (j : Job) (badRead : Bool) : State :=
  let n := dCount j.words
  match s.blocked j (dArg j.words) (16 * n) with
  | some s => s
  | none =>
    match s.kmBad j.part 0 0 ((List.range n).map (s.kmEntry j)) with
    | some i => s.failJob j.uid stInvalid i
    | none => (s.modJob j.uid fun j => { j with ext := .items 0 none }).kmStep j 0 none badRead

/-- KV_MOVE starts, or goes on with its next entry. -/
def execKvMove (uid : Nat) (badRead : Bool) (s : State) : Res :=
  .next (match s.starting uid 0x06 with
    | some (j, t) => t.startKvMove j badRead
    | none => match s.job? uid with
      | none => s
      | some j => match j.ext with
        | .items done since =>
          if j.opcode == 0x06 && j.state == .running && !j.finished && s.cpRunning j.cp && s.cpRunning 2 then
            s.kmStep j done since badRead
          else s
        | _ => s.waitStart uid 0x06)

/-! ## PARK_GROUP (R143) -/

/-- An append, a job or a staging region of the partition calls for parking. -/
def State.wantsPark (s : State) (p : Nat) : Bool :=
  !(s.waitingAppends p).isEmpty || decide (3 * stagingUnits < 4 * (s.part p).ctr.stagUsed) ||
    (s.partJobs p).any fun j => j.unitWait.isSome || match j.ext with
      | .serve _ _ _ w => w.isSome
      | .items _ w => w.isSome
      | _ => false

/-- A group that may be parked: no unfinished job other than a SUSPENDED one names its sequence; a job whose record is not yet
written is unfinished (R37). -/
def State.parkable (s : State) (p : Nat) (g : Group) : Bool :=
  g.tail.isNone && g.flushed.isNone && !g.spec && decide (0 < g.sump + g.stag) &&
    !(s.partJobs p).any fun j => (j.finished || j.state != .suspended) && (s.heldSeqs j).contains g.seq

def execParkGroup (part : Nat) (s : State) : Res :=
  .next (if s.wantsPark part && s.cpRunning 2 then
      match minBy Group.last ((s.kv part).groups.filter fun g => s.parkable part g) with
      | none => s
      | some g => (s.park part g).getD s
    else s)

/-! ## GROUP_FLUSH (R144) -/

/-- A group's place in the order of completion. -/
def Group.order (g : Group) : Nat := (g.fullAt.map Prod.snd).getD 0

/-- The full group that was complete first is flushed. Without a frame it waits; after 1 ms the jobs whose appends wait end. -/
def execGroupFlush (part : Nat) (s : State) : Res :=
  .next (match minBy Group.order ((s.kv part).groups.filter fun g => g.full && g.tail.isNone) with
    | none => s
    | some g => match s.flushGroup part g with
      | some t => t
      | none =>
        if (g.fullAt.map Prod.fst).getD 0 + msTicks ≤ s.now then g.jobs.foldl (fun s u => s.exhaustJob u) s else s)

/-! ## UNITS_FREED (R145) -/

def State.freeFlushed (s : State) (p : Nat) (g : Group) : State := (s.dropGroup p g).freeUnits p g.sump g.stag

/-- A flushed group whose jobs are final and whose flush the safe epoch has passed. -/
def State.flushedDone (s : State) (p : Nat) (g : Group) : Bool :=
  match g.flushed with
  | some e => g.jobs.isEmpty && decide (e < s.safeEpoch p)
  | none => false

def execUnitsFreed (part : Nat) (s : State) : Res :=
  .next (((s.kv part).groups.filter (s.flushedDone part)).foldl (fun s g => s.freeFlushed part g) s)

/-! ## IDLE_EPOCH_TICK (R153) -/

def State.idlePart (s : State) (p : Nat) : Bool := !(s.partJobs p).any fun j => servingOp j.opcode && j.active

def execIdleEpochTick (part : Nat) (s : State) : Res :=
  .next (if (s.part part).valid && s.idlePart part && decide ((s.kv part).lastAdvance + 5000 ≤ s.now) then s.advanceEpoch part
    else s)

/-! ## PAGE_RECLAIM (R154) -/

def State.reclaimable (s : State) (p i : Nat) : Bool :=
  let e := s.pte p i
  e.state == 4 && decide (e.epoch < s.safeEpoch p)

/-- Free one page and whatever else waits for the epoch. -/
def State.reclaimOne (s : State) (p : Nat) : State :=
  let s := match (List.range (s.kv p).pages).find? fun i => s.reclaimable p i with
    | none => s
    | some i =>
      let e := s.pte p i
      let s := if e.sidecar = 0 then s else (s.freeFrame p e.payload).freeFrame p e.sidecar
      s.setPte p i (Pte.ofWords [])
  ((s.reclaimStale p).startMoves p)

def execPageReclaim (part : Nat) (s : State) : Res := .next (s.reclaimOne part)

end Sys2Proof.Machine
end

