-- ==== Sys2Proof/Machine/Sampler.lean ====
section
/-! DEFINITION. The sampler: its settings block, one draw over a vocabulary of logits, and the random number of a draw (R206 to
R209). -/

namespace Sys2Proof.Machine

/-- The settings block (R206). -/
structure Settings where
  temperature : F32
  topP : F32
  penalty : F32
  topK : Nat
  bias : List (Nat × F32)
  grammar : Option Nat
  window : Nat
  deriving DecidableEq, Repr

def sNBias (w : List Nat) : Nat := bits 22 16 (wordAt w 3)

/-- Fields of the block in range (R206); bias entries are judged apart. -/
def settingsOk (w : List Nat) : Bool :=
  let f (i : Nat) : F32 := BitVec.ofNat 32 (wordAt w i)
  let pos (x : F32) : Bool := flt 0 x
  fIsFin (f 0) && fIsFin (f 1) && fIsFin (f 2) && !flt (f 0) 0 && pos (f 1) && !flt f32One (f 1) && pos (f 2) &&
    decide (bits 8 0 (wordAt w 3) ≤ 256) && bits 15 9 (wordAt w 3) == 0 && decide (sNBias w ≤ 64) &&
    bits 31 24 (wordAt w 3) == 0 && decide (bits 31 0 (wordAt w 4) ≤ 4096) && wordAt w 5 == 0 &&
    bits 31 16 (wordAt w 7) == 0 && bits 31 16 (wordAt w 9) == 0 && wordAt w 14 == 0 && wordAt w 15 == 0

def State.biasEntries (s : State) (w : List Nat) : List (Nat × F32) :=
  (List.range (sNBias w)).map fun i =>
    let a := addr48 w 6 + 8 * i
    (s.readN a 4, BitVec.ofNat 32 (s.readN (a + 4) 4))

def State.settings (s : State) (a : Nat) : Settings :=
  let w := s.wordsAt a 16
  let k := bits 8 0 (wordAt w 3)
  { temperature := BitVec.ofNat 32 (wordAt w 0), topP := BitVec.ofNat 32 (wordAt w 1), penalty := BitVec.ofNat 32 (wordAt w 2)
    topK := if k = 0 then 256 else k, bias := s.biasEntries w
    grammar := if bit 23 (wordAt w 3) then some (addr48 w 8) else none, window := bits 12 0 (wordAt w 4) }

/-- Greedy choice with no other setting (R205). -/
def Settings.greedy : Settings :=
  { temperature := 0, topP := f32One, penalty := f32One, topK := 256, bias := [], grammar := none, window := 0 }

/-- What a draw gives: the token, or none when no candidate survived; whether a logit was NaN. -/
structure Draw where
  token : Option Nat
  nan : Bool
  deriving DecidableEq, Repr

/-- The random number of R209: 24 bits of AES-128 over handle and position. -/
def drawRandom (seed : List Byte) (handle pos : Nat) : F32 :=
  let o := aes128 seed (leBytes 4 handle ++ leBytes 4 pos ++ List.replicate 8 0)
  toF32 (.fin false (leNat (o.take 3)) (2 ^ 24))

/-- The least index of the greatest element. -/
def argmax (x : List F32) : Nat :=
  (x.zipIdx.foldl (fun (m : F32 × Nat) y => if flt m.1 y.1 then y else m) (x.headD 0, 0)).2

/-- Insert a candidate into a list sorted by value descending, ties to the lower index, keeping `k`. -/
def insertTop (k : Nat) (c : Nat × F32) (l : List (Nat × F32)) : List (Nat × F32) :=
  (insertBy (fun a b => flt b.2 a.2 || (!flt a.2 b.2 && decide (a.1 < b.1))) c l).take k

/-- Running sums in order. -/
def runSums (l : List F32) : List F32 :=
  (l.foldl (fun (a : List F32 × F32) e => let c := if a.1.isEmpty then e else fadd a.2 e; (c :: a.1, c)) ([], 0)).1.reverse

/-- Steps 1 to 4 of R207. -/
def prepare (t : Settings) (allow : Nat → Bool) (history : List Nat) (x : List F32) : List F32 × Bool :=
  let x := t.bias.foldl (fun x b => x.modify b.1 fun v => fadd v b.2) x
  let nan := x.any fIsNaN
  let x := x.map fun v => if fIsNaN v then f32NegInf else v
  let recent := (history.drop (history.length - t.window)).eraseDups
  let x := recent.foldl (fun x i => x.modify i fun v => if flt 0 v then fdiv v t.penalty else fmul v t.penalty) x
  let x := if t.grammar.isSome then x.zipIdx.map fun v => if allow v.2 then v.1 else f32NegInf else x
  (x, nan)

/-- Steps 6 to 9 of R207. Where the sums are NaN (a greatest logit of +∞) no j reaches the bound: every candidate stays, and the
last is drawn (DESIGN CHOICE, log entry 89: R207 does not say). -/
def choose (t : Settings) (u : F32) (x : List F32) : Option Nat :=
  let cands := (x.zipIdx.foldl (fun l v => insertTop t.topK (v.2, v.1) l) []).filter fun v => v.2 != f32NegInf
  match cands with
  | [] => none
  | top :: _ =>
    let sums := runSums (cands.map fun v => fexp (fsub v.2 top.2))
    let bound := fmul t.topP (sums.getLastD 0)
    let n := ((List.range cands.length).find? fun j => !flt (sums.getD j 0) bound && !fIsNaN (sums.getD j 0) && !fIsNaN bound).getD
      (cands.length - 1)
    let target := fmul u (sums.getD n 0)
    let j := ((List.range (n + 1)).find? fun j => flt target (sums.getD j 0)).getD n
    (cands[j]?).map Prod.fst

/-- One draw (R207). -/
def drawToken (t : Settings) (allow : Nat → Bool) (history : List Nat) (u : F32) (x : List F32) : Draw :=
  let r := prepare t allow history x
  let token :=
    if r.1.all fun v => v == f32NegInf then none
    else if (f32Val t.temperature).isZero then some (argmax r.1)
    else choose t u (r.1.map fun v => fdiv v t.temperature)
  { token := token, nan := r.2 }

end Sys2Proof.Machine
end

