-- ==== Sys2Proof/Machine/ServeCheck.lean ====
section
/-! DEFINITION. Sequence entries of PREFILL, DECODE_STEP and VERIFY_TREE, and the checks that come before such a job starts
(R177, R188 to R190, R203, R206). -/

namespace Sys2Proof.Machine

/-! ## Entry fields (R189) -/

def seCreate (w : List Nat) : Bool := bit 0 (wordAt w 1)
def seSample (w : List Nat) : Bool := bit 1 (wordAt w 1)
def seLogits (w : List Nat) : Bool := bit 2 (wordAt w 1)
def seSetSeed (w : List Nat) : Bool := bit 3 (wordAt w 1)
def seVariant (w : List Nat) : Option Nat := if bit 20 (wordAt w 1) then some (bits 19 8 (wordAt w 1)) else none
def seRetrieval (w : List Nat) : Nat := wordAt w 2
def seNtok (w : List Nat) : Nat := bits 20 0 (wordAt w 3)
def seTokens (w : List Nat) : Nat := addr48 w 4
def seInput (w : List Nat) : Nat := bits 17 0 (wordAt w 6)
def seSampler (w : List Nat) : Nat := addr48 w 8
def seParents (w : List Nat) : Nat := addr48 w 10
def seLogitsAddr (w : List Nat) : Nat := addr48 w 12

/-- Retrieval settings (R177). -/
def rEnable (r : Nat) : Bool := bit 0 r
def rWindow (r : Nat) : Nat := bits 6 1 r + 1
def rPages (r : Nat) : Nat := bits 20 8 r

def retrievalOk (r : Nat) : Bool :=
  !bit 7 r && bits 31 21 r == 0 && (!rEnable r || (decide (16 ≤ rPages r) && decide (rPages r ≤ 4096)))

/-- The checks that need only the entry's words. -/
def entryWordsOk (op : Nat) (w : List Nat) : Bool :=
  bits 7 4 (wordAt w 1) == 0 && bits 31 21 (wordAt w 1) == 0 && bits 31 21 (wordAt w 3) == 0 && bits 31 16 (wordAt w 5) == 0 &&
    bits 31 18 (wordAt w 6) == 0 && wordAt w 7 == 0 && bits 31 16 (wordAt w 9) == 0 && bits 31 16 (wordAt w 13) == 0 &&
    wordAt w 14 == 0 && wordAt w 15 == 0 && (!seCreate w || (op == 3 && wordAt w 0 == 0)) &&
    (if op == 3 then seRetrieval w == 0 else retrievalOk (seRetrieval w)) &&
    (if op == 3 then decide (1 ≤ seNtok w) else if op == 4 then seNtok w == 0 else
      decide (1 ≤ seNtok w) && decide (seNtok w ≤ 64) && bits 31 16 (wordAt w 11) == 0) &&
    (seSample w || seSetSeed w) == (seSampler w != 0)

/-- Depth of each draft: one more than its parent's (R203). -/
def depths (parents : List Nat) : List Nat :=
  parents.foldl (fun ds p => ds ++ [if p = 0xFF then 1 else ds.getD p 0 + 1]) []

def treeOk (parents : List Nat) : Bool :=
  (parents.zipIdx.all fun p => p.1 == 0xFF || decide (p.1 < p.2)) && (depths parents).all fun d => decide (d ≤ 16)

/-- What the check of an entry finds. -/
inductive EntRes where
  | ok (e : Ent)
  | bad
  | stop (s : State)       -- a block of the entry cannot be reached
  deriving DecidableEq, Repr

/-- Blocks that the entry names. -/
def entryBlocks (op vocab : Nat) (w : List Nat) : List (Nat × Nat) :=
  [(seTokens w, if op == 4 then 0 else 4 * seNtok w), (seParents w, if op == 5 then seNtok w else 0),
    (seSampler w, if seSampler w = 0 then 0 else 64),
    (seLogitsAddr w, if seLogits w then 4 * vocab * (if op == 5 then 17 else 1) else 0)]

/-- The settings block that the entry names is in range (R206). -/
def State.samplerOk (s : State) (vocab : Nat) (w : List Nat) : Bool :=
  seSampler w == 0 || (let t := s.wordsAt (seSampler w) 16
    settingsOk t && (s.biasEntries t).all fun b => decide (b.1 < vocab) && fIsFin b.2)

/-- The state in which a job ends for a settings block at `a`, its bias entries or its grammar mask that it cannot read. -/
def State.samplerBlocked (s : State) (j : Job) (vocab a : Nat) : Option State :=
  if a = 0 then none else
    match s.blocked j a 64 with
    | some s => some s
    | none =>
      let w := s.wordsAt a 16
      s.anyBlocked j [(addr48 w 6, 8 * sNBias w), (addr48 w 8, if bit 23 (wordAt w 3) then ceilDiv vocab 8 else 0)]

/-- The sequence that the entry names, or a new one of length 0. -/
def State.entrySeq (s : State) (p : Nat) (w : List Nat) : Option Seq := if seCreate w then none else s.resident p (wordAt w 0)

/-- R190 for one entry, after those in `before`. -/
def State.checkEntry (s : State) (j : Job) (t : Slot) (i : Nat) (w : List Nat) (before : List Ent) : EntRes :=
  let op := j.opcode
  let vocab := t.manifest.vocab
  let q := s.entrySeq j.part w
  if !entryWordsOk op w || (!seCreate w && q.isNone) then .bad else
    let len := (q.map Seq.len).getD 0
    if (q.map fun q => q.slot != t.idx || before.any fun e => !e.created && e.seqIdx == q.idx).getD false then .bad
    else if !s.variantOk j.part t.idx (match q with
      | some q => q.variant
      | none => seVariant w) then .bad
    else match s.anyBlocked j (entryBlocks op vocab w) with
    | some s => .stop s
    | none =>
      match s.samplerBlocked j vocab (seSampler w) with
      | some s => .stop s
      | none =>
        let tokens := if op == 4 then [] else s.wordsAt (seTokens w) (seNtok w)
        let parents := if op == 5 then (s.bytesAt (seParents w) (seNtok w)).map BitVec.toNat else []
        let grow := if op == 3 then seNtok w else 1 + (depths parents).foldl max 0
        if !s.samplerOk vocab w || !(tokens.all fun k => decide (k < vocab)) ||
            (op != 3 && decide (vocab ≤ seInput w)) || !treeOk parents || decide (1048576 < len + grow) then .bad
        else .ok
          { index := i, seqIdx := (q.map Seq.idx).getD 0, handle := wordAt w 0, created := seCreate w, oldLen := len
            ntok := seNtok w, tokens := tokens, input := seInput w, sample := seSample w, logits := seLogits w
            retrieval := seRetrieval w, samplerAddr := seSampler w, logitsAddr := seLogitsAddr w, parents := parents, path := []
            node := none, ready := false, rows := [], token := 0, tokenValid := false, allMasked := false, nanLogits := false
            done := false }

/-- The next entry after those found good, unless one has ended the job. -/
def State.nextEntry (s : State) (j : Job) (t : Slot) (r : List Ent ⊕ State) (w : List Nat) : List Ent ⊕ State :=
  match r with
  | .inr x => .inr x
  | .inl acc => match s.checkEntry j t acc.length w acc with
    | .bad => .inr (s.failJob j.uid stInvalid acc.length)
    | .stop s => .inr s
    | .ok e => .inl (acc ++ [e])

/-- R190 for every entry: the entries, or the state in which the job has ended. -/
def State.checkEntries (s : State) (j : Job) (t : Slot) (ws : List (List Nat)) : List Ent ⊕ State :=
  ws.foldl (s.nextEntry j t) (.inl [])

/-- The seed that an entry adopts, if it adopts one. -/
def State.entrySeed (s : State) (w : List Nat) : Option (List Byte) :=
  if seCreate w || seSetSeed w then
    some (if seSampler w = 0 then List.replicate 16 0 else s.bytesAt (seSampler w + 40) 16)
  else none

/-- A poisoned group of a named sequence ends every later job (R414). -/
def State.poisonedSeq (s : State) (p seq : Nat) : Bool := (s.kv p).groups.any fun g => g.seq == seq && g.poisoned

end Sys2Proof.Machine
end

