-- ==== Sys2Proof/Machine/Forward.lean ====
section
/-! DEFINITION. What a model computes for a token row, layer by layer: projections with their adapters, keys, values and queries
as PACK forms them, attention over a list (R164 to R172, R174), the residual additions with steering (R202, R213, R214), and the
lists themselves in the job's list area (R174, R180). What the image alone decides are the functions Config.net… of its load
digest (log entry 12). -/

namespace Sys2Proof.Machine

/-! ## Rows -/

/-- A row of `n` elements, every NaN canonical (R56). -/
def fitRow (n : Nat) (x : List F32) : List F32 := (List.range n).map fun i => canonF32 (x.getD i 0)

def addRows (x y : List F32) : List F32 := List.zipWith fadd x y

/-- What is applied beside the image: an adapter's output for a tensor of a layer, and the steering step of a layer's final
residual add. -/
structure Adapt where
  delta : Nat → Nat → List F32 → Option (List F32)
  sats : Nat → Nat → List F32 → Nat          -- of an adapter's tasks, under DECODE
  final : Nat → List F32 → List F32

/-- The steering step: y = x * g + v (R202, R213). -/
def steerRow (g : Option (List F32)) (v x : List F32) : List F32 :=
  addRows (match g with
    | some g => List.zipWith fmul x g
    | none => x) v

def State.bf16Row (s : State) (a n : Nat) : List F32 := (List.range n).map fun c => s.bf16At (a + 2 * c)

/-- Bytes of one layer's vectors in a variant's data. -/
def layerStride (t : Slot) (scales : Bool) : Nat := 2 * t.manifest.width * (1 + b2n scales)

/-- The variant of a sequence, as a layer's final step applies it; without one the row stays as it is. -/
def State.variantFinal (s : State) (p : Nat) (t : Slot) (v : Option Nat) (l : Nat) (x : List F32) : List F32 :=
  match v with
  | none => x
  | some v =>
    let e := s.variant p v
    let a := e.data + l * layerStride t e.scales
    steerRow (if e.scales then some (s.bf16Row (a + 2 * t.manifest.width) t.manifest.width) else none)
      (s.bf16Row a t.manifest.width) x

/-- A served sequence: its variant, no adapters (R214). -/
def State.served (s : State) (p : Nat) (t : Slot) (v : Option Nat) : Adapt :=
  { delta := fun _ _ _ => none, sats := fun _ _ _ => 0, final := s.variantFinal p t v }

/-! ## Tensors of a layer (R214, R252) -/

def tensorIn (t : Slot) (l r : Nat) : Nat := ((t.shape l r).map Prod.fst).getD t.manifest.width

/-- The row at an input point, as long as the tensor of role `r` takes it. -/
def inputRow (t : Slot) (l point r : Nat) (xs : List (List F32)) : List F32 :=
  fitRow (tensorIn t l r) (Config.netInput t.digest l point xs)

/-- The output of a tensor: the image's, and the adapter's added to it after R82. -/
def tensorOut (t : Slot) (a : Adapt) (l r : Nat) (x : List F32) : List F32 :=
  let y := fitRow (((t.shape l r).map Prod.snd).getD 0) (Config.netTensor t.digest l r x)
  match a.delta l r x with
  | some d => addRows y d
  | none => y

/-- A row as PACK stores it in S8: its BF16 scale, its codes (R76); and the saturations of that (R60). -/
def packRow (x : List F32) : Nat × List Byte :=
  let q := spanQuant .s8 (x.map f32Val)
  (q.1, q.2.2.1.map (BitVec.ofNat 8))

def packSat (x : List F32) : Nat := (spanQuant .s8 (x.map f32Val)).2.2.2

def headRow (d i : Nat) (x : List F32) : List F32 := (x.drop (d * i)).take d

def Slot.dim (t : Slot) : Nat := headDim t.manifest

/-- Key and value of KV head `h`, and query head `i`, of a residual row, before PACK. -/
def keyVec (t : Slot) (a : Adapt) (l h pos : Nat) (x : List F32) : List F32 :=
  fitRow t.dim (Config.netRotate t.digest l true pos (headRow t.dim h (tensorOut t a l 1 (inputRow t l 0 1 [x]))))

def valueVec (t : Slot) (a : Adapt) (l h : Nat) (x : List F32) : List F32 :=
  fitRow t.dim (headRow t.dim h (tensorOut t a l 2 (inputRow t l 0 2 [x])))

def queryVec (t : Slot) (a : Adapt) (l i pos : Nat) (x : List F32) : List F32 :=
  fitRow t.dim (Config.netRotate t.digest l false pos (headRow t.dim i (tensorOut t a l 0 (inputRow t l 0 0 [x]))))

def keyRow (t : Slot) (a : Adapt) (l h pos : Nat) (x : List F32) : Nat × List Byte := packRow (keyVec t a l h pos x)
def valueRow (t : Slot) (a : Adapt) (l h : Nat) (x : List F32) : Nat × List Byte := packRow (valueVec t a l h x)

/-- A query's scale and codes. -/
def queryRow (t : Slot) (a : Adapt) (l i pos : Nat) (x : List F32) : F32 × List Byte :=
  let q := packRow (queryVec t a l i pos x)
  (bf16F32 q.1, q.2)

/-- Saturations of PACK for the keys, values and queries of a residual row. -/
def rowSats (t : Slot) (a : Adapt) (l pos : Nat) (x : List F32) : Nat :=
  let n := (t.layer l).hpk
  ((List.range (t.layer l).kvHeads).map fun h => packSat (keyVec t a l h pos x) + packSat (valueVec t a l h x) +
    ((List.range n).map fun i => packSat (queryVec t a l (h * n + i) pos x)).sum).sum

/-- Saturations that a job's pass meets in DECODE and in PACK are counted on the lowest engine of its pool (log entry 12). -/
def State.countPass (s : State) (j : Job) (n : Nat × Nat) : State :=
  match s.jobPool j with
  | e :: _ => s.countSat e n.1 n.2
  | [] => s

/-- DATA occurrences that a job's pass meets, from that engine. -/
def State.passData (s : State) (j : Job) (n : Nat) : State :=
  match s.jobPool j with
  | e :: _ => s.raiseMany n e 2 0x19 (some j.part) 0 0
  | [] => s

/-- A ROW task of the job signals counter `k` of its block (R174; log entry 82). -/
def State.signalRow (s : State) (j : Job) (k : Nat) : State :=
  match j.ctrs, s.jobPool j with
  | some c, e :: _ => s.signal (c.1 + k) e (some j.part)
  | _, _ => s

def sumMet (l : List (Nat × Nat)) : Nat × Nat := ((l.map Prod.fst).sum, (l.map Prod.snd).sum)

/-- Saturations of the first half of a layer for a row: under DECODE, under PACK. -/
def beginMet (t : Slot) (a : Adapt) (l pos : Nat) (x : List F32) : Nat × Nat :=
  let own := if (t.layer l).kvHeads = 0 then 0
    else ((List.range 3).map fun r => a.sats l r (inputRow t l 0 r [x])).sum
  sumMet [Config.netSats t.digest l [x], (own, rowSats t a l pos x)]

/-- The group length of the attention's keys: that of the query tensor's directory entry (R71), at most D. -/
def attnGroup (t : Slot) (l : Nat) : Nat :=
  min t.dim (((t.ents.find? fun e => eKind e == 0 && eLayer e == l && eRole e == 0).map eGroup).getD 32)

/-! ## Attention over a list -/

/-- Saturations of the groups that DECODE converts of a block: keys, and values (R60, R63). -/
def Block.sats (t : Slot) (l : Nat) (b : Block) : Nat :=
  ((b.keyGroups t.dim (attnGroup t l)).map fun k => (k.map OpGroup.sat).sum).sum + ((b.valGroups t.dim).map OpGroup.sat).sum

/-- One part of a row's attention: its entries, by page index (none: the draft block), in order (R165 to R168). -/
def attendPart (t : Slot) (l : Nat) (seen : Option Nat → Nat → Bool) (q : F32 × List Byte)
    (es : List (Option Nat × Block)) : RowState :=
  let g := attnGroup t l
  let qs : List OpGroup := (chunksOf g (t.dim / g) (q.2.map fun b => sext 8 b.toNat)).map fun c =>
    { images := c, scale := none, sat := 0, data := 0 }
  es.foldl (fun r e =>
    r.fold (scoreRow (seen e.1) false (some q.1) (Config.netScale t.digest l) e.2 qs (e.2.keyGroups t.dim g))
      (e.2.valGroups t.dim)) (RowState.start t.dim)

/-- A row's attention in `parts` parts, the drafts with the last, merged in ascending part index (R165, R170, R172). -/
def attend (t : Slot) (l parts : Nat) (seen : Option Nat → Nat → Bool) (list drafts : List (Option Nat × Block))
    (q : F32 × List Byte) : List F32 :=
  let n := list.length
  let part (p : Nat) : RowState :=
    let lo := p * n / parts
    attendPart t l seen q ((list.drop lo).take ((p + 1) * n / parts - lo) ++ if p + 1 = parts then drafts else [])
  (((List.range' 1 (parts - 1)).map part).foldl RowState.combine (part 0)).finish

/-! ## The end of a layer -/

/-- The residual row after the attention output `y`. A layer without attention has none (R250). -/
def layerMid (t : Slot) (a : Adapt) (l : Nat) (x y : List F32) : List F32 :=
  if (t.layer l).kvHeads = 0 then x
  else fitRow t.manifest.width (Config.netMid t.digest l x (tensorOut t a l 3 (inputRow t l 1 3 [y])))

/-- The feed-forward output, the experts `shadows` read from their shadow entries (R261). -/
def feedForward (t : Slot) (a : Adapt) (l : Nat) (shadows : List Nat) (x : List F32) : List F32 :=
  if (t.layer l).expertLayer then
    fitRow t.manifest.width (Config.netExperts t.digest l shadows (inputRow t l 2 7 [x]))
  else tensorOut t a l 6
    (inputRow t l 3 6 [tensorOut t a l 4 (inputRow t l 2 4 [x]), tensorOut t a l 5 (inputRow t l 2 5 [x])])

/-- Saturations of the second half of a layer for a row. -/
def endMet (t : Slot) (a : Adapt) (l : Nat) (x y : List F32) : Nat × Nat :=
  let m := layerMid t a l x y
  let mid := if (t.layer l).kvHeads = 0 then 0 else a.sats l 3 (inputRow t l 1 3 [y])
  let own := if (t.layer l).expertLayer then 0 else
    a.sats l 4 (inputRow t l 2 4 [m]) + a.sats l 5 (inputRow t l 2 5 [m]) +
      a.sats l 6 (inputRow t l 3 6 [tensorOut t a l 4 (inputRow t l 2 4 [m]), tensorOut t a l 5 (inputRow t l 2 5 [m])])
  sumMet [Config.netSats t.digest l [x, y], (mid + own, 0)]

/-- The row that leaves a layer: the final residual add with its steering step. -/
def layerEnd (t : Slot) (a : Adapt) (l : Nat) (shadows : List Nat) (x y : List F32) : List F32 :=
  let x := layerMid t a l x y
  a.final l (addRows x (feedForward t a l shadows x))

def embedRow (t : Slot) (token : Nat) : List F32 := fitRow t.manifest.width (Config.netEmbed t.digest token)

def headLogits (t : Slot) (x : List F32) : List F32 := fitRow t.manifest.vocab (Config.netHead t.digest x)

/-! ## Lists (R174, R179, R180) -/

/-- The page that stands at an index of (layer, KV head). -/
def Seq.pageAt (q : Seq) (layer head n : Nat) : Option Nat :=
  (q.dir.find? fun x => x.1 == layer && x.2.1 == head && x.2.2.1 == n).map fun x => x.2.2.2

/-- The handle for an index: the page where it is installed, else a TAIL entry. -/
def Seq.entry (q : Seq) (layer head n : Nat) : Nat := (q.pageAt layer head n).getD (tailHandle q.idx layer head n)

def Retrieval.isFor (r : Retrieval) (uid seq layer head : Nat) : Bool :=
  r.uid == uid && r.seq == seq && r.layer == layer && r.head == head

/-- Write a list into a frame of the job's list area: handles, then for a retrieved list their page indices; none when no frame
is free. -/
def State.placeList (s : State) (j : Job) (q : Seq) (layer head : Nat) (pages : List Nat) (retrieved : Bool) :
    Option (Nat × State) :=
  let words := pages.map (q.entry layer head) ++ if retrieved then pages else []
  (s.allocFrame j.part (4 * words.length)).map fun x =>
    (x.1, (x.2.storeWords x.1 words).modJob j.uid fun j => { j with areas := x.1 :: j.areas })

/-- A list without retrieval: every index of the (layer, KV head) up to the sequence's `n` positions. -/
def State.fullList (s : State) (j : Job) (q : Seq) (layer head n : Nat) : Option State :=
  let pages := List.range (ceilDiv n 64)
  (s.placeList j q layer head pages false).map fun x =>
    let r : Retrieval :=
      { uid := j.uid, seq := q.idx, layer := layer, head := head, rows := [], blocks := [], pages := pages, list := x.1
        len := pages.length, retrieved := false, done := true }
    { x.2 with echo := { x.2.echo with retrievals := x.2.echo.retrievals ++ [r] } }

/-- The entries of a finished list, as a job of epoch `epoch` reads them. A page dropped under R261 stays an entry and is absent:
N and the parts do not change with it. -/
def State.listEntries (s : State) (p epoch : Nat) (t : Slot) (r : Retrieval) : List (Option Nat × Block) :=
  ((List.range r.len).map fun n => (n, if r.retrieved then s.readN (r.list + 4 * (r.len + n)) 4 else n)).map fun x =>
    (some x.2, if r.pages.contains x.2 then s.listBlock p epoch r.list x.1 x.2 t.dim (some (t.layer r.layer).fmtS4)
      else Block.absent 0)

/-- The lists of a sequence's layer have served: their frames are free, and the counters of the lists are cleared (R104; log
entry 82). -/
def State.freeLists (s : State) (j : Job) (seq layer : Nat) : State :=
  let mine (r : Retrieval) : Bool := r.uid == j.uid && r.seq == seq && r.layer == layer
  let gone := (s.echo.retrievals.filter fun r => mine r && r.len != 0).map Retrieval.list
  let s := gone.foldl (fun s a => s.freeFrame j.part a) s
  let s := match j.ctrs with
    | some c => (s.setCounter (c.1 + 14) 0).setCounter (c.1 + 15) 0
    | none => s
  let s := s.modJob j.uid fun j => { j with areas := j.areas.filter fun a => !gone.contains a }
  { s with echo := { s.echo with retrievals := s.echo.retrievals.filter fun r => !mine r } }

end Sys2Proof.Machine
end

