-- ==== Sys2Proof/Machine/Serving.lean ====
section
/-! DEFINITION. Serving: PREFILL, PREFILL_CHUNK, DECODE_STEP, VERIFY_TREE and SAMPLER_DRAW (R174, R177 to R179, R186 to R195,
R202 to R209). A job goes through its layers in turn; in each layer, for one sequence after another in bucket order, it appends
the layer's keys and values and builds its lists, and once its pages and retrievals are there, it attends and ends the layer.
What the image decides within a layer are the functions of Forward.lean (log entry 12). -/

namespace Sys2Proof.Machine

/-! ## Appends -/

/-- Keys and values of one position, or draft, of a KV head. -/
structure Pair where
  head : Nat
  pos : Nat
  spec : Bool
  key : Nat × List Byte
  val : Nat × List Byte
  deriving DecidableEq, Repr

/-- Append one pair; `base` bounds the positions (R141). -/
def State.appendPair (s : State) (p uid seq layer base d : Nat) (x : Pair) : AppRes :=
  match s.appendTok p uid seq layer x.head x.pos base x.spec false d x.key with
  | .ok s a => match s.appendTok p uid seq layer x.head x.pos base x.spec true d x.val with
    | .ok s b => .ok s (a || b)
    | other => other
  | other => other

def State.appendAll (p uid seq layer base d : Nat) : List Pair → State → AppRes
  | [], s => .ok s false
  | x :: rest, s => match s.appendPair p uid seq layer base d x with
    | .ok s a => match State.appendAll p uid seq layer base d rest s with
      | .ok s b => .ok s (a || b)
      | other => other
    | other => other

/-! ## The rows of an entry -/

def chunkTokens : Nat := 4096

def chunksOfJob (ents : List Ent) : Nat := ceilDiv (ents.foldl (fun m e => max m e.ntok) 0) chunkTokens

/-- Tokens of chunk `k` of an entry. -/
def Ent.chunk (e : Ent) (k : Nat) : List Nat := (e.tokens.drop (chunkTokens * k)).take chunkTokens

/-- A row: its token, its position, and for a draft its index. -/
structure RowId where
  token : Nat
  pos : Nat
  draft : Option Nat
  deriving DecidableEq, Repr

/-- The rows of an entry: its chunk's tokens; or the pending token, then the drafts at their depths (R192, R204). -/
def Ent.rowIds (op k : Nat) (e : Ent) : List RowId :=
  if op = 0x03 then
    (e.chunk k).zipIdx.map fun x => { token := x.1, pos := e.oldLen + chunkTokens * k + x.2, draft := none }
  else
    { token := e.input, pos := e.oldLen, draft := none } :: (e.tokens.zip (depths e.parents)).zipIdx.map fun x =>
      { token := x.1.1, pos := e.oldLen + x.1.2, draft := some x.2 }

/-- Positions that the entry has in its lists at the end of this chunk or step. -/
def Ent.reach (op k : Nat) (e : Ent) : Nat :=
  if op = 0x03 then e.oldLen + min e.ntok (chunkTokens * (k + 1)) else e.oldLen + 1

/-- Ancestor words of the drafts: a draft's own bit, and those of its path to the pending token (R204). -/
def ancestors (parents : List Nat) : List Nat :=
  parents.zipIdx.foldl (fun ws p => ws ++ [2 ^ p.2 ||| (if p.1 = 0xFF then 0 else ws.getD p.1 0)]) []

/-- Whether a row sees position `j` of an entry of page index `n`, or of the draft block (R168): causal, and for a draft every
position of the list and its ancestors. -/
def RowId.sees (r : RowId) (parents : List Nat) (n : Option Nat) (j : Nat) : Bool :=
  match r.draft, n with
  | none, some n => decide (64 * n + j ≤ r.pos)
  | some _, some _ => true
  | some d, none => bit j ((ancestors parents).getD d 0)
  | none, none => false

/-- Pairs of a layer: every KV head of every row. -/
def Ent.pairs (t : Slot) (a : Adapt) (op k layer : Nat) (e : Ent) : List Pair :=
  (List.range (t.layer layer).kvHeads).flatMap fun h => ((e.rowIds op k).zip e.rows).map fun x =>
    { head := h, pos := x.1.draft.getD x.1.pos, spec := x.1.draft.isSome, key := keyRow t a layer h x.1.pos x.2
      val := valueRow t a layer h x.2 }

/-! ## Starting (R188, R190, R195, R262) -/

/-- Create or ready the sequence of an entry: seed and ownership. -/
def State.openEnt (s : State) (j : Job) (w : List Nat) (e : Ent) : State × Ent :=
  let prefill := j.opcode == 0x03
  let seed := s.entrySeed w
  let r : State × Ent :=
    if e.created then
      match s.newSeq j.part (dSlot j.words) (seVariant w) (List.replicate 16 0) true 0 [] with
      | some (q, s) => (s, { e with seqIdx := q.idx, handle := q.handle })
      | none => (s, e)
    else (s, e)
  let s := r.1.modSeq r.2.seqIdx fun q => { q with prefillPool := prefill, seed := seed.getD q.seed }
  let s := match seed with
    | some b => s.tracePart 0x04 j.part j.qp ([r.2.handle, 0, 0, 0] ++ bytesWords 4 b)
    | none => s
  (s, r.2)

def State.openAll (s : State) (j : Job) : List (List Nat) → List Ent → State × List Ent
  | w :: ws, e :: es =>
    let r := s.openEnt j w e
    let t := State.openAll r.1 j ws es
    (t.1, r.2 :: t.2)
  | _, _ => (s, [])

def State.setServe (s : State) (uid : Nat) (ents : List Ent) (chunk step : Nat) : State :=
  s.modJob uid fun j => { j with ext := .serve ents chunk step none }

def putEnt (ents : List Ent) (e : Ent) : List Ent := ents.map fun x => if x.index == e.index then e else x

/-- Every check before the job starts, then its sequences (R188, R190). -/
def State.startServe (s : State) (j : Job) : State :=
  let n := dCount j.words
  match (s.blocked j (dArg j.words) (64 * n)).or (s.blockedOut j (dOut j.words) (32 * n)) with
  | some s => s
  | none =>
    match s.namedSlot j.part (dSlot j.words) with
    | .inr st => s.failJob j.uid st noResult
    | .inl t =>
      let ws := (List.range n).map fun i => s.wordsAt (dArg j.words + 64 * i) 16
      match s.checkEntries j t ws with
      | .inr s => s
      | .inl ents =>
        if 1024 < s.seqs.length + (ents.filter Ent.created).length then s.failJob j.uid stExhausted noResult
        else if ents.any fun e => !e.created && s.poisonedSeq j.part e.seqIdx then s.failJob j.uid stData noResult
        else
          let r := s.openAll j ws ents
          r.1.setServe j.uid r.2 0 0

/-- CP2 brings the FLASH pages of (layer, KV head) to DRAM for a list that names them all (R262). -/
def State.wantAll (s : State) (j : Job) (q : Seq) (layer head : Nat) : State :=
  (q.pages.filter fun x => x.1 == layer && x.2.1 == head &&
      ((s.pte j.part x.2.2.2).state == 2 || (s.pte j.part x.2.2.2).state == 3)).foldl
    (fun s x => s.wantPage j.part x.2.2.2
      { uid := j.uid, deadline := none, exact := true, path := .undecided, layer := layer, seq := q.idx, head := head
        index := x.2.2.1 }) s

/-- Work of the job that is still out: tasks, retrievals, and pages or experts that it waits for. -/
def State.workOut (s : State) (uid : Nat) : Bool :=
  (s.engines.any fun g => (g.ctxs.any fun x => x.uid == uid && x.state != .faulted) || g.placed.any fun w => w.uid == uid) ||
    ((s.job? uid).any fun j => !j.redo.isEmpty) || (s.merges.any fun m => m.uid == uid) ||
    (s.echo.retrievals.any fun r => r.uid == uid && !r.done) || s.waitsMove uid

/-! ## The lists of a layer (R174, R177 to R179) -/

/-- Pages in the directory of (layer, KV head). -/
def Seq.headPages (q : Seq) (layer head : Nat) : Nat := (q.dir.filter fun x => x.1 == layer && x.2.1 == head).length

/-- Whether Echo selects for (layer, KV head): retrieval is enabled and F > P + W + 1 (R179). -/
def Seq.retrieves (q : Seq) (setting layer head : Nat) : Bool :=
  rEnable setting && decide (rPages setting + rWindow setting + 1 < q.headPages layer head)

/-- The query group of a KV head: HPK rows of each of the entry's rows. Rows of a VERIFY_TREE that several tasks take (R174) form
one group (DESIGN CHOICE, log entry 87: R178 speaks of the task's rows, and R179 of one selection for the head). -/
def Ent.queryGroup (t : Slot) (a : Adapt) (op k layer head : Nat) (e : Ent) : List (F32 × List Byte) :=
  let n := (t.layer layer).hpk
  ((e.rowIds op k).zip e.rows).flatMap fun x => (List.range n).map fun i => queryRow t a layer (head * n + i) x.1.pos x.2

def State.queueRetrieval (s : State) (j : Job) (e : Ent) (layer head : Nat) (rows : List (F32 × List Byte)) : State :=
  let unit : EchoUnit :=
    { uid := j.uid, part := j.part, prio := j.prio, aged := false, arrived := s.now, kind := .level1 e.seqIdx layer head
      ent := e.index }
  let r : Retrieval :=
    { uid := j.uid, seq := e.seqIdx, layer := layer, head := head, rows := rows, blocks := [], pages := [], list := 0, len := 0
      retrieved := true, done := false }
  { s with echo := { s.echo with queue := s.echo.queue ++ [unit], retrievals := s.echo.retrievals ++ [r] } }

/-- The list of a KV head: retrieval where it is enabled, on the query ROW task's signal; else every page of the sequence, the
ROW task signalling the attention tasks itself (R174); none when no frame is free. -/
def State.headList (s : State) (j : Job) (t : Slot) (a : Adapt) (k layer : Nat) (e : Ent) (head : Nat) : Option State :=
  match s.seq? e.seqIdx with
  | none => some s
  | some q =>
    if q.retrieves e.retrieval layer head then
      some ((s.signalRow j 14).queueRetrieval j e layer head (e.queryGroup t a j.opcode k layer head))
    else (s.fullList j q layer head (e.reach j.opcode k)).map fun s => (s.signalRow j 15).wantAll j q layer head

def State.layerLists (s : State) (j : Job) (t : Slot) (a : Adapt) (k layer : Nat) (e : Ent) : Option State :=
  (List.range (t.layer layer).kvHeads).foldl (fun o h => o.bind fun s => s.headList j t a k layer e h) (some s)

/-! ## One layer of one entry -/

/-- Where a job stands: its entries, the chunk, and the step, two for each layer and entry. -/
structure Place where
  ents : List Ent
  chunk : Nat
  step : Nat
  since : Option Nat
  deriving DecidableEq, Repr

/-- Entries by descending length bucket, in argument-block order within one (R174). -/
def bucketOrder (op : Nat) (ents : List Ent) : List Ent :=
  let size (e : Ent) : Nat := lengthBucket (ceilDiv (e.reach op (e.ntok / chunkTokens)) 64)
  sortBy (fun a b => decide (size b < size a)) ents

def Place.entry (x : Place) (op : Nat) : Option Ent := (bucketOrder op x.ents)[x.step % (2 * x.ents.length) / 2]?
def Place.layer (x : Place) : Nat := x.step / (2 * x.ents.length)

def State.adaptOf (s : State) (j : Job) (t : Slot) (e : Ent) : Adapt :=
  s.served j.part t ((s.seq? e.seqIdx).bind Seq.variant)

/-- A PREFILL writes the history of a chunk before it runs it (R193). -/
def State.chunkHistory (s : State) (j : Job) (x : Place) (e : Ent) : Option State :=
  if j.opcode = 0x03 && x.layer = 0 then s.putTokens e.seqIdx (e.oldLen + chunkTokens * x.chunk) (e.chunk x.chunk) else some s

/-- The first half of a layer: the rows enter, their keys and values are appended, and the lists are built. -/
def State.beginLayer (s : State) (j : Job) (t : Slot) (x : Place) (e : Ent) : State :=
  let ids := e.rowIds j.opcode x.chunk
  let e := if x.layer = 0 then { e with rows := ids.map fun r => embedRow t r.token } else e
  let a := s.adaptOf j t e
  match s.chunkHistory j x e with
  | none => s.failJob' j.uid stExhausted
  -- each chunk bounds its own appends: NTOK may be up to 1,048,576 - L (R189; log entry 127)
  | some u => match State.appendAll j.part j.uid e.seqIdx x.layer (e.oldLen + chunkTokens * x.chunk) t.dim
      (e.pairs t a j.opcode x.chunk x.layer) u with
    | .noUnit => s.waitUnit j x.since (Ext.serve x.ents x.chunk x.step)
    | .bad => s.failJob' j.uid stInvalid
    | .ok u staged =>
      let u := if staged then u.jobQuality j.uid qStaging else u
      let u := u.countPass j (sumMet ((ids.zip e.rows).map fun r => beginMet t a x.layer r.1.pos r.2))
      match u.layerLists j t a x.chunk x.layer e with
      | none => u.failJob' j.uid stExhausted
      | some u => u.setServe j.uid (putEnt x.ents e) x.chunk (x.step + 1)

/-- The draft block that the last part reads (R165). -/
def State.draftEntries (s : State) (j : Job) (t : Slot) (e : Ent) (layer head : Nat) : List (Option Nat × Block) :=
  if e.parents.isEmpty then [] else match s.findGroup j.part e.seqIdx layer head 0 true with
    | some g => [(none, g.block t.dim)]
    | none => []

/-- The list of a KV head, as the job's attention tasks read it. -/
def State.headEntries (s : State) (j : Job) (t : Slot) (e : Ent) (layer h : Nat) : List (Option Nat × Block) :=
  ((s.echo.retrievals.filter fun l => l.isFor j.uid e.seqIdx layer h).map (s.listEntries j.part j.epoch t)).flatten

/-- The attention output of a row: every query head over its KV head's list. -/
def State.rowAttn (s : State) (j : Job) (t : Slot) (a : Adapt) (e : Ent) (layer : Nat) (r : RowId) (x : List F32) : List F32 :=
  let n := (t.layer layer).hpk
  let head (h : Nat) : List F32 :=
    let list := s.headEntries j t e layer h
    let drafts := if r.draft.isSome then s.draftEntries j t e layer h else []
    (List.range n).flatMap fun i =>
      attend t layer (splitCount j.opcode list.length) (r.sees e.parents) list drafts (queryRow t a layer (h * n + i) r.pos x)
  (List.range (t.layer layer).kvHeads).flatMap head

/-- The query rows that each attention task of an entry takes (R174). -/
def attnTasks (hpk : Nat) (ids : List RowId) : List (List RowId) :=
  let n := max 1 (64 / hpk)
  chunksOf n (ceilDiv ids.length n) ids

/-- What an entry's attention tasks meet as they read keys and values: saturations under DECODE, and DATA occurrences (R185). With
MASK = 1 a task does not read an entry that lies after its last row (R165). -/
def State.attnMet (s : State) (j : Job) (t : Slot) (e : Ent) (layer : Nat) (ids : List RowId) : Nat × Nat :=
  sumMet ((List.range (t.layer layer).kvHeads).flatMap fun h =>
    let list := s.headEntries j t e layer h ++ s.draftEntries j t e layer h
    (attnTasks (t.layer layer).hpk ids).flatMap fun task =>
      let last := (task.map RowId.pos).foldl max 0
      ((list.filter fun x => j.opcode == 0x05 || x.1.all fun n => decide (64 * n ≤ last)).map fun x =>
        (x.2.sats t layer, x.2.data)))

/-- A VERIFY_TREE or DECODE_STEP commits the pending token; a PREFILL its prompt (R192). None when no frame is free for the
history. -/
def State.commitEnt (s : State) (j : Job) (e : Ent) : Option State :=
  if j.opcode = 0x03 then some (s.setLength e.seqIdx (e.oldLen + e.ntok))
  else (s.putTokens e.seqIdx e.oldLen [e.input]).map fun s => s.setLength e.seqIdx (e.oldLen + 1)

/-- The last layer of the last entry has ended: the next chunk, or the commit, with final rows for the sampler. -/
def State.endChunk (s : State) (j : Job) (ents : List Ent) (k : Nat) : State :=
  if j.opcode = 0x03 && decide (k + 1 < chunksOfJob ents) then s.setServe j.uid ents (k + 1) 0
  else match ents.foldl (fun o e => o.bind fun s => s.commitEnt j e) (some s) with
    | none => s.failJob' j.uid stExhausted
    | some s => s.setServe j.uid (ents.map fun e => { e with ready := true }) (k + 1) 0

/-- Go on to the next step. -/
def State.nextStep (s : State) (j : Job) (t : Slot) (x : Place) (ents : List Ent) : State :=
  if x.step + 1 < 2 * t.manifest.layers * ents.length then s.setServe j.uid ents x.chunk (x.step + 1)
  else s.endChunk j ents x.chunk

/-- What the attention of a layer reads of the partition's DRAM: the variant's rows, the lists, and the pages in them. -/
def State.layerReads (s : State) (j : Job) (t : Slot) (layer : Nat) (e : Ent) : List (Nat × Nat) :=
  let v := (s.seq? e.seqIdx).bind Seq.variant
  let var := s.variant j.part (v.getD 0)
  let n := if v.isSome then layerStride t var.scales else 0
  let lists := s.echo.retrievals.filter fun r => r.uid == j.uid && r.seq == e.seqIdx && r.layer == layer
  (var.data + layer * n, n) :: lists.flatMap fun r =>
    let handles := s.wordsAt r.list r.len
    (r.list, 4 * if r.retrieved then 2 * r.len else r.len) :: (handles.filter fun h => !handleTail h).flatMap fun h =>
      (s.pteAddr j.part (bits 26 0 h), 32) :: ((s.pageFor j.part j.epoch (bits 26 0 h)).map Pte.reads).getD []

/-- The second half of a layer: attention and the rest, for every row. A word that cannot be read ends the job (R115). -/
def State.endLayer (s : State) (j : Job) (t : Slot) (x : Place) (e : Ent) : State :=
  match s.anyBlocked j (s.layerReads j t x.layer e) with
  | some s => s
  | none =>
    let a := s.adaptOf j t e
    let ids := e.rowIds j.opcode x.chunk
    let ys := (ids.zip e.rows).map fun r => (r.2, s.rowAttn j t a e x.layer r.1 r.2)
    let shadows := (j.shadowed.filter fun z => z.1 == x.layer).map Prod.snd
    let rows := ys.map fun y => layerEnd t a x.layer shadows y.1 y.2
    let met := s.attnMet j t e x.layer ids
    let s := (s.countPass j (sumMet ((met.1, 0) :: ys.map fun y => endMet t a x.layer y.1 y.2))).passData j met.2
    (s.freeLists j e.seqIdx x.layer).nextStep j t x (putEnt x.ents { e with rows := rows })

/-- The next step of a job: an entry that has no row in this chunk is passed over. -/
def State.serveStep (s : State) (j : Job) (t : Slot) (x : Place) : State :=
  match x.entry j.opcode with
  | none => s.endChunk j x.ents x.chunk
  | some e =>
    if (e.rowIds j.opcode x.chunk).isEmpty then s.nextStep j t x x.ents
    else if x.step % 2 = 0 then s.beginLayer j t x e
    else s.endLayer j t x e

/-- Go on with a job that has passed its checks; a chunk that has begun is finished under SUSPENDING too (R193). -/
def State.serveOn (s : State) (uid op : Nat) : State :=
  match s.job? uid with
  | none => s
  | some j => match j.ext, s.slot? (dSlot j.words) with
    | .serve ents k n since, some t =>
      if j.opcode == op && (j.state == .running || (j.state == .suspending && n != 0)) && !j.finished && s.cpRunning j.cp &&
          (ents.all fun e => !e.ready) && !s.workOut uid then
        s.serveStep j t { ents := ents, chunk := k, step := n, since := since }
      else s
    | _, _ => s

/-! ## PREFILL and PREFILL_CHUNK (R193), DECODE_STEP and VERIFY_TREE (R192, R204) -/

/-- PREFILL starts, or resumes at its next chunk with fresh lists. -/
def execPrefill (uid : Nat) (s : State) : Res :=
  .next (match s.starting uid 0x03 with
    | none => s.waitStart uid 0x03
    | some (j, t) => match j.ext with
      | .serve _ _ _ _ => t
      | _ => t.startServe j)

def execPrefillChunk (uid : Nat) (s : State) : Res := .next (s.serveOn uid 0x03)

/-- A step starts with its checks; each further command runs its next layer. -/
def State.startStep (s : State) (uid op : Nat) : State :=
  match s.starting uid op with
  | some (j, t) => t.startServe j
  | none => (s.waitStart uid op).serveOn uid op

def execDecodeStep (uid : Nat) (s : State) : Res := .next (s.startStep uid 0x04)

def execVerifyTree (uid : Nat) (s : State) : Res := .next (s.startStep uid 0x05)

/-! ## SAMPLER_DRAW (R191, R204 to R209) -/

/-- The final row of a node: the pending token's or the last prompt position's (none), or a draft's. -/
def finalRow (op : Nat) (e : Ent) : List F32 :=
  match e.node with
  | some d => e.rows.getD (d + 1) []
  | none => if op = 0x03 then e.rows.getLastD [] else e.rows.getD 0 []

/-- Final logits of a node. -/
def logitsOf (t : Slot) (op : Nat) (e : Ent) : List F32 := headLogits t (finalRow op e)

/-- The position of the token that the entry's next draw is for. -/
def Ent.drawPos (op : Nat) (e : Ent) : Nat := e.oldLen + if op = 3 then e.ntok else 1 + e.path.length

def Ent.pathTokens (e : Ent) : List Nat := e.path.map fun d => e.tokens.getD d 0

/-- The draw of an entry at its present node. -/
def State.drawFor (s : State) (e : Ent) (pos : Nat) (x : List F32) : Draw :=
  let q := (s.seq? e.seqIdx).getD
    { idx := 0, gen := 0, part := 0, slot := 0, variant := none, seed := [], prefillPool := false, len := 0, chunks := []
      dir := [] }
  let t := if e.sample then s.settings e.samplerAddr else Settings.greedy
  let allow (i : Nat) : Bool := match t.grammar with
    | some a => bit (i % 8) (s.byte (a + i / 8)).toNat
    | none => true
  drawToken t allow (s.history q ++ e.pathTokens) (drawRandom q.seed e.handle pos) x

/-- Note a draw in the entry, the trace and a replay; a draw without a candidate is a DATA occurrence of the sampler. -/
def State.noteDraw (s : State) (j : Job) (e : Ent) (pos : Nat) (d : Draw) : State × Ent :=
  let e := { e with
    token := d.token.getD 0, tokenValid := d.token.isSome, allMasked := d.token.isNone, nanLogits := e.nanLogits || d.nan }
  let w := [e.handle, pos, e.token, b2n e.tokenValid]
  let s := s.tracePart 0x08 j.part j.qp w
  let s := s.replayCompare j.part [0x08, e.handle, pos] [e.token, b2n e.tokenValid]
  (if e.allMasked then s.raise 0x62 2 0x19 (some j.part) 0 0 else s, e)

/-- The draft that a drawn token continues the walk with: the lowest child of the present node that carries it. -/
def Ent.child (e : Ent) (token : Nat) : Option Nat :=
  let here := match e.node with
    | none => 0xFF
    | some d => d
  (List.range e.parents.length).find? fun d => e.parents.getD d 0 == here && e.tokens.getD d 0 == token

/-- The accepted drafts become ordinary appends and the other speculative entries are freed (R204 step 5); none when no frame
is free for the history. -/
def State.commitPath (s : State) (j : Job) (e : Ent) : Option State :=
  let specs := (s.kv j.part).groups.filter fun g => g.seq == e.seqIdx && g.spec
  let s := s.dropGroups j.part specs
  let put (s : State) (g : Group) (k d : Nat) : State :=
    match (g.toks.find? fun t => t.pos == d) with
    | some { key := some a, val := some b, .. } =>
      match s.appendPair j.part j.uid e.seqIdx g.layer e.oldLen g.dim
        { head := g.head, pos := e.oldLen + 1 + k, spec := false, key := a, val := b } with
      | .ok s staged => if staged then s.jobQuality j.uid qStaging else s
      | _ => s
    | _ => s
  let s := specs.foldl (fun s g => e.path.zipIdx.foldl (fun s x => put s g x.2 x.1) s) s
  (s.putTokens e.seqIdx (e.oldLen + 1) e.pathTokens).map fun s => s.setLength e.seqIdx (e.oldLen + 1 + e.path.length)

/-- One sequence result (R191). -/
def State.resultWords (s : State) (e : Ent) : List Nat :=
  let len := ((s.seq? e.seqIdx).map Seq.len).getD 0
  let path := (e.path.zipIdx.map fun x => x.1 * 2 ^ (6 * x.2)).sum
  [e.handle, e.token + 2 ^ 18 * b2n e.tokenValid + 2 ^ 19 * b2n e.allMasked + 2 ^ 20 * b2n e.nanLogits, len, e.path.length,
    path % 2 ^ 32, path / 2 ^ 32 % 2 ^ 32, path / 2 ^ 64, 0]

/-- The entry's result is written; after the last one the job's result is final (R210). -/
def State.endEnt (s : State) (j : Job) (ents : List Ent) (chunk : Nat) (e : Ent) : State :=
  match if j.opcode == 0x05 then s.commitPath j e else some s with
  | none => s.failJob' j.uid stExhausted
  | some s => match s.blockedOut j (dOut j.words + 32 * e.index) 32 with
    | some s => s
    | none =>
      let s := s.storeWords (dOut j.words + 32 * e.index) (s.resultWords e)
      let ents := putEnt ents { e with done := true }
      let s := s.setServe j.uid ents chunk 0
      if ents.all Ent.done then
        match ents with
        | first :: _ => s.finishUid j.uid (first.token + 2 ^ 18 * b2n first.tokenValid)
        | [] => s
      else s

/-- Write the logits of the present node where the entry asks for them (R192, R205). -/
def State.writeLogits (s : State) (j : Job) (e : Ent) (x : List F32) : State ⊕ State :=
  if e.logits then
    let a := e.logitsAddr + 4 * x.length * e.path.length
    match s.blockedOut j a (4 * x.length) with
    | some s => .inr s
    | none => .inl (s.store a (f32Bytes x))
  else .inl s

/-- The logits are written, and the settings block that the draw takes can be read; the job ends where either cannot be (R192,
R206). -/
def State.readyToDraw (s : State) (j : Job) (t : Slot) (e : Ent) (x : List F32) : State ⊕ State :=
  match s.writeLogits j e x with
  | .inr s => .inr s
  | .inl s =>
    if !e.sample then .inl s else
      match s.samplerBlocked j t.manifest.vocab e.samplerAddr with
      | some s => .inr s
      | none => .inl s

/-- The sampler's turn on one entry: its logits, its draw, and in VERIFY_TREE a step of the walk. -/
def State.drawEnt (s : State) (j : Job) (t : Slot) (ents : List Ent) (chunk : Nat) (e : Ent) : State :=
  let x := logitsOf t j.opcode e
  let s := s.countPass j (Config.netSats t.digest t.manifest.layers [finalRow j.opcode e])
  match s.readyToDraw j t e x with
  | .inr s => s
  | .inl s =>
    if !e.sample && j.opcode != 0x05 then s.endEnt j ents chunk e else
      let pos := Ent.drawPos j.opcode e
      let r := s.noteDraw j e pos (s.drawFor e pos x)
      let e := r.2
      match if j.opcode == 0x05 && e.tokenValid then e.child e.token else none with
      | some d =>
        let e := { e with path := e.path ++ [d], node := some d }
        r.1.setServe j.uid (putEnt ents e) chunk 0
      | none => r.1.endEnt j ents chunk e

def execSamplerDraw (uid : Nat) (s : State) : Res :=
  .next (match s.job? uid with
    | none => s
    | some j => match j.ext, s.slot? (dSlot j.words) with
      | .serve ents chunk _ _, some t =>
        if servingOp j.opcode && j.state == .running && !j.finished && !s.workOut uid then
          match ents.find? fun e => !e.done with
          | some e => if e.ready then s.drawEnt j t ents chunk e else s
          | none => s
        else s
      | _, _ => s)

end Sys2Proof.Machine
end

