-- ==== Sys2Proof/Machine/Prefix.lean ====
section
/-! DEFINITION. The prefix index and the variant table: PREFIX_LOOKUP, PREFIX_INSERT and VARIANT_LOAD (R196 to R201). -/

namespace Sys2Proof.Machine

/-- Entry `i` of an argument block of 16-byte entries. -/
def State.entry16 (s : State) (j : Job) (i : Nat) : List Nat := s.wordsAt (dArg j.words + 16 * i) 4

/-- An earlier index job of the partition is unfinished (R199). -/
def State.indexBusy (s : State) (j : Job) : Bool :=
  s.jobs.list.any fun k => k.part == j.part && (k.opcode == 0x09 || k.opcode == 0x0A) && decide (k.uid < j.uid) && !k.finished

/-- The job of an opcode that applies one entry at this command: as it starts, or as it goes on. -/
def State.itemJob (s : State) (uid op : Nat) : Option (Job × Nat) :=
  match s.job? uid with
  | none => none
  | some j => match j.ext with
    | .items done _ => if j.opcode == op && j.state == .running && !j.finished && s.cpRunning j.cp then some (j, done) else none
    | _ => none

/-- Note an applied entry; after the last one the result is final. -/
def State.itemDone (s : State) (j : Job) (done : Nat) (result : Nat) : State :=
  let s := s.modJob j.uid fun j => { j with ext := .items (done + 1) none }
  if done + 1 = dCount j.words then s.finishUid j.uid result else s

/-! ## Walks (R197, R198) -/

/-- The nodes of the leading blocks that match. -/
def State.matchBlocks (s : State) (p slot : Nat) (variant : Option Nat) : Option Nat → Nat → List (List Nat) → List Nat
  | _, _, [] => []
  | prev, parent, b :: rest =>
    let h := blockHash prev slot variant b
    match s.findNode p h parent slot variant b with
    | none => []
    | some n => n :: State.matchBlocks s p slot variant (some h) n rest

def blocksOf (tokens : List Nat) : List (List Nat) := chunksOf 64 (tokens.length / 64) tokens

def State.touchNode (s : State) (p n : Nat) : State := s.setNode p n { s.node p n with lastUse := (s.kv p).epoch }

/-! ## PREFIX_LOOKUP (R198) -/

def plNtok (w : List Nat) : Nat := bits 20 0 (wordAt w 0)
def plVariant (w : List Nat) : Option Nat := if bit 12 (wordAt w 1) then some (bits 11 0 (wordAt w 1)) else none
def plAttach (w : List Nat) : Bool := bit 13 (wordAt w 1)

def plOk (w : List Nat) : Bool :=
  bits 31 21 (wordAt w 0) == 0 && bits 31 14 (wordAt w 1) == 0 && bits 31 16 (wordAt w 3) == 0 &&
    decide (1 ≤ plNtok w) && decide (plNtok w ≤ 1048576)

/-- A page's summary, in DRAM or in its flash record, as the flush gave it. -/
def State.summaryOf (s : State) (p i : Nat) : PageImg :=
  let e := s.pte p i
  let side := if e.state = 2 ∨ e.state = 3 then let r := s.flashRecord p e; r.drop (r.length - sidecarBytes e.dim)
    else s.bytesAt e.sidecar (sidecarBytes e.dim)
  let u := pageSummary e side
  { payload := [], sidecar := [], nanKeys := e.nanKeys, u := u.1, lo := u.2.1, hi := u.2.2, sat := 0 }

/-- Widen the block of an installed page (R176). -/
def State.sumOf (s : State) (p seq layer head page i : Nat) : Option State :=
  let m := s.summaryOf p i
  s.sumPage p seq layer head page (s.pte p i).dim m.u m.lo m.hi m.nanKeys

/-- A sequence over the pages of matched nodes; none when no handle, or no frame for its history and summaries, is free. -/
def State.attach (s : State) (j : Job) (t : Slot) (variant : Option Nat) (nodes : List Nat) : Option (Nat × State) :=
  let p := j.part
  let rows := nodes.zipIdx.flatMap fun x =>
    (t.heads.zip (s.nodePages (s.node p x.1) t.heads.length)).map fun h => (h.1.1, h.1.2, x.2, h.2)
  let toks := nodes.flatMap fun n => (s.node p n).tokens
  match s.newSeq p t.idx variant (List.replicate 16 0) true toks.length rows with
  | none => none
  | some (q, s) =>
    let add (o : Option State) (x : Nat × Nat × Nat × Nat) : Option State :=
      o.bind fun s => (s.addRef p x.2.2.2).sumOf p q.idx x.1 x.2.1 x.2.2.1 x.2.2.2
    (rows.foldl add (s.putTokens q.idx 0 toks)).map fun s =>
      (q.handle, s.tracePart 0x04 p j.qp [q.handle, 0, 0, 0, 0, 0, 0, 0])

/-- What the matched nodes' use reads of DRAM: the nodes, and for an attach their handles and their pages' entries and sidecars. -/
def State.nodeReads (s : State) (p count : Nat) (attach : Bool) (nodes : List Nat) : List (Nat × Nat) :=
  nodes.flatMap fun n =>
    let x := s.node p n
    (s.nodeAddr p n, 512) :: if !attach then [] else
      (x.handles, 4 * count) :: (s.nodePages x count).flatMap fun i =>
        (s.pteAddr p i, 32) :: if (s.pte p i).state = 1 then [((s.pte p i).sidecar, sidecarBytes (s.pte p i).dim)] else []

def State.lookupEntry (s : State) (j : Job) (t : Slot) (done : Nat) : State :=
  let w := s.entry16 j done
  let out := dOut j.words + 8 * done
  match (s.blocked j (addr48 w 2) (4 * plNtok w)).or (s.blockedOut j out 8) with
  | some s => s
  | none =>
    let nodes := s.matchBlocks j.part t.idx (plVariant w) none noNode (blocksOf (s.wordsAt (addr48 w 2) (plNtok w)))
    match s.anyBlocked j (s.nodeReads j.part t.heads.length (plAttach w) nodes) with
    | some s => s
    | none =>
    let s := nodes.foldl (fun s n => s.touchNode j.part n) s
    if plAttach w then
      match s.attach j t (plVariant w) nodes with
      | none => s.failJob j.uid stExhausted noResult
      | some (h, s) => (s.storeWords out [nodes.length, h]).itemDone j done noResult
    else (s.storeWords out [nodes.length, 0]).itemDone j done noResult

/-! ## PREFIX_INSERT (R198, R199) -/

/-- An entry of a PREFIX_INSERT is valid. A sequence of another SLOT than the descriptor's makes it invalid: R198 does not name
the case (DESIGN CHOICE, log entry 119). -/
def piOk (s : State) (p slot : Nat) (w : List Nat) : Bool :=
  bits 31 15 (wordAt w 1) == 0 && wordAt w 2 == 0 && wordAt w 3 == 0 &&
    (match s.resident p (wordAt w 0) with
      | some q => q.slot == slot && !s.variantLost q
      | none => false)

/-- The pages of block `b` of a sequence, layer-major; none where one is missing (a TAIL entry) or holds NAN_KEYS. -/
def State.blockPages (s : State) (q : Seq) (t : Slot) (b : Nat) : Option (List Nat) :=
  t.heads.mapM fun h => match q.dir.find? fun x => x.1 == h.1 && x.2.1 == h.2 && x.2.2.1 == b with
    | some x => if (s.pte q.part x.2.2.2).nanKeys then none else some x.2.2.2
    | none => none

/-- The leaf that an insert evicts: one of its own slot and variant first, then any; the least LAST_USE, the lower index. -/
def State.victim (s : State) (p slot : Nat) (variant : Option Nat) (path : List Nat) : Option Nat :=
  let leaves := (s.validNodes p).filter fun n => (s.node p n).children == 0 && !path.contains n
  let own := leaves.filter fun n => (s.node p n).slot == slot && (s.node p n).variant == variant
  minBy (fun n => (s.node p n).lastUse) (if own.isEmpty then leaves else own)

/-- A node to use: the lowest that is free, else one that an eviction frees. -/
def State.takeNode (s : State) (p slot : Nat) (variant : Option Nat) (path : List Nat) : Option (Nat × State) :=
  match (List.range 65536).find? fun n => !(s.node p n).valid with
  | some n => some (n, s)
  | none => match s.victim p slot variant path with
    | some n => some (n, s.dropNode p n)
    | none => none

/-- Make a node for a block; none when no node or no frame for its handles can be had. -/
def State.makeNode (s : State) (q : Seq) (hash parent : Nat) (path tokens pages : List Nat) : Option (Nat × State) :=
  let p := q.part
  match s.takeNode p q.slot q.variant path with
  | none => none
  | some (n, s) => match s.allocFrame p (4 * pages.length) with
    | none => none
    | some (a, s) =>
      let s := s.storeWords a pages
      let s := pages.foldl (fun s i => s.addRef p i) s
      let s := s.setNode p n
        { hash := hash, parent := parent, slot := q.slot, variant := q.variant, valid := true, children := 0
          lastUse := (s.kv p).epoch, handles := a, tokens := tokens }
      let s := if parent = noNode then s else
          let x := s.node p parent
          s.setNode p parent { x with children := x.children + 1 }
      some (n, s.addBucket p hash n)

/-- How far an insertion has come: the leading blocks present, the last one's hash and node, the path of nodes, and whether
the walk goes on. -/
structure InsertAt where
  count : Nat
  prev : Option Nat
  parent : Nat
  path : List Nat
  live : Bool
  deriving DecidableEq, Repr

def InsertAt.onto (a : InsertAt) (hash n : Nat) : InsertAt :=
  { count := a.count + 1, prev := some hash, parent := n, path := n :: a.path, live := true }

/-- Insert the next block: a node that stands already is used, else one is made; with no page or no node the walk ends. -/
def State.insertBlock (q : Seq) (t : Slot) (r : State × InsertAt) (toks : List Nat) : State × InsertAt :=
  if !r.2.live then r else
    match r.1.blockPages q t r.2.count with
    | none => (r.1, { r.2 with live := false })
    | some pages =>
      let h := blockHash r.2.prev q.slot q.variant toks
      match r.1.findNode q.part h r.2.parent q.slot q.variant toks with
      | some n => (r.1.touchNode q.part n, r.2.onto h n)
      | none => match r.1.makeNode q h r.2.parent r.2.path toks pages with
        | none => (r.1, { r.2 with live := false })
        | some (n, s) => (s, r.2.onto h n)

/-- Insert blocks; the second answer counts the leading blocks present. -/
def State.insertBlocks (s : State) (q : Seq) (t : Slot) (blocks : List (List Nat)) : State × Nat :=
  let r := blocks.foldl (State.insertBlock q t) (s, { count := 0, prev := none, parent := noNode, path := [], live := true })
  (r.1, r.2.count)

/-- What an insertion reads of DRAM beside the history: the nodes that stand already, and the entries of its pages. -/
def State.insertReads (s : State) (q : Seq) (t : Slot) : List (Nat × Nat) :=
  let nodes := s.matchBlocks q.part q.slot q.variant none noNode (blocksOf (s.history q))
  s.nodeReads q.part t.heads.length false nodes ++ q.dir.map fun x => (s.pteAddr q.part x.2.2.2, 32)

def State.insertEntry (s : State) (j : Job) (t : Slot) (done : Nat) : State :=
  let w := s.entry16 j done
  let out := dOut j.words + 8 * done
  match s.resident j.part (wordAt w 0) with
  | none => s.failJob j.uid stInvalid noResult
  | some q => match (s.blockedOut j out 8).or (s.anyBlocked j (q.historyReads ++ s.insertReads q t)) with
  | some s => s
  | none =>
    let r := s.insertBlocks q t ((blocksOf (s.history q)).take (bits 14 0 (wordAt w 1)))
    (r.1.storeWords out [r.2, wordAt w 0]).itemDone j done noResult

/-! ## The two index jobs -/

/-- Validate every entry, then count from 0. -/
def State.startIndex (s : State) (j : Job) (size : Nat) (ok : State → Slot → List Nat → Bool) : State :=
  let n := dCount j.words
  match (s.blocked j (dArg j.words) (16 * n)).or (s.blockedOut j (dOut j.words) (size * n)) with
  | some s => s
  | none => match s.namedSlot j.part (dSlot j.words) with
    | .inr st => s.failJob j.uid st noResult
    | .inl t =>
      if (List.range n).all fun i => ok s t (s.entry16 j i) then s.modJob j.uid fun j => { j with ext := .items 0 none }
      else s.failJob j.uid stInvalid noResult

/-- Apply the next entry when no earlier index job is unfinished. -/
def State.indexStep (s : State) (uid op : Nat) (apply : State → Job → Slot → Nat → State) : State :=
  match s.itemJob uid op with
  | none => s
  | some (j, done) =>
    if s.indexBusy j then s else
      match s.slot? (dSlot j.words) with
      | some t => apply s j t done
      | none => s.failJob j.uid stInvalid noResult

def execPrefixLookup (uid : Nat) (s : State) : Res :=
  .next ((match s.starting uid 0x09 with
    | some (j, t) => t.startIndex j 8 fun _ _ w => plOk w
    | none => s).indexStep uid 0x09 State.lookupEntry)

def execPrefixInsert (uid : Nat) (s : State) : Res :=
  .next ((match s.starting uid 0x0A with
    | some (j, t) => t.startIndex j 8 fun s t w => piOk s j.part t.idx w
    | none => s.waitStart uid 0x0A).indexStep uid 0x0A State.insertEntry)

/-! ## VARIANT_LOAD (R200, R201) -/

def vlVariant (w : List Nat) : Nat := bits 11 0 (wordAt w 0)
def vlAction (w : List Nat) : Nat := bits 13 12 (wordAt w 0)
def vlScales (w : List Nat) : Bool := bit 14 (wordAt w 0)

def vlOk (w : List Nat) : Bool :=
  bits 31 15 (wordAt w 0) == 0 && wordAt w 1 == 0 && bits 31 16 (wordAt w 3) == 0 && decide (vlAction w ≤ 1)

/-- An unfinished job taken earlier names a sequence that uses the variant. -/
def State.variantBusy (s : State) (j : Job) (v : Nat) : Bool :=
  s.jobs.list.any fun k =>
    k.part == j.part && decide (k.uid < j.uid) && !k.finished && (s.usedVariants k).contains v

def State.totalVariants (s : State) : Nat := ((List.range 8).map s.loadedVariants).sum

def State.loadVariant (s : State) (j : Job) (t : Slot) (done : Nat) : State :=
  let p := j.part
  let w := s.entry16 j done
  let v := vlVariant w
  let n := t.layerRecs.length * t.manifest.width * 2 * (if vlScales w then 2 else 1)
  match s.blocked j (addr48 w 2) n with
  | some s => s
  | none =>
    let data := s.bytesAt (addr48 w 2) n
    let cleared := s.dropVariant p v
    if 4096 ≤ cleared.totalVariants then s.failJob j.uid stExhausted noResult else
      match cleared.allocFrame p n with
      | none => s.failJob j.uid stExhausted noResult
      | some (a, s) =>
        ((s.store a data).setVariant p v { valid := true, scales := vlScales w, slot := t.idx, data := a }).itemDone j done
          noResult

def State.variantStep (s : State) (uid : Nat) : State :=
  match s.itemJob uid 0x0B with
  | none => s
  | some (j, done) =>
    let w := s.entry16 j done
    if s.variantBusy j (vlVariant w) then s
    else if vlAction w = 1 then (s.dropVariant j.part (vlVariant w)).itemDone j done noResult
    else match s.namedSlot j.part (dSlot j.words) with
      | .inr st => s.failJob j.uid st noResult
      | .inl t => s.loadVariant j t done

/-- The job starts once its block is read and every entry's fields are in range. -/
def State.startVariant (s : State) (j : Job) : State :=
  let n := dCount j.words
  match s.blocked j (dArg j.words) (16 * n) with
  | some s => s
  | none =>
    if (List.range n).all fun i => vlOk (s.entry16 j i) then s.modJob j.uid fun j => { j with ext := .items 0 none }
    else s.failJob j.uid stInvalid noResult

def execVariantLoad (uid : Nat) (s : State) : Res :=
  .next ((match s.starting uid 0x0B with
    | some (j, t) => t.startVariant j
    | none => s).variantStep uid)

end Sys2Proof.Machine
end

