-- ==== Sys2Proof/Machine/Training.lean ====
section
/-! DEFINITION. On-device adaptation: TRAIN_STEP and TRAIN_BATCH (R213 to R230). A batch goes through the model's layers as
serving does (Forward.lean, log entry 12), with the adapters of the committed masters; the loss and the logits' gradients follow
R223, and the gradients go down the layers as functions of what they come from, held in F4 as R88 says. -/

namespace Sys2Proof.Machine

/-! ## Validation (R213, R214, R218, R219) -/

/-- A finite FP32 field above zero, or not below it. -/
def f32Pos (x : F32) : Bool := fIsFin x && flt 0 x
def f32NonNeg (x : F32) : Bool := fIsFin x && !flt x 0

def trainRates (b : List Nat) : Bool :=
  f32Pos (tbF32 b 14) && f32Pos (tbF32 b 15) && flt (tbF32 b 15) f32One && f32Pos (tbF32 b 16) && flt (tbF32 b 16) f32One &&
    f32Pos (tbF32 b 17) && f32NonNeg (tbF32 b 18) && (!tbLora b || fIsFin (tbF32 b 19))

/-- Batches of an epoch (R222). -/
def epochBatches (b : List Nat) : Nat := ceilDiv (tbSamples b) (tbBatch b)

/-- Fields in range, reserved bits clear, targets that every layer in range has (R214). -/
def trainFields (t : Slot) (b : List Nat) : Bool :=
  bits 15 9 (wordAt b 0) == 0 && bits 31 23 (wordAt b 0) == 0 && bits 31 29 (wordAt b 1) == 0 &&
    ([3, 5, 7, 13].all fun i => bits 31 16 (wordAt b i) == 0) && bits 31 25 (wordAt b 8) == 0 &&
    ((List.range' 24 8).all fun i => wordAt b i == 0) && tbTrain b != 0 &&
    (if tbLora b then decide (1 ≤ tbRank b) && decide (tbRank b ≤ 16) else tbRank b == 0 && tbTargets b == 0) &&
    decide (tbFirst b ≤ tbLast b) && decide (tbLast b < t.layerRecs.length) && decide (6 ≤ tbBucket b) &&
    decide (tbBucket b ≤ 13) && decide (1 ≤ tbBatch b) && decide (tbBatch b ≤ 256) && tbState b % 4096 == 0 &&
    tbWorkAddr b % 4096 == 0 && decide (1 ≤ tbSamples b) && decide (tbSamples b ≤ 16777216) &&
    (!tbInit b || decide (tbStartBatch b < epochBatches b)) && trainRates b &&
    ((List.range' (tbFirst b) (tbLast b + 1 - tbFirst b)).all fun l =>
      (List.range 7).all fun r => !bit r (tbTargets b) || (t.shape l r).isSome)

def workNeed (t : Slot) (b : List Nat) : Nat :=
  Config.workMib t.digest (putBits 3 3 0 (wordAt b 0)) (wordAt b 1)

/-- Bytes of the two master regions, as INIT_ADDR and a copy hold them. -/
def masterBytes (t : Slot) (b : List Nat) : Nat := (copyOffsets t b).getD 1 0

/-- The regions that must lie in the partition's DRAM, clear of model images. -/
def trainRegions (t : Slot) (b : List Nat) : List (Nat × Nat) :=
  [(tbState b, 256 + 2 * copyBytesOf t b), (tbWorkAddr b, tbWorkMib b * 2 ^ 20), (tbSampleAddr b, 16 * tbSamples b),
    (tbInitAddr b, if tbInit b then masterBytes t b else 0)]

def State.onImage (s : State) (a n : Nat) : Bool :=
  n != 0 && s.slots.any fun t => t.granules.any fun g => decide (a < (g + 1) * granuleBytes) && decide (g * granuleBytes < a + n)

/-- A state's header words. -/
def State.trainHeader (s : State) (b : List Nat) : List Nat := s.wordsAt (tbState b) 16

def layerWord (b : List Nat) : Nat := tbFirst b + 2 ^ 8 * tbLast b + 2 ^ 16 * tbTargets b

def imageTag (t : Slot) : List Nat := bytesWords 2 (t.digest.take 8)

def State.headerFits (s : State) (t : Slot) (b : List Nat) : Bool :=
  let h := s.trainHeader b
  h.take 2 == imageTag t && bits 3 1 (wordAt h 8) == tbTrain b && bits 8 4 (wordAt h 8) == tbRank b &&
    bits 22 0 (wordAt h 9) == layerWord b

/-- The status and RESULT that refuse a job, if any. -/
def State.trainRefused (s : State) (p : Nat) (t : Slot) (b : List Nat) : Option (Nat × Nat) :=
  let rs := trainRegions t b
  let need := workNeed t b
  if !trainFields t b then some (stInvalid, 0)
  else if !rs.all fun r => r.2 = 0 || s.inDram p r.1 r.2 then some (stDenied, 0)
  else if rs.any fun r => s.onImage r.1 r.2 then some (stInvalid, 0)
  else if !apart (tbState b, 256 + 2 * copyBytesOf t b) (tbWorkAddr b, tbWorkMib b * 2 ^ 20) then some (stInvalid, 0)
  else if !tbInit b && !s.headerFits t b then some (stInvalid, 0)
  else if tbWorkMib b < need then some (stExhausted, need % 2 ^ 31)
  else none

/-! ## The header (R216, R217) -/

structure TrainHead where
  step : Nat
  epoch : Nat
  next : Nat
  pow1 : F32
  pow2 : F32
  active : Nat
  deriving DecidableEq, Repr

def State.trainHead (s : State) (b : List Nat) : TrainHead :=
  let h := s.trainHeader b
  { step := wordAt h 2 + 2 ^ 32 * wordAt h 3, epoch := wordAt h 4, next := wordAt h 5
    pow1 := BitVec.ofNat 32 (wordAt h 6), pow2 := BitVec.ofNat 32 (wordAt h 7), active := bits 0 0 (wordAt h 8) }

/-- The one 64-byte write. -/
def State.putTrainHead (s : State) (t : Slot) (b : List Nat) (h : TrainHead) : State :=
  let n := copyBytesOf t b
  s.storeWords (tbState b)
    (imageTag t ++ [h.step % 2 ^ 32, h.step / 2 ^ 32 % 2 ^ 32, h.epoch, h.next, h.pow1.toNat, h.pow2.toNat,
      h.active + 2 * tbTrain b + 16 * tbRank b, layerWord b, n % 2 ^ 32, n / 2 ^ 32, 0, 0, 0, 0])

def copyAddr (t : Slot) (b : List Nat) (c : Nat) : Nat := tbState b + 256 + c * copyBytesOf t b

/-- The masters in two regions at `a`: the steering ones, and the LoRA ones. -/
def State.steerBytes (s : State) (t : Slot) (b : List Nat) (a : Nat) : List Byte := s.bytesAt a (2 * steerElems t b)
def State.loraBytes (s : State) (t : Slot) (b : List Nat) (a : Nat) : List Byte :=
  s.bytesAt (a + (copyOffsets t b).getD 0 0) (2 * loraElems t b)

/-- INIT = 1: header, masters of copy 0, and everything else in the copy zero (R215, R219). -/
def State.initTrain (s : State) (t : Slot) (b : List Nat) : State :=
  let a := copyAddr t b 0
  let steer := s.steerBytes t b (tbInitAddr b)
  let lora := s.loraBytes t b (tbInitAddr b)
  let s := s.store (tbState b + 64) (List.replicate 192 0)
  let s := s.store a (List.replicate (copyBytesOf t b) 0)
  ((s.store a steer).store (a + (copyOffsets t b).getD 0 0) lora).putTrainHead t b
    { step := 0, epoch := tbStartEpoch b, next := tbStartBatch b, pow1 := f32One, pow2 := f32One, active := 0 }

/-! ## The order of samples (R221) -/

def halfWidth (n : Nat) : Nat :=
  let l := Nat.log2 n + if 2 ^ Nat.log2 n = n then 0 else 1
  max 1 (ceilDiv l 2)

def feistel (seed : List Byte) (epoch h x : Nat) : Nat :=
  let round (s : Nat × Nat) (i : Nat) : Nat × Nat :=
    let o := aes128 seed (leBytes 4 epoch ++ leBytes 4 i ++ leBytes 4 s.2 ++ leBytes 4 0)
    let f := ((o.getD 0 0).toNat + 256 * (o.getD 1 0).toNat) % 2 ^ h
    (s.2, s.1 ^^^ f)
  let r := (List.range 4).foldl round (x / 2 ^ h, x % 2 ^ h)
  r.1 * 2 ^ h + r.2

/-- Walk until the value is below `n`: within 2^(2h) steps. -/
def cycleWalk (f : Nat → Nat) (n : Nat) : Nat → Nat → Nat
  | 0, x => x
  | fuel + 1, x => let y := f x; if y < n then y else cycleWalk f n fuel y

def perm (seed : List Byte) (epoch n j : Nat) : Nat :=
  let h := halfWidth n
  cycleWalk (feistel seed epoch h) n (2 ^ (2 * h)) j

/-! ## Rows (R220, R222) -/

/-- A row: its tokens, cut to the bucket, the first position whose next token is a target, whether its sample was cut, and whether
its entry is bad; the row of a bad entry is empty. -/
structure Row where
  tokens : List Nat
  start : Nat
  cut : Bool
  bad : Bool
  deriving DecidableEq, Repr

/-- Positions whose next token is a target. -/
def Row.targets (r : Row) : List Nat := List.range' r.start (r.tokens.length - 1 - r.start)

def State.sampleWords (s : State) (b : List Nat) (i : Nat) : List Nat := s.wordsAt (tbSampleAddr b + 16 * i) 4

def sampleLen (w : List Nat) : Nat := bits 20 0 (wordAt w 2)
def sampleFrom (w : List Nat) : Nat := bits 20 0 (wordAt w 3)

/-- The entry's own fields are good. -/
def sampleFields (w : List Nat) : Bool :=
  bits 31 16 (wordAt w 1) == 0 && bits 31 21 (wordAt w 2) == 0 && bits 31 21 (wordAt w 3) == 0 &&
    decide (2 ≤ sampleLen w) && decide (sampleFrom w ≤ sampleLen w - 2)

/-- A row's sample entry, token block checked by the caller. -/
def State.row (s : State) (t : Slot) (b w : List Nat) : Row :=
  let n := sampleLen w
  if !sampleFields w || !(s.wordsAt (addr48 w 0) n).all fun k => decide (k < t.manifest.vocab) then
    { tokens := [], start := 0, cut := false, bad := true }
  else
    { tokens := s.wordsAt (addr48 w 0) (min n (2 ^ tbBucket b)), start := sampleFrom w, cut := decide (2 ^ tbBucket b < n)
      bad := false }

/-- The sample of row `k` of the next batch, where its index is below N. -/
def sampleOf (b : List Nat) (h : TrainHead) (k : Nat) : Option Nat :=
  let i := h.next * tbBatch b + k
  if i < tbSamples b then some (perm (wordsBytes ((b.drop 20).take 4)) h.epoch (tbSamples b) i) else none

/-- Sample entries of a batch's rows, none for an empty row. -/
def State.batchSamples (s : State) (b : List Nat) (h : TrainHead) : List (Option (List Nat)) :=
  ((List.range (tbBatch b)).map (sampleOf b h)).map fun i => i.map (s.sampleWords b)

def Row.empty : Row := { tokens := [], start := 0, cut := false, bad := false }

/-- The positions that a row runs: its tokens, padded to the bucket with token 0. -/
def Row.padded (b : List Nat) (r : Row) : List Nat := r.tokens ++ List.replicate (2 ^ tbBucket b - r.tokens.length) 0

/-! ## The forward pass (R213, R214, R222, R223) -/

/-- A row as an adapter's ARRAY task takes it: converted under R63 in groups of 32 (log entry 96). -/
def adaptGroups (x : List F32) : List (Nat × List Nat × Nat) :=
  (chunksOf 32 (ceilDiv x.length 32) x).map fun c => decodeGroup (c.map f32Val)

def groupSats (gs : List (Nat × List Nat × Nat)) : Nat := (gs.map fun g => g.2.2).sum

/-- One output of an adapter's ARRAY task, from the groups of the BF16 master and of the row. -/
def adaptDot (w x : List (Nat × List Nat × Nat)) : F32 :=
  let image (g : Nat × List Nat × Nat) : List Int := g.2.1.map (sext 8)
  (List.zip w x).foldl (fun acc g => accGroup acc (dot (image g.2) (image g.1)) 0 (ue5m3F32 g.1.1) (some (ue5m3F32 g.2.1))) 0

/-- An adapter's ARRAY task for one row, rounded to BF16: its outputs, and the saturations that DECODE counts (R60, R63; log entry
96). -/
def adaptTask (ws : List (List F32)) (x : List F32) : List F32 × Nat :=
  let xs := adaptGroups (x.map fun v => bf16F32 (toBf16 (f32Val v)))
  let gs := ws.map adaptGroups
  (gs.map fun w => adaptDot w xs, (gs.map groupSats).sum + groupSats xs)

/-- Masters before those of a target tensor. -/
def loraBefore (t : Slot) (b : List Nat) (l r : Nat) : Nat :=
  (((loraTargets t b).takeWhile fun x => !(x.1 == l && x.2.1 == r)).map (loraSize b)).sum

/-- The rows of A and of B of a target tensor of a layer in range. -/
def State.loraMasters (s : State) (t : Slot) (b : List Nat) (a l r : Nat) : Option (List (List F32) × List (List F32)) :=
  ((loraTargets t b).find? fun z => z.1 == l && z.2.1 == r).map fun z =>
    let at_ := a + (copyOffsets t b).getD 0 0 + 2 * loraBefore t b l r
    let n := z.2.2.1
    let k := tbRank b
    ((List.range k).map fun i => s.bf16Row (at_ + 2 * n * i) n,
      (List.range z.2.2.2).map fun i => s.bf16Row (at_ + 2 * n * k + 2 * k * i) k)

/-- An adapter's output c * B * A * x, and the saturations of its two tasks (R214). -/
def loraRun (b : List Nat) (m : List (List F32) × List (List F32)) (x : List F32) : List F32 × Nat :=
  let h := adaptTask m.1 x
  let u := adaptTask m.2 h.1
  (u.1.map (fmul (fdiv (tbF32 b 19) (f32Int (tbRank b)))), h.2 + u.2)

/-- The steering step of a layer under training: outside the range, and for a kind not selected, v = +0.0 and g = 1.0 (R213). -/
def State.trainFinal (s : State) (t : Slot) (b : List Nat) (a l : Nat) (x : List F32) : List F32 :=
  let w := t.manifest.width
  let at_ := a + l * layerStride t (tbScale b)
  let inside := decide (tbFirst b ≤ l) && decide (l ≤ tbLast b)
  steerRow (if tbScale b && inside then some (s.bf16Row (at_ + 2 * w) w) else none)
    (if tbSteer b && inside then s.bf16Row at_ w else List.replicate w 0) x

/-- What is applied under training: the masters of the copy at `a`. -/
def State.trainAdapt (s : State) (t : Slot) (b : List Nat) (a : Nat) : Adapt :=
  { delta := fun l r x => (s.loraMasters t b a l r).map fun m => (loraRun b m x).1
    sats := fun l r x => ((s.loraMasters t b a l r).map fun m => (loraRun b m x).2).getD 0
    final := s.trainFinal t b a }

/-- The keys and values of a row's page in the work area, in the sump's encoding (R223). -/
def trainGroup (t : Slot) (a : Adapt) (l h : Nat) (xs : List (List F32)) (n now : Nat) : Group :=
  { Group.empty 0 l h n false t.dim now with
    toks := (((xs.zipIdx).drop (64 * n)).take 64).map fun x =>
      { pos := x.2 % 64, key := some (keyRow t a l h x.2 x.1), val := some (valueRow t a l h x.1) } }

/-- What each KV head's attention reads in a training row: its pages in the work area. -/
def trainLists (t : Slot) (a : Adapt) (l : Nat) (xs : List (List F32)) : List (List (Option Nat × Block)) :=
  (List.range (t.layer l).kvHeads).map fun h =>
    (List.range (ceilDiv xs.length 64)).map fun g => (some g, (trainGroup t a l h xs g 0).block t.dim)

/-- The attention outputs of a training row's layer: causal, in one part. R170's table names no S for TRAIN_STEP (DESIGN CHOICE,
log entry 120). -/
def trainAttn (t : Slot) (a : Adapt) (l : Nat) (xs : List (List F32)) : List (List F32) :=
  let n := (t.layer l).hpk
  let lists := trainLists t a l xs
  let seen (pos : Nat) (g : Option Nat) (j : Nat) : Bool := g.all fun g => decide (64 * g + j ≤ pos)
  xs.zipIdx.map fun x => (lists.zipIdx).flatMap fun e => (List.range n).flatMap fun i =>
    attend t l 1 (seen x.2) e.1 [] (queryRow t a l (e.2 * n + i) x.2 x.1)

def trainLayer (t : Slot) (a : Adapt) (l : Nat) (xs : List (List F32)) : List (List F32) :=
  List.zipWith (layerEnd t a l []) xs (trainAttn t a l xs)

/-- The residual rows that enter each layer, and those that leave the last, for a training row and its padding, which stands
behind the real positions, where a causal row does not see it. -/
def trainRows (t : Slot) (a : Adapt) (tokens : List Nat) : List (List (List F32)) :=
  (List.range t.manifest.layers).foldl (fun all l => all ++ [trainLayer t a l (all.getLastD [])]) [tokens.map (embedRow t)]

/-- Saturations of a layer of a training row, under DECODE and under PACK. Its attention tasks take as many query tokens as a
PREFILL's (DESIGN CHOICE, log entry 120: R174 does not say how many). -/
def layerMet (t : Slot) (a : Adapt) (l : Nat) (xs : List (List F32)) : Nat × Nat :=
  let n := max 1 (64 / (t.layer l).hpk)
  let reads := (trainLists t a l xs).flatMap fun list => (List.range (ceilDiv xs.length n)).flatMap fun k =>
    (list.filter fun x => x.1.all fun g => decide (64 * g < n * (k + 1))).map fun x => x.2.sats t l
  sumMet ((reads.sum, 0) :: (xs.zipIdx.map fun x => beginMet t a l x.2 x.1) ++
    (List.zip xs (trainAttn t a l xs)).map fun x => endMet t a l x.1 x.2)

/-- Saturations of a training row's pass. -/
def passMet (t : Slot) (a : Adapt) (all : List (List (List F32))) : Nat × Nat :=
  sumMet (((all.take t.manifest.layers).zipIdx).map fun x => layerMet t a x.2 x.1)

/-- Keys and values of a training row's pass, in the sump's encoding: scale, then codes (R76). -/
def passKv (t : Slot) (a : Adapt) (all : List (List (List F32))) : List Byte :=
  let row (x : Nat × List Byte) : List Byte := leBytes 2 x.1 ++ x.2
  ((all.take t.manifest.layers).zipIdx).flatMap fun x => (List.range (t.layer x.2).kvHeads).flatMap fun h =>
    x.1.zipIdx.flatMap fun r => row (keyRow t a x.2 h r.2 r.1) ++ row (valueRow t a x.2 h r.1)

/-- Maximum, exponentials and their sum of a row of logits (R66, R223). -/
def softParts (x : List F32) : F32 × List F32 × F32 :=
  let m := x.foldl fmax (x.headD 0)
  let e := x.map fun v => fexp (fsub v m)
  (m, e, chunkSum e)

/-- The loss of one target. -/
def tokenLoss (x : List F32) (target : Nat) : F32 :=
  let p := softParts x
  fadd (flog p.2.2) (fsub p.1 (x.getD target 0))

/-- The gradient of the logits: (softmax - one-hot) / fp32(T). -/
def logitGrad (x : List F32) (target n : Nat) : List F32 :=
  let p := softParts x
  (p.2.1.zipIdx).map fun e => fdiv (fsub (fdiv e.1 p.2.2) (if e.2 = target then f32One else 0)) (f32Int (n : Int))

/-- The logits and target of every target position of a row. -/
def rowTargets (t : Slot) (r : Row) (rows : List (List F32)) : List (List F32 × Nat) :=
  r.targets.map fun p => (headLogits t (rows.getD p []), r.tokens.getD (p + 1) 0)

/-- LOSS: the sum over the targets in order, divided by T. -/
def batchLoss (xs : List (List F32 × Nat)) : F32 :=
  match xs.map fun x => tokenLoss x.1 x.2 with
  | [] => 0
  | l :: rest => fdiv (rest.foldl fadd l) (f32Int (xs.length : Int))

/-! ## Gradients (R88) -/

/-- A row of a trained parameter tensor: its layer, its kind (0 v, 1 g, 2 + 2r and 3 + 2r A and B of role r), its index, its length,
the Hadamard block of its layer, and whether it is trained. -/
structure ParamRow where
  layer : Nat
  kind : Nat
  index : Nat
  len : Nat
  had : Nat
  trained : Bool
  deriving DecidableEq, Repr

/-- The Hadamard block of a layer's tensor, 0 for none (R96's coding). The block of v and g is that of the query tensor
(log entry 97). -/
def Slot.hadBlock (t : Slot) (l r : Nat) : Nat :=
  match t.ents.find? fun e => eKind e == 0 && eLayer e == l && eRole e == r with
  | some e => if eInput e % 4 = 0 then 0 else 32 * 2 ^ (eInput e % 4)
  | none => 0

/-- Every row of masters, in master order. -/
def paramRows (t : Slot) (b : List Nat) : List ParamRow :=
  let w := t.manifest.width
  let per := 1 + b2n (tbScale b)
  ((steerRows t b).zipIdx.map fun x =>
      { layer := x.2 / per, kind := x.2 % per, index := 0, len := w, had := t.hadBlock (x.2 / per) 0, trained := x.1 }) ++
    (loraTargets t b).flatMap fun x =>
      ((List.range (tbRank b)).map fun i =>
          { layer := x.1, kind := 2 + 2 * x.2.1, index := i, len := x.2.2.1, had := t.hadBlock x.1 x.2.1, trained := true }) ++
        (List.range x.2.2.2).map fun i =>
          { layer := x.1, kind := 3 + 2 * x.2.1, index := i, len := tbRank b, had := t.hadBlock x.1 x.2.1, trained := true }

/-- A gradient row in blocks of B; a row that B does not divide stays as it is. -/
def turnRow (had : Nat) (x : List F32) : List F32 := if had = 0 || x.length % had != 0 then x else rotateRow none had x

/-- A gradient as it is held: F4 codes in groups of 32 of the rotated row, each group with its UE5M3 scale. -/
def holdGrad (had : Nat) (x : List F32) : List (Nat × List Nat × Nat) :=
  (chunksOf 32 (ceilDiv x.length 32) (turnRow had x)).map fun g => groupQuant .f4 false (g.map f32Val)

/-- The gradient that a consumer reads: the values of the codes, transformed back. -/
def readGrad (had : Nat) (gs : List (Nat × List Nat × Nat)) : List F32 :=
  turnRow had (gs.flatMap fun g => g.2.1.map fun c => toF32 ((Fmt.f4.val c).mul (ue5m3Val g.1)))

/-! ## The update (R224, R89 to R91) -/

/-- One element: the new master, first moment and second moment, in FP32. -/
def updateElem (b : List Nat) (p1 p2 th m v g : F32) : F32 × F32 × F32 :=
  let b1 := tbF32 b 15
  let b2 := tbF32 b 16
  let m := fadd (fmul b1 m) (fmul (fsub f32One b1) g)
  let v := fadd (fmul b2 v) (fmul (fsub f32One b2) (fmul g g))
  let mh := fdiv m (fsub f32One p1)
  let vh := fdiv v (fsub f32One p2)
  let step := fadd (fdiv mh (fadd (fsqrt vh) (tbF32 b 17))) (fmul (tbF32 b 18) th)
  (fsub th (fmul (tbF32 b 14) step), m, v)

/-- First moment of element `i`: S8 code and block scale. -/
def moment1 (codes scales : List Byte) (i : Nat) : F32 :=
  toF32 ((FV.ofInt (sext 8 (codes.getD i 0).toNat)).mul (ue5m3Val (scales.getD (i / 128) 0).toNat))

/-- Second moment: the square of the stored root (R90). -/
def moment2 (codes scales : List Byte) (i : Nat) : F32 :=
  let r := fmul (f32Int ((codes.getD i 0).toNat : Int)) (ue5m3F32 (scales.getD (i / 128) 0).toNat)
  fmul r r

/-- A region of a copy, filled with zeros to a multiple of 64 bytes. -/
def fillRegion (l : List Byte) : List Byte := l ++ List.replicate (pad 64 l.length - l.length) 0

/-- A copy's bytes from its elements, whether a block met a NaN or an infinity, and the saturations counted. -/
def copyOf (t : Slot) (b : List Nat) (elems : List (F32 × F32 × F32)) : List Byte × Bool × Nat :=
  let n := trainElems t b
  let ms := elems.map fun x => toBf16 (f32Val x.1)
  let q1 := (chunksOf 128 (n / 128) elems).map fun g => groupQuant .s8 true (g.map fun x => f32Val x.2.1)
  let q2 := (chunksOf 128 (n / 128) elems).map fun g => secondMoment (g.map fun x => f32Val (fsqrt x.2.2))
  let byte (x : Nat) : Byte := BitVec.ofNat 8 x
  (fillRegion ((ms.take (steerStored t b)).flatMap (leBytes 2)) ++ fillRegion ((ms.drop (steerStored t b)).flatMap (leBytes 2)) ++
      fillRegion ((q1.flatMap fun q => q.2.1).map byte) ++ fillRegion (q1.map fun q => byte q.1) ++
      fillRegion ((q2.flatMap fun q => q.2.1).map byte) ++ fillRegion (q2.map fun q => byte q.1),
    (q1.any fun q => q.1 == 0xFF) || q2.any fun q => q.1 == 0xFF,
    (q1.map fun q => q.2.2).sum + (q2.map fun q => q.2.2).sum)

/-- The elements of the copy at `a`: master, first and second moment, in master order with the padding. -/
def State.copyElems (s : State) (t : Slot) (b : List Nat) (a : Nat) : List (F32 × F32 × F32) :=
  let o := copyOffsets t b
  let n := trainElems t b
  let ms := s.bf16Row a (steerStored t b) ++ s.bf16Row (a + o.getD 0 0) (loraStored t b)
  let c1 := s.bytesAt (a + o.getD 1 0) n
  let s1 := s.bytesAt (a + o.getD 2 0) (n / 128)
  let c2 := s.bytesAt (a + o.getD 3 0) n
  let s2 := s.bytesAt (a + o.getD 4 0) (n / 128)
  ms.zipIdx.map fun x => (x.1, moment1 c1 s1 x.2, moment2 c2 s2 x.2)

/-! ## The backward pass (R88, R223) -/

/-- A held row of gradients. -/
abbrev Held := List (Nat × List Nat × Nat)

/-- The held gradients of the rows that leave layers `l`, `l - 1`, … (`k` layers), from those of the rows that leave layer `l`, for
the first `n` positions of a row's pass. -/
def backFrom (t : Slot) (set : List Nat) (masters : List Byte) (pass : List (List (List F32))) (n : Nat) :
    Nat → Nat → List (List F32) → List (Nat × List Held)
  | 0, _, _ => []
  | k + 1, l, g =>
    let had := t.hadBlock l 0
    let held := g.map (holdGrad had)
    (l, held) :: backFrom t set masters pass n k (l - 1)
      ((Config.netBack t.digest set masters l ((pass.getD l []).take n) (held.map (readGrad had))).map (fitRow t.manifest.width))

/-- What the backward pass of the gradients depends on beside the rows. -/
def backSet (b : List Nat) : List Nat := [tbTrain b, tbRank b, tbTargets b, tbFirst b, tbLast b, wordAt b 19]

/-- The held activation gradients of a row, from the head down to FIRST_LAYER; `top` is the gradients of its logits by position.
Padding contributes nothing. -/
def backRow (t : Slot) (b : List Nat) (masters : List Byte) (pass : List (List (List F32))) (n : Nat)
    (top : List (Nat × List F32)) : List (Nat × List Held) :=
  let layers := t.manifest.layers
  backFrom t (backSet b) masters pass n (layers - tbFirst b) (layers - 1)
    ((Config.netHeadGrad t.digest ((pass.getLastD []).take n) top).map (fitRow t.manifest.width))

/-- Held gradients as they are stored: the codes row by row, then for each row its scales in scale rows of 64 along the innermost
axis, filled with 0x00 (R72, R88). -/
def heldBytes (rows : List Held) : List Byte :=
  let byte (x : Nat) : Byte := BitVec.ofNat 8 x
  rows.flatMap (fun r => Fmt.f4.pack (r.flatMap fun g => g.2.1)) ++ rows.flatMap fun r => fillRegion (r.map fun g => byte g.1)

/-- The update of every element: those of trained rows under R224 with the gradients `gs`, the others as they are. -/
def updateAll (b : List Nat) (p1 p2 : F32) (rows : List ParamRow) (gs : List (List F32)) (elems : List (F32 × F32 × F32)) :
    List (F32 × F32 × F32) :=
  let marks := (rows.zip gs).flatMap fun x => (List.range x.1.len).map fun i => (x.1.trained, x.2.getD i 0)
  (List.zip (marks ++ List.replicate (elems.length - marks.length) (false, 0)) elems).map fun x =>
    if x.1.1 then updateElem b p1 p2 x.2.1 x.2.2.1 x.2.2.2 x.1.2 else x.2

/-! ## One batch (R223, R225, R226) -/

/-- The header after a batch has been consumed. -/
def TrainHead.advance (h : TrainHead) (b : List Nat) : TrainHead :=
  if epochBatches b ≤ h.next + 1 then { h with next := 0, epoch := (h.epoch + 1) % 2 ^ 32 } else { h with next := h.next + 1 }

/-- The output entry of batch `j`. -/
def trainOut (loss : F32) (targets : Nat) (nonfinite cut bad : Bool) : List Nat :=
  [loss.toNat, targets % 2 ^ 22 + 2 ^ 22 * b2n (targets == 0) + 2 ^ 23 * b2n nonfinite + 2 ^ 24 * b2n cut + 2 ^ 25 * b2n bad]

/-- A row of a batch with its forward pass. -/
abbrev Pass := Row × List (List (List F32))

/-- Step 1 of R223: every row's pass, its padding with it, from the committed copy. -/
def State.forward (s : State) (t : Slot) (b : List Nat) (h : TrainHead) (rows : List Row) : List Pass :=
  rows.map fun r => (r, trainRows t (s.trainAdapt t b (copyAddr t b h.active)) (r.padded b))

/-- The work area after a batch (log entry 128). -/
def State.putWork (s : State) (b : List Nat) (kv grads : List Byte) : State :=
  s.store (tbWorkAddr b) ((List.range (tbWorkMib b * 2 ^ 20)).map (Config.workByte kv grads))

/-- What steps 2 to 6 of R223 compute: LOSS, whether the batch is non-finite, the inactive copy's bytes, the held gradients, and the
saturations of the logits and of PACK. -/
structure BatchRun where
  loss : F32
  bad : Bool
  copy : List Byte
  grads : List Held
  met : Nat × Nat
  deriving DecidableEq, Repr

/-- The gradients of the logits of each row by position; `n` is T. -/
def topGrads (t : Slot) (n : Nat) (x : Pass) : List (Nat × List F32) :=
  List.zip x.1.targets ((rowTargets t x.1 (x.2.getLastD [])).map fun y => logitGrad y.1 y.2 n)

/-- The rows of a batch as a layer's parameter gradients see them: those that enter the layer, at the real positions. -/
def enterRows (passes : List Pass) (l : Nat) : List (List (List F32)) :=
  passes.map fun x => (x.2.getD l []).take x.1.tokens.length

/-- The gradients of the rows that leave a layer, read from what is held. -/
def leaveGrads (t : Slot) (acts : List (List (Nat × List Held))) (l : Nat) : List (List (List F32)) :=
  acts.map fun x => ((assoc x l).getD []).map (readGrad (t.hadBlock l 0))

/-- Steps 2 to 6 of R223, from the committed copy and the passes. An empty row contributes nothing (R222). -/
def State.batchRun (s : State) (t : Slot) (b : List Nat) (h : TrainHead) (passes : List Pass) (p1 p2 : F32) : BatchRun :=
  let a := copyAddr t b h.active
  let passes := passes.filter fun x => !x.1.tokens.isEmpty
  let xs := passes.flatMap fun x => rowTargets t x.1 (x.2.getLastD [])
  let masters := s.steerBytes t b a ++ s.loraBytes t b a
  let acts := passes.map fun x => backRow t b masters x.2 x.1.tokens.length (topGrads t xs.length x)
  let ps := paramRows t b
  let held := ps.map fun p => if p.trained then
      holdGrad p.had (fitRow p.len (Config.netGrad t.digest (backSet b) masters (p.layer, p.kind, p.index)
        (enterRows passes p.layer) (leaveGrads t acts p.layer))) else []
  let copy := copyOf t b (updateAll b p1 p2 ps ((ps.zip held).map fun x => readGrad x.1.had x.2) (s.copyElems t b a))
  let loss := batchLoss xs
  let grads := (acts.flatMap fun x => x.flatMap Prod.snd) ++ held
  let heads := passes.flatMap fun x => x.1.targets.map fun p =>
    Config.netSats t.digest t.manifest.layers [(x.2.getLastD []).getD p []]
  { loss := loss, bad := !fIsFin loss || copy.2.1 || grads.any fun gs => gs.any fun g => g.1 == 0xFF, copy := copy.1
    grads := grads, met := sumMet ((0, (grads.map groupSats).sum + copy.2.2) :: heads) }

/-- Run the batch's update: the state after it, the loss, and whether it was non-finite. -/
def State.trainUpdate (s : State) (j : Job) (t : Slot) (b : List Nat) (h : TrainHead) (passes : List Pass) (kv : List Byte) :
    State × F32 × Bool :=
  let p1 := fmul h.pow1 (tbF32 b 15)
  let p2 := fmul h.pow2 (tbF32 b 16)
  let r := s.batchRun t b h passes p1 p2
  let s := ((s.countPass j r.met).putWork b kv (heldBytes r.grads)).store (copyAddr t b (1 - h.active)) r.copy
  let next := h.advance b
  if r.bad then ((s.putTrainHead t b next).raise (0x58 + j.cp) 2 0x19 (some j.part) 0 0, r.loss, true)
  else (s.putTrainHead t b { next with step := h.step + 1, pow1 := p1, pow2 := p2, active := 1 - h.active }, r.loss, false)

/-- What a batch reads of memory: header, committed copy, sample entries. -/
def trainReads (t : Slot) (b : List Nat) (h : TrainHead) : List (Nat × Nat) :=
  (tbState b, 64) :: (copyAddr t b h.active, copyBytesOf t b) ::
    ((List.range (tbBatch b)).filterMap (sampleOf b h)).map fun i => (tbSampleAddr b + 16 * i, 16)

/-- The next batch of a running job. -/
def State.runBatch (s : State) (j : Job) (t : Slot) (done : Nat) : State :=
  let b := s.trainBlock j
  let h := s.trainHead b
  let ws := s.batchSamples b h
  let reads := trainReads t b h ++ ((ws.filterMap id).filter sampleFields).map fun w => (addr48 w 0, 4 * sampleLen w)
  match (s.anyBlocked j reads).or (s.blockedOut j (dOut j.words + 8 * done) 8) with
  | some s => s
  | none =>
    let rows := ws.map fun w => (w.map (s.row t b)).getD Row.empty
    let w := s.trainAdapt t b (copyAddr t b h.active)
    let passes := s.forward t b h rows
    let kv := passes.flatMap fun x => passKv t w x.2
    let targets := (rows.map fun r => r.targets.length).sum
    let s := s.raiseMany (rows.filter Row.bad).length (0x58 + j.cp) 2 0x19 (some j.part) 0 0
    let s := s.countPass j (sumMet (passes.map fun x => passMet t w x.2))
    let r := if targets = 0 then ((s.putWork b kv []).putTrainHead t b (h.advance b), 0, false)
      else s.trainUpdate j t b h passes kv
    let s := r.1.storeWords (dOut j.words + 8 * done) (trainOut r.2.1 targets r.2.2 (rows.any Row.cut) (rows.any Row.bad))
    let s := s.modJob j.uid fun j => { j with ext := .train { started := true, batches := done + 1 } }
    if done + 1 = dCount j.words then s.finishUid j.uid (done + 1) else s

/-- Validate a TRAIN_STEP and initialise its state. -/
def State.startTrain (s : State) (j : Job) : State :=
  match (s.blocked j (dArg j.words) 128).or (s.blockedOut j (dOut j.words) (8 * dCount j.words)) with
  | some s => s
  | none => match s.namedSlot j.part (dSlot j.words) with
    | .inr st => s.failJob j.uid st 0
    | .inl t =>
      let b := s.trainBlock j
      match s.trainRefused j.part t b with
      | some (st, r) => s.failJob j.uid st r
      | none =>
        match if tbInit b then s.blocked j (tbInitAddr b) (masterBytes t b) else s.blocked j (tbState b) 64 with
        | some s => s
        | none =>
          (if tbInit b then s.initTrain t b else s).modJob j.uid fun j =>
            { j with ext := .train { started := true, batches := 0 } }

/-- TRAIN_STEP starts, or resumes at its next batch. -/
def execTrainStep (uid : Nat) (s : State) : Res :=
  .next (match s.starting uid 0x0C with
    | none => s
    | some (j, t) => match j.ext with
      | .train _ => t
      | _ => t.startTrain j)

def execTrainBatch (uid : Nat) (s : State) : Res :=
  .next (match s.job? uid with
    | none => s
    | some j => match j.ext, s.slot? (dSlot j.words) with
      | .train r, some t =>
        if j.opcode == 0x0C && j.state == .running && !j.finished && s.cpRunning j.cp && s.cpRunning 2 &&
            !s.workOut uid && decide (r.batches < dCount j.words) then
          s.runBatch j t r.batches
        else s
      | _, _ => s)

end Sys2Proof.Machine
end

