-- ==== Sys2Proof/Machine/Ship.lean ====
section
/-! DEFINITION. What a shipment carries and how it lands (R344 to R348): the stream of a sequence (its manifest's and its
groups' byte layout: log entry 24), and the sequence that a receiver makes of it. -/

namespace Sys2Proof.Machine

/-! ## Entries (R344) -/

def State.shipEntry (s : State) (j : Job) (i : Nat) : List Nat := s.wordsAt (dArg j.words + 32 * i) 8

def shSeq (w : List Nat) : Nat := wordAt w 0
def shBuffer (w : List Nat) : Bool := bit 0 (wordAt w 1)
def shMove (w : List Nat) : Bool := bit 1 (wordAt w 1)
def shVolume (w : List Nat) : Nat := bits 15 8 (wordAt w 1)
def shPeer (w : List Nat) : Nat := bits 31 16 (wordAt w 1)
def shTag (w : List Nat) : Nat := wordAt w 2
def shBudget (w : List Nat) : Nat := bits 23 0 (wordAt w 3)
def shAddr (w : List Nat) : Nat := addr48 w 4
def shLength (w : List Nat) : Nat := wordAt w 6

def dPort (ws : List Nat) : Nat := bits 0 0 (wordAt ws 8)
def dHops (ws : List Nat) : Nat := bits 15 8 (wordAt ws 8)

def State.shipOk (s : State) (p : Nat) (out : Bool) (w : List Nat) : Bool :=
  bits 7 2 (wordAt w 1) == 0 && bits 31 24 (wordAt w 3) == 0 && bits 31 16 (wordAt w 5) == 0 && wordAt w 7 == 0 &&
    if shBuffer w then shSeq w == 0 && !shMove w && shLength w != 0 && shLength w % 16 == 0
    else if out then (s.resident p (shSeq w)).any fun q => !s.variantLost q
    else shSeq w == 0 && !shMove w && (shVolume w == 0xFF || (match s.volume? (shVolume w) with
      | some v => v.fast && v.owner == p && !v.sealed
      | none => false))

/-! ## The stream of a sequence (R346) -/

def tokBytes (d : Nat) (t : Tok) : List Byte :=
  let k := t.key.getD (0, List.replicate d 0)
  let v := t.val.getD (0, List.replicate d 0)
  leBytes 1 t.pos ++ leBytes 1 (b2n t.key.isSome + 2 * b2n t.val.isSome) ++ leBytes 2 k.1 ++ leBytes 2 v.1 ++ k.2 ++ v.2

def groupBytes (g : Group) : List Byte :=
  leBytes 1 g.layer ++ leBytes 1 g.head ++ leBytes 4 g.page ++ leBytes 1 g.toks.length ++ leBytes 1 (dimCode g.dim) ++
    leBytes 8 0 ++ g.toks.flatMap (tokBytes g.dim)

def geometry (t : Slot) : List Byte :=
  let ls := t.layerRecs.map fun l => BitVec.ofNat 8 (l.kvHeads + 64 * b2n l.fmtS4)
  ls ++ List.replicate (160 - ls.length) 0

/-- The 256-byte manifest. -/
def shipManifest (t : Slot) (q : Seq) (groups total : Nat) : List Byte :=
  t.digest.take 8 ++ leBytes 4 q.len ++ leBytes 4 groups ++ q.seed ++ leBytes 2 (q.variant.getD 0) ++
    leBytes 1 (b2n q.variant.isSome) ++ leBytes 1 t.layerRecs.length ++ leBytes 4 t.manifest.headDim ++ leBytes 8 total ++
    List.replicate 48 0 ++ geometry t

/-- The record of a page, read in place (R156). -/
def State.pageRecord (s : State) (p i : Nat) : List Byte :=
  let e := s.pte p i
  if e.state = 2 ∨ e.state = 3 then s.flashRecord p e else s.kvRecord p e

def State.seqImage (s : State) (q : Seq) : List Byte :=
  match s.slot? q.slot with
  | none => []
  | some t =>
    let gs := ((s.kv q.part).groups.filter fun g => g.seq == q.idx && g.flushed.isNone && !g.spec).flatMap groupBytes
    let body := wordsBytes (s.history q) ++ q.pages.flatMap (fun x => s.pageRecord q.part x.2.2.2) ++ gs
    shipManifest t q gs.length (256 + body.length) ++ body

/-- What a shipment reads of the partition's DRAM. -/
def State.shipReads (s : State) (j : Job) (w : List Nat) : List (Nat × Nat) :=
  if shBuffer w then [(shAddr w, shLength w)]
  else match s.resident j.part (shSeq w) with
    | some q => q.historyReads ++ q.dir.flatMap fun x => s.pageReads j.part x.2.2.2
    | none => []

def State.shipImage (s : State) (j : Job) (w : List Nat) : List Byte :=
  if shBuffer w then s.bytesAt (shAddr w) (shLength w)
  else match s.resident j.part (shSeq w) with
    | some q => s.seqImage q
    | none => []

/-! ## Landing -/

def imageTotal (im : List Byte) : Nat := fieldAt im 40 8

/-- The manifest fits the receiving slot (R346). -/
def manifestFits (t : Slot) (im : List Byte) : Bool :=
  im.take 8 == t.digest.take 8 && byteAt im 35 == t.layerRecs.length && fieldAt im 36 4 == t.manifest.headDim &&
    (im.drop 96).take 160 == geometry t

def readTok (d : Nat) (bs : List Byte) : Tok :=
  let f := byteAt bs 1
  { pos := byteAt bs 0, key := if bit 0 f then some (fieldAt bs 2 2, (bs.drop 6).take d) else none
    val := if bit 1 f then some (fieldAt bs 4 2, (bs.drop (6 + d)).take d) else none }

/-- Groups of a stream's tail; `fuel` is its length. -/
def streamGroups (seq now : Nat) : Nat → List Byte → List Group
  | 0, _ => []
  | fuel + 1, bs =>
    if bs.length < 16 then [] else
      let d := dimOf (byteAt bs 7)
      let n := byteAt bs 6
      let step := 6 + 2 * d
      let toks := (List.range n).map fun i => readTok d ((bs.drop (16 + step * i)).take step)
      { Group.empty seq (byteAt bs 0) (byteAt bs 1) (fieldAt bs 2 4) false d now with toks := toks } ::
        streamGroups seq now fuel (bs.drop (16 + step * n))

/-- A landed page: its table entry, before it has a home. -/
def State.shippedPte (s : State) (p : Nat) (t : Slot) (layer : Nat) (record : List Byte) : Pte :=
  let d := t.dim
  let side := record.drop (record.length - sidecarBytes d)
  { state := 1, fmtS4 := (t.layer layer).fmtS4
    dim := d, compressed := !s.conf p, encrypted := s.conf p, nanKeys := (side.take d).contains 0xFF, slot := t.idx, refs := 1
    epoch := (s.kv p).epoch, payload := 0, volume := 0, sidecar := 0 }

/-- Land a record in DRAM as it arrived. -/
def State.landRecord (s : State) (p : Nat) (e : Pte) (record : List Byte) : Option (Nat × State) :=
  match s.allocFrame p e.frameBytes with
  | none => none
  | some (pay, s) => match s.allocFrame p (sidecarBytes e.dim) with
    | none => none
    | some (side, s) =>
      let body := record.take (record.length - sidecarBytes e.dim)
      let s := s.store pay (if e.compressed then body else body.drop 64)
      let s := s.store side (record.drop (record.length - sidecarBytes e.dim))
      s.newPte p { e with payload := pay, sidecar := side }

/-- Land the records of a sequence: each (layer, head, page) with its bytes; `vol` is a run's volume and next byte. -/
def State.landRecords (p seq : Nat) (t : Slot) :
    List (Nat × Nat × Nat × List Byte) → Option (Nat × Nat) → State → Option State
  | [], _, s => some s
  | x :: rest, vol, s =>
    let e := s.shippedPte p t x.1 x.2.2.2
    let placed := match vol with
      | none => s.landRecord p e x.2.2.2
      | some (v, a) => s.newPte p { e with state := 2, payload := a, volume := v }
    match placed with
    | none => none
    | some (i, s) =>
      let s := s.modSeq seq fun q => { q with dir := q.dir ++ [(x.1, x.2.1, x.2.2.1, i)] }
      match s.sumOf p seq x.1 x.2.1 x.2.2.1 i with
      | none => none
      | some s => State.landRecords p seq t rest (vol.map fun v => (v.1, v.2 + x.2.2.2.length)) s

/-- Land a group parked. -/
def State.landGroups (p : Nat) : List Group → State → Option State
  | [], s => some s
  | g :: rest, s => match s.allocFrame p (128 * g.dim + 256) with
    | none => none
    | some (a, s) =>
      State.landGroups p rest (s.modKv p fun k => { k with groups := { g with tail := some a } :: k.groups })

/-- The records of a stream, by layer, KV head and page, those in groups left out. -/
def streamRecords (s : State) (p : Nat) (t : Slot) (len : Nat) (gs : List Group) (body : List Byte) :
    List (Nat × Nat × Nat × List Byte) :=
  let places := t.heads.flatMap fun h => ((List.range (len / 64)).filter fun n =>
    gs.all fun g => !(g.layer == h.1 && g.head == h.2 && g.page == n)).map fun n => (h.1, h.2, n)
  (places.foldl (fun (a : List Byte × List (Nat × Nat × Nat × List Byte)) x =>
    let e := s.shippedPte p t x.1 []
    let n := recordBytes e (!s.conf p)
    (a.1.drop n, a.2 ++ [(x.1, x.2.1, x.2.2, a.1.take n)])) (body, [])).2

/-- How a sequence's stream fares at the receiver: no handle, frame or room for it, an erase that its programs wait for (R302), a
die that can take no program (R300), or landed under a handle. -/
inductive Landed where
  | noRoom
  | later
  | worn (s : State)
  | done (handle : Nat) (s : State)

/-- Make the receiving sequence of a whole stream. -/
def State.landSeq (s : State) (j : Job) (t : Slot) (w : List Nat) (im : List Byte) : Landed :=
  let p := j.part
  let len := fieldAt im 8 4
  let gb := fieldAt im 12 4
  let variant := if bit 0 (byteAt im 34) then some (fieldAt im 32 2) else none
  let history := bytesWords len ((im.drop 256).take (4 * len))
  match (s.newSeq p t.idx variant ((im.drop 16).take 16) true len []).bind fun r =>
      (r.2.putTokens r.1.idx 0 history).map fun s => (r.1, s) with
  | none => .noRoom
  | some (q, s) =>
    let body := im.drop (256 + 4 * len)
    let gs := streamGroups q.idx s.now (gb + 1) (body.drop (body.length - gb))
    let recs := streamRecords s p t len gs (body.take (body.length - gb))
    let land (at_ : Option (Nat × Nat)) (s : State) : Landed :=
      match (State.landRecords p q.idx t recs at_ s).bind (State.landGroups p gs) with
      | some s => .done q.handle s
      | none => .noRoom
    if shVolume w = 0xFF || recs.isEmpty then land none s
    else match s.volume? (shVolume w) with
      | none => .noRoom
      | some v => match s.placeRun v (recs.flatMap fun x => x.2.2.2) with
        | .noRoom => .noRoom
        | .held => .later
        | .worn s => .worn s
        | .done first s => land (some (v.num, first * pageBytes)) s

end Sys2Proof.Machine
end

