-- ==== Sys2Proof/Machine/Passage.lean ====
section
/-! DEFINITION. Passage ports: received frames, link upkeep, keys, and the shipping jobs (R332 to R349). -/

namespace Sys2Proof.Machine

/-! ## Key exchange (R337, R339) -/

/-- Start an exchange: fresh randomness, and a KEYX frame; without randomness it repeats later. -/
def State.startKeyx (s : State) (n : Nat) : State :=
  let s := s.modPport n fun p => { p with rekeying := true, lastKeyx := s.now, ephemeral := none }
  match s.rngAsk (.passage n) with
  | (some d, s) => s.sendKeyx n d
  | (none, s) => s

/-- 64 PROBE frames with HOPS 1 (R340). -/
def State.measureHop (s : State) (n : Nat) : State :=
  let s := s.modPport n fun p => { p with probes := 0, hopNs := 0, probeAt := s.now }
  (List.range 64).foldl (fun s _ => s.sendFrame n (mkFrame typePROBE 0 1 (transport s.passage.id 0 1 false))) s

/-- The transcript of an exchange: both KEYX payloads in an order that both ends have. -/
def transcript (a b : List Byte) : List Byte := if leNat a ≤ leNat b then a ++ b else b ++ a

/-- The exchange is complete: the sender switches at once to the new key. The old receiving key stays until a frame of the new
phase is accepted (R337, R339). -/
def State.newKeys (s : State) (n d : Nat) (theirs : List Byte) : State :=
  let was := (s.pport n).state
  let key := Config.linkKey (Config.ecdheSecret d (theirs.take 96)) (transcript (keyxBytes d) theirs)
  let s := s.modPport n fun p =>
    { p with
      txKey := key (s.linkDir n), rxKeys := key (2 ^ 16 * p.peerId + 2 ^ 15 * p.peerPort) :: p.rxKeys.take 1
      ephemeral := none, peerKeyx := none
      keyGen := p.keyGen + 1, rxNew := true, txPhase := !p.txPhase, txCtr := 0, rekeying := false
      state := if was == .locked then .ready else was }
  if was == .keying then s.measureHop n else s.pumpPort n

/-- Both KEYX frames of an exchange are there. -/
def State.tryKeys (s : State) (n : Nat) : State :=
  match (s.pport n).ephemeral, (s.pport n).peerKeyx with
  | some d, some theirs => s.newKeys n d theirs
  | _, _ => s

/-- Jobs whose path uses a port. -/
def State.shipJobs (s : State) (n : Nat) : List Job :=
  s.jobs.list.filter fun j => (j.opcode == 0x07 || j.opcode == 0x08) && dPort j.words == n && !j.finished

def State.failShips (s : State) (n : Nat) : State := (s.shipJobs n).foldl (fun s j => s.failJob' j.uid stLink) s

/-! ## Retry (R335) -/

/-- Frames up to `a` are acknowledged. -/
def PPort.acked (p : PPort) (now a : Nat) : PPort :=
  if p.retry.any fun f => f.seq == a then
    { p with retry := (p.retry.dropWhile fun f => f.seq != a).drop 1, replays := 0, lastProgress := now }
  else p

/-- Send every unacknowledged frame again, each encrypted afresh; at 16 replays without progress nothing more is sent, and none
whose counter would be 2^48, before which the port is LOCKED (R339). -/
def PPort.replay (p : PPort) (dir now : Nat) : PPort :=
  if p.retry.isEmpty || decide (16 ≤ p.replays) || p.state == .locked then p else
    p.retry.foldl (fun (p : PPort) f =>
      let g := p.seal f
      if ctrLimit ≤ p.txCtr then p else
      { p.leave dir g with
        txCtr := p.txCtr + 1, retry := p.retry.map fun (h : Frame) => if h.seq == g.seq then g else h })
      { p with replays := p.replays + 1, lastProgress := now }

/-! ## Receiving (R333 to R335, R341, R342) -/

def State.linkRecord (s : State) (n cls detail info : Nat) : State := s.raise (0x51 + n) cls detail none 0 info

/-- Whether a frame's counter is new under its key. A frame of the other phase has a key only where an exchange has made one;
the old key is kept until then (R339). -/
def PPort.freshCtr (p : PPort) (f : Frame) : Bool :=
  match p.rxCtr with
  | none => true
  | some c => if f.keyPhase != p.rxPhase then p.rxNew else decide (c < f.ctr)

/-- A frame whose CRC and TAG hold; a failure is answered with one NAK. -/
def State.intact (s : State) (n : Nat) (f : Frame) : Bool × State :=
  if f.stomped then (false, s)
  else if !f.crcOk then (false, s.sendPlain n typeNAK [])
  else if !f.tagOk then (false, (s.linkRecord n 7 0x10 0).sendPlain n typeNAK [])
  else (true, s)

/-- An acknowledgement is owed for another received frame; at 16 it is sent. -/
def State.oweAck (s : State) (n : Nat) : State :=
  let s := s.modPport n fun p => { p with unacked := p.unacked + 1 }
  if 16 ≤ (s.pport n).unacked then
    (s.sendPlain n typeACK []).modPport n fun p => { p with unacked := 0, lastAck := s.now }
  else s

def PPort.live (p : PPort) : Bool := p.state == .ready || p.state == .keying || p.state == .discovery

/-- A frame that fails while it is relayed cut-through: the outgoing frame is stomped, and its SEQ is taken by the next (R342). -/
def State.stompRelay (s : State) (n : Nat) (f : Frame) : State :=
  if f.hops < 2 then s else s.modPport (1 - n) fun p =>
    let g := mkFrame f.type f.vc (f.hops - 1) f.payload
    if p.state == .ready && p.waiting.isEmpty && p.canSend g then
      { p.leave (s.linkDir (1 - n)) { p.seal g with seq := p.txSeq, stomped := true } with txCtr := p.txCtr + 1 }
    else p

/-- A frame of another TYPE than its command: one that is not assigned is discarded with a record (R333). -/
def State.stray (s : State) (n : Nat) (f : Frame) : State :=
  if 7 < f.type && (s.pport n).live then s.linkRecord n 6 0xF f.type else s

/-- Accept a sequenced frame in order; it lies in the receive buffer until freeRx. One that was received before is discarded, and
acknowledged again: its acknowledgement may have been lost. -/
def State.accept (s : State) (n : Nat) (f : Frame) : Bool × State :=
  if !((s.pport n).state == .ready || (s.pport n).state == .keying) then (false, s) else
    match s.intact n f with
    | (false, s) => (false, s.stompRelay n f)
    | (true, s) =>
      let p := s.pport n
      if f.seq != p.rxSeq || !p.freshCtr f then (false, s.oweAck n) else
        let s := s.modPport n fun p =>
          { (p.acked s.now f.ackSeq) with
            rxSeq := (p.rxSeq + 1) % 2 ^ 16, rxCtr := some f.ctr, rxPhase := f.keyPhase
            rxKeys := if f.keyPhase == p.rxPhase then p.rxKeys else p.rxKeys.take 1
            rxNew := p.rxNew && p.rxCtr.isSome && f.keyPhase == p.rxPhase }
        (true, (s.oweAck n).pumpPort n)

/-- Relay a frame out of the other port, or discard it (R341, R342). -/
def State.relay (s : State) (n : Nat) (f : Frame) : State :=
  if (s.pport (1 - n)).state == .ready then
    let g := mkFrame f.type f.vc (f.hops - 1) f.payload
    (s.modPport (1 - n) fun p => { p with relays := p.relays ++ [g] }).sendFrame (1 - n) g
  else s.freeRx n f

/-! ## Shipping entries (R343 to R349) -/

def Job.ship? (j : Job) : Option ShipSt :=
  match j.ext with
  | .ship sh => some sh
  | _ => none

def State.setShip (s : State) (uid : Nat) (sh : ShipSt) : State := s.modJob uid fun j => { j with ext := .ship sh }

/-- End-to-end control of the entry in progress. -/
def State.shipControl (s : State) (j : Job) (sh : ShipSt) (m : ShipMsg) : State :=
  s.sendControl sh.port sh.hops (shPeer sh.words) (shTag sh.words) (s.conf j.part) m

/-- A PROBE goes along the entry's path (R343). -/
def State.probePath (s : State) (j : Job) (sh : ShipSt) : State :=
  s.sendFrame sh.port
    (mkFrame typePROBE 0 sh.hops (transport s.passage.id (shTag sh.words) sh.hops (s.conf j.part)))

/-- Begin an entry: an IN entry sends READY and probes its path, an OUT entry waits for READY (R343, R345; log entry 46). -/
def State.beginEntry (s : State) (j : Job) (i : Nat) : State :=
  match s.blocked j (dArg j.words + 32 * i) 32 with
  | some s => s
  | none =>
  let w := s.shipEntry j i
  let out := j.opcode == 0x07
  let sh : ShipSt :=
    { out := out, port := dPort j.words, hops := dHops j.words, entry := i, count := dCount j.words, probed := false
      probeSent := if out then none else some s.now, ready := false, lastReady := s.now, sent := 0, acked := 0
      total := if shBuffer w then shLength w else 0, image := [], lastProgress := s.now, lastHold := 0
      held := false, words := w }
  let s := s.setShip j.uid sh
  if out then s else (s.shipControl j sh .ready).probePath j sh

/-- A CANCEL of the job had no effect: its record, which waited for this job's, says so (R40, R349). -/
def State.cancelLate (s : State) (uid : Nat) : State :=
  let late (c : Comp) : Bool := c.opcode == 0x12 && (match (s.job? c.uid).map Job.ext with
    | some (.control t) => t == uid
    | _ => false)
  { s with qps := s.qps.map fun q =>
    { q with waiting := q.waiting.map fun c => if late c then { c with result := 2 } else c } }

/-- The entry is applied: the next one begins, or the job is complete. -/
def State.entryDone (s : State) (j : Job) (sh : ShipSt) : State :=
  let s := s.setShip j.uid { sh with entry := sh.entry + 1 }
  if sh.entry + 1 = sh.count then
    match s.job? j.uid with
    | some j => (s.cancelLate j.uid).finishJob { j with ending := none } (sh.entry + 1)
    | none => s
  else if j.state == .cancelling then s
  else s.beginEntry j (sh.entry + 1)

/-- Checks before anything changes (R344, R348), then the first entry. -/
def State.startShip (s : State) (j : Job) : State :=
  let n := dCount j.words
  let out := j.opcode == 0x07
  let ws := (List.range n).map (s.shipEntry j)
  match (s.blocked j (dArg j.words) (32 * n)).or (s.blockedOut j (dOut j.words) (if out then 0 else 4 * n)) with
  | some s => s
  | none =>
    if !bit j.part s.passage.partMask ||
        (s.conf j.part && (dHops j.words != 1 || (s.pport (dPort j.words)).pin.all fun w => w == 0)) then
      s.failJob j.uid stDenied 0
    else if dHops j.words = 0 then s.failJob j.uid stInvalid 0
    else match ws.findIdx? fun w => !s.shipOk j.part out w with
    | some i => s.failJob j.uid stInvalid i
    | none =>
    if ws.any fun w => shBuffer w && !s.inDram j.part (shAddr w) (shLength w) then s.outsideJob j.uid
    else match if out || ws.all shBuffer then none else (match s.namedSlot j.part (dSlot j.words) with
        | .inr st => some st
        | .inl _ => none) with
      | some st => s.failJob j.uid st 0
      | none => if (s.pport (dPort j.words)).state != .ready then s.failJob j.uid stLink 0 else s.beginEntry j 0

/-- Send the next DATA frame of an OUT entry. -/
def State.sendData (s : State) (j : Job) (sh : ShipSt) : State :=
  if !sh.out || !sh.probed || sh.held || sh.total ≤ sh.sent || ((s.pport sh.port).waiting.any fun f => f.vc == 1) then s else
    let w := sh.words
    let chunk := (sh.image.drop sh.sent).take 2032
    let body := chunk ++ List.replicate (ceilDiv chunk.length 16 * 16 - chunk.length) 0
    let s := s.sendFrame sh.port
      (mkFrame typeDATA 1 sh.hops (transport s.passage.id (shTag w) sh.sent (s.conf j.part) ++ body))
    s.setShip j.uid { sh with sent := sh.sent + chunk.length }

/-- A whole stream has arrived: write it, acknowledge it, and go on; it waits for a flash die that an erase holds. -/
def State.landEntry (s : State) (j : Job) (sh : ShipSt) : State :=
  let w := sh.words
  let done (s : State) : State := (s.shipControl j sh .final).entryDone j sh
  if shBuffer w then done (s.store (shAddr w) sh.image)
  else match s.blockedOut j (dOut j.words + 4 * sh.entry) 4 with
  | some s => s
  | none => match s.slot? (dSlot j.words) with
    | none => s.failJob j.uid stInvalid sh.entry
    | some t => match s.landSeq j t w sh.image with
      | .noRoom => s.failJob j.uid stExhausted sh.entry
      | .later => s
      | .worn s => s.failJob j.uid stFault sh.entry
      | .done h s => done (s.storeN (dOut j.words + 4 * sh.entry) 4 h)

def ShipSt.whole (sh : ShipSt) : Bool := !sh.out && sh.total != 0 && sh.total == sh.sent

/-- A resumed job goes on; a receiver tells the sender, which holds, how far it is (R345). -/
def State.resumeShip (s : State) (j : Job) (sh : ShipSt) : State :=
  let sh := { sh with lastProgress := s.now }
  let s := s.setShip j.uid sh
  if sh.out || !sh.ready then s else s.shipControl j sh (.progress sh.sent)

/-- A running job sends its next frame, or lands a stream that is whole. -/
def State.goShip (s : State) (j : Job) (sh : ShipSt) : State := if sh.whole then s.landEntry j sh else s.sendData j sh

/-- Start a shipping job, resume it, or let it go on. -/
def State.runShip (s : State) (uid op : Nat) : State :=
  match s.starting uid op with
  | some (j, t) => match j.ship? with
    | some sh => t.resumeShip j sh
    | none => t.startShip j
  | none => let s := s.waitStart uid op
    match s.job? uid with
    | none => s
    | some j => match j.ship? with
      | some sh => if j.opcode == op && j.state == .running && !j.finished && s.cpRunning j.cp then s.goShip j sh else s
      | none => s

def execKvShipOut (uid : Nat) (s : State) : Res := .next (s.runShip uid 0x07)

def execKvShipIn (uid : Nat) (s : State) : Res := .next (s.runShip uid 0x08)

/-- The running job whose entry in progress has a port, a peer and a tag. -/
def State.shipFor (s : State) (out : Bool) (port peer tag : Nat) : Option (Job × ShipSt) :=
  s.jobs.list.findSome? fun j => match j.ship? with
    | some sh =>
      let w := sh.words
      if sh.out == out && sh.port == port && !j.finished && decide (sh.entry < sh.count) && shPeer w == peer &&
          shTag w == tag && (j.state == .running || j.state == .suspending) then some (j, sh) else none
    | none => none

/-- Data for an IN entry; what it has already is left out of a frame that was sent again after a suspension. -/
def State.takeData (s : State) (j : Job) (sh : ShipSt) (payload : List Byte) : State :=
  let w := sh.words
  if tConf payload != s.conf j.part then (s.shipControl j sh .denied).failJob j.uid stDenied sh.entry
  else if sh.sent < tOffset payload || sh.whole then s else
    let all := sh.image ++ payload.drop (16 + (sh.sent - tOffset payload))
    let total := if sh.total = 0 && decide (256 ≤ all.length) then imageTotal all else sh.total
    let im := if total = 0 then all else all.take total
    let fits := shBuffer w || sh.total != 0 || decide (im.length < 256) || (match s.slot? (dSlot j.words) with
      | some t => manifestFits t im
      | none => false)
    if !fits then s.failJob j.uid stInvalid sh.entry else
      let mib := im.length / 2 ^ 20 * 2 ^ 20
      let sh := { sh with ready := true, sent := im.length, total := total, image := im, lastProgress := s.now }
      if total ≠ 0 ∧ total ≤ im.length then (s.setShip j.uid sh).landEntry j sh
      else if sh.acked < mib then
        (s.setShip j.uid { sh with acked := mib }).shipControl j sh (.progress mib)
      else s.setShip j.uid sh

/-! ## The frame commands -/

def execData (port : Nat) (frame : Frame) (s : State) : Res :=
  .next (if frame.type != typeDATA then s.stray port frame
    else match s.accept port frame with
      | (false, s) => s
      | (true, s) =>
        if 1 < frame.hops then s.relay port frame else
        let s := s.freeRx port frame
        if frame.vc = 0 then s
        else match s.shipFor false port (tOrigin frame.payload) (tXfer frame.payload) with
          | some (j, sh) => s.takeData j sh frame.payload
          | none => s)

def execAck (port : Nat) (frame : Frame) (s : State) : Res :=
  .next (if frame.type = typeACK && (s.pport port).live then
      match s.intact port frame with
      | (true, s) => (s.modPport port fun p => p.acked s.now frame.ackSeq).pumpPort port
      | (false, s) => s
    else s.stray port frame)

def execNak (port : Nat) (frame : Frame) (s : State) : Res :=
  .next (if frame.type = typeNAK && (s.pport port).live then
      match s.intact port frame with
      | (true, s) => (s.modPport port fun p => (p.acked s.now frame.ackSeq).replay (s.linkDir port) s.now).pumpPort port
      | (false, s) => s
    else s.stray port frame)

/-- Cumulative credits modulo 2^16. -/
def PPort.credit (p : PPort) (vc v : Nat) : PPort :=
  let got := (v + 2 ^ 16 - p.granted.getD vc 0 % 2 ^ 16) % 2 ^ 16
  { p with credits := p.credits.modify vc fun c => c + got, granted := p.granted.modify vc fun c => c + got }

def execCredit (port : Nat) (frame : Frame) (s : State) : Res :=
  .next (if frame.type = typeCREDIT && (s.pport port).live then
      match s.intact port frame with
      | (true, s) =>
        let v := fieldAt frame.payload 0 4
        (s.modPport port fun p => (p.credit 0 (bits 15 0 v)).credit 1 (bits 31 16 v)).pumpPort port
      | (false, s) => s
    else s.stray port frame)

/-- The answer to a PROBE: its form (0 OK, 1 END, 2 LOOP), the hops that it travelled, and the turnaround time, which PPort.stamp
writes when the reply leaves. -/
def State.answerProbe (s : State) (port : Nat) (f : Frame) (form : Nat) : State :=
  let hops := tOffset f.payload + 1 - f.hops
  let body := (transport s.passage.id (tXfer f.payload) (tOffset f.payload) false).take 12 ++
    leBytes 1 form ++ leBytes 1 hops ++ leBytes 2 0
  let f := mkFrame typeREPLY 0 hops body
  (s.modPport port fun p => { p with replyAt := p.replyAt ++ [(f, s.now)] }).sendFrame port f

def execProbe (port : Nat) (frame : Frame) (s : State) : Res :=
  .next (if frame.type != typePROBE then s.stray port frame else match s.accept port frame with
    | (false, s) => s
    | (true, s) =>
      let mine := tOrigin frame.payload = s.passage.id
      if !mine && 1 < frame.hops && (s.pport (1 - port)).state == .ready then s.relay port frame
      else (s.freeRx port frame).answerProbe port frame (if mine then 2 else if frame.hops ≤ 1 then 0 else 1))

/-- A reply of the hop measurement; the 64th makes the port READY (R340). -/
def State.hopReply (s : State) (port turnaround : Nat) : State :=
  let p := s.pport port
  let ns := min 255 (ceilDiv ((s.now - p.probeAt) * 10 - turnaround) 2)
  let s := s.modPport port fun p => { p with probes := p.probes + 1, hopNs := max p.hopNs ns }
  if (s.pport port).probes = 64 then
    let s := s.modPport port fun p => { p with state := .ready }
    if 200 < (s.pport port).hopNs then s.linkRecord port 6 0xD (s.pport port).hopNs else s
  else s

/-- The reply to a path probe (R343). The budget is an OUT entry's, and an OUT entry then takes up what it ships. -/
def State.pathReply (s : State) (j : Job) (sh : ShipSt) (form reached : Nat) : State :=
  let w := sh.words
  match sh.probeSent with
  | none => s
  | some t =>
    let lat := (s.now - t) * 10 / 2
    if form = 1 then s.failJob j.uid stLink reached
    else if form = 2 then s.failJob j.uid stInvalid sh.entry
    else if !sh.out then s.setShip j.uid { sh with probed := true, probeSent := none }
    else if shBudget w ≠ 0 ∧ shBudget w < lat then s.failJob j.uid stExhausted (lat % 2 ^ 24)
    else match s.anyBlocked j (s.shipReads j w) with
    | some s => s
    | none =>
      let im := s.shipImage j w
      s.setShip j.uid { sh with probed := true, probeSent := none, image := im, total := im.length, lastProgress := s.now }

def execProbeReply (port : Nat) (frame : Frame) (s : State) : Res :=
  .next (if frame.type != typeREPLY then s.stray port frame else match s.accept port frame with
    | (false, s) => s
    | (true, s) =>
      if 1 < frame.hops then s.relay port frame else
      let s := s.freeRx port frame
      if (s.pport port).state == .keying then s.hopReply port (fieldAt frame.payload 14 2)
      else match s.jobs.list.findSome? (fun j => j.ship?.bind fun sh =>
          if sh.port == port && !sh.probed && sh.probeSent.isSome && !j.finished && shTag sh.words == tXfer frame.payload then
            some (j, sh) else none) with
        | some (j, sh) => s.pathReply j sh (byteAt frame.payload 12) (byteAt frame.payload 13)
        | none => s)

/-- The pin holds: none is set, or it is the digest of the peer's identity certificate. -/
def PPort.pinHolds (p : PPort) (cert : List Byte) : Bool :=
  (p.pin.all fun w => w == 0) || sha384 cert == p.pin.flatMap fun w => leBytes 4 w.toNat

/-- A port takes part in an exchange: keyed or keying, or LOCKED after a write of REKEY (R339). -/
def PPort.exchanges (p : PPort) : Bool := p.state == .keying || p.state == .ready || (p.state == .locked && p.rekeying)

/-- The peer's KEYX frame: the exchange is complete once this side's has left too, which it starts if it has not. -/
def execKeyx (port : Nat) (frame : Frame) (met : KeyxMet) (s : State) : Res :=
  let p := s.pport port
  .next (if frame.type != typeKEYX then s.stray port frame
    else if !frame.crcOk || !p.exchanges then s
    else if !(met.signed && p.pinHolds met.cert) then
      (s.linkRecord port 7 0x11 0).modPport port fun p => { p with rekeying := true, lastKeyx := s.now }
    else
      let s := s.modPport port fun p => { p with peerKeyx := some frame.payload }
      (if p.rekeying then s else s.startKeyx port).tryKeys port)

def execDiscover (port : Nat) (frame : Frame) (s : State) : Res :=
  .next (if frame.type != typeDISCOVER then s.stray port frame
    else if (s.pport port).state != .discovery then s
    else match s.intact port frame with
      | (false, s) => s
      | (true, s) =>
        (s.modPport port fun p =>
          { p with
            peerId := fieldAt frame.payload 0 2, peerPort := fieldAt frame.payload 2 1 % 2, state := .keying }).startKeyx port)

/-! ## Link upkeep -/

/-- A port begins anew: full credits, sequence numbers from 0 (R334), and no keys (R363). Its counter goes on, so that no nonce
comes twice before the next key (R338). -/
def PPort.fresh (p : PPort) : PPort :=
  { p with
    txSeq := 0, rxSeq := 0, retry := [], waiting := [], relays := [], buffered := [], replyAt := [], replays := 0
    credits := [256, 256], granted := [0, 0]
    owed := [0, 0], told := [0, 0], unacked := 0, probes := 0, rxCtr := none, rxNew := false, rekeying := false
    txKey := [], rxKeys := [], ephemeral := none, peerKeyx := none }

/-- Whether SP can key a link: its Kadon runs. -/
def State.spKeys (s : State) : Bool := s.cpRunning 3

def execPortLinkUp (port : Nat) (s : State) : Res :=
  let p := s.pport port
  .next (if p.enable && (p.state == .down || p.state == .training) && s.spKeys && !s.dev.shutdownDone then
      (s.modPport port fun p => { p.fresh with state := .discovery, hopNs := 0 }).sendPlain port typeDISCOVER
        (leBytes 2 s.passage.id ++ leBytes 1 port ++ leBytes 13 0)
    else s)

/-- A port goes down: its frames and those that it relays, either way, are lost, its jobs fail, one LINK record; it retrains
unless it is disabled (R336). -/
def State.portFails (s : State) (n : Nat) (code : Nat) (next : PState) : State :=
  let s := (s.modPport n fun p => { p with waiting := [], buffered := [] }).settleRelays n
  let s := s.modPport (1 - n) fun p =>
    { p with waiting := p.waiting.diff (p.relays ++ p.buffered), relays := [], buffered := [] }
  let s := s.modPport n fun p => { p.fresh with state := next, events := satInc 0xFFFF p.events 1 }
  (s.failShips n).linkRecord n 6 0xE code

def PPort.isUp (p : PPort) : Bool := !(p.state == .down || p.state == .disabled)

/-- The PHY loses the link, or a SEQ has been replayed 16 times; a disabled port is PASSAGE_ENABLE's. -/
def execPortDown (port : Nat) (why : DownWhy) (s : State) : Res :=
  let p := s.pport port
  .next (if !p.isUp then s else match why with
    | .phy => s.portFails port 0 .training
    | .replayLimit => if 16 ≤ p.replays then s.portFails port 1 .training else s
    | .disabled => if p.enable then s else s.portFails port 2 .disabled)

def execReplayTimeout (port : Nat) (s : State) : Res :=
  .next (if !(s.pport port).retry.isEmpty && decide ((s.pport port).lastProgress + 400 ≤ s.now) && (s.pport port).live then
      s.modPport port fun p => p.replay (s.linkDir port) s.now
    else s)

def execAckTimer (port : Nat) (s : State) : Res :=
  let p := s.pport port
  .next (if p.live && decide (0 < p.unacked) && (decide (16 ≤ p.unacked) || decide (p.lastAck + 50 ≤ s.now)) then
      (s.sendPlain port typeACK []).modPport port fun p => { p with unacked := 0, lastAck := s.now }
    else s)

def execCreditTimer (port : Nat) (s : State) : Res :=
  let p := s.pport port
  .next (if p.live && p.owed != p.told && decide (p.lastCredit + 50 ≤ s.now) then
      let v := p.owed.getD 0 0 % 2 ^ 16 + 2 ^ 16 * (p.owed.getD 1 0 % 2 ^ 16)
      (s.sendPlain port typeCREDIT (leBytes 4 v ++ leBytes 12 0)).modPport port fun p =>
        { p with told := p.owed, lastCredit := s.now }
    else s)

def execRekeyThreshold (port : Nat) (s : State) : Res :=
  let p := s.pport port
  .next (if p.state == .ready && !p.rekeying && decide (2 ^ 32 ≤ p.txCtr) then s.startKeyx port else s)

def execPortLocked (port : Nat) (s : State) : Res :=
  let p := s.pport port
  .next (if p.state == .ready && decide (ctrLimit ≤ p.txCtr) then
      let s := s.modPport port fun p => { p with state := .locked, rekeying := false, ephemeral := none, peerKeyx := none }
      let s := { s with faults :=
        if port = 0 then { s.faults with portALocked := true } else { s.faults with portBLocked := true } }
      (s.failShips port).linkRecord port 7 0x12 0
    else s)

def execKeyxRetry (port : Nat) (s : State) : Res :=
  let p := s.pport port
  .next (if (p.state == .keying || p.rekeying) && p.isUp && decide (p.lastKeyx + 100 * msTicks ≤ s.now) then s.startKeyx port
    else s)

/-! ## End-to-end control -/

/-- READY from a receiving entry that names this module: the OUT entry whose PEER sent it probes its path. -/
def execXferReady (port : Nat) (ids : ShipIds) (tag : Nat) (s : State) : Res :=
  .next (if ids.peer != s.passage.id then s else
    match s.shipFor true port ids.origin tag with
    | none => s
    | some (j, sh) =>
      if sh.ready || j.state != .running || (s.pport port).state != .ready then s else
        (s.setShip j.uid { sh with ready := true, probeSent := some s.now, lastProgress := s.now }).probePath j sh)

/-- The shipping job of a number, its entry in progress. -/
def State.shipOf (s : State) (uid : Nat) : Option (Job × ShipSt) :=
  match s.job? uid with
  | none => none
  | some j => match j.ship? with
    | some sh => if !j.finished && decide (sh.entry < sh.count) then some (j, sh) else none
    | none => none

def execReadyResend (uid : Nat) (s : State) : Res :=
  .next (match s.shipOf uid with
    | none => s
    | some (j, sh) =>
      if !sh.out && !sh.ready && j.state == .running && decide (sh.lastReady + 10000 ≤ s.now) then
        (s.setShip uid { sh with lastReady := s.now }).shipControl j sh .ready
      else s)

/-- Progress of an OUT entry, which goes on from there where the receiver had it held; a final acknowledgement of everything sent
completes it, also when an ABORT crosses it. -/
def execE2eAck (uid : Nat) (offset : Nat) (final : Bool) (s : State) : Res :=
  .next (match s.shipOf uid with
    | none => s
    | some (j, sh) =>
      if !sh.out || !sh.probed || sh.sent < offset then s else
        let sh := { sh with
          acked := max sh.acked offset, sent := if sh.held then offset else sh.sent, held := false, lastProgress := s.now }
        let s := s.setShip uid sh
        if final && offset == sh.total && sh.sent == sh.total then
          let w := sh.words
          let s := match s.resident j.part (shSeq w) with
            | some q => if shMove w && !shBuffer w then s.releaseSeq q else s
            | none => s
          s.entryDone j sh
        else s)

/-- HOLD counts as progress: the other side waits without the timeout, and sends nothing. -/
def execXferHold (uid : Nat) (s : State) : Res :=
  .next (match s.shipOf uid with
    | none => s
    | some (_, sh) => s.setShip uid { sh with lastProgress := s.now, held := sh.out })

def execHoldTimer (uid : Nat) (s : State) : Res :=
  .next (match s.shipOf uid with
    | none => s
    | some (j, sh) =>
      if j.state == .suspended && decide (sh.lastHold + msTicks ≤ s.now) then
        (s.setShip uid { sh with lastHold := s.now }).shipControl j sh .hold
      else s)

/-- ABORT from the peer: the job ends CANCELLED, or ACCESS_DENIED where the peer found CONF unequal (R348, R349). -/
def execXferAbort (uid : Nat) (confMismatch : Bool) (s : State) : Res :=
  .next (match s.shipOf uid with
    | none => s
    | some (j, sh) =>
      if confMismatch then s.failJob uid stDenied sh.entry
      else if j.state == .cancelling then s
      else (s.withdraw uid).modJob uid fun j => { j with state := .cancelling, ending := some .cancel })

def execShipProgressTimeout (uid : Nat) (s : State) : Res :=
  .next (match s.shipOf uid with
    | none => s
    | some (j, sh) =>
      if (j.state == .running || j.state == .suspending) && sh.ready && decide (sh.lastProgress + 10 * msTicks ≤ s.now) then
        s.failJob uid stLink sh.entry
      else s)

def execProbeTimeout (uid : Nat) (s : State) : Res :=
  .next (match s.shipOf uid with
    | none => s
    | some (_, sh) => match sh.probeSent with
      | some t => if !sh.probed && decide (t + msTicks ≤ s.now) then s.failJob uid stLink sh.entry else s
      | none => s)

/-! ## Control registers -/

/-- REKEY starts a key exchange on a keyed or locked port. -/
def State.rekeyPort (s : State) (port : Nat) : State :=
  if (s.pport port).state == .ready || (s.pport port).state == .locked then s.startKeyx port else s

def execPassageRekey (fn : Fn) (port : Nat) (s : State) : Res :=
  .next (if fn == .pf && s.reaches fn then s.rekeyPort port else s)

/-- ENABLE cleared takes the port down and holds it; set again it trains. -/
def State.enablePort (s : State) (port : Nat) (enable : Bool) : State :=
  let p := s.pport port
  let s := s.modPport port fun p => { p with enable := enable }
  if enable then
    if p.state == .disabled then s.modPport port fun p => { p with state := .training } else s
  else if p.state == .disabled then s
  else if p.state == .down then s.modPport port fun p => { p with state := .disabled }
  else s.portFails port 2 .disabled

def execPassageEnable (fn : Fn) (port : Nat) (enable : Bool) (s : State) : Res :=
  .next (if fn == .pf && s.reaches fn then s.enablePort port enable else s)

end Sys2Proof.Machine
end

