-- ==== Sys2Proof/Machine/PartOps.lean ====
section
/-! DEFINITION. What the making, the ending and the loss of a partition's structures share: granules (R359, R461), tables
(R355 step 5), scrubbing (R357), and a partition without objects (R358, R278). Places in the reserve granule: log entry 15. -/

namespace Sys2Proof.Machine

/-! ## Granules -/

/-- A granule's cells, fills and old ciphertext are gone. -/
def State.forgetGranule (s : State) (g : Nat) : State :=
  let s := s.clearCells (g * granuleBytes) granuleBytes
  { s with mems := { s.mems with
    cipher := assocDel s.mems.cipher g
    fills := s.mems.fills.filter fun f => f.1 / granuleBytes != g } }

/-- Zeros written over a granule by Siphon (R359). -/
def State.zeroGranule (s : State) (g : Nat) : State :=
  (s.forgetGranule g).fill (g * granuleBytes) granuleBytes 0

def State.markGranule (s : State) (mark : DramMark) (g : Nat) : State :=
  let s := s.forgetGranule g
  { s with mems := { s.mems with cipher := assocSet s.mems.cipher g mark } }

/-- What a granule reads as once `key` is destroyed; one that held ciphertext already stays as it is. -/
def State.cipherMark (s : State) (key : List Byte) (g : Nat) : DramMark :=
  let cells := s.mems.bytes.filter fun c => c.1 / granuleBytes == g
  let fills := s.mems.fills.filter fun f => f.1 / granuleBytes == g
  match assoc s.mems.cipher g with
  | some (.sealed k c f u) => .sealed k c f u
  | some (.lost n) => .sealed key cells fills (some n)
  | none => .sealed key cells fills none

/-- A granule that leaves a confidential partition, or loses its key: ciphertext under the destroyed key. -/
def State.cipherGranule (s : State) (key : List Byte) (g : Nat) : State := s.markGranule (s.cipherMark key g) g

/-- A granule whose contents are lost: its bytes are free values. -/
def State.loseGranule (s : State) (g : Nat) : State := (s.markGranule (.lost s.free) g).drawFree

/-! ## Tables (R355 step 5, R461) -/

/-- Reserve staging region, prefix index, variant table and page table in the highest-numbered granule: all empty. -/
def State.reserveTables (s : State) (p : Nat) : State :=
  match maxBy id (s.part p).granules with
  | none => s.modPart p fun q => { q with staging := 0, pfxIndex := 0, variants := 0, pageTable := 0 }
  | some g =>
    let b := g * granuleBytes
    let s := ((s.fill (b + 0x10000000) 0x20000000 0).fill (b + 0x10000000) 0x80000 0xFF)
    s.modPart p fun q =>
      { q with staging := b, pfxIndex := b + 0x10000000, variants := b + 0x12100000, pageTable := b + 0x13000000 }

/-- A partition loses every managed object in DRAM: slots, sequences, moves, index, variants, pages and frames. -/
def State.dropObjects (s : State) (p : Nat) : State :=
  { s with
    slots := s.slots.filter fun t => t.part != p
    seqs := s.seqs.filter fun q => q.part != p
    moves := s.moves.filter fun m => m.part != p
    kvs := s.kvs.modify p fun k => { Kv.empty with epoch := k.epoch, lastAdvance := k.lastAdvance }
    parts := s.parts.modify p fun q => { q with ctr := { q.ctr with sumpUsed := 0, stagUsed := 0 } } }

/-! ## Scrubbing (R357) -/

/-- An engine's stores, contexts, pipeline and tags are cleared. -/
def State.scrubEngine (s : State) (e : Nat) : State :=
  (s.clearCells (localBase e) 0x300000).modEng e fun g =>
    { g with ctxs := [], leaving := [], ramp := Ramp.off, holder := none, freeSince := s.now }

/-- The partition that holds an engine, whether dedicated or shared. -/
def State.sharers (s : State) (e : Nat) : List Nat := (List.range 8).filter fun p => (s.part p).engines.contains e

/-! ## Pools (R194) -/

def poolCount (n : Nat) : Nat := if 2 ≤ n then max 1 (n / 4) else 0

end Sys2Proof.Machine
end

