-- ==== Sys2Proof/Machine/Partition.lean ====
section
/-! DEFINITION. Partitions: CREATE_PARTITION, DESTROY_PARTITION, QUANTUM_EXPIRY and ATTEST (R350 to R368, R460, R461). A create
or destroy that has passed its checks is one whole step (R460, log entry 11). -/

namespace Sys2Proof.Machine

/-! ## CREATE_PARTITION: the request (R32, R352, R353) -/

def cpPart (ws : List Nat) : Nat := bits 2 0 (wordAt ws 3)
def cpConf (ws : List Nat) : Bool := bit 8 (wordAt ws 3)
def cpPolicy (ws : List Nat) : Nat := bits 13 12 (wordAt ws 3)
def cpQp (ws : List Nat) (n : Nat) : Bool := bit n (wordAt ws 4 + 2 ^ 32 * wordAt ws 5)
def cpQps (ws : List Nat) : List Nat := (List.range 64).filter (cpQp ws)
def cpEngines (ws : List Nat) : List Nat := (List.range 32).filter fun e => bit e (wordAt ws 6)
def cpGranules (ws : List Nat) : Nat := bits 6 0 (wordAt ws 7)
def cpArg (ws : List Nat) : Nat := addr48 ws 8

def hSump (h : List Nat) : Nat := bits 11 0 (wordAt h 0)
def hShare (h : List Nat) : Bool := bit 12 (wordAt h 0)
def hVols (h : List Nat) : Nat := bits 19 16 (wordAt h 0)
def hQuantum (h : List Nat) : Nat := bits 16 0 (wordAt h 1)
def hKeyMode (h : List Nat) : Nat := bits 1 0 (wordAt h 2)
def hBlob (h : List Nat) : Nat := addr48 h 3

def veAction (w : List Nat) : Nat := bits 1 0 (wordAt w 0)
def veFast (w : List Nat) : Bool := bit 2 (wordAt w 0)
def veVolume (w : List Nat) : Nat := bits 13 8 (wordAt w 0)
def veFirst (w : List Nat) : Nat := bits 10 0 (wordAt w 1)
def veBands (w : List Nat) : Nat := bits 12 0 (wordAt w 2)

/-- One volume entry's fields. -/
def volFields (w : List Nat) : Bool :=
  bits 7 3 (wordAt w 0) == 0 && bits 31 14 (wordAt w 0) == 0 && bits 31 11 (wordAt w 1) == 0 &&
    bits 31 13 (wordAt w 2) == 0 && wordAt w 3 == 0 && decide (veAction w ≤ 2) &&
    (veAction w != 0 || (veBands w % 2 == 0 && decide (2 ≤ veBands w) && decide (veBands w ≤ 3584) &&
      decide (veFirst w + volSlots (veFast w) (veBands w) ≤ ringSlots)))

/-- The header's fields (R352). -/
def headFields (expert : Bool) (ws h : List Nat) : Bool :=
  bits 15 13 (wordAt h 0) == 0 && bits 31 20 (wordAt h 0) == 0 && decide (hVols h ≤ 8) && bits 31 17 (wordAt h 1) == 0 &&
    bits 31 2 (wordAt h 2) == 0 && bits 31 16 (wordAt h 4) == 0 && ((List.range' 5 11).all fun i => wordAt h i == 0) &&
    (if cpPart ws = 0 then
      bits 15 0 (wordAt h 0) == 0 && wordAt h 1 == 0 && wordAt h 2 == 0 && wordAt ws 4 == 0 && wordAt ws 5 == 0 &&
        wordAt ws 6 == 0 && cpGranules ws == 0 && bits 10 8 (wordAt ws 3) == 0
    else
      decide (1 ≤ hSump h) && decide (hSump h ≤ 3840) && decide (hKeyMode h ≤ 2) && (expert || hKeyMode h == 0) &&
        (hQuantum h == 0 || (decide (100 ≤ hQuantum h) && decide (hQuantum h ≤ 100000))) &&
        decide (1 ≤ cpGranules ws) && decide (cpGranules ws ≤ 90))

/-! ## Volume entries (R292, R353, R354) -/

def Volume.span (v : Volume) : Nat × Nat := (v.first, volSlots v.fast v.bands)

def newVolume (p : Nat) (conf : Bool) (w : List Nat) : Volume :=
  { num := veVolume w, fast := veFast w, conf := conf, owner := p, first := veFirst w, bands := veBands w, sealed := false
    keyCheck := [] }

/-- A volume backs a loaded slot. -/
def State.volBacks (s : State) (v : Volume) : Bool := s.backs v.num 0 (16 * v.bands)

def State.volProtected (s : State) (v : Volume) : Bool :=
  (List.range v.span.2).any fun i => s.slotLocked (v.first + i)

/-- What volume entries make of the table: the volumes that there are then, and those deleted on the way. -/
structure VolPlan where
  table : List Volume
  gone : List Volume
  deriving DecidableEq, Repr

/-- Check one entry against the table as the entries before it leave it: the status that refuses it, or the new plan. -/
def State.volEntry (s : State) (p : Nat) (conf : Bool) (plan : VolPlan) (w : List Nat) : Nat ⊕ VolPlan :=
  let vols := plan.table
  let old := vols.find? fun v => v.num == veVolume w
  let others := vols.filter fun v => v.num != veVolume w
  match veAction w, old with
  | 0, none =>
    let v := newVolume p conf w
    if vols.all fun u => apart u.span v.span then .inr { plan with table := vols ++ [v] } else .inl stInvalid
  | 1, some v =>
    if v.owner = 0 && v.conf == conf && !s.volBacks v then
      .inr { plan with table := others ++ [{ v with owner := p, sealed := false }] }
    else .inl stInvalid
  | 2, some v =>
    if v.owner ≠ 0 || s.volBacks v then .inl stInvalid
    else if s.volProtected v then .inl stProtected
    else .inr { table := others, gone := plan.gone ++ [v] }
  | _, _ => .inl stInvalid

def State.volTable (s : State) (p : Nat) (conf : Bool) (ws : List (List Nat)) : Nat ⊕ VolPlan :=
  ws.foldl (fun r w => match r with
    | .inl st => .inl st
    | .inr plan => s.volEntry p conf plan w) (.inr { table := s.flash.volumes, gone := [] })

/-- A volume's write pointers and torn marks are gone. -/
def State.dropMarks (s : State) (vol : Nat) : State :=
  let f := s.flash
  { s with flash := { f with
      wps := f.wps.filter fun x => x.1 != vol, torn := f.torn.filter fun x => x.1 != vol } }

/-- Erase the blocks of a deleted volume's slots under R303: whether every die could. -/
def State.eraseVolume (s : State) (v : Volume) : Bool × State :=
  let r := (List.range (32 * v.span.2)).foldl (fun r i =>
    if r.1 then
      let d := i / v.span.2
      State.ownErase r.2 d ((State.die r.2 d).phys (v.first + i % v.span.2)) v.fast
    else r) (true, s)
  if r.1 then (true, State.dropMarks r.2 v.num) else r

/-! ## The checks (R354) -/

/-- The data key that an IMPORT unwraps; a blob of another version does not open. -/
def State.importKey (s : State) (h : List Nat) : Option (List Byte) :=
  let b := s.bytesAt (hBlob h) 80
  if fieldAt b 0 4 = 1 ∧ fieldAt b 4 4 = 0 then kwUnwrap wrappingKey (b.drop 8) else none

def keyCheckOf (key : List Byte) : List Byte := (sha384 key).take 8

/-- Another partition would lose its last engine. -/
def State.stripped (s : State) (p : Nat) (es : List Nat) : Bool :=
  (List.range 8).any fun r => r != p && !(s.part r).engines.isEmpty && (s.part r).engines.all fun e => es.contains e

/-- A sealed volume to adopt whose key check differs. -/
def State.sealedBad (s : State) (h : List Nat) (vs : List (List Nat)) : Bool :=
  vs.any fun w => veAction w == 1 && (match s.volume? (veVolume w) with
    | some v => v.sealed && (match if hKeyMode h = 2 then s.importKey h else none with
      | some k => keyCheckOf k != v.keyCheck
      | none => true)
    | none => false)

/-- The first check before those on keys that fails, or the volumes to be. -/
def State.createCheck (s : State) (j : Job) (h : List Nat) (vs : List (List Nat)) : Nat ⊕ VolPlan :=
  let ws := j.words
  let p := cpPart ws
  let conf := cpConf ws
  if (p ≠ 0 && (s.part p).valid) || !headFields j.expert ws h || !vs.all volFields then .inl stInvalid
  else if p ≠ 0 && ((cpQps ws).any fun n => (s.qp n).part != 0 || (s.qp n).enabled) then .inl stInvalid
  else if p ≠ 0 && ((cpQps ws).isEmpty || (cpEngines ws).isEmpty || (cpEngines ws).any fun e => (s.eng e).mappedOut) then
    .inl stInvalid
  else if p ≠ 0 && !hShare h && s.stripped p (cpEngines ws) then .inl stExhausted
  else if p ≠ 0 && (decide ((s.spareGranules 0).length < cpGranules ws) ||
      decide ((s.part 0).sumpQuota - (s.part 0).ctr.sumpUsed < hSump h)) then .inl stExhausted
  else match s.volTable p conf vs with
    | .inl st => .inl st
    | .inr vols =>
      if conf && (s.ownFn p != .vf p || s.sec.debugActive) then .inl stDenied else .inr vols

/-- The checks on keys, once the blob can be read. -/
def State.keyCheck (s : State) (conf : Bool) (h : List Nat) (vs : List (List Nat)) : Option Nat :=
  if s.sealedBad h vs || (conf && hKeyMode h == 2 && (s.importKey h).isNone) then some stDenied
  else if conf && hKeyMode h != 2 && s.sec.rng.state != .serving then some stRng
  else none

/-- The key blob of a confidential partition, read by IMPORT and written by GENERATE_EXPORT. -/
def State.blobBlocked (s : State) (j : Job) (h : List Nat) : Option State :=
  if cpPart j.words = 0 || !cpConf j.words then none
  else if hKeyMode h = 2 then s.blocked j (hBlob h) 80
  else if hKeyMode h = 1 then s.blockedOut j (hBlob h) 80
  else none

/-! ## Applying it (R355, R356, R364) -/

/-- Take engines from every other partition for a dedicated owner, scrub them, and re-run the tasks that they held. -/
def State.takeEngines (s : State) (p : Nat) (es : List Nat) : State :=
  let tasks := es.flatMap fun e => (s.eng e).tasks.map fun w => (e, w)
  let s := { s with parts := s.parts.map fun (q : Part) => { q with engines := q.engines.filter fun e => !es.contains e } }
  let s := es.foldl (fun s e => ((s.scrubEngine e).modEng e fun g => { g with placed := [] }).switchXfers e) s
  let s := tasks.foldl (fun s x => s.rerun x.1 x.2) s
  s.modPart p fun q => { q with engines := es }

/-- The data key under KEY_MODE: the partition's key, and a blob for GENERATE_EXPORT. -/
def State.takeKey (s : State) (j : Job) (p : Nat) (h : List Nat) : State :=
  let set (s : State) (key : List Byte) (imported : Bool) : State :=
    let s := { s with sec := { s.sec with keys := s.sec.keys + 1 } }
    s.modPart p fun q => { q with
      key := key, keyCheck := keyCheckOf key, keyImported := imported, keyGen := s.sec.keys }
  if hKeyMode h = 2 then set (s.spWork 72) ((s.importKey h).getD []) true
  else match s.rngAsk (.dataKey j.uid) with
    | (none, s) => s
    | (some n, s) =>
      let key := drbgBytes n 64
      let s := set s key false
      if hKeyMode h = 1 then
        (s.spWork 72).store (hBlob h) (leBytes 4 1 ++ leBytes 4 0 ++ kwWrap wrappingKey key)
      else s

/-- Erase the deleted volumes: whether every die could. Once one cannot, the table stays (log entry 109). -/
def State.eraseGone (s : State) (gone : List Volume) : Bool × State :=
  gone.foldl (fun r v => if r.1 then State.eraseVolume r.2 v else r) (true, s)

def State.setVolumes (s : State) (vols : List Volume) : State := { s with flash := { s.flash with volumes := vols } }

/-- R355, when every check has passed. -/
def State.applyCreate (s : State) (j : Job) (h : List Nat) (vols : List Volume) : State :=
  let ws := j.words
  let p := cpPart ws
  if p = 0 then s.setVolumes vols else
    let es := cpEngines ws
    let gs := (sortBy (fun a b => decide (a < b)) (s.spareGranules 0)).take (cpGranules ws)
    let s := { s with qps := s.qps.zipIdx.map fun (x : Qp × Nat) => if cpQp ws x.2 then { x.1 with part := p } else x.1 }
    let s := s.modPart 0 fun q => { q with
      sumpQuota := q.sumpQuota - hSump h, granules := q.granules.filter fun g => !gs.contains g }
    let s := gs.foldl (fun s g => s.zeroGranule g) s
    let s := s.modPart p fun _ => { Part.absent with
      valid := true, conf := cpConf ws, expert := bit 9 (wordAt ws 3), powerPriv := bit 10 (wordAt ws 3)
      policy := if cpPolicy ws = 2 then 2 else 1, share := hShare h
      quantumUs := if hQuantum h = 0 then 2000 else hQuantum h, granules := gs, sumpQuota := hSump h
      prefillCount := poolCount es.length }
    let s := { s with kvs := s.kvs.set p { Kv.empty with lastAdvance := s.now } }
    let s := if hShare h then s.modPart p fun q => { q with engines := es } else s.takeEngines p es
    let s := if cpConf ws then s.takeKey j p h else s
    let check := (s.part p).keyCheck
    let s := s.setVolumes (vols.map fun (v : Volume) => if v.owner == p && v.conf then { v with keyCheck := check } else v)
    s.reserveTables p

def State.runCreate (s : State) (j : Job) : State :=
  let a := cpArg j.words
  let h := s.wordsAt a 16
  let vs := (List.range (hVols h)).map fun i => s.wordsAt (a + 64 + 16 * i) 4
  match s.anyBlocked j [(a, 64), (a + 64, 16 * hVols h)] with
  | some s => s
  | none => match s.createCheck j h vs with
    | .inl st => s.failJob j.uid st noResult
    | .inr plan => match s.blobBlocked j h with
      | some s => s
      | none => match s.keyCheck (cpConf j.words) h vs with
        | some st => s.failJob j.uid st noResult
        | none => match s.eraseGone plan.gone with
          | (true, s) => (s.applyCreate j h plan.table).finishUid j.uid (cpPart j.words)
          | (false, s) => s.failJob j.uid stFault noResult

def execCreatePartition (uid : Nat) (s : State) : Res :=
  .next (match s.starting uid 0x40 with
    | some (j, t) => t.runCreate j
    | none => s)

/-! ## DESTROY_PARTITION (R358, R359, R362) -/

/-- Granules return to PT0: zeros, or ciphertext under the destroyed key. -/
def State.returnGranules (s : State) (p : Nat) : State :=
  let q := s.part p
  let s := q.granules.foldl (fun s g => if q.conf then s.cipherGranule q.key g else s.zeroGranule g) s
  s.modPart 0 fun z => { z with
    granules := sortBy (fun a b => decide (a < b)) (z.granules ++ q.granules), sumpQuota := z.sumpQuota + q.sumpQuota }

/-- Engines leave the partition; those that it held are scrubbed, and one that nobody holds goes to PT0. -/
def State.returnEngines (s : State) (p : Nat) : State :=
  let es := (s.part p).engines
  let s := es.foldl (fun s e =>
    let h := (s.eng e).holder
    let s := if h == some p || h.isNone then s.scrubEngine e else s
    s.modEng e fun g => { g.keepCtxs s.now (fun x => x.part != p) with placed := g.placed.filter fun w => w.part != p }) s
  let s := s.modPart p fun q => { q with engines := [] }
  let free := es.filter fun e => (s.sharers e).isEmpty
  s.modPart 0 fun z => { z with engines := sortBy (fun a b => decide (a < b)) (z.engines ++ free) }

/-- Volumes return to PT0, the confidential ones sealed. -/
def State.returnVolumes (s : State) (p : Nat) : State :=
  { s with flash := { s.flash with volumes := s.flash.volumes.map fun (v : Volume) =>
    if v.owner == p then { v with owner := 0, sealed := v.conf } else v } }

/-- The merge windows, the merge records and the firmware working data that hold the partition's data are scrubbed (R357). -/
def State.scrubSlices (s : State) (p : Nat) : State :=
  let s := (s.jobs.slices.filter fun x => x.1 == p).foldl (fun s x => s.clearCells x.2.1 x.2.2) s
  { s with jobs := { s.jobs with slices := s.jobs.slices.filter fun x => x.1 != p } }

/-- Flash operations of the partition's cancelled jobs that have started end before the key goes (R358 step 3; that each
verifies is DESIGN CHOICE, log entry 11). -/
def State.endOps (s : State) (p : Nat) : State :=
  let ours (s : State) (o : FOp) : Bool := (s.job? o.uid).any fun j => j.part == p && j.state == .cancelling
  let s := (List.range 32).foldl (fun s d => ((s.die d).ops.filter (ours s)).foldl (fun s o =>
    if o.kind == .read then s.endOp d o else s.opDone d o .verified) s) s
  (s.jobs.list.filter fun j => j.part == p && j.state == .cancelling && !j.finished).foldl (fun s j => s.endWithdrawal j) s

/-- Steps 1 to 6, but for the job `keep`: the number of jobs cancelled, and the state. -/
def State.endPartition (s : State) (p keep : Nat) : Nat × State :=
  let s := (s.qpsOf p).foldl (fun s n => s.disableQp n true) s
  let mine := (s.partJobs p).filter fun j => j.uid != keep && !j.finished
  let s := (mine.foldl (fun s j => s.endSilently j) (s.scrubSlices p)).endOps p
  let s := { s with sec := { s.sec with crypto := s.sec.crypto.filter fun c => c.requester != p } }
  let s := (((s.dropObjects p).returnGranules p).returnEngines p).returnVolumes p
  let s := { s with qps := s.qps.map fun (q : Qp) => if q.part == p then { q with part := 0 } else q }
  (mine.length, { s with parts := s.parts.set p Part.absent, kvs := s.kvs.set p Kv.empty })

def execDestroyPartition (uid : Nat) (s : State) : Res :=
  .next (match s.starting uid 0x41 with
    | none => s
    | some (j, t) =>
      let p := bits 2 0 (wordAt j.words 3)
      if p = 0 || !(t.part p).valid then t.failJob uid stInvalid noResult
      else let r := t.endPartition p uid; r.2.finishUid uid r.1)

/-! ## QUANTUM_EXPIRY (R356, R357) -/

/-- A placed task of a partition: loaded again from its record when the partition next holds the engine. -/
def State.quantumEnds (s : State) (e next : Nat) : State :=
  let g := s.eng e
  let tasks := (g.ctxs.filter fun x => x.state != .faulted).map fun x => x.placed x.runs x.lastChance none
  let keep := g.placed ++ tasks
  let s := (s.scrubEngine e).modEng e fun g => { g with placed := [], holder := some next, holdSince := s.now }
  keep.foldl (fun s w => s.placeTask e w) (s.switchXfers e)

def execQuantumExpiry (eng : Nat) (s : State) : Res :=
  let g := s.eng eng
  .next (match g.holder with
    | none => s
    | some p =>
      let spent := decide (g.holdSince + (s.part p).quantumUs * usTicks ≤ s.now) || g.ctxs.all fun x => x.part != p
      let claims (r : Nat) : Bool := r != p && (s.sharers eng).contains r && g.placed.any fun w => w.part == r
      match cyclicFind 8 p claims with
      | some r => if spent && !g.mappedOut then s.quantumEnds eng r else s
      | none => s)

/-! ## ATTEST (R365 to R368) -/

def maskOf (l : List Nat) : Nat := (l.map fun i => 2 ^ i).sum

/-- PARTITION[p] of the report. -/
def State.reportPart (s : State) (p : Nat) : List Byte :=
  let q := s.part p
  if !q.valid then List.replicate 32 0 else
    leBytes 1 (1 + 2 * b2n q.conf + 4 * b2n q.expert + 8 * b2n q.powerPriv + 16 * b2n q.keyImported) ++
      leBytes 1 (q.policy + 4 * b2n q.share) ++ leBytes 2 0 ++ leBytes 8 (maskOf (s.qpsOf p)) ++ leBytes 4 (maskOf q.engines) ++
      leBytes 8 (maskOf ((s.flash.volumes.filter fun v => v.owner == p).map Volume.num)) ++ leBytes 2 q.granules.length ++
      leBytes 2 q.sumpQuota ++ leBytes 4 0

/-- SLOT[n] of the report for a requesting partition. -/
def State.reportSlot (s : State) (req n : Nat) : List Byte :=
  match s.slots.find? fun t => t.idx == n && t.loaded with
  | none => List.replicate 64 0
  | some t =>
    (if t.part = req then (t.digest ++ List.replicate 48 0).take 48 else List.replicate 48 0) ++ leBytes 1 (t.part + 8) ++
      List.replicate 15 0

def idBytes : List Byte := (List.range 16).map Config.deviceId
def certBytes : List Byte := (List.range Config.certLength).map Config.certByte
def romBytes : List Byte := (List.range 48).map Config.romDigest

def State.confMask (s : State) : Nat := maskOf ((List.range 8).filter s.conf)
def State.ideMask (s : State) : Nat := maskOf ((List.range 8).filter fun n => s.link.ide.getD n false)

/-- STATE of the report. -/
def State.stateWord (s : State) : Nat :=
  b2n Config.debugFused + 2 * b2n s.sec.debugActive + 4 * b2n s.trace.enable + 2 ^ 8 * min 255 s.sec.fwUpdates

def pad48 (l : List Byte) : List Byte := (l ++ List.replicate 48 0).take 48

/-- Bytes 0 to 1,711 of the report. -/
def State.reportBody (s : State) (req : Nat) (nonce : List Byte) : List Byte :=
  [0x41, 0x58, 0x4D, 0x52, 0x45, 0x50, 0x52, 0x54] ++ leBytes 4 1 ++ leBytes 4 1808 ++ idBytes ++ sha384 certBytes ++
    [0xB0] ++ leBytes 1 req ++ leBytes 1 s.confMask ++ leBytes 1 s.ideMask ++ leBytes 4 s.stateWord ++ leBytes 8 s.now ++
    fuseBytes ++ romBytes ++ ((List.range 4).flatMap fun i => pad48 (s.cp i).digest) ++
    ((List.range 4).flatMap fun i => leBytes 4 (s.cp i).version) ++ (List.range 8).flatMap s.reportPart ++
    (List.range 16).flatMap (s.reportSlot req) ++ nonce

def State.runAttest (s : State) (j : Job) : State :=
  let ws := j.words
  let nonce := addr48 ws 4
  match (s.blocked j nonce 32).or (s.blockedOut j (addr48 ws 6) 1808) with
  | some s => s
  | none =>
    let body := s.reportBody j.part (s.bytesAt nonce 32)
    ((s.spWork body.length).store (addr48 ws 6) (body ++ signed body)).finishUid j.uid 1808

def execAttest (uid : Nat) (s : State) : Res :=
  .next (match s.starting uid 0x42 with
    | some (j, t) => t.runAttest j
    | none => s)

end Sys2Proof.Machine
end

