-- ==== Sys2Proof/Machine/Security.lean ====
section
/-! DEFINITION. Randomness and the crypto engine: RNG_HEALTH_FAIL, RNG_RETEST_END, RNG_RETEST, DRBG_RESEED and CRYPTO_SEGMENT
(R370 to R373). -/

namespace Sys2Proof.Machine

def State.modRng (s : State) (f : Rng → Rng) : State := { s with sec := { s.sec with rng := f s.sec.rng } }

/-- A health-test failure while the DRBG serves: it stops, and a re-test runs (R371 steps 1 and 2). -/
def execRngHealthFail (s : State) : Res :=
  .next (if s.sec.rng.state == .serving then
      (s.raise 0x61 7 0x14 none 0 0).modRng fun r => { r with state := .retesting, retests := 1 }
    else s)

/-- The queue is served in order from fresh output (R371 step 3). -/
def Rng.serve (r : Rng) (now : Nat) : Rng :=
  { r with state := .serving, failed := false, retests := 0, queue := [], requests := r.queue.length, draws := r.draws + r.queue.length
           lastReseed := now }

/-- The Passage exchanges that waited go on: each sends its KEYX frame. -/
def State.serveQueue (s : State) : State :=
  let r := s.sec.rng
  r.queue.zipIdx.foldl (fun s u => match u.1 with
    | .passage n => if (s.pport n).rekeying then (s.sendKeyx n (r.draws + u.2)).tryKeys n else s
    | _ => s) (s.modRng fun r => r.serve s.now)

/-- The third failed re-test: RNG_FAILED, and the queue gets RNG_UNAVAILABLE (R371 step 4). -/
def State.rngFails (s : State) : State :=
  (s.raise 0x61 7 0x15 none 0 s.sec.rng.retests).modRng fun r => { r with state := .failed, failed := true, queue := [] }

/-- A re-test, or the one start-up test that RETEST starts, has ended. -/
def execRngRetestEnd (passed : Bool) (s : State) : Res :=
  .next (match s.sec.rng.state with
    | .retesting =>
      if passed then s.serveQueue
      else if s.sec.rng.retests < 3 then s.modRng fun r => { r with retests := r.retests + 1 }
      else s.rngFails
    | _ => s)

/-- SEC_RNG_CTL.RETEST in FAILED: one start-up test, during which RNG_FAILED stands; failing it leads back to FAILED. The
partitions block, in which the register lies, ignores writes before READY (R436). -/
def State.rngRetest (s : State) : State :=
  if s.dev.ready && s.sec.rng.state == .failed then s.modRng fun r => { r with state := .retesting, retests := 3 } else s

def execRngRetest (fn : Fn) (s : State) : Res := .next (if fn == .pf && s.reaches fn then s.rngRetest else s)

/-- The DRBG reseeds after 2^20 requests, and once a second. -/
def execDrbgReseed (s : State) : Res :=
  .next (let r := s.sec.rng
    if r.state == .serving && (decide (2 ^ 20 ≤ r.requests) || decide (r.lastReseed + 1000 * msTicks ≤ s.now)) then
      s.modRng fun r => { r with requests := 0, lastReseed := s.now }
    else s)

/-! ## The crypto engine -/

/-- A message that can take a segment: it holds a context, or one of 16 is free. -/
def Sec.ready (x : Sec) (c : CMsg) : Bool := c.context || decide ((x.crypto.filter CMsg.context).length < 16)

/-- The next message of a requester, in turn. -/
def Sec.nextOf (x : Sec) (r : Nat) : Option CMsg := x.crypto.find? fun c => c.requester == r && x.ready c

/-- Serve one 4 KiB segment of a message; an unfinished one goes behind its requester's others. -/
def Sec.segment (x : Sec) (c : CMsg) : Sec :=
  let rest := x.crypto.erase c
  { x with
    lastServed := c.requester
    crypto := if c.left ≤ 4096 then rest else rest ++ [{ c with left := c.left - 4096, context := true }] }

def execCryptoSegment (s : State) : Res :=
  .next (match cyclicFind 9 s.sec.lastServed fun r => (s.sec.nextOf r).isSome with
    | none => s
    | some r => match s.sec.nextOf r with
      | none => s
      | some c => { s with sec := s.sec.segment c })

end Sys2Proof.Machine
end

