-- ==== Sys2Proof/Machine/VisionOps.lean ====
section
/-! DEFINITION. The argument block of VISION_FRAME (R232, R233), and the job and header that the vision intake runs. -/

namespace Sys2Proof.Machine

/-! ## The argument block (R232) -/

structure VHdr where
  rgb : Bool
  colour : Nat
  fill : Bool              -- BORDER 1: taps outside take FILL
  p : Nat
  s8 : Bool
  w : Nat
  h : Nat
  ow : Nat
  oh : Nat
  mw : Nat
  mh : Nat
  src : Nat
  uv : Nat
  progress : Nat
  stage : Nat
  stride : Nat
  uvStride : Nat
  mesh : Nat
  mean : List F32
  inv : List F32
  border : F32
  deriving DecidableEq, Repr

def State.vwords (s : State) (j : Job) : List Nat := s.wordsAt (dArg j.words) 32

def vhdr (w : List Nat) : VHdr :=
  let f (i : Nat) : F32 := BitVec.ofNat 32 (wordAt w i)
  { rgb := bit 0 (wordAt w 0), colour := bits 2 1 (wordAt w 0), fill := bit 3 (wordAt w 0)
    p := if bit 4 (wordAt w 0) then 16 else 14, s8 := bit 5 (wordAt w 0), w := bits 13 0 (wordAt w 1)
    h := bits 29 16 (wordAt w 1), ow := bits 11 0 (wordAt w 2), oh := bits 27 16 (wordAt w 2), mw := bits 6 0 (wordAt w 3)
    mh := bits 14 8 (wordAt w 3), src := addr48 w 4, uv := addr48 w 6, progress := addr48 w 8, stage := addr48 w 10
    stride := bits 15 0 (wordAt w 12), uvStride := bits 31 16 (wordAt w 12), mesh := addr48 w 13
    mean := [f 15, f 16, f 17], inv := [f 18, f 19, f 20], border := f 21 }

/-- The header of the job that the intake runs. -/
def State.visionHdr (s : State) : VHdr := vhdr s.vision.block

def VHdr.rowBytes (v : VHdr) : Nat := if v.rgb then 3 * v.w else v.w
/-- Where the UV rows lie in the staging buffer. -/
def VHdr.stageUv (v : VHdr) : Nat := v.stage + v.stride * v.h
def VHdr.stageBytes (v : VHdr) : Nat := v.stride * v.h + if v.rgb then 0 else v.uvStride * v.h / 2
def VHdr.rows (v : VHdr) : Nat := (v.ow / v.p) * (v.oh / v.p)
def VHdr.elems (v : VHdr) : Nat := if v.p = 16 then 768 else 640
def VHdr.outRow (v : VHdr) : Nat := if v.s8 then v.elems else 2 * v.elems
def VHdr.meshBytes (v : VHdr) : Nat := 8 * v.mw * v.mh

/-- Bytes of the source planes that the intake reads. -/
def VHdr.srcBytes (v : VHdr) : Nat := v.stride * (v.h - 1) + v.rowBytes
def VHdr.uvBytes (v : VHdr) : Nat := v.uvStride * (v.h / 2 - 1) + v.w

/-- The job that the intake runs. -/
def State.visionJob (s : State) : Option Job := s.vision.job.bind s.job?

end Sys2Proof.Machine
end

