-- ==== Sys2Proof/Machine/DramCtl.lean ====
section
/-! DEFINITION. The DRAM controller (R266 to R287, R440): interleave, requests and responses, arbitration, refresh,
training and map-out. The requests model the controller's own behaviour; the data of engines and Siphon is read directly
(log entry 17). -/

namespace Sys2Proof.Machine

/-! ## Requests (R281 to R283) -/

/-- Urgency of a port whose oldest outstanding request has waited `ticks` (R281). -/
def urgencyOf (target ticks : Nat) : Nat :=
  let age := 10 * ticks
  if target ≤ age then 3 else if 3 * target ≤ 4 * age then 2 else if target ≤ 2 * age then 1 else 0

/-- Outstanding requests of a port: held, or in a queue. -/
def State.outstanding (s : State) (port : Nat) : List Req :=
  (s.dport port).held ++ s.dram.chans.flatMap fun c => c.queue.filter fun r => r.port == port

def State.urgencyNow (s : State) (port : Nat) : Nat :=
  match minBy Req.arrival ((s.outstanding port).filter fun r => !r.scrub) with
  | none => 0
  | some r => urgencyOf (s.dport port).targetNs (s.now - r.arrival)

/-- Bytes of the granted request that have not started on the bus: one 64-byte burst every 3.33 ns. -/
def bytesLeft (r : Req) (g : Grant) (now : Nat) : Nat := r.len - 64 * (3 * (now - g.started) + 1)

/-- The urgency at which a request competes: its port's, or NORMAL for the scrubber's (R270). -/
def State.reqUrgency (s : State) (r : Req) : Nat := if r.scrub then 0 else (s.dport r.port).urgency

/-- Every port's urgency at this cycle. -/
def State.evalUrgency (s : State) : State :=
  { s with dram := { s.dram with ports := s.dram.ports.zipIdx.map fun p => { p.1 with urgency := s.urgencyNow p.2 } } }

/-- Revoke a grant that is not reserved, of a NORMAL port with more than 64 bytes to start, while a CRITICAL request is
queued (R286). -/
def State.revoke (s : State) (ch : Nat) : State :=
  match (s.chan ch).grant with
  | none => s
  | some g => match (s.chan ch).queue.find? fun r => r.id == g.req with
    | none => s
    | some r =>
      let critical := (s.chan ch).queue.any fun q => s.reqUrgency q == 3
      if !g.reserved && s.reqUrgency r == 0 && critical && decide (64 < bytesLeft r g s.now) then
        s.modChan ch fun c => { c with grant := none }
      else s

/-- Urgency is evaluated anew, and what it revokes is revoked (R281, R286). -/
def State.reconsider (s : State) : State := (List.range 24).foldl (fun s ch => s.revoke ch) s.evalUrgency

/-- Whether a request may enter its channel's queue. -/
def Chan.room (c : Chan) (r : Req) : Bool :=
  decide (c.queue.length < 64) && (r.write.isNone || decide ((c.queue.filter fun q => q.write.isSome).length < 16))

def State.reqChan (s : State) (r : Req) : Nat := (dramLoc s.activeChans r.addr).chan

def Chan.enter (c : Chan) (now : Nat) (r : Req) : Chan :=
  { c with queue := c.queue ++ [r], powerDown := false, idleSince := now }

/-- A request is accepted (R283): a write is pending from now on, and every later read of its bytes, from any port, finds them; a
read has the value that the youngest write accepted before it gave. -/
def State.acceptReq (s : State) (ch : Nat) (r : Req) : State :=
  match r.write with
  | some bs => (s.put r.addr bs).modChan ch fun c => c.enter s.now r
  | none => s.modChan ch fun c => c.enter s.now { r with snap := s.bytesAt r.addr r.len }

/-- The request enters its queue, or is held: behind an earlier held one of its port for the channel, or without a place. -/
def State.present (s : State) (r : Req) : State :=
  let ch := s.reqChan r
  let behind := (s.dport r.port).held.any fun h => s.reqChan h == ch
  if behind || !(s.chan ch).room r then s.modDport r.port fun p => { p with held := p.held ++ [r] }
  else s.acceptReq ch r

/-- A port issues a request. -/
def State.issueReq (s : State) (port addr len : Nat) (write : Option (List Byte)) (scrub : Bool)
    (single bad : List Nat) : State :=
  let r : Req :=
    { id := s.dram.nextReq, port := port, addr := addr, len := len, write := write, arrival := s.now, scrub := scrub
      single := single, bad := bad }
  let s := { s with dram := { s.dram with nextReq := s.dram.nextReq + 1 } }
  (s.modDport port fun p => { p with order := p.order ++ [r.id] }).present r

def execDramRequest (port addr len : Nat) (write : Option (List Byte)) (s : State) : Res :=
  .next (if decide (port < 44) && decide (1 ≤ len) && addr / 256 == (addr + len - 1) / 256 &&
      decide ((addr + len - 1) / granuleBytes < s.dram.granulesBacked) && (write.all fun bs => bs.length == len) then
      (s.issueReq port addr len write false [] []).reconsider
    else s)

/-- A port's level changes with the age of its oldest request: levels of one cycle are evaluated together. -/
def execUrgencyChange (port : Nat) (s : State) : Res := .next (if port < 44 then s.reconsider else s)

/-! ## The crossing (R284, R285) -/

/-- Rank, bank and row of an ECC block: two ranks of 16 banks (R266). -/
def dramPlace (block : Nat) : Nat × Nat × Nat :=
  let p := Config.dramPlace block
  (p.1 % 2, p.2.1 % 16, p.2.2)

def State.hits (s : State) (ch : Nat) (r : Req) : Bool :=
  (s.chan ch).openRows.contains (dramPlace (dramLoc s.activeChans r.addr).block)

/-- Rank of a request: urgency, row hit, age, lower port. -/
def State.outranks (s : State) (ch : Nat) (a b : Req) : Bool :=
  let u := s.reqUrgency
  decide (u b < u a) || (u a == u b &&
    ((s.hits ch a && !s.hits ch b) || (s.hits ch a == s.hits ch b &&
      (decide (a.arrival < b.arrival) || (a.arrival == b.arrival && decide (a.port < b.port))))))

def State.best (s : State) (ch : Nat) : List Req → Option Req
  | [] => none
  | a :: rest => match State.best s ch rest with
    | none => some a
    | some b => if s.outranks ch b a then some b else some a

/-- Requests that touch one 64-byte unit, one of them a write. -/
def Req.conflicts (a b : Req) : Bool :=
  (a.write.isSome || b.write.isSome) && decide (a.addr / 64 ≤ (b.addr + b.len - 1) / 64) &&
    decide (b.addr / 64 ≤ (a.addr + a.len - 1) / 64)

/-- Requests that a grant may go to: acceptance has fixed the order of a write and of what it overlaps (R283; log entry 93). -/
def grantable : List Req → List Req → List Req
  | _, [] => []
  | before, r :: rest =>
    if r.write.isSome && before.any r.conflicts then grantable (before ++ [r]) rest else r :: grantable (before ++ [r]) rest

/-- The next grant: every eighth is reserved for the oldest request. -/
def execCrossingGrant (ch : Nat) (s : State) : Res :=
  .next (if (s.chan ch).grant.isSome || !(s.chan ch).active then s else
    let s := s.evalUrgency
    let reserved := (s.chan ch).grantCount % 8 == 7
    let free := grantable [] (s.chan ch).queue
    match if reserved then minBy Req.arrival free else s.best ch free with
    | none => s
    | some r =>
      let place := dramPlace (dramLoc s.activeChans r.addr).block
      s.modChan ch fun c =>
        { c with
          grant := some { req := r.id, reserved := reserved, started := s.now }, grantCount := c.grantCount + 1
          openRows := place :: c.openRows.filter fun o => !(o.1 == place.1 && o.2.1 == place.2.1) })

/-! ## Completion (R270, R282, R283) -/

/-- Answers go to the port in the order in which it issued its requests. -/
def Port.deliver : Nat → Port → Port
  | 0, p => p
  | fuel + 1, p => match p.order with
    | [] => p
    | id :: rest => match p.early.find? fun e => e.1 == id with
      | none => p
      | some e => Port.deliver fuel { p with order := rest, early := p.early.erase e, answered := e :: p.answered }

def State.answer (s : State) (port id : Nat) (data : Option (List Byte)) : State :=
  s.modDport port fun p => Port.deliver (p.early.length + 1) { p with early := p.early ++ [(id, data)] }

/-- The oldest held request of a channel enters its queue while there is a place. -/
def State.admitHeld (s : State) (ch : Nat) : Nat → State
  | 0 => s
  | fuel + 1 =>
    let held := s.dram.ports.flatMap fun p => (p.held.find? fun r => s.reqChan r == ch).toList
    match minBy Req.arrival (held.filter (s.chan ch).room) with
    | none => s
    | some r =>
      State.admitHeld ((s.modDport r.port fun p => { p with held := p.held.erase r }).acceptReq ch r) ch fuel

/-- The granted request of a channel. -/
def State.granted (s : State) (ch : Nat) : Option Req :=
  match (s.chan ch).grant with
  | none => none
  | some g => (s.chan ch).queue.find? fun r => r.id == g.req

/-- The request leaves its queue, and its place is filled. -/
def State.leaveQueue (s : State) (ch : Nat) (r : Req) : State :=
  ((s.modChan ch fun c => { c with queue := c.queue.erase r, grant := none, idleSince := s.now }).admitHeld ch 64).reconsider

/-- The byte of the youngest pending write to an address, of those accepted before a read. -/
def pendingAt (before : List Req) (a : Nat) : Option Byte :=
  before.reverse.findSome? fun w => match w.write with
    | some bs => if w.addr ≤ a ∧ a < w.addr + w.len then bs[a - w.addr]? else none
    | none => none

/-- The words of which a read needs a byte from the array. -/
def arrayWords (before : List Req) (r : Req) : List Nat :=
  (wordsOf r.addr r.len).filter fun w => (List.range 32).any fun i =>
    decide (r.addr ≤ 32 * w + i) && decide (32 * w + i < r.addr + r.len) && (pendingAt before (32 * w + i)).isNone

/-- Count corrected words, and enter one occurrence for each bad one. -/
def State.wordErrors (s : State) (ch : Nat) (corrected : Nat) (bad : List Nat) : State :=
  let s := s.modChan ch fun c => { c with corrected := satInc top32 c.corrected corrected }
  s.reportWords bad

/-- An error response on the intake's port, for a word of the staging buffer or the mesh, ends the frame's job (R240). -/
def State.answerVision (s : State) (port : Nat) (lost : List Nat) : State :=
  match if port = 38 then s.visionJob else none with
  | none => s
  | some j =>
    let v := s.visionHdr
    let touches (a n w : Nat) : Bool := decide (a / 32 ≤ w) && decide (32 * w < a + n)
    if lost.any fun w => touches v.stage v.stageBytes w || touches v.mesh v.meshBytes w then
      (s.scramblePatches j).failJob' j.uid stData
    else s

/-- `single` and `bad` are the words, as device address ÷ 32, whose read meets a single-bit or an uncorrectable error; data from a
wrong location is uncorrectable (R268). A scrubber's read meets those of its request too. A word whose bytes all come from
pending writes is not read. -/
def execDramReadComplete (ch : Nat) (single bad : List Nat) (s : State) : Res :=
  .next (match s.granted ch with
    | none => s
    | some r =>
      if r.write.isSome then s else
        let before := (s.chan ch).queue.takeWhile fun q => q.id != r.id
        let ws := arrayWords before r
        let lost := ws.filter fun w => bad.contains w || r.bad.contains w || s.dram.poisoned.contains w
        let s := s.wordErrors ch (ws.filter fun w => (single.contains w || r.single.contains w) && !lost.contains w).length lost
        ((s.answer r.port r.id (if lost.isEmpty then some r.snap else none)).leaveQueue ch r).answerVision r.port lost)

/-- A pending write is stored: every reader has had its bytes since its acceptance. A word that it covers in part is read and
merged; where that read is uncorrectable the word becomes poisoned. -/
def execDramWriteComplete (ch : Nat) (single bad : List Nat) (s : State) : Res :=
  .next (match s.granted ch with
    | none => s
    | some r => match r.write with
      | none => s
      | some _ =>
        let whole (w : Nat) : Bool := decide (r.addr ≤ 32 * w) && decide (32 * w + 32 ≤ r.addr + r.len)
        let ws := wordsOf r.addr r.len
        let part := ws.filter fun w => !whole w
        let lost := part.filter fun w => bad.contains w || s.dram.poisoned.contains w
        let s := s.wordErrors ch (part.filter fun w => single.contains w && !lost.contains w).length lost
        let left := s.dram.poisoned.filter fun w => !lost.contains w
        let s := { s with dram := { s.dram with poisoned := lost ++ left } }
        (s.answer r.port r.id (some [])).leaveQueue ch r)

/-! ## Scrub, refresh, temperature (R270, R272, R273) -/

def chanUnits : Nat := 15728640

/-- The patrol scrubber reads the next data unit of a channel, through port 42. `single` and `bad` are the words in which the array
holds a single-bit error and one beyond correction; the read's completion corrects and reports them. -/
def execPatrolScrub (ch unit : Nat) (single bad : List Nat) (s : State) : Res :=
  let a := s.activeChans
  .next (if (s.chan ch).active && unit == (s.chan ch).scrubNext then
      ((s.issueReq 42 (unitAddr a ((a.findIdx? fun n => n == ch).getD 0) unit) 256 none true single bad).modChan ch fun c =>
        { c with scrubNext := (unit + 1) % chanUnits }).reconsider
    else s)

/-- One bank is refreshed every tREFIpb ÷ M: 488 ns at multiplier 1. -/
def execPerBankRefresh (ch : Nat) (s : State) : Res :=
  let c := s.chan ch
  .next (if c.active && decide (488 ≤ 10 * (s.now - c.lastRefresh) * s.dram.mult.getD (ch / 4) 1) then
      s.modChan ch fun c =>
        { c with
          openRows := c.openRows.filter fun o => o.2.1 != c.nextBank, nextBank := (c.nextBank + 1) % 16, lastRefresh := s.now
          refreshes := c.refreshes + 1 }
    else s)

/-- A package's request is honoured at once. -/
def execRefreshManagement (ch bank : Nat) (s : State) : Res :=
  .next (if (s.chan ch).active then
      s.modChan ch fun c =>
        { c with rfm := c.rfm + 1, openRows := c.openRows.filter fun o => !(o.2.1 == bank % 16 && o.1 == bank / 16) }
    else s)

/-- Refresh multiplier and over-temperature of each package; a package that becomes too hot raises one record from its lowest
channel, and the power manager throttles until none is. -/
def execTempReadout (readings : List (Nat × Bool)) (s : State) : Res :=
  let newly := (List.range 6).filter fun k => (readings.getD k (1, false)).2 && !s.dram.overTemp.getD k false
  let s := newly.foldl (fun s k => s.raise (0x20 + 4 * k) 0xB 0 none 0 0) s
  let hot := (List.range 6).map fun k => (readings.getD k (1, false)).2
  .next { s with
    dram := { s.dram with mult := (List.range 6).map fun k => max 1 (readings.getD k (1, false)).1, overTemp := hot }
    power := { s.power with dramHot := hot.any id } }

/-! ## Map-out (R278, R279) -/

/-- Error responses to every request queued at, or held for, a channel, each one occurrence. -/
def State.failRequests (s : State) (ch : Nat) : State :=
  let mine := (s.chan ch).queue ++ s.dram.ports.flatMap fun p => p.held.filter fun r => s.reqChan r == ch
  let s := mine.foldl (fun s r => (s.raise (0x20 + ch) 5 0 none 0 0).answer r.port r.id none) s
  let ports := s.dram.ports.map fun (p : Port) => { p with held := p.held.filter fun r => !mine.contains r }
  { s with dram := { s.dram with ports := ports } }.modChan ch fun c => { c with queue := [], grant := none }

/-- Requests of the other channels are placed again under the new interleave. -/
def State.setBacked (s : State) : State :=
  { s with dram := { s.dram with granulesBacked := backedGranules s.activeChans.length } }

/-- Lost contents, and structures reserved anew in what each partition keeps (R278 steps 4 and 5). -/
def State.rebuildDram (s : State) : State :=
  let s := s.setBacked
  let s := (List.range 90).foldl (fun s g => s.loseGranule g) s
  let s := { s with
    dram := { s.dram with poisoned := [] }
    parts := s.parts.map fun (q : Part) => { q with granules := q.granules.filter fun g => decide (g < s.dram.granulesBacked) } }
  (List.range 8).foldl (fun s p => if (s.part p).valid then (s.dropObjects p).reserveTables p else s) s

/-- Fewer than 16 active channels: DEVICE_FAULT. -/
def State.faultIfFew (s : State) : State :=
  if s.activeChans.length < 16 then s.setFault else s

/-- A channel leaves the active set. -/
def State.leaveActive (s : State) (ch : Nat) : State :=
  let s := s.modChan ch fun c => { c with active := false }
  { s with faults := { s.faults with channelsOut := s.faults.channelsOut + 1 } }

/-- Map a channel out while the device runs. -/
def State.mapOutChannel (s : State) (ch : Nat) : State :=
  if (s.chan ch).active then
    let t := ((s.raise (0x20 + ch) 5 2 none 0 0).failRequests ch).failAllJobs
    (((t.leaveActive ch).rebuildDram).faultIfFew).traceEvent (0x20 + ch) 2
  else s

def execChannelMapOut (ch : Nat) (s : State) : Res := .next (if s.dev.ready then s.mapOutChannel ch else s)

/-! ## Drift and retraining (R276) -/

/-- CP2 moves the delays by the measured drift, in ps. -/
def execDriftTrack (ch : Nat) (drift : Int) (s : State) : Res :=
  .next (if (s.chan ch).active && s.cpRunning 2 then s.modChan ch fun c => { c with drift := c.drift + drift } else s)

/-- The passing ranges of the read and the write delays, those of steps 3 and 4: the delays that the drift moves. -/
def Chan.rwDelays (c : Chan) : List (Int × Int) := (c.trained.drop 2).flatMap Sweep.delays

/-- What is programmed: the centre of each passing range of a step's delays and Vrefs, the read and write delays moved by the
drift. -/
def Chan.programmed (c : Chan) (step : Nat) : List Int × List Nat :=
  let w := c.trained.getD step { delays := [], vrefs := [] }
  (w.delays.map fun r => (r.1 + r.2) / 2 + if 2 ≤ step then c.drift else 0, w.vrefs.map fun r => (r.1 + r.2) / 2)

/-- The drift would take a delay out of its passing range less 8 ps on either side. -/
def Chan.drifted (c : Chan) : Bool :=
  c.rwDelays.any fun r =>
    let x := (r.1 + r.2) / 2 + c.drift
    decide (x < r.1 + 8) || decide (r.2 - 8 < x)

/-- Whether a channel must be retrained: its drift, or 16 uncorrectable errors within 1 s. -/
def State.mustRetrain (s : State) (ch : Nat) : Bool :=
  (s.chan ch).drifted || decide (16 ≤ ((s.chan ch).errTimes.filter fun t => decide (s.now ≤ t + 1000 * msTicks)).length)

/-- An attempt at a training step (1 to 4) sweeps what R274 names: some delays in steps 1 and 2, a delay for each of 16 lanes and one
Vref in steps 3 and 4. -/
def Sweep.shaped (w : Sweep) (step : Nat) : Bool :=
  if step ≤ 2 then !w.delays.isEmpty else w.delays.length == 16 && w.vrefs.length == 1

/-- It passes: ranges of at least 26 ps, three codes of each Vref (R275). -/
def Sweep.passes (w : Sweep) : Bool :=
  (w.delays.all fun r => decide (26 ≤ r.2 - r.1)) && w.vrefs.all fun r => decide (r.1 + 3 ≤ r.2 + 1)

/-- The attempt of a step that the device programs: the first, or the repeated one; none where both fail. -/
def trainStep (step : Nat) (attempts : List Sweep) : Option Sweep :=
  (attempts.take 2).find? fun w => Sweep.shaped w step && Sweep.passes w

/-- What the steps `first` to 4 leave; none where a step has failed twice. -/
def trainSteps (first : Nat) (steps : List (List Sweep)) : Option (List Sweep) :=
  (List.range' first (5 - first)).mapM fun k => trainStep k (steps.getD (k - first) [])

/-- CP2 retrains a channel by steps 2 to 5; only the FIFOs are used, so the array keeps its contents. -/
def execChannelRetrain (ch : Nat) (steps : List (List Sweep)) (s : State) : Res :=
  .next (if (s.chan ch).active && s.cpRunning 2 && s.mustRetrain ch then
      match trainSteps 2 steps with
      | some ws => s.modChan ch fun c =>
        { c with drift := 0, errTimes := [], retrains := c.retrains + 1, trained := c.trained.take 1 ++ ws }
      | none => s.mapOutChannel ch
    else s)

/-- A channel without a queued request for 1 µs. -/
def execPowerDownEntry (ch : Nat) (s : State) : Res :=
  .next (if (s.chan ch).active && (s.chan ch).queue.isEmpty && decide ((s.chan ch).idleSince + usTicks ≤ s.now) then
      s.modChan ch fun c => { c with powerDown := true }
    else s)

/-! ## Training at start-up (R274, R278, R423) -/

/-- What a channel's training leaves; none for a channel without a working setting. -/
def ChanTraining.result (c : ChanTraining) : Option (List Sweep) := if c.arrayError then none else trainSteps 1 c.steps

/-- CP2 trains every channel. The pattern of step 6 is left in 64 KiB of every bank: where banks lie is not given, so what DRAM
holds afterwards is free (log entry 94). -/
def execDramTraining (found : List ChanTraining) (s : State) : Res :=
  .next (if s.dev.stage == .training && !s.dram.trained && s.cpRunning 2 then
      let got (n : Nat) : Option (List Sweep) := found[n]?.bind ChanTraining.result
      let s := s.loseDram
      let chans := s.dram.chans.zipIdx.map fun (x : Chan × Nat) =>
        { x.1 with
          active := (got x.2).isSome, trained := (got x.2).getD [], drift := 0, idleSince := s.now, lastRefresh := s.now }
      let out := (List.range 24).filter fun n => (got n).isNone
      let s : State := { s with
        dram := { s.dram with chans := chans, trained := true }, faults := { s.faults with channelsOut := out.length } }
      (out.foldl (fun (s : State) c => s.later (0x20 + c) 5 2 0) s.setBacked).faultIfFew
    else s)

/-! ## Training helpers (R277, R440) -/

/-- A helper command has been started and has not finished: never between two whole steps. -/
def trainArray (v : Nat) : Bool := bit 5 v

/-- DRAM_TRAIN_CMD after a write: reserved bits and GO read 0, and a reserved PATTERN leaves that field as it was (R431). -/
def trainCmdOf (old v : Nat) : Nat :=
  let pattern := if bits 10 8 v < 5 then bits 10 8 v else bits 10 8 old
  bits 5 0 v + 2 ^ 8 * pattern + 2 ^ 11 * bits 27 11 v

/-- Bursts of a row: 2,048 bytes of 64. -/
def rowBursts : Nat := 32

/-- Bit `n` of a PRBS15 sequence, x^15 + x^14 + 1 from the state 1 (PRESUMED, log entry 130: R277 gives no polynomial). -/
def prbsBit (n : Nat) : Bool :=
  bit 0 (Nat.rec 1 (fun _ x => x / 2 + 2 ^ 14 * ((x + x / 2) % 2)) (n % 32767))

/-- Bit of lane `l` at beat `t` of patterns 0 to 2: PRBS15, a walking one, a walking zero. The phase is not given. -/
def laneBit (pattern t l : Nat) : Bool :=
  if pattern = 0 then prbsBit (t + Config.patternPhase 0 l)
  else ((t + Config.patternPhase pattern 0) % 16 == l) == (pattern == 1)

/-- Byte `i` of burst `b` of a pattern: a burst is 32 beats of 16 lanes, lanes 0 to 7 of a beat in its even byte. -/
def helperByte (pattern : Nat) (user : Word) (b i : Nat) : Byte :=
  if pattern = 3 then (if i % 2 = 0 then 0x55 else 0xAA)
  else if pattern = 4 then BitVec.ofNat 8 (user.toNat / 2 ^ (8 * (i % 4)))
  else BitVec.ofNat 8 ((List.range 8).map fun k => b2n (laneBit pattern (32 * b + i / 2) (8 * (i % 2) + k)) * 2 ^ k).sum

/-- What an array location holds: burst `b` counted from row 0 of the rank and bank. -/
def State.rawByte (s : State) (ch place b i : Nat) : Byte :=
  match s.dram.arrays.find? fun r => r.chan == ch && r.place == place && decide (rowBursts * r.row ≤ b) &&
      decide (b < rowBursts * r.row + r.bursts) with
  | some r => helperByte r.pattern r.user (b - rowBursts * r.row) i
  | none => Config.rawByte ch place b i

/-- Bits of lane `l` in which two bytes of a burst differ: byte `i` holds lanes 8 * (i mod 2) on, of one beat. -/
def laneDiff (l i : Nat) (a b : Byte) : Nat := b2n (i % 2 == l / 8 && (a ^^^ b).getLsbD (l % 8))

/-- What a helper command's run from the registers' settings is. -/
def State.helperRun (s : State) (ch v : Nat) : ArrayRun :=
  { chan := ch, place := bits 4 0 s.dram.trainAddr.toNat, row := bits 20 5 s.dram.trainAddr.toNat, bursts := bits 27 12 v + 1
    pattern := bits 10 8 s.dram.trainCmd.toNat, user := s.dram.trainUser }

/-- Bit errors of a lane: those of the link, and with COMPARE_ONLY on an array those that the contents have. -/
def State.laneCount (s : State) (v : Nat) (r : ArrayRun) (l : Nat) : Nat :=
  Config.laneErrors s.free l % (32 * r.bursts + 1) +
    if trainArray v && bit 11 v then
      ((List.range r.bursts).map fun b => ((List.range 64).map fun i =>
        laneDiff l i (s.rawByte r.chan r.place (rowBursts * r.row + b) i) (helperByte r.pattern r.user b i)).sum).sum
    else 0

/-- A helper command runs: an ARRAY one without COMPARE_ONLY writes its pattern first; then lanes and errors are counted. -/
def State.runHelper (s : State) (ch v : Nat) : State :=
  let r := s.helperRun ch v
  let counts := (List.range 16).map (s.laneCount v r)
  let lanes := (counts.zipIdx.map fun c => if c.1 = 0 then 0 else 2 ^ c.2).sum
  { s with
    free := s.free + 1
    dram := { s.dram with
      arrays := if trainArray v && !bit 11 v then r :: s.dram.arrays else s.dram.arrays
      trainResult := BitVec.ofNat 32 (lanes + 2 ^ 16 + 2 ^ 18 * min 16383 counts.sum) } }

/-- A write of DRAM_TRAIN_CMD; with GO the command runs, or is refused (R277, R440). -/
def State.trainCommand (s : State) (v : Nat) : State :=
  if !(s.part 0).expert then s else
    let s := { s with dram := { s.dram with trainCmd := BitVec.ofNat 32 (trainCmdOf s.dram.trainCmd.toNat v) } }
    if !bit 31 v then s else
      let ch := bits 4 0 v
      let absolute := bit 31 s.dram.trainOffset.toNat
      if decide (24 ≤ ch) || ((s.chan ch).active && (trainArray v || absolute)) then
        { s with dram := { s.dram with trainResult := 2 ^ 17 } }
      else s.runHelper ch v

def execDramTrainGo (fn : Fn) (value : Word) (s : State) : Res :=
  .next (if fn == .pf && s.reaches fn then s.trainCommand value.toNat else s)

end Sys2Proof.Machine
end

