-- ==== Sys2Proof/Machine/EchoUnit.lean ====
section
/-! DEFINITION. Echo (R175 to R185): ECHO_SEARCH, ECHO_WORK_UNIT and ECHO_AGING. -/

namespace Sys2Proof.Machine

/-! ## Scores (R178) -/

/-- Descending order of scores, NaN above +∞. -/
def scoreAbove (a b : F32) : Bool := if fIsNaN a then !fIsNaN b else !fIsNaN b && flt b a

/-- The score of a summary (lo, hi, u) against a query group. -/
def summaryScore (rows : List (F32 × List Byte)) (lo hi : List Byte) (u : F32) : F32 :=
  let val (b : Byte) : Int := sext 8 b.toNat
  let bound (r : F32 × List Byte) : F32 :=
    let i := (List.zipWith (fun q (x : Byte × Byte) => max (val q * val x.1) (val q * val x.2)) r.2 (lo.zip hi)).sum
    fmul (fmul (f32Int i) u) r.1
  match rows.map bound with
  | [] => f32NegInf
  | a :: rest => rest.foldl fmax a

/-- The first `n` of (index, score) in descending score, ties to the lower index. -/
def topScores (n : Nat) (l : List (Nat × F32)) : List (Nat × F32) :=
  (sortBy (fun a b => scoreAbove a.2 b.2 || (!scoreAbove b.2 a.2 && decide (a.1 < b.1))) l).take n

/-! ## Retrieval units (R179) -/

/-- The setting of the retrieval's sequence entry. -/
def State.unitSetting (s : State) (u : EchoUnit) : Nat :=
  match s.job? u.uid with
  | some { ext := .serve ents _ _ _, .. } => ((ents.find? fun e => e.index == u.ent).map Ent.retrieval).getD 0
  | _ => 0

def State.modRetrieval (s : State) (uid seq layer head : Nat) (f : Retrieval → Retrieval) : State :=
  { s with echo := { s.echo with retrievals := s.echo.retrievals.map fun r => if r.isFor uid seq layer head then f r else r } }

def State.queueUnit (s : State) (u : EchoUnit) : State := { s with echo := { s.echo with queue := s.echo.queue ++ [u] } }

/-- Candidates: pages 1 to F - W - 1. -/
def candidates (f w : Nat) : List Nat := List.range' 1 (f - w - 1)

/-- The bad summary of a unit's reads, by block or page index. -/
def echoBad (m : EchoMet) (i : Nat) : Bool :=
  match m with
  | .badSummary k => k == i
  | _ => false

/-- Score of a level-1 record. -/
def l1Score (bad : Bool) (rows : List (F32 × List Byte)) (r : L1) : F32 :=
  if bad || fIsNaN r.u1 then f32Inf else summaryScore rows r.lo r.hi r.u1

/-- Poisoned words of a block's record and unit. -/
def State.badL1 (s : State) (f : SumFrame) (b : Nat) : List Nat :=
  s.badWords (f.recAddr b) (2 * f.dim) ++ s.badWords (f.unitAddr b) 4

/-- The level-1 scan: score the non-empty blocks that hold a candidate and keep the top B1. A block whose record cannot be read
scores +∞, and the channel that holds the record reports it (R185). -/
def State.level1Scan (s : State) (u : EchoUnit) (seq layer head : Nat) (met : EchoMet) : State :=
  match s.seq? seq, s.echo.retrievals.find? fun r => r.isFor u.uid seq layer head with
  | some q, some r =>
    let set := s.unitSetting u
    let cs := candidates (q.headPages layer head) (rWindow set)
    let recs := ((cs.map fun n => n / 16).eraseDups.filterMap fun b => (s.sumFrame u.part seq layer head b).map fun f => (b, f))
    let full := recs.filter fun x => (s.readL1 x.2 x.1).u1 != 0 || echoBad met x.1 || !(s.badL1 x.2 x.1).isEmpty
    let score (x : Nat × SumFrame) : F32 := l1Score (echoBad met x.1 || !(s.badL1 x.2 x.1).isEmpty) r.rows (s.readL1 x.2 x.1)
    let kept := topScores (min (ceilDiv (rPages set) 8) full.length) (full.map fun x => (x.1, score x))
    let s := full.foldl (fun s x =>
      if echoBad met x.1 then s.dramWordError (x.2.recAddr x.1) else s.reportWords (s.badL1 x.2 x.1)) s
    (s.modRetrieval u.uid seq layer head fun r => { r with blocks := kept }).queueUnit
      { u with kind := .level0 seq layer head, arrived := s.now, aged := false }
  | _, _ => s

/-- The unit u of a page, from its key scales (R137). -/
def pageUnit (s4 : Bool) (d : Nat) (side : List Byte) : F32 :=
  let p := maxAbs ((side.take d).map fun b => ue5m3Val b.toNat)
  toF32 (if s4 then p.mul (.fin false 1 16) else p)

/-- Score of a candidate page; one without a level-0 summary in DRAM takes its block's. -/
def State.pageScore (s : State) (p epoch i : Nat) (bad : Bool) (rows : List (F32 × List Byte)) (block : F32) : F32 :=
  match s.pageFor p epoch i with
  | none => block
  | some e =>
    if bad || e.nanKeys then f32Inf else
      let side := s.bytesAt e.sidecar (sidecarBytes e.dim)
      let lo := side.drop (3 * e.dim / 2 + 64)
      summaryScore rows (lo.take e.dim) ((lo.drop e.dim).take e.dim) (pageUnit e.fmtS4 e.dim side)

/-- Poisoned words of what a score reads of a page's sidecar: its key scales and its level-0 summary. -/
def State.badL0 (s : State) (p epoch i : Nat) : List Nat :=
  match s.pageFor p epoch i with
  | none => []
  | some e => (s.badWords e.sidecar e.dim ++ s.badWords (e.sidecar + 3 * e.dim / 2 + 64) (2 * e.dim)).eraseDups

/-- A chosen page that is not in DRAM is fetched, under the deadline of R260. -/
def State.wantChosen (s : State) (u : EchoUnit) (d layer head seq n i : Nat) : State :=
  s.wantPage u.part i
    { uid := u.uid, deadline := some d, exact := false, path := .undecided, layer := layer, seq := seq, head := head, index := n }

/-- The SELECT record of a finished list (R383). -/
def State.traceSelect (s : State) (u : EchoUnit) (q : Seq) (layer head : Nat) (pages : List Nat) : State :=
  match s.job? u.uid with
  | none => s
  | some j =>
    let h := fnv1a (wordsBytes pages)
    s.tracePart 0x06 u.part j.qp [j.jobId, q.handle, layer, head, pages.length, h % 2 ^ 32, h / 2 ^ 32]

/-- The finished list goes to the job's list area, and Echo signals the counter that the job's attention tasks wait on (R174,
R180; log entry 82); without a frame for it the job ends. -/
def State.finishList (s : State) (u : EchoUnit) (j : Job) (q : Seq) (layer head : Nat) (pages : List Nat) : State :=
  match s.placeList j q layer head pages true with
  | none => s.failJob' u.uid stExhausted
  | some (a, s) =>
    let s := s.modRetrieval u.uid q.idx layer head fun r => { r with pages := pages, list := a, len := pages.length, done := true }
    match j.ctrs with
    | some c => s.signal (c.1 + 15) 0x69 (some u.part)
    | none => s

/-- The level-0 scan: score the candidates of the kept blocks, keep the top P, write the list, and have the chosen pages that
are not in DRAM fetched by tick `d`. The list has one TAIL entry, of index F: where page F is full, not yet flushed, and F + 1 is
open, the rules do not say whether both are listed (DESIGN CHOICE, log entry 118). -/
def State.level0Scan (s : State) (u : EchoUnit) (d seq layer head : Nat) (met : EchoMet) : State :=
  match s.seq? seq, s.echo.retrievals.find? fun r => r.isFor u.uid seq layer head, s.job? u.uid with
  | some q, some r, some j =>
    let set := s.unitSetting u
    let f := q.headPages layer head
    let w := rWindow set
    let bad (n i : Nat) : Bool := echoBad met n || !(s.badL0 u.part j.epoch i).isEmpty
    let scored := (candidates f w).filterMap fun n =>
      match r.blocks.find? fun b => b.1 == n / 16, q.pageAt layer head n with
      | some b, some i => some (n, i, s.pageScore u.part j.epoch i (bad n i) r.rows b.2)
      | _, _ => none
    let chosen := sortBy (fun a b => decide (a < b)) ((topScores (rPages set) (scored.map fun x => (x.1, x.2.2))).map Prod.fst)
    let tail := (s.kv u.part).groups.any fun g =>
      g.seq == seq && g.layer == layer && g.head == head && !g.spec && g.flushed.isNone
    let pages := 0 :: chosen ++ List.range' (f - w) w ++ if tail then [f] else []
    let s := scored.foldl (fun s x =>
      if echoBad met x.1 then s.dramWordError (s.pte u.part x.2.1).sidecar else s.reportWords (s.badL0 u.part j.epoch x.2.1)) s
    let s := (s.traceSelect u q layer head pages).finishList u j q layer head pages
    pages.foldl (fun s n => match q.pageAt layer head n with
      | some i => s.wantChosen u d layer head seq n i
      | none => s) s
  | _, _, _ => s

/-! ## ECHO_SEARCH (R181 to R184) -/

/-- The header's fields. -/
structure SearchHdr where
  table : Nat
  scales : Nat
  query : Nat
  filter : Nat
  first : Nat
  rows : Nat
  dim : Nat
  s4 : Bool
  group : Nat
  deriving DecidableEq, Repr

def State.searchHdr (s : State) (j : Job) : SearchHdr :=
  let w := s.wordsAt (dArg j.words) 16
  { table := addr48 w 0, scales := addr48 w 2, query := addr48 w 4, filter := addr48 w 6, first := bits 26 0 (wordAt w 8)
    rows := bits 26 0 (wordAt w 9), dim := bits 11 0 (wordAt w 10), s4 := bits 15 12 (wordAt w 10) == 0
    group := 32 * 2 ^ bits 17 16 (wordAt w 10) }

def SearchHdr.rowBytes (h : SearchHdr) : Nat := if h.s4 then h.dim / 2 else h.dim
def SearchHdr.scaleBytes (h : SearchHdr) : Nat := h.dim / h.group

/-- Reserved bits and ranges of the header. -/
def hdrWordsOk (w : List Nat) : Bool :=
  ([1, 3, 5, 7].all fun i => bits 31 16 (wordAt w i) == 0) && bits 31 27 (wordAt w 8) == 0 && bits 31 27 (wordAt w 9) == 0 &&
    bits 31 18 (wordAt w 10) == 0 && ((List.range' 11 5).all fun i => wordAt w i == 0) &&
    (bits 15 12 (wordAt w 10) == 0 || bits 15 12 (wordAt w 10) == 4) && bits 17 16 (wordAt w 10) != 3

/-- R181 and R182. -/
def State.searchOk (s : State) (j : Job) : Bool :=
  let h := s.searchHdr j
  let p := j.part
  hdrWordsOk (s.wordsAt (dArg j.words) 16) && decide (1 ≤ h.rows) && decide (h.rows ≤ 67108864) && decide (128 ≤ h.dim) &&
    decide (h.dim ≤ 2048) && h.dim % h.group == 0 && h.table % 64 == 0 && decide (h.first + h.rows ≤ 67108864) &&
    s.inDram p h.table 1 && s.inDram p h.scales 1 && (h.filter == 0 || s.inDram p h.filter 1) &&
    s.inDram p (h.table + h.first * h.rowBytes) (h.rows * h.rowBytes) &&
    s.inDram p (h.scales + h.first * h.scaleBytes) (h.rows * h.scaleBytes) &&
    (h.filter == 0 || s.inDram p (h.filter + h.first / 8) ((h.first + h.rows + 7) / 8 - h.first / 8)) &&
    s.inDramHost p h.query (2 * h.dim * dCount j.words) && s.inDramHost p (dOut j.words) (8 * searchK j * dCount j.words)

/-- Rows of a search chunk (R183). -/
def SearchHdr.chunk (h : SearchHdr) : Nat := max 64 (1048576 / (h.rowBytes + h.scaleBytes) / 64 * 64)

/-- A query in groups: scale and codes; the count of saturations. -/
def State.searchQuery (s : State) (h : SearchHdr) (k : Nat) : List (Nat × List Nat × Nat) :=
  (List.range (h.dim / h.group)).map fun g =>
    decodeGroup ((List.range h.group).map fun i => bf16Val (s.readN (h.query + 2 * (h.dim * k + h.group * g + i)) 2))

/-- A row's group scales. -/
def State.rowScales (s : State) (h : SearchHdr) (i : Nat) : List Nat :=
  (s.bytesAt (h.scales + i * h.scaleBytes) h.scaleBytes).map BitVec.toNat

/-- The score of a row against a query: one accumulation over the groups (R64), the row on the weight side. -/
def State.rowScore (s : State) (h : SearchHdr) (i : Nat) (q : List (Nat × List Nat × Nat)) : F32 :=
  let f : Fmt := if h.s4 then .s4 else .s8
  let codes := f.unpack (s.bytesAt (h.table + i * h.rowBytes) h.rowBytes) h.dim
  let row := List.zip (chunksOf h.group (h.dim / h.group) codes) (s.rowScales h i)
  (List.zip row q).foldl (fun acc x =>
    accGroup acc (dot (x.2.2.1.map (sext 8)) (x.1.1.map f.image)) 0 (ue5m3F32 x.1.2) (some (ue5m3F32 x.2.1))) 0

/-- Enter a row into a top-K list: descending, ties to the lower row. -/
def topInsert (k : Nat) (e : Nat × F32) (l : List (Nat × F32)) : List (Nat × F32) :=
  if fIsNaN e.2 then l else (insertBy (fun a b => flt b.2 a.2) e l).take k

def State.eligible (s : State) (h : SearchHdr) (i : Nat) : Bool :=
  h.filter == 0 || bit (i % 8) (s.byte (h.filter + i / 8)).toNat

/-- Queries of a pass. -/
def passQueries (count pass : Nat) : List Nat := List.range' (16 * pass) (min 16 (count - 16 * pass))

/-- One search chunk: its rows against the queries of the pass; rows with a 0xFF scale are skipped and counted, in every pass that
scans them (DESIGN CHOICE, log entry 88: R183 has one record for such a row and does not say whether once for the search). -/
def State.scanChunk (s : State) (j : Job) (h : SearchHdr) (x : SearchSt) : SearchSt × Nat :=
  let n := min h.chunk (h.rows - x.row)
  let rows := (List.range' (h.first + x.row) n).filter (s.eligible h)
  let good := rows.filter fun i => !(s.rowScales h i).contains 0xFF
  let qs := (passQueries (dCount j.words) x.pass).map fun k => (k, s.searchQuery h k)
  let tops := qs.foldl (fun (t : List (List (Nat × F32))) q =>
    t.modify q.1 fun l => good.foldl (fun l i => topInsert (searchK j) (i, s.rowScore h i q.2) l) l) x.tops
  ({ pass := x.pass, row := x.row + n, scanned := if x.pass = 0 then x.scanned + rows.length else x.scanned, tops := tops },
    rows.length - good.length)

/-- Saturations of the conversions that a pass makes at its start. -/
def State.querySats (s : State) (j : Job) (h : SearchHdr) (pass : Nat) : Nat :=
  ((passQueries (dCount j.words) pass).map fun k => ((s.searchQuery h k).map fun g => g.2.2).sum).sum

def State.queueSearch (s : State) (j : Job) : State :=
  s.queueUnit { uid := j.uid, part := j.part, prio := j.prio, aged := false, arrived := s.now, kind := .search, ent := 0 }

/-- The last chunk has been scanned: the results are written, and RESULT gives the eligible rows. -/
def State.endSearch (s : State) (j : Job) (x : SearchSt) : State :=
  let k := searchK j
  match s.blockedOut j (dOut j.words) (8 * k * dCount j.words) with
  | some s => s
  | none => (s.store (dOut j.words) (x.tops.flatMap (topBytes k))).finishUid j.uid x.scanned

/-- Go on after a chunk: the next chunk, the next pass, or the end. -/
def State.afterChunk (s : State) (j : Job) (h : SearchHdr) (x : SearchSt) (area : Nat) : State :=
  let x := if x.row < h.rows then x else { x with pass := x.pass + 1, row := 0 }
  let s := s.modJob j.uid fun j => { j with ext := .search x area }
  if 16 * x.pass < dCount j.words then (if j.state == .running then s.queueSearch j else s) else s.endSearch j x

/-- Poisoned words of the next chunk: of its filter bits, and of the table and its scales among the eligible rows. -/
def State.badSearchRows (s : State) (h : SearchHdr) (x : SearchSt) : List Nat :=
  let a := h.first + x.row
  let n := min h.chunk (h.rows - x.row)
  (if h.filter = 0 then [] else s.badWords (h.filter + a / 8) ((a + n + 7) / 8 - a / 8)) ++
    ((List.range' a n).filter (s.eligible h)).flatMap fun i =>
    s.badWords (h.table + i * h.rowBytes) h.rowBytes ++ s.badWords (h.scales + i * h.scaleBytes) h.scaleBytes

/-- One search unit. -/
def State.searchUnit (s : State) (j : Job) (x : SearchSt) (area : Nat) (met : EchoMet) : State :=
  let h := s.searchHdr j
  match met with
  | .badTable => (s.dramWordError (h.table + (h.first + x.row) * h.rowBytes)).failJob' j.uid stData
  | _ =>
    match s.blocked j h.query (2 * h.dim * dCount j.words) with
    | some s => s
    | none =>
      let bad := s.badSearchRows h x
      if !bad.isEmpty then (s.reportWords bad).failJob' j.uid stData else
        let sat := if x.row = 0 then s.querySats j h x.pass else 0
        let r := s.scanChunk j h x
        let s := { s with echo := { s.echo with satCount := satInc top32 s.echo.satCount sat } }
        (s.raiseMany r.2 0x69 2 0x19 (some j.part) 0 0).afterChunk j h r.1 area

/-- A search takes the frame for its saved scan, and begins. -/
def State.startSearch (s : State) (j : Job) : State :=
  match s.blocked j (dArg j.words) 64 with
  | some s => s
  | none =>
    if !s.searchOk j then s.failJob j.uid stInvalid noResult
    else match s.allocFrame j.part (saveBytes j) with
      | none => s.failJob j.uid stExhausted noResult
      | some (a, s) =>
        let x : SearchSt := { pass := 0, row := 0, scanned := 0, tops := List.replicate (dCount j.words) [] }
        (s.modJob j.uid fun j => { j with ext := .search x a, areas := a :: j.areas }).queueSearch j

/-- A resumed search reads its lists and position back. -/
def State.resumeSearch (s : State) (j : Job) (area : Nat) : State :=
  match s.blocked j area (saveBytes j) with
  | some s => s
  | none => (s.modJob j.uid fun j => { j with ext := .search (s.savedSearch j area) area }).queueSearch j

/-- ECHO_SEARCH starts, or resumes with its saved lists. -/
def execEchoSearch (uid : Nat) (s : State) : Res :=
  .next (match s.starting uid 0x0E with
    | none => s
    | some (j, t) => match j.ext with
      | .search _ area => t.resumeSearch j area
      | _ => t.startSearch j)

/-! ## The unit in turn (R180) -/

def EchoUnit.effPrio (u : EchoUnit) : Nat := if u.aged then min 3 (u.prio + 1) else u.prio

def EchoKind.code : EchoKind → Nat
  | .level1 _ _ _ => 0
  | .level0 _ _ _ => 1
  | .search => 2

/-- Run a unit that has left the queue; `d` is the fetch deadline of the pages that it chooses. -/
def State.runUnit (s : State) (u : EchoUnit) (met : EchoMet) (d : Nat) : State :=
  match met with
  | .outside => (s.raise 0x69 1 0 (some u.part) 0 0).failJob' u.uid stFault
  | _ => match u.kind with
    | .level1 seq layer head => s.level1Scan u seq layer head met
    | .level0 seq layer head => s.level0Scan u d seq layer head met
    | .search => match s.job? u.uid with
      | some j => match j.ext with
        | .search x area => s.searchUnit j x area met
        | _ => s
      | none => s

def execEchoWorkUnit (run : EchoRun) (s : State) : Res :=
  .next (match maxBy EchoUnit.effPrio s.echo.queue with
    | none => s
    | some u =>
      let s := { s with echo :=
        { s.echo with queue := s.echo.queue.erase u, lastKind := u.kind.code, lastPrio := u.effPrio, lastPart := u.part } }
      s.runUnit u run.met (fetchTick (s.part u.part).ratePct run.t0 run.planned run.unissued))

/-- Units that have waited 1 ms count one priority higher. -/
def execEchoAging (s : State) : Res :=
  .next { s with echo := { s.echo with queue := s.echo.queue.map fun (u : EchoUnit) =>
    if u.arrived + msTicks ≤ s.now then { u with aged := true } else u } }

end Sys2Proof.Machine
end

