-- ==== Sys2Proof/Machine/VisionIntake.lean ====
section
/-! DEFINITION. The vision intake (R231 to R240): VISION_FRAME, PROGRESS_POLL, VISION_BURST, STALL_TIMEOUT,
LATE_DATA_DISCARD and WARP_PATCH. -/

namespace Sys2Proof.Machine

/-! ## Validation -/

def inRange (lo hi x : Nat) : Bool := decide (lo ≤ x) && decide (x ≤ hi)

/-- Reserved bits of the block. -/
def vwordsOk (w : List Nat) : Bool :=
  bits 31 6 (wordAt w 0) == 0 && bits 15 14 (wordAt w 1) == 0 && bits 31 30 (wordAt w 1) == 0 && bits 15 12 (wordAt w 2) == 0 &&
    bits 31 28 (wordAt w 2) == 0 && bit 7 (wordAt w 3) == false && bits 31 15 (wordAt w 3) == 0 &&
    ([5, 7, 9, 11, 14].all fun i => bits 31 16 (wordAt w i) == 0) && (List.range' 22 10).all fun i => wordAt w i == 0

/-- The ranges of R232, and the strides and the place of the output of R233 and R239. -/
def VHdr.ok (v : VHdr) (out : Nat) : Bool :=
  inRange 16 8192 v.w && inRange 16 8192 v.h && (v.rgb || (v.w % 2 == 0 && v.h % 2 == 0)) && inRange v.p 2048 v.ow &&
    v.ow % v.p == 0 && inRange v.p 2048 v.oh && v.oh % v.p == 0 && inRange 2 65 v.mw && inRange 2 65 v.mh &&
    v.progress % 8 == 0 && v.stage % 4096 == 0 && decide (v.rowBytes ≤ v.stride) && (v.rgb || decide (v.w ≤ v.uvStride)) &&
    fIsFin v.border && !flt v.border 0 && !flt f32One v.border && isSlotAddr out

/-- Every region lies where R233 allows. -/
def State.visionInside (s : State) (p : Nat) (v : VHdr) (out : Nat) : Bool :=
  s.inDramHost p v.src v.srcBytes && (v.rgb || s.inDramHost p v.uv v.uvBytes) &&
    (v.progress == 0 || s.inDramHost p v.progress 8) && s.inDram p v.stage v.stageBytes && s.inDram p v.mesh v.meshBytes &&
    s.inDram p out (v.rows * v.outRow)

/-- A node coordinate of the mesh. -/
def State.meshAt (s : State) (v : VHdr) (jy ix k : Nat) : F32 := BitVec.ofNat 32 (s.vision.mesh.getD (2 * (jy * v.mw + ix) + k) 0)

def State.meshWords (s : State) (v : VHdr) : List Nat := s.wordsAt v.mesh (2 * v.mw * v.mh)

def State.meshOk (s : State) (v : VHdr) : Bool := (s.meshWords v).all fun w => fIsFin (BitVec.ofNat 32 w)

/-- The staging buffer overlaps neither the mesh nor the output: its patch rows and, for S8, their token scale records. -/
def VHdr.stageApart (v : VHdr) (out : Nat) : Bool :=
  apart (v.stage, v.stageBytes) (v.mesh, v.meshBytes) && apart (v.stage, v.stageBytes) (out, v.rows * v.outRow) &&
    (!v.s8 || (List.range v.rows).all fun k => apart (v.stage, v.stageBytes) (tokenRecord out v.outRow k, 4))

/-- The status that refuses the job at its start, before its mesh is read. -/
def State.visionRefused (s : State) (j : Job) : Option Nat :=
  let w := s.vwords j
  let v := vhdr w
  let out := dOut j.words
  if !vwordsOk w || !v.ok out then some stInvalid
  else if !s.visionInside j.part v out then some stDenied
  else if !v.stageApart out then some stInvalid
  else none

def visionSeq (j : Job) : Nat := wordAt j.words 8

/-! ## VISION_FRAME -/

/-- An earlier VISION_FRAME job, of any partition, has not ended (R231). -/
def State.visionBusy (s : State) (uid : Nat) : Bool :=
  s.vision.job.isSome || s.jobs.list.any fun j => j.opcode == 0x0D && decide (j.uid < uid) && !j.finished

def State.startVision (s : State) (j : Job) : State :=
  match s.blocked j (dArg j.words) 128 with
  | some s => s
  | none =>
    match s.visionRefused j with
    | some st => s.failJob j.uid st noResult
    | none =>
      let v := vhdr (s.vwords j)
      let bad := s.badWords v.mesh v.meshBytes
      if !bad.isEmpty then (s.reportWords bad).failJob j.uid stData noResult
      else if !s.meshOk v then s.failJob j.uid stInvalid noResult
      else
      let ms := bits 9 0 (wordAt j.words 9)
      let s := s.modJob j.uid fun t => { t with ext := .vision (s.vwords j) }
      { s with vision :=
        { s.vision with
          job := some j.uid, part := j.part, block := s.vwords j, mesh := s.meshWords v, frameSeq := visionSeq j
          timeoutMs := if ms = 0 then 100 else ms, ready := if v.progress = 0 then v.h else 0, current := v.progress = 0
          copied := 0, lastPoll := s.now, stallFrom := s.now } }

def execVisionFrame (uid : Nat) (s : State) : Res :=
  .next (if s.visionBusy uid then s else
    match s.starting uid 0x0D with
    | none => s
    | some (j, t) => t.startVision j)

/-! ## Reading the frame (R234 to R236) -/

/-- The job ends: the intake is free. -/
def State.endVision (s : State) (uid result : Nat) : State :=
  ({ s with vision := { s.vision with job := none } }).finishUid uid result

/-- Whether an address of the job's partition can be read now. -/
def State.readable (s : State) (p a : Nat) : Bool := !decide (hostBase ≤ a) || s.hostOk p

/-- The progress word is read as it is stored: what an uncorrectable one does the chapter does not say (DESIGN CHOICE, log entry
121). -/
def execProgressPoll (s : State) : Res :=
  .next (match s.visionJob with
    | none => s
    | some j =>
      let v := s.visionHdr
      if v.progress = 0 || v.h ≤ s.vision.copied || s.now < s.vision.lastPoll + 200 then s
      else if !s.readable j.part v.progress then s.failJob' j.uid stLink
      else
        let word := s.readN v.progress 8
        let rows := bits 45 32 word
        let mine := bits 31 0 word == s.vision.frameSeq
        let s := { s with vision := { s.vision with lastPoll := s.now, current := mine } }
        if mine && decide (s.vision.ready < rows) && decide (rows ≤ v.h) then
          { s with vision := { s.vision with ready := rows, stallFrom := s.now } }
        else s)

/-- Copy source rows [a, b), with the UV rows that are ready with them. -/
def State.copyRows (s : State) (v : VHdr) (a b : Nat) : State :=
  let s := (List.range' a (b - a)).foldl
    (fun s y => s.store (v.stage + v.stride * y) (s.bytesAt (v.src + v.stride * y) v.rowBytes)) s
  if v.rgb then s else
    (List.range' (a / 2) (b / 2 - a / 2)).foldl
      (fun s y => s.store (v.stageUv + v.uvStride * y) (s.bytesAt (v.uv + v.uvStride * y) v.w)) s

/-- Whether the copy reads host memory: pixels, UV rows or the progress word (R235). -/
def VHdr.usesHost (v : VHdr) : Bool :=
  decide (hostBase ≤ v.src) || (!v.rgb && decide (hostBase ≤ v.uv)) || decide (hostBase ≤ v.progress)

/-- Words of the source rows [a, b), with their UV rows, that are poisoned (R270). The chapter does not say whether the padding
between rows is read, nor what an uncorrectable source word does: the whole stride counts, and the job ends DATA_UNCORRECTED
(DESIGN CHOICE, log entry 122). -/
def State.badRows (s : State) (v : VHdr) (a b : Nat) : List Nat :=
  s.badWords (v.src + v.stride * a) (v.stride * (b - a)) ++
    if v.rgb then [] else s.badWords (v.uv + v.uvStride * (a / 2)) (v.uvStride * (b / 2 - a / 2))

/-- Read the ready rows of the next burst. Rows are ready only while the progress word carries the job's FRAME_SEQ. -/
def execVisionBurst (linkDown : Bool) (s : State) : Res :=
  .next (match s.visionJob with
    | none => s
    | some j =>
      let v := s.visionHdr
      let a := s.vision.copied
      let b := min s.vision.ready (min v.h ((a / 16 + 1) * 16))
      if b ≤ a || !s.vision.current then s
      else if v.usesHost && (linkDown || !s.hostOk j.part) then s.failJob' j.uid stLink
      else if !(s.badRows v a b).isEmpty then (s.reportWords (s.badRows v a b)).failJob' j.uid stData
      else
        let s := s.copyRows v a b
        { s with vision := { s.vision with copied := b, stallFrom := s.now } })

/-- The frame is incomplete: it is dropped, and the job says so. -/
def execStallTimeout (s : State) : Res :=
  .next (match s.visionJob with
    | none => s
    | some j =>
      if s.vision.copied < s.visionHdr.h && decide (s.vision.stallFrom + s.vision.timeoutMs * msTicks ≤ s.now) then
        let s := s.raise 0x68 2 0x19 (some j.part) 0 0
        let s := { s with vision := { s.vision with inFlight := s.vision.frameSeq :: s.vision.inFlight } }
        s.endVision j.uid (1 + 2 * s.vision.copied)
      else s)

/-- Read data of a dropped frame arrives, and is discarded. -/
def execLateDataDiscard (s : State) : Res :=
  .next { s with vision := { s.vision with inFlight := s.vision.inFlight.dropLast } }

/-! ## Taps and colour (R237) -/

def ratF32 (num den : Nat) : F32 := toF32 (.fin false num den)

/-- Clamp to [lo, hi]. -/
def clampF (lo hi x : F32) : F32 := if flt x lo then lo else if flt hi x then hi else x

/-- The constants of a colour code: y0, ky, kc, crr, cgb, cgr, cbb. -/
structure Yuv where
  y0 : Nat
  ky : F32
  kc : F32
  crr : F32
  cgb : F32
  cgr : F32
  cbb : F32
  deriving DecidableEq, Repr

/-- Kr and Kb in ten-thousandths: BT.601 0.299 and 0.114; BT.709 0.2126 and 0.0722. -/
def yuvOf (colour : Nat) : Yuv :=
  let kr := if colour < 2 then 2990 else 2126
  let kb := if colour < 2 then 1140 else 722
  let kg := 10000 - kr - kb
  let full := colour % 2 == 1
  { y0 := if full then 0 else 16, ky := ratF32 1 (if full then 255 else 219), kc := ratF32 1 (if full then 255 else 224)
    crr := ratF32 (2 * (10000 - kr)) 10000, cgb := ratF32 (2 * kb * (10000 - kb)) (10000 * kg)
    cgr := ratF32 (2 * kr * (10000 - kr)) (10000 * kg), cbb := ratF32 (2 * (10000 - kb)) 10000 }

/-- R, G and B of a staged pixel. -/
def State.pixel (s : State) (v : VHdr) (x y : Nat) : List F32 :=
  let at_ (a : Nat) : Nat := (s.byte a).toNat
  if v.rgb then
    (List.range 3).map fun k => fmul (f32Int (at_ (v.stage + v.stride * y + 3 * x + k))) (ratF32 1 255)
  else
    let k := yuvOf v.colour
    let uv := v.stageUv + v.uvStride * (y / 2) + 2 * (x / 2)
    let yl := fmul (f32Int ((at_ (v.stage + v.stride * y + x) : Int) - k.y0)) k.ky
    let cb := fmul (f32Int ((at_ uv : Int) - 128)) k.kc
    let cr := fmul (f32Int ((at_ (uv + 1) : Int) - 128)) k.kc
    [fadd yl (fmul k.crr cr), fsub (fsub yl (fmul k.cgb cb)) (fmul k.cgr cr), fadd yl (fmul k.cbb cb)].map (clampF 0 f32One)

/-- A tap, which may lie outside the source. -/
def State.tap (s : State) (v : VHdr) (x y : Int) : List F32 :=
  let outside := decide (x < 0) || decide (y < 0) || decide ((v.w : Int) ≤ x) || decide ((v.h : Int) ≤ y)
  if outside && v.fill then [v.border, v.border, v.border]
  else s.pixel v (max 0 (min ((v.w : Int) - 1) x)).toNat (max 0 (min ((v.h : Int) - 1) y)).toNat

/-! ## Warp (R238) -/

def lerp (a b t : F32) : F32 := fadd (fmul a (fsub f32One t)) (fmul b t)

/-- Cell and fraction of output coordinate `x` of `n` on a mesh of `m` nodes. An output of a single pixel does not occur. -/
def meshCell (x n m : Nat) : Nat × F32 :=
  let g := fmul (f32Int x) (ratF32 (m - 1) (n - 1))
  let i := min (FV.floorInt (f32Val g)).toNat (m - 2)
  (i, fsub g (f32Int i))

/-- The warped R, G and B of an output pixel. -/
def State.warpPixel (s : State) (v : VHdr) (x y : Nat) : List F32 :=
  let a := meshCell x v.ow v.mw
  let b := meshCell y v.oh v.mh
  let co (k lim : Nat) : F32 :=
    let n (dj di : Nat) : F32 := s.meshAt v (b.1 + dj) (a.1 + di) k
    clampF (f32Int (-1)) (f32Int lim) (lerp (lerp (n 0 0) (n 0 1) a.2) (lerp (n 1 0) (n 1 1) a.2) b.2)
  let sx := co 0 v.w
  let sy := co 1 v.h
  let x0 := FV.floorInt (f32Val sx)
  let y0 := FV.floorInt (f32Val sy)
  let fx := fsub sx (f32Int x0)
  let fy := fsub sy (f32Int y0)
  let row (yy : Int) : List F32 := List.zipWith (fun p q => lerp p q fx) (s.tap v x0 yy) (s.tap v (x0 + 1) yy)
  List.zipWith (fun p q => lerp p q fy) (row y0) (row (y0 + 1))

/-! ## Patch rows (R239) -/

/-- Element `e` of patch `k`; padding is +0.0. -/
def State.patchElem (s : State) (v : VHdr) (k e : Nat) : F32 :=
  let px := k % (v.ow / v.p)
  let py := k / (v.ow / v.p)
  let q := e / 3
  let c := e % 3
  if v.p * v.p ≤ q then 0 else
    let pix := s.warpPixel v (px * v.p + q % v.p) (py * v.p + q / v.p)
    fmul (fsub (pix.getD c 0) (v.mean.getD c 0)) (v.inv.getD c 0)

/-- Write one patch row, and its token scale record where the format carries one; saturations are counted. -/
def State.writePatch (s : State) (v : VHdr) (out k : Nat) : State :=
  let f : Fmt := if v.s8 then .s8 else .bf16
  let q := spanQuant f ((List.range v.elems).map fun e => f32Val (s.patchElem v k e))
  let s := s.store (out + v.outRow * k) (f.pack q.2.2.1)
  if v.s8 then
    let s := s.store (tokenRecord out v.outRow k) (scaleRecord q.1 q.2.1)
    { s with vision := { s.vision with satCount := satInc top32 s.vision.satCount q.2.2.2 } }
  else s

/-- Once the frame is staged: every patch row, then the result. -/
def execWarpPatch (uncorrectable : Bool) (s : State) : Res :=
  .next (match s.visionJob with
    | none => s
    | some j =>
      let v := s.visionHdr
      let bad := s.badWords v.stage v.stageBytes
      if s.vision.copied < v.h then s
      else if uncorrectable then ((s.dramWordError v.stage).scramblePatches j).failJob' j.uid stData
      else if !bad.isEmpty then ((s.reportWords bad).scramblePatches j).failJob' j.uid stData
      else ((List.range v.rows).foldl (fun s k => s.writePatch v (dOut j.words) k) s).endVision j.uid (2 * v.h))

end Sys2Proof.Machine
end

