-- ==== Sys2Proof/Machine/PowerMgr.lean ====
section
/-! DEFINITION. The power manager, the temperature sensors, the engine domains and the dripline: POWER_CAP_EVAL, PWR_CAP_WRITE,
PWRBRK_N, THERMAL_SAMPLE, DOMAIN_RAMP, RAMP_COMPLETE, IDLE_GATE, DOMAIN_SHORT, SECTOR_FAULT, TIMEBASE_LO_READ, DRIP_POLL and
DRIP_REPLAN (R387 to R405). Power is counted in units of 10 mW, caps in W. The steps of one evaluation: log entry 19. -/

namespace Sys2Proof.Machine

/-- The die has power and a clock. -/
def State.alive (s : State) : Bool := s.smbus.dieOn && !s.dev.clockLost

/-! ## The effective cap (R395) -/

def State.emergencyOn (s : State) : Bool := s.power.pwrbrk || s.smbus.emergency

/-- The caps in force: CAP_W, the thermal cap, EMERG_W, the SMBus cap. -/
def State.caps (s : State) : List (Option Nat) :=
  [some s.power.capW, s.power.thermalCap, if s.emergencyOn then some s.power.emergW else none,
    if s.smbus.capSet = 0 then none else some s.smbus.capSet]

def State.effectiveCap (s : State) : Nat := ((s.caps.filterMap id).min?).getD s.power.capW

/-- Which caps equal the effective cap. -/
def State.setsCap (s : State) (i : Nat) : Bool := s.caps.getD i none == some s.effectiveCap

/-! ## Shares (R396, R397) -/

/-- The remainder in priority order: each class receives at most what it wants. -/
def pourGrants : Nat → List Nat → List Nat
  | _, [] => []
  | left, w :: ws => min left w :: pourGrants (left - min left w) ws

/-- Minimum grants of host link, compute and Passage, for the classes with demand. -/
def minimaOf (demand : List Nat) : List Nat := List.zipWith (fun d m => if d = 0 then 0 else m) demand [100, 200, 100]

/-- Grants of host link, compute and Passage from a cap. -/
def classGrants (cap floor : Nat) (demand : List Nat) : List Nat :=
  let m := minimaOf demand
  List.zipWith (fun a b => a + b) m (pourGrants (cap - floor - m.sum) (List.zipWith (fun d m => d - m) demand m))

/-- Divide a grant in proportion to the weights; a share that exceeds its demand is divided again among the others. `want`
lists (partition, weight, demand). -/
def shareOut : Nat → Nat → List (Nat × Nat × Nat) → List (Nat × Nat)
  | 0, _, _ => []
  | fuel + 1, grant, want =>
    let total := (want.map fun w => w.2.1).sum
    let full := want.filter fun w => decide (w.2.2 * total ≤ grant * w.2.1)
    if full.isEmpty then want.map fun w => (w.1, grant * w.2.1 / total)
    else
      (full.map fun w => (w.1, w.2.2)) ++
        shareOut fuel (grant - (full.map fun w => w.2.2).sum) (want.filter fun w => !full.contains w)

/-- Passage demand that is granted from the compute class, ahead of compute. -/
def State.firstPassage (s : State) (d : PowerDemand) : Nat :=
  ((List.range 8).map fun p =>
    if (s.part p).powerPriv && (s.part p).power.passageFirst then d.passagePart.getD p 0 else 0).sum

/-- What one evaluation grants: the four classes, and compute by partition. -/
structure PowerShares where
  classes : List Nat
  parts : List Nat
  short : Bool
  deriving DecidableEq, Repr

def State.powerShares (s : State) (d : PowerDemand) : PowerShares :=
  let first := s.firstPassage d
  let demand := [d.link, d.compute.sum + first, d.passage - first]
  let g := classGrants (100 * s.effectiveCap) d.floor demand
  let want := ((List.range 8).map fun p => (p, (s.part p).power.share, d.compute.getD p 0)).filter fun w => w.2.2 != 0
  let got := shareOut 9 (g.getD 1 0 - min first (g.getD 1 0)) want
  { classes := d.floor :: g, parts := (List.range 8).map fun p => (assoc got p).getD 0
    short := (List.zipWith (fun a b => decide (a < b)) g demand).any id }

/-! ## Dividers and allowances (R397, R399, R400) -/

def slower (d : Nat) : Nat := if d ≤ 3 then 4 else 6
def faster (d : Nat) : Nat := if 8 ≤ d then 6 else if d = 6 then 4 else 3

def State.held (s : State) (p : Nat) : List Nat := (List.range 32).filter fun e => (s.eng e).holder == some p

/-- A partition that receives less than its demand: one divider down, or, with all at 0.8 GHz, every allowance one eighth. -/
def State.slowPart (s : State) (p : Nat) : State :=
  match cyclicFind 32 (s.power.rrDiv.getD p 31) fun e => (s.held p).contains e && decide ((s.eng e).div < 6) with
  | some e =>
    let s := s.modEng e fun g => { g with div := slower g.div }
    { s with power := { s.power with rrDiv := s.power.rrDiv.set p e } }
  | none => (s.held p).foldl (fun s e =>
      s.modEng e fun g => { g with target := g.allow - 1, allow := g.allow - 1 }) s

/-- Allowances rise towards their targets, one eighth of one engine after another in ascending order after the engine last
served: no engine by more than `most` eighths, and all together within `watts`. -/
def State.riseAll : Nat → Nat → Nat → List Nat → State → State
  | 0, _, _, _, s => s
  | n + 1, most, watts, given, s =>
    match cyclicFind 32 s.power.lastServed fun e =>
        decide ((s.eng e).allow < (s.eng e).target) && decide (given.getD e 0 < most) with
    | none => s
    | some e =>
      if watts < Config.eighthPower then s else
        let s := s.modEng e fun g => { g with allow := g.allow + 1 }
        State.riseAll n most (watts - Config.eighthPower) (given.set e (given.getD e 0 + 1))
          { s with power := { s.power with lastServed := e } }

/-- What allowances have risen since they were last looked at: one eighth per 160 ns and engine, 8 W per µs in all (R399; log
entry 124). -/
def State.rise (s : State) : State :=
  let dt := s.now - s.power.risenAt
  let s := State.riseAll 256 (dt / 16) (8 * dt) (List.replicate 32 0) s
  { s with power := { s.power with risenAt := s.now } }

/-- A partition that is not limited: allowances rise to full, then one divider. -/
def State.raisePart (s : State) (p : Nat) : State :=
  let low := (s.held p).filter fun e => decide ((s.eng e).allow < 8)
  if low.isEmpty then
    match (s.held p).find? fun e => decide (s.baseDiv e < (s.eng e).div) with
    | some e => s.modEng e fun g => { g with div := max (s.baseDiv e) (faster g.div) }
    | none => s
  else
    low.foldl (fun s e => s.modEng e fun g => { g with target := 8 }) s

/-- The operating points hold at once. -/
def State.applyOpp (s : State) : State :=
  { s with engines := s.engines.zipIdx.map fun (x : Engine × Nat) =>
    if x.1.holder.isSome then { x.1 with div := max (s.baseDiv x.2) x.1.div } else x.1 }

def State.stepLimits (s : State) (d : PowerDemand) (got : List Nat) : State :=
  if s.power.level == .limit then s else
    (List.range 8).foldl (fun s p =>
      if got.getD p 0 < d.compute.getD p 0 then s.slowPart p else s.raisePart p) s.applyOpp

/-- What the power registers show after an evaluation. -/
def State.notePower (s : State) (d : PowerDemand) (g : PowerShares) : State :=
  { s with power := { s.power with
    effective := s.effectiveCap, byCap := s.setsCap 0, byThermal := s.setsCap 1, byEmerg := s.setsCap 2
    bySmbus := s.setsCap 3, limiting := g.short, floorW := d.floor / 100, inputPower := min 0xFFFF d.input
    grants := g.classes, partGrants := g.parts } }

def execPowerCapEval (demand : PowerDemand) (s : State) : Res :=
  .next (if s.alive then
      let g := s.powerShares demand
      (s.notePower demand g).rise.stepLimits demand g.parts
    else s)

/-! ## PWR_CAP and the emergency cap (R398) -/

/-- Every write stores both fields: CAP_W under its clamp, then EMERG_W under the CAP_W just stored. -/
def State.writeCap (s : State) (v : Nat) : State :=
  let cap := max 15 (min 75 (bits 6 0 v))
  { s with power := { s.power with capW := cap, emergW := max 15 (min cap (bits 14 8 v)) } }

def execPwrCapWrite (fn : Fn) (value : Word) (s : State) : Res :=
  .next (if fn == .pf && s.reaches fn then s.writeCap value.toNat else s)

/-- An assertion begins or ends now. -/
def State.seeEmergency (s : State) : State := { s with power := { s.power with lastBrk := some s.now } }

/-- The record of an assertion after 1 s without one. -/
def State.noteEmergency (s : State) : State :=
  let quiet := !s.emergencyOn && (match s.power.lastBrk with
    | none => true
    | some t => decide (t + 1000 * msTicks ≤ s.now))
  if quiet then s.seeEmergency.raise 0x70 0xA 0xA none 0 0 else s.seeEmergency

def execPwrbrkN (asserted : Bool) (s : State) : Res :=
  .next (let t := if asserted == s.power.pwrbrk || !s.alive then s else if asserted then s.noteEmergency else s.seeEmergency
    { t with power := { t.power with pwrbrk := asserted } })

/-! ## Thermal levels (R401) -/

def levelCode : Level → Nat
  | .normal => 0
  | .throttle => 1
  | .limit => 2

/-- The level after a reading; a DRAM package over its range imposes THROTTLE. -/
def nextLevel (hot : Nat) (dramHot : Bool) : Level → Level
  | .normal => if 105 ≤ hot then .limit else if decide (100 ≤ hot) || dramHot then .throttle else .normal
  | .throttle => if 105 ≤ hot then .limit else if decide (hot < 98) && !dramHot then .normal else .throttle
  | .limit => if hot < 100 then .throttle else .limit

/-- The thermal cap moves by 1 W per ms: down to 15 W above NORMAL, up at NORMAL until it no longer binds. -/
def State.moveThermalCap (s : State) : State :=
  match s.power.thermalCap with
  | none => s
  | some c =>
    let ms := (s.now - s.power.thermalAt) / msTicks
    let others := ({ s with power := { s.power with thermalCap := none } }).effectiveCap
    let cap := match s.power.level with
      | .limit => some 15
      | .throttle => some (max 15 (c - ms))
      | .normal => if others ≤ c + ms then none else some (c + ms)
    { s with power := { s.power with thermalCap := cap, thermalAt := s.power.thermalAt + ms * msTicks } }

/-- What entering a level does. -/
def State.enterLevel (s : State) (l : Level) : State :=
  let was := s.power.level
  let s := { s with power := { s.power with level := l } }
  let rise := levelCode was < levelCode l
  let s := if rise then
      let cap := if l == .limit then 15 else max 15 (s.power.inputPower / 100)
      { s with
        power := { s.power with thermalCap := some cap, thermalAt := s.now }, smbus := { s.smbus with alert := true } }
    else s
  let s := if l == .limit then
      { s with engines := s.engines.map fun (g : Engine) => { g with div := 8, allow := min 4 g.allow, target := 4 } }
    else s
  if rise then s.report 0x70 0xB 0x1B (levelCode l + 2 ^ 8 * s.power.sensor) else s

/-- The hottest reading, and the lowest sensor that shows it. -/
def hottestOf (readings : List Nat) : Nat × Nat :=
  let hot := readings.foldl max 0
  (hot, (readings.findIdx? fun r => r == hot).getD 0)

/-- Keep the reading, then set the level that it gives. -/
def State.setLevel (s : State) (hot sensor : Nat) : State :=
  let s := { s with power := { s.power with hottest := min 255 hot, sensor := sensor } }
  let l := nextLevel hot s.power.dramHot s.power.level
  if l == s.power.level then s else s.enterLevel l

def execThermalSample (readings : List Nat) (s : State) : Res :=
  .next (if s.alive then (s.moveThermalCap).setLevel (hottestOf readings).1 (hottestOf readings).2 else s)

/-! ## Engine domains (R392 to R394) -/

def State.modDomain (s : State) (e : Nat) (f : Domain → Domain) : State :=
  s.modEng e fun g => { g with domain := f g.domain }

/-- The engines of a rail sector. -/
def sectorOf (n : Nat) : List Nat := List.range' (8 * n) 8

/-- The voltage of a rail sector in mV: the highest that the frequencies of its powered engines need (R390). -/
def State.sectorVolt (s : State) (n : Nat) : Nat :=
  (((sectorOf n).filter fun e => (s.eng e).domain.powered).map fun e => Config.engVolt e (s.eng e).div).foldl max 0

def State.setRail (s : State) (n : Nat) (low : Option Nat) : State :=
  { s with power := { s.power with railLow := s.power.railLow.set n low } }

/-- The request of an engine is next: no domain of its sector ramps, and no lower engine waits. -/
def State.rampNext (s : State) (e : Nat) : Bool :=
  let d := (s.eng e).domain
  let mates := sectorOf (e / 8)
  d.wants && !d.powered && !d.ramping && !(s.eng e).mappedOut && mates.all (fun m => !(s.eng m).domain.ramping) &&
    mates.all fun m => decide (e ≤ m) || !(s.eng m).domain.wants

def execDomainRamp (eng : Nat) (s : State) : Res :=
  .next (if s.rampNext eng && s.alive then
      s.modDomain eng fun d => { d with ramping := true, held := false, wants := false, rampStart := s.now }
    else s)

/-- Switch a domain off: the local store's contents are lost. -/
def State.switchOff (s : State) (e : Nat) : State :=
  if (s.eng e).domain.powered || (s.eng e).domain.ramping then
    (s.scramble (localBase e + 0x180000) 0x80000).modEng e fun g =>
      { g with residentValid := false, allow := 0, target := 0, domain := Domain.reset }
  else s.modDomain e fun d => { d with wants := false }

def execIdleGate (eng : Nat) (s : State) : Res :=
  let g := s.eng eng
  .next (if s.power.gateIdle && g.domain.powered && g.ctxs.isEmpty && decide (g.freeSince + msTicks ≤ s.now) then
      s.switchOff eng
    else s)

/-- An engine whose domain is shorted: one record, mapped out, its switches open. Its tasks' resident operands come from
their source in T2 (R116). -/
def State.shortOut (s : State) (e : Nat) : State :=
  ((s.raise 0x70 0xA 8 none 0 e).mapOutEngine e .powerOrTest).switchOff e

/-- The latest that a ramp may complete: 5 µs after its start, and up to 10 µs later where it was held (R393, R394). -/
def Domain.limit (d : Domain) : Nat := d.rampStart + 5 * usTicks + if d.held then 10 * usTicks else 0

/-- A ramped engine: its allowance rises from nothing to full, or to the half of LIMIT, which also sets its divider (R401). -/
def State.ramped (s : State) (e : Nat) : State :=
  let limit := s.power.level == .limit
  let s := s.rise.modDomain e fun d => { d with powered := true, ramping := false, held := false, wants := false }
  s.modEng e fun g =>
    { g with freeSince := s.now, target := if limit then 4 else 8, div := if limit then 8 else g.div }

/-- A ramp completes. A held one goes on when the rail has been back for 500 ns, so it cannot complete before; one beyond its
limit is a short (R393, R394; log entry 123). -/
def execRampComplete (eng : Nat) (s : State) : Res :=
  let d := (s.eng eng).domain
  .next (if !d.ramping || (d.held && decide (s.now < d.heldSince + usTicks / 2)) then s
    else if d.limit < s.now then s.shortOut eng
    else (if d.held then s.setRail (eng / 8) none else s).ramped eng)

/-- A short in a ramping domain aborts its ramp; one in a powered domain may pull the sector's rail below 95 %, which holds a
neighbour's ramp. -/
def execDomainShort (eng : Nat) (railLow : Bool) (s : State) : Res :=
  let d := (s.eng eng).domain
  .next (if d.ramping then s.shortOut eng
    else if d.powered then
      let t := s.shortOut eng
      if railLow then
        (sectorOf (eng / 8)).foldl (fun s m => s.modDomain m fun d =>
          { d with held := d.held || d.ramping, heldSince := if d.ramping then s.now else d.heldSince })
          (t.setRail (eng / 8) (some s.now))
      else t
    else s)

/-- The rail of a sector has been low for 8 µs since the switches of a shorted domain opened. -/
def State.railDead (s : State) (n : Nat) : Bool :=
  match s.power.railLow.getD n none with
  | some t => decide (t + 8 * usTicks ≤ s.now)
  | none => false

/-- A regulator fault: the whole sector is off and mapped out. -/
def execSectorFault (sector : Nat) (s : State) : Res :=
  .next (if sector < 4 && s.alive && s.railDead sector then
      let s := s.setRail sector none
      let t := (sectorOf sector).foldl (fun s e => s.mapOutEngine e .powerOrTest) (s.raise 0x70 0xA 9 none 0 sector)
      (sectorOf sector).foldl (fun s e => s.switchOff e) t
    else s)

/-! ## The timebase (R389) -/

def execTimebaseLoRead (fn : Fn) (s : State) : Res :=
  .next (if fn == .pf && s.reaches fn then
      { s with
        power := { s.power with tbLatch := BitVec.ofNat 32 (s.now / 2 ^ 32) }
        out := { s.out with regRead := BitVec.ofNat 32 s.now } }
    else s)

/-! ## The dripline (R403 to R405) -/

def monitors : Nat := 96

/-- The shared domain of a monitor of the shared class. -/
def dripDomain (m : Nat) : Option Nat := if m < 32 then none else some ((m - 32) / 8)

def dripFrame (poll : List DripFrame) (m : Nat) : Option DripFrame := poll.find? fun f => f.pos == m

/-- No poll holds a frame from this position onward. -/
def dripEnd (polls : List (List DripFrame)) : Nat :=
  (polls.flatMap fun p => p.map fun f => f.pos + 1).foldl max 0

/-- How a monitor below the break answered one poll: 0 validly, 1 not at all, 2 with a bad CRC, 3 outside its range. -/
def dripAnswer (poll : List DripFrame) (m : Nat) : Nat :=
  match dripFrame poll m with
  | none => 1
  | some f => if !f.crcOk then 2 else if f.plausible then 0 else 3

/-- A monitor is faulty when all three polls agree on one failure. -/
def dripFaulty (polls : List (List DripFrame)) (m : Nat) : Bool :=
  decide (m < dripEnd polls) && [1, 2, 3].any fun k => polls.all fun p => dripAnswer p m == k

def State.setFallback (s : State) (ds : List Nat) : State :=
  let all := (List.range 8).filter fun d => s.drip.fallback.contains d || ds.contains d
  { s with
    drip := { s.drip with fallback := all }
    faults := { s.faults with dripFallback := (all.map fun d => 2 ^ d).sum } }

/-- Judge the last three polls. -/
def State.dripJudge (s : State) : State :=
  let polls := s.drip.polls
  if polls.length < 3 then s else
    let k := dripEnd polls
    let broken := decide (k < monitors)
    let fresh := (List.range monitors).filter fun m => !s.drip.faulty.contains m && dripFaulty polls m
    let lost := if broken then (List.range monitors).filter fun m => decide (k ≤ m) else []
    let news := broken && s.drip.breakPos != k
    let s := { s with drip := { s.drip with
      chainOk := (List.range monitors).all fun m => polls.all fun p => (dripFrame p m).isSome
      breakPos := if broken then k else 0x7F, faulty := s.drip.faulty ++ fresh } }
    let s := s.setFallback ((lost ++ fresh).filterMap dripDomain)
    let s := if news then s.report 0x72 0xA 0xB k else s
    fresh.foldl (fun s m => s.report 0x72 0xA 0xC m) s

/-- The margin that a domain runs at. -/
def State.margin (s : State) (d : Nat) : Nat :=
  if s.drip.fallback.contains d then Config.maxMargin d else s.flash.margins.getD d 0

def State.setMargin (s : State) (d v : Nat) : State :=
  { s with flash := { s.flash with margins := s.flash.margins.set d v } }

/-- A monitor of domain `d` asks for more margin, or droops. -/
def State.dripAsks (s : State) (poll : List DripFrame) (d : Nat) : Bool :=
  poll.any fun f => dripDomain f.pos == some d && f.crcOk && f.plausible && !s.drip.faulty.contains f.pos &&
    (decide (s.margin d < f.needs) || f.droop)

/-- The immediate raise: one step, at most one per domain per 10 ms. -/
def State.dripRaise (s : State) (poll : List DripFrame) (d : Nat) : State :=
  let last := s.drip.lastRaise.getD d 0
  if !s.drip.fallback.contains d && s.dripAsks poll d && (last == 0 || decide (last + 10 * msTicks ≤ s.now + 1)) then
    let s := s.setMargin d (min (Config.maxMargin d) (s.margin d + 1))
    { s with drip := { s.drip with lastRaise := s.drip.lastRaise.set d (s.now + 1) } }
  else s

def State.dripPoll (s : State) (frames : List DripFrame) : State :=
  let s := ({ s with drip := { s.drip with polls := (frames :: s.drip.polls).take 3 } }).dripJudge
  (List.range 8).foldl (fun s d => s.dripRaise frames d) s

def execDripPoll (frames : List DripFrame) (s : State) : Res := .next (if s.alive then s.dripPoll frames else s)

/-- Powered hours: what the system blocks hold, and this session's. -/
def State.hours (s : State) : Nat := s.flash.dripHours + s.now / 360000000000

/-- One step towards the margin planned. -/
def replanStep (now goal : Nat) : Nat := if now < goal then now + 1 else if goal < now then now - 1 else now

/-- `needs` is the margin that each domain's slowest monitor needs. -/
def execDripReplan (needs : List Nat) (s : State) : Res :=
  .next (if s.alive && s.flash.mounted && decide (s.drip.plannedDay < s.hours / 24) then
      let margins := (List.range 8).map fun d =>
        if s.drip.fallback.contains d then s.flash.margins.getD d 0
        else
          let goal := max (Config.minMargin d) (min (Config.maxMargin d) (needs.getD d 0 + 1))
          replanStep (s.flash.margins.getD d 0) goal
      { s with
        flash := { s.flash with margins := margins }, drip := { s.drip with plannedDay := s.hours / 24 } }
    else s)

end Sys2Proof.Machine
end

