-- ==== Sys2Proof/Machine/FaultQueue.lean ====
section
/-! DEFINITION. The fault queue and the shared SRAM's scrubber: FAULT_OCCURRENCE, CONTINUED_RECORD, FAULT_TAIL_WRITE and
SRAM_PATROL_SCRUB (R406 to R415). -/

namespace Sys2Proof.Machine

/-- An occurrence at its origin. -/
def execFaultOccurrence (source cls detail : Nat) (part : Option Nat) (tag info : Nat) (s : State) : Res :=
  .next (s.raise source cls detail part tag info)

/-- The window of a consumed record has ended: what was gathered is entered as one record. -/
def execContinuedRecord (source cls : Nat) (s : State) : Res :=
  .next (match s.faults.gathered.find? fun g => g.2.source == source && g.2.cls == cls && decide (g.1 < s.now) with
    | none => s
    | some g =>
      { s with faults := { s.faults with gathered := s.faults.gathered.erase g } }.enterFault g.2)

/-- The count that FAULT_TAIL would take: the nearest number at or after the present tail with these 16 bits. -/
def Faults.tailAt (q : Faults) (v : Nat) : Nat := q.tail + (v + 2 ^ 16 - q.tail % 2 ^ 16) % 2 ^ 16

/-- Consume records; a write backwards, or beyond FAULT_HEAD, is ignored. -/
def Faults.consume (q : Faults) (v : Nat) : Faults :=
  if q.tailAt (v % 2 ^ 16) ≤ q.head then { q with tail := q.tailAt (v % 2 ^ 16) } else q

def execFaultTailWrite (fn : Fn) (value : Word) (s : State) : Res :=
  .next (if fn == .pf && s.reaches fn then { s with faults := s.faults.consume value.toNat } else s)

/-- The sump units in use: the group of each, with its partition. -/
def State.sumpUnits (s : State) : List (Nat × Group) :=
  (List.range 8).flatMap fun p => (s.kv p).groups.flatMap fun g => List.replicate g.sump (p, g)

/-- A bad word of the sump, the first 8 MiB of the store (log entry 16), poisons the group whose unit holds it (R414). Which
unit that is, the spec does not say: a free value. -/
def State.poisonWord (s : State) (w : Nat) : State :=
  if w < 0x100000 then
    match s.sumpUnits[Config.freeNat s.free % 3840]? with
    | some (p, g) => (s.poisonGroup p g).drawFree
    | none => s.drawFree
  else s

/-- One pass of the patrol scrubber over a bank group: corrections are counted, and each bad word, by its offset in the store
÷ 8, is an occurrence. -/
def execSramPatrolScrub (group : Nat) (corrected : Nat) (bad : List Nat) (s : State) : Res :=
  .next (if s.alive && decide (group < 8) then
      let counts := s.faults.sramCorrected.modify group fun n => satInc top32 n corrected
      let t := { s with faults := { s.faults with sramCorrected := counts } }
      bad.foldl (fun s w => (s.poisonWord w).sramError group none w) t
    else s)

end Sys2Proof.Machine
end

