-- ==== Sys2Proof/Machine/ResetOps.lean ====
section
/-! DEFINITION. What resets, losses and shutdown share: the die without power or clock, the self-test (R422), the initial
configuration (R424), the warm reset (R425 to R427), and the steps of a shutdown (R428). -/

namespace Sys2Proof.Machine

/-! ## Jobs and moves that end without a record -/

/-- A flash job that goes on without the host link: an erase, or pages whose buffer lies in DRAM (R305). -/
def Job.outlives (j : Job) : Bool :=
  flashOp j.opcode && !j.finished && (j.opcode == 0x22 || decide (dOut j.words < hostBase)) && j.state != .cancelling

/-- Every unfinished job is withdrawn with R41's effects, flash jobs follow R305. -/
def State.endAllJobs (s : State) : State :=
  (s.jobs.list.filter fun j => !j.outlives).foldl (fun s j => s.endSilently j) s

/-- A move that has not landed: its object keeps its old home, its transfers are withdrawn, and its frames are free when the epoch
allows it (R242, R378, R425). -/
def State.abandonMove (s : State) (m : Move) : State :=
  let s := { s with moves := s.moves.filter fun k => k.id != m.id }.withdrawXfers fun x => x.own == some m.id
  match m.what with
  | .page i =>
    if m.started && (s.pte m.part i).state == 3 then
      (s.modKv m.part fun k => { k with tails := m.frames.map (fun a => (a, k.epoch)) ++ k.tails }).setPte m.part i
        { s.pte m.part i with state := 2 }
    else s
  | .expert slot layer number =>
    s.modSlot slot fun t =>
      { t.modExpert layer number fun x => if x.moving then { x with moving := false, frames := [] } else x with
        retired := (t.experts.filter fun x => x.layer == layer && x.number == number && x.moving).flatMap (fun x =>
          x.frames.map fun a => (a, (s.kv m.part).epoch)) ++ t.retired }

def State.abandonMoves (s : State) : State := s.moves.foldl (fun s m => s.abandonMove m) s

/-! ## The die goes down -/

/-- Flash contents and what the system blocks keep; FAILS and the lockout too, but for a power-on (R427). Confidential
volumes are sealed, and every volume is PT0's (R362). -/
def Flash.kept (f : Flash) (hours : Nat) : Flash :=
  { f with
    windowUs := 0, corrected := List.replicate 16 0, mounted := false, powerLost := false, dripHours := hours
    volumes := f.volumes.map fun (v : Volume) => { v with owner := 0, sealed := v.conf } }

/-- The link of a device that restarts: untrained, but for a write of FULL_RESET, which keeps it and the host's configuration
of the functions (R421). -/
def Link.restart (l : Link) (keep : Bool) : Link :=
  let quiet (f : FnSt) : FnSt := { f with pending := [] }
  if keep then
    { l with
      pf := quiet l.pf, vfs := l.vfs.map quiet, ide := List.replicate 8 false, fnReady := false, lost := false
      ideKeys := List.replicate 8 [], negotiated := false, handshakes := [], sessions := [], sessKeys := [] }
  else { Link.reset with perst := l.perst, nextSid := l.nextSid }

/-- Every volatile part of the device at its reset value; what the module keeps stays (R427). -/
def State.dieDown (s : State) (keepLink : Bool) : State :=
  let s := s.flashStop
  { State.reset with
    pending := s.pending, free := s.free + dramGranules, out := s.out, smbus := s.smbus, mems := s.mems.lost hostBase s.free
    link := s.link.restart keepLink, passage := Passage.reset s.smbus.mid, flash := s.flash.kept s.hours
    faults := { Faults.reset with diesWorn := s.faults.diesWorn }
    jobs := { Jobs.reset with nextUid := s.jobs.nextUid }
    sec := { Sec.reset with keys := s.sec.keys, rng := { Rng.reset with draws := s.sec.rng.draws } }
    power := { Power.reset with pwrbrk := s.power.pwrbrk, tripped := s.power.tripped }
    drip := { Drip.reset with fallback := s.drip.fallback }
    dev := { Dev.reset with lastReset := s.dev.lastReset } }

/-- The die rails go off: the flash's power-loss sequence, then everything volatile is gone (R304, R402, R445). -/
def State.powerOff (s : State) : State :=
  if s.smbus.dieOn then
    let t := s.flashLoss.dieDown false
    { t with
      smbus := { t.smbus with dieOn := false }, dev := { t.dev with clockLost := s.dev.clockLost }
      power := { t.power with rootLock := s.dev.clockLost && s.power.rootLock } }
  else s

/-! ## Self-test (R422) -/

/-- The re-tests that follow a failed start-up test of the RNG (R371). -/
def State.rngStartup (s : State) (ok : Bool) : List Bool → State
  | rest =>
    let serve (r : Rng) : Rng := { r with state := .serving, retests := 0 }
    if ok then s.modRng serve else
      let s := (s.later 0x61 7 0x14 0).modRng fun r => { r with state := .retesting, retests := 1 }
      match rest.take 3 with
      | true :: _ | false :: true :: _ | false :: false :: true :: _ => s.modRng serve
      | [false, false, false] => (s.later 0x61 7 0x15 3).modRng fun r => { r with state := .failed, failed := true, retests := 3 }
      | some_ => s.modRng fun r => { r with retests := 1 + some_.length }

def State.groupFails (s : State) (g : Nat) : State :=
  let s := { s with faults := { s.faults with groupFailed := g :: s.faults.groupFailed } }.setFault
  s.later (0x78 + g) 5 6 g

/-- One engine: its domain ramps, and its tests run. The class of a failed test's record is a free choice between CHECKSUM
and MEMORY: the spec does not say which test failed. -/
def State.testEngine (s : State) (f : SelfTest) (e : Nat) : State :=
  if f.shorted.contains e then (s.later 0x70 0xA 8 e).mapOutEngine e .powerOrTest
  else
    let s := s.ramped e
    if f.badEngines.contains e then
      ((s.later e (if Config.freeBool s.free then 3 else 5) 7 e).drawFree).mapOutEngine e .powerOrTest
    else s

/-- The three polls; a fallback ends when all of its domain's monitors answer validly (R405). -/
def State.testDrip (s : State) (polls : List (List DripFrame)) : State :=
  let polls := polls.take 3
  let valid (d : Nat) : Bool := polls.length == 3 &&
    (List.range' (32 + 8 * d) 8).all fun m => polls.all fun p => dripAnswer p m == 0
  let s := { s with drip := { s.drip with fallback := s.drip.fallback.filter fun d => !valid d } }
  polls.foldl (fun s p => s.dripPoll p) (s.setFallback [])

/-- The records of the event before this reset (R424). -/
def State.noteStart (s : State) : State :=
  let s := if s.power.lossSeen then s.later 0x71 0xC 0x1C 0 else s
  if s.power.tripped then s.later 0x70 0xB 0x1B 3 else s

/-- The boot ROM's self-test, then WAIT_KADON. -/
def State.selfTest (s : State) (f : SelfTest) : State :=
  let s := { s with now := 0, power := { s.power with rootLock := true, sscSeen := f.ssc, floorW := f.floorW } }
  let s := s.rngStartup f.rngOk f.rngRetests
  let s := if f.cryptoOk then s else
    let t := (s.later 0x60 7 0 0).setFault
    { t with sec := { t.sec with cryptoBad := true } }
  let s := f.badGroups.foldl (fun s g => s.groupFails g) s
  let s := (List.range 32).foldl (fun s e => s.testEngine f e) s
  let s := (s.testDrip f.drip).setLevel f.hottest f.sensor
  let s := s.noteStart
  { s with dev := { s.dev with stage := .waitKadon }, link := { s.link with fnReady := s.link.up } }

/-! ## Full resets (R420, R421) -/

/-- A full reset that is not held: the die restarts and tests itself. -/
def State.fullReset (s : State) (keepLink : Bool) (code : Nat) (f : SelfTest) : State :=
  let s := s.dieDown keepLink
  { s with dev := { s.dev with lastReset := code } }.selfTest f

/-- Whether a warm-reset trigger acts as a full reset (R420). -/
def State.escalates (s : State) : Bool :=
  s.dev.secureHalt || s.dev.fault || s.dev.shutdownDone ||
    !(s.dev.stage == .ready || s.dev.stage == .warmReset || s.dev.stage == .shutdown)

/-- After a clock loss the full reset starts when the reference is good and it has been asked for. -/
def State.recoverClock (s : State) (f : SelfTest) : State :=
  if s.dev.clockLost && s.dev.fullWanted && s.power.rootLock && !s.link.perst && s.smbus.dieOn then
    { s with
      dev := { s.dev with clockLost := false, fullWanted := false, lastReset := 2 }
      power := { s.power with lossSeen := true } }.selfTest f
  else s

/-! ## Warm reset (R425 to R427) -/

def warmCode : WarmTrigger → Nat
  | .perst => 3
  | .hot => 4
  | .flr => 5
  | .software => 6

def FnSt.maskAll (f : FnSt) : FnSt := { f with fnMask := true, pending := [] }

/-- What happens to the link: every function's Function Mask set and pending bits cleared; for all triggers but a register
write, VF Enable cleared, streams insecure, and sessions ended. -/
def Link.warm (l : Link) (t : WarmTrigger) : Link :=
  let l := { l with pf := l.pf.maskAll, vfs := l.vfs.map FnSt.maskAll }
  if t == .software then l else
    { l with
      vfEnable := false, ide := List.replicate 8 false, ideKeys := List.replicate 8 [], negotiated := false
      handshakes := [], sessions := [], sessKeys := [], lost := false }

/-- The registers of R427 that a warm reset gives their reset values. -/
def State.warmRegisters (s : State) : State :=
  { s with
    qps := s.qps.map fun (q : Qp) => { Qp.reset with part := q.part }
    jobs := { s.jobs with rr := Jobs.reset.rr, cpTurn := 0 }
    trace := Trace.reset, replay := Replay.reset
    siphon := { Siphon.reset with satCount := s.siphon.satCount }
    vision := { Vision.reset with satCount := s.vision.satCount }
    echo := { Echo.reset with satCount := s.echo.satCount }
    dram := { s.dram with trainCmd := 0, trainResult := 0, trainOffset := 0, trainUser := 0, trainAddr := 0 }
    kadon := { s.kadon with cps := s.kadon.cps.zipIdx.map fun (x : Cp × Nat) =>
      if x.2 < 3 then { x.1 with state := .held } else x.1, bootHeld := none } }

/-- Steps 1 to 3. R, the moment of release, is PERST_N's deassertion, or at once. -/
def State.warmBegin (s : State) (t : WarmTrigger) : State :=
  let s := s.disableAllQps
  let s := { s with
    link := s.link.warm t, power := { s.power with lossSeen := false }
    dev := { s.dev with
      ready := false, stage := .warmReset, noTake := true, shutting := false, lastReset := warmCode t
      released := t != WarmTrigger.perst } }
  (s.endAllJobs.abandonMoves).warmRegisters

/-- A warm-reset trigger other than PERST_N. -/
def State.warmTrigger (s : State) (t : WarmTrigger) (f : SelfTest) : State :=
  if s.escalates then s.fullReset (t == .software) 2 f else s.warmBegin t

/-! ## READY (R424) -/

/-- PT0 with everything that the device has. -/
def State.initialConfig (s : State) : State :=
  let live := (List.range 32).filter fun e => !(s.eng e).mappedOut
  let pt0 : Part :=
    { Part.absent with
      valid := true, expert := true, powerPriv := true, granules := List.range s.dram.granulesBacked, sumpQuota := 3840
      engines := live, prefillCount := 8 }
  let s := { s with
    parts := s.parts.set 0 pt0, kvs := s.kvs.set 0 { Kv.empty with lastAdvance := s.now } }
  s.reserveTables 0

def State.enterStartFaults (s : State) : State :=
  { s.dev.startFaults.foldl (fun (s : State) (r : Nat × Nat × Nat × Nat) => s.raise r.1 r.2.1 r.2.2.1 none 0 r.2.2.2) s with
    dev := { s.dev with startFaults := [] } }

/-- READY = 1, announced by MSI-X entry 63. -/
def State.setReady (s : State) : State :=
  { s with dev := { s.dev with ready := true, stage := .ready, noTake := s.link.lost, released := false } }.raiseMsix .pf 63

def State.kadonRuns (s : State) : Bool := (List.range 4).all fun n => s.cpRunning n

/-- READY after a power-on or full reset, or the end of a warm reset. -/
def State.becomeReady (s : State) : State :=
  match s.dev.stage with
  | .training =>
    if (s.kadonRuns || s.dev.fault) && s.dram.trained && s.flash.mounted then (s.initialConfig.enterStartFaults).setReady else s
  | .warmReset =>
    if s.dev.released && !s.link.perst then
      let cps := s.kadon.cps.zipIdx.map fun (x : Cp × Nat) => if x.2 < 3 then x.1.start s.now else x.1
      { s with kadon := { s.kadon with cps := cps } }.setReady
    else s
  | _ => s

/-! ## Shutdown (R428) -/

/-- Operations that a die has in hand run to their end; a read is dropped with its cancelled job. -/
def State.settleDie (s : State) (die : Nat) : Nat → State
  | 0 => s
  | fuel + 1 =>
    let s := s.modHead die fun o => { o with suspended := false }
    match (s.die die).ops with
    | [] => s
    | o :: _ =>
      if o.kind == .read then State.settleDie (s.endOp die o) die fuel
      else State.settleDie (s.opDone die o .verified) die fuel

def State.settleFlash (s : State) : State := (List.range 32).foldl (fun s d => s.settleDie d (s.die d).ops.length) s

/-- Steps 1 and 2 for one job. -/
def State.shutJob (s : State) (j : Job) : State :=
  if j.finished || uncancellable j.opcode then s
  else if j.state == .cancelling then s else s.startEnding j.uid .cancel

def State.endCancelled (s : State) : State :=
  (s.jobs.list.filter fun j => j.state == .cancelling && !j.finished).foldl (fun s j => s.endWithdrawal j) s

def State.portsDown (s : State) : State :=
  [0, 1].foldl (fun s n => if (s.pport n).isUp then s.portFails n 0 .down else s.modPport n fun p => { p with state := .down }) s

/-- Steps 3 to 5. -/
def State.finishShutdown (s : State) : State :=
  let s := { s with flash := { s.flash with journal := s.flash.journal ++ s.flash.pendingJ, pendingJ := [] } }
  let s := (List.range 32).foldl (fun s e => s.switchOff e) s.portsDown
  { s with dev := { s.dev with shutdownDone := true, shutting := false, stage := .shutdown } }.raiseMsix .pf 63

/-- Whether the last jobs have ended. -/
def State.quiet (s : State) : Bool := s.jobs.list.all Job.finished

/-- A shutdown that waited for its last jobs goes on. -/
def State.goOn (s : State) : State := if s.dev.shutting && s.quiet then s.finishShutdown else s

def State.shutDown (s : State) : State :=
  let s := { s with dev := { s.dev with noTake := true, shutting := true } }
  let s := s.jobs.list.foldl (fun s j => s.shutJob j) s
  (s.settleFlash.endCancelled).goOn

/-- Whether a shutdown can begin. -/
def State.canShut (s : State) : Bool :=
  s.alive && !s.dev.shutdownDone && !s.dev.shutting && !(s.dev.stage == .selfTest || s.dev.stage == .warmReset)

end Sys2Proof.Machine
end

