-- ==== Sys2Proof/Machine/Resets.lean ====
section
/-! DEFINITION. Resets, READY, shutdown, and what stops the die: POWER_ON, FULL_RESET, WARM_RESET, PERST_N, FLR_PF, HOT_RESET,
DEVICE_READY, SHUTDOWN, D3HOT_ENTRY, D3HOT_EXIT, RAILS_VALID, STRAP_SAMPLE, POWER_LOSS, P12V_OVERVOLTAGE, AUX_RAIL_LOSS,
THERMAL_TRIP, CLOCK_LOSS and REFERENCE_CLOCK_RESTORED (R304, R391, R402, R419 to R429, R445, R447, R452). -/

namespace Sys2Proof.Machine

/-- The idle device: one timebase tick (R389) while the die has a clock; a shutdown that waits goes on (log entry 2). -/
def State.idle (s : State) : State :=
  if s.alive then ({ s with now := s.now + 1 }).goOn.reconsider.flushJournal else s

/-! ## Rails and straps -/

/-- A module that a trip has switched off: it stays off until P12V has been away and comes back while the auxiliary sensor reads
below 95 °C (R402); what that sensor reads then, no command says: a free choice (log entry 134). -/
def State.tripHolds (s : State) : Bool := s.smbus.tripOff && (s.smbus.p12v || !Config.freeBool s.free)

/-- The die rails start: power-on reset begins. -/
def execRailsValid (s : State) : Res :=
  let m := s.smbus
  .next (if m.dieOn || !m.aux then s
    else if s.tripHolds then { s with smbus := { m with p12v := true } }.drawFree
    else
    let lost := s.dev.clockLost
    let held := lost && !s.power.rootLock
    let t := (if m.tripOff then s.drawFree else s).dieDown false
    { t with
      smbus := { t.smbus with p12v := true, dieOn := true, tripOff := false }
      flash := { t.flash with fails := 0, lockout := false }
      dev := { t.dev with lastReset := if lost then 2 else 0, clockLost := held, fullWanted := held }
      power := { t.power with tripped := m.tripOff, lossSeen := lost && !held } })

/-- MID is sampled when P3V3_AUX enters its range. -/
def execStrapSample (mid : Nat) (s : State) : Res :=
  .next (if s.smbus.aux then s else
    { s with
      smbus := { s.smbus with aux := true, mid := mid % 16, addr := 0x20 + mid % 16 }
      passage := { s.passage with id := mid % 16 } })

/-- P12V below 10.0 V for 10 µs. -/
def execPowerLoss (s : State) : Res :=
  .next (let t := s.powerOff
    { t with smbus := { t.smbus with p12v := false } })

/-- P12V above 13.8 V for 10 µs. -/
def execP12vOvervoltage (s : State) : Res :=
  .next (let t := s.powerOff
    { t with smbus := { t.smbus with p12v := false } })

/-- P3V3_AUX leaves its range: the SMBus interface and the straps are reset, the held settings cleared, and the die stops. -/
def execAuxRailLoss (s : State) : Res :=
  .next (let t := s.powerOff
    { t with smbus :=
      { t.smbus with
        aux := false, capSet := 0, emergency := false, tripped := false, clockLoss := false, alert := false, fruOff := 0 } })

/-- The trip comparator at 115 °C (R402). -/
def execThermalTrip (s : State) : Res :=
  .next (if s.smbus.dieOn then
      let t := s.powerOff
      { t with smbus := { t.smbus with tripOff := true, tripped := true, alert := true } }
    else s)

/-! ## The reference clock (R391) -/

def execClockLoss (s : State) : Res :=
  .next (if s.alive then
      let t := s.dieDown false
      { t with
        dev := { t.dev with clockLost := true }, smbus := { t.smbus with clockLoss := true, alert := true } }
    else { s with power := { s.power with rootLock := false } })

def execReferenceClockRestored (found : SelfTest) (s : State) : Res :=
  .next (if s.dev.clockLost then ({ s with power := { s.power with rootLock := true } }).recoverClock found else s)

/-! ## Power-on and resets -/

def execPowerOn (found : SelfTest) (s : State) : Res :=
  .next (if s.alive && s.dev.stage == .selfTest && !s.link.perst && !s.dev.fullWanted then s.selfTest found else s)

/-- Whether a hot reset comes through the link. -/
def State.linkResets (s : State) : Bool := s.alive && s.link.up && !s.link.perst && !s.link.d3hot

def execFullReset (fn : Fn) (found : SelfTest) (s : State) : Res :=
  .next (if fn == .pf && s.reaches fn then s.fullReset true 1 found else s)

def execWarmReset (fn : Fn) (found : SelfTest) (s : State) : Res :=
  .next (if fn == .pf && s.reaches fn then s.warmTrigger .software found else s)

/-- A write of DEVICE_CTL: one bit starts a warm reset, a full reset or a shutdown; a write with more than one bit set is
ignored. -/
def State.writeDeviceCtl (s : State) (v : Nat) (found : SelfTest) : State :=
  match v % 8 with
  | 1 => s.warmTrigger .software found
  | 2 => s.fullReset true 1 found
  | 4 => if s.canShut then s.shutDown else s
  | _ => s

def execFlrPf (found : SelfTest) (s : State) : Res :=
  .next (s.configure .pf fun s => if s.link.d3hot then s else s.warmTrigger .flr found)

def execHotReset (found : SelfTest) (s : State) : Res :=
  .next (if s.linkResets then s.warmTrigger .hot found else s)

/-- PERST_N goes low: the link is lost, and a warm reset begins, or a full reset is held until it is high again. -/
def State.perstLow (s : State) : State :=
  let s := { s with link := { s.link with perst := true, up := false, fnReady := false } }
  if !s.smbus.dieOn then s
  else if s.dev.clockLost then { s with dev := { s.dev with fullWanted := true } }
  else if s.escalates then
    let t := s.dieDown false
    { t with dev := { t.dev with lastReset := 2, fullWanted := true } }
  else ({ s with dev := { s.dev with linkLost := true } }).warmBegin .perst

/-- PERST_N goes high: a warm reset is released, a full reset runs. -/
def State.perstHigh (s : State) (f : SelfTest) : State :=
  let s := { s with link := { s.link with perst := false }, dev := { s.dev with released := s.dev.stage == Stage.warmReset } }
  if s.dev.clockLost then s.recoverClock f
  else if s.dev.fullWanted && s.smbus.dieOn then { s with dev := { s.dev with fullWanted := false } }.selfTest f
  else s

/-- A low pulse shorter than 1 µs is ignored. -/
def execPerstN (asserted : Bool) (lowNs : Nat) (found : SelfTest) (s : State) : Res :=
  .next (if asserted then
      if lowNs < 1000 || s.link.perst then s else s.perstLow
    else if s.link.perst then s.perstHigh found else s)

def execDeviceReady (s : State) : Res := .next (if s.alive then s.becomeReady else s)

/-! ## Shutdown and D3 (R428, R429) -/

def execShutdown (fn : Fn) (s : State) : Res :=
  .next (if fn == .pf && s.reaches fn && s.canShut then s.shutDown else s)

def execD3hotEntry (s : State) : Res :=
  .next (s.configure .pf fun s =>
    if s.link.d3hot then s else
      let t := { s with link := { s.link with d3hot := true } }
      if t.canShut then t.shutDown else t)

/-- A return to D0 is a full reset; which LAST_RESET it shows, the spec does not say. -/
def execD3hotExit (found : SelfTest) (s : State) : Res :=
  .next (s.configure .pf fun s => if s.link.d3hot then (s.drawFree).fullReset false (Config.freeNat s.free % 7) found else s)

end Sys2Proof.Machine
end

