-- ==== Sys2Proof/Machine/HostLink.lean ====
section
/-! DEFINITION. The host link: LINK_TRAINED, LINK_LOSS, FLR_VF, BAR4_ACCESS, OWNING_FUNCTION_CHANGE, MSIX_UNMASK,
BUS_MASTER_ENABLE, IDE_INTEGRITY_FAIL, IDE_KM and DOE_DISCOVERY (R321 to R331, R459). -/

namespace Sys2Proof.Machine

/-! ## What configuration space shows (R321) -/

inductive LinkFeature where
  | tenBitTags | l0s | l1 | aer | functionReset | sriov | msix | intx | msi | ide | doe | hotPlug | ats | pri | pasid
  deriving DecidableEq, Repr

/-- A feature that R321 does not list, or lists as not supported, reads as absent. -/
def LinkFeature.present : LinkFeature → Bool
  | .tenBitTags | .l1 | .aer | .functionReset | .sriov | .msix | .ide | .doe | .hotPlug => true
  | .l0s | .intx | .msi | .ats | .pri | .pasid => false

/-- Processing accelerator. -/
def classCode : Nat := 0x120000

/-- Non-posted requests that the device may have outstanding. -/
def maxTags : Nat := 256

/-! ## Training, loss and function-level reset -/

/-- What training settles: one of the five speeds and of the four widths, which the host's side decides (log entry 132). -/
def LinkCfg.trained (c : LinkCfg) (n : Nat) : LinkCfg :=
  { c with speed := 1 + Config.freeNat n % 5, width := 2 ^ (Config.freeNat (n + 1) % 4) }

def execLinkTrained (s : State) : Res :=
  .next (if s.alive && !s.link.perst && !s.link.up then
      let l := { s.link with up := true, fnReady := s.dev.stage != Stage.selfTest, cfg := s.link.cfg.trained s.free }
      let t := ({ s with link := l }).drawFree.drawFree
      (t.raiseMsix .pf 63).flushMsix .pf
    else s)

/-- The data link layer goes down without a hot reset: LINK_LOST. -/
def execLinkLoss (s : State) : Res :=
  .next (if s.alive && s.link.up then
      let t := { s with
        link := { s.link with up := false, lost := true }, dev := { s.dev with linkLost := true, noTake := true } }
      (t.disableAllQps.endAllJobs).raiseMsix .pf 63
    else s)

def State.setIde (s : State) (k : Nat) (secure : Bool) : State :=
  { s with link := { s.link with ide := s.link.ide.set k secure } }

/-- FLR of the VF of PTv: queue pairs disabled, jobs cancelled without records, table masked, stream insecure. -/
def execFlrVf (v : Nat) (s : State) : Res :=
  .next (s.configure (.vf v) fun s => if s.reaches (.vf v) then
      let t := (s.qpsOf v).foldl (fun s n => s.disableQp n true) s
      let t := (t.jobs.list.filter fun j => j.part == v).foldl (fun s j => s.endSilently j) t
      (t.modFn (.vf v) fun f => { f with masked := List.range 8 }).setIde v false
    else s)

/-! ## BAR4 (R324) -/

/-- The device address of a BAR4 offset, or none where it reaches no granule. -/
def State.bar4At (s : State) (fn : Fn) (o : Nat) : Option Nat :=
  match fn with
  | .pf =>
    let a := s.dev.bar4Base * granuleBytes + o
    if a / granuleBytes < s.dram.granulesBacked then some a else none
  | .vf v =>
    ((sortBy (fun a b => decide (a < b)) (s.part v).granules)[o / granuleBytes]?).map fun g =>
      g * granuleBytes + o % granuleBytes

/-- The size of a function's BAR4 (R323): an access beyond it is not the function's, and does not arrive. -/
def State.bar4Size (s : State) : Fn → Nat
  | .pf => s.link.cfg.bar4Size
  | .vf _ => 16 * granuleBytes

/-- Whether a granule may be reached: not a confidential partition's through the PF, nor its own without its stream. -/
def State.bar4Allowed (s : State) (fn : Fn) (ide : Bool) (a : Nat) : Bool :=
  match fn with
  | .pf => match s.ownerOf a with
    | some p => !s.conf p
    | none => true
  | .vf v => !s.conf v || (ide && s.link.ide.getD v false)

/-- The pieces of an access by granule of the window, each with its device address and length; none where one of them may not
be reached. -/
def State.bar4Target (s : State) (fn : Fn) (o len : Nat) (ide : Bool) : Option (List (Nat × Nat)) :=
  ((List.range ((o + len - 1) / granuleBytes + 1 - o / granuleBytes)).map fun i =>
    let lo := max o ((o / granuleBytes + i) * granuleBytes)
    let hi := min (o + len) ((o / granuleBytes + i + 1) * granuleBytes)
    ((s.bar4At fn lo).filter (s.bar4Allowed fn ide)).map fun a => (a, hi - lo)).foldr
      (fun x l => x.bind fun p => l.map fun ps => p :: ps) (some [])

def Fn.part : Fn → Option Nat
  | .pf => none
  | .vf v => some v

/-- A refused read returns all ones; a refused write is dropped; each is an occurrence. -/
def State.bar4Refuse (s : State) (fn : Fn) (len : Nat) (write : Bool) : State :=
  let s := s.raise 0x50 1 0 (Fn.part fn) 0 0
  if write then s
  else { s with out := { s.out with bar4 := some (List.replicate len 0xFF), bar4Poisoned := false } }

/-- Words that a read corrects, counted in their channels (R270). -/
def State.countCorrected (s : State) (ws : List Nat) : State :=
  ws.foldl (fun s w => s.modChan (dramLoc s.activeChans (32 * w)).chan fun c =>
    { c with corrected := satInc top32 c.corrected 1 }) s

/-- The words of an access that it has to read. -/
def State.bar4Words (ps : List (Nat × Nat)) (write : Bool) : List Nat :=
  ps.flatMap fun p => (wordsOf p.1 p.2).filter fun w => !(write && covers p.1 p.2 w)

/-- The words whose read in this access is uncorrectable are poisoned words for it; a read leaves the stored check as it stands. -/
def State.bar4Meet (s : State) (ps : List (Nat × Nat)) (met : Bar4Met) (write : Bool) : State :=
  let ws := State.bar4Words ps write
  let lost := ws.filter fun w => met.bad.contains w && !s.dram.poisoned.contains w
  let s := s.countCorrected (ws.filter fun w =>
    met.single.contains w && !met.bad.contains w && !s.dram.poisoned.contains w)
  { s with dram := { s.dram with poisoned := lost ++ s.dram.poisoned } }

/-- A read: with an uncorrectable word its data are undefined and the completion is poisoned. -/
def State.bar4Read (s : State) (ps : List (Nat × Nat)) : State :=
  let bad := ps.flatMap fun p => s.badWords p.1 p.2
  if bad.isEmpty then
    { s with out := { s.out with bar4 := some (ps.flatMap fun p => s.bytesAt p.1 p.2), bar4Poisoned := false } }
  else
    let n := (ps.map Prod.snd).sum
    let t := { s with out := { s.out with bar4 := some (s.freeBytes n), bar4Poisoned := true } }.drawFree
    t.reportWords bad

/-- A write, piece by piece. -/
def State.bar4Write (s : State) : List (Nat × Nat) → List Byte → State
  | [], _ => s
  | p :: ps, bs => State.bar4Write (s.store p.1 (bs.take p.2)) ps (bs.drop p.2)

def execBar4Access (fn : Fn) (offset len : Nat) (met : Bar4Met) (write : Option (List Byte)) (s : State) : Res :=
  .next (if !(s.reaches fn && decide (1 ≤ len) && decide (offset + len ≤ s.bar4Size fn)) then s else
    match s.bar4Target fn offset len met.ide, write with
    | none, w => s.bar4Refuse fn len w.isSome
    | some ps, none =>
      let t := (s.bar4Meet ps met false).bar4Read ps
      { t with dram := { t.dram with poisoned := s.dram.poisoned } }
    | some ps, some bs => (s.bar4Meet ps met true).bar4Write ps bs)

/-! ## Functions and interrupts (R322, R325, R326) -/

/-- Partitions whose owning function changes have their queue pairs disabled. -/
def State.changeFns (s : State) (vfEnable : Bool) (numVfs : Nat) : State :=
  let t := { s with link := { s.link with vfEnable := vfEnable, numVfs := min 8 numVfs } }
  let moved := (List.range 8).filter fun p => s.ownFn p != t.ownFn p
  (moved.flatMap s.qpsOf).foldl (fun s n => s.disableQp n true) t

def execOwningFunctionChange (vfEnable : Bool) (numVfs : Nat) (s : State) : Res :=
  .next (s.configure .pf fun s => if s.reaches .pf then s.changeFns vfEnable numVfs else s)

def FnSt.unmask (f : FnSt) : MsixTarget → FnSt
  | .entry e => { f with masked := f.masked.filter fun n => n != e }
  | .function => { f with fnMask := false }
  | .enable => { f with msixOn := true }

/-- Function Mask and MSI-X Enable lie in configuration space, an entry's mask in the table. -/
def execMsixUnmask (fn : Fn) (target : MsixTarget) (s : State) : Res :=
  let go (s : State) : State := if s.reaches fn then (s.modFn fn fun f => f.unmask target).flushMsix fn else s
  .next (match target with
    | .entry _ => go s
    | _ => s.configure fn go)

def execBusMasterEnable (fn : Fn) (s : State) : Res :=
  .next (s.configure fn fun s => if s.reaches fn then (s.modFn fn fun f => { f with busMaster := true }).flushMsix fn else s)

/-! ## IDE and DOE (R327, R328) -/

def execIdeIntegrityFail (stream : Nat) (s : State) : Res :=
  .next (if s.link.ide.getD stream false then (s.setIde stream false).raise 0x50 7 0x13 none 0 stream else s)

/-- The DOE mailbox answers: the PF is reached, and SP runs. -/
def State.doeUp (s : State) : Bool := s.reaches .pf && !s.dev.secureHalt

/-- An object holds at most 64 KiB (R328); no answer of SP is longer than this. The mailbox takes an object and answers it within
one command, so that DOE Busy is clear between commands. -/
def doeMax : Nat := 65536 - 64

def State.doeAnswer (s : State) (m : DoeMsg) : State := { s with out := { s.out with doe := m :: s.out.doe } }

/-- The protocols of the mailbox, by their PCI-SIG numbers (PRESUMED; log entry 24). -/
def execDoeDiscovery (index : Nat) (s : State) : Res :=
  .next (if s.doeUp then
      s.doeAnswer (if index < 3 then .discovery [0, 1, 2] else .errorInvalid)
    else s)

/-- IDE_KM over a secured session keys a stream. -/
def execIdeKm (via : SpdmVia) (key : IdeKey) (s : State) : Res :=
  .next (if !s.doeUp then s else match via with
    | .clear => s.doeAnswer .errorInvalid
    | .session sid =>
      if s.link.sessions.contains sid && decide (key.stream < 8) then
        let t := s.setIde key.stream true
        { t with link := { t.link with ideKeys := t.link.ideKeys.set key.stream key.key } }.doeAnswer (.ideKmAck key.stream)
      else s.doeAnswer .errorInvalid)

end Sys2Proof.Machine
end

