-- ==== Sys2Proof/Machine/Spdm.lean ====
section
/-! DEFINITION. The SPDM responder of SP: GET_VERSION, GET_CAPABILITIES, NEGOTIATE_ALGORITHMS, GET_DIGESTS, GET_CERTIFICATE,
CHALLENGE, GET_MEASUREMENTS, KEY_EXCHANGE, FINISH, HEARTBEAT, KEY_UPDATE and END_SESSION (R328, R369, R371). The order of the
messages and the payload layouts: log entry 24. -/

namespace Sys2Proof.Machine

/-- A request's carrier is valid: in the clear, or under a session that stands. -/
def State.viaOk (s : State) : SpdmVia → Bool
  | .clear => true
  | .session sid => s.link.sessions.contains sid

/-- Answer a request that needs an agreed connection. -/
def State.spdm (s : State) (via : SpdmVia) (f : State → State) : State :=
  if !s.doeUp then s else if s.link.negotiated && s.viaOk via then f s else s.doeAnswer .errorInvalid

/-- GET_VERSION begins a connection anew. -/
def execGetVersion (via : SpdmVia) (s : State) : Res :=
  .next (if !s.doeUp then s
    else if via == .clear then { s with link := { s.link with negotiated := false } }.doeAnswer .version
    else s.doeAnswer .errorInvalid)

def execGetCapabilities (via : SpdmVia) (s : State) : Res :=
  .next (if !s.doeUp then s else s.doeAnswer (if via == .clear then .capabilities else .errorInvalid))

/-- `offered` says that the requester offers the algorithms of R328. -/
def execNegotiateAlgorithms (via : SpdmVia) (offered : Bool) (s : State) : Res :=
  .next (if !s.doeUp then s
    else if via == .clear && offered then { s with link := { s.link with negotiated := true } }.doeAnswer .algorithms
    else s.doeAnswer .errorInvalid)

def execGetDigests (via : SpdmVia) (s : State) : Res := .next (s.spdm via fun s => s.doeAnswer (.digests (sha384 certBytes)))

/-- Only slot 0 holds a chain. -/
def execGetCertificate (via : SpdmVia) (slot offset len : Nat) (s : State) : Res :=
  .next (s.spdm via fun s => s.doeAnswer (
    if slot = 0 ∧ offset < Config.certLength then .certificate ((certBytes.drop offset).take (min len doeMax)) else .errorInvalid))

/-- Signed with the identity key. -/
def execChallenge (via : SpdmVia) (slot : Nat) (nonce : List Byte) (s : State) : Res :=
  .next (s.spdm via fun s => (s.spWork 80).doeAnswer (
    if slot = 0 then .challengeAuth (sha384 certBytes ++ nonce ++ signed (sha384 certBytes ++ nonce)) else .errorInvalid))

/-- The block of an index, as its bytes. -/
def State.measurement (s : State) (i : Nat) : List Byte :=
  match i with
  | 1 => romBytes
  | 2 | 3 | 4 | 5 => pad48 (s.cp (i - 2)).digest
  | 6 => fuseBytes
  | 7 => leBytes 4 s.stateWord
  | 8 => (List.range 8).flatMap s.reportPart
  | 9 => leBytes 1 s.confMask ++ leBytes 1 s.ideMask
  | _ => []

/-- Index 0 asks for the number of blocks, 255 for all of them. -/
def execGetMeasurements (via : SpdmVia) (index : Nat) (nonce : List Byte) (s : State) : Res :=
  .next (s.spdm via fun s =>
    let body := if index = 0 then leBytes 1 9
      else if index = 255 then (List.range' 1 9).flatMap s.measurement else s.measurement index
    (s.spWork (body.length + 32)).doeAnswer (
      if index < 10 ∨ index = 255 then .measurements (body ++ nonce ++ signed (body ++ nonce)) else .errorInvalid))

/-- SP's side of the exchange of fresh value `d`: its ephemeral public key, signed with the identity key. -/
def exchangeBytes (d : Nat) : List Byte :=
  let pub := (List.range 96).map (Config.ecdhePublic d)
  pub ++ signed pub

/-- A handshake needs a fresh value and one of the 4 sessions; its key comes from SP's fresh value and the requester's key. -/
def State.openSession (s : State) (theirs : List Byte) : State :=
  if 4 ≤ s.link.sessions.length + s.link.handshakes.length then s.doeAnswer .errorSessions
  else match s.rngAsk .spdm with
    | (some d, s) =>
      let sid := s.link.nextSid
      let key := Config.sessionKey (Config.ecdheSecret d theirs) theirs
      ({ s with link := { s.link with
          handshakes := s.link.handshakes ++ [sid], sessKeys := (sid, key) :: s.link.sessKeys, nextSid := sid + 1 } }.spWork
        96).doeAnswer (.keyExchangeRsp sid (exchangeBytes d))
    | (none, _) => s.doeAnswer (if s.sec.rng.failed then .errorUnspecified else .errorBusy)

def execKeyExchange (via : SpdmVia) (publicKey : List Byte) (s : State) : Res :=
  .next (s.spdm via fun s => if via == .clear then s.openSession publicKey else s.doeAnswer .errorInvalid)

/-- A session is over: its key goes. -/
def Link.dropKey (l : Link) (sid : Nat) : Link := { l with sessKeys := l.sessKeys.filter fun x => x.1 != sid }

/-- The handshake's MAC decides whether its session stands. -/
def execFinish (via : SpdmVia) (macOk : Bool) (s : State) : Res :=
  .next (if !s.doeUp then s else match via with
    | .clear => s.doeAnswer .errorInvalid
    | .session sid =>
      if s.link.handshakes.contains sid then
        let t := { s with link := { s.link with
          handshakes := s.link.handshakes.filter fun n => n != sid
          sessions := if macOk then s.link.sessions ++ [sid] else s.link.sessions } }
        if macOk then t.doeAnswer .finishRsp else { t with link := t.link.dropKey sid }.doeAnswer .errorInvalid
      else s.doeAnswer .errorInvalid)

/-- A message that only a standing session carries. -/
def State.inSession (s : State) (via : SpdmVia) (f : Nat → State → State) : State :=
  if !s.doeUp then s else match via with
    | .clear => s.doeAnswer .errorInvalid
    | .session sid => if s.link.sessions.contains sid then f sid s else s.doeAnswer .errorInvalid

def execHeartbeat (via : SpdmVia) (s : State) : Res := .next (s.inSession via fun _ s => s.doeAnswer .heartbeatAck)

def execKeyUpdate (via : SpdmVia) (s : State) : Res :=
  .next (s.inSession via fun sid s =>
    let keys := s.link.sessKeys.map fun x => if x.1 == sid then (sid, Config.updatedKey x.2) else x
    { s with link := { s.link with sessKeys := keys } }.doeAnswer .keyUpdateAck)

def execEndSession (via : SpdmVia) (s : State) : Res :=
  .next (s.inSession via fun sid s =>
    let l := { s.link with sessions := s.link.sessions.filter fun n => n != sid }
    { s with link := l.dropKey sid }.doeAnswer .endSessionAck)

end Sys2Proof.Machine
end

