-- ==== Sys2Proof/Machine/KadonFw.lean ====
section
/-! DEFINITION. Kadon: CP_BOOT_GO, FW_UPDATE, CP_WATCHDOG, CP_RESTART_DONE and SP_WATCHDOG (R374 to R382, R443). -/

namespace Sys2Proof.Machine

/-! ## The bundle (R374, R375) -/

/-- One entry of a bundle: where its image lies, its version, and the state-record formats it writes and adopts. -/
structure BundleEntry where
  offset : Nat
  bytes : Nat
  version : Nat
  stateVersion : Nat
  adoptMin : Nat
  adoptMax : Nat
  deriving DecidableEq, Repr

def bAt (bs : List Byte) (a n : Nat) : Nat := leNat ((bs.drop a).take n)

def bundleEntry (bs : List Byte) (i : Nat) : BundleEntry :=
  let a := 64 + 32 * i
  { offset := bAt bs a 4, bytes := bAt bs (a + 4) 4, version := bAt bs (a + 8) 4, stateVersion := bAt bs (a + 12) 2
    adoptMin := bAt bs (a + 14) 2, adoptMax := bAt bs (a + 16) 2 }

def zeroRange (bs : List Byte) (a n : Nat) : Bool := ((bs.drop a).take n).all fun b => b == 0

def entryFits (n : Nat) (e : BundleEntry) : Bool :=
  e.offset % 4096 == 0 && decide (4096 ≤ e.offset) && decide (4096 ≤ e.bytes) && decide (e.bytes ≤ 524288) &&
    decide (e.offset + e.bytes ≤ n)

def entriesApart (a b : BundleEntry) : Bool := decide (a.offset + a.bytes ≤ b.offset) || decide (b.offset + b.bytes ≤ a.offset)

/-- The structural checks. -/
def bundleForm (bs : List Byte) (n : Nat) : Bool :=
  let es := (List.range 4).map (bundleEntry bs)
  n % 4096 == 0 && decide (4096 ≤ n) && bs.take 8 == [0x41, 0x58, 0x4D, 0x4B, 0x41, 0x44, 0x4F, 0x4E] && bAt bs 8 4 == 1 &&
    bAt bs 12 4 == n && zeroRange bs 20 44 && zeroRange bs 192 224 &&
    ((List.range 4).all fun i => zeroRange bs (64 + 32 * i + 18) 14) && es.all (entryFits n) &&
    ((List.range 4).all fun i => (List.range i).all fun k => entriesApart (bundleEntry bs i) (bundleEntry bs k))

def bundleSigned (bs : List Byte) : Bool :=
  Config.firmwareVerify (sha384 (bs.take 416 ++ List.replicate 96 0 ++ bs.drop 512)) ((bs.drop 416).take 96)

/-- 0 where the bundle is accepted; else the CP_BOOT_STATUS code of the first check that fails, in R375's order. -/
def bundleVerdict (bs : List Byte) (n : Nat) : Nat :=
  if !bundleForm bs n then 3 else if bAt bs 16 4 < Config.minSvn then 5 else if !bundleSigned bs then 4 else 0

def imageDigest (bs : List Byte) (i : Nat) : List Byte :=
  let e := bundleEntry bs i
  sha384 ((bs.drop e.offset).take e.bytes)

/-- An image becomes a processor's running image, of which SP keeps the verified copy. -/
def Cp.install (c : Cp) (bs : List Byte) (i : Nat) : Cp :=
  let e := bundleEntry bs i
  { c with
    version := e.version, stateVersion := e.stateVersion, digest := imageDigest bs i
    image := (bs.drop e.offset).take e.bytes }

/-! ## CP_BOOT_GO (R376, R443) -/

/-- The outcome appears, announced by MSI-X entry 63. -/
def State.bootEnds (s : State) (result : Nat) : State :=
  { s with kadon := { s.kadon with bootResult := result } }.raiseMsix .pf 63

/-- All four processors run the bundle; training begins. -/
def State.startKadon (s : State) (bs : List Byte) : State :=
  { s with
    kadon := { s.kadon with cps := s.kadon.cps.zipIdx.map fun (x : Cp × Nat) => (x.1.install bs x.2).start s.now }
    dev := { s.dev with stage := .training } }

def State.loadKadon (s : State) (hostReadOk : Bool) : State :=
  let n := s.kadon.bootBytes
  if n % 4096 ≠ 0 then s.bootEnds 3
  else if !(hostReadOk && s.pfHostOk) then s.bootEnds 6
  else
    let bs := s.bytesAt (hostBase + s.kadon.bootAddr) n
    let v := bundleVerdict bs n
    if v = 0 then (s.startKadon bs).bootEnds 2 else s.bootEnds v

/-- A write of CP_BOOT_CTL.GO: it acts in WAIT_KADON only, where no load is under way and none is done. -/
def State.bootGo (s : State) (hostReadOk : Bool) : State :=
  if s.dev.stage == .waitKadon && !s.sec.cryptoBad then s.loadKadon hostReadOk else s

def execCpBootGo (fn : Fn) (hostReadOk : Bool) (s : State) : Res :=
  .next (if fn == .pf && s.reaches fn then s.bootGo hostReadOk else s)

/-! ## Watchdogs (R377, R378) -/

/-- The entry in turn of a running KV_MOVE moves pages between tiers (SPILL, FETCH). -/
def State.movesTier (s : State) (j : Job) : Bool :=
  j.opcode == 0x06 && j.state == .running && match j.ext with
    | .items done _ =>
      decide (done < dCount j.words) && [1, 2].contains (kmAction (s.kmEntry j done))
    | _ => false

/-- A LOAD_MODEL in progress reads the flash. -/
def State.loadsFlash (s : State) (j : Job) : Bool :=
  j.opcode == 0x01 && j.state == .running && (match j.ext with
    | .load _ _ => true
    | _ => false) &&
    (s.slots.find? fun t => t.idx == dSlot j.words && t.part == j.part).any fun t => match t.source with
      | .volume _ _ _ => true
      | _ => false

/-- Whether a job belongs to CPn. -/
def State.belongs (s : State) (n : Nat) (j : Job) : Bool :=
  !j.finished && (if n = 2 then
      s.waitsMove j.uid || (j.opcode == 0x0C && j.state == .running) || s.movesTier j || s.loadsFlash j ||
        (flashOp j.opcode && s.flash.dies.any fun d => d.ops.any fun o => o.uid == j.uid && d.running o)
    else j.cp == n && j.state != .queued)

/-- End a job with DEVICE_FAULT and the effects of a cancelled one. -/
def State.faultJob (s : State) (uid : Nat) : State :=
  let s := (s.jobError uid stFault).withdraw uid
  match s.job? uid with
  | none => s
  | some j => if j.finished then s else (s.cancelEffects j).finishJob j j.progress

/-- Jobs that CPn has taken and not begun go to the other of CP0 and CP1. -/
def State.handOver (s : State) (n : Nat) : State :=
  if n < 2 && s.cpRunning (1 - n) then
    { s with jobs := { s.jobs with list := s.jobs.list.map fun j =>
      if j.cp == n && j.state == .queued then { j with cp := 1 - n } else j } }
  else s

/-- Expiries of the last 10 s, this one included. -/
def Cp.recent (c : Cp) (now : Nat) : List Nat := now :: c.times.filter fun t => decide (now ≤ t + 10000 * msTicks)

def State.cpExpires (s : State) (n : Nat) : State :=
  let times := (s.cp n).recent s.now
  let third := decide (3 ≤ times.length)
  let mine := s.jobs.list.filter (s.belongs n)
  let s := s.modCp n fun c => { c with
      state := if third then .stopped else .restarting, expiries := satInc 255 c.expiries 1, times := times }
  let s := s.raise (0x58 + n) 9 0x16 none 0 times.length
  let s := mine.foldl (fun s j => s.faultJob j.uid) s
  let s := if n = 2 then s.abandonMoves else s.handOver n
  let s := s.traceEvent (0x58 + n) 1
  if third then s.setFault else s

/-- The period of a watchdog: it cannot expire sooner after its processor started. -/
def watchPeriod (n : Nat) : Nat := (if n < 3 then 10 else 50) * msTicks

def State.watchedLong (s : State) (n : Nat) : Bool := decide ((s.cp n).started + watchPeriod n ≤ s.now)

def execCpWatchdog (cp : Nat) (s : State) : Res :=
  .next (if decide (cp < 3) && s.cpRunning cp && s.watchedLong cp then s.cpExpires cp else s)

/-- The processor runs again from its verified copy; moves that waited for CP2 begin. -/
def execCpRestartDone (cp : Nat) (s : State) : Res :=
  .next (if decide (cp < 3) && (s.cp cp).state == .restarting then
      let t := s.modCp cp fun c => c.start s.now
      if cp = 2 ∧ t.cpRunning 2 then (List.range 8).foldl (fun s p => s.startMoves p) t else t
    else s)

/-! ## Secure halt (R379) -/

/-- Volatile keys are gone: a confidential partition's granules read as ciphertext, its volumes are sealed. -/
def State.loseKeys (s : State) : State :=
  let s := ((List.range 8).filter s.conf).foldl (fun s p =>
    (s.part p).granules.foldl (fun s g => s.cipherGranule (s.part p).key g) s) s
  { s with
    parts := s.parts.map fun (q : Part) => { q with key := [] }
    flash := { s.flash with volumes := s.flash.volumes.map fun (v : Volume) =>
      if v.conf then { v with owner := 0, sealed := true } else v } }

def State.endSecurity (s : State) : State :=
  { s with link := { s.link with
    ide := List.replicate 8 false, ideKeys := List.replicate 8 [], negotiated := false, handshakes := [], sessions := []
    sessKeys := [] } }

def State.spExpires (s : State) : State :=
  let t := s.modCp 3 fun c => { c with state := .held, expiries := satInc 255 c.expiries 1 }
  let t := { t with dev := { t.dev with secureHalt := true }, smbus := { t.smbus with alert := true } }
  ((t.loseKeys.portsDown).endSecurity).failAllJobs

def execSpWatchdog (s : State) : Res :=
  .next (if s.cpRunning 3 && s.watchedLong 3 then s.spExpires else s)

/-! ## FW_UPDATE (R380 to R382) -/

def fwTarget (ws : List Nat) : Nat := bits 3 0 (wordAt ws 3)

/-- The targeted processors. -/
def fwTargets (ws : List Nat) : List Nat := (List.range 4).filter fun i => bit i (fwTarget ws)

/-- Why a bundle does not get as far as the pause. -/
def State.fwRefusal (s : State) (j : Job) (bs : List Byte) : Option Nat :=
  match bundleVerdict bs (wordAt j.words 6) with
  | 0 =>
    if (fwTargets j.words).all fun i =>
        decide ((bundleEntry bs i).adoptMin ≤ (s.cp i).stateVersion) &&
          decide ((s.cp i).stateVersion ≤ (bundleEntry bs i).adoptMax) then none
    else some stInvalid
  | 3 => some stInvalid
  | _ => some stDenied

/-- Every target has reached its quiescent point and written its state record, tagged with its STATE_VERSION (R381 step 1). -/
def State.fwPause (s : State) (ws : List Nat) : State :=
  let cps := s.kadon.cps.zipIdx.map fun (x : Cp × Nat) =>
    if bit x.2 (fwTarget ws) then { x.1 with record := some x.1.stateVersion } else x.1
  { s with kadon := { s.kadon with cps := cps } }

/-- Every target restarts from its verified copy and adopts its own record. -/
def State.fwBack (s : State) (ws : List Nat) : State :=
  let cps := s.kadon.cps.zipIdx.map fun (x : Cp × Nat) => if bit x.2 (fwTarget ws) then x.1.start s.now else x.1
  { s with kadon := { s.kadon with cps := cps } }

/-- The switch: the targets run the new images. -/
def State.fwSwitch (s : State) (ws : List Nat) (bs : List Byte) : State :=
  let cps := s.kadon.cps.zipIdx.map fun (x : Cp × Nat) =>
    if bit x.2 (fwTarget ws) then (x.1.install bs x.2).start s.now else x.1
  { s with
    kadon := { s.kadon with cps := cps }, sec := { s.sec with fwUpdates := s.sec.fwUpdates + 1 } }.traceEvent 0x5B 3

/-- The processor whose watchdog ends a pause: the one named, or the first target where the one named is none. -/
def fwExpired (ws : List Nat) (cp : Nat) : Nat :=
  if (fwTargets ws).contains cp then cp else ((fwTargets ws).head?).getD cp

def State.runFwUpdate (s : State) (j : Job) (met : FwMet) : State :=
  let a := addr48 j.words 4
  let n := wordAt j.words 6
  if !(inHost a n || s.inDram 0 a n) then s.outsideJob j.uid
  else if hostBase ≤ a && !s.hostOk j.part then s.failJob j.uid stLink noResult
  else if !(s.badWords a n).isEmpty then (s.reportWords (s.badWords a n)).failJob j.uid stData noResult
  else
    let bs := s.bytesAt a n
    match s.fwRefusal j bs with
    | some st => s.failJob j.uid st noResult
    | none => match met with
      | .confirmed => ((s.fwPause j.words).fwSwitch j.words bs).finishUid j.uid (fwTarget j.words)
      | .notQuiescent => s.failJob j.uid stExhausted 0x10
      | .notConfirmed => ((s.fwPause j.words).fwBack j.words).failJob j.uid stFault 0x20
      | .watchdog cp =>
        let t := s.failJob j.uid stFault 0x30
        let n := fwExpired j.words cp
        if n < 3 then t.cpExpires n else t.spExpires

def execFwUpdate (uid : Nat) (met : FwMet) (s : State) : Res :=
  .next (match s.starting uid 0x43 with
    | some (j, t) => t.runFwUpdate j met
    | none => s)

end Sys2Proof.Machine
end

