-- ==== Sys2Proof/Machine/TraceReplay.lean ====
section
/-! DEFINITION. Trace capture and replay: TRACE_ENABLE, TRACE_TAIL_WRITE, REPLAY_GO and REPLAY_STOP (R383 to R386, R442). The
layout of data words: log entry 25. -/

namespace Sys2Proof.Machine

/-- PART_TIER as its register shows it. -/
def Part.tierWord (q : Part) : Nat := q.cacheGib + 2 ^ 8 * q.ratePct + 2 ^ 16 * b2n q.cheapDecode + 2 ^ 17 * b2n q.cheapPrefill

/-- What the START record holds. -/
def State.startWords (s : State) : List Nat :=
  [0xB0] ++ ((List.range 4).map fun n => (s.cp n).version) ++ [maskOf s.activeChans, s.faults.engineOutMask] ++
    (List.range 8).map fun p =>
      if s.traced p then (s.part p).tierWord + 2 ^ 18 * (s.part p).prefillCount else 0

/-- Capture begins: the indices from 0, then START. -/
def State.traceStart (s : State) : State :=
  let s := { s with trace := { s.trace with head := 0, tail := 0 } }
  s.traceEmit { type := 0x01, part := 0, qp := 0, ts := s.now, words := s.startWords }

/-- The fields of TRACE_CTL; SIZE only while capture is off. -/
def Trace.control (t : Trace) (v : Nat) : Trace :=
  { t with
    enable := bit 0 v, stall := bit 1 v, partMask := bits 15 8 v
    size := if t.enable then t.size else max 11 (min 25 (bits 6 2 v)) }

/-- A write of TRACE_CTL. -/
def State.writeTraceCtl (s : State) (v : Nat) : State :=
  let t := { s with trace := s.trace.control v }
  if t.trace.enable && !s.trace.enable then t.traceStart else t

def execTraceEnable (fn : Fn) (value : Word) (s : State) : Res :=
  .next (if fn == .pf && s.reaches fn then s.writeTraceCtl value.toNat else s)

/-- The count that TRACE_TAIL would take: the nearest number at or after the present tail with these 32 bits. -/
def Trace.tailAt (t : Trace) (v : Nat) : Nat := t.tail + (v + 2 ^ 32 - t.tail % 2 ^ 32) % 2 ^ 32

/-- A write of TRACE_TAIL: room in the ring, so held records, then a LOST record, are written. -/
def State.writeTraceTail (s : State) (v : Nat) : State :=
  if s.trace.tailAt v ≤ s.trace.head then
    let t := { s with trace := { s.trace with tail := s.trace.tailAt v } }
    t.traceDrain (t.trace.store.length + 1)
  else s

def execTraceTailWrite (fn : Fn) (value : Word) (s : State) : Res :=
  .next (if fn == .pf && s.reaches fn then s.writeTraceTail value.toNat else s)

/-! ## Replay -/

/-- The records of a trace, each with its words. -/
def State.traceRecords (s : State) (addr units : Nat) : Nat → Nat → List (List Nat)
  | 0, _ => []
  | fuel + 1, pos =>
    if units ≤ pos then [] else
      let n := bits 9 8 (s.readN (addr + 32 * pos) 4) + 1
      s.wordsAt (addr + 32 * pos) (8 * n) :: State.traceRecords s addr units fuel (pos + n)

def recType (w : List Nat) : Nat := bits 7 0 (wordAt w 0)

/-- What replay will compare: DRAW and COMPLETION records of the partition without their time fields. -/
def expectOf (part : Nat) (w : List Nat) : Option (Nat × List Nat) :=
  if bits 12 10 (wordAt w 0) != part then none
  else if recType w = 0x08 then some (wordAt w 1, [0x08, wordAt w 4, wordAt w 5, wordAt w 6, wordAt w 7])
  else if recType w = 0x09 then some (wordAt w 1, [0x09, wordAt w 8, wordAt w 9, wordAt w 10, wordAt w 15])
  else none

/-- The cheaper paths that replay forces. -/
def tierOf (part : Nat) (w : List Nat) : Option (Nat × List Nat) :=
  if bits 12 10 (wordAt w 0) == part && recType w == 0x05 && decide (wordAt w 6 < 2) then
    some (wordAt w 1, (w.drop 4).take 4) else none

/-- Whether the trace was captured on this stepping and these images. -/
def State.sameStart (s : State) (records : List (List Nat)) : Bool :=
  match records.find? fun w => recType w == 0x01 with
  | none => false
  | some w => wordAt w 4 == 0xB0 && (List.range 4).all fun n => wordAt w (5 + n) == (s.cp n).version

/-- The trace lies in PT0's DRAM or in host memory that the PF reaches. -/
def State.traceReadable (s : State) : Bool :=
  let n := 32 * s.replay.units
  (inHost s.replay.addr n && s.pfHostOk) || s.inDram 0 s.replay.addr n

/-- Every queue pair of the partition is enabled, and the partition is not confidential. -/
def State.replayable (s : State) (p : Nat) : Bool :=
  (s.part p).valid && !(s.part p).conf && (s.qpsOf p).all fun n => (s.qp n).enabled

def State.startReplay (s : State) : State :=
  let r := s.replay
  let p := r.part
  if !s.replayable p then s
  else
    let records := if s.traceReadable then s.traceRecords r.addr r.units r.units 0 else []
    if s.sameStart records then
      { s with replay := { r with
        state := .running, pos := 0, stopping := false, mismatch := false, mismatchSeq := 0, uncertain := false
        expect := records.filterMap (expectOf p), tiers := records.filterMap (tierOf p), origin := [] } }
    else { s with replay := { r with state := .refused } }

/-- A write of REPLAY_CTL while no replay runs: PARTITION, then GO. -/
def State.replayStore (s : State) (v : Nat) : State :=
  if s.replay.state == .running then s else
    let t := { s with replay := { s.replay with part := bits 4 2 v } }
    if bit 0 v then t.startReplay else t

/-- STOP: no further descriptor is taken; replay ends when the job in progress has. -/
def State.replayHalt (s : State) : State :=
  if s.replay.state == .running then { s with replay := { s.replay with stopping := true } }.replaySettle else s

def execReplayGo (fn : Fn) (value : Word) (s : State) : Res :=
  .next (if fn == .pf && s.reaches fn then s.replayStore value.toNat else s)

def execReplayStop (fn : Fn) (s : State) : Res := .next (if fn == .pf && s.reaches fn then s.replayHalt else s)

end Sys2Proof.Machine
end

