-- ==== Sys2Proof/Machine/SmbusIf.lean ====
section
/-! DEFINITION. The SMBus management interface: STATUS, TEMP_HOTTEST, TEMP_MODULE, POWER_IN, CAP_SET, EMERGENCY, CLEAR_ALERT,
FRU_OFFSET, FRU_READ and ALERT_RESPONSE (R453 to R455). -/

namespace Sys2Proof.Machine

/-- An answer on the bus, or a NACK. -/
def State.busAnswer (s : State) (bs : Option (List Byte)) : State :=
  { s with out := { s.out with smbus := bs, smbusNack := bs.isNone } }

/-- The interface runs from P3V3_AUX; without it nothing is answered. -/
def State.onBus (s : State) (f : State → State) : State := if s.smbus.aux then f s else s.busAnswer none

/-- The SMBus packet error code: CRC-8 with polynomial x^8 + x^2 + x + 1 (PRESUMED, log entry 135). -/
def crc8 (bs : List Byte) : Byte :=
  let stepBit (c : Byte) : Byte := if c.msb then (c <<< 1) ^^^ 7 else c <<< 1
  bs.foldl (fun c b => (List.range 8).foldl (fun c _ => stepBit c) (c ^^^ b)) 0

/-- An answer to a read, with the PEC over the whole transaction: the host's bytes, then what the module sends. -/
def State.busReply (s : State) (host sent data : List Byte) : State :=
  let t := s.busAnswer (some data)
  { t with out := { t.out with smbusPec := crc8 (host ++ sent) } }

/-- The host's bytes of a read by command `code`: address, command, and the address with the read bit. -/
def State.readHeader (s : State) (code : Byte) : List Byte :=
  leBytes 1 (2 * s.smbus.addr) ++ code :: leBytes 1 (2 * s.smbus.addr + 1)

/-- A read of `n` bytes by command `code`. -/
def State.busRead (s : State) (code : Byte) (n v : Nat) : State :=
  s.onBus fun s => s.busReply (s.readHeader code) (leBytes n v) (leBytes n v)

/-- A write, whose wrong PEC is refused. -/
def State.busWrite (s : State) (pec : Pec) (f : State → State) : State :=
  s.onBus fun s => if pec == .wrong then s.busAnswer none else (f s).busAnswer (some [])

/-- A reading of the die: 0 while it is unpowered or held in reset, as PERST_N holds it while it is low (R452). -/
def State.dieReading (s : State) (v : Nat) : Nat := if s.alive && !s.dev.fullWanted && !s.link.perst then v else 0

def State.statusWord (s : State) : Nat :=
  s.dieReading (b2n s.dev.ready + 2 * b2n s.dev.fault + 4 * b2n s.dev.secureHalt + 2 ^ 5 * levelCode s.power.level) +
    2 ^ 3 * b2n s.smbus.tripped + 2 ^ 4 * b2n s.smbus.clockLoss + 2 ^ 7 * b2n s.emergencyOn +
    2 ^ 8 * b2n s.smbus.dieOn + 2 ^ 9 * b2n s.smbus.alert

def execStatus (s : State) : Res := .next (s.busRead 0 2 s.statusWord)

def execTempHottest (s : State) : Res := .next (s.busRead 1 1 (s.dieReading s.power.hottest))

/-- `celsius` is what the sensor on the auxiliary domain reads. -/
def execTempModule (celsius : Int) (s : State) : Res := .next (s.busRead 2 1 (tc 8 celsius))

def execPowerIn (s : State) : Res := .next (s.busRead 3 2 (s.dieReading s.power.inputPower))

/-- 0 for none, else 15 to 75 W. -/
def capClamp (v : Nat) : Nat := if v = 0 then 0 else max 15 (min 75 v)

def execCapSet (write : Option Byte) (pec : Pec) (s : State) : Res :=
  .next (match write with
    | none => s.busRead 4 1 s.smbus.capSet
    | some b => s.busWrite pec fun s => { s with smbus := { s.smbus with capSet := capClamp b.toNat } })

/-- The emergency throttle has the effect of PWRBRK_N (R398). -/
def State.setEmergency (s : State) (on : Bool) : State :=
  let s := if on == s.smbus.emergency || !s.alive then s else if on then s.noteEmergency else s.seeEmergency
  { s with smbus := { s.smbus with emergency := on } }

def execEmergency (write : Option Byte) (pec : Pec) (s : State) : Res :=
  .next (match write with
    | none => s.busRead 5 1 (b2n s.smbus.emergency)
    | some b => s.busWrite pec fun s => s.setEmergency (bit 0 b.toNat))

def execClearAlert (pec : Pec) (s : State) : Res :=
  .next (s.busWrite pec fun s => { s with smbus := { s.smbus with tripped := false, clockLoss := false, alert := false } })

/-- An offset that is no multiple of 32 leaves the offset open: a free value. -/
def State.setFruOffset (s : State) (v : Nat) : State :=
  if v % 32 = 0 then { s with smbus := { s.smbus with fruOff := v } }
  else { s with smbus := { s.smbus with fruOff := Config.freeNat s.free % 256 } }.drawFree

def execFruOffset (value : Byte) (pec : Pec) (s : State) : Res :=
  .next (s.busWrite pec fun s => s.setFruOffset value.toNat)

def padTo (n : Nat) (l : List Byte) : List Byte := (l ++ List.replicate n 0).take n

/-- FRU bytes 0 to 251. -/
def fruBody : List Byte :=
  padTo 16 [0x41, 0x73, 0x61, 0x6E, 0x74, 0x6F, 0x75, 0x78] ++ padTo 16 [0x41, 0x58, 0x4D, 0x2D, 0x45, 0x33, 0x32] ++
    padTo 4 [0xB0, 1] ++ (List.range 16).map Config.serialByte ++ leBytes 4 Config.madeDay ++ padTo 8 [15, 75, 65, 5] ++
    padTo 188 ((List.range 16).map Config.deviceId)

def fruBytes : List Byte := fruBody ++ leBytes 4 (crc32 fruBody)

/-- 32 bytes from an offset, going round at 256. -/
def fruBlock (off : Nat) : List Byte := (((fruBytes ++ fruBytes).drop off).take 32)

def execFruRead (s : State) : Res :=
  .next (s.onBus fun s =>
    let data := fruBlock s.smbus.fruOff
    { s with smbus := { s.smbus with fruOff := (s.smbus.fruOff + 32) % 256 } }.busReply
      (s.readHeader 8) (32 :: data) data)

/-- The module answers with its own address, in bits [7:1] as SMBus has it (PRESUMED; log entry 24), and releases ALERT_N. -/
def execAlertResponse (s : State) : Res :=
  .next (s.onBus fun s =>
    if s.smbus.alert then
      { s with smbus := { s.smbus with alert := false } }.busReply [0x19] (leBytes 1 (2 * s.smbus.addr))
        (leBytes 1 (2 * s.smbus.addr))
    else s.busAnswer none)

end Sys2Proof.Machine
end

