-- ==== Sys2Proof/Machine/Regs.lean ====
section
/-! DEFINITION. The setup register map: REGISTER_WRITE, and what a BAR0 read shows (R430 to R443). Each block has one function
from an offset within it; a write that starts an action which needs more than its value (DEVICE_CTL's two resets,
CP_BOOT_CTL.GO) carries the rest as operands of its command. -/

namespace Sys2Proof.Machine

/-- A W1C field after a write (R5, R434). -/
def w1c (x v : Nat) : Nat := x - (x &&& v)

/-- A _HI write commits the held _LO bits, or keeps the low bits that stand (R433); `lo` is the granularity. -/
def commitPair (cur : Nat) (held : Option Nat) (hi : Nat) : Nat := held.getD (cur % 2 ^ 32) + 2 ^ 32 * bits 15 0 hi

/-! ## Identity and global control -/

def State.writeGlobal (s : State) (o v : Nat) (found : SelfTest) : State :=
  match o with
  | 0x10 => if bit 3 v && !s.link.lost then { s with dev := { s.dev with linkLost := false } } else s
  | 0x14 => s.writeDeviceCtl v found
  | 0x18 => { s with dev := { s.dev with globalLock := s.dev.globalLock || bit 0 v } }
  | 0x20 => if s.dev.globalLock then s else { s with dev := { s.dev with bar4Base := min 95 (bits 6 0 v) } }
  | _ => s

def State.statusReg (s : State) : Nat :=
  b2n s.dev.ready + 2 * b2n s.dev.fault + 4 * b2n s.dev.secureHalt + 8 * b2n s.dev.linkLost + 16 * b2n s.dev.shutdownDone +
    2 ^ 8 * stageCode s.dev.stage + 2 ^ 12 * s.dev.lastReset

def State.readGlobal (s : State) (o : Nat) : Nat :=
  match o with
  | 0x00 => 0x1F3D + 2 ^ 16 * 0xE032
  | 0x04 => 0xB0 + 2 ^ 16 * 0x0E32
  | 0x10 => s.statusReg
  | 0x18 => b2n s.dev.globalLock
  | 0x20 => s.dev.bar4Base
  | _ => if 0x40 ≤ o ∧ o < 0x50 then leNat ((List.range 4).map fun i => Config.deviceId (o - 0x40 + i)) else 0

/-! ## Queues (R438) -/

def Qp.writeCfg (q : Qp) (v : Nat) : Qp :=
  { q with sqLog := max 4 (min 12 (bits 3 0 v)), cqLog := max 4 (min 12 (bits 7 4 v)), vector := bits 13 8 v }

/-- The registers that are frozen while the queue pair is enabled. -/
def Qp.writeFrozen (q : Qp) (o v : Nat) : Qp :=
  match o with
  | 0x00 => { q with sqHeld := some (v - v % 4096) }
  | 0x04 => { q with sqBase := commitPair q.sqBase q.sqHeld v, sqHeld := none }
  | 0x08 => { q with cqHeld := some (v - v % 4096) }
  | 0x0C => { q with cqBase := commitPair q.cqBase q.cqHeld v, cqHeld := none }
  | 0x10 => q.writeCfg v
  | _ => q

def Qp.writeReg (q : Qp) (o v : Nat) : Qp :=
  match o with
  | 0x14 => { q with modCount := max 1 (bits 7 0 v), modTime := bits 17 8 v }
  | 0x24 => { q with drops := w1c q.drops v }
  | _ => if q.enabled then q else q.writeFrozen o v

/-- A write to register `o` of the set of queue pair `n`. -/
def State.writeQp (s : State) (fn : Fn) (n o v : Nat) : State :=
  if !s.qpWritable fn n then s
  else if o = 0x18 then
    if bit 0 v then if (s.qp n).enabled then s else s.enableQp n
    else if (s.qp n).enabled then s.disableQp n false else s
  else s.modQp n fun q => q.writeReg o v

def State.readQp (s : State) (fn : Fn) (n o : Nat) : Nat :=
  let q := s.qp n
  let mine := match fn with
    | .pf => true
    | .vf v => q.part == v
  if !mine then 0 else
    match o with
    | 0x00 => q.sqBase % 2 ^ 32
    | 0x04 => q.sqBase / 2 ^ 32
    | 0x08 => q.cqBase % 2 ^ 32
    | 0x0C => q.cqBase / 2 ^ 32
    | 0x10 => q.sqLog + 2 ^ 4 * q.cqLog + 2 ^ 8 * q.vector
    | 0x14 => q.modCount + 2 ^ 8 * q.modTime
    | 0x18 => b2n q.enabled
    | 0x1C => q.sqHead + 2 ^ 16 * b2n q.enabled + 2 ^ 17 * q.refuse + 2 ^ 19 * q.part
    | 0x20 => q.cqTail + 2 ^ 16 * b2n q.cqPhase + 2 ^ 17 * min 64 q.waiting.length
    | 0x24 => if fn == .pf && s.conf q.part then 0 else q.drops
    | _ => 0

/-! ## Partitions and security (R434 to R436, R439) -/

/-- The partition counters, in the order of their registers from 0x48. -/
def PartCtr.writeReg (c : PartCtr) (o v : Nat) : PartCtr :=
  match o with
  | 0x48 => { c with overflows := w1c c.overflows v }
  | 0x4C => { c with backpressure := w1c c.backpressure v }
  | 0x50 => { c with parks := w1c c.parks v }
  | 0x54 => { c with flushes := w1c c.flushes v }
  | 0x58 => { c with lateFetches := w1c c.lateFetches v }
  | 0x5C => { c with shadowUses := w1c c.shadowUses v }
  | 0x60 => { c with pagesDropped := w1c c.pagesDropped v }
  | 0x64 => { c with flushSat := w1c c.flushSat v }
  | _ => c

def Part.writeReg (q : Part) (locked : Bool) (o v : Nat) : Part :=
  match o with
  | 0x04 => if locked then q else { q with prefillCount := min 32 (bits 5 0 v) }
  | 0x08 =>
    if locked then q else
      { q with
        cacheGib := min 90 (bits 6 0 v), ratePct := max 50 (min 100 (bits 14 8 v)), cheapDecode := bit 16 v
        cheapPrefill := bit 17 v }
  | _ => { q with ctr := q.ctr.writeReg o v }

def State.writePart (s : State) (o v : Nat) : State :=
  if !s.dev.ready then s
  else if o = 0 then { s with dev := { s.dev with partLock := s.dev.partLock || bit 0 v } }
  else if o = 0x104 then if bit 0 v then s.rngRetest else s
  else if 0x1000 ≤ o && o < 0x1800 && (s.part ((o - 0x1000) / 0x100)).valid then
    s.modPart ((o - 0x1000) / 0x100) fun q => q.writeReg s.dev.partLock (o % 0x100) v
  else s

def rngCode : RngSt → Nat
  | .startup => 0
  | .serving => 1
  | .retesting => 2
  | .failed => 3

/-- A base register pair: the address's low or high word. -/
def halfAt (a : Nat) (high : Bool) : Nat := if high then a / 2 ^ 32 else a % 2 ^ 32

/-- Counters and units in use; those of a confidential partition read 0 through the PF (R360). -/
def PartCtr.readReg (c : PartCtr) (o : Nat) : Nat :=
  match o with
  | 0x40 => c.sumpUsed
  | 0x44 => c.stagUsed
  | 0x48 => c.overflows
  | 0x4C => c.backpressure
  | 0x50 => c.parks
  | 0x54 => c.flushes
  | 0x58 => c.lateFetches
  | 0x5C => c.shadowUses
  | 0x60 => c.pagesDropped
  | 0x64 => c.flushSat
  | _ => 0

def State.readPartSet (s : State) (p o : Nat) : Nat :=
  let q := s.part p
  if !q.valid then 0 else
    match o with
    | 0x00 => b2n q.valid + 2 * b2n q.conf + 4 * b2n q.expert + 8 * b2n q.powerPriv + 2 ^ 4 * q.policy + 2 ^ 6 * b2n q.share +
        2 ^ 16 * q.granules.length
    | 0x04 => q.prefillCount
    | 0x08 => q.tierWord
    | 0x0C => q.sumpQuota
    | 0x10 => maskOf q.engines
    | 0x14 => maskOf (s.qpsOf p) % 2 ^ 32
    | 0x18 => maskOf (s.qpsOf p) / 2 ^ 32
    | 0x20 => halfAt q.pageTable false
    | 0x24 => halfAt q.pageTable true
    | 0x28 => halfAt q.pfxIndex false
    | 0x2C => halfAt q.pfxIndex true
    | 0x30 => halfAt q.variants false
    | 0x34 => halfAt q.variants true
    | 0x38 => halfAt q.staging false
    | 0x3C => halfAt q.staging true
    | 0x68 => maskOf q.granules % 2 ^ 32
    | 0x6C => maskOf q.granules / 2 ^ 32 % 2 ^ 32
    | 0x70 => maskOf q.granules / 2 ^ 64 % 2 ^ 32
    | _ => if q.conf then 0 else q.ctr.readReg o

def State.readPart (s : State) (o : Nat) : Nat :=
  if o = 0 then b2n s.dev.partLock
  else if o = 0x100 then rngCode s.sec.rng.state + 2 ^ 2 * s.sec.rng.retests + 2 ^ 4 * min 63 s.sec.rng.queue.length
  else if 0x1000 ≤ o ∧ o < 0x1800 then s.readPartSet ((o - 0x1000) / 0x100) (o % 0x100)
  else 0

/-! ## Power, clocks, thermal -/

def oppStored (v : Nat) : Nat := if v < 5 then v else 0

/-- PART_POWER: the fields beside SHARE need the privilege (R400). -/
def Part.writePower (q : Part) (v : Nat) : Part :=
  let w : PartPower := { q.power with share := max 1 (bits 3 0 v) }
  { q with power :=
    if q.powerPriv then
      { w with passageFirst := bit 4 v, prefillOpp := oppStored (bits 7 5 v), decodeOpp := oppStored (bits 10 8 v) }
    else w }

def State.writePower (s : State) (o v : Nat) : State :=
  if o = 0 then s.writeCap v
  else if o = 4 then { s with power := { s.power with gateIdle := bit 0 v } }
  else if 0x100 ≤ o ∧ o < 0x120 then s.modPart ((o - 0x100) / 4) fun q => q.writePower v
  else s

def divCode (d : Nat) : Nat := if d = 4 then 1 else if d = 6 then 2 else if d = 8 then 3 else 0

def Engine.powerReg (g : Engine) : Nat :=
  divCode g.div + 2 ^ 4 * b2n g.domain.powered + 2 ^ 5 * b2n g.domain.ramping + 2 ^ 6 * g.allow

def Part.powerReg (q : Part) : Nat :=
  q.power.share + (if q.powerPriv then
    2 ^ 4 * b2n q.power.passageFirst + 2 ^ 5 * q.power.prefillOpp + 2 ^ 8 * q.power.decodeOpp else 0)

def Power.statusReg (w : Power) : Nat :=
  w.effective + 2 ^ 8 * min 127 w.floorW + 2 ^ 16 * b2n w.byCap + 2 ^ 17 * b2n w.byThermal + 2 ^ 18 * b2n w.byEmerg +
    2 ^ 19 * b2n w.bySmbus + 2 ^ 20 * b2n w.limiting

def State.readPower (s : State) (o : Nat) : Nat :=
  if 0x100 ≤ o ∧ o < 0x120 then (s.part ((o - 0x100) / 4)).powerReg
  else if 0x200 ≤ o ∧ o < 0x280 then (s.eng ((o - 0x200) / 4)).powerReg
  else if 0x520 ≤ o ∧ o < 0x540 then
    let d := (o - 0x520) / 4
    s.margin d % 64 + 2 ^ 8 * (Config.minMargin d % 64) + 2 ^ 16 * (Config.maxMargin d % 64)
  else match o with
    | 0x000 => s.power.capW + 2 ^ 8 * s.power.emergW
    | 0x004 => b2n s.power.gateIdle
    | 0x008 => s.power.statusReg
    | 0x00C => s.power.inputPower
    | 0x300 => s.power.hottest + 2 ^ 8 * s.power.sensor + 2 ^ 14 * levelCode s.power.level + 2 ^ 16 * b2n s.power.tripped
    | 0x400 => s.now % 2 ^ 32
    | 0x404 => s.power.tbLatch.toNat
    | 0x410 => b2n s.power.rootLock + 2 * b2n s.power.sscSeen + 4 * b2n s.power.lossSeen
    | 0x500 => b2n s.drip.chainOk + 2 * s.drip.breakPos + 2 ^ 8 * s.drip.faulty.length + 2 ^ 16 * maskOf s.drip.fallback
    | 0x504 => s.hours % 2 ^ 32
    | _ => 0

/-! ## DRAM and flash controllers, Siphon -/

def State.writeDram (s : State) (o v : Nat) : State :=
  let d := s.dram
  let w := BitVec.ofNat 32 v
  if 0x200 ≤ o ∧ o < 0x2B0 then
    if s.dev.dramLock then s else s.modDport ((o - 0x200) / 4) fun p => { p with targetNs := max 100 (bits 15 0 v) }
  else if 0x300 ≤ o ∧ o < 0x360 then s.modChan ((o - 0x300) / 4) fun c => { c with corrected := w1c c.corrected v }
  else match o with
    | 0x004 => { s with dev := { s.dev with dramLock := s.dev.dramLock || bit 0 v } }
    | 0x100 => s.trainCommand v
    | 0x104 => { s with dram := { d with trainOffset := w &&& 0x8FFFFFFF } }
    | 0x10C => { s with dram := { d with trainUser := w } }
    | 0x110 => { s with dram := { d with trainAddr := w &&& 0x1FFFFF } }
    | _ => s

def State.readDram (s : State) (o : Nat) : Nat :=
  if 0x200 ≤ o ∧ o < 0x2B0 then (s.dport ((o - 0x200) / 4)).targetNs
  else if 0x300 ≤ o ∧ o < 0x360 then (s.chan ((o - 0x300) / 4)).corrected
  else match o with
    | 0x000 => maskOf s.activeChans + 2 ^ 24 * s.dram.granulesBacked
    | 0x004 => b2n s.dev.dramLock
    | 0x100 => s.dram.trainCmd.toNat
    | 0x104 => s.dram.trainOffset.toNat
    | 0x108 => s.dram.trainResult.toNat
    | 0x10C => s.dram.trainUser.toNat
    | 0x110 => s.dram.trainAddr.toNat
    | _ => 0

def State.writeFlash (s : State) (o v : Nat) : State :=
  if o = 0x10 then { s with flash := { s.flash with windowUs := min 4000 (bits 12 0 v) } }
  else if 0x200 ≤ o ∧ o < 0x240 then
    { s with flash := { s.flash with corrected := s.flash.corrected.modify ((o - 0x200) / 4) fun x => w1c x v } }
  else s

def Die.statusReg (d : Die) : Nat :=
  min 128 d.retired + 2 ^ 8 * b2n d.worn + 2 ^ 9 * b2n (d.ops.any fun o => o.kind == .erase && o.started.isSome) +
    2 ^ 16 * d.wear

def State.readFlash (s : State) (o : Nat) : Nat :=
  if 0x100 ≤ o ∧ o < 0x180 then (s.die ((o - 0x100) / 4)).statusReg
  else if 0x200 ≤ o ∧ o < 0x240 then s.flash.corrected.getD ((o - 0x200) / 4) 0
  else match o with
    | 0x10 => s.flash.windowUs
    | 0x20 => min 7 s.flash.fails + 2 ^ 3 * b2n s.flash.lockout
    | 0x24 => ((List.range 16).map fun n => (s.flash.regions.getD n Region.shipped).state * 4 ^ n).sum
    | _ => 0

def SChan.statusReg (c : SChan) : Nat :=
  b2n c.active.isSome + 2 * b2n c.shadow.isSome + 4 * b2n c.draining.isSome + 2 ^ 3 * c.prio +
    2 ^ 5 * ((c.active.map Xfer.part).getD 0) + 2 ^ 8 * min 255 c.queue.length

def State.writeSiphon (s : State) (o v : Nat) : State :=
  if o = 0x40 then { s with siphon := { s.siphon with satCount := w1c s.siphon.satCount v } } else s

def State.readSiphon (s : State) (o : Nat) : Nat :=
  if o < 0x40 then (s.sch (o / 4)).statusReg else if o = 0x40 then s.siphon.satCount else 0

/-! ## Passage -/

def portCode : PState → Nat
  | .down => 0
  | .training => 1
  | .discovery => 2
  | .keying => 3
  | .ready => 4
  | .locked => 5
  | .disabled => 6

/-- A write to register `o` of port `n`'s set. -/
def State.writePort (s : State) (n o v : Nat) : State :=
  if o = 0 then
    let t := s.enablePort n (bit 0 v)
    if bit 1 v then t.rekeyPort n else t
  else if 0x10 ≤ o ∧ o < 0x40 then s.modPport n fun p => { p with pin := p.pin.set ((o - 0x10) / 4) (BitVec.ofNat 32 v) }
  else s

def State.writePassage (s : State) (o v : Nat) : State :=
  if o = 0 then { s with passage := { s.passage with id := bits 15 0 v, partMask := bits 23 16 v } }
  else if 0x100 ≤ o ∧ o < 0x300 then s.writePort ((o - 0x100) / 0x100) (o % 0x100) v
  else s

def State.readPassage (s : State) (o : Nat) : Nat :=
  if o = 0 then s.passage.id + 2 ^ 16 * s.passage.partMask
  else if 0x100 ≤ o ∧ o < 0x300 then
    let p := s.pport ((o - 0x100) / 0x100)
    let r := o % 0x100
    if 0x10 ≤ r ∧ r < 0x40 then (p.pin.getD ((r - 0x10) / 4) 0).toNat
    else if r = 0 then b2n p.enable
    else if r = 4 then portCode p.state + 2 ^ 8 * min 255 p.hopNs + 2 ^ 16 * min 0xFFFF p.events
    else if r = 8 then p.peerId
    else 0
  else 0

/-! ## Faults (R406, R412, R417) -/

def State.writeFaults (s : State) (o v : Nat) : State :=
  match o with
  | 0x4 => { s with faults := s.faults.consume v }
  | 0x8 => if bit 0 v then { s with faults := { s.faults with overflow := false } } else s
  | 0xC => { s with faults := { s.faults with lost := w1c s.faults.lost v } }
  | _ => s

/-- The words of a record (R406). -/
def FaultRec.words (r : FaultRec) : List Nat :=
  [r.cls + 2 ^ 8 * r.source + 2 ^ 16 * r.part.getD 0 + 2 ^ 19 * b2n r.part.isSome + 2 ^ 20 * b2n r.mixed +
      2 ^ 21 * b2n r.afterLoss + 2 ^ 22 * b2n r.continued,
    r.count, r.firstTs % 2 ^ 32, r.firstTs / 2 ^ 32, r.lastTs % 2 ^ 32, r.lastTs / 2 ^ 32, r.detail + 2 ^ 16 * r.tag, r.info]

/-- Slot `i`: the latest record entered there. -/
def Faults.slot (q : Faults) (i : Nat) : List Nat :=
  match q.recs.find? fun x => x.1 % 256 == i with
  | some x => x.2.words
  | none => []

def Faults.degraded (q : Faults) : Nat :=
  q.enginesOut + 2 ^ 6 * q.channelsOut + 2 ^ 10 * q.diesWorn + 2 ^ 16 * q.dripFallback + 2 ^ 24 * b2n q.portALocked +
    2 ^ 25 * b2n q.portBLocked

def State.readFaults (s : State) (o : Nat) : Nat :=
  let q := s.faults
  if 0x1000 ≤ o ∧ o < 0x3000 then wordAt (q.slot ((o - 0x1000) / 32)) (o % 32 / 4)
  else match o with
    | 0x00 => q.head % 2 ^ 16
    | 0x04 => q.tail % 2 ^ 16
    | 0x08 => b2n q.overflow
    | 0x0C => q.lost
    | 0x10 => q.degraded
    | 0x14 => q.engineOutMask
    | _ => 0

/-! ## Trace and replay (R442) -/

def Trace.writeReg (t : Trace) (o v : Nat) : Trace :=
  match o with
  | 0x04 => if t.enable then t else { t with baseHeld := some (v - v % 4096) }
  | 0x08 => if t.enable then t else { t with base := commitPair t.base t.baseHeld v, baseHeld := none }
  | 0x14 => { t with lost := w1c t.lost v }
  | _ => t

def Replay.writeReg (r : Replay) (o v : Nat) : Replay :=
  if r.state == .running then r else
    match o with
    | 0x104 => { r with addrHeld := some (v - v % 32) }
    | 0x108 => { r with addr := commitPair r.addr r.addrHeld v, addrHeld := none }
    | 0x10C => { r with units := v }
    | _ => r

def State.writeTrace (s : State) (o v : Nat) : State :=
  match o with
  | 0x00 => s.writeTraceCtl v
  | 0x10 => s.writeTraceTail v
  | 0x100 => if s.replay.state == .running then if bit 1 v then s.replayHalt else s else s.replayStore v
  | _ => { s with trace := s.trace.writeReg o v, replay := s.replay.writeReg o v }

def repCode : RepSt → Nat
  | .idle => 0
  | .running => 1
  | .done => 2
  | .stopped => 3
  | .refused => 4

def State.readTrace (s : State) (o : Nat) : Nat :=
  let t := s.trace
  let r := s.replay
  match o with
  | 0x00 => b2n t.enable + 2 * b2n t.stall + 2 ^ 2 * t.size + 2 ^ 8 * t.partMask
  | 0x04 => t.base % 2 ^ 32
  | 0x08 => t.base / 2 ^ 32
  | 0x0C => t.head % 2 ^ 32
  | 0x10 => t.tail % 2 ^ 32
  | 0x14 => t.lost
  | 0x100 => 2 ^ 2 * r.part
  | 0x104 => r.addr % 2 ^ 32
  | 0x108 => r.addr / 2 ^ 32
  | 0x10C => r.units
  | 0x110 => repCode r.state + 2 ^ 3 * b2n r.mismatch + 2 ^ 4 * b2n r.uncertain
  | 0x114 => r.mismatchSeq
  | _ => 0

/-! ## Vision intake and Echo -/

def State.writeVision (s : State) (o v : Nat) : State :=
  if o = 0x10 then { s with vision := { s.vision with satCount := w1c s.vision.satCount v } } else s

def State.writeEcho (s : State) (o v : Nat) : State :=
  if o = 0x10 then { s with echo := { s.echo with satCount := w1c s.echo.satCount v } } else s

/-- What the intake shows of a confidential partition's frame is 0, but for BUSY. -/
def State.readVision (s : State) (o : Nat) : Nat :=
  let hide := s.conf s.vision.part
  match o with
  | 0x00 => b2n s.vision.job.isSome + 2 ^ 16 * (if hide || s.vision.job.isNone then 0 else s.vision.copied)
  | 0x04 => if hide then 0 else s.vision.frameSeq
  | 0x10 => s.vision.satCount
  | _ => 0

/-- A work unit runs within one step, so between steps none is in progress (log entry 11): the fields show the last unit. -/
def State.readEcho (s : State) (o : Nat) : Nat :=
  match o with
  | 0x00 =>
    if s.conf s.echo.lastPart then 0 else
      2 * s.echo.lastKind + 2 ^ 3 * s.echo.lastPrio + 2 ^ 5 * s.echo.lastPart + 2 ^ 8 * min 0xFFFF s.echo.queue.length
  | 0x10 => s.echo.satCount
  | _ => 0

/-! ## Engines (R441) -/

def Engine.writeReg (g : Engine) (o v : Nat) : Engine :=
  match o with
  | 0x00 => { g with rampCycles := max 16 (min 64 (bits 6 0 v)) }
  | 0x08 => { g with decodeSat := w1c g.decodeSat v }
  | 0x0C => { g with packSat := w1c g.packSat v }
  | 0x10 => { g with corrected := w1c g.corrected v }
  | _ => g

def Engine.stateReg (g : Engine) : Nat :=
  b2n g.mappedOut + 2 * outCauseCode g.outCause + 2 ^ 3 * b2n g.domain.powered + 2 ^ 4 * min 128 g.ctxs.length +
    2 ^ 12 * g.holder.getD 0 + 2 ^ 15 * b2n g.holder.isSome

def Ctx.statusReg (x : Ctx) : Nat :=
  ctxStateCode x.state + 2 ^ 3 * x.effPrio + 2 ^ 5 * x.part + 2 ^ 8 * tTag x.words +
    2 ^ 24 * (if x.state == .faulted then ctxCauseCode x.cause else 0)

def State.readEngine (s : State) (e o : Nat) : Nat :=
  let g := s.eng e
  if 0x100 ≤ o ∧ o < 0x300 then
    match g.ctxs.find? fun x => x.idx == (o - 0x100) / 4 with
    | some x => if g.mappedOut || s.conf x.part then 0 else x.statusReg
    | none => 0
  else match o with
    | 0x00 => g.rampCycles
    | 0x04 => g.stateReg
    | 0x08 => g.decodeSat
    | 0x0C => g.packSat
    | 0x10 => g.corrected
    | _ => 0

/-! ## Control processors (R443) -/

def Kadon.writeReg (k : Kadon) (o v : Nat) : Kadon :=
  if k.bootResult = 1 ∨ k.bootResult = 2 then k else
    match o with
    | 0x0 => { k with bootHeld := some (v - v % 4096) }
    | 0x4 => { k with bootAddr := commitPair k.bootAddr k.bootHeld v, bootHeld := none }
    | 0x8 => { k with bootBytes := v }
    | _ => k

def cpCode : CpSt → Nat
  | .held => 0
  | .running => 1
  | .restarting => 2
  | .stopped => 3

def State.readCps (s : State) (o : Nat) : Nat :=
  let k := s.kadon
  if 0x20 ≤ o ∧ o < 0x30 then cpCode (s.cp ((o - 0x20) / 4)).state + 2 ^ 8 * min 255 (s.cp ((o - 0x20) / 4)).expiries
  else if 0x40 ≤ o ∧ o < 0x50 then (s.cp ((o - 0x40) / 4)).version
  else match o with
    | 0x00 => k.bootAddr % 2 ^ 32
    | 0x04 => k.bootAddr / 2 ^ 32
    | 0x08 => k.bootBytes
    | 0x10 => k.bootResult
    | _ => 0

/-! ## The whole map -/

/-- A write in the control processors' block. -/
def State.writeCps (s : State) (o v : Nat) (hostReadOk : Bool) : State :=
  if o = 0xC then if bit 0 v then s.bootGo hostReadOk else s
  else { s with kadon := s.kadon.writeReg o v }

/-- A 32-bit write through the PF at an offset that is a multiple of 4. What a reset's self-test finds, and whether the bundle
can be read, a write that starts one carries as its operands. -/
def State.pfWrite (s : State) (o v : Nat) (found : SelfTest) (hostReadOk : Bool) : State :=
  if 0x100000 ≤ o ∧ o < 0x120000 then s.modEng ((o - 0x100000) / 0x1000) fun g => g.writeReg (o % 0x1000) v
  else match o / 0x10000 with
    | 0x00 => s.writeGlobal o v found
    | 0x01 => if o < 0x11000 then s.writeQp .pf ((o - 0x10000) / 0x40) (o % 0x40) v else s
    | 0x02 => s.writePart (o % 0x10000) v
    | 0x03 => s.writePower (o % 0x10000) v
    | 0x04 => s.writeDram (o % 0x10000) v
    | 0x05 => s.writeFlash (o % 0x10000) v
    | 0x06 => s.writeSiphon (o % 0x10000) v
    | 0x07 => s.writePassage (o % 0x10000) v
    | 0x08 => s.writeFaults (o % 0x10000) v
    | 0x09 => s.writeTrace (o % 0x10000) v
    | 0x0A => s.writeVision (o % 0x10000) v
    | 0x0B => s.writeEcho (o % 0x10000) v
    | 0x20 => s.writeCps (o % 0x10000) v hostReadOk
    | _ => s

/-- A VF reaches the queues block of its own queue pairs only (R432). -/
def State.regWrite (s : State) (fn : Fn) (o v : Nat) (found : SelfTest) (hostReadOk : Bool) : State :=
  match fn with
  | .pf => s.pfWrite o v found hostReadOk
  | .vf w => if 0x10000 ≤ o ∧ o < 0x11000 then s.writeQp (.vf w) ((o - 0x10000) / 0x40) (o % 0x40) v else s

def State.pfRead (s : State) (o : Nat) : Nat :=
  if 0x100000 ≤ o ∧ o < 0x120000 then s.readEngine ((o - 0x100000) / 0x1000) (o % 0x1000)
  else match o / 0x10000 with
    | 0x00 => s.readGlobal o
    | 0x01 => if o < 0x11000 then s.readQp .pf ((o - 0x10000) / 0x40) (o % 0x40) else 0
    | 0x02 => s.readPart (o % 0x10000)
    | 0x03 => s.readPower (o % 0x10000)
    | 0x04 => s.readDram (o % 0x10000)
    | 0x05 => s.readFlash (o % 0x10000)
    | 0x06 => s.readSiphon (o % 0x10000)
    | 0x07 => s.readPassage (o % 0x10000)
    | 0x08 => s.readFaults (o % 0x10000)
    | 0x09 => s.readTrace (o % 0x10000)
    | 0x0A => s.readVision (o % 0x10000)
    | 0x0B => s.readEcho (o % 0x10000)
    | 0x20 => s.readCps (o % 0x10000)
    | _ => 0

/-- What a 32-bit read shows (R430 to R434, R441). The model has no command for a read but TIMEBASE_LO_READ: every other read
changes nothing. -/
def State.regRead (s : State) (fn : Fn) (o : Nat) : Nat :=
  if o % 4 ≠ 0 then 0 else
    match fn with
    | .pf => s.pfRead o
    | .vf w =>
      if 0x10000 ≤ o ∧ o < 0x11000 then s.readQp (.vf w) ((o - 0x10000) / 0x40) (o % 0x40)
      else if o = 0 then 0x1F3D + 2 ^ 16 * 0xE033
      else if o = 0x04 ∨ o = 0x10 ∨ (0x40 ≤ o ∧ o < 0x50) then s.readGlobal o
      else 0

/-- A BAR0 write: 32 bits at a multiple of 4, or 64 bits at a multiple of 8 as two writes, the lower address first; any other
access is ignored (R430). -/
def execRegisterWrite (fn : Fn) (offset size : Nat) (data : RegData) (s : State) : Res :=
  let v := data.value.toNat
  .next (if !s.reaches fn then s
    else if size = 4 && offset % 4 = 0 then s.regWrite fn offset (v % 2 ^ 32) data.found data.hostReadOk
    else if size = 8 && offset % 8 = 0 then
      (s.regWrite fn offset (v % 2 ^ 32) data.found data.hostReadOk).regWrite fn (offset + 4) (v / 2 ^ 32) data.found
        data.hostReadOk
    else s)

end Sys2Proof.Machine
end

