-- ==== Sys2Proof/Machine/Dispatch.lean ====
section
/-! DEFINITION. The effect of every command on everything but the queue of waiting commands: one arm per command. -/

namespace Sys2Proof.Machine

def exec (i : Instr) (s : State) : Host.Outcome State Fault Refusal :=
  match i with
  | .ringDoorbell fn offset size value => Sys2Proof.Machine.execRingDoorbell fn offset size value s
  | .pushDoorbell fn offset size desc => Sys2Proof.Machine.execPushDoorbell fn offset size desc s
  | .takeDescriptor => Sys2Proof.Machine.execTakeDescriptor s
  | .writeCompletion qp => Sys2Proof.Machine.execWriteCompletion qp s
  | .moderationTimeout qp => Sys2Proof.Machine.execModerationTimeout qp s
  | .hostAccessReturns fn => Sys2Proof.Machine.execHostAccessReturns fn s
  | .qpEnable fn qp => Sys2Proof.Machine.execQpEnable fn qp s
  | .qpDisable fn qp => Sys2Proof.Machine.execQpDisable fn qp s
  | .loadModel uid badUnit => Sys2Proof.Machine.execLoadModel uid badUnit s
  | .unloadModel uid => Sys2Proof.Machine.execUnloadModel uid s
  | .prefill uid => Sys2Proof.Machine.execPrefill uid s
  | .prefillChunk uid => Sys2Proof.Machine.execPrefillChunk uid s
  | .decodeStep uid => Sys2Proof.Machine.execDecodeStep uid s
  | .verifyTree uid => Sys2Proof.Machine.execVerifyTree uid s
  | .samplerDraw uid => Sys2Proof.Machine.execSamplerDraw uid s
  | .kvMove uid badRead => Sys2Proof.Machine.execKvMove uid badRead s
  | .kvShipOut uid => Sys2Proof.Machine.execKvShipOut uid s
  | .kvShipIn uid => Sys2Proof.Machine.execKvShipIn uid s
  | .prefixLookup uid => Sys2Proof.Machine.execPrefixLookup uid s
  | .prefixInsert uid => Sys2Proof.Machine.execPrefixInsert uid s
  | .variantLoad uid => Sys2Proof.Machine.execVariantLoad uid s
  | .trainStep uid => Sys2Proof.Machine.execTrainStep uid s
  | .trainBatch uid => Sys2Proof.Machine.execTrainBatch uid s
  | .visionFrame uid => Sys2Proof.Machine.execVisionFrame uid s
  | .echoSearch uid => Sys2Proof.Machine.execEchoSearch uid s
  | .suspend uid => Sys2Proof.Machine.execSuspend uid s
  | .resume uid => Sys2Proof.Machine.execResume uid s
  | .cancel uid => Sys2Proof.Machine.execCancel uid s
  | .query uid => Sys2Proof.Machine.execQuery uid s
  | .flashRead uid => Sys2Proof.Machine.execFlashRead uid s
  | .flashProgram uid => Sys2Proof.Machine.execFlashProgram uid s
  | .flashErase uid => Sys2Proof.Machine.execFlashErase uid s
  | .flashProtect uid => Sys2Proof.Machine.execFlashProtect uid s
  | .tileList uid => Sys2Proof.Machine.execTileList uid s
  | .dmaRaw uid => Sys2Proof.Machine.execDmaRaw uid s
  | .createPartition uid => Sys2Proof.Machine.execCreatePartition uid s
  | .destroyPartition uid => Sys2Proof.Machine.execDestroyPartition uid s
  | .attest uid => Sys2Proof.Machine.execAttest uid s
  | .fwUpdate uid met => Sys2Proof.Machine.execFwUpdate uid met s
  | .safePoint uid => Sys2Proof.Machine.execSafePoint uid s
  | .deadlineTick uid => Sys2Proof.Machine.execDeadlineTick uid s
  | .withdrawalEnd uid => Sys2Proof.Machine.execWithdrawalEnd uid s
  | .tileTaskLoad uid words => Sys2Proof.Machine.execTileTaskLoad uid words s
  | .slotGrant eng => Sys2Proof.Machine.execSlotGrant eng s
  | .fetchStepIssue eng => Sys2Proof.Machine.execFetchStepIssue eng s
  | .fetchStepComplete eng ctx met => Sys2Proof.Machine.execFetchStepComplete eng ctx met s
  | .stopRamp eng => Sys2Proof.Machine.execStopRamp eng s
  | .taskRetire eng ctx met => Sys2Proof.Machine.execTaskRetire eng ctx met s
  | .priorityAging eng ctx => Sys2Proof.Machine.execPriorityAging eng ctx s
  | .contextRelease eng ctx => Sys2Proof.Machine.execContextRelease eng ctx s
  | .engineMapOut eng cause => Sys2Proof.Machine.execEngineMapOut eng cause s
  | .sumpUnitGrant part => Sys2Proof.Machine.execSumpUnitGrant part s
  | .appendTimeout eng ctx => Sys2Proof.Machine.execAppendTimeout eng ctx s
  | .parkGroup part => Sys2Proof.Machine.execParkGroup part s
  | .groupFlush part => Sys2Proof.Machine.execGroupFlush part s
  | .unitsFreed part => Sys2Proof.Machine.execUnitsFreed part s
  | .idleEpochTick part => Sys2Proof.Machine.execIdleEpochTick part s
  | .pageReclaim part => Sys2Proof.Machine.execPageReclaim part s
  | .mergeFold uid uncorrectable => Sys2Proof.Machine.execMergeFold uid uncorrectable s
  | .echoWorkUnit run => Sys2Proof.Machine.execEchoWorkUnit run s
  | .echoAging => Sys2Proof.Machine.execEchoAging s
  | .progressPoll => Sys2Proof.Machine.execProgressPoll s
  | .visionBurst linkDown => Sys2Proof.Machine.execVisionBurst linkDown s
  | .stallTimeout => Sys2Proof.Machine.execStallTimeout s
  | .lateDataDiscard => Sys2Proof.Machine.execLateDataDiscard s
  | .warpPatch uncorrectable => Sys2Proof.Machine.execWarpPatch uncorrectable s
  | .promotion uid layer expert need planned unissued => Sys2Proof.Machine.execPromotion uid layer expert need planned unissued s
  | .moveLanded mv => Sys2Proof.Machine.execMoveLanded mv s
  | .fetchDeadline mv uid unreadable => Sys2Proof.Machine.execFetchDeadline mv uid unreadable s
  | .dramRequest port addr len write => Sys2Proof.Machine.execDramRequest port addr len write s
  | .urgencyChange port => Sys2Proof.Machine.execUrgencyChange port s
  | .crossingGrant ch => Sys2Proof.Machine.execCrossingGrant ch s
  | .dramReadComplete ch single bad => Sys2Proof.Machine.execDramReadComplete ch single bad s
  | .patrolScrub ch unit single bad => Sys2Proof.Machine.execPatrolScrub ch unit single bad s
  | .perBankRefresh ch => Sys2Proof.Machine.execPerBankRefresh ch s
  | .tempReadout readings => Sys2Proof.Machine.execTempReadout readings s
  | .driftTrack ch drift => Sys2Proof.Machine.execDriftTrack ch drift s
  | .channelRetrain ch steps => Sys2Proof.Machine.execChannelRetrain ch steps s
  | .channelMapOut ch => Sys2Proof.Machine.execChannelMapOut ch s
  | .powerDownEntry ch => Sys2Proof.Machine.execPowerDownEntry ch s
  | .dramTrainGo fn value => Sys2Proof.Machine.execDramTrainGo fn value s
  | .dramTraining found => Sys2Proof.Machine.execDramTraining found s
  | .flashMount => Sys2Proof.Machine.execFlashMount s
  | .gapMove die => Sys2Proof.Machine.execGapMove die s
  | .eraseSuspend die => Sys2Proof.Machine.execEraseSuspend die s
  | .eraseResume die => Sys2Proof.Machine.execEraseResume die s
  | .eraseWindowEnd die => Sys2Proof.Machine.execEraseWindowEnd die s
  | .eraseStarved die => Sys2Proof.Machine.execEraseStarved die s
  | .powerLoss => Sys2Proof.Machine.execPowerLoss s
  | .siphonBurstIssue => Sys2Proof.Machine.execSiphonBurstIssue s
  | .siphonTransferComplete ch => Sys2Proof.Machine.execSiphonTransferComplete ch s
  | .siphonAging ch => Sys2Proof.Machine.execSiphonAging ch s
  | .siphonError ch met => Sys2Proof.Machine.execSiphonError ch met s
  | .linkTrained => Sys2Proof.Machine.execLinkTrained s
  | .linkLoss => Sys2Proof.Machine.execLinkLoss s
  | .flrVf v => Sys2Proof.Machine.execFlrVf v s
  | .flrPf found => Sys2Proof.Machine.execFlrPf found s
  | .hotReset found => Sys2Proof.Machine.execHotReset found s
  | .bar4Access fn offset len ide write => Sys2Proof.Machine.execBar4Access fn offset len ide write s
  | .owningFunctionChange vfEnable numVfs => Sys2Proof.Machine.execOwningFunctionChange vfEnable numVfs s
  | .msixUnmask fn target => Sys2Proof.Machine.execMsixUnmask fn target s
  | .busMasterEnable fn => Sys2Proof.Machine.execBusMasterEnable fn s
  | .ideIntegrityFail stream => Sys2Proof.Machine.execIdeIntegrityFail stream s
  | .ideKm via stream => Sys2Proof.Machine.execIdeKm via stream s
  | .doeDiscovery index => Sys2Proof.Machine.execDoeDiscovery index s
  | .getVersion via => Sys2Proof.Machine.execGetVersion via s
  | .getCapabilities via => Sys2Proof.Machine.execGetCapabilities via s
  | .negotiateAlgorithms via offered => Sys2Proof.Machine.execNegotiateAlgorithms via offered s
  | .getDigests via => Sys2Proof.Machine.execGetDigests via s
  | .getCertificate via slot offset len => Sys2Proof.Machine.execGetCertificate via slot offset len s
  | .challenge via slot nonce => Sys2Proof.Machine.execChallenge via slot nonce s
  | .getMeasurements via index nonce => Sys2Proof.Machine.execGetMeasurements via index nonce s
  | .keyExchange via publicKey => Sys2Proof.Machine.execKeyExchange via publicKey s
  | .finish via macOk => Sys2Proof.Machine.execFinish via macOk s
  | .heartbeat via => Sys2Proof.Machine.execHeartbeat via s
  | .keyUpdate via => Sys2Proof.Machine.execKeyUpdate via s
  | .endSession via => Sys2Proof.Machine.execEndSession via s
  | .data port frame => Sys2Proof.Machine.execData port frame s
  | .ack port frame => Sys2Proof.Machine.execAck port frame s
  | .nak port frame => Sys2Proof.Machine.execNak port frame s
  | .credit port frame => Sys2Proof.Machine.execCredit port frame s
  | .probe port frame => Sys2Proof.Machine.execProbe port frame s
  | .probeReply port frame => Sys2Proof.Machine.execProbeReply port frame s
  | .keyx port frame verified => Sys2Proof.Machine.execKeyx port frame verified s
  | .discover port frame => Sys2Proof.Machine.execDiscover port frame s
  | .portLinkUp port => Sys2Proof.Machine.execPortLinkUp port s
  | .portDown port why => Sys2Proof.Machine.execPortDown port why s
  | .replayTimeout port => Sys2Proof.Machine.execReplayTimeout port s
  | .ackTimer port => Sys2Proof.Machine.execAckTimer port s
  | .creditTimer port => Sys2Proof.Machine.execCreditTimer port s
  | .rekeyThreshold port => Sys2Proof.Machine.execRekeyThreshold port s
  | .portLocked port => Sys2Proof.Machine.execPortLocked port s
  | .keyxRetry port => Sys2Proof.Machine.execKeyxRetry port s
  | .xferReady port peer tag => Sys2Proof.Machine.execXferReady port peer tag s
  | .readyResend uid => Sys2Proof.Machine.execReadyResend uid s
  | .e2eAck uid offset final => Sys2Proof.Machine.execE2eAck uid offset final s
  | .xferHold uid => Sys2Proof.Machine.execXferHold uid s
  | .holdTimer uid => Sys2Proof.Machine.execHoldTimer uid s
  | .xferAbort uid confMismatch => Sys2Proof.Machine.execXferAbort uid confMismatch s
  | .shipProgressTimeout uid => Sys2Proof.Machine.execShipProgressTimeout uid s
  | .probeTimeout uid => Sys2Proof.Machine.execProbeTimeout uid s
  | .passageRekey fn port => Sys2Proof.Machine.execPassageRekey fn port s
  | .passageEnable fn port enable => Sys2Proof.Machine.execPassageEnable fn port enable s
  | .rngHealthFail => Sys2Proof.Machine.execRngHealthFail s
  | .rngRetestEnd passed => Sys2Proof.Machine.execRngRetestEnd passed s
  | .rngRetest fn => Sys2Proof.Machine.execRngRetest fn s
  | .drbgReseed => Sys2Proof.Machine.execDrbgReseed s
  | .cryptoSegment => Sys2Proof.Machine.execCryptoSegment s
  | .quantumExpiry eng => Sys2Proof.Machine.execQuantumExpiry eng s
  | .cpBootGo fn hostReadOk => Sys2Proof.Machine.execCpBootGo fn hostReadOk s
  | .cpWatchdog cp => Sys2Proof.Machine.execCpWatchdog cp s
  | .cpRestartDone cp => Sys2Proof.Machine.execCpRestartDone cp s
  | .spWatchdog => Sys2Proof.Machine.execSpWatchdog s
  | .traceEnable fn value => Sys2Proof.Machine.execTraceEnable fn value s
  | .traceTailWrite fn value => Sys2Proof.Machine.execTraceTailWrite fn value s
  | .replayGo fn value => Sys2Proof.Machine.execReplayGo fn value s
  | .replayStop fn => Sys2Proof.Machine.execReplayStop fn s
  | .powerCapEval demand => Sys2Proof.Machine.execPowerCapEval demand s
  | .pwrCapWrite fn value => Sys2Proof.Machine.execPwrCapWrite fn value s
  | .pwrbrkN asserted => Sys2Proof.Machine.execPwrbrkN asserted s
  | .thermalSample readings => Sys2Proof.Machine.execThermalSample readings s
  | .thermalTrip => Sys2Proof.Machine.execThermalTrip s
  | .domainRamp eng => Sys2Proof.Machine.execDomainRamp eng s
  | .rampComplete eng => Sys2Proof.Machine.execRampComplete eng s
  | .idleGate eng => Sys2Proof.Machine.execIdleGate eng s
  | .domainShort eng railLow => Sys2Proof.Machine.execDomainShort eng railLow s
  | .sectorFault sector => Sys2Proof.Machine.execSectorFault sector s
  | .clockLoss => Sys2Proof.Machine.execClockLoss s
  | .timebaseLoRead fn => Sys2Proof.Machine.execTimebaseLoRead fn s
  | .dripPoll frames => Sys2Proof.Machine.execDripPoll frames s
  | .dripReplan needs => Sys2Proof.Machine.execDripReplan needs s
  | .faultOccurrence source cls detail part tag info => Sys2Proof.Machine.execFaultOccurrence source cls detail part tag info s
  | .continuedRecord source cls => Sys2Proof.Machine.execContinuedRecord source cls s
  | .faultTailWrite fn value => Sys2Proof.Machine.execFaultTailWrite fn value s
  | .powerOn found => Sys2Proof.Machine.execPowerOn found s
  | .fullReset fn found => Sys2Proof.Machine.execFullReset fn found s
  | .warmReset fn found => Sys2Proof.Machine.execWarmReset fn found s
  | .perstN asserted lowNs found => Sys2Proof.Machine.execPerstN asserted lowNs found s
  | .deviceReady => Sys2Proof.Machine.execDeviceReady s
  | .shutdown fn => Sys2Proof.Machine.execShutdown fn s
  | .d3hotEntry => Sys2Proof.Machine.execD3hotEntry s
  | .d3hotExit found => Sys2Proof.Machine.execD3hotExit found s
  | .railsValid => Sys2Proof.Machine.execRailsValid s
  | .p12vOvervoltage => Sys2Proof.Machine.execP12vOvervoltage s
  | .strapSample mid => Sys2Proof.Machine.execStrapSample mid s
  | .status => Sys2Proof.Machine.execStatus s
  | .tempHottest => Sys2Proof.Machine.execTempHottest s
  | .tempModule celsius => Sys2Proof.Machine.execTempModule celsius s
  | .powerIn => Sys2Proof.Machine.execPowerIn s
  | .capSet write pec => Sys2Proof.Machine.execCapSet write pec s
  | .emergency write pec => Sys2Proof.Machine.execEmergency write pec s
  | .clearAlert pec => Sys2Proof.Machine.execClearAlert pec s
  | .fruOffset value pec => Sys2Proof.Machine.execFruOffset value pec s
  | .fruRead => Sys2Proof.Machine.execFruRead s
  | .alertResponse => Sys2Proof.Machine.execAlertResponse s
  | .registerWrite fn offset size data => Sys2Proof.Machine.execRegisterWrite fn offset size data s
  | .flashOperationDone die met => Sys2Proof.Machine.execFlashOperationDone die met s
  | .dramWriteComplete ch single bad => Sys2Proof.Machine.execDramWriteComplete ch single bad s
  | .sramPatrolScrub group corrected bad => Sys2Proof.Machine.execSramPatrolScrub group corrected bad s
  | .auxRailLoss => Sys2Proof.Machine.execAuxRailLoss s
  | .referenceClockRestored found => Sys2Proof.Machine.execReferenceClockRestored found s
  | .refreshManagement ch bank => Sys2Proof.Machine.execRefreshManagement ch bank s

end Sys2Proof.Machine
end

