-- ==== Sys2Proof/Safety.lean ====
section
/-! DEFINITION. What makes a state sound: the memories in their canonical form, the fault queue within its bounds, and the
number of each kind of unit that the spec gives the device. Every command keeps all of it. -/

namespace Sys2Proof.Machine

/-- Both memories are in canonical form, and each filled area lies within one granule. -/
def Mems.canon (m : Mems) : Bool :=
  Mem.wf m.blank m.bytes && Mem.wf flashBlank m.flash && m.fills.all fun f => decide (f.1 % granuleBytes + f.2.1 ≤ granuleBytes)

/-- FAULT_TAIL never passes FAULT_HEAD, and the queue holds at most 256 records (R412). -/
def Faults.bounded (q : Faults) : Bool := decide (q.tail ≤ q.head) && decide (q.head ≤ q.tail + 256)

/-- The 64 queue pairs, 8 partitions with their caches, 32 engines, 24 DRAM channels with 44 ports, 32 flash dies, 16 Siphon
channels, 2 Passage ports, 4 processors and 8 virtual functions. -/
def State.shaped (s : State) : Bool :=
  s.qps.length == 64 && s.parts.length == 8 && s.kvs.length == 8 && s.engines.length == 32 && s.dram.chans.length == 24 &&
    s.dram.ports.length == 44 && s.flash.dies.length == 32 && s.siphon.chans.length == 16 && s.passage.ports.length == 2 &&
    s.kadon.cps.length == 4 && s.link.vfs.length == 8

def State.sound (s : State) : Bool := s.mems.canon && s.faults.bounded && s.shaped

/-! ## Which parts of the state a command touches -/

/-- A set of the parts of the state; the queue of waiting commands is none of them. -/
structure Touch where
  tNow : Bool := false
  tFree : Bool := false
  tDev : Bool := false
  tQps : Bool := false
  tJobs : Bool := false
  tLink : Bool := false
  tFaults : Bool := false
  tEngines : Bool := false
  tMerges : Bool := false
  tCounters : Bool := false
  tCtrBlocks : Bool := false
  tParts : Bool := false
  tKvs : Bool := false
  tSeqs : Bool := false
  tGens : Bool := false
  tSlots : Bool := false
  tMoves : Bool := false
  tMems : Bool := false
  tEcho : Bool := false
  tVision : Bool := false
  tDram : Bool := false
  tFlash : Bool := false
  tSiphon : Bool := false
  tPassage : Bool := false
  tSec : Bool := false
  tKadon : Bool := false
  tTrace : Bool := false
  tReplay : Bool := false
  tPower : Bool := false
  tDrip : Bool := false
  tSmbus : Bool := false
  tOut : Bool := false
  deriving DecidableEq, Repr

def Touch.nothing : Touch := {}

def Touch.now (m : Touch) : Touch := { m with tNow := true }
def Touch.free (m : Touch) : Touch := { m with tFree := true }
def Touch.dev (m : Touch) : Touch := { m with tDev := true }
def Touch.qps (m : Touch) : Touch := { m with tQps := true }
def Touch.jobs (m : Touch) : Touch := { m with tJobs := true }
def Touch.link (m : Touch) : Touch := { m with tLink := true }
def Touch.faults (m : Touch) : Touch := { m with tFaults := true }
def Touch.engines (m : Touch) : Touch := { m with tEngines := true }
def Touch.merges (m : Touch) : Touch := { m with tMerges := true }
def Touch.counters (m : Touch) : Touch := { m with tCounters := true }
def Touch.ctrBlocks (m : Touch) : Touch := { m with tCtrBlocks := true }
def Touch.parts (m : Touch) : Touch := { m with tParts := true }
def Touch.kvs (m : Touch) : Touch := { m with tKvs := true }
def Touch.seqs (m : Touch) : Touch := { m with tSeqs := true }
def Touch.gens (m : Touch) : Touch := { m with tGens := true }
def Touch.slots (m : Touch) : Touch := { m with tSlots := true }
def Touch.moves (m : Touch) : Touch := { m with tMoves := true }
def Touch.mems (m : Touch) : Touch := { m with tMems := true }
def Touch.echo (m : Touch) : Touch := { m with tEcho := true }
def Touch.vision (m : Touch) : Touch := { m with tVision := true }
def Touch.dram (m : Touch) : Touch := { m with tDram := true }
def Touch.flash (m : Touch) : Touch := { m with tFlash := true }
def Touch.siphon (m : Touch) : Touch := { m with tSiphon := true }
def Touch.passage (m : Touch) : Touch := { m with tPassage := true }
def Touch.sec (m : Touch) : Touch := { m with tSec := true }
def Touch.kadon (m : Touch) : Touch := { m with tKadon := true }
def Touch.trace (m : Touch) : Touch := { m with tTrace := true }
def Touch.replay (m : Touch) : Touch := { m with tReplay := true }
def Touch.power (m : Touch) : Touch := { m with tPower := true }
def Touch.drip (m : Touch) : Touch := { m with tDrip := true }
def Touch.smbus (m : Touch) : Touch := { m with tSmbus := true }
def Touch.out (m : Touch) : Touch := { m with tOut := true }

/-- What raising a fault record touches: the fault queue, the pending interrupts, and the messages sent. -/
def Touch.record (m : Touch) : Touch := m.link.faults.out

/-- What the end of a job touches: its completion entry, a record, what it held, and the work it had under way. -/
def Touch.jobEnd (m : Touch) : Touch :=
  m.record.free.qps.jobs.engines.merges.counters.ctrBlocks.parts.kvs.seqs.slots.moves.mems.echo.vision.dram.flash.siphon.sec

def Touch.everything : Touch := Touch.nothing.jobEnd.now.dev.gens.passage.kadon.trace.replay.power.drip.smbus

/-- The state that has the touched parts of `t` and everything else of `s`. -/
def Touch.ow (m : Touch) (t s : State) : State :=
  { pending := s.pending
    now := cond m.tNow t.now s.now
    free := cond m.tFree t.free s.free
    dev := cond m.tDev t.dev s.dev
    qps := cond m.tQps t.qps s.qps
    jobs := cond m.tJobs t.jobs s.jobs
    link := cond m.tLink t.link s.link
    faults := cond m.tFaults t.faults s.faults
    engines := cond m.tEngines t.engines s.engines
    merges := cond m.tMerges t.merges s.merges
    counters := cond m.tCounters t.counters s.counters
    ctrBlocks := cond m.tCtrBlocks t.ctrBlocks s.ctrBlocks
    parts := cond m.tParts t.parts s.parts
    kvs := cond m.tKvs t.kvs s.kvs
    seqs := cond m.tSeqs t.seqs s.seqs
    gens := cond m.tGens t.gens s.gens
    slots := cond m.tSlots t.slots s.slots
    moves := cond m.tMoves t.moves s.moves
    mems := cond m.tMems t.mems s.mems
    echo := cond m.tEcho t.echo s.echo
    vision := cond m.tVision t.vision s.vision
    dram := cond m.tDram t.dram s.dram
    flash := cond m.tFlash t.flash s.flash
    siphon := cond m.tSiphon t.siphon s.siphon
    passage := cond m.tPassage t.passage s.passage
    sec := cond m.tSec t.sec s.sec
    kadon := cond m.tKadon t.kadon s.kadon
    trace := cond m.tTrace t.trace s.trace
    replay := cond m.tReplay t.replay s.replay
    power := cond m.tPower t.power s.power
    drip := cond m.tDrip t.drip s.drip
    smbus := cond m.tSmbus t.smbus s.smbus
    out := cond m.tOut t.out s.out }

/-- The parts that a command may touch: whatever else the state holds is the same after it, whatever the operands and the
state are. A command that can end a job, fail one or raise a fault record also touches what that end touches. -/
def touches (c : Instr) : Touch :=
  match c with
  | .ringDoorbell _ _ _ _ => Touch.nothing.qps.mems.dram.trace.record
  | .pushDoorbell _ _ _ _ => Touch.nothing.qps.mems.dram.trace.record
  | .takeDescriptor =>
      Touch.nothing.free.qps.jobs.engines.counters.ctrBlocks.parts.kvs.seqs.slots.mems.dram.flash.trace.replay.record
  | .writeCompletion _ => Touch.nothing.qps.jobs.counters.ctrBlocks.mems.dram.trace.replay.record
  | .moderationTimeout _ => Touch.nothing.qps.link.out
  | .hostAccessReturns _ =>
      Touch.nothing.free.qps.jobs.engines.counters.ctrBlocks.parts.kvs.seqs.slots.mems.dram.flash.trace.replay.record
  | .qpEnable _ _ => Touch.nothing.qps
  | .qpDisable _ _ => Touch.nothing.qps.jobs.counters.ctrBlocks
  | .loadModel _ _ => Touch.nothing.jobEnd
  | .unloadModel _ => Touch.nothing.jobEnd.passage
  | .prefill _ => Touch.nothing.jobEnd.gens.trace
  | .prefillChunk _ => Touch.nothing.jobEnd.trace.replay
  | .decodeStep _ => Touch.nothing.jobEnd.gens.trace.replay
  | .verifyTree _ => Touch.nothing.jobEnd.gens.trace.replay
  | .samplerDraw _ => Touch.nothing.jobEnd.trace.replay
  | .kvMove _ _ => Touch.nothing.jobEnd.gens.trace
  | .kvShipOut _ => Touch.nothing.jobEnd.gens.passage
  | .kvShipIn _ => Touch.nothing.jobEnd.gens.passage
  | .prefixLookup _ => Touch.nothing.jobEnd.gens.trace
  | .prefixInsert _ => Touch.nothing.jobEnd
  | .variantLoad _ => Touch.nothing.jobEnd
  | .trainStep _ => Touch.nothing.jobEnd
  | .trainBatch _ => Touch.nothing.jobEnd
  | .visionFrame _ => Touch.nothing.jobEnd
  | .echoSearch _ => Touch.nothing.jobEnd
  | .suspend _ =>
      Touch.nothing.free.qps.jobs.engines.merges.counters.ctrBlocks.parts.kvs.slots.moves.echo.vision.flash.siphon.passage.sec
  | .resume _ =>
      Touch.nothing.free.qps.jobs.engines.merges.counters.ctrBlocks.parts.kvs.slots.moves.echo.vision.flash.siphon.passage.sec
  | .cancel _ =>
      Touch.nothing.free.qps.jobs.engines.merges.counters.ctrBlocks.parts.kvs.slots.moves.echo.vision.flash.siphon.passage.sec
  | .query _ => Touch.nothing.free.qps.jobs.engines.counters.ctrBlocks.parts.kvs.slots
  | .flashRead _ => Touch.nothing.jobEnd
  | .flashProgram _ => Touch.nothing.jobEnd
  | .flashErase _ => Touch.nothing.jobEnd
  | .flashProtect _ => Touch.nothing.jobEnd
  | .tileList _ => Touch.nothing.jobEnd
  | .dmaRaw _ => Touch.nothing.jobEnd
  | .createPartition _ => Touch.nothing.jobEnd
  | .destroyPartition _ => Touch.nothing.jobEnd.passage
  | .attest _ => Touch.nothing.jobEnd
  | .fwUpdate _ _ => Touch.nothing.jobEnd.dev.passage.kadon.trace.smbus
  | .safePoint _ => Touch.nothing.free.qps.jobs.engines.merges.moves.mems.echo.vision.dram.flash.siphon.passage.sec.record
  | .deadlineTick _ => Touch.nothing.jobs.engines.merges.moves.echo.vision.flash.siphon.passage.sec.record
  | .withdrawalEnd _ => Touch.nothing.free.qps.jobs.engines.counters.ctrBlocks.parts.kvs.seqs.slots.mems.dram.flash.record
  | .tileTaskLoad _ _ => Touch.nothing.jobEnd
  | .slotGrant _ => Touch.nothing.engines
  | .fetchStepIssue _ => Touch.nothing.jobEnd
  | .fetchStepComplete _ _ _ => Touch.nothing.jobEnd.dev.trace.smbus
  | .stopRamp _ => Touch.nothing.engines
  | .taskRetire _ _ _ => Touch.nothing.jobEnd
  | .priorityAging _ _ => Touch.nothing.engines
  | .contextRelease _ _ => Touch.nothing.engines
  | .engineMapOut _ _ => Touch.nothing.jobEnd.dev.trace.smbus
  | .sumpUnitGrant _ => Touch.nothing.jobEnd
  | .appendTimeout _ _ => Touch.nothing.jobEnd
  | .parkGroup _ => Touch.nothing.parts.kvs
  | .groupFlush _ => Touch.nothing.jobEnd
  | .unitsFreed _ => Touch.nothing.parts.kvs
  | .idleEpochTick _ => Touch.nothing.kvs
  | .pageReclaim _ => Touch.nothing.kvs.slots.moves.mems.dram.siphon.record
  | .mergeFold _ _ => Touch.nothing.jobEnd.dev.smbus
  | .echoWorkUnit _ => Touch.nothing.jobEnd.trace.replay
  | .echoAging => Touch.nothing.echo
  | .progressPoll => Touch.nothing.jobEnd
  | .visionBurst _ => Touch.nothing.jobEnd
  | .stallTimeout => Touch.nothing.free.qps.jobs.engines.counters.ctrBlocks.kvs.slots.vision.record
  | .lateDataDiscard => Touch.nothing.vision
  | .warpPatch _ => Touch.nothing.jobEnd
  | .promotion _ _ _ _ _ _ => Touch.nothing.jobs.parts.slots.moves.mems.echo.dram.siphon.trace.replay
  | .moveLanded _ => Touch.nothing.jobEnd.trace
  | .fetchDeadline _ _ _ => Touch.nothing.jobEnd.trace
  | .dramRequest _ _ _ _ => Touch.nothing.mems.dram
  | .urgencyChange _ => Touch.nothing.dram
  | .crossingGrant _ => Touch.nothing.dram
  | .dramReadComplete _ _ _ => Touch.nothing.jobEnd
  | .patrolScrub _ _ _ _ => Touch.nothing.mems.dram
  | .perBankRefresh _ => Touch.nothing.dram
  | .tempReadout _ => Touch.nothing.dram.power.record
  | .driftTrack _ _ => Touch.nothing.dram
  | .channelRetrain _ _ => Touch.nothing.jobEnd.dev.trace.smbus
  | .channelMapOut _ => Touch.nothing.jobEnd.dev.trace.smbus
  | .powerDownEntry _ => Touch.nothing.dram
  | .dramTrainGo _ _ => Touch.nothing.free.dram
  | .dramTraining _ => Touch.nothing.free.dev.faults.mems.dram.smbus
  | .flashMount => Touch.nothing.free.mems.flash.drip.record
  | .gapMove _ => Touch.nothing.free.mems.flash.record
  | .eraseSuspend _ => Touch.nothing.flash
  | .eraseResume _ => Touch.nothing.flash
  | .eraseWindowEnd _ => Touch.nothing.flash
  | .eraseStarved _ => Touch.nothing.flash.record
  | .powerLoss => Touch.everything
  | .siphonBurstIssue => Touch.nothing.jobEnd
  | .siphonTransferComplete _ => Touch.nothing.jobEnd.trace
  | .siphonAging _ => Touch.nothing.siphon
  | .siphonError _ _ => Touch.nothing.jobEnd.dev.trace.smbus
  | .linkTrained => Touch.nothing.free.link.out
  | .linkLoss => Touch.nothing.jobEnd.dev.passage
  | .flrVf _ => Touch.nothing.jobEnd.passage
  | .flrPf _ => Touch.everything
  | .hotReset _ => Touch.everything
  | .bar4Access _ _ _ _ _ => Touch.nothing.free.mems.dram.record
  | .owningFunctionChange _ _ => Touch.nothing.qps.jobs.link.counters.ctrBlocks.out
  | .msixUnmask _ _ => Touch.nothing.link.out
  | .busMasterEnable _ => Touch.nothing.link.out
  | .ideIntegrityFail _ => Touch.nothing.record
  | .ideKm _ _ => Touch.nothing.link.out
  | .doeDiscovery _ => Touch.nothing.out
  | .getVersion _ => Touch.nothing.link.out
  | .getCapabilities _ => Touch.nothing.out
  | .negotiateAlgorithms _ _ => Touch.nothing.link.out
  | .getDigests _ => Touch.nothing.out
  | .getCertificate _ _ _ _ => Touch.nothing.out
  | .challenge _ _ _ => Touch.nothing.sec.out
  | .getMeasurements _ _ _ => Touch.nothing.sec.out
  | .keyExchange _ _ => Touch.nothing.link.sec.out
  | .finish _ _ => Touch.nothing.link.out
  | .heartbeat _ => Touch.nothing.out
  | .keyUpdate _ => Touch.nothing.link.out
  | .endSession _ => Touch.nothing.link.out
  | .data _ _ => Touch.nothing.jobEnd.gens.passage
  | .ack _ _ => Touch.nothing.passage.record
  | .nak _ _ => Touch.nothing.passage.record
  | .credit _ _ => Touch.nothing.passage.record
  | .probe _ _ => Touch.nothing.passage.record
  | .probeReply _ _ => Touch.nothing.jobEnd.passage
  | .keyx _ _ _ => Touch.nothing.passage.sec.record
  | .discover _ _ => Touch.nothing.passage.sec.record
  | .portLinkUp _ => Touch.nothing.passage
  | .portDown _ _ => Touch.nothing.jobEnd.passage
  | .replayTimeout _ => Touch.nothing.passage
  | .ackTimer _ => Touch.nothing.passage
  | .creditTimer _ => Touch.nothing.passage
  | .rekeyThreshold _ => Touch.nothing.passage.sec
  | .portLocked _ => Touch.nothing.jobEnd.passage
  | .keyxRetry _ => Touch.nothing.passage.sec
  | .xferReady _ _ _ => Touch.nothing.jobs.passage
  | .readyResend _ => Touch.nothing.jobs.passage
  | .e2eAck _ _ _ => Touch.nothing.jobEnd.passage
  | .xferHold _ => Touch.nothing.jobs
  | .holdTimer _ => Touch.nothing.jobs.passage
  | .xferAbort _ _ => Touch.nothing.jobEnd
  | .shipProgressTimeout _ => Touch.nothing.jobEnd
  | .probeTimeout _ => Touch.nothing.jobEnd
  | .passageRekey _ _ => Touch.nothing.passage.sec
  | .passageEnable _ _ _ => Touch.nothing.jobEnd.passage
  | .rngHealthFail => Touch.nothing.sec.record
  | .rngRetestEnd _ => Touch.nothing.passage.sec.record
  | .rngRetest _ => Touch.nothing.sec
  | .drbgReseed => Touch.nothing.sec
  | .cryptoSegment => Touch.nothing.sec
  | .quantumExpiry _ => Touch.nothing.engines.mems.dram.siphon
  | .cpBootGo _ _ => Touch.nothing.dev.link.kadon.out
  | .cpWatchdog _ => Touch.nothing.jobEnd.dev.kadon.trace.smbus
  | .cpRestartDone _ => Touch.nothing.kvs.slots.moves.mems.dram.siphon.kadon.record
  | .spWatchdog => Touch.nothing.jobEnd.dev.passage.kadon.smbus
  | .traceEnable _ _ => Touch.nothing.mems.dram.trace
  | .traceTailWrite _ _ => Touch.nothing.mems.dram.trace
  | .replayGo _ _ => Touch.nothing.replay
  | .replayStop _ => Touch.nothing.replay
  | .powerCapEval _ => Touch.nothing.engines.power
  | .pwrCapWrite _ _ => Touch.nothing.power
  | .pwrbrkN _ => Touch.nothing.power.record
  | .thermalSample _ => Touch.nothing.dev.engines.power.smbus.record
  | .thermalTrip => Touch.everything
  | .domainRamp _ => Touch.nothing.engines
  | .rampComplete _ => Touch.nothing.jobEnd.dev.trace.power.smbus
  | .idleGate _ => Touch.nothing.free.engines.mems.dram
  | .domainShort _ _ => Touch.nothing.jobEnd.dev.trace.power.smbus
  | .sectorFault _ => Touch.nothing.jobEnd.dev.trace.power.smbus
  | .clockLoss => Touch.everything
  | .timebaseLoRead _ => Touch.nothing.power.out
  | .dripPoll _ => Touch.nothing.dev.flash.drip.record
  | .dripReplan _ => Touch.nothing.flash.drip
  | .faultOccurrence _ _ _ _ _ _ => Touch.nothing.record
  | .continuedRecord _ _ => Touch.nothing.record
  | .faultTailWrite _ _ => Touch.nothing.faults
  | .powerOn _ => Touch.nothing.jobEnd.now.dev.trace.power.drip.smbus
  | .fullReset _ _ => Touch.everything
  | .warmReset _ _ => Touch.everything
  | .perstN _ _ _ => Touch.everything
  | .deviceReady => Touch.nothing.dev.parts.kvs.mems.dram.kadon.record
  | .shutdown _ => Touch.nothing.jobEnd.dev.passage
  | .d3hotEntry => Touch.nothing.jobEnd.dev.passage
  | .d3hotExit _ => Touch.everything
  | .railsValid => Touch.everything
  | .p12vOvervoltage => Touch.everything
  | .strapSample _ => Touch.nothing.passage.smbus
  | .status => Touch.nothing.out
  | .tempHottest => Touch.nothing.out
  | .tempModule _ => Touch.nothing.out
  | .powerIn => Touch.nothing.out
  | .capSet _ _ => Touch.nothing.smbus.out
  | .emergency _ _ => Touch.nothing.power.smbus.record
  | .clearAlert _ => Touch.nothing.smbus.out
  | .fruOffset _ _ => Touch.nothing.free.smbus.out
  | .fruRead => Touch.nothing.smbus.out
  | .alertResponse => Touch.nothing.smbus.out
  | .registerWrite _ _ _ _ => Touch.everything
  | .flashOperationDone _ _ => Touch.nothing.jobEnd
  | .dramWriteComplete _ _ _ => Touch.nothing.mems.dram.record
  | .sramPatrolScrub _ _ _ => Touch.nothing.jobEnd.dev.smbus
  | .auxRailLoss => Touch.everything
  | .referenceClockRestored _ => Touch.nothing.jobEnd.now.dev.trace.power.drip.smbus
  | .refreshManagement _ _ => Touch.nothing.dram

/-! ## What statements say of a command and of a state -/

/-- The command answers a next state, and `P` holds of it. -/
def answers (c : Instr) (s : State) (P : State → Prop) : Prop := ∃ t, exec c s = .next t ∧ P t

/-- A pushed descriptor, not a ring announcement. -/
def Ann.isPush : Ann → Bool
  | .push _ _ _ => true
  | .ring _ _ _ => false

/-- The command of opcode `op` finds job `uid` QUEUED and free to start; `j` is the job as it was queued. -/
abbrev State.starts (s : State) (uid op : Nat) (j : Job) : Prop := (s.starting uid op).map Prod.fst = some j

/-- The state in which that job has entered RUNNING, with the groups that it names in units again. -/
def State.started (s : State) (uid op : Nat) : State := ((s.starting uid op).map Prod.snd).getD s

/-- A record will be written for the job: its queue pair is enabled, and nothing ended it silently (R33, R38). -/
abbrev State.recorded (s : State) (j : Job) : Prop :=
  s.job? j.uid = some j ∧ j.silent = false ∧ j.ending ≠ some .silent ∧ j.finished = false ∧ (s.qp j.qp).enabled = true

/-- The job's completion record waits for its ring slot, with the fields of R33 that are fixed at the job's end. RESULT is
free where the spec states none. -/
abbrev State.recordWaits (t : State) (j : Job) (status result : Nat) : Prop :=
  ∃ c ∈ (t.qp j.qp).waiting, c.uid = j.uid ∧ c.jobId = j.jobId ∧ c.opcode = j.opcode ∧ c.startTs = j.startTs ∧
    c.endTs = t.now ∧ c.status = status ∧ (result = noResult ∨ c.result = result) ∧ c.final = true

/-- A running job of an opcode, on processors that run. -/
abbrev State.runs (s : State) (uid op : Nat) (j : Job) : Prop :=
  s.job? uid = some j ∧ j.opcode = op ∧ j.state = .running ∧ j.finished = false ∧ s.cpRunning j.cp = true

/-- Whether an entry of a KV_MOVE was applied. -/
def ItemRes.isDone : ItemRes → Bool
  | .done _ => true
  | _ => false

/-- Whether every append was taken. -/
def AppRes.isOk : AppRes → Bool
  | .ok _ _ => true
  | _ => false

/-- Whether a step of a tile task ended with its data advanced. -/
def StepRes.isDone : StepRes → Bool
  | .done _ _ => true
  | _ => false

/-- A running serving job with its entries, at chunk `k` and step `i` of its pass, on its loaded slot. -/
abbrev State.serves (s : State) (uid op : Nat) (j : Job) (t : Slot) (ents : List Ent) (k i : Nat) (since : Option Nat) :
    Prop :=
  s.runs uid op j ∧ j.ext = .serve ents k i since ∧ s.slot? (dSlot j.words) = some t

/-- A serving job whose sampler has one entry to draw for, the job's only one. -/
abbrev State.drawsFor (s : State) (uid op : Nat) (j : Job) (t : Slot) (e : Ent) (k i : Nat) (since : Option Nat) :
    Prop :=
  s.serves uid op j t [e] k i since ∧ servingOp op = true ∧ s.workOut uid = false ∧ e.done = false ∧ e.ready = true

/-- A running KV_MOVE whose last entry, number `done`, names the sequence `q` and asks for an action. -/
abbrev State.lastMove (s : State) (uid done : Nat) (j : Job) (q : Seq) (action : Nat) : Prop :=
  s.runs uid 0x06 j ∧ s.recorded j ∧ s.cpRunning 2 = true ∧ j.ext = .items done none ∧ dCount j.words = done + 1 ∧
    s.resident j.part (wordAt (s.kmEntry j done) 0) = some q ∧ kmAction (s.kmEntry j done) = action

/-- The message of an MSI-X entry was sent, or its pending bit is set (R326). -/
abbrev State.signalled (t : State) (fn : Fn) (e : Nat) : Prop := (fn, e) ∈ t.out.msix ∨ e ∈ (t.fnSt fn).pending

/-- An occurrence of this moment stands in the fault queue, is gathered for its CONTINUED record, or met a full queue
(R411, R412). -/
abbrev State.reported (t : State) (source cls : Nat) : Prop :=
  (∃ r ∈ t.faults.recs, r.2.source = source ∧ r.2.cls = cls ∧ r.2.lastTs = t.now) ∨
    (∃ g ∈ t.faults.gathered, g.2.source = source ∧ g.2.cls = cls ∧ g.2.lastTs = t.now) ∨ t.faults.overflow = true

end Sys2Proof.Machine
end

