-- ==== Sys2Proof/Certificates/Slice0/Obligations.lean ====
section
/-! DEFINITION. The statements for the provers. Each says what its title in OBLIGATIONS.json says; the spec's rules that it
formalises or rests on are in that entry's "cites". -/

open Sys2Proof Sys2Proof.Machine

/-- Step of a state with `c` at the front of its queue is exec of `c` with the queue's rest. The queue itself is the
model's (log entry 23). -/
def Obligations.StepRunsFrontCommand : Prop :=
  ∀ (c : Instr) (rest : List Instr) (s : State),
    step { s with pending := c :: rest } = exec c { s with pending := rest }

/-- What an idle step does is the model's choice (log entry 2): the timebase of R389 counts one tick of 10 ns. -/
def Obligations.EmptyQueueTicks : Prop :=
  (∀ (s : State),
     s.pending = [] →
     s.alive = true →
     s.dev.shutting = false →
     step s = .next { s with now := s.now + 1 }) ∧
  (∀ (s : State),
     s.pending = [] →
     s.alive = false →
     step s = .next s)

/-- For every command and every state exec answers a next state. -/
def Obligations.EveryCommandAnswersNext : Prop :=
  ∀ (c : Instr) (s : State),
    answers c s fun _ => True

/-- Whatever a command does, the queue of commands that still wait is the same after it, and a step removes exactly
the command at the front. -/
def Obligations.QueueKeptByExec : Prop :=
  (∀ (c : Instr) (s t : State),
     exec c s = .next t →
     t.pending = s.pending) ∧
  (∀ (c : Instr) (rest : List Instr) (s t : State),
     s.pending = c :: rest →
     step s = .next t →
     t.pending = rest)

/-- From every sound state, a step that answers a next state answers a sound one: the memories stay in canonical form,
FAULT_TAIL never passes FAULT_HEAD nor lags it by more than 256, and the numbers of queue pairs, partitions, engines,
channels, dies and ports stay. -/
def Obligations.SoundnessKeptByEveryStep : Prop :=
  ∀ (s t : State),
    s.sound = true →
    step s = .next t →
    t.sound = true

/-- State.reset meets the soundness invariant and its queue of waiting commands is empty. -/
def Obligations.ResetStateIsSound : Prop :=
  State.reset.sound = true ∧ State.reset.pending = []

/-- The frame of every command, for every operand and state: `touches c` names the parts that `c` may change, and
every other part of the next state is that of the state before. Which part a piece of the spec's state lies in is the
model's layout. -/
def Obligations.UntouchedPartsKept : Prop :=
  ∀ (c : Instr) (s t : State),
    exec c s = .next t →
    t = (touches c).ow t s

/-- Through the physical function, the doorbell of QPn in PTp lies at p x 0x1000 + 8n and its push slot at 0x8000 + p
x 0x1000 + 64n; through the virtual function of PTp they lie at 8n and 0x1000 + 64n; bytes 0x200 to 0xFFF of a
doorbell page hold nothing. -/
def Obligations.Bar2PagesOfPartitions : Prop :=
  (∀ (p n : Nat),
     p < 8 →
     n < 64 →
     bar2At .pf (p * 0x1000 + 8 * n) = .ring p n ∧
     bar2At .pf (0x8000 + p * 0x1000 + 64 * n) = .push p n ∧
     bar2At (.vf p) (8 * n) = .ring p n ∧ bar2At (.vf p) (0x1000 + 64 * n) = .push p n) ∧
  (∀ (p o : Nat),
     p < 8 →
     0x200 ≤ o →
     o < 0x1000 →
     bar2At .pf (p * 0x1000 + o) = .empty ∧ bar2At (.vf p) o = .empty)

/-- RING_DOORBELL: an accepted 8-byte write sets SQ_TAIL and CQ_HEAD of its queue pair to the fields whose VALID bit
is 1, and leaves the others. PUSH_DOORBELL: an accepted 64-byte write appends one pushed descriptor, with its arrival
time, to the announcements of its queue pair and changes nothing else. In both, no other queue pair changes. -/
def Obligations.DoorbellWritesApplied : Prop :=
  (∀ (fn : Fn) (offset p n : Nat) (value : BitVec 64) (s : State),
     s.reaches fn = true →
     s.dev.ready = true →
     bar2At fn offset = .ring p n →
     offset % 8 = 0 →
     s.slotRefused fn p n = false →
     (bit 16 value.toNat = true → bits 15 0 value.toNat < 2 ^ (s.qp n).sqLog) →
     (bit 48 value.toNat = true → bits 47 32 value.toNat < 2 ^ (s.qp n).cqLog) →
     answers (.ringDoorbell fn offset 8 value) s fun t =>
       (t.qp n).sqTail = (if bit 16 value.toNat then bits 15 0 value.toNat else (s.qp n).sqTail) ∧
       (t.qp n).cqHead = (if bit 48 value.toNat then bits 47 32 value.toNat else (s.qp n).cqHead) ∧
       (t.qp n).sqHead = (s.qp n).sqHead ∧ (t.qp n).drops = (s.qp n).drops ∧ ∀ m, m ≠ n → t.qp m = s.qp m) ∧
  (∀ (fn : Fn) (offset p n : Nat) (desc : BitVec 512) (s : State),
     s.reaches fn = true →
     s.dev.ready = true →
     bar2At fn offset = .push p n →
     offset % 64 = 0 →
     s.slotRefused fn p n = false →
     ((s.qp n).anns.filter Ann.isPush).length < 4 →
     exec (.pushDoorbell fn offset 64 desc) s =
       .next (s.modQp n fun q => { q with anns := q.anns ++ [.push (descWords desc) s.now fn] }))

/-- A ring write or push that reaches a slot but is refused (wrong function, wrong owner, disabled queue pair, wrong
size or alignment, or a full push slot) increments QP_DROPS of the slot's queue pair up to its limit, raises a COMMAND
occurrence from 0x50, and leaves SQ_TAIL, CQ_HEAD and the announcements as they were. Before READY nothing changes at
all. -/
def Obligations.DroppedDoorbellWrites : Prop :=
  (∀ (fn : Fn) (offset size p n : Nat) (value : BitVec 64) (s : State),
     s.reaches fn = true →
     s.dev.ready = true →
     bar2At fn offset = .ring p n →
     n < s.qps.length →
     (s.slotRefused fn p n = true ∨ size ≠ 8 ∨ offset % 8 ≠ 0 ∨ bit 16 value.toNat = true ∧ 2 ^ (s.qp n).sqLog ≤ bits 15 0 value.toNat ∨
       bit 48 value.toNat = true ∧ 2 ^ (s.qp n).cqLog ≤ bits 47 32 value.toNat) →
     answers (.ringDoorbell fn offset size value) s fun t =>
       (t.qp n).drops = min (2 ^ 32 - 1) ((s.qp n).drops + 1) ∧ (t.qp n).anns = (s.qp n).anns ∧
       (t.qp n).sqTail = (s.qp n).sqTail ∧ (t.qp n).cqHead = (s.qp n).cqHead ∧ t.reported 0x50 1) ∧
  (∀ (fn : Fn) (offset size p n : Nat) (desc : BitVec 512) (s : State),
     s.reaches fn = true →
     s.dev.ready = true →
     bar2At fn offset = .push p n →
     n < s.qps.length →
     (s.slotRefused fn p n = true ∨ size ≠ 64 ∨ offset % 64 ≠ 0 ∨ 4 ≤ ((s.qp n).anns.filter Ann.isPush).length) →
     answers (.pushDoorbell fn offset size desc) s fun t =>
       (t.qp n).drops = min (2 ^ 32 - 1) ((s.qp n).drops + 1) ∧ (t.qp n).anns = (s.qp n).anns ∧ t.reported 0x50 1) ∧
  (∀ (fn : Fn) (offset size : Nat) (value : BitVec 64) (desc : BitVec 512) (s : State),
     s.dev.ready = false →
     exec (.ringDoorbell fn offset size value) s = .next s ∧ exec (.pushDoorbell fn offset size desc) s = .next s)

/-- TAKE_DESCRIPTOR: when a queue pair has a head descriptor that the device may take, a descriptor that passes the
checks of R30 becomes the last job of the list, with the descriptor's words, JOB_ID and opcode, unfinished and QUEUED,
and every other job stays; one that fails gets a waiting record with the status of the first check that fails and
becomes no job. -/
def Obligations.DescriptorTaken : Prop :=
  (∀ (n : Nat) (h : Head) (s : State),
     s.canTake = true →
     s.takeFrom (List.range 64) = some (n, h) →
     s.dev.fault = false →
     s.dev.secureHalt = false →
     s.replay.state ≠ .running →
     s.validate n h.fn h.words = none →
     answers .takeDescriptor s fun t => ∃ j, t.jobs.list.getLast? = some j ∧
       t.jobs.list.map Job.uid = s.jobs.list.map Job.uid ++ [s.jobs.nextUid] ∧
       (∀ k ∈ s.jobs.list, k.uid ≠ s.jobs.nextUid → k ∈ t.jobs.list) ∧ j.uid = s.jobs.nextUid ∧ j.qp = n ∧
       j.part = (s.qp n).part ∧ j.words = h.words ∧ j.jobId = dJobId h.words ∧ j.opcode = dOpcode h.words ∧
       j.startTs = h.ts ∧ j.state = .queued ∧ j.finished = false ∧ t.jobs.nextUid = s.jobs.nextUid + 1) ∧
  (∀ (n st : Nat) (h : Head) (s : State),
     s.canTake = true →
     s.takeFrom (List.range 64) = some (n, h) →
     s.dev.fault = false →
     s.dev.secureHalt = false →
     s.replay.state ≠ .running →
     s.validate n h.fn h.words = some st →
     answers .takeDescriptor s fun t => t.jobs.list = s.jobs.list ∧
       ∃ c ∈ (t.qp n).waiting, c.jobId = dJobId h.words ∧ c.status = st ∧ c.opcode = dOpcode h.words ∧ c.endTs = s.now)

/-- WRITE_COMPLETION: while the ring has a free slot and the host can be reached, the first record that is not held
goes to slot CQ_TAIL of the completion ring in host memory (all eight words, when the partition is not traced),
CQ_TAIL advances modulo the ring size, the phase toggles at the wrap, and the record no longer waits; a full ring
changes nothing. HOST_ACCESS_RETURNS does the same for the function's queue pairs. -/
def Obligations.CompletionRecordWritten : Prop :=
  (∀ (n : Nat) (c : Comp) (s : State),
     (s.qp n).waiting.find? (fun c => !s.compHeld c) = some c →
     (s.qp n).enabled = true →
     s.hostOk (s.qp n).part = true →
     ((s.qp n).cqTail + 1) % 2 ^ (s.qp n).cqLog ≠ (s.qp n).cqHead →
     answers (.writeCompletion n) s fun t =>
       (t.qp n).cqTail = (if (s.qp n).cqTail + 1 = 2 ^ (s.qp n).cqLog then 0 else (s.qp n).cqTail + 1) ∧
       (t.qp n).cqPhase = (if (s.qp n).cqTail + 1 = 2 ^ (s.qp n).cqLog then !(s.qp n).cqPhase else (s.qp n).cqPhase) ∧
       (t.qp n).waiting = (s.qp n).waiting.erase c ∧
       (s.traced (s.qp n).part = false →
         t.wordsAt (hostBase + (s.qp n).cqBase + 32 * (s.qp n).cqTail) 8 =
           (c.words (s.qp n).sqHead n (s.qp n).cqPhase).map (· % 2 ^ 32)) ∧
       ∀ m, m ≠ n → t.qp m = s.qp m) ∧
  (∀ (n : Nat) (s : State),
     s.replay.state ≠ .running →
     ((s.qp n).cqTail + 1) % 2 ^ (s.qp n).cqLog = (s.qp n).cqHead →
     exec (.writeCompletion n) s = .next s) ∧
  (∀ (fn : Fn) (n : Nat) (s : State),
     s.replay.state ≠ .running →
     ((List.range 64).filter fun m => s.ownFn (s.qp m).part == fn && s.hostOk (s.qp m).part) = [n] →
     (s.qp n).waiting.length = 1 →
     (s.qp n).anns = [] →
     exec (.hostAccessReturns fn) s = exec (.writeCompletion n) s) ∧
  (∀ (fn : Fn) (n : Nat) (c : Comp) (s : State),
     s.replay.state ≠ .running →
     ((List.range 64).filter fun m => s.ownFn (s.qp m).part == fn && s.hostOk (s.qp m).part) = [n] →
     (s.qp n).waiting = [c] →
     (s.qp n).anns = [] →
     s.compHeld c = false →
     (s.qp n).enabled = true →
     ((s.qp n).cqTail + 1) % 2 ^ (s.qp n).cqLog ≠ (s.qp n).cqHead →
     answers (.hostAccessReturns fn) s fun t => (t.qp n).waiting = [] ∧
       (t.qp n).cqTail = (if (s.qp n).cqTail + 1 = 2 ^ (s.qp n).cqLog then 0 else (s.qp n).cqTail + 1) ∧
       (s.traced (s.qp n).part = false →
         t.wordsAt (hostBase + (s.qp n).cqBase + 32 * (s.qp n).cqTail) 8 =
           (c.words (s.qp n).sqHead n (s.qp n).cqPhase).map (· % 2 ^ 32)))

/-- MODERATION_TIMEOUT: when M is not 0 and M microseconds have passed since the first record not yet signalled, the
queue pair's MSI-X entry is sent or becomes pending and the count starts anew; before that moment nothing changes. -/
def Obligations.VectorRaisedByModeration : Prop :=
  (∀ (n first : Nat) (s : State),
     s.shaped = true →
     n < 64 →
     (s.qp n).part < 8 →
     (s.qp n).unsignalledSince = some first →
     0 < (s.qp n).modTime →
     first + (s.qp n).modTime * 100 ≤ s.now →
     answers (.moderationTimeout n) s fun t => t.signalled (s.ownFn (s.qp n).part) (s.qp n).vector ∧
       (t.qp n).unsignalled = 0 ∧ (t.qp n).unsignalledSince = none ∧ (t.qp n).vector = (s.qp n).vector ∧
       ∀ m, m ≠ n → t.qp m = s.qp m) ∧
  (∀ (n first : Nat) (s : State),
     (s.qp n).unsignalledSince = some first →
     s.now < first + (s.qp n).modTime * 100 →
     exec (.moderationTimeout n) s = .next s)

/-- QP_ENABLE: a write of ENABLE = 1 to a disabled queue pair that the function owns enables it, with indices 0,
expected phase 1 and no announcement, or is refused with the first cause of NOT_READY, VECTOR, BASE and leaves it
disabled; QP_DISABLE: ENABLE = 0 disables it and discards its announcements and waiting records, and no job taken from
it will write a record. No other queue pair changes. -/
def Obligations.QueuePairEnabledAndDisabled : Prop :=
  (∀ (fn : Fn) (n : Nat) (s : State),
     s.qpWritable fn n = true →
     (s.qp n).enabled = false →
     s.link.lost = false →
     s.dev.ready = true →
     (s.qp n).vector ≤ (if s.ownFn (s.qp n).part = .pf then 62 else 7) →
     (s.qp n).sqBase < 0xC00000000000 →
     (s.qp n).cqBase < 0xC00000000000 →
     exec (.qpEnable fn n) s = .next (s.modQp n fun q => { q with
       enabled := true, refuse := 0, sqTail := 0, sqHead := 0, cqTail := 0, cqHead := 0, cqPhase := true
       anns := [], unsignalled := 0, unsignalledSince := none })) ∧
  (∀ (fn : Fn) (n : Nat) (s : State),
     s.qpWritable fn n = true →
     (s.qp n).enabled = false →
     s.link.lost = false →
     0 < s.enableRefusal n →
     exec (.qpEnable fn n) s = .next (s.modQp n fun q => { q with refuse := s.enableRefusal n })) ∧
  (∀ (n : Nat) (s : State),
     s.dev.ready = false →
     s.enableRefusal n = 3) ∧
  (∀ (n : Nat) (s : State),
     s.dev.ready = true →
     (if s.ownFn (s.qp n).part = .pf then 62 else 7) < (s.qp n).vector →
     s.enableRefusal n = 1) ∧
  (∀ (n : Nat) (s : State),
     s.dev.ready = true →
     (s.qp n).vector ≤ (if s.ownFn (s.qp n).part = .pf then 62 else 7) →
     (0xC00000000000 ≤ (s.qp n).sqBase ∨ 0xC00000000000 ≤ (s.qp n).cqBase) →
     s.enableRefusal n = 2) ∧
  (∀ (fn : Fn) (n : Nat) (s : State),
     s.qpWritable fn n = true →
     (s.qp n).enabled = true →
     answers (.qpDisable fn n) s fun t =>
       (t.qp n).enabled = false ∧ (t.qp n).anns = [] ∧ (t.qp n).waiting = [] ∧ (t.qp n).refuse = (s.qp n).refuse ∧
       (∀ j ∈ t.jobs.list, j.qp = n → j.silent = true) ∧ ∀ m, m ≠ n → t.qp m = s.qp m)

/-- An error status takes precedence, and the first one noted stays; then come CANCELLED, DEADLINE_MISSED,
OK_DEGRADED, which applies exactly when QUALITY bit 0 or 1 (word bits 16 and 17) is set, and OK. Every job's record
carries that status, with the job's first error, whether it was cancelled, and whether it was aborted or late. -/
def Obligations.CompletionStatusPrecedence : Prop :=
  (∀ err quality : Nat, ∀ cancelled late : Bool,
    (err ≠ 0 → finalStatus err cancelled late quality = err) ∧
    (err = 0 → cancelled = true → finalStatus err cancelled late quality = 0x10) ∧
    (err = 0 → cancelled = false → late = true → finalStatus err cancelled late quality = 0x20) ∧
    (err = 0 → cancelled = false → late = false → quality % 4 ≠ 0 → finalStatus err cancelled late quality = 0x01) ∧
    (err = 0 → cancelled = false → late = false → quality % 4 = 0 → finalStatus err cancelled late quality = 0x00)) ∧
  (∀ first later : Nat, first ≠ 0 → firstError first later = first) ∧ (∀ st : Nat, firstError 0 st = st) ∧
  ∀ (j : Job) (now : Nat), j.endStatus now =
    finalStatus j.status (j.ending == some .cancel) (j.ending == some .abort || isLate j.deadlineUs (now - j.startTs))
      (j.quality' now)

/-- The shared end of every job: with the queue pair enabled, a record waits that carries the JOB_ID, the opcode,
START_TS, END_TS, the status of R36 and RESULT, and the job's result is final; a job that no record will be written
for is gone from the unfinished jobs at once, and its sync counters are free. -/
def Obligations.JobRecordAtItsEnd : Prop :=
  (∀ (j : Job) (result : Nat) (s : State),
     s.recorded j →
     (s.finishJob j result).recordWaits j (j.endStatus s.now) result ∧
     ∃ k, (s.finishJob j result).job? j.uid = some k ∧ k.finished = true) ∧
  (∀ (j : Job) (result first blocks : Nat) (s : State),
     (j.silent = true ∨ (s.qp j.qp).enabled = false ∨ j.ending = some .silent) →
     j.ctrs = some (first, blocks) →
     (s.finishJob j result).job? j.uid = none ∧ (s.finishJob j result).qps = s.qps ∧
     ∀ c, first ≤ c → c < first + 16 * blocks → (s.finishJob j result).counter c = 0)

/-- SUSPEND of a RUNNING job makes it SUSPENDING; of a QUEUED job, SUSPENDED at once with a SUSPENDED record; RESUME
of a SUSPENDED job makes it QUEUED (with STAGING_USED where its parked groups come back into staging units, R142);
CANCEL of a job that is not CANCELLING makes it CANCELLING. In each case the control job's own record waits with
RESULT 0 APPLIED. A control job whose outcome is NOT_FOUND, NO_EFFECT or NOT_SUPPORTED changes no other job and
completes with that outcome. -/
def Obligations.ControlJobsAct : Prop :=
  (∀ (uid : Nat) (j k : Job) (s : State),
     s.starts uid 0x10 j →
     s.recorded j →
     wordAt j.words 3 ≠ j.jobId →
     s.target? j.part (wordAt j.words 3) = some k →
     s.job? k.uid = some k →
     k.uid ≠ uid →
     k.finished = false →
     suspendable k.opcode = true →
     k.state = .running →
     answers (.suspend uid) s fun t => t.recordWaits j (j.endStatus s.now) 0 ∧
       ∃ k', t.job? k.uid = some k' ∧ k' = { k with state := .suspending }) ∧
  (∀ (uid : Nat) (j k : Job) (s : State),
     s.starts uid 0x10 j →
     s.recorded j →
     wordAt j.words 3 ≠ j.jobId →
     s.target? j.part (wordAt j.words 3) = some k →
     s.job? k.uid = some k →
     k.uid ≠ uid →
     k.finished = false →
     suspendable k.opcode = true →
     k.state = .queued →
     k.silent = false →
     (s.qp k.qp).enabled = true →
     answers (.suspend uid) s fun t => t.recordWaits j (j.endStatus s.now) 0 ∧
       (∃ c ∈ (t.qp k.qp).waiting, c.uid = k.uid ∧ c.status = 0x11 ∧ c.final = false) ∧
       ∃ k', t.job? k.uid = some k' ∧ k' = { k with state := .suspended }) ∧
  (∀ (uid : Nat) (j k : Job) (s : State),
     s.starts uid 0x11 j →
     s.recorded j →
     wordAt j.words 3 ≠ j.jobId →
     s.target? j.part (wordAt j.words 3) = some k →
     s.job? k.uid = some k →
     k.uid ≠ uid →
     k.finished = false →
     suspendable k.opcode = true →
     k.state = .suspended →
     answers (.resume uid) s fun t => t.recordWaits j (j.endStatus s.now) 0 ∧
       ∃ q, t.job? k.uid = some { k with state := .queued, quality := q } ∧
         (q = k.quality ∨ q = k.quality ||| qStaging)) ∧
  (∀ (uid : Nat) (j k : Job) (s : State),
     s.starts uid 0x12 j →
     s.recorded j →
     wordAt j.words 3 ≠ j.jobId →
     s.target? j.part (wordAt j.words 3) = some k →
     s.job? k.uid = some k →
     k.uid ≠ uid →
     k.finished = false →
     uncancellable k.opcode = false →
     k.state ≠ .cancelling →
     answers (.cancel uid) s fun t => t.recordWaits j (j.endStatus s.now) 0 ∧
       ∃ k', t.job? k.uid = some k' ∧ k' = { k with state := .cancelling, ending := some .cancel }) ∧
  (∀ (uid op : Nat) (c : Instr) (j : Job) (s : State),
     (c, op) ∈ [(Instr.suspend uid, 0x10), (.resume uid, 0x11), (.cancel uid, 0x12)] →
     s.starts uid op j →
     s.recorded j →
     0 < s.outcome j →
     (wordAt j.words 3 = j.jobId ∨ ∀ k, s.target? j.part (wordAt j.words 3) = some k → k.uid ≠ uid) →
     answers c s fun t => t.recordWaits j (j.endStatus s.now) (s.outcome j) ∧
       t.jobs.list.filter (fun k => k.uid != uid) = s.jobs.list.filter fun k => k.uid != uid)

/-- KIND 0 returns in RESULT the code of R39 for the target's state, 0 NONE for a JOB_ID that no unfinished job has;
KIND 1 returns the number of unfinished jobs of the partition, the QUERY included. -/
def Obligations.QueryReturnsStateOrCount : Prop :=
  (∀ (uid : Nat) (j k : Job) (s : State),
     s.starts uid 0x13 j →
     s.recorded j →
     wordAt j.words 3 = 0 →
     s.target? j.part (wordAt j.words 4) = some k →
     k.uid ≠ uid →
     answers (.query uid) s fun t => t.recordWaits j (j.endStatus s.now) (jobStateCode k.state)) ∧
  (∀ (uid : Nat) (j : Job) (s : State),
     s.starts uid 0x13 j →
     s.recorded j →
     wordAt j.words 3 = 0 →
     s.target? j.part (wordAt j.words 4) = none →
     answers (.query uid) s fun t => t.recordWaits j (j.endStatus s.now) 0) ∧
  (∀ (uid : Nat) (j : Job) (s : State),
     s.starts uid 0x13 j →
     s.recorded j →
     wordAt j.words 3 = 1 →
     answers (.query uid) s fun t =>
       t.recordWaits j (j.endStatus s.now) (s.jobs.list.filter fun k => k.part == j.part).length)

/-- SAFE_POINT: a SUSPENDING job with no work in hand becomes SUSPENDED, its SUSPENDED record waits, and no context of
it is in use but a FAULTED one. DEADLINE_TICK: the first tick past the deadline raises one DEADLINE occurrence; under
ABORT the job becomes CANCELLING, under COMPLETE it runs on. WITHDRAWAL_END: a CANCELLING job with nothing left to end
becomes final with END_TS at that tick and the status of R36, and an entry of a serving job that made no sequence
gives its sequence back the length from before the job. -/
def Obligations.JobsSuspendLateAndWithdrawn : Prop :=
  (∀ (uid : Nat) (j : Job) (s : State),
     s.job? uid = some j →
     s.recorded j →
     j.state = .suspending →
     s.busyAt j = false →
     answers (.safePoint uid) s fun t =>
       (∃ k, t.job? uid = some k ∧ k.state = .suspended ∧ k.finished = false) ∧
       (∃ c ∈ (t.qp j.qp).waiting, c.uid = uid ∧ c.jobId = j.jobId ∧ c.status = 0x11 ∧ c.endTs = s.now ∧ c.final = false) ∧
       ∀ e ∈ t.engines, ∀ x ∈ e.ctxs, x.uid = uid → x.state = .faulted) ∧
  (∀ (uid : Nat) (j : Job) (s : State),
     s.job? uid = some j →
     j.finished = false →
     j.lateRaised = false →
     j.deadlineUs ≠ 0 →
     j.startTs + j.deadlineUs * 100 < s.now →
     answers (.deadlineTick uid) s fun t => t.reported (if uncancellable j.opcode then 0x5B else 0x58 + j.takenBy) 8 ∧
       ∃ k, t.job? uid = some k ∧ k.lateRaised = true ∧ k.finished = false ∧
         (j.policy = 2 → j.state ≠ .cancelling → s.cancelTaken j = false → k.state = .cancelling ∧ k.ending = some .abort) ∧
         (j.policy ≠ 2 → k = { j with lateRaised := true })) ∧
  (∀ (uid : Nat) (j : Job) (s : State),
     s.job? uid = some j →
     (j.deadlineUs = 0 ∨ s.now ≤ j.startTs + j.deadlineUs * 100) →
     exec (.deadlineTick uid) s = .next s) ∧
  (∀ (uid : Nat) (j : Job) (s : State),
     s.job? uid = some j →
     s.recorded j →
     j.state = .cancelling →
     s.stillOut uid = false →
     answers (.withdrawalEnd uid) s fun t => t.recordWaits j (j.endStatus s.now) j.progress) ∧
  (∀ (uid chunk step : Nat) (wait : Option Nat) (ents : List Ent) (e : Ent) (j : Job) (s : State),
     s.job? uid = some j →
     j.finished = false →
     j.state = .cancelling →
     s.stillOut uid = false →
     j.ext = .serve ents chunk step wait →
     e ∈ ents →
     e.created = false →
     (∀ x ∈ ents, x.seqIdx = e.seqIdx → x = e) →
     answers (.withdrawalEnd uid) s fun t => ∀ q ∈ t.seqs, q.idx = e.seqIdx → q.len = e.oldLen)

/-- LOAD_MODEL: once every byte of the image is read and hashed, the slot is loaded, the load digest stands at
OUT_ADDR and in the slot, and the record's RESULT is the number of granules that the slot takes; a slot number in use
ends the job INVALID_DESCRIPTOR, or ACCESS_DENIED if another partition has it. Each further 16 MiB of the image
advances the position. UNLOAD_MODEL: with no job left on the slot, the slot and its sequences are gone and the record
waits. -/
def Obligations.ModelLoadedAndUnloaded : Prop :=
  (∀ (uid : Nat) (bad : Option Nat) (hash : List Nat) (j : Job) (t : Slot) (s : State),
     s.job? uid = some j →
     s.recorded j →
     j.opcode = 0x01 →
     j.state = .running →
     j.ext = .load t.manifest.imageBytes hash →
     s.cpRunning j.cp = true →
     s.cpRunning 2 = true →
     s.slots.find? (fun u => u.idx == dSlot j.words && u.part == j.part) = some t →
     (s.sec.crypto.any fun c => c.uid == some uid) = false →
     (dOut j.words < hostBase ∨ s.hostOk j.part = true) →
     (t.experts = [] ∨ s.sourceUp j.part t.source = true ∧ s.sourceHeld t.source 0 t.manifest.imageBytes = false) →
     answers (.loadModel uid bad) s fun u =>
       u.recordWaits j (j.endStatus s.now) t.granules.length ∧
       u.bytesAt (dOut j.words) (shaFinish hash [] t.manifest.imageBytes).length = shaFinish hash [] t.manifest.imageBytes ∧
       ∃ v ∈ u.slots, v.idx = t.idx ∧ v.loaded = true ∧ v.digest = shaFinish hash [] t.manifest.imageBytes) ∧
  (∀ (uid pos : Nat) (hash : List Nat) (j : Job) (t : Slot) (s : State),
     s.job? uid = some j →
     j.opcode = 0x01 →
     j.state = .running →
     j.finished = false →
     j.ext = .load pos hash →
     s.cpRunning j.cp = true →
     s.cpRunning 2 = true →
     s.slots.find? (fun u => u.idx == dSlot j.words && u.part == j.part) = some t →
     pos < t.manifest.imageBytes →
     s.sourceUp j.part t.source = true →
     s.sourceTorn t.source pos (min 0x1000000 (t.manifest.imageBytes - pos)) = false →
     s.sourceHeld t.source pos (min 0x1000000 (t.manifest.imageBytes - pos)) = false →
     answers (.loadModel uid none) s fun u => ∃ k hash', u.job? uid = some k ∧
       k.ext = .load (min t.manifest.imageBytes (pos + 0x1000000)) hash' ∧ k.finished = false) ∧
  (∀ (uid : Nat) (bad : Option Nat) (j : Job) (t : Slot) (s : State),
     s.starts uid 0x01 j →
     s.recorded j →
     j.ext = .none →
     s.slots.find? (fun u => u.idx == dSlot j.words) = some t →
     answers (.loadModel uid bad) s fun u =>
       u.recordWaits j (firstError j.status (if t.part = j.part then 0x30 else 0x31)) noResult) ∧
  (∀ (uid : Nat) (j : Job) (t : Slot) (s : State),
     s.starts uid 0x02 j →
     s.recorded j →
     s.slots.find? (fun u => u.idx == dSlot j.words) = some t →
     t.part = j.part →
     t.loaded = true →
     s.slotJobs j = [] →
     answers (.unloadModel uid) s fun u => u.recordWaits j (j.endStatus s.now) noResult ∧
       (∀ v ∈ u.slots, v.idx ≠ t.idx) ∧ ∀ q ∈ u.seqs, ¬ (q.slot = t.idx ∧ q.part = t.part))

/-- PROMOTION: a running job that needs an expert whose home is its backing waits on a move of it, with tick D of R260
as its deadline. MOVE_LANDED: the move is gone, and the expert it carried is in T2. FETCH_DEADLINE: at tick D of a
fetch that has not landed, a job that may take the cheaper path takes it for all its sequences at that layer, reads
the shadow or does without the page, sets SHADOW_USED or PAGE_DROPPED in its QUALITY and waits no more; any other job
waits on and the late fetch is counted. Nothing changes before a deadline. -/
def Obligations.ExpertsAndPagesMoved : Prop :=
  (∀ (uid layer number need planned unissued : Nat) (j : Job) (t : Slot) (x : Expert) (s : State),
     s.job? uid = some j →
     (servingOp j.opcode || j.opcode == 0x0C) = true →
     j.state = .running →
     j.finished = false →
     s.cpRunning 2 = true →
     s.replay.state ≠ .running →
     s.namedSlot j.part (dSlot j.words) = .inl t →
     t.experts.find? (fun x => x.layer == layer && x.number == number) = some x →
     x.cached = false →
     s.moves = [] →
     s.now ≤ fetchTick (s.part j.part).ratePct need planned unissued →
     answers (.promotion uid layer number need planned unissued) s fun u => ∃ m, u.moves = [m] ∧
       m.part = j.part ∧ m.what = .expert t.idx layer number ∧ ∃ w ∈ m.waiters, w.uid = uid ∧
         w.deadline = some (fetchTick (s.part j.part).ratePct need planned unissued)) ∧
  (∀ (mv slot layer number : Nat) (m : Move) (t : Slot) (x : Expert) (s : State),
     s.moves.find? (fun m => m.id == mv && m.started) = some m →
     m.what = .expert slot layer number →
     s.slot? slot = some t →
     s.sourceUp m.part t.source = true →
     t.experts.find? (fun x => x.layer == layer && x.number == number) = some x →
     s.moveTorn m = false →
     s.moveHeld m = false →
     s.ownOut mv = false →
     s.cpRunning 2 = true →
     (∀ k ∈ s.moves, k.started = true) →
     answers (.moveLanded mv) s fun u => (∀ k ∈ u.moves, k.id ≠ mv) ∧
       ∃ v, u.slot? slot = some v ∧ ∃ y ∈ v.experts, y.layer = layer ∧ y.number = number ∧ y.cached = true ∧ y.moving = false ∧
         y.lastUse = s.now) ∧
  (∀ (mv uid : Nat) (m : Move) (w : Waiter) (j : Job) (s : State),
     s.moves.find? (fun m => m.id == mv) = some m →
     (m.waiters.filter fun w => w.uid == uid && w.path != .cheap).find? (fun w => w.path == .undecided && w.deadline.any fun d => decide (d ≤ s.now)) = some w →
     w.exact = false →
     s.job? uid = some j →
     s.cheapOk j = true →
     answers (.fetchDeadline mv uid false) s fun u =>
       u.job? uid = some (match m.what with
         | .expert _ layer number => { j with shadowed := (layer, number) :: j.shadowed, quality := j.quality ||| 1 }
         | .page _ => { j with quality := j.quality ||| 2 }) ∧
       ∀ n ∈ u.moves, n.id = mv → ∀ v ∈ n.waiters, w.with v = true → v.path = .cheap) ∧
  (∀ (mv uid : Nat) (m : Move) (w : Waiter) (j : Job) (s : State),
     s.moves.find? (fun m => m.id == mv) = some m →
     (m.waiters.filter fun w => w.uid == uid && w.path != .cheap).find? (fun w => w.path == .undecided && w.deadline.any fun d => decide (d ≤ s.now)) = some w →
     w.exact = false →
     s.job? uid = some j →
     s.cheapOk j = false →
     s.shaped = true →
     j.part < 8 →
     answers (.fetchDeadline mv uid false) s fun u => u.jobs = s.jobs ∧
       (u.part j.part).ctr.lateFetches = min (2 ^ 32 - 1) ((s.part j.part).ctr.lateFetches + 1) ∧
       ∃ n ∈ u.moves, n.id = mv ∧ ∃ v ∈ n.waiters, v = { w with path := .late }) ∧
  (∀ (mv uid : Nat) (m : Move) (s : State),
     s.moves.find? (fun m => m.id == mv) = some m →
     (∀ w ∈ m.waiters, w.uid = uid → ∀ d ∈ w.deadline, s.now < d) →
     exec (.fetchDeadline mv uid false) s = .next s)

/-- A first entry that fails its check ends the job INVALID_DESCRIPTOR before any effect, with the entry's number in
RESULT. Applied, FLIP changes the pool that owns the sequence, TRUNCATE gives it the new length, FORK makes a second
sequence of the same length and pages, with chunks for its history, and writes its handle, RELEASE makes the handle
free, and LIST writes the page handles. SPILL and FETCH complete when they can be applied whole, and end the job
RESOURCE_EXHAUSTED when no room or frame is left. After the last entry the record waits with RESULT = COUNT. -/
def Obligations.KvMoveEntriesApplied : Prop :=
  (∀ (uid : Nat) (bad : Bool) (j : Job) (i : Nat) (s : State),
     s.starts uid 0x06 j →
     s.recorded j →
     (s.started uid 0x06).blocked j (dArg j.words) (16 * dCount j.words) = none →
     (s.started uid 0x06).kmBad j.part 0 0 ((List.range (dCount j.words)).map ((s.started uid 0x06).kmEntry j)) = some i →
     answers (.kvMove uid bad) s fun t => t.recordWaits j (firstError j.status 0x30) i ∧ t.mems = (s.started uid 0x06).mems) ∧
  (∀ (uid done : Nat) (bad : Bool) (j : Job) (q : Seq) (s : State),
     s.lastMove uid done j q 0 →
     answers (.kvMove uid bad) s fun t => t.recordWaits j (j.endStatus s.now) (done + 1) ∧
       t.seqs = s.seqs.map fun x => if x.idx == q.idx then { x with prefillPool := !x.prefillPool } else x) ∧
  (∀ (uid done : Nat) (bad : Bool) (j : Job) (q : Seq) (s : State),
     s.lastMove uid done j q 3 →
     s.anyBlocked j (s.kmReads j done) = none →
     kmLength (s.kmEntry j done) ≤ q.len →
     (s.truncate uid q (kmLength (s.kmEntry j done))).isDone = true →
     answers (.kvMove uid bad) s fun t => t.recordWaits j (j.endStatus s.now) (done + 1) ∧
       ∀ x ∈ t.seqs, x.idx = q.idx → x.len = kmLength (s.kmEntry j done)) ∧
  (∀ (uid done : Nat) (bad : Bool) (j : Job) (q : Seq) (s : State),
     s.lastMove uid done j q 4 →
     s.blockedOut j (dOut j.words + 4 * done) 4 = none →
     s.anyBlocked j (s.kmReads j done) = none →
     (s.forkSeq j done q).isDone = true →
     answers (.kvMove uid bad) s fun t => t.recordWaits j (j.endStatus s.now) (done + 1) ∧ ∃ x ∈ t.seqs, (∀ y ∈ s.seqs, y.idx ≠ x.idx) ∧
       x.part = q.part ∧ x.slot = q.slot ∧ x.len = q.len ∧ x.chunks.length = ceilDiv q.len 16384 ∧ x.dir = q.dir ∧
       t.readN (dOut j.words + 4 * done) 4 = x.handle % 2 ^ 32) ∧
  (∀ (uid done : Nat) (bad : Bool) (j : Job) (q : Seq) (s : State),
     s.lastMove uid done j q 5 →
     answers (.kvMove uid bad) s fun t => t.recordWaits j (j.endStatus s.now) (done + 1) ∧ ∀ x ∈ t.seqs, x.idx ≠ q.idx) ∧
  (∀ (uid done : Nat) (bad : Bool) (j : Job) (q : Seq) (s : State),
     s.lastMove uid done j q 6 →
     s.blockedOut j (kmDest (s.kmEntry j done)) (4 * (s.handleList q).length) = none →
     answers (.kvMove uid bad) s fun t => t.recordWaits j (j.endStatus s.now) (done + 1) ∧ t.seqs = s.seqs ∧
       t.wordsAt (kmDest (s.kmEntry j done)) (s.handleList q).length = (s.handleList q).map (· % 2 ^ 32)) ∧
  (∀ (uid done : Nat) (bad : Bool) (j : Job) (q : Seq) (s : State),
     (s.lastMove uid done j q 1 ∨ s.lastMove uid done j q 2) →
     s.anyBlocked j (s.kmReads j done) = none →
     (s.kmApply j done bad).isDone = true →
     answers (.kvMove uid bad) s fun t => t.recordWaits j (j.endStatus s.now) (done + 1)) ∧
  (∀ (uid done : Nat) (bad : Bool) (j : Job) (q : Seq) (s : State),
     (s.lastMove uid done j q 1 ∨ s.lastMove uid done j q 2) →
     s.anyBlocked j (s.kmReads j done) = none →
     s.kmApply j done bad = .fail 0x40 →
     answers (.kvMove uid bad) s fun t => t.recordWaits j (firstError j.status 0x40) done)

/-- PARK_GROUP: the least recently appended group that may be parked moves into a tail frame and its units are free,
counted as a park. GROUP_FLUSH: the full group that was complete first becomes a page of its sequence's directory, is
marked flushed at the present epoch and counted. UNITS_FREED: exactly the flushed groups whose appending jobs are
final and whose flush the safe epoch has passed are gone, and their units are free. -/
def Obligations.SumpGroupsKept : Prop :=
  (∀ (p a : Nat) (g : Group) (s : State),
     s.shaped = true →
     p < 8 →
     s.wantsPark p = true →
     s.cpRunning 2 = true →
     minBy Group.last ((s.kv p).groups.filter fun g => s.parkable p g) = some g →
     s.findFrame p (128 * g.dim + 256) = some a →
     answers (.parkGroup p) s fun t => { g with sump := 0, stag := 0, tail := some a } ∈ (t.kv p).groups ∧
       (a, 128 * g.dim + 256) ∈ (t.kv p).frames ∧
       (t.part p).ctr.sumpUsed = (s.part p).ctr.sumpUsed - g.sump ∧ (t.part p).ctr.stagUsed = (s.part p).ctr.stagUsed - g.stag ∧
       (t.part p).ctr.parks = min (2 ^ 32 - 1) ((s.part p).ctr.parks + 1)) ∧
  (∀ (p : Nat) (g : Group) (q : Seq) (s : State),
     s.shaped = true →
     p < 8 →
     minBy Group.order ((s.kv p).groups.filter fun g => g.full && g.tail.isNone) = some g →
     s.seq? g.seq = some q →
     (s.flushGroup p g).isSome = true →
     answers (.groupFlush p) s fun t =>
       (∃ i, t.seq? g.seq = some { q with dir := q.dir ++ [(g.layer, g.head, g.page, i)] }) ∧
       (∃ old, { g with flushed := some (s.kv p).epoch, l1Was := some old } ∈ (t.kv p).groups) ∧
       (t.part p).ctr.flushes = min (2 ^ 32 - 1) ((s.part p).ctr.flushes + 1)) ∧
  (∀ (p : Nat) (s : State),
     answers (.unitsFreed p) s fun t =>
       (t.kv p).groups = (s.kv p).groups.filter (fun g => !s.flushedDone p g) ∧
       (t.part p).ctr.sumpUsed =
         (s.part p).ctr.sumpUsed - (((s.kv p).groups.filter (s.flushedDone p)).map Group.sump).sum ∧
       (t.part p).ctr.stagUsed =
         (s.part p).ctr.stagUsed - (((s.kv p).groups.filter (s.flushedDone p)).map Group.stag).sum)

/-- IDLE_EPOCH_TICK: an existing partition with no serving job under way advances its epoch by one once 50
microseconds have passed since the last advance, and not before. PAGE_RECLAIM: the first page in RECLAIM whose EPOCH
the safe epoch exceeds becomes FREE. -/
def Obligations.EpochsAndReclaim : Prop :=
  (∀ (p : Nat) (s : State),
     (s.part p).valid = true →
     s.idlePart p = true →
     (s.kv p).lastAdvance + 5000 ≤ s.now →
     exec (.idleEpochTick p) s = .next (s.modKv p fun k => { k with epoch := k.epoch + 1, lastAdvance := s.now })) ∧
  (∀ (p : Nat) (s : State),
     (s.idlePart p = false ∨ s.now < (s.kv p).lastAdvance + 5000) →
     exec (.idleEpochTick p) s = .next s) ∧
  (∀ (p i : Nat) (s : State),
     (List.range (s.kv p).pages).find? (fun i => s.reclaimable p i) = some i →
     (∀ m ∈ s.moves, m.started = true) →
     answers (.pageReclaim p) s fun t => (t.pte p i).state = 0)

/-- PREFILL: once every entry has passed its checks and the sequences fit, the job runs at chunk 0 and its first step
with one entry each, and every entry's sequence is owned by the prefill pool. A PREFILL, DECODE_STEP or VERIFY_TREE
whose entry 0 breaks a check of R190 completes INVALID_DESCRIPTOR with RESULT 0, and the sequences are as they were.
-/
def Obligations.PrefillStartsWithItsSequences : Prop :=
  (∀ (uid : Nat) (j : Job) (t : Slot) (ents : List Ent) (s : State),
     s.starts uid 0x03 j →
     j.ext = .none →
     (s.started uid 0x03).blocked j (dArg j.words) (64 * dCount j.words) = none →
     (s.started uid 0x03).blockedOut j (dOut j.words) (32 * dCount j.words) = none →
     (s.started uid 0x03).namedSlot j.part (dSlot j.words) = .inl t →
     (s.started uid 0x03).checkEntries j t
       ((List.range (dCount j.words)).map fun i => (s.started uid 0x03).wordsAt (dArg j.words + 64 * i) 16) = .inl ents →
     (s.started uid 0x03).seqs.length + (ents.filter Ent.created).length ≤ 1024 →
     (∀ e ∈ ents, e.created = true ∨ (s.started uid 0x03).poisonedSeq j.part e.seqIdx = false) →
     answers (.prefill uid) s fun u => ∃ k es, u.job? uid = some k ∧ k.state = .running ∧ k.ext = .serve es 0 0 none ∧
       es.length = ents.length ∧ ∀ e ∈ es, ∃ q ∈ u.seqs, q.idx = e.seqIdx ∧ q.prefillPool = true) ∧
  (∀ (uid op : Nat) (c : Instr) (j : Job) (t : Slot) (s : State),
     (c, op) ∈ [(Instr.prefill uid, 0x03), (.decodeStep uid, 0x04), (.verifyTree uid, 0x05)] →
     s.starts uid op j →
     s.recorded j →
     j.ext = .none →
     0 < dCount j.words →
     (s.started uid op).blocked j (dArg j.words) (64 * dCount j.words) = none →
     (s.started uid op).blockedOut j (dOut j.words) (32 * dCount j.words) = none →
     (s.started uid op).namedSlot j.part (dSlot j.words) = .inl t →
     (s.started uid op).checkEntry j t 0 ((s.started uid op).wordsAt (dArg j.words) 16) [] = .bad →
     answers c s fun u => u.recordWaits j (firstError j.status 0x30) 0 ∧ u.seqs = s.seqs)

/-- A PREFILL chunk, DECODE_STEP or VERIFY_TREE whose work is in goes on with the next entry of the layer, in order of
descending length bucket. The first half of a layer appends the key and the value of every KV head for each of the
entry's rows, formed from the row by PACK; where the job goes on, each of them stands in an open group. The second
half reads the variant's rows, the lists and their pages, replaces each row by what the layer makes of it by attention
over the lists, and goes on to the next step; a word of them that cannot be read ends the job with DATA_UNCORRECTED.
How the image computes is the model's choice (log entry 12), as is the split into commands. -/
def Obligations.ServingPassGoesLayerByLayer : Prop :=
  (∀ (uid op : Nat) (c : Instr) (x : Place) (e : Ent) (j : Job) (t : Slot) (s : State),
     (c, op) ∈ [(Instr.prefillChunk uid, 0x03), (.decodeStep uid, 0x04), (.verifyTree uid, 0x05)] →
     s.serves uid op j t x.ents x.chunk x.step x.since →
     (x.ents.all fun e => !e.ready) = true →
     s.workOut uid = false →
     x.entry op = some e →
     e.rowIds op x.chunk ≠ [] →
     x.step % 2 = 0 →
     s.shaped = true →
     j.part < 8 →
     let e := if x.layer = 0 then { e with rows := (e.rowIds op x.chunk).map fun r => embedRow t r.token } else e
     answers c s fun u => ∀ i, u.job? uid = some i → i.ext = .serve (putEnt x.ents e) x.chunk (x.step + 1) none →
       ∀ y ∈ e.pairs t (s.adaptOf j t e) op x.chunk x.layer, ∃ g ∈ (u.kv j.part).groups,
         g.at e.seqIdx x.layer y.head (if y.spec then 0 else y.pos / 64) y.spec = true ∧
         halfOf g.toks (if y.spec then y.pos else y.pos % 64) false = some y.key ∧
         halfOf g.toks (if y.spec then y.pos else y.pos % 64) true = some y.val) ∧
  (∀ (uid op : Nat) (c : Instr) (x : Place) (e : Ent) (j : Job) (t : Slot) (s : State),
     (c, op) ∈ [(Instr.prefillChunk uid, 0x03), (.decodeStep uid, 0x04), (.verifyTree uid, 0x05)] →
     s.serves uid op j t x.ents x.chunk x.step x.since →
     (x.ents.all fun e => !e.ready) = true →
     s.workOut uid = false →
     x.entry op = some e →
     e.rowIds op x.chunk ≠ [] →
     x.step % 2 = 1 →
     s.anyBlocked j (s.layerReads j t x.layer e) = none →
     x.step + 1 < 2 * t.manifest.layers * x.ents.length →
     answers c s fun u => u.seqs = s.seqs ∧ ∃ i, u.job? uid = some i ∧ i.state = .running ∧ i.ext = .serve (putEnt x.ents { e with
         rows := ((e.rowIds op x.chunk).zip e.rows).map fun r =>
             layerEnd t (s.adaptOf j t e) x.layer ((j.shadowed.filter fun z => z.1 == x.layer).map Prod.snd) r.2
               (s.rowAttn j t (s.adaptOf j t e) e x.layer r.1 r.2) })
       x.chunk (x.step + 1) none) ∧
  (∀ (uid op : Nat) (c : Instr) (x : Place) (e : Ent) (j : Job) (t : Slot) (s : State),
     (c, op) ∈ [(Instr.prefillChunk uid, 0x03), (.decodeStep uid, 0x04), (.verifyTree uid, 0x05)] →
     s.serves uid op j t x.ents x.chunk x.step x.since →
     (x.ents.all fun e => !e.ready) = true →
     s.workOut uid = false →
     s.recorded j →
     x.entry op = some e →
     e.rowIds op x.chunk ≠ [] →
     x.step % 2 = 1 →
     (s.layerReads j t x.layer e).all (fun r => r.2 == 0 || (s.inDramHost j.part r.1 r.2 && (decide (r.1 < hostBase) || s.hostOk j.part))) = true →
     (∃ r ∈ s.layerReads j t x.layer e, r.2 ≠ 0 ∧ s.badWords r.1 r.2 ≠ []) →
     answers c s fun u => ∃ result, u.recordWaits j (firstError j.status stData) result)

/-- After the last entry of the last layer, a PREFILL with chunks left goes on at the first step of its next chunk;
with none left each sequence's length becomes its old length plus the prompt's tokens. A DECODE_STEP or VERIFY_TREE of
one entry commits INPUT at position L: the sequence has length L + 1 and its history holds INPUT there. The entries
are then ready for the sampler. -/
def Obligations.LastServingStepCommits : Prop :=
  (∀ (uid : Nat) (x : Place) (e : Ent) (j : Job) (t : Slot) (s : State),
     s.serves uid 0x03 j t x.ents x.chunk x.step x.since →
     (x.ents.all fun e => !e.ready) = true →
     s.workOut uid = false →
     x.entry 0x03 = some e →
     e.rowIds 0x03 x.chunk ≠ [] →
     x.step % 2 = 1 →
     s.anyBlocked j (s.layerReads j t x.layer e) = none →
     x.step + 1 = 2 * t.manifest.layers * x.ents.length →
     x.chunk + 1 < chunksOfJob x.ents →
     answers (.prefillChunk uid) s fun u => u.seqs = s.seqs ∧ ∃ i es, u.job? uid = some i ∧ i.ext = .serve es (x.chunk + 1) 0 none) ∧
  (∀ (uid : Nat) (x : Place) (e : Ent) (j : Job) (t : Slot) (s : State),
     s.serves uid 0x03 j t x.ents x.chunk x.step x.since →
     (x.ents.all fun e => !e.ready) = true →
     s.workOut uid = false →
     x.entry 0x03 = some e →
     e.rowIds 0x03 x.chunk ≠ [] →
     x.step % 2 = 1 →
     s.anyBlocked j (s.layerReads j t x.layer e) = none →
     x.step + 1 = 2 * t.manifest.layers * x.ents.length →
     x.chunk + 1 = chunksOfJob x.ents →
     (x.ents.map Ent.seqIdx).Nodup →
     answers (.prefillChunk uid) s fun u =>
       (∀ d ∈ x.ents, ∀ q ∈ u.seqs, q.idx = d.seqIdx → q.len = d.oldLen + d.ntok) ∧
       ∃ i es, u.job? uid = some i ∧ i.ext = .serve es (x.chunk + 1) 0 none ∧ ∀ d ∈ es, d.ready = true) ∧
  (∀ (uid op step : Nat) (c : Instr) (since : Option Nat) (e : Ent) (j : Job) (t : Slot) (s : State),
     (c, op) ∈ [(Instr.decodeStep uid, 0x04), (.verifyTree uid, 0x05)] →
     s.serves uid op j t [e] 0 step since →
     e.ready = false →
     s.workOut uid = false →
     step + 1 = 2 * t.manifest.layers →
     s.anyBlocked j (s.layerReads j t (step / 2) e) = none →
     ((s.freeLists j e.seqIdx (step / 2)).putTokens e.seqIdx e.oldLen [e.input]).isSome = true →
     answers c s fun u =>
       (∀ q, u.seq? e.seqIdx = some q → q.len = e.oldLen + 1 ∧ u.readN (q.tokenAddr e.oldLen) 4 = e.input % 2 ^ 32) ∧
       ∃ i d, u.job? uid = some i ∧ i.ext = .serve [d] 1 0 none ∧ d.ready = true)

/-- For a job of one entry: PREFILL or DECODE_STEP with SAMPLE draws by R207 with the settings block, the history, the
seed, the handle and the position, writes TOKEN, TOKEN_VALID and ALL_MASKED in word 1 of the sequence result and
repeats TOKEN and TOKEN_VALID in RESULT. Without SAMPLE no token is drawn, and with LOGITS the row of FP32 logits is
written. In VERIFY_TREE a draw that a child of the present node carries moves the walk to that child, and nothing is
final yet; else, where frames are free for the tokens, the walk's drafts become the sequence's next positions. -/
def Obligations.SamplerDrawsAndWritesResults : Prop :=
  (∀ (uid op k i : Nat) (since : Option Nat) (j : Job) (t : Slot) (e : Ent) (s : State),
     s.drawsFor uid op j t e k i since →
     s.recorded j →
     op ≠ 0x05 →
     e.sample = true →
     s.samplerBlocked j t.manifest.vocab e.samplerAddr = none →
     e.logits = false →
     s.blockedOut j (dOut j.words + 32 * e.index) 32 = none →
     answers (.samplerDraw uid) s fun u =>
       let d := s.drawFor e (Ent.drawPos op e) (logitsOf t op e)
       u.recordWaits j (j.endStatus s.now) (d.token.getD 0 + 2 ^ 18 * b2n d.token.isSome) ∧
       u.readN (dOut j.words + 32 * e.index + 4) 4 =
         (d.token.getD 0 + 2 ^ 18 * b2n d.token.isSome + 2 ^ 19 * b2n d.token.isNone + 2 ^ 20 * b2n (e.nanLogits || d.nan)) % 2 ^ 32) ∧
  (∀ (uid op k i : Nat) (since : Option Nat) (j : Job) (t : Slot) (e : Ent) (s : State),
     s.drawsFor uid op j t e k i since →
     s.recorded j →
     op ≠ 0x05 →
     e.sample = false →
     e.logits = true →
     e.path = [] →
     s.blockedOut j e.logitsAddr (4 * t.manifest.vocab) = none →
     s.blockedOut j (dOut j.words + 32 * e.index) 32 = none →
     (dOut j.words + 32 * e.index + 32 ≤ e.logitsAddr ∨ e.logitsAddr + 4 * t.manifest.vocab ≤ dOut j.words + 32 * e.index) →
     answers (.samplerDraw uid) s fun u =>
       u.recordWaits j (j.endStatus s.now) (e.token + 2 ^ 18 * b2n e.tokenValid) ∧
       u.bytesAt e.logitsAddr (4 * t.manifest.vocab) = f32Bytes (logitsOf t op e)) ∧
  (∀ (uid k i : Nat) (since : Option Nat) (j : Job) (t : Slot) (e : Ent) (s : State),
     s.drawsFor uid 0x05 j t e k i since →
     s.recorded j →
     e.logits = false →
     (e.sample = true → s.samplerBlocked j t.manifest.vocab e.samplerAddr = none) →
     s.blockedOut j (dOut j.words + 32 * e.index) 32 = none →
     (s.commitPath j e).isSome = true →
     answers (.samplerDraw uid) s fun u =>
       let d := s.drawFor e (Ent.drawPos 0x05 e) (logitsOf t 0x05 e)
       match d.token.bind e.child with
       | some c => ∃ i x, u.job? uid = some i ∧ i.finished = false ∧ i.ext = .serve [x] k 0 none ∧ x.path = e.path ++ [c] ∧
           x.node = some c ∧ x.done = false
       | none => u.recordWaits j (j.endStatus s.now) (d.token.getD 0 + 2 ^ 18 * b2n d.token.isSome) ∧
           ∀ q ∈ u.seqs, q.idx = e.seqIdx → q.len = e.oldLen + 1 + e.path.length)

/-- With TEMPERATURE 0 and no other setting, over logits of which none is NaN: when some logit is above minus
infinity, the drawn token is an index whose logit no other exceeds and which every lower index's logit is below; when
every logit is minus infinity, no token is drawn. -/
def Obligations.GreedyDrawTakesTheGreatestLogit : Prop :=
  (∀ (allow : Nat → Bool) (history : List Nat) (u : F32) (x : List F32),
     (x.all fun v => !fIsNaN v) = true →
     (x.any fun v => v != f32NegInf) = true →
     ∃ i, (drawToken Settings.greedy allow history u x).token = some i ∧ i < x.length ∧
       (∀ k, k < x.length → flt (x.getD i 0) (x.getD k 0) = false) ∧ ∀ k, k < i → flt (x.getD k 0) (x.getD i 0) = true) ∧
  (∀ (allow : Nat → Bool) (history : List Nat) (u : F32) (x : List F32),
     (x.all fun v => v == f32NegInf) = true →
     (drawToken Settings.greedy allow history u x).token = none)

/-- When no earlier index job of the partition is unfinished, the last entry is applied and the record waits.
PREFIX_LOOKUP writes the number of leading blocks that match nodes of the index; with ATTACH, where frames are free
for its history and summaries, it makes a sequence of 64 tokens for each of them, owned by the prefill pool, and
writes its handle, else 0. PREFIX_INSERT writes the number of leading blocks that stand in the index and the handle.
While an earlier index job is unfinished, neither changes anything. -/
def Obligations.PrefixJobsApplied : Prop :=
  (∀ (uid done : Nat) (w : Option Nat) (j : Job) (t : Slot) (s : State),
     s.runs uid 0x09 j →
     s.recorded j →
     j.ext = .items done w →
     done + 1 = dCount j.words →
     s.indexBusy j = false →
     s.slot? (dSlot j.words) = some t →
     s.blocked j (addr48 (s.entry16 j done) 2) (4 * plNtok (s.entry16 j done)) = none →
     s.blockedOut j (dOut j.words + 8 * done) 8 = none →
     s.anyBlocked j (s.nodeReads j.part t.heads.length (plAttach (s.entry16 j done))
       (s.matchBlocks j.part t.idx (plVariant (s.entry16 j done)) none noNode
         (blocksOf (s.wordsAt (addr48 (s.entry16 j done) 2) (plNtok (s.entry16 j done)))))) = none →
     plAttach (s.entry16 j done) = false →
     answers (.prefixLookup uid) s fun u => u.recordWaits j (j.endStatus s.now) noResult ∧ u.seqs = s.seqs ∧
       u.wordsAt (dOut j.words + 8 * done) 2 = [(s.matchBlocks j.part t.idx (plVariant (s.entry16 j done)) none noNode
         (blocksOf (s.wordsAt (addr48 (s.entry16 j done) 2) (plNtok (s.entry16 j done))))).length, 0]) ∧
  (∀ (uid done : Nat) (w : Option Nat) (j : Job) (t : Slot) (i : Nat) (s : State),
     s.runs uid 0x09 j →
     s.recorded j →
     j.ext = .items done w →
     done + 1 = dCount j.words →
     s.indexBusy j = false →
     s.slot? (dSlot j.words) = some t →
     s.blocked j (addr48 (s.entry16 j done) 2) (4 * plNtok (s.entry16 j done)) = none →
     s.blockedOut j (dOut j.words + 8 * done) 8 = none →
     s.anyBlocked j (s.nodeReads j.part t.heads.length (plAttach (s.entry16 j done))
       (s.matchBlocks j.part t.idx (plVariant (s.entry16 j done)) none noNode
         (blocksOf (s.wordsAt (addr48 (s.entry16 j done) 2) (plNtok (s.entry16 j done)))))) = none →
     plAttach (s.entry16 j done) = true →
     s.freeSeqIdx = some i →
     (fun nodes => ((nodes.foldl (fun s n => s.touchNode j.part n) s).attach j t (plVariant (s.entry16 j done)) nodes).isSome)
       (s.matchBlocks j.part t.idx (plVariant (s.entry16 j done)) none noNode
         (blocksOf (s.wordsAt (addr48 (s.entry16 j done) 2) (plNtok (s.entry16 j done))))) = true →
     answers (.prefixLookup uid) s fun u => u.recordWaits j (j.endStatus s.now) noResult ∧
       let n := (s.matchBlocks j.part t.idx (plVariant (s.entry16 j done)) none noNode
         (blocksOf (s.wordsAt (addr48 (s.entry16 j done) 2) (plNtok (s.entry16 j done))))).length
       ∃ q ∈ u.seqs, q.idx = i ∧ q.part = j.part ∧ q.slot = t.idx ∧ q.variant = plVariant (s.entry16 j done) ∧
         q.prefillPool = true ∧ q.len = 64 * n ∧ u.wordsAt (dOut j.words + 8 * done) 2 = [n, q.handle % 2 ^ 32]) ∧
  (∀ (uid done : Nat) (w : Option Nat) (j : Job) (t : Slot) (q : Seq) (s : State),
     s.runs uid 0x0A j →
     s.recorded j →
     j.ext = .items done w →
     done + 1 = dCount j.words →
     s.indexBusy j = false →
     s.slot? (dSlot j.words) = some t →
     s.resident j.part (wordAt (s.entry16 j done) 0) = some q →
     s.blockedOut j (dOut j.words + 8 * done) 8 = none →
     s.anyBlocked j (q.historyReads ++ s.insertReads q t) = none →
     answers (.prefixInsert uid) s fun u => u.recordWaits j (j.endStatus s.now) noResult ∧
       u.wordsAt (dOut j.words + 8 * done) 2 =
         [(s.insertBlocks q t ((blocksOf (s.history q)).take (bits 14 0 (wordAt (s.entry16 j done) 1)))).2, wordAt (s.entry16 j done) 0]) ∧
  (∀ (uid op done : Nat) (c : Instr) (w : Option Nat) (j : Job) (s : State),
     (c, op) ∈ [(Instr.prefixLookup uid, 0x09), (.prefixInsert uid, 0x0A)] →
     s.runs uid op j →
     j.ext = .items done w →
     s.indexBusy j = true →
     exec c s = .next s)

/-- The last entry of a VARIANT_LOAD that no earlier job's sequence holds back: UNLOAD makes the table entry invalid;
LOAD, while fewer than 4,096 entries of the device are valid, copies the vectors into a frame of the partition and
makes the entry valid with SCALES, the slot and the frame's address. In both cases the record waits. -/
def Obligations.VariantsLoadedAndUnloaded : Prop :=
  (∀ (uid done : Nat) (w : Option Nat) (j : Job) (s : State),
     s.runs uid 0x0B j →
     s.recorded j →
     j.ext = .items done w →
     done + 1 = dCount j.words →
     s.variantBusy j (vlVariant (s.entry16 j done)) = false →
     vlAction (s.entry16 j done) = 1 →
     answers (.variantLoad uid) s fun u => u.recordWaits j (j.endStatus s.now) noResult ∧
       (u.variant j.part (vlVariant (s.entry16 j done))).valid = false) ∧
  (∀ (uid done n : Nat) (w : Option Nat) (j : Job) (t : Slot) (s : State),
     s.runs uid 0x0B j →
     s.recorded j →
     j.ext = .items done w →
     done + 1 = dCount j.words →
     s.variantBusy j (vlVariant (s.entry16 j done)) = false →
     vlAction (s.entry16 j done) = 0 →
     s.namedSlot j.part (dSlot j.words) = .inl t →
     n = t.layerRecs.length * t.manifest.width * 2 * (if vlScales (s.entry16 j done) then 2 else 1) →
     s.blocked j (addr48 (s.entry16 j done) 2) n = none →
     ((s.dropVariant j.part (vlVariant (s.entry16 j done))).allocFrame j.part n).isSome = true →
     answers (.variantLoad uid) s fun u => (s.dropVariant j.part (vlVariant (s.entry16 j done))).totalVariants < 4096 →
       u.recordWaits j (j.endStatus s.now) noResult ∧ ∃ a v,
       u.variant j.part (vlVariant (s.entry16 j done)) = v ∧ v.valid = true ∧ v.scales = vlScales (s.entry16 j done) ∧
       v.slot = t.idx ∧ v.data = a % 2 ^ 48 ∧
       ((a + n ≤ (s.part j.part).variants + 16 * vlVariant (s.entry16 j done) ∨
         (s.part j.part).variants + 16 * vlVariant (s.entry16 j done) + 16 ≤ a) →
         u.bytesAt a n = s.bytesAt (addr48 (s.entry16 j done) 2) n))

/-- TRAIN_STEP: a block that a check of R214 to R219 refuses ends the job with that status and RESULT; a good block
starts it at batch 0, and with INIT the header holds the image's tag, step 0, START_EPOCH and START_BATCH.
TRAIN_BATCH: the last batch of a job writes LOSS, the count of its targets and its NO_TARGETS flag into the output
entry (the loss is 0 without targets, else that of R223 over the logits of the forward pass, whose image functions are
the model's, log entry 12), advances the next batch and the epoch in the header (which the output does not overlap),
and completes with RESULT = the batches run. -/
def Obligations.TrainStepAndBatch : Prop :=
  (∀ (uid st r : Nat) (j : Job) (t : Slot) (s : State),
     s.starts uid 0x0C j →
     s.recorded j →
     j.ext = .none →
     (s.started uid 0x0C).blocked j (dArg j.words) 128 = none →
     (s.started uid 0x0C).blockedOut j (dOut j.words) (8 * dCount j.words) = none →
     (s.started uid 0x0C).namedSlot j.part (dSlot j.words) = .inl t →
     (s.started uid 0x0C).trainRefused j.part t ((s.started uid 0x0C).trainBlock j) = some (st, r) →
     answers (.trainStep uid) s fun u => u.recordWaits j (firstError j.status st) r) ∧
  (∀ (uid : Nat) (b : List Nat) (j : Job) (t : Slot) (s : State),
     s.starts uid 0x0C j →
     j.ext = .none →
     (s.started uid 0x0C).blocked j (dArg j.words) 128 = none →
     (s.started uid 0x0C).blockedOut j (dOut j.words) (8 * dCount j.words) = none →
     (s.started uid 0x0C).namedSlot j.part (dSlot j.words) = .inl t →
     (s.started uid 0x0C).trainBlock j = b →
     trainFields t b = true →
     ((trainRegions t b).all fun r => r.2 == 0 || s.inDram j.part r.1 r.2) = true →
     ((trainRegions t b).any fun r => (s.started uid 0x0C).onImage r.1 r.2) = false →
     apart (tbState b, 256 + 2 * copyBytesOf t b) (tbWorkAddr b, tbWorkMib b * 2 ^ 20) = true →
     tbInit b = true →
     (s.started uid 0x0C).blocked j (tbInitAddr b) (masterBytes t b) = none →
     answers (.trainStep uid) s fun u => tbWorkMib b < workNeed t b ∨
       ((∃ k, u.job? uid = some k ∧ k.state = .running ∧ k.ext = .train { started := true, batches := 0 }) ∧
         u.wordsAt (tbState b) 6 = imageTag t ++ [0, 0, tbStartEpoch b, tbStartBatch b])) ∧
  (∀ (uid : Nat) (b : List Nat) (h : TrainHead) (rows : List Row) (r : TrainSt) (j : Job) (t : Slot) (s : State),
     s.runs uid 0x0C j →
     s.recorded j →
     j.ext = .train r →
     s.cpRunning 2 = true →
     s.workOut uid = false →
     s.slot? (dSlot j.words) = some t →
     s.trainBlock j = b →
     s.trainHead b = h →
     ((s.batchSamples b h).map fun w => (w.map (s.row t b)).getD Row.empty) = rows →
     r.batches + 1 = dCount j.words →
     s.anyBlocked j (trainReads t b h ++ (((s.batchSamples b h).filterMap id).filter sampleFields).map fun w => (addr48 w 0, 4 * sampleLen w)) = none →
     s.blockedOut j (dOut j.words + 8 * r.batches) 8 = none →
     (dOut j.words + 8 * r.batches + 8 ≤ tbState b ∨ tbState b + 64 ≤ dOut j.words + 8 * r.batches) →
     answers (.trainBatch uid) s fun u => u.recordWaits j (j.endStatus s.now) (r.batches + 1) ∧
       (u.trainHead b).next = (h.advance b).next ∧ (u.trainHead b).epoch = (h.advance b).epoch ∧
       let targets := (rows.map fun r => r.targets.length).sum
       u.readN (dOut j.words + 8 * r.batches) 4 = (if targets = 0 then 0 else
         (s.batchRun t b h (s.forward t b h rows) (fmul h.pow1 (tbF32 b 15)) (fmul h.pow2 (tbF32 b 16))).loss.toNat) ∧
       u.readN (dOut j.words + 8 * r.batches + 4) 4 % 2 ^ 23 = targets % 2 ^ 22 + 2 ^ 22 * b2n (targets == 0))

/-- ECHO_SEARCH: a header that breaks a check ends the job INVALID_DESCRIPTOR; a good one starts the search at row 0
of pass 0 with one Echo unit. ECHO_WORK_UNIT, when the unit in turn is a search's: the unit leaves the queue; a chunk
that is not the last of its pass moves the row on and queues the next unit; the last chunk of the last pass writes the
lists of the best rows and completes with RESULT = the eligible rows; a word of the table that cannot be read ends the
job. A level-1 unit keeps at most a block for each eight pages of the setting and queues its level-0 unit. ECHO_AGING
ages exactly the units that have waited 1 ms. -/
def Obligations.EchoSearchScansItsTable : Prop :=
  (∀ (uid : Nat) (j : Job) (s : State),
     s.starts uid 0x0E j →
     s.recorded j →
     j.ext = .none →
     (s.started uid 0x0E).blocked j (dArg j.words) 64 = none →
     (s.started uid 0x0E).searchOk j = false →
     answers (.echoSearch uid) s fun u => u.recordWaits j (firstError j.status 0x30) noResult) ∧
  (∀ (uid : Nat) (j : Job) (s : State),
     s.starts uid 0x0E j →
     j.ext = .none →
     (s.started uid 0x0E).blocked j (dArg j.words) 64 = none →
     (s.started uid 0x0E).searchOk j = true →
     ((s.started uid 0x0E).allocFrame j.part (saveBytes j)).isSome = true →
     answers (.echoSearch uid) s fun u =>
       (∃ k x a, u.job? uid = some k ∧ k.state = .running ∧ k.ext = .search x a ∧ a ∈ k.areas ∧ x.pass = 0 ∧ x.row = 0 ∧ x.scanned = 0) ∧
       ∃ y ∈ u.echo.queue, y.uid = uid ∧ y.part = j.part ∧ y.prio = j.prio ∧ y.arrived = s.now ∧ y.kind = .search) ∧
  (∀ (t0 planned unissued area : Nat) (x : SearchSt) (y : EchoUnit) (j : Job) (s : State),
     maxBy EchoUnit.effPrio s.echo.queue = some y →
     y.kind = .search →
     s.runs y.uid 0x0E j →
     s.recorded j →
     j.ext = .search x area →
     s.blocked j (s.searchHdr j).query (2 * (s.searchHdr j).dim * dCount j.words) = none →
     s.badSearchRows (s.searchHdr j) x = [] →
     s.blockedOut j (dOut j.words) (8 * searchK j * dCount j.words) = none →
     (s.searchHdr j).rows ≤ x.row + min (s.searchHdr j).chunk ((s.searchHdr j).rows - x.row) →
     dCount j.words ≤ 16 * (x.pass + 1) →
     answers (.echoWorkUnit ⟨.clean, t0, planned, unissued⟩) s fun u =>
       let r := (s.scanChunk j (s.searchHdr j) x).1
       u.recordWaits j (j.endStatus s.now) r.scanned ∧ u.echo.queue = s.echo.queue.erase y ∧ u.echo.lastPart = y.part ∧
       u.bytesAt (dOut j.words) (r.tops.flatMap (topBytes (searchK j))).length = r.tops.flatMap (topBytes (searchK j))) ∧
  (∀ (t0 planned unissued area : Nat) (x : SearchSt) (y : EchoUnit) (j : Job) (s : State),
     maxBy EchoUnit.effPrio s.echo.queue = some y →
     y.kind = .search →
     s.runs y.uid 0x0E j →
     j.ext = .search x area →
     s.blocked j (s.searchHdr j).query (2 * (s.searchHdr j).dim * dCount j.words) = none →
     s.badSearchRows (s.searchHdr j) x = [] →
     x.row + (s.searchHdr j).chunk < (s.searchHdr j).rows →
     16 * x.pass < dCount j.words →
     answers (.echoWorkUnit ⟨.clean, t0, planned, unissued⟩) s fun u => (∃ k v, u.job? y.uid = some k ∧ k.finished = false ∧ k.ext = .search v area ∧
         v.pass = x.pass ∧ v.row = x.row + (s.searchHdr j).chunk) ∧
       ∃ v ∈ u.echo.queue, v.uid = y.uid ∧ v.kind = .search) ∧
  (∀ (t0 planned unissued area : Nat) (x : SearchSt) (y : EchoUnit) (j : Job) (s : State),
     maxBy EchoUnit.effPrio s.echo.queue = some y →
     y.kind = .search →
     s.runs y.uid 0x0E j →
     s.recorded j →
     j.ext = .search x area →
     answers (.echoWorkUnit ⟨.badTable, t0, planned, unissued⟩) s fun u => u.recordWaits j (firstError j.status 0x50) j.progress) ∧
  (∀ (seq layer head t0 planned unissued : Nat) (y : EchoUnit) (q : Seq) (r : Retrieval) (s : State),
     maxBy EchoUnit.effPrio s.echo.queue = some y →
     y.kind = .level1 seq layer head →
     s.seq? seq = some q →
     (s.echo.retrievals.find? fun r => r.isFor y.uid seq layer head) = some r →
     answers (.echoWorkUnit ⟨.clean, t0, planned, unissued⟩) s fun u =>
       (∃ v ∈ u.echo.queue, v.uid = y.uid ∧ v.part = y.part ∧ v.prio = y.prio ∧ v.kind = .level0 seq layer head) ∧
       ∀ v ∈ u.echo.retrievals, v.isFor y.uid seq layer head = true → v.blocks.length ≤ ceilDiv (rPages (s.unitSetting y)) 8) ∧
  (∀ (s : State),
     answers .echoAging s fun u => u.echo.queue.length = s.echo.queue.length ∧ ∀ x ∈ s.echo.queue,
       (s.now < x.arrived + 100000 → x ∈ u.echo.queue) ∧
       (x.arrived + 100000 ≤ s.now → { x with aged := true } ∈ u.echo.queue))

/-- VISION_FRAME: a block that a check refuses ends the job with that status; a good one makes it the intake's job,
with its block kept and no row copied. PROGRESS_POLL: 2 us after the last one, the progress word is read, and its row
count is taken when its FRAME_SEQ is the frame's and the count grows within the frame. VISION_BURST: the next rows
that are ready, up to a multiple of 16, are copied from the source into the staging buffer while the progress word
last read carried the frame's FRAME_SEQ; with the link down a source in host memory ends the job LINK_DOWN.
WARP_PATCH: with every row staged the job completes with RESULT = 2 x rows; an uncorrectable read ends it
DATA_UNCORRECTED. STALL_TIMEOUT: a frame with rows still to copy, which has not moved on for TIMEOUT_MS, is dropped:
one DATA occurrence of the intake, RESULT with bit 0 set and the rows copied above it, and its reads stay in flight;
before that moment nothing changes. LATE_DATA_DISCARD: data of a dropped frame arrives and changes nothing but the
reads in flight. -/
def Obligations.VisionFrameTakenIn : Prop :=
  (∀ (uid st : Nat) (j : Job) (s : State),
     s.visionBusy uid = false →
     s.starts uid 0x0D j →
     s.recorded j →
     (s.started uid 0x0D).blocked j (dArg j.words) 128 = none →
     (s.started uid 0x0D).visionRefused j = some st →
     answers (.visionFrame uid) s fun u => u.recordWaits j (firstError j.status st) noResult ∧ u.vision.job = none) ∧
  (∀ (uid : Nat) (j : Job) (s : State),
     s.visionBusy uid = false →
     s.starts uid 0x0D j →
     (s.started uid 0x0D).blocked j (dArg j.words) 128 = none →
     (s.started uid 0x0D).visionRefused j = none →
     (s.started uid 0x0D).badWords (vhdr ((s.started uid 0x0D).vwords j)).mesh (vhdr ((s.started uid 0x0D).vwords j)).meshBytes = [] →
     (s.started uid 0x0D).meshOk (vhdr ((s.started uid 0x0D).vwords j)) = true →
     answers (.visionFrame uid) s fun u => u.vision.job = some uid ∧ u.vision.block = (s.started uid 0x0D).vwords j ∧
       u.vision.frameSeq = wordAt j.words 8 ∧ u.vision.copied = 0 ∧ ∃ k, u.job? uid = some k ∧ k.state = .running) ∧
  (∀ (j : Job) (s : State),
     s.visionJob = some j →
     s.visionHdr.progress ≠ 0 →
     s.vision.copied < s.visionHdr.h →
     s.vision.lastPoll + 200 ≤ s.now →
     s.readable j.part s.visionHdr.progress = true →
     answers .progressPoll s fun u => u.vision.lastPoll = s.now ∧ u.vision.copied = s.vision.copied ∧
       u.vision.current = decide (bits 31 0 (s.readN s.visionHdr.progress 8) = s.vision.frameSeq) ∧
       let w := s.readN s.visionHdr.progress 8
       u.vision.ready = if bits 31 0 w = s.vision.frameSeq ∧ s.vision.ready < bits 45 32 w ∧ bits 45 32 w ≤ s.visionHdr.h then bits 45 32 w
         else s.vision.ready) ∧
  (∀ (b : Nat) (j : Job) (s : State),
     s.visionJob = some j →
     min s.vision.ready (min s.visionHdr.h ((s.vision.copied / 16 + 1) * 16)) = b →
     s.vision.copied < b →
     s.vision.current = true →
     s.badRows s.visionHdr s.vision.copied b = [] →
     s.visionHdr.rgb = true →
     hostBase ≤ s.visionHdr.src →
     s.hostOk j.part = true →
     s.visionHdr.rowBytes ≤ s.visionHdr.stride →
     s.visionHdr.stage + s.visionHdr.stride * b ≤ hostBase →
     answers (.visionBurst false) s fun u => u.vision.copied = b ∧ ∀ y, s.vision.copied ≤ y → y < b →
       u.bytesAt (s.visionHdr.stage + s.visionHdr.stride * y) s.visionHdr.rowBytes =
         s.bytesAt (s.visionHdr.src + s.visionHdr.stride * y) s.visionHdr.rowBytes) ∧
  (∀ (b : Nat) (j : Job) (s : State),
     s.visionJob = some j →
     min s.vision.ready (min s.visionHdr.h ((s.vision.copied / 16 + 1) * 16)) = b →
     s.vision.copied < b →
     s.vision.current = true →
     s.badRows s.visionHdr s.vision.copied b = [] →
     (s.visionHdr.usesHost = false ∨ s.hostOk j.part = true) →
     answers (.visionBurst false) s fun u => u.vision.copied = b ∧ u.vision.stallFrom = s.now ∧
       (s.visionHdr.rgb = false → hostBase ≤ s.visionHdr.uv → s.visionHdr.w ≤ s.visionHdr.uvStride →
         s.visionHdr.stage + s.visionHdr.stride * b + s.visionHdr.w ≤ hostBase → s.visionHdr.stageUv + s.visionHdr.uvStride * (b / 2) ≤ hostBase →
         ∀ y, s.vision.copied / 2 ≤ y → y < b / 2 →
           u.bytesAt (s.visionHdr.stageUv + s.visionHdr.uvStride * y) s.visionHdr.w =
             s.bytesAt (s.visionHdr.uv + s.visionHdr.uvStride * y) s.visionHdr.w)) ∧
  (∀ (j : Job) (s : State),
     s.visionJob = some j →
     s.recorded j →
     s.vision.current = true →
     s.vision.copied < min s.vision.ready (min s.visionHdr.h ((s.vision.copied / 16 + 1) * 16)) →
     j.opcode = 0x0D →
     s.visionHdr.usesHost = true →
     answers (.visionBurst true) s fun u => u.recordWaits j (firstError j.status 0x80) j.progress ∧ u.vision.job = none ∧
       u.mems = s.mems) ∧
  (∀ (j : Job) (s : State),
     s.visionJob = some j →
     s.recorded j →
     s.visionHdr.h ≤ s.vision.copied →
     s.badWords s.visionHdr.stage s.visionHdr.stageBytes = [] →
     answers (.warpPatch false) s fun u => u.recordWaits j (j.endStatus s.now) (2 * s.visionHdr.h) ∧ u.vision.job = none) ∧
  (∀ (j : Job) (s : State),
     s.visionJob = some j →
     s.recorded j →
     s.visionHdr.h ≤ s.vision.copied →
     answers (.warpPatch true) s fun u => u.recordWaits j (firstError j.status 0x50) j.progress ∧ u.vision.job = none) ∧
  (∀ (j : Job) (s : State),
     s.visionJob = some j →
     s.recorded j →
     s.vision.copied < s.visionHdr.h →
     s.vision.stallFrom + s.vision.timeoutMs * 100000 ≤ s.now →
     answers .stallTimeout s fun u => u.recordWaits j (j.endStatus s.now) (1 + 2 * s.vision.copied) ∧ u.vision.job = none ∧
       u.vision.inFlight = s.vision.frameSeq :: s.vision.inFlight ∧ u.reported 0x68 2) ∧
  (∀ (j : Job) (s : State),
     s.visionJob = some j →
     s.now < s.vision.stallFrom + s.vision.timeoutMs * 100000 →
     exec .stallTimeout s = .next s) ∧
  (∀ (s : State),
     answers .lateDataDiscard s fun u => u.vision.inFlight.length = s.vision.inFlight.length - 1 ∧
       u = { s with vision := { s.vision with inFlight := u.vision.inFlight } })

/-- A shipping job of a partition that PART_MASK leaves out is refused ACCESS_DENIED with RESULT 0. A job of buffer
entries that passes every check, on a READY port, runs at entry 0 with nothing sent; an IN entry sends READY with its
PEER and XFER_TAG, and a PROBE along its path. A running OUT job whose probe was answered sends the next DATA frame on
VC1 with the transport header of its entry, at most 2,032 bytes of the stream. -/
def Obligations.ShipJobsStartAndSend : Prop :=
  (∀ (uid op : Nat) (c : Instr) (j : Job) (s : State),
     (c, op) ∈ [(Instr.kvShipOut uid, 0x07), (.kvShipIn uid, 0x08)] →
     s.starts uid op j →
     s.recorded j →
     j.ship? = none →
     (s.started uid op).blocked j (dArg j.words) (32 * dCount j.words) = none →
     (s.started uid op).blockedOut j (dOut j.words) (if j.opcode == 0x07 then 0 else 4 * dCount j.words) = none →
     bit j.part s.passage.partMask = false →
     answers c s fun u => u.recordWaits j (firstError j.status 0x31) 0) ∧
  (∀ (uid op : Nat) (c : Instr) (j : Job) (s : State),
     (c, op) ∈ [(Instr.kvShipOut uid, 0x07), (.kvShipIn uid, 0x08)] →
     s.starts uid op j →
     j.ship? = none →
     s.shaped = true →
     (s.started uid op).blocked j (dArg j.words) (32 * dCount j.words) = none →
     (s.started uid op).blockedOut j (dOut j.words) (if j.opcode == 0x07 then 0 else 4 * dCount j.words) = none →
     bit j.part s.passage.partMask = true →
     s.conf j.part = false →
     dHops j.words ≠ 0 →
     (((List.range (dCount j.words)).map ((s.started uid op).shipEntry j)).all fun w =>
       shBuffer w && (s.started uid op).shipOk j.part (j.opcode == 0x07) w &&
         (s.started uid op).inDram j.part (shAddr w) (shLength w)) = true →
     (s.started uid op).blocked j (dArg j.words) 32 = none →
     (s.pport (dPort j.words)).state = .ready →
     answers c s fun u => (∃ k sh, u.job? uid = some k ∧ k.state = .running ∧ k.ship? = some sh ∧ sh.entry = 0 ∧ sh.sent = 0 ∧
         sh.count = dCount j.words ∧ sh.port = dPort j.words) ∧
       (op = 0x08 → (ShipMsg.ready, shPeer ((s.started uid op).shipEntry j 0), shTag ((s.started uid op).shipEntry j 0)) ∈
           (u.pport (dPort j.words)).control ∧
         ∃ f ∈ (u.pport (dPort j.words)).waiting ++ (u.pport (dPort j.words)).sent, f.type = 4 ∧ f.vc = 0 ∧ f.hops = dHops j.words)) ∧
  (∀ (uid : Nat) (j : Job) (sh : ShipSt) (s : State),
     s.runs uid 0x07 j →
     j.ship? = some sh →
     sh.out = true →
     sh.probed = true →
     sh.held = false →
     sh.sent < sh.total →
     ((s.pport sh.port).waiting.any fun f => f.vc == 1) = false →
     sh.port < s.passage.ports.length →
     answers (.kvShipOut uid) s fun u =>
       (∃ k, u.job? uid = some k ∧ k.ship? = some { sh with sent := sh.sent + ((sh.image.drop sh.sent).take 2032).length }) ∧
       ∃ f ∈ (u.pport sh.port).waiting ++ (u.pport sh.port).sent, f.type = 0 ∧ f.vc = 1 ∧ f.hops = sh.hops ∧
         f.payload.take 16 = transport s.passage.id (shTag sh.words) sh.sent (s.conf j.part) ∧
         (f.payload.drop 16).take ((sh.image.drop sh.sent).take 2032).length = (sh.image.drop sh.sent).take 2032)

/-- XFER_READY: the waiting OUT entry that READY's PEER names notes it and probes its path. READY_RESEND: an IN entry
without data repeats READY every 100 us. E2E_ACK: a final acknowledgement of a whole last entry completes the job with
RESULT = the entries. A receiver's acknowledgement moves the sender on, from the receiver's offset where it was held.
XFER_HOLD restarts the progress time and stops a sender. HOLD_TIMER: a suspended side sends HOLD every ms. XFER_ABORT:
the job becomes CANCELLING, or ends ACCESS_DENIED where CONF differs. SHIP_PROGRESS_TIMEOUT and PROBE_TIMEOUT: 10 ms
without progress, or 1 ms without an answer to the probe, end the job LINK_DOWN with the entry's number in RESULT, and
not before. -/
def Obligations.ShipControlMessages : Prop :=
  (∀ (port : Nat) (ids : ShipIds) (tag : Nat) (j : Job) (sh : ShipSt) (s : State),
     ids.peer = s.passage.id →
     s.shipFor true port ids.origin tag = some (j, sh) →
     s.job? j.uid = some j →
     sh.ready = false →
     j.state = .running →
     (s.pport port).state = .ready →
     answers (.xferReady port ids tag) s fun u => (∃ k, u.job? j.uid = some k ∧
         k.ship? = some { sh with ready := true, probeSent := some s.now, lastProgress := s.now }) ∧
       ∃ f ∈ (u.pport port).waiting ++ (u.pport port).sent, f.type = 4 ∧ f.vc = 0 ∧ f.hops = sh.hops ∧ f.payload = transport s.passage.id (shTag sh.words) sh.hops (s.conf j.part)) ∧
  (∀ (uid : Nat) (j : Job) (sh : ShipSt) (s : State),
     s.shipOf uid = some (j, sh) →
     sh.out = false →
     sh.ready = false →
     j.state = .running →
     sh.lastReady + 10000 ≤ s.now →
     sh.port < s.passage.ports.length →
     answers (.readyResend uid) s fun u => (∃ k, u.job? uid = some k ∧ k.ship? = some { sh with lastReady := s.now }) ∧
       (u.pport sh.port).control =
         (.ready, shPeer sh.words, shTag sh.words) :: (s.pport sh.port).control) ∧
  (∀ (uid offset : Nat) (j : Job) (sh : ShipSt) (s : State),
     s.shipOf uid = some (j, sh) →
     s.recorded j →
     j.ending = none →
     sh.out = true →
     sh.probed = true →
     sh.sent = sh.total →
     offset = sh.total →
     sh.entry + 1 = sh.count →
     answers (.e2eAck uid offset true) s fun u => u.recordWaits j (j.endStatus s.now) (sh.entry + 1)) ∧
  (∀ (uid offset : Nat) (j : Job) (sh : ShipSt) (s : State),
     s.shipOf uid = some (j, sh) →
     sh.out = true →
     sh.probed = true →
     offset ≤ sh.sent →
     answers (.e2eAck uid offset false) s fun u => ∃ k, u.job? uid = some k ∧
       k.ship? = some { sh with
         acked := max sh.acked offset, sent := if sh.held then offset else sh.sent, held := false, lastProgress := s.now }) ∧
  (∀ (uid : Nat) (j : Job) (sh : ShipSt) (s : State),
     s.shipOf uid = some (j, sh) →
     answers (.xferHold uid) s fun u => ∃ k, u.job? uid = some k ∧
       k.ship? = some { sh with lastProgress := s.now, held := sh.out }) ∧
  (∀ (uid : Nat) (j : Job) (sh : ShipSt) (s : State),
     s.shipOf uid = some (j, sh) →
     j.state = .suspended →
     sh.lastHold + 100000 ≤ s.now →
     sh.port < s.passage.ports.length →
     answers (.holdTimer uid) s fun u => (∃ k, u.job? uid = some k ∧ k.ship? = some { sh with lastHold := s.now }) ∧
       (u.pport sh.port).control =
         (.hold, shPeer sh.words, shTag sh.words) :: (s.pport sh.port).control) ∧
  (∀ (uid : Nat) (j : Job) (sh : ShipSt) (s : State),
     s.shipOf uid = some (j, sh) →
     j.state ≠ .cancelling →
     answers (.xferAbort uid false) s fun u => ∃ k, u.job? uid = some k ∧ k = { j with state := .cancelling, ending := some .cancel }) ∧
  (∀ (uid : Nat) (j : Job) (sh : ShipSt) (s : State),
     s.shipOf uid = some (j, sh) →
     s.recorded j →
     answers (.xferAbort uid true) s fun u => u.recordWaits j (firstError j.status 0x31) sh.entry) ∧
  (∀ (uid : Nat) (j : Job) (sh : ShipSt) (s : State),
     s.shipOf uid = some (j, sh) →
     s.recorded j →
     (j.state = .running ∨ j.state = .suspending) →
     sh.ready = true →
     sh.lastProgress + 1000000 ≤ s.now →
     answers (.shipProgressTimeout uid) s fun u => u.recordWaits j (firstError j.status 0x80) sh.entry) ∧
  (∀ (uid t : Nat) (j : Job) (sh : ShipSt) (s : State),
     s.shipOf uid = some (j, sh) →
     s.recorded j →
     sh.probed = false →
     sh.probeSent = some t →
     t + 100000 ≤ s.now →
     answers (.probeTimeout uid) s fun u => u.recordWaits j (firstError j.status 0x80) sh.entry) ∧
  (∀ (uid t : Nat) (j : Job) (sh : ShipSt) (s : State),
     s.shipOf uid = some (j, sh) →
     s.now < sh.lastProgress + 1000000 →
     sh.probeSent = some t →
     s.now < t + 100000 →
     exec (.shipProgressTimeout uid) s = .next s ∧ exec (.probeTimeout uid) s = .next s)

/-- DATA in order for an IN buffer entry is appended to its stream, and the whole stream is written at the entry's
address; with HOPS above 1 the frame leaves by the other port with HOPS less 1; an unassigned TYPE is recorded,
whichever command brings it. ACK drops the acknowledged frames from the retry buffer; NAK sends every unacknowledged
frame again; a frame with a bad CRC is answered with a NAK. CREDIT adds the new credits of both VCs. PROBE at its last
hop is answered OK. The 64th PROBE_REPLY of a hop measurement makes the port READY. KEYX completes the exchange in
progress with a new key once this side's KEYX has left, waits for that where it has not, and is recorded where its
signature does not verify or the pin is not the digest of the peer's certificate. DISCOVER gives the peer's PASSAGE_ID
and starts the keys. -/
def Obligations.PassageFramesReceived : Prop :=
  (∀ (port : Nat) (f : Frame) (t : State) (j : Job) (sh : ShipSt) (s : State),
     f.type = 0 →
     s.accept port f = (true, t) →
     f.hops ≤ 1 →
     f.vc ≠ 0 →
     t.shipFor false port (tOrigin f.payload) (tXfer f.payload) = some (j, sh) →
     t.job? j.uid = some j →
     tConf f.payload = t.conf j.part →
     tOffset f.payload = sh.sent →
     sh.sent < sh.total →
     shBuffer sh.words = true →
     sh.image.length + (f.payload.drop 16).length < sh.total →
     sh.image.length + (f.payload.drop 16).length < sh.acked + 2 ^ 20 →
     answers (.data port f) s fun u => ∃ k x, u.job? j.uid = some k ∧ k.ship? = some x ∧ x.image = sh.image ++ f.payload.drop 16 ∧
       x.sent = x.image.length ∧ x.ready = true ∧ x.lastProgress = t.now ∧ x.entry = sh.entry) ∧
  (∀ (port : Nat) (f : Frame) (t : State) (j : Job) (sh : ShipSt) (s : State),
     f.type = 0 →
     s.accept port f = (true, t) →
     f.hops ≤ 1 →
     f.vc ≠ 0 →
     t.shipFor false port (tOrigin f.payload) (tXfer f.payload) = some (j, sh) →
     t.job? j.uid = some j →
     tConf f.payload = t.conf j.part →
     tOffset f.payload = sh.sent →
     sh.sent < sh.total →
     shBuffer sh.words = true →
     sh.total ≤ sh.image.length + (f.payload.drop 16).length →
     answers (.data port f) s fun u =>
       u.bytesAt (shAddr sh.words) sh.total = (sh.image ++ f.payload.drop 16).take sh.total) ∧
  (∀ (port : Nat) (f : Frame) (t s : State),
     f.type = 0 →
     s.accept port f = (true, t) →
     1 < f.hops →
     port < 2 →
     (t.pport (1 - port)).state = .ready →
     t.passage.ports.length = 2 →
     answers (.data port f) s fun u => ∃ g ∈ (u.pport (1 - port)).waiting ++ (u.pport (1 - port)).sent,
       g.type = 0 ∧ g.vc = f.vc ∧ g.hops = f.hops - 1 ∧ g.payload = f.payload) ∧
  (∀ (port : Nat) (f : Frame) (c : Instr) (m : KeyxMet) (s : State),
     c ∈ [Instr.data port f, .ack port f, .nak port f, .credit port f, .probe port f, .probeReply port f, .keyx port f m,
       .discover port f] →
     7 < f.type →
     (s.pport port).live = true →
     answers c s fun u => u.reported (0x51 + port) 6 ∧ u.passage = s.passage) ∧
  (∀ (port : Nat) (f : Frame) (s : State),
     f.type = 1 →
     (s.pport port).live = true →
     f.crcOk = true →
     f.tagOk = true →
     f.stomped = false →
     port < s.passage.ports.length →
     (s.pport port).waiting = [] →
     ((s.pport port).retry.any fun g => g.seq == f.ackSeq) = true →
     answers (.ack port f) s fun u => (u.pport port).replays = 0 ∧ (u.pport port).lastProgress = s.now ∧
       (u.pport port).retry = ((s.pport port).retry.dropWhile fun g => g.seq != f.ackSeq).drop 1) ∧
  (∀ (port : Nat) (f : Frame) (s : State),
     f.type = 2 →
     (s.pport port).live = true →
     f.crcOk = true →
     f.tagOk = true →
     f.stomped = false →
     port < s.passage.ports.length →
     (s.pport port).waiting = [] →
     ((s.pport port).retry.any fun g => g.seq == f.ackSeq) = false →
     (s.pport port).retry ≠ [] →
     (s.pport port).replays < 16 →
     (s.pport port).state ≠ .locked →
     (s.pport port).txCtr + (s.pport port).retry.length ≤ 2 ^ 48 →
     answers (.nak port f) s fun u => (u.pport port).replays = (s.pport port).replays + 1 ∧
       (u.pport port).txCtr = (s.pport port).txCtr + (s.pport port).retry.length ∧
       (u.pport port).sent.length = (s.pport port).sent.length + (s.pport port).retry.length) ∧
  (∀ (port : Nat) (f : Frame) (c : Instr) (s : State),
     (c, f.type) ∈ [(Instr.ack port f, 1), (.nak port f, 2), (.credit port f, 3)] →
     (s.pport port).live = true →
     f.stomped = false →
     f.crcOk = false →
     port < s.passage.ports.length →
     (s.pport port).txCtr < 2 ^ 48 →
     answers c s fun u => ∃ g, (u.pport port).sent = g :: (s.pport port).sent ∧ g.type = 2) ∧
  (∀ (port : Nat) (f : Frame) (s : State),
     f.type = 3 →
     (s.pport port).live = true →
     f.crcOk = true →
     f.tagOk = true →
     f.stomped = false →
     port < s.passage.ports.length →
     (s.pport port).waiting = [] →
     (s.pport port).credits.length = 2 →
     (s.pport port).granted.length = 2 →
     answers (.credit port f) s fun u => ∀ vc, vc < 2 → ∃ n, n < 2 ^ 16 ∧
       (u.pport port).credits.getD vc 0 = (s.pport port).credits.getD vc 0 + n ∧
       ((s.pport port).granted.getD vc 0 + n) % 2 ^ 16 = bits (16 * vc + 15) (16 * vc) (fieldAt f.payload 0 4)) ∧
  (∀ (port : Nat) (f : Frame) (t s : State),
     f.type = 4 →
     s.accept port f = (true, t) →
     f.hops ≤ 1 →
     tOrigin f.payload ≠ t.passage.id →
     port < t.passage.ports.length →
     answers (.probe port f) s fun u => ∃ g ∈ (u.pport port).waiting ++ (u.pport port).sent, g.type = 5 ∧ g.vc = 0 ∧ g.payload.getD 12 1 = 0) ∧
  (∀ (port : Nat) (f : Frame) (t s : State),
     f.type = 5 →
     s.accept port f = (true, t) →
     f.hops ≤ 1 →
     (t.pport port).state = .keying →
     (t.pport port).probes = 63 →
     port < t.passage.ports.length →
     answers (.probeReply port f) s fun u => (u.pport port).state = .ready ∧ (t.pport port).hopNs ≤ (u.pport port).hopNs) ∧
  (∀ (port : Nat) (f : Frame) (m : KeyxMet) (d : Nat) (s : State),
     f.type = 6 →
     f.crcOk = true →
     (s.pport port).state = .ready →
     (s.pport port).rekeying = true →
     (s.pport port).ephemeral = some d →
     m.signed = true →
     (s.pport port).pinHolds m.cert = true →
     port < s.passage.ports.length →
     answers (.keyx port f m) s fun u => (u.pport port).keyGen = (s.pport port).keyGen + 1 ∧
       (u.pport port).txKey = Config.linkKey (Config.ecdheSecret d (f.payload.take 96)) (transcript (keyxBytes d) f.payload)
         (s.linkDir port) ∧
       (u.pport port).txPhase = !(s.pport port).txPhase ∧ (u.pport port).rekeying = false ∧ (u.pport port).state = .ready) ∧
  (∀ (port : Nat) (f : Frame) (m : KeyxMet) (s : State),
     f.type = 6 →
     f.crcOk = true →
     (s.pport port).exchanges = true →
     (s.pport port).rekeying = true →
     (s.pport port).ephemeral = none →
     m.signed = true →
     (s.pport port).pinHolds m.cert = true →
     exec (.keyx port f m) s = .next (s.modPport port fun p => { p with peerKeyx := some f.payload })) ∧
  (∀ (port : Nat) (f : Frame) (m : KeyxMet) (s : State),
     f.type = 6 →
     f.crcOk = true →
     (s.pport port).exchanges = true →
     (m.signed = false ∨ (s.pport port).pinHolds m.cert = false) →
     port < s.passage.ports.length →
     answers (.keyx port f m) s fun u => u.reported (0x51 + port) 7 ∧ (u.pport port).keyGen = (s.pport port).keyGen ∧
       (u.pport port).rekeying = true) ∧
  (∀ (port : Nat) (f : Frame) (s : State),
     f.type = 7 →
     (s.pport port).state = .discovery →
     f.crcOk = true →
     f.tagOk = true →
     f.stomped = false →
     port < s.passage.ports.length →
     answers (.discover port f) s fun u => (u.pport port).peerId = fieldAt f.payload 0 2 ∧ (u.pport port).state = .keying ∧
       (u.pport port).rekeying = true)

/-- PORT_LINK_UP begins discovery with full credits, sequence numbers from 0 and no key, and its counter goes on.
PORT_DOWN loses frames and keys of the link, counts a link event, fails the port's shipping jobs and retrains, or
stays DISABLED. REPLAY_TIMEOUT, ACK_TIMER and CREDIT_TIMER act at 4 us, 500 ns and 500 ns and not before; the ACK is
on the wire as R332 seals a frame. REKEY_THRESHOLD starts an exchange at 2^32 frames, PORT_LOCKED locks the port at
2^48, KEYX_RETRY repeats an exchange after 100 ms. PASSAGE_REKEY and PASSAGE_ENABLE do what their register bits say,
through the physical function only. -/
def Obligations.PassagePortUpkeep : Prop :=
  (∀ (port : Nat) (s : State),
     port < s.passage.ports.length →
     (s.pport port).enable = true →
     ((s.pport port).state = .down ∨ (s.pport port).state = .training) →
     s.cpRunning 3 = true →
     s.dev.shutdownDone = false →
     (s.pport port).state ≠ .locked →
     answers (.portLinkUp port) s fun u => (u.pport port).state = .discovery ∧ (u.pport port).credits = [256, 256] ∧
       (u.pport port).txSeq = 0 ∧ (u.pport port).rxSeq = 0 ∧ (u.pport port).retry = [] ∧ (u.pport port).txKey = [] ∧
       (s.pport port).txCtr ≤ (u.pport port).txCtr) ∧
  (∀ (port : Nat) (s : State),
     port < s.passage.ports.length →
     (s.pport port).isUp = true →
     answers (.portDown port .phy) s fun u => (u.pport port).state = .training ∧
       (u.pport port).events = min 0xFFFF ((s.pport port).events + 1) ∧ (u.pport port).retry = [] ∧ (u.pport port).txKey = [] ∧
       u.reported (0x51 + port) 6) ∧
  (∀ (port uid : Nat) (j : Job) (s : State),
     (s.pport port).isUp = true →
     s.job? uid = some j →
     s.recorded j →
     (s.shipJobs port).map Job.uid = [uid] →
     answers (.portDown port .phy) s fun u => u.recordWaits j (firstError j.status 0x80) j.progress) ∧
  (∀ (port : Nat) (s : State),
     (s.pport port).retry ≠ [] →
     (s.pport port).lastProgress + 400 ≤ s.now →
     (s.pport port).live = true →
     (s.pport port).replays < 16 →
     port < s.passage.ports.length →
     (s.pport port).txCtr + (s.pport port).retry.length ≤ 2 ^ 48 →
     answers (.replayTimeout port) s fun u => (u.pport port).replays = (s.pport port).replays + 1 ∧ (u.pport port).lastProgress = s.now ∧
       (u.pport port).sent.length = (s.pport port).sent.length + (s.pport port).retry.length) ∧
  (∀ (port : Nat) (s : State),
     port < s.passage.ports.length →
     (s.pport port).live = true →
     0 < (s.pport port).unacked →
     (s.pport port).lastAck + 50 ≤ s.now →
     (s.pport port).txCtr < 2 ^ 48 →
     answers (.ackTimer port) s fun u => (u.pport port).unacked = 0 ∧ (u.pport port).lastAck = s.now ∧
       ∃ f, (u.pport port).sent = f :: (s.pport port).sent ∧ f.type = 1 ∧ f.ackSeq = (s.pport port).ackSeq ∧
         (u.pport port).wire = wireBytes f (s.pport port).sealKey
           (s.linkDir port + (s.pport port).keyGen % 2 ^ 15) :: (s.pport port).wire) ∧
  (∀ (port : Nat) (s : State),
     port < s.passage.ports.length →
     (s.pport port).live = true →
     (s.pport port).owed ≠ (s.pport port).told →
     (s.pport port).lastCredit + 50 ≤ s.now →
     (s.pport port).txCtr < 2 ^ 48 →
     answers (.creditTimer port) s fun u => (u.pport port).told = (s.pport port).owed ∧ (u.pport port).lastCredit = s.now ∧
       ∃ f, (u.pport port).sent = f :: (s.pport port).sent ∧ f.type = 3 ∧
         fieldAt f.payload 0 4 = (s.pport port).owed.getD 0 0 % 2 ^ 16 + 2 ^ 16 * ((s.pport port).owed.getD 1 0 % 2 ^ 16)) ∧
  (∀ (port : Nat) (s : State),
     s.now < (s.pport port).lastProgress + 400 →
     s.now < (s.pport port).lastAck + 50 →
     (s.pport port).unacked < 16 →
     s.now < (s.pport port).lastCredit + 50 →
     exec (.replayTimeout port) s = .next s ∧ exec (.ackTimer port) s = .next s ∧ exec (.creditTimer port) s = .next s) ∧
  (∀ (port : Nat) (s : State),
     port < s.passage.ports.length →
     (s.pport port).state = .ready →
     (s.pport port).rekeying = false →
     2 ^ 32 ≤ (s.pport port).txCtr →
     answers (.rekeyThreshold port) s fun u => (u.pport port).rekeying = true ∧ (u.pport port).lastKeyx = s.now ∧
       (u.pport port).keyGen = (s.pport port).keyGen) ∧
  (∀ (port : Nat) (s : State),
     port < 2 →
     port < s.passage.ports.length →
     (s.pport port).state = .ready →
     2 ^ 48 ≤ (s.pport port).txCtr →
     answers (.portLocked port) s fun u => (u.pport port).state = .locked ∧ (u.pport port).rekeying = false ∧ u.reported (0x51 + port) 7 ∧
       (if port = 0 then u.faults.portALocked else u.faults.portBLocked) = true) ∧
  (∀ (port : Nat) (s : State),
     port < s.passage.ports.length →
     ((s.pport port).state = .keying ∨ (s.pport port).rekeying = true) →
     (s.pport port).isUp = true →
     (s.pport port).lastKeyx + 10000000 ≤ s.now →
     answers (.keyxRetry port) s fun u => (u.pport port).lastKeyx = s.now ∧ (u.pport port).rekeying = true) ∧
  (∀ (port : Nat) (s : State),
     port < s.passage.ports.length →
     s.reaches .pf = true →
     ((s.pport port).state = .ready ∨ (s.pport port).state = .locked) →
     answers (.passageRekey .pf port) s fun u => (u.pport port).rekeying = true ∧ (u.pport port).lastKeyx = s.now) ∧
  (∀ (port : Nat) (s : State),
     port < s.passage.ports.length →
     s.reaches .pf = true →
     (s.pport port).isUp = true →
     answers (.passageEnable .pf port false) s fun u => (u.pport port).enable = false ∧ (u.pport port).state = .disabled ∧
       u.reported (0x51 + port) 6) ∧
  (∀ (port : Nat) (s : State),
     port < s.passage.ports.length →
     s.reaches .pf = true →
     (s.pport port).state = .disabled →
     answers (.passageEnable .pf port true) s fun u => (u.pport port).enable = true ∧ (u.pport port).state = .training) ∧
  (∀ (fn : Fn) (port : Nat) (e : Bool) (s : State),
     fn ≠ .pf →
     exec (.passageRekey fn port) s = .next s ∧ exec (.passageEnable fn port e) s = .next s)

/-- A job whose volume or block it may not reach, or that a check of R296 to R298 or R310 refuses, completes with that
status. Else a FLASH_READ or FLASH_PROGRAM with its buffer in DRAM brings its first page to the die that holds it, a
program with the data that is to be stored; a FLASH_ERASE brings one erase to the die of every slot that it names. -/
def Obligations.FlashJobsStart : Prop :=
  (∀ (uid op st : Nat) (c : Instr) (j : Job) (s : State),
     (c, op) ∈ [(Instr.flashRead uid, 0x20), (.flashProgram uid, 0x21), (.flashErase uid, 0x22)] →
     s.starts uid op j →
     s.recorded j →
     j.ext = .none →
     (s.started uid op).flashTarget j = .inr st →
     answers c s fun u => u.recordWaits j (firstError j.status st) noResult ∧ u.flash = s.flash) ∧
  (∀ (uid op st : Nat) (c : Instr) (j : Job) (t : FTarget) (s : State),
     (c, op) ∈ [(Instr.flashRead uid, 0x20), (.flashProgram uid, 0x21), (.flashErase uid, 0x22)] →
     s.starts uid op j →
     s.recorded j →
     j.ext = .none →
     (s.started uid op).flashTarget j = .inl t →
     (s.started uid op).flashCheck t j = some st →
     answers c s fun u => u.recordWaits j (firstError j.status st) noResult) ∧
  (∀ (uid : Nat) (j : Job) (t : FTarget) (l : PageLoc) (s : State),
     s.starts uid 0x20 j →
     j.ext = .none →
     (s.started uid 0x20).flashTarget j = .inl t →
     (s.started uid 0x20).flashCheck t j = none →
     (s.started uid 0x20).inDramHost j.part (dOut j.words) (pageBytes * fCount j.words) = true →
     0 < fCount j.words →
     dOut j.words < hostBase →
     (s.started uid 0x20).jobPage t j.words 0 = l →
     s.isTorn t.vol.num l.band = false →
     s.shaped = true →
     answers (.flashRead uid) s fun u => (∃ k, u.job? uid = some k ∧ k.ext = .flash (fCount j.words) 0) ∧
       ∃ o ∈ (u.die l.die).ops, o.kind = .read ∧ o.uid = uid ∧ o.block = l.block ∧ o.page = l.page) ∧
  (∀ (uid : Nat) (j : Job) (t : FTarget) (l : PageLoc) (s : State),
     s.starts uid 0x21 j →
     j.ext = .none →
     (s.started uid 0x21).flashTarget j = .inl t →
     (s.started uid 0x21).flashCheck t j = none →
     (s.started uid 0x21).inDramHost j.part (dOut j.words) (pageBytes * fCount j.words) = true →
     0 < fCount j.words →
     dOut j.words < hostBase →
     (s.started uid 0x21).jobPage t j.words 0 = l →
     (s.die l.die).worn = false →
     s.badWords (dOut j.words) pageBytes = [] →
     t.raw = false →
     s.shaped = true →
     answers (.flashProgram uid) s fun u => (∃ k, u.job? uid = some k ∧ k.ext = .flash (fCount j.words) 0) ∧
       ∃ o ∈ (u.die l.die).ops, o.kind = .program ∧ o.uid = uid ∧ o.block = l.block ∧ o.page = l.page ∧ o.wp = some (l.v + 1) ∧
         o.data = s.sealPage t.vol (fPage0 j.words) (s.bytesAt (dOut j.words) pageBytes)) ∧
  (∀ (uid : Nat) (j : Job) (t : FTarget) (s : State),
     s.starts uid 0x22 j →
     (s.started uid 0x22).flashTarget j = .inl t →
     (s.started uid 0x22).flashCheck t j = none →
     s.shaped = true →
     answers (.flashErase uid) s fun u =>
       (∃ k, u.job? uid = some k ∧ k.ext = .flash ((s.started uid 0x22).flashSlots j.words).length 0) ∧
       ∀ x ∈ (s.started uid 0x22).flashSlots j.words, ∃ o ∈ (u.die x.1).ops, o.kind = .erase ∧ o.uid = uid ∧ o.slot = x.2)

/-- On a region whose slots the partition owns, with no lockout: LOCK of an OPEN region stores its range and password;
UNLOCK with the right password opens a WRITE_LOCKED region and clears the count of failures; PERMANENT of an OPEN
region, or of a WRITE_LOCKED one with the password, makes it PERMANENT; CHANGE with the right password stores the new
one. The record then waits with OK. A wrong password ends the job PROTECTED and is counted, and the eighth in a row
locks protection control. Under lockout every action ends PROTECTED and changes no region. -/
def Obligations.FlashProtectActions : Prop :=
  (∀ (uid n : Nat) (j : Job) (r : Region) (s : State),
     s.starts uid 0x23 j →
     s.recorded j →
     bits 3 0 (wordAt j.words 3) = n →
     bits 9 8 (wordAt j.words 3) = 1 →
     s.flash.regions[n]? = some r →
     s.flash.lockout = false →
     ((List.range ((s.protectRange j.words).2 + 1 - (s.protectRange j.words).1)).all fun i =>
       (s.volumeOfSlot ((s.protectRange j.words).1 + i)).map Volume.owner == some j.part) = true →
     r.state = 0 →
     (s.protectRange j.words).1 ≤ (s.protectRange j.words).2 →
     answers (.flashProtect uid) s fun u => u.recordWaits j (j.endStatus s.now) noResult ∧ u.flash.regions[n]? = some
       { state := 1, first := wordAt j.words 4, last := wordAt j.words 5, password := wordAt j.words 8 + 2 ^ 32 * wordAt j.words 9 }) ∧
  (∀ (uid n : Nat) (j : Job) (r : Region) (s : State),
     s.starts uid 0x23 j →
     s.recorded j →
     bits 3 0 (wordAt j.words 3) = n →
     bits 9 8 (wordAt j.words 3) = 0 →
     s.flash.regions[n]? = some r →
     s.flash.lockout = false →
     ((List.range ((s.protectRange j.words).2 + 1 - (s.protectRange j.words).1)).all fun i =>
       (s.volumeOfSlot ((s.protectRange j.words).1 + i)).map Volume.owner == some j.part) = true →
     r.state = 1 →
     r.password = (wordAt j.words 6 + 2 ^ 32 * wordAt j.words 7) →
     answers (.flashProtect uid) s fun u => u.recordWaits j (j.endStatus s.now) noResult ∧ u.flash.fails = 0 ∧
       u.flash.regions[n]? = some { r with state := 0 }) ∧
  (∀ (uid n : Nat) (j : Job) (r : Region) (s : State),
     s.starts uid 0x23 j →
     s.recorded j →
     bits 3 0 (wordAt j.words 3) = n →
     bits 9 8 (wordAt j.words 3) = 2 →
     s.flash.regions[n]? = some r →
     s.flash.lockout = false →
     ((List.range ((s.protectRange j.words).2 + 1 - (s.protectRange j.words).1)).all fun i =>
       (s.volumeOfSlot ((s.protectRange j.words).1 + i)).map Volume.owner == some j.part) = true →
     (r.state = 0 ∨ r.state = 1 ∧ r.password = (wordAt j.words 6 + 2 ^ 32 * wordAt j.words 7)) →
     answers (.flashProtect uid) s fun u => u.recordWaits j (j.endStatus s.now) noResult ∧
       u.flash.regions[n]? = some { r with state := 2 }) ∧
  (∀ (uid n : Nat) (j : Job) (r : Region) (s : State),
     s.starts uid 0x23 j →
     s.recorded j →
     bits 3 0 (wordAt j.words 3) = n →
     bits 9 8 (wordAt j.words 3) = 3 →
     s.flash.regions[n]? = some r →
     s.flash.lockout = false →
     ((List.range ((s.protectRange j.words).2 + 1 - (s.protectRange j.words).1)).all fun i =>
       (s.volumeOfSlot ((s.protectRange j.words).1 + i)).map Volume.owner == some j.part) = true →
     r.state = 1 →
     r.password = (wordAt j.words 6 + 2 ^ 32 * wordAt j.words 7) →
     answers (.flashProtect uid) s fun u => u.recordWaits j (j.endStatus s.now) noResult ∧ u.flash.fails = 0 ∧
       u.flash.regions[n]? = some { r with password := wordAt j.words 8 + 2 ^ 32 * wordAt j.words 9 }) ∧
  (∀ (uid n act : Nat) (j : Job) (r : Region) (s : State),
     s.starts uid 0x23 j →
     s.recorded j →
     bits 3 0 (wordAt j.words 3) = n →
     bits 9 8 (wordAt j.words 3) = act →
     act ≠ 1 →
     s.flash.regions[n]? = some r →
     s.flash.lockout = false →
     ((List.range ((s.protectRange j.words).2 + 1 - (s.protectRange j.words).1)).all fun i =>
       (s.volumeOfSlot ((s.protectRange j.words).1 + i)).map Volume.owner == some j.part) = true →
     r.state = 1 →
     r.password ≠ (wordAt j.words 6 + 2 ^ 32 * wordAt j.words 7) →
     answers (.flashProtect uid) s fun u => u.recordWaits j (firstError j.status 0x90) noResult ∧ u.flash.fails = s.flash.fails + 1 ∧
       (u.flash.lockout = true ↔ 8 ≤ s.flash.fails + 1) ∧ u.flash.regions = s.flash.regions) ∧
  (∀ (uid : Nat) (j : Job) (s : State),
     s.starts uid 0x23 j →
     s.recorded j →
     s.flash.lockout = true →
     answers (.flashProtect uid) s fun u => u.recordWaits j (firstError j.status 0x90) noResult ∧ u.flash = s.flash)

/-- The last page of a read is written at its place in the buffer, of a program is stored and moves the band's write
pointer, and the job completes with RESULT = the pages done. An uncorrectable read of a programmed page ends the job
DATA_UNCORRECTED with the pages done before it and one MEMORY record of the channel; a page that was never programmed
is delivered. A program on a worn die ends the job DEVICE_FAULT. The last erase of a volume's band empties its block,
counts for the next gap move, sets the write pointer to 0 and mends the band; an erase that fails on a die with no
spare block ends the job DEVICE_FAULT. -/
def Obligations.FlashOperationsEnd : Prop :=
  (∀ (die done : Nat) (j : Job) (o : FOp) (v : Volume) (t : FTarget) (s : State),
     (s.die die).current = some o →
     o.kind = .read →
     s.flash.powerLost = false →
     s.job? o.uid = some j →
     s.recorded j →
     j.ext = .flash 1 done →
     j.state = .running →
     s.volume? o.band.1 = some v →
     s.flashTarget j = .inl t →
     j.expert = false →
     dOut j.words + pageBytes * done < hostBase →
     answers (.flashOperationDone die (.readOk 0)) s fun u => u.recordWaits j (j.endStatus s.now) (done + 1) ∧
       u.bytesAt (dOut j.words + pageBytes * done) (s.volPage v (fPage0 j.words + done)).length = s.volPage v (fPage0 j.words + done)) ∧
  (∀ (die done left : Nat) (j : Job) (o : FOp) (s : State),
     (s.die die).current = some o →
     o.kind = .read →
     s.flash.powerLost = false →
     s.job? o.uid = some j →
     s.recorded j →
     j.ext = .flash left done →
     o.page < ((s.die die).block o.block).pages →
     answers (.flashOperationDone die .readBad) s fun u => u.recordWaits j (firstError j.status 0x50) j.progress ∧
       u.reported (0x40 + die / 2) 5) ∧
  (∀ (die done : Nat) (j : Job) (o : FOp) (v : Volume) (t : FTarget) (s : State),
     (s.die die).current = some o →
     o.kind = .read →
     s.flash.powerLost = false →
     s.job? o.uid = some j →
     s.recorded j →
     j.ext = .flash 1 done →
     j.state = .running →
     s.volume? o.band.1 = some v →
     s.flashTarget j = .inl t →
     dOut j.words + pageBytes * done < hostBase →
     ((s.die die).block o.block).pages ≤ o.page →
     answers (.flashOperationDone die .readBad) s fun u => u.recordWaits j (j.endStatus s.now) (done + 1)) ∧
  (∀ (die done left : Nat) (j : Job) (o : FOp) (s : State),
     (s.die die).current = some o →
     o.kind = .program →
     s.flash.powerLost = false →
     s.job? o.uid = some j →
     s.recorded j →
     j.ext = .flash left done →
     (s.die die).worn = true →
     answers (.flashOperationDone die .verified) s fun u => u.recordWaits j (firstError j.status 0x60) j.progress) ∧
  (∀ (die done w : Nat) (j : Job) (o : FOp) (t : FTarget) (s : State),
     (s.die die).current = some o →
     o.kind = .program →
     s.flash.powerLost = false →
     s.job? o.uid = some j →
     s.recorded j →
     j.ext = .flash 1 done →
     j.state = .running →
     (s.die die).worn = false →
     o.wp = some w →
     s.flashTarget j = .inl t →
     o.data.length = pageBytes →
     s.shaped = true →
     die < 32 →
     answers (.flashOperationDone die .verified) s fun u => u.recordWaits j (j.endStatus s.now) (done + 1) ∧
       u.storedPage die o.block o.page = o.data ∧ u.writePtr o.band.1 o.band.2 = w) ∧
  (∀ (die done : Nat) (j : Job) (o : FOp) (s : State),
     (s.die die).current = some o →
     o.kind = .erase →
     s.flash.powerLost = false →
     s.job? o.uid = some j →
     s.recorded j →
     j.ext = .flash 1 done →
     j.state = .running →
     (s.die die).worn = false →
     j.expert = false →
     s.shaped = true →
     die < 32 →
     answers (.flashOperationDone die .verified) s fun u => u.recordWaits j (j.endStatus s.now) noResult ∧
       ((u.die die).block o.block).pages = 0 ∧ (u.die die).sinceMove = (s.die die).sinceMove + 1 ∧
       u.writePtr o.band.1 o.band.2 = 0 ∧ u.isTorn o.band.1 o.band.2 = false) ∧
  (∀ (die done left : Nat) (j : Job) (o : FOp) (s : State),
     (s.die die).current = some o →
     o.kind = .erase →
     s.flash.powerLost = false →
     s.job? o.uid = some j →
     s.recorded j →
     j.ext = .flash left done →
     (s.die die).pool = [] →
     j.expert = false →
     s.shaped = true →
     die < 32 →
     answers (.flashOperationDone die .failed) s fun u => u.recordWaits j (firstError j.status 0x60) noResult ∧
       u.isTorn o.band.1 o.band.2 = true ∧ (u.die die).worn = true)

/-- GAP_MOVE: an idle die that is not worn out, with 100 or more erases since its last move, none of whose blocks a
job holds, moves the gap one position down and takes 100 from its count, or, where its copy cannot be programmed and
the die has no spare block left, leaves the gap and becomes worn (whether a pulse train of the controller's own
verifies is free, log entry 109); else nothing changes. ERASE_SUSPEND: a started erase with no window running is
suspended when a read is queued. ERASE_RESUME: with no read queued it goes on, with a window where WINDOW_US is not 0.
ERASE_WINDOW_END ends the window after WINDOW_US. ERASE_STARVED raises one MEMORY occurrence for each full second.
FLASH_MOUNT in start-up empties the journal and the dies' queues and marks the flash mounted. -/
def Obligations.GapMovesAndSuspendedErases : Prop :=
  (∀ (die : Nat) (s : State),
     s.shaped = true →
     die < 32 →
     100 ≤ (s.die die).sinceMove →
     (s.die die).ops = [] →
     (s.die die).worn = false →
     s.gapHeld die = false →
     s.flash.powerLost = false →
     answers (.gapMove die) s fun u =>
       ((u.die die).gap = (if (s.die die).gap = 0 then 1792 else (s.die die).gap - 1) ∧
         (u.die die).start = (if (s.die die).gap = 0 then ((s.die die).start + 1) % 1792 else (s.die die).start) ∧
         (u.die die).sinceMove = (s.die die).sinceMove - 100) ∨
       ((u.die die).worn = true ∧ (u.die die).pool = [] ∧ (u.die die).gap = (s.die die).gap ∧
         (u.die die).start = (s.die die).start ∧ (u.die die).sinceMove = (s.die die).sinceMove)) ∧
  (∀ (die : Nat) (s : State),
     ((s.die die).sinceMove < 100 ∨ (s.die die).ops ≠ [] ∨ (s.die die).worn = true ∨ s.gapHeld die = true) →
     exec (.gapMove die) s = .next s) ∧
  (∀ (die : Nat) (o : FOp) (s : State),
     s.shaped = true →
     die < 32 →
     (s.die die).erasing = some o →
     o.suspended = false →
     o.windowFrom = none →
     (s.die die).readQueued = true →
     answers (.eraseSuspend die) s fun u => u.die die = { s.die die with ops := { o with suspended := true } :: (s.die die).ops.tail }) ∧
  (∀ (die : Nat) (o : FOp) (s : State),
     s.shaped = true →
     die < 32 →
     (s.die die).erasing = some o →
     o.suspended = true →
     (s.die die).readQueued = false →
     answers (.eraseResume die) s fun u => u.die die = { s.die die with ops := { o with
       suspended := false, windowFrom := if s.flash.windowUs = 0 then none else some s.now } :: (s.die die).ops.tail }) ∧
  (∀ (die t : Nat) (o : FOp) (s : State),
     s.shaped = true →
     die < 32 →
     (s.die die).erasing = some o →
     o.windowFrom = some t →
     t + s.flash.windowUs * 100 ≤ s.now →
     answers (.eraseWindowEnd die) s fun u => u.die die = { s.die die with ops := { o with windowFrom := none } :: (s.die die).ops.tail }) ∧
  (∀ (die t : Nat) (o : FOp) (s : State),
     s.shaped = true →
     die < 32 →
     (s.die die).erasing = some o →
     o.started = some t →
     t + (o.starved + 1) * 100000000 ≤ s.now →
     answers (.eraseStarved die) s fun u => u.reported (0x40 + die / 2) 5 ∧
       u.die die = { s.die die with ops := { o with starved := o.starved + 1 } :: (s.die die).ops.tail }) ∧
  (∀ (s : State),
     s.dev.stage = .training →
     s.flash.mounted = false →
     answers .flashMount s fun u => u.flash.mounted = true ∧ u.flash.powerLost = false ∧ u.flash.journal = [] ∧ u.flash.pendingJ = [] ∧
       ∀ d ∈ u.flash.dies, d.ops = [])

/-- A list outside the partition ends the job DEVICE_FAULT. With an engine in ENGINE_MASK and counters and window
allocated, a list whose records all pass the checks runs with none loaded; a list with a bad record completes
INVALID_DESCRIPTOR with the first bad record's number in RESULT. TILE_TASK_LOAD puts the next record of a running list
into a free context of the engine that the placement rules choose, LOADED, with JOB_REF and PARTITION set. -/
def Obligations.TileListStarts : Prop :=
  (∀ (uid : Nat) (j : Job) (s : State),
     s.starts uid 0x30 j →
     s.recorded j →
     (s.started uid 0x30).inDramHost j.part (addr48 j.words 4) (128 * wordAt j.words 3) = false →
     answers (.tileList uid) s fun u => u.recordWaits j (firstError j.status 0x60) j.progress) ∧
  (∀ (uid : Nat) (j : Job) (t : State) (w : Option Nat) (s : State),
     s.starts uid 0x30 j →
     (s.started uid 0x30).blocked j (addr48 j.words 4) (128 * wordAt j.words 3) = none →
     (((s.started uid 0x30).liveEngines j.part).filter fun e => bit e (wordAt j.words 6)) ≠ [] →
     (s.started uid 0x30).allocTiles j.uid j.part
       ((List.range (wordAt j.words 3)).map fun i => (s.started uid 0x30).wordsAt (addr48 j.words 4 + 128 * i) 32) = some (t, w) →
     t.badRecord j.part w (((s.started uid 0x30).liveEngines j.part).filter fun e => bit e (wordAt j.words 6)) []
       ((List.range (wordAt j.words 3)).map fun i => (s.started uid 0x30).wordsAt (addr48 j.words 4 + 128 * i) 32) = none →
     answers (.tileList uid) s fun u => ∃ k, u.job? uid = some k ∧ k.state = .running ∧
       k.ext = .tiles ((List.range (wordAt j.words 3)).map fun i => (s.started uid 0x30).wordsAt (addr48 j.words 4 + 128 * i) 32) 0 0
         ((t.seqs.filter fun q => q.part == j.part).map fun q => (q.idx, q.len))) ∧
  (∀ (uid i : Nat) (j : Job) (t : State) (w : Option Nat) (s : State),
     s.starts uid 0x30 j →
     s.recorded j →
     (s.started uid 0x30).blocked j (addr48 j.words 4) (128 * wordAt j.words 3) = none →
     (((s.started uid 0x30).liveEngines j.part).filter fun e => bit e (wordAt j.words 6)) ≠ [] →
     (s.started uid 0x30).allocTiles j.uid j.part
       ((List.range (wordAt j.words 3)).map fun i => (s.started uid 0x30).wordsAt (addr48 j.words 4 + 128 * i) 32) = some (t, w) →
     t.badRecord j.part w (((s.started uid 0x30).liveEngines j.part).filter fun e => bit e (wordAt j.words 6)) []
       ((List.range (wordAt j.words 3)).map fun i => (s.started uid 0x30).wordsAt (addr48 j.words 4 + 128 * i) 32) = some i →
     answers (.tileList uid) s fun u => u.recordWaits j (firstError j.status 0x30) i) ∧
  (∀ (uid next retired e i : Nat) (lens : List (Nat × Nat)) (records : List (List Nat)) (r t : List Nat) (j : Job) (s : State),
     s.runs uid 0x30 j →
     j.ext = .tiles records next retired lens →
     s.loadPlaced j.uid = none →
     j.redo = [] →
     records[next]? = some r →
     relocate ((j.ctrs.map Prod.fst).getD 0) j.window r = t →
     tPin t = false →
     homeEngine t = none →
     s.jobPool j ≠ [] →
     s.chooseEngine j.uid (s.jobPool j) false t = some e →
     e < s.engines.length →
     (s.eng e).admits j.part = true →
     (s.eng e).freeCtx = some i →
     answers (.tileTaskLoad uid []) s fun u => (∃ k, u.job? uid = some k ∧ k.ext = .tiles records (next + 1) retired lens) ∧
       (u.eng e).holder = some j.part ∧ ∃ x, u.ctx? e i = some x ∧ x.state = .loaded ∧ x.uid = j.uid ∧ x.part = j.part ∧
         x.words = stampRecord j.uid j.part t)

/-- SLOT_GRANT: on a powered engine the context whose grant is due is granted with its accumulators cleared, and
becomes READY, or WAIT_DEP while its counter is below WAIT_VALUE. FETCH_STEP_ISSUE: the READY context in turn issues
one step and takes its fetch-pool slots, or waits when they do not fit. PRIORITY_AGING: a context READY for 65,536
CLK_ENG cycles counts one priority higher, and no sooner. CONTEXT_RELEASE frees a FAULTED context and no other.
STOP_RAMP: an array idle for 64 cycles begins its stop ramp; one that stops already or is not fully enabled is left
alone; row r of a ramp of R cycles is enabled or disabled at cycle r R / 64, rounded down. -/
def Obligations.ContextsScheduled : Prop :=
  (∀ (eng : Nat) (x : Ctx) (s : State),
     eng < s.engines.length →
     (s.eng eng).domain.powered = true →
     (s.eng eng).grantable = some x →
     s.ctx? eng x.idx = some x →
     tWaitEn x.words = false →
     answers (.slotGrant eng) s fun u => ∃ y, u.ctx? eng x.idx = some y ∧
       y = { x.clear with granted := true, state := .ready, waited := true, readySince := s.now }) ∧
  (∀ (eng : Nat) (x : Ctx) (s : State),
     eng < s.engines.length →
     (s.eng eng).domain.powered = true →
     (s.eng eng).grantable = some x →
     s.ctx? eng x.idx = some x →
     x.combining = false →
     tWaitEn x.words = true →
     answers (.slotGrant eng) s fun u => ∃ y, u.ctx? eng x.idx = some y ∧ y.granted = true ∧
       (s.counter (tWaitCtr x.words) < tWaitVal x.words → y.state = .waitDep) ∧
       (tWaitVal x.words ≤ s.counter (tWaitCtr x.words) → y.state = .ready)) ∧
  (∀ (eng n : Nat) (x : Ctx) (s : State),
     eng < s.engines.length →
     (s.eng eng).domain.powered = true →
     (s.eng eng).nextReady = some x →
     s.ctx? eng x.idx = some x →
     readsHost x.words = false →
     s.stepSlots x.words x.steps = n →
     x.slotsHeld + n ≤ 64 →
     (s.eng eng).slotsUsed + n ≤ 128 →
     answers (.fetchStepIssue eng) s fun u => ∃ y, u.ctx? eng x.idx = some y ∧ y.steps = x.steps + 1 ∧ y.done = x.done ∧
       y.slotsHeld = x.slotsHeld + n ∧ y.aged = false ∧ y.words = x.words) ∧
  (∀ (eng n : Nat) (x : Ctx) (s : State),
     eng < s.engines.length →
     (s.eng eng).domain.powered = true →
     (s.eng eng).nextReady = some x →
     s.ctx? eng x.idx = some x →
     readsHost x.words = false →
     s.stepSlots x.words x.steps = n →
     (64 < x.slotsHeld + n ∨ 128 < (s.eng eng).slotsUsed + n) →
     answers (.fetchStepIssue eng) s fun u => ∃ y, u.ctx? eng x.idx = some y ∧ y = { x with state := .waitMem, starved := true }) ∧
  (∀ (eng ctx : Nat) (x : Ctx) (s : State),
     eng < s.engines.length →
     s.ctx? eng ctx = some x →
     x.state = .ready →
     answers (.priorityAging eng ctx) s fun u => ∃ y, u.ctx? eng ctx = some y ∧
       y = { x with aged := x.aged || decide (65536 * (s.eng eng).div ≤ 48 * (s.now - x.readySince)) }) ∧
  (∀ (eng ctx : Nat) (x : Ctx) (s : State),
     eng < s.engines.length →
     s.ctx? eng ctx = some x →
     x.state = .faulted →
     answers (.contextRelease eng ctx) s fun u => u.ctx? eng ctx = none ∧ u.jobs = s.jobs ∧
       ∀ i, i ≠ ctx → u.ctx? eng i = s.ctx? eng i) ∧
  (∀ (eng ctx : Nat) (x : Ctx) (s : State),
     s.ctx? eng ctx = some x →
     x.state ≠ .faulted →
     exec (.contextRelease eng ctx) s = .next s) ∧
  (∀ (eng : Nat) (s : State),
     eng < s.engines.length →
     (s.eng eng).ramp.up = true →
     (s.eng eng).rowsOn s.now = 64 →
     answers (.stopRamp eng) s fun u => (u.eng eng).ramp =
       if 64 * (s.eng eng).div ≤ 48 * (s.now - (s.eng eng).idleSince) then { (s.eng eng).ramp with up := false, base := 64, since := s.now }
       else (s.eng eng).ramp) ∧
  (∀ (eng : Nat) (s : State),
     ((s.eng eng).ramp.up = false ∨ (s.eng eng).rowsOn s.now ≠ 64) →
     exec (.stopRamp eng) s = .next s) ∧
  (∀ (len c r : Nat),
     0 < len →
     r < 64 →
     r < rampRows len c ↔ r * len / 64 < c)

/-- FETCH_STEP_COMPLETE without an error: an ARRAY task's step adds its groups to the accumulators in the order of
R64, one step more is done, and the array is on, a stop ramp turned round from the rows still enabled at the same
rate; a span task's step finishes one token. An uncorrectable read, a lost link, a local-store error, a parity error
and a write error make the context FAULTED with its cause and end the job with the status of R115. The checksums of a
group hold where every cell is right, and show any one cell that is wrong; a mismatch is recorded and the task starts
again, and the third within 10 ms maps the engine out. SUMP_UNIT_GRANT: the append that waited longest goes on with
its unit. APPEND_TIMEOUT: after 1 ms without a unit the job ends RESOURCE_EXHAUSTED, and not before. -/
def Obligations.StepsCompleteOrFault : Prop :=
  (∀ (eng ctx : Nat) (x : Ctx) (s : State),
     eng < s.engines.length →
     (s.eng eng).domain.powered = true →
     s.ctx? eng ctx = some x →
     x.state ≠ .faulted →
     x.done < x.steps →
     x.awaitUnit = none →
     tKind x.words = 0 →
     isAttn x.words = false →
     ((s.stepReads x).all fun r => (s.badWords r.1 r.2).isEmpty) = true →
     (s.readGroups x).any Group.poisoned = false →
     s.fetchReach x = true →
     s.readsOk eng x = true →
     x.done < s.baseSteps x.words →
     x.done + 1 ≠ s.totalSteps x.words →
     answers (.fetchStepComplete eng ctx .clean) s fun u => ∃ y, u.ctx? eng ctx = some y ∧ y.done = x.done + 1 ∧ y.words = x.words ∧
       y.acc = (stepGroups x.words x.done).foldl
         (fun a g => (s.arrayGroup x.words x.part (((s.job? x.uid).map Job.epoch).getD 0) g a).1) x.acc ∧
       (u.eng eng).ramp = (if (s.eng eng).ramp.up then (s.eng eng).ramp else
         { up := true, len := if (s.eng eng).rowsOn s.now = 0 then (s.eng eng).rampCycles else (s.eng eng).ramp.len,
           base := (s.eng eng).rowsOn s.now, since := s.now })) ∧
  (∀ (eng ctx : Nat) (x : Ctx) (s : State),
     eng < s.engines.length →
     (s.eng eng).domain.powered = true →
     s.ctx? eng ctx = some x →
     x.state ≠ .faulted →
     x.done < x.steps →
     x.awaitUnit = none →
     tKind x.words ≠ 0 →
     ((s.stepReads x).all fun r => (s.badWords r.1 r.2).isEmpty) = true →
     (s.readGroups x).any Group.poisoned = false →
     s.fetchReach x = true →
     s.readsOk eng x = true →
     (s.spanStep eng x).isDone = true →
     answers (.fetchStepComplete eng ctx .clean) s fun u => ∃ y, u.ctx? eng ctx = some y ∧ y.done = x.done + 1 ∧
       y.written = decide (x.done + 1 = tTokens x.words)) ∧
  (∀ (eng ctx : Nat) (met : StepMet) (cause : CtxCause) (st : Nat) (x : Ctx) (j : Job) (s : State),
     eng < s.engines.length →
     (s.eng eng).domain.powered = true →
     s.ctx? eng ctx = some x →
     x.state ≠ .faulted →
     x.done < x.steps →
     x.awaitUnit = none →
     (met, cause, st) ∈ [(StepMet.uncorrectable, CtxCause.dataUncorrected, 0x50), (.linkDown, .link, 0x80), (.parity, .none, 0x60),
       (.writeError, .writeError, 0x60)] →
     s.job? x.uid = some j →
     s.recorded j →
     answers (.fetchStepComplete eng ctx met) s fun u => u.recordWaits j (firstError j.status st) j.progress ∧
       ∃ y, u.ctx? eng ctx = some y ∧ y.state = .faulted ∧ y.cause = cause ∧ y.slotsHeld = 0) ∧
  (∀ (stripe : Bool) (n row col : Nat) (delta : Int) (a b : List (List Int)),
     a.length ≤ 64 →
     b.length ≤ 64 →
     (∀ r ∈ a ++ b, r.length = n) →
     row ≤ 64 →
     col ≤ 64 →
     (stripe = false ∨ row < 64) →
     delta ≠ 0 →
     checksWith stripe a b row col 0 = true ∧ checksWith stripe a b row col delta = false) ∧
  (∀ (eng ctx group row col : Nat) (delta : Int) (a b : List (List Int)) (x : Ctx) (s : State),
     eng < s.engines.length →
     (s.eng eng).domain.powered = true →
     s.ctx? eng ctx = some x →
     x.state ≠ .faulted →
     x.done < x.steps →
     x.awaitUnit = none →
     s.stepImages (((s.job? x.uid).map Job.epoch).getD 0) x group = some (a, b) →
     checksWith (tStripe x.words) a b row col delta = false →
     x.lastChance = false →
     x.runs = 0 →
     ((s.eng eng).mismatches.filter fun t => decide (s.now ≤ t + 1000000)).length < 2 →
     answers (.fetchStepComplete eng ctx (.checksum group row col delta)) s fun u => u.reported eng 3 ∧ ∃ y, u.ctx? eng ctx = some y ∧
       y = { x.clear with state := .ready, starved := false, combining := false, steps := 0, done := 0, slotsHeld := 0, written := false
                          readySince := s.now, runs := 1 }) ∧
  (∀ (eng ctx group row col : Nat) (delta : Int) (a b : List (List Int)) (x : Ctx) (s : State),
     eng < s.engines.length →
     (s.eng eng).domain.powered = true →
     s.ctx? eng ctx = some x →
     x.state ≠ .faulted →
     x.done < x.steps →
     x.awaitUnit = none →
     s.stepImages (((s.job? x.uid).map Job.epoch).getD 0) x group = some (a, b) →
     checksWith (tStripe x.words) a b row col delta = false →
     2 ≤ ((s.eng eng).mismatches.filter fun t => decide (s.now ≤ t + 1000000)).length →
     (s.eng eng).mappedOut = false →
     answers (.fetchStepComplete eng ctx (.checksum group row col delta)) s fun u => (u.eng eng).mappedOut = true ∧
       (u.eng eng).outCause = .checksum) ∧
  (∀ (part e : Nat) (x : Ctx) (s : State),
     minBy (fun w => w.2.awaitUnit.getD 0) (s.waitingAppends part) = some (e, x) →
     e < s.engines.length →
     s.ctx? e x.idx = some x →
     tKind x.words ≠ 0 →
     tWMode x.words = 1 →
     (s.spanStep e x).isDone = true →
     answers (.sumpUnitGrant part) s fun u => ∃ y, u.ctx? e x.idx = some y ∧ y.done = x.done + 1 ∧ y.awaitUnit = none) ∧
  (∀ (eng ctx t : Nat) (x : Ctx) (j : Job) (s : State),
     s.ctx? eng ctx = some x →
     x.awaitUnit = some t →
     t + 100000 ≤ s.now →
     x.state ≠ .faulted →
     s.job? x.uid = some j →
     s.recorded j →
     answers (.appendTimeout eng ctx) s fun u => u.recordWaits j (firstError j.status 0x40) j.progress) ∧
  (∀ (eng ctx t : Nat) (x : Ctx) (s : State),
     s.ctx? eng ctx = some x →
     x.awaitUnit = some t →
     s.now < t + 100000 →
     exec (.appendTimeout eng ctx) s = .next s)

/-- TASK_RETIRE of a task whose writes are acknowledged frees its context, increments the counter that it signals and
counts for its list, and the last task of a list completes the job with RESULT = the records retired. MERGE_FOLD
combines the next part into part 0 of the window; the last fold takes the merge away and signals; an uncorrectable
read ends the job DATA_UNCORRECTED. ENGINE_MAP_OUT records the cause, takes the engine from every partition and the
degraded mask, and leaves only FAULTED contexts; a second map-out changes nothing. -/
def Obligations.TasksRetireAndMerge : Prop :=
  (∀ (eng ctx next retired : Nat) (lens : List (Nat × Nat)) (records : List (List Nat)) (x : Ctx) (j : Job) (s : State),
     eng < s.engines.length →
     s.ctx? eng ctx = some x →
     x.written = true →
     x.state = .waitMem →
     x.runs = 0 →
     isMerge x.words = false →
     s.job? x.uid = some j →
     s.recorded j →
     j.state = .running →
     j.ext = .tiles records next retired lens →
     retired + 1 = records.length →
     (∀ m ∈ s.merges, m.uid ≠ x.uid) →
     answers (.taskRetire eng ctx .acknowledged) s fun u => u.ctx? eng ctx = none ∧ u.recordWaits j (j.endStatus s.now) (retired + 1)) ∧
  (∀ (eng ctx next retired : Nat) (lens : List (Nat × Nat)) (records : List (List Nat)) (x : Ctx) (j : Job) (s : State),
     eng < s.engines.length →
     s.ctx? eng ctx = some x →
     x.written = true →
     x.state = .waitMem →
     isMerge x.words = false →
     tSignalEn x.words = true →
     s.counter (tSignalCtr x.words) < 0xFFFF →
     s.job? x.uid = some j →
     j.ext = .tiles records next retired lens →
     retired + 1 < records.length →
     answers (.taskRetire eng ctx .acknowledged) s fun u => u.ctx? eng ctx = none ∧
       u.counter (tSignalCtr x.words) = s.counter (tSignalCtr x.words) + 1 ∧
       ∃ k, u.job? x.uid = some k ∧ k.ext = .tiles records next (retired + 1) lens ∧ k.finished = j.finished) ∧
  (∀ (uid : Nat) (m : Merge) (s : State),
     s.merges.find? (fun m => m.uid == uid && m.foldable) = some m →
     m.folded + 2 < m.parts →
     answers (.mergeFold uid false) s fun u => { m with folded := m.folded + 1 } ∈ u.merges ∧
       (let rows := (List.zipWith RowState.combine (s.mergeRows m 0) (s.mergeRows m (m.folded + 1))).flatMap RowState.bytes
       u.bytesAt (mergeBase + m.offset) rows.length = rows)) ∧
  (∀ (uid c : Nat) (m : Merge) (j : Job) (s : State),
     s.merges.find? (fun m => m.uid == uid && m.foldable) = some m →
     m.parts ≤ m.folded + 2 →
     m.signal = some c →
     s.counter c < 0xFFFF →
     s.job? uid = some j →
     j.state ≠ .running →
     answers (.mergeFold uid false) s fun u => m ∉ u.merges ∧ u.counter c = s.counter c + 1) ∧
  (∀ (uid : Nat) (m : Merge) (j : Job) (s : State),
     s.merges.find? (fun m => m.uid == uid && m.foldable) = some m →
     s.job? uid = some j →
     s.recorded j →
     s.faults.sramErrs.length < 15 →
     answers (.mergeFold uid true) s fun u => u.recordWaits j (firstError j.status 0x50) j.progress ∧ (∀ k ∈ u.merges, k.uid ≠ uid) ∧
       ∃ g, g < 8 ∧ u.reported (0x78 + g) 5) ∧
  (∀ (eng : Nat) (cause : OutCause) (s : State),
     s.shaped = true →
     eng < 32 →
     cause ≠ .none →
     (s.eng eng).mappedOut = false →
     answers (.engineMapOut eng cause) s fun u => (u.eng eng).mappedOut = true ∧ (u.eng eng).outCause = cause ∧
       (∀ x ∈ (u.eng eng).ctxs, x.state = .faulted) ∧ (∀ p ∈ u.parts, eng ∉ p.engines) ∧
       u.faults.engineOutMask = s.faults.engineOutMask + 2 ^ eng ∧ u.faults.enginesOut = s.faults.enginesOut + 1) ∧
  (∀ (eng : Nat) (cause : OutCause) (s : State),
     (s.eng eng).mappedOut = true →
     exec (.engineMapOut eng cause) s = .next s)

/-- DRAM_REQUEST: a request within one interleave unit and the backed granules enters its channel's queue, or is held
where the queue has no place or an earlier request of its port for the channel is held. URGENCY_CHANGE sets the port's
urgency from the age of its oldest request: CRITICAL from its target, HIGH from three quarters, ELEVATED from half; a
port that becomes CRITICAL revokes a NORMAL grant with more than 64 bytes to start. CROSSING_GRANT grants the most
urgent request, its levels of this cycle, among equals a row hit, then the oldest, and no write before an older
request that it overlaps (the model keeps acceptance order so, log entry 93); every eighth grant is reserved for the
oldest of those. A write is seen by every read from its acceptance on, and changes no other byte; a read has the bytes
that stood at its own acceptance. DRAM_READ_COMPLETE answers with them, or with an error response where a word that it
reads from the array is uncorrectable; a word whose bytes all come from pending writes is not read.
DRAM_WRITE_COMPLETE answers, and poisons a word that it covers in part and whose read is uncorrectable. -/
def Obligations.DramRequestsServed : Prop :=
  (∀ (port addr len : Nat) (write : Option (List Byte)) (r : Req) (s : State),
     port < 44 →
     1 ≤ len →
     addr / 256 = (addr + len - 1) / 256 →
     (addr + len - 1) / granuleBytes < s.dram.granulesBacked →
     (write.all fun bs => bs.length == len) = true →
     s.shaped = true →
     r = { id := s.dram.nextReq, port := port, addr := addr, len := len, write := write, arrival := s.now, scrub := false } →
     s.reqChan r < 24 →
     ((s.dport port).held.any fun h => s.reqChan h == s.reqChan r) = false →
     (s.chan (s.reqChan r)).room r = true →
     write = none →
     answers (.dramRequest port addr len write) s fun u => u.dram.nextReq = s.dram.nextReq + 1 ∧ u.mems = s.mems ∧
       (u.chan (s.reqChan r)).queue = (s.chan (s.reqChan r)).queue ++ [{ r with snap := s.bytesAt addr len }] ∧
       (u.chan (s.reqChan r)).powerDown = false ∧
       (u.dport port).order = (s.dport port).order ++ [r.id] ∧ (u.dport port).held = (s.dport port).held) ∧
  (∀ (port addr len : Nat) (write : Option (List Byte)) (bs : List Byte) (r : Req) (s : State),
     port < 44 →
     1 ≤ len →
     addr / 256 = (addr + len - 1) / 256 →
     (addr + len - 1) / granuleBytes < s.dram.granulesBacked →
     (write.all fun bs => bs.length == len) = true →
     s.shaped = true →
     r = { id := s.dram.nextReq, port := port, addr := addr, len := len, write := write, arrival := s.now, scrub := false } →
     s.reqChan r < 24 →
     ((s.dport port).held.any fun h => s.reqChan h == s.reqChan r) = false →
     (s.chan (s.reqChan r)).room r = true →
     write = some bs →
     answers (.dramRequest port addr len write) s fun u => (u.chan (s.reqChan r)).queue = (s.chan (s.reqChan r)).queue ++ [r] ∧
       u.bytesAt addr len = bs ∧ (∀ a, (a < addr ∨ addr + len ≤ a) → u.byte a = s.byte a) ∧
       (∀ w ∈ u.dram.poisoned, covers addr len w = false) ∧ (u.dport port).order = (s.dport port).order ++ [r.id]) ∧
  (∀ (port addr len : Nat) (write : Option (List Byte)) (r : Req) (s : State),
     port < 44 →
     1 ≤ len →
     addr / 256 = (addr + len - 1) / 256 →
     (addr + len - 1) / granuleBytes < s.dram.granulesBacked →
     (write.all fun bs => bs.length == len) = true →
     s.shaped = true →
     r = { id := s.dram.nextReq, port := port, addr := addr, len := len, write := write, arrival := s.now, scrub := false } →
     s.reqChan r < 24 →
     (s.chan (s.reqChan r)).room r = false →
     answers (.dramRequest port addr len write) s fun u => (u.dport port).held = (s.dport port).held ++ [r] ∧
       (u.chan (s.reqChan r)).queue = (s.chan (s.reqChan r)).queue) ∧
  (∀ (port : Nat) (r : Req) (s : State),
     s.shaped = true →
     port < 44 →
     minBy Req.arrival ((s.outstanding port).filter fun r => !r.scrub) = some r →
     answers (.urgencyChange port) s fun u =>
       ((u.dport port).urgency = 3 ↔ (s.dport port).targetNs ≤ 10 * (s.now - r.arrival)) ∧
       (2 ≤ (u.dport port).urgency ↔ (3 * (s.dport port).targetNs ≤ 40 * (s.now - r.arrival) ∨
         (s.dport port).targetNs ≤ 10 * (s.now - r.arrival))) ∧
       ((u.dport port).urgency = 0 ↔ 20 * (s.now - r.arrival) < (s.dport port).targetNs)) ∧
  (∀ (port ch : Nat) (g : Grant) (r q : Req) (s : State),
     s.shaped = true →
     port < 44 →
     ch < 24 →
     s.urgencyNow port = 3 →
     (s.chan ch).grant = some g →
     ((s.chan ch).queue.find? fun x => x.id == g.req) = some r →
     (r.scrub = true ∨ s.urgencyNow r.port = 0) →
     g.reserved = false →
     64 < bytesLeft r g s.now →
     (s.chan ch).queue.contains q = true →
     q.port = port →
     q.scrub = false →
     answers (.urgencyChange port) s fun u => (u.dport port).urgency = 3 ∧ (u.chan ch).grant = none) ∧
  (∀ (ch : Nat) (s : State),
     s.shaped = true →
     ch < 24 →
     (s.chan ch).grant = none →
     (s.chan ch).active = true →
     (s.chan ch).queue ≠ [] →
     (s.chan ch).grantCount % 8 ≠ 7 →
     answers (.crossingGrant ch) s fun u => ∃ r ∈ (s.chan ch).queue,
       (u.chan ch).grant = some { req := r.id, reserved := false, started := s.now } ∧ (u.chan ch).grantCount = (s.chan ch).grantCount + 1 ∧
       (r.write.isSome = true → ∀ q ∈ (s.chan ch).queue.takeWhile fun q => q != r, r.conflicts q = false) ∧
       ∀ q ∈ grantable [] (s.chan ch).queue, s.evalUrgency.reqUrgency q ≤ s.evalUrgency.reqUrgency r ∧
         (s.evalUrgency.reqUrgency q = s.evalUrgency.reqUrgency r → s.hits ch q = true → s.hits ch r = true) ∧
         (s.evalUrgency.reqUrgency q = s.evalUrgency.reqUrgency r → s.hits ch q = s.hits ch r → r.arrival ≤ q.arrival)) ∧
  (∀ (ch : Nat) (s : State),
     s.shaped = true →
     ch < 24 →
     (s.chan ch).grant = none →
     (s.chan ch).active = true →
     (s.chan ch).queue ≠ [] →
     (s.chan ch).grantCount % 8 = 7 →
     answers (.crossingGrant ch) s fun u => ∃ r ∈ (s.chan ch).queue,
       (u.chan ch).grant = some { req := r.id, reserved := true, started := s.now } ∧
       (r.write.isSome = true → ∀ q ∈ (s.chan ch).queue.takeWhile fun q => q != r, r.conflicts q = false) ∧
       ∀ q ∈ grantable [] (s.chan ch).queue, r.arrival ≤ q.arrival) ∧
  (∀ (ch : Nat) (single bad : List Nat) (r : Req) (s : State),
     s.shaped = true →
     ch < 24 →
     s.granted ch = some r →
     r.port < 44 →
     1 ≤ r.len →
     (s.dport r.port).order.head? = some r.id →
     ((s.dport r.port).early.all fun e => e.1 != r.id) = true →
     r.write = none →
     ((wordsOf r.addr r.len).all fun w => !(bad.contains w || r.bad.contains w || s.dram.poisoned.contains w)) = true →
     (s.chan ch).queue.head? = some r →
     answers (.dramReadComplete ch single bad) s fun u =>
       (r.id, some r.snap) ∈ (u.dport r.port).answered ∧ (u.chan ch).grant = none ∧
       (u.chan ch).corrected = min 0xFFFFFFFF ((s.chan ch).corrected + ((wordsOf r.addr r.len).filter fun w => single.contains w || r.single.contains w).length)) ∧
  (∀ (ch : Nat) (single bad : List Nat) (r : Req) (s : State),
     s.shaped = true →
     ch < 24 →
     s.granted ch = some r →
     r.port < 44 →
     1 ≤ r.len →
     (s.dport r.port).order.head? = some r.id →
     ((s.dport r.port).early.all fun e => e.1 != r.id) = true →
     r.write = none →
     arrayWords ((s.chan ch).queue.takeWhile fun q => q.id != r.id) r = [] →
     answers (.dramReadComplete ch single bad) s fun u => (r.id, some r.snap) ∈ (u.dport r.port).answered) ∧
  (∀ (ch w : Nat) (single bad : List Nat) (r : Req) (s : State),
     s.shaped = true →
     ch < 24 →
     s.granted ch = some r →
     r.port < 44 →
     1 ≤ r.len →
     (s.dport r.port).order.head? = some r.id →
     ((s.dport r.port).early.all fun e => e.1 != r.id) = true →
     r.write = none →
     w ∈ arrayWords ((s.chan ch).queue.takeWhile fun q => q.id != r.id) r →
     (bad.contains w || r.bad.contains w || s.dram.poisoned.contains w) = true →
     answers (.dramReadComplete ch single bad) s fun u => (r.id, none) ∈ (u.dport r.port).answered) ∧
  (∀ (ch : Nat) (single bad : List Nat) (bs : List Byte) (r : Req) (s : State),
     s.shaped = true →
     ch < 24 →
     s.granted ch = some r →
     r.port < 44 →
     1 ≤ r.len →
     (s.dport r.port).order.head? = some r.id →
     ((s.dport r.port).early.all fun e => e.1 != r.id) = true →
     r.write = some bs →
     bs.length = r.len →
     (s.dram.ports.all fun p => p.held.all fun h => s.reqChan h != ch) = true →
     answers (.dramWriteComplete ch single bad) s fun u => u.mems = s.mems ∧ (r.id, some []) ∈ (u.dport r.port).answered ∧
       ∀ w, w ∈ u.dram.poisoned ↔
         w ∈ s.dram.poisoned ∨ w ∈ wordsOf r.addr r.len ∧ covers r.addr r.len w = false ∧ bad.contains w = true)

/-- PATROL_SCRUB issues the read of the next unit of an active channel on port 42, with the errors that the array
holds there. PER_BANK_REFRESH refreshes the next bank when its interval is over, and not before. REFRESH_MANAGEMENT is
honoured at once. TEMP_READOUT sets multipliers and throttling and reports a package that becomes too hot. DRIFT_TRACK
adds the drift. CHANNEL_RETRAIN, after 16 uncorrectable errors within 1 s or when the drift leaves less than 8 ps to
an end of a passing range of a read or write delay, clears the channel's drift and errors with ranges of at least 26
ps, each of steps 2 to 4 in at most two attempts and step 1's kept, or maps it out. CHANNEL_MAP_OUT takes the channel
from the active set, fails its requests and faults the device below 16 channels. POWER_DOWN_ENTRY acts after 1 us
without a request. DRAM_TRAIN_GO runs a helper, refuses a channel above 23, and does nothing without the expert
privilege. DRAM_TRAINING activates the working channels. -/
def Obligations.DramUpkeep : Prop :=
  (∀ (ch : Nat) (single bad : List Nat) (s : State),
     s.shaped = true →
     (s.chan ch).active = true →
     ch < 24 →
     answers (.patrolScrub ch (s.chan ch).scrubNext single bad) s fun u =>
       (u.chan ch).scrubNext = ((s.chan ch).scrubNext + 1) % 15728640 ∧ ∃ r ∈ u.outstanding 42, r.id = s.dram.nextReq ∧ r.len = 256 ∧
       r.write = none ∧ r.scrub = true ∧ r.single = single ∧ r.bad = bad ∧
       r.addr = unitAddr s.activeChans ((s.activeChans.findIdx? fun n => n == ch).getD 0) (s.chan ch).scrubNext) ∧
  (∀ (ch unit : Nat) (single bad : List Nat) (s : State),
     unit ≠ (s.chan ch).scrubNext →
     exec (.patrolScrub ch unit single bad) s = .next s) ∧
  (∀ (ch : Nat) (s : State),
     s.shaped = true →
     (s.chan ch).active = true →
     488 ≤ 10 * (s.now - (s.chan ch).lastRefresh) * s.dram.mult.getD (ch / 4) 1 →
     answers (.perBankRefresh ch) s fun u => (u.chan ch).nextBank = ((s.chan ch).nextBank + 1) % 16 ∧
       (u.chan ch).lastRefresh = s.now ∧ (u.chan ch).refreshes = (s.chan ch).refreshes + 1 ∧
       ∀ o ∈ (u.chan ch).openRows, o.2.1 ≠ (s.chan ch).nextBank) ∧
  (∀ (ch : Nat) (s : State),
     10 * (s.now - (s.chan ch).lastRefresh) * s.dram.mult.getD (ch / 4) 1 < 488 →
     exec (.perBankRefresh ch) s = .next s) ∧
  (∀ (ch bank : Nat) (s : State),
     s.shaped = true →
     (s.chan ch).active = true →
     answers (.refreshManagement ch bank) s fun u => (u.chan ch).rfm = (s.chan ch).rfm + 1 ∧
       ∀ o ∈ (u.chan ch).openRows, ¬(o.2.1 = bank % 16 ∧ o.1 = bank / 16)) ∧
  (∀ (readings : List (Nat × Bool)) (k : Nat) (s : State),
     readings.length = 6 →
     ((List.range 6).filter fun i => (readings.getD i (1, false)).2 && !s.dram.overTemp.getD i false) = [k] →
     answers (.tempReadout readings) s fun u => u.dram.overTemp = readings.map Prod.snd ∧
       u.dram.mult = readings.map (fun x => max 1 x.1) ∧ u.power.dramHot = true ∧ u.reported (0x20 + 4 * k) 0xB) ∧
  (∀ (ch : Nat) (drift : Int) (s : State),
     s.shaped = true →
     (s.chan ch).active = true →
     s.cpRunning 2 = true →
     answers (.driftTrack ch drift) s fun u => (u.chan ch).drift = (s.chan ch).drift + drift) ∧
  (∀ (ch : Nat) (steps : List (List Sweep)) (ws : List Sweep) (s : State),
     s.shaped = true →
     (s.chan ch).active = true →
     s.cpRunning 2 = true →
     s.mustRetrain ch = true →
     trainSteps 2 steps = some ws →
     exec (.channelRetrain ch steps) s = .next (s.modChan ch fun c => { c with
       drift := 0, errTimes := [], retrains := c.retrains + 1, trained := c.trained.take 1 ++ ws }) ∧
     ws.length = 3 ∧ ∀ w ∈ ws, ∀ x ∈ w.delays, 26 ≤ x.2 - x.1) ∧
  (∀ (ch : Nat) (steps : List (List Sweep)) (s : State),
     s.shaped = true →
     (s.chan ch).active = true →
     s.cpRunning 2 = true →
     s.mustRetrain ch = true →
     trainSteps 2 steps = none →
     answers (.channelRetrain ch steps) s fun u => u.activeChans = s.activeChans.filter fun c => c != ch) ∧
  (∀ (k : Nat) (steps : List (List Sweep)),
     k < 3 →
     (((steps.getD k []).take 2).any fun w => Sweep.shaped w (k + 2) && Sweep.passes w) = false →
     trainSteps 2 steps = none) ∧
  (∀ (ch : Nat) (steps : List (List Sweep)) (s : State),
     s.mustRetrain ch = false →
     exec (.channelRetrain ch steps) s = .next s) ∧
  (∀ (lo hi : Int) (c : Chan),
     (lo, hi) ∈ c.rwDelays →
     ((lo + hi) / 2 + c.drift < lo + 8 ∨ hi - 8 < (lo + hi) / 2 + c.drift) →
     c.drifted = true) ∧
  (∀ (ch : Nat) (s : State),
     s.shaped = true →
     (s.chan ch).active = true →
     s.dev.ready = true →
     answers (.channelMapOut ch) s fun u => u.activeChans = (s.activeChans.filter fun c => c != ch) ∧
       (u.chan ch).queue = [] ∧ (u.chan ch).grant = none ∧ u.faults.channelsOut = s.faults.channelsOut + 1 ∧
       u.dram.granulesBacked = backedGranules (s.activeChans.length - 1) ∧ (s.activeChans.length ≤ 16 → u.dev.fault = true)) ∧
  (∀ (ch : Nat) (s : State),
     s.shaped = true →
     (s.chan ch).active = true →
     (s.chan ch).queue = [] →
     (s.chan ch).idleSince + 100 ≤ s.now →
     answers (.powerDownEntry ch) s fun u => u.chan ch = { s.chan ch with powerDown := true }) ∧
  (∀ (ch : Nat) (s : State),
     s.now < (s.chan ch).idleSince + 100 →
     exec (.powerDownEntry ch) s = .next s) ∧
  (∀ (value : Word) (s : State),
     s.reaches .pf = true →
     (s.part 0).expert = true →
     bit 31 value.toNat = true →
     24 ≤ bits 4 0 value.toNat →
     answers (.dramTrainGo .pf value) s fun u => u.dram.trainResult = 0x20000 ∧ u.free = s.free) ∧
  (∀ (value : Word) (s : State),
     s.reaches .pf = true →
     (s.part 0).expert = true →
     bit 31 value.toNat = true →
     bits 4 0 value.toNat < 24 →
     (s.chan (bits 4 0 value.toNat)).active = false →
     answers (.dramTrainGo .pf value) s fun u => bit 16 u.dram.trainResult.toNat = true ∧ bit 17 u.dram.trainResult.toNat = false ∧
       (bits 15 0 u.dram.trainResult.toNat = 0 ↔ bits 31 18 u.dram.trainResult.toNat = 0)) ∧
  (∀ (value : Word) (s : State),
     (s.part 0).expert = false →
     exec (.dramTrainGo .pf value) s = .next s) ∧
  (∀ (found : List ChanTraining) (s : State),
     s.shaped = true →
     s.dev.stage = .training →
     s.dram.trained = false →
     s.cpRunning 2 = true →
     answers (.dramTraining found) s fun u => u.dram.trained = true ∧
       u.activeChans = ((List.range 24).filter fun n => (found[n]?.bind ChanTraining.result).isSome) ∧
       u.faults.channelsOut = ((List.range 24).filter fun n => (found[n]?.bind ChanTraining.result).isNone).length ∧
       u.dram.granulesBacked = backedGranules u.activeChans.length ∧ (u.activeChans.length < 16 → u.dev.fault = true))

/-- DMA_RAW: a descriptor that fails a structural check of R315 or R318 is out of range when it is taken (its record
is that of DescriptorTaken); a range outside the partition's DRAM, host memory and resident areas ends the job
ACCESS_DENIED with RESULT 0; a good one runs and its transfer stands in the channel, from the byte after those moved
before a suspension, and one with nothing left to move completes. SIPHON_BURST_ISSUE: of the ready channels one of the
greatest priority moves one burst, its bytes appear at the destination, and every other ready channel counts one grant
passed; a transfer to a host window that may not be reached stops with LINK_DOWN; a transfer of Kadon's own advances.
SIPHON_TRANSFER_COMPLETE completes the job with LEN in RESULT, or the transfer's error status with the bytes moved; a
withdrawn transfer only leaves. SIPHON_AGING raises a channel passed 4,096 times and no other. SIPHON_ERROR gives a
transfer the status of what it met: the active one's read, the write of the one that has writes out, either of two
that have (log entry 131), and nothing where there is none. -/
def Obligations.DmaRawAndBursts : Prop :=
  (∀ (ws : List Nat),
     dOpcode ws = 0x31 →
     dmaValid (addr48 ws 4) (addr48 ws 6) (wordAt ws 8) (wordAt ws 9) = false →
     bodyInRange ws = false) ∧
  (∀ (uid : Nat) (j : Job) (a b : Fmt) (s : State),
     s.starts uid 0x31 j →
     s.recorded j →
     j.ext = .none →
     xSrc (wordAt j.words 9) = some a →
     xDst (wordAt j.words 9) = some b →
     ((s.started uid 0x31).dmaReach j.part (addr48 j.words 4) (wordAt j.words 8) &&
       (s.started uid 0x31).dmaReach j.part (addr48 j.words 6) (xExtent (wordAt j.words 9) (wordAt j.words 8) a b)) = false →
     answers (.dmaRaw uid) s fun u => u.recordWaits j (firstError j.status 0x31) 0) ∧
  (∀ (uid start acked : Nat) (j : Job) (a b : Fmt) (s : State),
     s.starts uid 0x31 j →
     xSrc (wordAt j.words 9) = some a →
     xDst (wordAt j.words 9) = some b →
     ((j.ext = .none ∧ start + acked = 0 ∧ (s.started uid 0x31).dmaReach j.part (addr48 j.words 4) (wordAt j.words 8) = true ∧ (s.started uid 0x31).dmaReach j.part (addr48 j.words 6) (xExtent (wordAt j.words 9) (wordAt j.words 8) a b) = true) ∨ j.ext = .dma start acked) →
     start + acked < wordAt j.words 8 →
     s.shaped = true →
     wordAt j.words 3 < 16 →
     (s.sch (wordAt j.words 3)).active = none →
     (s.sch (wordAt j.words 3)).shadow = none →
     (s.sch (wordAt j.words 3)).queue = [] →
     answers (.dmaRaw uid) s fun u => (∃ k, u.job? uid = some k ∧ k.state = .running ∧ k.ext = .dma (start + acked) 0) ∧
       (u.sch (wordAt j.words 3)).active = some
         { uid := j.uid, part := j.part, prio := j.prio, src := addr48 j.words 4, dst := addr48 j.words 6, len := wordAt j.words 8
           transform := wordAt j.words 9, issued := start + acked, acked := start + acked, failed := none, start := start + acked
           stopped := false, own := none }) ∧
  (∀ (uid start acked : Nat) (j : Job) (s : State),
     s.starts uid 0x31 j →
     s.recorded j →
     j.ext = .dma start acked →
     wordAt j.words 8 ≤ start + acked →
     answers (.dmaRaw uid) s fun u => u.recordWaits j (j.endStatus s.now) (start + acked)) ∧
  (∀ (ch p : Nat) (x : Xfer) (a : Fmt) (s : State),
     s.shaped = true →
     s.siphonChoice = some (ch, p) →
     (s.sch ch).active = some x →
     x.own = none →
     xOp x.transform = 0 →
     xSrc x.transform = some a →
     xDst x.transform = some a →
     s.xferReach x = true →
     s.dmaOwns x.part x.src x.len = true →
     s.dmaOwns x.part x.dst x.len = true →
     s.badWords (x.src + x.issued) x.burst = [] →
     answers .siphonBurstIssue s fun u => s.chanReady (s.sch ch) = true ∧ (s.sch ch).prio = p ∧
       (∀ c, c < 16 → s.chanReady (s.sch c) = true → (s.sch c).prio ≤ p) ∧
       u.bytesAt (x.dst + x.issued) x.burst = s.bytesAt (x.src + x.issued) x.burst ∧
       (∃ y, ((u.sch ch).active = some y ∨ (u.sch ch).draining = some y) ∧ y.uid = x.uid ∧ y.issued = x.issued + x.burst) ∧
       (∀ c, c < 16 → c ≠ ch → s.chanReady (s.sch c) = true → (u.sch c).passed = (s.sch c).passed + 1) ∧
       (u.sch ch).passed = 0 ∧ (u.sch ch).aged = false) ∧
  (∀ (ch p : Nat) (x : Xfer) (s : State),
     s.shaped = true →
     s.siphonChoice = some (ch, p) →
     (s.sch ch).active = some x →
     x.own = none →
     s.xferReach x = false →
     answers .siphonBurstIssue s fun u => (u.sch ch).aged = false ∧
       ∃ y, ((u.sch ch).active = some y ∨ (u.sch ch).draining = some y) ∧ y.uid = x.uid ∧ y.failed = some 0x80) ∧
  (∀ (ch p : Nat) (x : Xfer) (s : State),
     s.shaped = true →
     s.siphonChoice = some (ch, p) →
     (s.sch ch).active = some x →
     x.own ≠ none →
     answers .siphonBurstIssue s fun u => u.mems = s.mems ∧
       ∃ y, ((u.sch ch).active = some y ∨ (u.sch ch).draining = some y) ∧ y.own = x.own ∧ y.issued = x.issued + min 256 (x.len - x.issued)) ∧
  (∀ (ch : Nat) (x : Xfer) (j : Job) (s : State),
     (s.sch ch).draining = some x →
     x.own = none →
     x.failed = none →
     x.len ≤ x.issued →
     s.job? x.uid = some j →
     j.ending = none →
     j.finished = false →
     s.recorded j →
     answers (.siphonTransferComplete ch) s fun u => u.recordWaits j (j.endStatus s.now) x.len) ∧
  (∀ (ch : Nat) (x : Xfer) (j : Job) (s : State),
     (s.sch ch).draining = some x →
     x.own = none →
     x.failed = none →
     x.issued < x.len →
     s.job? x.uid = some j →
     answers (.siphonTransferComplete ch) s fun u => u.jobs = s.jobs) ∧
  (∀ (ch st : Nat) (x : Xfer) (j : Job) (s : State),
     (s.sch ch).draining = some x →
     x.own = none →
     x.failed = some st →
     s.job? x.uid = some j →
     j.ending = none →
     j.finished = false →
     s.recorded j →
     answers (.siphonTransferComplete ch) s fun u => u.recordWaits j (firstError j.status st) x.acked) ∧
  (∀ (ch : Nat) (s : State),
     s.shaped = true →
     ch < 16 →
     s.chanReady (s.sch ch) = true →
     4096 ≤ (s.sch ch).passed →
     answers (.siphonAging ch) s fun u => u.sch ch = { s.sch ch with aged := true } ∧ (u.sch ch).prio = min 3 (((s.sch ch).active.map Xfer.prio).getD 0 + 1)) ∧
  (∀ (ch : Nat) (s : State),
     (s.chanReady (s.sch ch) = false ∨ (s.sch ch).passed < 4096) →
     exec (.siphonAging ch) s = .next s) ∧
  (∀ (ch : Nat) (met : SiphonMet) (x : Xfer) (s : State),
     s.shaped = true →
     ch < 16 →
     (s.sch ch).active = some x →
     (met = .readBad ∨ (s.sch ch).draining = none) →
     answers (.siphonError ch met) s fun u => ∃ y, ((u.sch ch).active = some y ∨ (u.sch ch).draining = some y) ∧ y.uid = x.uid ∧
       y.failed = some (match met with | .readBad => 0x50 | .linkDown => 0x80 | .writeError => 0x60)) ∧
  (∀ (ch : Nat) (met : SiphonMet) (d : Xfer) (s : State),
     s.shaped = true →
     ch < 16 →
     (s.sch ch).active = none →
     (s.sch ch).draining = some d →
     met ≠ .readBad →
     answers (.siphonError ch met) s fun u => (u.sch ch).draining = some
       { d with failed := some (d.failed.getD (match met with | .readBad => 0x50 | .linkDown => 0x80 | .writeError => 0x60)) }) ∧
  (∀ (ch : Nat) (met : SiphonMet) (x d : Xfer) (s : State),
     s.shaped = true →
     ch < 16 →
     (s.sch ch).active = some x →
     (s.sch ch).draining = some d →
     met ≠ .readBad →
     answers (.siphonError ch met) s fun u =>
       let st := match met with | .readBad => 0x50 | .linkDown => 0x80 | .writeError => 0x60
       ((u.sch ch).active = some x ∧ (u.sch ch).draining = some { d with failed := some (d.failed.getD st) }) ∨
       ((u.sch ch).active = some { x with failed := some st } ∧ (u.sch ch).draining = some d)) ∧
  (∀ (ch : Nat) (met : SiphonMet) (s : State),
     (s.sch ch).active = none →
     (met = .readBad ∨ (s.sch ch).draining = none) →
     exec (.siphonError ch met) s = .next s)

/-- CREATE_PARTITION: a request that a check refuses completes with that check's status; a good one for a partition
that is not confidential completes with its number, makes it valid with its privileges, quota and granules, moves its
queue pairs, and takes quota and granules from PT0. DESTROY_PARTITION refuses partition 0 and an absent one; else the
partition is absent, its queue pairs, disabled, its granules, its quota and its volumes belong to PT0, confidential
volumes sealed. ATTEST writes the report of 1,808 bytes, whose first 1,712 are the body with the nonce, and completes
with 1,808. QUANTUM_EXPIRY: when the quantum is over and another sharer has a task placed, that partition holds the
engine and no context of another stays; before, nothing changes. -/
def Obligations.PartitionsMadeAndEnded : Prop :=
  (∀ (uid st : Nat) (h : List Nat) (vs : List (List Nat)) (j : Job) (s : State),
     s.starts uid 0x40 j →
     s.recorded j →
     (s.started uid 0x40).wordsAt (cpArg j.words) 16 = h →
     (List.range (hVols h)).map (fun i => (s.started uid 0x40).wordsAt (cpArg j.words + 64 + 16 * i) 4) = vs →
     (s.started uid 0x40).anyBlocked j [(cpArg j.words, 64), (cpArg j.words + 64, 16 * hVols h)] = none →
     (s.started uid 0x40).createCheck j h vs = .inl st →
     answers (.createPartition uid) s fun u => u.recordWaits j (firstError j.status st) noResult ∧ u.parts = (s.started uid 0x40).parts) ∧
  (∀ (uid p : Nat) (h : List Nat) (vs : List (List Nat)) (plan : VolPlan) (j : Job) (s : State),
     s.starts uid 0x40 j →
     s.recorded j →
     (s.started uid 0x40).wordsAt (cpArg j.words) 16 = h →
     (List.range (hVols h)).map (fun i => (s.started uid 0x40).wordsAt (cpArg j.words + 64 + 16 * i) 4) = vs →
     (s.started uid 0x40).anyBlocked j [(cpArg j.words, 64), (cpArg j.words + 64, 16 * hVols h)] = none →
     (s.started uid 0x40).createCheck j h vs = .inr plan →
     (s.started uid 0x40).keyCheck false h vs = none →
     ((s.started uid 0x40).eraseGone plan.gone).1 = true →
     s.shaped = true →
     cpPart j.words = p →
     p ≠ 0 →
     cpConf j.words = false →
     answers (.createPartition uid) s fun u => u.recordWaits j (j.endStatus s.now) p ∧
       (u.part p).valid = true ∧ (u.part p).conf = false ∧ (u.part p).expert = bit 9 (wordAt j.words 3) ∧
       (u.part p).powerPriv = bit 10 (wordAt j.words 3) ∧ (u.part p).share = hShare h ∧ (u.part p).engines = cpEngines j.words ∧
       (u.part p).sumpQuota = hSump h ∧ (u.part 0).sumpQuota = (s.part 0).sumpQuota - hSump h ∧
       (u.part p).granules.length = cpGranules j.words ∧
       (∀ g ∈ (u.part p).granules, g ∈ (s.part 0).granules ∧ g ∉ (u.part 0).granules) ∧
       ∀ n, n < 64 → (u.qp n).part = if cpQp j.words n then p else (s.qp n).part) ∧
  (∀ (uid : Nat) (j : Job) (s : State),
     s.starts uid 0x41 j →
     s.recorded j →
     (bits 2 0 (wordAt j.words 3) = 0 ∨ (s.part (bits 2 0 (wordAt j.words 3))).valid = false) →
     answers (.destroyPartition uid) s fun u => u.recordWaits j (firstError j.status 0x30) noResult) ∧
  (∀ (uid p : Nat) (j : Job) (s : State),
     s.starts uid 0x41 j →
     s.recorded j →
     s.shaped = true →
     bits 2 0 (wordAt j.words 3) = p →
     p ≠ 0 →
     (s.part p).valid = true →
     j.part ≠ p →
     (s.qp j.qp).part ≠ p →
     answers (.destroyPartition uid) s fun u => (∃ n, u.recordWaits j (j.endStatus s.now) n) ∧ u.part p = Part.absent ∧
       (∀ n, n < 64 → (s.qp n).part = p → (u.qp n).part = 0 ∧ (u.qp n).enabled = false) ∧
       (∀ g ∈ (s.part p).granules, g ∈ (u.part 0).granules) ∧
       (u.part 0).sumpQuota = (s.part 0).sumpQuota + (s.part p).sumpQuota ∧
       ∀ v ∈ s.flash.volumes, v.owner = p → { v with owner := 0, sealed := v.conf } ∈ u.flash.volumes) ∧
  (∀ (uid : Nat) (j : Job) (s : State),
     s.starts uid 0x42 j →
     s.recorded j →
     (s.started uid 0x42).blocked j (addr48 j.words 4) 32 = none →
     (s.started uid 0x42).blockedOut j (addr48 j.words 6) 1808 = none →
     answers (.attest uid) s fun u => u.recordWaits j (j.endStatus s.now) 1808 ∧
       u.bytesAt (addr48 j.words 6) 1712 =
         (s.started uid 0x42).reportBody j.part ((s.started uid 0x42).bytesAt (addr48 j.words 4) 32) ∧
       u.bytesAt (addr48 j.words 6 + 1680) 32 = (s.started uid 0x42).bytesAt (addr48 j.words 4) 32) ∧
  (∀ (eng p r : Nat) (s : State),
     s.shaped = true →
     eng < 32 →
     (s.eng eng).holder = some p →
     (s.eng eng).mappedOut = false →
     (s.eng eng).holdSince + (s.part p).quantumUs * 100 ≤ s.now →
     cyclicFind 8 p (fun r => r != p && (s.sharers eng).contains r && (s.eng eng).placed.any fun w => w.part == r) = some r →
     answers (.quantumExpiry eng) s fun u => (u.eng eng).holder = some r ∧ (u.eng eng).holdSince = s.now ∧
       (∀ x ∈ (u.eng eng).ctxs, x.part = r) ∧ ∀ w ∈ (s.eng eng).placed, w.part ≠ r → w ∈ (u.eng eng).placed) ∧
  (∀ (eng p : Nat) (s : State),
     (s.eng eng).holder = some p →
     s.now < (s.eng eng).holdSince + (s.part p).quantumUs * 100 →
     ((s.eng eng).ctxs.any fun x => x.part == p) = true →
     exec (.quantumExpiry eng) s = .next s)

/-- CP_BOOT_GO in WAIT_KADON: a length that is no multiple of 4,096 gives 3, a bundle that cannot be read 6, another
refused one its check's code; a good one runs on all four processors, the stage is training and the outcome 2,
announced by MSI-X entry 63. In another stage nothing happens. FW_UPDATE: a refused bundle ends the job with its
status; a confirmed one gives every target the bundle's version and completes with TARGET; another outcome ends the
job with its status and RESULT: targets that were not quiescent go on, those not confirmed run their old images again,
and the watchdog of a target acts as it does elsewhere. CP_WATCHDOG, no sooner than 10 ms after the processor started:
it restarts, or stops at the third expiry in 10 s with DEVICE_FAULT, one record is reported, and a job that is its
only one ends DEVICE_FAULT. CP_RESTART_DONE makes it run from its verified copy. SP_WATCHDOG, no sooner than 50 ms:
secure halt, with no key, session or IDE stream left, and confidential volumes sealed. -/
def Obligations.KadonBootsAndUpdates : Prop :=
  (∀ (ok : Bool) (s : State),
     s.reaches .pf = true →
     s.dev.stage = .waitKadon →
     s.sec.cryptoBad = false →
     s.kadon.bootBytes % 4096 ≠ 0 →
     answers (.cpBootGo .pf ok) s fun u => u.kadon.bootResult = 3 ∧ u.kadon.cps = s.kadon.cps ∧ u.dev.stage = .waitKadon ∧ u.signalled .pf 63) ∧
  (∀ (ok : Bool) (s : State),
     s.reaches .pf = true →
     s.dev.stage = .waitKadon →
     s.sec.cryptoBad = false →
     s.kadon.bootBytes % 4096 = 0 →
     (ok && s.pfHostOk) = false →
     answers (.cpBootGo .pf ok) s fun u => u.kadon.bootResult = 6 ∧ u.kadon.cps = s.kadon.cps ∧ u.dev.stage = .waitKadon) ∧
  (∀ (bs : List Byte) (s : State),
     s.reaches .pf = true →
     s.dev.stage = .waitKadon →
     s.sec.cryptoBad = false →
     s.shaped = true →
     s.kadon.bootBytes % 4096 = 0 →
     s.pfHostOk = true →
     s.bytesAt (hostBase + s.kadon.bootAddr) s.kadon.bootBytes = bs →
     answers (.cpBootGo .pf true) s fun u =>
       if bundleVerdict bs s.kadon.bootBytes = 0 then u.kadon.bootResult = 2 ∧ u.dev.stage = .training ∧
         (∀ i, i < 4 → u.cpRunning i = true ∧ (u.cp i).version = (bundleEntry bs i).version ∧ (u.cp i).digest = imageDigest bs i)
       else u.kadon.bootResult = bundleVerdict bs s.kadon.bootBytes ∧ u.kadon.cps = s.kadon.cps ∧ u.dev.stage = .waitKadon) ∧
  (∀ (fn : Fn) (ok : Bool) (s : State),
     (fn ≠ .pf ∨ s.dev.stage ≠ .waitKadon) →
     exec (.cpBootGo fn ok) s = .next s) ∧
  (∀ (uid : Nat) (bs : List Byte) (j : Job) (s : State),
     s.starts uid 0x43 j →
     s.recorded j →
     (inHost (addr48 j.words 4) (wordAt j.words 6) || (s.started uid 0x43).inDram 0 (addr48 j.words 4) (wordAt j.words 6)) = true →
     (addr48 j.words 4 < hostBase ∨ (s.started uid 0x43).hostOk j.part = true) →
     (s.started uid 0x43).badWords (addr48 j.words 4) (wordAt j.words 6) = [] →
     s.shaped = true →
     (s.started uid 0x43).bytesAt (addr48 j.words 4) (wordAt j.words 6) = bs →
     answers (.fwUpdate uid .confirmed) s fun u => match (s.started uid 0x43).fwRefusal j bs with
       | some st => u.recordWaits j (firstError j.status st) noResult ∧ u.kadon = s.kadon
       | none => u.recordWaits j (j.endStatus s.now) (bits 3 0 (wordAt j.words 3)) ∧ u.sec.fwUpdates = s.sec.fwUpdates + 1 ∧
         ∀ i, i < 4 → (u.cp i).version = (if bit i (bits 3 0 (wordAt j.words 3)) then (bundleEntry bs i).version else (s.cp i).version) ∧
           (u.cp i).record = if bit i (bits 3 0 (wordAt j.words 3)) then some (s.cp i).stateVersion else (s.cp i).record) ∧
  (∀ (uid : Nat) (bs : List Byte) (j : Job) (s : State),
     s.starts uid 0x43 j →
     s.recorded j →
     (inHost (addr48 j.words 4) (wordAt j.words 6) || (s.started uid 0x43).inDram 0 (addr48 j.words 4) (wordAt j.words 6)) = true →
     (addr48 j.words 4 < hostBase ∨ (s.started uid 0x43).hostOk j.part = true) →
     (s.started uid 0x43).badWords (addr48 j.words 4) (wordAt j.words 6) = [] →
     (s.started uid 0x43).bytesAt (addr48 j.words 4) (wordAt j.words 6) = bs →
     answers (.fwUpdate uid .notQuiescent) s fun u => u.kadon = s.kadon ∧ match (s.started uid 0x43).fwRefusal j bs with
       | some e => u.recordWaits j (firstError j.status e) noResult
       | none => u.recordWaits j (firstError j.status 0x40) 0x10) ∧
  (∀ (uid : Nat) (bs : List Byte) (j : Job) (s : State),
     s.starts uid 0x43 j →
     s.recorded j →
     (inHost (addr48 j.words 4) (wordAt j.words 6) || (s.started uid 0x43).inDram 0 (addr48 j.words 4) (wordAt j.words 6)) = true →
     (addr48 j.words 4 < hostBase ∨ (s.started uid 0x43).hostOk j.part = true) →
     (s.started uid 0x43).badWords (addr48 j.words 4) (wordAt j.words 6) = [] →
     s.shaped = true →
     (s.started uid 0x43).bytesAt (addr48 j.words 4) (wordAt j.words 6) = bs →
     answers (.fwUpdate uid .notConfirmed) s fun u => match (s.started uid 0x43).fwRefusal j bs with
       | some e => u.recordWaits j (firstError j.status e) noResult ∧ u.kadon = s.kadon
       | none => u.recordWaits j (firstError j.status 0x60) 0x20 ∧ ∀ i, i < 4 → (u.cp i).version = (s.cp i).version ∧
         (u.cp i).image = (s.cp i).image ∧
         (u.cp i).record = if bit i (bits 3 0 (wordAt j.words 3)) then some (s.cp i).stateVersion else (s.cp i).record) ∧
  (∀ (uid cp : Nat) (bs : List Byte) (j : Job) (s : State),
     s.starts uid 0x43 j →
     s.recorded j →
     (inHost (addr48 j.words 4) (wordAt j.words 6) || (s.started uid 0x43).inDram 0 (addr48 j.words 4) (wordAt j.words 6)) = true →
     (addr48 j.words 4 < hostBase ∨ (s.started uid 0x43).hostOk j.part = true) →
     (s.started uid 0x43).badWords (addr48 j.words 4) (wordAt j.words 6) = [] →
     s.shaped = true →
     bit cp (bits 3 0 (wordAt j.words 3)) = true →
     cp < 4 →
     (s.started uid 0x43).bytesAt (addr48 j.words 4) (wordAt j.words 6) = bs →
     answers (.fwUpdate uid (.watchdog cp)) s fun u => match (s.started uid 0x43).fwRefusal j bs with
       | some e => u.recordWaits j (firstError j.status e) noResult ∧ u.kadon = s.kadon
       | none => (u.cp cp).expiries = min 255 ((s.cp cp).expiries + 1) ∧ (u.cp cp).version = (s.cp cp).version ∧
         if cp = 3 then u.dev.secureHalt = true ∧ (u.cp 3).state = .held
         else ((u.cp cp).state = .restarting ∨ (u.cp cp).state = .stopped) ∧ u.reported (0x58 + cp) 9) ∧
  (∀ (uid : Nat) (j : Job) (s : State),
     s.starts uid 0x43 j →
     s.recorded j →
     (inHost (addr48 j.words 4) (wordAt j.words 6) || (s.started uid 0x43).inDram 0 (addr48 j.words 4) (wordAt j.words 6)) = false →
     answers (.fwUpdate uid .confirmed) s fun u => u.recordWaits j (firstError j.status 0x60) j.progress ∧ u.kadon = s.kadon) ∧
  (∀ (cp : Nat) (s : State),
     cp < 3 →
     s.cpRunning cp = true →
     (s.cp cp).started + 1000000 ≤ s.now →
     s.shaped = true →
     ((s.cp cp).times.filter fun t => decide (s.now ≤ t + 1000000000)).length < 2 →
     answers (.cpWatchdog cp) s fun u => (u.cp cp).state = .restarting ∧ u.reported (0x58 + cp) 9 ∧
       (u.cp cp).expiries = min 255 ((s.cp cp).expiries + 1)) ∧
  (∀ (cp : Nat) (s : State),
     cp < 3 →
     s.cpRunning cp = true →
     (s.cp cp).started + 1000000 ≤ s.now →
     s.shaped = true →
     2 ≤ ((s.cp cp).times.filter fun t => decide (s.now ≤ t + 1000000000)).length →
     answers (.cpWatchdog cp) s fun u => (u.cp cp).state = .stopped ∧ u.dev.fault = true) ∧
  (∀ (cp : Nat) (j : Job) (s : State),
     cp < 3 →
     s.cpRunning cp = true →
     (s.cp cp).started + 1000000 ≤ s.now →
     s.jobs.list.filter (s.belongs cp) = [j] →
     s.recorded j →
     answers (.cpWatchdog cp) s fun u => u.recordWaits j (firstError j.status 0x60) j.progress) ∧
  (∀ (cp : Nat) (s : State),
     (s.cpRunning cp = false ∨ s.now < (s.cp cp).started + 1000000 ∨ 3 ≤ cp) →
     exec (.cpWatchdog cp) s = .next s) ∧
  (∀ (cp : Nat) (s : State),
     cp < 3 →
     s.shaped = true →
     (s.cp cp).state = .restarting →
     (s.cp cp).image ≠ [] →
     answers (.cpRestartDone cp) s fun u => u.cp cp = { s.cp cp with state := .running, started := s.now }) ∧
  (∀ (s : State),
     (s.cpRunning 3 = false ∨ s.now < (s.cp 3).started + 5000000) →
     exec .spWatchdog s = .next s) ∧
  (∀ (s : State),
     s.cpRunning 3 = true →
     (s.cp 3).started + 5000000 ≤ s.now →
     s.shaped = true →
     answers .spWatchdog s fun u => u.dev.secureHalt = true ∧ u.smbus.alert = true ∧ (u.cp 3).state = .held ∧
       (∀ q ∈ u.parts, q.key = []) ∧ u.link.sessions = [] ∧ u.link.sessKeys = [] ∧ u.link.ideKeys = List.replicate 8 [] ∧ u.link.ide = List.replicate 8 false ∧
       ∀ v ∈ u.flash.volumes, v.conf = true → v.owner = 0 ∧ v.sealed = true)

/-- RNG_HEALTH_FAIL while serving: the generator stops, the first re-test runs, one record is reported.
RNG_RETEST_END: a passed re-test serves the queue in order; a failed one starts the next; the third failed one ends in
FAILED with the queue empty and one record. RNG_RETEST in FAILED starts one test whose failure leads back; otherwise
it does nothing. DRBG_RESEED is due after 2^20 requests or 1 s, and not before. CRYPTO_SEGMENT serves 4 KiB of the
next requester's message in turn: a finished message leaves, an unfinished one goes behind the others. -/
def Obligations.RandomnessAndCrypto : Prop :=
  (∀ (s : State),
     s.sec.rng.state = .serving →
     answers .rngHealthFail s fun u => u.sec.rng = { s.sec.rng with state := .retesting, retests := 1 } ∧ u.reported 0x61 7) ∧
  (∀ (s : State),
     s.sec.rng.state ≠ .serving →
     exec .rngHealthFail s = .next s) ∧
  (∀ (s : State),
     s.sec.rng.state = .retesting →
     answers (.rngRetestEnd true) s fun u => u.sec.rng.state = .serving ∧ u.sec.rng.failed = false ∧ u.sec.rng.queue = [] ∧
       u.sec.rng.draws = s.sec.rng.draws + s.sec.rng.queue.length ∧ u.sec.rng.lastReseed = s.now) ∧
  (∀ (s : State),
     s.sec.rng.state = .retesting →
     s.sec.rng.retests < 3 →
     exec (.rngRetestEnd false) s = .next (s.modRng fun r => { r with retests := r.retests + 1 })) ∧
  (∀ (s : State),
     s.sec.rng.state = .retesting →
     3 ≤ s.sec.rng.retests →
     answers (.rngRetestEnd false) s fun u => u.sec.rng = { s.sec.rng with state := .failed, failed := true, queue := [] } ∧ u.reported 0x61 7) ∧
  (∀ (s : State),
     s.reaches .pf = true →
     s.dev.ready = true →
     s.sec.rng.state = .failed →
     answers (.rngRetest .pf) s fun u => u.sec.rng = { s.sec.rng with state := .retesting, retests := 3 }) ∧
  (∀ (fn : Fn) (s : State),
     (fn ≠ .pf ∨ s.dev.ready = false ∨ s.sec.rng.state ≠ .failed) →
     exec (.rngRetest fn) s = .next s) ∧
  (∀ (s : State),
     s.sec.rng.state = .serving →
     (2 ^ 20 ≤ s.sec.rng.requests ∨ s.sec.rng.lastReseed + 100000000 ≤ s.now) →
     answers .drbgReseed s fun u => u.sec.rng = { s.sec.rng with requests := 0, lastReseed := s.now }) ∧
  (∀ (s : State),
     s.sec.rng.requests < 2 ^ 20 →
     s.now < s.sec.rng.lastReseed + 100000000 →
     exec .drbgReseed s = .next s) ∧
  (∀ (r : Nat) (c : CMsg) (s : State),
     cyclicFind 9 s.sec.lastServed (fun r => (s.sec.nextOf r).isSome) = some r →
     s.sec.nextOf r = some c →
     answers .cryptoSegment s fun u => u.sec.lastServed = r ∧ u.sec.crypto = s.sec.crypto.erase c ++
       (if c.left ≤ 4096 then [] else [{ c with left := c.left - 4096, context := true }]))

/-- LINK_TRAINED brings the link up and raises MSI-X entry 63. LINK_LOSS disables every queue pair with no record
waiting and takes nothing more. FLR_VF disables the partition's queue pairs, ends its jobs but for one whose started
flash operation is still on a die, which ends with it and without a record, masks its table and makes its stream
insecure. BAR4_ACCESS reads or writes the bytes of the granules it reaches, piece by piece; a refused read returns
ones, a refused write is dropped, each reported; a read that meets an uncorrectable word has a poisoned completion, a
write that covers one in part leaves it poisoned, and an access beyond the window does not arrive. A configuration
request to a function that is not ready completes with retry status. OWNING_FUNCTION_CHANGE disables exactly the queue
pairs of partitions whose function changes. MSIX_UNMASK and BUS_MASTER_ENABLE send the pending entries that may then
be sent. IDE_INTEGRITY_FAIL makes a secure stream insecure with one record. IDE_KM keys a stream over a session.
DOE_DISCOVERY answers. -/
def Obligations.HostLinkEvents : Prop :=
  (∀ (s : State),
     s.alive = true →
     s.link.perst = false →
     s.link.up = false →
     answers .linkTrained s fun u => u.link.up = true ∧ u.link.fnReady = (s.dev.stage != .selfTest) ∧ u.signalled .pf 63) ∧
  (∀ (s : State),
     (s.alive = false ∨ s.link.perst = true ∨ s.link.up = true) →
     exec .linkTrained s = .next s) ∧
  (∀ (s : State),
     s.alive = true →
     s.link.up = true →
     answers .linkLoss s fun u => u.link.up = false ∧ u.link.lost = true ∧ u.dev.noTake = true ∧
       ∀ n, n < 64 → (u.qp n).enabled = false ∧ (u.qp n).waiting = []) ∧
  (∀ (v : Nat) (s : State),
     s.shaped = true →
     v < 8 →
     s.reaches (.vf v) = true →
     answers (.flrVf v) s fun u => (∀ n, n < 64 → (s.qp n).part = v → (u.qp n).enabled = false) ∧
       (∀ j ∈ u.jobs.list, j.part = v → j.silent = true ∧ j.state = .cancelling ∧ u.stillOut j.uid = true) ∧ (u.fnSt (.vf v)).masked = List.range 8 ∧ u.link.ide.getD v false = false) ∧
  (∀ (fn : Fn) (offset len : Nat) (met : Bar4Met) (ps : List (Nat × Nat)) (s : State),
     s.reaches fn = true →
     1 ≤ len →
     offset + len ≤ s.bar4Size fn →
     s.bar4Target fn offset len met.ide = some ps →
     (∀ w ∈ State.bar4Words ps false, w ∉ met.bad ∧ w ∉ s.dram.poisoned) →
     answers (.bar4Access fn offset len met none) s fun u =>
       u.out.bar4 = some (ps.flatMap fun p => s.bytesAt p.1 p.2) ∧ u.out.bar4Poisoned = false ∧ u.mems = s.mems ∧
       u.dram.poisoned = s.dram.poisoned) ∧
  (∀ (fn : Fn) (offset len : Nat) (met : Bar4Met) (ps : List (Nat × Nat)) (s : State),
     s.reaches fn = true →
     1 ≤ len →
     offset + len ≤ s.bar4Size fn →
     s.bar4Target fn offset len met.ide = some ps →
     (∃ w ∈ State.bar4Words ps false, w ∈ met.bad ∨ w ∈ s.dram.poisoned) →
     answers (.bar4Access fn offset len met none) s fun u => u.out.bar4Poisoned = true ∧ u.mems = s.mems ∧
       u.dram.poisoned = s.dram.poisoned) ∧
  (∀ (fn : Fn) (offset : Nat) (met : Bar4Met) (ps : List (Nat × Nat)) (bs : List Byte) (s : State),
     s.reaches fn = true →
     1 ≤ bs.length →
     offset + bs.length ≤ s.bar4Size fn →
     s.bar4Target fn offset bs.length met.ide = some ps →
     answers (.bar4Access fn offset bs.length met (some bs)) s fun u =>
       (∀ x, (∀ p ∈ ps, x < p.1 ∨ p.1 + p.2 ≤ x) → u.byte x = s.byte x) ∧
       (ps.Pairwise (fun p q => disjoint p q = true) → (ps.flatMap fun p => u.bytesAt p.1 p.2) = bs ∧
         ∀ w ∈ State.bar4Words ps true, w ∈ met.bad → w ∈ u.dram.poisoned)) ∧
  (∀ (fn : Fn) (offset len : Nat) (met : Bar4Met) (s : State),
     s.reaches fn = true →
     1 ≤ len →
     offset + len ≤ s.bar4Size fn →
     s.bar4Target fn offset len met.ide = none →
     answers (.bar4Access fn offset len met none) s fun u => u.out.bar4 = some (List.replicate len 0xFF) ∧ u.reported 0x50 1) ∧
  (∀ (fn : Fn) (offset len : Nat) (met : Bar4Met) (bs : List Byte) (s : State),
     s.reaches fn = true →
     1 ≤ len →
     offset + len ≤ s.bar4Size fn →
     s.bar4Target fn offset len met.ide = none →
     answers (.bar4Access fn offset len met (some bs)) s fun u => u.mems = s.mems ∧ u.out.bar4 = s.out.bar4 ∧ u.reported 0x50 1) ∧
  (∀ (fn : Fn) (offset len : Nat) (met : Bar4Met) (w : Option (List Byte)) (s : State),
     s.bar4Size fn < offset + len →
     exec (.bar4Access fn offset len met w) s = .next s) ∧
  (∀ (en : Bool) (k : Nat) (found : SelfTest) (c : Instr) (s : State),
     s.link.up = true →
     s.link.fnReady = false →
     c ∈ [.owningFunctionChange en k, .busMasterEnable .pf, .msixUnmask .pf .enable, .flrPf found, .d3hotEntry, .d3hotExit found] →
     exec c s = .next { s with out := { s.out with cfgRetry := true } }) ∧
  (∀ (en : Bool) (k : Nat) (s : State),
     s.reaches .pf = true →
     answers (.owningFunctionChange en k) s fun u => u.link.vfEnable = en ∧ u.link.numVfs = min 8 k ∧
       ∀ n, n < 64 → (s.qp n).part < 8 → (u.qp n).enabled = ((s.qp n).enabled && u.ownFn (s.qp n).part == s.ownFn (s.qp n).part)) ∧
  (∀ (fn : Fn) (target : MsixTarget) (s : State),
     s.shaped = true →
     s.reaches fn = true →
     s.link.lost = false →
     (match fn with | .pf => true | .vf v => decide (v < 8)) = true →
     answers (.msixUnmask fn target) s fun u => (u.fnSt fn).masked = ((s.fnSt fn).unmask target).masked ∧
       ∀ e ∈ (s.fnSt fn).pending, ((s.fnSt fn).unmask target).sendable e = true → (fn, e) ∈ u.out.msix ∧ e ∉ (u.fnSt fn).pending) ∧
  (∀ (fn : Fn) (s : State),
     s.shaped = true →
     s.reaches fn = true →
     s.link.lost = false →
     (match fn with | .pf => true | .vf v => decide (v < 8)) = true →
     answers (.busMasterEnable fn) s fun u => (u.fnSt fn).busMaster = true ∧
       ∀ e ∈ (s.fnSt fn).pending, { s.fnSt fn with busMaster := true }.sendable e = true → (fn, e) ∈ u.out.msix) ∧
  (∀ (k : Nat) (s : State),
     s.link.ide.getD k false = true →
     answers (.ideIntegrityFail k) s fun u => u.link.ide = s.link.ide.set k false ∧ u.reported 0x50 7) ∧
  (∀ (k : Nat) (s : State),
     s.link.ide.getD k false = false →
     exec (.ideIntegrityFail k) s = .next s) ∧
  (∀ (sid k : Nat) (key : List Byte) (s : State),
     s.doeUp = true →
     s.link.sessions.contains sid = true →
     k < 8 →
     answers (.ideKm (.session sid) { stream := k, key := key }) s fun u => u.out.doe = .ideKmAck k :: s.out.doe ∧
       u.link.ide = s.link.ide.set k true ∧ u.link.ideKeys = s.link.ideKeys.set k key) ∧
  (∀ (k : IdeKey) (s : State),
     s.doeUp = true →
     answers (.ideKm .clear k) s fun u => u.out.doe = .errorInvalid :: s.out.doe ∧ u.link = s.link) ∧
  (∀ (i : Nat) (s : State),
     s.doeUp = true →
     answers (.doeDiscovery i) s fun u => u.out.doe = (if i < 3 then .discovery [0, 1, 2] else .errorInvalid) :: s.out.doe)

/-- GET_VERSION begins a connection anew; GET_CAPABILITIES answers; NEGOTIATE_ALGORITHMS agrees. Of an agreed
connection: GET_DIGESTS the digest of the chain, GET_CERTIFICATE its bytes, CHALLENGE and GET_MEASUREMENTS the data
with the nonce and a signature, KEY_EXCHANGE a new handshake, an error where four stand or the generator is not
serving; FINISH turns a handshake with a good MAC into a session; HEARTBEAT, KEY_UPDATE and END_SESSION answer in a
session, and the last ends it. Before agreement a request gets an error, and with SP halted nothing answers. The
message order and the payload layouts are the model's (log entry 24). -/
def Obligations.SpdmAnswered : Prop :=
  (∀ (s : State),
     s.doeUp = true →
     answers (.getVersion .clear) s fun u => u.out.doe = .version :: s.out.doe ∧ u.link.negotiated = false) ∧
  (∀ (s : State),
     s.doeUp = true →
     answers (.getCapabilities .clear) s fun u => u.out.doe = .capabilities :: s.out.doe ∧ u.link = s.link) ∧
  (∀ (s : State),
     s.doeUp = true →
     answers (.negotiateAlgorithms .clear true) s fun u => u.out.doe = .algorithms :: s.out.doe ∧ u.link.negotiated = true) ∧
  (∀ (via : SpdmVia) (s : State),
     s.doeUp = true →
     s.link.negotiated = true →
     s.viaOk via = true →
     answers (.getDigests via) s fun u => u.out.doe = .digests (sha384 certBytes) :: s.out.doe) ∧
  (∀ (via : SpdmVia) (offset len : Nat) (s : State),
     s.doeUp = true →
     s.link.negotiated = true →
     s.viaOk via = true →
     answers (.getCertificate via 0 offset len) s fun u => u.out.doe = (if offset < Config.certLength then .certificate ((certBytes.drop offset).take (min len doeMax)) else .errorInvalid) :: s.out.doe) ∧
  (∀ (via : SpdmVia) (nonce : List Byte) (s : State),
     s.doeUp = true →
     s.link.negotiated = true →
     s.viaOk via = true →
     answers (.challenge via 0 nonce) s fun u => u.out.doe = .challengeAuth (sha384 certBytes ++ nonce ++ signed (sha384 certBytes ++ nonce)) :: s.out.doe) ∧
  (∀ (via : SpdmVia) (i : Nat) (nonce : List Byte) (s : State),
     s.doeUp = true →
     s.link.negotiated = true →
     s.viaOk via = true →
     1 ≤ i →
     i ≤ 9 →
     answers (.getMeasurements via i nonce) s fun u => u.out.doe = .measurements (s.measurement i ++ nonce ++ signed (s.measurement i ++ nonce)) :: s.out.doe) ∧
  (∀ (key : List Byte) (s : State),
     s.doeUp = true →
     s.link.negotiated = true →
     s.link.sessions.length + s.link.handshakes.length < 4 →
     s.sec.rng.state = .serving →
     answers (.keyExchange .clear key) s fun u => u.out.doe = .keyExchangeRsp s.link.nextSid (exchangeBytes s.sec.rng.draws) :: s.out.doe ∧
       u.link.sessKeys = (s.link.nextSid, Config.sessionKey (Config.ecdheSecret s.sec.rng.draws key) key) :: s.link.sessKeys ∧
       u.link.handshakes = s.link.handshakes ++ [s.link.nextSid] ∧ u.link.nextSid = s.link.nextSid + 1) ∧
  (∀ (key : List Byte) (s : State),
     s.doeUp = true →
     s.link.negotiated = true →
     4 ≤ s.link.sessions.length + s.link.handshakes.length →
     answers (.keyExchange .clear key) s fun u => u.out.doe = .errorSessions :: s.out.doe ∧ u.link = s.link) ∧
  (∀ (key : List Byte) (s : State),
     s.doeUp = true →
     s.link.negotiated = true →
     s.link.sessions.length + s.link.handshakes.length < 4 →
     s.sec.rng.state ≠ .serving →
     answers (.keyExchange .clear key) s fun u => u.out.doe = (if s.sec.rng.failed = true then .errorUnspecified else .errorBusy) :: s.out.doe ∧ u.link = s.link) ∧
  (∀ (sid : Nat) (s : State),
     s.doeUp = true →
     s.link.handshakes.contains sid = true →
     answers (.finish (.session sid) true) s fun u => u.out.doe = .finishRsp :: s.out.doe ∧ u.link.sessions = s.link.sessions ++ [sid] ∧
       u.link.handshakes = s.link.handshakes.filter fun n => n != sid) ∧
  (∀ (sid : Nat) (s : State),
     s.doeUp = true →
     s.link.handshakes.contains sid = true →
     answers (.finish (.session sid) false) s fun u => u.out.doe = .errorInvalid :: s.out.doe ∧ u.link.sessions = s.link.sessions ∧ u.link.handshakes.contains sid = false) ∧
  (∀ (sid : Nat) (s : State),
     s.doeUp = true →
     s.link.sessions.contains sid = true →
     answers (.heartbeat (.session sid)) s fun u => u.out.doe = .heartbeatAck :: s.out.doe ∧ u.link = s.link) ∧
  (∀ (sid : Nat) (s : State),
     s.doeUp = true →
     s.link.sessions.contains sid = true →
     answers (.keyUpdate (.session sid)) s fun u => u.out.doe = .keyUpdateAck :: s.out.doe ∧ u.link.sessions = s.link.sessions ∧
       u.link.sessKeys = s.link.sessKeys.map fun x => if x.1 == sid then (sid, Config.updatedKey x.2) else x) ∧
  (∀ (sid : Nat) (s : State),
     s.doeUp = true →
     s.link.sessions.contains sid = true →
     answers (.endSession (.session sid)) s fun u => u.out.doe = .endSessionAck :: s.out.doe ∧ u.link.sessions.contains sid = false ∧ ∀ x ∈ u.link.sessKeys, x.1 ≠ sid) ∧
  (∀ (via : SpdmVia) (slot : Nat) (nonce key : List Byte) (c : Instr) (s : State),
     s.doeUp = true →
     s.link.negotiated = false →
     c ∈ [.getDigests via, .getCertificate via slot 0 1, .challenge via slot nonce, .getMeasurements via slot nonce, .keyExchange via key] →
     answers (c) s fun u => u.out.doe = .errorInvalid :: s.out.doe ∧ u.link = s.link) ∧
  (∀ (via : SpdmVia) (c : Instr) (s : State),
     s.doeUp = false →
     c ∈ [.getVersion via, .getCapabilities via, .getDigests via, .heartbeat via, .keyUpdate via, .endSession via] →
     exec c s = .next s)

/-- Unit i of a record written lies at slot i mod 2^SIZE. TRACE_CTL with ENABLE from 0 to 1, where the host can be
reached, sets HEAD and TAIL to 0 and writes START, of three units, at slot 0. While ENABLE is 1, writes of
TRACE_BASE_LO and _HI are ignored, and TRACE_CTL leaves SIZE. A TRACE_TAIL write moves the tail forward up to HEAD,
with its low 32 bits; one that moves backwards or beyond HEAD is ignored. While a replay runs, writes of
REPLAY_ADDR_LO, _HI, REPLAY_UNITS and REPLAY_CTL.PARTITION are ignored. REPLAY_CTL.GO starts a replay of a trace of
these images, else refuses it; STOP ends it at once where no job of the partition is left, else after the last. -/
def Obligations.TraceAndReplayRegisters : Prop :=
  (∀ (i : Nat) (r : TraceRec) (s : State),
     i < r.units →
     r.units ≤ 2 ^ s.trace.size →
     (s.traceWrite r).wordsAt (hostBase + s.trace.base + 32 * ((s.trace.head + i) % 2 ^ s.trace.size)) 8 =
       (((s.traceWords r).drop (8 * i)).take 8).map fun w => w % 2 ^ 32) ∧
  (∀ (value : Word) (s : State),
     s.reaches .pf = true →
     bit 0 value.toNat = true →
     s.trace.enable = false →
     s.trace.store = [] →
     s.trace.pendingLost = 0 →
     s.pfHostOk = true →
     answers (.traceEnable .pf value) s fun u => u.trace.enable = true ∧ u.trace.tail = 0 ∧ u.trace.head = 3 ∧
       u.trace.stall = bit 1 value.toNat ∧ u.trace.partMask = bits 15 8 value.toNat ∧
       u.trace.size = max 11 (min 25 (bits 6 2 value.toNat)) ∧ u.readN (hostBase + s.trace.base) 4 = 0x8201) ∧
  (∀ (value : Word) (s : State),
     s.reaches .pf = true →
     bit 0 value.toNat = true →
     s.trace.enable = false →
     answers (.traceEnable .pf value) s fun u => u.trace.enable = true ∧ u.trace.tail = 0 ∧ (s.pfHostOk = false → u.trace.head = 0)) ∧
  (∀ (value : Word) (s : State),
     s.reaches .pf = true →
     s.trace.enable = true →
     answers (.traceEnable .pf value) s fun u => u.trace.size = s.trace.size ∧ u.trace.head = s.trace.head ∧
       u.trace.enable = bit 0 value.toNat ∧ u.mems = s.mems) ∧
  (∀ (offset : Nat) (value : BitVec 64) (f : SelfTest) (ok : Bool) (s : State),
     s.trace.enable = true →
     (offset = 0x90004 ∨ offset = 0x90008) →
     exec (.registerWrite .pf offset 4 ⟨value, f, ok⟩) s = .next s) ∧
  (∀ (value : Word) (s : State),
     s.reaches .pf = true →
     s.trace.store = [] →
     s.trace.pendingLost = 0 →
     s.trace.tailAt value.toNat ≤ s.trace.head →
     answers (.traceTailWrite .pf value) s fun u => u.trace.tail % 2 ^ 32 = value.toNat ∧ s.trace.tail ≤ u.trace.tail ∧
       u.trace.tail ≤ u.trace.head ∧ u.trace.head = s.trace.head) ∧
  (∀ (value : Word) (s : State),
     s.trace.head < s.trace.tailAt value.toNat →
     exec (.traceTailWrite .pf value) s = .next s) ∧
  (∀ (value : Word) (v : BitVec 64) (offset : Nat) (f : SelfTest) (ok : Bool) (s : State),
     s.replay.state = .running →
     (offset = 0x90104 ∨ offset = 0x90108 ∨ offset = 0x9010C) →
     exec (.registerWrite .pf offset 4 ⟨v, f, ok⟩) s = .next s ∧ exec (.replayGo .pf value) s = .next s) ∧
  (∀ (v : BitVec 64) (f : SelfTest) (ok : Bool) (s : State),
     s.replay.state = .running →
     bit 1 (v.toNat % 2 ^ 32) = false →
     exec (.registerWrite .pf 0x90100 4 ⟨v, f, ok⟩) s = .next s) ∧
  (∀ (value : Word) (p : Nat) (s : State),
     s.reaches .pf = true →
     s.replay.state ≠ .running →
     bit 0 value.toNat = true →
     bits 4 2 value.toNat = p →
     s.replayable p = true →
     s.traceReadable = true →
     s.sameStart (s.traceRecords s.replay.addr s.replay.units s.replay.units 0) = true →
     answers (.replayGo .pf value) s fun u => u.replay.state = .running ∧ u.replay.part = p ∧ u.replay.pos = 0 ∧
       u.replay.mismatch = false ∧
       u.replay.expect = (s.traceRecords s.replay.addr s.replay.units s.replay.units 0).filterMap (expectOf p)) ∧
  (∀ (value : Word) (p : Nat) (s : State),
     s.reaches .pf = true →
     s.replay.state ≠ .running →
     bit 0 value.toNat = true →
     bits 4 2 value.toNat = p →
     s.replayable p = true →
     s.sameStart (s.traceRecords s.replay.addr s.replay.units s.replay.units 0) = false →
     answers (.replayGo .pf value) s fun u => u.replay.state = .refused ∧ u.replay.part = p) ∧
  (∀ (value : Word) (s : State),
     s.reaches .pf = true →
     s.replay.state ≠ .running →
     (bit 0 value.toNat = false ∨ s.replayable (bits 4 2 value.toNat) = false) →
     exec (.replayGo .pf value) s = .next { s with replay := { s.replay with part := bits 4 2 value.toNat } }) ∧
  (∀ (s : State),
     s.reaches .pf = true →
     s.replay.state = .running →
     answers (.replayStop .pf) s fun u =>
       u.replay.state = (if (s.jobs.list.any fun j => j.part == s.replay.part) = true then .running else .stopped) ∧ u.replay.stopping = true)

/-- Through the physical function a 32-bit aligned write sets the fields: HOST_BAR4_BASE unless locked, a frozen
QP_CFG of a disabled queue pair and not of an enabled one, pools and tiers, GATE_IDLE, DRAM targets, WINDOW_US,
PASSAGE_ID and mask, ramp cycles and pins, each clamped to its range. A counter written with all ones reads 0. A base
pair takes effect at the _HI write. A virtual function reaches the queues block alone; a write of another size,
unaligned, or of an identity register changes nothing. DEVICE_CTL's three bits, each alone, and CP_BOOT_CTL.GO act as
their own commands. At reset the registers read their reset values. -/
def Obligations.RegistersHoldWhatIsWritten : Prop :=
  (∀ (value : BitVec 64) (f : SelfTest) (ok : Bool) (s : State),
     s.reaches .pf = true →
     s.dev.globalLock = false →
     answers (.registerWrite .pf 0x00020 4 ⟨value, f, ok⟩) s fun u => u.dev.bar4Base = min 95 (value.toNat % 128) ∧ u.regRead .pf 0x20 = min 95 (value.toNat % 128)) ∧
  (∀ (value : BitVec 64) (f : SelfTest) (ok : Bool) (s : State),
     s.reaches .pf = true →
     s.dev.globalLock = true →
     answers (.registerWrite .pf 0x00020 4 ⟨value, f, ok⟩) s fun u => u = s) ∧
  (∀ (n : Nat) (value : BitVec 64) (f : SelfTest) (ok : Bool) (s : State),
     s.shaped = true →
     n < 64 →
     s.reaches .pf = true →
     (s.qp n).enabled = false →
     answers (.registerWrite .pf (0x10010 + 0x40 * n) 4 ⟨value, f, ok⟩) s fun u => (u.qp n).sqLog = max 4 (min 12 (value.toNat % 16)) ∧
       (u.qp n).cqLog = max 4 (min 12 (value.toNat / 16 % 16)) ∧ (u.qp n).vector = value.toNat / 256 % 64) ∧
  (∀ (n o : Nat) (value : BitVec 64) (f : SelfTest) (ok : Bool) (s : State),
     n < 64 →
     s.reaches .pf = true →
     (s.qp n).enabled = true →
     (o = 0 ∨ o = 4 ∨ o = 8 ∨ o = 0xC ∨ o = 0x10) →
     exec (.registerWrite .pf (0x10000 + 0x40 * n + o) 4 ⟨value, f, ok⟩) s = .next s) ∧
  (∀ (n : Nat) (value : BitVec 64) (f : SelfTest) (ok : Bool) (s : State),
     s.shaped = true →
     n < 64 →
     s.reaches .pf = true →
     (s.qp n).enabled = false →
     answers (.registerWrite .pf (0x10000 + 0x40 * n) 8 ⟨value, f, ok⟩) s fun u =>
       (u.qp n).sqBase = (value.toNat - value.toNat % 4096) % 2 ^ 48 ∧ (u.qp n).sqHeld = none) ∧
  (∀ (n : Nat) (value : BitVec 64) (f : SelfTest) (ok : Bool) (s : State),
     s.shaped = true →
     n < 64 →
     s.reaches .pf = true →
     (s.qp n).enabled = false →
     answers (.registerWrite .pf (0x10000 + 0x40 * n) 4 ⟨value, f, ok⟩) s fun u => (u.qp n).sqBase = (s.qp n).sqBase ∧
       u.regRead .pf (0x10000 + 0x40 * n) = s.regRead .pf (0x10000 + 0x40 * n)) ∧
  (∀ (p : Nat) (value : BitVec 64) (f : SelfTest) (ok : Bool) (s : State),
     s.shaped = true →
     p < 8 →
     s.reaches .pf = true →
     s.dev.ready = true →
     s.dev.partLock = false →
     (s.part p).valid = true →
     (answers (.registerWrite .pf (0x21004 + 0x100 * p) 4 ⟨value, f, ok⟩) s fun u => (u.part p).prefillCount = min 32 (value.toNat % 64)) ∧
     answers (.registerWrite .pf (0x21008 + 0x100 * p) 4 ⟨value, f, ok⟩) s fun u => (u.part p).cacheGib = min 90 (value.toNat % 128) ∧
       (u.part p).ratePct = max 50 (min 100 (value.toNat / 256 % 128))) ∧
  (∀ (p : Nat) (value : BitVec 64) (f : SelfTest) (ok : Bool) (s : State),
     (s.dev.ready = false ∨ s.dev.partLock = true) →
     p < 8 →
     exec (.registerWrite .pf (0x21004 + 0x100 * p) 4 ⟨value, f, ok⟩) s = .next s ∧ exec (.registerWrite .pf (0x21008 + 0x100 * p) 4 ⟨value, f, ok⟩) s = .next s) ∧
  (∀ (n : Nat) (value : BitVec 64) (f : SelfTest) (ok : Bool) (s : State),
     s.shaped = true →
     s.reaches .pf = true →
     n < 44 →
     s.dev.dramLock = false →
     answers (.registerWrite .pf (0x40200 + 4 * n) 4 ⟨value, f, ok⟩) s fun u => (u.dport n).targetNs = max 100 (value.toNat % 2 ^ 16)) ∧
  (∀ (n k : Nat) (value : BitVec 64) (f : SelfTest) (ok : Bool) (s : State),
     s.shaped = true →
     s.reaches .pf = true →
     n < 2 →
     k < 12 →
     (s.pport n).pin.length = 12 →
     answers (.registerWrite .pf (0x70110 + 0x100 * n + 4 * k) 4 ⟨value, f, ok⟩) s fun u => (u.pport n).pin.getD k 0 = BitVec.ofNat 32 (value.toNat % 2 ^ 32)) ∧
  (∀ (value : BitVec 64) (f : SelfTest) (ok : Bool) (s : State),
     s.reaches .pf = true →
     answers (.registerWrite .pf 0x30004 4 ⟨value, f, ok⟩) s fun u => u.power.gateIdle = bit 0 (value.toNat % 2 ^ 32)) ∧
  (∀ (value : BitVec 64) (f : SelfTest) (ok : Bool) (s : State),
     s.reaches .pf = true →
     answers (.registerWrite .pf 0x50010 4 ⟨value, f, ok⟩) s fun u => u.flash.windowUs = min 4000 (value.toNat % 2 ^ 13)) ∧
  (∀ (value : BitVec 64) (f : SelfTest) (ok : Bool) (s : State),
     s.reaches .pf = true →
     answers (.registerWrite .pf 0x70000 4 ⟨value, f, ok⟩) s fun u => u.passage.id = value.toNat % 2 ^ 16 ∧ u.passage.partMask = value.toNat / 2 ^ 16 % 256) ∧
  (∀ (e : Nat) (value : BitVec 64) (f : SelfTest) (ok : Bool) (s : State),
     s.shaped = true →
     s.reaches .pf = true →
     e < 32 →
     answers (.registerWrite .pf (0x100000 + 0x1000 * e) 4 ⟨value, f, ok⟩) s fun u => (u.eng e).rampCycles = max 16 (min 64 (value.toNat % 128))) ∧
  (∀ (n o : Nat) (f : SelfTest) (ok : Bool) (s : State),
     s.shaped = true →
     s.reaches .pf = true →
     (o ∈ [0x60040, 0x8000C, 0x90014, 0xA0010, 0xB0010] ∨ (n < 64 ∧ o = 0x10024 + 0x40 * n) ∨ (n < 24 ∧ o = 0x40300 + 4 * n) ∨ (n < 16 ∧ o = 0x50200 + 4 * n)) →
     s.regRead .pf o < 2 ^ 32 →
     answers (.registerWrite .pf o 4 ⟨0xFFFFFFFF, f, ok⟩) s fun u => u.regRead .pf o = 0) ∧
  (∀ (fn : Fn) (o size : Nat) (value : BitVec 64) (f : SelfTest) (ok : Bool) (s : State),
     ((size ≠ 4 ∧ size ≠ 8) ∨ (size = 4 ∧ o % 4 ≠ 0) ∨ (size = 8 ∧ o % 8 ≠ 0) ∨ (size = 4 ∧ (o = 0 ∨ o = 4 ∨ (0x40 ≤ o ∧ o < 0x50)))) →
     exec (.registerWrite fn o size ⟨value, f, ok⟩) s = .next s) ∧
  (∀ (w o : Nat) (value : BitVec 64) (f : SelfTest) (ok : Bool) (s : State),
     (o < 0x10000 ∨ 0x11000 ≤ o) →
     exec (.registerWrite (.vf w) o 4 ⟨value, f, ok⟩) s = .next s) ∧
  (∀ (value : BitVec 64) (f : SelfTest) (ok : Bool) (s : State),
     s.reaches .pf = true →
     (value.toNat % 2 ^ 32 % 8 = 1 → exec (.registerWrite .pf 0x14 4 ⟨value, f, ok⟩) s = exec (.warmReset .pf f) s) ∧
     (value.toNat % 2 ^ 32 % 8 = 2 → exec (.registerWrite .pf 0x14 4 ⟨value, f, ok⟩) s = exec (.fullReset .pf f) s) ∧
     (value.toNat % 2 ^ 32 % 8 = 4 → exec (.registerWrite .pf 0x14 4 ⟨value, f, ok⟩) s = exec (.shutdown .pf) s) ∧
     (bit 0 (value.toNat % 2 ^ 32) = true → exec (.registerWrite .pf 0x20000C 4 ⟨value, f, ok⟩) s = exec (.cpBootGo .pf ok) s)) ∧
  (State.reset.regRead .pf 0x04 = 0xE3200B0 ∧ State.reset.regRead .pf 0x20 = 0 ∧ State.reset.regRead .pf 0x8000C = 0)

/-- POWER_CAP_EVAL: the effective cap is the least of the caps in force, with the grants of the division and the input
power shown. PWR_CAP_WRITE clamps CAP_W to 15 to 75 W and EMERG_W under it. PWRBRK_N sets the emergency, and the first
assertion after 1 s is reported. THERMAL_SAMPLE gives the level of the hottest reading with its hysteresis; a rise
asserts the alert and is reported, and LIMIT slows every engine. THERMAL_TRIP switches the die off until a power
cycle. DOMAIN_RAMP starts the next ramp, RAMP_COMPLETE powers the domain, or, beyond the limit of a ramp, maps the
engine out as shorted (a held ramp: log entry 123), IDLE_GATE switches off an engine idle for 1 ms where gating is on.
DOMAIN_SHORT maps the engine out with its switches open; SECTOR_FAULT does so for the sector's eight once its rail has
been low for 8 us after a short. -/
def Obligations.PowerThermalAndDomains : Prop :=
  (∀ (d : PowerDemand) (s : State),
     s.alive = true →
     answers (.powerCapEval d) s fun u => some u.power.effective ∈ s.caps ∧ (∀ c, some c ∈ s.caps → u.power.effective ≤ c) ∧
       u.power.grants = (s.powerShares d).classes ∧ u.power.inputPower = min 0xFFFF d.input ∧
       (s.power.level = .limit → ∀ e, (u.eng e).div = (s.eng e).div)) ∧
  (∀ (value : Word) (s : State),
     s.reaches .pf = true →
     answers (.pwrCapWrite .pf value) s fun u => u.power.capW = max 15 (min 75 (value.toNat % 128)) ∧
       u.power.emergW = max 15 (min u.power.capW (value.toNat / 256 % 128))) ∧
  (∀ (s : State),
     s.alive = true →
     s.power.pwrbrk = false →
     s.emergencyOn = false →
     ((s.power.lastBrk.map fun t => decide (t + 100000000 ≤ s.now)).getD true) = true →
     answers (.pwrbrkN true) s fun u => u.power.pwrbrk = true ∧ u.power.lastBrk = some s.now ∧ u.reported 0x70 0xA) ∧
  (∀ (s : State),
     s.alive = true →
     s.power.pwrbrk = false →
     (s.emergencyOn = true ∨ ((s.power.lastBrk.map fun t => decide (t + 100000000 ≤ s.now)).getD true) = false) →
     answers (.pwrbrkN true) s fun u => u.power.pwrbrk = true ∧ u.faults = s.faults) ∧
  (∀ (s : State),
     s.alive = true →
     s.power.pwrbrk = true →
     answers (.pwrbrkN false) s fun u => u.power.pwrbrk = false ∧ u.power.lastBrk = some s.now ∧ u.faults = s.faults) ∧
  (∀ (s : State),
     answers (.pwrbrkN false) s fun u => u.power.pwrbrk = false ∧ u.faults = s.faults) ∧
  (∀ (readings : List Nat) (s : State),
     s.alive = true →
     answers (.thermalSample readings) s fun u =>
       u.power.level = nextLevel (readings.foldl max 0) s.power.dramHot s.power.level ∧ u.power.hottest = min 255 (readings.foldl max 0) ∧
       (levelCode s.power.level < levelCode u.power.level → u.smbus.alert = true) ∧
       (s.power.level ≠ .limit → u.power.level = .limit → ∀ g ∈ u.engines, g.div = 8 ∧ g.allow ≤ 4 ∧ g.target = 4)) ∧
  (∀ (readings : List Nat) (s : State),
     s.alive = true →
     s.dev.stage ≠ .selfTest →
     levelCode s.power.level < levelCode (nextLevel (readings.foldl max 0) s.power.dramHot s.power.level) →
     answers (.thermalSample readings) s fun u => u.reported 0x70 0xB) ∧
  ((∀ hot, nextLevel hot false .normal = if 105 ≤ hot then .limit else if 100 ≤ hot then .throttle else .normal) ∧
   (∀ hot, nextLevel hot false .throttle = if 105 ≤ hot then .limit else if hot < 98 then .normal else .throttle) ∧
   ∀ hot hotDram, nextLevel hot hotDram .limit = if hot < 100 then .throttle else .limit) ∧
  (∀ (s : State),
     s.smbus.dieOn = true →
     answers .thermalTrip s fun u => u.smbus.dieOn = false ∧ u.smbus.tripOff = true ∧ u.smbus.tripped = true ∧ u.smbus.alert = true ∧
       u.dev.ready = false) ∧
  (∀ (s : State),
     s.smbus.dieOn = false →
     exec .thermalTrip s = .next s) ∧
  (∀ (eng : Nat) (s : State),
     s.shaped = true →
     eng < 32 →
     s.alive = true →
     s.rampNext eng = true →
     answers (.domainRamp eng) s fun u => (u.eng eng).domain.ramping = true ∧ (u.eng eng).domain.rampStart = s.now ∧
       (u.eng eng).domain.wants = false ∧ (u.eng eng).domain.powered = false) ∧
  (∀ (eng : Nat) (s : State),
     s.rampNext eng = false →
     exec (.domainRamp eng) s = .next s) ∧
  (∀ (eng : Nat) (s : State),
     s.shaped = true →
     eng < 32 →
     (s.eng eng).domain.ramping = true →
     ((s.eng eng).domain.held = false ∨ (s.eng eng).domain.heldSince + 50 ≤ s.now) →
     s.now ≤ (s.eng eng).domain.rampStart + 500 + (if (s.eng eng).domain.held = true then 1000 else 0) →
     answers (.rampComplete eng) s fun u => (u.eng eng).domain.powered = true ∧ (u.eng eng).domain.ramping = false ∧
       (u.eng eng).freeSince = s.now ∧ (u.eng eng).target = (if s.power.level = .limit then 4 else 8) ∧
       (s.power.level = .limit → (u.eng eng).div = 8)) ∧
  (∀ (eng : Nat) (s : State),
     s.shaped = true →
     eng < 32 →
     (s.eng eng).domain.ramping = true →
     (s.eng eng).domain.rampStart + 1500 < s.now →
     ((s.eng eng).domain.held = false ∨ (s.eng eng).domain.heldSince + 50 ≤ s.now) →
     answers (.rampComplete eng) s fun u => (u.eng eng).domain.powered = false ∧ (u.eng eng).mappedOut = true ∧ u.reported 0x70 0xA) ∧
  (∀ (eng : Nat) (s : State),
     ((s.eng eng).domain.ramping = false ∨ ((s.eng eng).domain.held = true ∧ s.now < (s.eng eng).domain.heldSince + 50)) →
     exec (.rampComplete eng) s = .next s) ∧
  (∀ (eng : Nat) (s : State),
     s.shaped = true →
     eng < 32 →
     s.power.gateIdle = true →
     (s.eng eng).domain.powered = true →
     (s.eng eng).ctxs = [] →
     (s.eng eng).freeSince + 100000 ≤ s.now →
     answers (.idleGate eng) s fun u => (u.eng eng).domain = Domain.reset ∧ (u.eng eng).residentValid = false) ∧
  (∀ (eng : Nat) (s : State),
     (s.power.gateIdle = false ∨ (s.eng eng).domain.powered = false ∨ (s.eng eng).ctxs ≠ [] ∨ s.now < (s.eng eng).freeSince + 100000) →
     exec (.idleGate eng) s = .next s) ∧
  (∀ (eng : Nat) (low : Bool) (s : State),
     s.shaped = true →
     eng < 32 →
     ((s.eng eng).domain.ramping = true ∨ (s.eng eng).domain.powered = true) →
     answers (.domainShort eng low) s fun u => (u.eng eng).mappedOut = true ∧ (u.eng eng).domain.powered = false ∧
       (u.eng eng).domain.ramping = false ∧ u.reported 0x70 0xA) ∧
  (∀ (eng : Nat) (low : Bool) (s : State),
     (s.eng eng).domain.ramping = false →
     (s.eng eng).domain.powered = false →
     exec (.domainShort eng low) s = .next s) ∧
  (∀ (sector since e : Nat) (s : State),
     s.shaped = true →
     s.alive = true →
     sector < 4 →
     e / 8 = sector →
     s.power.railLow.getD sector none = some since →
     since + 800 ≤ s.now →
     answers (.sectorFault sector) s fun u => (u.eng e).mappedOut = true ∧ (u.eng e).domain.powered = false ∧ u.reported 0x70 0xA) ∧
  (∀ (sector : Nat) (s : State),
     (s.power.railLow.getD sector none = none ∨ 4 ≤ sector) →
     exec (.sectorFault sector) s = .next s)

/-- RAILS_VALID starts the die rails unless a trip holds them off, which it does until P12V has been away, and then
until the sensor is cool (a free choice: log entry 134); POWER_LOSS and P12V_OVERVOLTAGE switch the die off with P12V
away; AUX_RAIL_LOSS also resets the SMBus interface. STRAP_SAMPLE gives MID, the address and PASSAGE_ID once.
CLOCK_LOSS stops the die and asserts the alert; REFERENCE_CLOCK_RESTORED locks the PLL, and runs the self-test where a
full reset waits. TIMEBASE_LO_READ returns the low half and latches the upper. DRIP_POLL keeps the last three polls,
marks a monitor that fails three alike with its domain in fallback, and raises a domain's margin one step when it
droops. DRIP_REPLAN moves each margin at most one step towards its goal, once a day. -/
def Obligations.RailsClockAndDripline : Prop :=
  (∀ (s : State),
     s.smbus.dieOn = false →
     s.smbus.aux = true →
     s.smbus.tripOff = false →
     answers .railsValid s fun u => u.smbus.dieOn = true ∧ u.smbus.p12v = true ∧ u.smbus.tripOff = false ∧ u.flash.lockout = false ∧
       u.flash.fails = 0 ∧ u.dev.lastReset = if s.dev.clockLost then 2 else 0) ∧
  (∀ (s : State),
     s.smbus.dieOn = false →
     s.smbus.aux = true →
     s.smbus.tripOff = true →
     s.smbus.p12v = false →
     answers .railsValid s fun u => u.smbus.p12v = true ∧
       ((u.smbus.dieOn = true ∧ u.smbus.tripOff = false ∧ u.power.tripped = true) ∨ (u.smbus.dieOn = false ∧ u.smbus.tripOff = true ∧ u.dev = s.dev))) ∧
  (∀ (s : State),
     s.smbus.dieOn = false →
     s.smbus.aux = true →
     s.smbus.tripOff = true →
     s.smbus.p12v = true →
     answers .railsValid s fun u => u.smbus = s.smbus ∧ u.dev = s.dev ∧ u.jobs = s.jobs) ∧
  (∀ (s : State),
     (s.smbus.dieOn = true ∨ s.smbus.aux = false) →
     exec .railsValid s = .next s) ∧
  (∀ (c : Instr) (s : State),
     c ∈ [Instr.powerLoss, .p12vOvervoltage] →
     s.smbus.dieOn = true →
     answers c s fun u => u.smbus.dieOn = false ∧ u.smbus.p12v = false ∧ u.dev.ready = false ∧ u.jobs.list = [] ∧
       ∀ n, (u.qp n).enabled = false) ∧
  (∀ (c : Instr) (s : State),
     c ∈ [Instr.powerLoss, .p12vOvervoltage] →
     s.smbus.dieOn = false →
     exec c s = .next { s with smbus := { s.smbus with p12v := false } }) ∧
  (∀ (s : State),
     answers .auxRailLoss s fun u => u.smbus.aux = false ∧ u.smbus.capSet = 0 ∧ u.smbus.emergency = false ∧ u.smbus.alert = false ∧
       u.smbus.fruOff = 0 ∧ u.smbus.dieOn = false) ∧
  (∀ (mid : Nat) (s : State),
     s.smbus.aux = false →
     answers (.strapSample mid) s fun u => u.smbus.aux = true ∧ u.smbus.mid = mid % 16 ∧ u.smbus.addr = 0x20 + mid % 16 ∧ u.passage.id = mid % 16) ∧
  (∀ (mid : Nat) (s : State),
     s.smbus.aux = true →
     exec (.strapSample mid) s = .next s) ∧
  (∀ (s : State),
     s.alive = true →
     answers .clockLoss s fun u => u.dev.clockLost = true ∧ u.smbus.clockLoss = true ∧ u.smbus.alert = true ∧ u.dev.ready = false ∧
       u.jobs.list = []) ∧
  (∀ (f : SelfTest) (s : State),
     s.dev.clockLost = true →
     s.dev.fullWanted = false →
     answers (.referenceClockRestored f) s fun u => u.power.rootLock = true ∧ u.dev = s.dev) ∧
  (∀ (f : SelfTest) (s : State),
     s.dev.clockLost = true →
     s.dev.fullWanted = true →
     s.link.perst = false →
     s.smbus.dieOn = true →
     answers (.referenceClockRestored f) s fun u => u.dev.clockLost = false ∧ u.dev.stage = .waitKadon ∧ u.dev.lastReset = 2 ∧ u.power.lossSeen = true) ∧
  (∀ (f : SelfTest) (s : State),
     s.dev.clockLost = false →
     exec (.referenceClockRestored f) s = .next s) ∧
  (∀ (s : State),
     s.reaches .pf = true →
     s.now < 2 ^ 64 →
     answers (.timebaseLoRead .pf) s fun u => u.power.tbLatch.toNat * 2 ^ 32 + u.out.regRead.toNat = s.now ∧ u.now = s.now ∧
       u.regRead .pf 0x30404 = s.now / 2 ^ 32) ∧
  (∀ (frames : List DripFrame) (d : Nat) (s : State),
     s.alive = true →
     s.drip.polls.length < 2 →
     d < 8 →
     s.flash.margins.length = 8 →
     s.drip.lastRaise.length = 8 →
     s.drip.fallback = [] →
     s.dripAsks frames d = true →
     (s.drip.lastRaise.getD d 0 = 0 ∨ s.drip.lastRaise.getD d 0 + 1000000 ≤ s.now + 1) →
     answers (.dripPoll frames) s fun u => u.flash.margins.getD d 0 = min (Config.maxMargin d) (s.flash.margins.getD d 0 + 1) ∧
       u.drip.polls = frames :: s.drip.polls) ∧
  (∀ (frames : List DripFrame) (m : Nat) (s : State),
     s.alive = true →
     2 ≤ s.drip.polls.length →
     m < 96 →
     s.drip.faulty.contains m = false →
     dripFaulty ((frames :: s.drip.polls).take 3) m = true →
     answers (.dripPoll frames) s fun u => m ∈ u.drip.faulty ∧ u.drip.polls = (frames :: s.drip.polls).take 3 ∧
       ∀ d, dripDomain m = some d → d < 8 → d ∈ u.drip.fallback ∧ u.margin d = Config.maxMargin d) ∧
  (∀ (needs : List Nat) (d : Nat) (s : State),
     s.alive = true →
     s.flash.mounted = true →
     s.drip.plannedDay < s.hours / 24 →
     d < 8 →
     answers (.dripReplan needs) s fun u => u.drip.plannedDay = s.hours / 24 ∧
       (s.drip.fallback.contains d = true → u.flash.margins.getD d 0 = s.flash.margins.getD d 0) ∧
       u.flash.margins.getD d 0 ≤ s.flash.margins.getD d 0 + 1 ∧ s.flash.margins.getD d 0 ≤ u.flash.margins.getD d 0 + 1) ∧
  (∀ (needs : List Nat) (s : State),
     s.hours / 24 ≤ s.drip.plannedDay →
     exec (.dripReplan needs) s = .next s)

/-- POWER_ON runs the self-test: the stage is WAIT_KADON, the timebase 0, the RNG serving where it passed,
DEVICE_FAULT where the crypto engine failed. FULL_RESET, and a warm trigger in DEVICE_FAULT, secure halt or after
shutdown, restart the device with no job and every queue pair disabled. A warm reset leaves READY with the timebase
and the partitions kept, every queue pair disabled with its partition, and its code in LAST_RESET. PERST_N low for 1
us takes the link down; high again it releases the warm reset, or runs a full reset that waited. DEVICE_READY gives
PT0 everything at first, keeps the partitions after a warm reset, and raises MSI-X entry 63. SHUTDOWN with no job left
ends with SHUTDOWN_DONE; D3HOT_EXIT is a full reset. -/
def Obligations.ResetsReadyAndShutdown : Prop :=
  (∀ (f : SelfTest) (s : State),
     s.alive = true →
     s.dev.stage = .selfTest →
     s.link.perst = false →
     s.dev.fullWanted = false →
     answers (.powerOn f) s fun u => u.dev.stage = .waitKadon ∧ u.now = 0 ∧ u.power.rootLock = true ∧
       (f.rngOk = true → u.sec.rng.state = .serving) ∧ (f.cryptoOk = false → u.dev.fault = true ∧ u.sec.cryptoBad = true)) ∧
  (∀ (f : SelfTest) (s : State),
     (s.alive = false ∨ s.dev.stage ≠ .selfTest ∨ s.link.perst = true) →
     exec (.powerOn f) s = .next s) ∧
  (∀ (f : SelfTest) (s : State),
     s.reaches .pf = true →
     answers (.fullReset .pf f) s fun u => u.link.up = true ∧ u.dev.lastReset = 1 ∧
       u.dev.stage = .waitKadon ∧ u.dev.ready = false ∧ u.now = 0 ∧ u.jobs.list = [] ∧ ∀ n, (u.qp n).enabled = false) ∧
  (∀ (c : Instr) (f : SelfTest) (s : State),
     ((c = .warmReset .pf f ∧ s.reaches .pf = true) ∨ (c = .flrPf f ∧ s.linkResets = true ∧ s.link.fnReady = true) ∨ (c = .hotReset f ∧ s.linkResets = true)) →
     s.escalates = true →
     answers c s fun u => u.dev.lastReset = 2 ∧
       u.dev.stage = .waitKadon ∧ u.dev.ready = false ∧ u.now = 0 ∧ u.jobs.list = [] ∧ ∀ n, (u.qp n).enabled = false) ∧
  (∀ (c : Instr) (code : Nat) (f : SelfTest) (s : State),
     s.shaped = true →
     ((c = .warmReset .pf f ∧ code = 6 ∧ s.reaches .pf = true) ∨ (c = .flrPf f ∧ code = 5 ∧ s.linkResets = true ∧ s.link.fnReady = true) ∨ (c = .hotReset f ∧ code = 4 ∧ s.linkResets = true)) →
     s.escalates = false →
     answers c s fun u => u.dev.lastReset = code ∧ u.dev.released = true ∧ (code ≠ 6 → u.link.vfEnable = false ∧ u.link.sessions = []) ∧
       u.dev.stage = .warmReset ∧ u.dev.ready = false ∧ u.now = s.now ∧
       (∀ n, n < 64 → (u.qp n).enabled = false ∧ (u.qp n).part = (s.qp n).part) ∧
       ∀ p, p < 8 → (u.part p).valid = (s.part p).valid ∧ (u.part p).granules = (s.part p).granules) ∧
  (∀ (ns : Nat) (f : SelfTest) (s : State),
     s.shaped = true →
     1000 ≤ ns →
     s.link.perst = false →
     s.smbus.dieOn = true →
     s.dev.clockLost = false →
     s.escalates = false →
     answers (.perstN true ns f) s fun u => u.link.perst = true ∧ u.link.up = false ∧ u.dev.lastReset = 3 ∧ u.dev.released = false ∧
       u.dev.stage = .warmReset ∧ u.dev.ready = false ∧ u.now = s.now ∧
       (∀ n, n < 64 → (u.qp n).enabled = false ∧ (u.qp n).part = (s.qp n).part) ∧
       ∀ p, p < 8 → (u.part p).valid = (s.part p).valid ∧ (u.part p).granules = (s.part p).granules) ∧
  (∀ (ns : Nat) (f : SelfTest) (s : State),
     ns < 1000 →
     exec (.perstN true ns f) s = .next s) ∧
  (∀ (ns : Nat) (f : SelfTest) (s : State),
     s.link.perst = true →
     s.dev.clockLost = false →
     s.dev.fullWanted = false →
     answers (.perstN false ns f) s fun u => u.link.perst = false ∧ u.dev.released = (s.dev.stage == .warmReset) ∧ u.dev.stage = s.dev.stage) ∧
  (∀ (ns : Nat) (f : SelfTest) (s : State),
     s.link.perst = true →
     s.dev.clockLost = false →
     s.dev.fullWanted = true →
     s.smbus.dieOn = true →
     answers (.perstN false ns f) s fun u => u.link.perst = false ∧ u.dev.fullWanted = false ∧ u.dev.stage = .waitKadon ∧ u.now = 0) ∧
  (∀ (s : State),
     s.shaped = true →
     s.alive = true →
     s.dev.stage = .training →
     (s.kadonRuns || s.dev.fault) = true →
     s.dram.trained = true →
     s.flash.mounted = true →
     answers .deviceReady s fun u => u.dev.ready = true ∧ u.dev.stage = .ready ∧ u.dev.startFaults = [] ∧ u.signalled .pf 63 ∧
       (u.part 0).valid = true ∧ (u.part 0).expert = true ∧ (u.part 0).powerPriv = true ∧ (u.part 0).sumpQuota = 3840 ∧
       (u.part 0).granules = List.range s.dram.granulesBacked ∧ (u.part 0).prefillCount = 8 ∧
       ∀ e, e < 32 → (e ∈ (u.part 0).engines ↔ (s.eng e).mappedOut = false)) ∧
  (∀ (s : State),
     s.shaped = true →
     s.alive = true →
     s.dev.stage = .warmReset →
     s.dev.released = true →
     s.link.perst = false →
     answers .deviceReady s fun u => u.dev.ready = true ∧ u.dev.stage = .ready ∧ u.parts = s.parts ∧ (∀ n, n < 3 → u.cpRunning n = true) ∧
       u.signalled .pf 63) ∧
  (∀ (s : State),
     (s.alive = false ∨ (s.dev.stage ≠ .training ∧ s.dev.stage ≠ .warmReset) ∨ (s.dev.stage = .warmReset ∧ s.dev.released = false)) →
     exec .deviceReady s = .next s) ∧
  (∀ (s : State),
     s.reaches .pf = true →
     s.canShut = true →
     s.jobs.list = [] →
     answers (.shutdown .pf) s fun u => u.dev.shutdownDone = true ∧ u.dev.stage = .shutdown ∧ u.dev.noTake = true ∧
       (∀ e, e < 32 → (u.eng e).domain.powered = false) ∧ u.flash.pendingJ = [] ∧ u.signalled .pf 63) ∧
  (∀ (s : State),
     s.canShut = false →
     exec (.shutdown .pf) s = .next s) ∧
  (∀ (s : State),
     s.linkResets = true →
     s.link.fnReady = true →
     answers .d3hotEntry s fun u => u.link.d3hot = true ∧ (s.canShut = true → s.jobs.list = [] → u.dev.shutdownDone = true)) ∧
  (∀ (f : SelfTest) (s : State),
     s.alive = true →
     s.link.d3hot = true →
     s.link.up = true →
     s.link.fnReady = true →
     answers (.d3hotExit f) s fun u => u.link.d3hot = false ∧
       u.dev.stage = .waitKadon ∧ u.dev.ready = false ∧ u.now = 0 ∧ u.jobs.list = [] ∧ ∀ n, (u.qp n).enabled = false)

/-- FAULT_OCCURRENCE: an event detail, or one with no record to fold into, opens a record with the occurrence's fields
and announces it; another within 1 ms of an unconsumed record of its source and class is counted there; one for a full
queue is lost, and counted. CONTINUED_RECORD enters what was gathered. FAULT_TAIL_WRITE moves the tail up to the head
and no further. SRAM_PATROL_SCRUB counts corrections and reports bad words, the 16th within 1 s failing the group.
Each SMBus read answers its bytes; a write sets its field, refuses a wrong PEC and changes nothing then; CLEAR_ALERT
clears the latches; ALERT_RESPONSE gives the address and releases the alert. Without P3V3_AUX nothing answers. -/
def Obligations.FaultsAndManagement : Prop :=
  (∀ (source cls detail tag info : Nat) (part : Option Nat) (s : State),
     s.faults.head - s.faults.tail < 256 →
     (eventDetail detail = true ∨ (s.faults.recs.find? fun x => x.2.source == source && x.2.cls == cls) = none) →
     (part.all fun p => !s.conf p) = true →
     answers (.faultOccurrence source cls detail part tag info) s fun u => u.faults.head = s.faults.head + 1 ∧
       u.faults.tail = s.faults.tail ∧ u.signalled .pf 63 ∧ u.faults.recs.head? = some (s.faults.head,
         { cls := cls, source := source, part := part, mixed := false, afterLoss := s.faults.afterLoss
           continued := false, count := 1, firstTs := s.now, lastTs := s.now
           detail := detail, tag := tag, info := info })) ∧
  (∀ (source cls detail tag info p : Nat) (s : State),
     s.faults.head - s.faults.tail < 256 →
     eventDetail detail = true →
     s.conf p = true →
     answers (.faultOccurrence source cls detail (some p) tag info) s fun u =>
       ((u.faults.recs.head?.map fun x => (x.2.detail, x.2.tag, x.2.info)) = some (0, 0, 0))) ∧
  (∀ (source cls detail tag info n : Nat) (part : Option Nat) (r : FaultRec) (s : State),
     eventDetail detail = false →
     (s.faults.recs.find? fun x => x.2.source == source && x.2.cls == cls) = some (n, r) →
     s.now ≤ r.firstTs + 100000 →
     s.faults.tail ≤ n →
     answers (.faultOccurrence source cls detail part tag info) s fun u => u.faults.head = s.faults.head ∧
       ∃ x ∈ u.faults.recs, x.1 = n ∧ x.2.count = min 0xFFFFFFFF (r.count + 1) ∧ x.2.lastTs = s.now ∧ x.2.firstTs = r.firstTs ∧
         x.2.detail = r.detail ∧ x.2.mixed = (r.mixed || r.part != part)) ∧
  (∀ (source cls detail tag info : Nat) (part : Option Nat) (s : State),
     256 ≤ s.faults.head - s.faults.tail →
     eventDetail detail = true →
     answers (.faultOccurrence source cls detail part tag info) s fun u => u.faults.overflow = true ∧ u.faults.recs = s.faults.recs ∧
       u.faults.lost = min 0xFFFFFFFF (s.faults.lost + 1) ∧ u.faults.head = s.faults.head ∧ u.faults.afterLoss = true) ∧
  (∀ (source cls : Nat) (g : Nat × FaultRec) (s : State),
     s.faults.head - s.faults.tail < 256 →
     (s.faults.gathered.find? fun g => g.2.source == source && g.2.cls == cls && decide (g.1 < s.now)) = some g →
     answers (.continuedRecord source cls) s fun u => u.faults.gathered = s.faults.gathered.erase g ∧
       u.faults.recs.head? = some (s.faults.head, { g.2 with afterLoss := s.faults.afterLoss })) ∧
  (∀ (value : Word) (s : State),
     s.reaches .pf = true →
     s.faults.tailAt (value.toNat % 2 ^ 16) ≤ s.faults.head →
     answers (.faultTailWrite .pf value) s fun u => u.faults.tail % 2 ^ 16 = value.toNat % 2 ^ 16 ∧ s.faults.tail ≤ u.faults.tail ∧
       u.faults.tail ≤ u.faults.head ∧ u.faults.recs = s.faults.recs) ∧
  (∀ (value : Word) (s : State),
     s.faults.head < s.faults.tailAt (value.toNat % 2 ^ 16) →
     exec (.faultTailWrite .pf value) s = .next s) ∧
  (∀ (g n : Nat) (s : State),
     s.alive = true →
     g < s.faults.sramCorrected.length →
     g < 8 →
     answers (.sramPatrolScrub g n []) s fun u => u.faults.sramCorrected.getD g 0 = min 0xFFFFFFFF (s.faults.sramCorrected.getD g 0 + n) ∧
       u.faults.recs = s.faults.recs) ∧
  (∀ (g n w : Nat) (s : State),
     s.alive = true →
     g < 8 →
     0x100000 ≤ w →
     answers (.sramPatrolScrub g n [w]) s fun u => u.reported (0x78 + g) 5 ∧
       (15 ≤ (s.faults.sramErrs.filter fun x => x.1 == g && decide (s.now ≤ x.2 + 100000000)).length →
         s.faults.groupFailed.contains g = false → u.dev.fault = true ∧ g ∈ u.faults.groupFailed)) ∧
  (∀ (s : State),
     s.smbus.aux = true →
     s.alive = true →
     s.dev.fullWanted = false →
     s.link.perst = false →
     answers .status s fun u => ∃ bs, u.out.smbus = some bs ∧ bs.length = 2 ∧ u.out.smbusNack = false ∧
       bit 0 (leNat bs) = s.dev.ready ∧ bit 1 (leNat bs) = s.dev.fault ∧ bit 2 (leNat bs) = s.dev.secureHalt ∧
       bit 3 (leNat bs) = s.smbus.tripped ∧ bit 4 (leNat bs) = s.smbus.clockLoss ∧ bits 6 5 (leNat bs) = levelCode s.power.level ∧
       bit 7 (leNat bs) = s.emergencyOn ∧ bit 8 (leNat bs) = s.smbus.dieOn ∧ bit 9 (leNat bs) = s.smbus.alert) ∧
  (∀ (s : State),
     s.smbus.aux = true →
     s.alive = true →
     s.dev.fullWanted = false →
     s.link.perst = false →
     (answers .tempHottest s fun u => ∃ bs, u.out.smbus = some bs ∧ u.out.smbusNack = false ∧ bs.length = 1 ∧ leNat bs = s.power.hottest % 256) ∧
     answers .powerIn s fun u => ∃ bs, u.out.smbus = some bs ∧ u.out.smbusNack = false ∧ bs.length = 2 ∧ leNat bs = s.power.inputPower % 65536) ∧
  (∀ (s : State),
     s.smbus.aux = true →
     (s.alive = false ∨ s.link.perst = true) →
     (answers .tempHottest s fun u => u.out.smbus = some [0]) ∧ answers .powerIn s fun u => u.out.smbus = some [0, 0]) ∧
  (∀ (c : Int) (s : State),
     s.smbus.aux = true →
     answers (.tempModule c) s fun u => u.out.smbus = some [BitVec.ofInt 8 c] ∧
       u.out.smbusPec = crc8 [BitVec.ofNat 8 (2 * s.smbus.addr), 2, BitVec.ofNat 8 (2 * s.smbus.addr + 1), BitVec.ofInt 8 c]) ∧
  (∀ (b : Byte) (pec : Pec) (s : State),
     s.smbus.aux = true →
     pec ≠ .wrong →
     (answers (.capSet (some b) pec) s fun u => u.out.smbusNack = false ∧
       u.smbus.capSet = if b = 0 then 0 else max 15 (min 75 b.toNat)) ∧
     (answers (.emergency (some b) pec) s fun u => u.out.smbusNack = false ∧ u.smbus.emergency = bit 0 b.toNat) ∧
     (answers (.clearAlert pec) s fun u => u.out.smbusNack = false ∧ u.smbus.tripped = false ∧ u.smbus.clockLoss = false ∧ u.smbus.alert = false) ∧
     answers (.fruOffset b pec) s fun u => u.out.smbusNack = false ∧ (b.toNat % 32 = 0 → u.smbus.fruOff = b.toNat)) ∧
  (∀ (b : Byte) (c : Instr) (s : State),
     c ∈ [.capSet (some b) .wrong, .emergency (some b) .wrong, .clearAlert .wrong, .fruOffset b .wrong] →
     answers c s fun u => u.out.smbusNack = true ∧ u.smbus = s.smbus) ∧
  (∀ (pec : Pec) (s : State),
     s.smbus.aux = true →
     (answers (.capSet none pec) s fun u => ∃ bs, u.out.smbus = some bs ∧ u.out.smbusNack = false ∧ bs.length = 1 ∧ leNat bs = s.smbus.capSet % 256) ∧
     answers (.emergency none pec) s fun u => ∃ bs, u.out.smbus = some bs ∧ u.out.smbusNack = false ∧ bs.length = 1 ∧ leNat bs = (if s.smbus.emergency then 1 else 0)) ∧
  (∀ (s : State),
     s.smbus.aux = true →
     answers .fruRead s fun u => u.out.smbus = some (fruBlock s.smbus.fruOff) ∧ u.smbus.fruOff = (s.smbus.fruOff + 32) % 256) ∧
  ((fruBlock 0).take 8 = [0x41, 0x73, 0x61, 0x6E, 0x74, 0x6F, 0x75, 0x78] ∧ (fruBlock 32).take 2 = [0xB0, 1]) ∧
  (∀ (s : State),
     s.smbus.aux = true →
     s.smbus.alert = true →
     answers .alertResponse s fun u => u.smbus.alert = false ∧ ∃ bs, u.out.smbus = some bs ∧ u.out.smbusNack = false ∧ bs.length = 1 ∧ leNat bs = 2 * s.smbus.addr % 256) ∧
  (∀ (c : Instr) (s : State),
     (s.smbus.aux = false ∨ (s.smbus.alert = false ∧ c = .alertResponse)) →
     c ∈ [Instr.status, .tempHottest, .powerIn, .fruRead, .alertResponse] →
     answers c s fun u => u.out.smbusNack = true ∧ u.smbus = s.smbus)
end

