-- ==== Sys2Proof/Laws/Mem.lean ====
section
/-! SUPPORT. The laws of a sparse memory: a write reads back and leaves every other address alone, clearing leaves blanks, and
both keep the canonical form. -/

namespace Sys2Proof.Machine

variable {blank : Nat → Byte}

theorem Mem.wf_iff {m : List Host.Cell} :
    Mem.wf blank m = true ↔ m.Pairwise (fun c d => c.1 < d.1) ∧ ∀ c ∈ m, c.2 ≠ blank c.1 := by
  simp [Mem.wf]

theorem Mem.wf_nil : Mem.wf blank [] = true := by simp [Mem.wf]

theorem Mem.wf_filter {m : List Host.Cell} (h : Mem.wf blank m = true) (p : Host.Cell → Bool) :
    Mem.wf blank (m.filter p) = true := by
  rw [Mem.wf_iff] at *
  exact ⟨h.1.filter _, fun c hc => h.2 c (List.mem_of_mem_filter hc)⟩

/-- Cells keep the canonical form when what an unlisted address reads as changes only where nothing is listed. -/
theorem Mem.wf_congr {blank' : Nat → Byte} {m : List Host.Cell} (h : Mem.wf blank m = true)
    (e : ∀ c ∈ m, blank' c.1 = blank c.1) : Mem.wf blank' m = true := by
  rw [Mem.wf_iff] at *
  exact ⟨h.1, fun c hc => by rw [e c hc]; exact h.2 c hc⟩

theorem Mem.wf_clear {m : List Host.Cell} (h : Mem.wf blank m = true) (lo hi : Nat) :
    Mem.wf blank (Mem.clear lo hi m) = true := Mem.wf_filter h _

theorem Mem.cells_range (a : Nat) (bs : List Byte) :
    ∀ c ∈ Mem.cells blank a bs, a ≤ c.1 ∧ c.1 < a + bs.length ∧ c.2 ≠ blank c.1 := by
  induction bs generalizing a with
  | nil => simp [Mem.cells]
  | cons b bs ih =>
    intro c hc
    have step : ∀ c ∈ Mem.cells blank (a + 1) bs, a ≤ c.1 ∧ c.1 < a + (b :: bs).length ∧ c.2 ≠ blank c.1 := by
      intro c hc
      obtain ⟨h1, h2, h3⟩ := ih (a + 1) c hc
      exact ⟨by omega, by simp only [List.length_cons]; omega, h3⟩
    simp only [Mem.cells] at hc
    split at hc
    · exact step c hc
    · rename_i hb
      rcases List.mem_cons.1 hc with rfl | hc
      · exact ⟨by simp, by simp, hb⟩
      · exact step c hc

theorem Mem.cells_pairwise (a : Nat) (bs : List Byte) :
    (Mem.cells blank a bs).Pairwise fun c d => c.1 < d.1 := by
  induction bs generalizing a with
  | nil => simp [Mem.cells]
  | cons b bs ih =>
    simp only [Mem.cells]
    split
    · exact ih (a + 1)
    · refine List.pairwise_cons.2 ⟨fun c hc => ?_, ih (a + 1)⟩
      have h := Mem.cells_range (a + 1) bs c hc
      show a < c.1
      omega

theorem Mem.wf_put {m : List Host.Cell} (h : Mem.wf blank m = true) (a : Nat) (bs : List Byte) :
    Mem.wf blank (Mem.put blank a bs m) = true := by
  rw [Mem.wf_iff] at *
  obtain ⟨hp, hb⟩ := h
  simp only [Mem.put]
  constructor
  · refine List.pairwise_append.2 ⟨hp.filter _, List.pairwise_append.2 ⟨Mem.cells_pairwise a bs, hp.filter _, ?_⟩, ?_⟩
    · intro c hc d hd
      have h1 := Mem.cells_range a bs c hc
      have h2 := (List.mem_filter.1 hd).2
      simp at h2
      omega
    · intro c hc d hd
      have h1 := (List.mem_filter.1 hc).2
      simp at h1
      rcases List.mem_append.1 hd with hd | hd
      · have h2 := Mem.cells_range a bs d hd
        omega
      · have h2 := (List.mem_filter.1 hd).2
        simp at h2
        omega
  · intro c hc
    rcases List.mem_append.1 hc with hc | hc
    · exact hb c (List.mem_of_mem_filter hc)
    · rcases List.mem_append.1 hc with hc | hc
      · exact (Mem.cells_range a bs c hc).2.2
      · exact hb c (List.mem_of_mem_filter hc)

/-! ## Reading -/

/-- No cell of `m` is listed at `a`. -/
theorem Mem.get_of_not_listed {m : List Host.Cell} {a : Nat} (h : ∀ c ∈ m, c.1 ≠ a) : Mem.get blank m a = blank a := by
  induction m with
  | nil => rfl
  | cons c r ih =>
    have hc : c.1 ≠ a := h c (by simp)
    simp only [Mem.get, hc, if_false]
    exact ih fun d hd => h d (by simp [hd])

theorem Mem.get_append_of_not_listed {m r : List Host.Cell} {a : Nat} (h : ∀ c ∈ m, c.1 ≠ a) :
    Mem.get blank (m ++ r) a = Mem.get blank r a := by
  induction m with
  | nil => rfl
  | cons c t ih =>
    have hc : c.1 ≠ a := h c (by simp)
    simp only [List.cons_append, Mem.get, hc, if_false]
    exact ih fun d hd => h d (by simp [hd])

theorem Mem.get_append_listed {m r : List Host.Cell} {a : Nat} (h : ∀ c ∈ r, c.1 ≠ a) :
    Mem.get blank (m ++ r) a = Mem.get blank m a := by
  induction m with
  | nil => exact Mem.get_of_not_listed h
  | cons c t ih => simp only [List.cons_append, Mem.get, ih]

/-- Cells that a filter keeps wherever the address is `a` read the same at `a`. -/
theorem Mem.get_filter {m : List Host.Cell} {a : Nat} {p : Host.Cell → Bool} (h : ∀ c : Host.Cell, c.1 = a → p c = true) :
    Mem.get blank (m.filter p) a = Mem.get blank m a := by
  induction m with
  | nil => rfl
  | cons c r ih =>
    by_cases hc : c.1 = a
    · simp [List.filter, h c hc, Mem.get, hc]
    · by_cases hp : p c = true
      · simp [List.filter, hp, Mem.get, hc, ih]
      · simp [List.filter, hp, Mem.get, hc, ih]

theorem Mem.get_cells (a : Nat) (bs : List Byte) (i : Nat) (h : i < bs.length) :
    Mem.get blank (Mem.cells blank a bs) (a + i) = bs[i] := by
  induction bs generalizing a i with
  | nil => simp at h
  | cons b bs ih =>
    cases i with
    | zero =>
      simp only [Mem.cells]
      split
      · rename_i hb
        rw [Mem.get_of_not_listed]
        · simp [hb]
        · intro c hc
          have := Mem.cells_range (a + 1) bs c hc
          omega
      · simp [Mem.get]
    | succ i =>
      have h' : i < bs.length := by simpa using h
      have e : a + (i + 1) = a + 1 + i := by omega
      simp only [Mem.cells]
      split
      · rw [e, ih (a + 1) i h']; simp
      · have : a ≠ a + (i + 1) := by omega
        simp only [Mem.get, this, if_false]
        rw [e, ih (a + 1) i h']; simp

/-- A write reads back. -/
theorem Mem.get_put_in (m : List Host.Cell) (a : Nat) (bs : List Byte) (i : Nat) (h : i < bs.length) :
    Mem.get blank (Mem.put blank a bs m) (a + i) = bs[i] := by
  simp only [Mem.put]
  rw [Mem.get_append_of_not_listed, Mem.get_append_listed, Mem.get_cells a bs i h]
  · intro c hc
    have := (List.mem_filter.1 hc).2
    simp at this
    omega
  · intro c hc
    have := (List.mem_filter.1 hc).2
    simp at this
    omega

/-- A write leaves every other address alone. -/
theorem Mem.get_put_out (m : List Host.Cell) (a : Nat) (bs : List Byte) (x : Nat) (h : x < a ∨ a + bs.length ≤ x) :
    Mem.get blank (Mem.put blank a bs m) x = Mem.get blank m x := by
  have none : ∀ c ∈ Mem.cells blank a bs, c.1 ≠ x := by
    intro c hc
    have := Mem.cells_range a bs c hc
    omega
  simp only [Mem.put]
  rcases h with h | h
  · have hi : ∀ c ∈ m.filter (fun c => decide (a + bs.length ≤ c.1)), c.1 ≠ x := by
      intro c hc
      have := (List.mem_filter.1 hc).2
      simp at this
      omega
    rw [Mem.get_append_listed, Mem.get_filter]
    · intro c hc; simp; omega
    · intro c hc
      rcases List.mem_append.1 hc with hc | hc
      · exact none c hc
      · exact hi c hc
  · have lo : ∀ c ∈ m.filter (fun c => decide (c.1 < a)), c.1 ≠ x := by
      intro c hc
      have := (List.mem_filter.1 hc).2
      simp at this
      omega
    rw [Mem.get_append_of_not_listed lo, Mem.get_append_of_not_listed none, Mem.get_filter]
    intro c hc; simp; omega

theorem Mem.get_clear_in (m : List Host.Cell) (lo hi x : Nat) (h : lo ≤ x ∧ x < hi) :
    Mem.get blank (Mem.clear lo hi m) x = blank x := by
  apply Mem.get_of_not_listed
  intro c hc
  have := (List.mem_filter.1 hc).2
  simp at this
  omega

theorem Mem.get_clear_out (m : List Host.Cell) (lo hi x : Nat) (h : x < lo ∨ hi ≤ x) :
    Mem.get blank (Mem.clear lo hi m) x = Mem.get blank m x := by
  simp only [Mem.clear]
  rw [Mem.get_filter]
  intro c hc; simp; omega

/-- A block read is the byte read at each address. -/
theorem Mem.read_eq (m : List Host.Cell) (a n : Nat) :
    Mem.read blank m a n = (List.range n).map fun i => Mem.get blank m (a + i) := by
  simp only [Mem.read]
  apply List.map_congr_left
  intro i hi
  have : i < n := List.mem_range.1 hi
  rw [Mem.get_filter]
  intro c hc; simp; omega

theorem Mem.read_put_in (m : List Host.Cell) (a : Nat) (bs : List Byte) :
    Mem.read blank (Mem.put blank a bs m) a bs.length = bs := by
  rw [Mem.read_eq]
  apply List.ext_getElem (by simp)
  intro i h1 h2
  simp [Mem.get_put_in m a bs i h2]

end Sys2Proof.Machine
end

