-- ==== Sys2Proof/Laws/Touch.lean ====
section
/-! SUPPORT. The algebra of `Touch`: the parts common to two sets, a set within another, and overwriting twice. -/

namespace Sys2Proof.Machine

/-- The parts that both sets hold. -/
def Touch.meet (g f : Touch) : Touch :=
  { tNow := g.tNow && f.tNow
    tFree := g.tFree && f.tFree
    tDev := g.tDev && f.tDev
    tQps := g.tQps && f.tQps
    tJobs := g.tJobs && f.tJobs
    tLink := g.tLink && f.tLink
    tFaults := g.tFaults && f.tFaults
    tEngines := g.tEngines && f.tEngines
    tMerges := g.tMerges && f.tMerges
    tCounters := g.tCounters && f.tCounters
    tCtrBlocks := g.tCtrBlocks && f.tCtrBlocks
    tParts := g.tParts && f.tParts
    tKvs := g.tKvs && f.tKvs
    tSeqs := g.tSeqs && f.tSeqs
    tGens := g.tGens && f.tGens
    tSlots := g.tSlots && f.tSlots
    tMoves := g.tMoves && f.tMoves
    tMems := g.tMems && f.tMems
    tEcho := g.tEcho && f.tEcho
    tVision := g.tVision && f.tVision
    tDram := g.tDram && f.tDram
    tFlash := g.tFlash && f.tFlash
    tSiphon := g.tSiphon && f.tSiphon
    tPassage := g.tPassage && f.tPassage
    tSec := g.tSec && f.tSec
    tKadon := g.tKadon && f.tKadon
    tTrace := g.tTrace && f.tTrace
    tReplay := g.tReplay && f.tReplay
    tPower := g.tPower && f.tPower
    tDrip := g.tDrip && f.tDrip
    tSmbus := g.tSmbus && f.tSmbus
    tOut := g.tOut && f.tOut }

/-- The parts of `g` are parts of `f`. -/
def Touch.Le (g f : Touch) : Prop := g.meet f = g

theorem Touch.meet_assoc (h g f : Touch) : (h.meet g).meet f = h.meet (g.meet f) := by
  simp only [Touch.meet, Bool.and_assoc]

theorem Touch.Le.refl (f : Touch) : f.Le f := by simp [Touch.Le, Touch.meet]

theorem Touch.Le.sub {g f h : Touch} (k : g.Le f) (l : h.Le g) : h.Le f := by
  have m : (h.meet g).meet f = h.meet g := (Touch.meet_assoc h g f).trans (congrArg h.meet k)
  rwa [show h.meet g = h from l] at m

theorem cond_cond_right {α : Type} (c : Bool) (x y z : α) : cond c x (cond c y z) = cond c x z := by cases c <;> rfl

theorem cond_cond_left {α : Type} (f g : Bool) (x y : α) : cond f (cond g x y) y = cond (g && f) x y := by
  cases f <;> cases g <;> rfl

theorem Touch.ow_self (f : Touch) (s : State) : f.ow s s = s := by simp [Touch.ow]

theorem Touch.ow_ow (f : Touch) (t s b : State) : f.ow t (f.ow s b) = f.ow t b := by
  simp only [Touch.ow, cond_cond_right]

theorem Touch.ow_meet (g f : Touch) (t s : State) : f.ow (g.ow t s) s = (g.meet f).ow t s := by
  simp only [Touch.ow, Touch.meet, cond_cond_left]

theorem Touch.Le.ow {g f : Touch} (k : g.Le f) {s t : State} (o : t = g.ow t s) : t = f.ow t s := by
  have m := Touch.ow_meet g f t s
  rw [show g.meet f = g from k, ← o] at m
  exact m.symm

end Sys2Proof.Machine
end

