-- ==== Sys2Proof/Laws/Keep.lean ====
section
/-! SUPPORT. What every operation keeps: the parts of the state that it does not touch, the canonical form of the
memories, the bounds of the fault queue and the number of the units. `Keeps b s` says it of a state `s` reached from `b`; the predicates below say it of the
results that carry a state beside something else. -/

namespace Sys2Proof.Machine

/-- Where a claim of `Keeps` starts: the parts of the state that may change, and the state at the start. -/
structure From where
  may : Touch
  start : State

/-- From `b.start` to `s`, only the parts of `b.may` differ, and soundness is kept, part by part. -/
structure Keeps (b : From) (s : State) : Prop where
  only : s = b.may.ow s b.start
  canon : b.start.mems.canon = true → s.mems.canon = true
  bounded : b.start.faults.bounded = true → s.faults.bounded = true
  shaped : b.start.shaped = true → s.shaped = true

theorem Keeps.refl (f : Touch) (s : State) : Keeps ⟨f, s⟩ s := ⟨(f.ow_self s).symm, id, id, id⟩

theorem Keeps.trans {b : From} {s t : State} (h : Keeps b s) (k : Keeps ⟨b.may, s⟩ t) : Keeps b t := by
  refine ⟨?_, k.canon ∘ h.canon, k.bounded ∘ h.bounded, k.shaped ∘ h.shaped⟩
  have o : t = b.may.ow t s := k.only
  rw [h.only, Touch.ow_ow] at o
  exact o

theorem Keeps.sound {b : From} {s : State} (h : Keeps b s) (k : b.start.sound = true) : s.sound = true := by
  simp only [State.sound, Bool.and_eq_true] at *
  exact ⟨⟨h.canon k.1.1, h.bounded k.1.2⟩, h.shaped k.2⟩

theorem Keeps.queue {b : From} {s : State} (h : Keeps b s) : s.pending = b.start.pending := by rw [h.only]; rfl

section
variable {g : Touch} {b : From} {s t : State}

/-- An update of other fields. -/
theorem Keeps.upd (hF : g.Le b.may) (h : Keeps b s) (o : t = g.ow t s) (hm : t.mems = s.mems)
    (hf : t.faults.head = s.faults.head ∧ t.faults.tail = s.faults.tail) (hs : t.shaped = s.shaped) : Keeps b t :=
  h.trans ⟨hF.ow o, by rw [hm]; exact id, by simp only [Faults.bounded, hf.1, hf.2]; exact id, by rw [hs]; exact id⟩

/-- An update that moves FAULT_HEAD or FAULT_TAIL within the bounds. -/
theorem Keeps.updFaults (hF : g.Le b.may) (h : Keeps b s) (o : t = g.ow t s) (hm : t.mems = s.mems)
    (hf : s.faults.bounded = true → t.faults.bounded = true) (hs : t.shaped = s.shaped) : Keeps b t :=
  h.trans ⟨hF.ow o, by rw [hm]; exact id, hf, by rw [hs]; exact id⟩

end

theorem Faults.consume_bounded (q : Faults) (v : Nat) (h : q.bounded = true) : (q.consume v).bounded = true := by
  unfold Faults.consume
  split
  · have : q.tail ≤ q.tailAt (v % 2 ^ 16) := Nat.le_add_right _ _
    simp only [Faults.bounded, Bool.and_eq_true, decide_eq_true_eq] at *
    omega
  · exact h

/-! ## Results that carry a state -/

abbrev KFst {α : Type} (b : From) (r : State × α) : Prop := Keeps b r.1
abbrev KSnd {α : Type} (b : From) (r : α × State) : Prop := Keeps b r.2
abbrev KSnd2 {α β : Type} (b : From) (r : α × β × State) : Prop := Keeps b r.2.2

def KOpt {α : Type} (Q : α → Prop) (o : Option α) : Prop := ∀ x, o = some x → Q x

def KInr {α : Type} (b : From) (r : α ⊕ State) : Prop := ∀ s, r = .inr s → Keeps b s
def KSum2 (b : From) (r : State ⊕ State) : Prop := ∀ s, r = .inl s ∨ r = .inr s → Keeps b s
def KOut (b : From) (r : Res) : Prop := ∀ s, r = .next s → Keeps b s
def KApp (b : From) (r : AppRes) : Prop := ∀ s x, r = .ok s x → Keeps b s
def KEnt (b : From) (r : EntRes) : Prop := ∀ s, r = .stop s → Keeps b s
def KItem (b : From) (r : ItemRes) : Prop := (∀ s, r = .done s → Keeps b s) ∧ ∀ n s, r = .failIn n s → Keeps b s
def KRun (b : From) (r : RunRes) : Prop := (∀ n s, r = .done n s → Keeps b s) ∧ ∀ s, r = .worn s → Keeps b s
def KLand (b : From) (r : Landed) : Prop := (∀ n s, r = .done n s → Keeps b s) ∧ ∀ s, r = .worn s → Keeps b s
def KStep (b : From) (r : StepRes) : Prop :=
  (∀ s x, r = .done s x → Keeps b s) ∧ (∀ s x y, r = .fault s x y → Keeps b s) ∧ ∀ s, r = .wait s → Keeps b s

section
variable {α β : Type} {b : From} {s : State} {Q : α → Prop}

theorem keepsMkFst {x : α} (h : Keeps b s) : KFst b (s, x) := h
theorem keepsMkSnd {x : α} (h : Keeps b s) : KSnd b (x, s) := h
theorem keepsMkSnd2 {x : α} {y : β} (h : Keeps b s) : KSnd2 b (x, y, s) := h
theorem KOpt.none : KOpt Q Option.none := fun _ h => nomatch h
theorem KOpt.some {x : α} (h : Q x) : KOpt Q (Option.some x) := fun _ e => Option.some.inj e ▸ h
theorem KOpt.getD {o : Option α} {d : α} (h : KOpt Q o) (k : Q d) : Q (o.getD d) := by
  cases o with
  | none => exact k
  | some x => exact h x rfl
theorem KOpt.map {R : β → Prop} {o : Option α} {f : α → β} (h : KOpt Q o) (k : ∀ x, Q x → R (f x)) : KOpt R (o.map f) := by
  cases o with
  | none => exact KOpt.none
  | some x => exact KOpt.some (k x (h x rfl))
theorem KOpt.map' {R : β → Prop} {o : Option α} {f : α → β} (k : ∀ x, R (f x)) : KOpt R (o.map f) := by
  cases o with
  | none => exact KOpt.none
  | some x => exact KOpt.some (k x)
theorem KOpt.or {o p : Option α} (h : KOpt Q o) (k : KOpt Q p) : KOpt Q (o.or p) := by
  cases o with
  | none => exact k
  | some x => exact h
theorem KOpt.orElse {o : Option α} {f : Unit → Option α} (h : KOpt Q o) (k : KOpt Q (f ())) : KOpt Q (o.orElse f) := by
  cases o with
  | none => exact k
  | some x => exact h
theorem KOpt.bind {R : β → Prop} {o : Option α} {f : α → Option β} (h : KOpt Q o) (k : ∀ x, Q x → KOpt R (f x)) :
    KOpt R (o.bind f) := by
  cases o with
  | none => exact KOpt.none
  | some x => exact k x (h x rfl)
theorem KOpt.bind' {R : β → Prop} {o : Option α} {f : α → Option β} (k : ∀ x, KOpt R (f x)) : KOpt R (o.bind f) := by
  cases o with
  | none => exact KOpt.none
  | some x => exact k x
theorem KInr.inl {x : α} : KInr b (Sum.inl x : α ⊕ State) := fun _ e => nomatch e
theorem KInr.inr (h : Keeps b s) : KInr b (Sum.inr s : α ⊕ State) := fun _ e => Sum.inr.inj e ▸ h
theorem KSum2.inl (h : Keeps b s) : KSum2 b (.inl s) := fun _ e => e.elim (fun e => Sum.inl.inj e ▸ h) fun e => nomatch e
theorem KSum2.inr (h : Keeps b s) : KSum2 b (.inr s) := fun _ e => e.elim (fun e => nomatch e) fun e => Sum.inr.inj e ▸ h
theorem KOut.next (h : Keeps b s) : KOut b (.next s) := fun _ e => Host.Outcome.next.inj e ▸ h
theorem KApp.ok {x : Bool} (h : Keeps b s) : KApp b (.ok s x) := fun _ _ e => (AppRes.ok.inj e).1 ▸ h
theorem KApp.noUnit : KApp b .noUnit := fun _ _ e => nomatch e
theorem KApp.bad : KApp b .bad := fun _ _ e => nomatch e
theorem KEnt.ok {x : Ent} : KEnt b (.ok x) := fun _ e => nomatch e
theorem KEnt.bad : KEnt b .bad := fun _ e => nomatch e
theorem KEnt.stop (h : Keeps b s) : KEnt b (.stop s) := fun _ e => EntRes.stop.inj e ▸ h
theorem KItem.done (h : Keeps b s) : KItem b (.done s) := ⟨fun _ e => ItemRes.done.inj e ▸ h, fun _ _ e => nomatch e⟩
theorem KItem.failIn {n : Nat} (h : Keeps b s) : KItem b (.failIn n s) :=
  ⟨fun _ e => (nomatch e), fun _ _ e => (ItemRes.failIn.inj e).2 ▸ h⟩
theorem KItem.noUnit : KItem b .noUnit := ⟨fun _ e => (nomatch e), fun _ _ e => nomatch e⟩
theorem KItem.later : KItem b .later := ⟨fun _ e => (nomatch e), fun _ _ e => nomatch e⟩
theorem KItem.fail {n : Nat} : KItem b (.fail n) := ⟨fun _ e => (nomatch e), fun _ _ e => nomatch e⟩
theorem KRun.done {n : Nat} (h : Keeps b s) : KRun b (.done n s) := ⟨fun _ _ e => (RunRes.done.inj e).2 ▸ h, fun _ e => nomatch e⟩
theorem KRun.worn (h : Keeps b s) : KRun b (.worn s) := ⟨fun _ _ e => (nomatch e), fun _ e => RunRes.worn.inj e ▸ h⟩
theorem KRun.noRoom : KRun b .noRoom := ⟨fun _ _ e => (nomatch e), fun _ e => nomatch e⟩
theorem KRun.held : KRun b .held := ⟨fun _ _ e => (nomatch e), fun _ e => nomatch e⟩
theorem KLand.done {n : Nat} (h : Keeps b s) : KLand b (.done n s) := ⟨fun _ _ e => (Landed.done.inj e).2 ▸ h, fun _ e => nomatch e⟩
theorem KLand.worn (h : Keeps b s) : KLand b (.worn s) := ⟨fun _ _ e => (nomatch e), fun _ e => Landed.worn.inj e ▸ h⟩
theorem KLand.noRoom : KLand b .noRoom := ⟨fun _ _ e => (nomatch e), fun _ e => nomatch e⟩
theorem KLand.later : KLand b .later := ⟨fun _ _ e => (nomatch e), fun _ e => nomatch e⟩
theorem KStep.done {x : Ctx} (h : Keeps b s) : KStep b (.done s x) :=
  ⟨fun _ _ e => (StepRes.done.inj e).1 ▸ h, fun _ _ _ e => (nomatch e), fun _ e => nomatch e⟩
theorem KStep.fault {x : CtxCause} {n : Nat} (h : Keeps b s) : KStep b (.fault s x n) :=
  ⟨fun _ _ e => (nomatch e), fun _ _ _ e => (StepRes.fault.inj e).1 ▸ h, fun _ e => nomatch e⟩
theorem KStep.wait (h : Keeps b s) : KStep b (.wait s) :=
  ⟨fun _ _ e => (nomatch e), fun _ _ _ e => (nomatch e), fun _ e => StepRes.wait.inj e ▸ h⟩

/-! ## What a matched result holds -/

theorem KOpt.of {o : Option α} {x : α} (e : o = Option.some x) (k : KOpt Q o) : Q x := k x e
theorem KOpt.ofFst {o : Option (State × α)} {x : α} (e : o = Option.some (s, x)) (k : KOpt (KFst b) o) : Keeps b s := k _ e
theorem KOpt.ofSnd {o : Option (α × State)} {x : α} (e : o = Option.some (x, s)) (k : KOpt (KSnd b) o) : Keeps b s := k _ e
theorem KOpt.ofSnd2 {o : Option (α × β × State)} {x : α} {y : β} (e : o = Option.some (x, y, s)) (k : KOpt (KSnd2 b) o) :
    Keeps b s := k _ e
theorem keepsFst {r : State × α} {x : α} (e : r = (s, x)) (k : KFst b r) : Keeps b s := by subst e; exact k
theorem keepsSnd {r : α × State} {x : α} (e : r = (x, s)) (k : KSnd b r) : Keeps b s := by subst e; exact k
theorem KInr.of {r : α ⊕ State} (e : r = Sum.inr s) (k : KInr b r) : Keeps b s := k s e
theorem KSum2.ofl {r : State ⊕ State} (e : r = Sum.inl s) (k : KSum2 b r) : Keeps b s := k s (.inl e)
theorem KSum2.ofr {r : State ⊕ State} (e : r = Sum.inr s) (k : KSum2 b r) : Keeps b s := k s (.inr e)
theorem KApp.of {r : AppRes} {x : Bool} (e : r = .ok s x) (k : KApp b r) : Keeps b s := k s x e
theorem KEnt.of {r : EntRes} (e : r = .stop s) (k : KEnt b r) : Keeps b s := k s e
theorem KItem.of {r : ItemRes} (e : r = .done s) (k : KItem b r) : Keeps b s := k.1 s e
theorem KItem.ofFail {r : ItemRes} {n : Nat} (e : r = .failIn n s) (k : KItem b r) : Keeps b s := k.2 n s e
theorem KRun.ofDone {r : RunRes} {n : Nat} (e : r = .done n s) (k : KRun b r) : Keeps b s := k.1 n s e
theorem KRun.ofWorn {r : RunRes} (e : r = .worn s) (k : KRun b r) : Keeps b s := k.2 s e
theorem KLand.ofDone {r : Landed} {n : Nat} (e : r = .done n s) (k : KLand b r) : Keeps b s := k.1 n s e
theorem KLand.ofWorn {r : Landed} (e : r = .worn s) (k : KLand b r) : Keeps b s := k.2 s e
theorem KStep.ofDone {r : StepRes} {x : Ctx} (e : r = .done s x) (k : KStep b r) : Keeps b s := k.1 s x e
theorem KStep.ofFault {r : StepRes} {x : CtxCause} {n : Nat} (e : r = .fault s x n) (k : KStep b r) : Keeps b s := k.2.1 s x n e
theorem KStep.ofWait {r : StepRes} (e : r = .wait s) (k : KStep b r) : Keeps b s := k.2.2 s e

/-! ## Shapes of a definition -/

theorem keepsFold {f : α → β → α} {a : α} {l : List β} (h : Q a) (k : ∀ x y, Q x → Q (f x y)) : Q (l.foldl f a) := by
  induction l generalizing a with
  | nil => exact h
  | cons y l ih => exact ih (k a y h)

end

/-! ## The operations that touch the memories -/

section
variable {b : From} {s : State}

theorem heal_keeps (hF : Touch.nothing.dram.Le b.may) (h : Keeps b s) (a n : Nat) : Keeps b (s.heal a n) 
    := Keeps.upd hF h rfl rfl ⟨rfl, rfl⟩ rfl

theorem Mems.canon_iff {m : Mems} : m.canon = true ↔ Mem.wf m.blank m.bytes = true ∧ Mem.wf flashBlank m.flash = true ∧
    ∀ f ∈ m.fills, f.1 % granuleBytes + f.2.1 ≤ granuleBytes := by
  simp [Mems.canon, and_assoc]

/-- Other cells in canonical form, with the same fills and ciphertext. -/
theorem Keeps.cells {t : State} {g : Touch} (hF : g.Le b.may) (h : Keeps b s) (o : t = g.ow t s) (hc : t.mems.cipher = s.mems.cipher)
    (hl : t.mems.fills = s.mems.fills)
    (hb : Mem.wf s.mems.blank s.mems.bytes = true → Mem.wf s.mems.blank t.mems.bytes = true)
    (hf : Mem.wf flashBlank s.mems.flash = true → Mem.wf flashBlank t.mems.flash = true) (hr : t.faults = s.faults)
    (hs : t.shaped = s.shaped) : Keeps b t := by
  refine h.trans ⟨hF.ow o, ?_, by rw [hr]; exact id, by rw [hs]; exact id⟩
  have e : t.mems.blank = s.mems.blank := by funext a; simp only [Mems.blank, hc, hl]
  simp only [Mems.canon_iff, e, hl]
  exact fun k => ⟨hb k.1, hf k.2.1, k.2.2⟩

theorem put_keeps (hF : Touch.nothing.mems.dram.Le b.may) (h : Keeps b s) (a : Nat) (bs : List Byte) : Keeps b (s.put a bs) :=
  heal_keeps (hF.sub rfl) (Keeps.cells hF h (t := { s with mems := { s.mems with bytes := Mem.put s.blank a bs s.mems.bytes } })
    rfl rfl rfl (fun k => Mem.wf_put k a bs) id rfl rfl) a bs.length

theorem clearCells_keeps (hF : Touch.nothing.mems.dram.Le b.may) (h : Keeps b s) (a n : Nat) : Keeps b (s.clearCells a n) :=
  heal_keeps (hF.sub rfl) (Keeps.cells hF h (t := { s with mems := { s.mems with bytes := Mem.clear a (a + n) s.mems.bytes } })
    rfl rfl rfl (fun k => Mem.wf_clear k a (a + n)) id rfl rfl) a n

theorem flashPut_keeps (hF : Touch.nothing.mems.Le b.may) (h : Keeps b s) (a : Nat) (bs : List Byte) : Keeps b (s.flashPut a bs) :=
  Keeps.cells hF h rfl rfl rfl id (fun k => Mem.wf_put k a bs) rfl rfl

theorem flashClear_keeps (hF : Touch.nothing.mems.Le b.may) (h : Keeps b s) (a n : Nat) : Keeps b (s.flashClear a n) :=
  Keeps.cells hF h rfl rfl rfl id (fun k => Mem.wf_clear k a (a + n)) rfl rfl

/-- What an unlisted address reads as changes within the filled area only. -/
theorem Mems.blank_fill (m : Mems) (a n : Nat) (v : Byte) (x : Nat) (h : x < a ∨ a + n ≤ x) :
    { m with fills := (a, n, v) :: m.fills }.blank x = m.blank x := by
  have : (decide (a ≤ x) && decide (x < a + n)) = false := by simp; omega
  simp [Mems.blank, List.find?, this]

theorem granule_fits (g : Nat) : g * granuleBytes % granuleBytes + granuleBytes ≤ granuleBytes := by simp

theorem fill_keeps (hF : Touch.nothing.mems.dram.Le b.may) (h : Keeps b s) (a n : Nat) (v : Byte) (hn : a % granuleBytes + n ≤ granuleBytes) : Keeps b (s.fill a n v) := by
  refine (clearCells_keeps (hF.sub rfl) h a n).trans ⟨hF.ow rfl, ?_, id, id⟩
  simp only [Mems.canon_iff]
  rintro ⟨k1, k2, k3⟩
  refine ⟨Mem.wf_congr k1 fun c hc => ?_, k2, fun f hf => ?_⟩
  · have := (List.mem_filter.1 hc).2
    simp at this
    exact Mems.blank_fill _ a n v c.1 (by omega)
  · rcases List.mem_cons.1 hf with rfl | hf
    · exact hn
    · exact k3 f hf

end

theorem assoc_assocDel {β : Type} (l : List (Nat × β)) {k x : Nat} (h : x ≠ k) : assoc (assocDel l k) x = assoc l x := by
  have : (l.filter fun p => p.1 != k).find? (fun p => p.1 == x) = l.find? fun p => p.1 == x := by
    rw [List.find?_filter]
    congr 1
    funext p
    by_cases hp : p.1 = x
    · simp [hp, h]
    · simp [hp]
  simp only [assoc, assocDel, this]

theorem assoc_assocSet {β : Type} (l : List (Nat × β)) {k x : Nat} (v : β) (h : x ≠ k) :
    assoc (assocSet l k v) x = assoc l x := by
  have := assoc_assocDel l h
  simp only [assoc, assocDel, assocSet] at *
  rw [List.find?_cons_of_neg (by simpa using h.symm)]
  exact this

/-- Fills that do not hold `x` do not count for it. -/
theorem find_fill_filter (l : List (Nat × Nat × Byte)) (keep : Nat × Nat × Byte → Bool) (x : Nat)
    (h : ∀ f ∈ l, keep f = false → ¬ (f.1 ≤ x ∧ x < f.1 + f.2.1)) :
    (l.filter keep).find? (fun f => decide (f.1 ≤ x) && decide (x < f.1 + f.2.1)) =
      l.find? fun f => decide (f.1 ≤ x) && decide (x < f.1 + f.2.1) := by
  induction l with
  | nil => rfl
  | cons f l ih =>
    have ih := ih fun g hg => h g (List.mem_cons_of_mem _ hg)
    by_cases hk : keep f = true
    · rw [List.filter_cons_of_pos hk]
      simp only [List.find?_cons, ih]
    · rw [List.filter_cons_of_neg hk, ih, List.find?_cons_of_neg]
      have := h f (List.mem_cons_self ..) (by simpa using hk)
      simpa using this

theorem forgetGranule_keeps {b : From} {s : State} {g : Nat} (hF : Touch.nothing.mems.dram.Le b.may) (h : Keeps b s) : Keeps b (s.forgetGranule g) := by
  refine (clearCells_keeps (hF.sub rfl) h (g * granuleBytes) granuleBytes).trans ⟨hF.ow rfl, ?_, id, id⟩
  simp only [Mems.canon_iff]
  rintro ⟨k1, k2, k3⟩
  refine ⟨Mem.wf_congr k1 fun c hc => ?_, k2, fun f hf => k3 f (List.mem_of_mem_filter hf)⟩
  have hc := (List.mem_filter.1 hc).2
  simp at hc
  have hg : c.1 / granuleBytes ≠ g := by unfold granuleBytes at *; omega
  simp only [Mems.blank, State.forgetGranule]
  rw [find_fill_filter, assoc_assocDel _ hg]
  intro f hf hk
  have := k3 f hf
  simp at hk
  unfold granuleBytes at *
  omega

theorem markGranule_keeps {b : From} {s : State} {mark : DramMark} {g : Nat} (hF : Touch.nothing.mems.dram.Le b.may) (h : Keeps b s) : Keeps b (s.markGranule mark g) := by
  refine (forgetGranule_keeps (hF.sub rfl) (g := g) h).trans ⟨hF.ow rfl, ?_, id, id⟩
  simp only [Mems.canon_iff]
  rintro ⟨k1, k2, k3⟩
  refine ⟨Mem.wf_congr k1 fun c hc => ?_, k2, k3⟩
  have hc := (List.mem_filter.1 hc).2
  simp at hc
  have hg : c.1 / granuleBytes ≠ g := by unfold granuleBytes at *; omega
  simp only [Mems.blank, State.markGranule]
  rw [assoc_assocSet _ _ hg]

/-- Memory outside DRAM keeps its cells and its blanks when DRAM, or the device's own memory, is lost. -/
theorem lost_canon {m : Mems} (h : m.canon = true) {g : Nat} (hg : 96 ≤ g) (free : Nat) :
    (m.lost (g * granuleBytes) free).canon = true := by
  simp only [Mems.canon_iff] at *
  obtain ⟨k1, k2, k3⟩ := h
  refine ⟨Mem.wf_congr (Mem.wf_filter k1 _) fun c hc => ?_, k2, fun f hf => k3 f (List.mem_of_mem_filter hf)⟩
  have hc := (List.mem_filter.1 hc).2
  simp only [decide_eq_true_eq] at hc
  have ha : ¬ c.1 < 96 * granuleBytes := by unfold granuleBytes at *; omega
  simp only [Mems.blank, Mems.lost, ha, if_false]
  rw [find_fill_filter]
  · cases List.find? _ _ with
    | some f => rfl
    | none =>
      cases assoc _ _ <;> cases assoc _ _ <;> rfl
  · intro f hf hk
    have := k3 f hf
    simp at hk
    unfold granuleBytes at *
    omega

end Sys2Proof.Machine
end

