-- ==== Sys2Proof/Laws/KeepOps.lean ====
section
/-! SUPPORT. What the operations of Machine/Ops.lean keep (Laws/Keep.lean). -/

namespace Sys2Proof.Machine

variable {b : From}

theorem drawFree_keeps {s : State} (hF : Touch.nothing.free.Le b.may) (h : Keeps b s) :
    Keeps b (State.drawFree s) := (Keeps.upd hF h rfl rfl ⟨rfl, rfl⟩ rfl)

theorem modEng_keeps {s : State} {e : Nat} {f : Engine → Engine} (hF : Touch.nothing.engines.Le b.may) (h : Keeps b s) :
    Keeps b (State.modEng s e f) := by
  delta State.modEng
  exact (Keeps.upd hF h rfl rfl ⟨rfl, rfl⟩ (by simp +zetaDelta [State.shaped]))

theorem dropCtx_keeps {s : State} {e : Nat} {c : Nat} (hF : Touch.nothing.engines.Le b.may) (h : Keeps b s) :
    Keeps b (State.dropCtx s e c) := (modEng_keeps (hF.sub rfl) h)

theorem dropJob_keeps {s : State} {uid : Nat} (hF : Touch.nothing.jobs.Le b.may) (h : Keeps b s) :
    Keeps b (State.dropJob s uid) := (Keeps.upd hF h rfl rfl ⟨rfl, rfl⟩ rfl)

theorem modFn_keeps {s : State} {fn : Fn} {f : FnSt → FnSt} (hF : Touch.nothing.link.Le b.may) (h : Keeps b s) :
    Keeps b (State.modFn s fn f) := by
  delta State.modFn
  extract_lets -merge x1 x2
  split
  · exact (Keeps.upd hF h rfl rfl ⟨rfl, rfl⟩ rfl)
  · exact (Keeps.upd hF h rfl rfl ⟨rfl, rfl⟩ (by simp +zetaDelta [State.shaped]))

theorem raiseMsix_keeps {s : State} {fn : Fn} {e : Nat} (hF : Touch.nothing.link.out.Le b.may) (h : Keeps b s) :
    Keeps b (State.raiseMsix s fn e) := by
  delta State.raiseMsix
  extract_lets -merge x1
  split
  · exact (Keeps.upd hF h rfl rfl ⟨rfl, rfl⟩ rfl)
  · split
    · exact h
    · exact (modFn_keeps (hF.sub rfl) h)

theorem enterFault_keeps {s : State} {r : FaultRec} (hF : Touch.nothing.record.Le b.may) (h : Keeps b s) :
    Keeps b (State.enterFault s r) := by
  simp only [State.enterFault]
  split
  · exact Keeps.upd hF h rfl rfl ⟨rfl, rfl⟩ rfl
  · refine raiseMsix_keeps (hF.sub rfl) (Keeps.updFaults hF h rfl rfl ?_ rfl)
    simp only [Faults.bounded, Bool.and_eq_true, decide_eq_true_eq]
    omega

theorem flushMsix_keeps {s : State} {fn : Fn} (hF : Touch.nothing.link.out.Le b.may) (h : Keeps b s) :
    Keeps b (State.flushMsix s fn) := by
  delta State.flushMsix
  extract_lets -merge x1 x2 x3 x4
  clear_value x2
  have h4 : Keeps b x4 := (Keeps.upd hF h rfl rfl ⟨rfl, rfl⟩ rfl); clear_value x4
  split
  · exact (modFn_keeps (hF.sub rfl) h4)
  · exact h

theorem keepStore_keeps {s : State} {held : List TraceRec} (hF : Touch.nothing.trace.Le b.may) (h : Keeps b s) :
    Keeps b (State.keepStore s held) := (Keeps.upd hF h rfl rfl ⟨rfl, rfl⟩ rfl)

theorem later_keeps {s : State} {source : Nat} {cls : Nat} {detail : Nat} {info : Nat} (hF : Touch.nothing.dev.Le b.may)
    (h : Keeps b s) :
    Keeps b (State.later s source cls detail info) := (Keeps.upd hF h rfl rfl ⟨rfl, rfl⟩ rfl)

theorem loseDram_keeps {s : State} (hF : Touch.nothing.free.mems.Le b.may) (h : Keeps b s) :
    Keeps b (State.loseDram s) := by
  exact h.trans ⟨hF.ow rfl, fun k => lost_canon k (Nat.le_refl _) _, id, id⟩

theorem modChan_keeps {s : State} {c : Nat} {f : Chan → Chan} (hF : Touch.nothing.dram.Le b.may) (h : Keeps b s) :
    Keeps b (State.modChan s c f) := by
  delta State.modChan
  exact (Keeps.upd hF h rfl rfl ⟨rfl, rfl⟩ (by simp +zetaDelta [State.shaped]))

theorem modCp_keeps {s : State} {n : Nat} {f : Cp → Cp} (hF : Touch.nothing.kadon.Le b.may) (h : Keeps b s) :
    Keeps b (State.modCp s n f) := by
  delta State.modCp
  exact (Keeps.upd hF h rfl rfl ⟨rfl, rfl⟩ (by simp +zetaDelta [State.shaped]))

theorem modCtx_keeps {s : State} {e : Nat} {c : Nat} {f : Ctx → Ctx} (hF : Touch.nothing.engines.Le b.may)
    (h : Keeps b s) :
    Keeps b (State.modCtx s e c f) := (modEng_keeps (hF.sub rfl) h)

theorem modDie_keeps {s : State} {n : Nat} {f : Die → Die} (hF : Touch.nothing.flash.Le b.may) (h : Keeps b s) :
    Keeps b (State.modDie s n f) := by
  delta State.modDie
  exact (Keeps.upd hF h rfl rfl ⟨rfl, rfl⟩ (by simp +zetaDelta [State.shaped]))

theorem modDport_keeps {s : State} {n : Nat} {f : Port → Port} (hF : Touch.nothing.dram.Le b.may) (h : Keeps b s) :
    Keeps b (State.modDport s n f) := by
  delta State.modDport
  exact (Keeps.upd hF h rfl rfl ⟨rfl, rfl⟩ (by simp +zetaDelta [State.shaped]))

theorem modJob_keeps {s : State} {uid : Nat} {f : Job → Job} (hF : Touch.nothing.jobs.Le b.may) (h : Keeps b s) :
    Keeps b (State.modJob s uid f) := (Keeps.upd hF h rfl rfl ⟨rfl, rfl⟩ rfl)

theorem modKv_keeps {s : State} {p : Nat} {f : Kv → Kv} (hF : Touch.nothing.kvs.Le b.may) (h : Keeps b s) :
    Keeps b (State.modKv s p f) := by
  delta State.modKv
  exact (Keeps.upd hF h rfl rfl ⟨rfl, rfl⟩ (by simp +zetaDelta [State.shaped]))

theorem modPart_keeps {s : State} {p : Nat} {f : Part → Part} (hF : Touch.nothing.parts.Le b.may) (h : Keeps b s) :
    Keeps b (State.modPart s p f) := by
  delta State.modPart
  exact (Keeps.upd hF h rfl rfl ⟨rfl, rfl⟩ (by simp +zetaDelta [State.shaped]))

theorem modPport_keeps {s : State} {n : Nat} {f : PPort → PPort} (hF : Touch.nothing.passage.Le b.may) (h : Keeps b s) :
    Keeps b (State.modPport s n f) := by
  delta State.modPport
  exact (Keeps.upd hF h rfl rfl ⟨rfl, rfl⟩ (by simp +zetaDelta [State.shaped]))

theorem modQp_keeps {s : State} {n : Nat} {f : Qp → Qp} (hF : Touch.nothing.qps.Le b.may) (h : Keeps b s) :
    Keeps b (State.modQp s n f) := by
  delta State.modQp
  exact (Keeps.upd hF h rfl rfl ⟨rfl, rfl⟩ (by simp +zetaDelta [State.shaped]))

theorem modSch_keeps {s : State} {n : Nat} {f : SChan → SChan} (hF : Touch.nothing.siphon.Le b.may) (h : Keeps b s) :
    Keeps b (State.modSch s n f) := by
  delta State.modSch
  exact (Keeps.upd hF h rfl rfl ⟨rfl, rfl⟩ (by simp +zetaDelta [State.shaped]))

theorem modSeq_keeps {s : State} {idx : Nat} {f : Seq → Seq} (hF : Touch.nothing.seqs.Le b.may) (h : Keeps b s) :
    Keeps b (State.modSeq s idx f) := (Keeps.upd hF h rfl rfl ⟨rfl, rfl⟩ rfl)

theorem modSlot_keeps {s : State} {n : Nat} {f : Slot → Slot} (hF : Touch.nothing.slots.Le b.may) (h : Keeps b s) :
    Keeps b (State.modSlot s n f) := (Keeps.upd hF h rfl rfl ⟨rfl, rfl⟩ rfl)

theorem putN_keeps {s : State} {a : Nat} {n : Nat} {v : Nat} (hF : Touch.nothing.mems.dram.Le b.may) (h : Keeps b s) :
    Keeps b (State.putN s a n v) := (put_keeps (hF.sub rfl) h _ _)

theorem putWords_keeps {s : State} {a : Nat} {ws : List Nat} (hF : Touch.nothing.mems.dram.Le b.may) (h : Keeps b s) :
    Keeps b (State.putWords s a ws) := (put_keeps (hF.sub rfl) h _ _)

theorem raise_keeps {s : State} {source : Nat} {cls : Nat} {detail : Nat} {part : Option Nat} {tag : Nat} {info : Nat}
    (hF : Touch.nothing.record.Le b.may) (h : Keeps b s) :
    Keeps b (State.raise s source cls detail part tag info) := by
  delta State.raise
  extract_lets -merge x1 x2 x3
  clear_value x1
  split
  · exact (enterFault_keeps (hF.sub rfl) h)
  · split
    · exact (enterFault_keeps (hF.sub rfl) h)
    · extract_lets -merge x4 x5 x6 x7 x8
      clear_value x4 x5 x6 x7
      split
      · exact (enterFault_keeps (hF.sub rfl) h)
      · split
        · exact (Keeps.upd hF h rfl rfl ⟨rfl, rfl⟩ rfl)
        · exact (Keeps.upd hF h rfl rfl ⟨rfl, rfl⟩ rfl)

theorem raiseMany_keeps {s : State} {k : Nat} {source : Nat} {cls : Nat} {detail : Nat} {part : Option Nat} {tag : Nat}
    {info : Nat} (hF : Touch.nothing.record.Le b.may) (h : Keeps b s) :
    Keeps b (State.raiseMany s k source cls detail part tag info) := by
  delta State.raiseMany
  refine keepsFold (Q := Keeps b) h fun _ _ h1 => ?_
  exact (raise_keeps (hF.sub rfl) h1)

theorem replayCompare_keeps {s : State} {p : Nat} {key : List Nat} {rest : List Nat}
    (hF : Touch.nothing.replay.Le b.may) (h : Keeps b s) :
    Keeps b (State.replayCompare s p key rest) := by
  delta State.replayCompare
  extract_lets -merge x1
  split
  · split
    · exact h
    · extract_lets -merge x2
      clear_value x2
      split
      · exact (Keeps.upd hF h rfl rfl ⟨rfl, rfl⟩ rfl)
      · exact (Keeps.upd hF h rfl rfl ⟨rfl, rfl⟩ rfl)
  · exact h

theorem report_keeps {s : State} {source : Nat} {cls : Nat} {detail : Nat} {info : Nat}
    (hF : Touch.nothing.dev.record.Le b.may) (h : Keeps b s) :
    Keeps b (State.report s source cls detail info) := by
  delta State.report
  split
  · exact (later_keeps (hF.sub rfl) h)
  · exact (raise_keeps (hF.sub rfl) h)

theorem scramble_keeps {s : State} {a : Nat} {n : Nat} (hF : Touch.nothing.free.mems.dram.Le b.may) (h : Keeps b s) :
    Keeps b (State.scramble s a n) := (drawFree_keeps (hF.sub rfl) (put_keeps (hF.sub rfl) h _ _))

theorem setCounter_keeps {s : State} {c : Nat} {v : Nat} (hF : Touch.nothing.counters.Le b.may) (h : Keeps b s) :
    Keeps b (State.setCounter s c v) := (Keeps.upd hF h rfl rfl ⟨rfl, rfl⟩ rfl)

theorem setFault_keeps {s : State} (hF : Touch.nothing.dev.smbus.Le b.may) (h : Keeps b s) :
    Keeps b (State.setFault s) := by
  delta State.setFault
  extract_lets -merge x1 x2
  split
  · exact h
  · exact (Keeps.upd hF h rfl rfl ⟨rfl, rfl⟩ rfl)

theorem wakeAll_keeps {s : State} (hF : Touch.nothing.engines.Le b.may) (h : Keeps b s) :
    Keeps b (State.wakeAll s) := by
  delta State.wakeAll
  exact (Keeps.upd hF h rfl rfl ⟨rfl, rfl⟩ (by simp +zetaDelta [State.shaped]))

theorem signal_keeps {s : State} {c : Nat} {source : Nat} {part : Option Nat}
    (hF : Touch.nothing.engines.counters.record.Le b.may) (h : Keeps b s) :
    Keeps b (State.signal s c source part) := by
  delta State.signal
  split
  · exact (raise_keeps (hF.sub rfl) h)
  · exact (wakeAll_keeps (hF.sub rfl) (setCounter_keeps (hF.sub rfl) h))

theorem traceWrite_keeps {s : State} {r : TraceRec} (hF : Touch.nothing.mems.dram.trace.Le b.may) (h : Keeps b s) :
    Keeps b (State.traceWrite s r) := by
  delta State.traceWrite
  extract_lets -merge x1 x2 x3 x4 x6
  clear_value x1 x2 x3
  have h4 : Keeps b x4 := by
    unfold x4
    refine keepsFold (Q := Keeps b) h fun _ _ h5 => ?_
    exact (putWords_keeps (hF.sub rfl) h5)
  clear_value x4
  exact (Keeps.upd hF h4 rfl rfl ⟨rfl, rfl⟩ rfl)

theorem traceDrain_keeps {s : State} {x1 : Nat} (hF : Touch.nothing.mems.dram.trace.Le b.may) (h : Keeps b s) :
    Keeps b (State.traceDrain s x1) := by
  induction x1 generalizing s with
  | zero => exact h
  | succ n ih =>
    simp only [State.traceDrain]
    split
    · split
      · exact ih (keepStore_keeps (hF.sub rfl) (traceWrite_keeps (hF.sub rfl) h))
      · exact h
    · split
      · exact Keeps.upd hF (traceWrite_keeps (hF.sub rfl) h) rfl rfl ⟨rfl, rfl⟩ rfl
      · exact h

theorem traceEmit_keeps {s : State} {r : TraceRec} (hF : Touch.nothing.mems.dram.trace.Le b.may) (h : Keeps b s) :
    Keeps b (State.traceEmit s r) := by
  delta State.traceEmit
  extract_lets -merge x1 x2 x3
  have h1 : Keeps b x1 := (traceDrain_keeps (hF.sub rfl) h); clear_value x1
  split
  · exact (traceWrite_keeps (hF.sub rfl) h1)
  · split
    · exact (Keeps.upd hF h1 rfl rfl ⟨rfl, rfl⟩ rfl)
    · exact (Keeps.upd hF h1 rfl rfl ⟨rfl, rfl⟩ rfl)

theorem traceEvent_keeps {s : State} {unit : Nat} {code : Nat} (hF : Touch.nothing.mems.dram.trace.Le b.may)
    (h : Keeps b s) :
    Keeps b (State.traceEvent s unit code) := by
  delta State.traceEvent
  split
  · exact (traceEmit_keeps (hF.sub rfl) h)
  · exact h

theorem tracePart_keeps {s : State} {type : Nat} {p : Nat} {qp : Nat} {words : List Nat}
    (hF : Touch.nothing.mems.dram.trace.Le b.may) (h : Keeps b s) :
    Keeps b (State.tracePart s type p qp words) := by
  delta State.tracePart
  split
  · exact (traceEmit_keeps (hF.sub rfl) h)
  · exact h

end Sys2Proof.Machine
end

