-- ==== Sys2Proof/Laws/KeepDramMap.lean ====
section
/-! SUPPORT. What the operations of Machine/DramMap.lean keep (Laws/Keep.lean). -/

namespace Sys2Proof.Machine

variable {b : From}

theorem dramWordError_keeps {s : State} {addr : Nat} (hF : Touch.nothing.dram.record.Le b.may) (h : Keeps b s) :
    Keeps b (State.dramWordError s addr) := by
  delta State.dramWordError
  extract_lets -merge x1 x2
  have h2 : Keeps b x2 := (raise_keeps (hF.sub rfl) h); clear_value x2
  exact (modChan_keeps (hF.sub rfl) h2)

theorem reportWords_keeps {s : State} {ws : List Nat} (hF : Touch.nothing.dram.record.Le b.may) (h : Keeps b s) :
    Keeps b (State.reportWords s ws) := by
  delta State.reportWords
  refine keepsFold (Q := Keeps b) h fun _ _ h1 => ?_
  exact (dramWordError_keeps (hF.sub rfl) h1)

theorem store_keeps {s : State} {a : Nat} {bs : List Byte} (hF : Touch.nothing.mems.dram.record.Le b.may)
    (h : Keeps b s) :
    Keeps b (State.store s a bs) := by
  delta State.store
  extract_lets -merge x1
  clear_value x1
  exact (put_keeps (hF.sub rfl) (reportWords_keeps (hF.sub rfl) h) _ _)

theorem storeN_keeps {s : State} {a : Nat} {n : Nat} {v : Nat} (hF : Touch.nothing.mems.dram.record.Le b.may)
    (h : Keeps b s) :
    Keeps b (State.storeN s a n v) := (store_keeps (hF.sub rfl) h)

theorem storeWords_keeps {s : State} {a : Nat} {ws : List Nat} (hF : Touch.nothing.mems.dram.record.Le b.may)
    (h : Keeps b s) :
    Keeps b (State.storeWords s a ws) := (store_keeps (hF.sub rfl) h)

end Sys2Proof.Machine
end

