-- ==== Sys2Proof/Laws/KeepOperands.lean ====
section
/-! SUPPORT. What the operations of Machine/Operands.lean keep (Laws/Keep.lean). -/

namespace Sys2Proof.Machine

variable {b : From}

theorem setPte_keeps {s : State} {part : Nat} {i : Nat} {e : Pte} (hF : Touch.nothing.mems.dram.record.Le b.may)
    (h : Keeps b s) :
    Keeps b (State.setPte s part i e) := (storeWords_keeps (hF.sub rfl) h)

end Sys2Proof.Machine
end

