-- ==== Sys2Proof/Laws/KeepKvOps.lean ====
section
/-! SUPPORT. What the operations of Machine/KvOps.lean keep (Laws/Keep.lean). -/

namespace Sys2Proof.Machine

variable {b : From}

theorem addRef_keeps {s : State} {p : Nat} {i : Nat} (hF : Touch.nothing.mems.dram.record.Le b.may) (h : Keeps b s) :
    Keeps b (State.addRef s p i) := by
  delta State.addRef
  extract_lets -merge x1
  exact (setPte_keeps (hF.sub rfl) h)

theorem advanceEpoch_keeps {s : State} {p : Nat} (hF : Touch.nothing.kvs.Le b.may) (h : Keeps b s) :
    Keeps b (State.advanceEpoch s p) := (modKv_keeps (hF.sub rfl) h)

theorem allocFrame_keeps {s : State} {p : Nat} {n : Nat} (hF : Touch.nothing.kvs.Le b.may) (h : Keeps b s) :
    KOpt (KSnd b) (State.allocFrame s p n) := by
  delta State.allocFrame
  split
  · exact (KOpt.some (keepsMkSnd (modKv_keeps (hF.sub rfl) h)))
  · exact KOpt.none

theorem takeUnit_keeps {s : State} {p : Nat} (hF : Touch.nothing.parts.Le b.may) (h : Keeps b s) :
    KOpt (KSnd b) (State.takeUnit s p) := by
  delta State.takeUnit
  extract_lets -merge x1
  split
  · exact (KOpt.some (keepsMkSnd (modPart_keeps (hF.sub rfl) h)))
  · split
    · exact (KOpt.some (keepsMkSnd (modPart_keeps (hF.sub rfl) h)))
    · exact KOpt.none

theorem growGroup_keeps {s : State} {p : Nat} {g : Group} {n : Nat} {x4 : Nat} (hF : Touch.nothing.parts.Le b.may)
    (h : Keeps b s) :
    KOpt (KFst b) (State.growGroup s p g n x4) := by
  induction x4 generalizing s g with
  | zero =>
    simp only [State.growGroup]
    split
    · exact KOpt.some h
    · exact KOpt.none
  | succ m ih =>
    simp only [State.growGroup]
    split
    · exact KOpt.some h
    · split
      · exact KOpt.none
      · have := KOpt.ofSnd (by assumption) (takeUnit_keeps (hF.sub rfl) h)
        split
        · exact KOpt.none
        · exact KOpt.some (KOpt.ofFst (by assumption) (ih this))

theorem setGroup_keeps {s : State} {p : Nat} {g : Group} (hF : Touch.nothing.kvs.Le b.may) (h : Keeps b s) :
    Keeps b (State.setGroup s p g) := (modKv_keeps (hF.sub rfl) h)

theorem appendTok_keeps {s : State} {p : Nat} {uid : Nat} {seq : Nat} {layer : Nat} {head : Nat} {pos : Nat}
    {base : Nat} {spec : Bool} {values : Bool} {d : Nat} {v : Nat × List Byte} (hF : Touch.nothing.parts.kvs.Le b.may)
    (h : Keeps b s) :
    KApp b (State.appendTok s p uid seq layer head pos base spec values d v) := by
  delta State.appendTok
  extract_lets -merge x1 x2 x3 x4 x5
  clear_value x1 x3 x4 x5
  split
  · exact KApp.bad
  · extract_lets -merge x6
    clear_value x6
    split
    · exact KApp.bad
    · split
      · exact KApp.noUnit
      · have := KOpt.ofFst (by assumption) (growGroup_keeps (hF.sub rfl) h)
        extract_lets -merge x7
        exact (KApp.ok (setGroup_keeps (hF.sub rfl) (by assumption)))

theorem copySums_keeps {s : State} {p : Nat} {new : Nat} {x3 : List SumFrame}
    (hF : Touch.nothing.kvs.mems.dram.record.Le b.may) (h : Keeps b s) :
    KOpt (Keeps b) (State.copySums s p new x3) := by
  induction x3 generalizing s with
  | nil => exact KOpt.some h
  | cons f rest ih =>
    simp only [State.copySums]
    split
    · exact KOpt.none
    · exact ih (modKv_keeps (hF.sub rfl) (store_keeps (hF.sub rfl) (KOpt.ofSnd (by assumption) (allocFrame_keeps (hF.sub rfl) h))))

theorem dropGroup_keeps {s : State} {p : Nat} {g : Group} (hF : Touch.nothing.kvs.Le b.may) (h : Keeps b s) :
    Keeps b (State.dropGroup s p g) := (modKv_keeps (hF.sub rfl) h)

theorem freeUnits_keeps {s : State} {p : Nat} {sump : Nat} {stag : Nat} (hF : Touch.nothing.parts.Le b.may)
    (h : Keeps b s) :
    Keeps b (State.freeUnits s p sump stag) := (modPart_keeps (hF.sub rfl) h)

theorem freeFrame_keeps {s : State} {p : Nat} {a : Nat} (hF : Touch.nothing.kvs.Le b.may) (h : Keeps b s) :
    Keeps b (State.freeFrame s p a) := (modKv_keeps (hF.sub rfl) h)

theorem dropGroups_keeps {s : State} {p : Nat} {gs : List Group} (hF : Touch.nothing.parts.kvs.Le b.may) (h : Keeps b s) :
    Keeps b (State.dropGroups s p gs) := by
  delta State.dropGroups
  refine keepsFold (Q := Keeps b) h fun _ _ h1 => ?_
  extract_lets -merge x2
  have h2 : Keeps b x2 := (freeUnits_keeps (hF.sub rfl) (dropGroup_keeps (hF.sub rfl) h1)); clear_value x2
  split
  · exact (freeFrame_keeps (hF.sub rfl) h2)
  · exact h2

theorem dropRef_keeps {s : State} {p : Nat} {i : Nat} (hF : Touch.nothing.mems.dram.record.Le b.may) (h : Keeps b s) :
    Keeps b (State.dropRef s p i) := by
  delta State.dropRef
  extract_lets -merge x1
  exact (setPte_keeps (hF.sub rfl) h)

theorem emptyBlocks_keeps {s : State} {p : Nat} {seq : Nat} {first : Nat} (hF : Touch.nothing.mems.dram.record.Le b.may)
    (h : Keeps b s) :
    Keeps b (State.emptyBlocks s p seq first) := by
  delta State.emptyBlocks
  refine keepsFold (Q := Keeps b) h fun _ _ h1 => ?_
  refine keepsFold (Q := Keeps b) h1 fun _ _ h2 => ?_
  exact (storeN_keeps (hF.sub rfl) h2)

theorem extendTable_keeps {s : State} {p : Nat} (hF : Touch.nothing.kvs.mems.dram.Le b.may) (h : Keeps b s) :
    KOpt (Keeps b) (State.extendTable s p) := by
  delta State.extendTable
  split
  · exact KOpt.none
  · exact (KOpt.some (modKv_keeps (hF.sub rfl) (fill_keeps (hF.sub rfl) h _ _ _ (granule_fits _))))

theorem newPte_keeps {s : State} {p : Nat} {e : Pte} (hF : Touch.nothing.kvs.mems.dram.record.Le b.may) (h : Keeps b s) :
    KOpt (KSnd b) (State.newPte s p e) := by
  delta State.newPte
  extract_lets -merge x1 x2
  clear_value x1
  have h2 : ∀ a0, Keeps b a0 → KSnd b (x2 a0) := by
    unfold x2
    intro _ h3
    exact (keepsMkSnd (modKv_keeps (hF.sub rfl) (setPte_keeps (hF.sub rfl) h3)))
  clear_value x2
  split
  · exact (KOpt.some (h2 _ h))
  · refine KOpt.map (Q := Keeps b) (R := KSnd b) (extendTable_keeps (hF.sub rfl) h) fun _ h4 => ?_
    exact (h2 _ h4)

theorem needSum_keeps {s : State} {p : Nat} {seq : Nat} {layer : Nat} {head : Nat} {block : Nat} {d : Nat}
    (hF : Touch.nothing.kvs.mems.dram.record.Le b.may) (h : Keeps b s) :
    KOpt (KSnd b) (State.needSum s p seq layer head block d) := by
  delta State.needSum
  split
  · exact (KOpt.some h)
  · refine KOpt.map (Q := KSnd b) (R := KSnd b) (allocFrame_keeps (hF.sub rfl) h) fun _ h1 => ?_
    extract_lets -merge x2
    exact (keepsMkSnd (modKv_keeps (hF.sub rfl) (store_keeps (hF.sub rfl) h1)))

theorem writeL1_keeps {s : State} {f : SumFrame} {block : Nat} {r : L1} (hF : Touch.nothing.mems.dram.record.Le b.may)
    (h : Keeps b s) :
    Keeps b (State.writeL1 s f block r) := (storeN_keeps (hF.sub rfl) (store_keeps (hF.sub rfl) h))

theorem flushGroup_keeps {s : State} {p : Nat} {g : Group} (hF : Touch.nothing.parts.kvs.seqs.mems.dram.record.Le b.may)
    (h : Keeps b s) :
    KOpt (Keeps b) (State.flushGroup s p g) := by
  delta State.flushGroup
  extract_lets -merge x1
  clear_value x1
  split
  · exact KOpt.none
  · extract_lets -merge x2 x3
    clear_value x2
    split
    · exact KOpt.none
    · have := KOpt.ofSnd (by assumption) (allocFrame_keeps (hF.sub rfl) h)
      split
      · exact KOpt.none
      · have := KOpt.ofSnd (by assumption) (allocFrame_keeps (hF.sub rfl) (by assumption))
        extract_lets -merge x4
        have h4 : Keeps b x4 := (store_keeps (hF.sub rfl) (store_keeps (hF.sub rfl) (by assumption))); clear_value x4
        split
        · exact KOpt.none
        · rename_i e
          have := KOpt.ofSnd2 (b := b) e (by
              refine KOpt.bind (Q := KSnd b) (R := KSnd2 b) (newPte_keeps (hF.sub rfl) h4) fun _ h5 => ?_
              refine KOpt.map (Q := KSnd b) (R := KSnd2 b) (needSum_keeps (hF.sub rfl) h5) fun _ h6 => ?_
              exact h6)
          extract_lets -merge x7 x8 x9
          have h7 : Keeps b x7 := (modSeq_keeps (hF.sub rfl) (by assumption)); clear_value x7
          have h8 : Keeps b x8 := (modPart_keeps (hF.sub rfl) h7); clear_value x8
          exact (KOpt.some (modKv_keeps (hF.sub rfl) (writeL1_keeps (hF.sub rfl) h8)))

theorem freeSums_keeps {s : State} {p : Nat} {seq : Nat} (hF : Touch.nothing.kvs.Le b.may) (h : Keeps b s) :
    Keeps b (State.freeSums s p seq) := by
  delta State.freeSums
  refine modKv_keeps (hF.sub rfl) ?_
  refine keepsFold (Q := Keeps b) h fun _ _ h1 => ?_
  exact (freeFrame_keeps (hF.sub rfl) h1)

theorem growHistory_keeps {s : State} {p : Nat} {idx : Nat} {x3 : Nat} (hF : Touch.nothing.kvs.seqs.Le b.may)
    (h : Keeps b s) :
    KOpt (Keeps b) (State.growHistory s p idx x3) := by
  induction x3 generalizing s with
  | zero => exact KOpt.some h
  | succ n ih =>
    simp only [State.growHistory]
    split
    · exact KOpt.none
    · exact ih (modSeq_keeps (hF.sub rfl) (KOpt.ofSnd (by assumption) (allocFrame_keeps (hF.sub rfl) h)))

theorem newSeq_keeps {s : State} {p : Nat} {slot : Nat} {variant : Option Nat} {seed : List Byte} {prefillPool : Bool}
    {len : Nat} {dir : List (Nat × Nat × Nat × Nat)} (hF : Touch.nothing.seqs.gens.Le b.may) (h : Keeps b s) :
    KOpt (KSnd b) (State.newSeq s p slot variant seed prefillPool len dir) := by
  delta State.newSeq
  split
  · exact KOpt.none
  · extract_lets -merge x1 x2
    clear_value x1
    exact (KOpt.some (keepsMkSnd (Keeps.upd hF h rfl rfl ⟨rfl, rfl⟩ rfl)))

theorem park_keeps {s : State} {p : Nat} {g : Group} (hF : Touch.nothing.parts.kvs.Le b.may) (h : Keeps b s) :
    KOpt (Keeps b) (State.park s p g) := by
  delta State.park
  split
  · exact KOpt.none
  · have := KOpt.ofSnd (by assumption) (allocFrame_keeps (hF.sub rfl) h)
    extract_lets -merge x1 x2
    have h1 : Keeps b x1 := (freeUnits_keeps (hF.sub rfl) (dropGroup_keeps (hF.sub rfl) (by assumption))); clear_value x1
    have h2 : Keeps b x2 := (modKv_keeps (hF.sub rfl) h1); clear_value x2
    exact (KOpt.some (modPart_keeps (hF.sub rfl) h2))

theorem putTokens_keeps {s : State} {idx : Nat} {at_ : Nat} {toks : List Nat}
    (hF : Touch.nothing.kvs.seqs.mems.dram.record.Le b.may) (h : Keeps b s) :
    KOpt (Keeps b) (State.putTokens s idx at_ toks) := by
  delta State.putTokens
  split
  · exact (KOpt.some h)
  · refine KOpt.map (Q := Keeps b) (R := Keeps b) (growHistory_keeps (hF.sub rfl) h) fun _ h1 => ?_
    split
    · exact h1
    · refine keepsFold (Q := Keeps b) h1 fun _ _ h2 => ?_
      exact (storeN_keeps (hF.sub rfl) h2)

theorem releaseSeq_keeps {s : State} {q : Seq} (hF : Touch.nothing.parts.kvs.seqs.mems.dram.record.Le b.may)
    (h : Keeps b s) :
    Keeps b (State.releaseSeq s q) := by
  delta State.releaseSeq
  extract_lets -merge x1 x2 x4 x5
  clear_value x1
  have h2 : Keeps b x2 := by
    unfold x2
    refine keepsFold (Q := Keeps b) h fun _ _ h3 => ?_
    exact (dropRef_keeps (hF.sub rfl) h3)
  clear_value x2
  have h4 : Keeps b x4 := (dropGroups_keeps (hF.sub rfl) h2); clear_value x4
  have h5 : Keeps b x5 := by
    unfold x5
    refine keepsFold (Q := Keeps b) (freeSums_keeps (hF.sub rfl) h4) fun _ _ h6 => ?_
    exact (freeFrame_keeps (hF.sub rfl) h6)
  clear_value x5
  exact (Keeps.upd hF h5 rfl rfl ⟨rfl, rfl⟩ rfl)

theorem reopen_keeps {s : State} {p : Nat} {seq : Nat} {layer : Nat} {head : Nat} {pg : Nat} {i : Nat} {k : Nat}
    (hF : Touch.nothing.parts.kvs.seqs.mems.dram.trace.record.Le b.may) (h : Keeps b s) :
    KOpt (KFst b) (State.reopen s p seq layer head pg i k) := by
  delta State.reopen
  extract_lets -merge x1 x2 x3 x4
  clear_value x2
  split
  · exact KOpt.none
  · have := KOpt.ofFst (by assumption) (growGroup_keeps (hF.sub rfl) h)
    extract_lets -merge x5 x6 x7
    have h5 : Keeps b x5 := by
      unfold x5
      split
      · exact (by assumption)
      · exact (setGroup_keeps (hF.sub rfl) (by assumption))
    clear_value x5
    have h6 : Keeps b x6 := (modSeq_keeps (hF.sub rfl) h5); clear_value x6
    have h7 : Keeps b x7 := (dropRef_keeps (hF.sub rfl) h6); clear_value x7
    exact (KOpt.some (keepsMkFst (tracePart_keeps (hF.sub rfl) h7)))

theorem rewiden_keeps {s : State} {p : Nat} {q : Seq} {g : Group} (hF : Touch.nothing.kvs.mems.dram.record.Le b.may)
    (h : Keeps b s) :
    Keeps b (State.rewiden s p q g) := by
  delta State.rewiden
  extract_lets -merge x1 x2
  clear_value x1 x2
  split
  · extract_lets -merge x3
    have h3 : KFst b x3 := by
      unfold x3
      refine keepsFold (Q := KFst b) h fun _ _ h4 => ?_
      extract_lets -merge x5 x6
      clear_value x6
      exact (keepsMkFst (modKv_keeps (hF.sub rfl) h4))
    clear_value x3
    exact (writeL1_keeps (hF.sub rfl) h3)
  · exact h

theorem setLength_keeps {s : State} {idx : Nat} {n : Nat} (hF : Touch.nothing.kvs.seqs.Le b.may) (h : Keeps b s) :
    Keeps b (State.setLength s idx n) := by
  delta State.setLength
  extract_lets -merge x1
  clear_value x1
  split
  · exact h
  · refine modSeq_keeps (hF.sub rfl) ?_
    refine keepsFold (Q := Keeps b) h fun _ _ h2 => ?_
    exact (freeFrame_keeps (hF.sub rfl) h2)

theorem settleAppends_keeps {s : State} {p : Nat} {uid : Nat} (hF : Touch.nothing.kvs.Le b.may) (h : Keeps b s) :
    Keeps b (State.settleAppends s p uid) := (modKv_keeps (hF.sub rfl) h)

theorem shrinkGroup_keeps {s : State} {p : Nat} {g : Group} {toks : List Tok} (hF : Touch.nothing.parts.kvs.Le b.may)
    (h : Keeps b s) :
    Keeps b (State.shrinkGroup s p g toks) := by
  delta State.shrinkGroup
  extract_lets -merge x1 x2 x3 x4
  clear_value x1 x2 x3
  have h4 : Keeps b x4 := (freeUnits_keeps (hF.sub rfl) (dropGroup_keeps (hF.sub rfl) h)); clear_value x4
  split
  · split
    · exact (modKv_keeps (hF.sub rfl) h4)
    · exact h4
  · exact (setGroup_keeps (hF.sub rfl) h4)

theorem sumPage_keeps {s : State} {p : Nat} {seq : Nat} {layer : Nat} {head : Nat} {page : Nat} {d : Nat} {u : FV}
    {lo : List Int} {hi : List Int} {nan : Bool} (hF : Touch.nothing.kvs.mems.dram.record.Le b.may) (h : Keeps b s) :
    KOpt (Keeps b) (State.sumPage s p seq layer head page d u lo hi nan) := by
  delta State.sumPage
  refine KOpt.map (Q := KSnd b) (R := Keeps b) (needSum_keeps (hF.sub rfl) h) fun _ h1 => ?_
  exact (writeL1_keeps (hF.sub rfl) h1)

theorem undoGroup_keeps {s : State} {p : Nat} {uid : Nat} {g : Group}
    (hF : Touch.nothing.parts.kvs.seqs.mems.dram.record.Le b.may) (h : Keeps b s) :
    Keeps b (State.undoGroup s p uid g) := by
  delta State.undoGroup
  extract_lets -merge x1 x5 x6 x7
  have h1 : Keeps b x1 := by
    unfold x1
    split
    · split
      · exact h
      · extract_lets -merge x2 x3
        have h2 : Keeps b x2 := (rewiden_keeps (hF.sub rfl) h); clear_value x2
        have h3 : Keeps b x3 := by
          unfold x3
          refine keepsFold (Q := Keeps b) h2 fun _ _ h4 => ?_
          exact (dropRef_keeps (hF.sub rfl) h4)
        clear_value x3
        exact (modSeq_keeps (hF.sub rfl) h3)
    · exact h
  clear_value x1 x5
  have h7 : Keeps b x7 := (modKv_keeps (hF.sub rfl) h1); clear_value x7
  exact (shrinkGroup_keeps (hF.sub rfl) h7)

theorem undoAppends_keeps {s : State} {p : Nat} {uid : Nat}
    (hF : Touch.nothing.parts.kvs.seqs.mems.dram.record.Le b.may) (h : Keeps b s) :
    Keeps b (State.undoAppends s p uid) := by
  delta State.undoAppends
  refine keepsFold (Q := Keeps b) h fun _ _ h1 => ?_
  split
  · exact (undoGroup_keeps (hF.sub rfl) h1)
  · exact h1

theorem unpark_keeps {s : State} {p : Nat} {g : Group} (hF : Touch.nothing.parts.kvs.Le b.may) (h : Keeps b s) :
    KOpt (KFst b) (State.unpark s p g) := by
  delta State.unpark
  split
  · exact (KOpt.some h)
  · split
    · exact KOpt.none
    · have := KOpt.ofFst (by assumption) (growGroup_keeps (hF.sub rfl) (dropGroup_keeps (hF.sub rfl) h))
      exact (KOpt.some (keepsMkFst (modKv_keeps (hF.sub rfl) (by assumption))))

end Sys2Proof.Machine
end

