-- ==== Sys2Proof/Laws/KeepPassageOps.lean ====
section
/-! SUPPORT. What the operations of Machine/PassageOps.lean keep (Laws/Keep.lean). -/

namespace Sys2Proof.Machine

variable {b : From}

theorem freeRx_keeps {s : State} {n : Nat} {f : Frame} (hF : Touch.nothing.passage.Le b.may) (h : Keeps b s) :
    Keeps b (State.freeRx s n f) := (modPport_keeps (hF.sub rfl) h)

theorem settleRelays_keeps {s : State} {n : Nat} (hF : Touch.nothing.passage.Le b.may) (h : Keeps b s) :
    Keeps b (State.settleRelays s n) := by
  delta State.settleRelays
  extract_lets -merge x1 x2 x3 x4
  clear_value x2 x3 x4
  refine keepsFold (Q := Keeps b) (modPport_keeps (hF.sub rfl) h) fun _ _ h5 => ?_
  exact (freeRx_keeps (hF.sub rfl) h5)

theorem pumpPort_keeps {s : State} {n : Nat} (hF : Touch.nothing.passage.Le b.may) (h : Keeps b s) :
    Keeps b (State.pumpPort s n) := (settleRelays_keeps (hF.sub rfl) (modPport_keeps (hF.sub rfl) h))

theorem rngAsk_keeps {s : State} {u : RngUse} (hF : Touch.nothing.sec.Le b.may) (h : Keeps b s) :
    KSnd b (State.rngAsk s u) := by
  delta State.rngAsk
  extract_lets -merge x1 x2 x3
  split
  · exact (keepsMkSnd (Keeps.upd hF h rfl rfl ⟨rfl, rfl⟩ rfl))
  · split
    · exact (keepsMkSnd (Keeps.upd hF h rfl rfl ⟨rfl, rfl⟩ rfl))
    · exact h

theorem sendFrame_keeps {s : State} {n : Nat} {f : Frame} (hF : Touch.nothing.passage.Le b.may) (h : Keeps b s) :
    Keeps b (State.sendFrame s n f) := (pumpPort_keeps (hF.sub rfl) (modPport_keeps (hF.sub rfl) h))

theorem sendControl_keeps {s : State} {port : Nat} {hops : Nat} {peer : Nat} {tag : Nat} {conf : Bool} {m : ShipMsg}
    (hF : Touch.nothing.passage.Le b.may) (h : Keeps b s) :
    Keeps b (State.sendControl s port hops peer tag conf m) := by
  delta State.sendControl
  extract_lets -merge x1
  exact (modPport_keeps (hF.sub rfl) (sendFrame_keeps (hF.sub rfl) h))

theorem sendPlain_keeps {s : State} {n : Nat} {type : Nat} {payload : List Byte} (hF : Touch.nothing.passage.Le b.may)
    (h : Keeps b s) :
    Keeps b (State.sendPlain s n type payload) := by
  delta State.sendPlain
  extract_lets -merge x1
  split
  · exact (modPport_keeps (hF.sub rfl) h)
  · exact (modPport_keeps (hF.sub rfl) h)

theorem spWork_keeps {s : State} {n : Nat} (hF : Touch.nothing.sec.Le b.may) (h : Keeps b s) :
    Keeps b (State.spWork s n) := (Keeps.upd hF h rfl rfl ⟨rfl, rfl⟩ rfl)

theorem sendKeyx_keeps {s : State} {n : Nat} {d : Nat} (hF : Touch.nothing.passage.sec.Le b.may) (h : Keeps b s) :
    Keeps b (State.sendKeyx s n d) := (sendPlain_keeps (hF.sub rfl) (spWork_keeps (hF.sub rfl) (modPport_keeps (hF.sub rfl) h)))

end Sys2Proof.Machine
end

