-- ==== Sys2Proof/Laws/KeepSiphonOps.lean ====
section
/-! SUPPORT. What the operations of Machine/SiphonOps.lean keep (Laws/Keep.lean). -/

namespace Sys2Proof.Machine

variable {b : From}

theorem placeXfer_keeps {s : State} {ch : Nat} {x : Xfer} (hF : Touch.nothing.siphon.Le b.may) (h : Keeps b s) :
    Keeps b (State.placeXfer s ch x) := (modSch_keeps (hF.sub rfl) h)

theorem placeOwn_keeps {s : State} {part : Nat} {mv : Nat} {prio : Nat} {dst : Nat} {len : Nat}
    (hF : Touch.nothing.siphon.Le b.may) (h : Keeps b s) :
    Keeps b (State.placeOwn s part mv prio dst len) := (placeXfer_keeps (hF.sub rfl) h)

theorem switchXfers_keeps {s : State} {e : Nat} (hF : Touch.nothing.siphon.Le b.may) (h : Keeps b s) :
    Keeps b (State.switchXfers s e) := by
  delta State.switchXfers
  extract_lets -merge x1 x2
  clear_value x1
  exact (Keeps.upd hF h rfl rfl ⟨rfl, rfl⟩ (by simp +zetaDelta [State.shaped]))

theorem withdrawXfers_keeps {s : State} {gone : Xfer → Bool} (hF : Touch.nothing.siphon.Le b.may) (h : Keeps b s) :
    Keeps b (State.withdrawXfers s gone) := by
  delta State.withdrawXfers
  exact (Keeps.upd hF h rfl rfl ⟨rfl, rfl⟩ (by simp +zetaDelta [State.shaped]))

theorem withdrawSiphon_keeps {s : State} {uid : Nat} (hF : Touch.nothing.siphon.Le b.may) (h : Keeps b s) :
    Keeps b (State.withdrawSiphon s uid) := (withdrawXfers_keeps (hF.sub rfl) h)

end Sys2Proof.Machine
end

