-- ==== Sys2Proof/Laws/KeepJobEnd.lean ====
section
/-! SUPPORT. What the operations of Machine/JobEnd.lean keep (Laws/Keep.lean). -/

namespace Sys2Proof.Machine

variable {b : From}

theorem dropFrames_keeps {s : State} {port : Nat} {tag : Nat} (hF : Touch.nothing.passage.Le b.may) (h : Keeps b s) :
    Keeps b (State.dropFrames s port tag) := (modPport_keeps (hF.sub rfl) h)

theorem abortPeer_keeps {s : State} {uid : Nat} (hF : Touch.nothing.passage.Le b.may) (h : Keeps b s) :
    Keeps b (State.abortPeer s uid) := by
  delta State.abortPeer
  split
  · exact h
  · split
    · extract_lets -merge x1
      clear_value x1
      split
      · exact (sendControl_keeps (hF.sub rfl) (dropFrames_keeps (hF.sub rfl) h))
      · exact h
    · exact h

theorem withdrawMoves_keeps {s : State} {uid : Nat} (hF : Touch.nothing.moves.Le b.may) (h : Keeps b s) :
    Keeps b (State.withdrawMoves s uid) := (Keeps.upd hF h rfl rfl ⟨rfl, rfl⟩ rfl)

theorem withdrawFlash_keeps {s : State} {uid : Nat} (hF : Touch.nothing.flash.Le b.may) (h : Keeps b s) :
    Keeps b (State.withdrawFlash s uid) := by
  delta State.withdrawFlash
  exact (Keeps.upd hF h rfl rfl ⟨rfl, rfl⟩ (by simp +zetaDelta [State.shaped]))

theorem withdrawTasks_keeps {s : State} {uid : Nat} (hF : Touch.nothing.engines.merges.echo.Le b.may) (h : Keeps b s) :
    Keeps b (State.withdrawTasks s uid) := by
  delta State.withdrawTasks
  exact (Keeps.upd hF h rfl rfl ⟨rfl, rfl⟩ (by simp +zetaDelta [State.shaped]))

theorem withdraw_keeps {s : State} {uid : Nat}
    (hF : Touch.nothing.engines.merges.moves.echo.vision.flash.siphon.sec.Le b.may) (h : Keeps b s) :
    Keeps b (State.withdraw s uid) := by
  delta State.withdraw
  extract_lets -merge x1 x2 x3 x4
  have h1 : Keeps b x1 := (withdrawMoves_keeps (hF.sub rfl) (withdrawFlash_keeps (hF.sub rfl) (withdrawSiphon_keeps (hF.sub rfl) (withdrawTasks_keeps (hF.sub rfl) h)))); clear_value x1
  have h3 : Keeps b x3 := (Keeps.upd hF h1 rfl rfl ⟨rfl, rfl⟩ rfl); clear_value x3
  split
  · exact (Keeps.upd hF h3 rfl rfl ⟨rfl, rfl⟩ rfl)
  · exact h3

theorem jobError_keeps {s : State} {uid : Nat} {status : Nat} (hF : Touch.nothing.jobs.Le b.may) (h : Keeps b s) :
    Keeps b (State.jobError s uid status) := (modJob_keeps (hF.sub rfl) h)

theorem scrambleOut_keeps {s : State} {p : Nat} {a : Nat} {n : Nat} (hF : Touch.nothing.free.mems.dram.Le b.may)
    (h : Keeps b s) :
    Keeps b (State.scrambleOut s p a n) := by
  delta State.scrambleOut
  split
  · exact (scramble_keeps (hF.sub rfl) h)
  · exact h

theorem scramblePatches_keeps {s : State} {j : Job} (hF : Touch.nothing.free.mems.dram.Le b.may) (h : Keeps b s) :
    Keeps b (State.scramblePatches s j) := by
  delta State.scramblePatches
  extract_lets -merge x1 x2
  clear_value x1
  have h2 : Keeps b x2 := (scrambleOut_keeps (hF.sub rfl) h); clear_value x2
  split
  · refine keepsFold (Q := Keeps b) h2 fun _ _ h3 => ?_
    exact (scrambleOut_keeps (hF.sub rfl) h3)
  · exact h2

theorem restoreEnt_keeps {s : State} {e : Ent} (hF : Touch.nothing.parts.kvs.seqs.mems.dram.record.Le b.may)
    (h : Keeps b s) :
    Keeps b (State.restoreEnt s e) := by
  delta State.restoreEnt
  split
  · split
    · exact (releaseSeq_keeps (hF.sub rfl) h)
    · exact h
  · exact (setLength_keeps (hF.sub rfl) h)

theorem cancelEffects_keeps {s : State} {j : Job}
    (hF : Touch.nothing.free.parts.kvs.seqs.mems.dram.flash.record.Le b.may) (h : Keeps b s) :
    Keeps b (State.cancelEffects s j) := by
  delta State.cancelEffects
  extract_lets -merge x1 x2 x3 x4
  have h1 : Keeps b x1 := (scrambleOut_keeps (hF.sub rfl) h); clear_value x1
  have h2 : Keeps b x2 := by
    unfold x2
    split
    · exact (scramblePatches_keeps (hF.sub rfl) h1)
    · exact h1
  clear_value x2
  have h3 : Keeps b x3 := by
    unfold x3
    split
    · exact (undoAppends_keeps (hF.sub rfl) h2)
    · exact h2
  clear_value x3
  split
  · refine keepsFold (Q := Keeps b) h3 fun _ _ h5 => ?_
    exact (restoreEnt_keeps (hF.sub rfl) h5)
  · split
    · exact (Keeps.upd hF h3 rfl rfl ⟨rfl, rfl⟩ rfl)
    · exact h3
  · exact h3

theorem retireJob_keeps {s : State} {j : Job} (hF : Touch.nothing.jobs.counters.ctrBlocks.Le b.may) (h : Keeps b s) :
    Keeps b (State.retireJob s j) := by
  delta State.retireJob
  extract_lets -merge x1
  have h1 : Keeps b x1 := (dropJob_keeps (hF.sub rfl) h); clear_value x1
  split
  · exact h1
  · exact (Keeps.upd hF h1 rfl rfl ⟨rfl, rfl⟩ rfl)

theorem queueComp_keeps {s : State} {qp : Nat} {c : Comp} (hF : Touch.nothing.free.qps.Le b.may) (h : Keeps b s) :
    Keeps b (State.queueComp s qp c) := by
  delta State.queueComp
  split
  · exact (drawFree_keeps (hF.sub rfl) (modQp_keeps (hF.sub rfl) h))
  · exact (modQp_keeps (hF.sub rfl) h)

theorem finishJob_keeps {s : State} {j : Job} {result : Nat}
    (hF : Touch.nothing.free.qps.jobs.engines.counters.ctrBlocks.kvs.slots.Le b.may) (h : Keeps b s) :
    Keeps b (State.finishJob s j result) := by
  delta State.finishJob
  extract_lets -merge x1 x2 x4 x5 x6
  have h1 : Keeps b x1 := (Keeps.upd hF h rfl rfl ⟨rfl, rfl⟩ (by simp +zetaDelta [State.shaped])); clear_value x1
  have h2 : Keeps b x2 := by
    unfold x2
    refine keepsFold (Q := Keeps b) (settleAppends_keeps (hF.sub rfl) h1) fun _ _ h3 => ?_
    exact (freeFrame_keeps (hF.sub rfl) h3)
  clear_value x2
  have h4 : Keeps b x4 := by
    unfold x4
    split
    · exact (advanceEpoch_keeps (hF.sub rfl) h2)
    · exact h2
  clear_value x4
  have h5 : Keeps b x5 := by
    unfold x5
    split
    · exact (Keeps.upd hF h4 rfl rfl ⟨rfl, rfl⟩ rfl)
    · exact h4
  clear_value x5
  split
  · exact (retireJob_keeps (hF.sub rfl) h5)
  · exact (modJob_keeps (hF.sub rfl) (queueComp_keeps (hF.sub rfl) h5))

theorem failJob_keeps {s : State} {uid : Nat} {status : Nat} {result : Nat} (hF : Touch.nothing.jobEnd.Le b.may)
    (h : Keeps b s) :
    Keeps b (State.failJob s uid status result) := by
  delta State.failJob
  extract_lets -merge x1
  have h1 : Keeps b x1 := (withdraw_keeps (hF.sub rfl) (jobError_keeps (hF.sub rfl) h)); clear_value x1
  split
  · exact h1
  · extract_lets -merge x2
    have h2 : Keeps b x2 := by
      unfold x2
      split
      · exact (cancelEffects_keeps (hF.sub rfl) h1)
      · exact h1
    clear_value x2
    split
    · exact h1
    · exact (finishJob_keeps (hF.sub rfl) h2)

theorem outsideJob_keeps {s : State} {uid : Nat} (hF : Touch.nothing.jobEnd.Le b.may) (h : Keeps b s) :
    Keeps b (State.outsideJob s uid) := by
  delta State.outsideJob
  split
  · exact h
  · exact (failJob_keeps (hF.sub rfl) (raise_keeps (hF.sub rfl) h))

theorem failJob'_keeps {s : State} {uid : Nat} {status : Nat} (hF : Touch.nothing.jobEnd.Le b.may) (h : Keeps b s) :
    Keeps b (State.failJob' s uid status) := by
  delta State.failJob'
  split
  · exact h
  · exact (failJob_keeps (hF.sub rfl) h)

theorem blockedOut_keeps {s : State} {j : Job} {a : Nat} {n : Nat} (hF : Touch.nothing.jobEnd.Le b.may) (h : Keeps b s) :
    KOpt (Keeps b) (State.blockedOut s j a n) := by
  delta State.blockedOut
  split
  · exact KOpt.none
  · split
    · exact (KOpt.some (outsideJob_keeps (hF.sub rfl) h))
    · split
      · exact (KOpt.some (failJob'_keeps (hF.sub rfl) h))
      · exact KOpt.none

theorem blocked_keeps {s : State} {j : Job} {a : Nat} {n : Nat} (hF : Touch.nothing.jobEnd.Le b.may) (h : Keeps b s) :
    KOpt (Keeps b) (State.blocked s j a n) := by
  delta State.blocked
  extract_lets -merge x1
  clear_value x1
  split
  · have := KOpt.of (by assumption) (blockedOut_keeps (hF.sub rfl) h)
    exact (KOpt.some (by assumption))
  · split
    · exact KOpt.none
    · exact (KOpt.some (failJob'_keeps (hF.sub rfl) (reportWords_keeps (hF.sub rfl) h)))

theorem anyBlocked_keeps {s : State} {j : Job} {x2 : List (Nat × Nat)} (hF : Touch.nothing.jobEnd.Le b.may)
    (h : Keeps b s) :
    KOpt (Keeps b) (State.anyBlocked s j x2) := by
  induction x2 with
  | nil => exact KOpt.none
  | cons r rest ih =>
    simp only [State.anyBlocked]
    split
    · exact KOpt.some (KOpt.of (by assumption) (blocked_keeps (hF.sub rfl) h))
    · exact ih

theorem disableQp_keeps {s : State} {n : Nat} {byDevice : Bool}
    (hF : Touch.nothing.qps.jobs.counters.ctrBlocks.Le b.may) (h : Keeps b s) :
    Keeps b (State.disableQp s n byDevice) := by
  delta State.disableQp
  extract_lets -merge x1 x2 x4
  have h1 : Keeps b x1 := (modQp_keeps (hF.sub rfl) h); clear_value x1
  have h2 : Keeps b x2 := by
    unfold x2
    refine keepsFold (Q := Keeps b) h1 fun _ _ h3 => ?_
    exact (retireJob_keeps (hF.sub rfl) h3)
  clear_value x2
  exact (Keeps.upd hF h2 rfl rfl ⟨rfl, rfl⟩ rfl)

theorem disableAllQps_keeps {s : State} (hF : Touch.nothing.qps.jobs.counters.ctrBlocks.Le b.may) (h : Keeps b s) :
    Keeps b (State.disableAllQps s) := by
  delta State.disableAllQps
  refine keepsFold (Q := Keeps b) h fun _ _ h1 => ?_
  exact (disableQp_keeps (hF.sub rfl) h1)

theorem endSilently_keeps {s : State} {j : Job} (hF : Touch.nothing.jobEnd.passage.Le b.may) (h : Keeps b s) :
    Keeps b (State.endSilently s j) := by
  delta State.endSilently
  extract_lets -merge x1 x2
  have h1 : Keeps b x1 := by
    unfold x1
    refine withdraw_keeps (hF.sub rfl) ?_
    split
    · exact h
    · exact (abortPeer_keeps (hF.sub rfl) h)
  clear_value x1
  split
  · exact (retireJob_keeps (hF.sub rfl) h1)
  · split
    · exact (modJob_keeps (hF.sub rfl) h1)
    · exact (finishJob_keeps (hF.sub rfl) (cancelEffects_keeps (hF.sub rfl) h1))

theorem endWithdrawal_keeps {s : State} {j : Job}
    (hF : Touch.nothing.free.qps.jobs.engines.counters.ctrBlocks.parts.kvs.seqs.slots.mems.dram.flash.record.Le b.may)
    (h : Keeps b s) :
    Keeps b (State.endWithdrawal s j) := (finishJob_keeps (hF.sub rfl) (cancelEffects_keeps (hF.sub rfl) h))

theorem failAllJobs_keeps {s : State} (hF : Touch.nothing.jobEnd.Le b.may) (h : Keeps b s) :
    Keeps b (State.failAllJobs s) := by
  delta State.failAllJobs
  refine keepsFold (Q := Keeps b) h fun _ _ h1 => ?_
  exact (failJob'_keeps (hF.sub rfl) h1)

theorem finishUid_keeps {s : State} {uid : Nat} {result : Nat}
    (hF : Touch.nothing.free.qps.jobs.engines.counters.ctrBlocks.kvs.slots.Le b.may) (h : Keeps b s) :
    Keeps b (State.finishUid s uid result) := by
  delta State.finishUid
  split
  · exact (finishJob_keeps (hF.sub rfl) h)
  · exact h

theorem jobQuality_keeps {s : State} {uid : Nat} {q : Nat} (hF : Touch.nothing.jobs.Le b.may) (h : Keeps b s) :
    Keeps b (State.jobQuality s uid q) := (modJob_keeps (hF.sub rfl) h)

theorem refuseDesc_keeps {s : State} {qp : Nat} {uid : Nat} {ts : Nat} {status : Nat} {ws : List Nat}
    (hF : Touch.nothing.free.qps.Le b.may) (h : Keeps b s) :
    Keeps b (State.refuseDesc s qp uid ts status ws) := (queueComp_keeps (hF.sub rfl) h)

theorem startEnding_keeps {s : State} {uid : Nat} {k : EndKind}
    (hF : Touch.nothing.jobs.engines.merges.moves.echo.vision.flash.siphon.passage.sec.Le b.may) (h : Keeps b s) :
    Keeps b (State.startEnding s uid k) := (modJob_keeps (hF.sub rfl) (withdraw_keeps (hF.sub rfl) (abortPeer_keeps (hF.sub rfl) h)))

end Sys2Proof.Machine
end

