-- ==== Sys2Proof/Laws/KeepFlashOps.lean ====
section
/-! SUPPORT. What the operations of Machine/FlashOps.lean keep (Laws/Keep.lean). -/

namespace Sys2Proof.Machine

variable {b : From}

theorem copyBlock_keeps {s : State} {die : Nat} {old : Nat} {new : Nat} (hF : Touch.nothing.mems.flash.Le b.may)
    (h : Keeps b s) :
    Keeps b (State.copyBlock s die old new) := by
  delta State.copyBlock
  extract_lets -merge x1 x2
  have h2 : Keeps b x2 := by
    unfold x2
    refine keepsFold (Q := Keeps b) h fun _ _ h3 => ?_
    exact (flashPut_keeps (hF.sub rfl) h3 _ _)
  clear_value x2
  exact (modDie_keeps (hF.sub rfl) h2)

theorem eraseBlock_keeps {s : State} {die : Nat} {block : Nat} {fast : Bool}
    (hF : Touch.nothing.mems.flash.record.Le b.may) (h : Keeps b s) :
    Keeps b (State.eraseBlock s die block fast) := by
  delta State.eraseBlock
  extract_lets -merge x1 x2
  have h1 : Keeps b x1 := (flashClear_keeps (hF.sub rfl) h _ _); clear_value x1
  have h2 : Keeps b x2 := (modDie_keeps (hF.sub rfl) h1); clear_value x2
  split
  · exact (raise_keeps (hF.sub rfl) (modDie_keeps (hF.sub rfl) h2))
  · exact h2

theorem flushJournal_keeps {s : State} (hF : Touch.nothing.flash.Le b.may) (h : Keeps b s) :
    Keeps b (State.flushJournal s) := by
  delta State.flushJournal
  extract_lets -merge x1
  split
  · exact h
  · exact (Keeps.upd hF h rfl rfl ⟨rfl, rfl⟩ rfl)

theorem journalLater_keeps {s : State} {r : JRec} (hF : Touch.nothing.flash.Le b.may) (h : Keeps b s) :
    Keeps b (State.journalLater s r) := by
  delta State.journalLater
  exact (Keeps.upd hF h rfl rfl ⟨rfl, rfl⟩ rfl)

theorem journalNow_keeps {s : State} {r : JRec} (hF : Touch.nothing.flash.Le b.may) (h : Keeps b s) :
    Keeps b (State.journalNow s r) := by
  delta State.journalNow
  exact (Keeps.upd hF h rfl rfl ⟨rfl, rfl⟩ rfl)

theorem retireBlock_keeps {s : State} {die : Nat} {old : Nat} (hF : Touch.nothing.flash.record.Le b.may) (h : Keeps b s) :
    KSnd b (State.retireBlock s die old) := by
  delta State.retireBlock
  extract_lets -merge x1 x2 x3 x4
  have h2 : Keeps b x2 := (modDie_keeps (hF.sub rfl) h); clear_value x2
  clear_value x4
  split
  · split
    · exact h
    · exact (keepsMkSnd (Keeps.upd hF h2 rfl rfl ⟨rfl, rfl⟩ rfl))
  · extract_lets -merge x5 x6
    have h5 : Keeps b x5 := (modDie_keeps (hF.sub rfl) h); clear_value x5
    have h6 : Keeps b x6 := (raise_keeps (hF.sub rfl) h5); clear_value x6
    exact (keepsMkSnd (journalLater_keeps (hF.sub rfl) h6))

theorem ownErase_keeps {s : State} {die : Nat} {block : Nat} {fast : Bool}
    (hF : Touch.nothing.free.mems.flash.record.Le b.may) (h : Keeps b s) :
    KSnd b (State.ownErase s die block fast) := by
  delta State.ownErase
  extract_lets -merge x1
  have h1 : Keeps b x1 := (journalNow_keeps (hF.sub rfl) h); clear_value x1
  split
  · exact h
  · split
    · exact (keepsMkSnd (journalLater_keeps (hF.sub rfl) (eraseBlock_keeps (hF.sub rfl) (drawFree_keeps (hF.sub rfl) h1))))
    · split
      · have := keepsSnd (by assumption) (retireBlock_keeps (hF.sub rfl) (drawFree_keeps (hF.sub rfl) h1))
        exact (keepsMkSnd (by assumption))
      · have := keepsSnd (by assumption) (retireBlock_keeps (hF.sub rfl) (drawFree_keeps (hF.sub rfl) h1))
        exact (keepsMkSnd (journalLater_keeps (hF.sub rfl) (by assumption)))

theorem ownTrains_keeps {x0 : Nat} {x1 : State} {x2 : Nat} {x3 : Nat} (hF : Touch.nothing.free.flash.record.Le b.may)
    (h : Keeps b x1) :
    KSnd b (State.ownTrains x0 x1 x2 x3) := by
  induction x0 generalizing x1 x3 with
  | zero => exact keepsMkSnd h
  | succ n ih =>
    simp only [State.ownTrains]
    split
    · exact keepsMkSnd (drawFree_keeps (hF.sub rfl) h)
    · split
      · exact keepsMkSnd (keepsSnd (by assumption) (retireBlock_keeps (hF.sub rfl) (drawFree_keeps (hF.sub rfl) h)))
      · exact ih (keepsSnd (by assumption) (retireBlock_keeps (hF.sub rfl) (drawFree_keeps (hF.sub rfl) h)))

theorem ownProgram_keeps {s : State} {die : Nat} {block : Nat} (hF : Touch.nothing.free.flash.record.Le b.may)
    (h : Keeps b s) :
    KSnd b (State.ownProgram s die block) := by
  delta State.ownProgram
  split
  · exact h
  · exact (ownTrains_keeps (hF.sub rfl) h)

theorem setWritePtr_keeps {s : State} {vol : Nat} {band : Nat} {v : Nat} (hF : Touch.nothing.flash.Le b.may)
    (h : Keeps b s) :
    Keeps b (State.setWritePtr s vol band v) := by
  delta State.setWritePtr
  extract_lets -merge x1 x2
  clear_value x1
  exact (Keeps.upd hF h rfl rfl ⟨rfl, rfl⟩ rfl)

theorem programPage_keeps {s : State} {die : Nat} {block : Nat} {page : Nat} {fast : Bool} {vol : Nat} {slot : Nat}
    {band : Nat} {bs : List Byte} (hF : Touch.nothing.mems.flash.Le b.may) (h : Keeps b s) :
    Keeps b (State.programPage s die block page fast vol slot band bs) := (modDie_keeps (hF.sub rfl) (flashPut_keeps (hF.sub rfl) h _ _))

theorem programOwn_keeps {s : State} {vol : Volume} {n : Nat} {bs : List Byte}
    (hF : Touch.nothing.free.mems.flash.record.Le b.may) (h : Keeps b s) :
    KSnd b (State.programOwn s vol n bs) := by
  delta State.programOwn
  extract_lets -merge x1
  split
  · have := keepsSnd (by assumption) (ownProgram_keeps (hF.sub rfl) h)
    exact (keepsMkSnd (by assumption))
  · have := keepsSnd (by assumption) (ownProgram_keeps (hF.sub rfl) h)
    extract_lets -merge x2
    have h2 : Keeps b x2 := by
      unfold x2
      split
      · exact (by assumption)
      · exact (copyBlock_keeps (hF.sub rfl) (by assumption))
    clear_value x2
    exact (keepsMkSnd (setWritePtr_keeps (hF.sub rfl) (programPage_keeps (hF.sub rfl) h2)))

theorem programRun_keeps {s : State} {vol : Volume} {n : Nat} {bs : List Byte}
    (hF : Touch.nothing.free.mems.flash.record.Le b.may) (h : Keeps b s) :
    KSnd b (State.programRun s vol n bs) := by
  delta State.programRun
  extract_lets -merge x1 x2
  clear_value x1 x2
  refine keepsFold (Q := KSnd b) h fun _ _ h3 => ?_
  split
  · exact (programOwn_keeps (hF.sub rfl) h3)
  · exact h3

theorem readThrough_keeps {s : State} {dies : List Nat} (hF : Touch.nothing.flash.Le b.may) (h : Keeps b s) :
    Keeps b (State.readThrough s dies) := by
  delta State.readThrough
  refine keepsFold (Q := Keeps b) h fun _ _ h1 => ?_
  split
  · split
    · exact h1
    · exact (modDie_keeps (hF.sub rfl) h1)
  · exact h1

end Sys2Proof.Machine
end

