-- ==== Sys2Proof/Laws/KeepJobStart.lean ====
section
/-! SUPPORT. What the operations of Machine/JobStart.lean keep (Laws/Keep.lean). -/

namespace Sys2Proof.Machine

variable {b : From}

theorem takeBlocks_keeps {s : State} {uid : Nat} {x2 : Nat} {n : Nat}
    (hF : Touch.nothing.jobs.counters.ctrBlocks.Le b.may) (h : Keeps b s) :
    Keeps b (State.takeBlocks s uid x2 n) := by
  delta State.takeBlocks
  extract_lets -merge x1
  have h1 : Keeps b x1 := (Keeps.upd hF h rfl rfl ⟨rfl, rfl⟩ rfl); clear_value x1
  exact (modJob_keeps (hF.sub rfl) h1)

theorem giveCounters_keeps {s : State} {j : Job} (hF : Touch.nothing.jobs.counters.ctrBlocks.Le b.may) (h : Keeps b s) :
    KOpt (Keeps b) (State.giveCounters s j) := by
  delta State.giveCounters
  split
  · refine KOpt.map' (R := Keeps b) fun _ => ?_
    exact (takeBlocks_keeps (hF.sub rfl) h)
  · exact (KOpt.some h)

theorem run_keeps {s : State} {uid : Nat} (hF : Touch.nothing.jobs.Le b.may) (h : Keeps b s) :
    Keeps b (State.run s uid) := (modJob_keeps (hF.sub rfl) h)

theorem unparkSeqs_keeps {s : State} {p : Nat} {uid : Nat} {seqs : List Nat}
    (hF : Touch.nothing.jobs.parts.kvs.Le b.may) (h : Keeps b s) :
    KOpt (Keeps b) (State.unparkSeqs s p uid seqs) := by
  delta State.unparkSeqs
  refine keepsFold (Q := KOpt (Keeps b)) (KOpt.some h) fun _ _ h1 => ?_
  refine KOpt.bind (Q := Keeps b) (R := Keeps b) h1 fun _ h2 => ?_
  refine KOpt.map (Q := KFst b) (R := Keeps b) (unpark_keeps (hF.sub rfl) h2) fun _ h3 => ?_
  split
  · exact (jobQuality_keeps (hF.sub rfl) h3)
  · exact h3

theorem starting_keeps {s : State} {uid : Nat} {op : Nat}
    (hF : Touch.nothing.jobs.counters.ctrBlocks.parts.kvs.Le b.may) (h : Keeps b s) :
    KOpt (KSnd b) (State.starting s uid op) := by
  delta State.starting
  split
  · exact KOpt.none
  · split
    · split
      · exact KOpt.none
      · rename_i e
        have := KOpt.of (Q := Keeps b) e (by
            refine KOpt.bind (Q := Keeps b) (R := Keeps b) (giveCounters_keeps (hF.sub rfl) h) fun _ h1 => ?_
            exact (unparkSeqs_keeps (hF.sub rfl) h1))
        exact (KOpt.some (keepsMkSnd (run_keeps (hF.sub rfl) (by assumption))))
    · exact KOpt.none

end Sys2Proof.Machine
end

