-- ==== Sys2Proof/Laws/KeepDoorbell.lean ====
section
/-! SUPPORT. What the operations of Machine/Doorbell.lean keep (Laws/Keep.lean). -/

namespace Sys2Proof.Machine

variable {b : From}

theorem noteOrigin_keeps {s : State} {uid : Nat} (hF : Touch.nothing.replay.Le b.may) (h : Keeps b s) :
    Keeps b (State.noteOrigin s uid) := by
  delta State.noteOrigin
  extract_lets -merge x1 x2
  clear_value x1
  exact (Keeps.upd hF h rfl rfl ⟨rfl, rfl⟩ rfl)

theorem acceptDesc_keeps {s : State} {qp : Nat} {uid : Nat} {x3 : Head}
    (hF : Touch.nothing.free.qps.jobs.engines.counters.ctrBlocks.parts.kvs.seqs.slots.mems.dram.flash.replay.record.Le b.may)
    (h : Keeps b s) :
    Keeps b (State.acceptDesc s qp uid x3) := by
  delta State.acceptDesc
  extract_lets -merge x1 x2 x3 x4 x5 x6 x7 x8 x9 x10 x11 x12 x13
  clear_value x1 x2 x3 x4 x5 x6
  have h9 : Keeps b x9 := (Keeps.upd hF h rfl rfl ⟨rfl, rfl⟩ rfl); clear_value x9
  have h10 : Keeps b x10 := (KOpt.getD (unparkSeqs_keeps (hF.sub rfl) h9) h9); clear_value x10
  have h11 : Keeps b x11 := by
    unfold x11
    split
    · exact (noteOrigin_keeps (hF.sub rfl) h10)
    · exact h10
  clear_value x11
  have h13 : Keeps b x13 := by
    unfold x13
    split
    · exact h11
    · exact (Keeps.upd hF h11 rfl rfl ⟨rfl, rfl⟩ rfl)
  clear_value x13
  split
  · split
    · exact (finishJob_keeps (hF.sub rfl) (cancelEffects_keeps (hF.sub rfl) h13))
    · exact h13
  · exact h11

theorem dropWrite_keeps {s : State} {qp : Nat} (hF : Touch.nothing.qps.record.Le b.may) (h : Keeps b s) :
    Keeps b (State.dropWrite s qp) := by
  delta State.dropWrite
  extract_lets -merge x1
  have h1 : Keeps b x1 := (modQp_keeps (hF.sub rfl) h); clear_value x1
  exact (raise_keeps (hF.sub rfl) h1)

theorem applyRing_keeps {s : State} {fn : Fn} {qp : Nat} {v : Nat}
    (hF : Touch.nothing.qps.mems.dram.trace.record.Le b.may) (h : Keeps b s) :
    Keeps b (State.applyRing s fn qp v) := by
  delta State.applyRing
  extract_lets -merge x1 x2 x3 x4 x5 x6
  clear_value x2 x3 x4 x5
  have h6 : Keeps b x6 := (modQp_keeps (hF.sub rfl) h); clear_value x6
  split
  · exact (dropWrite_keeps (hF.sub rfl) h)
  · exact (tracePart_keeps (hF.sub rfl) h6)

theorem bar2Write_keeps {s : State} {fn : Fn} {offset : Nat} {size : Nat} {isPush : Bool} {v : Nat} {ws : List Nat}
    (hF : Touch.nothing.qps.mems.dram.trace.record.Le b.may) (h : Keeps b s) :
    Keeps b (State.bar2Write s fn offset size isPush v ws) := by
  delta State.bar2Write
  split
  · exact h
  · split
    · exact (raise_keeps (hF.sub rfl) h)
    · split
      · exact (dropWrite_keeps (hF.sub rfl) h)
      · exact (applyRing_keeps (hF.sub rfl) h)
    · extract_lets -merge x1
      clear_value x1
      split
      · exact (dropWrite_keeps (hF.sub rfl) h)
      · exact (modQp_keeps (hF.sub rfl) h)

theorem configure_keeps {s : State} {fn : Fn} {f : State → State} (hF : Touch.nothing.out.Le b.may) (h : Keeps b s)
    (k : ∀ t, Keeps b t → Keeps b (f t)) :
    Keeps b (State.configure s fn f) := by
  delta State.configure
  split
  · exact h
  · split
    · exact (Keeps.upd hF h rfl rfl ⟨rfl, rfl⟩ rfl)
    · exact k _ (Keeps.upd hF h rfl rfl ⟨rfl, rfl⟩ rfl)

theorem enableQp_keeps {s : State} {n : Nat} (hF : Touch.nothing.qps.Le b.may) (h : Keeps b s) :
    Keeps b (State.enableQp s n) := by
  delta State.enableQp
  extract_lets -merge x1
  clear_value x1
  split
  · exact h
  · split
    · exact (modQp_keeps (hF.sub rfl) h)
    · exact (modQp_keeps (hF.sub rfl) h)

theorem popHead_keeps {s : State} {n : Nat} (hF : Touch.nothing.qps.replay.Le b.may) (h : Keeps b s) :
    Keeps b (State.popHead s n) := by
  delta State.popHead
  extract_lets -merge x1
  split
  · split
    · extract_lets -merge x2
      have h2 : Keeps b x2 := (Keeps.upd hF h rfl rfl ⟨rfl, rfl⟩ rfl); clear_value x2
      split
      · exact h2
      · exact (modQp_keeps (hF.sub rfl) h2)
    · exact h
  · exact (modQp_keeps (hF.sub rfl) h)

theorem raiseVector_keeps {s : State} {n : Nat} (hF : Touch.nothing.qps.link.out.Le b.may) (h : Keeps b s) :
    Keeps b (State.raiseVector s n) := by
  delta State.raiseVector
  extract_lets -merge x1
  have h1 : Keeps b x1 := (modQp_keeps (hF.sub rfl) h); clear_value x1
  exact (raiseMsix_keeps (hF.sub rfl) h1)

theorem replaySettle_keeps {s : State} (hF : Touch.nothing.replay.Le b.may) (h : Keeps b s) :
    Keeps b (State.replaySettle s) := by
  delta State.replaySettle
  extract_lets -merge x1 x2 x3
  split
  · exact h
  · split
    · exact (Keeps.upd hF h rfl rfl ⟨rfl, rfl⟩ rfl)
    · split
      · exact h
      · exact (Keeps.upd hF h rfl rfl ⟨rfl, rfl⟩ rfl)
      · exact (Keeps.upd hF h rfl rfl ⟨rfl, rfl⟩ rfl)

theorem takeHead_keeps {s : State} {n : Nat} {x2 : Head}
    (hF : Touch.nothing.free.qps.jobs.engines.counters.ctrBlocks.parts.kvs.seqs.slots.mems.dram.flash.trace.replay.record.Le b.may)
    (h : Keeps b s) :
    Keeps b (State.takeHead s n x2) := by
  delta State.takeHead
  extract_lets -merge x1 x2 x3 x4 x5 x6 x7
  clear_value x1 x2
  have h3 : Keeps b x3 := (popHead_keeps (hF.sub rfl) h); clear_value x3
  clear_value x4
  have h6 : Keeps b x6 := (Keeps.upd hF h3 rfl rfl ⟨rfl, rfl⟩ rfl); clear_value x6
  have h7 : Keeps b x7 := (tracePart_keeps (hF.sub rfl) h6); clear_value x7
  split
  · exact (refuseDesc_keeps (hF.sub rfl) h7)
  · split
    · exact (refuseDesc_keeps (hF.sub rfl) h7)
    · exact (acceptDesc_keeps (hF.sub rfl) h7)

theorem takeAmong_keeps {s : State} {among : List Nat}
    (hF : Touch.nothing.free.qps.jobs.engines.counters.ctrBlocks.parts.kvs.seqs.slots.mems.dram.flash.trace.replay.record.Le b.may)
    (h : Keeps b s) :
    Keeps b (State.takeAmong s among) := by
  delta State.takeAmong
  split
  · split
    · exact (takeHead_keeps (hF.sub rfl) h)
    · exact h
  · exact h

theorem writeComp_keeps {s : State} {n : Nat}
    (hF : Touch.nothing.qps.jobs.counters.ctrBlocks.mems.dram.trace.replay.record.Le b.may) (h : Keeps b s) :
    Keeps b (State.writeComp s n) := by
  delta State.writeComp
  extract_lets -merge x1 x2
  clear_value x2
  split
  · exact h
  · extract_lets -merge x3 x4 x5 x6 x7 x8
    clear_value x3
    have h4 : Keeps b x4 := (storeWords_keeps (hF.sub rfl) h); clear_value x4
    have h5 : Keeps b x5 := (modQp_keeps (hF.sub rfl) h4); clear_value x5
    have h6 : Keeps b x6 := (tracePart_keeps (hF.sub rfl) h5); clear_value x6
    have h7 : Keeps b x7 := (replayCompare_keeps (hF.sub rfl) h6); clear_value x7
    have h8 : Keeps b x8 := by
      unfold x8
      split
      · split
        · exact (retireJob_keeps (hF.sub rfl) h7)
        · exact h7
      · exact h7
    clear_value x8
    split
    · exact h
    · split
      · exact (raiseVector_keeps (hF.sub rfl) h8)
      · exact h8

theorem execHostAccessReturns_keeps {fn : Fn} {s : State}
    (hF : Touch.nothing.free.qps.jobs.engines.counters.ctrBlocks.parts.kvs.seqs.slots.mems.dram.flash.trace.replay.record.Le b.may)
    (h : Keeps b s) :
    KOut b (execHostAccessReturns fn s) := by
  delta execHostAccessReturns
  extract_lets -merge x1 x2 x5
  clear_value x1
  have h2 : Keeps b x2 := by
    unfold x2
    refine keepsFold (Q := Keeps b) h fun _ _ h3 => ?_
    refine keepsFold (Q := Keeps b) h3 fun _ _ h4 => ?_
    exact (writeComp_keeps (hF.sub rfl) h4)
  clear_value x2 x5
  refine KOut.next ?_
  refine keepsFold (Q := Keeps b) h2 fun _ _ h6 => ?_
  exact (takeAmong_keeps (hF.sub rfl) h6)

theorem execModerationTimeout_keeps {qp : Nat} {s : State} (hF : Touch.nothing.qps.link.out.Le b.may) (h : Keeps b s) :
    KOut b (execModerationTimeout qp s) := by
  delta execModerationTimeout
  refine KOut.next ?_
  split
  · split
    · exact (raiseVector_keeps (hF.sub rfl) h)
    · exact h
  · exact h

theorem execPushDoorbell_keeps {fn : Fn} {offset : Nat} {size : Nat} {desc : BitVec 512} {s : State}
    (hF : Touch.nothing.qps.mems.dram.trace.record.Le b.may) (h : Keeps b s) :
    KOut b (execPushDoorbell fn offset size desc s) := (KOut.next (bar2Write_keeps (hF.sub rfl) h))

theorem execQpDisable_keeps {fn : Fn} {qp : Nat} {s : State} (hF : Touch.nothing.qps.jobs.counters.ctrBlocks.Le b.may)
    (h : Keeps b s) :
    KOut b (execQpDisable fn qp s) := by
  delta execQpDisable
  refine KOut.next ?_
  split
  · exact (disableQp_keeps (hF.sub rfl) h)
  · exact h

theorem execQpEnable_keeps {fn : Fn} {qp : Nat} {s : State} (hF : Touch.nothing.qps.Le b.may) (h : Keeps b s) :
    KOut b (execQpEnable fn qp s) := by
  delta execQpEnable
  refine KOut.next ?_
  split
  · exact (enableQp_keeps (hF.sub rfl) h)
  · exact h

theorem execRingDoorbell_keeps {fn : Fn} {offset : Nat} {size : Nat} {value : BitVec 64} {s : State}
    (hF : Touch.nothing.qps.mems.dram.trace.record.Le b.may) (h : Keeps b s) :
    KOut b (execRingDoorbell fn offset size value s) := (KOut.next (bar2Write_keeps (hF.sub rfl) h))

theorem execTakeDescriptor_keeps {s : State}
    (hF : Touch.nothing.free.qps.jobs.engines.counters.ctrBlocks.parts.kvs.seqs.slots.mems.dram.flash.trace.replay.record.Le b.may)
    (h : Keeps b s) :
    KOut b (execTakeDescriptor s) := (KOut.next (replaySettle_keeps (hF.sub rfl) (takeAmong_keeps (hF.sub rfl) h)))

theorem execWriteCompletion_keeps {qp : Nat} {s : State}
    (hF : Touch.nothing.qps.jobs.counters.ctrBlocks.mems.dram.trace.replay.record.Le b.may) (h : Keeps b s) :
    KOut b (execWriteCompletion qp s) := (KOut.next (replaySettle_keeps (hF.sub rfl) (writeComp_keeps (hF.sub rfl) h)))

end Sys2Proof.Machine
end

