-- ==== Sys2Proof/Laws/KeepFlashCtl.lean ====
section
/-! SUPPORT. What the operations of Machine/FlashCtl.lean keep (Laws/Keep.lean). -/

namespace Sys2Proof.Machine

variable {b : From}

theorem pumpDie_keeps {s : State} {die : Nat} (hF : Touch.nothing.flash.Le b.may) (h : Keeps b s) :
    Keeps b (State.pumpDie s die) := by
  delta State.pumpDie
  split
  · split
    · exact (modDie_keeps (hF.sub rfl) (journalNow_keeps (hF.sub rfl) h))
    · exact h
  · exact h

theorem queueOp_keeps {s : State} {die : Nat} {o : FOp} (hF : Touch.nothing.flash.Le b.may) (h : Keeps b s) :
    Keeps b (State.queueOp s die o) := (pumpDie_keeps (hF.sub rfl) (modDie_keeps (hF.sub rfl) h))

theorem issuePage_keeps {s : State} {uid : Nat} (hF : Touch.nothing.jobEnd.Le b.may) (h : Keeps b s) :
    Keeps b (State.issuePage s uid) := by
  delta State.issuePage
  split
  · exact h
  · split
    · extract_lets -merge x1 x2 x3
      clear_value x2 x3
      split
      · exact (finishJob_keeps (hF.sub rfl) h)
      · split
        · exact (failJob_keeps (hF.sub rfl) h)
        · split
          · split
            · exact (failJob_keeps (hF.sub rfl) h)
            · exact (queueOp_keeps (hF.sub rfl) h)
          · split
            · exact (failJob_keeps (hF.sub rfl) h)
            · split
              · exact (failJob_keeps (hF.sub rfl) (reportWords_keeps (hF.sub rfl) h))
              · exact (queueOp_keeps (hF.sub rfl) h)
    · exact (failJob_keeps (hF.sub rfl) h)
    · exact h

theorem pageDone_keeps {s : State} {uid : Nat} (hF : Touch.nothing.jobEnd.Le b.may) (h : Keeps b s) :
    Keeps b (State.pageDone s uid) := by
  delta State.pageDone
  split
  · exact h
  · split
    · extract_lets -merge x1
      have h1 : Keeps b x1 := (modJob_keeps (hF.sub rfl) h); clear_value x1
      split
      · exact (issuePage_keeps (hF.sub rfl) h1)
      · exact h1
    · exact h

theorem deliver_keeps {s : State} {o : FOp} {die : Nat} (hF : Touch.nothing.jobEnd.Le b.may) (h : Keeps b s) :
    Keeps b (State.deliver s o die) := by
  delta State.deliver
  split
  · exact h
  · split
    · extract_lets -merge x1 x2
      clear_value x1 x2
      split
      · exact (failJob_keeps (hF.sub rfl) h)
      · exact (pageDone_keeps (hF.sub rfl) (store_keeps (hF.sub rfl) h))
    · exact h

theorem endOp_keeps {s : State} {die : Nat} {o : FOp} (hF : Touch.nothing.flash.Le b.may) (h : Keeps b s) :
    Keeps b (State.endOp s die o) := (pumpDie_keeps (hF.sub rfl) (modDie_keeps (hF.sub rfl) h))

theorem mendBand_keeps {s : State} {band : Nat × Nat} (hF : Touch.nothing.flash.Le b.may) (h : Keeps b s) :
    Keeps b (State.mendBand s band) := by
  delta State.mendBand
  exact (Keeps.upd hF h rfl rfl ⟨rfl, rfl⟩ rfl)

theorem erased_keeps {s : State} {o : FOp} {die : Nat}
    (hF : Touch.nothing.free.qps.jobs.engines.counters.ctrBlocks.kvs.slots.flash.Le b.may) (h : Keeps b s) :
    Keeps b (State.erased s o die) := by
  delta State.erased
  extract_lets -merge x1 x2
  have h1 : Keeps b x1 := (journalLater_keeps (hF.sub rfl) h); clear_value x1
  have h2 : Keeps b x2 := (modDie_keeps (hF.sub rfl) h1); clear_value x2
  split
  · exact h2
  · split
    · extract_lets -merge x3 x4
      have h3 : Keeps b x3 := (modJob_keeps (hF.sub rfl) h2); clear_value x3
      have h4 : Keeps b x4 := by
        unfold x4
        split
        · exact (mendBand_keeps (hF.sub rfl) (setWritePtr_keeps (hF.sub rfl) h3))
        · exact h3
      clear_value x4
      split
      · exact (finishUid_keeps (hF.sub rfl) h4)
      · exact h4
    · exact h2

theorem lossAt_keeps {s : State} {die : Nat} (hF : Touch.nothing.mems.flash.Le b.may) (h : Keeps b s) :
    Keeps b (State.lossAt s die) := by
  delta State.lossAt
  extract_lets -merge x1 x2 x4
  have h2 : Keeps b x2 := by
    unfold x2
    split
    · extract_lets -merge x3
      have h3 : Keeps b x3 := (programPage_keeps (hF.sub rfl) h); clear_value x3
      split
      · split
        · exact (setWritePtr_keeps (hF.sub rfl) h3)
        · exact h3
      · exact h
    · exact h
  clear_value x2
  have h4 : Keeps b x4 := by
    unfold x4
    split
    · exact (modDie_keeps (hF.sub rfl) h2)
    · exact h2
  clear_value x4
  exact (modDie_keeps (hF.sub rfl) h4)

theorem flashLoss_keeps {s : State} (hF : Touch.nothing.mems.flash.Le b.may) (h : Keeps b s) :
    Keeps b (State.flashLoss s) := by
  delta State.flashLoss
  extract_lets -merge x1 x3
  have h1 : Keeps b x1 := by
    unfold x1
    refine keepsFold (Q := Keeps b) h fun _ _ h2 => ?_
    exact (lossAt_keeps (hF.sub rfl) h2)
  clear_value x1
  exact (Keeps.upd hF h1 rfl rfl ⟨rfl, rfl⟩ rfl)

theorem stopAt_keeps {s : State} {die : Nat} (hF : Touch.nothing.mems.flash.record.Le b.may) (h : Keeps b s) :
    Keeps b (State.stopAt s die) := by
  delta State.stopAt
  extract_lets -merge x1 x3
  have h1 : Keeps b x1 := by
    unfold x1
    split
    · extract_lets -merge x2
      have h2 : Keeps b x2 := (programPage_keeps (hF.sub rfl) h); clear_value x2
      split
      · split
        · exact (setWritePtr_keeps (hF.sub rfl) h2)
        · exact h2
      · exact (eraseBlock_keeps (hF.sub rfl) h)
      · exact h
    · exact h
  clear_value x1
  have h3 : Keeps b x3 := by
    unfold x3
    split
    · split
      · exact (modDie_keeps (hF.sub rfl) h1)
      · exact h1
    · exact h1
  clear_value x3
  exact (modDie_keeps (hF.sub rfl) h3)

theorem flashStop_keeps {s : State} (hF : Touch.nothing.mems.flash.record.Le b.may) (h : Keeps b s) :
    Keeps b (State.flashStop s) := by
  delta State.flashStop
  extract_lets -merge x1 x3
  have h1 : Keeps b x1 := by
    unfold x1
    refine keepsFold (Q := Keeps b) h fun _ _ h2 => ?_
    exact (stopAt_keeps (hF.sub rfl) h2)
  clear_value x1
  exact (Keeps.upd hF h1 rfl rfl ⟨rfl, rfl⟩ rfl)

theorem modHead_keeps {s : State} {die : Nat} {f : FOp → FOp} (hF : Touch.nothing.flash.Le b.may) (h : Keeps b s) :
    Keeps b (State.modHead s die f) := (modDie_keeps (hF.sub rfl) h)

theorem repair_keeps {s : State} {x : Nat × Nat} (hF : Touch.nothing.free.mems.flash.record.Le b.may) (h : Keeps b s) :
    Keeps b (State.repair s x) := by
  delta State.repair
  extract_lets -merge x1 x2 x3
  clear_value x1
  have h2 : Keeps b x2 := (ownErase_keeps (hF.sub rfl) h); clear_value x2
  split
  · exact h2
  · split
    · exact h2
    · extract_lets -merge x4
      clear_value x4
      split
      · exact h2
      · exact (Keeps.upd hF h2 rfl rfl ⟨rfl, rfl⟩ rfl)

theorem mountFlash_keeps {s : State} (hF : Touch.nothing.free.mems.flash.record.Le b.may) (h : Keeps b s) :
    Keeps b (State.mountFlash s) := by
  delta State.mountFlash
  extract_lets -merge x1 x2 x4 x5 x6 x8 x11
  clear_value x1
  have h2 : Keeps b x2 := by
    unfold x2
    refine keepsFold (Q := Keeps b) h fun _ _ h3 => ?_
    exact (ownErase_keeps (hF.sub rfl) h3)
  clear_value x2 x4 x5
  have h6 : Keeps b x6 := by
    unfold x6
    refine keepsFold (Q := Keeps b) h2 fun _ _ h7 => ?_
    exact (repair_keeps (hF.sub rfl) h7)
  clear_value x6
  have h8 : Keeps b x8 := by
    unfold x8
    refine keepsFold (Q := Keeps b) h6 fun _ _ h9 => ?_
    refine keepsFold (Q := Keeps b) h9 fun _ _ h10 => ?_
    exact (setWritePtr_keeps (hF.sub rfl) h10)
  clear_value x8
  exact (Keeps.upd hF h8 rfl rfl ⟨rfl, rfl⟩ (by simp +zetaDelta [State.shaped]))

theorem moveGap_keeps {s : State} {die : Nat} (hF : Touch.nothing.free.mems.flash.record.Le b.may) (h : Keeps b s) :
    Keeps b (State.moveGap s die) := by
  delta State.moveGap
  extract_lets -merge x1 x2 x3 x4 x5
  clear_value x2 x3 x4
  have h5 : Keeps b x5 := (journalNow_keeps (hF.sub rfl) h); clear_value x5
  split
  · rename_i e
    have := keepsSnd (b := b) e (by
        split
        · exact h5
        · exact (ownProgram_keeps (hF.sub rfl) h5))
    exact (by assumption)
  · rename_i e
    have := keepsSnd (b := b) e (by
        split
        · exact h5
        · exact (ownProgram_keeps (hF.sub rfl) h5))
    extract_lets -merge x6 x7
    have h6 : Keeps b x6 := (journalNow_keeps (hF.sub rfl) (copyBlock_keeps (hF.sub rfl) (by assumption))); clear_value x6
    have h7 : Keeps b x7 := (modDie_keeps (hF.sub rfl) h6); clear_value x7
    exact (ownErase_keeps (hF.sub rfl) h7)

theorem tear_keeps {s : State} {uid : Nat} {band : Nat × Nat} (hF : Touch.nothing.flash.Le b.may) (h : Keeps b s) :
    Keeps b (State.tear s uid band) := by
  delta State.tear
  extract_lets -merge x1
  split
  · exact h
  · split
    · exact h
    · exact (Keeps.upd hF h rfl rfl ⟨rfl, rfl⟩ rfl)

theorem wornEnd_keeps {s : State} {o : FOp} {result : Nat} (hF : Touch.nothing.jobEnd.Le b.may) (h : Keeps b s) :
    Keeps b (State.wornEnd s o result) := by
  delta State.wornEnd
  refine failJob_keeps (hF.sub rfl) ?_
  split
  · exact (tear_keeps (hF.sub rfl) h)
  · exact h

theorem readFails_keeps {s : State} {die : Nat} {o : FOp} {done : Nat} (hF : Touch.nothing.jobEnd.Le b.may)
    (h : Keeps b s) :
    Keeps b (State.readFails s die o done) := (failJob_keeps (hF.sub rfl) (raise_keeps (hF.sub rfl) h))

theorem programmed_keeps {s : State} {o : FOp} {die : Nat} {block : Nat} (hF : Touch.nothing.jobEnd.Le b.may)
    (h : Keeps b s) :
    Keeps b (State.programmed s o die block) := by
  delta State.programmed
  extract_lets -merge x1 x2
  have h1 : Keeps b x1 := (programPage_keeps (hF.sub rfl) h); clear_value x1
  have h2 : Keeps b x2 := by
    unfold x2
    split
    · exact (setWritePtr_keeps (hF.sub rfl) h1)
    · exact h1
  clear_value x2
  exact (pageDone_keeps (hF.sub rfl) h2)

theorem opDone_keeps {s : State} {die : Nat} {o : FOp} {met : FlashMet} (hF : Touch.nothing.jobEnd.Le b.may)
    (h : Keeps b s) :
    Keeps b (State.opDone s die o met) := by
  delta State.opDone
  extract_lets -merge x1 x2 x3 x4 x5 x6 x7
  clear_value x1 x2
  have h3 : Keeps b x3 := (endOp_keeps (hF.sub rfl) h); clear_value x3
  have h5 : Keeps b x5 := (endOp_keeps (hF.sub rfl) h); clear_value x5
  have h6 : KSnd b x6 := (retireBlock_keeps (hF.sub rfl) (endOp_keeps (hF.sub rfl) h)); clear_value x6
  have h7 : KSnd b x7 := (retireBlock_keeps (hF.sub rfl) (endOp_keeps (hF.sub rfl) h)); clear_value x7
  split
  · split
    · exact (wornEnd_keeps (hF.sub rfl) (endOp_keeps (hF.sub rfl) h))
    · exact (wornEnd_keeps (hF.sub rfl) (endOp_keeps (hF.sub rfl) h))
    · exact h
  · split
    · extract_lets -merge x8
      have h8 : Keeps b x8 := by
        unfold x8
        split
        · exact h3
        · exact (Keeps.upd hF h3 rfl rfl ⟨rfl, rfl⟩ rfl)
      clear_value x8
      split
      · exact (readFails_keeps (hF.sub rfl) h3)
      · exact (deliver_keeps (hF.sub rfl) h8)
    · split
      · exact (readFails_keeps (hF.sub rfl) h5)
      · exact (deliver_keeps (hF.sub rfl) h5)
    · exact (programmed_keeps (hF.sub rfl) (endOp_keeps (hF.sub rfl) h))
    · split
      · exact (pumpDie_keeps (hF.sub rfl) (modDie_keeps (hF.sub rfl) h))
      · split
        · extract_lets -merge x9
          have h9 : Keeps b x9 := (modJob_keeps (hF.sub rfl) h6); clear_value x9
          exact (programmed_keeps (hF.sub rfl) (copyBlock_keeps (hF.sub rfl) h9))
        · exact (failJob_keeps (hF.sub rfl) h6)
    · exact (erased_keeps (hF.sub rfl) (eraseBlock_keeps (hF.sub rfl) (endOp_keeps (hF.sub rfl) h)))
    · split
      · exact (erased_keeps (hF.sub rfl) h7)
      · exact (wornEnd_keeps (hF.sub rfl) h7)
    · exact h

theorem setRegion_keeps {s : State} {n : Nat} {r : Region} (hF : Touch.nothing.flash.Le b.may) (h : Keeps b s) :
    Keeps b (State.setRegion s n r) := by
  delta State.setRegion
  exact (Keeps.upd hF h rfl rfl ⟨rfl, rfl⟩ rfl)

theorem wrongPassword_keeps {s : State} (hF : Touch.nothing.flash.Le b.may) (h : Keeps b s) :
    Keeps b (State.wrongPassword s) := by
  delta State.wrongPassword
  exact (Keeps.upd hF h rfl rfl ⟨rfl, rfl⟩ rfl)

theorem protect_keeps {s : State} {p : Nat} {ws : List Nat} (hF : Touch.nothing.flash.Le b.may) (h : Keeps b s) :
    KSnd b (State.protect s p ws) := by
  delta State.protect
  extract_lets -merge x1 x2 x3 x4 x5 x6 x7 x8 x9
  clear_value x1 x2 x4 x5 x6 x7
  have h9 : Keeps b x9 := (Keeps.upd hF h rfl rfl ⟨rfl, rfl⟩ rfl); clear_value x9
  split
  · exact h
  · split
    · exact h
    · split
      · exact h
      · split
        · exact h
        · split
          · exact (keepsMkSnd (setRegion_keeps (hF.sub rfl) h))
          · split
            · exact (keepsMkSnd (setRegion_keeps (hF.sub rfl) h))
            · split
              · exact (keepsMkSnd (wrongPassword_keeps (hF.sub rfl) h))
              · split
                · exact (keepsMkSnd (setRegion_keeps (hF.sub rfl) h9))
                · split
                  · exact (keepsMkSnd (setRegion_keeps (hF.sub rfl) h9))
                  · exact (keepsMkSnd (setRegion_keeps (hF.sub rfl) h9))

theorem startErase_keeps {s : State} {t : FTarget} {j : Job} (hF : Touch.nothing.jobs.flash.Le b.may) (h : Keeps b s) :
    Keeps b (State.startErase s t j) := by
  delta State.startErase
  extract_lets -merge x1 x2
  clear_value x1
  have h2 : Keeps b x2 := (modJob_keeps (hF.sub rfl) h); clear_value x2
  refine keepsFold (Q := Keeps b) h2 fun _ _ h3 => ?_
  exact (queueOp_keeps (hF.sub rfl) h3)

theorem startPages_keeps {s : State} {j : Job} (hF : Touch.nothing.jobEnd.Le b.may) (h : Keeps b s) :
    Keeps b (State.startPages s j) := by
  delta State.startPages
  split
  · exact (issuePage_keeps (hF.sub rfl) h)
  · split
    · exact (failJob_keeps (hF.sub rfl) h)
    · split
      · exact (failJob_keeps (hF.sub rfl) h)
      · split
        · exact (outsideJob_keeps (hF.sub rfl) h)
        · exact (issuePage_keeps (hF.sub rfl) (modJob_keeps (hF.sub rfl) h))

theorem execEraseResume_keeps {die : Nat} {s : State} (hF : Touch.nothing.flash.Le b.may) (h : Keeps b s) :
    KOut b (execEraseResume die s) := by
  delta execEraseResume
  refine KOut.next ?_
  split
  · exact h
  · split
    · exact (modHead_keeps (hF.sub rfl) h)
    · exact h

theorem execEraseStarved_keeps {die : Nat} {s : State} (hF : Touch.nothing.flash.record.Le b.may) (h : Keeps b s) :
    KOut b (execEraseStarved die s) := by
  delta execEraseStarved
  refine KOut.next ?_
  split
  · exact h
  · split
    · exact (raise_keeps (hF.sub rfl) (modHead_keeps (hF.sub rfl) h))
    · exact h

theorem execEraseSuspend_keeps {die : Nat} {s : State} (hF : Touch.nothing.flash.Le b.may) (h : Keeps b s) :
    KOut b (execEraseSuspend die s) := by
  delta execEraseSuspend
  refine KOut.next ?_
  split
  · exact h
  · split
    · exact (modHead_keeps (hF.sub rfl) h)
    · exact h

theorem execEraseWindowEnd_keeps {die : Nat} {s : State} (hF : Touch.nothing.flash.Le b.may) (h : Keeps b s) :
    KOut b (execEraseWindowEnd die s) := by
  delta execEraseWindowEnd
  refine KOut.next ?_
  split
  · exact h
  · split
    · exact h
    · split
      · exact (modHead_keeps (hF.sub rfl) h)
      · exact h

theorem execFlashErase_keeps {uid : Nat} {s : State} (hF : Touch.nothing.jobEnd.Le b.may) (h : Keeps b s) :
    KOut b (execFlashErase uid s) := by
  delta execFlashErase
  refine KOut.next ?_
  split
  · exact h
  · have := KOpt.ofSnd (by assumption) (starting_keeps (hF.sub rfl) h)
    split
    · exact (failJob_keeps (hF.sub rfl) (by assumption))
    · split
      · exact (failJob_keeps (hF.sub rfl) (by assumption))
      · exact (startErase_keeps (hF.sub rfl) (by assumption))

theorem execFlashMount_keeps {s : State} (hF : Touch.nothing.free.mems.flash.drip.record.Le b.may) (h : Keeps b s) :
    KOut b (execFlashMount s) := by
  delta execFlashMount
  extract_lets -merge x1 x2
  have h1 : Keeps b x1 := (mountFlash_keeps (hF.sub rfl) h); clear_value x1
  refine KOut.next ?_
  split
  · exact (Keeps.upd hF h1 rfl rfl ⟨rfl, rfl⟩ rfl)
  · exact h

theorem execFlashOperationDone_keeps {die : Nat} {met : FlashMet} {s : State} (hF : Touch.nothing.jobEnd.Le b.may)
    (h : Keeps b s) :
    KOut b (execFlashOperationDone die met s) := by
  delta execFlashOperationDone
  refine KOut.next ?_
  split
  · exact h
  · split
    · exact h
    · exact (opDone_keeps (hF.sub rfl) h)

theorem execFlashProgram_keeps {uid : Nat} {s : State} (hF : Touch.nothing.jobEnd.Le b.may) (h : Keeps b s) :
    KOut b (execFlashProgram uid s) := by
  delta execFlashProgram
  refine KOut.next ?_
  split
  · exact h
  · have := KOpt.ofSnd (by assumption) (starting_keeps (hF.sub rfl) h)
    exact (startPages_keeps (hF.sub rfl) (by assumption))

theorem execFlashProtect_keeps {uid : Nat} {s : State} (hF : Touch.nothing.jobEnd.Le b.may) (h : Keeps b s) :
    KOut b (execFlashProtect uid s) := by
  delta execFlashProtect
  refine KOut.next ?_
  split
  · exact h
  · have := KOpt.ofSnd (by assumption) (starting_keeps (hF.sub rfl) h)
    extract_lets -merge x1
    have h1 : KSnd b x1 := (protect_keeps (hF.sub rfl) (by assumption)); clear_value x1
    split
    · exact (finishUid_keeps (hF.sub rfl) h1)
    · exact (failJob_keeps (hF.sub rfl) h1)

theorem execFlashRead_keeps {uid : Nat} {s : State} (hF : Touch.nothing.jobEnd.Le b.may) (h : Keeps b s) :
    KOut b (execFlashRead uid s) := by
  delta execFlashRead
  refine KOut.next ?_
  split
  · exact h
  · have := KOpt.ofSnd (by assumption) (starting_keeps (hF.sub rfl) h)
    exact (startPages_keeps (hF.sub rfl) (by assumption))

theorem execGapMove_keeps {die : Nat} {s : State} (hF : Touch.nothing.free.mems.flash.record.Le b.may) (h : Keeps b s) :
    KOut b (execGapMove die s) := by
  delta execGapMove
  extract_lets -merge x1
  refine KOut.next ?_
  split
  · exact (moveGap_keeps (hF.sub rfl) h)
  · exact h

end Sys2Proof.Machine
end

