-- ==== Sys2Proof/Laws/KeepServeOps.lean ====
section
/-! SUPPORT. What the operations of Machine/ServeOps.lean keep (Laws/Keep.lean). -/

namespace Sys2Proof.Machine

variable {b : From}

theorem setBucket_keeps {s : State} {p : Nat} {i : Nat} {v : Nat} (hF : Touch.nothing.mems.dram.record.Le b.may)
    (h : Keeps b s) :
    Keeps b (State.setBucket s p i v) := (storeN_keeps (hF.sub rfl) h)

theorem addBucket_keeps {s : State} {p : Nat} {hash : Nat} {n : Nat} (hF : Touch.nothing.mems.dram.record.Le b.may)
    (h : Keeps b s) :
    Keeps b (State.addBucket s p hash n) := (setBucket_keeps (hF.sub rfl) h)

theorem modMove_keeps {s : State} {id : Nat} {f : Move → Move} (hF : Touch.nothing.moves.Le b.may) (h : Keeps b s) :
    Keeps b (State.modMove s id f) := (Keeps.upd hF h rfl rfl ⟨rfl, rfl⟩ rfl)

theorem setPath_keeps {s : State} {m : Move} {w : Waiter} {path : WaitPath} (hF : Touch.nothing.moves.Le b.may)
    (h : Keeps b s) :
    Keeps b (State.setPath s m w path) := (modMove_keeps (hF.sub rfl) h)

theorem dropEntry_keeps {s : State} {m : Move} {w : Waiter} (hF : Touch.nothing.echo.Le b.may) (h : Keeps b s) :
    Keeps b (State.dropEntry s m w) := by
  delta State.dropEntry
  extract_lets -merge x1 x2
  clear_value x1
  exact (Keeps.upd hF h rfl rfl ⟨rfl, rfl⟩ rfl)

theorem takeCheap_keeps {s : State} {m : Move} {w : Waiter} {j : Job}
    (hF : Touch.nothing.jobs.parts.moves.mems.echo.dram.trace.Le b.may) (h : Keeps b s) :
    Keeps b (State.takeCheap s m w j) := by
  delta State.takeCheap
  extract_lets -merge x1
  have h1 : Keeps b x1 := (tracePart_keeps (hF.sub rfl) (setPath_keeps (hF.sub rfl) h)); clear_value x1
  split
  · exact (modPart_keeps (hF.sub rfl) (jobQuality_keeps (hF.sub rfl) (modJob_keeps (hF.sub rfl) h1)))
  · exact (modPart_keeps (hF.sub rfl) (jobQuality_keeps (hF.sub rfl) (dropEntry_keeps (hF.sub rfl) h1)))

theorem waitLate_keeps {s : State} {m : Move} {w : Waiter} {j : Job}
    (hF : Touch.nothing.parts.moves.mems.dram.trace.Le b.may) (h : Keeps b s) :
    Keeps b (State.waitLate s m w j) := by
  delta State.waitLate
  extract_lets -merge x1
  have h1 : Keeps b x1 := (tracePart_keeps (hF.sub rfl) (setPath_keeps (hF.sub rfl) h)); clear_value x1
  exact (modPart_keeps (hF.sub rfl) h1)

theorem decidePath_keeps {s : State} {m : Move} {w : Waiter}
    (hF : Touch.nothing.jobs.parts.moves.mems.echo.dram.trace.Le b.may) (h : Keeps b s) :
    Keeps b (State.decidePath s m w) := by
  delta State.decidePath
  split
  · exact h
  · split
    · exact (takeCheap_keeps (hF.sub rfl) h)
    · exact (waitLate_keeps (hF.sub rfl) h)

theorem delBucket_keeps {s : State} {p : Nat} {hash : Nat} {n : Nat} (hF : Touch.nothing.mems.dram.record.Le b.may)
    (h : Keeps b s) :
    Keeps b (State.delBucket s p hash n) := by
  delta State.delBucket
  extract_lets -merge x1 x2 x3
  clear_value x1 x2
  have h3 : Keeps b x3 := by
    unfold x3
    refine keepsFold (Q := Keeps b) h fun _ _ h4 => ?_
    exact (setBucket_keeps (hF.sub rfl) h4)
  clear_value x3
  refine keepsFold (Q := Keeps b) h3 fun _ _ h5 => ?_
  exact (addBucket_keeps (hF.sub rfl) h5)

theorem setNode_keeps {s : State} {p : Nat} {n : Nat} {x : PNode} (hF : Touch.nothing.mems.dram.record.Le b.may)
    (h : Keeps b s) :
    Keeps b (State.setNode s p n x) := by
  delta State.setNode
  extract_lets -merge x1 x2
  clear_value x1 x2
  exact (store_keeps (hF.sub rfl) h)

theorem dropNode_keeps {s : State} {p : Nat} {n : Nat} (hF : Touch.nothing.kvs.mems.dram.record.Le b.may)
    (h : Keeps b s) :
    Keeps b (State.dropNode s p n) := by
  delta State.dropNode
  extract_lets -merge x1 x2 x3 x5 x6 x7
  clear_value x2
  have h3 : Keeps b x3 := by
    unfold x3
    refine keepsFold (Q := Keeps b) h fun _ _ h4 => ?_
    exact (dropRef_keeps (hF.sub rfl) h4)
  clear_value x3
  have h5 : Keeps b x5 := (delBucket_keeps (hF.sub rfl) (freeFrame_keeps (hF.sub rfl) h3)); clear_value x5
  have h6 : Keeps b x6 := (setNode_keeps (hF.sub rfl) h5); clear_value x6
  split
  · exact h6
  · exact (setNode_keeps (hF.sub rfl) h6)

theorem dropSlotNodes_keeps {s : State} {p : Nat} {slot : Nat} (hF : Touch.nothing.kvs.mems.dram.record.Le b.may)
    (h : Keeps b s) :
    Keeps b (State.dropSlotNodes s p slot) := by
  delta State.dropSlotNodes
  refine keepsFold (Q := Keeps b) h fun _ _ h1 => ?_
  exact (dropNode_keeps (hF.sub rfl) h1)

theorem setVariant_keeps {s : State} {p : Nat} {v : Nat} {x : Variant} (hF : Touch.nothing.mems.dram.record.Le b.may)
    (h : Keeps b s) :
    Keeps b (State.setVariant s p v x) := (storeWords_keeps (hF.sub rfl) h)

theorem dropVariant_keeps {s : State} {p : Nat} {v : Nat} (hF : Touch.nothing.kvs.mems.dram.record.Le b.may)
    (h : Keeps b s) :
    Keeps b (State.dropVariant s p v) := by
  delta State.dropVariant
  extract_lets -merge x1
  split
  · exact (freeFrame_keeps (hF.sub rfl) (setVariant_keeps (hF.sub rfl) h))
  · exact h

theorem dropSlotVariants_keeps {s : State} {p : Nat} {slot : Nat} (hF : Touch.nothing.kvs.mems.dram.record.Le b.may)
    (h : Keeps b s) :
    Keeps b (State.dropSlotVariants s p slot) := by
  delta State.dropSlotVariants
  refine keepsFold (Q := Keeps b) h fun _ _ h1 => ?_
  exact (dropVariant_keeps (hF.sub rfl) h1)

theorem joinMove_keeps {s : State} {id : Nat} {w : Waiter}
    (hF : Touch.nothing.jobs.parts.moves.mems.echo.dram.trace.replay.Le b.may) (h : Keeps b s) :
    Keeps b (State.joinMove s id w) := by
  delta State.joinMove
  split
  · extract_lets -merge x1 x2 x3 x4 x5 x6
    clear_value x1
    have h3 : Keeps b x3 := (modMove_keeps (hF.sub rfl) h); clear_value x3
    clear_value x5
    split
    · exact h
    · split
      · exact h3
      · split
        · exact (dropEntry_keeps (hF.sub rfl) h3)
        · split
          · exact (takeCheap_keeps (hF.sub rfl) (Keeps.upd hF h3 rfl rfl ⟨rfl, rfl⟩ rfl))
          · split
            · split
              · exact (decidePath_keeps (hF.sub rfl) h3)
              · exact h3
            · exact h3
  · exact h

end Sys2Proof.Machine
end

