-- ==== Sys2Proof/Laws/KeepPageOps.lean ====
section
/-! SUPPORT. What the operations of Machine/PageOps.lean keep (Laws/Keep.lean). -/

namespace Sys2Proof.Machine

variable {b : From}

theorem pageFrames_keeps {s : State} {p : Nat} {e : Pte} (hF : Touch.nothing.kvs.Le b.may) (h : Keeps b s) :
    KOpt (KSnd2 b) (State.pageFrames s p e) := by
  delta State.pageFrames
  extract_lets -merge x1
  split
  · exact KOpt.none
  · have := KOpt.ofSnd (by assumption) (allocFrame_keeps (hF.sub rfl) h)
    split
    · exact KOpt.none
    · have := KOpt.ofSnd (by assumption) (allocFrame_keeps (hF.sub rfl) (by assumption))
      exact (KOpt.some (keepsMkSnd2 (by assumption)))

theorem landPage_keeps {s : State} {p : Nat} {i : Nat} {pay : Nat} {side : Nat}
    (hF : Touch.nothing.mems.dram.flash.record.Le b.may) (h : Keeps b s) :
    Keeps b (State.landPage s p i pay side) := by
  delta State.landPage
  extract_lets -merge x1 x2 x3 x4 x5 x6 x7
  have h1 : Keeps b x1 := (readThrough_keeps (hF.sub rfl) h); clear_value x1
  clear_value x3 x4 x5
  have h6 : Keeps b x6 := (store_keeps (hF.sub rfl) h1); clear_value x6
  have h7 : Keeps b x7 := (store_keeps (hF.sub rfl) h6); clear_value x7
  exact (setPte_keeps (hF.sub rfl) h7)

theorem fetchPage_keeps {s : State} {p : Nat} {i : Nat} (hF : Touch.nothing.kvs.mems.dram.flash.record.Le b.may)
    (h : Keeps b s) :
    KOpt (Keeps b) (State.fetchPage s p i) := by
  delta State.fetchPage
  split
  · exact KOpt.none
  · have := KOpt.ofSnd2 (by assumption) (pageFrames_keeps (hF.sub rfl) h)
    exact (KOpt.some (landPage_keeps (hF.sub rfl) (by assumption)))

theorem placeRun_keeps {s : State} {v : Volume} {bytes : List Byte} (hF : Touch.nothing.free.mems.flash.record.Le b.may)
    (h : Keeps b s) :
    KRun b (State.placeRun s v bytes) := by
  delta State.placeRun
  split
  · exact KRun.noRoom
  · split
    · exact KRun.held
    · split
      · have := keepsSnd (by assumption) (programRun_keeps (hF.sub rfl) h)
        exact (KRun.done (by assumption))
      · have := keepsSnd (by assumption) (programRun_keeps (hF.sub rfl) h)
        exact (KRun.worn (by assumption))

theorem reclaimStale_keeps {s : State} {p : Nat} (hF : Touch.nothing.kvs.Le b.may) (h : Keeps b s) :
    Keeps b (State.reclaimStale s p) := by
  delta State.reclaimStale
  extract_lets -merge x1 x2 x3 x5
  clear_value x1 x2
  have h3 : Keeps b x3 := by
    unfold x3
    refine keepsFold (Q := Keeps b) h fun _ _ h4 => ?_
    exact (freeFrame_keeps (hF.sub rfl) (freeFrame_keeps (hF.sub rfl) h4))
  clear_value x3
  have h5 : Keeps b x5 := by
    unfold x5
    refine keepsFold (Q := Keeps b) h3 fun _ _ h6 => ?_
    exact (freeFrame_keeps (hF.sub rfl) h6)
  clear_value x5
  exact (modKv_keeps (hF.sub rfl) h5)

theorem spillPages_keeps {s : State} {p : Nat} {v : Volume} {x3 : Nat} {x4 : List Nat} {x5 : List Byte}
    (hF : Touch.nothing.kvs.mems.dram.record.Le b.may) (h : Keeps b s) :
    KFst b (State.spillPages s p v x3 x4 x5) := by
  induction x4 generalizing s x3 x5 with
  | nil => exact h
  | cons i rest ih => exact ih (modKv_keeps (hF.sub rfl) (setPte_keeps (hF.sub rfl) h))

theorem spill_keeps {s : State} {p : Nat} {v : Volume} {pages : List Nat}
    (hF : Touch.nothing.free.kvs.mems.dram.flash.record.Le b.may) (h : Keeps b s) :
    KRun b (State.spill s p v pages) := by
  delta State.spill
  split
  · exact (KRun.done h)
  · split
    · have := KRun.ofDone (by assumption) (placeRun_keeps (hF.sub rfl) h)
      exact (KRun.done (spillPages_keeps (hF.sub rfl) (by assumption)))
    · exact (placeRun_keeps (hF.sub rfl) h)

theorem startPageMove_keeps {s : State} {m : Move} {prio : Nat}
    (hF : Touch.nothing.kvs.moves.mems.dram.siphon.record.Le b.may) (h : Keeps b s) :
    Keeps b (State.startPageMove s m prio) := by
  delta State.startPageMove
  split
  · split
    · exact h
    · split
      · exact h
      · have := KOpt.ofSnd2 (by assumption) (pageFrames_keeps (hF.sub rfl) h)
        extract_lets -merge x1 x2
        have h2 : Keeps b x2 := (modMove_keeps (hF.sub rfl) (setPte_keeps (hF.sub rfl) (by assumption))); clear_value x2
        exact (placeOwn_keeps (hF.sub rfl) (placeOwn_keeps (hF.sub rfl) h2))
  · exact h

theorem wantPage_keeps {s : State} {p : Nat} {i : Nat} {w : Waiter}
    (hF : Touch.nothing.jobs.parts.kvs.moves.mems.echo.dram.siphon.trace.replay.record.Le b.may) (h : Keeps b s) :
    Keeps b (State.wantPage s p i w) := by
  delta State.wantPage
  extract_lets -merge x1
  split
  · exact (joinMove_keeps (hF.sub rfl) h)
  · split
    · exact h
    · exact (joinMove_keeps (hF.sub rfl) (startPageMove_keeps (hF.sub rfl) (Keeps.upd hF h rfl rfl ⟨rfl, rfl⟩ rfl)))

end Sys2Proof.Machine
end

