-- ==== Sys2Proof/Laws/KeepModel.lean ====
section
/-! SUPPORT. What the operations of Machine/Model.lean keep (Laws/Keep.lean). -/

namespace Sys2Proof.Machine

variable {b : From}

theorem badUnitRecord_keeps {s : State} {p : Nat} {src : Source} {unit : Nat} (hF : Touch.nothing.record.Le b.may)
    (h : Keeps b s) :
    Keeps b (State.badUnitRecord s p src unit) := by
  delta State.badUnitRecord
  split
  · split
    · extract_lets -merge x1
      exact (raise_keeps (hF.sub rfl) h)
    · exact h
  · exact h

theorem sourceThrough_keeps {s : State} {src : Source} {off : Nat} {n : Nat} (hF : Touch.nothing.flash.Le b.may)
    (h : Keeps b s) :
    Keeps b (State.sourceThrough s src off n) := by
  delta State.sourceThrough
  split
  · exact (readThrough_keeps (hF.sub rfl) h)
  · exact h

theorem copyTrus_keeps {s : State} {t : Slot} {ram : Nat} {trus : List Nat} {frames : List Nat}
    (hF : Touch.nothing.mems.dram.flash.record.Le b.may) (h : Keeps b s) :
    Keeps b (State.copyTrus s t ram trus frames) := by
  delta State.copyTrus
  extract_lets -merge x1
  refine keepsFold (Q := Keeps b) h fun _ _ h2 => ?_
  extract_lets -merge x3 x4 x5
  have h3 : Keeps b x3 := (sourceThrough_keeps (hF.sub rfl) h2); clear_value x3
  have h4 : Keeps b x4 := (sourceThrough_keeps (hF.sub rfl) h3); clear_value x4
  have h5 : Keeps b x5 := (store_keeps (hF.sub rfl) h4); clear_value x5
  exact (store_keeps (hF.sub rfl) h5)

theorem unreadable_keeps {s : State} {m : Move} {w : Waiter} {status : Nat} (hF : Touch.nothing.jobEnd.trace.Le b.may)
    (h : Keeps b s) :
    Keeps b (State.unreadable s m w status) := by
  delta State.unreadable
  split
  · exact h
  · split
    · exact h
    · split
      · exact (takeCheap_keeps (hF.sub rfl) h)
      · exact (failJob'_keeps (hF.sub rfl) h)

theorem eachWaiter_keeps {s : State} {m : Move} {ws : List Waiter} {status : Nat}
    (hF : Touch.nothing.jobEnd.trace.Le b.may) (h : Keeps b s) :
    Keeps b (State.eachWaiter s m ws status) := by
  delta State.eachWaiter
  refine keepsFold (Q := Keeps b) h fun _ _ h1 => ?_
  split
  · exact h1
  · split
    · exact h1
    · exact (unreadable_keeps (hF.sub rfl) h1)

theorem firstExperts_keeps {s : State} {t : Slot} {ram : Nat} (hF : Touch.nothing.slots.mems.dram.flash.record.Le b.may)
    (h : Keeps b s) :
    Keeps b (State.firstExperts s t ram) := by
  delta State.firstExperts
  refine keepsFold (Q := Keeps b) h fun _ _ h1 => ?_
  split
  · exact h1
  · split
    · exact h1
    · exact (modSlot_keeps (hF.sub rfl) (copyTrus_keeps (hF.sub rfl) h1))

theorem endLoad_keeps {s : State} {j : Job} {t : Slot} {hash : List Nat} (hF : Touch.nothing.jobEnd.Le b.may)
    (h : Keeps b s) :
    Keeps b (State.endLoad s j t hash) := by
  delta State.endLoad
  extract_lets -merge x1 x2 x3
  clear_value x1
  have h2 : Keeps b x2 := (store_keeps (hF.sub rfl) (firstExperts_keeps (hF.sub rfl) h)); clear_value x2
  have h3 : Keeps b x3 := (modSlot_keeps (hF.sub rfl) h2); clear_value x3
  split
  · exact (failJob_keeps (hF.sub rfl) h)
  · split
    · exact h
    · exact (finishUid_keeps (hF.sub rfl) h3)

theorem hashMessage_keeps {s : State} {j : Job} {n : Nat} (hF : Touch.nothing.sec.Le b.may) (h : Keeps b s) :
    Keeps b (State.hashMessage s j n) := by
  delta State.hashMessage
  extract_lets -merge x1 x2
  split
  · exact h
  · exact (Keeps.upd hF h rfl rfl ⟨rfl, rfl⟩ rfl)

theorem startExpertMove_keeps {s : State} {m : Move} {prio : Nat} (hF : Touch.nothing.slots.moves.siphon.Le b.may)
    (h : Keeps b s) :
    Keeps b (State.startExpertMove s m prio) := by
  delta State.startExpertMove
  split
  · exact h
  · split
    · exact h
    · split
      · exact h
      · extract_lets -merge x1
        clear_value x1
        split
        · exact h
        · split
          · exact (modSlot_keeps (hF.sub rfl) h)
          · extract_lets -merge x2
            have h2 : Keeps b x2 := (modSlot_keeps (hF.sub rfl) h); clear_value x2
            refine keepsFold (Q := Keeps b) (modMove_keeps (hF.sub rfl) h2) fun _ _ h3 => ?_
            exact (placeOwn_keeps (hF.sub rfl) (placeOwn_keeps (hF.sub rfl) h3))

theorem startMoves_keeps {s : State} {p : Nat} (hF : Touch.nothing.kvs.slots.moves.mems.dram.siphon.record.Le b.may)
    (h : Keeps b s) :
    Keeps b (State.startMoves s p) := by
  delta State.startMoves
  refine keepsFold (Q := Keeps b) h fun _ _ h1 => ?_
  extract_lets -merge x2
  clear_value x2
  exact (startPageMove_keeps (hF.sub rfl) (startExpertMove_keeps (hF.sub rfl) h1))

theorem landMove_keeps {s : State} {m : Move}
    (hF : Touch.nothing.engines.counters.kvs.slots.moves.mems.dram.flash.siphon.record.Le b.may) (h : Keeps b s) :
    Keeps b (State.landMove s m) := by
  delta State.landMove
  extract_lets -merge x1 x2 x3
  have h1 : Keeps b x1 := (Keeps.upd hF h rfl rfl ⟨rfl, rfl⟩ rfl); clear_value x1
  have h2 : Keeps b x2 := by
    unfold x2
    split
    · split
      · exact (landPage_keeps (hF.sub rfl) h1)
      · exact (freeFrame_keeps (hF.sub rfl) (freeFrame_keeps (hF.sub rfl) h1))
    · split
      · exact h1
      · split
        · exact h1
        · exact (modSlot_keeps (hF.sub rfl) (copyTrus_keeps (hF.sub rfl) h1))
  clear_value x2
  have h3 : Keeps b x3 := by
    unfold x3
    refine keepsFold (Q := Keeps b) h2 fun _ _ h4 => ?_
    exact (signal_keeps (hF.sub rfl) h4)
  clear_value x3
  exact (startMoves_keeps (hF.sub rfl) h3)

theorem putPart_keeps {s : State} {pos : Nat} {bs : List Byte} {start : Nat} {len : Nat} {dst : Nat}
    (hF : Touch.nothing.mems.dram.record.Le b.may) (h : Keeps b s) :
    Keeps b (State.putPart s pos bs start len dst) := by
  delta State.putPart
  extract_lets -merge x1 x2
  clear_value x1 x2
  split
  · exact (store_keeps (hF.sub rfl) h)
  · exact h

theorem scatter_keeps {s : State} {t : Slot} {pos : Nat} {bs : List Byte} (hF : Touch.nothing.mems.dram.record.Le b.may)
    (h : Keeps b s) :
    Keeps b (State.scatter s t pos bs) := by
  delta State.scatter
  extract_lets -merge x1
  refine keepsFold (Q := Keeps b) h fun _ _ h2 => ?_
  extract_lets -merge x3
  have h3 : Keeps b x3 := (putPart_keeps (hF.sub rfl) h2); clear_value x3
  exact (putPart_keeps (hF.sub rfl) h3)

theorem loadMore_keeps {s : State} {j : Job} {pos : Nat} {hash : List Nat} {badUnit : Option Nat}
    (hF : Touch.nothing.jobEnd.Le b.may) (h : Keeps b s) :
    Keeps b (State.loadMore s j pos hash badUnit) := by
  delta State.loadMore
  split
  · exact h
  · extract_lets -merge x1 x2
    clear_value x1 x2
    split
    · split
      · exact h
      · exact (endLoad_keeps (hF.sub rfl) h)
    · split
      · exact (failJob_keeps (hF.sub rfl) h)
      · split
        · exact (failJob_keeps (hF.sub rfl) (badUnitRecord_keeps (hF.sub rfl) h))
        · split
          · exact (failJob_keeps (hF.sub rfl) h)
          · split
            · exact h
            · exact (modJob_keeps (hF.sub rfl) (scatter_keeps (hF.sub rfl) (sourceThrough_keeps (hF.sub rfl) h)))

theorem moveReadRecord_keeps {s : State} {m : Move} (hF : Touch.nothing.record.Le b.may) (h : Keeps b s) :
    Keeps b (State.moveReadRecord s m) := by
  delta State.moveReadRecord
  split
  · split
    · exact h
    · extract_lets -merge x1
      clear_value x1
      exact (badUnitRecord_keeps (hF.sub rfl) h)
  · extract_lets -merge x2
    exact (badUnitRecord_keeps (hF.sub rfl) h)

theorem needExpert_keeps {s : State} {j : Job} {t : Slot} {layer : Nat} {number : Nat} {t0 : Nat} {planned : Nat}
    {unissued : Nat} (hF : Touch.nothing.jobs.parts.slots.moves.mems.echo.dram.siphon.trace.replay.Le b.may)
    (h : Keeps b s) :
    Keeps b (State.needExpert s j t layer number t0 planned unissued) := by
  delta State.needExpert
  extract_lets -merge x1 x2 x3
  have h1 : Keeps b x1 := (modSlot_keeps (hF.sub rfl) h); clear_value x1
  split
  · exact h1
  · split
    · exact h1
    · split
      · exact (joinMove_keeps (hF.sub rfl) (startExpertMove_keeps (hF.sub rfl) h1))
      · exact (joinMove_keeps (hF.sub rfl) (startExpertMove_keeps (hF.sub rfl) (Keeps.upd hF h1 rfl rfl ⟨rfl, rfl⟩ rfl)))

theorem rehash_keeps {s : State} {j : Job} {pos : Nat} (hF : Touch.nothing.sec.Le b.may) (h : Keeps b s) :
    Keeps b (State.rehash s j pos) := (hashMessage_keeps (hF.sub rfl) h)

theorem startLoad_keeps {s : State} {j : Job} {badUnit : Option Nat} (hF : Touch.nothing.jobEnd.Le b.may)
    (h : Keeps b s) :
    Keeps b (State.startLoad s j badUnit) := by
  delta State.startLoad
  extract_lets -merge x1 x2 x3 x4 x5 x6 x7 x8 x9 x10 x11
  clear_value x1 x2 x3 x4 x6 x7
  have h8 : Keeps b x8 := (sourceThrough_keeps (hF.sub rfl) h); clear_value x8
  have h9 : Keeps b x9 := by
    unfold x9
    split
    · exact (sourceThrough_keeps (hF.sub rfl) h8)
    · exact h8
  clear_value x9 x10 x11
  split
  · exact (failJob_keeps (hF.sub rfl) h)
  · split
    · exact (failJob_keeps (hF.sub rfl) h)
    · split
      · exact (outsideJob_keeps (hF.sub rfl) h)
      · split
        · exact (failJob_keeps (hF.sub rfl) h)
        · split
          · exact (failJob_keeps (hF.sub rfl) (badUnitRecord_keeps (hF.sub rfl) h))
          · split
            · exact (failJob_keeps (hF.sub rfl) h)
            · split
              · exact (failJob_keeps (hF.sub rfl) h9)
              · split
                · exact (failJob_keeps (hF.sub rfl) h9)
                · exact (modJob_keeps (hF.sub rfl) (hashMessage_keeps (hF.sub rfl) (Keeps.upd hF h9 rfl rfl ⟨rfl, rfl⟩ rfl)))

theorem unloadSlot_keeps {s : State} {t : Slot}
    (hF : Touch.nothing.parts.kvs.seqs.slots.moves.mems.dram.siphon.record.Le b.may) (h : Keeps b s) :
    Keeps b (State.unloadSlot s t) := by
  delta State.unloadSlot
  extract_lets -merge x1 x2 x4 x5 x6
  clear_value x1
  have h2 : Keeps b x2 := by
    unfold x2
    refine keepsFold (Q := Keeps b) h fun _ _ h3 => ?_
    exact (releaseSeq_keeps (hF.sub rfl) h3)
  clear_value x2
  have h4 : Keeps b x4 := (dropSlotVariants_keeps (hF.sub rfl) (dropSlotNodes_keeps (hF.sub rfl) h2)); clear_value x4
  have h6 : Keeps b x6 := (withdrawXfers_keeps (hF.sub rfl) (Keeps.upd hF h4 rfl rfl ⟨rfl, rfl⟩ rfl)); clear_value x6
  clear_value x5
  exact (modKv_keeps (hF.sub rfl) h6)

theorem unloadRest_keeps {s : State} {j : Job}
    (hF : Touch.nothing.free.qps.jobs.engines.counters.ctrBlocks.parts.kvs.seqs.slots.moves.mems.dram.siphon.record.Le b.may)
    (h : Keeps b s) :
    Keeps b (State.unloadRest s j) := by
  delta State.unloadRest
  split
  · split
    · exact (finishUid_keeps (hF.sub rfl) (unloadSlot_keeps (hF.sub rfl) h))
    · exact (finishUid_keeps (hF.sub rfl) h)
  · exact h

theorem startUnload_keeps {s : State} {j : Job} (hF : Touch.nothing.jobEnd.passage.Le b.may) (h : Keeps b s) :
    Keeps b (State.startUnload s j) := by
  delta State.startUnload
  extract_lets -merge x1
  have h1 : Keeps b x1 := by
    unfold x1
    refine keepsFold (Q := Keeps b) h fun _ _ h2 => ?_
    split
    · exact h2
    · exact (startEnding_keeps (hF.sub rfl) h2)
  clear_value x1
  split
  · exact (failJob_keeps (hF.sub rfl) h)
  · exact (unloadRest_keeps (hF.sub rfl) h1)

theorem execFetchDeadline_keeps {mv : Nat} {uid : Nat} {unreadable : Bool} {s : State}
    (hF : Touch.nothing.jobEnd.trace.Le b.may) (h : Keeps b s) :
    KOut b (execFetchDeadline mv uid unreadable s) := by
  delta execFetchDeadline
  refine KOut.next ?_
  split
  · exact h
  · extract_lets -merge x1
    clear_value x1
    split
    · split
      · exact h
      · exact (eachWaiter_keeps (hF.sub rfl) (moveReadRecord_keeps (hF.sub rfl) h))
    · split
      · exact (decidePath_keeps (hF.sub rfl) h)
      · exact h

theorem execLoadModel_keeps {uid : Nat} {badUnit : Option Nat} {s : State} (hF : Touch.nothing.jobEnd.Le b.may)
    (h : Keeps b s) :
    KOut b (execLoadModel uid badUnit s) := by
  delta execLoadModel
  refine KOut.next ?_
  split
  · have := KOpt.ofSnd (by assumption) (starting_keeps (hF.sub rfl) h)
    split
    · exact (loadMore_keeps (hF.sub rfl) (rehash_keeps (hF.sub rfl) (by assumption)))
    · split
      · exact h
      · exact (startLoad_keeps (hF.sub rfl) (by assumption))
  · split
    · exact h
    · split
      · split
        · exact (loadMore_keeps (hF.sub rfl) h)
        · exact h
      · exact h

theorem execMoveLanded_keeps {mv : Nat} {s : State} (hF : Touch.nothing.jobEnd.trace.Le b.may) (h : Keeps b s) :
    KOut b (execMoveLanded mv s) := by
  delta execMoveLanded
  refine KOut.next ?_
  split
  · exact h
  · split
    · exact (eachWaiter_keeps (hF.sub rfl) h)
    · split
      · exact h
      · split
        · exact (landMove_keeps (hF.sub rfl) h)
        · exact (eachWaiter_keeps (hF.sub rfl) (raise_keeps (hF.sub rfl) h))

theorem execPromotion_keeps {uid : Nat} {layer : Nat} {expert : Nat} {need : Nat} {planned : Nat} {unissued : Nat}
    {s : State} (hF : Touch.nothing.jobs.parts.slots.moves.mems.echo.dram.siphon.trace.replay.Le b.may) (h : Keeps b s) :
    KOut b (execPromotion uid layer expert need planned unissued s) := by
  delta execPromotion
  refine KOut.next ?_
  split
  · exact h
  · split
    · split
      · exact (needExpert_keeps (hF.sub rfl) h)
      · exact h
    · exact h

theorem execUnloadModel_keeps {uid : Nat} {s : State} (hF : Touch.nothing.jobEnd.passage.Le b.may) (h : Keeps b s) :
    KOut b (execUnloadModel uid s) := by
  delta execUnloadModel
  refine KOut.next ?_
  split
  · have := KOpt.ofSnd (by assumption) (starting_keeps (hF.sub rfl) h)
    exact (startUnload_keeps (hF.sub rfl) (by assumption))
  · split
    · split
      · exact (unloadRest_keeps (hF.sub rfl) h)
      · exact h
    · exact h

end Sys2Proof.Machine
end

