-- ==== Sys2Proof/Laws/KeepTileData.lean ====
section
/-! SUPPORT. What the operations of Machine/TileData.lean keep (Laws/Keep.lean). -/

namespace Sys2Proof.Machine

variable {b : From}

theorem storeSpan_keeps {s : State} {t : List Nat} {i : Nat} {x : List F32}
    (hF : Touch.nothing.mems.dram.record.Le b.may) (h : Keeps b s) :
    KFst b (State.storeSpan s t i x) := by
  delta State.storeSpan
  extract_lets -merge x1 x2 x3 x4
  clear_value x1 x2 x3
  have h4 : Keeps b x4 := (store_keeps (hF.sub rfl) h); clear_value x4
  split
  · exact (keepsMkFst (store_keeps (hF.sub rfl) h))
  · refine keepsMkFst ?_
    split
    · exact (store_keeps (hF.sub rfl) h4)
    · exact h4

end Sys2Proof.Machine
end

