-- ==== Sys2Proof/Laws/KeepTileSched.lean ====
section
/-! SUPPORT. What the operations of Machine/TileSched.lean keep (Laws/Keep.lean). -/

namespace Sys2Proof.Machine

variable {b : From}

theorem failEngineless_keeps {s : State} (hF : Touch.nothing.jobEnd.Le b.may) (h : Keeps b s) :
    Keeps b (State.failEngineless s) := by
  delta State.failEngineless
  refine keepsFold (Q := Keeps b) h fun _ _ h1 => ?_
  exact (failJob'_keeps (hF.sub rfl) h1)

theorem setCtx_keeps {s : State} {e : Nat} {c : Nat} {f : Ctx → Ctx} (hF : Touch.nothing.engines.Le b.may)
    (h : Keeps b s) :
    Keeps b (State.setCtx s e c f) := (modEng_keeps (hF.sub rfl) h)

theorem faultCtx_keeps {s : State} {e : Nat} {x : Ctx} {cause : CtxCause} {status : Nat}
    (hF : Touch.nothing.jobEnd.Le b.may) (h : Keeps b s) :
    Keeps b (State.faultCtx s e x cause status) := (failJob'_keeps (hF.sub rfl) (setCtx_keeps (hF.sub rfl) h))

theorem recordOf_keeps {s : State} {e : Nat} {x : Ctx} {cls : Nat} {detail : Nat} {info : Nat}
    (hF : Touch.nothing.record.Le b.may) (h : Keeps b s) :
    Keeps b (State.recordOf s e x cls detail info) := (raise_keeps (hF.sub rfl) h)

theorem noteMismatch_keeps {s : State} {e : Nat} {x : Ctx} (hF : Touch.nothing.engines.record.Le b.may) (h : Keeps b s) :
    Keeps b (State.noteMismatch s e x) := (modEng_keeps (hF.sub rfl) (recordOf_keeps (hF.sub rfl) h))

theorem rerun_keeps {s : State} {e : Nat} {w : Placed} (hF : Touch.nothing.jobEnd.Le b.may) (h : Keeps b s) :
    Keeps b (State.rerun s e w) := by
  delta State.rerun
  split
  · exact h
  · extract_lets -merge x1
    clear_value x1
    split
    · exact h
    · split
      · exact (failJob'_keeps (hF.sub rfl) h)
      · split
        · exact (failJob'_keeps (hF.sub rfl) h)
        · exact (modJob_keeps (hF.sub rfl) h)

theorem mapOutEngine_keeps {s : State} {e : Nat} {cause : OutCause} (hF : Touch.nothing.jobEnd.dev.trace.smbus.Le b.may)
    (h : Keeps b s) :
    Keeps b (State.mapOutEngine s e cause) := by
  delta State.mapOutEngine
  extract_lets -merge x1 x2 x3 x4 x5 x6 x7 x8 x10
  clear_value x2
  have h3 : Keeps b x3 := (modEng_keeps (hF.sub rfl) h); clear_value x3
  have h5 : Keeps b x5 := (Keeps.upd hF h3 rfl rfl ⟨rfl, rfl⟩ (by simp +zetaDelta [State.shaped])); clear_value x5
  have h6 : Keeps b x6 := by
    unfold x6
    split
    · exact (raise_keeps (hF.sub rfl) h5)
    · exact h5
  clear_value x6
  have h7 : Keeps b x7 := (traceEvent_keeps (hF.sub rfl) h6); clear_value x7
  have h8 : Keeps b x8 := by
    unfold x8
    refine keepsFold (Q := Keeps b) h7 fun _ _ h9 => ?_
    exact (rerun_keeps (hF.sub rfl) h9)
  clear_value x8
  have h10 : Keeps b x10 := (failEngineless_keeps (hF.sub rfl) h8); clear_value x10
  split
  · exact h
  · split
    · exact (setFault_keeps (hF.sub rfl) h10)
    · exact h10

theorem lateMismatch_keeps {s : State} {e : Nat} {x : Ctx} (hF : Touch.nothing.jobEnd.dev.trace.smbus.Le b.may)
    (h : Keeps b s) :
    Keeps b (State.lateMismatch s e x) := by
  delta State.lateMismatch
  extract_lets -merge x1
  have h1 : Keeps b x1 := (modEng_keeps (hF.sub rfl) (noteMismatch_keeps (hF.sub rfl) h)); clear_value x1
  split
  · exact (mapOutEngine_keeps (hF.sub rfl) h1)
  · exact h1

theorem putSource_keeps {s : State} {e : Nat} {w : Placed} (hF : Touch.nothing.engines.mems.dram.Le b.may)
    (h : Keeps b s) :
    Keeps b (State.putSource s e w) := by
  delta State.putSource
  split
  · exact h
  · refine modEng_keeps (hF.sub rfl) ?_
    refine keepsFold (Q := Keeps b) h fun _ _ h1 => ?_
    exact (put_keeps (hF.sub rfl) h1 _ _)

theorem placeTask_keeps {s : State} {e : Nat} {w : Placed} (hF : Touch.nothing.engines.mems.dram.Le b.may)
    (h : Keeps b s) :
    Keeps b (State.placeTask s e w) := by
  delta State.placeTask
  extract_lets -merge x1 x2
  have h2 : Keeps b x2 := (modEng_keeps (hF.sub rfl) h); clear_value x2
  split
  · exact h2
  · split
    · exact h2
    · extract_lets -merge x3
      have h3 : Keeps b x3 := (modEng_keeps (hF.sub rfl) (putSource_keeps (hF.sub rfl) h)); clear_value x3
      exact (modEng_keeps (hF.sub rfl) h3)

theorem loadPlaced_keeps {s : State} {uid : Nat} (hF : Touch.nothing.engines.mems.dram.Le b.may) (h : Keeps b s) :
    KOpt (Keeps b) (State.loadPlaced s uid) := by
  delta State.loadPlaced
  extract_lets -merge x1
  clear_value x1
  refine KOpt.map' (R := Keeps b) fun _ => ?_
  exact (placeTask_keeps (hF.sub rfl) (modEng_keeps (hF.sub rfl) h))

theorem loadRedo_keeps {s : State} {j : Job} (hF : Touch.nothing.jobEnd.Le b.may) (h : Keeps b s) :
    KOpt (Keeps b) (State.loadRedo s j) := by
  delta State.loadRedo
  split
  · exact KOpt.none
  · extract_lets -merge x1 x2
    clear_value x1
    have h2 : Keeps b x2 := (modJob_keeps (hF.sub rfl) h); clear_value x2
    split
    · exact (KOpt.some (failJob'_keeps (hF.sub rfl) h))
    · split
      · refine KOpt.map' (R := Keeps b) fun _ => ?_
        exact (placeTask_keeps (hF.sub rfl) h2)
      · split
        · refine KOpt.map' (R := Keeps b) fun _ => ?_
          exact (placeTask_keeps (hF.sub rfl) h2)
        · split
          · exact (KOpt.some (failJob'_keeps (hF.sub rfl) h))
          · refine KOpt.bind' (R := Keeps b) fun _ => ?_
            refine KOpt.map' (R := Keeps b) fun _ => ?_
            exact (placeTask_keeps (hF.sub rfl) h2)

theorem restartCtx_keeps {s : State} {e : Nat} {x : Ctx} (hF : Touch.nothing.engines.Le b.may) (h : Keeps b s) :
    Keeps b (State.restartCtx s e x) := (setCtx_keeps (hF.sub rfl) h)

theorem mismatch_keeps {s : State} {e : Nat} {x : Ctx} (hF : Touch.nothing.jobEnd.dev.trace.smbus.Le b.may)
    (h : Keeps b s) :
    Keeps b (State.mismatch s e x) := by
  delta State.mismatch
  extract_lets -merge x1 x2 x3 x4 x5 x6 x7
  have h1 : Keeps b x1 := (noteMismatch_keeps (hF.sub rfl) h); clear_value x1
  clear_value x2
  have h3 : Keeps b x3 := (faultCtx_keeps (hF.sub rfl) h1); clear_value x3
  clear_value x5 x6
  have h7 : Keeps b x7 := by
    unfold x7
    split
    · exact (faultCtx_keeps (hF.sub rfl) h1)
    · exact (rerun_keeps (hF.sub rfl) (dropCtx_keeps (hF.sub rfl) h1))
  clear_value x7
  split
  · split
    · exact (mapOutEngine_keeps (hF.sub rfl) h3)
    · exact h3
  · split
    · exact (restartCtx_keeps (hF.sub rfl) h1)
    · split
      · exact (mapOutEngine_keeps (hF.sub rfl) h7)
      · exact h7

end Sys2Proof.Machine
end

