-- ==== Sys2Proof/Laws/KeepTile.lean ====
section
/-! SUPPORT. What the operations of Machine/Tile.lean keep (Laws/Keep.lean). -/

namespace Sys2Proof.Machine

variable {b : From}

theorem takeSlice_keeps {s : State} {p : Nat} {r : Nat × Nat} (hF : Touch.nothing.jobs.mems.dram.Le b.may)
    (h : Keeps b s) :
    Keeps b (State.takeSlice s p r) := by
  delta State.takeSlice
  extract_lets -merge x1 x2 x3
  have h1 : Keeps b x1 := by
    unfold x1
    split
    · exact (clearCells_keeps (hF.sub rfl) h _ _)
    · exact h
  clear_value x1 x2
  exact (Keeps.upd hF h1 rfl rfl ⟨rfl, rfl⟩ rfl)

theorem giveWindow_keeps {s : State} {uid : Nat} {p : Nat} {w : Nat} (hF : Touch.nothing.jobs.mems.dram.Le b.may)
    (h : Keeps b s) :
    Keeps b (State.giveWindow s uid p w) := (modJob_keeps (hF.sub rfl) (takeSlice_keeps (hF.sub rfl) h))

theorem allocTiles_keeps {s : State} {uid : Nat} {p : Nat} {records : List (List Nat)}
    (hF : Touch.nothing.jobs.counters.ctrBlocks.mems.dram.Le b.may) (h : Keeps b s) :
    KOpt (KFst b) (State.allocTiles s uid p records) := by
  delta State.allocTiles
  extract_lets -merge x1
  clear_value x1
  split
  · exact KOpt.none
  · rename_i e
    have := KOpt.of (Q := Keeps b) e (by
        split
        · exact (KOpt.some h)
        · refine KOpt.map' (R := Keeps b) fun _ => ?_
          exact (takeBlocks_keeps (hF.sub rfl) h))
    split
    · refine KOpt.map' (R := KFst b) fun _ => ?_
      exact (keepsMkFst (giveWindow_keeps (hF.sub rfl) (by assumption)))
    · exact (KOpt.some (keepsMkFst (by assumption)))

theorem allotMerge_keeps {s : State} {uid : Nat} {p : Nat} {w : List Nat}
    (hF : Touch.nothing.jobs.merges.mems.dram.Le b.may) (h : Keeps b s) :
    KOpt (Keeps b) (State.allotMerge s uid p w) := by
  delta State.allotMerge
  extract_lets -merge x1
  split
  · exact (KOpt.some h)
  · split
    · split
      · exact (KOpt.some h)
      · exact KOpt.none
    · split
      · exact (KOpt.some (takeSlice_keeps (hF.sub rfl) (Keeps.upd hF h rfl rfl ⟨rfl, rfl⟩ rfl)))
      · exact KOpt.none

theorem backpressure_keeps {s : State} {p : Nat} {tag : Nat} (hF : Touch.nothing.parts.record.Le b.may) (h : Keeps b s) :
    Keeps b (State.backpressure s p tag) := (raise_keeps (hF.sub rfl) (modPart_keeps (hF.sub rfl) h))

theorem countSat_keeps {s : State} {e : Nat} {dec : Nat} {pack : Nat} (hF : Touch.nothing.engines.Le b.may)
    (h : Keeps b s) :
    Keeps b (State.countSat s e dec pack) := (modEng_keeps (hF.sub rfl) h)

theorem appendStep_keeps {s : State} {e : Nat} {x : Ctx} {i : Nat} {v : List F32}
    (hF : Touch.nothing.jobs.engines.parts.kvs.record.Le b.may) (h : Keeps b s) :
    KStep b (State.appendStep s e x i v) := by
  delta State.appendStep
  extract_lets -merge x1 x2 x3 x4 x5
  clear_value x1 x2 x3 x4
  have h5 : Keeps b x5 := (backpressure_keeps (hF.sub rfl) h); clear_value x5
  split
  · exact (KStep.fault h)
  · split
    · exact (KStep.fault (recordOf_keeps (hF.sub rfl) h))
    · split
      · exact (KStep.wait h)
      · exact (KStep.wait (modCtx_keeps (hF.sub rfl) h5))
    · have := KApp.of (by assumption) (appendTok_keeps (hF.sub rfl) h)
      extract_lets -merge x6
      have h6 : Keeps b x6 := by
        unfold x6
        split
        · exact (jobQuality_keeps (hF.sub rfl) (by assumption))
        · exact (by assumption)
      clear_value x6
      exact (KStep.done (countSat_keeps (hF.sub rfl) h6))

theorem beat_keeps {s : State} {e : Nat} (hF : Touch.nothing.engines.Le b.may) (h : Keeps b s) :
    Keeps b (State.beat s e) := (modEng_keeps (hF.sub rfl) h)

theorem dataFaults_keeps {s : State} {e : Nat} {k : Nat} {x : Ctx} (hF : Touch.nothing.record.Le b.may) (h : Keeps b s) :
    Keeps b (State.dataFaults s e k x) := (raiseMany_keeps (hF.sub rfl) h)

theorem outsideTask_keeps {s : State} {e : Nat} {x : Ctx} (hF : Touch.nothing.record.Le b.may) (h : Keeps b s) :
    KStep b (State.outsideTask s e x) := (KStep.fault (recordOf_keeps (hF.sub rfl) h))

theorem storeRows_keeps {s : State} {t : List Nat} {rows : List (List F32)}
    (hF : Touch.nothing.mems.dram.record.Le b.may) (h : Keeps b s) :
    Keeps b (State.storeRows s t rows) := by
  delta State.storeRows
  refine keepsFold (Q := Keeps b) h fun _ _ h1 => ?_
  exact (store_keeps (hF.sub rfl) h1)

theorem writeArray_keeps {s : State} {e : Nat} {x : Ctx} (hF : Touch.nothing.mems.dram.record.Le b.may) (h : Keeps b s) :
    KStep b (State.writeArray s e x) := by
  delta State.writeArray
  extract_lets -merge x1 x2 x3 x5
  clear_value x1 x2
  have h3 : Keeps b x3 := by
    unfold x3
    refine keepsFold (Q := Keeps b) h fun _ _ h4 => ?_
    exact (store_keeps (hF.sub rfl) h4)
  clear_value x3 x5
  split
  · exact (outsideTask_keeps (hF.sub rfl) h)
  · split
    · exact (KStep.fault h)
    · split
      · exact (KStep.done h3)
      · exact (KStep.done (storeRows_keeps (hF.sub rfl) h))

theorem arrayStep_keeps {s : State} {e : Nat} {epoch : Nat} {x : Ctx}
    (hF : Touch.nothing.engines.mems.dram.record.Le b.may) (h : Keeps b s) :
    KStep b (State.arrayStep s e epoch x) := by
  delta State.arrayStep
  extract_lets -merge x1 x2 x3 x4 x5
  clear_value x1 x2
  have h4 : Keeps b x4 := (countSat_keeps (hF.sub rfl) (beat_keeps (hF.sub rfl) h)); clear_value x4
  have h5 : Keeps b x5 := (dataFaults_keeps (hF.sub rfl) h4); clear_value x5
  split
  · split
    · exact (writeArray_keeps (hF.sub rfl) h5)
    · exact (KStep.done h5)
  · exact (writeArray_keeps (hF.sub rfl) h)

theorem writeAttn_keeps {s : State} {e : Nat} {x : Ctx} (hF : Touch.nothing.mems.dram.record.Le b.may) (h : Keeps b s) :
    KStep b (State.writeAttn s e x) := by
  delta State.writeAttn
  extract_lets -merge x1 x2
  clear_value x1 x2
  split
  · exact (outsideTask_keeps (hF.sub rfl) h)
  · split
    · exact (KStep.fault h)
    · split
      · exact (KStep.done (put_keeps (hF.sub rfl) h _ _))
      · exact (KStep.done (storeRows_keeps (hF.sub rfl) h))

theorem attnStep_keeps {s : State} {e : Nat} {epoch : Nat} {x : Ctx}
    (hF : Touch.nothing.engines.mems.dram.record.Le b.may) (h : Keeps b s) :
    KStep b (State.attnStep s e epoch x) := by
  delta State.attnStep
  extract_lets -merge x1 x2
  clear_value x1
  split
  · split
    · exact (writeAttn_keeps (hF.sub rfl) h)
    · exact (KStep.done h)
  · extract_lets -merge x3 x4 x5
    clear_value x3
    have h4 : Keeps b x4 := (dataFaults_keeps (hF.sub rfl) (countSat_keeps (hF.sub rfl) (beat_keeps (hF.sub rfl) h))); clear_value x4
    split
    · exact (writeAttn_keeps (hF.sub rfl) h4)
    · exact (KStep.done h4)

theorem spanStep_keeps {s : State} {e : Nat} {x : Ctx}
    (hF : Touch.nothing.jobs.engines.parts.kvs.mems.dram.record.Le b.may) (h : Keeps b s) :
    KStep b (State.spanStep s e x) := by
  delta State.spanStep
  extract_lets -merge x1 x2 x3 x4 x5
  clear_value x1 x2 x3
  have h4 : KFst b x4 := (storeSpan_keeps (hF.sub rfl) h); clear_value x4
  have h5 : KStep b x5 := by
    unfold x5
    split
    · exact (appendStep_keeps (hF.sub rfl) h)
    · exact (KStep.done (countSat_keeps (hF.sub rfl) h4))
  clear_value x5
  split
  · exact (KStep.fault (recordOf_keeps (hF.sub rfl) h))
  · split
    · exact (outsideTask_keeps (hF.sub rfl) h)
    · split
      · exact (KStep.fault h)
      · split
        · have := KStep.ofDone rfl h5
          exact (KStep.done (dataFaults_keeps (hF.sub rfl) (by assumption)))
        · exact h5

theorem stepResult_keeps {s : State} {e : Nat} {x : Ctx}
    (hF : Touch.nothing.jobs.engines.parts.kvs.mems.dram.record.Le b.may) (h : Keeps b s) :
    KStep b (State.stepResult s e x) := by
  delta State.stepResult
  extract_lets -merge x1
  clear_value x1
  split
  · exact (spanStep_keeps (hF.sub rfl) h)
  · split
    · exact (attnStep_keeps (hF.sub rfl) h)
    · exact (arrayStep_keeps (hF.sub rfl) h)

theorem runStep_keeps {s : State} {e : Nat} {x : Ctx} (hF : Touch.nothing.jobEnd.Le b.may) (h : Keeps b s) :
    Keeps b (State.runStep s e x) := by
  delta State.runStep
  split
  · have := KStep.ofWait (by assumption) (stepResult_keeps (hF.sub rfl) h)
    exact (by assumption)
  · have := KStep.ofFault (by assumption) (stepResult_keeps (hF.sub rfl) h)
    exact (faultCtx_keeps (hF.sub rfl) (by assumption))
  · have := KStep.ofDone (by assumption) (stepResult_keeps (hF.sub rfl) h)
    extract_lets -merge x1
    exact (setCtx_keeps (hF.sub rfl) (by assumption))

theorem cleanStep_keeps {s : State} {e : Nat} {x : Ctx} (hF : Touch.nothing.jobEnd.Le b.may) (h : Keeps b s) :
    Keeps b (State.cleanStep s e x) := by
  delta State.cleanStep
  extract_lets -merge x1
  clear_value x1
  split
  · exact (faultCtx_keeps (hF.sub rfl) (recordOf_keeps (hF.sub rfl) h))
  · split
    · exact (faultCtx_keeps (hF.sub rfl) (reportWords_keeps (hF.sub rfl) h))
    · split
      · exact (faultCtx_keeps (hF.sub rfl) h)
      · exact (runStep_keeps (hF.sub rfl) h)

theorem checkStep_keeps {s : State} {e : Nat} {x : Ctx} {group : Nat} {row : Nat} {col : Nat} {delta : Int}
    (hF : Touch.nothing.jobEnd.dev.trace.smbus.Le b.may) (h : Keeps b s) :
    Keeps b (State.checkStep s e x group row col delta) := by
  delta State.checkStep
  split
  · split
    · exact (cleanStep_keeps (hF.sub rfl) h)
    · exact (mismatch_keeps (hF.sub rfl) h)
  · exact (cleanStep_keeps (hF.sub rfl) h)

theorem poisonGroup_keeps {s : State} {p : Nat} {g : Group} (hF : Touch.nothing.kvs.Le b.may) (h : Keeps b s) :
    Keeps b (State.poisonGroup s p g) := (modKv_keeps (hF.sub rfl) h)

theorem poisonRead_keeps {s : State} {x : Ctx} (hF : Touch.nothing.kvs.Le b.may) (h : Keeps b s) :
    Keeps b (State.poisonRead s x) := by
  delta State.poisonRead
  split
  · exact (poisonGroup_keeps (hF.sub rfl) h)
  · exact h

theorem storeError_keeps {s : State} {e : Nat} {part : Nat} {tag : Nat} {info : Nat}
    (hF : Touch.nothing.jobEnd.dev.trace.smbus.Le b.may) (h : Keeps b s) :
    Keeps b (State.storeError s e part tag info) := by
  delta State.storeError
  extract_lets -merge x1
  have h1 : Keeps b x1 := (modEng_keeps (hF.sub rfl) (raise_keeps (hF.sub rfl) h)); clear_value x1
  split
  · exact (mapOutEngine_keeps (hF.sub rfl) h1)
  · exact h1

theorem localStoreError_keeps {s : State} {e : Nat} {x : Ctx} (hF : Touch.nothing.jobEnd.dev.trace.smbus.Le b.may)
    (h : Keeps b s) :
    Keeps b (State.localStoreError s e x) := (drawFree_keeps (hF.sub rfl) (storeError_keeps (hF.sub rfl) (faultCtx_keeps (hF.sub rfl) h)))

theorem completeStep_keeps {s : State} {e : Nat} {x : Ctx} {met : StepMet}
    (hF : Touch.nothing.jobEnd.dev.trace.smbus.Le b.may) (h : Keeps b s) :
    Keeps b (State.completeStep s e x met) := by
  delta State.completeStep
  split
  · exact (cleanStep_keeps (hF.sub rfl) h)
  · exact (faultCtx_keeps (hF.sub rfl) (poisonRead_keeps (hF.sub rfl) h))
  · exact (faultCtx_keeps (hF.sub rfl) h)
  · exact (localStoreError_keeps (hF.sub rfl) h)
  · exact (faultCtx_keeps (hF.sub rfl) (recordOf_keeps (hF.sub rfl) h))
  · exact (checkStep_keeps (hF.sub rfl) h)
  · exact (faultCtx_keeps (hF.sub rfl) h)

theorem exhaustJob_keeps {s : State} {uid : Nat} (hF : Touch.nothing.jobEnd.Le b.may) (h : Keeps b s) :
    Keeps b (State.exhaustJob s uid) := by
  delta State.exhaustJob
  extract_lets -merge x1
  have h1 : Keeps b x1 := (withdraw_keeps (hF.sub rfl) (jobError_keeps (hF.sub rfl) h)); clear_value x1
  split
  · exact h1
  · split
    · exact h1
    · exact (finishJob_keeps (hF.sub rfl) (cancelEffects_keeps (hF.sub rfl) h1))

theorem tilesEnd_keeps {s : State} {uid : Nat}
    (hF : Touch.nothing.free.qps.jobs.engines.counters.ctrBlocks.kvs.slots.Le b.may) (h : Keeps b s) :
    Keeps b (State.tilesEnd s uid) := by
  delta State.tilesEnd
  split
  · exact h
  · split
    · split
      · exact (finishUid_keeps (hF.sub rfl) h)
      · exact h
    · exact h

theorem fold_keeps {s : State} {m : Merge}
    (hF : Touch.nothing.free.qps.jobs.engines.merges.counters.ctrBlocks.kvs.slots.mems.dram.record.Le b.may)
    (h : Keeps b s) :
    Keeps b (State.fold s m) := by
  delta State.fold
  extract_lets -merge x1 x2 x3 x4 x5 x7 x8
  clear_value x1 x2
  have h3 : Keeps b x3 := by
    unfold x3
    split
    · exact (put_keeps (hF.sub rfl) h _ _)
    · exact h
  clear_value x3 x4
  have h5 : Keeps b x5 := by
    unfold x5
    refine keepsFold (Q := Keeps b) h3 fun _ _ h6 => ?_
    exact (store_keeps (hF.sub rfl) h6)
  clear_value x5
  have h7 : Keeps b x7 := (Keeps.upd hF h5 rfl rfl ⟨rfl, rfl⟩ rfl); clear_value x7
  have h8 : Keeps b x8 := by
    unfold x8
    split
    · exact (signal_keeps (hF.sub rfl) h7)
    · exact h7
  clear_value x8
  split
  · exact (Keeps.upd hF h3 rfl rfl ⟨rfl, rfl⟩ rfl)
  · exact (tilesEnd_keeps (hF.sub rfl) h8)

theorem grantCtx_keeps {s : State} {e : Nat} {x : Ctx} (hF : Touch.nothing.engines.Le b.may) (h : Keeps b s) :
    Keeps b (State.grantCtx s e x) := (modCtx_keeps (hF.sub rfl) h)

theorem issueStep_keeps {s : State} {e : Nat} {x : Ctx} (hF : Touch.nothing.jobEnd.Le b.may) (h : Keeps b s) :
    Keeps b (State.issueStep s e x) := by
  delta State.issueStep
  extract_lets -merge x1 x2
  clear_value x1
  have h2 : Keeps b x2 := (modEng_keeps (hF.sub rfl) h); clear_value x2
  split
  · exact (faultCtx_keeps (hF.sub rfl) h)
  · split
    · exact (modCtx_keeps (hF.sub rfl) h)
    · exact (modCtx_keeps (hF.sub rfl) h2)

theorem leftStep_keeps {s : State} {e : Nat} {x : Ctx} {met : StepMet}
    (hF : Touch.nothing.jobEnd.dev.trace.smbus.Le b.may) (h : Keeps b s) :
    Keeps b (State.leftStep s e x met) := by
  delta State.leftStep
  extract_lets -merge x1
  have h1 : Keeps b x1 := (modEng_keeps (hF.sub rfl) h); clear_value x1
  split
  · split
    · split
      · exact h1
      · exact (lateMismatch_keeps (hF.sub rfl) h)
    · exact h1
  · exact h1

theorem loadNext_keeps {s : State} {j : Job} {records : List (List Nat)} {next : Nat} {retired : Nat} {lens : List
    (Nat × Nat)} (hF : Touch.nothing.jobEnd.Le b.may) (h : Keeps b s) :
    Keeps b (State.loadNext s j records next retired lens) := by
  delta State.loadNext
  extract_lets -merge x1
  clear_value x1
  split
  · exact h
  · extract_lets -merge x2 x3
    clear_value x2 x3
    split
    · exact (failJob'_keeps (hF.sub rfl) h)
    · split
      · exact h
      · exact (modJob_keeps (hF.sub rfl) (placeTask_keeps (hF.sub rfl) h))

theorem loadOwn_keeps {s : State} {j : Job} {t : List Nat} (hF : Touch.nothing.jobEnd.Le b.may) (h : Keeps b s) :
    Keeps b (State.loadOwn s j t) := by
  delta State.loadOwn
  extract_lets -merge x1 x2 x3 x4 x5
  clear_value x1 x2 x3 x4 x5
  split
  · exact h
  · split
    · exact (failJob'_keeps (hF.sub rfl) h)
    · split
      · exact h
      · split
        · exact h
        · split
          · exact h
          · have := KOpt.of (by assumption) (allotMerge_keeps (hF.sub rfl) h)
            refine placeTask_keeps (hF.sub rfl) ?_
            refine keepsFold (Q := Keeps b) (by assumption) fun _ _ h6 => ?_
            exact (takeSlice_keeps (hF.sub rfl) h6)

theorem notePart_keeps {s : State} {x : Ctx} (hF : Touch.nothing.merges.Le b.may) (h : Keeps b s) :
    Keeps b (State.notePart s x) := by
  delta State.notePart
  extract_lets -merge x1 x2 x3 x4
  clear_value x1
  exact (Keeps.upd hF h rfl rfl ⟨rfl, rfl⟩ rfl)

theorem retireTask_keeps {s : State} {e : Nat} {x : Ctx}
    (hF : Touch.nothing.free.qps.jobs.engines.merges.counters.ctrBlocks.kvs.slots.record.Le b.may) (h : Keeps b s) :
    Keeps b (State.retireTask s e x) := by
  delta State.retireTask
  extract_lets -merge x1 x2 x3 x4 x5
  clear_value x1
  have h2 : Keeps b x2 := (modJob_keeps (hF.sub rfl) (dropCtx_keeps (hF.sub rfl) h)); clear_value x2
  have h3 : Keeps b x3 := by
    unfold x3
    split
    · exact (notePart_keeps (hF.sub rfl) h2)
    · split
      · exact (signal_keeps (hF.sub rfl) h2)
      · exact h2
  clear_value x3
  have h4 : Keeps b x4 := by
    unfold x4
    split
    · exact h3
    · exact (jobQuality_keeps (hF.sub rfl) h3)
  clear_value x4
  have h5 : Keeps b x5 := (modJob_keeps (hF.sub rfl) h4); clear_value x5
  exact (tilesEnd_keeps (hF.sub rfl) h5)

theorem sramError_keeps {s : State} {g : Nat} {part : Option Nat} {info : Nat}
    (hF : Touch.nothing.jobEnd.dev.smbus.Le b.may) (h : Keeps b s) :
    Keeps b (State.sramError s g part info) := by
  delta State.sramError
  extract_lets -merge x1 x2 x3 x4 x5 x6
  have h1 : Keeps b x1 := (raise_keeps (hF.sub rfl) h); clear_value x1
  clear_value x2
  have h4 : Keeps b x4 := (Keeps.upd hF h1 rfl rfl ⟨rfl, rfl⟩ rfl); clear_value x4
  have h6 : Keeps b x6 := (setFault_keeps (hF.sub rfl) (Keeps.upd hF h4 rfl rfl ⟨rfl, rfl⟩ rfl)); clear_value x6
  split
  · exact (failAllJobs_keeps (hF.sub rfl) (raise_keeps (hF.sub rfl) h6))
  · exact h4

theorem startTiles_keeps {s : State} {j : Job} (hF : Touch.nothing.jobEnd.Le b.may) (h : Keeps b s) :
    KOpt (Keeps b) (State.startTiles s j) := by
  delta State.startTiles
  extract_lets -merge x1 x2 x3 x4
  clear_value x1 x2 x3 x4
  split
  · have := KOpt.of (by assumption) (blocked_keeps (hF.sub rfl) h)
    exact (KOpt.some (by assumption))
  · split
    · exact (KOpt.some (failJob_keeps (hF.sub rfl) h))
    · refine KOpt.map (Q := KFst b) (R := Keeps b) (allocTiles_keeps (hF.sub rfl) h) fun _ h5 => ?_
      extract_lets -merge x6
      clear_value x6
      split
      · exact (failJob_keeps (hF.sub rfl) h5)
      · exact (modJob_keeps (hF.sub rfl) h5)

theorem taskLoad_keeps {s : State} {j : Job} {words : List Nat} (hF : Touch.nothing.jobEnd.Le b.may) (h : Keeps b s) :
    Keeps b (State.taskLoad s j words) := by
  delta State.taskLoad
  split
  · rename_i e
    have := KOpt.of (Q := Keeps b) e (by
        refine KOpt.orElse ?_ ?_
        · exact (loadPlaced_keeps (hF.sub rfl) h)
        · exact (loadRedo_keeps (hF.sub rfl) h))
    exact (by assumption)
  · split
    · exact (loadNext_keeps (hF.sub rfl) h)
    · split
      · exact h
      · exact (loadOwn_keeps (hF.sub rfl) h)

theorem waitStart_keeps {s : State} {uid : Nat} {op : Nat} (hF : Touch.nothing.jobEnd.Le b.may) (h : Keeps b s) :
    Keeps b (State.waitStart s uid op) := by
  delta State.waitStart
  split
  · exact h
  · split
    · exact h
    · have := KOpt.of (by assumption) (giveCounters_keeps (hF.sub rfl) h)
      split
      · split
        · exact (modJob_keeps (hF.sub rfl) (backpressure_keeps (hF.sub rfl) h))
        · split
          · exact (exhaustJob_keeps (hF.sub rfl) h)
          · exact h
      · exact h

theorem execAppendTimeout_keeps {eng : Nat} {ctx : Nat} {s : State} (hF : Touch.nothing.jobEnd.Le b.may) (h : Keeps b s) :
    KOut b (execAppendTimeout eng ctx s) := by
  delta execAppendTimeout
  refine KOut.next ?_
  split
  · exact h
  · split
    · exact h
    · split
      · exact (exhaustJob_keeps (hF.sub rfl) h)
      · exact h

theorem execContextRelease_keeps {eng : Nat} {ctx : Nat} {s : State} (hF : Touch.nothing.engines.Le b.may)
    (h : Keeps b s) :
    KOut b (execContextRelease eng ctx s) := by
  delta execContextRelease
  refine KOut.next ?_
  split
  · exact h
  · split
    · exact h
    · exact (dropCtx_keeps (hF.sub rfl) h)

theorem execEngineMapOut_keeps {eng : Nat} {cause : OutCause} {s : State}
    (hF : Touch.nothing.jobEnd.dev.trace.smbus.Le b.may) (h : Keeps b s) :
    KOut b (execEngineMapOut eng cause s) := by
  delta execEngineMapOut
  refine KOut.next ?_
  split
  · exact (mapOutEngine_keeps (hF.sub rfl) h)
  · exact h

theorem execFetchStepComplete_keeps {eng : Nat} {ctx : Nat} {met : StepMet} {s : State}
    (hF : Touch.nothing.jobEnd.dev.trace.smbus.Le b.may) (h : Keeps b s) :
    KOut b (execFetchStepComplete eng ctx met s) := by
  delta execFetchStepComplete
  refine KOut.next ?_
  split
  · refine KOpt.getD ?_ ?_
    · refine KOpt.map' (R := Keeps b) fun _ => ?_
      exact (leftStep_keeps (hF.sub rfl) h)
    · exact h
  · split
    · exact (completeStep_keeps (hF.sub rfl) h)
    · exact h

theorem execFetchStepIssue_keeps {eng : Nat} {s : State} (hF : Touch.nothing.jobEnd.Le b.may) (h : Keeps b s) :
    KOut b (execFetchStepIssue eng s) := by
  delta execFetchStepIssue
  refine KOut.next ?_
  split
  · exact h
  · split
    · exact h
    · exact (issueStep_keeps (hF.sub rfl) h)

theorem execMergeFold_keeps {uid : Nat} {uncorrectable : Bool} {s : State}
    (hF : Touch.nothing.jobEnd.dev.smbus.Le b.may) (h : Keeps b s) :
    KOut b (execMergeFold uid uncorrectable s) := by
  delta execMergeFold
  extract_lets -merge x1 x2
  clear_value x1
  have h2 : Keeps b x2 := (drawFree_keeps (hF.sub rfl) (drawFree_keeps (hF.sub rfl) (sramError_keeps (hF.sub rfl) h))); clear_value x2
  refine KOut.next ?_
  split
  · exact h
  · split
    · exact (failJob'_keeps (hF.sub rfl) h2)
    · exact (fold_keeps (hF.sub rfl) h)

theorem execPriorityAging_keeps {eng : Nat} {ctx : Nat} {s : State} (hF : Touch.nothing.engines.Le b.may)
    (h : Keeps b s) :
    KOut b (execPriorityAging eng ctx s) := (KOut.next (modCtx_keeps (hF.sub rfl) h))

theorem execSlotGrant_keeps {eng : Nat} {s : State} (hF : Touch.nothing.engines.Le b.may) (h : Keeps b s) :
    KOut b (execSlotGrant eng s) := by
  delta execSlotGrant
  refine KOut.next ?_
  split
  · exact h
  · split
    · exact h
    · exact (grantCtx_keeps (hF.sub rfl) h)

theorem execStopRamp_keeps {eng : Nat} {s : State} (hF : Touch.nothing.engines.Le b.may) (h : Keeps b s) :
    KOut b (execStopRamp eng s) := by
  delta execStopRamp
  extract_lets -merge x1
  refine KOut.next ?_
  split
  · exact (modEng_keeps (hF.sub rfl) h)
  · exact h

theorem execSumpUnitGrant_keeps {part : Nat} {s : State} (hF : Touch.nothing.jobEnd.Le b.may) (h : Keeps b s) :
    KOut b (execSumpUnitGrant part s) := by
  delta execSumpUnitGrant
  refine KOut.next ?_
  split
  · exact h
  · exact (runStep_keeps (hF.sub rfl) h)

theorem execTaskRetire_keeps {eng : Nat} {ctx : Nat} {met : WriteMet} {s : State} (hF : Touch.nothing.jobEnd.Le b.may)
    (h : Keeps b s) :
    KOut b (execTaskRetire eng ctx met s) := by
  delta execTaskRetire
  refine KOut.next ?_
  split
  · exact h
  · split
    · exact h
    · split
      · exact (retireTask_keeps (hF.sub rfl) h)
      · exact (faultCtx_keeps (hF.sub rfl) h)
      · exact (faultCtx_keeps (hF.sub rfl) h)

theorem execTileList_keeps {uid : Nat} {s : State} (hF : Touch.nothing.jobEnd.Le b.may) (h : Keeps b s) :
    KOut b (execTileList uid s) := by
  delta execTileList
  refine KOut.next ?_
  split
  · exact (waitStart_keeps (hF.sub rfl) h)
  · have := KOpt.ofSnd (by assumption) (starting_keeps (hF.sub rfl) h)
    exact (KOpt.getD (startTiles_keeps (hF.sub rfl) (by assumption)) h)

theorem execTileTaskLoad_keeps {uid : Nat} {words : List Nat} {s : State} (hF : Touch.nothing.jobEnd.Le b.may)
    (h : Keeps b s) :
    KOut b (execTileTaskLoad uid words s) := by
  delta execTileTaskLoad
  refine KOut.next ?_
  split
  · exact h
  · split
    · exact (taskLoad_keeps (hF.sub rfl) h)
    · exact h

end Sys2Proof.Machine
end

