-- ==== Sys2Proof/Laws/KeepKvCache.lean ====
section
/-! SUPPORT. What the operations of Machine/KvCache.lean keep (Laws/Keep.lean). -/

namespace Sys2Proof.Machine

variable {b : From}

theorem copyGroups_keeps {s : State} {p : Nat} {new : Nat} {x3 : List Group} (hF : Touch.nothing.parts.kvs.Le b.may)
    (h : Keeps b s) :
    KOpt (KFst b) (State.copyGroups s p new x3) := by
  induction x3 generalizing s with
  | nil => exact KOpt.some h
  | cons g rest ih =>
    simp only [State.copyGroups]
    split
    · exact KOpt.none
    · have := KOpt.ofFst (by assumption) (growGroup_keeps (hF.sub rfl) h)
      split
      · exact KOpt.none
      · exact KOpt.some (KOpt.ofFst (by assumption) (ih (setGroup_keeps (hF.sub rfl) this)))

theorem cutGroups_keeps {s : State} {q : Seq} {n : Nat} (hF : Touch.nothing.parts.kvs.mems.dram.record.Le b.may)
    (h : Keeps b s) :
    Keeps b (State.cutGroups s q n) := by
  delta State.cutGroups
  extract_lets -merge x1 x2 x3 x4
  clear_value x1 x2
  have h3 : Keeps b x3 := (dropGroups_keeps (hF.sub rfl) h); clear_value x3
  have h4 : Keeps b x4 := by
    unfold x4
    refine keepsFold (Q := Keeps b) h3 fun _ _ h5 => ?_
    exact (shrinkGroup_keeps (hF.sub rfl) h5)
  clear_value x4
  exact (emptyBlocks_keeps (hF.sub rfl) h4)

theorem cutPages_keeps {s : State} {q : Seq} {n : Nat} (hF : Touch.nothing.seqs.mems.dram.record.Le b.may)
    (h : Keeps b s) :
    Keeps b (State.cutPages s q n) := by
  delta State.cutPages
  extract_lets -merge x1 x2
  clear_value x1
  have h2 : Keeps b x2 := by
    unfold x2
    refine keepsFold (Q := Keeps b) h fun _ _ h3 => ?_
    exact (dropRef_keeps (hF.sub rfl) h3)
  clear_value x2
  exact (modSeq_keeps (hF.sub rfl) h2)

theorem fetchRecord_keeps {s : State} {j : Job} {i : Nat} (hF : Touch.nothing.record.Le b.may) (h : Keeps b s) :
    Keeps b (State.fetchRecord s j i) := by
  delta State.fetchRecord
  split
  · exact h
  · split
    · exact h
    · exact (badUnitRecord_keeps (hF.sub rfl) h)

theorem fetchSeq_keeps {s : State} {q : Seq} {badRead : Bool} (hF : Touch.nothing.kvs.mems.dram.flash.record.Le b.may)
    (h : Keeps b s) :
    KItem b (State.fetchSeq s q badRead) := by
  delta State.fetchSeq
  extract_lets -merge x1 x2 x3
  clear_value x1 x2 x3
  split
  · exact KItem.later
  · split
    · exact KItem.fail
    · split
      · exact KItem.later
      · split
        · rename_i e
          have := KOpt.of (Q := Keeps b) e (by
              refine keepsFold (Q := KOpt (Keeps b)) (KOpt.some h) fun _ _ h4 => ?_
              refine KOpt.bind (Q := Keeps b) (R := Keeps b) h4 fun _ h5 => ?_
              exact (fetchPage_keeps (hF.sub rfl) h5))
          exact (KItem.done (by assumption))
        · exact KItem.fail

theorem forkSeq_keeps {s : State} {j : Job} {i : Nat} {q : Seq}
    (hF : Touch.nothing.jobs.parts.kvs.seqs.gens.mems.dram.record.Le b.may) (h : Keeps b s) :
    KItem b (State.forkSeq s j i q) := by
  delta State.forkSeq
  extract_lets -merge x1
  clear_value x1
  split
  · exact KItem.fail
  · have := KOpt.ofSnd (by assumption) (newSeq_keeps (hF.sub rfl) h)
    split
    · exact KItem.fail
    · rename_i e
      have := KOpt.of (Q := Keeps b) e (by
          refine KOpt.bind (Q := Keeps b) (R := Keeps b) (putTokens_keeps (hF.sub rfl) (by assumption)) fun _ h2 => ?_
          exact (copySums_keeps (hF.sub rfl) h2))
      extract_lets -merge x3
      have h3 : Keeps b x3 := by
        unfold x3
        refine keepsFold (Q := Keeps b) (by assumption) fun _ _ h4 => ?_
        exact (addRef_keeps (hF.sub rfl) h4)
      clear_value x3
      split
      · exact KItem.noUnit
      · have := KOpt.ofFst (by assumption) (copyGroups_keeps (hF.sub rfl) h3)
        extract_lets -merge x5
        have h5 : Keeps b x5 := by
          unfold x5
          split
          · exact (jobQuality_keeps (hF.sub rfl) (by assumption))
          · exact (by assumption)
        clear_value x5
        exact (KItem.done (storeN_keeps (hF.sub rfl) h5))

theorem freeFlushed_keeps {s : State} {p : Nat} {g : Group} (hF : Touch.nothing.parts.kvs.Le b.may) (h : Keeps b s) :
    Keeps b (State.freeFlushed s p g) := (freeUnits_keeps (hF.sub rfl) (dropGroup_keeps (hF.sub rfl) h))

theorem spillSeq_keeps {s : State} {q : Seq} {vol : Nat}
    (hF : Touch.nothing.free.parts.kvs.mems.dram.flash.record.Le b.may) (h : Keeps b s) :
    KItem b (State.spillSeq s q vol) := by
  delta State.spillSeq
  extract_lets -merge x1 x2
  clear_value x1 x2
  split
  · exact KItem.later
  · split
    · exact KItem.fail
    · split
      · exact KItem.fail
      · exact KItem.later
      · exact KItem.failIn (KRun.ofWorn (by assumption) (spill_keeps (hF.sub rfl) h))
      · have h1 := KRun.ofDone (by assumption) (spill_keeps (hF.sub rfl) h)
        split
        · exact KItem.done (KOpt.of (by assumption) (keepsFold (Q := KOpt (Keeps b)) (KOpt.some h1)
            fun _ _ k => KOpt.bind k fun _ hk => park_keeps (hF.sub rfl) hk))
        · exact KItem.fail

theorem reopenAll_keeps {s : State} {uid : Nat} {q : Seq} {n : Nat} {x4 : List (Nat × Nat × Nat × Nat)}
    (hF : Touch.nothing.jobs.parts.kvs.seqs.mems.dram.flash.trace.record.Le b.may) (h : Keeps b s) :
    KItem b (State.reopenAll s uid q n x4) := by
  induction x4 generalizing s with
  | nil => exact KItem.done h
  | cons x rest ih =>
    have hd (c : Prop) [Decidable c] : KOpt (Keeps b) (if c then s.fetchPage q.part x.2.2.2 else some s) := by
      split
      · exact fetchPage_keeps (hF.sub rfl) h
      · exact KOpt.some h
    simp only [State.reopenAll]
    split
    · exact KItem.later
    · split
      · exact KItem.fail
      · split
        · exact KItem.fail
        have h1 := KOpt.of (by assumption) (hd _)
        split
        · exact KItem.noUnit
        · have h2 := KOpt.ofFst (by assumption) (reopen_keeps (hF.sub rfl) h1)
          refine ih ?_
          split
          · exact jobQuality_keeps (hF.sub rfl) h2
          · exact h2

theorem truncate_keeps {s : State} {uid : Nat} {q : Seq} {n : Nat}
    (hF : Touch.nothing.jobs.parts.kvs.seqs.mems.dram.flash.trace.record.Le b.may) (h : Keeps b s) :
    KItem b (State.truncate s uid q n) := by
  delta State.truncate
  extract_lets -merge x1 x2
  have h1 : Keeps b x1 := (cutGroups_keeps (hF.sub rfl) (cutPages_keeps (hF.sub rfl) h)); clear_value x1
  clear_value x2
  split
  · have := KItem.of (by assumption) (reopenAll_keeps (hF.sub rfl) h1)
    exact (KItem.done (setLength_keeps (hF.sub rfl) (by assumption)))
  · exact (reopenAll_keeps (hF.sub rfl) h1)

theorem kmApply_keeps {s : State} {j : Job} {i : Nat} {badRead : Bool}
    (hF : Touch.nothing.free.jobs.parts.kvs.seqs.gens.mems.dram.flash.trace.record.Le b.may) (h : Keeps b s) :
    KItem b (State.kmApply s j i badRead) := by
  delta State.kmApply
  extract_lets -merge x1
  clear_value x1
  split
  · exact KItem.fail
  · extract_lets -merge x2
    clear_value x2
    split
    · exact (KItem.done (modSeq_keeps (hF.sub rfl) h))
    · exact (spillSeq_keeps (hF.sub rfl) h)
    · exact (fetchSeq_keeps (hF.sub rfl) h)
    · split
      · exact KItem.fail
      · exact (truncate_keeps (hF.sub rfl) h)
    · exact (forkSeq_keeps (hF.sub rfl) h)
    · exact (KItem.done (releaseSeq_keeps (hF.sub rfl) h))
    · exact (KItem.done (storeWords_keeps (hF.sub rfl) h))

theorem waitUnit_keeps {s : State} {j : Job} {since : Option Nat} {set : Option Nat → Ext}
    (hF : Touch.nothing.jobEnd.Le b.may) (h : Keeps b s) :
    Keeps b (State.waitUnit s j since set) := by
  delta State.waitUnit
  split
  · split
    · exact (exhaustJob_keeps (hF.sub rfl) h)
    · exact h
  · exact (modJob_keeps (hF.sub rfl) (backpressure_keeps (hF.sub rfl) h))

theorem kmStep_keeps {s : State} {j : Job} {done : Nat} {since : Option Nat} {badRead : Bool}
    (hF : Touch.nothing.jobEnd.gens.trace.Le b.may) (h : Keeps b s) :
    Keeps b (State.kmStep s j done since badRead) := by
  delta State.kmStep
  extract_lets -merge x1
  clear_value x1
  split
  · exact (finishUid_keeps (hF.sub rfl) h)
  · split
    · rename_i e
      have := KOpt.of (Q := Keeps b) e (by
          refine KOpt.or ?_ ?_
          · exact (blockedOut_keeps (hF.sub rfl) h)
          · exact (anyBlocked_keeps (hF.sub rfl) h))
      exact (by assumption)
    · split
      · exact h
      · exact (waitUnit_keeps (hF.sub rfl) h)
      · extract_lets -merge x2
        have h2 : Keeps b x2 := by
          unfold x2
          split
          · exact (fetchRecord_keeps (hF.sub rfl) h)
          · exact h
        clear_value x2
        exact (failJob_keeps (hF.sub rfl) h2)
      · first | have := KItem.of (by assumption) (kmApply_keeps (hF.sub rfl) h) | have := KItem.ofFail (by assumption) (kmApply_keeps (hF.sub rfl) h)
        exact (failJob_keeps (hF.sub rfl) (by assumption))
      · have := KItem.of (by assumption) (kmApply_keeps (hF.sub rfl) h)
        extract_lets -merge x3
        have h3 : Keeps b x3 := (modJob_keeps (hF.sub rfl) (by assumption)); clear_value x3
        split
        · exact (finishUid_keeps (hF.sub rfl) h3)
        · exact h3

theorem reclaimOne_keeps {s : State} {p : Nat} (hF : Touch.nothing.kvs.slots.moves.mems.dram.siphon.record.Le b.may)
    (h : Keeps b s) :
    Keeps b (State.reclaimOne s p) := by
  delta State.reclaimOne
  extract_lets -merge x1
  have h1 : Keeps b x1 := by
    unfold x1
    split
    · exact h
    · extract_lets -merge x2 x3
      have h3 : Keeps b x3 := by
        unfold x3
        split
        · exact h
        · exact (freeFrame_keeps (hF.sub rfl) (freeFrame_keeps (hF.sub rfl) h))
      clear_value x3
      exact (setPte_keeps (hF.sub rfl) h3)
  clear_value x1
  exact (startMoves_keeps (hF.sub rfl) (reclaimStale_keeps (hF.sub rfl) h1))

theorem startKvMove_keeps {s : State} {j : Job} {badRead : Bool} (hF : Touch.nothing.jobEnd.gens.trace.Le b.may)
    (h : Keeps b s) :
    Keeps b (State.startKvMove s j badRead) := by
  delta State.startKvMove
  extract_lets -merge x1
  clear_value x1
  split
  · have := KOpt.of (by assumption) (blocked_keeps (hF.sub rfl) h)
    exact (by assumption)
  · split
    · exact (failJob_keeps (hF.sub rfl) h)
    · exact (kmStep_keeps (hF.sub rfl) (modJob_keeps (hF.sub rfl) h))

theorem execGroupFlush_keeps {part : Nat} {s : State} (hF : Touch.nothing.jobEnd.Le b.may) (h : Keeps b s) :
    KOut b (execGroupFlush part s) := by
  delta execGroupFlush
  refine KOut.next ?_
  split
  · exact h
  · split
    · have := KOpt.of (by assumption) (flushGroup_keeps (hF.sub rfl) h)
      exact (by assumption)
    · split
      · refine keepsFold (Q := Keeps b) h fun _ _ h1 => ?_
        exact (exhaustJob_keeps (hF.sub rfl) h1)
      · exact h

theorem execIdleEpochTick_keeps {part : Nat} {s : State} (hF : Touch.nothing.kvs.Le b.may) (h : Keeps b s) :
    KOut b (execIdleEpochTick part s) := by
  delta execIdleEpochTick
  refine KOut.next ?_
  split
  · exact (advanceEpoch_keeps (hF.sub rfl) h)
  · exact h

theorem execKvMove_keeps {uid : Nat} {badRead : Bool} {s : State} (hF : Touch.nothing.jobEnd.gens.trace.Le b.may)
    (h : Keeps b s) :
    KOut b (execKvMove uid badRead s) := by
  delta execKvMove
  refine KOut.next ?_
  split
  · have := KOpt.ofSnd (by assumption) (starting_keeps (hF.sub rfl) h)
    exact (startKvMove_keeps (hF.sub rfl) (by assumption))
  · split
    · exact h
    · split
      · split
        · exact (kmStep_keeps (hF.sub rfl) h)
        · exact h
      · exact (waitStart_keeps (hF.sub rfl) h)

theorem execPageReclaim_keeps {part : Nat} {s : State}
    (hF : Touch.nothing.kvs.slots.moves.mems.dram.siphon.record.Le b.may) (h : Keeps b s) :
    KOut b (execPageReclaim part s) := (KOut.next (reclaimOne_keeps (hF.sub rfl) h))

theorem execParkGroup_keeps {part : Nat} {s : State} (hF : Touch.nothing.parts.kvs.Le b.may) (h : Keeps b s) :
    KOut b (execParkGroup part s) := by
  delta execParkGroup
  refine KOut.next ?_
  split
  · split
    · exact h
    · exact (KOpt.getD (park_keeps (hF.sub rfl) h) h)
  · exact h

theorem execUnitsFreed_keeps {part : Nat} {s : State} (hF : Touch.nothing.parts.kvs.Le b.may) (h : Keeps b s) :
    KOut b (execUnitsFreed part s) := by
  delta execUnitsFreed
  refine KOut.next ?_
  refine keepsFold (Q := Keeps b) h fun _ _ h1 => ?_
  exact (freeFlushed_keeps (hF.sub rfl) h1)

end Sys2Proof.Machine
end

