-- ==== Sys2Proof/Laws/KeepServeCheck.lean ====
section
/-! SUPPORT. What the operations of Machine/ServeCheck.lean keep (Laws/Keep.lean). -/

namespace Sys2Proof.Machine

variable {b : From}

theorem samplerBlocked_keeps {s : State} {j : Job} {vocab : Nat} {a : Nat} (hF : Touch.nothing.jobEnd.Le b.may)
    (h : Keeps b s) :
    KOpt (Keeps b) (State.samplerBlocked s j vocab a) := by
  delta State.samplerBlocked
  extract_lets -merge x1
  clear_value x1
  split
  · exact KOpt.none
  · split
    · have := KOpt.of (by assumption) (blocked_keeps (hF.sub rfl) h)
      exact (KOpt.some (by assumption))
    · exact (anyBlocked_keeps (hF.sub rfl) h)

theorem checkEntry_keeps {s : State} {j : Job} {t : Slot} {i : Nat} {w : List Nat} {before : List Ent}
    (hF : Touch.nothing.jobEnd.Le b.may) (h : Keeps b s) :
    KEnt b (State.checkEntry s j t i w before) := by
  delta State.checkEntry
  extract_lets -merge x1 x2 x3 x4 x5 x6 x7
  clear_value x1 x2 x3 x4 x5 x6 x7
  split
  · exact KEnt.bad
  · split
    · exact KEnt.bad
    · generalize s.variantOk j.part t.idx _ = v
      split
      · exact KEnt.bad
      · split
        · exact KEnt.stop (KOpt.of (by assumption) (anyBlocked_keeps (hF.sub rfl) h))
        · split
          · exact KEnt.stop (KOpt.of (by assumption) (samplerBlocked_keeps (hF.sub rfl) h))
          · split
            · exact KEnt.bad
            · exact KEnt.ok

theorem nextEntry_keeps {s : State} {j : Job} {t : Slot} {r : List Ent ⊕ State} {w : List Nat}
    (hF : Touch.nothing.jobEnd.Le b.may) (h : Keeps b s)
    (k : KInr b r) : KInr b (State.nextEntry s j t r w) := by
  delta State.nextEntry
  split
  · exact KInr.inr (KInr.of rfl k)
  · split
    · exact KInr.inr (failJob_keeps (hF.sub rfl) h)
    · exact KInr.inr (KEnt.of (by assumption) (checkEntry_keeps (hF.sub rfl) h))
    · exact KInr.inl

theorem checkEntries_keeps {s : State} {j : Job} {t : Slot} {ws : List (List Nat)} (hF : Touch.nothing.jobEnd.Le b.may)
    (h : Keeps b s) :
    KInr b (State.checkEntries s j t ws) := by
  exact keepsFold (Q := KInr b) KInr.inl fun _ _ k => nextEntry_keeps (hF.sub rfl) h k

end Sys2Proof.Machine
end

