-- ==== Sys2Proof/Laws/KeepForward.lean ====
section
/-! SUPPORT. What the operations of Machine/Forward.lean keep (Laws/Keep.lean). -/

namespace Sys2Proof.Machine

variable {b : From}

theorem countPass_keeps {s : State} {j : Job} {n : Nat × Nat} (hF : Touch.nothing.engines.Le b.may) (h : Keeps b s) :
    Keeps b (State.countPass s j n) := by
  delta State.countPass
  split
  · exact (countSat_keeps (hF.sub rfl) h)
  · exact h

theorem freeLists_keeps {s : State} {j : Job} {seq : Nat} {layer : Nat}
    (hF : Touch.nothing.jobs.counters.kvs.echo.Le b.may) (h : Keeps b s) :
    Keeps b (State.freeLists s j seq layer) := by
  delta State.freeLists
  extract_lets -merge x1 x2 x3 x5 x6 x7
  clear_value x2
  have h3 : Keeps b x3 := by
    unfold x3
    refine keepsFold (Q := Keeps b) h fun _ _ h4 => ?_
    exact (freeFrame_keeps (hF.sub rfl) h4)
  clear_value x3
  have h5 : Keeps b x5 := by
    unfold x5
    split
    · exact (setCounter_keeps (hF.sub rfl) (setCounter_keeps (hF.sub rfl) h3))
    · exact h3
  clear_value x5
  have h6 : Keeps b x6 := (modJob_keeps (hF.sub rfl) h5); clear_value x6
  clear_value x1
  exact (Keeps.upd hF h6 rfl rfl ⟨rfl, rfl⟩ rfl)

theorem placeList_keeps {s : State} {j : Job} {q : Seq} {layer : Nat} {head : Nat} {pages : List Nat} {retrieved : Bool}
    (hF : Touch.nothing.jobs.kvs.mems.dram.record.Le b.may) (h : Keeps b s) :
    KOpt (KSnd b) (State.placeList s j q layer head pages retrieved) := by
  delta State.placeList
  extract_lets -merge x1
  clear_value x1
  refine KOpt.map (Q := KSnd b) (R := KSnd b) (allocFrame_keeps (hF.sub rfl) h) fun _ h2 => ?_
  exact (keepsMkSnd (modJob_keeps (hF.sub rfl) (storeWords_keeps (hF.sub rfl) h2)))

theorem fullList_keeps {s : State} {j : Job} {q : Seq} {layer : Nat} {head : Nat} {n : Nat}
    (hF : Touch.nothing.jobs.kvs.mems.echo.dram.record.Le b.may) (h : Keeps b s) :
    KOpt (Keeps b) (State.fullList s j q layer head n) := by
  delta State.fullList
  extract_lets -merge x1
  clear_value x1
  refine KOpt.map (Q := KSnd b) (R := Keeps b) (placeList_keeps (hF.sub rfl) h) fun _ h2 => ?_
  extract_lets -merge x3 x4 x5
  have h4 : Keeps b x4 := h2; clear_value x4
  exact (Keeps.upd hF h4 rfl rfl ⟨rfl, rfl⟩ rfl)

theorem passData_keeps {s : State} {j : Job} {n : Nat} (hF : Touch.nothing.record.Le b.may) (h : Keeps b s) :
    Keeps b (State.passData s j n) := by
  delta State.passData
  split
  · exact (raiseMany_keeps (hF.sub rfl) h)
  · exact h

theorem signalRow_keeps {s : State} {j : Job} {k : Nat} (hF : Touch.nothing.engines.counters.record.Le b.may)
    (h : Keeps b s) :
    Keeps b (State.signalRow s j k) := by
  delta State.signalRow
  split
  · exact (signal_keeps (hF.sub rfl) h)
  · exact h

end Sys2Proof.Machine
end

