-- ==== Sys2Proof/Laws/KeepSiphonDma.lean ====
section
/-! SUPPORT. What the operations of Machine/SiphonDma.lean keep (Laws/Keep.lean). -/

namespace Sys2Proof.Machine

variable {b : From}

theorem failXfer_keeps {s : State} {ch : Nat} {st : Nat} (hF : Touch.nothing.siphon.Le b.may) (h : Keeps b s) :
    Keeps b (State.failXfer s ch st) := (modSch_keeps (hF.sub rfl) h)

theorem issueOwn_keeps {s : State} {ch : Nat} {x : Xfer} (hF : Touch.nothing.siphon.Le b.may) (h : Keeps b s) :
    Keeps b (State.issueOwn s ch x) := by
  delta State.issueOwn
  extract_lets -merge x1
  clear_value x1
  exact (modSch_keeps (hF.sub rfl) h)

theorem writeBursts_keeps {s : State} {x1 : Nat} {x2 : Nat} {x3 : List Byte}
    (hF : Touch.nothing.mems.dram.record.Le b.may) (h : Keeps b s) :
    Keeps b (State.writeBursts s x1 x2 x3) := by
  induction x1 generalizing s x2 x3 with
  | zero => exact h
  | succ n ih =>
    simp only [State.writeBursts]
    split
    · exact h
    · exact ih (store_keeps (hF.sub rfl) h)

theorem moveBurst_keeps {s : State} {x : Xfer} {a : Fmt} {x3 : Fmt} {n : Nat}
    (hF : Touch.nothing.mems.dram.record.Le b.may) (h : Keeps b s) :
    KFst b (State.moveBurst s x a x3 n) := by
  delta State.moveBurst
  extract_lets -merge x1 x2 x3 x4 x5 x6
  clear_value x1 x2 x3 x4 x5 x6
  split
  · split
    · exact h
    · refine keepsMkFst ?_
      refine keepsFold (Q := Keeps b) h fun _ _ h7 => ?_
      exact (writeBursts_keeps (hF.sub rfl) h7)
  · exact (keepsMkFst (writeBursts_keeps (hF.sub rfl) h))
  · exact (keepsMkFst (writeBursts_keeps (hF.sub rfl) h))

theorem noteSat_keeps {s : State} {n : Nat} (hF : Touch.nothing.siphon.Le b.may) (h : Keeps b s) :
    Keeps b (State.noteSat s n) := by
  delta State.noteSat
  exact (Keeps.upd hF h rfl rfl ⟨rfl, rfl⟩ rfl)

theorem markResident_keeps {s : State} {dst : Nat} (hF : Touch.nothing.engines.Le b.may) (h : Keeps b s) :
    Keeps b (State.markResident s dst) := by
  delta State.markResident
  split
  · exact (modEng_keeps (hF.sub rfl) h)
  · exact h

theorem issueOn_keeps {s : State} {ch : Nat} {x : Xfer} (hF : Touch.nothing.jobEnd.Le b.may) (h : Keeps b s) :
    Keeps b (State.issueOn s ch x) := by
  delta State.issueOn
  extract_lets -merge x1 x2 x3
  clear_value x1 x2
  split
  · exact (issueOwn_keeps (hF.sub rfl) h)
  · split
    · exact (failXfer_keeps (hF.sub rfl) h)
    · split
      · exact (outsideJob_keeps (hF.sub rfl) h)
      · split
        · extract_lets -merge x4 x5 x6 x7
          have h4 : KFst b x4 := (moveBurst_keeps (hF.sub rfl) h); clear_value x4
          have h5 : Keeps b x5 := (noteSat_keeps (hF.sub rfl) h4); clear_value x5
          have h6 : Keeps b x6 := (markResident_keeps (hF.sub rfl) h5); clear_value x6
          have h7 : Keeps b x7 := (modSch_keeps (hF.sub rfl) h6); clear_value x7
          split
          · exact (failXfer_keeps (hF.sub rfl) (reportWords_keeps (hF.sub rfl) h))
          · exact (modJob_keeps (hF.sub rfl) h7)
        · exact h

theorem sourceError_keeps {s : State} {x : Xfer} (hF : Touch.nothing.jobEnd.dev.trace.smbus.Le b.may) (h : Keeps b s) :
    Keeps b (State.sourceError s x) := by
  delta State.sourceError
  extract_lets -merge x1
  clear_value x1
  split
  · refine KOpt.getD ?_ ?_
    · refine KOpt.map' (R := Keeps b) fun _ => ?_
      exact (moveReadRecord_keeps (hF.sub rfl) h)
    · exact h
  · split
    · exact (raise_keeps (hF.sub rfl) h)
    · split
      · exact (storeError_keeps (hF.sub rfl) h)
      · exact (dramWordError_keeps (hF.sub rfl) h)

theorem execDmaRaw_keeps {uid : Nat} {s : State} (hF : Touch.nothing.jobEnd.Le b.may) (h : Keeps b s) :
    KOut b (execDmaRaw uid s) := by
  delta execDmaRaw
  refine KOut.next ?_
  split
  · exact h
  · have := KOpt.ofSnd (by assumption) (starting_keeps (hF.sub rfl) h)
    extract_lets -merge x1
    split
    · extract_lets -merge x2
      have h2 : Keeps b x2 := (modJob_keeps (hF.sub rfl) (by assumption)); clear_value x2
      split
      · exact (finishUid_keeps (hF.sub rfl) h2)
      · exact (placeXfer_keeps (hF.sub rfl) h2)
    · split
      · split
        · exact (failJob_keeps (hF.sub rfl) (by assumption))
        · exact (placeXfer_keeps (hF.sub rfl) (modJob_keeps (hF.sub rfl) (by assumption)))
      · exact (failJob_keeps (hF.sub rfl) (by assumption))

theorem execSiphonAging_keeps {ch : Nat} {s : State} (hF : Touch.nothing.siphon.Le b.may) (h : Keeps b s) :
    KOut b (execSiphonAging ch s) := (KOut.next (modSch_keeps (hF.sub rfl) h))

theorem execSiphonBurstIssue_keeps {s : State} (hF : Touch.nothing.jobEnd.Le b.may) (h : Keeps b s) :
    KOut b (execSiphonBurstIssue s) := by
  delta execSiphonBurstIssue
  extract_lets -merge x1 x2
  clear_value x1
  refine KOut.next ?_
  split
  · exact h
  · extract_lets -merge x3
    have h3 : Keeps b x3 := (Keeps.upd hF h rfl rfl ⟨rfl, rfl⟩ (by simp +zetaDelta [State.shaped])); clear_value x3
    split
    · exact h3
    · exact (issueOn_keeps (hF.sub rfl) h3)

theorem execSiphonError_keeps {ch : Nat} {met : SiphonMet} {s : State}
    (hF : Touch.nothing.jobEnd.dev.trace.smbus.Le b.may) (h : Keeps b s) :
    KOut b (execSiphonError ch met s) := by
  delta execSiphonError
  extract_lets -merge x1
  refine KOut.next ?_
  split
  · refine drawFree_keeps (hF.sub rfl) ?_
    refine failXfer_keeps (hF.sub rfl) ?_
    split
    · exact (sourceError_keeps (hF.sub rfl) h)
    · exact h
  · exact (drawFree_keeps (hF.sub rfl) (modSch_keeps (hF.sub rfl) h))
  · exact h

theorem execSiphonTransferComplete_keeps {ch : Nat} {s : State} (hF : Touch.nothing.jobEnd.trace.Le b.may)
    (h : Keeps b s) :
    KOut b (execSiphonTransferComplete ch s) := by
  delta execSiphonTransferComplete
  extract_lets -merge x1
  have h1 : Keeps b x1 := (modSch_keeps (hF.sub rfl) h); clear_value x1
  refine KOut.next ?_
  split
  · exact h
  · split
    · split
      · exact (eachWaiter_keeps (hF.sub rfl) h1)
      · exact h1
    · split
      · exact h1
      · split
        · exact h1
        · split
          · exact (failJob_keeps (hF.sub rfl) h1)
          · split
            · exact (finishUid_keeps (hF.sub rfl) h1)
            · exact h1

end Sys2Proof.Machine
end

