-- ==== Sys2Proof/Laws/KeepJobCtl.lean ====
section
/-! SUPPORT. What the operations of Machine/JobCtl.lean keep (Laws/Keep.lean). -/

namespace Sys2Proof.Machine

variable {b : From}

theorem suspendNow_keeps {s : State} {t : Job} (hF : Touch.nothing.free.qps.jobs.Le b.may) (h : Keeps b s) :
    Keeps b (State.suspendNow s t) := by
  delta State.suspendNow
  extract_lets -merge x1 x2
  have h1 : Keeps b x1 := (modJob_keeps (hF.sub rfl) h); clear_value x1
  split
  · exact h1
  · exact (queueComp_keeps (hF.sub rfl) h1)

theorem applyControl_keeps {s : State} {j : Job} {t : Job}
    (hF : Touch.nothing.free.qps.jobs.engines.merges.parts.kvs.moves.echo.vision.flash.siphon.passage.sec.Le b.may)
    (h : Keeps b s) :
    Keeps b (State.applyControl s j t) := by
  delta State.applyControl
  extract_lets -merge x1 x2 x3
  have h1 : Keeps b x1 := (modJob_keeps (hF.sub rfl) h); clear_value x1
  have h2 : Keeps b x2 := (modJob_keeps (hF.sub rfl) h1); clear_value x2
  have h3 : Keeps b x3 := (modJob_keeps (hF.sub rfl) h2); clear_value x3
  split
  · split
    · exact (suspendNow_keeps (hF.sub rfl) h1)
    · exact (withdrawSiphon_keeps (hF.sub rfl) (modJob_keeps (hF.sub rfl) h1))
  · split
    · exact (KOpt.getD (unparkSeqs_keeps (hF.sub rfl) h3) h3)
    · exact (startEnding_keeps (hF.sub rfl) h1)

theorem runControl_keeps {s : State} {j : Job}
    (hF : Touch.nothing.free.qps.jobs.engines.merges.counters.ctrBlocks.parts.kvs.slots.moves.echo.vision.flash.siphon.passage.sec.Le b.may)
    (h : Keeps b s) :
    Keeps b (State.runControl s j) := by
  delta State.runControl
  extract_lets -merge x1 x2
  clear_value x1
  have h2 : Keeps b x2 := by
    unfold x2
    split
    · split
      · exact (applyControl_keeps (hF.sub rfl) h)
      · exact h
    · exact h
  clear_value x2
  exact (finishUid_keeps (hF.sub rfl) h2)

theorem withdrawOwn_keeps {s : State} {j : Job}
    (hF : Touch.nothing.jobs.engines.merges.moves.echo.vision.flash.siphon.sec.Le b.may) (h : Keeps b s) :
    Keeps b (State.withdrawOwn s j) := by
  delta State.withdrawOwn
  extract_lets -merge x1 x2 x3
  clear_value x1 x2
  have h3 : Keeps b x3 := (withdraw_keeps (hF.sub rfl) h); clear_value x3
  exact (modJob_keeps (hF.sub rfl) (Keeps.upd hF h3 rfl rfl ⟨rfl, rfl⟩ rfl))

theorem saveSearch_keeps {s : State} {j : Job} {x : SearchSt} {area : Nat}
    (hF : Touch.nothing.mems.dram.record.Le b.may) (h : Keeps b s) :
    Keeps b (State.saveSearch s j x area) := (store_keeps (hF.sub rfl) h)

theorem safePoint_keeps {s : State} {j : Job}
    (hF : Touch.nothing.free.qps.jobs.engines.merges.moves.mems.echo.vision.dram.flash.siphon.passage.sec.record.Le b.may)
    (h : Keeps b s) :
    Keeps b (State.safePoint s j) := by
  delta State.safePoint
  extract_lets -merge x1 x2
  have h1 : Keeps b x1 := (withdrawOwn_keeps (hF.sub rfl) h); clear_value x1
  have h2 : Keeps b x2 := by
    unfold x2
    split
    · exact (modJob_keeps (hF.sub rfl) (saveSearch_keeps (hF.sub rfl) h1))
    · extract_lets -merge x3
      clear_value x3
      exact (modJob_keeps (hF.sub rfl) h1)
    · extract_lets -merge x4
      have h4 : Keeps b x4 := (modJob_keeps (hF.sub rfl) h1); clear_value x4
      split
      · exact (sendControl_keeps (hF.sub rfl) h4)
      · exact h4
    · exact h1
  clear_value x2
  split
  · exact (suspendNow_keeps (hF.sub rfl) h2)
  · exact h2

theorem execCancel_keeps {uid : Nat} {s : State}
    (hF : Touch.nothing.free.qps.jobs.engines.merges.counters.ctrBlocks.parts.kvs.slots.moves.echo.vision.flash.siphon.passage.sec.Le b.may)
    (h : Keeps b s) :
    KOut b (execCancel uid s) := by
  delta execCancel
  refine KOut.next ?_
  split
  · exact h
  · have := KOpt.ofSnd (by assumption) (starting_keeps (hF.sub rfl) h)
    exact (runControl_keeps (hF.sub rfl) (by assumption))

theorem execDeadlineTick_keeps {uid : Nat} {s : State}
    (hF : Touch.nothing.jobs.engines.merges.moves.echo.vision.flash.siphon.passage.sec.record.Le b.may) (h : Keeps b s) :
    KOut b (execDeadlineTick uid s) := by
  delta execDeadlineTick
  extract_lets -merge x1
  have h1 : Keeps b x1 := (modJob_keeps (hF.sub rfl) h); clear_value x1
  refine KOut.next ?_
  split
  · exact h
  · extract_lets -merge x2
    have h2 : Keeps b x2 := (raise_keeps (hF.sub rfl) h1); clear_value x2
    split
    · exact h
    · split
      · exact (startEnding_keeps (hF.sub rfl) h2)
      · exact h2

theorem execQuery_keeps {uid : Nat} {s : State}
    (hF : Touch.nothing.free.qps.jobs.engines.counters.ctrBlocks.parts.kvs.slots.Le b.may) (h : Keeps b s) :
    KOut b (execQuery uid s) := by
  delta execQuery
  refine KOut.next ?_
  split
  · exact h
  · have := KOpt.ofSnd (by assumption) (starting_keeps (hF.sub rfl) h)
    extract_lets -merge x1
    clear_value x1
    exact (finishUid_keeps (hF.sub rfl) (by assumption))

theorem execResume_keeps {uid : Nat} {s : State}
    (hF : Touch.nothing.free.qps.jobs.engines.merges.counters.ctrBlocks.parts.kvs.slots.moves.echo.vision.flash.siphon.passage.sec.Le b.may)
    (h : Keeps b s) :
    KOut b (execResume uid s) := by
  delta execResume
  refine KOut.next ?_
  split
  · exact h
  · have := KOpt.ofSnd (by assumption) (starting_keeps (hF.sub rfl) h)
    exact (runControl_keeps (hF.sub rfl) (by assumption))

theorem execSafePoint_keeps {uid : Nat} {s : State}
    (hF : Touch.nothing.free.qps.jobs.engines.merges.moves.mems.echo.vision.dram.flash.siphon.passage.sec.record.Le b.may)
    (h : Keeps b s) :
    KOut b (execSafePoint uid s) := by
  delta execSafePoint
  refine KOut.next ?_
  split
  · exact h
  · split
    · exact (safePoint_keeps (hF.sub rfl) h)
    · exact h

theorem execSuspend_keeps {uid : Nat} {s : State}
    (hF : Touch.nothing.free.qps.jobs.engines.merges.counters.ctrBlocks.parts.kvs.slots.moves.echo.vision.flash.siphon.passage.sec.Le b.may)
    (h : Keeps b s) :
    KOut b (execSuspend uid s) := by
  delta execSuspend
  refine KOut.next ?_
  split
  · exact h
  · have := KOpt.ofSnd (by assumption) (starting_keeps (hF.sub rfl) h)
    exact (runControl_keeps (hF.sub rfl) (by assumption))

theorem execWithdrawalEnd_keeps {uid : Nat} {s : State}
    (hF : Touch.nothing.free.qps.jobs.engines.counters.ctrBlocks.parts.kvs.seqs.slots.mems.dram.flash.record.Le b.may)
    (h : Keeps b s) :
    KOut b (execWithdrawalEnd uid s) := by
  delta execWithdrawalEnd
  refine KOut.next ?_
  split
  · exact h
  · split
    · exact (endWithdrawal_keeps (hF.sub rfl) h)
    · exact h

end Sys2Proof.Machine
end

