-- ==== Sys2Proof/Laws/KeepServing.lean ====
section
/-! SUPPORT. What the operations of Machine/Serving.lean keep (Laws/Keep.lean). -/

namespace Sys2Proof.Machine

variable {b : From}

theorem appendPair_keeps {s : State} {p : Nat} {uid : Nat} {seq : Nat} {layer : Nat} {base : Nat} {d : Nat} {x : Pair}
    (hF : Touch.nothing.parts.kvs.Le b.may) (h : Keeps b s) :
    KApp b (State.appendPair s p uid seq layer base d x) := by
  delta State.appendPair
  split
  · have := KApp.of (by assumption) (appendTok_keeps (hF.sub rfl) h)
    split
    · have := KApp.of (by assumption) (appendTok_keeps (hF.sub rfl) (by assumption))
      exact (KApp.ok (by assumption))
    · exact (appendTok_keeps (hF.sub rfl) (by assumption))
  · exact (appendTok_keeps (hF.sub rfl) h)

theorem appendAll_keeps {p : Nat} {uid : Nat} {seq : Nat} {layer : Nat} {base : Nat} {d : Nat} {x6 : List Pair}
    {x7 : State} (hF : Touch.nothing.parts.kvs.Le b.may) (h : Keeps b x7) :
    KApp b (State.appendAll p uid seq layer base d x6 x7) := by
  induction x6 generalizing x7 with
  | nil => exact KApp.ok h
  | cons x rest ih =>
    have h1 := appendPair_keeps (hF.sub rfl) (p := p) (uid := uid) (seq := seq) (layer := layer) (base := base) (d := d) (x := x) h
    simp only [State.appendAll]
    split
    · have h2 := KApp.of (by assumption) h1
      split
      · exact KApp.ok (KApp.of (by assumption) (ih h2))
      · exact ih h2
    · exact h1

theorem chunkHistory_keeps {s : State} {j : Job} {x : Place} {e : Ent}
    (hF : Touch.nothing.kvs.seqs.mems.dram.record.Le b.may) (h : Keeps b s) :
    KOpt (Keeps b) (State.chunkHistory s j x e) := by
  delta State.chunkHistory
  split
  · exact (putTokens_keeps (hF.sub rfl) h)
  · exact (KOpt.some h)

theorem queueRetrieval_keeps {s : State} {j : Job} {e : Ent} {layer : Nat} {head : Nat} {rows : List (F32 × List Byte)}
    (hF : Touch.nothing.echo.Le b.may) (h : Keeps b s) :
    Keeps b (State.queueRetrieval s j e layer head rows) := by
  delta State.queueRetrieval
  extract_lets -merge x1 x2 x3
  exact (Keeps.upd hF h rfl rfl ⟨rfl, rfl⟩ rfl)

theorem wantAll_keeps {s : State} {j : Job} {q : Seq} {layer : Nat} {head : Nat}
    (hF : Touch.nothing.jobs.parts.kvs.moves.mems.echo.dram.siphon.trace.replay.record.Le b.may) (h : Keeps b s) :
    Keeps b (State.wantAll s j q layer head) := by
  delta State.wantAll
  refine keepsFold (Q := Keeps b) h fun _ _ h1 => ?_
  exact (wantPage_keeps (hF.sub rfl) h1)

theorem headList_keeps {s : State} {j : Job} {t : Slot} {a : Adapt} {k : Nat} {layer : Nat} {e : Ent} {head : Nat}
    (hF : Touch.nothing.jobs.engines.counters.parts.kvs.moves.mems.echo.dram.siphon.trace.replay.record.Le b.may)
    (h : Keeps b s) :
    KOpt (Keeps b) (State.headList s j t a k layer e head) := by
  delta State.headList
  split
  · exact (KOpt.some h)
  · split
    · exact (KOpt.some (queueRetrieval_keeps (hF.sub rfl) (signalRow_keeps (hF.sub rfl) h)))
    · refine KOpt.map (Q := Keeps b) (R := Keeps b) (fullList_keeps (hF.sub rfl) h) fun _ h1 => ?_
      exact (wantAll_keeps (hF.sub rfl) (signalRow_keeps (hF.sub rfl) h1))

theorem layerLists_keeps {s : State} {j : Job} {t : Slot} {a : Adapt} {k : Nat} {layer : Nat} {e : Ent}
    (hF : Touch.nothing.jobs.engines.counters.parts.kvs.moves.mems.echo.dram.siphon.trace.replay.record.Le b.may)
    (h : Keeps b s) :
    KOpt (Keeps b) (State.layerLists s j t a k layer e) := by
  delta State.layerLists
  refine keepsFold (Q := KOpt (Keeps b)) (KOpt.some h) fun _ _ h1 => ?_
  refine KOpt.bind (Q := Keeps b) (R := Keeps b) h1 fun _ h2 => ?_
  exact (headList_keeps (hF.sub rfl) h2)

theorem setServe_keeps {s : State} {uid : Nat} {ents : List Ent} {chunk : Nat} {step : Nat}
    (hF : Touch.nothing.jobs.Le b.may) (h : Keeps b s) :
    Keeps b (State.setServe s uid ents chunk step) := (modJob_keeps (hF.sub rfl) h)

theorem beginLayer_keeps {s : State} {j : Job} {t : Slot} {x : Place} {e : Ent}
    (hF : Touch.nothing.jobEnd.trace.replay.Le b.may) (h : Keeps b s) :
    Keeps b (State.beginLayer s j t x e) := by
  delta State.beginLayer
  extract_lets -merge x1 x2 x3
  clear_value x1
  split
  · exact (failJob'_keeps (hF.sub rfl) h)
  · have := KOpt.of (by assumption) (chunkHistory_keeps (hF.sub rfl) h)
    split
    · exact (waitUnit_keeps (hF.sub rfl) h)
    · exact (failJob'_keeps (hF.sub rfl) h)
    · have := KApp.of (by assumption) (appendAll_keeps (hF.sub rfl) (by assumption))
      extract_lets -merge x4 x5
      have h4 : Keeps b x4 := by
        unfold x4
        split
        · exact (jobQuality_keeps (hF.sub rfl) (by assumption))
        · exact (by assumption)
      clear_value x4
      have h5 : Keeps b x5 := (countPass_keeps (hF.sub rfl) h4); clear_value x5
      split
      · exact (failJob'_keeps (hF.sub rfl) h5)
      · have := KOpt.of (by assumption) (layerLists_keeps (hF.sub rfl) h5)
        exact (setServe_keeps (hF.sub rfl) (by assumption))

theorem commitEnt_keeps {s : State} {j : Job} {e : Ent} (hF : Touch.nothing.kvs.seqs.mems.dram.record.Le b.may)
    (h : Keeps b s) :
    KOpt (Keeps b) (State.commitEnt s j e) := by
  delta State.commitEnt
  split
  · exact (KOpt.some (setLength_keeps (hF.sub rfl) h))
  · refine KOpt.map (Q := Keeps b) (R := Keeps b) (putTokens_keeps (hF.sub rfl) h) fun _ h1 => ?_
    exact (setLength_keeps (hF.sub rfl) h1)

theorem commitPath_keeps {s : State} {j : Job} {e : Ent}
    (hF : Touch.nothing.jobs.parts.kvs.seqs.mems.dram.record.Le b.may) (h : Keeps b s) :
    KOpt (Keeps b) (State.commitPath s j e) := by
  delta State.commitPath
  extract_lets -merge x1 x2 x3 x5
  clear_value x1
  have h2 : Keeps b x2 := (dropGroups_keeps (hF.sub rfl) h); clear_value x2
  have h3 : ∀ a0 a1 a2 a3, Keeps b a0 → Keeps b (x3 a0 a1 a2 a3) := by
    unfold x3
    intro _ _ _ _ h4
    split
    · split
      · have := KApp.of (by assumption) (appendPair_keeps (hF.sub rfl) h4)
        split
        · exact (jobQuality_keeps (hF.sub rfl) (by assumption))
        · exact (by assumption)
      · exact h4
    · exact h4
  have h5 : Keeps b x5 := by
    unfold x5
    refine keepsFold (Q := Keeps b) h2 fun _ _ h6 => ?_
    refine keepsFold (Q := Keeps b) h6 fun _ _ h7 => ?_
    exact (h3 _ _ _ _ h7)
  clear_value x5 x3
  refine KOpt.map (Q := Keeps b) (R := Keeps b) (putTokens_keeps (hF.sub rfl) h5) fun _ h8 => ?_
  exact (setLength_keeps (hF.sub rfl) h8)

theorem writeLogits_keeps {s : State} {j : Job} {e : Ent} {x : List F32} (hF : Touch.nothing.jobEnd.Le b.may)
    (h : Keeps b s) :
    KSum2 b (State.writeLogits s j e x) := by
  delta State.writeLogits
  extract_lets -merge x1
  clear_value x1
  split
  · split
    · have := KOpt.of (by assumption) (blockedOut_keeps (hF.sub rfl) h)
      exact (KSum2.inr (by assumption))
    · exact (KSum2.inl (store_keeps (hF.sub rfl) h))
  · exact (KSum2.inl h)

theorem readyToDraw_keeps {s : State} {j : Job} {t : Slot} {e : Ent} {x : List F32} (hF : Touch.nothing.jobEnd.Le b.may)
    (h : Keeps b s) :
    KSum2 b (State.readyToDraw s j t e x) := by
  delta State.readyToDraw
  split
  · first | have := KSum2.ofl (by assumption) (writeLogits_keeps (hF.sub rfl) h) | have := KSum2.ofr (by assumption) (writeLogits_keeps (hF.sub rfl) h)
    exact (KSum2.inr (by assumption))
  · have := KSum2.ofl (by assumption) (writeLogits_keeps (hF.sub rfl) h)
    split
    · exact (KSum2.inl (by assumption))
    · split
      · have := KOpt.of (by assumption) (samplerBlocked_keeps (hF.sub rfl) (by assumption))
        exact (KSum2.inr (by assumption))
      · exact (KSum2.inl (by assumption))

theorem endEnt_keeps {s : State} {j : Job} {ents : List Ent} {chunk : Nat} {e : Ent}
    (hF : Touch.nothing.jobEnd.Le b.may) (h : Keeps b s) :
    Keeps b (State.endEnt s j ents chunk e) := by
  delta State.endEnt
  extract_lets -merge x1
  clear_value x1
  split
  · exact (failJob'_keeps (hF.sub rfl) h)
  · rename_i e
    have := KOpt.of (Q := Keeps b) e (by
        split
        · exact (commitPath_keeps (hF.sub rfl) h)
        · exact (KOpt.some h))
    extract_lets -merge x2 x3
    have h2 : Keeps b x2 := (storeWords_keeps (hF.sub rfl) (by assumption)); clear_value x2
    have h3 : Keeps b x3 := (setServe_keeps (hF.sub rfl) h2); clear_value x3
    split
    · have := KOpt.of (by assumption) (blockedOut_keeps (hF.sub rfl) (by assumption))
      exact (by assumption)
    · split
      · split
        · exact (finishUid_keeps (hF.sub rfl) h3)
        · exact h3
      · exact h3

theorem noteDraw_keeps {s : State} {j : Job} {e : Ent} {pos : Nat} {d : Draw}
    (hF : Touch.nothing.mems.dram.trace.replay.record.Le b.may) (h : Keeps b s) :
    KFst b (State.noteDraw s j e pos d) := by
  delta State.noteDraw
  extract_lets -merge x1 x2 x3 x4
  clear_value x2
  have h3 : Keeps b x3 := (tracePart_keeps (hF.sub rfl) h); clear_value x3
  have h4 : Keeps b x4 := (replayCompare_keeps (hF.sub rfl) h3); clear_value x4
  refine keepsMkFst ?_
  split
  · exact (raise_keeps (hF.sub rfl) h4)
  · exact h4

theorem drawEnt_keeps {s : State} {j : Job} {t : Slot} {ents : List Ent} {chunk : Nat} {e : Ent}
    (hF : Touch.nothing.jobEnd.trace.replay.Le b.may) (h : Keeps b s) :
    Keeps b (State.drawEnt s j t ents chunk e) := by
  delta State.drawEnt
  extract_lets -merge x1 x2 x3
  clear_value x1
  have h2 : Keeps b x2 := (countPass_keeps (hF.sub rfl) h); clear_value x2
  clear_value x3
  split
  · first | have := KSum2.ofl (by assumption) (readyToDraw_keeps (hF.sub rfl) h2) | have := KSum2.ofr (by assumption) (readyToDraw_keeps (hF.sub rfl) h2)
    exact (by assumption)
  · have := KSum2.ofl (by assumption) (readyToDraw_keeps (hF.sub rfl) h2)
    extract_lets -merge x4 x5
    have h4 : KFst b x4 := (noteDraw_keeps (hF.sub rfl) (by assumption)); clear_value x4
    split
    · exact (endEnt_keeps (hF.sub rfl) (by assumption))
    · split
      · extract_lets -merge x6
        exact (setServe_keeps (hF.sub rfl) h4)
      · exact (endEnt_keeps (hF.sub rfl) h4)

theorem endChunk_keeps {s : State} {j : Job} {ents : List Ent} {k : Nat} (hF : Touch.nothing.jobEnd.Le b.may)
    (h : Keeps b s) :
    Keeps b (State.endChunk s j ents k) := by
  delta State.endChunk
  split
  · exact (setServe_keeps (hF.sub rfl) h)
  · split
    · exact (failJob'_keeps (hF.sub rfl) h)
    · rename_i e
      have := KOpt.of (Q := Keeps b) e (by
          refine keepsFold (Q := KOpt (Keeps b)) (KOpt.some h) fun _ _ h1 => ?_
          refine KOpt.bind (Q := Keeps b) (R := Keeps b) h1 fun _ h2 => ?_
          exact (commitEnt_keeps (hF.sub rfl) h2))
      exact (setServe_keeps (hF.sub rfl) (by assumption))

theorem nextStep_keeps {s : State} {j : Job} {t : Slot} {x : Place} {ents : List Ent}
    (hF : Touch.nothing.jobEnd.Le b.may) (h : Keeps b s) :
    Keeps b (State.nextStep s j t x ents) := by
  delta State.nextStep
  split
  · exact (setServe_keeps (hF.sub rfl) h)
  · exact (endChunk_keeps (hF.sub rfl) h)

theorem endLayer_keeps {s : State} {j : Job} {t : Slot} {x : Place} {e : Ent} (hF : Touch.nothing.jobEnd.Le b.may)
    (h : Keeps b s) :
    Keeps b (State.endLayer s j t x e) := by
  delta State.endLayer
  extract_lets -merge x1 x2 x3 x4 x5 x6 x7
  clear_value x2 x3 x4 x5 x6
  have h7 : Keeps b x7 := (passData_keeps (hF.sub rfl) (countPass_keeps (hF.sub rfl) h)); clear_value x7
  split
  · have := KOpt.of (by assumption) (anyBlocked_keeps (hF.sub rfl) h)
    exact (by assumption)
  · exact (nextStep_keeps (hF.sub rfl) (freeLists_keeps (hF.sub rfl) h7))

theorem openEnt_keeps {s : State} {j : Job} {w : List Nat} {e : Ent}
    (hF : Touch.nothing.seqs.gens.mems.dram.trace.Le b.may) (h : Keeps b s) :
    KFst b (State.openEnt s j w e) := by
  delta State.openEnt
  extract_lets -merge x1 x2 x3 x4 x5
  clear_value x1 x2
  have h3 : KFst b x3 := by
    unfold x3
    split
    · split
      · have := KOpt.ofSnd (by assumption) (newSeq_keeps (hF.sub rfl) h)
        exact (keepsMkFst (by assumption))
      · exact h
    · exact h
  clear_value x3
  have h4 : Keeps b x4 := (modSeq_keeps (hF.sub rfl) h3); clear_value x4
  have h5 : Keeps b x5 := by
    unfold x5
    split
    · exact (tracePart_keeps (hF.sub rfl) h4)
    · exact h4
  clear_value x5
  exact h5

theorem openAll_keeps {s : State} {j : Job} {x2 : List (List Nat)} {x3 : List Ent}
    (hF : Touch.nothing.seqs.gens.mems.dram.trace.Le b.may) (h : Keeps b s) :
    KFst b (State.openAll s j x2 x3) := by
  induction x2 generalizing s x3 with
  | nil => exact h
  | cons w ws ih =>
    cases x3 with
    | nil => exact h
    | cons e es => exact ih (openEnt_keeps (hF.sub rfl) h)

theorem serveStep_keeps {s : State} {j : Job} {t : Slot} {x : Place} (hF : Touch.nothing.jobEnd.trace.replay.Le b.may)
    (h : Keeps b s) :
    Keeps b (State.serveStep s j t x) := by
  delta State.serveStep
  split
  · exact (endChunk_keeps (hF.sub rfl) h)
  · split
    · exact (nextStep_keeps (hF.sub rfl) h)
    · split
      · exact (beginLayer_keeps (hF.sub rfl) h)
      · exact (endLayer_keeps (hF.sub rfl) h)

theorem serveOn_keeps {s : State} {uid : Nat} {op : Nat} (hF : Touch.nothing.jobEnd.trace.replay.Le b.may)
    (h : Keeps b s) :
    Keeps b (State.serveOn s uid op) := by
  delta State.serveOn
  split
  · exact h
  · split
    · split
      · exact (serveStep_keeps (hF.sub rfl) h)
      · exact h
    · exact h

theorem startServe_keeps {s : State} {j : Job} (hF : Touch.nothing.jobEnd.gens.trace.Le b.may) (h : Keeps b s) :
    Keeps b (State.startServe s j) := by
  delta State.startServe
  extract_lets -merge x1 x2
  clear_value x1 x2
  split
  · rename_i e
    have := KOpt.of (Q := Keeps b) e (by
        refine KOpt.or ?_ ?_
        · exact (blocked_keeps (hF.sub rfl) h)
        · exact (blockedOut_keeps (hF.sub rfl) h))
    exact (by assumption)
  · split
    · exact (failJob_keeps (hF.sub rfl) h)
    · split
      · have := KInr.of (by assumption) (checkEntries_keeps (hF.sub rfl) h)
        exact (by assumption)
      · extract_lets -merge x3
        have h3 : KFst b x3 := (openAll_keeps (hF.sub rfl) h); clear_value x3
        split
        · exact (failJob_keeps (hF.sub rfl) h)
        · split
          · exact (failJob_keeps (hF.sub rfl) h)
          · exact (setServe_keeps (hF.sub rfl) h3)

theorem startStep_keeps {s : State} {uid : Nat} {op : Nat} (hF : Touch.nothing.jobEnd.gens.trace.replay.Le b.may)
    (h : Keeps b s) :
    Keeps b (State.startStep s uid op) := by
  delta State.startStep
  split
  · have := KOpt.ofSnd (by assumption) (starting_keeps (hF.sub rfl) h)
    exact (startServe_keeps (hF.sub rfl) (by assumption))
  · exact (serveOn_keeps (hF.sub rfl) (waitStart_keeps (hF.sub rfl) h))

theorem execDecodeStep_keeps {uid : Nat} {s : State} (hF : Touch.nothing.jobEnd.gens.trace.replay.Le b.may)
    (h : Keeps b s) :
    KOut b (execDecodeStep uid s) := (KOut.next (startStep_keeps (hF.sub rfl) h))

theorem execPrefill_keeps {uid : Nat} {s : State} (hF : Touch.nothing.jobEnd.gens.trace.Le b.may) (h : Keeps b s) :
    KOut b (execPrefill uid s) := by
  delta execPrefill
  refine KOut.next ?_
  split
  · exact (waitStart_keeps (hF.sub rfl) h)
  · have := KOpt.ofSnd (by assumption) (starting_keeps (hF.sub rfl) h)
    split
    · exact (by assumption)
    · exact (startServe_keeps (hF.sub rfl) (by assumption))

theorem execPrefillChunk_keeps {uid : Nat} {s : State} (hF : Touch.nothing.jobEnd.trace.replay.Le b.may) (h : Keeps b s) :
    KOut b (execPrefillChunk uid s) := (KOut.next (serveOn_keeps (hF.sub rfl) h))

theorem execSamplerDraw_keeps {uid : Nat} {s : State} (hF : Touch.nothing.jobEnd.trace.replay.Le b.may) (h : Keeps b s) :
    KOut b (execSamplerDraw uid s) := by
  delta execSamplerDraw
  refine KOut.next ?_
  split
  · exact h
  · split
    · split
      · split
        · split
          · exact (drawEnt_keeps (hF.sub rfl) h)
          · exact h
        · exact h
      · exact h
    · exact h

theorem execVerifyTree_keeps {uid : Nat} {s : State} (hF : Touch.nothing.jobEnd.gens.trace.replay.Le b.may)
    (h : Keeps b s) :
    KOut b (execVerifyTree uid s) := (KOut.next (startStep_keeps (hF.sub rfl) h))

end Sys2Proof.Machine
end

