-- ==== Sys2Proof/Laws/KeepPrefix.lean ====
section
/-! SUPPORT. What the operations of Machine/Prefix.lean keep (Laws/Keep.lean). -/

namespace Sys2Proof.Machine

variable {b : From}

theorem sumOf_keeps {s : State} {p : Nat} {seq : Nat} {layer : Nat} {head : Nat} {page : Nat} {i : Nat}
    (hF : Touch.nothing.kvs.mems.dram.record.Le b.may) (h : Keeps b s) :
    KOpt (Keeps b) (State.sumOf s p seq layer head page i) := by
  delta State.sumOf
  extract_lets -merge x1
  exact (sumPage_keeps (hF.sub rfl) h)

theorem attach_keeps {s : State} {j : Job} {t : Slot} {variant : Option Nat} {nodes : List Nat}
    (hF : Touch.nothing.kvs.seqs.gens.mems.dram.trace.record.Le b.may) (h : Keeps b s) :
    KOpt (KSnd b) (State.attach s j t variant nodes) := by
  delta State.attach
  extract_lets -merge x1 x2 x3
  clear_value x1 x2 x3
  split
  · exact KOpt.none
  · have := KOpt.ofSnd (by assumption) (newSeq_keeps (hF.sub rfl) h)
    extract_lets -merge x4
    have h4 : ∀ a0 a1, KOpt (Keeps b) a0 → KOpt (Keeps b) (x4 a0 a1) := by
      unfold x4
      intro _ _ h5
      refine KOpt.bind (Q := Keeps b) (R := Keeps b) h5 fun _ h6 => ?_
      exact (sumOf_keeps (hF.sub rfl) (addRef_keeps (hF.sub rfl) h6))
    clear_value x4
    refine KOpt.map (Q := Keeps b) (R := KSnd b) ?_ fun _ h7 => ?_
    · refine keepsFold (Q := KOpt (Keeps b)) (putTokens_keeps (hF.sub rfl) (by assumption)) fun _ _ h8 => ?_
      exact (h4 _ _ h8)
    exact (keepsMkSnd (tracePart_keeps (hF.sub rfl) h7))

theorem indexStep_keeps {s : State} {uid op : Nat} {apply : State → Job → Slot → Nat → State}
    (hF : Touch.nothing.jobEnd.Le b.may) (h : Keeps b s)
    (k : ∀ s j t n, Keeps b s → Keeps b (apply s j t n)) : Keeps b (State.indexStep s uid op apply) := by
  delta State.indexStep
  split
  · exact h
  · split
    · exact h
    · split
      · exact k _ _ _ _ h
      · exact failJob_keeps (hF.sub rfl) h

theorem touchNode_keeps {s : State} {p : Nat} {n : Nat} (hF : Touch.nothing.mems.dram.record.Le b.may) (h : Keeps b s) :
    Keeps b (State.touchNode s p n) := (setNode_keeps (hF.sub rfl) h)

theorem takeNode_keeps {s : State} {p : Nat} {slot : Nat} {variant : Option Nat} {path : List Nat}
    (hF : Touch.nothing.kvs.mems.dram.record.Le b.may) (h : Keeps b s) :
    KOpt (KSnd b) (State.takeNode s p slot variant path) := by
  delta State.takeNode
  split
  · exact (KOpt.some h)
  · split
    · exact (KOpt.some (keepsMkSnd (dropNode_keeps (hF.sub rfl) h)))
    · exact KOpt.none

theorem makeNode_keeps {s : State} {q : Seq} {hash : Nat} {parent : Nat} {path : List Nat} {tokens : List Nat}
    {pages : List Nat} (hF : Touch.nothing.kvs.mems.dram.record.Le b.may) (h : Keeps b s) :
    KOpt (KSnd b) (State.makeNode s q hash parent path tokens pages) := by
  delta State.makeNode
  extract_lets -merge x1
  clear_value x1
  split
  · exact KOpt.none
  · have := KOpt.ofSnd (by assumption) (takeNode_keeps (hF.sub rfl) h)
    split
    · exact KOpt.none
    · have := KOpt.ofSnd (by assumption) (allocFrame_keeps (hF.sub rfl) (by assumption))
      extract_lets -merge x2 x3 x5 x6 x7
      have h2 : Keeps b x2 := (storeWords_keeps (hF.sub rfl) (by assumption)); clear_value x2
      have h3 : Keeps b x3 := by
        unfold x3
        refine keepsFold (Q := Keeps b) h2 fun _ _ h4 => ?_
        exact (addRef_keeps (hF.sub rfl) h4)
      clear_value x3
      have h5 : Keeps b x5 := (setNode_keeps (hF.sub rfl) h3); clear_value x5
      have h7 : Keeps b x7 := by
        unfold x7
        split
        · exact h5
        · exact (setNode_keeps (hF.sub rfl) h5)
      clear_value x7
      exact (KOpt.some (keepsMkSnd (addBucket_keeps (hF.sub rfl) h7)))

theorem insertBlock_keeps {q : Seq} {t : Slot} {r : State × InsertAt} {toks : List Nat}
    (hF : Touch.nothing.kvs.mems.dram.record.Le b.may) (h : KFst b r) :
    KFst b (State.insertBlock q t r toks) := by
  delta State.insertBlock
  extract_lets -merge x1 x2 x3
  clear_value x2
  split
  · exact h
  · split
    · exact h
    · split
      · exact (keepsMkFst (touchNode_keeps (hF.sub rfl) h))
      · split
        · exact h
        · have := KOpt.ofSnd (by assumption) (makeNode_keeps (hF.sub rfl) h)
          exact (keepsMkFst (by assumption))

theorem insertBlocks_keeps {s : State} {q : Seq} {t : Slot} {blocks : List (List Nat)}
    (hF : Touch.nothing.kvs.mems.dram.record.Le b.may) (h : Keeps b s) :
    KFst b (State.insertBlocks s q t blocks) := by
  delta State.insertBlocks
  extract_lets -merge x1
  have h1 : KFst b x1 := by
    unfold x1
    refine keepsFold (Q := KFst b) h fun _ _ h2 => ?_
    exact (insertBlock_keeps (hF.sub rfl) h2)
  clear_value x1
  exact h1

theorem itemDone_keeps {s : State} {j : Job} {done : Nat} {result : Nat}
    (hF : Touch.nothing.free.qps.jobs.engines.counters.ctrBlocks.kvs.slots.Le b.may) (h : Keeps b s) :
    Keeps b (State.itemDone s j done result) := by
  delta State.itemDone
  extract_lets -merge x1
  have h1 : Keeps b x1 := (modJob_keeps (hF.sub rfl) h); clear_value x1
  split
  · exact (finishUid_keeps (hF.sub rfl) h1)
  · exact h1

theorem insertEntry_keeps {s : State} {j : Job} {t : Slot} {done : Nat} (hF : Touch.nothing.jobEnd.Le b.may)
    (h : Keeps b s) :
    Keeps b (State.insertEntry s j t done) := by
  delta State.insertEntry
  extract_lets -merge x1 x2
  clear_value x1 x2
  split
  · exact (failJob_keeps (hF.sub rfl) h)
  · extract_lets -merge x3
    have h3 : KFst b x3 := (insertBlocks_keeps (hF.sub rfl) h); clear_value x3
    split
    · rename_i e
      have := KOpt.of (Q := Keeps b) e (by
          refine KOpt.or ?_ ?_
          · exact (blockedOut_keeps (hF.sub rfl) h)
          · exact (anyBlocked_keeps (hF.sub rfl) h))
      exact (by assumption)
    · exact (itemDone_keeps (hF.sub rfl) (storeWords_keeps (hF.sub rfl) h3))

theorem loadVariant_keeps {s : State} {j : Job} {t : Slot} {done : Nat} (hF : Touch.nothing.jobEnd.Le b.may)
    (h : Keeps b s) :
    Keeps b (State.loadVariant s j t done) := by
  delta State.loadVariant
  extract_lets -merge x1 x2 x3 x4 x5 x6
  clear_value x1 x2 x3 x4 x5
  have h6 : Keeps b x6 := (dropVariant_keeps (hF.sub rfl) h); clear_value x6
  split
  · have := KOpt.of (by assumption) (blocked_keeps (hF.sub rfl) h)
    exact (by assumption)
  · split
    · exact (failJob_keeps (hF.sub rfl) h)
    · split
      · exact (failJob_keeps (hF.sub rfl) h)
      · have := KOpt.ofSnd (by assumption) (allocFrame_keeps (hF.sub rfl) h6)
        exact (itemDone_keeps (hF.sub rfl) (setVariant_keeps (hF.sub rfl) (store_keeps (hF.sub rfl) (by assumption))))

theorem lookupEntry_keeps {s : State} {j : Job} {t : Slot} {done : Nat} (hF : Touch.nothing.jobEnd.gens.trace.Le b.may)
    (h : Keeps b s) :
    Keeps b (State.lookupEntry s j t done) := by
  delta State.lookupEntry
  extract_lets -merge x1 x2 x3 x4
  clear_value x1 x2 x3
  have h4 : Keeps b x4 := by
    unfold x4
    refine keepsFold (Q := Keeps b) h fun _ _ h5 => ?_
    exact (touchNode_keeps (hF.sub rfl) h5)
  clear_value x4
  split
  · rename_i e
    have := KOpt.of (Q := Keeps b) e (by
        refine KOpt.or ?_ ?_
        · exact (blocked_keeps (hF.sub rfl) h)
        · exact (blockedOut_keeps (hF.sub rfl) h))
    exact (by assumption)
  · split
    · have := KOpt.of (by assumption) (anyBlocked_keeps (hF.sub rfl) h)
      exact (by assumption)
    · split
      · split
        · exact (failJob_keeps (hF.sub rfl) h4)
        · have := KOpt.ofSnd (by assumption) (attach_keeps (hF.sub rfl) h4)
          exact (itemDone_keeps (hF.sub rfl) (storeWords_keeps (hF.sub rfl) (by assumption)))
      · exact (itemDone_keeps (hF.sub rfl) (storeWords_keeps (hF.sub rfl) h4))

theorem startIndex_keeps {s : State} {j : Job} {size : Nat} {ok : State → Slot → List Nat → Bool}
    (hF : Touch.nothing.jobEnd.Le b.may) (h : Keeps b s) :
    Keeps b (State.startIndex s j size ok) := by
  delta State.startIndex
  extract_lets -merge x1
  clear_value x1
  split
  · rename_i e
    have := KOpt.of (Q := Keeps b) e (by
        refine KOpt.or ?_ ?_
        · exact (blocked_keeps (hF.sub rfl) h)
        · exact (blockedOut_keeps (hF.sub rfl) h))
    exact (by assumption)
  · split
    · exact (failJob_keeps (hF.sub rfl) h)
    · split
      · exact (modJob_keeps (hF.sub rfl) h)
      · exact (failJob_keeps (hF.sub rfl) h)

theorem startVariant_keeps {s : State} {j : Job} (hF : Touch.nothing.jobEnd.Le b.may) (h : Keeps b s) :
    Keeps b (State.startVariant s j) := by
  delta State.startVariant
  extract_lets -merge x1
  clear_value x1
  split
  · have := KOpt.of (by assumption) (blocked_keeps (hF.sub rfl) h)
    exact (by assumption)
  · split
    · exact (modJob_keeps (hF.sub rfl) h)
    · exact (failJob_keeps (hF.sub rfl) h)

theorem variantStep_keeps {s : State} {uid : Nat} (hF : Touch.nothing.jobEnd.Le b.may) (h : Keeps b s) :
    Keeps b (State.variantStep s uid) := by
  delta State.variantStep
  split
  · exact h
  · extract_lets -merge x1
    clear_value x1
    split
    · exact h
    · split
      · exact (itemDone_keeps (hF.sub rfl) (dropVariant_keeps (hF.sub rfl) h))
      · split
        · exact (failJob_keeps (hF.sub rfl) h)
        · exact (loadVariant_keeps (hF.sub rfl) h)

theorem execPrefixInsert_keeps {uid : Nat} {s : State} (hF : Touch.nothing.jobEnd.Le b.may) (h : Keeps b s) :
    KOut b (execPrefixInsert uid s) := by
  delta execPrefixInsert
  refine KOut.next ?_
  refine indexStep_keeps (hF.sub rfl) ?_ ?_
  · split
    · have := KOpt.ofSnd (by assumption) (starting_keeps (hF.sub rfl) h)
      exact (startIndex_keeps (hF.sub rfl) (by assumption))
    · exact (waitStart_keeps (hF.sub rfl) h)
  · intro _ _ _ _ h1
    exact (insertEntry_keeps (hF.sub rfl) h1)

theorem execPrefixLookup_keeps {uid : Nat} {s : State} (hF : Touch.nothing.jobEnd.gens.trace.Le b.may) (h : Keeps b s) :
    KOut b (execPrefixLookup uid s) := by
  delta execPrefixLookup
  refine KOut.next ?_
  refine indexStep_keeps (hF.sub rfl) ?_ ?_
  · split
    · have := KOpt.ofSnd (by assumption) (starting_keeps (hF.sub rfl) h)
      exact (startIndex_keeps (hF.sub rfl) (by assumption))
    · exact h
  · intro _ _ _ _ h1
    exact (lookupEntry_keeps (hF.sub rfl) h1)

theorem execVariantLoad_keeps {uid : Nat} {s : State} (hF : Touch.nothing.jobEnd.Le b.may) (h : Keeps b s) :
    KOut b (execVariantLoad uid s) := by
  delta execVariantLoad
  refine KOut.next ?_
  refine variantStep_keeps (hF.sub rfl) ?_
  split
  · have := KOpt.ofSnd (by assumption) (starting_keeps (hF.sub rfl) h)
    exact (startVariant_keeps (hF.sub rfl) (by assumption))
  · exact h

end Sys2Proof.Machine
end

