-- ==== Sys2Proof/Laws/KeepTraining.lean ====
section
/-! SUPPORT. What the operations of Machine/Training.lean keep (Laws/Keep.lean). -/

namespace Sys2Proof.Machine

variable {b : From}

theorem putTrainHead_keeps {s : State} {t : Slot} {x2 : List Nat} {x3 : TrainHead}
    (hF : Touch.nothing.mems.dram.record.Le b.may) (h : Keeps b s) :
    Keeps b (State.putTrainHead s t x2 x3) := by
  delta State.putTrainHead
  extract_lets -merge x1
  clear_value x1
  exact (storeWords_keeps (hF.sub rfl) h)

theorem initTrain_keeps {s : State} {t : Slot} {x2 : List Nat} (hF : Touch.nothing.mems.dram.record.Le b.may)
    (h : Keeps b s) :
    Keeps b (State.initTrain s t x2) := by
  delta State.initTrain
  extract_lets -merge x1 x2 x3 x4 x5
  clear_value x1 x2 x3
  have h4 : Keeps b x4 := (store_keeps (hF.sub rfl) h); clear_value x4
  have h5 : Keeps b x5 := (store_keeps (hF.sub rfl) h4); clear_value x5
  exact (putTrainHead_keeps (hF.sub rfl) (store_keeps (hF.sub rfl) (store_keeps (hF.sub rfl) h5)))

theorem putWork_keeps {s : State} {x1 : List Nat} {kv : List Byte} {grads : List Byte}
    (hF : Touch.nothing.mems.dram.record.Le b.may) (h : Keeps b s) :
    Keeps b (State.putWork s x1 kv grads) := (store_keeps (hF.sub rfl) h)

theorem trainUpdate_keeps {s : State} {j : Job} {t : Slot} {x3 : List Nat} {x4 : TrainHead} {passes : List Pass}
    {kv : List Byte} (hF : Touch.nothing.engines.mems.dram.record.Le b.may) (h : Keeps b s) :
    KFst b (State.trainUpdate s j t x3 x4 passes kv) := by
  delta State.trainUpdate
  extract_lets -merge x1 x2 x3 x4 x5
  clear_value x1 x2
  have h4 : Keeps b x4 := (store_keeps (hF.sub rfl) (putWork_keeps (hF.sub rfl) (countPass_keeps (hF.sub rfl) h))); clear_value x4
  split
  · exact (keepsMkFst (raise_keeps (hF.sub rfl) (putTrainHead_keeps (hF.sub rfl) h4)))
  · exact (keepsMkFst (putTrainHead_keeps (hF.sub rfl) h4))

theorem runBatch_keeps {s : State} {j : Job} {t : Slot} {done : Nat} (hF : Touch.nothing.jobEnd.Le b.may)
    (h : Keeps b s) :
    Keeps b (State.runBatch s j t done) := by
  delta State.runBatch
  extract_lets -merge x1 x2 x3 x4 x5 x6 x7 x8 x9 x10 x11 x12 x13 x14
  clear_value x1 x3 x4 x5 x7 x8 x9
  have h10 : Keeps b x10 := (raiseMany_keeps (hF.sub rfl) h); clear_value x10
  have h11 : Keeps b x11 := (countPass_keeps (hF.sub rfl) h10); clear_value x11
  have h12 : KFst b x12 := by
    unfold x12
    split
    · exact (keepsMkFst (putTrainHead_keeps (hF.sub rfl) (putWork_keeps (hF.sub rfl) h11)))
    · exact (trainUpdate_keeps (hF.sub rfl) h11)
  clear_value x12
  have h13 : Keeps b x13 := (storeWords_keeps (hF.sub rfl) h12); clear_value x13
  have h14 : Keeps b x14 := (modJob_keeps (hF.sub rfl) h13); clear_value x14
  split
  · rename_i e
    have := KOpt.of (Q := Keeps b) e (by
        refine KOpt.or ?_ ?_
        · exact (anyBlocked_keeps (hF.sub rfl) h)
        · exact (blockedOut_keeps (hF.sub rfl) h))
    exact (by assumption)
  · split
    · exact (finishUid_keeps (hF.sub rfl) h14)
    · exact h14

theorem startTrain_keeps {s : State} {j : Job} (hF : Touch.nothing.jobEnd.Le b.may) (h : Keeps b s) :
    Keeps b (State.startTrain s j) := by
  delta State.startTrain
  extract_lets -merge x1
  clear_value x1
  split
  · rename_i e
    have := KOpt.of (Q := Keeps b) e (by
        refine KOpt.or ?_ ?_
        · exact (blocked_keeps (hF.sub rfl) h)
        · exact (blockedOut_keeps (hF.sub rfl) h))
    exact (by assumption)
  · split
    · exact (failJob_keeps (hF.sub rfl) h)
    · split
      · exact (failJob_keeps (hF.sub rfl) h)
      · split
        · rename_i e
          have := KOpt.of (Q := Keeps b) e (by
              split
              · exact (blocked_keeps (hF.sub rfl) h)
              · exact (blocked_keeps (hF.sub rfl) h))
          exact (by assumption)
        · refine modJob_keeps (hF.sub rfl) ?_
          split
          · exact (initTrain_keeps (hF.sub rfl) h)
          · exact h

theorem execTrainBatch_keeps {uid : Nat} {s : State} (hF : Touch.nothing.jobEnd.Le b.may) (h : Keeps b s) :
    KOut b (execTrainBatch uid s) := by
  delta execTrainBatch
  refine KOut.next ?_
  split
  · exact h
  · split
    · split
      · exact (runBatch_keeps (hF.sub rfl) h)
      · exact h
    · exact h

theorem execTrainStep_keeps {uid : Nat} {s : State} (hF : Touch.nothing.jobEnd.Le b.may) (h : Keeps b s) :
    KOut b (execTrainStep uid s) := by
  delta execTrainStep
  refine KOut.next ?_
  split
  · exact h
  · have := KOpt.ofSnd (by assumption) (starting_keeps (hF.sub rfl) h)
    split
    · exact (by assumption)
    · exact (startTrain_keeps (hF.sub rfl) (by assumption))

end Sys2Proof.Machine
end

