-- ==== Sys2Proof/Laws/KeepShip.lean ====
section
/-! SUPPORT. What the operations of Machine/Ship.lean keep (Laws/Keep.lean). -/

namespace Sys2Proof.Machine

variable {b : From}

theorem landGroups_keeps {p : Nat} {x1 : List Group} {x2 : State} (hF : Touch.nothing.kvs.Le b.may) (h : Keeps b x2) :
    KOpt (Keeps b) (State.landGroups p x1 x2) := by
  induction x1 generalizing x2 with
  | nil => exact KOpt.some h
  | cons g rest ih =>
    simp only [State.landGroups]
    split
    · exact KOpt.none
    · exact ih (modKv_keeps (hF.sub rfl) (KOpt.ofSnd (by assumption) (allocFrame_keeps (hF.sub rfl) h)))

theorem landRecord_keeps {s : State} {p : Nat} {e : Pte} {record : List Byte}
    (hF : Touch.nothing.kvs.mems.dram.record.Le b.may) (h : Keeps b s) :
    KOpt (KSnd b) (State.landRecord s p e record) := by
  delta State.landRecord
  extract_lets -merge x1
  clear_value x1
  split
  · exact KOpt.none
  · have := KOpt.ofSnd (by assumption) (allocFrame_keeps (hF.sub rfl) h)
    split
    · exact KOpt.none
    · have := KOpt.ofSnd (by assumption) (allocFrame_keeps (hF.sub rfl) (by assumption))
      extract_lets -merge x2 x3
      have h2 : Keeps b x2 := (store_keeps (hF.sub rfl) (by assumption)); clear_value x2
      have h3 : Keeps b x3 := (store_keeps (hF.sub rfl) h2); clear_value x3
      exact (newPte_keeps (hF.sub rfl) h3)

theorem landRecords_keeps {p : Nat} {seq : Nat} {t : Slot} {x3 : List (Nat × Nat × Nat × List Byte)} {x4 : Option
    (Nat × Nat)} {x5 : State} (hF : Touch.nothing.kvs.seqs.mems.dram.record.Le b.may) (h : Keeps b x5) :
    KOpt (Keeps b) (State.landRecords p seq t x3 x4 x5) := by
  induction x3 generalizing x4 x5 with
  | nil => exact KOpt.some h
  | cons x rest ih =>
    simp only [State.landRecords]
    have more (e : Nat) {s : State} (h : Keeps b s) (v : Option (Nat × Nat)) : KOpt (Keeps b)
        (match s.sumOf p seq x.1 x.2.1 x.2.2.1 e with
          | none => none
          | some s => State.landRecords p seq t rest v s) := by
      split
      · exact KOpt.none
      · exact ih (KOpt.of (by assumption) (sumOf_keeps (hF.sub rfl) h))
    cases x4 with
    | none =>
      simp only []
      split
      · exact KOpt.none
      · exact more _ (modSeq_keeps (hF.sub rfl) (KOpt.ofSnd (by assumption) (landRecord_keeps (hF.sub rfl) h))) _
    | some v =>
      simp only []
      split
      · exact KOpt.none
      · exact more _ (modSeq_keeps (hF.sub rfl) (KOpt.ofSnd (by assumption) (newPte_keeps (hF.sub rfl) h))) _

theorem landSeq_keeps {s : State} {j : Job} {t : Slot} {w : List Nat} {im : List Byte}
    (hF : Touch.nothing.free.kvs.seqs.gens.mems.dram.flash.record.Le b.may) (h : Keeps b s) :
    KLand b (State.landSeq s j t w im) := by
  delta State.landSeq
  extract_lets -merge x1 x2 x3 x4 x5 x6
  clear_value x1 x2 x3 x4 x5 x6
  split
  · exact KLand.noRoom
  · rename_i e
    have h0 := KOpt.ofSnd (b := b) e (by
        refine KOpt.bind (Q := KSnd b) (R := KSnd b) (newSeq_keeps (hF.sub rfl) h) fun _ h7 => ?_
        refine KOpt.map (Q := Keeps b) (R := KSnd b) (putTokens_keeps (hF.sub rfl) h7) fun _ h8 => ?_
        exact h8)
    extract_lets -merge x9 x10 x11
    clear_value x9 x10
    have h11 : ∀ a0 a1, Keeps b a1 → KLand b (x11 a0 a1) := by
      unfold x11
      intro _ _ h12
      split
      · rename_i e
        have := KOpt.of (Q := Keeps b) e (by
            refine KOpt.bind (Q := Keeps b) (R := Keeps b) (landRecords_keeps (hF.sub rfl) h12) fun _ h13 => ?_
            exact (landGroups_keeps (hF.sub rfl) h13))
        exact (KLand.done this)
      · exact KLand.noRoom
    clear_value x11
    split
    · exact (h11 _ _ h0)
    · split
      · exact KLand.noRoom
      · split
        · exact KLand.noRoom
        · exact KLand.later
        · exact (KLand.worn (KRun.ofWorn (by assumption) (placeRun_keeps (hF.sub rfl) h0)))
        · exact (h11 _ _ (KRun.ofDone (by assumption) (placeRun_keeps (hF.sub rfl) h0)))

end Sys2Proof.Machine
end

