-- ==== Sys2Proof/Laws/KeepPassage.lean ====
section
/-! SUPPORT. What the operations of Machine/Passage.lean keep (Laws/Keep.lean). -/

namespace Sys2Proof.Machine

variable {b : From}

theorem linkRecord_keeps {s : State} {n : Nat} {cls : Nat} {detail : Nat} {info : Nat}
    (hF : Touch.nothing.record.Le b.may) (h : Keeps b s) :
    Keeps b (State.linkRecord s n cls detail info) := (raise_keeps (hF.sub rfl) h)

theorem intact_keeps {s : State} {n : Nat} {f : Frame} (hF : Touch.nothing.passage.record.Le b.may) (h : Keeps b s) :
    KSnd b (State.intact s n f) := by
  delta State.intact
  split
  · exact h
  · split
    · exact (keepsMkSnd (sendPlain_keeps (hF.sub rfl) h))
    · split
      · exact (keepsMkSnd (sendPlain_keeps (hF.sub rfl) (linkRecord_keeps (hF.sub rfl) h)))
      · exact h

theorem stompRelay_keeps {s : State} {n : Nat} {f : Frame} (hF : Touch.nothing.passage.Le b.may) (h : Keeps b s) :
    Keeps b (State.stompRelay s n f) := by
  delta State.stompRelay
  extract_lets -merge x1
  split
  · exact h
  · exact (modPport_keeps (hF.sub rfl) h)

theorem oweAck_keeps {s : State} {n : Nat} (hF : Touch.nothing.passage.Le b.may) (h : Keeps b s) :
    Keeps b (State.oweAck s n) := by
  delta State.oweAck
  extract_lets -merge x1
  have h1 : Keeps b x1 := (modPport_keeps (hF.sub rfl) h); clear_value x1
  split
  · exact (modPport_keeps (hF.sub rfl) (sendPlain_keeps (hF.sub rfl) h1))
  · exact h1

theorem accept_keeps {s : State} {n : Nat} {f : Frame} (hF : Touch.nothing.passage.record.Le b.may) (h : Keeps b s) :
    KSnd b (State.accept s n f) := by
  delta State.accept
  split
  · exact h
  · split
    · have := keepsSnd (by assumption) (intact_keeps (hF.sub rfl) h)
      exact (keepsMkSnd (stompRelay_keeps (hF.sub rfl) (by assumption)))
    · have := keepsSnd (by assumption) (intact_keeps (hF.sub rfl) h)
      extract_lets -merge x1 x2
      have h2 : Keeps b x2 := (modPport_keeps (hF.sub rfl) (by assumption)); clear_value x2
      split
      · exact (keepsMkSnd (oweAck_keeps (hF.sub rfl) (by assumption)))
      · exact (keepsMkSnd (pumpPort_keeps (hF.sub rfl) (oweAck_keeps (hF.sub rfl) h2)))

theorem answerProbe_keeps {s : State} {port : Nat} {f : Frame} {form : Nat} (hF : Touch.nothing.passage.Le b.may)
    (h : Keeps b s) :
    Keeps b (State.answerProbe s port f form) := by
  delta State.answerProbe
  extract_lets -merge x1 x2 x3
  clear_value x1 x2
  exact (sendFrame_keeps (hF.sub rfl) (modPport_keeps (hF.sub rfl) h))

theorem setShip_keeps {s : State} {uid : Nat} {sh : ShipSt} (hF : Touch.nothing.jobs.Le b.may) (h : Keeps b s) :
    Keeps b (State.setShip s uid sh) := (modJob_keeps (hF.sub rfl) h)

theorem probePath_keeps {s : State} {j : Job} {sh : ShipSt} (hF : Touch.nothing.passage.Le b.may) (h : Keeps b s) :
    Keeps b (State.probePath s j sh) := (sendFrame_keeps (hF.sub rfl) h)

theorem shipControl_keeps {s : State} {j : Job} {sh : ShipSt} {m : ShipMsg} (hF : Touch.nothing.passage.Le b.may)
    (h : Keeps b s) :
    Keeps b (State.shipControl s j sh m) := (sendControl_keeps (hF.sub rfl) h)

theorem beginEntry_keeps {s : State} {j : Job} {i : Nat} (hF : Touch.nothing.jobEnd.passage.Le b.may) (h : Keeps b s) :
    Keeps b (State.beginEntry s j i) := by
  delta State.beginEntry
  extract_lets -merge x1 x2 x3 x4
  clear_value x1 x2
  have h4 : Keeps b x4 := (setShip_keeps (hF.sub rfl) h); clear_value x4
  split
  · have := KOpt.of (by assumption) (blocked_keeps (hF.sub rfl) h)
    exact (by assumption)
  · split
    · exact h4
    · exact (probePath_keeps (hF.sub rfl) (shipControl_keeps (hF.sub rfl) h4))

theorem cancelLate_keeps {s : State} {uid : Nat} (hF : Touch.nothing.qps.Le b.may) (h : Keeps b s) :
    Keeps b (State.cancelLate s uid) := by
  delta State.cancelLate
  extract_lets -merge x1
  clear_value x1
  exact (Keeps.upd hF h rfl rfl ⟨rfl, rfl⟩ (by simp +zetaDelta [State.shaped]))

theorem failShips_keeps {s : State} {n : Nat} (hF : Touch.nothing.jobEnd.Le b.may) (h : Keeps b s) :
    Keeps b (State.failShips s n) := by
  delta State.failShips
  refine keepsFold (Q := Keeps b) h fun _ _ h1 => ?_
  exact (failJob'_keeps (hF.sub rfl) h1)

theorem portFails_keeps {s : State} {n : Nat} {code : Nat} {next : PState} (hF : Touch.nothing.jobEnd.passage.Le b.may)
    (h : Keeps b s) :
    Keeps b (State.portFails s n code next) := by
  delta State.portFails
  extract_lets -merge x1 x2 x3
  have h1 : Keeps b x1 := (settleRelays_keeps (hF.sub rfl) (modPport_keeps (hF.sub rfl) h)); clear_value x1
  have h2 : Keeps b x2 := (modPport_keeps (hF.sub rfl) h1); clear_value x2
  have h3 : Keeps b x3 := (modPport_keeps (hF.sub rfl) h2); clear_value x3
  exact (linkRecord_keeps (hF.sub rfl) (failShips_keeps (hF.sub rfl) h3))

theorem enablePort_keeps {s : State} {port : Nat} {enable : Bool} (hF : Touch.nothing.jobEnd.passage.Le b.may)
    (h : Keeps b s) :
    Keeps b (State.enablePort s port enable) := by
  delta State.enablePort
  extract_lets -merge x1 x2
  have h2 : Keeps b x2 := (modPport_keeps (hF.sub rfl) h); clear_value x2
  split
  · split
    · exact (modPport_keeps (hF.sub rfl) h2)
    · exact h2
  · split
    · exact h2
    · split
      · exact (modPport_keeps (hF.sub rfl) h2)
      · exact (portFails_keeps (hF.sub rfl) h2)

theorem entryDone_keeps {s : State} {j : Job} {sh : ShipSt} (hF : Touch.nothing.jobEnd.passage.Le b.may) (h : Keeps b s) :
    Keeps b (State.entryDone s j sh) := by
  delta State.entryDone
  extract_lets -merge x1
  have h1 : Keeps b x1 := (setShip_keeps (hF.sub rfl) h); clear_value x1
  split
  · split
    · exact (finishJob_keeps (hF.sub rfl) (cancelLate_keeps (hF.sub rfl) h1))
    · exact h1
  · split
    · exact h1
    · exact (beginEntry_keeps (hF.sub rfl) h1)

theorem landEntry_keeps {s : State} {j : Job} {sh : ShipSt} (hF : Touch.nothing.jobEnd.gens.passage.Le b.may)
    (h : Keeps b s) :
    Keeps b (State.landEntry s j sh) := by
  delta State.landEntry
  extract_lets -merge x1 x2
  clear_value x1
  have h2 : ∀ a0, Keeps b a0 → Keeps b (x2 a0) := by
    unfold x2
    intro _ h3
    exact (entryDone_keeps (hF.sub rfl) (shipControl_keeps (hF.sub rfl) h3))
  clear_value x2
  split
  · exact (h2 _ (store_keeps (hF.sub rfl) h))
  · split
    · have := KOpt.of (by assumption) (blockedOut_keeps (hF.sub rfl) h)
      exact (by assumption)
    · split
      · exact (failJob_keeps (hF.sub rfl) h)
      · split
        · exact (failJob_keeps (hF.sub rfl) h)
        · exact h
        · have := KLand.ofWorn (by assumption) (landSeq_keeps (hF.sub rfl) h)
          exact (failJob_keeps (hF.sub rfl) (by assumption))
        · have := KLand.ofDone (by assumption) (landSeq_keeps (hF.sub rfl) h)
          exact (h2 _ (storeN_keeps (hF.sub rfl) (by assumption)))

theorem sendData_keeps {s : State} {j : Job} {sh : ShipSt} (hF : Touch.nothing.jobs.passage.Le b.may) (h : Keeps b s) :
    Keeps b (State.sendData s j sh) := by
  delta State.sendData
  extract_lets -merge x1 x2 x3 x4
  clear_value x1 x2 x3
  have h4 : Keeps b x4 := (sendFrame_keeps (hF.sub rfl) h); clear_value x4
  split
  · exact h
  · exact (setShip_keeps (hF.sub rfl) h4)

theorem goShip_keeps {s : State} {j : Job} {sh : ShipSt} (hF : Touch.nothing.jobEnd.gens.passage.Le b.may)
    (h : Keeps b s) :
    Keeps b (State.goShip s j sh) := by
  delta State.goShip
  split
  · exact (landEntry_keeps (hF.sub rfl) h)
  · exact (sendData_keeps (hF.sub rfl) h)

theorem hopReply_keeps {s : State} {port : Nat} {turnaround : Nat} (hF : Touch.nothing.passage.record.Le b.may)
    (h : Keeps b s) :
    Keeps b (State.hopReply s port turnaround) := by
  delta State.hopReply
  extract_lets -merge x1 x2 x3 x4
  clear_value x2
  have h3 : Keeps b x3 := (modPport_keeps (hF.sub rfl) h); clear_value x3
  have h4 : Keeps b x4 := (modPport_keeps (hF.sub rfl) h3); clear_value x4
  split
  · split
    · exact (linkRecord_keeps (hF.sub rfl) h4)
    · exact h4
  · exact h3

theorem measureHop_keeps {s : State} {n : Nat} (hF : Touch.nothing.passage.Le b.may) (h : Keeps b s) :
    Keeps b (State.measureHop s n) := by
  delta State.measureHop
  extract_lets -merge x1
  have h1 : Keeps b x1 := (modPport_keeps (hF.sub rfl) h); clear_value x1
  refine keepsFold (Q := Keeps b) h1 fun _ _ h2 => ?_
  exact (sendFrame_keeps (hF.sub rfl) h2)

theorem newKeys_keeps {s : State} {n : Nat} {d : Nat} {theirs : List Byte} (hF : Touch.nothing.passage.Le b.may)
    (h : Keeps b s) :
    Keeps b (State.newKeys s n d theirs) := by
  delta State.newKeys
  extract_lets -merge x1 x2 x3
  clear_value x1
  have h3 : Keeps b x3 := (modPport_keeps (hF.sub rfl) h); clear_value x3
  clear_value x2
  split
  · exact (measureHop_keeps (hF.sub rfl) h3)
  · exact (pumpPort_keeps (hF.sub rfl) h3)

theorem pathReply_keeps {s : State} {j : Job} {sh : ShipSt} {form : Nat} {reached : Nat}
    (hF : Touch.nothing.jobEnd.Le b.may) (h : Keeps b s) :
    Keeps b (State.pathReply s j sh form reached) := by
  delta State.pathReply
  extract_lets -merge x1 x2
  clear_value x1 x2
  split
  · exact h
  · extract_lets -merge x3
    clear_value x3
    split
    · exact (failJob_keeps (hF.sub rfl) h)
    · split
      · exact (failJob_keeps (hF.sub rfl) h)
      · split
        · exact (setShip_keeps (hF.sub rfl) h)
        · split
          · exact (failJob_keeps (hF.sub rfl) h)
          · split
            · have := KOpt.of (by assumption) (anyBlocked_keeps (hF.sub rfl) h)
              exact (by assumption)
            · exact (setShip_keeps (hF.sub rfl) h)

theorem startKeyx_keeps {s : State} {n : Nat} (hF : Touch.nothing.passage.sec.Le b.may) (h : Keeps b s) :
    Keeps b (State.startKeyx s n) := by
  delta State.startKeyx
  extract_lets -merge x1
  have h1 : Keeps b x1 := (modPport_keeps (hF.sub rfl) h); clear_value x1
  split
  · have := keepsSnd (by assumption) (rngAsk_keeps (hF.sub rfl) h1)
    exact (sendKeyx_keeps (hF.sub rfl) (by assumption))
  · have := keepsSnd (by assumption) (rngAsk_keeps (hF.sub rfl) h1)
    exact (by assumption)

theorem rekeyPort_keeps {s : State} {port : Nat} (hF : Touch.nothing.passage.sec.Le b.may) (h : Keeps b s) :
    Keeps b (State.rekeyPort s port) := by
  delta State.rekeyPort
  split
  · exact (startKeyx_keeps (hF.sub rfl) h)
  · exact h

theorem relay_keeps {s : State} {n : Nat} {f : Frame} (hF : Touch.nothing.passage.Le b.may) (h : Keeps b s) :
    Keeps b (State.relay s n f) := by
  delta State.relay
  extract_lets -merge x1
  split
  · exact (sendFrame_keeps (hF.sub rfl) (modPport_keeps (hF.sub rfl) h))
  · exact (freeRx_keeps (hF.sub rfl) h)

theorem resumeShip_keeps {s : State} {j : Job} {sh : ShipSt} (hF : Touch.nothing.jobs.passage.Le b.may) (h : Keeps b s) :
    Keeps b (State.resumeShip s j sh) := by
  delta State.resumeShip
  extract_lets -merge x1 x2
  have h2 : Keeps b x2 := (setShip_keeps (hF.sub rfl) h); clear_value x2
  split
  · exact h2
  · exact (shipControl_keeps (hF.sub rfl) h2)

theorem startShip_keeps {s : State} {j : Job} (hF : Touch.nothing.jobEnd.passage.Le b.may) (h : Keeps b s) :
    Keeps b (State.startShip s j) := by
  delta State.startShip
  extract_lets -merge x1 x2 x3
  clear_value x1 x2 x3
  split
  · rename_i e
    have := KOpt.of (Q := Keeps b) e (by
        refine KOpt.or ?_ ?_
        · exact (blocked_keeps (hF.sub rfl) h)
        · exact (blockedOut_keeps (hF.sub rfl) h))
    exact (by assumption)
  · split
    · exact (failJob_keeps (hF.sub rfl) h)
    · split
      · exact (failJob_keeps (hF.sub rfl) h)
      · split
        · exact (failJob_keeps (hF.sub rfl) h)
        · split
          · exact (outsideJob_keeps (hF.sub rfl) h)
          · split
            · exact (failJob_keeps (hF.sub rfl) h)
            · split
              · exact (failJob_keeps (hF.sub rfl) h)
              · exact (beginEntry_keeps (hF.sub rfl) h)

theorem runShip_keeps {s : State} {uid : Nat} {op : Nat} (hF : Touch.nothing.jobEnd.gens.passage.Le b.may)
    (h : Keeps b s) :
    Keeps b (State.runShip s uid op) := by
  delta State.runShip
  extract_lets -merge x1
  have h1 : Keeps b x1 := (waitStart_keeps (hF.sub rfl) h); clear_value x1
  split
  · have := KOpt.ofSnd (by assumption) (starting_keeps (hF.sub rfl) h)
    split
    · exact (resumeShip_keeps (hF.sub rfl) (by assumption))
    · exact (startShip_keeps (hF.sub rfl) (by assumption))
  · split
    · exact h1
    · split
      · split
        · exact (goShip_keeps (hF.sub rfl) h1)
        · exact h1
      · exact h1

theorem stray_keeps {s : State} {n : Nat} {f : Frame} (hF : Touch.nothing.record.Le b.may) (h : Keeps b s) :
    Keeps b (State.stray s n f) := by
  delta State.stray
  split
  · exact (linkRecord_keeps (hF.sub rfl) h)
  · exact h

theorem takeData_keeps {s : State} {j : Job} {sh : ShipSt} {payload : List Byte}
    (hF : Touch.nothing.jobEnd.gens.passage.Le b.may) (h : Keeps b s) :
    Keeps b (State.takeData s j sh payload) := by
  delta State.takeData
  extract_lets -merge x1 x2 x3 x4 x5 x6 x7
  clear_value x1 x2 x3 x4 x5 x6
  split
  · exact (failJob_keeps (hF.sub rfl) (shipControl_keeps (hF.sub rfl) h))
  · split
    · exact h
    · split
      · exact (failJob_keeps (hF.sub rfl) h)
      · split
        · exact (landEntry_keeps (hF.sub rfl) (setShip_keeps (hF.sub rfl) h))
        · split
          · exact (shipControl_keeps (hF.sub rfl) (setShip_keeps (hF.sub rfl) h))
          · exact (setShip_keeps (hF.sub rfl) h)

theorem tryKeys_keeps {s : State} {n : Nat} (hF : Touch.nothing.passage.Le b.may) (h : Keeps b s) :
    Keeps b (State.tryKeys s n) := by
  delta State.tryKeys
  split
  · exact (newKeys_keeps (hF.sub rfl) h)
  · exact h

theorem execAck_keeps {port : Nat} {frame : Frame} {s : State} (hF : Touch.nothing.passage.record.Le b.may)
    (h : Keeps b s) :
    KOut b (execAck port frame s) := by
  delta execAck
  refine KOut.next ?_
  split
  · split
    · have := keepsSnd (by assumption) (intact_keeps (hF.sub rfl) h)
      exact (pumpPort_keeps (hF.sub rfl) (modPport_keeps (hF.sub rfl) (by assumption)))
    · have := keepsSnd (by assumption) (intact_keeps (hF.sub rfl) h)
      exact (by assumption)
  · exact (stray_keeps (hF.sub rfl) h)

theorem execAckTimer_keeps {port : Nat} {s : State} (hF : Touch.nothing.passage.Le b.may) (h : Keeps b s) :
    KOut b (execAckTimer port s) := by
  delta execAckTimer
  extract_lets -merge x1
  refine KOut.next ?_
  split
  · exact (modPport_keeps (hF.sub rfl) (sendPlain_keeps (hF.sub rfl) h))
  · exact h

theorem execCredit_keeps {port : Nat} {frame : Frame} {s : State} (hF : Touch.nothing.passage.record.Le b.may)
    (h : Keeps b s) :
    KOut b (execCredit port frame s) := by
  delta execCredit
  extract_lets -merge x1
  clear_value x1
  refine KOut.next ?_
  split
  · split
    · have := keepsSnd (by assumption) (intact_keeps (hF.sub rfl) h)
      exact (pumpPort_keeps (hF.sub rfl) (modPport_keeps (hF.sub rfl) (by assumption)))
    · have := keepsSnd (by assumption) (intact_keeps (hF.sub rfl) h)
      exact (by assumption)
  · exact (stray_keeps (hF.sub rfl) h)

theorem execCreditTimer_keeps {port : Nat} {s : State} (hF : Touch.nothing.passage.Le b.may) (h : Keeps b s) :
    KOut b (execCreditTimer port s) := by
  delta execCreditTimer
  extract_lets -merge x1 x2
  clear_value x2
  refine KOut.next ?_
  split
  · exact (modPport_keeps (hF.sub rfl) (sendPlain_keeps (hF.sub rfl) h))
  · exact h

theorem execData_keeps {port : Nat} {frame : Frame} {s : State} (hF : Touch.nothing.jobEnd.gens.passage.Le b.may)
    (h : Keeps b s) :
    KOut b (execData port frame s) := by
  delta execData
  refine KOut.next ?_
  split
  · exact (stray_keeps (hF.sub rfl) h)
  · split
    · have := keepsSnd (by assumption) (accept_keeps (hF.sub rfl) h)
      exact (by assumption)
    · have := keepsSnd (by assumption) (accept_keeps (hF.sub rfl) h)
      extract_lets -merge x1
      have h1 : Keeps b x1 := (freeRx_keeps (hF.sub rfl) (by assumption)); clear_value x1
      split
      · exact (relay_keeps (hF.sub rfl) (by assumption))
      · split
        · exact h1
        · split
          · exact (takeData_keeps (hF.sub rfl) h1)
          · exact h1

theorem execDiscover_keeps {port : Nat} {frame : Frame} {s : State} (hF : Touch.nothing.passage.sec.record.Le b.may)
    (h : Keeps b s) :
    KOut b (execDiscover port frame s) := by
  delta execDiscover
  refine KOut.next ?_
  split
  · exact (stray_keeps (hF.sub rfl) h)
  · split
    · exact h
    · split
      · have := keepsSnd (by assumption) (intact_keeps (hF.sub rfl) h)
        exact (by assumption)
      · have := keepsSnd (by assumption) (intact_keeps (hF.sub rfl) h)
        exact (startKeyx_keeps (hF.sub rfl) (modPport_keeps (hF.sub rfl) (by assumption)))

theorem execE2eAck_keeps {uid : Nat} {offset : Nat} {final : Bool} {s : State}
    (hF : Touch.nothing.jobEnd.passage.Le b.may) (h : Keeps b s) :
    KOut b (execE2eAck uid offset final s) := by
  delta execE2eAck
  refine KOut.next ?_
  split
  · exact h
  · extract_lets -merge x1 x2 x3 x4
    have h2 : Keeps b x2 := (setShip_keeps (hF.sub rfl) h); clear_value x2
    clear_value x3
    have h4 : Keeps b x4 := by
      unfold x4
      split
      · split
        · exact (releaseSeq_keeps (hF.sub rfl) h2)
        · exact h2
      · exact h2
    clear_value x4
    split
    · exact h
    · split
      · exact (entryDone_keeps (hF.sub rfl) h4)
      · exact h2

theorem execHoldTimer_keeps {uid : Nat} {s : State} (hF : Touch.nothing.jobs.passage.Le b.may) (h : Keeps b s) :
    KOut b (execHoldTimer uid s) := by
  delta execHoldTimer
  refine KOut.next ?_
  split
  · exact h
  · split
    · exact (shipControl_keeps (hF.sub rfl) (setShip_keeps (hF.sub rfl) h))
    · exact h

theorem execKeyx_keeps {port : Nat} {frame : Frame} {met : KeyxMet} {s : State}
    (hF : Touch.nothing.passage.sec.record.Le b.may) (h : Keeps b s) :
    KOut b (execKeyx port frame met s) := by
  delta execKeyx
  extract_lets -merge x1 x2
  have h2 : Keeps b x2 := (modPport_keeps (hF.sub rfl) h); clear_value x2
  refine KOut.next ?_
  split
  · exact (stray_keeps (hF.sub rfl) h)
  · split
    · exact h
    · split
      · exact (modPport_keeps (hF.sub rfl) (linkRecord_keeps (hF.sub rfl) h))
      · refine tryKeys_keeps (hF.sub rfl) ?_
        split
        · exact h2
        · exact (startKeyx_keeps (hF.sub rfl) h2)

theorem execKeyxRetry_keeps {port : Nat} {s : State} (hF : Touch.nothing.passage.sec.Le b.may) (h : Keeps b s) :
    KOut b (execKeyxRetry port s) := by
  delta execKeyxRetry
  extract_lets -merge x1
  refine KOut.next ?_
  split
  · exact (startKeyx_keeps (hF.sub rfl) h)
  · exact h

theorem execKvShipIn_keeps {uid : Nat} {s : State} (hF : Touch.nothing.jobEnd.gens.passage.Le b.may) (h : Keeps b s) :
    KOut b (execKvShipIn uid s) := (KOut.next (runShip_keeps (hF.sub rfl) h))

theorem execKvShipOut_keeps {uid : Nat} {s : State} (hF : Touch.nothing.jobEnd.gens.passage.Le b.may) (h : Keeps b s) :
    KOut b (execKvShipOut uid s) := (KOut.next (runShip_keeps (hF.sub rfl) h))

theorem execNak_keeps {port : Nat} {frame : Frame} {s : State} (hF : Touch.nothing.passage.record.Le b.may)
    (h : Keeps b s) :
    KOut b (execNak port frame s) := by
  delta execNak
  refine KOut.next ?_
  split
  · split
    · have := keepsSnd (by assumption) (intact_keeps (hF.sub rfl) h)
      exact (pumpPort_keeps (hF.sub rfl) (modPport_keeps (hF.sub rfl) (by assumption)))
    · have := keepsSnd (by assumption) (intact_keeps (hF.sub rfl) h)
      exact (by assumption)
  · exact (stray_keeps (hF.sub rfl) h)

theorem execPassageEnable_keeps {fn : Fn} {port : Nat} {enable : Bool} {s : State}
    (hF : Touch.nothing.jobEnd.passage.Le b.may) (h : Keeps b s) :
    KOut b (execPassageEnable fn port enable s) := by
  delta execPassageEnable
  refine KOut.next ?_
  split
  · exact (enablePort_keeps (hF.sub rfl) h)
  · exact h

theorem execPassageRekey_keeps {fn : Fn} {port : Nat} {s : State} (hF : Touch.nothing.passage.sec.Le b.may)
    (h : Keeps b s) :
    KOut b (execPassageRekey fn port s) := by
  delta execPassageRekey
  refine KOut.next ?_
  split
  · exact (rekeyPort_keeps (hF.sub rfl) h)
  · exact h

theorem execPortDown_keeps {port : Nat} {why : DownWhy} {s : State} (hF : Touch.nothing.jobEnd.passage.Le b.may)
    (h : Keeps b s) :
    KOut b (execPortDown port why s) := by
  delta execPortDown
  extract_lets -merge x1
  refine KOut.next ?_
  split
  · exact h
  · split
    · exact (portFails_keeps (hF.sub rfl) h)
    · split
      · exact (portFails_keeps (hF.sub rfl) h)
      · exact h
    · split
      · exact h
      · exact (portFails_keeps (hF.sub rfl) h)

theorem execPortLinkUp_keeps {port : Nat} {s : State} (hF : Touch.nothing.passage.Le b.may) (h : Keeps b s) :
    KOut b (execPortLinkUp port s) := by
  delta execPortLinkUp
  extract_lets -merge x1
  refine KOut.next ?_
  split
  · exact (sendPlain_keeps (hF.sub rfl) (modPport_keeps (hF.sub rfl) h))
  · exact h

theorem execPortLocked_keeps {port : Nat} {s : State} (hF : Touch.nothing.jobEnd.passage.Le b.may) (h : Keeps b s) :
    KOut b (execPortLocked port s) := by
  delta execPortLocked
  extract_lets -merge x1 x2 x3 x4 x5
  have h2 : Keeps b x2 := (modPport_keeps (hF.sub rfl) h); clear_value x2
  have h5 : Keeps b x5 := by
    refine Keeps.upd hF h2 rfl rfl ?_ rfl
    unfold x5 x3
    dsimp only
    split <;> exact ⟨rfl, rfl⟩
  clear_value x5
  refine KOut.next ?_
  split
  · exact (linkRecord_keeps (hF.sub rfl) (failShips_keeps (hF.sub rfl) h5))
  · exact h

theorem execProbe_keeps {port : Nat} {frame : Frame} {s : State} (hF : Touch.nothing.passage.record.Le b.may)
    (h : Keeps b s) :
    KOut b (execProbe port frame s) := by
  delta execProbe
  refine KOut.next ?_
  split
  · exact (stray_keeps (hF.sub rfl) h)
  · split
    · have := keepsSnd (by assumption) (accept_keeps (hF.sub rfl) h)
      exact (by assumption)
    · have := keepsSnd (by assumption) (accept_keeps (hF.sub rfl) h)
      extract_lets -merge x1
      split
      · exact (relay_keeps (hF.sub rfl) (by assumption))
      · exact (answerProbe_keeps (hF.sub rfl) (freeRx_keeps (hF.sub rfl) (by assumption)))

theorem execProbeReply_keeps {port : Nat} {frame : Frame} {s : State} (hF : Touch.nothing.jobEnd.passage.Le b.may)
    (h : Keeps b s) :
    KOut b (execProbeReply port frame s) := by
  delta execProbeReply
  refine KOut.next ?_
  split
  · exact (stray_keeps (hF.sub rfl) h)
  · split
    · have := keepsSnd (by assumption) (accept_keeps (hF.sub rfl) h)
      exact (by assumption)
    · have := keepsSnd (by assumption) (accept_keeps (hF.sub rfl) h)
      extract_lets -merge x1
      have h1 : Keeps b x1 := (freeRx_keeps (hF.sub rfl) (by assumption)); clear_value x1
      split
      · exact (relay_keeps (hF.sub rfl) (by assumption))
      · split
        · exact (hopReply_keeps (hF.sub rfl) h1)
        · split
          · exact (pathReply_keeps (hF.sub rfl) h1)
          · exact h1

theorem execProbeTimeout_keeps {uid : Nat} {s : State} (hF : Touch.nothing.jobEnd.Le b.may) (h : Keeps b s) :
    KOut b (execProbeTimeout uid s) := by
  delta execProbeTimeout
  refine KOut.next ?_
  split
  · exact h
  · split
    · split
      · exact (failJob_keeps (hF.sub rfl) h)
      · exact h
    · exact h

theorem execReadyResend_keeps {uid : Nat} {s : State} (hF : Touch.nothing.jobs.passage.Le b.may) (h : Keeps b s) :
    KOut b (execReadyResend uid s) := by
  delta execReadyResend
  refine KOut.next ?_
  split
  · exact h
  · split
    · exact (shipControl_keeps (hF.sub rfl) (setShip_keeps (hF.sub rfl) h))
    · exact h

theorem execRekeyThreshold_keeps {port : Nat} {s : State} (hF : Touch.nothing.passage.sec.Le b.may) (h : Keeps b s) :
    KOut b (execRekeyThreshold port s) := by
  delta execRekeyThreshold
  extract_lets -merge x1
  refine KOut.next ?_
  split
  · exact (startKeyx_keeps (hF.sub rfl) h)
  · exact h

theorem execReplayTimeout_keeps {port : Nat} {s : State} (hF : Touch.nothing.passage.Le b.may) (h : Keeps b s) :
    KOut b (execReplayTimeout port s) := by
  delta execReplayTimeout
  refine KOut.next ?_
  split
  · exact (modPport_keeps (hF.sub rfl) h)
  · exact h

theorem execShipProgressTimeout_keeps {uid : Nat} {s : State} (hF : Touch.nothing.jobEnd.Le b.may) (h : Keeps b s) :
    KOut b (execShipProgressTimeout uid s) := by
  delta execShipProgressTimeout
  refine KOut.next ?_
  split
  · exact h
  · split
    · exact (failJob_keeps (hF.sub rfl) h)
    · exact h

theorem execXferAbort_keeps {uid : Nat} {confMismatch : Bool} {s : State} (hF : Touch.nothing.jobEnd.Le b.may)
    (h : Keeps b s) :
    KOut b (execXferAbort uid confMismatch s) := by
  delta execXferAbort
  refine KOut.next ?_
  split
  · exact h
  · split
    · exact (failJob_keeps (hF.sub rfl) h)
    · split
      · exact h
      · exact (modJob_keeps (hF.sub rfl) (withdraw_keeps (hF.sub rfl) h))

theorem execXferHold_keeps {uid : Nat} {s : State} (hF : Touch.nothing.jobs.Le b.may) (h : Keeps b s) :
    KOut b (execXferHold uid s) := by
  delta execXferHold
  refine KOut.next ?_
  split
  · exact h
  · exact (setShip_keeps (hF.sub rfl) h)

theorem execXferReady_keeps {port : Nat} {ids : ShipIds} {tag : Nat} {s : State}
    (hF : Touch.nothing.jobs.passage.Le b.may) (h : Keeps b s) :
    KOut b (execXferReady port ids tag s) := by
  delta execXferReady
  refine KOut.next ?_
  split
  · exact h
  · split
    · exact h
    · split
      · exact h
      · exact (probePath_keeps (hF.sub rfl) (setShip_keeps (hF.sub rfl) h))

end Sys2Proof.Machine
end

