-- ==== Sys2Proof/Laws/KeepPartOps.lean ====
section
/-! SUPPORT. What the operations of Machine/PartOps.lean keep (Laws/Keep.lean). -/

namespace Sys2Proof.Machine

variable {b : From}

theorem cipherGranule_keeps {s : State} {key : List Byte} {g : Nat} (hF : Touch.nothing.mems.dram.Le b.may)
    (h : Keeps b s) :
    Keeps b (State.cipherGranule s key g) := (markGranule_keeps (hF.sub rfl) h)

theorem dropObjects_keeps {s : State} {p : Nat} (hF : Touch.nothing.parts.kvs.seqs.slots.moves.Le b.may) (h : Keeps b s) :
    Keeps b (State.dropObjects s p) := by
  delta State.dropObjects
  exact (Keeps.upd hF h rfl rfl ⟨rfl, rfl⟩ (by simp +zetaDelta [State.shaped]))

theorem loseGranule_keeps {s : State} {g : Nat} (hF : Touch.nothing.free.mems.dram.Le b.may) (h : Keeps b s) :
    Keeps b (State.loseGranule s g) := (drawFree_keeps (hF.sub rfl) (markGranule_keeps (hF.sub rfl) h))

theorem reserveTables_keeps {s : State} {p : Nat} (hF : Touch.nothing.parts.mems.dram.Le b.may) (h : Keeps b s) :
    Keeps b (State.reserveTables s p) := by
  delta State.reserveTables
  split
  · exact modPart_keeps (hF.sub rfl) h
  · rename_i g _
    refine modPart_keeps (hF.sub rfl) (fill_keeps (hF.sub rfl) (fill_keeps (hF.sub rfl) h _ _ _ ?_) _ _ _ ?_) <;> unfold granuleBytes <;> omega

theorem scrubEngine_keeps {s : State} {e : Nat} (hF : Touch.nothing.engines.mems.dram.Le b.may) (h : Keeps b s) :
    Keeps b (State.scrubEngine s e) := (modEng_keeps (hF.sub rfl) (clearCells_keeps (hF.sub rfl) h _ _))

theorem zeroGranule_keeps {s : State} {g : Nat} (hF : Touch.nothing.mems.dram.Le b.may) (h : Keeps b s) :
    Keeps b (State.zeroGranule s g) := (fill_keeps (hF.sub rfl) (forgetGranule_keeps (hF.sub rfl) h) _ _ _ (granule_fits _))

end Sys2Proof.Machine
end

