-- ==== Sys2Proof/Laws/KeepPartition.lean ====
section
/-! SUPPORT. What the operations of Machine/Partition.lean keep (Laws/Keep.lean). -/

namespace Sys2Proof.Machine

variable {b : From}

theorem setVolumes_keeps {s : State} {vols : List Volume} (hF : Touch.nothing.flash.Le b.may) (h : Keeps b s) :
    Keeps b (State.setVolumes s vols) := by
  delta State.setVolumes
  exact (Keeps.upd hF h rfl rfl ⟨rfl, rfl⟩ rfl)

theorem takeEngines_keeps {s : State} {p : Nat} {es : List Nat} (hF : Touch.nothing.jobEnd.Le b.may) (h : Keeps b s) :
    Keeps b (State.takeEngines s p es) := by
  delta State.takeEngines
  extract_lets -merge x1 x2 x3 x5
  clear_value x1
  have h2 : Keeps b x2 := (Keeps.upd hF h rfl rfl ⟨rfl, rfl⟩ (by simp +zetaDelta [State.shaped])); clear_value x2
  have h3 : Keeps b x3 := by
    unfold x3
    refine keepsFold (Q := Keeps b) h2 fun _ _ h4 => ?_
    exact (switchXfers_keeps (hF.sub rfl) (modEng_keeps (hF.sub rfl) (scrubEngine_keeps (hF.sub rfl) h4)))
  clear_value x3
  have h5 : Keeps b x5 := by
    unfold x5
    refine keepsFold (Q := Keeps b) h3 fun _ _ h6 => ?_
    exact (rerun_keeps (hF.sub rfl) h6)
  clear_value x5
  exact (modPart_keeps (hF.sub rfl) h5)

theorem takeKey_keeps {s : State} {j : Job} {p : Nat} {x3 : List Nat}
    (hF : Touch.nothing.parts.mems.dram.sec.record.Le b.may) (h : Keeps b s) :
    Keeps b (State.takeKey s j p x3) := by
  delta State.takeKey
  extract_lets -merge x1
  have h1 : ∀ a0 a1 a2, Keeps b a0 → Keeps b (x1 a0 a1 a2) := by
    unfold x1
    intro _ _ _ h2
    extract_lets -merge x3 x4
    have h4 : Keeps b x4 := (Keeps.upd hF h2 rfl rfl ⟨rfl, rfl⟩ rfl); clear_value x4
    exact (modPart_keeps (hF.sub rfl) h4)
  clear_value x1
  split
  · exact (h1 _ _ _ (spWork_keeps (hF.sub rfl) h))
  · split
    · have := keepsSnd (by assumption) (rngAsk_keeps (hF.sub rfl) h)
      exact (by assumption)
    · have := keepsSnd (by assumption) (rngAsk_keeps (hF.sub rfl) h)
      extract_lets -merge x5 x6
      clear_value x5
      have h6 : Keeps b x6 := (h1 _ _ _ (by assumption)); clear_value x6
      split
      · exact (store_keeps (hF.sub rfl) (spWork_keeps (hF.sub rfl) h6))
      · exact h6

theorem applyCreate_keeps {s : State} {j : Job} {x2 : List Nat} {vols : List Volume}
    (hF : Touch.nothing.jobEnd.Le b.may) (h : Keeps b s) :
    Keeps b (State.applyCreate s j x2 vols) := by
  delta State.applyCreate
  extract_lets -merge x1 x2 x3 x4 x5 x6 x7 x9 x10 x11 x12 x13 x14 x15 x16
  clear_value x1 x2 x3 x4
  have h5 : Keeps b x5 := (Keeps.upd hF h rfl rfl ⟨rfl, rfl⟩ (by simp +zetaDelta [State.shaped])); clear_value x5
  have h6 : Keeps b x6 := (modPart_keeps (hF.sub rfl) h5); clear_value x6
  have h7 : Keeps b x7 := by
    unfold x7
    refine keepsFold (Q := Keeps b) h6 fun _ _ h8 => ?_
    exact (zeroGranule_keeps (hF.sub rfl) h8)
  clear_value x7
  have h10 : Keeps b x10 := (modPart_keeps (hF.sub rfl) h7); clear_value x10
  have h12 : Keeps b x12 := (Keeps.upd hF h10 rfl rfl ⟨rfl, rfl⟩ (by simp +zetaDelta [State.shaped])); clear_value x12
  have h13 : Keeps b x13 := by
    unfold x13
    split
    · exact (modPart_keeps (hF.sub rfl) h12)
    · exact (takeEngines_keeps (hF.sub rfl) h12)
  clear_value x13
  have h14 : Keeps b x14 := by
    unfold x14
    split
    · exact (takeKey_keeps (hF.sub rfl) h13)
    · exact h13
  clear_value x14 x15
  have h16 : Keeps b x16 := (setVolumes_keeps (hF.sub rfl) h14); clear_value x16
  split
  · exact (setVolumes_keeps (hF.sub rfl) h)
  · exact (reserveTables_keeps (hF.sub rfl) h16)

theorem blobBlocked_keeps {s : State} {j : Job} {x2 : List Nat} (hF : Touch.nothing.jobEnd.Le b.may) (h : Keeps b s) :
    KOpt (Keeps b) (State.blobBlocked s j x2) := by
  delta State.blobBlocked
  split
  · exact KOpt.none
  · split
    · exact (blocked_keeps (hF.sub rfl) h)
    · split
      · exact (blockedOut_keeps (hF.sub rfl) h)
      · exact KOpt.none

theorem dropMarks_keeps {s : State} {vol : Nat} (hF : Touch.nothing.flash.Le b.may) (h : Keeps b s) :
    Keeps b (State.dropMarks s vol) := by
  delta State.dropMarks
  extract_lets -merge x1
  exact (Keeps.upd hF h rfl rfl ⟨rfl, rfl⟩ rfl)

theorem endOps_keeps {s : State} {p : Nat} (hF : Touch.nothing.jobEnd.Le b.may) (h : Keeps b s) :
    Keeps b (State.endOps s p) := by
  delta State.endOps
  extract_lets -merge x1 x2
  have h2 : Keeps b x2 := by
    unfold x2
    refine keepsFold (Q := Keeps b) h fun _ _ h3 => ?_
    refine keepsFold (Q := Keeps b) h3 fun _ _ h4 => ?_
    split
    · exact (endOp_keeps (hF.sub rfl) h4)
    · exact (opDone_keeps (hF.sub rfl) h4)
  clear_value x2 x1
  refine keepsFold (Q := Keeps b) h2 fun _ _ h5 => ?_
  exact (endWithdrawal_keeps (hF.sub rfl) h5)

theorem scrubSlices_keeps {s : State} {p : Nat} (hF : Touch.nothing.jobs.mems.dram.Le b.may) (h : Keeps b s) :
    Keeps b (State.scrubSlices s p) := by
  delta State.scrubSlices
  extract_lets -merge x1 x3
  have h1 : Keeps b x1 := by
    unfold x1
    refine keepsFold (Q := Keeps b) h fun _ _ h2 => ?_
    exact (clearCells_keeps (hF.sub rfl) h2 _ _)
  clear_value x1
  exact (Keeps.upd hF h1 rfl rfl ⟨rfl, rfl⟩ rfl)

theorem returnVolumes_keeps {s : State} {p : Nat} (hF : Touch.nothing.flash.Le b.may) (h : Keeps b s) :
    Keeps b (State.returnVolumes s p) := by
  delta State.returnVolumes
  exact (Keeps.upd hF h rfl rfl ⟨rfl, rfl⟩ rfl)

theorem returnEngines_keeps {s : State} {p : Nat} (hF : Touch.nothing.engines.parts.mems.dram.Le b.may) (h : Keeps b s) :
    Keeps b (State.returnEngines s p) := by
  delta State.returnEngines
  extract_lets -merge x1 x2 x6 x7
  clear_value x1
  have h2 : Keeps b x2 := by
    unfold x2
    refine keepsFold (Q := Keeps b) h fun _ _ h3 => ?_
    extract_lets -merge x4 x5
    clear_value x4
    have h5 : Keeps b x5 := by
      unfold x5
      split
      · exact (scrubEngine_keeps (hF.sub rfl) h3)
      · exact h3
    clear_value x5
    exact (modEng_keeps (hF.sub rfl) h5)
  clear_value x2
  have h6 : Keeps b x6 := (modPart_keeps (hF.sub rfl) h2); clear_value x6
  clear_value x7
  exact (modPart_keeps (hF.sub rfl) h6)

theorem returnGranules_keeps {s : State} {p : Nat} (hF : Touch.nothing.parts.mems.dram.Le b.may) (h : Keeps b s) :
    Keeps b (State.returnGranules s p) := by
  delta State.returnGranules
  extract_lets -merge x1 x2
  have h2 : Keeps b x2 := by
    unfold x2
    refine keepsFold (Q := Keeps b) h fun _ _ h3 => ?_
    split
    · exact (cipherGranule_keeps (hF.sub rfl) h3)
    · exact (zeroGranule_keeps (hF.sub rfl) h3)
  clear_value x2
  exact (modPart_keeps (hF.sub rfl) h2)

theorem endPartition_keeps {s : State} {p : Nat} {keep : Nat} (hF : Touch.nothing.jobEnd.passage.Le b.may)
    (h : Keeps b s) :
    KSnd b (State.endPartition s p keep) := by
  delta State.endPartition
  extract_lets -merge x1 x3 x4 x6 x7 x8 x9
  have h1 : Keeps b x1 := by
    unfold x1
    refine keepsFold (Q := Keeps b) h fun _ _ h2 => ?_
    exact (disableQp_keeps (hF.sub rfl) h2)
  clear_value x1 x3
  have h4 : Keeps b x4 := by
    unfold x4
    refine endOps_keeps (hF.sub rfl) ?_
    refine keepsFold (Q := Keeps b) (scrubSlices_keeps (hF.sub rfl) h1) fun _ _ h5 => ?_
    exact (endSilently_keeps (hF.sub rfl) h5)
  clear_value x4
  have h7 : Keeps b x7 := (Keeps.upd hF h4 rfl rfl ⟨rfl, rfl⟩ rfl); clear_value x7
  have h8 : Keeps b x8 := (returnVolumes_keeps (hF.sub rfl) (returnEngines_keeps (hF.sub rfl) (returnGranules_keeps (hF.sub rfl) (dropObjects_keeps (hF.sub rfl) h7)))); clear_value x8
  have h9 : Keeps b x9 := (Keeps.upd hF h8 rfl rfl ⟨rfl, rfl⟩ (by simp +zetaDelta [State.shaped])); clear_value x9
  exact (keepsMkSnd (Keeps.upd hF h9 rfl rfl ⟨rfl, rfl⟩ (by simp +zetaDelta [State.shaped])))

theorem eraseVolume_keeps {s : State} {v : Volume} (hF : Touch.nothing.free.mems.flash.record.Le b.may) (h : Keeps b s) :
    KSnd b (State.eraseVolume s v) := by
  delta State.eraseVolume
  extract_lets -merge x1
  have h1 : KSnd b x1 := by
    unfold x1
    refine keepsFold (Q := KSnd b) h fun _ _ h2 => ?_
    extract_lets -merge x3
    clear_value x3
    split
    · exact (ownErase_keeps (hF.sub rfl) h2)
    · exact h2
  clear_value x1
  split
  · exact (keepsMkSnd (dropMarks_keeps (hF.sub rfl) h1))
  · exact h1

theorem eraseGone_keeps {s : State} {gone : List Volume} (hF : Touch.nothing.free.mems.flash.record.Le b.may)
    (h : Keeps b s) :
    KSnd b (State.eraseGone s gone) := by
  delta State.eraseGone
  refine keepsFold (Q := KSnd b) h fun _ _ h1 => ?_
  split
  · exact (eraseVolume_keeps (hF.sub rfl) h1)
  · exact h1

theorem quantumEnds_keeps {s : State} {e : Nat} {next : Nat} (hF : Touch.nothing.engines.mems.dram.siphon.Le b.may)
    (h : Keeps b s) :
    Keeps b (State.quantumEnds s e next) := by
  delta State.quantumEnds
  extract_lets -merge x1 x2 x3 x4
  clear_value x2 x3
  have h4 : Keeps b x4 := (modEng_keeps (hF.sub rfl) (scrubEngine_keeps (hF.sub rfl) h)); clear_value x4
  refine keepsFold (Q := Keeps b) (switchXfers_keeps (hF.sub rfl) h4) fun _ _ h5 => ?_
  exact (placeTask_keeps (hF.sub rfl) h5)

theorem runAttest_keeps {s : State} {j : Job} (hF : Touch.nothing.jobEnd.Le b.may) (h : Keeps b s) :
    Keeps b (State.runAttest s j) := by
  delta State.runAttest
  extract_lets -merge x1 x2 x3
  clear_value x1 x2 x3
  split
  · rename_i e
    have := KOpt.of (Q := Keeps b) e (by
        refine KOpt.or ?_ ?_
        · exact (blocked_keeps (hF.sub rfl) h)
        · exact (blockedOut_keeps (hF.sub rfl) h))
    exact (by assumption)
  · exact (finishUid_keeps (hF.sub rfl) (store_keeps (hF.sub rfl) (spWork_keeps (hF.sub rfl) h)))

theorem runCreate_keeps {s : State} {j : Job} (hF : Touch.nothing.jobEnd.Le b.may) (h : Keeps b s) :
    Keeps b (State.runCreate s j) := by
  delta State.runCreate
  extract_lets -merge x1 x2 x3
  clear_value x1 x2 x3
  split
  · have := KOpt.of (by assumption) (anyBlocked_keeps (hF.sub rfl) h)
    exact (by assumption)
  · split
    · exact (failJob_keeps (hF.sub rfl) h)
    · split
      · have := KOpt.of (by assumption) (blobBlocked_keeps (hF.sub rfl) h)
        exact (by assumption)
      · split
        · exact (failJob_keeps (hF.sub rfl) h)
        · split
          · have := keepsSnd (by assumption) (eraseGone_keeps (hF.sub rfl) h)
            exact (finishUid_keeps (hF.sub rfl) (applyCreate_keeps (hF.sub rfl) (by assumption)))
          · have := keepsSnd (by assumption) (eraseGone_keeps (hF.sub rfl) h)
            exact (failJob_keeps (hF.sub rfl) (by assumption))

theorem execAttest_keeps {uid : Nat} {s : State} (hF : Touch.nothing.jobEnd.Le b.may) (h : Keeps b s) :
    KOut b (execAttest uid s) := by
  delta execAttest
  refine KOut.next ?_
  split
  · have := KOpt.ofSnd (by assumption) (starting_keeps (hF.sub rfl) h)
    exact (runAttest_keeps (hF.sub rfl) (by assumption))
  · exact h

theorem execCreatePartition_keeps {uid : Nat} {s : State} (hF : Touch.nothing.jobEnd.Le b.may) (h : Keeps b s) :
    KOut b (execCreatePartition uid s) := by
  delta execCreatePartition
  refine KOut.next ?_
  split
  · have := KOpt.ofSnd (by assumption) (starting_keeps (hF.sub rfl) h)
    exact (runCreate_keeps (hF.sub rfl) (by assumption))
  · exact h

theorem execDestroyPartition_keeps {uid : Nat} {s : State} (hF : Touch.nothing.jobEnd.passage.Le b.may) (h : Keeps b s) :
    KOut b (execDestroyPartition uid s) := by
  delta execDestroyPartition
  refine KOut.next ?_
  split
  · exact h
  · have := KOpt.ofSnd (by assumption) (starting_keeps (hF.sub rfl) h)
    extract_lets -merge x1 x2
    clear_value x1
    have h2 : KSnd b x2 := (endPartition_keeps (hF.sub rfl) (by assumption)); clear_value x2
    split
    · exact (failJob_keeps (hF.sub rfl) (by assumption))
    · exact (finishUid_keeps (hF.sub rfl) h2)

theorem execQuantumExpiry_keeps {eng : Nat} {s : State} (hF : Touch.nothing.engines.mems.dram.siphon.Le b.may)
    (h : Keeps b s) :
    KOut b (execQuantumExpiry eng s) := by
  delta execQuantumExpiry
  extract_lets -merge x1
  refine KOut.next ?_
  split
  · exact h
  · extract_lets -merge x2 x3
    clear_value x2 x3
    split
    · split
      · exact (quantumEnds_keeps (hF.sub rfl) h)
      · exact h
    · exact h

end Sys2Proof.Machine
end

