-- ==== Sys2Proof/Laws/KeepSecurity.lean ====
section
/-! SUPPORT. What the operations of Machine/Security.lean keep (Laws/Keep.lean). -/

namespace Sys2Proof.Machine

variable {b : From}

theorem modRng_keeps {s : State} {f : Rng → Rng} (hF : Touch.nothing.sec.Le b.may) (h : Keeps b s) :
    Keeps b (State.modRng s f) := (Keeps.upd hF h rfl rfl ⟨rfl, rfl⟩ rfl)

theorem rngFails_keeps {s : State} (hF : Touch.nothing.sec.record.Le b.may) (h : Keeps b s) :
    Keeps b (State.rngFails s) := (modRng_keeps (hF.sub rfl) (raise_keeps (hF.sub rfl) h))

theorem rngRetest_keeps {s : State} (hF : Touch.nothing.sec.Le b.may) (h : Keeps b s) :
    Keeps b (State.rngRetest s) := by
  delta State.rngRetest
  split
  · exact (modRng_keeps (hF.sub rfl) h)
  · exact h

theorem serveQueue_keeps {s : State} (hF : Touch.nothing.passage.sec.Le b.may) (h : Keeps b s) :
    Keeps b (State.serveQueue s) := by
  delta State.serveQueue
  extract_lets -merge x1
  refine keepsFold (Q := Keeps b) (modRng_keeps (hF.sub rfl) h) fun _ _ h2 => ?_
  split
  · split
    · exact (tryKeys_keeps (hF.sub rfl) (sendKeyx_keeps (hF.sub rfl) h2))
    · exact h2
  · exact h2

theorem execCryptoSegment_keeps {s : State} (hF : Touch.nothing.sec.Le b.may) (h : Keeps b s) :
    KOut b (execCryptoSegment s) := by
  delta execCryptoSegment
  refine KOut.next ?_
  split
  · exact h
  · split
    · exact h
    · exact (Keeps.upd hF h rfl rfl ⟨rfl, rfl⟩ rfl)

theorem execDrbgReseed_keeps {s : State} (hF : Touch.nothing.sec.Le b.may) (h : Keeps b s) :
    KOut b (execDrbgReseed s) := by
  delta execDrbgReseed
  extract_lets -merge x1
  refine KOut.next ?_
  split
  · exact (modRng_keeps (hF.sub rfl) h)
  · exact h

theorem execRngHealthFail_keeps {s : State} (hF : Touch.nothing.sec.record.Le b.may) (h : Keeps b s) :
    KOut b (execRngHealthFail s) := by
  delta execRngHealthFail
  refine KOut.next ?_
  split
  · exact (modRng_keeps (hF.sub rfl) (raise_keeps (hF.sub rfl) h))
  · exact h

theorem execRngRetest_keeps {fn : Fn} {s : State} (hF : Touch.nothing.sec.Le b.may) (h : Keeps b s) :
    KOut b (execRngRetest fn s) := by
  delta execRngRetest
  refine KOut.next ?_
  split
  · exact (rngRetest_keeps (hF.sub rfl) h)
  · exact h

theorem execRngRetestEnd_keeps {passed : Bool} {s : State} (hF : Touch.nothing.passage.sec.record.Le b.may)
    (h : Keeps b s) :
    KOut b (execRngRetestEnd passed s) := by
  delta execRngRetestEnd
  refine KOut.next ?_
  split
  · split
    · exact (serveQueue_keeps (hF.sub rfl) h)
    · split
      · exact (modRng_keeps (hF.sub rfl) h)
      · exact (rngFails_keeps (hF.sub rfl) h)
  · exact h

end Sys2Proof.Machine
end

