-- ==== Sys2Proof/Laws/KeepDramCtl.lean ====
section
/-! SUPPORT. What the operations of Machine/DramCtl.lean keep (Laws/Keep.lean). -/

namespace Sys2Proof.Machine

variable {b : From}

theorem acceptReq_keeps {s : State} {ch : Nat} {r : Req} (hF : Touch.nothing.mems.dram.Le b.may) (h : Keeps b s) :
    Keeps b (State.acceptReq s ch r) := by
  delta State.acceptReq
  split
  · exact (modChan_keeps (hF.sub rfl) (put_keeps (hF.sub rfl) h _ _))
  · exact (modChan_keeps (hF.sub rfl) h)

theorem admitHeld_keeps {s : State} {ch : Nat} {x2 : Nat} (hF : Touch.nothing.mems.dram.Le b.may) (h : Keeps b s) :
    Keeps b (State.admitHeld s ch x2) := by
  induction x2 generalizing s with
  | zero => exact h
  | succ n ih =>
    simp only [State.admitHeld]
    split
    · exact h
    · exact ih (acceptReq_keeps (hF.sub rfl) (modDport_keeps (hF.sub rfl) h))

theorem answer_keeps {s : State} {port : Nat} {id : Nat} {data : Option (List Byte)} (hF : Touch.nothing.dram.Le b.may)
    (h : Keeps b s) :
    Keeps b (State.answer s port id data) := (modDport_keeps (hF.sub rfl) h)

theorem answerVision_keeps {s : State} {port : Nat} {lost : List Nat} (hF : Touch.nothing.jobEnd.Le b.may)
    (h : Keeps b s) :
    Keeps b (State.answerVision s port lost) := by
  delta State.answerVision
  extract_lets -merge x1 x2
  clear_value x2
  split
  · exact h
  · split
    · exact (failJob'_keeps (hF.sub rfl) (scramblePatches_keeps (hF.sub rfl) h))
    · exact h

theorem evalUrgency_keeps {s : State} (hF : Touch.nothing.dram.Le b.may) (h : Keeps b s) :
    Keeps b (State.evalUrgency s) := by
  delta State.evalUrgency
  exact (Keeps.upd hF h rfl rfl ⟨rfl, rfl⟩ (by simp +zetaDelta [State.shaped]))

theorem failRequests_keeps {s : State} {ch : Nat} (hF : Touch.nothing.dram.record.Le b.may) (h : Keeps b s) :
    Keeps b (State.failRequests s ch) := by
  delta State.failRequests
  extract_lets -merge x1 x2 x4 x5
  clear_value x1
  have h2 : Keeps b x2 := by
    unfold x2
    refine keepsFold (Q := Keeps b) h fun _ _ h3 => ?_
    exact (answer_keeps (hF.sub rfl) (raise_keeps (hF.sub rfl) h3))
  clear_value x2
  exact (modChan_keeps (hF.sub rfl) (Keeps.upd hF h2 rfl rfl ⟨rfl, rfl⟩ (by simp +zetaDelta [State.shaped])))

theorem faultIfFew_keeps {s : State} (hF : Touch.nothing.dev.smbus.Le b.may) (h : Keeps b s) :
    Keeps b (State.faultIfFew s) := by
  delta State.faultIfFew
  split
  · exact (setFault_keeps (hF.sub rfl) h)
  · exact h

theorem present_keeps {s : State} {r : Req} (hF : Touch.nothing.mems.dram.Le b.may) (h : Keeps b s) :
    Keeps b (State.present s r) := by
  delta State.present
  extract_lets -merge x1 x2
  clear_value x1 x2
  split
  · exact (modDport_keeps (hF.sub rfl) h)
  · exact (acceptReq_keeps (hF.sub rfl) h)

theorem issueReq_keeps {s : State} {port : Nat} {addr : Nat} {len : Nat} {write : Option (List Byte)} {scrub : Bool}
    {single : List Nat} {bad : List Nat} (hF : Touch.nothing.mems.dram.Le b.may) (h : Keeps b s) :
    Keeps b (State.issueReq s port addr len write scrub single bad) := by
  delta State.issueReq
  extract_lets -merge x1 x2 x3
  have h3 : Keeps b x3 := (Keeps.upd hF h rfl rfl ⟨rfl, rfl⟩ rfl); clear_value x3
  exact (present_keeps (hF.sub rfl) (modDport_keeps (hF.sub rfl) h3))

theorem leaveActive_keeps {s : State} {ch : Nat} (hF : Touch.nothing.faults.dram.Le b.may) (h : Keeps b s) :
    Keeps b (State.leaveActive s ch) := by
  delta State.leaveActive
  extract_lets -merge x1 x2
  have h1 : Keeps b x1 := (modChan_keeps (hF.sub rfl) h); clear_value x1
  exact (Keeps.upd hF h1 rfl rfl ⟨rfl, rfl⟩ rfl)

theorem revoke_keeps {s : State} {ch : Nat} (hF : Touch.nothing.dram.Le b.may) (h : Keeps b s) :
    Keeps b (State.revoke s ch) := by
  delta State.revoke
  extract_lets -merge x1
  clear_value x1
  split
  · exact h
  · split
    · exact h
    · split
      · exact (modChan_keeps (hF.sub rfl) h)
      · exact h

theorem reconsider_keeps {s : State} (hF : Touch.nothing.dram.Le b.may) (h : Keeps b s) :
    Keeps b (State.reconsider s) := by
  delta State.reconsider
  refine keepsFold (Q := Keeps b) (evalUrgency_keeps (hF.sub rfl) h) fun _ _ h1 => ?_
  exact (revoke_keeps (hF.sub rfl) h1)

theorem leaveQueue_keeps {s : State} {ch : Nat} {r : Req} (hF : Touch.nothing.mems.dram.Le b.may) (h : Keeps b s) :
    Keeps b (State.leaveQueue s ch r) := (reconsider_keeps (hF.sub rfl) (admitHeld_keeps (hF.sub rfl) (modChan_keeps (hF.sub rfl) h)))

theorem setBacked_keeps {s : State} (hF : Touch.nothing.dram.Le b.may) (h : Keeps b s) :
    Keeps b (State.setBacked s) := by
  delta State.setBacked
  exact (Keeps.upd hF h rfl rfl ⟨rfl, rfl⟩ rfl)

theorem rebuildDram_keeps {s : State} (hF : Touch.nothing.free.parts.kvs.seqs.slots.moves.mems.dram.Le b.may)
    (h : Keeps b s) :
    Keeps b (State.rebuildDram s) := by
  delta State.rebuildDram
  extract_lets -merge x1 x2 x4 x5
  have h1 : Keeps b x1 := (setBacked_keeps (hF.sub rfl) h); clear_value x1
  have h2 : Keeps b x2 := by
    unfold x2
    refine keepsFold (Q := Keeps b) h1 fun _ _ h3 => ?_
    exact (loseGranule_keeps (hF.sub rfl) h3)
  clear_value x2
  have h5 : Keeps b x5 := (Keeps.upd hF h2 rfl rfl ⟨rfl, rfl⟩ (by simp +zetaDelta [State.shaped])); clear_value x5
  refine keepsFold (Q := Keeps b) h5 fun _ _ h6 => ?_
  split
  · exact (reserveTables_keeps (hF.sub rfl) (dropObjects_keeps (hF.sub rfl) h6))
  · exact h6

theorem mapOutChannel_keeps {s : State} {ch : Nat} (hF : Touch.nothing.jobEnd.dev.trace.smbus.Le b.may) (h : Keeps b s) :
    Keeps b (State.mapOutChannel s ch) := by
  delta State.mapOutChannel
  extract_lets -merge x1
  have h1 : Keeps b x1 := (failAllJobs_keeps (hF.sub rfl) (failRequests_keeps (hF.sub rfl) (raise_keeps (hF.sub rfl) h))); clear_value x1
  split
  · exact (traceEvent_keeps (hF.sub rfl) (faultIfFew_keeps (hF.sub rfl) (rebuildDram_keeps (hF.sub rfl) (leaveActive_keeps (hF.sub rfl) h1))))
  · exact h

theorem runHelper_keeps {s : State} {ch : Nat} {v : Nat} (hF : Touch.nothing.free.dram.Le b.may) (h : Keeps b s) :
    Keeps b (State.runHelper s ch v) := by
  delta State.runHelper
  extract_lets -merge x1 x2 x3 x4
  clear_value x2 x3
  exact (Keeps.upd hF h rfl rfl ⟨rfl, rfl⟩ rfl)

theorem trainCommand_keeps {s : State} {v : Nat} (hF : Touch.nothing.free.dram.Le b.may) (h : Keeps b s) :
    Keeps b (State.trainCommand s v) := by
  delta State.trainCommand
  extract_lets -merge x1 x2 x3 x4 x5
  have h2 : Keeps b x2 := (Keeps.upd hF h rfl rfl ⟨rfl, rfl⟩ rfl); clear_value x2
  clear_value x3 x4
  split
  · exact h
  · split
    · exact h2
    · split
      · exact (Keeps.upd hF h2 rfl rfl ⟨rfl, rfl⟩ rfl)
      · exact (runHelper_keeps (hF.sub rfl) h2)

theorem wordErrors_keeps {s : State} {ch : Nat} {corrected : Nat} {bad : List Nat}
    (hF : Touch.nothing.dram.record.Le b.may) (h : Keeps b s) :
    Keeps b (State.wordErrors s ch corrected bad) := by
  delta State.wordErrors
  extract_lets -merge x1
  have h1 : Keeps b x1 := (modChan_keeps (hF.sub rfl) h); clear_value x1
  exact (reportWords_keeps (hF.sub rfl) h1)

theorem execChannelMapOut_keeps {ch : Nat} {s : State} (hF : Touch.nothing.jobEnd.dev.trace.smbus.Le b.may)
    (h : Keeps b s) :
    KOut b (execChannelMapOut ch s) := by
  delta execChannelMapOut
  refine KOut.next ?_
  split
  · exact (mapOutChannel_keeps (hF.sub rfl) h)
  · exact h

theorem execChannelRetrain_keeps {ch : Nat} {steps : List (List Sweep)} {s : State}
    (hF : Touch.nothing.jobEnd.dev.trace.smbus.Le b.may) (h : Keeps b s) :
    KOut b (execChannelRetrain ch steps s) := by
  delta execChannelRetrain
  refine KOut.next ?_
  split
  · split
    · exact (modChan_keeps (hF.sub rfl) h)
    · exact (mapOutChannel_keeps (hF.sub rfl) h)
  · exact h

theorem execCrossingGrant_keeps {ch : Nat} {s : State} (hF : Touch.nothing.dram.Le b.may) (h : Keeps b s) :
    KOut b (execCrossingGrant ch s) := by
  delta execCrossingGrant
  extract_lets -merge x1 x2 x3
  have h1 : Keeps b x1 := (evalUrgency_keeps (hF.sub rfl) h); clear_value x1
  clear_value x2 x3
  refine KOut.next ?_
  split
  · exact h
  · split
    · exact h1
    · extract_lets -merge x4
      clear_value x4
      exact (modChan_keeps (hF.sub rfl) h1)

theorem execDramReadComplete_keeps {ch : Nat} {single : List Nat} {bad : List Nat} {s : State}
    (hF : Touch.nothing.jobEnd.Le b.may) (h : Keeps b s) :
    KOut b (execDramReadComplete ch single bad s) := by
  delta execDramReadComplete
  refine KOut.next ?_
  split
  · exact h
  · extract_lets -merge x1 x2 x3 x4
    clear_value x1 x2 x3
    have h4 : Keeps b x4 := (wordErrors_keeps (hF.sub rfl) h); clear_value x4
    split
    · exact h
    · exact (answerVision_keeps (hF.sub rfl) (leaveQueue_keeps (hF.sub rfl) (answer_keeps (hF.sub rfl) h4)))

theorem execDramRequest_keeps {port : Nat} {addr : Nat} {len : Nat} {write : Option (List Byte)} {s : State}
    (hF : Touch.nothing.mems.dram.Le b.may) (h : Keeps b s) :
    KOut b (execDramRequest port addr len write s) := by
  delta execDramRequest
  refine KOut.next ?_
  split
  · exact (reconsider_keeps (hF.sub rfl) (issueReq_keeps (hF.sub rfl) h))
  · exact h

theorem execDramTrainGo_keeps {fn : Fn} {value : Word} {s : State} (hF : Touch.nothing.free.dram.Le b.may)
    (h : Keeps b s) :
    KOut b (execDramTrainGo fn value s) := by
  delta execDramTrainGo
  refine KOut.next ?_
  split
  · exact (trainCommand_keeps (hF.sub rfl) h)
  · exact h

theorem execDramTraining_keeps {found : List ChanTraining} {s : State}
    (hF : Touch.nothing.free.dev.faults.mems.dram.smbus.Le b.may) (h : Keeps b s) :
    KOut b (execDramTraining found s) := by
  delta execDramTraining
  extract_lets -merge x1 x2 x3 x4 x5 x6 x7
  have h2 : Keeps b x2 := (loseDram_keeps (hF.sub rfl) h); clear_value x2
  clear_value x4
  have h7 : Keeps b x7 := (Keeps.upd hF h2 rfl rfl ⟨rfl, rfl⟩ (by simp +zetaDelta [State.shaped])); clear_value x7
  clear_value x1
  refine KOut.next ?_
  split
  · refine faultIfFew_keeps (hF.sub rfl) ?_
    refine keepsFold (Q := Keeps b) (setBacked_keeps (hF.sub rfl) h7) fun _ _ h8 => ?_
    exact (later_keeps (hF.sub rfl) h8)
  · exact h

theorem execDramWriteComplete_keeps {ch : Nat} {single : List Nat} {bad : List Nat} {s : State}
    (hF : Touch.nothing.mems.dram.record.Le b.may) (h : Keeps b s) :
    KOut b (execDramWriteComplete ch single bad s) := by
  delta execDramWriteComplete
  refine KOut.next ?_
  split
  · exact h
  · extract_lets -merge x1 x2 x3 x4 x5 x6 x7 x8
    clear_value x2 x3 x4
    have h5 : Keeps b x5 := (wordErrors_keeps (hF.sub rfl) h); clear_value x5
    clear_value x6
    have h8 : Keeps b x8 := (Keeps.upd hF h5 rfl rfl ⟨rfl, rfl⟩ rfl); clear_value x8
    clear_value x1
    split
    · exact h
    · exact (leaveQueue_keeps (hF.sub rfl) (answer_keeps (hF.sub rfl) h8))

theorem execDriftTrack_keeps {ch : Nat} {drift : Int} {s : State} (hF : Touch.nothing.dram.Le b.may) (h : Keeps b s) :
    KOut b (execDriftTrack ch drift s) := by
  delta execDriftTrack
  refine KOut.next ?_
  split
  · exact (modChan_keeps (hF.sub rfl) h)
  · exact h

theorem execPatrolScrub_keeps {ch : Nat} {unit : Nat} {single : List Nat} {bad : List Nat} {s : State}
    (hF : Touch.nothing.mems.dram.Le b.may) (h : Keeps b s) :
    KOut b (execPatrolScrub ch unit single bad s) := by
  delta execPatrolScrub
  extract_lets -merge x1
  clear_value x1
  refine KOut.next ?_
  split
  · exact (reconsider_keeps (hF.sub rfl) (modChan_keeps (hF.sub rfl) (issueReq_keeps (hF.sub rfl) h)))
  · exact h

theorem execPerBankRefresh_keeps {ch : Nat} {s : State} (hF : Touch.nothing.dram.Le b.may) (h : Keeps b s) :
    KOut b (execPerBankRefresh ch s) := by
  delta execPerBankRefresh
  extract_lets -merge x1
  refine KOut.next ?_
  split
  · exact (modChan_keeps (hF.sub rfl) h)
  · exact h

theorem execPowerDownEntry_keeps {ch : Nat} {s : State} (hF : Touch.nothing.dram.Le b.may) (h : Keeps b s) :
    KOut b (execPowerDownEntry ch s) := by
  delta execPowerDownEntry
  refine KOut.next ?_
  split
  · exact (modChan_keeps (hF.sub rfl) h)
  · exact h

theorem execRefreshManagement_keeps {ch : Nat} {bank : Nat} {s : State} (hF : Touch.nothing.dram.Le b.may)
    (h : Keeps b s) :
    KOut b (execRefreshManagement ch bank s) := by
  delta execRefreshManagement
  refine KOut.next ?_
  split
  · exact (modChan_keeps (hF.sub rfl) h)
  · exact h

theorem execTempReadout_keeps {readings : List (Nat × Bool)} {s : State} (hF : Touch.nothing.dram.power.record.Le b.may)
    (h : Keeps b s) :
    KOut b (execTempReadout readings s) := by
  delta execTempReadout
  extract_lets -merge x1 x2 x4 x5 x6
  clear_value x1
  have h2 : Keeps b x2 := by
    unfold x2
    refine keepsFold (Q := Keeps b) h fun _ _ h3 => ?_
    exact (raise_keeps (hF.sub rfl) h3)
  clear_value x2 x4
  exact (KOut.next (Keeps.upd hF h2 rfl rfl ⟨rfl, rfl⟩ rfl))

theorem execUrgencyChange_keeps {port : Nat} {s : State} (hF : Touch.nothing.dram.Le b.may) (h : Keeps b s) :
    KOut b (execUrgencyChange port s) := by
  delta execUrgencyChange
  refine KOut.next ?_
  split
  · exact (reconsider_keeps (hF.sub rfl) h)
  · exact h

end Sys2Proof.Machine
end

