-- ==== Sys2Proof/Laws/KeepEchoUnit.lean ====
section
/-! SUPPORT. What the operations of Machine/EchoUnit.lean keep (Laws/Keep.lean). -/

namespace Sys2Proof.Machine

variable {b : From}

theorem queueUnit_keeps {s : State} {u : EchoUnit} (hF : Touch.nothing.echo.Le b.may) (h : Keeps b s) :
    Keeps b (State.queueUnit s u) := (Keeps.upd hF h rfl rfl ⟨rfl, rfl⟩ rfl)

theorem queueSearch_keeps {s : State} {j : Job} (hF : Touch.nothing.echo.Le b.may) (h : Keeps b s) :
    Keeps b (State.queueSearch s j) := (queueUnit_keeps (hF.sub rfl) h)

theorem endSearch_keeps {s : State} {j : Job} {x : SearchSt} (hF : Touch.nothing.jobEnd.Le b.may) (h : Keeps b s) :
    Keeps b (State.endSearch s j x) := by
  delta State.endSearch
  extract_lets -merge x1
  clear_value x1
  split
  · have := KOpt.of (by assumption) (blockedOut_keeps (hF.sub rfl) h)
    exact (by assumption)
  · exact (finishUid_keeps (hF.sub rfl) (store_keeps (hF.sub rfl) h))

theorem afterChunk_keeps {s : State} {j : Job} {x2 : SearchHdr} {x : SearchSt} {area : Nat}
    (hF : Touch.nothing.jobEnd.Le b.may) (h : Keeps b s) :
    Keeps b (State.afterChunk s j x2 x area) := by
  delta State.afterChunk
  extract_lets -merge x1 x2
  have h2 : Keeps b x2 := (modJob_keeps (hF.sub rfl) h); clear_value x2
  split
  · split
    · exact (queueSearch_keeps (hF.sub rfl) h2)
    · exact h2
  · exact (endSearch_keeps (hF.sub rfl) h2)

theorem modRetrieval_keeps {s : State} {uid : Nat} {seq : Nat} {layer : Nat} {head : Nat} {f : Retrieval → Retrieval}
    (hF : Touch.nothing.echo.Le b.may) (h : Keeps b s) :
    Keeps b (State.modRetrieval s uid seq layer head f) := (Keeps.upd hF h rfl rfl ⟨rfl, rfl⟩ rfl)

theorem finishList_keeps {s : State} {u : EchoUnit} {j : Job} {q : Seq} {layer : Nat} {head : Nat} {pages : List Nat}
    (hF : Touch.nothing.jobEnd.Le b.may) (h : Keeps b s) :
    Keeps b (State.finishList s u j q layer head pages) := by
  delta State.finishList
  split
  · exact (failJob'_keeps (hF.sub rfl) h)
  · have := KOpt.ofSnd (by assumption) (placeList_keeps (hF.sub rfl) h)
    extract_lets -merge x1
    have h1 : Keeps b x1 := (modRetrieval_keeps (hF.sub rfl) (by assumption)); clear_value x1
    split
    · exact (signal_keeps (hF.sub rfl) h1)
    · exact h1

theorem traceSelect_keeps {s : State} {u : EchoUnit} {q : Seq} {layer : Nat} {head : Nat} {pages : List Nat}
    (hF : Touch.nothing.mems.dram.trace.Le b.may) (h : Keeps b s) :
    Keeps b (State.traceSelect s u q layer head pages) := by
  delta State.traceSelect
  extract_lets -merge x1
  clear_value x1
  split
  · exact h
  · exact (tracePart_keeps (hF.sub rfl) h)

theorem wantChosen_keeps {s : State} {u : EchoUnit} {d : Nat} {layer : Nat} {head : Nat} {seq : Nat} {n : Nat} {i : Nat}
    (hF : Touch.nothing.jobs.parts.kvs.moves.mems.echo.dram.siphon.trace.replay.record.Le b.may) (h : Keeps b s) :
    Keeps b (State.wantChosen s u d layer head seq n i) := (wantPage_keeps (hF.sub rfl) h)

theorem level0Scan_keeps {s : State} {u : EchoUnit} {d : Nat} {seq : Nat} {layer : Nat} {head : Nat} {met : EchoMet}
    (hF : Touch.nothing.jobEnd.trace.replay.Le b.may) (h : Keeps b s) :
    Keeps b (State.level0Scan s u d seq layer head met) := by
  delta State.level0Scan
  extract_lets -merge x1 x2 x3
  clear_value x1 x2 x3
  split
  · extract_lets -merge x4 x5 x6 x7 x8 x9 x11
    clear_value x4 x6 x7 x8
    have h9 : Keeps b x9 := by
      unfold x9
      refine keepsFold (Q := Keeps b) h fun _ _ h10 => ?_
      split
      · exact (dramWordError_keeps (hF.sub rfl) h10)
      · exact (reportWords_keeps (hF.sub rfl) h10)
    clear_value x9
    have h11 : Keeps b x11 := (finishList_keeps (hF.sub rfl) (traceSelect_keeps (hF.sub rfl) h9)); clear_value x11
    clear_value x5
    refine keepsFold (Q := Keeps b) h11 fun _ _ h12 => ?_
    split
    · exact (wantChosen_keeps (hF.sub rfl) h12)
    · exact h12
  · exact h

theorem level1Scan_keeps {s : State} {u : EchoUnit} {seq : Nat} {layer : Nat} {head : Nat} {met : EchoMet}
    (hF : Touch.nothing.echo.dram.record.Le b.may) (h : Keeps b s) :
    Keeps b (State.level1Scan s u seq layer head met) := by
  delta State.level1Scan
  extract_lets -merge x1
  clear_value x1
  split
  · extract_lets -merge x2 x3 x4 x5 x6 x7
    clear_value x2 x3 x4 x6
    have h7 : Keeps b x7 := by
      unfold x7
      refine keepsFold (Q := Keeps b) h fun _ _ h8 => ?_
      split
      · exact (dramWordError_keeps (hF.sub rfl) h8)
      · exact (reportWords_keeps (hF.sub rfl) h8)
    clear_value x7 x5
    exact (queueUnit_keeps (hF.sub rfl) (modRetrieval_keeps (hF.sub rfl) h7))
  · exact h

theorem resumeSearch_keeps {s : State} {j : Job} {area : Nat} (hF : Touch.nothing.jobEnd.Le b.may) (h : Keeps b s) :
    Keeps b (State.resumeSearch s j area) := by
  delta State.resumeSearch
  split
  · have := KOpt.of (by assumption) (blocked_keeps (hF.sub rfl) h)
    exact (by assumption)
  · exact (queueSearch_keeps (hF.sub rfl) (modJob_keeps (hF.sub rfl) h))

theorem searchUnit_keeps {s : State} {j : Job} {x : SearchSt} {area : Nat} {met : EchoMet}
    (hF : Touch.nothing.jobEnd.Le b.may) (h : Keeps b s) :
    Keeps b (State.searchUnit s j x area met) := by
  delta State.searchUnit
  extract_lets -merge x1 x2 x3 x4 x5 x6
  clear_value x2 x3 x4
  have h6 : Keeps b x6 := (Keeps.upd hF h rfl rfl ⟨rfl, rfl⟩ rfl); clear_value x6
  split
  · exact (failJob'_keeps (hF.sub rfl) (dramWordError_keeps (hF.sub rfl) h))
  · split
    · have := KOpt.of (by assumption) (blocked_keeps (hF.sub rfl) h)
      exact (by assumption)
    · split
      · exact (failJob'_keeps (hF.sub rfl) (reportWords_keeps (hF.sub rfl) h))
      · exact (afterChunk_keeps (hF.sub rfl) (raiseMany_keeps (hF.sub rfl) h6))

theorem runUnit_keeps {s : State} {u : EchoUnit} {met : EchoMet} {d : Nat}
    (hF : Touch.nothing.jobEnd.trace.replay.Le b.may) (h : Keeps b s) :
    Keeps b (State.runUnit s u met d) := by
  delta State.runUnit
  split
  · exact (failJob'_keeps (hF.sub rfl) (raise_keeps (hF.sub rfl) h))
  · split
    · exact (level1Scan_keeps (hF.sub rfl) h)
    · exact (level0Scan_keeps (hF.sub rfl) h)
    · split
      · split
        · exact (searchUnit_keeps (hF.sub rfl) h)
        · exact h
      · exact h

theorem startSearch_keeps {s : State} {j : Job} (hF : Touch.nothing.jobEnd.Le b.may) (h : Keeps b s) :
    Keeps b (State.startSearch s j) := by
  delta State.startSearch
  extract_lets -merge x1
  split
  · have := KOpt.of (by assumption) (blocked_keeps (hF.sub rfl) h)
    exact (by assumption)
  · split
    · exact (failJob_keeps (hF.sub rfl) h)
    · split
      · exact (failJob_keeps (hF.sub rfl) h)
      · have := KOpt.ofSnd (by assumption) (allocFrame_keeps (hF.sub rfl) h)
        exact (queueSearch_keeps (hF.sub rfl) (modJob_keeps (hF.sub rfl) (by assumption)))

theorem execEchoAging_keeps {s : State} (hF : Touch.nothing.echo.Le b.may) (h : Keeps b s) :
    KOut b (execEchoAging s) := (KOut.next (Keeps.upd hF h rfl rfl ⟨rfl, rfl⟩ rfl))

theorem execEchoSearch_keeps {uid : Nat} {s : State} (hF : Touch.nothing.jobEnd.Le b.may) (h : Keeps b s) :
    KOut b (execEchoSearch uid s) := by
  delta execEchoSearch
  refine KOut.next ?_
  split
  · exact h
  · have := KOpt.ofSnd (by assumption) (starting_keeps (hF.sub rfl) h)
    split
    · exact (resumeSearch_keeps (hF.sub rfl) (by assumption))
    · exact (startSearch_keeps (hF.sub rfl) (by assumption))

theorem execEchoWorkUnit_keeps {run : EchoRun} {s : State} (hF : Touch.nothing.jobEnd.trace.replay.Le b.may)
    (h : Keeps b s) :
    KOut b (execEchoWorkUnit run s) := by
  delta execEchoWorkUnit
  extract_lets -merge x1
  refine KOut.next ?_
  split
  · exact h
  · extract_lets -merge x2
    have h2 : Keeps b x2 := (Keeps.upd hF h rfl rfl ⟨rfl, rfl⟩ rfl); clear_value x2
    exact (runUnit_keeps (hF.sub rfl) h2)

end Sys2Proof.Machine
end

