-- ==== Sys2Proof/Laws/KeepVisionIntake.lean ====
section
/-! SUPPORT. What the operations of Machine/VisionIntake.lean keep (Laws/Keep.lean). -/

namespace Sys2Proof.Machine

variable {b : From}

theorem copyRows_keeps {s : State} {v : VHdr} {a : Nat} {x3 : Nat} (hF : Touch.nothing.mems.dram.record.Le b.may)
    (h : Keeps b s) :
    Keeps b (State.copyRows s v a x3) := by
  delta State.copyRows
  extract_lets -merge x1
  have h1 : Keeps b x1 := by
    unfold x1
    refine keepsFold (Q := Keeps b) h fun _ _ h2 => ?_
    exact (store_keeps (hF.sub rfl) h2)
  clear_value x1
  split
  · exact h1
  · refine keepsFold (Q := Keeps b) h1 fun _ _ h3 => ?_
    exact (store_keeps (hF.sub rfl) h3)

theorem endVision_keeps {s : State} {uid : Nat} {result : Nat}
    (hF : Touch.nothing.free.qps.jobs.engines.counters.ctrBlocks.kvs.slots.vision.Le b.may) (h : Keeps b s) :
    Keeps b (State.endVision s uid result) := (finishUid_keeps (hF.sub rfl) (Keeps.upd hF h rfl rfl ⟨rfl, rfl⟩ rfl))

theorem startVision_keeps {s : State} {j : Job} (hF : Touch.nothing.jobEnd.Le b.may) (h : Keeps b s) :
    Keeps b (State.startVision s j) := by
  delta State.startVision
  extract_lets -merge x1 x2 x3 x4 x5
  clear_value x2 x3
  have h4 : Keeps b x4 := (modJob_keeps (hF.sub rfl) h); clear_value x4
  split
  · have := KOpt.of (by assumption) (blocked_keeps (hF.sub rfl) h)
    exact (by assumption)
  · split
    · exact (failJob_keeps (hF.sub rfl) h)
    · split
      · exact (failJob_keeps (hF.sub rfl) (reportWords_keeps (hF.sub rfl) h))
      · split
        · exact (failJob_keeps (hF.sub rfl) h)
        · exact (Keeps.upd hF h4 rfl rfl ⟨rfl, rfl⟩ rfl)

theorem writePatch_keeps {s : State} {v : VHdr} {out : Nat} {k : Nat}
    (hF : Touch.nothing.mems.vision.dram.record.Le b.may) (h : Keeps b s) :
    Keeps b (State.writePatch s v out k) := by
  delta State.writePatch
  extract_lets -merge x1 x2 x3 x4 x5
  clear_value x1 x2
  have h3 : Keeps b x3 := (store_keeps (hF.sub rfl) h); clear_value x3
  have h4 : Keeps b x4 := (store_keeps (hF.sub rfl) h3); clear_value x4
  split
  · exact (Keeps.upd hF h4 rfl rfl ⟨rfl, rfl⟩ rfl)
  · exact h3

theorem execLateDataDiscard_keeps {s : State} (hF : Touch.nothing.vision.Le b.may) (h : Keeps b s) :
    KOut b (execLateDataDiscard s) := (KOut.next (Keeps.upd hF h rfl rfl ⟨rfl, rfl⟩ rfl))

theorem execProgressPoll_keeps {s : State} (hF : Touch.nothing.jobEnd.Le b.may) (h : Keeps b s) :
    KOut b (execProgressPoll s) := by
  delta execProgressPoll
  extract_lets -merge x1 x2 x3 x4 x5 x6 x7
  clear_value x2 x3 x4
  have h6 : Keeps b x6 := (Keeps.upd hF h rfl rfl ⟨rfl, rfl⟩ rfl); clear_value x6
  refine KOut.next ?_
  split
  · exact h
  · split
    · exact h
    · split
      · exact (failJob'_keeps (hF.sub rfl) h)
      · split
        · exact (Keeps.upd hF h6 rfl rfl ⟨rfl, rfl⟩ rfl)
        · exact h6

theorem execStallTimeout_keeps {s : State}
    (hF : Touch.nothing.free.qps.jobs.engines.counters.ctrBlocks.kvs.slots.vision.record.Le b.may) (h : Keeps b s) :
    KOut b (execStallTimeout s) := by
  delta execStallTimeout
  refine KOut.next ?_
  split
  · exact h
  · extract_lets -merge x1 x2 x3
    have h1 : Keeps b x1 := (raise_keeps (hF.sub rfl) h); clear_value x1
    have h3 : Keeps b x3 := (Keeps.upd hF h1 rfl rfl ⟨rfl, rfl⟩ rfl); clear_value x3
    split
    · exact (endVision_keeps (hF.sub rfl) h3)
    · exact h

theorem execVisionBurst_keeps {linkDown : Bool} {s : State} (hF : Touch.nothing.jobEnd.Le b.may) (h : Keeps b s) :
    KOut b (execVisionBurst linkDown s) := by
  delta execVisionBurst
  extract_lets -merge x1 x2 x3 x4 x5
  clear_value x2 x3
  have h4 : Keeps b x4 := (copyRows_keeps (hF.sub rfl) h); clear_value x4
  refine KOut.next ?_
  split
  · exact h
  · split
    · exact h
    · split
      · exact (failJob'_keeps (hF.sub rfl) h)
      · split
        · exact (failJob'_keeps (hF.sub rfl) (reportWords_keeps (hF.sub rfl) h))
        · exact (Keeps.upd hF h4 rfl rfl ⟨rfl, rfl⟩ rfl)

theorem execVisionFrame_keeps {uid : Nat} {s : State} (hF : Touch.nothing.jobEnd.Le b.may) (h : Keeps b s) :
    KOut b (execVisionFrame uid s) := by
  delta execVisionFrame
  refine KOut.next ?_
  split
  · exact h
  · split
    · exact h
    · have := KOpt.ofSnd (by assumption) (starting_keeps (hF.sub rfl) h)
      exact (startVision_keeps (hF.sub rfl) (by assumption))

theorem execWarpPatch_keeps {uncorrectable : Bool} {s : State} (hF : Touch.nothing.jobEnd.Le b.may) (h : Keeps b s) :
    KOut b (execWarpPatch uncorrectable s) := by
  delta execWarpPatch
  extract_lets -merge x1 x2
  clear_value x2
  refine KOut.next ?_
  split
  · exact h
  · split
    · exact h
    · split
      · exact (failJob'_keeps (hF.sub rfl) (scramblePatches_keeps (hF.sub rfl) (dramWordError_keeps (hF.sub rfl) h)))
      · split
        · exact (failJob'_keeps (hF.sub rfl) (scramblePatches_keeps (hF.sub rfl) (reportWords_keeps (hF.sub rfl) h)))
        · refine endVision_keeps (hF.sub rfl) ?_
          refine keepsFold (Q := Keeps b) h fun _ _ h3 => ?_
          exact (writePatch_keeps (hF.sub rfl) h3)

end Sys2Proof.Machine
end

