-- ==== Sys2Proof/Laws/KeepPowerMgr.lean ====
section
/-! SUPPORT. What the operations of Machine/PowerMgr.lean keep (Laws/Keep.lean). -/

namespace Sys2Proof.Machine

variable {b : From}

theorem applyOpp_keeps {s : State} (hF : Touch.nothing.engines.Le b.may) (h : Keeps b s) :
    Keeps b (State.applyOpp s) := by
  delta State.applyOpp
  exact (Keeps.upd hF h rfl rfl ⟨rfl, rfl⟩ (by simp +zetaDelta [State.shaped]))

theorem setFallback_keeps {s : State} {ds : List Nat} (hF : Touch.nothing.faults.drip.Le b.may) (h : Keeps b s) :
    Keeps b (State.setFallback s ds) := by
  delta State.setFallback
  extract_lets -merge x1 x2 x3
  clear_value x1
  exact (Keeps.upd hF h rfl rfl ⟨rfl, rfl⟩ rfl)

theorem dripJudge_keeps {s : State} (hF : Touch.nothing.dev.drip.record.Le b.may) (h : Keeps b s) :
    Keeps b (State.dripJudge s) := by
  delta State.dripJudge
  extract_lets -merge x1 x2 x3 x4 x5 x6 x7 x8 x9 x10
  clear_value x1 x2 x3 x4 x5 x6
  have h8 : Keeps b x8 := (Keeps.upd hF h rfl rfl ⟨rfl, rfl⟩ rfl); clear_value x8
  have h9 : Keeps b x9 := (setFallback_keeps (hF.sub rfl) h8); clear_value x9
  have h10 : Keeps b x10 := by
    unfold x10
    split
    · exact (report_keeps (hF.sub rfl) h9)
    · exact h9
  clear_value x10
  split
  · exact h
  · refine keepsFold (Q := Keeps b) h10 fun _ _ h11 => ?_
    exact (report_keeps (hF.sub rfl) h11)

theorem setMargin_keeps {s : State} {d : Nat} {v : Nat} (hF : Touch.nothing.flash.Le b.may) (h : Keeps b s) :
    Keeps b (State.setMargin s d v) := by
  delta State.setMargin
  exact (Keeps.upd hF h rfl rfl ⟨rfl, rfl⟩ rfl)

theorem dripRaise_keeps {s : State} {poll : List DripFrame} {d : Nat} (hF : Touch.nothing.flash.drip.Le b.may)
    (h : Keeps b s) :
    Keeps b (State.dripRaise s poll d) := by
  delta State.dripRaise
  extract_lets -merge x1 x2 x3
  clear_value x1
  have h2 : Keeps b x2 := (setMargin_keeps (hF.sub rfl) h); clear_value x2
  split
  · exact (Keeps.upd hF h2 rfl rfl ⟨rfl, rfl⟩ rfl)
  · exact h

theorem dripPoll_keeps {s : State} {frames : List DripFrame} (hF : Touch.nothing.dev.flash.drip.record.Le b.may)
    (h : Keeps b s) :
    Keeps b (State.dripPoll s frames) := by
  delta State.dripPoll
  extract_lets -merge x1 x2
  have h2 : Keeps b x2 := (dripJudge_keeps (hF.sub rfl) (Keeps.upd hF h rfl rfl ⟨rfl, rfl⟩ rfl)); clear_value x2
  refine keepsFold (Q := Keeps b) h2 fun _ _ h3 => ?_
  exact (dripRaise_keeps (hF.sub rfl) h3)

theorem enterLevel_keeps {s : State} {l : Level} (hF : Touch.nothing.dev.engines.power.smbus.record.Le b.may)
    (h : Keeps b s) :
    Keeps b (State.enterLevel s l) := by
  delta State.enterLevel
  extract_lets -merge x1 x2 x3 x4 x5 x6 x7 x8 x9
  clear_value x1
  have h3 : Keeps b x3 := (Keeps.upd hF h rfl rfl ⟨rfl, rfl⟩ rfl); clear_value x3
  clear_value x5
  have h8 : Keeps b x8 := by
    unfold x8
    split
    · exact (Keeps.upd hF h3 rfl rfl ⟨rfl, rfl⟩ rfl)
    · exact h3
  clear_value x8
  have h9 : Keeps b x9 := by
    unfold x9
    split
    · exact (Keeps.upd hF h8 rfl rfl ⟨rfl, rfl⟩ (by simp +zetaDelta [State.shaped]))
    · exact h8
  clear_value x9
  split
  · exact (report_keeps (hF.sub rfl) h9)
  · exact h9

theorem modDomain_keeps {s : State} {e : Nat} {f : Domain → Domain} (hF : Touch.nothing.engines.Le b.may)
    (h : Keeps b s) :
    Keeps b (State.modDomain s e f) := (modEng_keeps (hF.sub rfl) h)

theorem moveThermalCap_keeps {s : State} (hF : Touch.nothing.power.Le b.may) (h : Keeps b s) :
    Keeps b (State.moveThermalCap s) := by
  delta State.moveThermalCap
  extract_lets -merge x1 x2 x3 x4
  clear_value x1 x3
  split
  · exact h
  · extract_lets -merge x5
    clear_value x5
    exact (Keeps.upd hF h rfl rfl ⟨rfl, rfl⟩ rfl)

theorem seeEmergency_keeps {s : State} (hF : Touch.nothing.power.Le b.may) (h : Keeps b s) :
    Keeps b (State.seeEmergency s) := (Keeps.upd hF h rfl rfl ⟨rfl, rfl⟩ rfl)

theorem noteEmergency_keeps {s : State} (hF : Touch.nothing.power.record.Le b.may) (h : Keeps b s) :
    Keeps b (State.noteEmergency s) := by
  delta State.noteEmergency
  extract_lets -merge x1
  clear_value x1
  split
  · exact (raise_keeps (hF.sub rfl) (seeEmergency_keeps (hF.sub rfl) h))
  · exact (seeEmergency_keeps (hF.sub rfl) h)

theorem notePower_keeps {s : State} {d : PowerDemand} {g : PowerShares} (hF : Touch.nothing.power.Le b.may)
    (h : Keeps b s) :
    Keeps b (State.notePower s d g) := (Keeps.upd hF h rfl rfl ⟨rfl, rfl⟩ rfl)

theorem raisePart_keeps {s : State} {p : Nat} (hF : Touch.nothing.engines.Le b.may) (h : Keeps b s) :
    Keeps b (State.raisePart s p) := by
  delta State.raisePart
  extract_lets -merge x1
  clear_value x1
  split
  · split
    · exact (modEng_keeps (hF.sub rfl) h)
    · exact h
  · refine keepsFold (Q := Keeps b) h fun _ _ h2 => ?_
    exact (modEng_keeps (hF.sub rfl) h2)

theorem riseAll_keeps {x0 : Nat} {x1 : Nat} {x2 : Nat} {x3 : List Nat} {x4 : State}
    (hF : Touch.nothing.engines.power.Le b.may) (h : Keeps b x4) :
    Keeps b (State.riseAll x0 x1 x2 x3 x4) := by
  induction x0 generalizing x2 x3 x4 with
  | zero => exact h
  | succ n ih =>
    simp only [State.riseAll]
    split
    · exact h
    · split
      · exact h
      · exact ih (Keeps.upd hF (modEng_keeps (hF.sub rfl) h) rfl rfl ⟨rfl, rfl⟩ rfl)

theorem rise_keeps {s : State} (hF : Touch.nothing.engines.power.Le b.may) (h : Keeps b s) :
    Keeps b (State.rise s) := by
  delta State.rise
  extract_lets -merge x1 x2 x3
  clear_value x1
  have h2 : Keeps b x2 := (riseAll_keeps (hF.sub rfl) h); clear_value x2
  exact (Keeps.upd hF h2 rfl rfl ⟨rfl, rfl⟩ rfl)

theorem ramped_keeps {s : State} {e : Nat} (hF : Touch.nothing.engines.power.Le b.may) (h : Keeps b s) :
    Keeps b (State.ramped s e) := by
  delta State.ramped
  extract_lets -merge x1 x2
  clear_value x1
  have h2 : Keeps b x2 := (modDomain_keeps (hF.sub rfl) (rise_keeps (hF.sub rfl) h)); clear_value x2
  exact (modEng_keeps (hF.sub rfl) h2)

theorem setLevel_keeps {s : State} {hot : Nat} {sensor : Nat}
    (hF : Touch.nothing.dev.engines.power.smbus.record.Le b.may) (h : Keeps b s) :
    Keeps b (State.setLevel s hot sensor) := by
  delta State.setLevel
  extract_lets -merge x1 x2 x3
  have h2 : Keeps b x2 := (Keeps.upd hF h rfl rfl ⟨rfl, rfl⟩ rfl); clear_value x2
  clear_value x3
  split
  · exact h2
  · exact (enterLevel_keeps (hF.sub rfl) h2)

theorem setRail_keeps {s : State} {n : Nat} {low : Option Nat} (hF : Touch.nothing.power.Le b.may) (h : Keeps b s) :
    Keeps b (State.setRail s n low) := (Keeps.upd hF h rfl rfl ⟨rfl, rfl⟩ rfl)

theorem switchOff_keeps {s : State} {e : Nat} (hF : Touch.nothing.free.engines.mems.dram.Le b.may) (h : Keeps b s) :
    Keeps b (State.switchOff s e) := by
  delta State.switchOff
  split
  · exact (modEng_keeps (hF.sub rfl) (scramble_keeps (hF.sub rfl) h))
  · exact (modDomain_keeps (hF.sub rfl) h)

theorem shortOut_keeps {s : State} {e : Nat} (hF : Touch.nothing.jobEnd.dev.trace.smbus.Le b.may) (h : Keeps b s) :
    Keeps b (State.shortOut s e) := (switchOff_keeps (hF.sub rfl) (mapOutEngine_keeps (hF.sub rfl) (raise_keeps (hF.sub rfl) h)))

theorem slowPart_keeps {s : State} {p : Nat} (hF : Touch.nothing.engines.power.Le b.may) (h : Keeps b s) :
    Keeps b (State.slowPart s p) := by
  delta State.slowPart
  split
  · extract_lets -merge x1 x2
    have h1 : Keeps b x1 := (modEng_keeps (hF.sub rfl) h); clear_value x1
    exact (Keeps.upd hF h1 rfl rfl ⟨rfl, rfl⟩ rfl)
  · refine keepsFold (Q := Keeps b) h fun _ _ h3 => ?_
    exact (modEng_keeps (hF.sub rfl) h3)

theorem stepLimits_keeps {s : State} {d : PowerDemand} {got : List Nat} (hF : Touch.nothing.engines.power.Le b.may)
    (h : Keeps b s) :
    Keeps b (State.stepLimits s d got) := by
  delta State.stepLimits
  split
  · exact h
  · refine keepsFold (Q := Keeps b) (applyOpp_keeps (hF.sub rfl) h) fun _ _ h1 => ?_
    split
    · exact (slowPart_keeps (hF.sub rfl) h1)
    · exact (raisePart_keeps (hF.sub rfl) h1)

theorem writeCap_keeps {s : State} {v : Nat} (hF : Touch.nothing.power.Le b.may) (h : Keeps b s) :
    Keeps b (State.writeCap s v) := by
  delta State.writeCap
  extract_lets -merge x1 x2
  clear_value x1
  exact (Keeps.upd hF h rfl rfl ⟨rfl, rfl⟩ rfl)

theorem execDomainRamp_keeps {eng : Nat} {s : State} (hF : Touch.nothing.engines.Le b.may) (h : Keeps b s) :
    KOut b (execDomainRamp eng s) := by
  delta execDomainRamp
  refine KOut.next ?_
  split
  · exact (modDomain_keeps (hF.sub rfl) h)
  · exact h

theorem execDomainShort_keeps {eng : Nat} {railLow : Bool} {s : State}
    (hF : Touch.nothing.jobEnd.dev.trace.power.smbus.Le b.may) (h : Keeps b s) :
    KOut b (execDomainShort eng railLow s) := by
  delta execDomainShort
  extract_lets -merge x1 x2
  have h2 : Keeps b x2 := (shortOut_keeps (hF.sub rfl) h); clear_value x2
  refine KOut.next ?_
  split
  · exact (shortOut_keeps (hF.sub rfl) h)
  · split
    · split
      · refine keepsFold (Q := Keeps b) (setRail_keeps (hF.sub rfl) h2) fun _ _ h3 => ?_
        exact (modDomain_keeps (hF.sub rfl) h3)
      · exact h2
    · exact h

theorem execDripPoll_keeps {frames : List DripFrame} {s : State} (hF : Touch.nothing.dev.flash.drip.record.Le b.may)
    (h : Keeps b s) :
    KOut b (execDripPoll frames s) := by
  delta execDripPoll
  refine KOut.next ?_
  split
  · exact (dripPoll_keeps (hF.sub rfl) h)
  · exact h

theorem execDripReplan_keeps {needs : List Nat} {s : State} (hF : Touch.nothing.flash.drip.Le b.may) (h : Keeps b s) :
    KOut b (execDripReplan needs s) := by
  delta execDripReplan
  extract_lets -merge x1 x2 x3
  clear_value x1
  refine KOut.next ?_
  split
  · exact (Keeps.upd hF h rfl rfl ⟨rfl, rfl⟩ rfl)
  · exact h

theorem execIdleGate_keeps {eng : Nat} {s : State} (hF : Touch.nothing.free.engines.mems.dram.Le b.may) (h : Keeps b s) :
    KOut b (execIdleGate eng s) := by
  delta execIdleGate
  extract_lets -merge x1
  refine KOut.next ?_
  split
  · exact (switchOff_keeps (hF.sub rfl) h)
  · exact h

theorem execPowerCapEval_keeps {demand : PowerDemand} {s : State} (hF : Touch.nothing.engines.power.Le b.may)
    (h : Keeps b s) :
    KOut b (execPowerCapEval demand s) := by
  delta execPowerCapEval
  extract_lets -merge x1
  refine KOut.next ?_
  split
  · exact (stepLimits_keeps (hF.sub rfl) (rise_keeps (hF.sub rfl) (notePower_keeps (hF.sub rfl) h)))
  · exact h

theorem execPwrCapWrite_keeps {fn : Fn} {value : Word} {s : State} (hF : Touch.nothing.power.Le b.may) (h : Keeps b s) :
    KOut b (execPwrCapWrite fn value s) := by
  delta execPwrCapWrite
  refine KOut.next ?_
  split
  · exact (writeCap_keeps (hF.sub rfl) h)
  · exact h

theorem execPwrbrkN_keeps {asserted : Bool} {s : State} (hF : Touch.nothing.power.record.Le b.may) (h : Keeps b s) :
    KOut b (execPwrbrkN asserted s) := by
  delta execPwrbrkN
  extract_lets -merge x1 x2
  have h1 : Keeps b x1 := by
    unfold x1
    split
    · exact h
    · split
      · exact (noteEmergency_keeps (hF.sub rfl) h)
      · exact (seeEmergency_keeps (hF.sub rfl) h)
  clear_value x1
  exact (KOut.next (Keeps.upd hF h1 rfl rfl ⟨rfl, rfl⟩ rfl))

theorem execRampComplete_keeps {eng : Nat} {s : State} (hF : Touch.nothing.jobEnd.dev.trace.power.smbus.Le b.may)
    (h : Keeps b s) :
    KOut b (execRampComplete eng s) := by
  delta execRampComplete
  extract_lets -merge x1
  refine KOut.next ?_
  split
  · exact h
  · split
    · exact (shortOut_keeps (hF.sub rfl) h)
    · refine ramped_keeps (hF.sub rfl) ?_
      split
      · exact (setRail_keeps (hF.sub rfl) h)
      · exact h

theorem execSectorFault_keeps {sector : Nat} {s : State} (hF : Touch.nothing.jobEnd.dev.trace.power.smbus.Le b.may)
    (h : Keeps b s) :
    KOut b (execSectorFault sector s) := by
  delta execSectorFault
  extract_lets -merge x1 x2
  have h1 : Keeps b x1 := (setRail_keeps (hF.sub rfl) h); clear_value x1
  have h2 : Keeps b x2 := by
    unfold x2
    refine keepsFold (Q := Keeps b) (raise_keeps (hF.sub rfl) h1) fun _ _ h3 => ?_
    exact (mapOutEngine_keeps (hF.sub rfl) h3)
  clear_value x2
  refine KOut.next ?_
  split
  · refine keepsFold (Q := Keeps b) h2 fun _ _ h4 => ?_
    exact (switchOff_keeps (hF.sub rfl) h4)
  · exact h

theorem execThermalSample_keeps {readings : List Nat} {s : State}
    (hF : Touch.nothing.dev.engines.power.smbus.record.Le b.may) (h : Keeps b s) :
    KOut b (execThermalSample readings s) := by
  delta execThermalSample
  refine KOut.next ?_
  split
  · exact (setLevel_keeps (hF.sub rfl) (moveThermalCap_keeps (hF.sub rfl) h))
  · exact h

theorem execTimebaseLoRead_keeps {fn : Fn} {s : State} (hF : Touch.nothing.power.out.Le b.may) (h : Keeps b s) :
    KOut b (execTimebaseLoRead fn s) := by
  delta execTimebaseLoRead
  extract_lets -merge x1 x2
  refine KOut.next ?_
  split
  · exact (Keeps.upd hF h rfl rfl ⟨rfl, rfl⟩ rfl)
  · exact h

end Sys2Proof.Machine
end

