-- ==== Sys2Proof/Laws/KeepFaultQueue.lean ====
section
/-! SUPPORT. What the operations of Machine/FaultQueue.lean keep (Laws/Keep.lean). -/

namespace Sys2Proof.Machine

variable {b : From}

theorem poisonWord_keeps {s : State} {w : Nat} (hF : Touch.nothing.free.kvs.Le b.may) (h : Keeps b s) :
    Keeps b (State.poisonWord s w) := by
  delta State.poisonWord
  split
  · split
    · exact (drawFree_keeps (hF.sub rfl) (poisonGroup_keeps (hF.sub rfl) h))
    · exact (drawFree_keeps (hF.sub rfl) h)
  · exact h

theorem execContinuedRecord_keeps {source : Nat} {cls : Nat} {s : State} (hF : Touch.nothing.record.Le b.may)
    (h : Keeps b s) :
    KOut b (execContinuedRecord source cls s) := by
  delta execContinuedRecord
  extract_lets -merge x1
  refine KOut.next ?_
  split
  · exact h
  · exact (enterFault_keeps (hF.sub rfl) (Keeps.upd hF h rfl rfl ⟨rfl, rfl⟩ rfl))

theorem execFaultOccurrence_keeps {source : Nat} {cls : Nat} {detail : Nat} {part : Option Nat} {tag : Nat} {info : Nat}
    {s : State} (hF : Touch.nothing.record.Le b.may) (h : Keeps b s) :
    KOut b (execFaultOccurrence source cls detail part tag info s) := (KOut.next (raise_keeps (hF.sub rfl) h))

theorem execFaultTailWrite_keeps {fn : Fn} {value : Word} {s : State} (hF : Touch.nothing.faults.Le b.may)
    (h : Keeps b s) :
    KOut b (execFaultTailWrite fn value s) := by
  delta execFaultTailWrite
  refine KOut.next ?_
  split
  · exact Keeps.updFaults hF h rfl rfl (Faults.consume_bounded _ _) rfl
  · exact h

theorem execSramPatrolScrub_keeps {group : Nat} {corrected : Nat} {bad : List Nat} {s : State}
    (hF : Touch.nothing.jobEnd.dev.smbus.Le b.may) (h : Keeps b s) :
    KOut b (execSramPatrolScrub group corrected bad s) := by
  delta execSramPatrolScrub
  extract_lets -merge x1 x2 x3
  clear_value x1
  have h3 : Keeps b x3 := (Keeps.upd hF h rfl rfl ⟨rfl, rfl⟩ rfl); clear_value x3
  refine KOut.next ?_
  split
  · refine keepsFold (Q := Keeps b) h3 fun _ _ h4 => ?_
    exact (sramError_keeps (hF.sub rfl) (poisonWord_keeps (hF.sub rfl) h4))
  · exact h

end Sys2Proof.Machine
end

