-- ==== Sys2Proof/Laws/KeepResetOps.lean ====
section
/-! SUPPORT. What the operations of Machine/ResetOps.lean keep (Laws/Keep.lean). -/

namespace Sys2Proof.Machine

variable {b : From}

theorem abandonMove_keeps {s : State} {m : Move} (hF : Touch.nothing.kvs.slots.moves.mems.dram.siphon.record.Le b.may)
    (h : Keeps b s) :
    Keeps b (State.abandonMove s m) := by
  delta State.abandonMove
  extract_lets -merge x1
  have h1 : Keeps b x1 := (withdrawXfers_keeps (hF.sub rfl) (Keeps.upd hF h rfl rfl ⟨rfl, rfl⟩ rfl)); clear_value x1
  split
  · extract_lets -merge x2
    split
    · exact (setPte_keeps (hF.sub rfl) (modKv_keeps (hF.sub rfl) h1))
    · exact h1
  · exact (modSlot_keeps (hF.sub rfl) h1)

theorem abandonMoves_keeps {s : State} (hF : Touch.nothing.kvs.slots.moves.mems.dram.siphon.record.Le b.may)
    (h : Keeps b s) :
    Keeps b (State.abandonMoves s) := by
  delta State.abandonMoves
  refine keepsFold (Q := Keeps b) h fun _ _ h1 => ?_
  exact (abandonMove_keeps (hF.sub rfl) h1)

theorem setReady_keeps {s : State} (hF : Touch.nothing.dev.link.out.Le b.may) (h : Keeps b s) :
    Keeps b (State.setReady s) := (raiseMsix_keeps (hF.sub rfl) (Keeps.upd hF h rfl rfl ⟨rfl, rfl⟩ rfl))

theorem enterStartFaults_keeps {s : State} (hF : Touch.nothing.dev.record.Le b.may) (h : Keeps b s) :
    Keeps b (State.enterStartFaults s) := by
  delta State.enterStartFaults
  extract_lets -merge x1 x3
  have h1 : Keeps b x1 := by
    unfold x1
    refine keepsFold (Q := Keeps b) h fun _ _ h2 => ?_
    exact (raise_keeps (hF.sub rfl) h2)
  clear_value x1
  exact (Keeps.upd hF h1 rfl rfl ⟨rfl, rfl⟩ rfl)

theorem initialConfig_keeps {s : State} (hF : Touch.nothing.parts.kvs.mems.dram.Le b.may) (h : Keeps b s) :
    Keeps b (State.initialConfig s) := by
  delta State.initialConfig
  extract_lets -merge x1 x2 x3 x4 x5
  clear_value x1
  have h5 : Keeps b x5 := (Keeps.upd hF h rfl rfl ⟨rfl, rfl⟩ (by simp +zetaDelta [State.shaped])); clear_value x5
  exact (reserveTables_keeps (hF.sub rfl) h5)

theorem becomeReady_keeps {s : State} (hF : Touch.nothing.dev.parts.kvs.mems.dram.kadon.record.Le b.may) (h : Keeps b s) :
    Keeps b (State.becomeReady s) := by
  delta State.becomeReady
  extract_lets -merge x1 x2
  split
  · split
    · exact (setReady_keeps (hF.sub rfl) (enterStartFaults_keeps (hF.sub rfl) (initialConfig_keeps (hF.sub rfl) h)))
    · exact h
  · split
    · exact (setReady_keeps (hF.sub rfl) (Keeps.upd hF h rfl rfl ⟨rfl, rfl⟩ (by simp +zetaDelta [State.shaped])))
    · exact h
  · exact h

theorem dieDown_keeps {s : State} {keepLink : Bool}
    (hF : Touch.nothing.jobEnd.now.dev.gens.passage.kadon.trace.replay.power.drip.Le b.may) (h : Keeps b s) :
    Keeps b (State.dieDown s keepLink) := by
  have r : State.reset.shaped = true := by decide
  delta State.dieDown
  extract_lets -merge x1 x2 x3 x4 x5 x6 x7 x8 x9
  have h1 : Keeps b x1 := flashStop_keeps (hF.sub rfl) h
  clear_value x1
  refine h1.trans ⟨hF.ow rfl, fun k => lost_canon (g := 65536) k (by decide) _, fun _ => rfl, fun k => ?_⟩
  simp only [State.shaped, Bool.and_eq_true, beq_iff_eq, and_assoc] at k r ⊢
  obtain ⟨r1, r2, r3, r4, r5, r6, -, r8, -, r10, -⟩ := r
  obtain ⟨-, -, -, -, -, -, k7, -, -, -, k11⟩ := k
  refine ⟨r1, r2, r3, r4, r5, r6, k7, r8, rfl, r10, ?_⟩
  simp only [Link.restart]
  split
  · rw [List.length_map]; exact k11
  · rfl

theorem endAllJobs_keeps {s : State} (hF : Touch.nothing.jobEnd.passage.Le b.may) (h : Keeps b s) :
    Keeps b (State.endAllJobs s) := by
  delta State.endAllJobs
  refine keepsFold (Q := Keeps b) h fun _ _ h1 => ?_
  exact (endSilently_keeps (hF.sub rfl) h1)

theorem endCancelled_keeps {s : State}
    (hF : Touch.nothing.free.qps.jobs.engines.counters.ctrBlocks.parts.kvs.seqs.slots.mems.dram.flash.record.Le b.may)
    (h : Keeps b s) :
    Keeps b (State.endCancelled s) := by
  delta State.endCancelled
  refine keepsFold (Q := Keeps b) h fun _ _ h1 => ?_
  exact (endWithdrawal_keeps (hF.sub rfl) h1)

theorem portsDown_keeps {s : State} (hF : Touch.nothing.jobEnd.passage.Le b.may) (h : Keeps b s) :
    Keeps b (State.portsDown s) := by
  delta State.portsDown
  refine keepsFold (Q := Keeps b) h fun _ _ h1 => ?_
  split
  · exact (portFails_keeps (hF.sub rfl) h1)
  · exact (modPport_keeps (hF.sub rfl) h1)

theorem finishShutdown_keeps {s : State} (hF : Touch.nothing.jobEnd.dev.passage.Le b.may) (h : Keeps b s) :
    Keeps b (State.finishShutdown s) := by
  delta State.finishShutdown
  extract_lets -merge x1 x2 x3 x5
  have h2 : Keeps b x2 := (Keeps.upd hF h rfl rfl ⟨rfl, rfl⟩ rfl); clear_value x2
  have h3 : Keeps b x3 := by
    unfold x3
    refine keepsFold (Q := Keeps b) (portsDown_keeps (hF.sub rfl) h2) fun _ _ h4 => ?_
    exact (switchOff_keeps (hF.sub rfl) h4)
  clear_value x3
  exact (raiseMsix_keeps (hF.sub rfl) (Keeps.upd hF h3 rfl rfl ⟨rfl, rfl⟩ rfl))

theorem rngStartup_keeps {s : State} {ok : Bool} {x2 : List Bool} (hF : Touch.nothing.dev.sec.Le b.may) (h : Keeps b s) :
    Keeps b (State.rngStartup s ok x2) := by
  delta State.rngStartup
  extract_lets -merge x1 x2 x3
  clear_value x1
  have h3 : Keeps b x3 := (modRng_keeps (hF.sub rfl) (later_keeps (hF.sub rfl) h)); clear_value x3
  clear_value x2
  split
  · exact (modRng_keeps (hF.sub rfl) h)
  · split
    · exact (modRng_keeps (hF.sub rfl) h3)
    · exact (modRng_keeps (hF.sub rfl) h3)
    · exact (modRng_keeps (hF.sub rfl) h3)
    · exact (modRng_keeps (hF.sub rfl) (later_keeps (hF.sub rfl) h3))
    · exact (modRng_keeps (hF.sub rfl) h3)

theorem groupFails_keeps {s : State} {g : Nat} (hF : Touch.nothing.dev.faults.smbus.Le b.may) (h : Keeps b s) :
    Keeps b (State.groupFails s g) := by
  delta State.groupFails
  extract_lets -merge x1 x2
  have h2 : Keeps b x2 := (setFault_keeps (hF.sub rfl) (Keeps.upd hF h rfl rfl ⟨rfl, rfl⟩ rfl)); clear_value x2
  exact (later_keeps (hF.sub rfl) h2)

theorem testEngine_keeps {s : State} {f : SelfTest} {e : Nat} (hF : Touch.nothing.jobEnd.dev.trace.power.smbus.Le b.may)
    (h : Keeps b s) :
    Keeps b (State.testEngine s f e) := by
  delta State.testEngine
  extract_lets -merge x1
  have h1 : Keeps b x1 := (ramped_keeps (hF.sub rfl) h); clear_value x1
  split
  · exact (mapOutEngine_keeps (hF.sub rfl) (later_keeps (hF.sub rfl) h))
  · split
    · exact (mapOutEngine_keeps (hF.sub rfl) (drawFree_keeps (hF.sub rfl) (later_keeps (hF.sub rfl) h1)))
    · exact h1

theorem testDrip_keeps {s : State} {polls : List (List DripFrame)} (hF : Touch.nothing.dev.flash.drip.record.Le b.may)
    (h : Keeps b s) :
    Keeps b (State.testDrip s polls) := by
  delta State.testDrip
  extract_lets -merge x1 x2 x3 x4
  clear_value x1
  have h4 : Keeps b x4 := (Keeps.upd hF h rfl rfl ⟨rfl, rfl⟩ rfl); clear_value x4
  clear_value x2
  refine keepsFold (Q := Keeps b) (setFallback_keeps (hF.sub rfl) h4) fun _ _ h5 => ?_
  exact (dripPoll_keeps (hF.sub rfl) h5)

theorem noteStart_keeps {s : State} (hF : Touch.nothing.dev.Le b.may) (h : Keeps b s) :
    Keeps b (State.noteStart s) := by
  delta State.noteStart
  extract_lets -merge x1
  have h1 : Keeps b x1 := by
    unfold x1
    split
    · exact (later_keeps (hF.sub rfl) h)
    · exact h
  clear_value x1
  split
  · exact (later_keeps (hF.sub rfl) h1)
  · exact h1

theorem selfTest_keeps {s : State} {f : SelfTest} (hF : Touch.nothing.jobEnd.now.dev.trace.power.drip.smbus.Le b.may)
    (h : Keeps b s) :
    Keeps b (State.selfTest s f) := by
  delta State.selfTest
  extract_lets -merge x1 x2 x3 x4 x5 x6 x7 x9 x11 x12 x13 x14
  have h2 : Keeps b x2 := (Keeps.upd hF h rfl rfl ⟨rfl, rfl⟩ rfl); clear_value x2
  have h3 : Keeps b x3 := (rngStartup_keeps (hF.sub rfl) h2); clear_value x3
  have h4 : Keeps b x4 := (setFault_keeps (hF.sub rfl) (later_keeps (hF.sub rfl) h3)); clear_value x4
  have h6 : Keeps b x6 := by
    unfold x6
    split
    · exact h3
    · exact (Keeps.upd hF h4 rfl rfl ⟨rfl, rfl⟩ rfl)
  clear_value x6
  have h7 : Keeps b x7 := by
    unfold x7
    refine keepsFold (Q := Keeps b) h6 fun _ _ h8 => ?_
    exact (groupFails_keeps (hF.sub rfl) h8)
  clear_value x7
  have h9 : Keeps b x9 := by
    unfold x9
    refine keepsFold (Q := Keeps b) h7 fun _ _ h10 => ?_
    exact (testEngine_keeps (hF.sub rfl) h10)
  clear_value x9
  have h11 : Keeps b x11 := (setLevel_keeps (hF.sub rfl) (testDrip_keeps (hF.sub rfl) h9)); clear_value x11
  have h12 : Keeps b x12 := (noteStart_keeps (hF.sub rfl) h11); clear_value x12
  exact (Keeps.upd hF h12 rfl rfl ⟨rfl, rfl⟩ rfl)

theorem fullReset_keeps {s : State} {keepLink : Bool} {code : Nat} {f : SelfTest} (hF : Touch.everything.Le b.may)
    (h : Keeps b s) :
    Keeps b (State.fullReset s keepLink code f) := by
  delta State.fullReset
  extract_lets -merge x1 x2
  have h1 : Keeps b x1 := (dieDown_keeps (hF.sub rfl) h); clear_value x1
  exact (selfTest_keeps (hF.sub rfl) (Keeps.upd hF h1 rfl rfl ⟨rfl, rfl⟩ rfl))

theorem goOn_keeps {s : State} (hF : Touch.nothing.jobEnd.dev.passage.Le b.may) (h : Keeps b s) :
    Keeps b (State.goOn s) := by
  delta State.goOn
  split
  · exact (finishShutdown_keeps (hF.sub rfl) h)
  · exact h

theorem powerOff_keeps {s : State} (hF : Touch.everything.Le b.may) (h : Keeps b s) :
    Keeps b (State.powerOff s) := by
  delta State.powerOff
  extract_lets -merge x1 x2 x3 x4
  have h1 : Keeps b x1 := (dieDown_keeps (hF.sub rfl) (flashLoss_keeps (hF.sub rfl) h)); clear_value x1
  split
  · exact (Keeps.upd hF h1 rfl rfl ⟨rfl, rfl⟩ rfl)
  · exact h

theorem recoverClock_keeps {s : State} {f : SelfTest}
    (hF : Touch.nothing.jobEnd.now.dev.trace.power.drip.smbus.Le b.may) (h : Keeps b s) :
    Keeps b (State.recoverClock s f) := by
  delta State.recoverClock
  extract_lets -merge x1 x2
  split
  · exact (selfTest_keeps (hF.sub rfl) (Keeps.upd hF h rfl rfl ⟨rfl, rfl⟩ rfl))
  · exact h

theorem settleDie_keeps {s : State} {die : Nat} {x2 : Nat} (hF : Touch.nothing.jobEnd.Le b.may) (h : Keeps b s) :
    Keeps b (State.settleDie s die x2) := by
  induction x2 generalizing s with
  | zero => exact h
  | succ n ih =>
    have h1 := modHead_keeps (hF.sub rfl) (die := die) (f := fun o => { o with suspended := false }) h
    simp only [State.settleDie]
    split
    · exact h1
    · split
      · exact ih (endOp_keeps (hF.sub rfl) h1)
      · exact ih (opDone_keeps (hF.sub rfl) h1)

theorem settleFlash_keeps {s : State} (hF : Touch.nothing.jobEnd.Le b.may) (h : Keeps b s) :
    Keeps b (State.settleFlash s) := by
  delta State.settleFlash
  refine keepsFold (Q := Keeps b) h fun _ _ h1 => ?_
  exact (settleDie_keeps (hF.sub rfl) h1)

theorem shutJob_keeps {s : State} {j : Job}
    (hF : Touch.nothing.jobs.engines.merges.moves.echo.vision.flash.siphon.passage.sec.Le b.may) (h : Keeps b s) :
    Keeps b (State.shutJob s j) := by
  delta State.shutJob
  split
  · exact h
  · split
    · exact h
    · exact (startEnding_keeps (hF.sub rfl) h)

theorem shutDown_keeps {s : State} (hF : Touch.nothing.jobEnd.dev.passage.Le b.may) (h : Keeps b s) :
    Keeps b (State.shutDown s) := by
  delta State.shutDown
  extract_lets -merge x1 x2 x3
  have h2 : Keeps b x2 := (Keeps.upd hF h rfl rfl ⟨rfl, rfl⟩ rfl); clear_value x2
  have h3 : Keeps b x3 := by
    unfold x3
    refine keepsFold (Q := Keeps b) h2 fun _ _ h4 => ?_
    exact (shutJob_keeps (hF.sub rfl) h4)
  clear_value x3
  exact (goOn_keeps (hF.sub rfl) (endCancelled_keeps (hF.sub rfl) (settleFlash_keeps (hF.sub rfl) h3)))

theorem warmRegisters_keeps {s : State}
    (hF : Touch.nothing.qps.jobs.echo.vision.dram.siphon.kadon.trace.replay.Le b.may) (h : Keeps b s) :
    Keeps b (State.warmRegisters s) := by
  refine h.trans ⟨hF.ow rfl, id, id, fun k => ?_⟩
  simp only [State.shaped, Bool.and_eq_true, beq_iff_eq, and_assoc, State.warmRegisters, List.length_map,
    List.length_zipIdx] at k ⊢
  obtain ⟨k1, k2, k3, k4, k5, k6, k7, -, k9⟩ := k
  exact ⟨k1, k2, k3, k4, k5, k6, k7, rfl, k9⟩

theorem warmBegin_keeps {s : State} {t : WarmTrigger}
    (hF : Touch.nothing.jobEnd.dev.passage.kadon.trace.replay.power.Le b.may) (h : Keeps b s) :
    Keeps b (State.warmBegin s t) := by
  delta State.warmBegin
  extract_lets -merge x1 x2 x3 x4
  have h1 : Keeps b x1 := (disableAllQps_keeps (hF.sub rfl) h); clear_value x1
  have h4 : Keeps b x4 := (Keeps.upd hF h1 rfl rfl ⟨rfl, rfl⟩ (by first | rfl | (simp +zetaDelta only [State.shaped, Link.warm]; split <;> simp))); clear_value x4
  exact (warmRegisters_keeps (hF.sub rfl) (abandonMoves_keeps (hF.sub rfl) (endAllJobs_keeps (hF.sub rfl) h4)))

theorem warmTrigger_keeps {s : State} {t : WarmTrigger} {f : SelfTest} (hF : Touch.everything.Le b.may) (h : Keeps b s) :
    Keeps b (State.warmTrigger s t f) := by
  delta State.warmTrigger
  split
  · exact (fullReset_keeps (hF.sub rfl) h)
  · exact (warmBegin_keeps (hF.sub rfl) h)

end Sys2Proof.Machine
end

