-- ==== Sys2Proof/Laws/KeepResets.lean ====
section
/-! SUPPORT. What the operations of Machine/Resets.lean keep (Laws/Keep.lean). -/

namespace Sys2Proof.Machine

variable {b : From}

theorem idle_keeps {s : State} (hF : Touch.nothing.jobEnd.now.dev.passage.Le b.may) (h : Keeps b s) :
    Keeps b (State.idle s) := by
  delta State.idle
  split
  · exact (flushJournal_keeps (hF.sub rfl) (reconsider_keeps (hF.sub rfl) (goOn_keeps (hF.sub rfl) (Keeps.upd hF h rfl rfl ⟨rfl, rfl⟩ rfl))))
  · exact h

theorem perstHigh_keeps {s : State} {f : SelfTest} (hF : Touch.nothing.jobEnd.now.dev.trace.power.drip.smbus.Le b.may)
    (h : Keeps b s) :
    Keeps b (State.perstHigh s f) := by
  delta State.perstHigh
  extract_lets -merge x1 x2 x3 x4
  have h3 : Keeps b x3 := (Keeps.upd hF h rfl rfl ⟨rfl, rfl⟩ rfl); clear_value x3
  split
  · exact (recoverClock_keeps (hF.sub rfl) h3)
  · split
    · exact (selfTest_keeps (hF.sub rfl) (Keeps.upd hF h3 rfl rfl ⟨rfl, rfl⟩ rfl))
    · exact h3

theorem perstLow_keeps {s : State}
    (hF : Touch.nothing.jobEnd.now.dev.gens.passage.kadon.trace.replay.power.drip.Le b.may) (h : Keeps b s) :
    Keeps b (State.perstLow s) := by
  delta State.perstLow
  extract_lets -merge x1 x2 x3 x4 x5 x6
  have h2 : Keeps b x2 := (Keeps.upd hF h rfl rfl ⟨rfl, rfl⟩ rfl); clear_value x2
  have h4 : Keeps b x4 := (dieDown_keeps (hF.sub rfl) h2); clear_value x4
  split
  · exact h2
  · split
    · exact (Keeps.upd hF h2 rfl rfl ⟨rfl, rfl⟩ rfl)
    · split
      · exact (Keeps.upd hF h4 rfl rfl ⟨rfl, rfl⟩ rfl)
      · exact (warmBegin_keeps (hF.sub rfl) (Keeps.upd hF h2 rfl rfl ⟨rfl, rfl⟩ rfl))

theorem writeDeviceCtl_keeps {s : State} {v : Nat} {found : SelfTest} (hF : Touch.everything.Le b.may) (h : Keeps b s) :
    Keeps b (State.writeDeviceCtl s v found) := by
  delta State.writeDeviceCtl
  split
  · exact (warmTrigger_keeps (hF.sub rfl) h)
  · exact (fullReset_keeps (hF.sub rfl) h)
  · split
    · exact (shutDown_keeps (hF.sub rfl) h)
    · exact h
  · exact h

theorem execAuxRailLoss_keeps {s : State} (hF : Touch.everything.Le b.may) (h : Keeps b s) :
    KOut b (execAuxRailLoss s) := by
  delta execAuxRailLoss
  extract_lets -merge x1 x2
  have h1 : Keeps b x1 := (powerOff_keeps (hF.sub rfl) h); clear_value x1
  exact (KOut.next (Keeps.upd hF h1 rfl rfl ⟨rfl, rfl⟩ rfl))

theorem execClockLoss_keeps {s : State} (hF : Touch.everything.Le b.may) (h : Keeps b s) :
    KOut b (execClockLoss s) := by
  delta execClockLoss
  extract_lets -merge x1 x2 x3 x4
  have h1 : Keeps b x1 := (dieDown_keeps (hF.sub rfl) h); clear_value x1
  refine KOut.next ?_
  split
  · exact (Keeps.upd hF h1 rfl rfl ⟨rfl, rfl⟩ rfl)
  · exact (Keeps.upd hF h rfl rfl ⟨rfl, rfl⟩ rfl)

theorem execD3hotEntry_keeps {s : State} (hF : Touch.nothing.jobEnd.dev.passage.Le b.may) (h : Keeps b s) :
    KOut b (execD3hotEntry s) := by
  delta execD3hotEntry
  refine KOut.next ?_
  refine configure_keeps (hF.sub rfl) h ?_
  intro _ h1
  extract_lets -merge x2 x3
  have h3 : Keeps b x3 := (Keeps.upd hF h1 rfl rfl ⟨rfl, rfl⟩ rfl); clear_value x3
  split
  · exact h1
  · split
    · exact (shutDown_keeps (hF.sub rfl) h3)
    · exact h3

theorem execD3hotExit_keeps {found : SelfTest} {s : State} (hF : Touch.everything.Le b.may) (h : Keeps b s) :
    KOut b (execD3hotExit found s) := by
  delta execD3hotExit
  refine KOut.next ?_
  refine configure_keeps (hF.sub rfl) h ?_
  intro _ h1
  split
  · exact (fullReset_keeps (hF.sub rfl) (drawFree_keeps (hF.sub rfl) h1))
  · exact h1

theorem execDeviceReady_keeps {s : State} (hF : Touch.nothing.dev.parts.kvs.mems.dram.kadon.record.Le b.may)
    (h : Keeps b s) :
    KOut b (execDeviceReady s) := by
  delta execDeviceReady
  refine KOut.next ?_
  split
  · exact (becomeReady_keeps (hF.sub rfl) h)
  · exact h

theorem execFlrPf_keeps {found : SelfTest} {s : State} (hF : Touch.everything.Le b.may) (h : Keeps b s) :
    KOut b (execFlrPf found s) := by
  delta execFlrPf
  refine KOut.next ?_
  refine configure_keeps (hF.sub rfl) h ?_
  intro _ h1
  split
  · exact h1
  · exact (warmTrigger_keeps (hF.sub rfl) h1)

theorem execFullReset_keeps {fn : Fn} {found : SelfTest} {s : State} (hF : Touch.everything.Le b.may) (h : Keeps b s) :
    KOut b (execFullReset fn found s) := by
  delta execFullReset
  refine KOut.next ?_
  split
  · exact (fullReset_keeps (hF.sub rfl) h)
  · exact h

theorem execHotReset_keeps {found : SelfTest} {s : State} (hF : Touch.everything.Le b.may) (h : Keeps b s) :
    KOut b (execHotReset found s) := by
  delta execHotReset
  refine KOut.next ?_
  split
  · exact (warmTrigger_keeps (hF.sub rfl) h)
  · exact h

theorem execP12vOvervoltage_keeps {s : State} (hF : Touch.everything.Le b.may) (h : Keeps b s) :
    KOut b (execP12vOvervoltage s) := by
  delta execP12vOvervoltage
  extract_lets -merge x1 x2
  have h1 : Keeps b x1 := (powerOff_keeps (hF.sub rfl) h); clear_value x1
  exact (KOut.next (Keeps.upd hF h1 rfl rfl ⟨rfl, rfl⟩ rfl))

theorem execPerstN_keeps {asserted : Bool} {lowNs : Nat} {found : SelfTest} {s : State} (hF : Touch.everything.Le b.may)
    (h : Keeps b s) :
    KOut b (execPerstN asserted lowNs found s) := by
  delta execPerstN
  refine KOut.next ?_
  split
  · split
    · exact h
    · exact (perstLow_keeps (hF.sub rfl) h)
  · split
    · exact (perstHigh_keeps (hF.sub rfl) h)
    · exact h

theorem execPowerLoss_keeps {s : State} (hF : Touch.everything.Le b.may) (h : Keeps b s) :
    KOut b (execPowerLoss s) := by
  delta execPowerLoss
  extract_lets -merge x1 x2
  have h1 : Keeps b x1 := (powerOff_keeps (hF.sub rfl) h); clear_value x1
  exact (KOut.next (Keeps.upd hF h1 rfl rfl ⟨rfl, rfl⟩ rfl))

theorem execPowerOn_keeps {found : SelfTest} {s : State}
    (hF : Touch.nothing.jobEnd.now.dev.trace.power.drip.smbus.Le b.may) (h : Keeps b s) :
    KOut b (execPowerOn found s) := by
  delta execPowerOn
  refine KOut.next ?_
  split
  · exact (selfTest_keeps (hF.sub rfl) h)
  · exact h

theorem execRailsValid_keeps {s : State} (hF : Touch.everything.Le b.may) (h : Keeps b s) :
    KOut b (execRailsValid s) := by
  delta execRailsValid
  extract_lets -merge x1 x2 x3 x4 x5 x6 x7 x8
  clear_value x2 x3
  have h4 : Keeps b x4 := by
    unfold x4
    refine dieDown_keeps (hF.sub rfl) ?_
    split
    · exact (drawFree_keeps (hF.sub rfl) h)
    · exact h
  clear_value x4
  refine KOut.next ?_
  split
  · exact h
  · split
    · exact (drawFree_keeps (hF.sub rfl) (Keeps.upd hF h rfl rfl ⟨rfl, rfl⟩ rfl))
    · exact (Keeps.upd hF h4 rfl rfl ⟨rfl, rfl⟩ rfl)

theorem execReferenceClockRestored_keeps {found : SelfTest} {s : State}
    (hF : Touch.nothing.jobEnd.now.dev.trace.power.drip.smbus.Le b.may) (h : Keeps b s) :
    KOut b (execReferenceClockRestored found s) := by
  delta execReferenceClockRestored
  extract_lets -merge x1
  refine KOut.next ?_
  split
  · exact (recoverClock_keeps (hF.sub rfl) (Keeps.upd hF h rfl rfl ⟨rfl, rfl⟩ rfl))
  · exact h

theorem execShutdown_keeps {fn : Fn} {s : State} (hF : Touch.nothing.jobEnd.dev.passage.Le b.may) (h : Keeps b s) :
    KOut b (execShutdown fn s) := by
  delta execShutdown
  refine KOut.next ?_
  split
  · exact (shutDown_keeps (hF.sub rfl) h)
  · exact h

theorem execStrapSample_keeps {mid : Nat} {s : State} (hF : Touch.nothing.passage.smbus.Le b.may) (h : Keeps b s) :
    KOut b (execStrapSample mid s) := by
  delta execStrapSample
  extract_lets -merge x1 x2
  refine KOut.next ?_
  split
  · exact h
  · exact (Keeps.upd hF h rfl rfl ⟨rfl, rfl⟩ rfl)

theorem execThermalTrip_keeps {s : State} (hF : Touch.everything.Le b.may) (h : Keeps b s) :
    KOut b (execThermalTrip s) := by
  delta execThermalTrip
  extract_lets -merge x1 x2
  have h1 : Keeps b x1 := (powerOff_keeps (hF.sub rfl) h); clear_value x1
  refine KOut.next ?_
  split
  · exact (Keeps.upd hF h1 rfl rfl ⟨rfl, rfl⟩ rfl)
  · exact h

theorem execWarmReset_keeps {fn : Fn} {found : SelfTest} {s : State} (hF : Touch.everything.Le b.may) (h : Keeps b s) :
    KOut b (execWarmReset fn found s) := by
  delta execWarmReset
  refine KOut.next ?_
  split
  · exact (warmTrigger_keeps (hF.sub rfl) h)
  · exact h

end Sys2Proof.Machine
end

