-- ==== Sys2Proof/Laws/KeepHostLink.lean ====
section
/-! SUPPORT. What the operations of Machine/HostLink.lean keep (Laws/Keep.lean). -/

namespace Sys2Proof.Machine

variable {b : From}

theorem countCorrected_keeps {s : State} {ws : List Nat} (hF : Touch.nothing.dram.Le b.may) (h : Keeps b s) :
    Keeps b (State.countCorrected s ws) := by
  delta State.countCorrected
  refine keepsFold (Q := Keeps b) h fun _ _ h1 => ?_
  exact (modChan_keeps (hF.sub rfl) h1)

theorem bar4Meet_keeps {s : State} {ps : List (Nat × Nat)} {met : Bar4Met} {write : Bool}
    (hF : Touch.nothing.dram.Le b.may) (h : Keeps b s) :
    Keeps b (State.bar4Meet s ps met write) := by
  delta State.bar4Meet
  extract_lets -merge x1 x2 x3 x4
  clear_value x1 x2
  have h3 : Keeps b x3 := (countCorrected_keeps (hF.sub rfl) h); clear_value x3
  exact (Keeps.upd hF h3 rfl rfl ⟨rfl, rfl⟩ rfl)

theorem bar4Read_keeps {s : State} {ps : List (Nat × Nat)} (hF : Touch.nothing.free.dram.record.Le b.may)
    (h : Keeps b s) :
    Keeps b (State.bar4Read s ps) := by
  delta State.bar4Read
  extract_lets -merge x1 x2 x3 x4 x5
  clear_value x1 x3
  have h5 : Keeps b x5 := (drawFree_keeps (hF.sub rfl) (Keeps.upd hF h rfl rfl ⟨rfl, rfl⟩ rfl)); clear_value x5
  split
  · exact (Keeps.upd hF h rfl rfl ⟨rfl, rfl⟩ rfl)
  · exact (reportWords_keeps (hF.sub rfl) h5)

theorem bar4Refuse_keeps {s : State} {fn : Fn} {len : Nat} {write : Bool} (hF : Touch.nothing.record.Le b.may)
    (h : Keeps b s) :
    Keeps b (State.bar4Refuse s fn len write) := by
  delta State.bar4Refuse
  extract_lets -merge x1 x2
  have h1 : Keeps b x1 := (raise_keeps (hF.sub rfl) h); clear_value x1
  split
  · exact h1
  · exact (Keeps.upd hF h1 rfl rfl ⟨rfl, rfl⟩ rfl)

theorem bar4Write_keeps {s : State} {x1 : List (Nat × Nat)} {x2 : List Byte}
    (hF : Touch.nothing.mems.dram.record.Le b.may) (h : Keeps b s) :
    Keeps b (State.bar4Write s x1 x2) := by
  induction x1 generalizing s x2 with
  | nil => exact h
  | cons p ps ih => exact ih (store_keeps (hF.sub rfl) h)

theorem changeFns_keeps {s : State} {vfEnable : Bool} {numVfs : Nat}
    (hF : Touch.nothing.qps.jobs.link.counters.ctrBlocks.Le b.may) (h : Keeps b s) :
    Keeps b (State.changeFns s vfEnable numVfs) := by
  delta State.changeFns
  extract_lets -merge x1 x2 x3
  have h2 : Keeps b x2 := (Keeps.upd hF h rfl rfl ⟨rfl, rfl⟩ rfl); clear_value x2
  clear_value x3
  refine keepsFold (Q := Keeps b) h2 fun _ _ h4 => ?_
  exact (disableQp_keeps (hF.sub rfl) h4)

theorem doeAnswer_keeps {s : State} {m : DoeMsg} (hF : Touch.nothing.out.Le b.may) (h : Keeps b s) :
    Keeps b (State.doeAnswer s m) := (Keeps.upd hF h rfl rfl ⟨rfl, rfl⟩ rfl)

theorem setIde_keeps {s : State} {k : Nat} {secure : Bool} (hF : Touch.nothing.link.Le b.may) (h : Keeps b s) :
    Keeps b (State.setIde s k secure) := by
  delta State.setIde
  exact (Keeps.upd hF h rfl rfl ⟨rfl, rfl⟩ rfl)

theorem execBar4Access_keeps {fn : Fn} {offset : Nat} {len : Nat} {met : Bar4Met} {write : Option (List Byte)}
    {s : State} (hF : Touch.nothing.free.mems.dram.record.Le b.may) (h : Keeps b s) :
    KOut b (execBar4Access fn offset len met write s) := by
  delta execBar4Access
  refine KOut.next ?_
  split
  · exact h
  · split
    · exact (bar4Refuse_keeps (hF.sub rfl) h)
    · extract_lets -merge x1 x2
      have h1 : Keeps b x1 := (bar4Read_keeps (hF.sub rfl) (bar4Meet_keeps (hF.sub rfl) h)); clear_value x1
      exact (Keeps.upd hF h1 rfl rfl ⟨rfl, rfl⟩ rfl)
    · exact (bar4Write_keeps (hF.sub rfl) (bar4Meet_keeps (hF.sub rfl) h))

theorem execBusMasterEnable_keeps {fn : Fn} {s : State} (hF : Touch.nothing.link.out.Le b.may) (h : Keeps b s) :
    KOut b (execBusMasterEnable fn s) := by
  delta execBusMasterEnable
  refine KOut.next ?_
  refine configure_keeps (hF.sub rfl) h ?_
  intro _ h1
  split
  · exact (flushMsix_keeps (hF.sub rfl) (modFn_keeps (hF.sub rfl) h1))
  · exact h1

theorem execDoeDiscovery_keeps {index : Nat} {s : State} (hF : Touch.nothing.out.Le b.may) (h : Keeps b s) :
    KOut b (execDoeDiscovery index s) := by
  delta execDoeDiscovery
  refine KOut.next ?_
  split
  · exact (doeAnswer_keeps (hF.sub rfl) h)
  · exact h

theorem execFlrVf_keeps {v : Nat} {s : State} (hF : Touch.nothing.jobEnd.passage.Le b.may) (h : Keeps b s) :
    KOut b (execFlrVf v s) := by
  delta execFlrVf
  refine KOut.next ?_
  refine configure_keeps (hF.sub rfl) h ?_
  intro _ h1
  extract_lets -merge x2 x4
  have h2 : Keeps b x2 := by
    unfold x2
    refine keepsFold (Q := Keeps b) h1 fun _ _ h3 => ?_
    exact (disableQp_keeps (hF.sub rfl) h3)
  clear_value x2
  have h4 : Keeps b x4 := by
    unfold x4
    refine keepsFold (Q := Keeps b) h2 fun _ _ h5 => ?_
    exact (endSilently_keeps (hF.sub rfl) h5)
  clear_value x4
  split
  · exact (setIde_keeps (hF.sub rfl) (modFn_keeps (hF.sub rfl) h4))
  · exact h1

theorem execIdeIntegrityFail_keeps {stream : Nat} {s : State} (hF : Touch.nothing.record.Le b.may) (h : Keeps b s) :
    KOut b (execIdeIntegrityFail stream s) := by
  delta execIdeIntegrityFail
  refine KOut.next ?_
  split
  · exact (raise_keeps (hF.sub rfl) (setIde_keeps (hF.sub rfl) h))
  · exact h

theorem execIdeKm_keeps {via : SpdmVia} {key : IdeKey} {s : State} (hF : Touch.nothing.link.out.Le b.may)
    (h : Keeps b s) :
    KOut b (execIdeKm via key s) := by
  delta execIdeKm
  extract_lets -merge x1 x2
  have h1 : Keeps b x1 := (setIde_keeps (hF.sub rfl) h); clear_value x1
  refine KOut.next ?_
  split
  · exact h
  · split
    · exact (doeAnswer_keeps (hF.sub rfl) h)
    · split
      · exact (doeAnswer_keeps (hF.sub rfl) (Keeps.upd hF h1 rfl rfl ⟨rfl, rfl⟩ rfl))
      · exact (doeAnswer_keeps (hF.sub rfl) h)

theorem execLinkLoss_keeps {s : State} (hF : Touch.nothing.jobEnd.dev.passage.Le b.may) (h : Keeps b s) :
    KOut b (execLinkLoss s) := by
  delta execLinkLoss
  extract_lets -merge x1 x2 x3
  have h3 : Keeps b x3 := (Keeps.upd hF h rfl rfl ⟨rfl, rfl⟩ rfl); clear_value x3
  refine KOut.next ?_
  split
  · exact (raiseMsix_keeps (hF.sub rfl) (endAllJobs_keeps (hF.sub rfl) (disableAllQps_keeps (hF.sub rfl) h3)))
  · exact h

theorem execLinkTrained_keeps {s : State} (hF : Touch.nothing.free.link.out.Le b.may) (h : Keeps b s) :
    KOut b (execLinkTrained s) := by
  delta execLinkTrained
  extract_lets -merge x1 x2 x3
  have h3 : Keeps b x3 := (drawFree_keeps (hF.sub rfl) (drawFree_keeps (hF.sub rfl) (Keeps.upd hF h rfl rfl ⟨rfl, rfl⟩ rfl))); clear_value x3
  refine KOut.next ?_
  split
  · exact (flushMsix_keeps (hF.sub rfl) (raiseMsix_keeps (hF.sub rfl) h3))
  · exact h

theorem execMsixUnmask_keeps {fn : Fn} {target : MsixTarget} {s : State} (hF : Touch.nothing.link.out.Le b.may)
    (h : Keeps b s) :
    KOut b (execMsixUnmask fn target s) := by
  delta execMsixUnmask
  extract_lets -merge x1
  have h1 : ∀ a0, Keeps b a0 → Keeps b (x1 a0) := by
    unfold x1
    intro _ h2
    split
    · exact (flushMsix_keeps (hF.sub rfl) (modFn_keeps (hF.sub rfl) h2))
    · exact h2
  clear_value x1
  refine KOut.next ?_
  split
  · exact (h1 _ h)
  · refine configure_keeps (hF.sub rfl) h ?_
    intro _ h3
    exact (h1 _ h3)

theorem execOwningFunctionChange_keeps {vfEnable : Bool} {numVfs : Nat} {s : State}
    (hF : Touch.nothing.qps.jobs.link.counters.ctrBlocks.out.Le b.may) (h : Keeps b s) :
    KOut b (execOwningFunctionChange vfEnable numVfs s) := by
  delta execOwningFunctionChange
  refine KOut.next ?_
  refine configure_keeps (hF.sub rfl) h ?_
  intro _ h1
  split
  · exact (changeFns_keeps (hF.sub rfl) h1)
  · exact h1

end Sys2Proof.Machine
end

