-- ==== Sys2Proof/Laws/KeepSpdm.lean ====
section
/-! SUPPORT. What the operations of Machine/Spdm.lean keep (Laws/Keep.lean). -/

namespace Sys2Proof.Machine

variable {b : From}

theorem inSession_keeps {s : State} {via : SpdmVia} {f : Nat → State → State} (hF : Touch.nothing.out.Le b.may)
    (h : Keeps b s) (k : ∀ n t, Keeps b t → Keeps b (f n t)) :
    Keeps b (State.inSession s via f) := by
  delta State.inSession
  split
  · exact h
  · split
    · exact doeAnswer_keeps (hF.sub rfl) h
    · split
      · exact k _ _ h
      · exact doeAnswer_keeps (hF.sub rfl) h

theorem openSession_keeps {s : State} {theirs : List Byte} (hF : Touch.nothing.link.sec.out.Le b.may) (h : Keeps b s) :
    Keeps b (State.openSession s theirs) := by
  delta State.openSession
  split
  · exact (doeAnswer_keeps (hF.sub rfl) h)
  · split
    · have := keepsSnd (by assumption) (rngAsk_keeps (hF.sub rfl) h)
      extract_lets -merge x1 x2 x3
      clear_value x1 x2
      exact (doeAnswer_keeps (hF.sub rfl) (spWork_keeps (hF.sub rfl) (Keeps.upd hF (by assumption) rfl rfl ⟨rfl, rfl⟩ rfl)))
    · have := keepsSnd (by assumption) (rngAsk_keeps (hF.sub rfl) h)
      exact (doeAnswer_keeps (hF.sub rfl) h)

theorem spdm_keeps {s : State} {via : SpdmVia} {f : State → State} (hF : Touch.nothing.out.Le b.may) (h : Keeps b s)
    (k : ∀ t, Keeps b t → Keeps b (f t)) :
    Keeps b (State.spdm s via f) := by
  delta State.spdm
  split
  · exact h
  · split
    · exact k _ h
    · exact doeAnswer_keeps (hF.sub rfl) h

theorem execChallenge_keeps {via : SpdmVia} {slot : Nat} {nonce : List Byte} {s : State}
    (hF : Touch.nothing.sec.out.Le b.may) (h : Keeps b s) :
    KOut b (execChallenge via slot nonce s) := by
  delta execChallenge
  refine KOut.next ?_
  refine spdm_keeps (hF.sub rfl) h ?_
  intro _ h1
  exact (doeAnswer_keeps (hF.sub rfl) (spWork_keeps (hF.sub rfl) h1))

theorem execEndSession_keeps {via : SpdmVia} {s : State} (hF : Touch.nothing.link.out.Le b.may) (h : Keeps b s) :
    KOut b (execEndSession via s) := by
  delta execEndSession
  refine KOut.next ?_
  refine inSession_keeps (hF.sub rfl) h ?_
  intro _ _ h1
  extract_lets -merge x2 x3
  exact (doeAnswer_keeps (hF.sub rfl) (Keeps.upd hF h1 rfl rfl ⟨rfl, rfl⟩ rfl))

theorem execFinish_keeps {via : SpdmVia} {macOk : Bool} {s : State} (hF : Touch.nothing.link.out.Le b.may)
    (h : Keeps b s) :
    KOut b (execFinish via macOk s) := by
  delta execFinish
  extract_lets -merge x1
  refine KOut.next ?_
  split
  · exact h
  · split
    · exact (doeAnswer_keeps (hF.sub rfl) h)
    · extract_lets -merge x2
      have h2 : Keeps b x2 := (Keeps.upd hF h rfl rfl ⟨rfl, rfl⟩ rfl); clear_value x2
      split
      · split
        · exact (doeAnswer_keeps (hF.sub rfl) h2)
        · exact (doeAnswer_keeps (hF.sub rfl) (Keeps.upd hF h2 rfl rfl ⟨rfl, rfl⟩ rfl))
      · exact (doeAnswer_keeps (hF.sub rfl) h)

theorem execGetCapabilities_keeps {via : SpdmVia} {s : State} (hF : Touch.nothing.out.Le b.may) (h : Keeps b s) :
    KOut b (execGetCapabilities via s) := by
  delta execGetCapabilities
  refine KOut.next ?_
  split
  · exact h
  · exact (doeAnswer_keeps (hF.sub rfl) h)

theorem execGetCertificate_keeps {via : SpdmVia} {slot : Nat} {offset : Nat} {len : Nat} {s : State}
    (hF : Touch.nothing.out.Le b.may) (h : Keeps b s) :
    KOut b (execGetCertificate via slot offset len s) := by
  delta execGetCertificate
  refine KOut.next ?_
  refine spdm_keeps (hF.sub rfl) h ?_
  intro _ h1
  exact (doeAnswer_keeps (hF.sub rfl) h1)

theorem execGetDigests_keeps {via : SpdmVia} {s : State} (hF : Touch.nothing.out.Le b.may) (h : Keeps b s) :
    KOut b (execGetDigests via s) := by
  delta execGetDigests
  refine KOut.next ?_
  refine spdm_keeps (hF.sub rfl) h ?_
  intro _ h1
  exact (doeAnswer_keeps (hF.sub rfl) h1)

theorem execGetMeasurements_keeps {via : SpdmVia} {index : Nat} {nonce : List Byte} {s : State}
    (hF : Touch.nothing.sec.out.Le b.may) (h : Keeps b s) :
    KOut b (execGetMeasurements via index nonce s) := by
  delta execGetMeasurements
  refine KOut.next ?_
  refine spdm_keeps (hF.sub rfl) h ?_
  intro _ h1
  extract_lets -merge x2
  clear_value x2
  exact (doeAnswer_keeps (hF.sub rfl) (spWork_keeps (hF.sub rfl) h1))

theorem execGetVersion_keeps {via : SpdmVia} {s : State} (hF : Touch.nothing.link.out.Le b.may) (h : Keeps b s) :
    KOut b (execGetVersion via s) := by
  delta execGetVersion
  extract_lets -merge x1
  refine KOut.next ?_
  split
  · exact h
  · split
    · exact (doeAnswer_keeps (hF.sub rfl) (Keeps.upd hF h rfl rfl ⟨rfl, rfl⟩ rfl))
    · exact (doeAnswer_keeps (hF.sub rfl) h)

theorem execHeartbeat_keeps {via : SpdmVia} {s : State} (hF : Touch.nothing.out.Le b.may) (h : Keeps b s) :
    KOut b (execHeartbeat via s) := by
  delta execHeartbeat
  refine KOut.next ?_
  refine inSession_keeps (hF.sub rfl) h ?_
  intro _ _ h1
  exact (doeAnswer_keeps (hF.sub rfl) h1)

theorem execKeyExchange_keeps {via : SpdmVia} {publicKey : List Byte} {s : State}
    (hF : Touch.nothing.link.sec.out.Le b.may) (h : Keeps b s) :
    KOut b (execKeyExchange via publicKey s) := by
  delta execKeyExchange
  refine KOut.next ?_
  refine spdm_keeps (hF.sub rfl) h ?_
  intro _ h1
  split
  · exact (openSession_keeps (hF.sub rfl) h1)
  · exact (doeAnswer_keeps (hF.sub rfl) h1)

theorem execKeyUpdate_keeps {via : SpdmVia} {s : State} (hF : Touch.nothing.link.out.Le b.may) (h : Keeps b s) :
    KOut b (execKeyUpdate via s) := by
  delta execKeyUpdate
  refine KOut.next ?_
  refine inSession_keeps (hF.sub rfl) h ?_
  intro _ _ h1
  extract_lets -merge x2 x3
  clear_value x2
  exact (doeAnswer_keeps (hF.sub rfl) (Keeps.upd hF h1 rfl rfl ⟨rfl, rfl⟩ rfl))

theorem execNegotiateAlgorithms_keeps {via : SpdmVia} {offered : Bool} {s : State}
    (hF : Touch.nothing.link.out.Le b.may) (h : Keeps b s) :
    KOut b (execNegotiateAlgorithms via offered s) := by
  delta execNegotiateAlgorithms
  extract_lets -merge x1
  refine KOut.next ?_
  split
  · exact h
  · split
    · exact (doeAnswer_keeps (hF.sub rfl) (Keeps.upd hF h rfl rfl ⟨rfl, rfl⟩ rfl))
    · exact (doeAnswer_keeps (hF.sub rfl) h)

end Sys2Proof.Machine
end

