-- ==== Sys2Proof/Laws/KeepKadonFw.lean ====
section
/-! SUPPORT. What the operations of Machine/KadonFw.lean keep (Laws/Keep.lean). -/

namespace Sys2Proof.Machine

variable {b : From}

theorem bootEnds_keeps {s : State} {result : Nat} (hF : Touch.nothing.link.kadon.out.Le b.may) (h : Keeps b s) :
    Keeps b (State.bootEnds s result) := by
  delta State.bootEnds
  exact (raiseMsix_keeps (hF.sub rfl) (Keeps.upd hF h rfl rfl ⟨rfl, rfl⟩ rfl))

theorem startKadon_keeps {s : State} {bs : List Byte} (hF : Touch.nothing.dev.kadon.Le b.may) (h : Keeps b s) :
    Keeps b (State.startKadon s bs) := by
  delta State.startKadon
  exact (Keeps.upd hF h rfl rfl ⟨rfl, rfl⟩ (by simp +zetaDelta [State.shaped]))

theorem loadKadon_keeps {s : State} {hostReadOk : Bool} (hF : Touch.nothing.dev.link.kadon.out.Le b.may) (h : Keeps b s) :
    Keeps b (State.loadKadon s hostReadOk) := by
  delta State.loadKadon
  extract_lets -merge x1 x2 x3
  clear_value x1 x2 x3
  split
  · exact (bootEnds_keeps (hF.sub rfl) h)
  · split
    · exact (bootEnds_keeps (hF.sub rfl) h)
    · split
      · exact (bootEnds_keeps (hF.sub rfl) (startKadon_keeps (hF.sub rfl) h))
      · exact (bootEnds_keeps (hF.sub rfl) h)

theorem bootGo_keeps {s : State} {hostReadOk : Bool} (hF : Touch.nothing.dev.link.kadon.out.Le b.may) (h : Keeps b s) :
    Keeps b (State.bootGo s hostReadOk) := by
  delta State.bootGo
  split
  · exact (loadKadon_keeps (hF.sub rfl) h)
  · exact h

theorem faultJob_keeps {s : State} {uid : Nat} (hF : Touch.nothing.jobEnd.Le b.may) (h : Keeps b s) :
    Keeps b (State.faultJob s uid) := by
  delta State.faultJob
  extract_lets -merge x1
  have h1 : Keeps b x1 := (withdraw_keeps (hF.sub rfl) (jobError_keeps (hF.sub rfl) h)); clear_value x1
  split
  · exact h1
  · split
    · exact h1
    · exact (finishJob_keeps (hF.sub rfl) (cancelEffects_keeps (hF.sub rfl) h1))

theorem handOver_keeps {s : State} {n : Nat} (hF : Touch.nothing.jobs.Le b.may) (h : Keeps b s) :
    Keeps b (State.handOver s n) := by
  delta State.handOver
  extract_lets -merge x1
  split
  · exact (Keeps.upd hF h rfl rfl ⟨rfl, rfl⟩ rfl)
  · exact h

theorem cpExpires_keeps {s : State} {n : Nat} (hF : Touch.nothing.jobEnd.dev.kadon.trace.smbus.Le b.may) (h : Keeps b s) :
    Keeps b (State.cpExpires s n) := by
  delta State.cpExpires
  extract_lets -merge x1 x2 x3 x4 x5 x6 x8 x9
  clear_value x1 x2 x3
  have h4 : Keeps b x4 := (modCp_keeps (hF.sub rfl) h); clear_value x4
  have h5 : Keeps b x5 := (raise_keeps (hF.sub rfl) h4); clear_value x5
  have h6 : Keeps b x6 := by
    unfold x6
    refine keepsFold (Q := Keeps b) h5 fun _ _ h7 => ?_
    exact (faultJob_keeps (hF.sub rfl) h7)
  clear_value x6
  have h8 : Keeps b x8 := by
    unfold x8
    split
    · exact (abandonMoves_keeps (hF.sub rfl) h6)
    · exact (handOver_keeps (hF.sub rfl) h6)
  clear_value x8
  have h9 : Keeps b x9 := (traceEvent_keeps (hF.sub rfl) h8); clear_value x9
  split
  · exact (setFault_keeps (hF.sub rfl) h9)
  · exact h9

theorem endSecurity_keeps {s : State} (hF : Touch.nothing.link.Le b.may) (h : Keeps b s) :
    Keeps b (State.endSecurity s) := by
  delta State.endSecurity
  exact (Keeps.upd hF h rfl rfl ⟨rfl, rfl⟩ rfl)

theorem fwBack_keeps {s : State} {ws : List Nat} (hF : Touch.nothing.kadon.Le b.may) (h : Keeps b s) :
    Keeps b (State.fwBack s ws) := by
  delta State.fwBack
  extract_lets -merge x1 x2
  exact (Keeps.upd hF h rfl rfl ⟨rfl, rfl⟩ (by simp +zetaDelta [State.shaped]))

theorem fwPause_keeps {s : State} {ws : List Nat} (hF : Touch.nothing.kadon.Le b.may) (h : Keeps b s) :
    Keeps b (State.fwPause s ws) := by
  delta State.fwPause
  extract_lets -merge x1 x2
  exact (Keeps.upd hF h rfl rfl ⟨rfl, rfl⟩ (by simp +zetaDelta [State.shaped]))

theorem fwSwitch_keeps {s : State} {ws : List Nat} {bs : List Byte}
    (hF : Touch.nothing.mems.dram.sec.kadon.trace.Le b.may) (h : Keeps b s) :
    Keeps b (State.fwSwitch s ws bs) := by
  delta State.fwSwitch
  extract_lets -merge x1 x2 x3
  exact (traceEvent_keeps (hF.sub rfl) (Keeps.upd hF h rfl rfl ⟨rfl, rfl⟩ (by simp +zetaDelta [State.shaped])))

theorem loseKeys_keeps {s : State} (hF : Touch.nothing.parts.mems.dram.flash.Le b.may) (h : Keeps b s) :
    Keeps b (State.loseKeys s) := by
  delta State.loseKeys
  extract_lets -merge x1 x4
  have h1 : Keeps b x1 := by
    unfold x1
    refine keepsFold (Q := Keeps b) h fun _ _ h2 => ?_
    refine keepsFold (Q := Keeps b) h2 fun _ _ h3 => ?_
    exact (cipherGranule_keeps (hF.sub rfl) h3)
  clear_value x1
  exact (Keeps.upd hF h1 rfl rfl ⟨rfl, rfl⟩ (by simp +zetaDelta [State.shaped]))

theorem spExpires_keeps {s : State} (hF : Touch.nothing.jobEnd.dev.passage.kadon.smbus.Le b.may) (h : Keeps b s) :
    Keeps b (State.spExpires s) := by
  delta State.spExpires
  extract_lets -merge x1 x2 x3 x4
  have h1 : Keeps b x1 := (modCp_keeps (hF.sub rfl) h); clear_value x1
  have h4 : Keeps b x4 := (Keeps.upd hF h1 rfl rfl ⟨rfl, rfl⟩ rfl); clear_value x4
  exact (failAllJobs_keeps (hF.sub rfl) (endSecurity_keeps (hF.sub rfl) (portsDown_keeps (hF.sub rfl) (loseKeys_keeps (hF.sub rfl) h4))))

theorem runFwUpdate_keeps {s : State} {j : Job} {met : FwMet}
    (hF : Touch.nothing.jobEnd.dev.passage.kadon.trace.smbus.Le b.may) (h : Keeps b s) :
    Keeps b (State.runFwUpdate s j met) := by
  delta State.runFwUpdate
  extract_lets -merge x1 x2 x3 x4
  clear_value x1 x2 x3
  have h4 : Keeps b x4 := (failJob_keeps (hF.sub rfl) h); clear_value x4
  split
  · exact (outsideJob_keeps (hF.sub rfl) h)
  · split
    · exact (failJob_keeps (hF.sub rfl) h)
    · split
      · exact (failJob_keeps (hF.sub rfl) (reportWords_keeps (hF.sub rfl) h))
      · split
        · exact (failJob_keeps (hF.sub rfl) h)
        · split
          · exact (finishUid_keeps (hF.sub rfl) (fwSwitch_keeps (hF.sub rfl) (fwPause_keeps (hF.sub rfl) h)))
          · exact (failJob_keeps (hF.sub rfl) h)
          · exact (failJob_keeps (hF.sub rfl) (fwBack_keeps (hF.sub rfl) (fwPause_keeps (hF.sub rfl) h)))
          · extract_lets -merge x5
            clear_value x5
            split
            · exact (cpExpires_keeps (hF.sub rfl) h4)
            · exact (spExpires_keeps (hF.sub rfl) h4)

theorem execCpBootGo_keeps {fn : Fn} {hostReadOk : Bool} {s : State} (hF : Touch.nothing.dev.link.kadon.out.Le b.may)
    (h : Keeps b s) :
    KOut b (execCpBootGo fn hostReadOk s) := by
  delta execCpBootGo
  refine KOut.next ?_
  split
  · exact (bootGo_keeps (hF.sub rfl) h)
  · exact h

theorem execCpRestartDone_keeps {cp : Nat} {s : State}
    (hF : Touch.nothing.kvs.slots.moves.mems.dram.siphon.kadon.record.Le b.may) (h : Keeps b s) :
    KOut b (execCpRestartDone cp s) := by
  delta execCpRestartDone
  extract_lets -merge x1
  have h1 : Keeps b x1 := (modCp_keeps (hF.sub rfl) h); clear_value x1
  refine KOut.next ?_
  split
  · split
    · refine keepsFold (Q := Keeps b) h1 fun _ _ h2 => ?_
      exact (startMoves_keeps (hF.sub rfl) h2)
    · exact h1
  · exact h

theorem execCpWatchdog_keeps {cp : Nat} {s : State} (hF : Touch.nothing.jobEnd.dev.kadon.trace.smbus.Le b.may)
    (h : Keeps b s) :
    KOut b (execCpWatchdog cp s) := by
  delta execCpWatchdog
  refine KOut.next ?_
  split
  · exact (cpExpires_keeps (hF.sub rfl) h)
  · exact h

theorem execFwUpdate_keeps {uid : Nat} {met : FwMet} {s : State}
    (hF : Touch.nothing.jobEnd.dev.passage.kadon.trace.smbus.Le b.may) (h : Keeps b s) :
    KOut b (execFwUpdate uid met s) := by
  delta execFwUpdate
  refine KOut.next ?_
  split
  · have := KOpt.ofSnd (by assumption) (starting_keeps (hF.sub rfl) h)
    exact (runFwUpdate_keeps (hF.sub rfl) (by assumption))
  · exact h

theorem execSpWatchdog_keeps {s : State} (hF : Touch.nothing.jobEnd.dev.passage.kadon.smbus.Le b.may) (h : Keeps b s) :
    KOut b (execSpWatchdog s) := by
  delta execSpWatchdog
  refine KOut.next ?_
  split
  · exact (spExpires_keeps (hF.sub rfl) h)
  · exact h

end Sys2Proof.Machine
end

