-- ==== Sys2Proof/Laws/KeepTraceReplay.lean ====
section
/-! SUPPORT. What the operations of Machine/TraceReplay.lean keep (Laws/Keep.lean). -/

namespace Sys2Proof.Machine

variable {b : From}

theorem replayHalt_keeps {s : State} (hF : Touch.nothing.replay.Le b.may) (h : Keeps b s) :
    Keeps b (State.replayHalt s) := by
  delta State.replayHalt
  extract_lets -merge x1
  split
  · exact (replaySettle_keeps (hF.sub rfl) (Keeps.upd hF h rfl rfl ⟨rfl, rfl⟩ rfl))
  · exact h

theorem startReplay_keeps {s : State} (hF : Touch.nothing.replay.Le b.may) (h : Keeps b s) :
    Keeps b (State.startReplay s) := by
  delta State.startReplay
  extract_lets -merge x1 x2 x3
  clear_value x2 x3
  split
  · exact h
  · split
    · exact (Keeps.upd hF h rfl rfl ⟨rfl, rfl⟩ rfl)
    · exact (Keeps.upd hF h rfl rfl ⟨rfl, rfl⟩ rfl)

theorem replayStore_keeps {s : State} {v : Nat} (hF : Touch.nothing.replay.Le b.may) (h : Keeps b s) :
    Keeps b (State.replayStore s v) := by
  delta State.replayStore
  extract_lets -merge x1 x2
  have h2 : Keeps b x2 := (Keeps.upd hF h rfl rfl ⟨rfl, rfl⟩ rfl); clear_value x2
  split
  · exact h
  · split
    · exact (startReplay_keeps (hF.sub rfl) h2)
    · exact h2

theorem traceStart_keeps {s : State} (hF : Touch.nothing.mems.dram.trace.Le b.may) (h : Keeps b s) :
    Keeps b (State.traceStart s) := by
  delta State.traceStart
  extract_lets -merge x1 x2
  have h2 : Keeps b x2 := (Keeps.upd hF h rfl rfl ⟨rfl, rfl⟩ rfl); clear_value x2
  exact (traceEmit_keeps (hF.sub rfl) h2)

theorem writeTraceCtl_keeps {s : State} {v : Nat} (hF : Touch.nothing.mems.dram.trace.Le b.may) (h : Keeps b s) :
    Keeps b (State.writeTraceCtl s v) := by
  delta State.writeTraceCtl
  extract_lets -merge x1
  have h1 : Keeps b x1 := (Keeps.upd hF h rfl rfl ⟨rfl, rfl⟩ rfl); clear_value x1
  split
  · exact (traceStart_keeps (hF.sub rfl) h1)
  · exact h1

theorem writeTraceTail_keeps {s : State} {v : Nat} (hF : Touch.nothing.mems.dram.trace.Le b.may) (h : Keeps b s) :
    Keeps b (State.writeTraceTail s v) := by
  unfold State.writeTraceTail
  split
  · refine traceDrain_keeps (hF.sub rfl) ?_
    exact Keeps.upd hF h rfl rfl ⟨rfl, rfl⟩ (by delta State.shaped; rfl)
  · exact h

theorem execReplayGo_keeps {fn : Fn} {value : Word} {s : State} (hF : Touch.nothing.replay.Le b.may) (h : Keeps b s) :
    KOut b (execReplayGo fn value s) := by
  delta execReplayGo
  refine KOut.next ?_
  split
  · exact (replayStore_keeps (hF.sub rfl) h)
  · exact h

theorem execReplayStop_keeps {fn : Fn} {s : State} (hF : Touch.nothing.replay.Le b.may) (h : Keeps b s) :
    KOut b (execReplayStop fn s) := by
  delta execReplayStop
  refine KOut.next ?_
  split
  · exact (replayHalt_keeps (hF.sub rfl) h)
  · exact h

theorem execTraceEnable_keeps {fn : Fn} {value : Word} {s : State} (hF : Touch.nothing.mems.dram.trace.Le b.may)
    (h : Keeps b s) :
    KOut b (execTraceEnable fn value s) := by
  delta execTraceEnable
  refine KOut.next ?_
  split
  · exact (writeTraceCtl_keeps (hF.sub rfl) h)
  · exact h

theorem execTraceTailWrite_keeps {fn : Fn} {value : Word} {s : State} (hF : Touch.nothing.mems.dram.trace.Le b.may)
    (h : Keeps b s) :
    KOut b (execTraceTailWrite fn value s) := by
  delta execTraceTailWrite
  refine KOut.next ?_
  split
  · exact (writeTraceTail_keeps (hF.sub rfl) h)
  · exact h

end Sys2Proof.Machine
end

