-- ==== Sys2Proof/Laws/KeepSmbusIf.lean ====
section
/-! SUPPORT. What the operations of Machine/SmbusIf.lean keep (Laws/Keep.lean). -/

namespace Sys2Proof.Machine

variable {b : From}

theorem busAnswer_keeps {s : State} {bs : Option (List Byte)} (hF : Touch.nothing.out.Le b.may) (h : Keeps b s) :
    Keeps b (State.busAnswer s bs) := (Keeps.upd hF h rfl rfl ⟨rfl, rfl⟩ rfl)

theorem onBus_keeps {s : State} {f : State → State} (hF : Touch.nothing.out.Le b.may) (h : Keeps b s)
    (k : ∀ t, Keeps b t → Keeps b (f t)) :
    Keeps b (State.onBus s f) := by
  delta State.onBus
  split
  · exact k _ h
  · exact busAnswer_keeps (hF.sub rfl) h

theorem busReply_keeps {s : State} {host : List Byte} {sent : List Byte} {data : List Byte}
    (hF : Touch.nothing.out.Le b.may) (h : Keeps b s) :
    Keeps b (State.busReply s host sent data) := by
  delta State.busReply
  extract_lets -merge x1 x2
  have h1 : Keeps b x1 := (busAnswer_keeps (hF.sub rfl) h); clear_value x1
  exact (Keeps.upd hF h1 rfl rfl ⟨rfl, rfl⟩ rfl)

theorem busRead_keeps {s : State} {code : Byte} {n : Nat} {v : Nat} (hF : Touch.nothing.out.Le b.may) (h : Keeps b s) :
    Keeps b (State.busRead s code n v) := by
  delta State.busRead
  refine onBus_keeps (hF.sub rfl) h ?_
  intro _ h1
  exact (busReply_keeps (hF.sub rfl) h1)

theorem busWrite_keeps {s : State} {pec : Pec} {f : State → State} (hF : Touch.nothing.out.Le b.may) (h : Keeps b s)
    (k : ∀ t, Keeps b t → Keeps b (f t)) :
    Keeps b (State.busWrite s pec f) := by
  refine onBus_keeps (hF.sub rfl) h fun t ht => ?_
  split
  · exact busAnswer_keeps (hF.sub rfl) ht
  · exact busAnswer_keeps (hF.sub rfl) (k t ht)

theorem setEmergency_keeps {s : State} {on : Bool} (hF : Touch.nothing.power.smbus.record.Le b.may) (h : Keeps b s) :
    Keeps b (State.setEmergency s on) := by
  delta State.setEmergency
  extract_lets -merge x1 x2
  have h1 : Keeps b x1 := by
    unfold x1
    split
    · exact h
    · split
      · exact (noteEmergency_keeps (hF.sub rfl) h)
      · exact (seeEmergency_keeps (hF.sub rfl) h)
  clear_value x1
  exact (Keeps.upd hF h1 rfl rfl ⟨rfl, rfl⟩ rfl)

theorem setFruOffset_keeps {s : State} {v : Nat} (hF : Touch.nothing.free.smbus.Le b.may) (h : Keeps b s) :
    Keeps b (State.setFruOffset s v) := by
  delta State.setFruOffset
  extract_lets -merge x1 x2
  split
  · exact (Keeps.upd hF h rfl rfl ⟨rfl, rfl⟩ rfl)
  · exact (drawFree_keeps (hF.sub rfl) (Keeps.upd hF h rfl rfl ⟨rfl, rfl⟩ rfl))

theorem execAlertResponse_keeps {s : State} (hF : Touch.nothing.smbus.out.Le b.may) (h : Keeps b s) :
    KOut b (execAlertResponse s) := by
  delta execAlertResponse
  refine KOut.next ?_
  refine onBus_keeps (hF.sub rfl) h ?_
  intro _ h1
  extract_lets -merge x2
  split
  · exact (busReply_keeps (hF.sub rfl) (Keeps.upd hF h1 rfl rfl ⟨rfl, rfl⟩ rfl))
  · exact (busAnswer_keeps (hF.sub rfl) h1)

theorem execCapSet_keeps {write : Option Byte} {pec : Pec} {s : State} (hF : Touch.nothing.smbus.out.Le b.may)
    (h : Keeps b s) :
    KOut b (execCapSet write pec s) := by
  delta execCapSet
  refine KOut.next ?_
  split
  · exact (busRead_keeps (hF.sub rfl) h)
  · refine busWrite_keeps (hF.sub rfl) h ?_
    intro _ h1
    exact (Keeps.upd hF h1 rfl rfl ⟨rfl, rfl⟩ rfl)

theorem execClearAlert_keeps {pec : Pec} {s : State} (hF : Touch.nothing.smbus.out.Le b.may) (h : Keeps b s) :
    KOut b (execClearAlert pec s) := by
  delta execClearAlert
  refine KOut.next ?_
  refine busWrite_keeps (hF.sub rfl) h ?_
  intro _ h1
  exact (Keeps.upd hF h1 rfl rfl ⟨rfl, rfl⟩ rfl)

theorem execEmergency_keeps {write : Option Byte} {pec : Pec} {s : State}
    (hF : Touch.nothing.power.smbus.record.Le b.may) (h : Keeps b s) :
    KOut b (execEmergency write pec s) := by
  delta execEmergency
  refine KOut.next ?_
  split
  · exact (busRead_keeps (hF.sub rfl) h)
  · refine busWrite_keeps (hF.sub rfl) h ?_
    intro _ h1
    exact (setEmergency_keeps (hF.sub rfl) h1)

theorem execFruOffset_keeps {value : Byte} {pec : Pec} {s : State} (hF : Touch.nothing.free.smbus.out.Le b.may)
    (h : Keeps b s) :
    KOut b (execFruOffset value pec s) := by
  delta execFruOffset
  refine KOut.next ?_
  refine busWrite_keeps (hF.sub rfl) h ?_
  intro _ h1
  exact (setFruOffset_keeps (hF.sub rfl) h1)

theorem execFruRead_keeps {s : State} (hF : Touch.nothing.smbus.out.Le b.may) (h : Keeps b s) :
    KOut b (execFruRead s) := by
  delta execFruRead
  refine KOut.next ?_
  refine onBus_keeps (hF.sub rfl) h ?_
  intro _ h1
  extract_lets -merge x2 x3
  clear_value x2
  exact (busReply_keeps (hF.sub rfl) (Keeps.upd hF h1 rfl rfl ⟨rfl, rfl⟩ rfl))

theorem execPowerIn_keeps {s : State} (hF : Touch.nothing.out.Le b.may) (h : Keeps b s) :
    KOut b (execPowerIn s) := (KOut.next (busRead_keeps (hF.sub rfl) h))

theorem execStatus_keeps {s : State} (hF : Touch.nothing.out.Le b.may) (h : Keeps b s) :
    KOut b (execStatus s) := (KOut.next (busRead_keeps (hF.sub rfl) h))

theorem execTempHottest_keeps {s : State} (hF : Touch.nothing.out.Le b.may) (h : Keeps b s) :
    KOut b (execTempHottest s) := (KOut.next (busRead_keeps (hF.sub rfl) h))

theorem execTempModule_keeps {celsius : Int} {s : State} (hF : Touch.nothing.out.Le b.may) (h : Keeps b s) :
    KOut b (execTempModule celsius s) := (KOut.next (busRead_keeps (hF.sub rfl) h))

end Sys2Proof.Machine
end

