-- ==== Sys2Proof/Laws/KeepRegs.lean ====
section
/-! SUPPORT. What the operations of Machine/Regs.lean keep (Laws/Keep.lean). -/

namespace Sys2Proof.Machine

variable {b : From}

theorem Kadon.writeReg_cps (k : Kadon) (o v : Nat) : (k.writeReg o v).cps = k.cps := by
  unfold Kadon.writeReg
  repeat' split
  all_goals rfl

theorem writeGlobal_keeps {s : State} {o : Nat} {v : Nat} {found : SelfTest} (hF : Touch.everything.Le b.may)
    (h : Keeps b s) :
    Keeps b (State.writeGlobal s o v found) := by
  delta State.writeGlobal
  extract_lets -merge x1 x2 x3
  split
  · split
    · exact (Keeps.upd hF h rfl rfl ⟨rfl, rfl⟩ rfl)
    · exact h
  · exact (writeDeviceCtl_keeps (hF.sub rfl) h)
  · exact (Keeps.upd hF h rfl rfl ⟨rfl, rfl⟩ rfl)
  · split
    · exact h
    · exact (Keeps.upd hF h rfl rfl ⟨rfl, rfl⟩ rfl)
  · exact h

theorem writeQp_keeps {s : State} {fn : Fn} {n : Nat} {o : Nat} {v : Nat}
    (hF : Touch.nothing.qps.jobs.counters.ctrBlocks.Le b.may) (h : Keeps b s) :
    Keeps b (State.writeQp s fn n o v) := by
  delta State.writeQp
  split
  · exact h
  · split
    · split
      · split
        · exact h
        · exact (enableQp_keeps (hF.sub rfl) h)
      · split
        · exact (disableQp_keeps (hF.sub rfl) h)
        · exact h
    · exact (modQp_keeps (hF.sub rfl) h)

theorem writePart_keeps {s : State} {o : Nat} {v : Nat} (hF : Touch.nothing.dev.parts.sec.Le b.may) (h : Keeps b s) :
    Keeps b (State.writePart s o v) := by
  delta State.writePart
  extract_lets -merge x1
  split
  · exact h
  · split
    · exact (Keeps.upd hF h rfl rfl ⟨rfl, rfl⟩ rfl)
    · split
      · split
        · exact (rngRetest_keeps (hF.sub rfl) h)
        · exact h
      · split
        · exact (modPart_keeps (hF.sub rfl) h)
        · exact h

theorem writePower_keeps {s : State} {o : Nat} {v : Nat} (hF : Touch.nothing.parts.power.Le b.may) (h : Keeps b s) :
    Keeps b (State.writePower s o v) := by
  delta State.writePower
  extract_lets -merge x1
  split
  · exact (writeCap_keeps (hF.sub rfl) h)
  · split
    · exact (Keeps.upd hF h rfl rfl ⟨rfl, rfl⟩ rfl)
    · split
      · exact (modPart_keeps (hF.sub rfl) h)
      · exact h

theorem writeDram_keeps {s : State} {o : Nat} {v : Nat} (hF : Touch.nothing.free.dev.dram.Le b.may) (h : Keeps b s) :
    Keeps b (State.writeDram s o v) := by
  delta State.writeDram
  extract_lets -merge x1 x2 x3
  clear_value x2
  split
  · split
    · exact h
    · exact (modDport_keeps (hF.sub rfl) h)
  · split
    · exact (modChan_keeps (hF.sub rfl) h)
    · split <;> first
        | exact h
        | exact (trainCommand_keeps (hF.sub rfl) h)
        | exact (Keeps.upd hF h rfl rfl ⟨rfl, rfl⟩ rfl)

theorem writeFlash_keeps {s : State} {o : Nat} {v : Nat} (hF : Touch.nothing.flash.Le b.may) (h : Keeps b s) :
    Keeps b (State.writeFlash s o v) := by
  delta State.writeFlash
  extract_lets -merge x1 x2
  split
  · exact (Keeps.upd hF h rfl rfl ⟨rfl, rfl⟩ rfl)
  · split
    · exact (Keeps.upd hF h rfl rfl ⟨rfl, rfl⟩ rfl)
    · exact h

theorem writeSiphon_keeps {s : State} {o : Nat} {v : Nat} (hF : Touch.nothing.siphon.Le b.may) (h : Keeps b s) :
    Keeps b (State.writeSiphon s o v) := by
  delta State.writeSiphon
  extract_lets -merge x1
  split
  · exact (Keeps.upd hF h rfl rfl ⟨rfl, rfl⟩ rfl)
  · exact h

theorem writePort_keeps {s : State} {n : Nat} {o : Nat} {v : Nat} (hF : Touch.nothing.jobEnd.passage.Le b.may)
    (h : Keeps b s) :
    Keeps b (State.writePort s n o v) := by
  delta State.writePort
  extract_lets -merge x1
  have h1 : Keeps b x1 := (enablePort_keeps (hF.sub rfl) h); clear_value x1
  split
  · split
    · exact (rekeyPort_keeps (hF.sub rfl) h1)
    · exact h1
  · split
    · exact (modPport_keeps (hF.sub rfl) h)
    · exact h

theorem writePassage_keeps {s : State} {o : Nat} {v : Nat} (hF : Touch.nothing.jobEnd.passage.Le b.may) (h : Keeps b s) :
    Keeps b (State.writePassage s o v) := by
  delta State.writePassage
  extract_lets -merge x1
  split
  · exact (Keeps.upd hF h rfl rfl ⟨rfl, rfl⟩ rfl)
  · split
    · exact (writePort_keeps (hF.sub rfl) h)
    · exact h

theorem writeFaults_keeps {s : State} {o : Nat} {v : Nat} (hF : Touch.nothing.faults.Le b.may) (h : Keeps b s) :
    Keeps b (State.writeFaults s o v) := by
  delta State.writeFaults
  extract_lets -merge x1 x2
  split
  · exact Keeps.updFaults hF h rfl rfl (Faults.consume_bounded _ _) rfl
  · split
    · exact (Keeps.upd hF h rfl rfl ⟨rfl, rfl⟩ rfl)
    · exact h
  · exact (Keeps.upd hF h rfl rfl ⟨rfl, rfl⟩ rfl)
  · exact h

theorem writeTrace_keeps {s : State} {o : Nat} {v : Nat} (hF : Touch.nothing.mems.dram.trace.replay.Le b.may)
    (h : Keeps b s) :
    Keeps b (State.writeTrace s o v) := by
  delta State.writeTrace
  split
  · exact (writeTraceCtl_keeps (hF.sub rfl) h)
  · exact (writeTraceTail_keeps (hF.sub rfl) h)
  · split
    · split
      · exact (replayHalt_keeps (hF.sub rfl) h)
      · exact h
    · exact (replayStore_keeps (hF.sub rfl) h)
  · exact (Keeps.upd hF h rfl rfl ⟨rfl, rfl⟩ rfl)

theorem writeVision_keeps {s : State} {o : Nat} {v : Nat} (hF : Touch.nothing.vision.Le b.may) (h : Keeps b s) :
    Keeps b (State.writeVision s o v) := by
  delta State.writeVision
  extract_lets -merge x1
  split
  · exact (Keeps.upd hF h rfl rfl ⟨rfl, rfl⟩ rfl)
  · exact h

theorem writeEcho_keeps {s : State} {o : Nat} {v : Nat} (hF : Touch.nothing.echo.Le b.may) (h : Keeps b s) :
    Keeps b (State.writeEcho s o v) := by
  delta State.writeEcho
  extract_lets -merge x1
  split
  · exact (Keeps.upd hF h rfl rfl ⟨rfl, rfl⟩ rfl)
  · exact h

theorem writeCps_keeps {s : State} {o : Nat} {v : Nat} {hostReadOk : Bool}
    (hF : Touch.nothing.dev.link.kadon.out.Le b.may) (h : Keeps b s) :
    Keeps b (State.writeCps s o v hostReadOk) := by
  delta State.writeCps
  split
  · split
    · exact (bootGo_keeps (hF.sub rfl) h)
    · exact h
  · exact (Keeps.upd hF h rfl rfl ⟨rfl, rfl⟩ (by first | rfl | simp [State.shaped, Kadon.writeReg_cps]))

theorem pfWrite_keeps {s : State} {o : Nat} {v : Nat} {found : SelfTest} {hostReadOk : Bool}
    (hF : Touch.everything.Le b.may) (h : Keeps b s) :
    Keeps b (State.pfWrite s o v found hostReadOk) := by
  delta State.pfWrite
  split
  · exact (modEng_keeps (hF.sub rfl) h)
  · split
    · exact (writeGlobal_keeps (hF.sub rfl) h)
    · split
      · exact (writeQp_keeps (hF.sub rfl) h)
      · exact h
    · exact (writePart_keeps (hF.sub rfl) h)
    · exact (writePower_keeps (hF.sub rfl) h)
    · exact (writeDram_keeps (hF.sub rfl) h)
    · exact (writeFlash_keeps (hF.sub rfl) h)
    · exact (writeSiphon_keeps (hF.sub rfl) h)
    · exact (writePassage_keeps (hF.sub rfl) h)
    · exact (writeFaults_keeps (hF.sub rfl) h)
    · exact (writeTrace_keeps (hF.sub rfl) h)
    · exact (writeVision_keeps (hF.sub rfl) h)
    · exact (writeEcho_keeps (hF.sub rfl) h)
    · exact (writeCps_keeps (hF.sub rfl) h)
    · exact h

theorem regWrite_keeps {s : State} {fn : Fn} {o : Nat} {v : Nat} {found : SelfTest} {hostReadOk : Bool}
    (hF : Touch.everything.Le b.may) (h : Keeps b s) :
    Keeps b (State.regWrite s fn o v found hostReadOk) := by
  delta State.regWrite
  split
  · exact (pfWrite_keeps (hF.sub rfl) h)
  · split
    · exact (writeQp_keeps (hF.sub rfl) h)
    · exact h

theorem execRegisterWrite_keeps {fn : Fn} {offset : Nat} {size : Nat} {data : RegData} {s : State}
    (hF : Touch.everything.Le b.may) (h : Keeps b s) :
    KOut b (execRegisterWrite fn offset size data s) := by
  delta execRegisterWrite
  extract_lets -merge x1
  clear_value x1
  refine KOut.next ?_
  split
  · exact h
  · split
    · exact (regWrite_keeps (hF.sub rfl) h)
    · split
      · exact (regWrite_keeps (hF.sub rfl) (regWrite_keeps (hF.sub rfl) h))
      · exact h

end Sys2Proof.Machine
end

