-- ==== Sys2Proof/Laws/State.lean ====
section
/-! SUPPORT. What each update of State leaves: one lemma a field, so that no proof unfolds a record update, and what a
modified unit, job or record reads as. -/

namespace Sys2Proof.Machine

variable (s : State)

/-! ## modQp -/

@[simp] theorem State.modQp_pending (n : Nat) (f : Qp → Qp) : (s.modQp n f).pending = s.pending := rfl
@[simp] theorem State.modQp_now (n : Nat) (f : Qp → Qp) : (s.modQp n f).now = s.now := rfl
@[simp] theorem State.modQp_free (n : Nat) (f : Qp → Qp) : (s.modQp n f).free = s.free := rfl
@[simp] theorem State.modQp_dev (n : Nat) (f : Qp → Qp) : (s.modQp n f).dev = s.dev := rfl
@[simp] theorem State.modQp_qps (n : Nat) (f : Qp → Qp) : (s.modQp n f).qps = s.qps.modify n f := rfl
@[simp] theorem State.modQp_jobs (n : Nat) (f : Qp → Qp) : (s.modQp n f).jobs = s.jobs := rfl
@[simp] theorem State.modQp_link (n : Nat) (f : Qp → Qp) : (s.modQp n f).link = s.link := rfl
@[simp] theorem State.modQp_faults (n : Nat) (f : Qp → Qp) : (s.modQp n f).faults = s.faults := rfl
@[simp] theorem State.modQp_engines (n : Nat) (f : Qp → Qp) : (s.modQp n f).engines = s.engines := rfl
@[simp] theorem State.modQp_merges (n : Nat) (f : Qp → Qp) : (s.modQp n f).merges = s.merges := rfl
@[simp] theorem State.modQp_counters (n : Nat) (f : Qp → Qp) : (s.modQp n f).counters = s.counters := rfl
@[simp] theorem State.modQp_ctrBlocks (n : Nat) (f : Qp → Qp) : (s.modQp n f).ctrBlocks = s.ctrBlocks := rfl
@[simp] theorem State.modQp_parts (n : Nat) (f : Qp → Qp) : (s.modQp n f).parts = s.parts := rfl
@[simp] theorem State.modQp_kvs (n : Nat) (f : Qp → Qp) : (s.modQp n f).kvs = s.kvs := rfl
@[simp] theorem State.modQp_seqs (n : Nat) (f : Qp → Qp) : (s.modQp n f).seqs = s.seqs := rfl
@[simp] theorem State.modQp_gens (n : Nat) (f : Qp → Qp) : (s.modQp n f).gens = s.gens := rfl
@[simp] theorem State.modQp_slots (n : Nat) (f : Qp → Qp) : (s.modQp n f).slots = s.slots := rfl
@[simp] theorem State.modQp_moves (n : Nat) (f : Qp → Qp) : (s.modQp n f).moves = s.moves := rfl
@[simp] theorem State.modQp_mems (n : Nat) (f : Qp → Qp) : (s.modQp n f).mems = s.mems := rfl
@[simp] theorem State.modQp_echo (n : Nat) (f : Qp → Qp) : (s.modQp n f).echo = s.echo := rfl
@[simp] theorem State.modQp_vision (n : Nat) (f : Qp → Qp) : (s.modQp n f).vision = s.vision := rfl
@[simp] theorem State.modQp_dram (n : Nat) (f : Qp → Qp) : (s.modQp n f).dram = s.dram := rfl
@[simp] theorem State.modQp_flash (n : Nat) (f : Qp → Qp) : (s.modQp n f).flash = s.flash := rfl
@[simp] theorem State.modQp_siphon (n : Nat) (f : Qp → Qp) : (s.modQp n f).siphon = s.siphon := rfl
@[simp] theorem State.modQp_passage (n : Nat) (f : Qp → Qp) : (s.modQp n f).passage = s.passage := rfl
@[simp] theorem State.modQp_sec (n : Nat) (f : Qp → Qp) : (s.modQp n f).sec = s.sec := rfl
@[simp] theorem State.modQp_kadon (n : Nat) (f : Qp → Qp) : (s.modQp n f).kadon = s.kadon := rfl
@[simp] theorem State.modQp_trace (n : Nat) (f : Qp → Qp) : (s.modQp n f).trace = s.trace := rfl
@[simp] theorem State.modQp_replay (n : Nat) (f : Qp → Qp) : (s.modQp n f).replay = s.replay := rfl
@[simp] theorem State.modQp_power (n : Nat) (f : Qp → Qp) : (s.modQp n f).power = s.power := rfl
@[simp] theorem State.modQp_drip (n : Nat) (f : Qp → Qp) : (s.modQp n f).drip = s.drip := rfl
@[simp] theorem State.modQp_smbus (n : Nat) (f : Qp → Qp) : (s.modQp n f).smbus = s.smbus := rfl
@[simp] theorem State.modQp_out (n : Nat) (f : Qp → Qp) : (s.modQp n f).out = s.out := rfl

/-! ## modPart -/

@[simp] theorem State.modPart_pending (n : Nat) (f : Part → Part) : (s.modPart n f).pending = s.pending := rfl
@[simp] theorem State.modPart_now (n : Nat) (f : Part → Part) : (s.modPart n f).now = s.now := rfl
@[simp] theorem State.modPart_free (n : Nat) (f : Part → Part) : (s.modPart n f).free = s.free := rfl
@[simp] theorem State.modPart_dev (n : Nat) (f : Part → Part) : (s.modPart n f).dev = s.dev := rfl
@[simp] theorem State.modPart_qps (n : Nat) (f : Part → Part) : (s.modPart n f).qps = s.qps := rfl
@[simp] theorem State.modPart_jobs (n : Nat) (f : Part → Part) : (s.modPart n f).jobs = s.jobs := rfl
@[simp] theorem State.modPart_link (n : Nat) (f : Part → Part) : (s.modPart n f).link = s.link := rfl
@[simp] theorem State.modPart_faults (n : Nat) (f : Part → Part) : (s.modPart n f).faults = s.faults := rfl
@[simp] theorem State.modPart_engines (n : Nat) (f : Part → Part) : (s.modPart n f).engines = s.engines := rfl
@[simp] theorem State.modPart_merges (n : Nat) (f : Part → Part) : (s.modPart n f).merges = s.merges := rfl
@[simp] theorem State.modPart_counters (n : Nat) (f : Part → Part) : (s.modPart n f).counters = s.counters := rfl
@[simp] theorem State.modPart_ctrBlocks (n : Nat) (f : Part → Part) : (s.modPart n f).ctrBlocks = s.ctrBlocks := rfl
@[simp] theorem State.modPart_parts (n : Nat) (f : Part → Part) : (s.modPart n f).parts = s.parts.modify n f := rfl
@[simp] theorem State.modPart_kvs (n : Nat) (f : Part → Part) : (s.modPart n f).kvs = s.kvs := rfl
@[simp] theorem State.modPart_seqs (n : Nat) (f : Part → Part) : (s.modPart n f).seqs = s.seqs := rfl
@[simp] theorem State.modPart_gens (n : Nat) (f : Part → Part) : (s.modPart n f).gens = s.gens := rfl
@[simp] theorem State.modPart_slots (n : Nat) (f : Part → Part) : (s.modPart n f).slots = s.slots := rfl
@[simp] theorem State.modPart_moves (n : Nat) (f : Part → Part) : (s.modPart n f).moves = s.moves := rfl
@[simp] theorem State.modPart_mems (n : Nat) (f : Part → Part) : (s.modPart n f).mems = s.mems := rfl
@[simp] theorem State.modPart_echo (n : Nat) (f : Part → Part) : (s.modPart n f).echo = s.echo := rfl
@[simp] theorem State.modPart_vision (n : Nat) (f : Part → Part) : (s.modPart n f).vision = s.vision := rfl
@[simp] theorem State.modPart_dram (n : Nat) (f : Part → Part) : (s.modPart n f).dram = s.dram := rfl
@[simp] theorem State.modPart_flash (n : Nat) (f : Part → Part) : (s.modPart n f).flash = s.flash := rfl
@[simp] theorem State.modPart_siphon (n : Nat) (f : Part → Part) : (s.modPart n f).siphon = s.siphon := rfl
@[simp] theorem State.modPart_passage (n : Nat) (f : Part → Part) : (s.modPart n f).passage = s.passage := rfl
@[simp] theorem State.modPart_sec (n : Nat) (f : Part → Part) : (s.modPart n f).sec = s.sec := rfl
@[simp] theorem State.modPart_kadon (n : Nat) (f : Part → Part) : (s.modPart n f).kadon = s.kadon := rfl
@[simp] theorem State.modPart_trace (n : Nat) (f : Part → Part) : (s.modPart n f).trace = s.trace := rfl
@[simp] theorem State.modPart_replay (n : Nat) (f : Part → Part) : (s.modPart n f).replay = s.replay := rfl
@[simp] theorem State.modPart_power (n : Nat) (f : Part → Part) : (s.modPart n f).power = s.power := rfl
@[simp] theorem State.modPart_drip (n : Nat) (f : Part → Part) : (s.modPart n f).drip = s.drip := rfl
@[simp] theorem State.modPart_smbus (n : Nat) (f : Part → Part) : (s.modPart n f).smbus = s.smbus := rfl
@[simp] theorem State.modPart_out (n : Nat) (f : Part → Part) : (s.modPart n f).out = s.out := rfl

/-! ## modKv -/

@[simp] theorem State.modKv_pending (n : Nat) (f : Kv → Kv) : (s.modKv n f).pending = s.pending := rfl
@[simp] theorem State.modKv_now (n : Nat) (f : Kv → Kv) : (s.modKv n f).now = s.now := rfl
@[simp] theorem State.modKv_free (n : Nat) (f : Kv → Kv) : (s.modKv n f).free = s.free := rfl
@[simp] theorem State.modKv_dev (n : Nat) (f : Kv → Kv) : (s.modKv n f).dev = s.dev := rfl
@[simp] theorem State.modKv_qps (n : Nat) (f : Kv → Kv) : (s.modKv n f).qps = s.qps := rfl
@[simp] theorem State.modKv_jobs (n : Nat) (f : Kv → Kv) : (s.modKv n f).jobs = s.jobs := rfl
@[simp] theorem State.modKv_link (n : Nat) (f : Kv → Kv) : (s.modKv n f).link = s.link := rfl
@[simp] theorem State.modKv_faults (n : Nat) (f : Kv → Kv) : (s.modKv n f).faults = s.faults := rfl
@[simp] theorem State.modKv_engines (n : Nat) (f : Kv → Kv) : (s.modKv n f).engines = s.engines := rfl
@[simp] theorem State.modKv_merges (n : Nat) (f : Kv → Kv) : (s.modKv n f).merges = s.merges := rfl
@[simp] theorem State.modKv_counters (n : Nat) (f : Kv → Kv) : (s.modKv n f).counters = s.counters := rfl
@[simp] theorem State.modKv_ctrBlocks (n : Nat) (f : Kv → Kv) : (s.modKv n f).ctrBlocks = s.ctrBlocks := rfl
@[simp] theorem State.modKv_parts (n : Nat) (f : Kv → Kv) : (s.modKv n f).parts = s.parts := rfl
@[simp] theorem State.modKv_kvs (n : Nat) (f : Kv → Kv) : (s.modKv n f).kvs = s.kvs.modify n f := rfl
@[simp] theorem State.modKv_seqs (n : Nat) (f : Kv → Kv) : (s.modKv n f).seqs = s.seqs := rfl
@[simp] theorem State.modKv_gens (n : Nat) (f : Kv → Kv) : (s.modKv n f).gens = s.gens := rfl
@[simp] theorem State.modKv_slots (n : Nat) (f : Kv → Kv) : (s.modKv n f).slots = s.slots := rfl
@[simp] theorem State.modKv_moves (n : Nat) (f : Kv → Kv) : (s.modKv n f).moves = s.moves := rfl
@[simp] theorem State.modKv_mems (n : Nat) (f : Kv → Kv) : (s.modKv n f).mems = s.mems := rfl
@[simp] theorem State.modKv_echo (n : Nat) (f : Kv → Kv) : (s.modKv n f).echo = s.echo := rfl
@[simp] theorem State.modKv_vision (n : Nat) (f : Kv → Kv) : (s.modKv n f).vision = s.vision := rfl
@[simp] theorem State.modKv_dram (n : Nat) (f : Kv → Kv) : (s.modKv n f).dram = s.dram := rfl
@[simp] theorem State.modKv_flash (n : Nat) (f : Kv → Kv) : (s.modKv n f).flash = s.flash := rfl
@[simp] theorem State.modKv_siphon (n : Nat) (f : Kv → Kv) : (s.modKv n f).siphon = s.siphon := rfl
@[simp] theorem State.modKv_passage (n : Nat) (f : Kv → Kv) : (s.modKv n f).passage = s.passage := rfl
@[simp] theorem State.modKv_sec (n : Nat) (f : Kv → Kv) : (s.modKv n f).sec = s.sec := rfl
@[simp] theorem State.modKv_kadon (n : Nat) (f : Kv → Kv) : (s.modKv n f).kadon = s.kadon := rfl
@[simp] theorem State.modKv_trace (n : Nat) (f : Kv → Kv) : (s.modKv n f).trace = s.trace := rfl
@[simp] theorem State.modKv_replay (n : Nat) (f : Kv → Kv) : (s.modKv n f).replay = s.replay := rfl
@[simp] theorem State.modKv_power (n : Nat) (f : Kv → Kv) : (s.modKv n f).power = s.power := rfl
@[simp] theorem State.modKv_drip (n : Nat) (f : Kv → Kv) : (s.modKv n f).drip = s.drip := rfl
@[simp] theorem State.modKv_smbus (n : Nat) (f : Kv → Kv) : (s.modKv n f).smbus = s.smbus := rfl
@[simp] theorem State.modKv_out (n : Nat) (f : Kv → Kv) : (s.modKv n f).out = s.out := rfl

/-! ## modEng -/

@[simp] theorem State.modEng_pending (n : Nat) (f : Engine → Engine) : (s.modEng n f).pending = s.pending := rfl
@[simp] theorem State.modEng_now (n : Nat) (f : Engine → Engine) : (s.modEng n f).now = s.now := rfl
@[simp] theorem State.modEng_free (n : Nat) (f : Engine → Engine) : (s.modEng n f).free = s.free := rfl
@[simp] theorem State.modEng_dev (n : Nat) (f : Engine → Engine) : (s.modEng n f).dev = s.dev := rfl
@[simp] theorem State.modEng_qps (n : Nat) (f : Engine → Engine) : (s.modEng n f).qps = s.qps := rfl
@[simp] theorem State.modEng_jobs (n : Nat) (f : Engine → Engine) : (s.modEng n f).jobs = s.jobs := rfl
@[simp] theorem State.modEng_link (n : Nat) (f : Engine → Engine) : (s.modEng n f).link = s.link := rfl
@[simp] theorem State.modEng_faults (n : Nat) (f : Engine → Engine) : (s.modEng n f).faults = s.faults := rfl
@[simp] theorem State.modEng_engines (n : Nat) (f : Engine → Engine) : (s.modEng n f).engines = s.engines.modify n f := rfl
@[simp] theorem State.modEng_merges (n : Nat) (f : Engine → Engine) : (s.modEng n f).merges = s.merges := rfl
@[simp] theorem State.modEng_counters (n : Nat) (f : Engine → Engine) : (s.modEng n f).counters = s.counters := rfl
@[simp] theorem State.modEng_ctrBlocks (n : Nat) (f : Engine → Engine) : (s.modEng n f).ctrBlocks = s.ctrBlocks := rfl
@[simp] theorem State.modEng_parts (n : Nat) (f : Engine → Engine) : (s.modEng n f).parts = s.parts := rfl
@[simp] theorem State.modEng_kvs (n : Nat) (f : Engine → Engine) : (s.modEng n f).kvs = s.kvs := rfl
@[simp] theorem State.modEng_seqs (n : Nat) (f : Engine → Engine) : (s.modEng n f).seqs = s.seqs := rfl
@[simp] theorem State.modEng_gens (n : Nat) (f : Engine → Engine) : (s.modEng n f).gens = s.gens := rfl
@[simp] theorem State.modEng_slots (n : Nat) (f : Engine → Engine) : (s.modEng n f).slots = s.slots := rfl
@[simp] theorem State.modEng_moves (n : Nat) (f : Engine → Engine) : (s.modEng n f).moves = s.moves := rfl
@[simp] theorem State.modEng_mems (n : Nat) (f : Engine → Engine) : (s.modEng n f).mems = s.mems := rfl
@[simp] theorem State.modEng_echo (n : Nat) (f : Engine → Engine) : (s.modEng n f).echo = s.echo := rfl
@[simp] theorem State.modEng_vision (n : Nat) (f : Engine → Engine) : (s.modEng n f).vision = s.vision := rfl
@[simp] theorem State.modEng_dram (n : Nat) (f : Engine → Engine) : (s.modEng n f).dram = s.dram := rfl
@[simp] theorem State.modEng_flash (n : Nat) (f : Engine → Engine) : (s.modEng n f).flash = s.flash := rfl
@[simp] theorem State.modEng_siphon (n : Nat) (f : Engine → Engine) : (s.modEng n f).siphon = s.siphon := rfl
@[simp] theorem State.modEng_passage (n : Nat) (f : Engine → Engine) : (s.modEng n f).passage = s.passage := rfl
@[simp] theorem State.modEng_sec (n : Nat) (f : Engine → Engine) : (s.modEng n f).sec = s.sec := rfl
@[simp] theorem State.modEng_kadon (n : Nat) (f : Engine → Engine) : (s.modEng n f).kadon = s.kadon := rfl
@[simp] theorem State.modEng_trace (n : Nat) (f : Engine → Engine) : (s.modEng n f).trace = s.trace := rfl
@[simp] theorem State.modEng_replay (n : Nat) (f : Engine → Engine) : (s.modEng n f).replay = s.replay := rfl
@[simp] theorem State.modEng_power (n : Nat) (f : Engine → Engine) : (s.modEng n f).power = s.power := rfl
@[simp] theorem State.modEng_drip (n : Nat) (f : Engine → Engine) : (s.modEng n f).drip = s.drip := rfl
@[simp] theorem State.modEng_smbus (n : Nat) (f : Engine → Engine) : (s.modEng n f).smbus = s.smbus := rfl
@[simp] theorem State.modEng_out (n : Nat) (f : Engine → Engine) : (s.modEng n f).out = s.out := rfl

/-! ## modChan -/

@[simp] theorem State.modChan_pending (n : Nat) (f : Chan → Chan) : (s.modChan n f).pending = s.pending := rfl
@[simp] theorem State.modChan_now (n : Nat) (f : Chan → Chan) : (s.modChan n f).now = s.now := rfl
@[simp] theorem State.modChan_free (n : Nat) (f : Chan → Chan) : (s.modChan n f).free = s.free := rfl
@[simp] theorem State.modChan_dev (n : Nat) (f : Chan → Chan) : (s.modChan n f).dev = s.dev := rfl
@[simp] theorem State.modChan_qps (n : Nat) (f : Chan → Chan) : (s.modChan n f).qps = s.qps := rfl
@[simp] theorem State.modChan_jobs (n : Nat) (f : Chan → Chan) : (s.modChan n f).jobs = s.jobs := rfl
@[simp] theorem State.modChan_link (n : Nat) (f : Chan → Chan) : (s.modChan n f).link = s.link := rfl
@[simp] theorem State.modChan_faults (n : Nat) (f : Chan → Chan) : (s.modChan n f).faults = s.faults := rfl
@[simp] theorem State.modChan_engines (n : Nat) (f : Chan → Chan) : (s.modChan n f).engines = s.engines := rfl
@[simp] theorem State.modChan_merges (n : Nat) (f : Chan → Chan) : (s.modChan n f).merges = s.merges := rfl
@[simp] theorem State.modChan_counters (n : Nat) (f : Chan → Chan) : (s.modChan n f).counters = s.counters := rfl
@[simp] theorem State.modChan_ctrBlocks (n : Nat) (f : Chan → Chan) : (s.modChan n f).ctrBlocks = s.ctrBlocks := rfl
@[simp] theorem State.modChan_parts (n : Nat) (f : Chan → Chan) : (s.modChan n f).parts = s.parts := rfl
@[simp] theorem State.modChan_kvs (n : Nat) (f : Chan → Chan) : (s.modChan n f).kvs = s.kvs := rfl
@[simp] theorem State.modChan_seqs (n : Nat) (f : Chan → Chan) : (s.modChan n f).seqs = s.seqs := rfl
@[simp] theorem State.modChan_gens (n : Nat) (f : Chan → Chan) : (s.modChan n f).gens = s.gens := rfl
@[simp] theorem State.modChan_slots (n : Nat) (f : Chan → Chan) : (s.modChan n f).slots = s.slots := rfl
@[simp] theorem State.modChan_moves (n : Nat) (f : Chan → Chan) : (s.modChan n f).moves = s.moves := rfl
@[simp] theorem State.modChan_mems (n : Nat) (f : Chan → Chan) : (s.modChan n f).mems = s.mems := rfl
@[simp] theorem State.modChan_echo (n : Nat) (f : Chan → Chan) : (s.modChan n f).echo = s.echo := rfl
@[simp] theorem State.modChan_vision (n : Nat) (f : Chan → Chan) : (s.modChan n f).vision = s.vision := rfl
@[simp] theorem State.modChan_dram (n : Nat) (f : Chan → Chan) : (s.modChan n f).dram = { s.dram with chans := s.dram.chans.modify n f } := rfl
@[simp] theorem State.modChan_flash (n : Nat) (f : Chan → Chan) : (s.modChan n f).flash = s.flash := rfl
@[simp] theorem State.modChan_siphon (n : Nat) (f : Chan → Chan) : (s.modChan n f).siphon = s.siphon := rfl
@[simp] theorem State.modChan_passage (n : Nat) (f : Chan → Chan) : (s.modChan n f).passage = s.passage := rfl
@[simp] theorem State.modChan_sec (n : Nat) (f : Chan → Chan) : (s.modChan n f).sec = s.sec := rfl
@[simp] theorem State.modChan_kadon (n : Nat) (f : Chan → Chan) : (s.modChan n f).kadon = s.kadon := rfl
@[simp] theorem State.modChan_trace (n : Nat) (f : Chan → Chan) : (s.modChan n f).trace = s.trace := rfl
@[simp] theorem State.modChan_replay (n : Nat) (f : Chan → Chan) : (s.modChan n f).replay = s.replay := rfl
@[simp] theorem State.modChan_power (n : Nat) (f : Chan → Chan) : (s.modChan n f).power = s.power := rfl
@[simp] theorem State.modChan_drip (n : Nat) (f : Chan → Chan) : (s.modChan n f).drip = s.drip := rfl
@[simp] theorem State.modChan_smbus (n : Nat) (f : Chan → Chan) : (s.modChan n f).smbus = s.smbus := rfl
@[simp] theorem State.modChan_out (n : Nat) (f : Chan → Chan) : (s.modChan n f).out = s.out := rfl

/-! ## modDport -/

@[simp] theorem State.modDport_pending (n : Nat) (f : Port → Port) : (s.modDport n f).pending = s.pending := rfl
@[simp] theorem State.modDport_now (n : Nat) (f : Port → Port) : (s.modDport n f).now = s.now := rfl
@[simp] theorem State.modDport_free (n : Nat) (f : Port → Port) : (s.modDport n f).free = s.free := rfl
@[simp] theorem State.modDport_dev (n : Nat) (f : Port → Port) : (s.modDport n f).dev = s.dev := rfl
@[simp] theorem State.modDport_qps (n : Nat) (f : Port → Port) : (s.modDport n f).qps = s.qps := rfl
@[simp] theorem State.modDport_jobs (n : Nat) (f : Port → Port) : (s.modDport n f).jobs = s.jobs := rfl
@[simp] theorem State.modDport_link (n : Nat) (f : Port → Port) : (s.modDport n f).link = s.link := rfl
@[simp] theorem State.modDport_faults (n : Nat) (f : Port → Port) : (s.modDport n f).faults = s.faults := rfl
@[simp] theorem State.modDport_engines (n : Nat) (f : Port → Port) : (s.modDport n f).engines = s.engines := rfl
@[simp] theorem State.modDport_merges (n : Nat) (f : Port → Port) : (s.modDport n f).merges = s.merges := rfl
@[simp] theorem State.modDport_counters (n : Nat) (f : Port → Port) : (s.modDport n f).counters = s.counters := rfl
@[simp] theorem State.modDport_ctrBlocks (n : Nat) (f : Port → Port) : (s.modDport n f).ctrBlocks = s.ctrBlocks := rfl
@[simp] theorem State.modDport_parts (n : Nat) (f : Port → Port) : (s.modDport n f).parts = s.parts := rfl
@[simp] theorem State.modDport_kvs (n : Nat) (f : Port → Port) : (s.modDport n f).kvs = s.kvs := rfl
@[simp] theorem State.modDport_seqs (n : Nat) (f : Port → Port) : (s.modDport n f).seqs = s.seqs := rfl
@[simp] theorem State.modDport_gens (n : Nat) (f : Port → Port) : (s.modDport n f).gens = s.gens := rfl
@[simp] theorem State.modDport_slots (n : Nat) (f : Port → Port) : (s.modDport n f).slots = s.slots := rfl
@[simp] theorem State.modDport_moves (n : Nat) (f : Port → Port) : (s.modDport n f).moves = s.moves := rfl
@[simp] theorem State.modDport_mems (n : Nat) (f : Port → Port) : (s.modDport n f).mems = s.mems := rfl
@[simp] theorem State.modDport_echo (n : Nat) (f : Port → Port) : (s.modDport n f).echo = s.echo := rfl
@[simp] theorem State.modDport_vision (n : Nat) (f : Port → Port) : (s.modDport n f).vision = s.vision := rfl
@[simp] theorem State.modDport_dram (n : Nat) (f : Port → Port) : (s.modDport n f).dram = { s.dram with ports := s.dram.ports.modify n f } := rfl
@[simp] theorem State.modDport_flash (n : Nat) (f : Port → Port) : (s.modDport n f).flash = s.flash := rfl
@[simp] theorem State.modDport_siphon (n : Nat) (f : Port → Port) : (s.modDport n f).siphon = s.siphon := rfl
@[simp] theorem State.modDport_passage (n : Nat) (f : Port → Port) : (s.modDport n f).passage = s.passage := rfl
@[simp] theorem State.modDport_sec (n : Nat) (f : Port → Port) : (s.modDport n f).sec = s.sec := rfl
@[simp] theorem State.modDport_kadon (n : Nat) (f : Port → Port) : (s.modDport n f).kadon = s.kadon := rfl
@[simp] theorem State.modDport_trace (n : Nat) (f : Port → Port) : (s.modDport n f).trace = s.trace := rfl
@[simp] theorem State.modDport_replay (n : Nat) (f : Port → Port) : (s.modDport n f).replay = s.replay := rfl
@[simp] theorem State.modDport_power (n : Nat) (f : Port → Port) : (s.modDport n f).power = s.power := rfl
@[simp] theorem State.modDport_drip (n : Nat) (f : Port → Port) : (s.modDport n f).drip = s.drip := rfl
@[simp] theorem State.modDport_smbus (n : Nat) (f : Port → Port) : (s.modDport n f).smbus = s.smbus := rfl
@[simp] theorem State.modDport_out (n : Nat) (f : Port → Port) : (s.modDport n f).out = s.out := rfl

/-! ## modDie -/

@[simp] theorem State.modDie_pending (n : Nat) (f : Die → Die) : (s.modDie n f).pending = s.pending := rfl
@[simp] theorem State.modDie_now (n : Nat) (f : Die → Die) : (s.modDie n f).now = s.now := rfl
@[simp] theorem State.modDie_free (n : Nat) (f : Die → Die) : (s.modDie n f).free = s.free := rfl
@[simp] theorem State.modDie_dev (n : Nat) (f : Die → Die) : (s.modDie n f).dev = s.dev := rfl
@[simp] theorem State.modDie_qps (n : Nat) (f : Die → Die) : (s.modDie n f).qps = s.qps := rfl
@[simp] theorem State.modDie_jobs (n : Nat) (f : Die → Die) : (s.modDie n f).jobs = s.jobs := rfl
@[simp] theorem State.modDie_link (n : Nat) (f : Die → Die) : (s.modDie n f).link = s.link := rfl
@[simp] theorem State.modDie_faults (n : Nat) (f : Die → Die) : (s.modDie n f).faults = s.faults := rfl
@[simp] theorem State.modDie_engines (n : Nat) (f : Die → Die) : (s.modDie n f).engines = s.engines := rfl
@[simp] theorem State.modDie_merges (n : Nat) (f : Die → Die) : (s.modDie n f).merges = s.merges := rfl
@[simp] theorem State.modDie_counters (n : Nat) (f : Die → Die) : (s.modDie n f).counters = s.counters := rfl
@[simp] theorem State.modDie_ctrBlocks (n : Nat) (f : Die → Die) : (s.modDie n f).ctrBlocks = s.ctrBlocks := rfl
@[simp] theorem State.modDie_parts (n : Nat) (f : Die → Die) : (s.modDie n f).parts = s.parts := rfl
@[simp] theorem State.modDie_kvs (n : Nat) (f : Die → Die) : (s.modDie n f).kvs = s.kvs := rfl
@[simp] theorem State.modDie_seqs (n : Nat) (f : Die → Die) : (s.modDie n f).seqs = s.seqs := rfl
@[simp] theorem State.modDie_gens (n : Nat) (f : Die → Die) : (s.modDie n f).gens = s.gens := rfl
@[simp] theorem State.modDie_slots (n : Nat) (f : Die → Die) : (s.modDie n f).slots = s.slots := rfl
@[simp] theorem State.modDie_moves (n : Nat) (f : Die → Die) : (s.modDie n f).moves = s.moves := rfl
@[simp] theorem State.modDie_mems (n : Nat) (f : Die → Die) : (s.modDie n f).mems = s.mems := rfl
@[simp] theorem State.modDie_echo (n : Nat) (f : Die → Die) : (s.modDie n f).echo = s.echo := rfl
@[simp] theorem State.modDie_vision (n : Nat) (f : Die → Die) : (s.modDie n f).vision = s.vision := rfl
@[simp] theorem State.modDie_dram (n : Nat) (f : Die → Die) : (s.modDie n f).dram = s.dram := rfl
@[simp] theorem State.modDie_flash (n : Nat) (f : Die → Die) : (s.modDie n f).flash = { s.flash with dies := s.flash.dies.modify n f } := rfl
@[simp] theorem State.modDie_siphon (n : Nat) (f : Die → Die) : (s.modDie n f).siphon = s.siphon := rfl
@[simp] theorem State.modDie_passage (n : Nat) (f : Die → Die) : (s.modDie n f).passage = s.passage := rfl
@[simp] theorem State.modDie_sec (n : Nat) (f : Die → Die) : (s.modDie n f).sec = s.sec := rfl
@[simp] theorem State.modDie_kadon (n : Nat) (f : Die → Die) : (s.modDie n f).kadon = s.kadon := rfl
@[simp] theorem State.modDie_trace (n : Nat) (f : Die → Die) : (s.modDie n f).trace = s.trace := rfl
@[simp] theorem State.modDie_replay (n : Nat) (f : Die → Die) : (s.modDie n f).replay = s.replay := rfl
@[simp] theorem State.modDie_power (n : Nat) (f : Die → Die) : (s.modDie n f).power = s.power := rfl
@[simp] theorem State.modDie_drip (n : Nat) (f : Die → Die) : (s.modDie n f).drip = s.drip := rfl
@[simp] theorem State.modDie_smbus (n : Nat) (f : Die → Die) : (s.modDie n f).smbus = s.smbus := rfl
@[simp] theorem State.modDie_out (n : Nat) (f : Die → Die) : (s.modDie n f).out = s.out := rfl

/-! ## modSch -/

@[simp] theorem State.modSch_pending (n : Nat) (f : SChan → SChan) : (s.modSch n f).pending = s.pending := rfl
@[simp] theorem State.modSch_now (n : Nat) (f : SChan → SChan) : (s.modSch n f).now = s.now := rfl
@[simp] theorem State.modSch_free (n : Nat) (f : SChan → SChan) : (s.modSch n f).free = s.free := rfl
@[simp] theorem State.modSch_dev (n : Nat) (f : SChan → SChan) : (s.modSch n f).dev = s.dev := rfl
@[simp] theorem State.modSch_qps (n : Nat) (f : SChan → SChan) : (s.modSch n f).qps = s.qps := rfl
@[simp] theorem State.modSch_jobs (n : Nat) (f : SChan → SChan) : (s.modSch n f).jobs = s.jobs := rfl
@[simp] theorem State.modSch_link (n : Nat) (f : SChan → SChan) : (s.modSch n f).link = s.link := rfl
@[simp] theorem State.modSch_faults (n : Nat) (f : SChan → SChan) : (s.modSch n f).faults = s.faults := rfl
@[simp] theorem State.modSch_engines (n : Nat) (f : SChan → SChan) : (s.modSch n f).engines = s.engines := rfl
@[simp] theorem State.modSch_merges (n : Nat) (f : SChan → SChan) : (s.modSch n f).merges = s.merges := rfl
@[simp] theorem State.modSch_counters (n : Nat) (f : SChan → SChan) : (s.modSch n f).counters = s.counters := rfl
@[simp] theorem State.modSch_ctrBlocks (n : Nat) (f : SChan → SChan) : (s.modSch n f).ctrBlocks = s.ctrBlocks := rfl
@[simp] theorem State.modSch_parts (n : Nat) (f : SChan → SChan) : (s.modSch n f).parts = s.parts := rfl
@[simp] theorem State.modSch_kvs (n : Nat) (f : SChan → SChan) : (s.modSch n f).kvs = s.kvs := rfl
@[simp] theorem State.modSch_seqs (n : Nat) (f : SChan → SChan) : (s.modSch n f).seqs = s.seqs := rfl
@[simp] theorem State.modSch_gens (n : Nat) (f : SChan → SChan) : (s.modSch n f).gens = s.gens := rfl
@[simp] theorem State.modSch_slots (n : Nat) (f : SChan → SChan) : (s.modSch n f).slots = s.slots := rfl
@[simp] theorem State.modSch_moves (n : Nat) (f : SChan → SChan) : (s.modSch n f).moves = s.moves := rfl
@[simp] theorem State.modSch_mems (n : Nat) (f : SChan → SChan) : (s.modSch n f).mems = s.mems := rfl
@[simp] theorem State.modSch_echo (n : Nat) (f : SChan → SChan) : (s.modSch n f).echo = s.echo := rfl
@[simp] theorem State.modSch_vision (n : Nat) (f : SChan → SChan) : (s.modSch n f).vision = s.vision := rfl
@[simp] theorem State.modSch_dram (n : Nat) (f : SChan → SChan) : (s.modSch n f).dram = s.dram := rfl
@[simp] theorem State.modSch_flash (n : Nat) (f : SChan → SChan) : (s.modSch n f).flash = s.flash := rfl
@[simp] theorem State.modSch_siphon (n : Nat) (f : SChan → SChan) : (s.modSch n f).siphon = { s.siphon with chans := s.siphon.chans.modify n f } := rfl
@[simp] theorem State.modSch_passage (n : Nat) (f : SChan → SChan) : (s.modSch n f).passage = s.passage := rfl
@[simp] theorem State.modSch_sec (n : Nat) (f : SChan → SChan) : (s.modSch n f).sec = s.sec := rfl
@[simp] theorem State.modSch_kadon (n : Nat) (f : SChan → SChan) : (s.modSch n f).kadon = s.kadon := rfl
@[simp] theorem State.modSch_trace (n : Nat) (f : SChan → SChan) : (s.modSch n f).trace = s.trace := rfl
@[simp] theorem State.modSch_replay (n : Nat) (f : SChan → SChan) : (s.modSch n f).replay = s.replay := rfl
@[simp] theorem State.modSch_power (n : Nat) (f : SChan → SChan) : (s.modSch n f).power = s.power := rfl
@[simp] theorem State.modSch_drip (n : Nat) (f : SChan → SChan) : (s.modSch n f).drip = s.drip := rfl
@[simp] theorem State.modSch_smbus (n : Nat) (f : SChan → SChan) : (s.modSch n f).smbus = s.smbus := rfl
@[simp] theorem State.modSch_out (n : Nat) (f : SChan → SChan) : (s.modSch n f).out = s.out := rfl

/-! ## modPport -/

@[simp] theorem State.modPport_pending (n : Nat) (f : PPort → PPort) : (s.modPport n f).pending = s.pending := rfl
@[simp] theorem State.modPport_now (n : Nat) (f : PPort → PPort) : (s.modPport n f).now = s.now := rfl
@[simp] theorem State.modPport_free (n : Nat) (f : PPort → PPort) : (s.modPport n f).free = s.free := rfl
@[simp] theorem State.modPport_dev (n : Nat) (f : PPort → PPort) : (s.modPport n f).dev = s.dev := rfl
@[simp] theorem State.modPport_qps (n : Nat) (f : PPort → PPort) : (s.modPport n f).qps = s.qps := rfl
@[simp] theorem State.modPport_jobs (n : Nat) (f : PPort → PPort) : (s.modPport n f).jobs = s.jobs := rfl
@[simp] theorem State.modPport_link (n : Nat) (f : PPort → PPort) : (s.modPport n f).link = s.link := rfl
@[simp] theorem State.modPport_faults (n : Nat) (f : PPort → PPort) : (s.modPport n f).faults = s.faults := rfl
@[simp] theorem State.modPport_engines (n : Nat) (f : PPort → PPort) : (s.modPport n f).engines = s.engines := rfl
@[simp] theorem State.modPport_merges (n : Nat) (f : PPort → PPort) : (s.modPport n f).merges = s.merges := rfl
@[simp] theorem State.modPport_counters (n : Nat) (f : PPort → PPort) : (s.modPport n f).counters = s.counters := rfl
@[simp] theorem State.modPport_ctrBlocks (n : Nat) (f : PPort → PPort) : (s.modPport n f).ctrBlocks = s.ctrBlocks := rfl
@[simp] theorem State.modPport_parts (n : Nat) (f : PPort → PPort) : (s.modPport n f).parts = s.parts := rfl
@[simp] theorem State.modPport_kvs (n : Nat) (f : PPort → PPort) : (s.modPport n f).kvs = s.kvs := rfl
@[simp] theorem State.modPport_seqs (n : Nat) (f : PPort → PPort) : (s.modPport n f).seqs = s.seqs := rfl
@[simp] theorem State.modPport_gens (n : Nat) (f : PPort → PPort) : (s.modPport n f).gens = s.gens := rfl
@[simp] theorem State.modPport_slots (n : Nat) (f : PPort → PPort) : (s.modPport n f).slots = s.slots := rfl
@[simp] theorem State.modPport_moves (n : Nat) (f : PPort → PPort) : (s.modPport n f).moves = s.moves := rfl
@[simp] theorem State.modPport_mems (n : Nat) (f : PPort → PPort) : (s.modPport n f).mems = s.mems := rfl
@[simp] theorem State.modPport_echo (n : Nat) (f : PPort → PPort) : (s.modPport n f).echo = s.echo := rfl
@[simp] theorem State.modPport_vision (n : Nat) (f : PPort → PPort) : (s.modPport n f).vision = s.vision := rfl
@[simp] theorem State.modPport_dram (n : Nat) (f : PPort → PPort) : (s.modPport n f).dram = s.dram := rfl
@[simp] theorem State.modPport_flash (n : Nat) (f : PPort → PPort) : (s.modPport n f).flash = s.flash := rfl
@[simp] theorem State.modPport_siphon (n : Nat) (f : PPort → PPort) : (s.modPport n f).siphon = s.siphon := rfl
@[simp] theorem State.modPport_passage (n : Nat) (f : PPort → PPort) : (s.modPport n f).passage = { s.passage with ports := s.passage.ports.modify n f } := rfl
@[simp] theorem State.modPport_sec (n : Nat) (f : PPort → PPort) : (s.modPport n f).sec = s.sec := rfl
@[simp] theorem State.modPport_kadon (n : Nat) (f : PPort → PPort) : (s.modPport n f).kadon = s.kadon := rfl
@[simp] theorem State.modPport_trace (n : Nat) (f : PPort → PPort) : (s.modPport n f).trace = s.trace := rfl
@[simp] theorem State.modPport_replay (n : Nat) (f : PPort → PPort) : (s.modPport n f).replay = s.replay := rfl
@[simp] theorem State.modPport_power (n : Nat) (f : PPort → PPort) : (s.modPport n f).power = s.power := rfl
@[simp] theorem State.modPport_drip (n : Nat) (f : PPort → PPort) : (s.modPport n f).drip = s.drip := rfl
@[simp] theorem State.modPport_smbus (n : Nat) (f : PPort → PPort) : (s.modPport n f).smbus = s.smbus := rfl
@[simp] theorem State.modPport_out (n : Nat) (f : PPort → PPort) : (s.modPport n f).out = s.out := rfl

/-! ## modCp -/

@[simp] theorem State.modCp_pending (n : Nat) (f : Cp → Cp) : (s.modCp n f).pending = s.pending := rfl
@[simp] theorem State.modCp_now (n : Nat) (f : Cp → Cp) : (s.modCp n f).now = s.now := rfl
@[simp] theorem State.modCp_free (n : Nat) (f : Cp → Cp) : (s.modCp n f).free = s.free := rfl
@[simp] theorem State.modCp_dev (n : Nat) (f : Cp → Cp) : (s.modCp n f).dev = s.dev := rfl
@[simp] theorem State.modCp_qps (n : Nat) (f : Cp → Cp) : (s.modCp n f).qps = s.qps := rfl
@[simp] theorem State.modCp_jobs (n : Nat) (f : Cp → Cp) : (s.modCp n f).jobs = s.jobs := rfl
@[simp] theorem State.modCp_link (n : Nat) (f : Cp → Cp) : (s.modCp n f).link = s.link := rfl
@[simp] theorem State.modCp_faults (n : Nat) (f : Cp → Cp) : (s.modCp n f).faults = s.faults := rfl
@[simp] theorem State.modCp_engines (n : Nat) (f : Cp → Cp) : (s.modCp n f).engines = s.engines := rfl
@[simp] theorem State.modCp_merges (n : Nat) (f : Cp → Cp) : (s.modCp n f).merges = s.merges := rfl
@[simp] theorem State.modCp_counters (n : Nat) (f : Cp → Cp) : (s.modCp n f).counters = s.counters := rfl
@[simp] theorem State.modCp_ctrBlocks (n : Nat) (f : Cp → Cp) : (s.modCp n f).ctrBlocks = s.ctrBlocks := rfl
@[simp] theorem State.modCp_parts (n : Nat) (f : Cp → Cp) : (s.modCp n f).parts = s.parts := rfl
@[simp] theorem State.modCp_kvs (n : Nat) (f : Cp → Cp) : (s.modCp n f).kvs = s.kvs := rfl
@[simp] theorem State.modCp_seqs (n : Nat) (f : Cp → Cp) : (s.modCp n f).seqs = s.seqs := rfl
@[simp] theorem State.modCp_gens (n : Nat) (f : Cp → Cp) : (s.modCp n f).gens = s.gens := rfl
@[simp] theorem State.modCp_slots (n : Nat) (f : Cp → Cp) : (s.modCp n f).slots = s.slots := rfl
@[simp] theorem State.modCp_moves (n : Nat) (f : Cp → Cp) : (s.modCp n f).moves = s.moves := rfl
@[simp] theorem State.modCp_mems (n : Nat) (f : Cp → Cp) : (s.modCp n f).mems = s.mems := rfl
@[simp] theorem State.modCp_echo (n : Nat) (f : Cp → Cp) : (s.modCp n f).echo = s.echo := rfl
@[simp] theorem State.modCp_vision (n : Nat) (f : Cp → Cp) : (s.modCp n f).vision = s.vision := rfl
@[simp] theorem State.modCp_dram (n : Nat) (f : Cp → Cp) : (s.modCp n f).dram = s.dram := rfl
@[simp] theorem State.modCp_flash (n : Nat) (f : Cp → Cp) : (s.modCp n f).flash = s.flash := rfl
@[simp] theorem State.modCp_siphon (n : Nat) (f : Cp → Cp) : (s.modCp n f).siphon = s.siphon := rfl
@[simp] theorem State.modCp_passage (n : Nat) (f : Cp → Cp) : (s.modCp n f).passage = s.passage := rfl
@[simp] theorem State.modCp_sec (n : Nat) (f : Cp → Cp) : (s.modCp n f).sec = s.sec := rfl
@[simp] theorem State.modCp_kadon (n : Nat) (f : Cp → Cp) : (s.modCp n f).kadon = { s.kadon with cps := s.kadon.cps.modify n f } := rfl
@[simp] theorem State.modCp_trace (n : Nat) (f : Cp → Cp) : (s.modCp n f).trace = s.trace := rfl
@[simp] theorem State.modCp_replay (n : Nat) (f : Cp → Cp) : (s.modCp n f).replay = s.replay := rfl
@[simp] theorem State.modCp_power (n : Nat) (f : Cp → Cp) : (s.modCp n f).power = s.power := rfl
@[simp] theorem State.modCp_drip (n : Nat) (f : Cp → Cp) : (s.modCp n f).drip = s.drip := rfl
@[simp] theorem State.modCp_smbus (n : Nat) (f : Cp → Cp) : (s.modCp n f).smbus = s.smbus := rfl
@[simp] theorem State.modCp_out (n : Nat) (f : Cp → Cp) : (s.modCp n f).out = s.out := rfl

/-! ## modJob -/

@[simp] theorem State.modJob_pending (uid : Nat) (f : Job → Job) : (s.modJob uid f).pending = s.pending := rfl
@[simp] theorem State.modJob_now (uid : Nat) (f : Job → Job) : (s.modJob uid f).now = s.now := rfl
@[simp] theorem State.modJob_free (uid : Nat) (f : Job → Job) : (s.modJob uid f).free = s.free := rfl
@[simp] theorem State.modJob_dev (uid : Nat) (f : Job → Job) : (s.modJob uid f).dev = s.dev := rfl
@[simp] theorem State.modJob_qps (uid : Nat) (f : Job → Job) : (s.modJob uid f).qps = s.qps := rfl
@[simp] theorem State.modJob_jobs (uid : Nat) (f : Job → Job) : (s.modJob uid f).jobs = { s.jobs with list := s.jobs.list.map fun j => if j.uid == uid then f j else j } := rfl
@[simp] theorem State.modJob_link (uid : Nat) (f : Job → Job) : (s.modJob uid f).link = s.link := rfl
@[simp] theorem State.modJob_faults (uid : Nat) (f : Job → Job) : (s.modJob uid f).faults = s.faults := rfl
@[simp] theorem State.modJob_engines (uid : Nat) (f : Job → Job) : (s.modJob uid f).engines = s.engines := rfl
@[simp] theorem State.modJob_merges (uid : Nat) (f : Job → Job) : (s.modJob uid f).merges = s.merges := rfl
@[simp] theorem State.modJob_counters (uid : Nat) (f : Job → Job) : (s.modJob uid f).counters = s.counters := rfl
@[simp] theorem State.modJob_ctrBlocks (uid : Nat) (f : Job → Job) : (s.modJob uid f).ctrBlocks = s.ctrBlocks := rfl
@[simp] theorem State.modJob_parts (uid : Nat) (f : Job → Job) : (s.modJob uid f).parts = s.parts := rfl
@[simp] theorem State.modJob_kvs (uid : Nat) (f : Job → Job) : (s.modJob uid f).kvs = s.kvs := rfl
@[simp] theorem State.modJob_seqs (uid : Nat) (f : Job → Job) : (s.modJob uid f).seqs = s.seqs := rfl
@[simp] theorem State.modJob_gens (uid : Nat) (f : Job → Job) : (s.modJob uid f).gens = s.gens := rfl
@[simp] theorem State.modJob_slots (uid : Nat) (f : Job → Job) : (s.modJob uid f).slots = s.slots := rfl
@[simp] theorem State.modJob_moves (uid : Nat) (f : Job → Job) : (s.modJob uid f).moves = s.moves := rfl
@[simp] theorem State.modJob_mems (uid : Nat) (f : Job → Job) : (s.modJob uid f).mems = s.mems := rfl
@[simp] theorem State.modJob_echo (uid : Nat) (f : Job → Job) : (s.modJob uid f).echo = s.echo := rfl
@[simp] theorem State.modJob_vision (uid : Nat) (f : Job → Job) : (s.modJob uid f).vision = s.vision := rfl
@[simp] theorem State.modJob_dram (uid : Nat) (f : Job → Job) : (s.modJob uid f).dram = s.dram := rfl
@[simp] theorem State.modJob_flash (uid : Nat) (f : Job → Job) : (s.modJob uid f).flash = s.flash := rfl
@[simp] theorem State.modJob_siphon (uid : Nat) (f : Job → Job) : (s.modJob uid f).siphon = s.siphon := rfl
@[simp] theorem State.modJob_passage (uid : Nat) (f : Job → Job) : (s.modJob uid f).passage = s.passage := rfl
@[simp] theorem State.modJob_sec (uid : Nat) (f : Job → Job) : (s.modJob uid f).sec = s.sec := rfl
@[simp] theorem State.modJob_kadon (uid : Nat) (f : Job → Job) : (s.modJob uid f).kadon = s.kadon := rfl
@[simp] theorem State.modJob_trace (uid : Nat) (f : Job → Job) : (s.modJob uid f).trace = s.trace := rfl
@[simp] theorem State.modJob_replay (uid : Nat) (f : Job → Job) : (s.modJob uid f).replay = s.replay := rfl
@[simp] theorem State.modJob_power (uid : Nat) (f : Job → Job) : (s.modJob uid f).power = s.power := rfl
@[simp] theorem State.modJob_drip (uid : Nat) (f : Job → Job) : (s.modJob uid f).drip = s.drip := rfl
@[simp] theorem State.modJob_smbus (uid : Nat) (f : Job → Job) : (s.modJob uid f).smbus = s.smbus := rfl
@[simp] theorem State.modJob_out (uid : Nat) (f : Job → Job) : (s.modJob uid f).out = s.out := rfl

/-! ## dropJob -/

@[simp] theorem State.dropJob_pending (uid : Nat) : (s.dropJob uid).pending = s.pending := rfl
@[simp] theorem State.dropJob_now (uid : Nat) : (s.dropJob uid).now = s.now := rfl
@[simp] theorem State.dropJob_free (uid : Nat) : (s.dropJob uid).free = s.free := rfl
@[simp] theorem State.dropJob_dev (uid : Nat) : (s.dropJob uid).dev = s.dev := rfl
@[simp] theorem State.dropJob_qps (uid : Nat) : (s.dropJob uid).qps = s.qps := rfl
@[simp] theorem State.dropJob_jobs (uid : Nat) : (s.dropJob uid).jobs = { s.jobs with list := s.jobs.list.filter fun j => j.uid != uid } := rfl
@[simp] theorem State.dropJob_link (uid : Nat) : (s.dropJob uid).link = s.link := rfl
@[simp] theorem State.dropJob_faults (uid : Nat) : (s.dropJob uid).faults = s.faults := rfl
@[simp] theorem State.dropJob_engines (uid : Nat) : (s.dropJob uid).engines = s.engines := rfl
@[simp] theorem State.dropJob_merges (uid : Nat) : (s.dropJob uid).merges = s.merges := rfl
@[simp] theorem State.dropJob_counters (uid : Nat) : (s.dropJob uid).counters = s.counters := rfl
@[simp] theorem State.dropJob_ctrBlocks (uid : Nat) : (s.dropJob uid).ctrBlocks = s.ctrBlocks := rfl
@[simp] theorem State.dropJob_parts (uid : Nat) : (s.dropJob uid).parts = s.parts := rfl
@[simp] theorem State.dropJob_kvs (uid : Nat) : (s.dropJob uid).kvs = s.kvs := rfl
@[simp] theorem State.dropJob_seqs (uid : Nat) : (s.dropJob uid).seqs = s.seqs := rfl
@[simp] theorem State.dropJob_gens (uid : Nat) : (s.dropJob uid).gens = s.gens := rfl
@[simp] theorem State.dropJob_slots (uid : Nat) : (s.dropJob uid).slots = s.slots := rfl
@[simp] theorem State.dropJob_moves (uid : Nat) : (s.dropJob uid).moves = s.moves := rfl
@[simp] theorem State.dropJob_mems (uid : Nat) : (s.dropJob uid).mems = s.mems := rfl
@[simp] theorem State.dropJob_echo (uid : Nat) : (s.dropJob uid).echo = s.echo := rfl
@[simp] theorem State.dropJob_vision (uid : Nat) : (s.dropJob uid).vision = s.vision := rfl
@[simp] theorem State.dropJob_dram (uid : Nat) : (s.dropJob uid).dram = s.dram := rfl
@[simp] theorem State.dropJob_flash (uid : Nat) : (s.dropJob uid).flash = s.flash := rfl
@[simp] theorem State.dropJob_siphon (uid : Nat) : (s.dropJob uid).siphon = s.siphon := rfl
@[simp] theorem State.dropJob_passage (uid : Nat) : (s.dropJob uid).passage = s.passage := rfl
@[simp] theorem State.dropJob_sec (uid : Nat) : (s.dropJob uid).sec = s.sec := rfl
@[simp] theorem State.dropJob_kadon (uid : Nat) : (s.dropJob uid).kadon = s.kadon := rfl
@[simp] theorem State.dropJob_trace (uid : Nat) : (s.dropJob uid).trace = s.trace := rfl
@[simp] theorem State.dropJob_replay (uid : Nat) : (s.dropJob uid).replay = s.replay := rfl
@[simp] theorem State.dropJob_power (uid : Nat) : (s.dropJob uid).power = s.power := rfl
@[simp] theorem State.dropJob_drip (uid : Nat) : (s.dropJob uid).drip = s.drip := rfl
@[simp] theorem State.dropJob_smbus (uid : Nat) : (s.dropJob uid).smbus = s.smbus := rfl
@[simp] theorem State.dropJob_out (uid : Nat) : (s.dropJob uid).out = s.out := rfl

/-! ## modSeq -/

@[simp] theorem State.modSeq_pending (n : Nat) (f : Seq → Seq) : (s.modSeq n f).pending = s.pending := rfl
@[simp] theorem State.modSeq_now (n : Nat) (f : Seq → Seq) : (s.modSeq n f).now = s.now := rfl
@[simp] theorem State.modSeq_free (n : Nat) (f : Seq → Seq) : (s.modSeq n f).free = s.free := rfl
@[simp] theorem State.modSeq_dev (n : Nat) (f : Seq → Seq) : (s.modSeq n f).dev = s.dev := rfl
@[simp] theorem State.modSeq_qps (n : Nat) (f : Seq → Seq) : (s.modSeq n f).qps = s.qps := rfl
@[simp] theorem State.modSeq_jobs (n : Nat) (f : Seq → Seq) : (s.modSeq n f).jobs = s.jobs := rfl
@[simp] theorem State.modSeq_link (n : Nat) (f : Seq → Seq) : (s.modSeq n f).link = s.link := rfl
@[simp] theorem State.modSeq_faults (n : Nat) (f : Seq → Seq) : (s.modSeq n f).faults = s.faults := rfl
@[simp] theorem State.modSeq_engines (n : Nat) (f : Seq → Seq) : (s.modSeq n f).engines = s.engines := rfl
@[simp] theorem State.modSeq_merges (n : Nat) (f : Seq → Seq) : (s.modSeq n f).merges = s.merges := rfl
@[simp] theorem State.modSeq_counters (n : Nat) (f : Seq → Seq) : (s.modSeq n f).counters = s.counters := rfl
@[simp] theorem State.modSeq_ctrBlocks (n : Nat) (f : Seq → Seq) : (s.modSeq n f).ctrBlocks = s.ctrBlocks := rfl
@[simp] theorem State.modSeq_parts (n : Nat) (f : Seq → Seq) : (s.modSeq n f).parts = s.parts := rfl
@[simp] theorem State.modSeq_kvs (n : Nat) (f : Seq → Seq) : (s.modSeq n f).kvs = s.kvs := rfl
@[simp] theorem State.modSeq_seqs (n : Nat) (f : Seq → Seq) : (s.modSeq n f).seqs = s.seqs.map fun q => if q.idx == n then f q else q := rfl
@[simp] theorem State.modSeq_gens (n : Nat) (f : Seq → Seq) : (s.modSeq n f).gens = s.gens := rfl
@[simp] theorem State.modSeq_slots (n : Nat) (f : Seq → Seq) : (s.modSeq n f).slots = s.slots := rfl
@[simp] theorem State.modSeq_moves (n : Nat) (f : Seq → Seq) : (s.modSeq n f).moves = s.moves := rfl
@[simp] theorem State.modSeq_mems (n : Nat) (f : Seq → Seq) : (s.modSeq n f).mems = s.mems := rfl
@[simp] theorem State.modSeq_echo (n : Nat) (f : Seq → Seq) : (s.modSeq n f).echo = s.echo := rfl
@[simp] theorem State.modSeq_vision (n : Nat) (f : Seq → Seq) : (s.modSeq n f).vision = s.vision := rfl
@[simp] theorem State.modSeq_dram (n : Nat) (f : Seq → Seq) : (s.modSeq n f).dram = s.dram := rfl
@[simp] theorem State.modSeq_flash (n : Nat) (f : Seq → Seq) : (s.modSeq n f).flash = s.flash := rfl
@[simp] theorem State.modSeq_siphon (n : Nat) (f : Seq → Seq) : (s.modSeq n f).siphon = s.siphon := rfl
@[simp] theorem State.modSeq_passage (n : Nat) (f : Seq → Seq) : (s.modSeq n f).passage = s.passage := rfl
@[simp] theorem State.modSeq_sec (n : Nat) (f : Seq → Seq) : (s.modSeq n f).sec = s.sec := rfl
@[simp] theorem State.modSeq_kadon (n : Nat) (f : Seq → Seq) : (s.modSeq n f).kadon = s.kadon := rfl
@[simp] theorem State.modSeq_trace (n : Nat) (f : Seq → Seq) : (s.modSeq n f).trace = s.trace := rfl
@[simp] theorem State.modSeq_replay (n : Nat) (f : Seq → Seq) : (s.modSeq n f).replay = s.replay := rfl
@[simp] theorem State.modSeq_power (n : Nat) (f : Seq → Seq) : (s.modSeq n f).power = s.power := rfl
@[simp] theorem State.modSeq_drip (n : Nat) (f : Seq → Seq) : (s.modSeq n f).drip = s.drip := rfl
@[simp] theorem State.modSeq_smbus (n : Nat) (f : Seq → Seq) : (s.modSeq n f).smbus = s.smbus := rfl
@[simp] theorem State.modSeq_out (n : Nat) (f : Seq → Seq) : (s.modSeq n f).out = s.out := rfl

/-! ## modSlot -/

@[simp] theorem State.modSlot_pending (n : Nat) (f : Slot → Slot) : (s.modSlot n f).pending = s.pending := rfl
@[simp] theorem State.modSlot_now (n : Nat) (f : Slot → Slot) : (s.modSlot n f).now = s.now := rfl
@[simp] theorem State.modSlot_free (n : Nat) (f : Slot → Slot) : (s.modSlot n f).free = s.free := rfl
@[simp] theorem State.modSlot_dev (n : Nat) (f : Slot → Slot) : (s.modSlot n f).dev = s.dev := rfl
@[simp] theorem State.modSlot_qps (n : Nat) (f : Slot → Slot) : (s.modSlot n f).qps = s.qps := rfl
@[simp] theorem State.modSlot_jobs (n : Nat) (f : Slot → Slot) : (s.modSlot n f).jobs = s.jobs := rfl
@[simp] theorem State.modSlot_link (n : Nat) (f : Slot → Slot) : (s.modSlot n f).link = s.link := rfl
@[simp] theorem State.modSlot_faults (n : Nat) (f : Slot → Slot) : (s.modSlot n f).faults = s.faults := rfl
@[simp] theorem State.modSlot_engines (n : Nat) (f : Slot → Slot) : (s.modSlot n f).engines = s.engines := rfl
@[simp] theorem State.modSlot_merges (n : Nat) (f : Slot → Slot) : (s.modSlot n f).merges = s.merges := rfl
@[simp] theorem State.modSlot_counters (n : Nat) (f : Slot → Slot) : (s.modSlot n f).counters = s.counters := rfl
@[simp] theorem State.modSlot_ctrBlocks (n : Nat) (f : Slot → Slot) : (s.modSlot n f).ctrBlocks = s.ctrBlocks := rfl
@[simp] theorem State.modSlot_parts (n : Nat) (f : Slot → Slot) : (s.modSlot n f).parts = s.parts := rfl
@[simp] theorem State.modSlot_kvs (n : Nat) (f : Slot → Slot) : (s.modSlot n f).kvs = s.kvs := rfl
@[simp] theorem State.modSlot_seqs (n : Nat) (f : Slot → Slot) : (s.modSlot n f).seqs = s.seqs := rfl
@[simp] theorem State.modSlot_gens (n : Nat) (f : Slot → Slot) : (s.modSlot n f).gens = s.gens := rfl
@[simp] theorem State.modSlot_slots (n : Nat) (f : Slot → Slot) : (s.modSlot n f).slots = s.slots.map fun t => if t.idx == n then f t else t := rfl
@[simp] theorem State.modSlot_moves (n : Nat) (f : Slot → Slot) : (s.modSlot n f).moves = s.moves := rfl
@[simp] theorem State.modSlot_mems (n : Nat) (f : Slot → Slot) : (s.modSlot n f).mems = s.mems := rfl
@[simp] theorem State.modSlot_echo (n : Nat) (f : Slot → Slot) : (s.modSlot n f).echo = s.echo := rfl
@[simp] theorem State.modSlot_vision (n : Nat) (f : Slot → Slot) : (s.modSlot n f).vision = s.vision := rfl
@[simp] theorem State.modSlot_dram (n : Nat) (f : Slot → Slot) : (s.modSlot n f).dram = s.dram := rfl
@[simp] theorem State.modSlot_flash (n : Nat) (f : Slot → Slot) : (s.modSlot n f).flash = s.flash := rfl
@[simp] theorem State.modSlot_siphon (n : Nat) (f : Slot → Slot) : (s.modSlot n f).siphon = s.siphon := rfl
@[simp] theorem State.modSlot_passage (n : Nat) (f : Slot → Slot) : (s.modSlot n f).passage = s.passage := rfl
@[simp] theorem State.modSlot_sec (n : Nat) (f : Slot → Slot) : (s.modSlot n f).sec = s.sec := rfl
@[simp] theorem State.modSlot_kadon (n : Nat) (f : Slot → Slot) : (s.modSlot n f).kadon = s.kadon := rfl
@[simp] theorem State.modSlot_trace (n : Nat) (f : Slot → Slot) : (s.modSlot n f).trace = s.trace := rfl
@[simp] theorem State.modSlot_replay (n : Nat) (f : Slot → Slot) : (s.modSlot n f).replay = s.replay := rfl
@[simp] theorem State.modSlot_power (n : Nat) (f : Slot → Slot) : (s.modSlot n f).power = s.power := rfl
@[simp] theorem State.modSlot_drip (n : Nat) (f : Slot → Slot) : (s.modSlot n f).drip = s.drip := rfl
@[simp] theorem State.modSlot_smbus (n : Nat) (f : Slot → Slot) : (s.modSlot n f).smbus = s.smbus := rfl
@[simp] theorem State.modSlot_out (n : Nat) (f : Slot → Slot) : (s.modSlot n f).out = s.out := rfl

/-! ## drawFree -/

@[simp] theorem State.drawFree_pending : (s.drawFree).pending = s.pending := rfl
@[simp] theorem State.drawFree_now : (s.drawFree).now = s.now := rfl
@[simp] theorem State.drawFree_free : (s.drawFree).free = s.free + 1 := rfl
@[simp] theorem State.drawFree_dev : (s.drawFree).dev = s.dev := rfl
@[simp] theorem State.drawFree_qps : (s.drawFree).qps = s.qps := rfl
@[simp] theorem State.drawFree_jobs : (s.drawFree).jobs = s.jobs := rfl
@[simp] theorem State.drawFree_link : (s.drawFree).link = s.link := rfl
@[simp] theorem State.drawFree_faults : (s.drawFree).faults = s.faults := rfl
@[simp] theorem State.drawFree_engines : (s.drawFree).engines = s.engines := rfl
@[simp] theorem State.drawFree_merges : (s.drawFree).merges = s.merges := rfl
@[simp] theorem State.drawFree_counters : (s.drawFree).counters = s.counters := rfl
@[simp] theorem State.drawFree_ctrBlocks : (s.drawFree).ctrBlocks = s.ctrBlocks := rfl
@[simp] theorem State.drawFree_parts : (s.drawFree).parts = s.parts := rfl
@[simp] theorem State.drawFree_kvs : (s.drawFree).kvs = s.kvs := rfl
@[simp] theorem State.drawFree_seqs : (s.drawFree).seqs = s.seqs := rfl
@[simp] theorem State.drawFree_gens : (s.drawFree).gens = s.gens := rfl
@[simp] theorem State.drawFree_slots : (s.drawFree).slots = s.slots := rfl
@[simp] theorem State.drawFree_moves : (s.drawFree).moves = s.moves := rfl
@[simp] theorem State.drawFree_mems : (s.drawFree).mems = s.mems := rfl
@[simp] theorem State.drawFree_echo : (s.drawFree).echo = s.echo := rfl
@[simp] theorem State.drawFree_vision : (s.drawFree).vision = s.vision := rfl
@[simp] theorem State.drawFree_dram : (s.drawFree).dram = s.dram := rfl
@[simp] theorem State.drawFree_flash : (s.drawFree).flash = s.flash := rfl
@[simp] theorem State.drawFree_siphon : (s.drawFree).siphon = s.siphon := rfl
@[simp] theorem State.drawFree_passage : (s.drawFree).passage = s.passage := rfl
@[simp] theorem State.drawFree_sec : (s.drawFree).sec = s.sec := rfl
@[simp] theorem State.drawFree_kadon : (s.drawFree).kadon = s.kadon := rfl
@[simp] theorem State.drawFree_trace : (s.drawFree).trace = s.trace := rfl
@[simp] theorem State.drawFree_replay : (s.drawFree).replay = s.replay := rfl
@[simp] theorem State.drawFree_power : (s.drawFree).power = s.power := rfl
@[simp] theorem State.drawFree_drip : (s.drawFree).drip = s.drip := rfl
@[simp] theorem State.drawFree_smbus : (s.drawFree).smbus = s.smbus := rfl
@[simp] theorem State.drawFree_out : (s.drawFree).out = s.out := rfl

/-! ## heal -/

@[simp] theorem State.heal_pending (a n : Nat) : (s.heal a n).pending = s.pending := rfl
@[simp] theorem State.heal_now (a n : Nat) : (s.heal a n).now = s.now := rfl
@[simp] theorem State.heal_free (a n : Nat) : (s.heal a n).free = s.free := rfl
@[simp] theorem State.heal_dev (a n : Nat) : (s.heal a n).dev = s.dev := rfl
@[simp] theorem State.heal_qps (a n : Nat) : (s.heal a n).qps = s.qps := rfl
@[simp] theorem State.heal_jobs (a n : Nat) : (s.heal a n).jobs = s.jobs := rfl
@[simp] theorem State.heal_link (a n : Nat) : (s.heal a n).link = s.link := rfl
@[simp] theorem State.heal_faults (a n : Nat) : (s.heal a n).faults = s.faults := rfl
@[simp] theorem State.heal_engines (a n : Nat) : (s.heal a n).engines = s.engines := rfl
@[simp] theorem State.heal_merges (a n : Nat) : (s.heal a n).merges = s.merges := rfl
@[simp] theorem State.heal_counters (a n : Nat) : (s.heal a n).counters = s.counters := rfl
@[simp] theorem State.heal_ctrBlocks (a n : Nat) : (s.heal a n).ctrBlocks = s.ctrBlocks := rfl
@[simp] theorem State.heal_parts (a n : Nat) : (s.heal a n).parts = s.parts := rfl
@[simp] theorem State.heal_kvs (a n : Nat) : (s.heal a n).kvs = s.kvs := rfl
@[simp] theorem State.heal_seqs (a n : Nat) : (s.heal a n).seqs = s.seqs := rfl
@[simp] theorem State.heal_gens (a n : Nat) : (s.heal a n).gens = s.gens := rfl
@[simp] theorem State.heal_slots (a n : Nat) : (s.heal a n).slots = s.slots := rfl
@[simp] theorem State.heal_moves (a n : Nat) : (s.heal a n).moves = s.moves := rfl
@[simp] theorem State.heal_mems (a n : Nat) : (s.heal a n).mems = s.mems := rfl
@[simp] theorem State.heal_echo (a n : Nat) : (s.heal a n).echo = s.echo := rfl
@[simp] theorem State.heal_vision (a n : Nat) : (s.heal a n).vision = s.vision := rfl
@[simp] theorem State.heal_dram (a n : Nat) : (s.heal a n).dram = { s.dram with poisoned := s.dram.poisoned.filter fun w => !covers a n w } := rfl
@[simp] theorem State.heal_flash (a n : Nat) : (s.heal a n).flash = s.flash := rfl
@[simp] theorem State.heal_siphon (a n : Nat) : (s.heal a n).siphon = s.siphon := rfl
@[simp] theorem State.heal_passage (a n : Nat) : (s.heal a n).passage = s.passage := rfl
@[simp] theorem State.heal_sec (a n : Nat) : (s.heal a n).sec = s.sec := rfl
@[simp] theorem State.heal_kadon (a n : Nat) : (s.heal a n).kadon = s.kadon := rfl
@[simp] theorem State.heal_trace (a n : Nat) : (s.heal a n).trace = s.trace := rfl
@[simp] theorem State.heal_replay (a n : Nat) : (s.heal a n).replay = s.replay := rfl
@[simp] theorem State.heal_power (a n : Nat) : (s.heal a n).power = s.power := rfl
@[simp] theorem State.heal_drip (a n : Nat) : (s.heal a n).drip = s.drip := rfl
@[simp] theorem State.heal_smbus (a n : Nat) : (s.heal a n).smbus = s.smbus := rfl
@[simp] theorem State.heal_out (a n : Nat) : (s.heal a n).out = s.out := rfl

/-! ## put -/

@[simp] theorem State.put_pending (a : Nat) (bs : List Byte) : (s.put a bs).pending = s.pending := rfl
@[simp] theorem State.put_now (a : Nat) (bs : List Byte) : (s.put a bs).now = s.now := rfl
@[simp] theorem State.put_free (a : Nat) (bs : List Byte) : (s.put a bs).free = s.free := rfl
@[simp] theorem State.put_dev (a : Nat) (bs : List Byte) : (s.put a bs).dev = s.dev := rfl
@[simp] theorem State.put_qps (a : Nat) (bs : List Byte) : (s.put a bs).qps = s.qps := rfl
@[simp] theorem State.put_jobs (a : Nat) (bs : List Byte) : (s.put a bs).jobs = s.jobs := rfl
@[simp] theorem State.put_link (a : Nat) (bs : List Byte) : (s.put a bs).link = s.link := rfl
@[simp] theorem State.put_faults (a : Nat) (bs : List Byte) : (s.put a bs).faults = s.faults := rfl
@[simp] theorem State.put_engines (a : Nat) (bs : List Byte) : (s.put a bs).engines = s.engines := rfl
@[simp] theorem State.put_merges (a : Nat) (bs : List Byte) : (s.put a bs).merges = s.merges := rfl
@[simp] theorem State.put_counters (a : Nat) (bs : List Byte) : (s.put a bs).counters = s.counters := rfl
@[simp] theorem State.put_ctrBlocks (a : Nat) (bs : List Byte) : (s.put a bs).ctrBlocks = s.ctrBlocks := rfl
@[simp] theorem State.put_parts (a : Nat) (bs : List Byte) : (s.put a bs).parts = s.parts := rfl
@[simp] theorem State.put_kvs (a : Nat) (bs : List Byte) : (s.put a bs).kvs = s.kvs := rfl
@[simp] theorem State.put_seqs (a : Nat) (bs : List Byte) : (s.put a bs).seqs = s.seqs := rfl
@[simp] theorem State.put_gens (a : Nat) (bs : List Byte) : (s.put a bs).gens = s.gens := rfl
@[simp] theorem State.put_slots (a : Nat) (bs : List Byte) : (s.put a bs).slots = s.slots := rfl
@[simp] theorem State.put_moves (a : Nat) (bs : List Byte) : (s.put a bs).moves = s.moves := rfl
@[simp] theorem State.put_mems (a : Nat) (bs : List Byte) : (s.put a bs).mems = { s.mems with bytes := Mem.put s.blank a bs s.mems.bytes } := rfl
@[simp] theorem State.put_echo (a : Nat) (bs : List Byte) : (s.put a bs).echo = s.echo := rfl
@[simp] theorem State.put_vision (a : Nat) (bs : List Byte) : (s.put a bs).vision = s.vision := rfl
@[simp] theorem State.put_dram (a : Nat) (bs : List Byte) : (s.put a bs).dram = (s.heal a bs.length).dram := rfl
@[simp] theorem State.put_flash (a : Nat) (bs : List Byte) : (s.put a bs).flash = s.flash := rfl
@[simp] theorem State.put_siphon (a : Nat) (bs : List Byte) : (s.put a bs).siphon = s.siphon := rfl
@[simp] theorem State.put_passage (a : Nat) (bs : List Byte) : (s.put a bs).passage = s.passage := rfl
@[simp] theorem State.put_sec (a : Nat) (bs : List Byte) : (s.put a bs).sec = s.sec := rfl
@[simp] theorem State.put_kadon (a : Nat) (bs : List Byte) : (s.put a bs).kadon = s.kadon := rfl
@[simp] theorem State.put_trace (a : Nat) (bs : List Byte) : (s.put a bs).trace = s.trace := rfl
@[simp] theorem State.put_replay (a : Nat) (bs : List Byte) : (s.put a bs).replay = s.replay := rfl
@[simp] theorem State.put_power (a : Nat) (bs : List Byte) : (s.put a bs).power = s.power := rfl
@[simp] theorem State.put_drip (a : Nat) (bs : List Byte) : (s.put a bs).drip = s.drip := rfl
@[simp] theorem State.put_smbus (a : Nat) (bs : List Byte) : (s.put a bs).smbus = s.smbus := rfl
@[simp] theorem State.put_out (a : Nat) (bs : List Byte) : (s.put a bs).out = s.out := rfl

/-! ## clearCells -/

@[simp] theorem State.clearCells_pending (a n : Nat) : (s.clearCells a n).pending = s.pending := rfl
@[simp] theorem State.clearCells_now (a n : Nat) : (s.clearCells a n).now = s.now := rfl
@[simp] theorem State.clearCells_free (a n : Nat) : (s.clearCells a n).free = s.free := rfl
@[simp] theorem State.clearCells_dev (a n : Nat) : (s.clearCells a n).dev = s.dev := rfl
@[simp] theorem State.clearCells_qps (a n : Nat) : (s.clearCells a n).qps = s.qps := rfl
@[simp] theorem State.clearCells_jobs (a n : Nat) : (s.clearCells a n).jobs = s.jobs := rfl
@[simp] theorem State.clearCells_link (a n : Nat) : (s.clearCells a n).link = s.link := rfl
@[simp] theorem State.clearCells_faults (a n : Nat) : (s.clearCells a n).faults = s.faults := rfl
@[simp] theorem State.clearCells_engines (a n : Nat) : (s.clearCells a n).engines = s.engines := rfl
@[simp] theorem State.clearCells_merges (a n : Nat) : (s.clearCells a n).merges = s.merges := rfl
@[simp] theorem State.clearCells_counters (a n : Nat) : (s.clearCells a n).counters = s.counters := rfl
@[simp] theorem State.clearCells_ctrBlocks (a n : Nat) : (s.clearCells a n).ctrBlocks = s.ctrBlocks := rfl
@[simp] theorem State.clearCells_parts (a n : Nat) : (s.clearCells a n).parts = s.parts := rfl
@[simp] theorem State.clearCells_kvs (a n : Nat) : (s.clearCells a n).kvs = s.kvs := rfl
@[simp] theorem State.clearCells_seqs (a n : Nat) : (s.clearCells a n).seqs = s.seqs := rfl
@[simp] theorem State.clearCells_gens (a n : Nat) : (s.clearCells a n).gens = s.gens := rfl
@[simp] theorem State.clearCells_slots (a n : Nat) : (s.clearCells a n).slots = s.slots := rfl
@[simp] theorem State.clearCells_moves (a n : Nat) : (s.clearCells a n).moves = s.moves := rfl
@[simp] theorem State.clearCells_mems (a n : Nat) : (s.clearCells a n).mems = { s.mems with bytes := Mem.clear a (a + n) s.mems.bytes } := rfl
@[simp] theorem State.clearCells_echo (a n : Nat) : (s.clearCells a n).echo = s.echo := rfl
@[simp] theorem State.clearCells_vision (a n : Nat) : (s.clearCells a n).vision = s.vision := rfl
@[simp] theorem State.clearCells_dram (a n : Nat) : (s.clearCells a n).dram = (s.heal a n).dram := rfl
@[simp] theorem State.clearCells_flash (a n : Nat) : (s.clearCells a n).flash = s.flash := rfl
@[simp] theorem State.clearCells_siphon (a n : Nat) : (s.clearCells a n).siphon = s.siphon := rfl
@[simp] theorem State.clearCells_passage (a n : Nat) : (s.clearCells a n).passage = s.passage := rfl
@[simp] theorem State.clearCells_sec (a n : Nat) : (s.clearCells a n).sec = s.sec := rfl
@[simp] theorem State.clearCells_kadon (a n : Nat) : (s.clearCells a n).kadon = s.kadon := rfl
@[simp] theorem State.clearCells_trace (a n : Nat) : (s.clearCells a n).trace = s.trace := rfl
@[simp] theorem State.clearCells_replay (a n : Nat) : (s.clearCells a n).replay = s.replay := rfl
@[simp] theorem State.clearCells_power (a n : Nat) : (s.clearCells a n).power = s.power := rfl
@[simp] theorem State.clearCells_drip (a n : Nat) : (s.clearCells a n).drip = s.drip := rfl
@[simp] theorem State.clearCells_smbus (a n : Nat) : (s.clearCells a n).smbus = s.smbus := rfl
@[simp] theorem State.clearCells_out (a n : Nat) : (s.clearCells a n).out = s.out := rfl

/-! ## flashPut -/

@[simp] theorem State.flashPut_pending (a : Nat) (bs : List Byte) : (s.flashPut a bs).pending = s.pending := rfl
@[simp] theorem State.flashPut_now (a : Nat) (bs : List Byte) : (s.flashPut a bs).now = s.now := rfl
@[simp] theorem State.flashPut_free (a : Nat) (bs : List Byte) : (s.flashPut a bs).free = s.free := rfl
@[simp] theorem State.flashPut_dev (a : Nat) (bs : List Byte) : (s.flashPut a bs).dev = s.dev := rfl
@[simp] theorem State.flashPut_qps (a : Nat) (bs : List Byte) : (s.flashPut a bs).qps = s.qps := rfl
@[simp] theorem State.flashPut_jobs (a : Nat) (bs : List Byte) : (s.flashPut a bs).jobs = s.jobs := rfl
@[simp] theorem State.flashPut_link (a : Nat) (bs : List Byte) : (s.flashPut a bs).link = s.link := rfl
@[simp] theorem State.flashPut_faults (a : Nat) (bs : List Byte) : (s.flashPut a bs).faults = s.faults := rfl
@[simp] theorem State.flashPut_engines (a : Nat) (bs : List Byte) : (s.flashPut a bs).engines = s.engines := rfl
@[simp] theorem State.flashPut_merges (a : Nat) (bs : List Byte) : (s.flashPut a bs).merges = s.merges := rfl
@[simp] theorem State.flashPut_counters (a : Nat) (bs : List Byte) : (s.flashPut a bs).counters = s.counters := rfl
@[simp] theorem State.flashPut_ctrBlocks (a : Nat) (bs : List Byte) : (s.flashPut a bs).ctrBlocks = s.ctrBlocks := rfl
@[simp] theorem State.flashPut_parts (a : Nat) (bs : List Byte) : (s.flashPut a bs).parts = s.parts := rfl
@[simp] theorem State.flashPut_kvs (a : Nat) (bs : List Byte) : (s.flashPut a bs).kvs = s.kvs := rfl
@[simp] theorem State.flashPut_seqs (a : Nat) (bs : List Byte) : (s.flashPut a bs).seqs = s.seqs := rfl
@[simp] theorem State.flashPut_gens (a : Nat) (bs : List Byte) : (s.flashPut a bs).gens = s.gens := rfl
@[simp] theorem State.flashPut_slots (a : Nat) (bs : List Byte) : (s.flashPut a bs).slots = s.slots := rfl
@[simp] theorem State.flashPut_moves (a : Nat) (bs : List Byte) : (s.flashPut a bs).moves = s.moves := rfl
@[simp] theorem State.flashPut_mems (a : Nat) (bs : List Byte) : (s.flashPut a bs).mems = { s.mems with flash := Mem.put flashBlank a bs s.mems.flash } := rfl
@[simp] theorem State.flashPut_echo (a : Nat) (bs : List Byte) : (s.flashPut a bs).echo = s.echo := rfl
@[simp] theorem State.flashPut_vision (a : Nat) (bs : List Byte) : (s.flashPut a bs).vision = s.vision := rfl
@[simp] theorem State.flashPut_dram (a : Nat) (bs : List Byte) : (s.flashPut a bs).dram = s.dram := rfl
@[simp] theorem State.flashPut_flash (a : Nat) (bs : List Byte) : (s.flashPut a bs).flash = s.flash := rfl
@[simp] theorem State.flashPut_siphon (a : Nat) (bs : List Byte) : (s.flashPut a bs).siphon = s.siphon := rfl
@[simp] theorem State.flashPut_passage (a : Nat) (bs : List Byte) : (s.flashPut a bs).passage = s.passage := rfl
@[simp] theorem State.flashPut_sec (a : Nat) (bs : List Byte) : (s.flashPut a bs).sec = s.sec := rfl
@[simp] theorem State.flashPut_kadon (a : Nat) (bs : List Byte) : (s.flashPut a bs).kadon = s.kadon := rfl
@[simp] theorem State.flashPut_trace (a : Nat) (bs : List Byte) : (s.flashPut a bs).trace = s.trace := rfl
@[simp] theorem State.flashPut_replay (a : Nat) (bs : List Byte) : (s.flashPut a bs).replay = s.replay := rfl
@[simp] theorem State.flashPut_power (a : Nat) (bs : List Byte) : (s.flashPut a bs).power = s.power := rfl
@[simp] theorem State.flashPut_drip (a : Nat) (bs : List Byte) : (s.flashPut a bs).drip = s.drip := rfl
@[simp] theorem State.flashPut_smbus (a : Nat) (bs : List Byte) : (s.flashPut a bs).smbus = s.smbus := rfl
@[simp] theorem State.flashPut_out (a : Nat) (bs : List Byte) : (s.flashPut a bs).out = s.out := rfl

/-! ## flashClear -/

@[simp] theorem State.flashClear_pending (a n : Nat) : (s.flashClear a n).pending = s.pending := rfl
@[simp] theorem State.flashClear_now (a n : Nat) : (s.flashClear a n).now = s.now := rfl
@[simp] theorem State.flashClear_free (a n : Nat) : (s.flashClear a n).free = s.free := rfl
@[simp] theorem State.flashClear_dev (a n : Nat) : (s.flashClear a n).dev = s.dev := rfl
@[simp] theorem State.flashClear_qps (a n : Nat) : (s.flashClear a n).qps = s.qps := rfl
@[simp] theorem State.flashClear_jobs (a n : Nat) : (s.flashClear a n).jobs = s.jobs := rfl
@[simp] theorem State.flashClear_link (a n : Nat) : (s.flashClear a n).link = s.link := rfl
@[simp] theorem State.flashClear_faults (a n : Nat) : (s.flashClear a n).faults = s.faults := rfl
@[simp] theorem State.flashClear_engines (a n : Nat) : (s.flashClear a n).engines = s.engines := rfl
@[simp] theorem State.flashClear_merges (a n : Nat) : (s.flashClear a n).merges = s.merges := rfl
@[simp] theorem State.flashClear_counters (a n : Nat) : (s.flashClear a n).counters = s.counters := rfl
@[simp] theorem State.flashClear_ctrBlocks (a n : Nat) : (s.flashClear a n).ctrBlocks = s.ctrBlocks := rfl
@[simp] theorem State.flashClear_parts (a n : Nat) : (s.flashClear a n).parts = s.parts := rfl
@[simp] theorem State.flashClear_kvs (a n : Nat) : (s.flashClear a n).kvs = s.kvs := rfl
@[simp] theorem State.flashClear_seqs (a n : Nat) : (s.flashClear a n).seqs = s.seqs := rfl
@[simp] theorem State.flashClear_gens (a n : Nat) : (s.flashClear a n).gens = s.gens := rfl
@[simp] theorem State.flashClear_slots (a n : Nat) : (s.flashClear a n).slots = s.slots := rfl
@[simp] theorem State.flashClear_moves (a n : Nat) : (s.flashClear a n).moves = s.moves := rfl
@[simp] theorem State.flashClear_mems (a n : Nat) : (s.flashClear a n).mems = { s.mems with flash := Mem.clear a (a + n) s.mems.flash } := rfl
@[simp] theorem State.flashClear_echo (a n : Nat) : (s.flashClear a n).echo = s.echo := rfl
@[simp] theorem State.flashClear_vision (a n : Nat) : (s.flashClear a n).vision = s.vision := rfl
@[simp] theorem State.flashClear_dram (a n : Nat) : (s.flashClear a n).dram = s.dram := rfl
@[simp] theorem State.flashClear_flash (a n : Nat) : (s.flashClear a n).flash = s.flash := rfl
@[simp] theorem State.flashClear_siphon (a n : Nat) : (s.flashClear a n).siphon = s.siphon := rfl
@[simp] theorem State.flashClear_passage (a n : Nat) : (s.flashClear a n).passage = s.passage := rfl
@[simp] theorem State.flashClear_sec (a n : Nat) : (s.flashClear a n).sec = s.sec := rfl
@[simp] theorem State.flashClear_kadon (a n : Nat) : (s.flashClear a n).kadon = s.kadon := rfl
@[simp] theorem State.flashClear_trace (a n : Nat) : (s.flashClear a n).trace = s.trace := rfl
@[simp] theorem State.flashClear_replay (a n : Nat) : (s.flashClear a n).replay = s.replay := rfl
@[simp] theorem State.flashClear_power (a n : Nat) : (s.flashClear a n).power = s.power := rfl
@[simp] theorem State.flashClear_drip (a n : Nat) : (s.flashClear a n).drip = s.drip := rfl
@[simp] theorem State.flashClear_smbus (a n : Nat) : (s.flashClear a n).smbus = s.smbus := rfl
@[simp] theorem State.flashClear_out (a n : Nat) : (s.flashClear a n).out = s.out := rfl

/-! ## modFn -/

@[simp] theorem State.modFn_pending (fn : Fn) (f : FnSt → FnSt) : (s.modFn fn f).pending = s.pending := by cases fn <;> rfl
@[simp] theorem State.modFn_now (fn : Fn) (f : FnSt → FnSt) : (s.modFn fn f).now = s.now := by cases fn <;> rfl
@[simp] theorem State.modFn_free (fn : Fn) (f : FnSt → FnSt) : (s.modFn fn f).free = s.free := by cases fn <;> rfl
@[simp] theorem State.modFn_dev (fn : Fn) (f : FnSt → FnSt) : (s.modFn fn f).dev = s.dev := by cases fn <;> rfl
@[simp] theorem State.modFn_qps (fn : Fn) (f : FnSt → FnSt) : (s.modFn fn f).qps = s.qps := by cases fn <;> rfl
@[simp] theorem State.modFn_jobs (fn : Fn) (f : FnSt → FnSt) : (s.modFn fn f).jobs = s.jobs := by cases fn <;> rfl
@[simp] theorem State.modFn_faults (fn : Fn) (f : FnSt → FnSt) : (s.modFn fn f).faults = s.faults := by cases fn <;> rfl
@[simp] theorem State.modFn_engines (fn : Fn) (f : FnSt → FnSt) : (s.modFn fn f).engines = s.engines := by cases fn <;> rfl
@[simp] theorem State.modFn_merges (fn : Fn) (f : FnSt → FnSt) : (s.modFn fn f).merges = s.merges := by cases fn <;> rfl
@[simp] theorem State.modFn_counters (fn : Fn) (f : FnSt → FnSt) : (s.modFn fn f).counters = s.counters := by cases fn <;> rfl
@[simp] theorem State.modFn_ctrBlocks (fn : Fn) (f : FnSt → FnSt) : (s.modFn fn f).ctrBlocks = s.ctrBlocks := by cases fn <;> rfl
@[simp] theorem State.modFn_parts (fn : Fn) (f : FnSt → FnSt) : (s.modFn fn f).parts = s.parts := by cases fn <;> rfl
@[simp] theorem State.modFn_kvs (fn : Fn) (f : FnSt → FnSt) : (s.modFn fn f).kvs = s.kvs := by cases fn <;> rfl
@[simp] theorem State.modFn_seqs (fn : Fn) (f : FnSt → FnSt) : (s.modFn fn f).seqs = s.seqs := by cases fn <;> rfl
@[simp] theorem State.modFn_gens (fn : Fn) (f : FnSt → FnSt) : (s.modFn fn f).gens = s.gens := by cases fn <;> rfl
@[simp] theorem State.modFn_slots (fn : Fn) (f : FnSt → FnSt) : (s.modFn fn f).slots = s.slots := by cases fn <;> rfl
@[simp] theorem State.modFn_moves (fn : Fn) (f : FnSt → FnSt) : (s.modFn fn f).moves = s.moves := by cases fn <;> rfl
@[simp] theorem State.modFn_mems (fn : Fn) (f : FnSt → FnSt) : (s.modFn fn f).mems = s.mems := by cases fn <;> rfl
@[simp] theorem State.modFn_echo (fn : Fn) (f : FnSt → FnSt) : (s.modFn fn f).echo = s.echo := by cases fn <;> rfl
@[simp] theorem State.modFn_vision (fn : Fn) (f : FnSt → FnSt) : (s.modFn fn f).vision = s.vision := by cases fn <;> rfl
@[simp] theorem State.modFn_dram (fn : Fn) (f : FnSt → FnSt) : (s.modFn fn f).dram = s.dram := by cases fn <;> rfl
@[simp] theorem State.modFn_flash (fn : Fn) (f : FnSt → FnSt) : (s.modFn fn f).flash = s.flash := by cases fn <;> rfl
@[simp] theorem State.modFn_siphon (fn : Fn) (f : FnSt → FnSt) : (s.modFn fn f).siphon = s.siphon := by cases fn <;> rfl
@[simp] theorem State.modFn_passage (fn : Fn) (f : FnSt → FnSt) : (s.modFn fn f).passage = s.passage := by cases fn <;> rfl
@[simp] theorem State.modFn_sec (fn : Fn) (f : FnSt → FnSt) : (s.modFn fn f).sec = s.sec := by cases fn <;> rfl
@[simp] theorem State.modFn_kadon (fn : Fn) (f : FnSt → FnSt) : (s.modFn fn f).kadon = s.kadon := by cases fn <;> rfl
@[simp] theorem State.modFn_trace (fn : Fn) (f : FnSt → FnSt) : (s.modFn fn f).trace = s.trace := by cases fn <;> rfl
@[simp] theorem State.modFn_replay (fn : Fn) (f : FnSt → FnSt) : (s.modFn fn f).replay = s.replay := by cases fn <;> rfl
@[simp] theorem State.modFn_power (fn : Fn) (f : FnSt → FnSt) : (s.modFn fn f).power = s.power := by cases fn <;> rfl
@[simp] theorem State.modFn_drip (fn : Fn) (f : FnSt → FnSt) : (s.modFn fn f).drip = s.drip := by cases fn <;> rfl
@[simp] theorem State.modFn_smbus (fn : Fn) (f : FnSt → FnSt) : (s.modFn fn f).smbus = s.smbus := by cases fn <;> rfl
@[simp] theorem State.modFn_out (fn : Fn) (f : FnSt → FnSt) : (s.modFn fn f).out = s.out := by cases fn <;> rfl

/-! ## Reading a modified unit -/

theorem getD_modify_same {α : Type} (l : List α) (d : α) {n : Nat} (f : α → α) (h : n < l.length) :
    (l.modify n f).getD n d = f (l.getD n d) := by
  simp [List.getD_eq_getElem?_getD, h]

theorem getD_modify_other {α : Type} (l : List α) (d : α) {n m : Nat} (f : α → α) (h : n ≠ m) :
    (l.modify n f).getD m d = l.getD m d := by
  simp [List.getD_eq_getElem?_getD, h]

theorem State.qp_modQp_same {n : Nat} (f : Qp → Qp) (h : n < s.qps.length) : (s.modQp n f).qp n = f (s.qp n) :=
  getD_modify_same _ _ f h

theorem State.qp_modQp_other {n m : Nat} (f : Qp → Qp) (h : n ≠ m) : (s.modQp n f).qp m = s.qp m :=
  getD_modify_other _ _ f h

theorem State.part_modPart_same {n : Nat} (f : Part → Part) (h : n < s.parts.length) : (s.modPart n f).part n = f (s.part n) :=
  getD_modify_same _ _ f h

theorem State.part_modPart_other {n m : Nat} (f : Part → Part) (h : n ≠ m) : (s.modPart n f).part m = s.part m :=
  getD_modify_other _ _ f h

theorem State.kv_modKv_same {n : Nat} (f : Kv → Kv) (h : n < s.kvs.length) : (s.modKv n f).kv n = f (s.kv n) :=
  getD_modify_same _ _ f h

theorem State.kv_modKv_other {n m : Nat} (f : Kv → Kv) (h : n ≠ m) : (s.modKv n f).kv m = s.kv m :=
  getD_modify_other _ _ f h

theorem State.eng_modEng_same {n : Nat} (f : Engine → Engine) (h : n < s.engines.length) : (s.modEng n f).eng n = f (s.eng n) :=
  getD_modify_same _ _ f h

theorem State.eng_modEng_other {n m : Nat} (f : Engine → Engine) (h : n ≠ m) : (s.modEng n f).eng m = s.eng m :=
  getD_modify_other _ _ f h

theorem State.chan_modChan_same {n : Nat} (f : Chan → Chan) (h : n < s.dram.chans.length) : (s.modChan n f).chan n = f (s.chan n) :=
  getD_modify_same _ _ f h

theorem State.chan_modChan_other {n m : Nat} (f : Chan → Chan) (h : n ≠ m) : (s.modChan n f).chan m = s.chan m :=
  getD_modify_other _ _ f h

theorem State.dport_modDport_same {n : Nat} (f : Port → Port) (h : n < s.dram.ports.length) : (s.modDport n f).dport n = f (s.dport n) :=
  getD_modify_same _ _ f h

theorem State.dport_modDport_other {n m : Nat} (f : Port → Port) (h : n ≠ m) : (s.modDport n f).dport m = s.dport m :=
  getD_modify_other _ _ f h

theorem State.die_modDie_same {n : Nat} (f : Die → Die) (h : n < s.flash.dies.length) : (s.modDie n f).die n = f (s.die n) :=
  getD_modify_same _ _ f h

theorem State.die_modDie_other {n m : Nat} (f : Die → Die) (h : n ≠ m) : (s.modDie n f).die m = s.die m :=
  getD_modify_other _ _ f h

theorem State.sch_modSch_same {n : Nat} (f : SChan → SChan) (h : n < s.siphon.chans.length) : (s.modSch n f).sch n = f (s.sch n) :=
  getD_modify_same _ _ f h

theorem State.sch_modSch_other {n m : Nat} (f : SChan → SChan) (h : n ≠ m) : (s.modSch n f).sch m = s.sch m :=
  getD_modify_other _ _ f h

theorem State.pport_modPport_same {n : Nat} (f : PPort → PPort) (h : n < s.passage.ports.length) : (s.modPport n f).pport n = f (s.pport n) :=
  getD_modify_same _ _ f h

theorem State.pport_modPport_other {n m : Nat} (f : PPort → PPort) (h : n ≠ m) : (s.modPport n f).pport m = s.pport m :=
  getD_modify_other _ _ f h

theorem State.cp_modCp_same {n : Nat} (f : Cp → Cp) (h : n < s.kadon.cps.length) : (s.modCp n f).cp n = f (s.cp n) :=
  getD_modify_same _ _ f h

theorem State.cp_modCp_other {n m : Nat} (f : Cp → Cp) (h : n ≠ m) : (s.modCp n f).cp m = s.cp m :=
  getD_modify_other _ _ f h

/-! ## Reading a modified job, sequence or slot -/

theorem find_map_same {α : Type} (l : List α) (key : α → Nat) (k : Nat) (f : α → α) (h : ∀ x, key (f x) = key x) :
    (l.map fun x => if key x == k then f x else x).find? (fun x => key x == k) = (l.find? fun x => key x == k).map f := by
  induction l with
  | nil => rfl
  | cons x l ih =>
    by_cases e : key x = k
    · simp [e, h]
    · simpa [e] using ih

theorem find_map_other {α : Type} (l : List α) (key : α → Nat) {k m : Nat} (f : α → α) (h : ∀ x, key (f x) = key x)
    (hk : k ≠ m) :
    (l.map fun x => if key x == k then f x else x).find? (fun x => key x == m) = l.find? fun x => key x == m := by
  induction l with
  | nil => rfl
  | cons x l ih =>
    by_cases e : key x = k
    · have : key x ≠ m := e ▸ hk
      simpa [e, h, hk] using ih
    · by_cases e' : key x = m
      · simp [e', Ne.symm hk]
      · simpa [e, e'] using ih

theorem State.job_modJob_same (uid : Nat) (f : Job → Job) (h : ∀ j, (f j).uid = j.uid) :
    (s.modJob uid f).job? uid = (s.job? uid).map f :=
  find_map_same s.jobs.list Job.uid uid f h

theorem State.job_modJob_other {uid u : Nat} (f : Job → Job) (h : ∀ j, (f j).uid = j.uid) (hu : uid ≠ u) :
    (s.modJob uid f).job? u = s.job? u :=
  find_map_other s.jobs.list Job.uid f h hu

theorem State.seq_modSeq_same (n : Nat) (f : Seq → Seq) (h : ∀ q, (f q).idx = q.idx) :
    (s.modSeq n f).seq? n = (s.seq? n).map f :=
  find_map_same s.seqs Seq.idx n f h

theorem State.seq_modSeq_other {n m : Nat} (f : Seq → Seq) (h : ∀ q, (f q).idx = q.idx) (hn : n ≠ m) :
    (s.modSeq n f).seq? m = s.seq? m :=
  find_map_other s.seqs Seq.idx f h hn

end Sys2Proof.Machine
end

