-- ==== Sys2Proof/WellFormed.lean ====
section
/-! DEFINITION. Which commands are well formed: their unit numbers name units of the device and their widths are widths that
the bus or the protocol has. exec gives an ill-formed command the meaning of an access or an event that reaches nothing. -/

namespace Sys2Proof

/-- A function of the device: the PF, or the VF of PT0 to PT7 (R322). -/
def Fn.wf : Fn → Bool
  | .pf => true
  | .vf v => decide (v < 8)

/-- A frame's fields within R332's widths and ranges. -/
def Frame.wf (f : Frame) : Bool :=
  decide (f.ctr < 2 ^ 48) && decide (f.type < 16) && decide (f.vc < 2) && decide (1 ≤ f.hops) && decide (f.hops < 256) &&
    decide (f.seq < 65536) && decide (f.ackSeq < 65536) && decide (f.payload.length ≤ 2048) && f.payload.length % 16 == 0

/-- A cell of the checksum grid, and an error that it shows (R129). -/
def StepMet.wf : StepMet → Bool
  | .checksum _ row col delta => decide (row < 65) && decide (col < 65) && delta != 0
  | _ => true

/-- Host accesses of BAR0 and BAR2 are of 1 to 64 bytes within the BAR. -/
def accessWf (limit offset size : Nat) : Bool := decide (1 ≤ size) && decide (size ≤ 64) && decide (offset + size ≤ limit)

def Instr.wf : Instr → Bool
  | .ringDoorbell fn offset size _ | .pushDoorbell fn offset size _ => fn.wf && accessWf 0x10000 offset size
  | .writeCompletion qp | .moderationTimeout qp => decide (qp < 64)
  | .qpEnable fn qp | .qpDisable fn qp => fn.wf && decide (qp < 64)
  | .hostAccessReturns fn | .msixUnmask fn _ | .busMasterEnable fn => fn.wf
  | .tileTaskLoad _ words => words.isEmpty || (words.length == 32 && words.all fun w => decide (w < 2 ^ 32))
  | .slotGrant eng | .fetchStepIssue eng | .stopRamp eng | .engineMapOut eng _ | .quantumExpiry eng | .domainRamp eng
  | .rampComplete eng | .idleGate eng | .domainShort eng _ =>
      decide (eng < 32)
  | .fetchStepComplete eng ctx met => decide (eng < 32) && decide (ctx < 128) && met.wf
  | .taskRetire eng ctx _ | .priorityAging eng ctx | .contextRelease eng ctx
  | .appendTimeout eng ctx =>
      decide (eng < 32) && decide (ctx < 128)
  | .sumpUnitGrant part | .parkGroup part | .groupFlush part | .unitsFreed part | .idleEpochTick part
  | .pageReclaim part =>
      decide (part < 8)
  | .dramRequest port _ len _ => decide (port < 44) && decide (1 ≤ len)
  | .urgencyChange port => decide (port < 44)
  | .crossingGrant ch | .dramReadComplete ch _ _ | .patrolScrub ch _ _ _ | .perBankRefresh ch | .driftTrack ch _
  | .channelMapOut ch | .powerDownEntry ch | .dramWriteComplete ch _ _ =>
      decide (ch < 24)
  | .tempReadout readings => readings.length == 6
  | .channelRetrain ch steps => decide (ch < 24) && steps.length == 3
  | .dramTraining found => found.length == 24 && found.all fun c => c.steps.length == 4
  | .gapMove die | .eraseSuspend die | .eraseResume die | .eraseWindowEnd die | .eraseStarved die
  | .flashOperationDone die _ =>
      decide (die < 32)
  | .siphonTransferComplete ch | .siphonAging ch | .siphonError ch _ => decide (ch < 16)
  | .flrVf v => decide (v < 8)
  | .bar4Access fn offset len _ write => fn.wf && decide (1 ≤ len) && decide (offset + len ≤ 2 ^ 37) && (match write with
    | some bs => bs.length == len
    | none => true)
  | .owningFunctionChange _ numVfs => decide (numVfs ≤ 8)
  | .ideIntegrityFail stream => decide (stream < 8)
  | .ideKm _ key => decide (key.stream < 8) && key.key.length == 32
  | .getCertificate _ slot offset len => decide (slot < 8) && decide (offset < 65536) && decide (len < 65536)
  | .keyExchange _ publicKey => publicKey.length == 96
  | .challenge _ slot nonce => decide (slot < 8) && nonce.length == 32
  | .getMeasurements _ index nonce => decide (index < 256) && nonce.length == 32
  | .data port frame | .ack port frame | .nak port frame | .credit port frame | .probe port frame
  | .probeReply port frame | .keyx port frame _ | .discover port frame =>
      decide (port < 2) && frame.wf
  | .portLinkUp port | .portDown port _ | .replayTimeout port | .ackTimer port | .creditTimer port
  | .rekeyThreshold port | .portLocked port | .keyxRetry port =>
      decide (port < 2)
  | .xferReady port ids tag =>
      decide (port < 2) && decide (ids.origin < 65536) && decide (ids.peer < 65536) && decide (tag < 2 ^ 32)
  | .passageRekey fn port | .passageEnable fn port _ => fn.wf && decide (port < 2)
  | .cpWatchdog cp | .cpRestartDone cp => decide (cp < 3)
  | .fwUpdate _ met => (match met with
    | .watchdog cp => decide (cp < 4)
    | _ => true)
  | .thermalSample readings => readings.length == 40
  | .sectorFault sector => decide (sector < 4)
  | .dripReplan needs => needs.length == 8
  | .strapSample mid => decide (mid < 16)
  | .registerWrite fn offset size _ => fn.wf && accessWf 0x1000000 offset size
  | .sramPatrolScrub group _ _ => decide (group < 8)
  | .refreshManagement ch bank => decide (ch < 24) && decide (bank < 32)
  | .takeDescriptor | .loadModel _ _ | .unloadModel _ | .prefill _ | .prefillChunk _ | .decodeStep _ | .verifyTree _
  | .samplerDraw _ | .kvMove _ _ | .kvShipOut _ | .kvShipIn _ | .prefixLookup _ | .prefixInsert _ | .variantLoad _
  | .trainStep _ | .trainBatch _ | .visionFrame _ | .echoSearch _ | .suspend _ | .resume _ | .cancel _ | .query _
  | .flashRead _ | .flashProgram _ | .flashErase _ | .flashProtect _ | .tileList _ | .dmaRaw _ | .createPartition _
  | .destroyPartition _ | .attest _ | .safePoint _ | .deadlineTick _ | .withdrawalEnd _ | .mergeFold _ _
  | .echoWorkUnit _ | .echoAging | .progressPoll | .visionBurst _ | .stallTimeout | .lateDataDiscard | .warpPatch _
  | .promotion _ _ _ _ _ _ | .moveLanded _ | .fetchDeadline _ _ _ | .dramTrainGo _ _ | .flashMount | .powerLoss
  | .siphonBurstIssue | .linkTrained | .linkLoss | .flrPf _ | .hotReset _ | .doeDiscovery _ | .getVersion _
  | .getCapabilities _ | .negotiateAlgorithms _ _ | .getDigests _ | .finish _ _ | .heartbeat _ | .keyUpdate _ | .endSession _
  | .readyResend _ | .e2eAck _ _ _ | .xferHold _ | .holdTimer _
  | .xferAbort _ _ | .shipProgressTimeout _ | .probeTimeout _ | .rngHealthFail | .rngRetestEnd _ | .rngRetest _
  | .drbgReseed | .cryptoSegment | .cpBootGo _ _ | .spWatchdog | .traceEnable _ _ | .traceTailWrite _ _ | .replayGo _ _
  | .replayStop _ | .powerCapEval _ | .pwrCapWrite _ _ | .pwrbrkN _ | .thermalTrip | .clockLoss | .timebaseLoRead _
  | .dripPoll _ | .faultOccurrence _ _ _ _ _ _ | .continuedRecord _ _ | .faultTailWrite _ _ | .powerOn _ | .fullReset _ _
  | .warmReset _ _ | .perstN _ _ _ | .deviceReady | .shutdown _ | .d3hotEntry | .d3hotExit _ | .railsValid
  | .p12vOvervoltage | .status | .tempHottest | .tempModule _ | .powerIn | .capSet _ _ | .emergency _ _ | .clearAlert _
  | .fruOffset _ _ | .fruRead | .alertResponse | .auxRailLoss | .referenceClockRestored _ => true

end Sys2Proof
end

