-- ==== Sys2Proof/Tests/Slice0.lean ====
section
/-! SUPPORT. Tests: the checks of WellFormed refuse an ill-formed term each; every statement's hypotheses are met by a
concrete state; worked values of the spec come out as the spec gives them. -/

namespace Sys2Proof.Tests

open Sys2Proof.Machine

-- One theorem at a time: a `decide +kernel` waits for the kernel to have checked all that stands before it, and each
-- theorem that waits beside the others would hold a thread.
set_option Elab.async false

/-! ## Small states -/

/-- The words of a descriptor: opcode and flags, JOB_ID, deadline and policy, then the body. -/
def desc (w0 job w2 : Nat) (body : List Nat) : List Nat :=
  [w0, job, w2] ++ body ++ List.replicate (13 - body.length) 0

/-- PT0 with the expert privilege, every engine and one granule; the others absent. -/
def pt0 : Part := { Part.absent with
  valid := true, expert := true, engines := List.range 32, granules := [3], sumpQuota := 64 }

/-- A READY device: the link is up, PT0 owns all, QP1 is enabled, every processor runs. -/
def w0 : State := { State.reset with
  now := 5000
  dev := { Dev.reset with ready := true, stage := .ready, released := true }
  link := { Link.reset with up := true, fnReady := true, pf := { FnSt.reset 64 with busMaster := true } }
  qps := State.reset.qps.set 1 { Qp.reset with enabled := true }
  parts := State.reset.parts.set 0 pt0
  dram := { Dram.reset with granulesBacked := 96, trained := true, chans := List.replicate 24 { Chan.reset with active := true } }
  kadon := { Kadon.reset with cps := List.replicate 4 { Cp.reset with state := .running } } }

/-- A job of PT0 on QP1. -/
def job (uid op : Nat) (words : List Nat) : Job :=
  { uid := uid, qp := 1, part := 0, jobId := 100 + uid, opcode := op, expert := false, prio := 0, notify := false
    fence := false, words := words, startTs := 4000, deadlineUs := 0, policy := 1, cp := 0, takenBy := 0, pool := List.range 32
    state := .queued, ending := none, epoch := 0, quality := 0, lateRaised := false, status := 0, finished := false
    silent := false, ctrs := none, window := none, unitWait := none, redo := [], partsOn := [], areas := [], shadowed := []
    ext := .none }

/-- `w0` with jobs 0, 1, … in the list. -/
def withJobs (js : List Job) : State := { w0 with jobs := { Jobs.reset with list := js, nextUid := js.length } }

def wPush : State :=
  w0.modQp 1 fun q => { q with anns := [.push (desc 0x13 7 0 [1]) 4000 .pf] }

def wBadPush : State :=
  w0.modQp 1 fun q => { q with anns := [.push (desc 0x13 7 0 [2]) 4000 .pf] }

def wComp : Comp :=
  { uid := 0, jobId := 9, status := 0, quality := 0, opcode := 0x13, startTs := 10, endTs := 20, result := 1, notify := false
    final := true }

def wWaiting : State := w0.modQp 1 fun q => { q with waiting := [wComp] }

def wFullRing : State := w0.modQp 1 fun q => { q with waiting := [wComp], cqHead := 1 }

/-- The physical function owns QP1 alone: the others belong to an absent partition whose function is a VF. -/
def wOnlyQp1 : State :=
  { wWaiting with
    link := { wWaiting.link with vfEnable := true, numVfs := 8 }
    qps := wWaiting.qps.map fun q => { q with part := if q.enabled then 8 else 3 } }

def wUnsignalled : State := w0.modQp 1 fun q => { q with modTime := 50, unsignalled := 1, unsignalledSince := some 0 }

def ent (idx len : Nat) : Ent :=
  { index := 0, seqIdx := idx, handle := 0, created := false, oldLen := len, ntok := 1, tokens := [5], input := 0
    sample := false, logits := false, retrieval := 0, samplerAddr := 0, logitsAddr := 0, parents := [], path := []
    node := none, ready := false, rows := [], token := 0, tokenValid := false, allMasked := false, nanLogits := false
    done := false }

def manifest0 : Manifest :=
  { imageBytes := 0x40, dirFirst := 1, dirCount := 0, payFirst := 1, payUnits := 0, sideFirst := 1, width := 640, vocab := 8
    layers := 1, headDim := 0, experts := 0, active := 0 }

def slot0 : Slot :=
  { idx := 0, part := 0, loaded := false, manifest := manifest0, layerRecs := [], digest := [], source := .dram
    granules := [], pinned := [], cache := [], experts := [], retired := [], ents := [] }

def jLoad : Job := { job 0 1 [] with state := .running, ext := .load 0x40 shaH }

def wLoad : State := { withJobs [jLoad] with slots := [slot0] }

def expert1 : Expert :=
  { layer := 0, number := 1, heat := 0, runs := [], frames := [], cached := false, moving := false, lastUse := 0 }

def slotE : Slot := { slot0 with loaded := true, cache := [4], experts := [expert1] }

def wait0 : Waiter := { uid := 0, deadline := some 10, exact := false, path := .undecided, layer := 0, seq := 0, head := 0, index := 1 }

def move0 : Move :=
  { id := 0, part := 0, what := .expert 0 0 1, started := true, frames := [], waiters := [wait0] }

/-- One running DECODE_STEP on a slot with an expert that is not in T2. -/
def wMoves (ms : List Move) : State :=
  { withJobs [{ job 0 4 [] with state := .running }] with slots := [slotE], moves := ms, now := 50 }

def seq0 : Seq :=
  { idx := 0, gen := 0, part := 0, slot := 0, variant := none, seed := [], prefillPool := false, len := 3, chunks := [0xC0040000]
    dir := [] }

/-- A KV_MOVE of one entry that runs: its block at 0xC0001000, its output at 0xC0002000. -/
def jKm : Job :=
  { job 0 6 (desc 6 100 0 [0x10000, 0xC0001000, 0, 0xC0002000]) with state := .running, ext := .items 0 none }

def wKm (action : Nat) : State :=
  { withJobs [jKm] with seqs := [seq0] }.putWords 0xC0001000 [0, action, if action = 3 then 1 else 0xC0003000, 0]

/-- A sequence with one page in flash, and no free frame for it. -/
def seqCold : Seq := { seq0 with dir := [(0, 0, 0, 0)] }

def wKmCold : State :=
  let s := { withJobs [jKm] with seqs := [seqCold] }.putWords 0xC0001000 [0, 2, 0, 0]
  ({ s with parts := s.parts.set 0 { pt0 with granules := [] } }).setPte 0 0 { Pte.ofWords [] with state := 2, dim := 32 }

def group0 : Group :=
  { seq := 0, layer := 0, head := 0, page := 0, spec := false, dim := 32, toks := [], sump := 1, stag := 0, tail := none
    last := 0, jobs := [], flushed := none, undo := [], fullAt := none, l1Was := none, poisoned := false }

def wPark : State :=
  { withJobs [{ job 0 6 [] with ext := .items 0 (some 1) }] with
    seqs := [seq0], kvs := State.reset.kvs.set 0 { Kv.empty with groups := [group0] }
    parts := State.reset.parts.set 0 { pt0 with staging := 5 * granuleBytes } }

def groupFull : Group :=
  { group0 with toks := (List.range 64).map fun i => { pos := i, key := some (0, []), val := some (0, []) } }

def wFlush : State :=
  { w0 with seqs := [seq0], kvs := State.reset.kvs.set 0 { Kv.empty with groups := [groupFull] } }

def wReclaim : State :=
  { w0 with kvs := State.reset.kvs.set 0 { Kv.empty with epoch := 3, pages := 1 } }.setPte 0 0
    { Pte.ofWords [] with state := 4, epoch := 1 }

def slotV : Slot :=
  { slot0 with loaded := true, layerRecs := [{ fmtS4 := false, expertLayer := false, kvHeads := 1, hpk := 1 }] }

/-- An argument block of one entry at 0xC0001000, results at 0xC0002000, tokens at 0xC0003000. -/
def entryAt (ws : List Nat) (s : State) : State := (s.putWords 0xC0001000 ws).putWords 0xC0003000 [5]

/-- A serving job of one entry on slot 0. -/
def jServe (op : Nat) : Job := job 0 op (desc op 100 0 [0x10000, 0xC0001000, 0, 0xC0002000])

def wServe (j : Job) : State :=
  { withJobs [j] with slots := [slotV], seqs := [{ seq0 with len := 0, chunks := [] }] }

def entS : Ent :=
  { ent 0 0 with tokens := [5], ntok := 1, input := 5 }

def jRun (op : Nat) (e : Ent) (k : Nat) : Job := { jServe op with state := .running, ext := .serve [e] k 0 none }

/-- Entries at their second half of a layer: a draft tree, a row that is in, a prompt of two chunks. -/
def entT : Ent := { entS with tokens := [0], ntok := 1, parents := [0xFF] }
def entR : Ent := { entS with rows := [[]] }
def entL : Ent := { entR with ntok := 4097 }
def jRun1 (op : Nat) (e : Ent) : Job := { jServe op with state := .running, ext := .serve [e] 0 1 none }
def slot2 : Slot := { slotV with manifest := { manifest0 with layers := 2 }, layerRecs := slotV.layerRecs ++ slotV.layerRecs }

/-- A list of one page whose first word of memory is poisoned. -/
def wBadList : State :=
  let s := (wServe (jRun1 3 entR)).putWords 0xC0005000 [2 ^ 31]
  { s with
    echo := { s.echo with retrievals :=
      [{ uid := 0, seq := 0, layer := 0, head := 0, rows := [], blocks := [], pages := [0], list := 0xC0005000, len := 1
         retrieved := false, done := true }] }
    dram := { s.dram with poisoned := [0xC0005000 / 32] } }

/-- PT0 with its tables in granule 3. -/
def ptTables : Part := { pt0 with staging := 0xC0000000, pfxIndex := 0xD0000000, variants := 0xD2100000, pageTable := 0xD3000000, granules := [2, 3] }

/-- A job of COUNT 1 on slot 0 that has applied no entry. -/
def jItem (op : Nat) : Job := { jServe op with state := .running, ext := .items 0 none }

/-- Its argument block holds `ws`; the bucket table's first words are empty buckets. -/
def wItem (j : Job) (ws : List Nat) : State :=
  let s := { withJobs [j] with
    slots := [slotV], seqs := [{ seq0 with len := 0, chunks := [] }], parts := State.reset.parts.set 0 ptTables }
  s.putWords 0xC0001000 ws

/-- A TRAIN_STEP argument block: STEER, one layer, buckets of 64, batches of one, one sample. -/
def trainWords : List Nat :=
  [9, 0x00160000, 0xC0010000, 0, 0xC0020000, 0, 0xC0030000, 0, 1, 0, 0, 64, 0xC4000000, 0, 0x3F800000, 0x3F000000,
    0x3F000000, 0x3F800000, 0, 0, 0, 0, 0, 0, 0, 0, 0, 0, 0, 0, 0, 0]

def jTrain : Job := { jServe 0x0C with state := .running, ext := .train { started := true, batches := 0 } }

/-- A search of one query over 64 rows of 128 S8 elements. -/
def searchWords : List Nat := [0xC8000000, 0, 0xC8100000, 0, 0xC8200000, 0, 0, 0, 0, 1, 128 + 2 ^ 14 + 2 ^ 17, 0, 0, 0, 0, 0]

def jSearch : Job :=
  { job 0 0x0E (desc 0x0E 100 0 [0x10000, 0xC0001000, 0, 0xC0002000, 0, 1]) with
    state := .running, ext := .search { pass := 0, row := 0, scanned := 0, tops := [[]] } 0 }

def unitS : EchoUnit := { uid := 0, part := 0, prio := 0, aged := false, arrived := 5000, kind := .search, ent := 0 }

def wSearch (j : Job) : State :=
  { (withJobs [j]) with echo := { Echo.reset with queue := [unitS] } }.putWords 0xC0001000 searchWords

/-- The argument block of an RGB frame of 16 x 16 with one patch of 14 x 14, from DRAM. -/
def visionWords (src srcHi : Nat) : List Nat :=
  [1, 16 + 2 ^ 16 * 16, 14 + 2 ^ 16 * 14, 2 + 2 ^ 8 * 2, src, srcHi, 0, 0, 0xC0005000, 0, 0xC0010000, 0, 64, 0xC0004000] ++
    List.replicate 18 0

def jVis : Job :=
  { job 0 0x0D (desc 0x0D 100 0 [0x10000, 0xC0001000, 0, 0xC0020000, 0, 7]) with state := .running, ext := .vision (visionWords 0xC0008000 0) }

def wVis (src srcHi : Nat) (ready copied : Nat) : State :=
  { (withJobs [jVis]) with
    vision := { Vision.reset with
      job := some 0, block := visionWords src srcHi, frameSeq := 7, timeoutMs := 1, ready := ready, current := true, copied := copied }
    now := 200000 }

def ret0 : Retrieval :=
  { uid := 0, seq := 0, layer := 0, head := 0, rows := [], blocks := [], pages := [], list := 0, len := 0, retrieved := true
    done := false }

/-- An NV12 frame whose Y and UV rows lie in host memory, with four rows announced. -/
def wNv12 : State :=
  { wVis 0 0x4000 4 0 with
    vision := { (wVis 0 0x4000 4 0).vision with
      block := (((((visionWords 0 0x4000).set 0 0).set 6 0x8000).set 7 0x4000).set 8 0).set 12 (64 + 2 ^ 16 * 64) } }

def shipSt (out : Bool) : ShipSt :=
  { out := out, port := 0, hops := 1, entry := 0, count := 1, probed := out, probeSent := none, ready := true, lastReady := 0
    sent := 0, acked := 0, total := 32, image := if out then List.replicate 32 1 else [], lastProgress := 0, lastHold := 0, held := false
    words := [0, 0x70001, 9, 0, 0xC0008000, 0, 32, 0] }

/-- A shipping job of one buffer entry of 32 bytes at 0xC0008000, over port 0 with one hop. -/
def jShip (op : Nat) : Job := job 0 op (desc op 100 0 [0x10000, 0xC0001000, 0, 0xC0002000, 0, 0x100])

def jShipping (op : Nat) (sh : ShipSt) : Job := { jShip op with state := .running, ext := .ship sh }

def portUp : PPort := { PPort.reset with state := .ready }

def wPort (p : PPort) : State := { w0 with passage := { Passage.reset 15 with ports := [p, portUp] } }

def wShip (j : Job) : State :=
  { (withJobs [j]) with passage := { Passage.reset 15 with ports := [portUp, portUp] } }.putWords 0xC0001000
    [0, 0x70001, 9, 0, 0xC0008000, 0, 32, 0]

/-- A frame whose CRC and TAG hold. -/
def frameOf (type vc hops : Nat) (payload : List Byte) : Frame := mkFrame type vc hops payload

def vol0 : Volume := { num := 3, fast := false, conf := false, owner := 0, first := 0, bands := 2, sealed := false, keyCheck := [] }

/-- A flash job of volume 3, one page from page 0 of block 0. -/
def jFlash (op : Nat) : Job := job 0 op (desc op 100 0 [3, 0, 0x10000, 0xC0010000])

def jFlashing (op : Nat) : Job := { jFlash op with state := .running, ext := .flash 1 0 }

def fop (kind : FOpKind) : FOp :=
  { kind := kind, uid := 0, slot := 0, block := 0, page := 0, band := (3, 0), wp := if kind = .program then some 1 else none
    fast := false, data := if kind = .program then List.replicate 16384 7 else [], suspended := false, started := none
    windowFrom := none, starved := 0 }

def wFlash (j : Job) (ops : List FOp) : State :=
  let s := withJobs [j]
  { s with flash := { s.flash with volumes := [vol0], mounted := true } }.modDie 0 fun d => { d with ops := ops }

def wGap : State := w0.modDie 5 fun d => { d with sinceMove := 100 }

/-- A ROW task of one token of 64 BF16 elements at 0xC0010000, written as FP32 at 0xC0020000. -/
def rowTask (w0 w24 w25 : Nat) : List Nat :=
  [w0 + 0x04000001, 0, 64, 10 + 2 ^ 17, 0xC0010000, 0, 0, 0, 0xC0020000] ++ List.replicate 15 0 ++ [w24, w25] ++ List.replicate 6 0

/-- An ARRAY task of one token and one channel over K = 64: two groups of 32, F8A by S8. -/
def arrayTask : List Nat :=
  [0, 0, 64, 10 + 2 ^ 4 * 4 + 2 ^ 8 * 10 + 2 ^ 17 + 2 ^ 24, 0xC0010000, 0, 0xC0030000, 0, 0xC0020000] ++ List.replicate 23 0

def jList (st : JobSt) (ext : Ext) : Job :=
  { job 0 0x30 (desc 0x30 100 0 [1, 0xC0001000, 0, 0xFFFFFFFF]) with state := st, ext := ext }

def ctxOf (st : CtxSt) (t : List Nat) : Ctx := { Ctx.fresh 0 0 (Placed.first 0 0 t []) t with state := st }

/-- `wEng` with a powered engine 0 that has the contexts, and a tile list that runs. -/
def wEng (ext : Ext) (xs : List Ctx) : State :=
  let s := withJobs [jList .running ext]
  s.modEng 0 fun g => { g with ctxs := xs, holder := some 0, domain := { g.domain with powered := true } }

def merge0 : Merge :=
  { uid := 0, offset := 0, parts := 1, tokens := 1, dim := 64, retired := [0], folded := 0, dest := 0xC0020000, pitch := 256
    f32 := true, signal := some 3 }

/-- The same ROW task as an append of a key of position 0 of sequence 0: K_LEN is the head dimension. -/
def kvTask : List Nat := (((rowTask 0x4000 0 0).set 0 0x4001).set 3 (10 + 2 ^ 8 * 4 + 2 ^ 17)).set 8 0

def xArr : Ctx := { ctxOf .waitMem arrayTask with steps := 1, granted := true, acc := zeroTile arrayTask }

def req0 (write : Option (List Byte)) : Req := { id := 0, port := 3, addr := 0, len := 32, write := write, arrival := 4000, scrub := false }

/-- Channel 0 holds the requests, the first of them granted; port 3 waits for their answers. -/
def wDram (rs : List Req) : State :=
  ((w0.modChan 0 fun c => { c with queue := rs, grant := some { req := 0, reserved := false, started := 5000 } }).modDport 3
    fun p => { p with order := rs.map Req.id })

/-- Channel 0 holds them and has granted none. -/
def wQueued (rs : List Req) (n : Nat) : State := w0.modChan 0 fun c => { c with queue := rs, grantCount := n }

def wTrain : State := { State.reset with
  dev := { Dev.reset with stage := .training }
  kadon := { Kadon.reset with cps := List.replicate 4 { Cp.reset with state := .running } } }

/-- One attempt at a step that passes: 16 lanes of 26 ps, and a Vref of three codes. -/
def sweepLanes : List Sweep := [{ delays := List.replicate 16 (-13, 13), vrefs := [(2, 4)] }]

/-- A DMA_RAW job: channel 2, 512 bytes from 0xC0010000 to 0xC0020000, S8 to S8. -/
def jDma (words : List Nat) : Job := job 0 0x31 (desc 0x31 100 0 words)

def goodDma : List Nat := [2, 0xC0010000, 0, 0xC0020000, 0, 512, 4 * 4 + 64 * 4]

def xfer0 : Xfer :=
  { uid := 0, part := 0, prio := 0, src := 0xC0010000, dst := 0xC0020000, len := 512, transform := 4 * 4 + 64 * 4, issued := 0
    acked := 0, failed := none, start := 0, stopped := false, own := none }

/-- Channel 2 with a transfer, active or draining, of a running DMA_RAW job. -/
def wDma (c : SChan) : State :=
  { withJobs [{ jDma goodDma with state := .running, ext := .dma 0 0 }] with
    siphon := { Siphon.reset with chans := Siphon.reset.chans.set 2 c } }

/-- A CREATE_PARTITION of partition 3: queue pair 9, engine 4, one granule, its header at 0xC0001000. -/
def jCreate : Job := job 0 0x40 (desc 0x40 100 0 [3, 2 ^ 9, 0, 2 ^ 4, 1, 0xC0001000, 0])

def wCreate (header : List Nat) : State :=
  let s := withJobs [jCreate]
  { s with parts := s.parts.set 0 { pt0 with granules := [3, 4, 5], staging := 0xC0000000 } }.putWords 0xC0001000 header

/-- Partition 3 owns queue pair 9 and granule 5. -/
def wOther (j : Job) : State :=
  let s := withJobs [j]
  { s with
    parts := s.parts.set 3 { Part.absent with valid := true, granules := [5], sumpQuota := 8 }
    qps := s.qps.modify 9 fun q => { q with part := 3, enabled := true } }

/-- Engine 0 is shared by partitions 0 and 3; partition 0 holds it and partition 3 has a task placed. -/
def wShared (now : Nat) : State :=
  let s := wOther (job 0 0x41 [])
  { s with
    now := now
    parts := s.parts.map fun (q : Part) => if q.valid then { q with share := true, engines := [0], quantumUs := 100 } else q }.modEng 0
      fun g => { g with
        holder := some 0, holdSince := 0, ctxs := [ctxOf .loaded (List.replicate 32 0)]
        placed := [{ part := 3, uid := 7, words := List.replicate 32 0, runs := 0, lastChance := false, avoid := none, source := [] }] }

/-- The boot loader waits for an image of two pages that the host has placed at its address. -/
def wBoot (bytes : Nat) : State := { w0 with
  dev := { w0.dev with ready := false, stage := .waitKadon }
  kadon := { Kadon.reset with bootAddr := 0x1000, bootBytes := bytes } }

def jFw : Job := job 0 0x43 (desc 0x43 100 0 [1, 0xC0001000, 0, 8192])

def wRng (r : Rng) : State := { w0 with sec := { w0.sec with rng := r } }

def cmsg0 : CMsg := { requester := 3, uid := some 0, left := 8192, context := false }

/-- `w0` with two virtual functions enabled, VF 1 a bus master whose entries are unmasked but for entry 2, which is pending. -/
def wFns : State := { w0 with
  link := { w0.link with
    vfEnable := true, numVfs := 2
    vfs := (List.replicate 8 (FnSt.reset 8)).set 1
      { busMaster := true, msixOn := true, fnMask := false, masked := [2], pending := [2] } } }

def wDown : State := { w0 with link := { Link.reset with fnReady := false } }

/-- An SPDM connection is agreed, session 5 stands, and handshake 6 is open. -/
def wSpdm : State := { w0 with
  link := { w0.link with negotiated := true, sessions := [5], handshakes := [6], nextSid := 7, ide := List.replicate 8 true }
  sec := { w0.sec with rng := { Rng.reset with state := .serving } } }

def wTrace (t : Trace) : State := { w0 with trace := t }

def wReplay (r : Replay) : State := { w0 with replay := r }

/-- A trace of one record, the START of the images that run, at 0x1000 of host memory. -/
def wTraced : State :=
  (wReplay { Replay.reset with addr := hostBase + 0x1000, units := 3 }).putWords (hostBase + 0x1000)
    ([0x8201, 0, 0, 0, 0xB0] ++ List.replicate 19 0)

def wPower (w : Power) : State := { w0 with power := w }

def wDomain (d : Domain) : State := w0.modDomain 9 fun _ => d

def goodTest : SelfTest :=
  { rngOk := true, cryptoOk := true, badGroups := [], badEngines := [], shorted := [], hottest := 40, sensor := 0, drip := []
    rngRetests := [], floorW := 8, ssc := false }

def poll0 : List DripFrame := (List.range 95).map fun p => { pos := p, crcOk := true, plausible := true, needs := 0, droop := p == 40 }

def wDrip (d : Drip) : State := { w0 with
  drip := d, flash := { w0.flash with margins := List.replicate 8 5, dripHours := 24, mounted := true } }

def wDev (d : Dev) : State := { w0 with dev := d }

/-- Start-up has trained the DRAM and mounted the flash. -/
def wTrainedUp : State := { w0 with
  dev := { Dev.reset with stage := .training, startFaults := [(0x25, 5, 2, 0)] }
  flash := { w0.flash with mounted := true }, parts := State.reset.parts }

def fault0 : FaultRec :=
  { cls := 5, source := 0x25, part := none, mixed := false, afterLoss := false, continued := false, count := 1, firstTs := 4000
    lastTs := 4000, detail := 1, tag := 0, info := 0 }

def wFaults (q : Faults) : State := { w0 with faults := q }

def wBus (b : Smbus) : State := { w0 with smbus := b }


/-! ## The hypotheses of the statements are met -/

theorem test_meets_EmptyQueueTicks :
    (∃ (s : State), s.pending = [] ∧ s.alive = true ∧ s.dev.shutting = false) ∧
    (∃ (s : State), s.pending = [] ∧ s.alive = false) :=
  by
  refine ⟨⟨{ State.reset with now := 5 }, ?_⟩,
     ⟨{ State.reset with smbus := { Smbus.reset with dieOn := false } }, ?_⟩⟩ <;> decide +kernel

theorem test_meets_QueueKeptByExec :
    (∃ (c : Instr) (s t : State), exec c s = .next t) ∧
    (∃ (c : Instr) (rest : List Instr) (s t : State), s.pending = c :: rest ∧ step s = .next t) :=
  ⟨⟨.status, State.reset, _, rfl⟩,
   ⟨.status, [], { State.reset with pending := [.status] }, _, rfl, rfl⟩⟩

theorem test_meets_SoundnessKeptByEveryStep :
    ∃ (s t : State), s.sound = true ∧ step s = .next t :=
  ⟨State.reset, _, by decide +kernel, rfl⟩

theorem test_meets_UntouchedPartsKept :
    ∃ (c : Instr) (s t : State), exec c s = .next t :=
  ⟨.status, State.reset, _, rfl⟩

theorem test_meets_Bar2PagesOfPartitions :
    (∃ (p n : Nat), p < 8 ∧ n < 64) ∧
    (∃ (p o : Nat), p < 8 ∧ 0x200 ≤ o ∧ o < 0x1000) :=
  by
  refine ⟨⟨7, 63, ?_⟩,
     ⟨7, 0x200, ?_⟩⟩ <;> decide +kernel

theorem test_meets_DoorbellWritesApplied :
    (∃ (fn : Fn) (offset p n : Nat) (value : BitVec 64) (s : State),
       s.reaches fn = true ∧
       s.dev.ready = true ∧
       bar2At fn offset = .ring p n ∧
       offset % 8 = 0 ∧
       s.slotRefused fn p n = false ∧
       ((bit 16 value.toNat = true → bits 15 0 value.toNat < 2 ^ (s.qp n).sqLog)) ∧
       ((bit 48 value.toNat = true → bits 47 32 value.toNat < 2 ^ (s.qp n).cqLog))) ∧
    (∃ (fn : Fn) (offset p n : Nat) (s : State),
       s.reaches fn = true ∧
       s.dev.ready = true ∧
       bar2At fn offset = .push p n ∧
       offset % 64 = 0 ∧
       s.slotRefused fn p n = false ∧
       ((s.qp n).anns.filter Ann.isPush).length < 4) :=
  by
  refine ⟨⟨.pf, 8, 0, 1, 0x0003000000010002#64, w0, ?_⟩,
     ⟨.pf, 0x8040, 0, 1, w0, ?_⟩⟩ <;> decide +kernel

theorem test_meets_DroppedDoorbellWrites :
    (∃ (fn : Fn) (offset size p n : Nat) (value : BitVec 64) (s : State),
       s.reaches fn = true ∧
       s.dev.ready = true ∧
       bar2At fn offset = .ring p n ∧
       n < s.qps.length ∧
       ((s.slotRefused fn p n = true ∨ size ≠ 8 ∨ offset % 8 ≠ 0 ∨ bit 16 value.toNat = true ∧
       2 ^ (s.qp n).sqLog ≤ bits 15 0 value.toNat ∨
       bit 48 value.toNat = true ∧
       2 ^ (s.qp n).cqLog ≤ bits 47 32 value.toNat))) ∧
    (∃ (fn : Fn) (offset size p n : Nat) (s : State),
       s.reaches fn = true ∧
       s.dev.ready = true ∧
       bar2At fn offset = .push p n ∧
       n < s.qps.length ∧
       ((s.slotRefused fn p n = true ∨ size ≠ 64 ∨ offset % 64 ≠ 0 ∨ 4 ≤ ((s.qp n).anns.filter Ann.isPush).length))) ∧
    (∃ (s : State), s.dev.ready = false) :=
  by
  refine ⟨⟨.pf, 8, 8, 0, 1, 0x00000000000100FF#64, w0, ?_⟩,
     ⟨.pf, 0x8040, 32, 0, 1, w0, ?_⟩,
     ⟨State.reset, ?_⟩⟩ <;> decide +kernel

theorem test_meets_DescriptorTaken :
    (∃ (n : Nat) (h : Head) (s : State),
       s.canTake = true ∧
       s.takeFrom (List.range 64) = some (n, h) ∧
       s.dev.fault = false ∧
       s.dev.secureHalt = false ∧
       s.replay.state ≠ .running ∧
       s.validate n h.fn h.words = none) ∧
    (∃ (n st : Nat) (h : Head) (s : State),
       s.canTake = true ∧
       s.takeFrom (List.range 64) = some (n, h) ∧
       s.dev.fault = false ∧
       s.dev.secureHalt = false ∧
       s.replay.state ≠ .running ∧
       s.validate n h.fn h.words = some st) :=
  by
  refine ⟨⟨1, _, wPush, ?_, rfl, ?_, ?_, ?_, ?_⟩,
     ⟨1, _, _, wBadPush, ?_, rfl, ?_, ?_, ?_, rfl⟩⟩ <;> decide +kernel

theorem test_meets_CompletionRecordWritten :
    (∃ (n : Nat) (c : Comp) (s : State),
       (s.qp n).waiting.find? (fun c => !s.compHeld c) = some c ∧
       (s.qp n).enabled = true ∧
       s.hostOk (s.qp n).part = true ∧
       ((s.qp n).cqTail + 1) % 2 ^ (s.qp n).cqLog ≠ (s.qp n).cqHead) ∧
    (∃ (n : Nat) (s : State),
       s.replay.state ≠ .running ∧
       ((s.qp n).cqTail + 1) % 2 ^ (s.qp n).cqLog = (s.qp n).cqHead) ∧
    (∃ (fn : Fn) (n : Nat) (s : State),
       s.replay.state ≠ .running ∧
       ((List.range 64).filter fun m => s.ownFn (s.qp m).part == fn && s.hostOk (s.qp m).part) = [n] ∧
       (s.qp n).waiting.length = 1 ∧
       (s.qp n).anns = []) ∧
    (∃ (fn : Fn) (n : Nat) (c : Comp) (s : State),
       s.replay.state ≠ .running ∧
       ((List.range 64).filter fun m => s.ownFn (s.qp m).part == fn && s.hostOk (s.qp m).part) = [n] ∧
       (s.qp n).waiting = [c] ∧
       (s.qp n).anns = [] ∧
       s.compHeld c = false ∧
       (s.qp n).enabled = true ∧
       ((s.qp n).cqTail + 1) % 2 ^ (s.qp n).cqLog ≠ (s.qp n).cqHead) :=
  by
  refine ⟨⟨1, wComp, wWaiting, ?_⟩,
     ⟨1, wFullRing, ?_⟩,
     ⟨.pf, 1, wOnlyQp1, ?_⟩,
     ⟨.pf, 1, wComp, wOnlyQp1, ?_⟩⟩ <;> decide +kernel

theorem test_meets_VectorRaisedByModeration :
    (∃ (n first : Nat) (s : State),
       s.shaped = true ∧
       n < 64 ∧
       (s.qp n).part < 8 ∧
       (s.qp n).unsignalledSince = some first ∧
       0 < (s.qp n).modTime ∧
       first + (s.qp n).modTime * 100 ≤ s.now) ∧
    (∃ (n first : Nat) (s : State), (s.qp n).unsignalledSince = some first ∧ s.now < first + (s.qp n).modTime * 100) :=
  by
  refine ⟨⟨1, 0, wUnsignalled, ?_⟩,
     ⟨1, 0, { wUnsignalled with now := 4999 }, ?_⟩⟩ <;> decide +kernel

theorem test_meets_QueuePairEnabledAndDisabled :
    (∃ (fn : Fn) (n : Nat) (s : State),
       s.qpWritable fn n = true ∧
       (s.qp n).enabled = false ∧
       s.link.lost = false ∧
       s.dev.ready = true ∧
       (s.qp n).vector ≤ (if s.ownFn (s.qp n).part = .pf then 62 else 7) ∧
       (s.qp n).sqBase < 0xC00000000000 ∧
       (s.qp n).cqBase < 0xC00000000000) ∧
    (∃ (fn : Fn) (n : Nat) (s : State),
       s.qpWritable fn n = true ∧
       (s.qp n).enabled = false ∧
       s.link.lost = false ∧
       0 < s.enableRefusal n) ∧
    (∃ (s : State), s.dev.ready = false) ∧
    (∃ (n : Nat) (s : State),
       s.dev.ready = true ∧
       (if s.ownFn (s.qp n).part = .pf then 62 else 7) < (s.qp n).vector) ∧
    (∃ (n : Nat) (s : State),
       s.dev.ready = true ∧
       (s.qp n).vector ≤ (if s.ownFn (s.qp n).part = .pf then 62 else 7) ∧
       ((0xC00000000000 ≤ (s.qp n).sqBase ∨ 0xC00000000000 ≤ (s.qp n).cqBase))) ∧
    (∃ (fn : Fn) (n : Nat) (s : State), s.qpWritable fn n = true ∧ (s.qp n).enabled = true) :=
  by
  refine ⟨⟨.pf, 2, w0, ?_⟩,
     ⟨.pf, 2, { w0 with dev := { w0.dev with ready := false } }, ?_⟩,
     ⟨State.reset, ?_⟩,
     ⟨2, w0.modQp 2 fun q => { q with vector := 63 }, ?_⟩,
     ⟨2, w0.modQp 2 fun q => { q with cqBase := 0xC00000000000 }, ?_⟩,
     ⟨.pf, 1, w0, ?_⟩⟩ <;> decide +kernel

theorem test_meets_JobRecordAtItsEnd :
    (∃ (j : Job) (s : State), s.recorded j) ∧
    (∃ (j : Job) (first blocks : Nat) (s : State),
       ((j.silent = true ∨ (s.qp j.qp).enabled = false ∨ j.ending = some .silent)) ∧
       j.ctrs = some (first, blocks)) :=
  by
  refine ⟨⟨job 0 0x13 [], withJobs [job 0 0x13 []], ?_⟩,
     ⟨{ job 0 0x30 [] with silent := true, ctrs := some (16, 2) }, 16, 2, withJobs [{ job 0 0x30 [] with silent := true, ctrs := some (16, 2) }], ?_⟩⟩ <;> decide +kernel

theorem test_meets_ControlJobsAct :
    (∃ (uid : Nat) (j k : Job) (s : State),
       s.starts uid 0x10 j ∧
       s.recorded j ∧
       wordAt j.words 3 ≠ j.jobId ∧
       s.target? j.part (wordAt j.words 3) = some k ∧
       s.job? k.uid = some k ∧
       k.uid ≠ uid ∧
       k.finished = false ∧
       suspendable k.opcode = true ∧
       k.state = .running) ∧
    (∃ (uid : Nat) (j k : Job) (s : State),
       s.starts uid 0x10 j ∧
       s.recorded j ∧
       wordAt j.words 3 ≠ j.jobId ∧
       s.target? j.part (wordAt j.words 3) = some k ∧
       s.job? k.uid = some k ∧
       k.uid ≠ uid ∧
       k.finished = false ∧
       suspendable k.opcode = true ∧
       k.state = .queued ∧
       k.silent = false ∧
       (s.qp k.qp).enabled = true) ∧
    (∃ (uid : Nat) (j k : Job) (s : State),
       s.starts uid 0x11 j ∧
       s.recorded j ∧
       wordAt j.words 3 ≠ j.jobId ∧
       s.target? j.part (wordAt j.words 3) = some k ∧
       s.job? k.uid = some k ∧
       k.uid ≠ uid ∧
       k.finished = false ∧
       suspendable k.opcode = true ∧
       k.state = .suspended) ∧
    (∃ (uid : Nat) (j k : Job) (s : State),
       s.starts uid 0x12 j ∧
       s.recorded j ∧
       wordAt j.words 3 ≠ j.jobId ∧
       s.target? j.part (wordAt j.words 3) = some k ∧
       s.job? k.uid = some k ∧
       k.uid ≠ uid ∧
       k.finished = false ∧
       uncancellable k.opcode = false ∧
       k.state ≠ .cancelling) ∧
    (∃ (uid op : Nat) (c : Instr) (j : Job) (s : State),
       (c, op) ∈ [(Instr.suspend uid, 0x10), (.resume uid, 0x11), (.cancel uid, 0x12)] ∧
       s.starts uid op j ∧
       s.recorded j ∧
       0 < s.outcome j ∧
       ((wordAt j.words 3 = j.jobId ∨ ∀ k, s.target? j.part (wordAt j.words 3) = some k → k.uid ≠ uid))) :=
  by
  refine ⟨⟨1, job 1 0x10 (desc 0x10 101 0 [100]), { job 0 0x31 [] with state := .running }, withJobs [{ job 0 0x31 [] with state := .running }, job 1 0x10 (desc 0x10 101 0 [100])], ?_⟩,
     ⟨1, job 1 0x10 (desc 0x10 101 0 [100]), job 0 0x31 [], withJobs [job 0 0x31 [], job 1 0x10 (desc 0x10 101 0 [100])], ?_⟩,
     ⟨1, job 1 0x11 (desc 0x11 101 0 [100]), { job 0 0x31 [] with state := .suspended }, withJobs [{ job 0 0x31 [] with state := .suspended }, job 1 0x11 (desc 0x11 101 0 [100])], ?_⟩,
     ⟨1, job 1 0x12 (desc 0x12 101 0 [100]), { job 0 0x04 [] with state := .running }, withJobs [{ job 0 0x04 [] with state := .running }, job 1 0x12 (desc 0x12 101 0 [100])], ?_⟩,
     ⟨0, 0x10, .suspend 0, job 0 0x10 (desc 0x10 100 0 [100]), withJobs [job 0 0x10 (desc 0x10 100 0 [100])], ?_⟩⟩ <;> decide +kernel

theorem test_meets_QueryReturnsStateOrCount :
    (∃ (uid : Nat) (j k : Job) (s : State),
       s.starts uid 0x13 j ∧
       s.recorded j ∧
       wordAt j.words 3 = 0 ∧
       s.target? j.part (wordAt j.words 4) = some k ∧
       k.uid ≠ uid) ∧
    (∃ (uid : Nat) (j : Job) (s : State),
       s.starts uid 0x13 j ∧
       s.recorded j ∧
       wordAt j.words 3 = 0 ∧
       s.target? j.part (wordAt j.words 4) = none) ∧
    (∃ (uid : Nat) (j : Job) (s : State), s.starts uid 0x13 j ∧ s.recorded j ∧ wordAt j.words 3 = 1) :=
  by
  refine ⟨⟨1, job 1 0x13 (desc 0x13 101 0 [0, 100]), { job 0 4 [] with state := .cancelling }, withJobs [{ job 0 4 [] with state := .cancelling }, job 1 0x13 (desc 0x13 101 0 [0, 100])], ?_⟩,
     ⟨0, job 0 0x13 (desc 0x13 100 0 [0, 7]), withJobs [job 0 0x13 (desc 0x13 100 0 [0, 7])], ?_⟩,
     ⟨1, job 1 0x13 (desc 0x13 101 0 [1]), withJobs [job 0 4 [], job 1 0x13 (desc 0x13 101 0 [1])], ?_⟩⟩ <;> decide +kernel

theorem test_meets_JobsSuspendLateAndWithdrawn :
    (∃ (uid : Nat) (j : Job) (s : State),
       s.job? uid = some j ∧
       s.recorded j ∧
       j.state = .suspending ∧
       s.busyAt j = false) ∧
    (∃ (uid : Nat) (j : Job) (s : State),
       s.job? uid = some j ∧
       j.finished = false ∧
       j.lateRaised = false ∧
       j.deadlineUs ≠ 0 ∧
       j.startTs + j.deadlineUs * 100 < s.now) ∧
    (∃ (uid : Nat) (j : Job) (s : State),
       s.job? uid = some j ∧
       ((j.deadlineUs = 0 ∨ s.now ≤ j.startTs + j.deadlineUs * 100))) ∧
    (∃ (uid : Nat) (j : Job) (s : State),
       s.job? uid = some j ∧
       s.recorded j ∧
       j.state = .cancelling ∧
       s.stillOut uid = false) ∧
    (∃ (uid chunk step : Nat) (wait : Option Nat) (ents : List Ent) (e : Ent) (j : Job) (s : State),
       s.job? uid = some j ∧
       j.finished = false ∧
       j.state = .cancelling ∧
       s.stillOut uid = false ∧
       j.ext = .serve ents chunk step wait ∧
       e ∈ ents ∧
       e.created = false ∧
       ((∀ x ∈ ents, x.seqIdx = e.seqIdx → x = e))) :=
  by
  refine ⟨⟨0, { job 0 0x31 [] with state := .suspending }, withJobs [{ job 0 0x31 [] with state := .suspending }], ?_⟩,
     ⟨0, { job 0 4 [] with deadlineUs := 5, policy := 2, state := .running }, withJobs [{ job 0 4 [] with deadlineUs := 5, policy := 2, state := .running }], ?_⟩,
     ⟨0, { job 0 4 [] with deadlineUs := 10 }, withJobs [{ job 0 4 [] with deadlineUs := 10 }], ?_⟩,
     ⟨0, { job 0 4 [] with state := .cancelling, ending := some .cancel }, withJobs [{ job 0 4 [] with state := .cancelling, ending := some .cancel }], ?_⟩,
     ⟨0, 0, 0, none, [ent 2 30], ent 2 30, { job 0 4 [] with state := .cancelling, ending := some .cancel, ext := .serve [ent 2 30] 0 0 none }, withJobs [{ job 0 4 [] with state := .cancelling, ending := some .cancel, ext := .serve [ent 2 30] 0 0 none }], ?_⟩⟩ <;> decide +kernel

theorem test_meets_ModelLoadedAndUnloaded :
    (∃ (uid : Nat) (hash : List Nat) (j : Job) (t : Slot) (s : State),
       s.job? uid = some j ∧
       s.recorded j ∧
       j.opcode = 0x01 ∧
       j.state = .running ∧
       j.ext = .load t.manifest.imageBytes hash ∧
       s.cpRunning j.cp = true ∧
       s.cpRunning 2 = true ∧
       s.slots.find? (fun u => u.idx == dSlot j.words && u.part == j.part) = some t ∧
       (s.sec.crypto.any fun c => c.uid == some uid) = false ∧
       ((dOut j.words < hostBase ∨ s.hostOk j.part = true)) ∧
       ((t.experts = [] ∨ s.sourceUp j.part t.source = true ∧
       s.sourceHeld t.source 0 t.manifest.imageBytes = false))) ∧
    (∃ (uid pos : Nat) (hash : List Nat) (j : Job) (t : Slot) (s : State),
       s.job? uid = some j ∧
       j.opcode = 0x01 ∧
       j.state = .running ∧
       j.finished = false ∧
       j.ext = .load pos hash ∧
       s.cpRunning j.cp = true ∧
       s.cpRunning 2 = true ∧
       s.slots.find? (fun u => u.idx == dSlot j.words && u.part == j.part) = some t ∧
       pos < t.manifest.imageBytes ∧
       s.sourceUp j.part t.source = true ∧
       s.sourceTorn t.source pos (min 0x1000000 (t.manifest.imageBytes - pos)) = false ∧
       s.sourceHeld t.source pos (min 0x1000000 (t.manifest.imageBytes - pos)) = false) ∧
    (∃ (uid : Nat) (j : Job) (t : Slot) (s : State),
       s.starts uid 0x01 j ∧
       s.recorded j ∧
       j.ext = .none ∧
       s.slots.find? (fun u => u.idx == dSlot j.words) = some t) ∧
    (∃ (uid : Nat) (j : Job) (t : Slot) (s : State),
       s.starts uid 0x02 j ∧
       s.recorded j ∧
       s.slots.find? (fun u => u.idx == dSlot j.words) = some t ∧
       t.part = j.part ∧
       t.loaded = true ∧
       s.slotJobs j = []) :=
  by
  refine ⟨⟨0, shaH, jLoad, slot0, wLoad, ?_⟩,
     ⟨0, 0, shaH, { jLoad with ext := .load 0 shaH }, slot0, { wLoad with jobs := { wLoad.jobs with list := [{ jLoad with ext := .load 0 shaH }] } }, ?_⟩,
     ⟨0, job 0 1 [], slot0, { withJobs [job 0 1 []] with slots := [slot0] }, ?_⟩,
     ⟨0, job 0 2 [], { slot0 with loaded := true }, { withJobs [job 0 2 []] with slots := [{ slot0 with loaded := true }] }, ?_⟩⟩ <;> decide +kernel

theorem test_meets_ExpertsAndPagesMoved :
    (∃ (uid layer number need planned unissued : Nat) (j : Job) (t : Slot) (x : Expert) (s : State),
       s.job? uid = some j ∧
       (servingOp j.opcode || j.opcode == 0x0C) = true ∧
       j.state = .running ∧
       j.finished = false ∧
       s.cpRunning 2 = true ∧
       s.replay.state ≠ .running ∧
       s.namedSlot j.part (dSlot j.words) = .inl t ∧
       t.experts.find? (fun x => x.layer == layer && x.number == number) = some x ∧
       x.cached = false ∧
       s.moves = [] ∧
       s.now ≤ fetchTick (s.part j.part).ratePct need planned unissued) ∧
    (∃ (mv slot layer number : Nat) (m : Move) (t : Slot) (x : Expert) (s : State),
       s.moves.find? (fun m => m.id == mv && m.started) = some m ∧
       m.what = .expert slot layer number ∧
       s.slot? slot = some t ∧
       s.sourceUp m.part t.source = true ∧
       t.experts.find? (fun x => x.layer == layer && x.number == number) = some x ∧
       s.moveTorn m = false ∧
       s.moveHeld m = false ∧
       s.ownOut mv = false ∧
       s.cpRunning 2 = true ∧
       ((∀ k ∈ s.moves, k.started = true))) ∧
    (∃ (mv uid : Nat) (m : Move) (w : Waiter) (j : Job) (s : State),
       s.moves.find? (fun m => m.id == mv) = some m ∧
       (m.waiters.filter fun w => w.uid == uid && w.path != .cheap).find? (fun w => w.path == .undecided && w.deadline.any fun d => decide (d ≤ s.now)) = some w ∧
       w.exact = false ∧
       s.job? uid = some j ∧
       s.cheapOk j = true) ∧
    (∃ (mv uid : Nat) (m : Move) (w : Waiter) (j : Job) (s : State),
       s.moves.find? (fun m => m.id == mv) = some m ∧
       (m.waiters.filter fun w => w.uid == uid && w.path != .cheap).find? (fun w => w.path == .undecided && w.deadline.any fun d => decide (d ≤ s.now)) = some w ∧
       w.exact = false ∧
       s.job? uid = some j ∧
       s.cheapOk j = false ∧
       s.shaped = true ∧
       j.part < 8) ∧
    (∃ (mv uid : Nat) (m : Move) (s : State),
       s.moves.find? (fun m => m.id == mv) = some m ∧
       ((∀ w ∈ m.waiters, w.uid = uid → ∀ d ∈ w.deadline, s.now < d))) :=
  by
  refine ⟨⟨0, 0, 1, 100, 0, 0, { job 0 4 [] with state := .running }, slotE, expert1, wMoves [], ?_⟩,
     ⟨0, 0, 0, 1, move0, slotE, expert1, wMoves [move0], ?_⟩,
     ⟨0, 0, move0, wait0, { job 0 4 [] with state := .running }, wMoves [move0], ?_⟩,
     ⟨0, 0, move0, wait0, { job 0 0x0C [] with state := .running }, { wMoves [move0] with jobs := { Jobs.reset with list := [{ job 0 0x0C [] with state := .running }] } }, ?_⟩,
     ⟨0, 0, move0, { wMoves [move0] with now := 9 }, ?_⟩⟩ <;> decide +kernel

theorem test_meets_KvMoveEntriesApplied :
    (∃ (uid : Nat) (j : Job) (i : Nat) (s : State),
       s.starts uid 0x06 j ∧
       s.recorded j ∧
       (s.started uid 0x06).blocked j (dArg j.words) (16 * dCount j.words) = none ∧
       (s.started uid 0x06).kmBad j.part 0 0 ((List.range (dCount j.words)).map ((s.started uid 0x06).kmEntry j)) = some i) ∧
    (∃ (uid done : Nat) (j : Job) (q : Seq) (s : State), s.lastMove uid done j q 0) ∧
    (∃ (uid done : Nat) (j : Job) (q : Seq) (s : State),
       s.lastMove uid done j q 3 ∧
       s.anyBlocked j (s.kmReads j done) = none ∧
       kmLength (s.kmEntry j done) ≤ q.len ∧
       (s.truncate uid q (kmLength (s.kmEntry j done))).isDone = true) ∧
    (∃ (uid done : Nat) (j : Job) (q : Seq) (s : State),
       s.lastMove uid done j q 4 ∧
       s.blockedOut j (dOut j.words + 4 * done) 4 = none ∧
       s.anyBlocked j (s.kmReads j done) = none ∧
       (s.forkSeq j done q).isDone = true) ∧
    (∃ (uid done : Nat) (j : Job) (q : Seq) (s : State), s.lastMove uid done j q 5) ∧
    (∃ (uid done : Nat) (j : Job) (q : Seq) (s : State),
       s.lastMove uid done j q 6 ∧
       s.blockedOut j (kmDest (s.kmEntry j done)) (4 * (s.handleList q).length) = none) ∧
    (∃ (uid done : Nat) (bad : Bool) (j : Job) (q : Seq) (s : State),
       ((s.lastMove uid done j q 1 ∨ s.lastMove uid done j q 2)) ∧
       s.anyBlocked j (s.kmReads j done) = none ∧
       (s.kmApply j done bad).isDone = true) ∧
    (∃ (uid done : Nat) (bad : Bool) (j : Job) (q : Seq) (s : State),
       ((s.lastMove uid done j q 1 ∨ s.lastMove uid done j q 2)) ∧
       s.anyBlocked j (s.kmReads j done) = none ∧
       s.kmApply j done bad = .fail 0x40) :=
  by
  refine ⟨⟨0, job 0 6 (desc 6 100 0 [0x10000, 0xC0001000]), 0, { withJobs [job 0 6 (desc 6 100 0 [0x10000, 0xC0001000])] with seqs := [seq0] }.putWords 0xC0001000 [0, 7, 0, 0], ?_⟩,
     ⟨0, 0, jKm, seq0, wKm 0, ?_⟩,
     ⟨0, 0, jKm, seq0, wKm 3, ?_⟩,
     ⟨0, 0, jKm, seq0, wKm 4, ?_⟩,
     ⟨0, 0, jKm, seq0, wKm 5, ?_⟩,
     ⟨0, 0, jKm, seq0, wKm 6, ?_⟩,
     ⟨0, 0, false, jKm, seq0, wKm 2, ?_⟩,
     ⟨0, 0, false, jKm, seqCold, wKmCold, ?_⟩⟩ <;> decide +kernel

theorem test_meets_SumpGroupsKept :
    (∃ (p a : Nat) (g : Group) (s : State),
       s.shaped = true ∧
       p < 8 ∧
       s.wantsPark p = true ∧
       s.cpRunning 2 = true ∧
       minBy Group.last ((s.kv p).groups.filter fun g => s.parkable p g) = some g ∧
       s.findFrame p (128 * g.dim + 256) = some a) ∧
    (∃ (p : Nat) (g : Group) (q : Seq) (s : State),
       s.shaped = true ∧
       p < 8 ∧
       minBy Group.order ((s.kv p).groups.filter fun g => g.full && g.tail.isNone) = some g ∧
       s.seq? g.seq = some q ∧
       (s.flushGroup p g).isSome = true) :=
  by
  refine ⟨⟨0, 0xC0000000, group0, wPark, ?_⟩,
     ⟨0, groupFull, seq0, wFlush, ?_⟩⟩ <;> decide +kernel

theorem test_meets_EpochsAndReclaim :
    (∃ (p : Nat) (s : State), (s.part p).valid = true ∧ s.idlePart p = true ∧ (s.kv p).lastAdvance + 5000 ≤ s.now) ∧
    (∃ (p : Nat) (s : State), ((s.idlePart p = false ∨ s.now < (s.kv p).lastAdvance + 5000))) ∧
    (∃ (p i : Nat) (s : State),
       (List.range (s.kv p).pages).find? (fun i => s.reclaimable p i) = some i ∧
       ((∀ m ∈ s.moves, m.started = true))) :=
  by
  refine ⟨⟨0, w0, ?_⟩,
     ⟨0, { w0 with now := 4999 }, ?_⟩,
     ⟨0, 0, wReclaim, ?_⟩⟩ <;> decide +kernel

theorem test_meets_PrefillStartsWithItsSequences :
    (∃ (uid : Nat) (j : Job) (t : Slot) (ents : List Ent) (s : State),
       s.starts uid 0x03 j ∧
       j.ext = .none ∧
       (s.started uid 0x03).blocked j (dArg j.words) (64 * dCount j.words) = none ∧
       (s.started uid 0x03).blockedOut j (dOut j.words) (32 * dCount j.words) = none ∧
       (s.started uid 0x03).namedSlot j.part (dSlot j.words) = .inl t ∧
       (s.started uid 0x03).checkEntries j t
       ((List.range (dCount j.words)).map fun i => (s.started uid 0x03).wordsAt (dArg j.words + 64 * i) 16) = .inl ents ∧
       (s.started uid 0x03).seqs.length + (ents.filter Ent.created).length ≤ 1024 ∧
       ((∀ e ∈ ents, e.created = true ∨ (s.started uid 0x03).poisonedSeq j.part e.seqIdx = false))) ∧
    (∃ (uid op : Nat) (c : Instr) (j : Job) (t : Slot) (s : State),
       (c, op) ∈ [(Instr.prefill uid, 0x03), (.decodeStep uid, 0x04), (.verifyTree uid, 0x05)] ∧
       s.starts uid op j ∧
       s.recorded j ∧
       j.ext = .none ∧
       0 < dCount j.words ∧
       (s.started uid op).blocked j (dArg j.words) (64 * dCount j.words) = none ∧
       (s.started uid op).blockedOut j (dOut j.words) (32 * dCount j.words) = none ∧
       (s.started uid op).namedSlot j.part (dSlot j.words) = .inl t ∧
       (s.started uid op).checkEntry j t 0 ((s.started uid op).wordsAt (dArg j.words) 16) [] = .bad) :=
  by
  refine ⟨⟨0, jServe 3, slotV, [{ ent 0 0 with handle := 0, created := true, oldLen := 0 }], entryAt [0, 1, 0, 1, 0xC0003000] (wServe (jServe 3)), ?_⟩,
     ⟨0, 0x04, .decodeStep 0, jServe 4, slotV, entryAt [7] (wServe (jServe 4)), ?_⟩⟩ <;> decide +kernel

theorem test_meets_ServingPassGoesLayerByLayer :
    (∃ (uid op : Nat) (c : Instr) (x : Place) (e : Ent) (j : Job) (t : Slot) (s : State),
       (c, op) ∈ [(Instr.prefillChunk uid, 0x03), (.decodeStep uid, 0x04), (.verifyTree uid, 0x05)] ∧
       s.serves uid op j t x.ents x.chunk x.step x.since ∧
       (x.ents.all fun e => !e.ready) = true ∧
       s.workOut uid = false ∧
       x.entry op = some e ∧
       e.rowIds op x.chunk ≠ [] ∧
       x.step % 2 = 0 ∧
       s.shaped = true ∧
       j.part < 8) ∧
    (∃ (uid op : Nat) (c : Instr) (x : Place) (e : Ent) (j : Job) (t : Slot) (s : State),
       (c, op) ∈ [(Instr.prefillChunk uid, 0x03), (.decodeStep uid, 0x04), (.verifyTree uid, 0x05)] ∧
       s.serves uid op j t x.ents x.chunk x.step x.since ∧
       (x.ents.all fun e => !e.ready) = true ∧
       s.workOut uid = false ∧
       x.entry op = some e ∧
       e.rowIds op x.chunk ≠ [] ∧
       x.step % 2 = 1 ∧
       s.anyBlocked j (s.layerReads j t x.layer e) = none ∧
       x.step + 1 < 2 * t.manifest.layers * x.ents.length) ∧
    (∃ (uid op : Nat) (c : Instr) (x : Place) (e : Ent) (j : Job) (t : Slot) (s : State),
       (c, op) ∈ [(Instr.prefillChunk uid, 0x03), (.decodeStep uid, 0x04), (.verifyTree uid, 0x05)] ∧
       s.serves uid op j t x.ents x.chunk x.step x.since ∧
       (x.ents.all fun e => !e.ready) = true ∧
       s.workOut uid = false ∧
       s.recorded j ∧
       x.entry op = some e ∧
       e.rowIds op x.chunk ≠ [] ∧
       x.step % 2 = 1 ∧
       (s.layerReads j t x.layer e).all (fun r => r.2 == 0 || (s.inDramHost j.part r.1 r.2 && (decide (r.1 < hostBase) || s.hostOk j.part))) = true ∧
       ((∃ r ∈ s.layerReads j t x.layer e, r.2 ≠ 0 ∧
       s.badWords r.1 r.2 ≠ []))) :=
  by
  refine ⟨⟨0, 0x05, .verifyTree 0, { ents := [entT], chunk := 0, step := 0, since := none }, entT, jRun 5 entT 0, slotV, wServe (jRun 5 entT 0), ?_⟩,
     ⟨0, 0x03, .prefillChunk 0, { ents := [entR], chunk := 0, step := 1, since := none }, entR, jRun1 3 entR, slot2, { wServe (jRun1 3 entR) with slots := [slot2] }, ?_⟩,
     ⟨0, 0x03, .prefillChunk 0, { ents := [entR], chunk := 0, step := 1, since := none }, entR, jRun1 3 entR, slotV, wBadList, ?_⟩⟩ <;> decide +kernel

theorem test_meets_LastServingStepCommits :
    (∃ (uid : Nat) (x : Place) (e : Ent) (j : Job) (t : Slot) (s : State),
       s.serves uid 0x03 j t x.ents x.chunk x.step x.since ∧
       (x.ents.all fun e => !e.ready) = true ∧
       s.workOut uid = false ∧
       x.entry 0x03 = some e ∧
       e.rowIds 0x03 x.chunk ≠ [] ∧
       x.step % 2 = 1 ∧
       s.anyBlocked j (s.layerReads j t x.layer e) = none ∧
       x.step + 1 = 2 * t.manifest.layers * x.ents.length ∧
       x.chunk + 1 < chunksOfJob x.ents) ∧
    (∃ (uid : Nat) (x : Place) (e : Ent) (j : Job) (t : Slot) (s : State),
       s.serves uid 0x03 j t x.ents x.chunk x.step x.since ∧
       (x.ents.all fun e => !e.ready) = true ∧
       s.workOut uid = false ∧
       x.entry 0x03 = some e ∧
       e.rowIds 0x03 x.chunk ≠ [] ∧
       x.step % 2 = 1 ∧
       s.anyBlocked j (s.layerReads j t x.layer e) = none ∧
       x.step + 1 = 2 * t.manifest.layers * x.ents.length ∧
       x.chunk + 1 = chunksOfJob x.ents ∧
       (x.ents.map Ent.seqIdx).Nodup) ∧
    (∃ (uid op step : Nat) (c : Instr) (since : Option Nat) (e : Ent) (j : Job) (t : Slot) (s : State),
       (c, op) ∈ [(Instr.decodeStep uid, 0x04), (.verifyTree uid, 0x05)] ∧
       s.serves uid op j t [e] 0 step since ∧
       e.ready = false ∧
       s.workOut uid = false ∧
       step + 1 = 2 * t.manifest.layers ∧
       s.anyBlocked j (s.layerReads j t (step / 2) e) = none ∧
       ((s.freeLists j e.seqIdx (step / 2)).putTokens e.seqIdx e.oldLen [e.input]).isSome = true) :=
  by
  refine ⟨⟨0, { ents := [entL], chunk := 0, step := 1, since := none }, entL, jRun1 3 entL, slotV, wServe (jRun1 3 entL), ?_⟩,
     ⟨0, { ents := [entR], chunk := 0, step := 1, since := none }, entR, jRun1 3 entR, slotV, wServe (jRun1 3 entR), ?_⟩,
     ⟨0, 0x05, 1, .verifyTree 0, none, entR, jRun1 5 entR, slotV, wServe (jRun1 5 entR), ?_⟩⟩ <;> decide +kernel

theorem test_meets_SamplerDrawsAndWritesResults :
    (∃ (uid op k i : Nat) (since : Option Nat) (j : Job) (t : Slot) (e : Ent) (s : State),
       s.drawsFor uid op j t e k i since ∧
       s.recorded j ∧
       op ≠ 0x05 ∧
       e.sample = true ∧
       s.samplerBlocked j t.manifest.vocab e.samplerAddr = none ∧
       e.logits = false ∧
       s.blockedOut j (dOut j.words + 32 * e.index) 32 = none) ∧
    (∃ (uid op k i : Nat) (since : Option Nat) (j : Job) (t : Slot) (e : Ent) (s : State),
       s.drawsFor uid op j t e k i since ∧
       s.recorded j ∧
       op ≠ 0x05 ∧
       e.sample = false ∧
       e.logits = true ∧
       e.path = [] ∧
       s.blockedOut j e.logitsAddr (4 * t.manifest.vocab) = none ∧
       s.blockedOut j (dOut j.words + 32 * e.index) 32 = none ∧
       ((dOut j.words + 32 * e.index + 32 ≤ e.logitsAddr ∨ e.logitsAddr + 4 * t.manifest.vocab ≤ dOut j.words + 32 * e.index))) ∧
    (∃ (uid k i : Nat) (since : Option Nat) (j : Job) (t : Slot) (e : Ent) (s : State),
       s.drawsFor uid 0x05 j t e k i since ∧
       s.recorded j ∧
       e.logits = false ∧
       ((e.sample = true → s.samplerBlocked j t.manifest.vocab e.samplerAddr = none)) ∧
       s.blockedOut j (dOut j.words + 32 * e.index) 32 = none ∧
       (s.commitPath j e).isSome = true) :=
  by
  refine ⟨⟨0, 4, 1, 0, none, jRun 4 { entS with ready := true, sample := true, samplerAddr := 0xC0003000 } 1, slotV, { entS with ready := true, sample := true, samplerAddr := 0xC0003000 }, wServe (jRun 4 { entS with ready := true, sample := true, samplerAddr := 0xC0003000 } 1), ?_⟩,
     ⟨0, 4, 1, 0, none, jRun 4 { entS with ready := true, logits := true, logitsAddr := 0xC0004000 } 1, slotV, { entS with ready := true, logits := true, logitsAddr := 0xC0004000 }, wServe (jRun 4 { entS with ready := true, logits := true, logitsAddr := 0xC0004000 } 1), ?_⟩,
     ⟨0, 1, 0, none, jRun 5 { entS with ready := true, parents := [0xFF], tokens := [0] } 1, slotV, { entS with ready := true, parents := [0xFF], tokens := [0] }, wServe (jRun 5 { entS with ready := true, parents := [0xFF], tokens := [0] } 1), ?_⟩⟩ <;> decide +kernel

theorem test_meets_GreedyDrawTakesTheGreatestLogit :
    (∃ (x : List F32), (x.all fun v => !fIsNaN v) = true ∧ (x.any fun v => v != f32NegInf) = true) ∧
    (∃ (x : List F32), (x.all fun v => v == f32NegInf) = true) :=
  by
  refine ⟨⟨[0, f32One], ?_⟩,
     ⟨[f32NegInf], ?_⟩⟩ <;> decide +kernel

theorem test_meets_PrefixJobsApplied :
    (∃ (uid done : Nat) (w : Option Nat) (j : Job) (t : Slot) (s : State),
       s.runs uid 0x09 j ∧
       s.recorded j ∧
       j.ext = .items done w ∧
       done + 1 = dCount j.words ∧
       s.indexBusy j = false ∧
       s.slot? (dSlot j.words) = some t ∧
       s.blocked j (addr48 (s.entry16 j done) 2) (4 * plNtok (s.entry16 j done)) = none ∧
       s.blockedOut j (dOut j.words + 8 * done) 8 = none ∧
       s.anyBlocked j (s.nodeReads j.part t.heads.length (plAttach (s.entry16 j done))
       (s.matchBlocks j.part t.idx (plVariant (s.entry16 j done)) none noNode
         (blocksOf (s.wordsAt (addr48 (s.entry16 j done) 2) (plNtok (s.entry16 j done)))))) = none ∧
       plAttach (s.entry16 j done) = false) ∧
    (∃ (uid done : Nat) (w : Option Nat) (j : Job) (t : Slot) (i : Nat) (s : State),
       s.runs uid 0x09 j ∧
       s.recorded j ∧
       j.ext = .items done w ∧
       done + 1 = dCount j.words ∧
       s.indexBusy j = false ∧
       s.slot? (dSlot j.words) = some t ∧
       s.blocked j (addr48 (s.entry16 j done) 2) (4 * plNtok (s.entry16 j done)) = none ∧
       s.blockedOut j (dOut j.words + 8 * done) 8 = none ∧
       s.anyBlocked j (s.nodeReads j.part t.heads.length (plAttach (s.entry16 j done))
       (s.matchBlocks j.part t.idx (plVariant (s.entry16 j done)) none noNode
         (blocksOf (s.wordsAt (addr48 (s.entry16 j done) 2) (plNtok (s.entry16 j done)))))) = none ∧
       plAttach (s.entry16 j done) = true ∧
       s.freeSeqIdx = some i ∧
       (fun nodes => ((nodes.foldl (fun s n => s.touchNode j.part n) s).attach j t (plVariant (s.entry16 j done)) nodes).isSome)
       (s.matchBlocks j.part t.idx (plVariant (s.entry16 j done)) none noNode
         (blocksOf (s.wordsAt (addr48 (s.entry16 j done) 2) (plNtok (s.entry16 j done))))) = true) ∧
    (∃ (uid done : Nat) (w : Option Nat) (j : Job) (t : Slot) (q : Seq) (s : State),
       s.runs uid 0x0A j ∧
       s.recorded j ∧
       j.ext = .items done w ∧
       done + 1 = dCount j.words ∧
       s.indexBusy j = false ∧
       s.slot? (dSlot j.words) = some t ∧
       s.resident j.part (wordAt (s.entry16 j done) 0) = some q ∧
       s.blockedOut j (dOut j.words + 8 * done) 8 = none ∧
       s.anyBlocked j (q.historyReads ++ s.insertReads q t) = none) ∧
    (∃ (uid op done : Nat) (c : Instr) (w : Option Nat) (j : Job) (s : State),
       (c, op) ∈ [(Instr.prefixLookup uid, 0x09), (.prefixInsert uid, 0x0A)] ∧
       s.runs uid op j ∧
       j.ext = .items done w ∧
       s.indexBusy j = true) :=
  by
  refine ⟨⟨0, 0, none, jItem 9, slotV, wItem (jItem 9) [1, 0, 0xC0003000, 0], ?_⟩,
     ⟨0, 0, none, jItem 9, slotV, 1, wItem (jItem 9) [1, 0x2000, 0xC0003000, 0], ?_⟩,
     ⟨0, 0, none, jItem 10, slotV, { seq0 with len := 0, chunks := [] }, wItem (jItem 10) [0, 5, 0, 0], ?_⟩,
     ⟨1, 0x09, 0, .prefixLookup 1, none, { job 1 9 [] with state := .running, ext := .items 0 none }, withJobs [job 0 10 [], { job 1 9 [] with state := .running, ext := .items 0 none }], ?_⟩⟩ <;> decide +kernel

theorem test_meets_VariantsLoadedAndUnloaded :
    (∃ (uid done : Nat) (w : Option Nat) (j : Job) (s : State),
       s.runs uid 0x0B j ∧
       s.recorded j ∧
       j.ext = .items done w ∧
       done + 1 = dCount j.words ∧
       s.variantBusy j (vlVariant (s.entry16 j done)) = false ∧
       vlAction (s.entry16 j done) = 1) ∧
    (∃ (uid done n : Nat) (w : Option Nat) (j : Job) (t : Slot) (s : State),
       s.runs uid 0x0B j ∧
       s.recorded j ∧
       j.ext = .items done w ∧
       done + 1 = dCount j.words ∧
       s.variantBusy j (vlVariant (s.entry16 j done)) = false ∧
       vlAction (s.entry16 j done) = 0 ∧
       s.namedSlot j.part (dSlot j.words) = .inl t ∧
       n = t.layerRecs.length * t.manifest.width * 2 * (if vlScales (s.entry16 j done) then 2 else 1) ∧
       s.blocked j (addr48 (s.entry16 j done) 2) n = none ∧
       ((s.dropVariant j.part (vlVariant (s.entry16 j done))).allocFrame j.part n).isSome = true) :=
  by
  refine ⟨⟨0, 0, none, jItem 11, (wItem (jItem 11) [0x1003, 0, 0, 0]).setVariant 0 3 { valid := true, scales := false, slot := 0, data := 0xC8000000 }, ?_⟩,
     ⟨0, 0, 0, none, jItem 11, { slotV with layerRecs := [] }, { wItem (jItem 11) [3, 0, 0xC0005000, 0] with slots := [{ slotV with layerRecs := [] }] }, ?_⟩⟩ <;> decide +kernel

theorem test_meets_TrainStepAndBatch :
    (∃ (uid st r : Nat) (j : Job) (t : Slot) (s : State),
       s.starts uid 0x0C j ∧
       s.recorded j ∧
       j.ext = .none ∧
       (s.started uid 0x0C).blocked j (dArg j.words) 128 = none ∧
       (s.started uid 0x0C).blockedOut j (dOut j.words) (8 * dCount j.words) = none ∧
       (s.started uid 0x0C).namedSlot j.part (dSlot j.words) = .inl t ∧
       (s.started uid 0x0C).trainRefused j.part t ((s.started uid 0x0C).trainBlock j) = some (st, r)) ∧
    (∃ (uid : Nat) (b : List Nat) (j : Job) (t : Slot) (s : State),
       s.starts uid 0x0C j ∧
       j.ext = .none ∧
       (s.started uid 0x0C).blocked j (dArg j.words) 128 = none ∧
       (s.started uid 0x0C).blockedOut j (dOut j.words) (8 * dCount j.words) = none ∧
       (s.started uid 0x0C).namedSlot j.part (dSlot j.words) = .inl t ∧
       (s.started uid 0x0C).trainBlock j = b ∧
       trainFields t b = true ∧
       ((trainRegions t b).all fun r => r.2 == 0 || s.inDram j.part r.1 r.2) = true ∧
       ((trainRegions t b).any fun r => (s.started uid 0x0C).onImage r.1 r.2) = false ∧
       apart (tbState b, 256 + 2 * copyBytesOf t b) (tbWorkAddr b, tbWorkMib b * 2 ^ 20) = true ∧
       tbInit b = true ∧
       (s.started uid 0x0C).blocked j (tbInitAddr b) (masterBytes t b) = none) ∧
    (∃ (uid : Nat) (b : List Nat) (h : TrainHead) (rows : List Row) (r : TrainSt) (j : Job) (t : Slot) (s : State),
       s.runs uid 0x0C j ∧
       s.recorded j ∧
       j.ext = .train r ∧
       s.cpRunning 2 = true ∧
       s.workOut uid = false ∧
       s.slot? (dSlot j.words) = some t ∧
       s.trainBlock j = b ∧
       s.trainHead b = h ∧
       ((s.batchSamples b h).map fun w => (w.map (s.row t b)).getD Row.empty) = rows ∧
       r.batches + 1 = dCount j.words ∧
       s.anyBlocked j (trainReads t b h ++ (((s.batchSamples b h).filterMap id).filter sampleFields).map fun w => (addr48 w 0, 4 * sampleLen w)) = none ∧
       s.blockedOut j (dOut j.words + 8 * r.batches) 8 = none ∧
       ((dOut j.words + 8 * r.batches + 8 ≤ tbState b ∨ tbState b + 64 ≤ dOut j.words + 8 * r.batches))) :=
  by
  refine ⟨⟨0, 0x30, 0, jServe 0x0C, slotV, wItem (jServe 0x0C) [], ?_⟩,
     ⟨0, trainWords, jServe 0x0C, { slotV with manifest := { manifest0 with width := 1 } }, { wItem (jServe 0x0C) trainWords with slots := [{ slotV with manifest := { manifest0 with width := 1 } }] }, ?_⟩,
     ⟨0, trainWords, (wItem jTrain trainWords).trainHead trainWords, ((wItem jTrain trainWords).batchSamples trainWords ((wItem jTrain trainWords).trainHead trainWords)).map fun w => (w.map ((wItem jTrain trainWords).row slotV trainWords)).getD Row.empty, { started := true, batches := 0 }, jTrain, slotV, wItem jTrain trainWords, ?_⟩⟩ <;> decide +kernel

theorem test_meets_EchoSearchScansItsTable :
    (∃ (uid : Nat) (j : Job) (s : State),
       s.starts uid 0x0E j ∧
       s.recorded j ∧
       j.ext = .none ∧
       (s.started uid 0x0E).blocked j (dArg j.words) 64 = none ∧
       (s.started uid 0x0E).searchOk j = false) ∧
    (∃ (uid : Nat) (j : Job) (s : State),
       s.starts uid 0x0E j ∧
       j.ext = .none ∧
       (s.started uid 0x0E).blocked j (dArg j.words) 64 = none ∧
       (s.started uid 0x0E).searchOk j = true ∧
       ((s.started uid 0x0E).allocFrame j.part (saveBytes j)).isSome = true) ∧
    (∃ (area : Nat) (x : SearchSt) (y : EchoUnit) (j : Job) (s : State),
       maxBy EchoUnit.effPrio s.echo.queue = some y ∧
       y.kind = .search ∧
       s.runs y.uid 0x0E j ∧
       s.recorded j ∧
       j.ext = .search x area ∧
       s.blocked j (s.searchHdr j).query (2 * (s.searchHdr j).dim * dCount j.words) = none ∧
       s.badSearchRows (s.searchHdr j) x = [] ∧
       s.blockedOut j (dOut j.words) (8 * searchK j * dCount j.words) = none ∧
       (s.searchHdr j).rows ≤ x.row + min (s.searchHdr j).chunk ((s.searchHdr j).rows - x.row) ∧
       dCount j.words ≤ 16 * (x.pass + 1)) ∧
    (∃ (area : Nat) (x : SearchSt) (y : EchoUnit) (j : Job) (s : State),
       maxBy EchoUnit.effPrio s.echo.queue = some y ∧
       y.kind = .search ∧
       s.runs y.uid 0x0E j ∧
       j.ext = .search x area ∧
       s.blocked j (s.searchHdr j).query (2 * (s.searchHdr j).dim * dCount j.words) = none ∧
       s.badSearchRows (s.searchHdr j) x = [] ∧
       x.row + (s.searchHdr j).chunk < (s.searchHdr j).rows ∧
       16 * x.pass < dCount j.words) ∧
    (∃ (area : Nat) (x : SearchSt) (y : EchoUnit) (j : Job) (s : State),
       maxBy EchoUnit.effPrio s.echo.queue = some y ∧
       y.kind = .search ∧
       s.runs y.uid 0x0E j ∧
       s.recorded j ∧
       j.ext = .search x area) ∧
    (∃ (seq layer head : Nat) (y : EchoUnit) (q : Seq) (r : Retrieval) (s : State),
       maxBy EchoUnit.effPrio s.echo.queue = some y ∧
       y.kind = .level1 seq layer head ∧
       s.seq? seq = some q ∧
       (s.echo.retrievals.find? fun r => r.isFor y.uid seq layer head) = some r) :=
  by
  refine ⟨⟨0, { jSearch with state := .queued, ext := .none }, withJobs [{ jSearch with state := .queued, ext := .none }], ?_⟩,
     ⟨0, { jSearch with state := .queued, ext := .none }, wSearch { jSearch with state := .queued, ext := .none }, ?_⟩,
     ⟨0, { pass := 0, row := 0, scanned := 0, tops := [[]] }, unitS, jSearch, wSearch jSearch, ?_⟩,
     ⟨0, { pass := 0, row := 0, scanned := 0, tops := [[]] }, unitS, jSearch, (wSearch jSearch).putN (0xC0001000 + 36) 4 9000, ?_⟩,
     ⟨0, { pass := 0, row := 0, scanned := 0, tops := [[]] }, unitS, jSearch, wSearch jSearch, ?_⟩,
     ⟨0, 0, 0, { unitS with kind := .level1 0 0 0 }, seq0, ret0, { wSearch jSearch with seqs := [seq0], echo := { Echo.reset with queue := [{ unitS with kind := .level1 0 0 0 }], retrievals := [ret0] } }, ?_⟩⟩ <;> decide +kernel

theorem test_meets_VisionFrameTakenIn :
    (∃ (uid st : Nat) (j : Job) (s : State),
       s.visionBusy uid = false ∧
       s.starts uid 0x0D j ∧
       s.recorded j ∧
       (s.started uid 0x0D).blocked j (dArg j.words) 128 = none ∧
       (s.started uid 0x0D).visionRefused j = some st) ∧
    (∃ (uid : Nat) (j : Job) (s : State),
       s.visionBusy uid = false ∧
       s.starts uid 0x0D j ∧
       (s.started uid 0x0D).blocked j (dArg j.words) 128 = none ∧
       (s.started uid 0x0D).visionRefused j = none ∧
       (s.started uid 0x0D).badWords (vhdr ((s.started uid 0x0D).vwords j)).mesh (vhdr ((s.started uid 0x0D).vwords j)).meshBytes = [] ∧
       (s.started uid 0x0D).meshOk (vhdr ((s.started uid 0x0D).vwords j)) = true) ∧
    (∃ (j : Job) (s : State),
       s.visionJob = some j ∧
       s.visionHdr.progress ≠ 0 ∧
       s.vision.copied < s.visionHdr.h ∧
       s.vision.lastPoll + 200 ≤ s.now ∧
       s.readable j.part s.visionHdr.progress = true) ∧
    (∃ (b : Nat) (j : Job) (s : State),
       s.visionJob = some j ∧
       min s.vision.ready (min s.visionHdr.h ((s.vision.copied / 16 + 1) * 16)) = b ∧
       s.vision.copied < b ∧
       s.vision.current = true ∧
       s.badRows s.visionHdr s.vision.copied b = [] ∧
       s.visionHdr.rgb = true ∧
       hostBase ≤ s.visionHdr.src ∧
       s.hostOk j.part = true ∧
       s.visionHdr.rowBytes ≤ s.visionHdr.stride ∧
       s.visionHdr.stage + s.visionHdr.stride * b ≤ hostBase) ∧
    (∃ (b : Nat) (j : Job) (s : State),
       s.visionJob = some j ∧
       min s.vision.ready (min s.visionHdr.h ((s.vision.copied / 16 + 1) * 16)) = b ∧
       s.vision.copied < b ∧
       s.vision.current = true ∧
       s.badRows s.visionHdr s.vision.copied b = [] ∧
       ((s.visionHdr.usesHost = false ∨ s.hostOk j.part = true))) ∧
    (∃ (j : Job) (s : State),
       s.visionJob = some j ∧
       s.recorded j ∧
       s.vision.current = true ∧
       s.vision.copied < min s.vision.ready (min s.visionHdr.h ((s.vision.copied / 16 + 1) * 16)) ∧
       j.opcode = 0x0D ∧
       s.visionHdr.usesHost = true) ∧
    (∃ (j : Job) (s : State),
       s.visionJob = some j ∧
       s.recorded j ∧
       s.visionHdr.h ≤ s.vision.copied ∧
       s.badWords s.visionHdr.stage s.visionHdr.stageBytes = []) ∧
    (∃ (j : Job) (s : State), s.visionJob = some j ∧ s.recorded j ∧ s.visionHdr.h ≤ s.vision.copied) ∧
    (∃ (j : Job) (s : State),
       s.visionJob = some j ∧
       s.recorded j ∧
       s.vision.copied < s.visionHdr.h ∧
       s.vision.stallFrom + s.vision.timeoutMs * 100000 ≤ s.now) ∧
    (∃ (j : Job) (s : State), s.visionJob = some j ∧ s.now < s.vision.stallFrom + s.vision.timeoutMs * 100000) :=
  by
  refine ⟨⟨0, 0x30, { jVis with state := .queued, ext := .none }, withJobs [{ jVis with state := .queued, ext := .none }], ?_⟩,
     ⟨0, { jVis with state := .queued, ext := .none }, (withJobs [{ jVis with state := .queued, ext := .none }]).putWords 0xC0001000 (visionWords 0xC0030000 0), ?_⟩,
     ⟨jVis, (wVis 0xC0030000 0 0 0).putWords 0xC0005000 [7, 5], ?_⟩,
     ⟨5, jVis, wVis 0 0x4000 5 0, ?_⟩,
     ⟨4, jVis, wNv12, ?_⟩,
     ⟨jVis, wVis 0 0x4000 5 0, ?_⟩,
     ⟨jVis, wVis 0xC0030000 0 16 16, ?_⟩,
     ⟨jVis, wVis 0xC0030000 0 16 16, ?_⟩,
     ⟨jVis, wVis 0xC0030000 0 5 3, ?_⟩,
     ⟨jVis, { wVis 0xC0030000 0 5 3 with now := 7 }, ?_⟩⟩ <;> decide +kernel

theorem test_meets_ShipJobsStartAndSend :
    (∃ (uid op : Nat) (c : Instr) (j : Job) (s : State),
       (c, op) ∈ [(Instr.kvShipOut uid, 0x07), (.kvShipIn uid, 0x08)] ∧
       s.starts uid op j ∧
       s.recorded j ∧
       j.ship? = none ∧
       (s.started uid op).blocked j (dArg j.words) (32 * dCount j.words) = none ∧
       (s.started uid op).blockedOut j (dOut j.words) (if j.opcode == 0x07 then 0 else 4 * dCount j.words) = none ∧
       bit j.part s.passage.partMask = false) ∧
    (∃ (uid op : Nat) (c : Instr) (j : Job) (s : State),
       (c, op) ∈ [(Instr.kvShipOut uid, 0x07), (.kvShipIn uid, 0x08)] ∧
       s.starts uid op j ∧
       j.ship? = none ∧
       s.shaped = true ∧
       (s.started uid op).blocked j (dArg j.words) (32 * dCount j.words) = none ∧
       (s.started uid op).blockedOut j (dOut j.words) (if j.opcode == 0x07 then 0 else 4 * dCount j.words) = none ∧
       bit j.part s.passage.partMask = true ∧
       s.conf j.part = false ∧
       dHops j.words ≠ 0 ∧
       (((List.range (dCount j.words)).map ((s.started uid op).shipEntry j)).all fun w =>
       shBuffer w && (s.started uid op).shipOk j.part (j.opcode == 0x07) w &&
         (s.started uid op).inDram j.part (shAddr w) (shLength w)) = true ∧
       (s.started uid op).blocked j (dArg j.words) 32 = none ∧
       (s.pport (dPort j.words)).state = .ready) ∧
    (∃ (uid : Nat) (j : Job) (sh : ShipSt) (s : State),
       s.runs uid 0x07 j ∧
       j.ship? = some sh ∧
       sh.out = true ∧
       sh.probed = true ∧
       sh.held = false ∧
       sh.sent < sh.total ∧
       ((s.pport sh.port).waiting.any fun f => f.vc == 1) = false ∧
       sh.port < s.passage.ports.length) :=
  by
  refine ⟨⟨0, 0x07, .kvShipOut 0, jShip 7, { wShip (jShip 7) with passage := { Passage.reset 15 with partMask := 2 } }, ?_⟩,
     ⟨0, 0x08, .kvShipIn 0, jShip 8, wShip (jShip 8), ?_⟩,
     ⟨0, jShipping 7 (shipSt true), shipSt true, wShip (jShipping 7 (shipSt true)), ?_⟩⟩ <;> decide +kernel

theorem test_meets_ShipControlMessages :
    (∃ (port : Nat) (ids : ShipIds) (tag : Nat) (j : Job) (sh : ShipSt) (s : State),
       ids.peer = s.passage.id ∧
       s.shipFor true port ids.origin tag = some (j, sh) ∧
       s.job? j.uid = some j ∧
       sh.ready = false ∧
       j.state = .running ∧
       (s.pport port).state = .ready) ∧
    (∃ (uid : Nat) (j : Job) (sh : ShipSt) (s : State),
       s.shipOf uid = some (j, sh) ∧
       sh.out = false ∧
       sh.ready = false ∧
       j.state = .running ∧
       sh.lastReady + 10000 ≤ s.now ∧
       sh.port < s.passage.ports.length) ∧
    (∃ (uid offset : Nat) (j : Job) (sh : ShipSt) (s : State),
       s.shipOf uid = some (j, sh) ∧
       s.recorded j ∧
       j.ending = none ∧
       sh.out = true ∧
       sh.probed = true ∧
       sh.sent = sh.total ∧
       offset = sh.total ∧
       sh.entry + 1 = sh.count) ∧
    (∃ (uid offset : Nat) (j : Job) (sh : ShipSt) (s : State),
       s.shipOf uid = some (j, sh) ∧
       sh.out = true ∧
       sh.probed = true ∧
       offset ≤ sh.sent) ∧
    (∃ (uid : Nat) (j : Job) (sh : ShipSt) (s : State), s.shipOf uid = some (j, sh)) ∧
    (∃ (uid : Nat) (j : Job) (sh : ShipSt) (s : State),
       s.shipOf uid = some (j, sh) ∧
       j.state = .suspended ∧
       sh.lastHold + 100000 ≤ s.now ∧
       sh.port < s.passage.ports.length) ∧
    (∃ (uid : Nat) (j : Job) (sh : ShipSt) (s : State), s.shipOf uid = some (j, sh) ∧ j.state ≠ .cancelling) ∧
    (∃ (uid : Nat) (j : Job) (sh : ShipSt) (s : State), s.shipOf uid = some (j, sh) ∧ s.recorded j) ∧
    (∃ (uid : Nat) (j : Job) (sh : ShipSt) (s : State),
       s.shipOf uid = some (j, sh) ∧
       s.recorded j ∧
       ((j.state = .running ∨ j.state = .suspending)) ∧
       sh.ready = true ∧
       sh.lastProgress + 1000000 ≤ s.now) ∧
    (∃ (uid t : Nat) (j : Job) (sh : ShipSt) (s : State),
       s.shipOf uid = some (j, sh) ∧
       s.recorded j ∧
       sh.probed = false ∧
       sh.probeSent = some t ∧
       t + 100000 ≤ s.now) ∧
    (∃ (uid t : Nat) (j : Job) (sh : ShipSt) (s : State),
       s.shipOf uid = some (j, sh) ∧
       s.now < sh.lastProgress + 1000000 ∧
       sh.probeSent = some t ∧
       s.now < t + 100000) :=
  by
  refine ⟨⟨0, { origin := 7, peer := 15 }, 9, jShipping 7 ({ shipSt true with ready := false }), { shipSt true with ready := false }, wShip (jShipping 7 ({ shipSt true with ready := false })), ?_⟩,
     ⟨0, jShipping 8 ({ shipSt false with ready := false }), { shipSt false with ready := false }, { wShip (jShipping 8 ({ shipSt false with ready := false })) with now := 10000 }, ?_⟩,
     ⟨0, 32, jShipping 7 ({ shipSt true with sent := 32 }), { shipSt true with sent := 32 }, wShip (jShipping 7 ({ shipSt true with sent := 32 })), ?_⟩,
     ⟨0, 16, jShipping 7 ({ shipSt true with sent := 32 }), { shipSt true with sent := 32 }, wShip (jShipping 7 ({ shipSt true with sent := 32 })), ?_⟩,
     ⟨0, jShipping 7 (shipSt true), shipSt true, wShip (jShipping 7 (shipSt true)), ?_⟩,
     ⟨0, { jShipping 7 (shipSt true) with state := .suspended }, shipSt true, { wShip { jShipping 7 (shipSt true) with state := .suspended } with now := 100000 }, ?_⟩,
     ⟨0, jShipping 8 (shipSt false), shipSt false, wShip (jShipping 8 (shipSt false)), ?_⟩,
     ⟨0, jShipping 8 (shipSt false), shipSt false, wShip (jShipping 8 (shipSt false)), ?_⟩,
     ⟨0, jShipping 7 (shipSt true), shipSt true, { wShip (jShipping 7 (shipSt true)) with now := 1000000 }, ?_⟩,
     ⟨0, 0, jShipping 7 ({ shipSt true with probed := false, probeSent := some 0 }), { shipSt true with probed := false, probeSent := some 0 }, { wShip (jShipping 7 ({ shipSt true with probed := false, probeSent := some 0 })) with now := 100000 }, ?_⟩,
     ⟨0, 5, jShipping 7 ({ shipSt true with probed := false, probeSent := some 5 }), { shipSt true with probed := false, probeSent := some 5 }, wShip (jShipping 7 ({ shipSt true with probed := false, probeSent := some 5 })), ?_⟩⟩ <;> decide +kernel

theorem test_meets_PassageFramesReceived :
    (∃ (port : Nat) (f : Frame) (t : State) (j : Job) (sh : ShipSt) (s : State),
       f.type = 0 ∧
       s.accept port f = (true, t) ∧
       f.hops ≤ 1 ∧
       f.vc ≠ 0 ∧
       t.shipFor false port (tOrigin f.payload) (tXfer f.payload) = some (j, sh) ∧
       t.job? j.uid = some j ∧
       tConf f.payload = t.conf j.part ∧
       tOffset f.payload = sh.sent ∧
       sh.sent < sh.total ∧
       shBuffer sh.words = true ∧
       sh.image.length + (f.payload.drop 16).length < sh.total ∧
       sh.image.length + (f.payload.drop 16).length < sh.acked + 2 ^ 20) ∧
    (∃ (port : Nat) (f : Frame) (t : State) (j : Job) (sh : ShipSt) (s : State),
       f.type = 0 ∧
       s.accept port f = (true, t) ∧
       f.hops ≤ 1 ∧
       f.vc ≠ 0 ∧
       t.shipFor false port (tOrigin f.payload) (tXfer f.payload) = some (j, sh) ∧
       t.job? j.uid = some j ∧
       tConf f.payload = t.conf j.part ∧
       tOffset f.payload = sh.sent ∧
       sh.sent < sh.total ∧
       shBuffer sh.words = true ∧
       sh.total ≤ sh.image.length + (f.payload.drop 16).length) ∧
    (∃ (port : Nat) (f : Frame) (t s : State),
       f.type = 0 ∧
       s.accept port f = (true, t) ∧
       1 < f.hops ∧
       port < 2 ∧
       (t.pport (1 - port)).state = .ready ∧
       t.passage.ports.length = 2) ∧
    (∃ (port : Nat) (f : Frame) (c : Instr) (m : KeyxMet) (s : State),
       c ∈ [Instr.data port f, .ack port f, .nak port f, .credit port f, .probe port f, .probeReply port f, .keyx port f m,
       .discover port f] ∧
       7 < f.type ∧
       (s.pport port).live = true) ∧
    (∃ (port : Nat) (f : Frame) (s : State),
       f.type = 1 ∧
       (s.pport port).live = true ∧
       f.crcOk = true ∧
       f.tagOk = true ∧
       f.stomped = false ∧
       port < s.passage.ports.length ∧
       (s.pport port).waiting = [] ∧
       ((s.pport port).retry.any fun g => g.seq == f.ackSeq) = true) ∧
    (∃ (port : Nat) (f : Frame) (s : State),
       f.type = 2 ∧
       (s.pport port).live = true ∧
       f.crcOk = true ∧
       f.tagOk = true ∧
       f.stomped = false ∧
       port < s.passage.ports.length ∧
       (s.pport port).waiting = [] ∧
       ((s.pport port).retry.any fun g => g.seq == f.ackSeq) = false ∧
       (s.pport port).retry ≠ [] ∧
       (s.pport port).replays < 16 ∧
       (s.pport port).state ≠ .locked ∧
       (s.pport port).txCtr + (s.pport port).retry.length ≤ 2 ^ 48) ∧
    (∃ (port : Nat) (f : Frame) (c : Instr) (s : State),
       (c, f.type) ∈ [(Instr.ack port f, 1), (.nak port f, 2), (.credit port f, 3)] ∧
       (s.pport port).live = true ∧
       f.stomped = false ∧
       f.crcOk = false ∧
       port < s.passage.ports.length ∧
       (s.pport port).txCtr < 2 ^ 48) ∧
    (∃ (port : Nat) (f : Frame) (s : State),
       f.type = 3 ∧
       (s.pport port).live = true ∧
       f.crcOk = true ∧
       f.tagOk = true ∧
       f.stomped = false ∧
       port < s.passage.ports.length ∧
       (s.pport port).waiting = [] ∧
       (s.pport port).credits.length = 2 ∧
       (s.pport port).granted.length = 2) ∧
    (∃ (port : Nat) (f : Frame) (t s : State),
       f.type = 4 ∧
       s.accept port f = (true, t) ∧
       f.hops ≤ 1 ∧
       tOrigin f.payload ≠ t.passage.id ∧
       port < t.passage.ports.length) ∧
    (∃ (port : Nat) (f : Frame) (t s : State),
       f.type = 5 ∧
       s.accept port f = (true, t) ∧
       f.hops ≤ 1 ∧
       (t.pport port).state = .keying ∧
       (t.pport port).probes = 63 ∧
       port < t.passage.ports.length) ∧
    (∃ (port : Nat) (f : Frame) (m : KeyxMet) (d : Nat) (s : State),
       f.type = 6 ∧
       f.crcOk = true ∧
       (s.pport port).state = .ready ∧
       (s.pport port).rekeying = true ∧
       (s.pport port).ephemeral = some d ∧
       m.signed = true ∧
       (s.pport port).pinHolds m.cert = true ∧
       port < s.passage.ports.length) ∧
    (∃ (port : Nat) (f : Frame) (m : KeyxMet) (s : State),
       f.type = 6 ∧
       f.crcOk = true ∧
       (s.pport port).exchanges = true ∧
       (s.pport port).rekeying = true ∧
       (s.pport port).ephemeral = none ∧
       m.signed = true ∧
       (s.pport port).pinHolds m.cert = true) ∧
    (∃ (port : Nat) (f : Frame) (m : KeyxMet) (s : State),
       f.type = 6 ∧
       f.crcOk = true ∧
       (s.pport port).exchanges = true ∧
       ((m.signed = false ∨ (s.pport port).pinHolds m.cert = false)) ∧
       port < s.passage.ports.length) ∧
    (∃ (port : Nat) (f : Frame) (s : State),
       f.type = 7 ∧
       (s.pport port).state = .discovery ∧
       f.crcOk = true ∧
       f.tagOk = true ∧
       f.stomped = false ∧
       port < s.passage.ports.length) :=
  by
  refine ⟨⟨0, frameOf 0 1 1 (transport 7 9 0 false ++ List.replicate 16 3), ((wShip (jShipping 8 (shipSt false))).accept 0 (frameOf 0 1 1 (transport 7 9 0 false ++ List.replicate 16 3))).2, jShipping 8 (shipSt false), shipSt false, wShip (jShipping 8 (shipSt false)), ?_, Prod.ext (?_) rfl, ?_, ?_, ?_, ?_, ?_, ?_, ?_, ?_, ?_, ?_⟩,
     ⟨0, frameOf 0 1 1 (transport 7 9 0 false ++ List.replicate 32 3), ((wShip (jShipping 8 (shipSt false))).accept 0 (frameOf 0 1 1 (transport 7 9 0 false ++ List.replicate 32 3))).2, jShipping 8 (shipSt false), shipSt false, wShip (jShipping 8 (shipSt false)), ?_, Prod.ext (?_) rfl, ?_, ?_, ?_, ?_, ?_, ?_, ?_, ?_, ?_⟩,
     ⟨0, frameOf 0 1 2 [], ((wPort portUp).accept 0 (frameOf 0 1 2 [])).2, wPort portUp, ?_, Prod.ext (?_) rfl, ?_, ?_, ?_, ?_⟩,
     ⟨0, frameOf 9 0 1 [], .nak 0 (frameOf 9 0 1 []), { signed := true, cert := [] }, wPort portUp, ?_⟩,
     ⟨0, frameOf 1 0 1 [], wPort { portUp with retry := [frameOf 0 0 1 []], txSeq := 1 }, ?_⟩,
     ⟨0, { frameOf 2 0 1 [] with ackSeq := 9 }, wPort { portUp with retry := [frameOf 0 0 1 []], txSeq := 1 }, ?_⟩,
     ⟨0, { frameOf 1 0 1 [] with crcOk := false }, .ack 0 { frameOf 1 0 1 [] with crcOk := false }, wPort portUp, ?_⟩,
     ⟨0, frameOf 3 0 1 [5, 0, 7, 0], wPort portUp, ?_⟩,
     ⟨0, frameOf 4 0 1 (transport 7 0 1 false), ((wPort portUp).accept 0 (frameOf 4 0 1 (transport 7 0 1 false))).2, wPort portUp, ?_, Prod.ext (?_) rfl, ?_, ?_, ?_⟩,
     ⟨0, frameOf 5 0 1 (transport 7 0 1 false), ((wPort { portUp with state := .keying, probes := 63 }).accept 0 (frameOf 5 0 1 (transport 7 0 1 false))).2, wPort { portUp with state := .keying, probes := 63 }, ?_, Prod.ext (?_) rfl, ?_, ?_, ?_, ?_⟩,
     ⟨0, frameOf 6 0 1 [], { signed := true, cert := [] }, 5, wPort { portUp with rekeying := true, ephemeral := some 5 }, ?_⟩,
     ⟨0, frameOf 6 0 1 [], { signed := true, cert := [] }, wPort { portUp with rekeying := true }, ?_⟩,
     ⟨0, frameOf 6 0 1 [], { signed := true, cert := [] }, wPort { portUp with pin := [1, 0, 0, 0, 0, 0, 0, 0, 0, 0, 0, 0] }, ?_⟩,
     ⟨0, frameOf 7 0 1 [4, 0], wPort { portUp with state := .discovery }, ?_⟩⟩ <;> decide +kernel

theorem test_meets_PassagePortUpkeep :
    (∃ (port : Nat) (s : State),
       port < s.passage.ports.length ∧
       (s.pport port).enable = true ∧
       (((s.pport port).state = .down ∨ (s.pport port).state = .training)) ∧
       s.cpRunning 3 = true ∧
       s.dev.shutdownDone = false ∧
       (s.pport port).state ≠ .locked) ∧
    (∃ (port : Nat) (s : State), port < s.passage.ports.length ∧ (s.pport port).isUp = true) ∧
    (∃ (port uid : Nat) (j : Job) (s : State),
       (s.pport port).isUp = true ∧
       s.job? uid = some j ∧
       s.recorded j ∧
       (s.shipJobs port).map Job.uid = [uid]) ∧
    (∃ (port : Nat) (s : State),
       (s.pport port).retry ≠ [] ∧
       (s.pport port).lastProgress + 400 ≤ s.now ∧
       (s.pport port).live = true ∧
       (s.pport port).replays < 16 ∧
       port < s.passage.ports.length ∧
       (s.pport port).txCtr + (s.pport port).retry.length ≤ 2 ^ 48) ∧
    (∃ (port : Nat) (s : State),
       port < s.passage.ports.length ∧
       (s.pport port).live = true ∧
       0 < (s.pport port).unacked ∧
       (s.pport port).lastAck + 50 ≤ s.now ∧
       (s.pport port).txCtr < 2 ^ 48) ∧
    (∃ (port : Nat) (s : State),
       port < s.passage.ports.length ∧
       (s.pport port).live = true ∧
       (s.pport port).owed ≠ (s.pport port).told ∧
       (s.pport port).lastCredit + 50 ≤ s.now ∧
       (s.pport port).txCtr < 2 ^ 48) ∧
    (∃ (port : Nat) (s : State),
       s.now < (s.pport port).lastProgress + 400 ∧
       s.now < (s.pport port).lastAck + 50 ∧
       (s.pport port).unacked < 16 ∧
       s.now < (s.pport port).lastCredit + 50) ∧
    (∃ (port : Nat) (s : State),
       port < s.passage.ports.length ∧
       (s.pport port).state = .ready ∧
       (s.pport port).rekeying = false ∧
       2 ^ 32 ≤ (s.pport port).txCtr) ∧
    (∃ (port : Nat) (s : State),
       port < 2 ∧
       port < s.passage.ports.length ∧
       (s.pport port).state = .ready ∧
       2 ^ 48 ≤ (s.pport port).txCtr) ∧
    (∃ (port : Nat) (s : State),
       port < s.passage.ports.length ∧
       (((s.pport port).state = .keying ∨ (s.pport port).rekeying = true)) ∧
       (s.pport port).isUp = true ∧
       (s.pport port).lastKeyx + 10000000 ≤ s.now) ∧
    (∃ (port : Nat) (s : State),
       port < s.passage.ports.length ∧
       s.reaches .pf = true ∧
       (((s.pport port).state = .ready ∨ (s.pport port).state = .locked))) ∧
    (∃ (port : Nat) (s : State), port < s.passage.ports.length ∧ s.reaches .pf = true ∧ (s.pport port).isUp = true) ∧
    (∃ (port : Nat) (s : State),
       port < s.passage.ports.length ∧
       s.reaches .pf = true ∧
       (s.pport port).state = .disabled) ∧
    (∃ (fn : Fn), fn ≠ .pf) :=
  by
  refine ⟨⟨0, wPort PPort.reset, ?_⟩,
     ⟨1, wPort portUp, ?_⟩,
     ⟨0, 0, jShipping 7 (shipSt true), wShip (jShipping 7 (shipSt true)), ?_⟩,
     ⟨0, wPort { portUp with retry := [frameOf 0 0 1 []], txSeq := 1 }, ?_⟩,
     ⟨0, wPort { portUp with unacked := 1 }, ?_⟩,
     ⟨0, wPort { portUp with owed := [3, 4] }, ?_⟩,
     ⟨0, { wPort { portUp with retry := [frameOf 0 0 1 []], unacked := 2, owed := [1, 0] } with now := 49 }, ?_⟩,
     ⟨0, wPort { portUp with txCtr := 2 ^ 32 }, ?_⟩,
     ⟨1, { w0 with passage := { Passage.reset 15 with ports := [portUp, { portUp with txCtr := 2 ^ 48 }] } }, ?_⟩,
     ⟨0, { wPort { portUp with rekeying := true } with now := 10000000 }, ?_⟩,
     ⟨0, wPort portUp, ?_⟩,
     ⟨0, wPort portUp, ?_⟩,
     ⟨0, wPort { portUp with state := .disabled, enable := false }, ?_⟩,
     ⟨.vf 1, ?_⟩⟩ <;> decide +kernel

theorem test_meets_FlashJobsStart :
    (∃ (uid op st : Nat) (c : Instr) (j : Job) (s : State),
       (c, op) ∈ [(Instr.flashRead uid, 0x20), (.flashProgram uid, 0x21), (.flashErase uid, 0x22)] ∧
       s.starts uid op j ∧
       s.recorded j ∧
       j.ext = .none ∧
       (s.started uid op).flashTarget j = .inr st) ∧
    (∃ (uid op st : Nat) (c : Instr) (j : Job) (t : FTarget) (s : State),
       (c, op) ∈ [(Instr.flashRead uid, 0x20), (.flashProgram uid, 0x21), (.flashErase uid, 0x22)] ∧
       s.starts uid op j ∧
       s.recorded j ∧
       j.ext = .none ∧
       (s.started uid op).flashTarget j = .inl t ∧
       (s.started uid op).flashCheck t j = some st) ∧
    (∃ (uid : Nat) (j : Job) (t : FTarget) (l : PageLoc) (s : State),
       s.starts uid 0x20 j ∧
       j.ext = .none ∧
       (s.started uid 0x20).flashTarget j = .inl t ∧
       (s.started uid 0x20).flashCheck t j = none ∧
       (s.started uid 0x20).inDramHost j.part (dOut j.words) (pageBytes * fCount j.words) = true ∧
       0 < fCount j.words ∧
       dOut j.words < hostBase ∧
       (s.started uid 0x20).jobPage t j.words 0 = l ∧
       s.isTorn t.vol.num l.band = false ∧
       s.shaped = true) ∧
    (∃ (uid : Nat) (j : Job) (t : FTarget) (l : PageLoc) (s : State),
       s.starts uid 0x21 j ∧
       j.ext = .none ∧
       (s.started uid 0x21).flashTarget j = .inl t ∧
       (s.started uid 0x21).flashCheck t j = none ∧
       (s.started uid 0x21).inDramHost j.part (dOut j.words) (pageBytes * fCount j.words) = true ∧
       0 < fCount j.words ∧
       dOut j.words < hostBase ∧
       (s.started uid 0x21).jobPage t j.words 0 = l ∧
       (s.die l.die).worn = false ∧
       s.badWords (dOut j.words) pageBytes = [] ∧
       t.raw = false ∧
       s.shaped = true) ∧
    (∃ (uid : Nat) (j : Job) (t : FTarget) (s : State),
       s.starts uid 0x22 j ∧
       (s.started uid 0x22).flashTarget j = .inl t ∧
       (s.started uid 0x22).flashCheck t j = none ∧
       s.shaped = true) :=
  by
  refine ⟨⟨0, 0x20, 0x31, .flashRead 0, jFlash 0x20, withJobs [jFlash 0x20], ?_⟩,
     ⟨0, 0x22, 0x30, .flashErase 0, job 0 0x22 (desc 0x22 100 0 [3, 5]), { vol := vol0, raw := false, limit := 32768 }, wFlash (job 0 0x22 (desc 0x22 100 0 [3, 5])) [], ?_⟩,
     ⟨0, jFlash 0x20, { vol := vol0, raw := false, limit := 32768 }, (wFlash (jFlash 0x20) []).jobPage { vol := vol0, raw := false, limit := 32768 } (jFlash 0x20).words 0, wFlash (jFlash 0x20) [], ?_⟩,
     ⟨0, jFlash 0x21, { vol := vol0, raw := false, limit := 32768 }, (wFlash (jFlash 0x21) []).jobPage { vol := vol0, raw := false, limit := 32768 } (jFlash 0x21).words 0, wFlash (jFlash 0x21) [], ?_⟩,
     ⟨0, job 0 0x22 (desc 0x22 100 0 [3, 0]), { vol := vol0, raw := false, limit := 32768 }, wFlash (job 0 0x22 (desc 0x22 100 0 [3, 0])) [], ?_⟩⟩ <;> decide +kernel

theorem test_meets_FlashProtectActions :
    (∃ (uid n : Nat) (j : Job) (r : Region) (s : State),
       s.starts uid 0x23 j ∧
       s.recorded j ∧
       bits 3 0 (wordAt j.words 3) = n ∧
       bits 9 8 (wordAt j.words 3) = 1 ∧
       s.flash.regions[n]? = some r ∧
       s.flash.lockout = false ∧
       ((List.range ((s.protectRange j.words).2 + 1 - (s.protectRange j.words).1)).all fun i =>
       (s.volumeOfSlot ((s.protectRange j.words).1 + i)).map Volume.owner == some j.part) = true ∧
       r.state = 0 ∧
       (s.protectRange j.words).1 ≤ (s.protectRange j.words).2) ∧
    (∃ (uid n : Nat) (j : Job) (r : Region) (s : State),
       s.starts uid 0x23 j ∧
       s.recorded j ∧
       bits 3 0 (wordAt j.words 3) = n ∧
       bits 9 8 (wordAt j.words 3) = 0 ∧
       s.flash.regions[n]? = some r ∧
       s.flash.lockout = false ∧
       ((List.range ((s.protectRange j.words).2 + 1 - (s.protectRange j.words).1)).all fun i =>
       (s.volumeOfSlot ((s.protectRange j.words).1 + i)).map Volume.owner == some j.part) = true ∧
       r.state = 1 ∧
       r.password = (wordAt j.words 6 + 2 ^ 32 * wordAt j.words 7)) ∧
    (∃ (uid n : Nat) (j : Job) (r : Region) (s : State),
       s.starts uid 0x23 j ∧
       s.recorded j ∧
       bits 3 0 (wordAt j.words 3) = n ∧
       bits 9 8 (wordAt j.words 3) = 2 ∧
       s.flash.regions[n]? = some r ∧
       s.flash.lockout = false ∧
       ((List.range ((s.protectRange j.words).2 + 1 - (s.protectRange j.words).1)).all fun i =>
       (s.volumeOfSlot ((s.protectRange j.words).1 + i)).map Volume.owner == some j.part) = true ∧
       ((r.state = 0 ∨ r.state = 1 ∧
       r.password = (wordAt j.words 6 + 2 ^ 32 * wordAt j.words 7)))) ∧
    (∃ (uid n : Nat) (j : Job) (r : Region) (s : State),
       s.starts uid 0x23 j ∧
       s.recorded j ∧
       bits 3 0 (wordAt j.words 3) = n ∧
       bits 9 8 (wordAt j.words 3) = 3 ∧
       s.flash.regions[n]? = some r ∧
       s.flash.lockout = false ∧
       ((List.range ((s.protectRange j.words).2 + 1 - (s.protectRange j.words).1)).all fun i =>
       (s.volumeOfSlot ((s.protectRange j.words).1 + i)).map Volume.owner == some j.part) = true ∧
       r.state = 1 ∧
       r.password = (wordAt j.words 6 + 2 ^ 32 * wordAt j.words 7)) ∧
    (∃ (uid n act : Nat) (j : Job) (r : Region) (s : State),
       s.starts uid 0x23 j ∧
       s.recorded j ∧
       bits 3 0 (wordAt j.words 3) = n ∧
       bits 9 8 (wordAt j.words 3) = act ∧
       act ≠ 1 ∧
       s.flash.regions[n]? = some r ∧
       s.flash.lockout = false ∧
       ((List.range ((s.protectRange j.words).2 + 1 - (s.protectRange j.words).1)).all fun i =>
       (s.volumeOfSlot ((s.protectRange j.words).1 + i)).map Volume.owner == some j.part) = true ∧
       r.state = 1 ∧
       r.password ≠ (wordAt j.words 6 + 2 ^ 32 * wordAt j.words 7)) ∧
    (∃ (uid : Nat) (j : Job) (s : State), s.starts uid 0x23 j ∧ s.recorded j ∧ s.flash.lockout = true) :=
  by
  refine ⟨⟨0, 0, job 0 0x23 (desc 0x23 100 0 [0x100, 0, 0, 0, 0, 5]), Region.shipped, { wFlash (job 0 0x23 (desc 0x23 100 0 [0x100, 0, 0, 0, 0, 5])) [] with flash := { (wFlash (job 0 0x23 (desc 0x23 100 0 [0x100, 0, 0, 0, 0, 5])) []).flash with regions := Region.shipped :: List.replicate 15 Region.shipped } }, ?_⟩,
     ⟨0, 0, job 0 0x23 (desc 0x23 100 0 [0x0, 0, 0, 5]), { state := 1, first := 0, last := 0, password := 5 }, { wFlash (job 0 0x23 (desc 0x23 100 0 [0x0, 0, 0, 5])) [] with flash := { (wFlash (job 0 0x23 (desc 0x23 100 0 [0x0, 0, 0, 5])) []).flash with regions := { state := 1, first := 0, last := 0, password := 5 } :: List.replicate 15 Region.shipped } }, ?_⟩,
     ⟨0, 0, job 0 0x23 (desc 0x23 100 0 [0x200, 0, 0, 5]), { state := 1, first := 0, last := 0, password := 5 }, { wFlash (job 0 0x23 (desc 0x23 100 0 [0x200, 0, 0, 5])) [] with flash := { (wFlash (job 0 0x23 (desc 0x23 100 0 [0x200, 0, 0, 5])) []).flash with regions := { state := 1, first := 0, last := 0, password := 5 } :: List.replicate 15 Region.shipped } }, ?_⟩,
     ⟨0, 0, job 0 0x23 (desc 0x23 100 0 [0x300, 0, 0, 5, 0, 6]), { state := 1, first := 0, last := 0, password := 5 }, { wFlash (job 0 0x23 (desc 0x23 100 0 [0x300, 0, 0, 5, 0, 6])) [] with flash := { (wFlash (job 0 0x23 (desc 0x23 100 0 [0x300, 0, 0, 5, 0, 6])) []).flash with regions := { state := 1, first := 0, last := 0, password := 5 } :: List.replicate 15 Region.shipped } }, ?_⟩,
     ⟨0, 0, 2, job 0 0x23 (desc 0x23 100 0 [0x200, 0, 0, 4]), { state := 1, first := 0, last := 0, password := 5 }, { wFlash (job 0 0x23 (desc 0x23 100 0 [0x200, 0, 0, 4])) [] with flash := { (wFlash (job 0 0x23 (desc 0x23 100 0 [0x200, 0, 0, 4])) []).flash with regions := { state := 1, first := 0, last := 0, password := 5 } :: List.replicate 15 Region.shipped } }, ?_⟩,
     ⟨0, job 0 0x23 (desc 0x23 100 0 [0x100, 0]), { wFlash (job 0 0x23 (desc 0x23 100 0 [0x100, 0])) [] with flash := { (wFlash (job 0 0x23 (desc 0x23 100 0 [0x100, 0])) []).flash with lockout := true } }, ?_⟩⟩ <;> decide +kernel

theorem test_meets_FlashOperationsEnd :
    (∃ (die done : Nat) (j : Job) (o : FOp) (v : Volume) (t : FTarget) (s : State),
       (s.die die).current = some o ∧
       o.kind = .read ∧
       s.flash.powerLost = false ∧
       s.job? o.uid = some j ∧
       s.recorded j ∧
       j.ext = .flash 1 done ∧
       j.state = .running ∧
       s.volume? o.band.1 = some v ∧
       s.flashTarget j = .inl t ∧
       j.expert = false ∧
       dOut j.words + pageBytes * done < hostBase) ∧
    (∃ (die done left : Nat) (j : Job) (o : FOp) (s : State),
       (s.die die).current = some o ∧
       o.kind = .read ∧
       s.flash.powerLost = false ∧
       s.job? o.uid = some j ∧
       s.recorded j ∧
       j.ext = .flash left done ∧
       o.page < ((s.die die).block o.block).pages) ∧
    (∃ (die done : Nat) (j : Job) (o : FOp) (v : Volume) (t : FTarget) (s : State),
       (s.die die).current = some o ∧
       o.kind = .read ∧
       s.flash.powerLost = false ∧
       s.job? o.uid = some j ∧
       s.recorded j ∧
       j.ext = .flash 1 done ∧
       j.state = .running ∧
       s.volume? o.band.1 = some v ∧
       s.flashTarget j = .inl t ∧
       dOut j.words + pageBytes * done < hostBase ∧
       ((s.die die).block o.block).pages ≤ o.page) ∧
    (∃ (die done left : Nat) (j : Job) (o : FOp) (s : State),
       (s.die die).current = some o ∧
       o.kind = .program ∧
       s.flash.powerLost = false ∧
       s.job? o.uid = some j ∧
       s.recorded j ∧
       j.ext = .flash left done ∧
       (s.die die).worn = true) ∧
    (∃ (die done w : Nat) (j : Job) (o : FOp) (t : FTarget) (s : State),
       (s.die die).current = some o ∧
       o.kind = .program ∧
       s.flash.powerLost = false ∧
       s.job? o.uid = some j ∧
       s.recorded j ∧
       j.ext = .flash 1 done ∧
       j.state = .running ∧
       (s.die die).worn = false ∧
       o.wp = some w ∧
       s.flashTarget j = .inl t ∧
       o.data.length = pageBytes ∧
       s.shaped = true ∧
       die < 32) ∧
    (∃ (die done : Nat) (j : Job) (o : FOp) (s : State),
       (s.die die).current = some o ∧
       o.kind = .erase ∧
       s.flash.powerLost = false ∧
       s.job? o.uid = some j ∧
       s.recorded j ∧
       j.ext = .flash 1 done ∧
       j.state = .running ∧
       (s.die die).worn = false ∧
       j.expert = false ∧
       s.shaped = true ∧
       die < 32) ∧
    (∃ (die done left : Nat) (j : Job) (o : FOp) (s : State),
       (s.die die).current = some o ∧
       o.kind = .erase ∧
       s.flash.powerLost = false ∧
       s.job? o.uid = some j ∧
       s.recorded j ∧
       j.ext = .flash left done ∧
       (s.die die).pool = [] ∧
       j.expert = false ∧
       s.shaped = true ∧
       die < 32) :=
  by
  refine ⟨⟨0, 0, jFlashing 0x20, fop .read, vol0, { vol := vol0, raw := false, limit := 32768 }, wFlash (jFlashing 0x20) [fop .read], ?_⟩,
     ⟨0, 0, 1, jFlashing 0x20, fop .read, (wFlash (jFlashing 0x20) [fop .read]).modDie 0 fun d => d.modBlock 0 fun b => { b with pages := 1 }, ?_⟩,
     ⟨0, 0, jFlashing 0x20, fop .read, vol0, { vol := vol0, raw := false, limit := 32768 }, wFlash (jFlashing 0x20) [fop .read], ?_⟩,
     ⟨0, 0, 1, jFlashing 0x21, { fop .program with data := [] }, (wFlash (jFlashing 0x21) [{ fop .program with data := [] }]).modDie 0 fun d => { d with worn := true }, ?_⟩,
     ⟨0, 0, 1, jFlashing 0x21, fop .program, { vol := vol0, raw := false, limit := 32768 }, wFlash (jFlashing 0x21) [fop .program], rfl, ?_, ?_, ?_, ?_, ?_, ?_, ?_, ?_, ?_, ?_, ?_, ?_⟩,
     ⟨0, 0, jFlashing 0x22, fop .erase, wFlash (jFlashing 0x22) [fop .erase], ?_⟩,
     ⟨0, 0, 1, jFlashing 0x22, fop .erase, (wFlash (jFlashing 0x22) [fop .erase]).modDie 0 fun d => { d with pool := [] }, ?_⟩⟩ <;> decide +kernel

theorem test_meets_GapMovesAndSuspendedErases :
    (∃ (die : Nat) (s : State),
       s.shaped = true ∧
       die < 32 ∧
       100 ≤ (s.die die).sinceMove ∧
       (s.die die).ops = [] ∧
       (s.die die).worn = false ∧
       s.gapHeld die = false ∧
       s.flash.powerLost = false) ∧
    (∃ (die : Nat) (s : State),
       (((s.die die).sinceMove < 100 ∨ (s.die die).ops ≠ [] ∨ (s.die die).worn = true ∨ s.gapHeld die = true))) ∧
    (∃ (die : Nat) (o : FOp) (s : State),
       s.shaped = true ∧
       die < 32 ∧
       (s.die die).erasing = some o ∧
       o.suspended = false ∧
       o.windowFrom = none ∧
       (s.die die).readQueued = true) ∧
    (∃ (die : Nat) (o : FOp) (s : State),
       s.shaped = true ∧
       die < 32 ∧
       (s.die die).erasing = some o ∧
       o.suspended = true ∧
       (s.die die).readQueued = false) ∧
    (∃ (die t : Nat) (o : FOp) (s : State),
       s.shaped = true ∧
       die < 32 ∧
       (s.die die).erasing = some o ∧
       o.windowFrom = some t ∧
       t + s.flash.windowUs * 100 ≤ s.now) ∧
    (∃ (die t : Nat) (o : FOp) (s : State),
       s.shaped = true ∧
       die < 32 ∧
       (s.die die).erasing = some o ∧
       o.started = some t ∧
       t + (o.starved + 1) * 100000000 ≤ s.now) ∧
    (∃ (s : State), s.dev.stage = .training ∧ s.flash.mounted = false) :=
  by
  refine ⟨⟨5, wGap, ?_⟩,
     ⟨0, w0, ?_⟩,
     ⟨0, { fop .erase with started := some 0 }, wFlash (jFlashing 0x22) [{ fop .erase with started := some 0 }, fop .read], ?_⟩,
     ⟨0, { fop .erase with started := some 0, suspended := true }, wFlash (jFlashing 0x22) [{ fop .erase with started := some 0, suspended := true }], ?_⟩,
     ⟨0, 5, { fop .erase with started := some 0, windowFrom := some 5 }, wFlash (jFlashing 0x22) [{ fop .erase with started := some 0, windowFrom := some 5 }], ?_⟩,
     ⟨0, 0, { fop .erase with started := some 0 }, { wFlash (jFlashing 0x22) [{ fop .erase with started := some 0 }] with now := 100000000 }, ?_⟩,
     ⟨{ State.reset with dev := { Dev.reset with stage := .training } }, ?_⟩⟩ <;> decide +kernel

theorem test_meets_TileListStarts :
    (∃ (uid : Nat) (j : Job) (s : State),
       s.starts uid 0x30 j ∧
       s.recorded j ∧
       (s.started uid 0x30).inDramHost j.part (addr48 j.words 4) (128 * wordAt j.words 3) = false) ∧
    (∃ (uid : Nat) (j : Job) (t : State) (w : Option Nat) (s : State),
       s.starts uid 0x30 j ∧
       (s.started uid 0x30).blocked j (addr48 j.words 4) (128 * wordAt j.words 3) = none ∧
       (((s.started uid 0x30).liveEngines j.part).filter fun e => bit e (wordAt j.words 6)) ≠ [] ∧
       (s.started uid 0x30).allocTiles j.uid j.part
       ((List.range (wordAt j.words 3)).map fun i => (s.started uid 0x30).wordsAt (addr48 j.words 4 + 128 * i) 32) = some (t, w) ∧
       t.badRecord j.part w (((s.started uid 0x30).liveEngines j.part).filter fun e => bit e (wordAt j.words 6)) []
       ((List.range (wordAt j.words 3)).map fun i => (s.started uid 0x30).wordsAt (addr48 j.words 4 + 128 * i) 32) = none) ∧
    (∃ (uid i : Nat) (j : Job) (t : State) (w : Option Nat) (s : State),
       s.starts uid 0x30 j ∧
       s.recorded j ∧
       (s.started uid 0x30).blocked j (addr48 j.words 4) (128 * wordAt j.words 3) = none ∧
       (((s.started uid 0x30).liveEngines j.part).filter fun e => bit e (wordAt j.words 6)) ≠ [] ∧
       (s.started uid 0x30).allocTiles j.uid j.part
       ((List.range (wordAt j.words 3)).map fun i => (s.started uid 0x30).wordsAt (addr48 j.words 4 + 128 * i) 32) = some (t, w) ∧
       t.badRecord j.part w (((s.started uid 0x30).liveEngines j.part).filter fun e => bit e (wordAt j.words 6)) []
       ((List.range (wordAt j.words 3)).map fun i => (s.started uid 0x30).wordsAt (addr48 j.words 4 + 128 * i) 32) = some i) ∧
    (∃ (uid next retired e i : Nat) (lens : List (Nat × Nat)) (records : List (List Nat)) (r t : List Nat) (j : Job) (s : State),
       s.runs uid 0x30 j ∧
       j.ext = .tiles records next retired lens ∧
       s.loadPlaced j.uid = none ∧
       j.redo = [] ∧
       records[next]? = some r ∧
       relocate ((j.ctrs.map Prod.fst).getD 0) j.window r = t ∧
       tPin t = false ∧
       homeEngine t = none ∧
       s.jobPool j ≠ [] ∧
       s.chooseEngine j.uid (s.jobPool j) false t = some e ∧
       e < s.engines.length ∧
       (s.eng e).admits j.part = true ∧
       (s.eng e).freeCtx = some i) :=
  by
  refine ⟨⟨0, job 0 0x30 (desc 0x30 100 0 [1, 0x40000000, 0, 0xFFFFFFFF]), withJobs [job 0 0x30 (desc 0x30 100 0 [1, 0x40000000, 0, 0xFFFFFFFF])], ?_⟩,
     ⟨0, jList .queued .none, (withJobs [jList .running .none]).putWords 0xC0001000 (rowTask 0 0 0), none, (withJobs [jList .queued .none]).putWords 0xC0001000 (rowTask 0 0 0), ?_, ?_, ?_, rfl, ?_⟩,
     ⟨0, 0, jList .queued .none, (withJobs [jList .running .none]).putWords 0xC0001000 [3], none, (withJobs [jList .queued .none]).putWords 0xC0001000 [3], ?_, ?_, ?_, ?_, rfl, ?_⟩,
     ⟨0, 0, 0, 0, 0, [], [rowTask 0 0 0], rowTask 0 0 0, rowTask 0 0 0, jList .running (.tiles [rowTask 0 0 0] 0 0 []), wEng (.tiles [rowTask 0 0 0] 0 0 []) [], ?_⟩⟩ <;> decide +kernel

theorem test_meets_ContextsScheduled :
    (∃ (eng : Nat) (x : Ctx) (s : State),
       eng < s.engines.length ∧
       (s.eng eng).domain.powered = true ∧
       (s.eng eng).grantable = some x ∧
       s.ctx? eng x.idx = some x ∧
       tWaitEn x.words = false) ∧
    (∃ (eng : Nat) (x : Ctx) (s : State),
       eng < s.engines.length ∧
       (s.eng eng).domain.powered = true ∧
       (s.eng eng).grantable = some x ∧
       s.ctx? eng x.idx = some x ∧
       x.combining = false ∧
       tWaitEn x.words = true) ∧
    (∃ (eng n : Nat) (x : Ctx) (s : State),
       eng < s.engines.length ∧
       (s.eng eng).domain.powered = true ∧
       (s.eng eng).nextReady = some x ∧
       s.ctx? eng x.idx = some x ∧
       readsHost x.words = false ∧
       s.stepSlots x.words x.steps = n ∧
       x.slotsHeld + n ≤ 64 ∧
       (s.eng eng).slotsUsed + n ≤ 128) ∧
    (∃ (eng n : Nat) (x : Ctx) (s : State),
       eng < s.engines.length ∧
       (s.eng eng).domain.powered = true ∧
       (s.eng eng).nextReady = some x ∧
       s.ctx? eng x.idx = some x ∧
       readsHost x.words = false ∧
       s.stepSlots x.words x.steps = n ∧
       ((64 < x.slotsHeld + n ∨ 128 < (s.eng eng).slotsUsed + n))) ∧
    (∃ (eng ctx : Nat) (x : Ctx) (s : State), eng < s.engines.length ∧ s.ctx? eng ctx = some x ∧ x.state = .ready) ∧
    (∃ (eng ctx : Nat) (x : Ctx) (s : State), eng < s.engines.length ∧ s.ctx? eng ctx = some x ∧ x.state = .faulted) ∧
    (∃ (eng ctx : Nat) (x : Ctx) (s : State), s.ctx? eng ctx = some x ∧ x.state ≠ .faulted) ∧
    (∃ (eng : Nat) (s : State), eng < s.engines.length ∧ (s.eng eng).ramp.up = true ∧ (s.eng eng).rowsOn s.now = 64) ∧
    (∃ (eng : Nat) (s : State), (((s.eng eng).ramp.up = false ∨ (s.eng eng).rowsOn s.now ≠ 64))) ∧
    (∃ (len r : Nat), 0 < len ∧ r < 64) :=
  by
  refine ⟨⟨0, ctxOf .loaded (rowTask 0 0 0), wEng .none [ctxOf .loaded (rowTask 0 0 0)], ?_⟩,
     ⟨0, ctxOf .loaded (rowTask 0 0x10400 0), wEng .none [ctxOf .loaded (rowTask 0 0x10400 0)], ?_⟩,
     ⟨0, 1, ctxOf .ready (rowTask 0 0 0), wEng .none [ctxOf .ready (rowTask 0 0 0)], ?_⟩,
     ⟨0, 1, { ctxOf .ready (rowTask 0 0 0) with slotsHeld := 64 }, wEng .none [{ ctxOf .ready (rowTask 0 0 0) with slotsHeld := 64 }], ?_⟩,
     ⟨0, 0, ctxOf .ready (rowTask 0 0 0), wEng .none [ctxOf .ready (rowTask 0 0 0)], ?_⟩,
     ⟨0, 0, ctxOf .faulted (rowTask 0 0 0), wEng .none [ctxOf .faulted (rowTask 0 0 0)], ?_⟩,
     ⟨0, 0, ctxOf .ready (rowTask 0 0 0), wEng .none [ctxOf .ready (rowTask 0 0 0)], ?_⟩,
     ⟨0, (wEng .none []).modEng 0 fun g => { g with ramp := { g.ramp with up := true, base := 64 } }, ?_⟩,
     ⟨0, (wEng .none []).modEng 0 fun g => { g with ramp := { g.ramp with up := false, base := 64, len := 256, since := 5000 } }, ?_⟩,
     ⟨256, 1, ?_⟩⟩ <;> decide +kernel

theorem test_meets_StepsCompleteOrFault :
    (∃ (eng ctx : Nat) (x : Ctx) (s : State),
       eng < s.engines.length ∧
       (s.eng eng).domain.powered = true ∧
       s.ctx? eng ctx = some x ∧
       x.state ≠ .faulted ∧
       x.done < x.steps ∧
       x.awaitUnit = none ∧
       tKind x.words = 0 ∧
       isAttn x.words = false ∧
       ((s.stepReads x).all fun r => (s.badWords r.1 r.2).isEmpty) = true ∧
       (s.readGroups x).any Group.poisoned = false ∧
       s.fetchReach x = true ∧
       s.readsOk eng x = true ∧
       x.done < s.baseSteps x.words ∧
       x.done + 1 ≠ s.totalSteps x.words) ∧
    (∃ (eng ctx : Nat) (x : Ctx) (s : State),
       eng < s.engines.length ∧
       (s.eng eng).domain.powered = true ∧
       s.ctx? eng ctx = some x ∧
       x.state ≠ .faulted ∧
       x.done < x.steps ∧
       x.awaitUnit = none ∧
       tKind x.words ≠ 0 ∧
       ((s.stepReads x).all fun r => (s.badWords r.1 r.2).isEmpty) = true ∧
       (s.readGroups x).any Group.poisoned = false ∧
       s.fetchReach x = true ∧
       s.readsOk eng x = true ∧
       (s.spanStep eng x).isDone = true) ∧
    (∃ (eng ctx : Nat) (met : StepMet) (cause : CtxCause) (st : Nat) (x : Ctx) (j : Job) (s : State),
       eng < s.engines.length ∧
       (s.eng eng).domain.powered = true ∧
       s.ctx? eng ctx = some x ∧
       x.state ≠ .faulted ∧
       x.done < x.steps ∧
       x.awaitUnit = none ∧
       (met, cause, st) ∈ [(StepMet.uncorrectable, CtxCause.dataUncorrected, 0x50), (.linkDown, .link, 0x80), (.parity, .none, 0x60),
       (.writeError, .writeError, 0x60)] ∧
       s.job? x.uid = some j ∧
       s.recorded j) ∧
    (∃ (stripe : Bool) (n row col : Nat) (delta : Int) (a b : List (List Int)),
       a.length ≤ 64 ∧
       b.length ≤ 64 ∧
       ((∀ r ∈ a ++ b, r.length = n)) ∧
       row ≤ 64 ∧
       col ≤ 64 ∧
       ((stripe = false ∨ row < 64)) ∧
       delta ≠ 0) ∧
    (∃ (eng ctx group row col : Nat) (delta : Int) (a b : List (List Int)) (x : Ctx) (s : State),
       eng < s.engines.length ∧
       (s.eng eng).domain.powered = true ∧
       s.ctx? eng ctx = some x ∧
       x.state ≠ .faulted ∧
       x.done < x.steps ∧
       x.awaitUnit = none ∧
       s.stepImages (((s.job? x.uid).map Job.epoch).getD 0) x group = some (a, b) ∧
       checksWith (tStripe x.words) a b row col delta = false ∧
       x.lastChance = false ∧
       x.runs = 0 ∧
       ((s.eng eng).mismatches.filter fun t => decide (s.now ≤ t + 1000000)).length < 2) ∧
    (∃ (eng ctx group row col : Nat) (delta : Int) (a b : List (List Int)) (x : Ctx) (s : State),
       eng < s.engines.length ∧
       (s.eng eng).domain.powered = true ∧
       s.ctx? eng ctx = some x ∧
       x.state ≠ .faulted ∧
       x.done < x.steps ∧
       x.awaitUnit = none ∧
       s.stepImages (((s.job? x.uid).map Job.epoch).getD 0) x group = some (a, b) ∧
       checksWith (tStripe x.words) a b row col delta = false ∧
       2 ≤ ((s.eng eng).mismatches.filter fun t => decide (s.now ≤ t + 1000000)).length ∧
       (s.eng eng).mappedOut = false) ∧
    (∃ (part e : Nat) (x : Ctx) (s : State),
       minBy (fun w => w.2.awaitUnit.getD 0) (s.waitingAppends part) = some (e, x) ∧
       e < s.engines.length ∧
       s.ctx? e x.idx = some x ∧
       tKind x.words ≠ 0 ∧
       tWMode x.words = 1 ∧
       (s.spanStep e x).isDone = true) ∧
    (∃ (eng ctx t : Nat) (x : Ctx) (j : Job) (s : State),
       s.ctx? eng ctx = some x ∧
       x.awaitUnit = some t ∧
       t + 100000 ≤ s.now ∧
       x.state ≠ .faulted ∧
       s.job? x.uid = some j ∧
       s.recorded j) ∧
    (∃ (eng ctx t : Nat) (x : Ctx) (s : State), s.ctx? eng ctx = some x ∧ x.awaitUnit = some t ∧ s.now < t + 100000) :=
  by
  refine ⟨⟨0, 0, { ctxOf .waitMem arrayTask with steps := 1, granted := true, acc := zeroTile arrayTask }, wEng (.tiles [] 0 0 []) [{ ctxOf .waitMem arrayTask with steps := 1, granted := true, acc := zeroTile arrayTask }], ?_⟩,
     ⟨0, 0, { ctxOf .waitMem (rowTask 0 0 0) with steps := 1, granted := true }, wEng (.tiles [] 0 0 []) [{ ctxOf .waitMem (rowTask 0 0 0) with steps := 1, granted := true }], ?_⟩,
     ⟨0, 0, .parity, .none, 0x60, { ctxOf .waitMem (rowTask 0 0 0) with steps := 1, granted := true }, jList .running (.tiles [] 0 0 []), wEng (.tiles [] 0 0 []) [{ ctxOf .waitMem (rowTask 0 0 0) with steps := 1, granted := true }], ?_⟩,
     ⟨true, 2, 0, 64, 3, [[1, 2]], [[3, 4], [5, 6]], ?_⟩,
     ⟨0, 0, 0, 0, 0, 1, ((wEng (.tiles [] 0 0 []) [xArr]).stepImages 0 (xArr) 0).get!.1, ((wEng (.tiles [] 0 0 []) [xArr]).stepImages 0 (xArr) 0).get!.2, xArr, wEng (.tiles [] 0 0 []) [xArr], ?_⟩,
     ⟨0, 0, 0, 0, 0, 1, ((wEng (.tiles [] 0 0 []) [xArr]).stepImages 0 (xArr) 0).get!.1, ((wEng (.tiles [] 0 0 []) [xArr]).stepImages 0 (xArr) 0).get!.2, xArr, (wEng (.tiles [] 0 0 []) [xArr]).modEng 0 fun g => { g with mismatches := [0, 0] }, ?_⟩,
     ⟨0, 0, { ctxOf .waitMem (kvTask) with steps := 1, awaitUnit := some 0 }, { wEng (.tiles [] 0 0 []) [{ ctxOf .waitMem (kvTask) with steps := 1, awaitUnit := some 0 }] with seqs := [{ seq0 with len := 0, chunks := [] }], slots := [slotV] }, ?_⟩,
     ⟨0, 0, 0, { ctxOf .waitMem (kvTask) with awaitUnit := some 0 }, jList .running (.tiles [] 0 0 []), { wEng (.tiles [] 0 0 []) [{ ctxOf .waitMem (kvTask) with awaitUnit := some 0 }] with now := 100000 }, ?_⟩,
     ⟨0, 0, 0, { ctxOf .waitMem (kvTask) with awaitUnit := some 0 }, wEng (.tiles [] 0 0 []) [{ ctxOf .waitMem (kvTask) with awaitUnit := some 0 }], ?_⟩⟩ <;> decide +kernel

theorem test_meets_TasksRetireAndMerge :
    (∃ (eng ctx next retired : Nat) (lens : List (Nat × Nat)) (records : List (List Nat)) (x : Ctx) (j : Job) (s : State),
       eng < s.engines.length ∧
       s.ctx? eng ctx = some x ∧
       x.written = true ∧
       x.state = .waitMem ∧
       x.runs = 0 ∧
       isMerge x.words = false ∧
       s.job? x.uid = some j ∧
       s.recorded j ∧
       j.state = .running ∧
       j.ext = .tiles records next retired lens ∧
       retired + 1 = records.length ∧
       ((∀ m ∈ s.merges, m.uid ≠ x.uid))) ∧
    (∃ (eng ctx next retired : Nat) (lens : List (Nat × Nat)) (records : List (List Nat)) (x : Ctx) (j : Job) (s : State),
       eng < s.engines.length ∧
       s.ctx? eng ctx = some x ∧
       x.written = true ∧
       x.state = .waitMem ∧
       isMerge x.words = false ∧
       tSignalEn x.words = true ∧
       s.counter (tSignalCtr x.words) < 0xFFFF ∧
       s.job? x.uid = some j ∧
       j.ext = .tiles records next retired lens ∧
       retired + 1 < records.length) ∧
    (∃ (uid : Nat) (m : Merge) (s : State),
       s.merges.find? (fun m => m.uid == uid && m.foldable) = some m ∧
       m.folded + 2 < m.parts) ∧
    (∃ (uid c : Nat) (m : Merge) (j : Job) (s : State),
       s.merges.find? (fun m => m.uid == uid && m.foldable) = some m ∧
       m.parts ≤ m.folded + 2 ∧
       m.signal = some c ∧
       s.counter c < 0xFFFF ∧
       s.job? uid = some j ∧
       j.state ≠ .running) ∧
    (∃ (uid : Nat) (m : Merge) (j : Job) (s : State),
       s.merges.find? (fun m => m.uid == uid && m.foldable) = some m ∧
       s.job? uid = some j ∧
       s.recorded j ∧
       s.faults.sramErrs.length < 15) ∧
    (∃ (eng : Nat) (cause : OutCause) (s : State),
       s.shaped = true ∧
       eng < 32 ∧
       cause ≠ .none ∧
       (s.eng eng).mappedOut = false) ∧
    (∃ (eng : Nat) (s : State), (s.eng eng).mappedOut = true) :=
  by
  refine ⟨⟨0, 0, 1, 0, [], [rowTask 0 0 0], { ctxOf .waitMem (rowTask 0 0 0) with written := true }, jList .running (.tiles [rowTask 0 0 0] 1 0 []), wEng (.tiles [rowTask 0 0 0] 1 0 []) [{ ctxOf .waitMem (rowTask 0 0 0) with written := true }], ?_⟩,
     ⟨0, 0, 1, 0, [], [rowTask 0 0 0x405, []], { ctxOf .waitMem (rowTask 0 0 0x405) with written := true }, jList .running (.tiles [rowTask 0 0 0x405, []] 1 0 []), wEng (.tiles [rowTask 0 0 0x405, []] 1 0 []) [{ ctxOf .waitMem (rowTask 0 0 0x405) with written := true }], ?_⟩,
     ⟨0, { merge0 with parts := 3, retired := [1, 0] }, { wEng (.tiles [] 0 0 []) [] with merges := [{ merge0 with parts := 3, retired := [1, 0] }] }, ?_⟩,
     ⟨0, 3, merge0, jList .suspending (.tiles [] 0 0 []), { withJobs [jList .suspending (.tiles [] 0 0 [])] with merges := [merge0] }, ?_⟩,
     ⟨0, merge0, jList .running (.tiles [] 0 0 []), { wEng (.tiles [] 0 0 []) [] with merges := [merge0] }, ?_⟩,
     ⟨0, .checksum, wEng (.tiles [] 0 0 []) [ctxOf .ready (rowTask 0 0 0)], ?_⟩,
     ⟨0, (wEng .none []).modEng 0 fun g => { g with mappedOut := true }, ?_⟩⟩ <;> decide +kernel

theorem test_meets_DramRequestsServed :
    (∃ (port addr len : Nat) (write : Option (List Byte)) (r : Req) (s : State),
       port < 44 ∧
       1 ≤ len ∧
       addr / 256 = (addr + len - 1) / 256 ∧
       (addr + len - 1) / granuleBytes < s.dram.granulesBacked ∧
       (write.all fun bs => bs.length == len) = true ∧
       s.shaped = true ∧
       r = { id := s.dram.nextReq, port := port, addr := addr, len := len, write := write, arrival := s.now, scrub := false } ∧
       s.reqChan r < 24 ∧
       ((s.dport port).held.any fun h => s.reqChan h == s.reqChan r) = false ∧
       (s.chan (s.reqChan r)).room r = true ∧
       write = none) ∧
    (∃ (port addr len : Nat) (write : Option (List Byte)) (bs : List Byte) (r : Req) (s : State),
       port < 44 ∧
       1 ≤ len ∧
       addr / 256 = (addr + len - 1) / 256 ∧
       (addr + len - 1) / granuleBytes < s.dram.granulesBacked ∧
       (write.all fun bs => bs.length == len) = true ∧
       s.shaped = true ∧
       r = { id := s.dram.nextReq, port := port, addr := addr, len := len, write := write, arrival := s.now, scrub := false } ∧
       s.reqChan r < 24 ∧
       ((s.dport port).held.any fun h => s.reqChan h == s.reqChan r) = false ∧
       (s.chan (s.reqChan r)).room r = true ∧
       write = some bs) ∧
    (∃ (port addr len : Nat) (write : Option (List Byte)) (r : Req) (s : State),
       port < 44 ∧
       1 ≤ len ∧
       addr / 256 = (addr + len - 1) / 256 ∧
       (addr + len - 1) / granuleBytes < s.dram.granulesBacked ∧
       (write.all fun bs => bs.length == len) = true ∧
       s.shaped = true ∧
       r = { id := s.dram.nextReq, port := port, addr := addr, len := len, write := write, arrival := s.now, scrub := false } ∧
       s.reqChan r < 24 ∧
       (s.chan (s.reqChan r)).room r = false) ∧
    (∃ (port : Nat) (r : Req) (s : State),
       s.shaped = true ∧
       port < 44 ∧
       minBy Req.arrival ((s.outstanding port).filter fun r => !r.scrub) = some r) ∧
    (∃ (port ch : Nat) (g : Grant) (r q : Req) (s : State),
       s.shaped = true ∧
       port < 44 ∧
       ch < 24 ∧
       s.urgencyNow port = 3 ∧
       (s.chan ch).grant = some g ∧
       ((s.chan ch).queue.find? fun x => x.id == g.req) = some r ∧
       ((r.scrub = true ∨ s.urgencyNow r.port = 0)) ∧
       g.reserved = false ∧
       64 < bytesLeft r g s.now ∧
       (s.chan ch).queue.contains q = true ∧
       q.port = port ∧
       q.scrub = false) ∧
    (∃ (ch : Nat) (s : State),
       s.shaped = true ∧
       ch < 24 ∧
       (s.chan ch).grant = none ∧
       (s.chan ch).active = true ∧
       (s.chan ch).queue ≠ [] ∧
       (s.chan ch).grantCount % 8 ≠ 7) ∧
    (∃ (ch : Nat) (s : State),
       s.shaped = true ∧
       ch < 24 ∧
       (s.chan ch).grant = none ∧
       (s.chan ch).active = true ∧
       (s.chan ch).queue ≠ [] ∧
       (s.chan ch).grantCount % 8 = 7) ∧
    (∃ (ch : Nat) (bad : List Nat) (r : Req) (s : State),
       s.shaped = true ∧
       ch < 24 ∧
       s.granted ch = some r ∧
       r.port < 44 ∧
       1 ≤ r.len ∧
       (s.dport r.port).order.head? = some r.id ∧
       ((s.dport r.port).early.all fun e => e.1 != r.id) = true ∧
       r.write = none ∧
       ((wordsOf r.addr r.len).all fun w => !(bad.contains w || r.bad.contains w || s.dram.poisoned.contains w)) = true ∧
       (s.chan ch).queue.head? = some r) ∧
    (∃ (ch : Nat) (r : Req) (s : State),
       s.shaped = true ∧
       ch < 24 ∧
       s.granted ch = some r ∧
       r.port < 44 ∧
       1 ≤ r.len ∧
       (s.dport r.port).order.head? = some r.id ∧
       ((s.dport r.port).early.all fun e => e.1 != r.id) = true ∧
       r.write = none ∧
       arrayWords ((s.chan ch).queue.takeWhile fun q => q.id != r.id) r = []) ∧
    (∃ (ch w : Nat) (bad : List Nat) (r : Req) (s : State),
       s.shaped = true ∧
       ch < 24 ∧
       s.granted ch = some r ∧
       r.port < 44 ∧
       1 ≤ r.len ∧
       (s.dport r.port).order.head? = some r.id ∧
       ((s.dport r.port).early.all fun e => e.1 != r.id) = true ∧
       r.write = none ∧
       w ∈ arrayWords ((s.chan ch).queue.takeWhile fun q => q.id != r.id) r ∧
       (bad.contains w || r.bad.contains w || s.dram.poisoned.contains w) = true) ∧
    (∃ (ch : Nat) (bs : List Byte) (r : Req) (s : State),
       s.shaped = true ∧
       ch < 24 ∧
       s.granted ch = some r ∧
       r.port < 44 ∧
       1 ≤ r.len ∧
       (s.dport r.port).order.head? = some r.id ∧
       ((s.dport r.port).early.all fun e => e.1 != r.id) = true ∧
       r.write = some bs ∧
       bs.length = r.len ∧
       (s.dram.ports.all fun p => p.held.all fun h => s.reqChan h != ch) = true) :=
  by
  refine ⟨⟨3, 0, 32, none, { id := 0, port := 3, addr := 0, len := 32, write := none, arrival := 5000, scrub := false }, w0, ?_⟩,
     ⟨3, 0, 32, some (List.replicate 32 9), List.replicate 32 9, { id := 0, port := 3, addr := 0, len := 32, write := some (List.replicate 32 9), arrival := 5000, scrub := false }, w0, ?_⟩,
     ⟨3, 0, 32, none, { id := 0, port := 3, addr := 0, len := 32, write := none, arrival := 5000, scrub := false }, wQueued (List.replicate 64 (req0 none)) 0, ?_⟩,
     ⟨3, req0 none, wQueued [req0 none] 0, ?_⟩,
     ⟨5, 0, { req := 0, reserved := false, started := 5000 }, { req0 none with len := 256, arrival := 5000 }, { req0 none with id := 1, port := 5, arrival := 0 }, wDram [{ req0 none with len := 256, arrival := 5000 }, { req0 none with id := 1, port := 5, arrival := 0 }], ?_⟩,
     ⟨0, wQueued [req0 none] 0, ?_⟩,
     ⟨0, wQueued [req0 none] 7, ?_⟩,
     ⟨0, [], req0 none, wDram [req0 none], ?_⟩,
     ⟨0, req0 none, (wDram [req0 none, { req0 (some (List.replicate 64 9)) with id := 7, len := 64 }]).modChan 0 fun c => { c with queue := c.queue.reverse }, ?_⟩,
     ⟨0, 0, [0], req0 none, wDram [req0 none], ?_⟩,
     ⟨0, List.replicate 32 9, req0 (some (List.replicate 32 9)), wDram [req0 (some (List.replicate 32 9))], ?_⟩⟩ <;> decide +kernel

theorem test_meets_DramUpkeep :
    (∃ (ch : Nat) (s : State), s.shaped = true ∧ (s.chan ch).active = true ∧ ch < 24) ∧
    (∃ (ch unit : Nat) (s : State), unit ≠ (s.chan ch).scrubNext) ∧
    (∃ (ch : Nat) (s : State),
       s.shaped = true ∧
       (s.chan ch).active = true ∧
       488 ≤ 10 * (s.now - (s.chan ch).lastRefresh) * s.dram.mult.getD (ch / 4) 1) ∧
    (∃ (ch : Nat) (s : State), 10 * (s.now - (s.chan ch).lastRefresh) * s.dram.mult.getD (ch / 4) 1 < 488) ∧
    (∃ (ch : Nat) (s : State), s.shaped = true ∧ (s.chan ch).active = true) ∧
    (∃ (readings : List (Nat × Bool)) (k : Nat) (s : State),
       readings.length = 6 ∧
       ((List.range 6).filter fun i => (readings.getD i (1, false)).2 && !s.dram.overTemp.getD i false) = [k]) ∧
    (∃ (ch : Nat) (s : State), s.shaped = true ∧ (s.chan ch).active = true ∧ s.cpRunning 2 = true) ∧
    (∃ (ch : Nat) (steps : List (List Sweep)) (ws : List Sweep) (s : State),
       s.shaped = true ∧
       (s.chan ch).active = true ∧
       s.cpRunning 2 = true ∧
       s.mustRetrain ch = true ∧
       trainSteps 2 steps = some ws) ∧
    (∃ (ch : Nat) (steps : List (List Sweep)) (s : State),
       s.shaped = true ∧
       (s.chan ch).active = true ∧
       s.cpRunning 2 = true ∧
       s.mustRetrain ch = true ∧
       trainSteps 2 steps = none) ∧
    (∃ (k : Nat) (steps : List (List Sweep)),
       k < 3 ∧
       (((steps.getD k []).take 2).any fun w => Sweep.shaped w (k + 2) && Sweep.passes w) = false) ∧
    (∃ (ch : Nat) (s : State), s.mustRetrain ch = false) ∧
    (∃ (lo hi : Int) (c : Chan),
       (lo, hi) ∈ c.rwDelays ∧
       (((lo + hi) / 2 + c.drift < lo + 8 ∨ hi - 8 < (lo + hi) / 2 + c.drift))) ∧
    (∃ (ch : Nat) (s : State), s.shaped = true ∧ (s.chan ch).active = true ∧ s.dev.ready = true) ∧
    (∃ (ch : Nat) (s : State),
       s.shaped = true ∧
       (s.chan ch).active = true ∧
       (s.chan ch).queue = [] ∧
       (s.chan ch).idleSince + 100 ≤ s.now) ∧
    (∃ (ch : Nat) (s : State), s.now < (s.chan ch).idleSince + 100) ∧
    (∃ (value : Word) (s : State),
       s.reaches .pf = true ∧
       (s.part 0).expert = true ∧
       bit 31 value.toNat = true ∧
       24 ≤ bits 4 0 value.toNat) ∧
    (∃ (value : Word) (s : State),
       s.reaches .pf = true ∧
       (s.part 0).expert = true ∧
       bit 31 value.toNat = true ∧
       bits 4 0 value.toNat < 24 ∧
       (s.chan (bits 4 0 value.toNat)).active = false) ∧
    (∃ (s : State), (s.part 0).expert = false) ∧
    (∃ (s : State), s.shaped = true ∧ s.dev.stage = .training ∧ s.dram.trained = false ∧ s.cpRunning 2 = true) :=
  by
  refine ⟨⟨2, w0, ?_⟩,
     ⟨2, 1, w0, ?_⟩,
     ⟨2, w0, ?_⟩,
     ⟨2, { w0 with now := 40 }, ?_⟩,
     ⟨2, w0, ?_⟩,
     ⟨[(1, false), (4, true), (0, false), (1, false), (2, false), (1, false)], 1, w0, ?_⟩,
     ⟨2, w0, ?_⟩,
     ⟨2, [[{ delays := [(0, 25)], vrefs := [] }, { delays := [(-13, 13)], vrefs := [] }], sweepLanes, sweepLanes], [{ delays := [(-13, 13)], vrefs := [] }] ++ sweepLanes ++ sweepLanes, w0.modChan 2 fun c => { c with errTimes := List.replicate 16 4000 }, ?_⟩,
     ⟨2, [[{ delays := [(0, 25)], vrefs := [] }, { delays := [(0, 30)], vrefs := [(2, 3)] }]], w0.modChan 2 fun c => { c with drift := 6, trained := [{ delays := [], vrefs := [] }, { delays := [], vrefs := [] }] ++ sweepLanes }, ?_⟩,
     ⟨1, [sweepLanes, [], []], ?_⟩,
     ⟨2, w0.modChan 2 fun c => { c with drift := 5, trained := [{ delays := [(0, 8)], vrefs := [] }, { delays := [], vrefs := [] }] ++ sweepLanes }, ?_⟩,
     ⟨-13, 13, { w0.chan 2 with drift := 6, trained := [{ delays := [], vrefs := [] }, { delays := [], vrefs := [] }] ++ sweepLanes }, ?_⟩,
     ⟨2, w0, ?_⟩,
     ⟨2, w0, ?_⟩,
     ⟨2, { w0 with now := 99 }, ?_⟩,
     ⟨0x80000018, w0, ?_⟩,
     ⟨0x80000003, w0.modChan 3 fun c => { c with active := false }, ?_⟩,
     ⟨State.reset, ?_⟩,
     ⟨wTrain, ?_⟩⟩ <;> decide +kernel

theorem test_meets_DmaRawAndBursts :
    (∃ (ws : List Nat),
       dOpcode ws = 0x31 ∧
       dmaValid (addr48 ws 4) (addr48 ws 6) (wordAt ws 8) (wordAt ws 9) = false) ∧
    (∃ (uid : Nat) (j : Job) (a b : Fmt) (s : State),
       s.starts uid 0x31 j ∧
       s.recorded j ∧
       j.ext = .none ∧
       xSrc (wordAt j.words 9) = some a ∧
       xDst (wordAt j.words 9) = some b ∧
       ((s.started uid 0x31).dmaReach j.part (addr48 j.words 4) (wordAt j.words 8) &&
       (s.started uid 0x31).dmaReach j.part (addr48 j.words 6) (xExtent (wordAt j.words 9) (wordAt j.words 8) a b)) = false) ∧
    (∃ (uid start acked : Nat) (j : Job) (a b : Fmt) (s : State),
       s.starts uid 0x31 j ∧
       xSrc (wordAt j.words 9) = some a ∧
       xDst (wordAt j.words 9) = some b ∧
       (((j.ext = .none ∧
       start + acked = 0 ∧
       (s.started uid 0x31).dmaReach j.part (addr48 j.words 4) (wordAt j.words 8) = true ∧
       (s.started uid 0x31).dmaReach j.part (addr48 j.words 6) (xExtent (wordAt j.words 9) (wordAt j.words 8) a b) = true) ∨ j.ext = .dma start acked)) ∧
       start + acked < wordAt j.words 8 ∧
       s.shaped = true ∧
       wordAt j.words 3 < 16 ∧
       (s.sch (wordAt j.words 3)).active = none ∧
       (s.sch (wordAt j.words 3)).shadow = none ∧
       (s.sch (wordAt j.words 3)).queue = []) ∧
    (∃ (uid start acked : Nat) (j : Job) (s : State),
       s.starts uid 0x31 j ∧
       s.recorded j ∧
       j.ext = .dma start acked ∧
       wordAt j.words 8 ≤ start + acked) ∧
    (∃ (ch p : Nat) (x : Xfer) (a : Fmt) (s : State),
       s.shaped = true ∧
       s.siphonChoice = some (ch, p) ∧
       (s.sch ch).active = some x ∧
       x.own = none ∧
       xOp x.transform = 0 ∧
       xSrc x.transform = some a ∧
       xDst x.transform = some a ∧
       s.xferReach x = true ∧
       s.dmaOwns x.part x.src x.len = true ∧
       s.dmaOwns x.part x.dst x.len = true ∧
       s.badWords (x.src + x.issued) x.burst = []) ∧
    (∃ (ch p : Nat) (x : Xfer) (s : State),
       s.shaped = true ∧
       s.siphonChoice = some (ch, p) ∧
       (s.sch ch).active = some x ∧
       x.own = none ∧
       s.xferReach x = false) ∧
    (∃ (ch p : Nat) (x : Xfer) (s : State),
       s.shaped = true ∧
       s.siphonChoice = some (ch, p) ∧
       (s.sch ch).active = some x ∧
       x.own ≠ none) ∧
    (∃ (ch : Nat) (x : Xfer) (j : Job) (s : State),
       (s.sch ch).draining = some x ∧
       x.own = none ∧
       x.failed = none ∧
       x.len ≤ x.issued ∧
       s.job? x.uid = some j ∧
       j.ending = none ∧
       j.finished = false ∧
       s.recorded j) ∧
    (∃ (ch : Nat) (x : Xfer) (j : Job) (s : State),
       (s.sch ch).draining = some x ∧
       x.own = none ∧
       x.failed = none ∧
       x.issued < x.len ∧
       s.job? x.uid = some j) ∧
    (∃ (ch st : Nat) (x : Xfer) (j : Job) (s : State),
       (s.sch ch).draining = some x ∧
       x.own = none ∧
       x.failed = some st ∧
       s.job? x.uid = some j ∧
       j.ending = none ∧
       j.finished = false ∧
       s.recorded j) ∧
    (∃ (ch : Nat) (s : State), s.shaped = true ∧ ch < 16 ∧ s.chanReady (s.sch ch) = true ∧ 4096 ≤ (s.sch ch).passed) ∧
    (∃ (ch : Nat) (s : State), ((s.chanReady (s.sch ch) = false ∨ (s.sch ch).passed < 4096))) ∧
    (∃ (ch : Nat) (met : SiphonMet) (x : Xfer) (s : State),
       s.shaped = true ∧
       ch < 16 ∧
       (s.sch ch).active = some x ∧
       ((met = .readBad ∨ (s.sch ch).draining = none))) ∧
    (∃ (ch : Nat) (met : SiphonMet) (d : Xfer) (s : State),
       s.shaped = true ∧
       ch < 16 ∧
       (s.sch ch).active = none ∧
       (s.sch ch).draining = some d ∧
       met ≠ .readBad) ∧
    (∃ (ch : Nat) (met : SiphonMet) (x d : Xfer) (s : State),
       s.shaped = true ∧
       ch < 16 ∧
       (s.sch ch).active = some x ∧
       (s.sch ch).draining = some d ∧
       met ≠ .readBad) ∧
    (∃ (ch : Nat) (met : SiphonMet) (s : State),
       (s.sch ch).active = none ∧
       ((met = .readBad ∨ (s.sch ch).draining = none))) :=
  by
  refine ⟨⟨(jDma [2, 0xC0010008, 0, 0xC0020000, 0, 512, 0x110]).words, ?_⟩,
     ⟨0, jDma [2, 0x40010000, 0, 0xC0020000, 0, 512, 0x110], .s8, .s8, withJobs [jDma [2, 0x40010000, 0, 0xC0020000, 0, 512, 0x110]], ?_⟩,
     ⟨0, 128, 128, { jDma goodDma with ext := .dma 128 128 }, .s8, .s8, withJobs [{ jDma goodDma with ext := .dma 128 128 }], ?_⟩,
     ⟨0, 256, 256, { jDma goodDma with ext := .dma 256 256 }, withJobs [{ jDma goodDma with ext := .dma 256 256 }], ?_⟩,
     ⟨2, 0, xfer0, .s8, wDma { SChan.reset with active := some xfer0 }, ?_⟩,
     ⟨2, 0, { xfer0 with src := hostBase }, { wDma { SChan.reset with active := some { xfer0 with src := hostBase } } with link := Link.reset }, ?_⟩,
     ⟨2, 0, { xfer0 with own := some 5 }, wDma { SChan.reset with active := some { xfer0 with own := some 5 } }, ?_⟩,
     ⟨2, { xfer0 with issued := 512 }, { jDma goodDma with state := .running, ext := .dma 0 0 }, wDma { SChan.reset with draining := some { xfer0 with issued := 512 } }, ?_⟩,
     ⟨2, { xfer0 with stopped := true }, { jDma goodDma with state := .running, ext := .dma 0 0 }, wDma { SChan.reset with draining := some { xfer0 with stopped := true } }, ?_⟩,
     ⟨2, 0x50, { xfer0 with failed := some 0x50 }, { jDma goodDma with state := .running, ext := .dma 0 0 }, wDma { SChan.reset with draining := some { xfer0 with failed := some 0x50 } }, ?_⟩,
     ⟨2, wDma { SChan.reset with active := some xfer0, passed := 4096 }, ?_⟩,
     ⟨2, w0, ?_⟩,
     ⟨2, .writeError, xfer0, wDma { SChan.reset with active := some xfer0 }, ?_⟩,
     ⟨2, .linkDown, xfer0, wDma { SChan.reset with draining := some xfer0 }, ?_⟩,
     ⟨2, .writeError, xfer0, { xfer0 with uid := 1 }, wDma { SChan.reset with active := some xfer0, draining := some { xfer0 with uid := 1 } }, ?_⟩,
     ⟨2, .writeError, w0, ?_⟩⟩ <;> decide +kernel

theorem test_meets_PartitionsMadeAndEnded :
    (∃ (uid st : Nat) (h : List Nat) (vs : List (List Nat)) (j : Job) (s : State),
       s.starts uid 0x40 j ∧
       s.recorded j ∧
       (s.started uid 0x40).wordsAt (cpArg j.words) 16 = h ∧
       (List.range (hVols h)).map (fun i => (s.started uid 0x40).wordsAt (cpArg j.words + 64 + 16 * i) 4) = vs ∧
       (s.started uid 0x40).anyBlocked j [(cpArg j.words, 64), (cpArg j.words + 64, 16 * hVols h)] = none ∧
       (s.started uid 0x40).createCheck j h vs = .inl st) ∧
    (∃ (uid p : Nat) (h : List Nat) (vs : List (List Nat)) (plan : VolPlan) (j : Job) (s : State),
       s.starts uid 0x40 j ∧
       s.recorded j ∧
       (s.started uid 0x40).wordsAt (cpArg j.words) 16 = h ∧
       (List.range (hVols h)).map (fun i => (s.started uid 0x40).wordsAt (cpArg j.words + 64 + 16 * i) 4) = vs ∧
       (s.started uid 0x40).anyBlocked j [(cpArg j.words, 64), (cpArg j.words + 64, 16 * hVols h)] = none ∧
       (s.started uid 0x40).createCheck j h vs = .inr plan ∧
       (s.started uid 0x40).keyCheck false h vs = none ∧
       ((s.started uid 0x40).eraseGone plan.gone).1 = true ∧
       s.shaped = true ∧
       cpPart j.words = p ∧
       p ≠ 0 ∧
       cpConf j.words = false) ∧
    (∃ (uid : Nat) (j : Job) (s : State),
       s.starts uid 0x41 j ∧
       s.recorded j ∧
       ((bits 2 0 (wordAt j.words 3) = 0 ∨ (s.part (bits 2 0 (wordAt j.words 3))).valid = false))) ∧
    (∃ (uid p : Nat) (j : Job) (s : State),
       s.starts uid 0x41 j ∧
       s.recorded j ∧
       s.shaped = true ∧
       bits 2 0 (wordAt j.words 3) = p ∧
       p ≠ 0 ∧
       (s.part p).valid = true ∧
       j.part ≠ p ∧
       (s.qp j.qp).part ≠ p) ∧
    (∃ (uid : Nat) (j : Job) (s : State),
       s.starts uid 0x42 j ∧
       s.recorded j ∧
       (s.started uid 0x42).blocked j (addr48 j.words 4) 32 = none ∧
       (s.started uid 0x42).blockedOut j (addr48 j.words 6) 1808 = none) ∧
    (∃ (eng p r : Nat) (s : State),
       s.shaped = true ∧
       eng < 32 ∧
       (s.eng eng).holder = some p ∧
       (s.eng eng).mappedOut = false ∧
       (s.eng eng).holdSince + (s.part p).quantumUs * 100 ≤ s.now ∧
       cyclicFind 8 p (fun r => r != p && (s.sharers eng).contains r && (s.eng eng).placed.any fun w => w.part == r) = some r) ∧
    (∃ (eng p : Nat) (s : State),
       (s.eng eng).holder = some p ∧
       s.now < (s.eng eng).holdSince + (s.part p).quantumUs * 100 ∧
       ((s.eng eng).ctxs.any fun x => x.part == p) = true) :=
  by
  refine ⟨⟨0, 0x30, List.replicate 16 0, [], jCreate, wCreate [], ?_⟩,
     ⟨0, 3, [8 + 2 ^ 12, 0, 0, 0, 0, 0, 0, 0, 0, 0, 0, 0, 0, 0, 0, 0], [], { table := [], gone := [] }, jCreate, wCreate [8 + 2 ^ 12, 0, 0, 0, 0, 0, 0, 0, 0, 0, 0, 0, 0, 0, 0, 0], ?_⟩,
     ⟨0, job 0 0x41 (desc 0x41 100 0 [2]), withJobs [job 0 0x41 (desc 0x41 100 0 [2])], ?_⟩,
     ⟨0, 3, job 0 0x41 (desc 0x41 100 0 [3]), wOther (job 0 0x41 (desc 0x41 100 0 [3])), ?_⟩,
     ⟨0, job 0 0x42 (desc 0x42 100 0 [0, 0xC0001000, 0, 0xC0002000]), withJobs [job 0 0x42 (desc 0x42 100 0 [0, 0xC0001000, 0, 0xC0002000])], ?_⟩,
     ⟨0, 0, 3, wShared 10000, ?_⟩,
     ⟨0, 0, wShared 9999, ?_⟩⟩ <;> decide +kernel

theorem test_meets_KadonBootsAndUpdates :
    (∃ (s : State),
       s.reaches .pf = true ∧
       s.dev.stage = .waitKadon ∧
       s.sec.cryptoBad = false ∧
       s.kadon.bootBytes % 4096 ≠ 0) ∧
    (∃ (ok : Bool) (s : State),
       s.reaches .pf = true ∧
       s.dev.stage = .waitKadon ∧
       s.sec.cryptoBad = false ∧
       s.kadon.bootBytes % 4096 = 0 ∧
       (ok && s.pfHostOk) = false) ∧
    (∃ (bs : List Byte) (s : State),
       s.reaches .pf = true ∧
       s.dev.stage = .waitKadon ∧
       s.sec.cryptoBad = false ∧
       s.shaped = true ∧
       s.kadon.bootBytes % 4096 = 0 ∧
       s.pfHostOk = true ∧
       s.bytesAt (hostBase + s.kadon.bootAddr) s.kadon.bootBytes = bs) ∧
    (∃ (fn : Fn) (s : State), ((fn ≠ .pf ∨ s.dev.stage ≠ .waitKadon))) ∧
    (∃ (uid : Nat) (bs : List Byte) (j : Job) (s : State),
       s.starts uid 0x43 j ∧
       s.recorded j ∧
       (inHost (addr48 j.words 4) (wordAt j.words 6) || (s.started uid 0x43).inDram 0 (addr48 j.words 4) (wordAt j.words 6)) = true ∧
       ((addr48 j.words 4 < hostBase ∨ (s.started uid 0x43).hostOk j.part = true)) ∧
       (s.started uid 0x43).badWords (addr48 j.words 4) (wordAt j.words 6) = [] ∧
       s.shaped = true ∧
       (s.started uid 0x43).bytesAt (addr48 j.words 4) (wordAt j.words 6) = bs) ∧
    (∃ (uid : Nat) (bs : List Byte) (j : Job) (s : State),
       s.starts uid 0x43 j ∧
       s.recorded j ∧
       (inHost (addr48 j.words 4) (wordAt j.words 6) || (s.started uid 0x43).inDram 0 (addr48 j.words 4) (wordAt j.words 6)) = true ∧
       ((addr48 j.words 4 < hostBase ∨ (s.started uid 0x43).hostOk j.part = true)) ∧
       (s.started uid 0x43).badWords (addr48 j.words 4) (wordAt j.words 6) = [] ∧
       (s.started uid 0x43).bytesAt (addr48 j.words 4) (wordAt j.words 6) = bs) ∧
    (∃ (uid cp : Nat) (bs : List Byte) (j : Job) (s : State),
       s.starts uid 0x43 j ∧
       s.recorded j ∧
       (inHost (addr48 j.words 4) (wordAt j.words 6) || (s.started uid 0x43).inDram 0 (addr48 j.words 4) (wordAt j.words 6)) = true ∧
       ((addr48 j.words 4 < hostBase ∨ (s.started uid 0x43).hostOk j.part = true)) ∧
       (s.started uid 0x43).badWords (addr48 j.words 4) (wordAt j.words 6) = [] ∧
       s.shaped = true ∧
       bit cp (bits 3 0 (wordAt j.words 3)) = true ∧
       cp < 4 ∧
       (s.started uid 0x43).bytesAt (addr48 j.words 4) (wordAt j.words 6) = bs) ∧
    (∃ (uid : Nat) (j : Job) (s : State),
       s.starts uid 0x43 j ∧
       s.recorded j ∧
       (inHost (addr48 j.words 4) (wordAt j.words 6) || (s.started uid 0x43).inDram 0 (addr48 j.words 4) (wordAt j.words 6)) = false) ∧
    (∃ (cp : Nat) (s : State),
       cp < 3 ∧
       s.cpRunning cp = true ∧
       (s.cp cp).started + 1000000 ≤ s.now ∧
       s.shaped = true ∧
       ((s.cp cp).times.filter fun t => decide (s.now ≤ t + 1000000000)).length < 2) ∧
    (∃ (cp : Nat) (s : State),
       cp < 3 ∧
       s.cpRunning cp = true ∧
       (s.cp cp).started + 1000000 ≤ s.now ∧
       s.shaped = true ∧
       2 ≤ ((s.cp cp).times.filter fun t => decide (s.now ≤ t + 1000000000)).length) ∧
    (∃ (cp : Nat) (j : Job) (s : State),
       cp < 3 ∧
       s.cpRunning cp = true ∧
       (s.cp cp).started + 1000000 ≤ s.now ∧
       s.jobs.list.filter (s.belongs cp) = [j] ∧
       s.recorded j) ∧
    (∃ (cp : Nat) (s : State), ((s.cpRunning cp = false ∨ s.now < (s.cp cp).started + 1000000 ∨ 3 ≤ cp))) ∧
    (∃ (cp : Nat) (s : State), cp < 3 ∧ s.shaped = true ∧ (s.cp cp).state = .restarting ∧ (s.cp cp).image ≠ []) ∧
    (∃ (s : State), ((s.cpRunning 3 = false ∨ s.now < (s.cp 3).started + 5000000))) ∧
    (∃ (s : State), s.cpRunning 3 = true ∧ (s.cp 3).started + 5000000 ≤ s.now ∧ s.shaped = true) :=
  by
  refine ⟨⟨wBoot 100, ?_⟩,
     ⟨false, wBoot 8192, ?_⟩,
     ⟨(wBoot 4096).bytesAt (hostBase + (wBoot 4096).kadon.bootAddr) (wBoot 4096).kadon.bootBytes, wBoot 4096, ?_, ?_, ?_, ?_, ?_, ?_, rfl⟩,
     ⟨.pf, w0, ?_⟩,
     ⟨0, ((withJobs [jFw]).started 0 0x43).bytesAt (addr48 jFw.words 4) (wordAt jFw.words 6), jFw, withJobs [jFw], ?_, ?_, ?_, ?_, ?_, ?_, rfl⟩,
     ⟨0, ((withJobs [jFw]).started 0 0x43).bytesAt (addr48 jFw.words 4) (wordAt jFw.words 6), jFw, withJobs [jFw], ?_, ?_, ?_, ?_, ?_, rfl⟩,
     ⟨0, 0, ((withJobs [jFw]).started 0 0x43).bytesAt (addr48 jFw.words 4) (wordAt jFw.words 6), jFw, withJobs [jFw], ?_, ?_, ?_, ?_, ?_, ?_, ?_, ?_, rfl⟩,
     ⟨0, job 0 0x43 (desc 0x43 100 0 [1, 0x40000000, 0, 8192]), withJobs [job 0 0x43 (desc 0x43 100 0 [1, 0x40000000, 0, 8192])], ?_⟩,
     ⟨1, { w0 with now := 6000000 }, ?_⟩,
     ⟨1, { w0.modCp 1 fun c => { c with times := [4000, 3000] } with now := 6000000 }, ?_⟩,
     ⟨0, { job 0 4 [] with state := .cancelling }, { withJobs [{ job 0 4 [] with state := .cancelling }] with now := 6000000 }, ?_⟩,
     ⟨3, w0, ?_⟩,
     ⟨1, w0.modCp 1 fun c => { c with state := .restarting, image := [1] }, ?_⟩,
     ⟨w0.modCp 3 fun c => { c with state := .held }, ?_⟩,
     ⟨{ w0 with now := 6000000 }, ?_⟩⟩ <;> decide +kernel

theorem test_meets_RandomnessAndCrypto :
    (∃ (s : State), s.sec.rng.state = .serving) ∧
    (∃ (s : State), s.sec.rng.state ≠ .serving) ∧
    (∃ (s : State), s.sec.rng.state = .retesting) ∧
    (∃ (s : State), s.sec.rng.state = .retesting ∧ s.sec.rng.retests < 3) ∧
    (∃ (s : State), s.sec.rng.state = .retesting ∧ 3 ≤ s.sec.rng.retests) ∧
    (∃ (s : State), s.reaches .pf = true ∧ s.dev.ready = true ∧ s.sec.rng.state = .failed) ∧
    (∃ (fn : Fn) (s : State), ((fn ≠ .pf ∨ s.dev.ready = false ∨ s.sec.rng.state ≠ .failed))) ∧
    (∃ (s : State),
       s.sec.rng.state = .serving ∧
       ((2 ^ 20 ≤ s.sec.rng.requests ∨ s.sec.rng.lastReseed + 100000000 ≤ s.now))) ∧
    (∃ (s : State), s.sec.rng.requests < 2 ^ 20 ∧ s.now < s.sec.rng.lastReseed + 100000000) ∧
    (∃ (r : Nat) (c : CMsg) (s : State),
       cyclicFind 9 s.sec.lastServed (fun r => (s.sec.nextOf r).isSome) = some r ∧
       s.sec.nextOf r = some c) :=
  by
  refine ⟨⟨wRng { Rng.reset with state := .serving }, ?_⟩,
     ⟨w0, ?_⟩,
     ⟨wRng { Rng.reset with state := .retesting, retests := 1, queue := [.dataKey 0] }, ?_⟩,
     ⟨wRng { Rng.reset with state := .retesting, retests := 2 }, ?_⟩,
     ⟨wRng { Rng.reset with state := .retesting, retests := 3 }, ?_⟩,
     ⟨wRng { Rng.reset with state := .failed }, ?_⟩,
     ⟨.pf, w0, ?_⟩,
     ⟨{ wRng { Rng.reset with state := .serving } with now := 100000000 }, ?_⟩,
     ⟨w0, ?_⟩,
     ⟨3, cmsg0, { w0 with sec := { w0.sec with crypto := [cmsg0] } }, ?_⟩⟩ <;> decide +kernel

theorem test_meets_HostLinkEvents :
    (∃ (s : State), s.alive = true ∧ s.link.perst = false ∧ s.link.up = false) ∧
    (∃ (s : State), ((s.alive = false ∨ s.link.perst = true ∨ s.link.up = true))) ∧
    (∃ (s : State), s.alive = true ∧ s.link.up = true) ∧
    (∃ (v : Nat) (s : State), s.shaped = true ∧ v < 8 ∧ s.reaches (.vf v) = true) ∧
    (∃ (fn : Fn) (offset len : Nat) (met : Bar4Met) (ps : List (Nat × Nat)) (s : State),
       s.reaches fn = true ∧
       1 ≤ len ∧
       offset + len ≤ s.bar4Size fn ∧
       s.bar4Target fn offset len met.ide = some ps ∧
       ((∀ w ∈ State.bar4Words ps false, w ∉ met.bad ∧
       w ∉ s.dram.poisoned))) ∧
    (∃ (fn : Fn) (offset len : Nat) (met : Bar4Met) (ps : List (Nat × Nat)) (s : State),
       s.reaches fn = true ∧
       1 ≤ len ∧
       offset + len ≤ s.bar4Size fn ∧
       s.bar4Target fn offset len met.ide = some ps ∧
       ((∃ w ∈ State.bar4Words ps false, w ∈ met.bad ∨ w ∈ s.dram.poisoned))) ∧
    (∃ (fn : Fn) (offset : Nat) (met : Bar4Met) (ps : List (Nat × Nat)) (bs : List Byte) (s : State),
       s.reaches fn = true ∧
       1 ≤ bs.length ∧
       offset + bs.length ≤ s.bar4Size fn ∧
       s.bar4Target fn offset bs.length met.ide = some ps) ∧
    (∃ (fn : Fn) (offset len : Nat) (met : Bar4Met) (s : State),
       s.reaches fn = true ∧
       1 ≤ len ∧
       offset + len ≤ s.bar4Size fn ∧
       s.bar4Target fn offset len met.ide = none) ∧
    (∃ (fn : Fn) (offset len : Nat) (s : State), s.bar4Size fn < offset + len) ∧
    (∃ (en : Bool) (k : Nat) (found : SelfTest) (c : Instr) (s : State),
       s.link.up = true ∧
       s.link.fnReady = false ∧
       c ∈ [.owningFunctionChange en k, .busMasterEnable .pf, .msixUnmask .pf .enable, .flrPf found, .d3hotEntry, .d3hotExit found]) ∧
    (∃ (s : State), s.reaches .pf = true) ∧
    (∃ (fn : Fn) (s : State),
       s.shaped = true ∧
       s.reaches fn = true ∧
       s.link.lost = false ∧
       (match fn with | .pf => true | .vf v => decide (v < 8)) = true) ∧
    (∃ (k : Nat) (s : State), s.link.ide.getD k false = true) ∧
    (∃ (k : Nat) (s : State), s.link.ide.getD k false = false) ∧
    (∃ (sid k : Nat) (s : State), s.doeUp = true ∧ s.link.sessions.contains sid = true ∧ k < 8) ∧
    (∃ (s : State), s.doeUp = true) :=
  by
  refine ⟨⟨wDown, ?_⟩,
     ⟨w0, ?_⟩,
     ⟨w0, ?_⟩,
     ⟨1, wFns, ?_⟩,
     ⟨.pf, 0x3FFFFFFE, 4, { ide := false, single := [], bad := [] }, [(0x3FFFFFFE, 2), (0x40000000, 2)], w0, ?_⟩,
     ⟨.pf, 0x100, 4, { ide := false, single := [], bad := [8] }, [(0x100, 4)], w0, ?_⟩,
     ⟨.pf, 0x100, { ide := false, single := [], bad := [8] }, [(0x100, 2)], [1, 2], w0, ?_⟩,
     ⟨.pf, 96 * granuleBytes, 4, { ide := false, single := [], bad := [] }, w0, ?_⟩,
     ⟨.vf 1, 16 * granuleBytes - 2, 4, wFns, ?_⟩,
     ⟨true, 3, goodTest, .d3hotEntry, { wDown with link := { wDown.link with up := true } }, ?_⟩,
     ⟨w0, ?_⟩,
     ⟨.vf 1, wFns, ?_⟩,
     ⟨3, wSpdm, ?_⟩,
     ⟨3, w0, ?_⟩,
     ⟨5, 3, wSpdm, ?_⟩,
     ⟨wSpdm, ?_⟩⟩ <;> decide +kernel

theorem test_meets_SpdmAnswered :
    (∃ (s : State), s.doeUp = true) ∧
    (∃ (via : SpdmVia) (s : State), s.doeUp = true ∧ s.link.negotiated = true ∧ s.viaOk via = true) ∧
    (∃ (via : SpdmVia) (s : State), s.doeUp = true ∧ s.link.negotiated = true ∧ s.viaOk via = true) ∧
    (∃ (via : SpdmVia) (i : Nat) (s : State),
       s.doeUp = true ∧
       s.link.negotiated = true ∧
       s.viaOk via = true ∧
       1 ≤ i ∧
       i ≤ 9) ∧
    (∃ (s : State),
       s.doeUp = true ∧
       s.link.negotiated = true ∧
       s.link.sessions.length + s.link.handshakes.length < 4 ∧
       s.sec.rng.state = .serving) ∧
    (∃ (s : State),
       s.doeUp = true ∧
       s.link.negotiated = true ∧
       4 ≤ s.link.sessions.length + s.link.handshakes.length) ∧
    (∃ (s : State),
       s.doeUp = true ∧
       s.link.negotiated = true ∧
       s.link.sessions.length + s.link.handshakes.length < 4 ∧
       s.sec.rng.state ≠ .serving) ∧
    (∃ (sid : Nat) (s : State), s.doeUp = true ∧ s.link.handshakes.contains sid = true) ∧
    (∃ (sid : Nat) (s : State), s.doeUp = true ∧ s.link.sessions.contains sid = true) ∧
    (∃ (via : SpdmVia) (slot : Nat) (nonce key : List Byte) (c : Instr) (s : State),
       s.doeUp = true ∧
       s.link.negotiated = false ∧
       c ∈ [.getDigests via, .getCertificate via slot 0 1, .challenge via slot nonce, .getMeasurements via slot nonce, .keyExchange via key]) ∧
    (∃ (via : SpdmVia) (c : Instr) (s : State),
       s.doeUp = false ∧
       c ∈ [.getVersion via, .getCapabilities via, .getDigests via, .heartbeat via, .keyUpdate via, .endSession via]) :=
  by
  refine ⟨⟨w0, ?_⟩,
     ⟨.clear, wSpdm, ?_⟩,
     ⟨.session 5, wSpdm, ?_⟩,
     ⟨.session 5, 9, wSpdm, ?_⟩,
     ⟨wSpdm, ?_⟩,
     ⟨{ wSpdm with link := { wSpdm.link with sessions := [1, 2, 3] } }, ?_⟩,
     ⟨{ wSpdm with sec := w0.sec }, ?_⟩,
     ⟨6, wSpdm, ?_⟩,
     ⟨5, wSpdm, ?_⟩,
     ⟨.clear, 0, [], [], .getDigests .clear, w0, ?_⟩,
     ⟨.clear, .getVersion .clear, State.reset, ?_⟩⟩ <;> decide +kernel

theorem test_meets_TraceAndReplayRegisters :
    (∃ (i : Nat) (r : TraceRec) (s : State), i < r.units ∧ r.units ≤ 2 ^ s.trace.size) ∧
    (∃ (value : Word) (s : State),
       s.reaches .pf = true ∧
       bit 0 value.toNat = true ∧
       s.trace.enable = false ∧
       s.trace.store = [] ∧
       s.trace.pendingLost = 0 ∧
       s.pfHostOk = true) ∧
    (∃ (value : Word) (s : State), s.reaches .pf = true ∧ bit 0 value.toNat = true ∧ s.trace.enable = false) ∧
    (∃ (s : State), s.reaches .pf = true ∧ s.trace.enable = true) ∧
    (∃ (offset : Nat) (s : State), s.trace.enable = true ∧ ((offset = 0x90004 ∨ offset = 0x90008))) ∧
    (∃ (value : Word) (s : State),
       s.reaches .pf = true ∧
       s.trace.store = [] ∧
       s.trace.pendingLost = 0 ∧
       s.trace.tailAt value.toNat ≤ s.trace.head) ∧
    (∃ (value : Word) (s : State), s.trace.head < s.trace.tailAt value.toNat) ∧
    (∃ (offset : Nat) (s : State),
       s.replay.state = .running ∧
       ((offset = 0x90104 ∨ offset = 0x90108 ∨ offset = 0x9010C))) ∧
    (∃ (v : BitVec 64) (s : State), s.replay.state = .running ∧ bit 1 (v.toNat % 2 ^ 32) = false) ∧
    (∃ (value : Word) (p : Nat) (s : State),
       s.reaches .pf = true ∧
       s.replay.state ≠ .running ∧
       bit 0 value.toNat = true ∧
       bits 4 2 value.toNat = p ∧
       s.replayable p = true ∧
       s.traceReadable = true ∧
       s.sameStart (s.traceRecords s.replay.addr s.replay.units s.replay.units 0) = true) ∧
    (∃ (value : Word) (p : Nat) (s : State),
       s.reaches .pf = true ∧
       s.replay.state ≠ .running ∧
       bit 0 value.toNat = true ∧
       bits 4 2 value.toNat = p ∧
       s.replayable p = true ∧
       s.sameStart (s.traceRecords s.replay.addr s.replay.units s.replay.units 0) = false) ∧
    (∃ (value : Word) (s : State),
       s.reaches .pf = true ∧
       s.replay.state ≠ .running ∧
       ((bit 0 value.toNat = false ∨ s.replayable (bits 4 2 value.toNat) = false))) ∧
    (∃ (s : State), s.reaches .pf = true ∧ s.replay.state = .running) :=
  by
  refine ⟨⟨0, { type := 1, part := 0, qp := 0, ts := 5, words := [1, 2] }, w0, ?_⟩,
     ⟨0x0331, wTrace { Trace.reset with head := 7, tail := 5 }, ?_⟩,
     ⟨0x0331, wTrace { Trace.reset with head := 7, tail := 5 }, ?_⟩,
     ⟨wTrace { Trace.reset with enable := true }, ?_⟩,
     ⟨0x90004, wTrace { Trace.reset with enable := true }, ?_⟩,
     ⟨6, wTrace { Trace.reset with enable := true, head := 7, tail := 5 }, ?_⟩,
     ⟨8, wTrace { Trace.reset with enable := true, head := 7, tail := 5 }, ?_⟩,
     ⟨0x9010C, wReplay { Replay.reset with state := .running }, ?_⟩,
     ⟨0x1D, wReplay { Replay.reset with state := .running }, ?_⟩,
     ⟨0x1, 0, { wTraced with qps := wTraced.qps.map fun q => { q with enabled := true } }, ?_⟩,
     ⟨0x1, 0, { w0 with qps := w0.qps.map fun q => { q with enabled := true } }, ?_⟩,
     ⟨0x1, w0, ?_⟩,
     ⟨wReplay { Replay.reset with state := .running }, ?_⟩⟩ <;> decide +kernel

theorem test_meets_RegistersHoldWhatIsWritten :
    (∃ (s : State), s.reaches .pf = true ∧ s.dev.globalLock = false) ∧
    (∃ (s : State), s.reaches .pf = true ∧ s.dev.globalLock = true) ∧
    (∃ (n : Nat) (s : State), s.shaped = true ∧ n < 64 ∧ s.reaches .pf = true ∧ (s.qp n).enabled = false) ∧
    (∃ (n o : Nat) (s : State),
       n < 64 ∧
       s.reaches .pf = true ∧
       (s.qp n).enabled = true ∧
       ((o = 0 ∨ o = 4 ∨ o = 8 ∨ o = 0xC ∨ o = 0x10))) ∧
    (∃ (p : Nat) (s : State),
       s.shaped = true ∧
       p < 8 ∧
       s.reaches .pf = true ∧
       s.dev.ready = true ∧
       s.dev.partLock = false ∧
       (s.part p).valid = true) ∧
    (∃ (p : Nat) (s : State), ((s.dev.ready = false ∨ s.dev.partLock = true)) ∧ p < 8) ∧
    (∃ (n : Nat) (s : State), s.shaped = true ∧ s.reaches .pf = true ∧ n < 44 ∧ s.dev.dramLock = false) ∧
    (∃ (n k : Nat) (s : State),
       s.shaped = true ∧
       s.reaches .pf = true ∧
       n < 2 ∧
       k < 12 ∧
       (s.pport n).pin.length = 12) ∧
    (∃ (s : State), s.reaches .pf = true) ∧
    (∃ (e : Nat) (s : State), s.shaped = true ∧ s.reaches .pf = true ∧ e < 32) ∧
    (∃ (n o : Nat) (s : State),
       s.shaped = true ∧
       s.reaches .pf = true ∧
       ((o ∈ [0x60040, 0x8000C, 0x90014, 0xA0010, 0xB0010] ∨ (n < 64 ∧
       o = 0x10024 + 0x40 * n) ∨ (n < 24 ∧
       o = 0x40300 + 4 * n) ∨ (n < 16 ∧
       o = 0x50200 + 4 * n))) ∧
       s.regRead .pf o < 2 ^ 32) ∧
    (∃ (o size : Nat),
       (((size ≠ 4 ∧
       size ≠ 8) ∨ (size = 4 ∧
       o % 4 ≠ 0) ∨ (size = 8 ∧
       o % 8 ≠ 0) ∨ (size = 4 ∧
       (o = 0 ∨ o = 4 ∨ (0x40 ≤ o ∧
       o < 0x50)))))) ∧
    (∃ (o : Nat), ((o < 0x10000 ∨ 0x11000 ≤ o))) :=
  by
  refine ⟨⟨w0, ?_⟩,
     ⟨{ w0 with dev := { w0.dev with globalLock := true } }, ?_⟩,
     ⟨9, w0, ?_⟩,
     ⟨1, 0x10, w0, ?_⟩,
     ⟨0, w0, ?_⟩,
     ⟨0, State.reset, ?_⟩,
     ⟨3, w0, ?_⟩,
     ⟨1, 11, w0, ?_⟩,
     ⟨w0, ?_⟩,
     ⟨3, w0, ?_⟩,
     ⟨3, 0x10024 + 0x40 * 3, w0.modQp 3 fun q => { q with drops := 5 }, ?_⟩,
     ⟨0x22, 4, ?_⟩,
     ⟨0x70000, ?_⟩⟩ <;> decide +kernel

theorem test_meets_PowerThermalAndDomains :
    (∃ (s : State), s.alive = true) ∧
    (∃ (s : State), s.reaches .pf = true) ∧
    (∃ (s : State),
       s.alive = true ∧
       s.power.pwrbrk = false ∧
       s.emergencyOn = false ∧
       ((s.power.lastBrk.map fun t => decide (t + 100000000 ≤ s.now)).getD true) = true) ∧
    (∃ (s : State),
       s.alive = true ∧
       s.power.pwrbrk = false ∧
       ((s.emergencyOn = true ∨ ((s.power.lastBrk.map fun t => decide (t + 100000000 ≤ s.now)).getD true) = false))) ∧
    (∃ (s : State), s.alive = true ∧ s.power.pwrbrk = true) ∧
    (∃ (readings : List Nat) (s : State),
       s.alive = true ∧
       s.dev.stage ≠ .selfTest ∧
       levelCode s.power.level < levelCode (nextLevel (readings.foldl max 0) s.power.dramHot s.power.level)) ∧
    (∃ (s : State), s.smbus.dieOn = true) ∧
    (∃ (s : State), s.smbus.dieOn = false) ∧
    (∃ (eng : Nat) (s : State), s.shaped = true ∧ eng < 32 ∧ s.alive = true ∧ s.rampNext eng = true) ∧
    (∃ (eng : Nat) (s : State), s.rampNext eng = false) ∧
    (∃ (eng : Nat) (s : State),
       s.shaped = true ∧
       eng < 32 ∧
       (s.eng eng).domain.ramping = true ∧
       (((s.eng eng).domain.held = false ∨ (s.eng eng).domain.heldSince + 50 ≤ s.now)) ∧
       s.now ≤ (s.eng eng).domain.rampStart + 500 + (if (s.eng eng).domain.held = true then 1000 else 0)) ∧
    (∃ (eng : Nat) (s : State),
       s.shaped = true ∧
       eng < 32 ∧
       (s.eng eng).domain.ramping = true ∧
       (s.eng eng).domain.rampStart + 1500 < s.now ∧
       (((s.eng eng).domain.held = false ∨ (s.eng eng).domain.heldSince + 50 ≤ s.now))) ∧
    (∃ (eng : Nat) (s : State),
       (((s.eng eng).domain.ramping = false ∨ ((s.eng eng).domain.held = true ∧
       s.now < (s.eng eng).domain.heldSince + 50)))) ∧
    (∃ (eng : Nat) (s : State),
       s.shaped = true ∧
       eng < 32 ∧
       s.power.gateIdle = true ∧
       (s.eng eng).domain.powered = true ∧
       (s.eng eng).ctxs = [] ∧
       (s.eng eng).freeSince + 100000 ≤ s.now) ∧
    (∃ (eng : Nat) (s : State),
       ((s.power.gateIdle = false ∨ (s.eng eng).domain.powered = false ∨ (s.eng eng).ctxs ≠ [] ∨ s.now < (s.eng eng).freeSince + 100000))) ∧
    (∃ (eng : Nat) (s : State),
       s.shaped = true ∧
       eng < 32 ∧
       (((s.eng eng).domain.ramping = true ∨ (s.eng eng).domain.powered = true))) ∧
    (∃ (eng : Nat) (s : State), (s.eng eng).domain.ramping = false ∧ (s.eng eng).domain.powered = false) ∧
    (∃ (sector since e : Nat) (s : State),
       s.shaped = true ∧
       s.alive = true ∧
       sector < 4 ∧
       e / 8 = sector ∧
       s.power.railLow.getD sector none = some since ∧
       since + 800 ≤ s.now) ∧
    (∃ (sector : Nat) (s : State), ((s.power.railLow.getD sector none = none ∨ 4 ≤ sector))) :=
  by
  refine ⟨⟨w0, ?_⟩,
     ⟨w0, ?_⟩,
     ⟨w0, ?_⟩,
     ⟨wPower { Power.reset with lastBrk := some 4000 }, ?_⟩,
     ⟨wPower { Power.reset with pwrbrk := true }, ?_⟩,
     ⟨[60, 106], w0, ?_⟩,
     ⟨w0, ?_⟩,
     ⟨{ w0 with smbus := { w0.smbus with dieOn := false } }, ?_⟩,
     ⟨9, wDomain { Domain.reset with wants := true }, ?_⟩,
     ⟨9, w0, ?_⟩,
     ⟨9, wDomain { Domain.reset with ramping := true, rampStart := 4900 }, ?_⟩,
     ⟨9, wDomain { Domain.reset with ramping := true }, ?_⟩,
     ⟨9, w0, ?_⟩,
     ⟨9, { wDomain { Domain.reset with powered := true } with now := 100000, power := { Power.reset with gateIdle := true } }, ?_⟩,
     ⟨9, w0, ?_⟩,
     ⟨9, wDomain { Domain.reset with ramping := true }, ?_⟩,
     ⟨9, w0, ?_⟩,
     ⟨1, 4000, 9, wPower { Power.reset with railLow := [none, some 4000, none, none] }, ?_⟩,
     ⟨1, w0, ?_⟩⟩ <;> decide +kernel

theorem test_meets_RailsClockAndDripline :
    (∃ (s : State), s.smbus.dieOn = false ∧ s.smbus.aux = true ∧ s.smbus.tripOff = false) ∧
    (∃ (s : State), s.smbus.dieOn = false ∧ s.smbus.aux = true ∧ s.smbus.tripOff = true ∧ s.smbus.p12v = false) ∧
    (∃ (s : State), s.smbus.dieOn = false ∧ s.smbus.aux = true ∧ s.smbus.tripOff = true ∧ s.smbus.p12v = true) ∧
    (∃ (s : State), ((s.smbus.dieOn = true ∨ s.smbus.aux = false))) ∧
    (∃ (c : Instr) (s : State), c ∈ [Instr.powerLoss, .p12vOvervoltage] ∧ s.smbus.dieOn = true) ∧
    (∃ (c : Instr) (s : State), c ∈ [Instr.powerLoss, .p12vOvervoltage] ∧ s.smbus.dieOn = false) ∧
    (∃ (s : State), s.smbus.aux = false) ∧
    (∃ (s : State), s.smbus.aux = true) ∧
    (∃ (s : State), s.alive = true) ∧
    (∃ (s : State), s.dev.clockLost = true ∧ s.dev.fullWanted = false) ∧
    (∃ (s : State), s.dev.clockLost = true ∧ s.dev.fullWanted = true ∧ s.link.perst = false ∧ s.smbus.dieOn = true) ∧
    (∃ (s : State), s.dev.clockLost = false) ∧
    (∃ (s : State), s.reaches .pf = true ∧ s.now < 2 ^ 64) ∧
    (∃ (frames : List DripFrame) (d : Nat) (s : State),
       s.alive = true ∧
       s.drip.polls.length < 2 ∧
       d < 8 ∧
       s.flash.margins.length = 8 ∧
       s.drip.lastRaise.length = 8 ∧
       s.drip.fallback = [] ∧
       s.dripAsks frames d = true ∧
       ((s.drip.lastRaise.getD d 0 = 0 ∨ s.drip.lastRaise.getD d 0 + 1000000 ≤ s.now + 1))) ∧
    (∃ (frames : List DripFrame) (m : Nat) (s : State),
       s.alive = true ∧
       2 ≤ s.drip.polls.length ∧
       m < 96 ∧
       s.drip.faulty.contains m = false ∧
       dripFaulty ((frames :: s.drip.polls).take 3) m = true) ∧
    (∃ (d : Nat) (s : State), s.alive = true ∧ s.flash.mounted = true ∧ s.drip.plannedDay < s.hours / 24 ∧ d < 8) ∧
    (∃ (s : State), s.hours / 24 ≤ s.drip.plannedDay) :=
  by
  refine ⟨⟨{ w0 with smbus := { w0.smbus with dieOn := false, p12v := false } }, ?_⟩,
     ⟨{ w0 with smbus := { w0.smbus with dieOn := false, p12v := false, tripOff := true } }, ?_⟩,
     ⟨{ w0 with smbus := { w0.smbus with dieOn := false, tripOff := true } }, ?_⟩,
     ⟨w0, ?_⟩,
     ⟨.powerLoss, w0, ?_⟩,
     ⟨.powerLoss, { w0 with smbus := { w0.smbus with dieOn := false } }, ?_⟩,
     ⟨{ w0 with smbus := { w0.smbus with aux := false } }, ?_⟩,
     ⟨w0, ?_⟩,
     ⟨w0, ?_⟩,
     ⟨{ State.reset with dev := { Dev.reset with clockLost := true } }, ?_⟩,
     ⟨{ w0 with dev := { Dev.reset with clockLost := true, fullWanted := true } }, ?_⟩,
     ⟨w0, ?_⟩,
     ⟨{ w0 with now := 0x123456789 }, ?_⟩,
     ⟨poll0, 1, wDrip Drip.reset, ?_⟩,
     ⟨poll0.filter fun f => f.pos != 50, 50, wDrip { Drip.reset with polls := List.replicate 2 (poll0.filter fun f => f.pos != 50) }, ?_⟩,
     ⟨3, wDrip { Drip.reset with plannedDay := 0 }, ?_⟩,
     ⟨wDrip { Drip.reset with plannedDay := 1 }, ?_⟩⟩ <;> decide +kernel

theorem test_meets_ResetsReadyAndShutdown :
    (∃ (s : State), s.alive = true ∧ s.dev.stage = .selfTest ∧ s.link.perst = false ∧ s.dev.fullWanted = false) ∧
    (∃ (s : State), ((s.alive = false ∨ s.dev.stage ≠ .selfTest ∨ s.link.perst = true))) ∧
    (∃ (s : State), s.reaches .pf = true) ∧
    (∃ (c : Instr) (f : SelfTest) (s : State),
       (((c = .warmReset .pf f ∧
       s.reaches .pf = true) ∨ (c = .flrPf f ∧
       s.linkResets = true ∧
       s.link.fnReady = true) ∨ (c = .hotReset f ∧
       s.linkResets = true))) ∧
       s.escalates = true) ∧
    (∃ (c : Instr) (code : Nat) (f : SelfTest) (s : State),
       s.shaped = true ∧
       (((c = .warmReset .pf f ∧
       code = 6 ∧
       s.reaches .pf = true) ∨ (c = .flrPf f ∧
       code = 5 ∧
       s.linkResets = true ∧
       s.link.fnReady = true) ∨ (c = .hotReset f ∧
       code = 4 ∧
       s.linkResets = true))) ∧
       s.escalates = false) ∧
    (∃ (ns : Nat) (s : State),
       s.shaped = true ∧
       1000 ≤ ns ∧
       s.link.perst = false ∧
       s.smbus.dieOn = true ∧
       s.dev.clockLost = false ∧
       s.escalates = false) ∧
    (∃ (ns : Nat), ns < 1000) ∧
    (∃ (s : State), s.link.perst = true ∧ s.dev.clockLost = false ∧ s.dev.fullWanted = false) ∧
    (∃ (s : State), s.link.perst = true ∧ s.dev.clockLost = false ∧ s.dev.fullWanted = true ∧ s.smbus.dieOn = true) ∧
    (∃ (s : State),
       s.shaped = true ∧
       s.alive = true ∧
       s.dev.stage = .training ∧
       (s.kadonRuns || s.dev.fault) = true ∧
       s.dram.trained = true ∧
       s.flash.mounted = true) ∧
    (∃ (s : State),
       s.shaped = true ∧
       s.alive = true ∧
       s.dev.stage = .warmReset ∧
       s.dev.released = true ∧
       s.link.perst = false) ∧
    (∃ (s : State),
       ((s.alive = false ∨ (s.dev.stage ≠ .training ∧
       s.dev.stage ≠ .warmReset) ∨ (s.dev.stage = .warmReset ∧
       s.dev.released = false)))) ∧
    (∃ (s : State), s.reaches .pf = true ∧ s.canShut = true ∧ s.jobs.list = []) ∧
    (∃ (s : State), s.canShut = false) ∧
    (∃ (s : State), s.linkResets = true ∧ s.link.fnReady = true) ∧
    (∃ (s : State), s.alive = true ∧ s.link.d3hot = true ∧ s.link.up = true ∧ s.link.fnReady = true) :=
  by
  refine ⟨⟨{ State.reset with smbus := { State.reset.smbus with dieOn := true } }, ?_⟩,
     ⟨w0, ?_⟩,
     ⟨w0, ?_⟩,
     ⟨.flrPf goodTest, goodTest, wDev { Dev.reset with ready := true, stage := .ready, fault := true }, ?_⟩,
     ⟨.hotReset goodTest, 4, goodTest, w0, ?_⟩,
     ⟨1000, w0, ?_⟩,
     ⟨999, ?_⟩,
     ⟨{ w0 with dev := { Dev.reset with stage := .warmReset }, link := { w0.link with perst := true } }, ?_⟩,
     ⟨{ w0 with dev := { Dev.reset with fullWanted := true }, link := { w0.link with perst := true } }, ?_⟩,
     ⟨wTrainedUp, ?_⟩,
     ⟨wDev { Dev.reset with stage := .warmReset, released := true }, ?_⟩,
     ⟨w0, ?_⟩,
     ⟨w0, ?_⟩,
     ⟨wDev { Dev.reset with shutdownDone := true }, ?_⟩,
     ⟨w0, ?_⟩,
     ⟨{ w0 with link := { w0.link with d3hot := true } }, ?_⟩⟩ <;> decide +kernel

theorem test_meets_FaultsAndManagement :
    (∃ (source cls detail : Nat) (part : Option Nat) (s : State),
       s.faults.head - s.faults.tail < 256 ∧
       ((eventDetail detail = true ∨ (s.faults.recs.find? fun x => x.2.source == source && x.2.cls == cls) = none)) ∧
       (part.all fun p => !s.conf p) = true) ∧
    (∃ (detail p : Nat) (s : State),
       s.faults.head - s.faults.tail < 256 ∧
       eventDetail detail = true ∧
       s.conf p = true) ∧
    (∃ (source cls detail n : Nat) (r : FaultRec) (s : State),
       eventDetail detail = false ∧
       (s.faults.recs.find? fun x => x.2.source == source && x.2.cls == cls) = some (n, r) ∧
       s.now ≤ r.firstTs + 100000 ∧
       s.faults.tail ≤ n) ∧
    (∃ (detail : Nat) (s : State), 256 ≤ s.faults.head - s.faults.tail ∧ eventDetail detail = true) ∧
    (∃ (source cls : Nat) (g : Nat × FaultRec) (s : State),
       s.faults.head - s.faults.tail < 256 ∧
       (s.faults.gathered.find? fun g => g.2.source == source && g.2.cls == cls && decide (g.1 < s.now)) = some g) ∧
    (∃ (value : Word) (s : State), s.reaches .pf = true ∧ s.faults.tailAt (value.toNat % 2 ^ 16) ≤ s.faults.head) ∧
    (∃ (value : Word) (s : State), s.faults.head < s.faults.tailAt (value.toNat % 2 ^ 16)) ∧
    (∃ (g : Nat) (s : State), s.alive = true ∧ g < s.faults.sramCorrected.length ∧ g < 8) ∧
    (∃ (g w : Nat) (s : State), s.alive = true ∧ g < 8 ∧ 0x100000 ≤ w) ∧
    (∃ (s : State), s.smbus.aux = true ∧ s.alive = true ∧ s.dev.fullWanted = false ∧ s.link.perst = false) ∧
    (∃ (s : State), s.smbus.aux = true ∧ ((s.alive = false ∨ s.link.perst = true))) ∧
    (∃ (s : State), s.smbus.aux = true) ∧
    (∃ (pec : Pec) (s : State), s.smbus.aux = true ∧ pec ≠ .wrong) ∧
    (∃ (b : Byte) (c : Instr),
       c ∈ [.capSet (some b) .wrong, .emergency (some b) .wrong, .clearAlert .wrong, .fruOffset b .wrong]) ∧
    (∃ (s : State), s.smbus.aux = true ∧ s.smbus.alert = true) ∧
    (∃ (c : Instr) (s : State),
       ((s.smbus.aux = false ∨ (s.smbus.alert = false ∧
       c = .alertResponse))) ∧
       c ∈ [Instr.status, .tempHottest, .powerIn, .fruRead, .alertResponse]) :=
  by
  refine ⟨⟨0x25, 5, 1, some 0, w0, ?_⟩,
     ⟨2, 0, { w0 with parts := w0.parts.set 0 { pt0 with conf := true } }, ?_⟩,
     ⟨0x25, 5, 1, 0, fault0, wFaults { Faults.reset with head := 1, recs := [(0, fault0)] }, ?_⟩,
     ⟨2, wFaults { Faults.reset with head := 256 }, ?_⟩,
     ⟨0x25, 5, (4000, fault0), wFaults { Faults.reset with gathered := [(4000, fault0)] }, ?_⟩,
     ⟨1, wFaults { Faults.reset with head := 1, recs := [(0, fault0)] }, ?_⟩,
     ⟨2, wFaults { Faults.reset with head := 1, recs := [(0, fault0)] }, ?_⟩,
     ⟨2, w0, ?_⟩,
     ⟨2, 0x100000, w0, ?_⟩,
     ⟨w0, ?_⟩,
     ⟨wBus { w0.smbus with dieOn := false }, ?_⟩,
     ⟨w0, ?_⟩,
     ⟨.absent, w0, ?_⟩,
     ⟨1, .clearAlert .wrong, ?_⟩,
     ⟨wBus { w0.smbus with alert := true }, ?_⟩,
     ⟨.alertResponse, w0, ?_⟩⟩ <;> decide +kernel

/-! ## Ill-formed commands are refused (Instr.wf) -/

theorem test_wf_refuses_doorbells :
    [Instr.ringDoorbell (.vf 8) 0 8 0, .ringDoorbell .pf 0x10000 8 0, .pushDoorbell .pf 0 65 0, .pushDoorbell .pf 0 0 0,
      .writeCompletion 64, .moderationTimeout 64, .qpEnable .pf 64, .qpEnable (.vf 8) 0, .qpDisable .pf 64, .qpDisable (.vf 8) 0,
      .hostAccessReturns (.vf 8)].all (fun c => !c.wf) = true := by decide +kernel

theorem test_wf_refuses_engines :
    [Instr.tileTaskLoad 0 [1], .tileTaskLoad 0 (List.replicate 32 (2 ^ 32)), .slotGrant 32, .fetchStepIssue 32,
      .fetchStepComplete 0 128 .clean, .fetchStepComplete 0 0 (.checksum 0 65 0 1), .stopRamp 32, .taskRetire 32 0 .acknowledged, .priorityAging 0 128, .contextRelease 32 0,
      .engineMapOut 32 .checksum, .appendTimeout 0 128, .quantumExpiry 32, .domainRamp 32, .rampComplete 32, .idleGate 32,
      .domainShort 32 true, .sectorFault 4].all (fun c => !c.wf) = true := by decide +kernel

theorem test_wf_refuses_partitions :
    [Instr.sumpUnitGrant 8, .parkGroup 8, .groupFlush 8, .unitsFreed 8, .idleEpochTick 8, .pageReclaim 8, .flrVf 8].all
      (fun c => !c.wf) = true := by decide +kernel

theorem test_wf_refuses_memories :
    [Instr.dramRequest 44 0 1 none, .dramRequest 0 0 0 none, .urgencyChange 44, .crossingGrant 24, .dramReadComplete 24 [] [],
      .patrolScrub 24 0 [] [], .perBankRefresh 24, .tempReadout [], .driftTrack 24 0, .channelRetrain 24 [[], [], []], .channelRetrain 0 [],
      .channelMapOut 24, .powerDownEntry 24, .dramTraining [], .dramWriteComplete 24 [] [], .refreshManagement 0 32,
      .sramPatrolScrub 8 0 [], .gapMove 32, .eraseSuspend 32, .eraseResume 32, .eraseWindowEnd 32, .eraseStarved 32,
      .flashOperationDone 32 .failed, .siphonTransferComplete 16, .siphonAging 16, .siphonError 16 .readBad].all
      (fun c => !c.wf) = true := by decide +kernel

theorem test_wf_refuses_links :
    [Instr.bar4Access .pf 0 0 ⟨false, [], []⟩ none, .bar4Access .pf 0 2 ⟨false, [], []⟩ (some [1]), .bar4Access .pf (2 ^ 37) 1 ⟨false, [], []⟩ none, .owningFunctionChange true 9, .msixUnmask (.vf 8) .function,
      .busMasterEnable (.vf 8), .ideIntegrityFail 8, .ideKm .clear ⟨8, List.replicate 32 0⟩, .ideKm .clear ⟨0, []⟩, .getCertificate .clear 8 0 1, .keyExchange .clear [], .challenge .clear 8 (List.replicate 32 0),
      .challenge .clear 0 [], .getMeasurements .clear 256 (List.replicate 32 0), .data 2 (frameOf 0 0 1 []), .data 0 (frameOf 0 0 1 [1]), .data 0 (frameOf 0 0 1 (List.replicate 2064 0)),
      .ack 0 (frameOf 16 0 1 []), .nak 0 (frameOf 2 2 1 []), .credit 0 (frameOf 3 0 256 []), .credit 0 (frameOf 3 0 0 []),
      .probe 2 (frameOf 4 0 1 []), .probeReply 2 (frameOf 5 0 1 []), .keyx 2 (frameOf 6 0 1 []) ⟨true, []⟩, .discover 2 (frameOf 7 0 1 []),
      .discover 0 { frameOf 7 0 1 [] with ctr := 2 ^ 48 }, .portLinkUp 2, .portDown 2 .phy, .replayTimeout 2, .ackTimer 2, .creditTimer 2,
      .rekeyThreshold 2, .portLocked 2, .keyxRetry 2, .xferReady 0 ⟨65536, 0⟩ 0, .passageRekey .pf 2,
      .passageEnable .pf 2 true].all (fun c => !c.wf) = true := by decide +kernel

theorem test_wf_refuses_management :
    [Instr.cpWatchdog 3, .cpRestartDone 3, .fwUpdate 0 (.watchdog 4), .thermalSample [50], .dripReplan [], .strapSample 16, .registerWrite .pf 0x1000000 4 ⟨0, goodTest, true⟩].all
      (fun c => !c.wf) = true := by decide +kernel

/-! ## Worked values of the spec -/

/-- spec/00: word 0 of a descriptor and its bytes in memory. -/
theorem test_descriptor_word : leBytes 4 0x000A0004 = [0x04, 0x00, 0x0A, 0x00] ∧ dOpcode [0x000A0004] = 4 := by decide +kernel

/-- spec/03, after R49: eight S3 elements. -/
theorem test_s3_packs : Fmt.s3.pack ([3, -1, -4, 0, 1, 2, -2, -3].map (tc 3)) = [0x3B, 0x11, 0xB9] := by decide +kernel

/-- spec/03, after R51: five trits in one byte. -/
theorem test_t1_packs : (Fmt.t1.pack (([1, -1, 0, 0, 1] ++ List.replicate 59 0).map (tc 2))).head? = some 0xC8 := by decide +kernel

/-- spec/13: the interleave of the block base 0xC00A0000 with 24 active channels, and of the next unit. -/
theorem test_dram_interleave :
    dramLoc (List.range 24) 0xC00A0000 = { chan := 23, block := 34959, unit := 9, offset := 143194368 } ∧
      (dramLoc (List.range 24) 0xC00A0100).chan = 0 := by decide +kernel

/-- spec/20: a cap of 30 W divided among the classes, and compute between PT0 and PT1. -/
theorem test_power_shares :
    classGrants 3000 800 [150, 2400, 200] = [150, 1950, 100] ∧
      shareOut 9 1950 [(0, 8, 5000), (1, 4, 5000)] = [(0, 1300), (1, 650)] := by decide +kernel

/-- spec/16: BAR4 of PT2's VF, which owns granules 10, 11 and 40. -/
theorem test_bar4_window :
    let s := { w0 with parts := w0.parts.set 2 { Part.absent with valid := true, granules := [10, 11, 40] } }
    s.bar4At (.vf 2) 0x1000 = some 0x280001000 ∧ s.bar4At (.vf 2) 0x80001000 = some 0xA00001000 ∧
      s.bar4At (.vf 2) 0xC0000000 = none := by decide +kernel

/-- spec/23: the registers of QP9 of PT2 as the writes of the example leave them. -/
theorem test_qp_registers :
    let q := (((((Qp.reset.writeReg 0 0x34567000).writeReg 4 0x12).writeReg 8 0x34568000).writeReg 0xC 0x12).writeReg 0x10
      0x544).writeReg 0x14 0x3204
    q.sqBase = 0x1234567000 ∧ q.cqBase = 0x1234568000 ∧ q.sqLog = 4 ∧ q.cqLog = 4 ∧ q.vector = 5 ∧ q.modCount = 4 ∧
      q.modTime = 50 := by decide +kernel

/-- spec/03, after R60: conversions from FP32 to F8A, F4 and S4. -/
theorem test_conversions :
    (Fmt.f8a.conv false 0 (Fmt.bf16.val 0x4396)).1 = 0x79 ∧ (Fmt.f8a.conv false 0 (Fmt.bf16.val 0x4398)).1 = 0x7A ∧
      Fmt.f8a.conv false 0 (Fmt.bf16.val 0x43E6) = (0x7E, true) ∧ (Fmt.f4.conv false 0 (Fmt.bf16.val 0x4020)).1 = 4 ∧
      (Fmt.f4.conv false 0 (Fmt.bf16.val 0x40A0)).1 = 6 ∧ Fmt.f4.conv false 0 (Fmt.bf16.val 0x40E0) = (7, true) ∧
      (Fmt.s4.conv false 0 (Fmt.bf16.val 0xC060)).1 = 0xC := by decide +kernel


end Sys2Proof.Tests
end

section
/-! SUPPORT. REGISTER_WRITE and the register map (R430 to R443): one rule for the access, one for each block's place in the
map, one for each kind of register; the statement RegistersHoldWhatIsWritten is assembled from them. -/

namespace Sys2Proof.Machine

variable {s : State} {fn : Fn} {o v n : Nat} {value : BitVec 64} {f : SelfTest} {ok : Bool}

/-- The numbers of units that the registers of the map stand for. -/
structure MapCounts (s : State) : Prop where
  qps : s.qps.length = 64
  parts : s.parts.length = 8
  engines : s.engines.length = 32
  chans : s.dram.chans.length = 24
  dports : s.dram.ports.length = 44
  pports : s.passage.ports.length = 2

theorem shaped_counts (h : s.shaped = true) : MapCounts s := by
  simp only [State.shaped, Bool.and_eq_true, beq_iff_eq] at h
  exact ⟨by omega, by omega, by omega, by omega, by omega, by omega⟩

/-! ## The access (R430, R432) -/

theorem exec_registerWrite_word (hs : s.reaches fn = true) (ho : o % 4 = 0) :
    exec (.registerWrite fn o 4 ⟨value, f, ok⟩) s = .next (s.regWrite fn o (value.toNat % 2 ^ 32) f ok) := by
  simp [exec, execRegisterWrite, hs, ho]

/-- The lower address is written first. -/
theorem exec_registerWrite_pair (hs : s.reaches fn = true) (ho : o % 8 = 0) :
    exec (.registerWrite fn o 8 ⟨value, f, ok⟩) s =
      .next ((s.regWrite fn o (value.toNat % 2 ^ 32) f ok).regWrite fn (o + 4) (value.toNat / 2 ^ 32) f ok) := by
  simp [exec, execRegisterWrite, hs, ho]

theorem exec_registerWrite_ignored {size : Nat}
    (h : ¬(size = 4 ∧ o % 4 = 0) ∧ ¬(size = 8 ∧ o % 8 = 0)) :
    exec (.registerWrite fn o size ⟨value, f, ok⟩) s = .next s := by
  simp [exec, execRegisterWrite, h.1, h.2]

/-- A word write that its register does not take changes nothing, wherever it comes from. -/
theorem exec_registerWrite_of_kept (h : s.regWrite fn o (value.toNat % 2 ^ 32) f ok = s) :
    exec (.registerWrite fn o 4 ⟨value, f, ok⟩) s = .next s := by
  by_cases hs : s.reaches fn = true
  · by_cases ho : o % 4 = 0
    · rw [exec_registerWrite_word hs ho, h]
    · exact exec_registerWrite_ignored ⟨fun e => ho e.2, fun e => absurd e.1 (by decide)⟩
  · simp [exec, execRegisterWrite, hs]

theorem answers_pf_word {P : State → Prop} (hs : s.reaches .pf = true) (ho : o % 4 = 0)
    (h : P (s.pfWrite o (value.toNat % 2 ^ 32) f ok)) :
    answers (.registerWrite .pf o 4 ⟨value, f, ok⟩) s P :=
  ⟨_, exec_registerWrite_word hs ho, h⟩

theorem answers_pf_pair {P : State → Prop} (hs : s.reaches .pf = true) (ho : o % 8 = 0)
    (h : P ((s.pfWrite o (value.toNat % 2 ^ 32) f ok).pfWrite (o + 4) (value.toNat / 2 ^ 32) f ok)) :
    answers (.registerWrite .pf o 8 ⟨value, f, ok⟩) s P :=
  ⟨_, exec_registerWrite_pair hs ho, h⟩

theorem vf_write_outside_queues_kept {w : Nat} (h : o < 0x10000 ∨ 0x11000 ≤ o) : s.regWrite (.vf w) o v f ok = s :=
  if_neg (by omega)

/-! ## Where each block lies in the map -/

theorem place_in_map {b r : Nat} (hr : r < 0x10000) (ho : o = 0x10000 * b + r) : o / 0x10000 = b ∧ o % 0x10000 = r := by
  omega

theorem pfWrite_global (ho : o < 0x10000) : s.pfWrite o v f ok = s.writeGlobal o v f := by
  rw [State.pfWrite, if_neg (by omega)]
  simp only [Nat.div_eq_of_lt ho]

theorem pfWrite_queues {r : Nat} (hn : n < 64) (hr : r < 0x40) (ho : o = 0x10000 + 0x40 * n + r) :
    s.pfWrite o v f ok = s.writeQp .pf n r v := by
  have hb : o / 0x10000 = 1 := by omega
  have hq : (o - 0x10000) / 0x40 = n := by omega
  have hm : o % 0x40 = r := by omega
  rw [State.pfWrite, if_neg (by omega), hb, hq, hm]
  exact if_pos (by omega)

theorem pfRead_queues {r : Nat} (hn : n < 64) (hr : r < 0x40) (ho : o = 0x10000 + 0x40 * n + r) :
    s.pfRead o = s.readQp .pf n r := by
  have hb : o / 0x10000 = 1 := by omega
  have hq : (o - 0x10000) / 0x40 = n := by omega
  have hm : o % 0x40 = r := by omega
  rw [State.pfRead, if_neg (by omega), hb, hq, hm]
  exact if_pos (by omega)

theorem pfWrite_partitions {r : Nat} (hr : r < 0x10000) (ho : o = 0x20000 + r) :
    s.pfWrite o v f ok = s.writePart r v := by
  obtain ⟨hb, hm⟩ := place_in_map (b := 2) hr ho
  rw [State.pfWrite, if_neg (by omega)]
  simp only [hb, hm]

theorem pfWrite_dram {r : Nat} (hr : r < 0x10000) (ho : o = 0x40000 + r) : s.pfWrite o v f ok = s.writeDram r v := by
  obtain ⟨hb, hm⟩ := place_in_map (b := 4) hr ho
  rw [State.pfWrite, if_neg (by omega)]
  simp only [hb, hm]

theorem pfRead_dram {r : Nat} (hr : r < 0x10000) (ho : o = 0x40000 + r) : s.pfRead o = s.readDram r := by
  obtain ⟨hb, hm⟩ := place_in_map (b := 4) hr ho
  rw [State.pfRead, if_neg (by omega)]
  simp only [hb, hm]

theorem pfWrite_flash {r : Nat} (hr : r < 0x10000) (ho : o = 0x50000 + r) : s.pfWrite o v f ok = s.writeFlash r v := by
  obtain ⟨hb, hm⟩ := place_in_map (b := 5) hr ho
  rw [State.pfWrite, if_neg (by omega)]
  simp only [hb, hm]

theorem pfRead_flash {r : Nat} (hr : r < 0x10000) (ho : o = 0x50000 + r) : s.pfRead o = s.readFlash r := by
  obtain ⟨hb, hm⟩ := place_in_map (b := 5) hr ho
  rw [State.pfRead, if_neg (by omega)]
  simp only [hb, hm]

theorem pfWrite_passage {r : Nat} (hr : r < 0x10000) (ho : o = 0x70000 + r) :
    s.pfWrite o v f ok = s.writePassage r v := by
  obtain ⟨hb, hm⟩ := place_in_map (b := 7) hr ho
  rw [State.pfWrite, if_neg (by omega)]
  simp only [hb, hm]

theorem pfWrite_engine {e r : Nat} (he : e < 32) (hr : r < 0x1000) (ho : o = 0x100000 + 0x1000 * e + r) :
    s.pfWrite o v f ok = s.modEng e fun g => g.writeReg r v := by
  have hq : (o - 0x100000) / 0x1000 = e := by omega
  have hm : o % 0x1000 = r := by omega
  rw [State.pfWrite, if_pos (by omega), hq, hm]

theorem regRead_pf (ho : o % 4 = 0) : s.regRead .pf o = s.pfRead o := by
  simp [State.regRead, ho]

/-! ## Fields, counters and pairs -/

/-- A field of a 32-bit register sees the low word of the data alone (2 ^ 32 as simp writes it). -/
theorem bits_word {hi lo : Nat} (h : hi < 32) (hl : lo ≤ hi) :
    bits hi lo (v % 4294967296) = v / 2 ^ lo % 2 ^ (hi + 1 - lo) := by
  have e : 4294967296 = 2 ^ lo * 2 ^ (32 - lo) := by
    rw [← pow_add, Nat.add_sub_cancel' (by omega)]
    rfl
  rw [bits, e, Nat.mod_mul_right_div_self, Nat.mod_mod_of_dvd _ (pow_dvd_pow 2 (by omega))]

/-- All ones clear a 32-bit counter (R5, R434). -/
theorem w1c_all_ones {x : Nat} (h : x < 2 ^ 32) : w1c x 0xFFFFFFFF = 0 := by
  rw [w1c, show 0xFFFFFFFF = 2 ^ 32 - 1 by rfl, Nat.and_two_pow_sub_one_eq_mod, Nat.mod_eq_of_lt h, Nat.sub_self]

/-- A 64-bit address written as a pair: the granule of its low word, and 16 bits of its high word. -/
theorem commitPair_written (cur x : Nat) :
    commitPair cur (some (x % 2 ^ 32 - x % 2 ^ 32 % 4096)) (x / 2 ^ 32) = (x - x % 4096) % 2 ^ 48 := by
  simp only [commitPair, Option.getD_some, bits]
  omega

/-! ## Queue pairs (R433, R438) -/

/-- A list is as it was where the change keeps the element. -/
theorem modify_fixed {α : Type} (l : List α) (d : α) (g : α → α) (h : g (l.getD n d) = l.getD n d) : l.modify n g = l := by
  refine List.ext_getElem (by simp) fun i _ hi => ?_
  rw [List.getElem_modify]
  split
  next e =>
    subst e
    rwa [List.getD_eq_getElem _ _ hi] at h
  next => rfl

theorem State.modQp_fixed {g : Qp → Qp} (h : g (s.qp n) = s.qp n) : s.modQp n g = s := by
  rw [State.modQp, modify_fixed _ _ _ h]

theorem State.modPart_fixed {g : Part → Part} (h : g (s.part n) = s.part n) : s.modPart n g = s := by
  rw [State.modPart, modify_fixed _ _ _ h]

/-- Through the PF every register of a queue pair's set but QP_CTL is a matter of the queue pair alone. -/
theorem writeQp_pf (hn : n < 64) (hs : s.reaches .pf = true) (ho : o ≠ 0x18) :
    s.writeQp .pf n o v = s.modQp n fun q => q.writeReg o v := by
  simp [State.writeQp, State.qpWritable, hs, hn, ho]

/-- The registers that are frozen while a queue pair is enabled. -/
def frozenOffset (o : Nat) : Prop := o = 0 ∨ o = 4 ∨ o = 8 ∨ o = 0xC ∨ o = 0x10

theorem Qp.writeReg_frozen (q : Qp) (ho : frozenOffset o) : q.writeReg o v = if q.enabled then q else q.writeFrozen o v := by
  rcases ho with rfl | rfl | rfl | rfl | rfl <;> rfl

theorem Qp.writeReg_enabled {q : Qp} (hq : q.enabled = true) (ho : frozenOffset o) : q.writeReg o v = q := by
  rw [q.writeReg_frozen ho, if_pos hq]

theorem Qp.writeReg_disabled {q : Qp} (hq : q.enabled = false) (ho : frozenOffset o) : q.writeReg o v = q.writeFrozen o v := by
  rw [q.writeReg_frozen ho, if_neg (by simp [hq])]

/-- A write to a frozen register of a disabled queue pair, as the queue pair shows it. -/
theorem qp_pfWrite_disabled {r : Nat} (hl : s.qps.length = 64) (hn : n < 64) (hs : s.reaches .pf = true)
    (hq : (s.qp n).enabled = false) (hr : frozenOffset r) (ho : o = 0x10000 + 0x40 * n + r) :
    (s.pfWrite o v f ok).qp n = (s.qp n).writeFrozen r v := by
  have hb : r < 0x40 ∧ r ≠ 0x18 := by unfold frozenOffset at hr; omega
  rw [pfWrite_queues hn hb.1 ho, writeQp_pf hn hs hb.2, State.qp_modQp_same s _ (by omega), Qp.writeReg_disabled hq hr]

theorem reaches_modQp (g : Qp → Qp) : (s.modQp n g).reaches fn = s.reaches fn := rfl

/-- A base pair written as one 64-bit access: the low half is held and the high half commits it (R433). -/
theorem qp_base_pair_written (hl : s.qps.length = 64) (hn : n < 64) (hs : s.reaches .pf = true)
    (hq : (s.qp n).enabled = false) (ho : o = 0x10000 + 0x40 * n) (lo hi : Nat) :
    ((s.pfWrite o lo f ok).pfWrite (o + 4) hi f ok).qp n =
      { s.qp n with sqBase := commitPair (s.qp n).sqBase (some (lo - lo % 4096)) hi, sqHeld := none } := by
  have first : (s.pfWrite o lo f ok).qp n = (s.qp n).writeFrozen 0 lo :=
    qp_pfWrite_disabled hl hn hs hq (.inl rfl) ho
  have link : s.pfWrite o lo f ok = s.modQp n fun q => q.writeReg 0 lo := by
    rw [pfWrite_queues hn (r := 0) (by decide) ho, writeQp_pf hn hs (by decide)]
  rw [qp_pfWrite_disabled (r := 4) (by simp [link, hl]) hn (by rw [link, reaches_modQp, hs]) (by rw [first]; exact hq)
    (.inr (.inl rfl)) (by omega), first]
  rfl

theorem readQp_pf_sqBase : s.readQp .pf n 0 = (s.qp n).sqBase % 2 ^ 32 := rfl

theorem readQp_pf_drops : s.readQp .pf n 0x24 = if s.conf (s.qp n).part then 0 else (s.qp n).drops := rfl

/-! ## The sets of the partitions, ports and engines -/

theorem writePart_set {p r : Nat} (hp : p < 8) (hr : r < 0x100) (hs : s.dev.ready = true) :
    s.writePart (0x1000 + 0x100 * p + r) v =
      if (s.part p).valid then s.modPart p fun q => q.writeReg s.dev.partLock r v else s := by
  have hq : (0x1000 + 0x100 * p + r - 0x1000) / 0x100 = p := by omega
  have hm : (0x1000 + 0x100 * p + r) % 0x100 = r := by omega
  have hi : 0x1000 ≤ 0x1000 + 0x100 * p + r ∧ 0x1000 + 0x100 * p + r < 0x1800 := by omega
  rw [State.writePart, if_neg (by simp [hs]), if_neg (by omega), if_neg (by omega), hq, hm]
  simp [hi.1, hi.2]

theorem writePart_not_ready (hs : s.dev.ready = false) : s.writePart o v = s := by
  simp [State.writePart, hs]

/-- The pool and tier registers of a valid partition on a READY device. -/
theorem part_pfWrite_set {p r : Nat} (hl : s.parts.length = 8) (hp : p < 8) (hr : r < 0x100) (hs : s.dev.ready = true)
    (hv : (s.part p).valid = true) (ho : o = 0x21000 + 0x100 * p + r) :
    (s.pfWrite o v f ok).part p = (s.part p).writeReg s.dev.partLock r v := by
  rw [pfWrite_partitions (r := 0x1000 + 0x100 * p + r) (by omega) (by omega), writePart_set hp hr hs, if_pos hv,
    State.part_modPart_same s _ (by omega)]

/-- The pool and tier registers before READY or under PART_LOCK. -/
theorem pfWrite_part_set_closed {p r : Nat} (hp : p < 8) (h : s.dev.ready = false ∨ s.dev.partLock = true)
    (hr : r = 4 ∨ r = 8) (ho : o = 0x21000 + 0x100 * p + r) : s.pfWrite o v f ok = s := by
  rw [pfWrite_partitions (r := 0x1000 + 0x100 * p + r) (by omega) (by omega)]
  cases ready : s.dev.ready with
  | false => exact writePart_not_ready ready
  | true =>
    have locked : s.dev.partLock = true := h.resolve_left (by simp [ready])
    rw [writePart_set hp (by omega) ready, locked]
    split
    next => exact State.modPart_fixed (by rcases hr with rfl | rfl <;> rfl)
    next => rfl

theorem writeDram_target (hn : n < 44) (hs : s.dev.dramLock = false) :
    s.writeDram (0x200 + 4 * n) v = s.modDport n fun p => { p with targetNs := max 100 (bits 15 0 v) } := by
  have hq : (0x200 + 4 * n - 0x200) / 4 = n := by omega
  unfold State.writeDram
  rw [if_pos (by omega), if_neg (by simp [hs]), hq]

theorem writeDram_corrected (hn : n < 24) :
    s.writeDram (0x300 + 4 * n) v = s.modChan n fun c => { c with corrected := w1c c.corrected v } := by
  have hq : (0x300 + 4 * n - 0x300) / 4 = n := by omega
  unfold State.writeDram
  rw [if_neg (by omega), if_pos (by omega), hq]

theorem readDram_corrected (hn : n < 24) : s.readDram (0x300 + 4 * n) = (s.chan n).corrected := by
  have hq : (0x300 + 4 * n - 0x300) / 4 = n := by omega
  unfold State.readDram
  rw [if_neg (by omega), if_pos (by omega), hq]

theorem writeFlash_corrected (hn : n < 16) :
    s.writeFlash (0x200 + 4 * n) v =
      { s with flash := { s.flash with corrected := s.flash.corrected.modify n fun x => w1c x v } } := by
  have hq : (0x200 + 4 * n - 0x200) / 4 = n := by omega
  rw [State.writeFlash, if_neg (by omega), if_pos (by omega), hq]

theorem readFlash_corrected (hn : n < 16) : s.readFlash (0x200 + 4 * n) = s.flash.corrected.getD n 0 := by
  have hq : (0x200 + 4 * n - 0x200) / 4 = n := by omega
  unfold State.readFlash
  rw [if_neg (by omega), if_pos (by omega), hq]

theorem writePassage_pin {k : Nat} (hn : n < 2) (hk : k < 12) :
    s.writePassage (0x110 + 0x100 * n + 4 * k) v = s.modPport n fun p => { p with pin := p.pin.set k (BitVec.ofNat 32 v) } := by
  have hq : (0x110 + 0x100 * n + 4 * k - 0x100) / 0x100 = n := by omega
  have hm : (0x110 + 0x100 * n + 4 * k) % 0x100 = 0x10 + 4 * k := by omega
  have hw : (0x10 + 4 * k - 0x10) / 4 = k := by omega
  rw [State.writePassage, if_neg (by omega), if_pos (by omega), hq, hm, State.writePort, if_neg (by omega),
    if_pos (by omega), hw]

/-! ## Counters that a write of ones clears (R5, R434) -/

theorem getD_modify_cleared (l : List Nat) (g : Nat → Nat) (h : g (l.getD n 0) = 0) : (l.modify n g).getD n 0 = 0 := by
  by_cases hn : n < l.length
  · rw [getD_modify_same l 0 g hn, h]
  · exact List.getD_eq_default _ _ (by rw [List.length_modify]; omega)

/-- Where the partition is confidential the register reads 0 before and after (R360). -/
theorem qpDrops_cleared (hl : s.qps.length = 64) (hn : n < 64) (hs : s.reaches .pf = true)
    (ho : o = 0x10000 + 0x40 * n + 0x24) (h : s.pfRead o < 2 ^ 32) : (s.pfWrite o 0xFFFFFFFF f ok).pfRead o = 0 := by
  have reg : s.pfWrite o 0xFFFFFFFF f ok = s.modQp n fun q => { q with drops := w1c q.drops 0xFFFFFFFF } := by
    rw [pfWrite_queues hn (by decide) ho, writeQp_pf hn hs (by decide)]
    rfl
  rw [pfRead_queues hn (by decide) ho, readQp_pf_drops] at h ⊢
  rw [reg, State.qp_modQp_same s _ (by omega)]
  change (if s.conf (s.qp n).part then 0 else w1c (s.qp n).drops 0xFFFFFFFF) = 0
  split
  next => rfl
  next visible => exact w1c_all_ones (by rwa [if_neg visible] at h)

theorem chanCorrected_cleared (hl : s.dram.chans.length = 24) (hn : n < 24) (ho : o = 0x40300 + 4 * n)
    (h : s.pfRead o < 2 ^ 32) : (s.pfWrite o 0xFFFFFFFF f ok).pfRead o = 0 := by
  have hr : 0x300 + 4 * n < 0x10000 ∧ o = 0x40000 + (0x300 + 4 * n) := by omega
  rw [pfRead_dram hr.1 hr.2, readDram_corrected hn] at h ⊢
  rw [pfWrite_dram hr.1 hr.2, writeDram_corrected hn, State.chan_modChan_same s _ (by omega)]
  exact w1c_all_ones h

theorem flashCorrected_cleared (hn : n < 16) (ho : o = 0x50200 + 4 * n)
    (h : s.pfRead o < 2 ^ 32) : (s.pfWrite o 0xFFFFFFFF f ok).pfRead o = 0 := by
  have hr : 0x200 + 4 * n < 0x10000 ∧ o = 0x50000 + (0x200 + 4 * n) := by omega
  rw [pfRead_flash hr.1 hr.2, readFlash_corrected hn] at h ⊢
  rw [pfWrite_flash hr.1 hr.2, writeFlash_corrected hn]
  exact getD_modify_cleared _ _ (w1c_all_ones h)

/-- The saturation counters of the Siphon, the intake and Echo, FAULT_LOST and TRACE_LOST. -/
theorem blockCounter_cleared (ho : o ∈ [0x60040, 0x8000C, 0x90014, 0xA0010, 0xB0010]) (h : s.pfRead o < 2 ^ 32) :
    (s.pfWrite o 0xFFFFFFFF f ok).pfRead o = 0 := by
  simp only [List.mem_cons, List.not_mem_nil, or_false] at ho
  rcases ho with rfl | rfl | rfl | rfl | rfl <;> exact w1c_all_ones h

/-! ## Identity and the registers that act as a command (R439, R443) -/

theorem writeGlobal_identity (ho : o = 0 ∨ o = 4 ∨ (0x40 ≤ o ∧ o < 0x50)) : s.writeGlobal o v f = s := by
  have h : o ≠ 0x10 ∧ o ≠ 0x14 ∧ o ≠ 0x18 ∧ o ≠ 0x20 := by omega
  simp [State.writeGlobal, h]

theorem regWrite_identity (ho : o = 0 ∨ o = 4 ∨ (0x40 ≤ o ∧ o < 0x50)) : s.regWrite fn o v f ok = s := by
  cases fn with
  | pf => exact (pfWrite_global (by omega)).trans (writeGlobal_identity ho)
  | vf w => exact vf_write_outside_queues_kept (by omega)

theorem exec_deviceCtl (hs : s.reaches .pf = true) :
    exec (.registerWrite .pf 0x14 4 ⟨value, f, ok⟩) s = .next (s.writeDeviceCtl (value.toNat % 2 ^ 32) f) :=
  exec_registerWrite_word hs (by decide)

theorem exec_bootCtl (hs : s.reaches .pf = true) (hv : bit 0 (value.toNat % 2 ^ 32) = true) :
    exec (.registerWrite .pf 0x20000C 4 ⟨value, f, ok⟩) s = exec (.cpBootGo .pf ok) s := by
  rw [exec_registerWrite_word hs (by decide)]
  change Host.Outcome.next (if bit 0 (value.toNat % 2 ^ 32) then s.bootGo ok else s) =
    .next (if Fn.pf == Fn.pf && s.reaches .pf then s.bootGo ok else s)
  rw [hv, hs]
  rfl

theorem writeDeviceCtl_warmReset (hs : s.reaches .pf = true) (hv : v % 8 = 1) :
    .next (s.writeDeviceCtl v f) = exec (.warmReset .pf f) s := by
  simp [State.writeDeviceCtl, hv, exec, execWarmReset, hs]

theorem writeDeviceCtl_fullReset (hs : s.reaches .pf = true) (hv : v % 8 = 2) :
    .next (s.writeDeviceCtl v f) = exec (.fullReset .pf f) s := by
  simp [State.writeDeviceCtl, hv, exec, execFullReset, hs]

theorem writeDeviceCtl_shutdown (hs : s.reaches .pf = true) (hv : v % 8 = 4) :
    .next (s.writeDeviceCtl v f) = exec (.shutdown .pf) s := by
  simp [State.writeDeviceCtl, hv, exec, execShutdown, hs]

/-! ## The statement -/

/-- Settles O56: each clause is the access rule, then the block's place in the map, then the register's own rule. -/
theorem registersHoldWhatIsWritten : Obligations.RegistersHoldWhatIsWritten := by
  unfold Obligations.RegistersHoldWhatIsWritten
  refine ⟨?bar4Open, ?bar4Locked, ?qpCfg, ?qpEnabled, ?basePair, ?baseLow, ?partOpen, ?partClosed, ?dramTarget, ?pin,
    ?gateIdle, ?window, ?passageId, ?ramp, ?counters, ?ignored, ?vfOutside, ?actions, ?atReset⟩
  case bar4Open =>
    intro value f ok s hs unlocked
    have reg : s.pfWrite 0x20 (value.toNat % 2 ^ 32) f ok =
        { s with dev := { s.dev with bar4Base := min 95 (value.toNat % 128) } } := by
      rw [pfWrite_global (by decide)]
      simp [State.writeGlobal, unlocked, bits]
    exact answers_pf_word hs (by decide) (by rw [reg]; exact ⟨rfl, rfl⟩)
  case bar4Locked =>
    intro value f ok s hs locked
    refine answers_pf_word hs (by decide) ?_
    rw [pfWrite_global (by decide)]
    exact if_pos locked
  case qpCfg =>
    intro n value f ok s shaped hn hs disabled
    refine answers_pf_word hs (by omega) ?_
    rw [qp_pfWrite_disabled (shaped_counts shaped).qps hn hs disabled (r := 0x10) (by simp [frozenOffset]) (by omega)]
    simp [Qp.writeFrozen, Qp.writeCfg, bits_word]
  case qpEnabled =>
    intro n o value f ok s hn hs enabled ho
    refine exec_registerWrite_of_kept ?_
    have hr : o < 0x40 ∧ o ≠ 0x18 := by omega
    change s.pfWrite _ _ f ok = s
    rw [pfWrite_queues hn hr.1 rfl, writeQp_pf hn hs hr.2]
    exact State.modQp_fixed (Qp.writeReg_enabled enabled ho)
  case basePair =>
    intro n value f ok s shaped hn hs disabled
    refine answers_pf_pair hs (by omega) ?_
    rw [qp_base_pair_written (shaped_counts shaped).qps hn hs disabled rfl]
    exact ⟨commitPair_written _ _, rfl⟩
  case baseLow =>
    intro n value f ok s shaped hn hs disabled
    have ho : (0x10000 + 0x40 * n) % 4 = 0 := by omega
    refine answers_pf_word hs ho ?_
    have shown (t : State) : t.regRead .pf (0x10000 + 0x40 * n) = (t.qp n).sqBase % 2 ^ 32 := by
      rw [regRead_pf ho, pfRead_queues hn (r := 0) (by decide) (by omega), readQp_pf_sqBase]
    rw [shown, shown, qp_pfWrite_disabled (shaped_counts shaped).qps hn hs disabled (r := 0) (.inl rfl) (by omega)]
    exact ⟨rfl, rfl⟩
  case partOpen =>
    intro p value f ok s shaped hp hs ready unlocked valid
    have reg (r : Nat) (hr : r < 0x100) (o : Nat) (ho : o = 0x21000 + 0x100 * p + r) :=
      part_pfWrite_set (v := value.toNat % 2 ^ 32) (f := f) (ok := ok) (shaped_counts shaped).parts hp hr ready valid ho
    refine ⟨answers_pf_word hs (by omega) ?_, answers_pf_word hs (by omega) ?_⟩
    · rw [reg 4 (by decide) _ (by omega), unlocked]
      simp [Part.writeReg, bits_word]
    · rw [reg 8 (by decide) _ (by omega), unlocked]
      simp [Part.writeReg, bits_word]
  case partClosed =>
    intro p value f ok s closed hp
    exact ⟨exec_registerWrite_of_kept (pfWrite_part_set_closed hp closed (.inl rfl) (by omega)),
      exec_registerWrite_of_kept (pfWrite_part_set_closed hp closed (.inr rfl) (by omega))⟩
  case dramTarget =>
    intro n value f ok s shaped hs hn unlocked
    refine answers_pf_word hs (by omega) ?_
    rw [pfWrite_dram (r := 0x200 + 4 * n) (by omega) (by omega), writeDram_target hn unlocked,
      State.dport_modDport_same s _ (by rw [(shaped_counts shaped).dports]; exact hn)]
    simp [bits_word]
  case pin =>
    intro n k value f ok s shaped hs hn hk pins
    refine answers_pf_word hs (by omega) ?_
    rw [pfWrite_passage (r := 0x110 + 0x100 * n + 4 * k) (by omega) (by omega), writePassage_pin hn hk,
      State.pport_modPport_same s _ (by rw [(shaped_counts shaped).pports]; exact hn)]
    simp [List.getD_eq_getElem?_getD, pins, hk]
  case gateIdle => exact fun value f ok s hs => answers_pf_word hs (by decide) rfl
  case window =>
    intro value f ok s hs
    refine answers_pf_word hs (by decide) ?_
    change min 4000 (bits 12 0 _) = _
    simp [bits_word]
  case passageId =>
    intro value f ok s hs
    refine answers_pf_word hs (by decide) ?_
    change bits 15 0 _ = _ ∧ bits 23 16 _ = _
    simp [bits_word]
  case ramp =>
    intro e value f ok s shaped hs he
    refine answers_pf_word hs (by omega) ?_
    rw [pfWrite_engine he (r := 0) (by decide) (by omega),
      State.eng_modEng_same s _ (by rw [(shaped_counts shaped).engines]; exact he)]
    simp [Engine.writeReg, bits_word]
  case counters =>
    intro n o f ok s shaped hs ho h
    have aligned : o % 4 = 0 := by
      simp only [List.mem_cons, List.not_mem_nil, or_false] at ho
      omega
    refine answers_pf_word hs aligned ?_
    rw [regRead_pf aligned] at h ⊢
    change (s.pfWrite o 0xFFFFFFFF f ok).pfRead o = 0
    rcases ho with ho | ⟨hn, ho⟩ | ⟨hn, ho⟩ | ⟨hn, ho⟩
    · exact blockCounter_cleared ho h
    · exact qpDrops_cleared (shaped_counts shaped).qps hn hs (by omega) h
    · exact chanCorrected_cleared (shaped_counts shaped).chans hn ho h
    · exact flashCorrected_cleared hn ho h
  case ignored =>
    intro fn o size value f ok s h
    rcases h with h | h | h | ⟨rfl, ho⟩
    · exact exec_registerWrite_ignored (by omega)
    · exact exec_registerWrite_ignored (by omega)
    · exact exec_registerWrite_ignored (by omega)
    · exact exec_registerWrite_of_kept (regWrite_identity ho)
  case vfOutside =>
    exact fun w o value f ok s ho => exec_registerWrite_of_kept (vf_write_outside_queues_kept ho)
  case actions =>
    intro value f ok s hs
    rw [exec_deviceCtl hs]
    exact ⟨writeDeviceCtl_warmReset hs, writeDeviceCtl_fullReset hs, writeDeviceCtl_shutdown hs, exec_bootCtl hs⟩
  case atReset => decide +kernel

end Sys2Proof.Machine
end

section
/-! SUPPORT. What `Keeps` says of one part of the state, where BAR2 puts a doorbell (R20, R323), the precedence of statuses (R36),
and how an occurrence is reported (R410 to R412). -/

namespace Sys2Proof.Machine

variable {s t : State} {n m : Nat} {fn : Fn}

/-! ## A part of the state that an operation does not touch -/

section
variable {may : Touch} (h : Keeps ⟨may, s⟩ t)
include h

theorem Keeps.now_eq (hm : may.tNow = false) : t.now = s.now := by rw [h.only]; simp [Touch.ow, hm]
theorem Keeps.dev_eq (hm : may.tDev = false) : t.dev = s.dev := by rw [h.only]; simp [Touch.ow, hm]
theorem Keeps.qps_eq (hm : may.tQps = false) : t.qps = s.qps := by rw [h.only]; simp [Touch.ow, hm]
theorem Keeps.jobs_eq (hm : may.tJobs = false) : t.jobs = s.jobs := by rw [h.only]; simp [Touch.ow, hm]
theorem Keeps.link_eq (hm : may.tLink = false) : t.link = s.link := by rw [h.only]; simp [Touch.ow, hm]
theorem Keeps.faults_eq (hm : may.tFaults = false) : t.faults = s.faults := by rw [h.only]; simp [Touch.ow, hm]
theorem Keeps.engines_eq (hm : may.tEngines = false) : t.engines = s.engines := by rw [h.only]; simp [Touch.ow, hm]
theorem Keeps.parts_eq (hm : may.tParts = false) : t.parts = s.parts := by rw [h.only]; simp [Touch.ow, hm]
theorem Keeps.seqs_eq (hm : may.tSeqs = false) : t.seqs = s.seqs := by rw [h.only]; simp [Touch.ow, hm]
theorem Keeps.mems_eq (hm : may.tMems = false) : t.mems = s.mems := by rw [h.only]; simp [Touch.ow, hm]
theorem Keeps.trace_eq (hm : may.tTrace = false) : t.trace = s.trace := by rw [h.only]; simp [Touch.ow, hm]
theorem Keeps.replay_eq (hm : may.tReplay = false) : t.replay = s.replay := by rw [h.only]; simp [Touch.ow, hm]

theorem Keeps.qp_eq (hm : may.tQps = false) (n : Nat) : t.qp n = s.qp n := by rw [State.qp, State.qp, h.qps_eq hm]

end

/-- More parts may change. -/
theorem Keeps.widen {g f : Touch} (h : Keeps ⟨g, s⟩ t) (le : g.Le f) : Keeps ⟨f, s⟩ t :=
  ⟨le.ow h.only, h.canon, h.bounded, h.shaped⟩

theorem State.job?_uid {uid : Nat} {j : Job} (h : s.job? uid = some j) : j.uid = uid := by
  simpa using List.find?_some h

theorem State.job?_congr (h : t.jobs = s.jobs) (uid : Nat) : t.job? uid = s.job? uid := by rw [State.job?, State.job?, h]

theorem answers_of {c : Instr} {P : State → Prop} (h : exec c s = .next t) (p : P t) : answers c s P := ⟨t, h, p⟩

/-! ## Queue pairs -/

/-- No queue pair beyond the last one is enabled. -/
theorem State.enabled_in_range (h : (s.qp n).enabled = true) : n < s.qps.length := by
  by_contra hn
  rw [State.qp, List.getD_eq_default _ _ (by omega)] at h
  exact absurd h (by decide)

theorem State.enabled_of_not_slotRefused {p : Nat} (h : s.slotRefused fn p n = false) : (s.qp n).enabled = true := by
  simp only [State.slotRefused, Bool.or_eq_false_iff, Bool.not_eq_false'] at h
  obtain ⟨⟨⟨-, on⟩, -⟩, -⟩ := h
  exact on

/-! ## Where BAR2 puts a doorbell (R20, R323) -/

theorem bar2At_pf_doorbell_page {p o : Nat} (hp : p < 8) (ho : o < 0x1000) :
    bar2At .pf (p * 0x1000 + o) = if o < 0x200 then .ring p (o / 8) else .empty := by
  have page : (p * 0x1000 + o) / 0x1000 = p := by omega
  have place : (p * 0x1000 + o) % 0x1000 = o := by omega
  simp only [bar2At]
  rw [if_pos (by omega), page, place]

theorem bar2At_vf_doorbell_page {p o : Nat} (ho : o < 0x1000) :
    bar2At (.vf p) o = if o < 0x200 then .ring p (o / 8) else .empty := by
  simp only [bar2At]
  rw [if_pos ho]

theorem bar2At_pf_push {p n : Nat} (hp : p < 8) (hn : n < 64) :
    bar2At .pf (0x8000 + p * 0x1000 + 64 * n) = .push p n := by
  have page : (0x8000 + p * 0x1000 + 64 * n) / 0x1000 - 8 = p := by omega
  have slot : (0x8000 + p * 0x1000 + 64 * n) % 0x1000 / 64 = n := by omega
  simp only [bar2At]
  rw [if_neg (by omega), if_pos (by omega), page, slot]

theorem bar2At_vf_push {p n : Nat} (hn : n < 64) : bar2At (.vf p) (0x1000 + 64 * n) = .push p n := by
  have slot : (0x1000 + 64 * n) % 0x1000 / 64 = n := by omega
  simp only [bar2At]
  rw [if_neg (by omega), if_pos (by omega), slot]

/-- Settles O8: the page and the place in it are quotient and remainder of the offset. -/
theorem bar2PagesOfPartitions : Obligations.Bar2PagesOfPartitions := by
  unfold Obligations.Bar2PagesOfPartitions
  refine ⟨fun p n hp hn => ?slots, fun p o hp ho ho' => ?rest⟩
  case slots =>
    have low : 8 * n < 0x200 := by omega
    have num : 8 * n / 8 = n := by omega
    refine ⟨?_, bar2At_pf_push hp hn, ?_, bar2At_vf_push hn⟩
    · rw [bar2At_pf_doorbell_page hp (by omega), if_pos low, num]
    · rw [bar2At_vf_doorbell_page (by omega), if_pos low, num]
  case rest =>
    rw [bar2At_pf_doorbell_page hp ho', bar2At_vf_doorbell_page ho', if_neg (by omega)]
    exact ⟨rfl, rfl⟩

/-! ## The status of a record (R36) -/

/-- Settles O15: each clause is a branch of `finalStatus`, and a job's status is `finalStatus` of what it noted. -/
theorem completionStatusPrecedence : Obligations.CompletionStatusPrecedence := by
  unfold Obligations.CompletionStatusPrecedence
  refine ⟨fun err quality cancelled late => ⟨?_, ?_, ?_, ?_, ?_⟩, fun first later h => if_neg h, fun st => if_pos rfl,
    fun j now => rfl⟩
  · exact fun h => if_pos h
  · rintro rfl rfl
    rfl
  · rintro rfl rfl rfl
    rfl
  · rintro rfl rfl rfl h
    exact if_pos h
  · rintro rfl rfl rfl h
    exact if_neg (not_not.2 h)

/-! ## A fault record that has been raised (R410 to R412) -/

@[simp] theorem State.raiseMsix_faults (e : Nat) : (s.raiseMsix fn e).faults = s.faults := by
  simp only [State.raiseMsix]
  repeat' split
  all_goals simp

theorem enterFault_reported (r : FaultRec) (hr : r.lastTs = s.now) : (s.enterFault r).reported r.source r.cls := by
  simp only [State.enterFault]
  split
  next => exact .inr (.inr rfl)
  next =>
    refine .inl ⟨(s.faults.head, { r with afterLoss := s.faults.afterLoss }), by simp, rfl, rfl, ?_⟩
    rw [(raiseMsix_keeps (Touch.Le.refl _) (Keeps.refl _ _)).now_eq rfl]
    exact hr

/-- An occurrence ends in a record of its own, in the record that it folds into, or among those gathered. -/
theorem raise_reported (source cls detail : Nat) (part : Option Nat) (tag info : Nat) :
    (s.raise source cls detail part tag info).reported source cls := by
  simp only [State.raise]
  split
  next => exact enterFault_reported _ rfl
  split
  next => exact enterFault_reported _ rfl
  next i r found =>
    have here := List.mem_of_find?_eq_some found
    have ⟨hs, hc⟩ : r.source = source ∧ r.cls = cls := by simpa using List.find?_some found
    split
    next => exact enterFault_reported _ rfl
    split
    next => exact .inl ⟨(i, foldFault part s.now r), List.mem_map.2 ⟨(i, r), here, by simp⟩, hs, hc, rfl⟩
    next =>
      refine .inr (.inl ⟨_, List.mem_cons_self, ?_⟩)
      split
      next g held =>
        have ⟨⟨_, hgs⟩, hgc⟩ : (g.1 = r.firstTs + msTicks ∧ g.2.source = source) ∧ g.2.cls = cls := by
          simpa using List.find?_some held
        exact ⟨hgs, hgc, rfl⟩
      next => exact ⟨rfl, rfl, rfl⟩

theorem raise_qp (source cls detail : Nat) (part : Option Nat) (tag info n : Nat) :
    (s.raise source cls detail part tag info).qp n = s.qp n :=
  (raise_keeps (Touch.Le.refl _) (Keeps.refl _ _)).qp_eq rfl n

end Sys2Proof.Machine
end

section
/-! SUPPORT. Writes to BAR2 (R21 to R24), the vector of a queue pair (R46, R326), and enabling and disabling (R17, R38, R438):
one rule for each operation, then the statements on them. -/

namespace Sys2Proof.Machine

variable {s t : State} {n m : Nat} {fn : Fn}

/-! ## Writes to a doorbell or a push slot (R21 to R24) -/

theorem dropWrite_qp (hn : n < s.qps.length) :
    (s.dropWrite n).qp n = { s.qp n with drops := satInc top32 (s.qp n).drops 1 } := by
  rw [State.dropWrite, raise_qp, State.qp_modQp_same s _ hn]

theorem dropWrite_reported : (s.dropWrite n).reported 0x50 1 := raise_reported ..

section
variable {offset size p v : Nat} {push : Bool} {ws : List Nat}
  (hr : s.reaches fn = true) (hd : s.dev.ready = true)
include hr hd

theorem bar2Write_ring (hb : bar2At fn offset = .ring p n) :
    s.bar2Write fn offset size push v ws =
      if s.slotRefused fn p n || size != 8 || offset % 8 != 0 || push then s.dropWrite n else s.applyRing fn n v := by
  simp [State.bar2Write, hr, hd, hb]

theorem bar2Write_push (hb : bar2At fn offset = .push p n) :
    s.bar2Write fn offset size push v ws =
      if s.slotRefused fn p n || size != 64 || offset % 64 != 0 || !push ||
        decide (4 ≤ ((s.qp n).anns.filter Ann.isPush).length) then s.dropWrite n
      else s.modQp n fun q => { q with anns := q.anns ++ [.push ws s.now fn] } := by
  have isPush : (fun a : Ann => match a with
      | .push _ _ _ => true
      | .ring _ _ _ => false) = Ann.isPush := by
    funext a
    cases a <;> rfl
  simp only [State.bar2Write, hr, hd, hb, ← isPush]
  rfl

end

/-- The valid fields of a ring doorbell lie within their rings. -/
def ringFieldsFit (q : Qp) (v : Nat) : Prop :=
  (bit 16 v = true → bits 15 0 v < ringLen q.sqLog) ∧ (bit 48 v = true → bits 47 32 v < ringLen q.cqLog)

theorem ringFieldsFit_iff {q : Qp} {v : Nat} :
    ringFieldsFit q v ↔ ((bit 16 v && decide (ringLen q.sqLog ≤ bits 15 0 v)) ||
      (bit 48 v && decide (ringLen q.cqLog ≤ bits 47 32 v))) = false := by
  simp [ringFieldsFit]

theorem applyRing_refused {v : Nat} (h : ¬ringFieldsFit (s.qp n) v) : s.applyRing fn n v = s.dropWrite n := by
  rw [ringFieldsFit_iff, Bool.not_eq_false] at h
  exact if_pos h

theorem applyRing_qp {v : Nat} (hn : n < s.qps.length) (h : ringFieldsFit (s.qp n) v) :
    ((s.applyRing fn n v).qp n).sqTail = (if bit 16 v then bits 15 0 v else (s.qp n).sqTail) ∧
      ((s.applyRing fn n v).qp n).cqHead = (if bit 48 v then bits 47 32 v else (s.qp n).cqHead) ∧
      ((s.applyRing fn n v).qp n).sqHead = (s.qp n).sqHead ∧ ((s.applyRing fn n v).qp n).drops = (s.qp n).drops ∧
      ∀ m, m ≠ n → (s.applyRing fn n v).qp m = s.qp m := by
  rw [ringFieldsFit_iff] at h
  simp only [State.applyRing, h, Bool.false_eq_true, if_false]
  simp only [(tracePart_keeps (Touch.Le.refl _) (Keeps.refl _ _)).qp_eq rfl, State.qp_modQp_same s _ hn]
  refine ⟨?_, ?_, ?_, ?_, fun m hm => State.qp_modQp_other s _ hm.symm⟩ <;> cases bit 16 v <;> cases bit 48 v <;> rfl

/-- Settles O9: an accepted write is `applyRing` of the data, or one more pushed descriptor. -/
theorem doorbellWritesApplied : Obligations.DoorbellWritesApplied := by
  unfold Obligations.DoorbellWritesApplied
  refine ⟨fun fn offset p n value s hr hd hb ho accepted hs hc => ?ring,
    fun fn offset p n desc s hr hd hb ho accepted room => ?push⟩
  case ring =>
    refine answers_of rfl ?_
    rw [bar2Write_ring hr hd hb, if_neg (by simp [accepted, ho])]
    exact applyRing_qp (State.enabled_in_range (State.enabled_of_not_slotRefused accepted)) ⟨hs, hc⟩
  case push =>
    refine congrArg Host.Outcome.next ?_
    rw [bar2Write_push hr hd hb, if_neg (by simp [accepted, ho, room])]

theorem bar2Write_not_ready {offset size v : Nat} {push : Bool} {ws : List Nat} (hd : s.dev.ready = false) :
    s.bar2Write fn offset size push v ws = s := by
  simp [State.bar2Write, hd]

/-- Settles O10: every cause of R21 leads to `dropWrite`, which counts and reports. -/
theorem droppedDoorbellWrites : Obligations.DroppedDoorbellWrites := by
  unfold Obligations.DroppedDoorbellWrites
  refine ⟨fun fn offset size p n value s hr hd hb hn refused => ?ring,
    fun fn offset size p n desc s hr hd hb hn refused => ?push,
    fun fn offset size value desc s hd => ⟨congrArg _ (bar2Write_not_ready hd), congrArg _ (bar2Write_not_ready hd)⟩⟩
  case ring =>
    have dropped : s.bar2Write fn offset size false value.toNat [] = s.dropWrite n := by
      rw [bar2Write_ring hr hd hb]
      split
      next => rfl
      next accepted =>
        refine applyRing_refused fun ⟨hs, hc⟩ => ?_
        simp only [Bool.or_eq_true, bne_iff_ne] at accepted
        rcases refused with h | h | h | ⟨h, full⟩ | ⟨h, full⟩
        · exact accepted (.inl (.inl (.inl h)))
        · exact accepted (.inl (.inl (.inr h)))
        · exact accepted (.inl (.inr h))
        · exact absurd (hs h) full.not_gt
        · exact absurd (hc h) full.not_gt
    refine answers_of rfl ?_
    rw [dropped, dropWrite_qp hn]
    exact ⟨rfl, rfl, rfl, rfl, dropWrite_reported⟩
  case push =>
    have dropped : s.bar2Write fn offset size true 0 (descWords desc) = s.dropWrite n := by
      rw [bar2Write_push hr hd hb, if_pos]
      simpa [or_assoc] using refused
    refine answers_of rfl ?_
    rw [dropped, dropWrite_qp hn]
    exact ⟨rfl, rfl, dropWrite_reported⟩

/-! ## The vector of a queue pair (R46, R326) -/

theorem raiseMsix_signalled {e : Nat} (hf : ∀ v, fn = .vf v → v < s.link.vfs.length) : (s.raiseMsix fn e).signalled fn e := by
  simp only [State.raiseMsix]
  split
  next => exact .inl List.mem_cons_self
  split
  next held => exact .inr (by simpa using held)
  next =>
    refine .inr ?_
    cases fn with
    | pf => exact List.mem_cons_self
    | vf v =>
      have := getD_modify_same s.link.vfs (FnSt.reset 8) (fun f => { f with pending := e :: f.pending }) (hf v rfl)
      simp only [State.fnSt, State.modFn, this, List.mem_cons, true_or]

theorem raiseVector_qp_same (hn : n < s.qps.length) :
    (s.raiseVector n).qp n = { s.qp n with unsignalled := 0, unsignalledSince := none } := by
  rw [State.raiseVector, (raiseMsix_keeps (Touch.Le.refl _) (Keeps.refl _ _)).qp_eq rfl, State.qp_modQp_same s _ hn]

theorem raiseVector_qp_other (h : m ≠ n) : (s.raiseVector n).qp m = s.qp m := by
  rw [State.raiseVector, (raiseMsix_keeps (Touch.Le.refl _) (Keeps.refl _ _)).qp_eq rfl, State.qp_modQp_other s _ h.symm]

/-- A virtual function owns no partition but its own. -/
theorem ownFn_vf {p v : Nat} (h : s.ownFn p = .vf v) : v = p := by
  unfold State.ownFn at h
  split at h
  next => exact (Fn.vf.inj h).symm
  next => cases h

theorem raiseVector_signalled (hs : s.shaped = true) (hn : n < 64) (hp : (s.qp n).part < 8) :
    (s.raiseVector n).signalled (s.ownFn (s.qp n).part) (s.qp n).vector := by
  have lens : s.qps.length = 64 ∧ s.link.vfs.length = 8 := by
    simp only [State.shaped, Bool.and_eq_true, beq_iff_eq] at hs
    omega
  have quiet := State.qp_modQp_same s (fun q => { q with unsignalled := 0, unsignalledSince := none })
    (show n < s.qps.length by omega)
  simp only [State.raiseVector, quiet]
  refine raiseMsix_signalled fun v hv => ?_
  have : v = (s.qp n).part := ownFn_vf hv
  simp only [State.modQp_link]
  omega

/-- Settles O13: the time limit of R46 decides between `raiseVector` and nothing. -/
theorem vectorRaisedByModeration : Obligations.VectorRaisedByModeration := by
  unfold Obligations.VectorRaisedByModeration
  refine ⟨fun n first s shaped hn hp since on due => ?_, fun n first s since early => ?_⟩
  · refine ⟨s.raiseVector n, ?_, raiseVector_signalled shaped hn hp, ?_⟩
    · simp [exec, execModerationTimeout, since, usTicks, due, on.ne']
    · rw [raiseVector_qp_same (by rw [(shaped_counts shaped).qps]; exact hn)]
      exact ⟨rfl, rfl, rfl, fun m hm => raiseVector_qp_other hm⟩
  · simp [exec, execModerationTimeout, since, usTicks, Nat.not_le.2 early]

/-! ## Enabling and disabling (R17, R38, R438) -/

theorem enableRefusal_eq (s : State) (n : Nat) :
    s.enableRefusal n =
      if s.dev.ready = false then 3
      else if (if s.ownFn (s.qp n).part = .pf then 62 else 7) < (s.qp n).vector then 1
      else if 0xC00000000000 ≤ (s.qp n).sqBase ∨ 0xC00000000000 ≤ (s.qp n).cqBase then 2
      else 0 := by
  simp [State.enableRefusal]

theorem retireJobs_qps (js : List Job) (s : State) : (js.foldl State.retireJob s).qps = s.qps :=
  (keepsFold (Q := Keeps ⟨Touch.nothing.jobs.counters.ctrBlocks, s⟩) (Keeps.refl _ s)
    fun _ _ h => retireJob_keeps (Touch.Le.refl _) h).qps_eq rfl

theorem disableQp_qps (n : Nat) (byDevice : Bool) :
    (s.disableQp n byDevice).qps = (s.modQp n fun q =>
      { q with enabled := false, anns := [], waiting := [], unsignalled := 0, unsignalledSince := none
               refuse := if byDevice then 0 else q.refuse }).qps :=
  retireJobs_qps _ _

theorem disableQp_silent {byDevice : Bool} {j : Job} (hj : j ∈ (s.disableQp n byDevice).jobs.list) (hq : j.qp = n) :
    j.silent = true := by
  obtain ⟨k, -, rfl⟩ := List.mem_map.1 hj
  split at hq
  next mine => rw [if_pos mine]
  next other => exact absurd hq (by simpa using other)

/-- Settles O14: the cause of R438 decides whether the queue pair is enabled, and disabling empties it. -/
theorem queuePairEnabledAndDisabled : Obligations.QueuePairEnabledAndDisabled := by
  unfold Obligations.QueuePairEnabledAndDisabled
  refine ⟨fun fn n s hw off up ready hv hs hc => ?enables, fun fn n s hw off up refused => ?refuses, fun n s ready => ?notReady,
    fun n s ready hv => ?vector, fun n s ready hv hb => ?base, fun fn n s hw on => ?disables⟩
  case enables =>
    have free : s.enableRefusal n = 0 := by
      rw [enableRefusal_eq, if_neg (by simp [ready]), if_neg (by omega), if_neg (by omega)]
    simp [exec, execQpEnable, hw, off, State.enableQp, up, free]
  case refuses => simp [exec, execQpEnable, hw, off, State.enableQp, up, refused.ne']
  case notReady => rw [enableRefusal_eq, if_pos ready]
  case vector => rw [enableRefusal_eq, if_neg (by simp [ready]), if_pos hv]
  case base => rw [enableRefusal_eq, if_neg (by simp [ready]), if_neg (by omega), if_pos hb]
  case disables =>
    have same : (s.disableQp n false).qp n = _ :=
      (congrArg (·.getD n Qp.reset) (disableQp_qps n false)).trans (State.qp_modQp_same s _ (State.enabled_in_range on))
    have other (m : Nat) (hm : m ≠ n) : (s.disableQp n false).qp m = s.qp m :=
      (congrArg (·.getD m Qp.reset) (disableQp_qps n false)).trans (State.qp_modQp_other s _ hm.symm)
    refine answers_of (t := s.disableQp n false) (by simp [exec, execQpDisable, hw, on]) ?_
    rw [same]
    exact ⟨rfl, rfl, rfl, rfl, fun j hj hq => disableQp_silent hj hq, other⟩

end Sys2Proof.Machine
end

section
/-! SUPPORT. The shared end of every job (R33, R36 to R38): what waits after a record is queued, what is gone after a job is
retired, and `finishJob` in its two cases. -/

namespace Sys2Proof.Machine

variable {s t : State} {n m uid : Nat} {j k : Job}

/-! ## A record that waits (R33) -/

theorem queueComp_qp_same (c : Comp) (hn : n < s.qps.length) :
    ∃ r, (c.result = noResult ∨ r = c.result) ∧
      (s.queueComp n c).qp n = { s.qp n with waiting := (s.qp n).waiting ++ [{ c with result := r }] } := by
  unfold State.queueComp
  split
  next free => exact ⟨_, .inl free, State.qp_modQp_same s _ hn⟩
  next => exact ⟨c.result, .inr rfl, State.qp_modQp_same s _ hn⟩

theorem queueComp_qp_other (c : Comp) (h : m ≠ n) : (s.queueComp n c).qp m = s.qp m := by
  unfold State.queueComp
  split <;> exact State.qp_modQp_other s _ h.symm

theorem queueComp_out_of_range (c : Comp) (hn : ¬n < s.qps.length) : (s.queueComp n c).qps = s.qps := by
  unfold State.queueComp
  split <;> exact List.modify_eq_self (by omega)

theorem queueComp_enabled (c : Comp) (m : Nat) : ((s.queueComp n c).qp m).enabled = (s.qp m).enabled := by
  by_cases hm : m = n
  · subst hm
    by_cases hn : m < s.qps.length
    · obtain ⟨r, -, e⟩ := queueComp_qp_same c hn
      rw [e]
    · rw [State.qp, queueComp_out_of_range c hn, State.qp]
  · rw [queueComp_qp_other c hm]

theorem queueComp_keeps_waiting {c w : Comp} (h : w ∈ (s.qp m).waiting) : w ∈ ((s.queueComp n c).qp m).waiting := by
  by_cases hm : m = n
  · subst hm
    by_cases hn : m < s.qps.length
    · obtain ⟨r, -, e⟩ := queueComp_qp_same c hn
      rw [e]
      exact List.mem_append_left _ h
    · rwa [State.qp, queueComp_out_of_range c hn, ← State.qp]
  · rwa [queueComp_qp_other c hm]

/-! ## A job that is finished (R37, R104) -/

theorem retireJob_gone : (s.retireJob j).job? j.uid = none := by
  have gone : (s.dropJob j.uid).job? j.uid = none := by simp [State.job?, State.dropJob]
  unfold State.retireJob
  split <;> exact gone

theorem retireJob_counter {first blocks c : Nat} (h : j.ctrs = some (first, blocks)) (lo : first ≤ c)
    (hi : c < first + 16 * blocks) : (s.retireJob j).counter c = 0 := by
  have none_left : (s.counters.filter fun x => decide (x.1 < first) || decide (first + 16 * blocks ≤ x.1)).find?
      (fun p => p.1 == c) = none := by
    simp only [List.find?_eq_none, List.mem_filter, Bool.or_eq_true, decide_eq_true_eq, beq_iff_eq]
    omega
  simp only [State.retireJob, h, State.counter, State.dropJob_counters, assoc, none_left, Option.map_none, Option.getD_none]

/-! ## The shared end of a job (R33, R36 to R38) -/

/-- When the job's result becomes final, a record will wait for it. -/
structure State.WillRecord (s : State) (j : Job) : Prop where
  spoken : j.silent = false
  loud : j.ending ≠ some .silent
  enabled : (s.qp j.qp).enabled = true

theorem State.recorded.willRecord (h : s.recorded j) : s.WillRecord j := by
  obtain ⟨-, spoken, loud, -, on⟩ := h
  exact ⟨spoken, loud, on⟩

theorem State.WillRecord.of_qps (h : s.WillRecord j) (hq : t.qps = s.qps) : t.WillRecord j :=
  ⟨h.spoken, h.loud, by rw [State.qp, hq]; exact h.enabled⟩

/-- Settling appends, frames, epochs and slots comes first and touches neither jobs nor queue pairs. -/
theorem finishJob_eq (s : State) (j : Job) (result : Nat) :
    ∃ t, Keeps ⟨Touch.nothing.engines.kvs.slots, s⟩ t ∧
      s.finishJob j result =
        if j.silent || !(t.qp j.qp).enabled || j.ending == some .silent then t.retireJob j
        else (t.queueComp j.qp (j.comp t.now (j.endStatus t.now) result true)).modJob j.uid fun j =>
          { j with finished := true } := by
  delta State.finishJob
  extract_lets -merge left settled served freed q
  have h1 : Keeps ⟨Touch.nothing.engines.kvs.slots, s⟩ left :=
    Keeps.upd rfl (Keeps.refl _ s) (g := Touch.nothing.engines) rfl rfl ⟨rfl, rfl⟩ (by simp +zetaDelta [State.shaped])
  have h2 : Keeps ⟨Touch.nothing.engines.kvs.slots, s⟩ settled :=
    keepsFold (Q := Keeps _) (settleAppends_keeps rfl h1) fun _ _ h => freeFrame_keeps rfl h
  have h3 : Keeps ⟨Touch.nothing.engines.kvs.slots, s⟩ served := by
    unfold served
    split
    · exact advanceEpoch_keeps rfl h2
    · exact h2
  have h4 : Keeps ⟨Touch.nothing.engines.kvs.slots, s⟩ freed := by
    unfold freed
    split
    · exact Keeps.upd rfl h3 (g := Touch.nothing.slots) rfl rfl ⟨rfl, rfl⟩ rfl
    · exact h3
  exact ⟨freed, h4, rfl⟩

theorem finishJob_recorded (h : s.WillRecord j) (result : Nat) :
    ∃ t, Keeps ⟨Touch.nothing.engines.kvs.slots, s⟩ t ∧
      s.finishJob j result =
        (t.queueComp j.qp (j.comp s.now (j.endStatus s.now) result true)).modJob j.uid fun j => { j with finished := true } := by
  obtain ⟨t, kept, e⟩ := finishJob_eq s j result
  refine ⟨t, kept, ?_⟩
  rw [e, if_neg, kept.now_eq rfl]
  simp [h.spoken, h.loud, (h.of_qps (kept.qps_eq rfl)).enabled]

theorem finishJob_unrecorded (h : j.silent = true ∨ (s.qp j.qp).enabled = false ∨ j.ending = some .silent) (result : Nat) :
    ∃ t, Keeps ⟨Touch.nothing.engines.kvs.slots, s⟩ t ∧ s.finishJob j result = t.retireJob j := by
  obtain ⟨t, kept, e⟩ := finishJob_eq s j result
  refine ⟨t, kept, ?_⟩
  rw [e, if_pos]
  simpa [kept.qp_eq rfl, or_assoc] using h

theorem finishJob_now (s : State) (j : Job) (result : Nat) : (s.finishJob j result).now = s.now :=
  (finishJob_keeps (Touch.Le.refl _) (Keeps.refl _ s)).now_eq rfl

theorem finishJob_recordWaits (h : s.WillRecord j) (result : Nat) :
    (s.finishJob j result).recordWaits j (j.endStatus s.now) result := by
  have now := finishJob_now s j result
  obtain ⟨t, kept, e⟩ := finishJob_recorded h result
  have on : (t.qp j.qp).enabled = true := (h.of_qps (kept.qps_eq rfl)).enabled
  obtain ⟨r, free, e'⟩ := queueComp_qp_same (j.comp s.now (j.endStatus s.now) result true) (State.enabled_in_range on)
  have waiting : (s.finishJob j result).qp j.qp = _ := (congrArg (State.qp · j.qp) e).trans e'
  refine ⟨{ j.comp s.now (j.endStatus s.now) result true with result := r }, ?_, rfl, rfl, rfl, rfl, now.symm, rfl, free, rfl⟩
  rw [waiting]
  exact List.mem_append_right _ (List.mem_singleton_self _)

theorem finishJob_jobs (h : s.WillRecord j) (result : Nat) :
    (s.finishJob j result).jobs = (s.modJob j.uid fun j => { j with finished := true }).jobs := by
  obtain ⟨t, kept, e⟩ := finishJob_recorded h result
  rw [e, State.modJob_jobs, State.modJob_jobs, (queueComp_keeps (Touch.Le.refl _) (Keeps.refl _ t)).jobs_eq rfl, kept.jobs_eq rfl]

theorem finishJob_job?_same (h : s.WillRecord j) (result : Nat) :
    (s.finishJob j result).job? j.uid = (s.job? j.uid).map fun j => { j with finished := true } := by
  rw [State.job?_congr (finishJob_jobs h result)]
  exact State.job_modJob_same s _ _ fun _ => rfl

theorem finishJob_job?_other (h : s.WillRecord j) (result : Nat) (hu : m ≠ j.uid) :
    (s.finishJob j result).job? m = s.job? m := by
  rw [State.job?_congr (finishJob_jobs h result)]
  exact State.job_modJob_other s _ (fun _ => rfl) hu.symm

theorem finishJob_keeps_waiting {w : Comp} (h : s.WillRecord j) (result : Nat) (hw : w ∈ (s.qp m).waiting) :
    w ∈ ((s.finishJob j result).qp m).waiting := by
  obtain ⟨t, kept, e⟩ := finishJob_recorded h result
  rw [e]
  exact queueComp_keeps_waiting (s := t) (by rwa [kept.qp_eq rfl])

/-- Settles O16: the record is what `finishJob` queues; without one the job is retired. -/
theorem jobRecordAtItsEnd : Obligations.JobRecordAtItsEnd := by
  unfold Obligations.JobRecordAtItsEnd
  refine ⟨fun j result s h => ?recorded, fun j result first blocks s silent ctrs => ?silent⟩
  case recorded =>
    refine ⟨finishJob_recordWaits h.willRecord result, { j with finished := true }, ?_, rfl⟩
    rw [finishJob_job?_same h.willRecord, h.1]
    rfl
  case silent =>
    obtain ⟨t, kept, e⟩ := finishJob_unrecorded silent result
    rw [e]
    refine ⟨retireJob_gone, ?_, fun c lo hi => retireJob_counter ctrs lo hi⟩
    rw [(retireJob_keeps (Touch.Le.refl _) (Keeps.refl _ t)).qps_eq rfl, kept.qps_eq rfl]

end Sys2Proof.Machine
end

section
/-! SUPPORT. A job that goes on as the same job, how a job without counters of its own begins (R44, R143), and QUERY (R39). -/

namespace Sys2Proof.Machine

variable {s t u : State} {uid n op : Nat} {j k l : Job}

/-! ## A job that goes on as the same job -/

/-- `k` is `j` further on: what its completion record says of it, and what other jobs see of it, is the same. -/
structure Job.Like (j k : Job) : Prop where
  uid : k.uid = j.uid
  qp : k.qp = j.qp
  part : k.part = j.part
  jobId : k.jobId = j.jobId
  opcode : k.opcode = j.opcode
  startTs : k.startTs = j.startTs
  silent : k.silent = j.silent
  ending : k.ending = j.ending
  finished : k.finished = j.finished
  endStatus : ∀ now, k.endStatus now = j.endStatus now

theorem Job.Like.refl (j : Job) : Job.Like j j := ⟨rfl, rfl, rfl, rfl, rfl, rfl, rfl, rfl, rfl, fun _ => rfl⟩

theorem Job.Like.trans (h : Job.Like j k) (h' : Job.Like k l) : Job.Like j l :=
  ⟨h'.uid.trans h.uid, h'.qp.trans h.qp, h'.part.trans h.part, h'.jobId.trans h.jobId, h'.opcode.trans h.opcode,
    h'.startTs.trans h.startTs, h'.silent.trans h.silent, h'.ending.trans h.ending, h'.finished.trans h.finished,
    fun now => (h'.endStatus now).trans (h.endStatus now)⟩

/-- Progress of its work. -/
theorem Job.Like.work (j : Job) (st : JobSt) (ext : Ext) (redo : List Placed) (wait : Option Nat) (epoch : Nat) :
    Job.Like j { j with state := st, ext := ext, redo := redo, unitWait := wait, epoch := epoch } :=
  ⟨rfl, rfl, rfl, rfl, rfl, rfl, rfl, rfl, rfl, fun _ => rfl⟩

/-- STAGING_USED is no degradation (R35, R36). -/
theorem Job.Like.staged (j : Job) : Job.Like j { j with quality := j.quality ||| qStaging } := by
  refine ⟨rfl, rfl, rfl, rfl, rfl, rfl, rfl, rfl, rfl, fun now => ?_⟩
  have degraded (late aborted : Nat) :
      (j.quality ||| qStaging ||| late ||| aborted) % 2 ^ 2 = (j.quality ||| late ||| aborted) % 2 ^ 2 := by
    have : qStaging % 2 ^ 2 = 0 := rfl
    simp only [Nat.or_mod_two_pow, this, Nat.or_zero]
  simp only [Job.endStatus, finalStatus, Job.quality', show 4 = 2 ^ 2 from rfl, degraded]

theorem filter_others_map {g : Job → Job} (l : List Job) (hg : ∀ j, (g j).uid = j.uid) :
    (l.map fun j => if j.uid == uid then g j else j).filter (fun k => k.uid != uid) = l.filter fun k => k.uid != uid := by
  induction l with
  | nil => rfl
  | cons j l ih => by_cases hj : j.uid = uid <;> simpa [hj, hg] using ih

/-- The list of jobs is the same but for job `uid`, which goes on as the same job. -/
def State.Alters (uid : Nat) (s t : State) : Prop :=
  ∃ g : Job → Job, (∀ j, Job.Like j (g j)) ∧ t.jobs.list = s.jobs.list.map fun j => if j.uid == uid then g j else j

theorem State.Alters.of_jobs (h : t.jobs = s.jobs) : State.Alters uid s t :=
  ⟨id, Job.Like.refl, by simp [h]⟩

theorem State.Alters.modJob (s : State) {g : Job → Job} (hg : ∀ j, Job.Like j (g j)) : State.Alters uid s (s.modJob uid g) :=
  ⟨g, hg, rfl⟩

theorem State.Alters.ext (s : State) (uid : Nat) (e : Ext) : State.Alters uid s (s.modJob uid fun j => { j with ext := e }) :=
  .modJob s fun j => .work j j.state e j.redo j.unitWait j.epoch

theorem State.Alters.trans (h : State.Alters uid s t) (h' : State.Alters uid t u) : State.Alters uid s u := by
  obtain ⟨f, hf, e⟩ := h
  obtain ⟨g, hg, e'⟩ := h'
  refine ⟨g ∘ f, fun j => (hf j).trans (hg (f j)), ?_⟩
  rw [e', e, List.map_map]
  refine List.map_congr_left fun j _ => ?_
  by_cases hj : j.uid = uid <;> simp [hj, (hf j).uid]

/-- What looks for a job by what stays the same of it finds it as it now is. -/
theorem State.Alters.find? {P : Job → Bool} (h : State.Alters uid s t) (hP : ∀ {j k}, Job.Like j k → P k = P j) :
    ∃ g : Job → Job, (∀ j, Job.Like j (g j)) ∧
      t.jobs.list.find? P = (s.jobs.list.find? P).map fun j => if j.uid == uid then g j else j := by
  obtain ⟨g, hg, e⟩ := h
  refine ⟨g, hg, ?_⟩
  rw [e, List.find?_map]
  congr 2
  funext j
  by_cases hj : j.uid = uid <;> simp [hj, hP (hg j)]

theorem State.Alters.job?_same (h : State.Alters uid s t) (hj : s.job? uid = some j) :
    ∃ k, t.job? uid = some k ∧ Job.Like j k := by
  obtain ⟨g, hg, e⟩ := h.find? (P := fun j => j.uid == uid) fun like => by rw [like.uid]
  have isUid := State.job?_uid hj
  refine ⟨g j, ?_, hg j⟩
  rw [State.job?, e, ← State.job?, hj]
  simp [isUid]

theorem State.Alters.job?_other (h : State.Alters uid s t) (hn : n ≠ uid) : t.job? n = s.job? n := by
  obtain ⟨g, hg, e⟩ := h.find? (P := fun j => j.uid == n) fun like => by rw [like.uid]
  rw [State.job?, e, ← State.job?]
  cases hk : s.job? n with
  | none => rfl
  | some k =>
    have isN := State.job?_uid hk
    simp [isN, hn]

theorem State.Alters.target?_other {p id : Nat} (h : State.Alters uid s t)
    (hk : ∀ k, s.target? p id = some k → k.uid ≠ uid) : t.target? p id = s.target? p id := by
  obtain ⟨g, hg, e⟩ := h.find? (P := fun j => j.part == p && j.jobId == id) fun like => by rw [like.part, like.jobId]
  rw [State.target?, e, ← State.target?]
  cases found : s.target? p id with
  | none => rfl
  | some k => simp [hk k found]

theorem State.Alters.others (h : State.Alters uid s t) :
    t.jobs.list.filter (fun k => k.uid != uid) = s.jobs.list.filter fun k => k.uid != uid := by
  obtain ⟨g, hg, e⟩ := h
  rw [e, filter_others_map _ fun j => (hg j).uid]

theorem State.Alters.partJobs_length (h : State.Alters uid s t) (p : Nat) :
    (t.partJobs p).length = (s.jobs.list.filter fun k => k.part == p).length := by
  obtain ⟨g, hg, e⟩ := h
  rw [State.partJobs, e, List.filter_map, List.length_map]
  congr 2
  funext j
  by_cases hj : j.uid = uid <;> simp [hj, (hg j).part]

/-! ## A job that needs no counters starts (R44, R143) -/

theorem jobQuality_jobs_congr (h : t.jobs = s.jobs) (q : Nat) : (t.jobQuality uid q).jobs = (s.jobQuality uid q).jobs := by
  simp only [State.jobQuality, State.modJob_jobs, h]

theorem modJob_twice_jobs (s : State) (uid : Nat) {f : Job → Job} (g : Job → Job) (hf : ∀ j, (f j).uid = j.uid) :
    ((s.modJob uid f).modJob uid g).jobs = (s.modJob uid fun j => g (f j)).jobs := by
  simp only [State.modJob_jobs, List.map_map]
  congr 1
  refine List.map_congr_left fun j _ => ?_
  by_cases hj : j.uid = uid <;> simp [hj, hf]

theorem jobQuality_twice (s : State) (uid q : Nat) :
    ((s.jobQuality uid q).jobQuality uid q).jobs = (s.jobQuality uid q).jobs := by
  refine (modJob_twice_jobs s uid _ (by exact fun _ => rfl)).trans ?_
  simp only [State.jobQuality, Nat.or_assoc, Nat.or_self]

/-- Of the jobs, unparking can only mark the one that it is done for with STAGING_USED. -/
theorem unparkSeqs_jobs {p : Nat} {seqs : List Nat} (h : s.unparkSeqs p uid seqs = some t) :
    t.jobs = s.jobs ∨ t.jobs = (s.jobQuality uid qStaging).jobs := by
  have step : KOpt (fun t => t.jobs = s.jobs ∨ t.jobs = (s.jobQuality uid qStaging).jobs) (s.unparkSeqs p uid seqs) := by
    refine keepsFold (Q := KOpt _) (KOpt.some (.inl rfl)) fun o g ho => ?_
    refine KOpt.bind ho fun u hu => ?_
    refine KOpt.map (Q := KFst ⟨Touch.nothing.parts.kvs, u⟩) (unpark_keeps (Touch.Le.refl _) (Keeps.refl _ u)) fun r hr => ?_
    have same : r.1.jobs = u.jobs := Keeps.jobs_eq hr rfl
    split
    next =>
      right
      rw [jobQuality_jobs_congr same]
      rcases hu with hu | hu
      · exact jobQuality_jobs_congr hu _
      · rw [jobQuality_jobs_congr hu, jobQuality_twice]
    next => rwa [same]
  exact step t h

theorem unparkSeqs_alters {p : Nat} {seqs : List Nat} (h : s.unparkSeqs p uid seqs = some t) : State.Alters uid s t := by
  rcases unparkSeqs_jobs h with e | e
  · exact .of_jobs e
  · exact (State.Alters.modJob s Job.Like.staged).trans (.of_jobs e)

/-- Job `j` of opcode `op` has begun, and the state is now `t`. -/
structure State.Began (s : State) (uid op : Nat) (j : Job) (t : State) : Prop where
  starting : s.starting uid op = some (j, t)
  found : s.job? uid = some j
  opcode : j.opcode = op
  kept : Keeps ⟨Touch.nothing.jobs.parts.kvs, s⟩ t
  altered : State.Alters uid s t

theorem State.Began.isUid (h : s.Began uid op j t) : j.uid = uid := State.job?_uid h.found

theorem starts_began (light : expands op = false) (h : s.starts uid op j) : ∃ t, s.Began uid op j t := by
  obtain ⟨⟨_, t⟩, starting, rfl⟩ := Option.map_eq_some_iff.1 h
  refine ⟨t, ?_⟩
  have result := starting
  unfold State.starting at starting
  split at starting
  next => cases starting
  next k found =>
    split at starting
    next ready =>
      rw [Bool.and_eq_true, beq_iff_eq] at ready
      obtain ⟨isOp, -⟩ := ready
      have free : s.giveCounters k = some s := by simp [State.giveCounters, isOp, light]
      rw [free] at starting
      split at starting
      next => cases starting
      next u unparked =>
        cases starting
        have kept : Keeps ⟨Touch.nothing.jobs.parts.kvs, s⟩ u :=
          unparkSeqs_keeps (Touch.Le.refl _) (Keeps.refl _ s) u unparked
        exact ⟨result, found, isOp, run_keeps rfl kept,
          (unparkSeqs_alters unparked).trans (.modJob u fun j => .work j .running j.ext j.redo none (u.kv j.part).epoch)⟩
    next => cases starting

/-! ## The end of a job that goes on as the same job -/

theorem Job.Like.willRecord (like : Job.Like j k) (h : s.WillRecord j) : s.WillRecord k :=
  ⟨like.silent ▸ h.spoken, like.ending ▸ h.loud, like.qp ▸ h.enabled⟩

theorem finishUid_eq (hk : s.job? uid = some k) (result : Nat) : s.finishUid uid result = s.finishJob k result := by
  rw [State.finishUid, hk]

theorem finishUid_recordWaits (hk : s.job? uid = some k) (like : Job.Like j k) (h : s.WillRecord j) (result : Nat) :
    (s.finishUid uid result).recordWaits j (j.endStatus s.now) result := by
  obtain ⟨c, waits, fields⟩ := finishJob_recordWaits (like.willRecord h) result
  rw [finishUid_eq hk]
  rw [like.uid, like.jobId, like.opcode, like.startTs, like.endStatus] at fields
  exact ⟨c, like.qp ▸ waits, fields⟩

theorem finishUid_job?_other (hk : s.job? uid = some k) (h : s.WillRecord k) (result : Nat) (hn : n ≠ uid) :
    (s.finishUid uid result).job? n = s.job? n := by
  have isUid := State.job?_uid hk
  rw [finishUid_eq hk, finishJob_job?_other h result (isUid ▸ hn)]

theorem finishUid_others (hk : s.job? uid = some k) (h : s.WillRecord k) (result : Nat) :
    (s.finishUid uid result).jobs.list.filter (fun k => k.uid != uid) = s.jobs.list.filter fun k => k.uid != uid := by
  have isUid := State.job?_uid hk
  rw [finishUid_eq hk, finishJob_jobs h, State.modJob_jobs, isUid]
  exact filter_others_map s.jobs.list fun _ => rfl

/-! ## QUERY (R39) -/

theorem exec_query (h : s.Began uid 0x13 j t) :
    exec (.query uid) s = .next (t.finishUid uid
      (if wordAt j.words 3 = 0 then ((t.target? j.part (wordAt j.words 4)).map fun x => jobStateCode x.state).getD 0
        else (t.partJobs j.part).length)) := by
  simp only [exec, execQuery, h.starting]
  cases t.target? j.part (wordAt j.words 4) <;> rfl

theorem State.Began.willRecord (h : s.Began uid op j t) (hr : s.recorded j) : t.WillRecord j :=
  hr.willRecord.of_qps (h.kept.qps_eq rfl)

theorem answers_query {result : Nat} (h : s.Began uid 0x13 j t) (hr : s.recorded j)
    (e : (if wordAt j.words 3 = 0 then ((t.target? j.part (wordAt j.words 4)).map fun x => jobStateCode x.state).getD 0
        else (t.partJobs j.part).length) = result) :
    answers (.query uid) s fun t => t.recordWaits j (j.endStatus s.now) result := by
  refine answers_of (exec_query h) ?_
  obtain ⟨k, found, like⟩ := h.altered.job?_same h.found
  rw [e, ← h.kept.now_eq rfl]
  exact finishUid_recordWaits found like (h.willRecord hr) result

/-- Settles O18: the QUERY sees the other jobs as they were before it started. -/
theorem queryReturnsStateOrCount : Obligations.QueryReturnsStateOrCount := by
  unfold Obligations.QueryReturnsStateOrCount
  refine ⟨fun uid j k s hs hr kind target other => ?state, fun uid j s hs hr kind target => ?gone,
    fun uid j s hs hr kind => ?count⟩
  all_goals obtain ⟨t, began⟩ := starts_began (by decide) hs
  case state =>
    have seen := began.altered.target?_other fun x hx => Option.some.inj (target.symm.trans hx) ▸ other
    exact answers_query began hr (by rw [if_pos kind, seen, target]; rfl)
  case gone =>
    have seen := began.altered.target?_other fun x hx => nomatch target.symm.trans hx
    exact answers_query began hr (by rw [if_pos kind, seen, target]; rfl)
  case count =>
    exact answers_query began hr (by rw [if_neg (by omega), began.altered.partJobs_length])

end Sys2Proof.Machine
end

section
/-! SUPPORT. SUSPEND, RESUME and CANCEL (R40): the outcome, what each does to its target, and their own records. -/

namespace Sys2Proof.Machine

variable {s t u v : State} {uid n m op : Nat} {j k k' l : Job}

/-! ## A job becomes SUSPENDED (R40) -/

theorem suspendNow_jobs (s : State) (k : Job) :
    (s.suspendNow k).jobs = (s.modJob k.uid fun k => { k with state := .suspended }).jobs := by
  simp only [State.suspendNow]
  split
  next => rfl
  next => exact (queueComp_keeps (Touch.Le.refl _) (Keeps.refl _ _)).jobs_eq rfl

theorem suspendNow_job? (isUid : k.uid = uid) (found : s.job? uid = some k) :
    (s.suspendNow k).job? uid = some { k with state := .suspended } := by
  subst isUid
  rw [State.job?_congr (suspendNow_jobs s k), State.job_modJob_same s _ _ (by exact fun _ => rfl), found]
  rfl

theorem suspendNow_enabled (s : State) (k : Job) (m : Nat) : ((s.suspendNow k).qp m).enabled = (s.qp m).enabled := by
  simp only [State.suspendNow]
  split
  next => rfl
  next => exact queueComp_enabled _ m

theorem suspendNow_record (spoken : k.silent = false) (on : (s.qp k.qp).enabled = true) :
    ∃ c ∈ ((s.suspendNow k).qp k.qp).waiting,
      c.uid = k.uid ∧ c.jobId = k.jobId ∧ c.status = 0x11 ∧ c.endTs = s.now ∧ c.final = false := by
  have on' : ((s.modJob k.uid fun k => { k with state := .suspended }).qp k.qp).enabled = true := on
  have e : s.suspendNow k = (s.modJob k.uid fun k => { k with state := .suspended }).queueComp k.qp
      { k.comp s.now stSuspended k.progress false with quality := k.quality' s.now } :=
    if_neg (by simp [spoken, on'])
  obtain ⟨r, -, e'⟩ := queueComp_qp_same (s := s.modJob k.uid fun k => { k with state := .suspended })
    { k.comp s.now stSuspended k.progress false with quality := k.quality' s.now } (State.enabled_in_range on')
  rw [e, e']
  exact ⟨_, List.mem_append_right _ (List.mem_singleton_self _), rfl, rfl, rfl, rfl, rfl⟩

/-! ## What a control job does (R40) -/

theorem startEnding_jobs (s : State) (uid : Nat) (e : EndKind) :
    (s.startEnding uid e).jobs = (s.modJob uid fun j => { j with state := .cancelling, ending := some e }).jobs := by
  have withdrawn := (withdraw_keeps (uid := uid) (Touch.Le.refl _) (Keeps.refl _ (s.abortPeer uid))).jobs_eq rfl
  have aborted := (abortPeer_keeps (uid := uid) (Touch.Le.refl _) (Keeps.refl _ s)).jobs_eq rfl
  simp only [State.startEnding, State.modJob_jobs, withdrawn, aborted]

theorem outcome_of_target (other : wordAt j.words 3 ≠ j.jobId) (target : s.target? j.part (wordAt j.words 3) = some k)
    (unfinished : k.finished = false) :
    s.outcome j =
      if (if j.opcode = 0x12 then uncancellable k.opcode else !suspendable k.opcode) then 3
      else if (j.opcode = 0x10 ∧ (k.state = .queued ∨ k.state = .running)) ∨ (j.opcode = 0x11 ∧ k.state = .suspended) ∨
        (j.opcode = 0x12 ∧ k.state ≠ .cancelling) then 0
      else 2 := by
  simp [State.outcome, other, target, unfinished, or_assoc]

theorem State.Alters.outcome (h : State.Alters uid s t)
    (apart : wordAt j.words 3 = j.jobId ∨ ∀ k, s.target? j.part (wordAt j.words 3) = some k → k.uid ≠ uid) :
    t.outcome j = s.outcome j := by
  simp only [State.outcome]
  rcases apart with own | apart
  · rw [if_pos own, if_pos own]
  · rw [h.target?_other apart]

theorem runControl_applied (target : s.target? j.part (wordAt j.words 3) = some k) (h : s.outcome j = 0) :
    s.runControl j = (s.applyControl j k).finishUid j.uid 0 := by
  simp [State.runControl, target, h]

theorem runControl_refused (h : s.outcome j ≠ 0) : s.runControl j = s.finishUid j.uid (s.outcome j) := by
  simp only [State.runControl, if_neg h]
  split <;> rfl

theorem exec_suspend (h : s.Began uid 0x10 j t) : exec (.suspend uid) s = .next (t.runControl j) := by
  simp only [exec, execSuspend, h.starting]

theorem exec_resume (h : s.Began uid 0x11 j t) : exec (.resume uid) s = .next (t.runControl j) := by
  simp only [exec, execResume, h.starting]

theorem exec_cancel (h : s.Began uid 0x12 j t) : exec (.cancel uid) s = .next (t.runControl j) := by
  simp only [exec, execCancel, h.starting]

section
variable {c : Instr} (hc : (c, op) ∈ [(Instr.suspend uid, 0x10), (.resume uid, 0x11), (.cancel uid, 0x12)])
include hc

theorem control_light : expands op = false := by
  simp only [List.mem_cons, Prod.mk.injEq, List.not_mem_nil, or_false] at hc
  rcases hc with ⟨-, rfl⟩ | ⟨-, rfl⟩ | ⟨-, rfl⟩ <;> rfl

theorem exec_control (h : s.Began uid op j t) : exec c s = .next (t.runControl j) := by
  simp only [List.mem_cons, Prod.mk.injEq, List.not_mem_nil, or_false] at hc
  rcases hc with ⟨rfl, rfl⟩ | ⟨rfl, rfl⟩ | ⟨rfl, rfl⟩
  · exact exec_suspend h
  · exact exec_resume h
  · exact exec_cancel h

end

/-- What a control job `j` that has begun in `t` leaves in `u`: its own identity, queue pairs as they were enabled, and
its target `k` as `k'`. -/
structure State.Acted (t : State) (j k k' : Job) (u : State) : Prop where
  now : u.now = t.now
  enabled : ∀ n, (u.qp n).enabled = (t.qp n).enabled
  own : ∃ l, u.job? j.uid = some l ∧ Job.Like j l
  target : u.job? k.uid = some k'

theorem State.Acted.of_modJob (apart : k.uid ≠ j.uid) (own : ∃ l, t.job? j.uid = some l ∧ Job.Like j l)
    (target : t.job? k.uid = some k) (altered : State.Alters j.uid t v) {g : Job → Job} (hg : ∀ l, (g l).uid = l.uid)
    (jobs : u.jobs = (v.modJob k.uid g).jobs) (now : u.now = t.now)
    (enabled : ∀ n, (u.qp n).enabled = (t.qp n).enabled) : t.Acted j k (g k) u := by
  refine ⟨now, enabled, ?_, ?_⟩
  · obtain ⟨l, found, like⟩ := own
    obtain ⟨l', found', like'⟩ := altered.job?_same found
    exact ⟨l', by rw [State.job?_congr jobs, State.job_modJob_other v g hg apart, found'], like.trans like'⟩
  · rw [State.job?_congr jobs, State.job_modJob_same v k.uid g hg, altered.job?_other apart, target]
    rfl

theorem State.Acted.completes (acted : t.Acted j k k' u) (h : s.Began uid op j t) (hr : s.recorded j) (apart : k.uid ≠ j.uid) :
    (u.finishUid j.uid 0).recordWaits j (j.endStatus s.now) 0 ∧ (u.finishUid j.uid 0).job? k.uid = some k' ∧
      ∀ n, ∀ w ∈ (u.qp n).waiting, w ∈ ((u.finishUid j.uid 0).qp n).waiting := by
  obtain ⟨spoken, loud, on⟩ := h.willRecord hr
  have will : u.WillRecord j := ⟨spoken, loud, by rw [acted.enabled, on]⟩
  obtain ⟨l, found, like⟩ := acted.own
  refine ⟨?_, ?_, fun n w hw => ?_⟩
  · rw [← h.kept.now_eq rfl, ← acted.now]
    exact finishUid_recordWaits found like will 0
  · rw [finishUid_job?_other found (like.willRecord will) 0 apart, acted.target]
  · rw [finishUid_eq found]
    exact finishJob_keeps_waiting (like.willRecord will) 0 hw

theorem applyControl_queued (op : j.opcode = 0x10) (queued : k.state = .queued) :
    t.applyControl j k = (t.modJob j.uid fun j => { j with ext := .control k.uid }).suspendNow k := by
  simp [State.applyControl, op, queued]

/-- The target `k` of a RESUME is QUEUED again; its parked groups are still to come back. -/
def State.requeued (t : State) (j k : Job) : State :=
  ((t.modJob j.uid fun j => { j with ext := .control k.uid }).modJob j.uid fun j => { j with ext := .none }).modJob k.uid
    fun k => { k with state := .queued }

theorem applyControl_resume (op : j.opcode = 0x11) :
    t.applyControl j k =
      ((t.requeued j k).unparkSeqs k.part k.uid ((t.requeued j k).heldSeqs k)).getD (t.requeued j k) := by
  simp [State.applyControl, op, State.requeued]

section
variable (own : ∃ l, t.job? j.uid = some l ∧ Job.Like j l) (target : t.job? k.uid = some k) (apart : k.uid ≠ j.uid)
include own target apart

theorem applyControl_suspends_running (op : j.opcode = 0x10) (running : k.state = .running) :
    t.Acted j k { k with state := .suspending } (t.applyControl j k) := by
  have e : t.applyControl j k = ((t.modJob j.uid fun j => { j with ext := .control k.uid }).modJob k.uid fun k =>
      { k with state := .suspending }).withdrawSiphon k.uid := by
    simp [State.applyControl, op, running]
  have kept := withdrawSiphon_keeps (uid := k.uid) (Touch.Le.refl _) (Keeps.refl _
    ((t.modJob j.uid fun j => { j with ext := .control k.uid }).modJob k.uid fun k => { k with state := .suspending }))
  rw [e]
  exact .of_modJob apart own target (.ext t _ (.control k.uid))
    (g := fun k => { k with state := .suspending }) (fun _ => rfl) (kept.jobs_eq rfl) (kept.now_eq rfl)
    fun n => congrArg Qp.enabled (kept.qp_eq rfl n)

theorem applyControl_suspends_queued (op : j.opcode = 0x10) (queued : k.state = .queued) :
    t.Acted j k { k with state := .suspended } (t.applyControl j k) := by
  rw [applyControl_queued op queued]
  exact .of_modJob apart own target (.ext t _ (.control k.uid))
    (g := fun k => { k with state := .suspended }) (fun _ => rfl) (suspendNow_jobs _ k)
    ((suspendNow_keeps (Touch.Le.refl _) (Keeps.refl _ _)).now_eq rfl) (suspendNow_enabled _ k)

theorem applyControl_cancels (op : j.opcode = 0x12) :
    t.Acted j k { k with state := .cancelling, ending := some .cancel } (t.applyControl j k) := by
  have e : t.applyControl j k = (t.modJob j.uid fun j => { j with ext := .control k.uid }).startEnding k.uid .cancel := by
    simp [State.applyControl, op]
  have kept := startEnding_keeps (uid := k.uid) (k := .cancel) (Touch.Le.refl _) (Keeps.refl _
    (t.modJob j.uid fun j => { j with ext := .control k.uid }))
  rw [e]
  exact .of_modJob apart own target (.ext t _ (.control k.uid))
    (g := fun k => { k with state := .cancelling, ending := some .cancel }) (fun _ => rfl) (startEnding_jobs _ _ _)
    (kept.now_eq rfl) fun n => congrArg Qp.enabled (kept.qp_eq rfl n)

theorem applyControl_resumes (op : j.opcode = 0x11) :
    ∃ q, (q = k.quality ∨ q = k.quality ||| qStaging) ∧
      t.Acted j k { k with state := .queued, quality := q } (t.applyControl j k) := by
  have altered : State.Alters j.uid t ((t.modJob j.uid fun j => { j with ext := .control k.uid }).modJob j.uid fun j =>
      { j with ext := .none }) := (State.Alters.ext t _ _).trans (.ext _ _ _)
  rw [applyControl_resume op]
  cases unparked : (t.requeued j k).unparkSeqs k.part k.uid ((t.requeued j k).heldSeqs k) with
  | none =>
    exact ⟨_, .inl rfl, .of_modJob apart own target altered (g := fun k => { k with state := .queued }) (fun _ => rfl)
      rfl rfl fun _ => rfl⟩
  | some u =>
    have kept : Keeps ⟨Touch.nothing.jobs.parts.kvs, t.requeued j k⟩ u :=
      unparkSeqs_keeps (Touch.Le.refl _) (Keeps.refl _ _) u unparked
    have enabled (n : Nat) : (u.qp n).enabled = (t.qp n).enabled := congrArg Qp.enabled (kept.qp_eq rfl n)
    rcases unparkSeqs_jobs unparked with jobs | jobs
    · exact ⟨_, .inl rfl, .of_modJob apart own target altered (g := fun k => { k with state := .queued }) (fun _ => rfl)
        jobs (kept.now_eq rfl) enabled⟩
    · exact ⟨_, .inr rfl, .of_modJob apart own target altered
        (g := fun k => { k with state := .queued, quality := k.quality ||| qStaging }) (fun _ => rfl)
        (jobs.trans (modJob_twice_jobs _ _ _ (by exact fun _ => rfl))) (kept.now_eq rfl) enabled⟩

end

section
variable (h : s.Began uid op j t) (other : wordAt j.words 3 ≠ j.jobId)
  (target : s.target? j.part (wordAt j.words 3) = some k) (found : s.job? k.uid = some k) (apart : k.uid ≠ uid)
include h target apart

theorem State.Began.target?_kept : t.target? j.part (wordAt j.words 3) = some k :=
  (h.altered.target?_other fun _ hl => Option.some.inj (target.symm.trans hl) ▸ apart).trans target

include other found

/-- The control job's record and its target, once the first row of R40's table that applies is one that acts. -/
theorem control_completes (hr : s.recorded j) (unfinished : k.finished = false)
    (allowed : (if j.opcode = 0x12 then uncancellable k.opcode else !suspendable k.opcode) = false)
    (acts : (j.opcode = 0x10 ∧ (k.state = .queued ∨ k.state = .running)) ∨ (j.opcode = 0x11 ∧ k.state = .suspended) ∨
      (j.opcode = 0x12 ∧ k.state ≠ .cancelling))
    (acted : (∃ l, t.job? j.uid = some l ∧ Job.Like j l) → t.job? k.uid = some k → k.uid ≠ j.uid →
      t.Acted j k k' (t.applyControl j k)) :
    (t.runControl j).recordWaits j (j.endStatus s.now) 0 ∧ (t.runControl j).job? k.uid = some k' ∧
      ∀ n, ∀ w ∈ ((t.applyControl j k).qp n).waiting, w ∈ ((t.runControl j).qp n).waiting := by
  have target' := h.target?_kept target apart
  have applies : t.outcome j = 0 := by
    rw [outcome_of_target other target' unfinished, allowed, if_neg Bool.false_ne_true, if_pos acts]
  have apart' : k.uid ≠ j.uid := h.isUid.symm ▸ apart
  have acted := acted (h.isUid.symm ▸ h.altered.job?_same h.found) ((h.altered.job?_other apart).trans found) apart'
  rw [runControl_applied target' applies]
  exact acted.completes h hr apart'

end

/-- Settles O17: the target that a control job names decides its outcome, and only outcome APPLIED acts on it. -/
theorem controlJobsAct : Obligations.ControlJobsAct := by
  unfold Obligations.ControlJobsAct
  refine ⟨fun uid j k s hs hr other target found apart unfinished can state => ?suspendRunning,
    fun uid j k s hs hr other target found apart unfinished can state spoken on => ?suspendQueued,
    fun uid j k s hs hr other target found apart unfinished can state => ?resume,
    fun uid j k s hs hr other target found apart unfinished can state => ?cancel,
    fun uid op c j s hc hs hr refused apart => ?refused⟩
  case suspendRunning =>
    obtain ⟨t, began⟩ := starts_began (by decide) hs
    obtain ⟨record, seen, -⟩ := control_completes began other target found apart hr unfinished (by simp [began.opcode, can])
      (.inl ⟨began.opcode, .inr state⟩) fun own there apart =>
        applyControl_suspends_running own there apart began.opcode state
    exact answers_of (exec_suspend began) ⟨record, _, seen, rfl⟩
  case suspendQueued =>
    obtain ⟨t, began⟩ := starts_began (by decide) hs
    obtain ⟨record, seen, waiting⟩ := control_completes began other target found apart hr unfinished
      (by simp [began.opcode, can]) (.inl ⟨began.opcode, .inl state⟩) fun own there apart =>
        applyControl_suspends_queued own there apart began.opcode state
    obtain ⟨c, held, isK, -, suspended, -, notFinal⟩ := suspendNow_record
      (s := t.modJob j.uid fun j => { j with ext := .control k.uid }) spoken
      (by rw [← on, ← began.kept.qp_eq rfl]; rfl)
    rw [← applyControl_queued began.opcode state] at held
    exact answers_of (exec_suspend began) ⟨record, ⟨c, waiting _ c held, isK, suspended, notFinal⟩, _, seen, rfl⟩
  case resume =>
    obtain ⟨t, began⟩ := starts_began (by decide) hs
    have own := began.isUid.symm ▸ began.altered.job?_same began.found
    obtain ⟨q, staged, acted⟩ := applyControl_resumes own ((began.altered.job?_other apart).trans found)
      (began.isUid.symm ▸ apart) began.opcode
    obtain ⟨record, seen, -⟩ := control_completes began other target found apart hr unfinished (by simp [began.opcode, can])
      (.inr (.inl ⟨began.opcode, state⟩)) fun _ _ _ => acted
    exact answers_of (exec_resume began) ⟨record, q, seen, staged⟩
  case cancel =>
    obtain ⟨t, began⟩ := starts_began (by decide) hs
    obtain ⟨record, seen, -⟩ := control_completes began other target found apart hr unfinished (by simp [began.opcode, can])
      (.inr (.inr ⟨began.opcode, state⟩)) fun own there apart => applyControl_cancels own there apart began.opcode
    exact answers_of (exec_cancel began) ⟨record, _, seen, rfl⟩
  case refused =>
    obtain ⟨t, began⟩ := starts_began (control_light hc) hs
    obtain ⟨l, found, like⟩ := began.altered.job?_same began.found
    have same := began.altered.outcome apart
    have run : exec c s = .next (t.finishUid uid (s.outcome j)) := by
      rw [exec_control hc began, runControl_refused (by omega), same, began.isUid]
    have will := began.willRecord hr
    refine answers_of run ⟨?_, ?_⟩
    · rw [← began.kept.now_eq rfl]
      exact finishUid_recordWaits found like will _
    · rw [finishUid_others found (like.willRecord will), began.altered.others]

end Sys2Proof.Machine
end

section
/-! SUPPORT. TAKE_DESCRIPTOR (R30, R37, R44): the head that is taken, what taking it leaves for its checks, and the job or record
that it becomes. -/

namespace Sys2Proof.Machine

variable {s t u : State} {n m uid : Nat} {h : Head}

/-! ## Replay that does not run -/

theorem replaySettle_quiet (quiet : s.replay.state ≠ .running) : s.replaySettle = s := by
  simp [State.replaySettle, quiet]

theorem replayCompare_quiet {p : Nat} {key rest : List Nat} (quiet : s.replay.state ≠ .running) :
    s.replayCompare p key rest = s := by
  simp [State.replayCompare, quiet]

/-! ## The head that is taken (R44) -/

theorem head?_enabled (found : s.head? n = some h) : (s.qp n).enabled = true := by
  by_contra off
  simp [State.head?, off] at found

theorem takeFrom_head {among : List Nat} (taken : s.takeFrom among = some (n, h)) : s.head? n = some h := by
  simp only [State.takeFrom] at taken
  split at taken
  next => cases taken
  next =>
    obtain ⟨k, -, found⟩ := Option.bind_eq_some_iff.1 taken
    obtain ⟨l, -, e⟩ := List.mem_filterMap.1 (List.mem_of_find?_eq_some found)
    obtain ⟨h', head, e⟩ := Option.map_eq_some_iff.1 e
    cases e
    exact head

theorem qp_modQp_field {α : Type} (g : Qp → α) {f : Qp → Qp} (hf : ∀ q, g (f q) = g q) (m : Nat) :
    g ((s.modQp n f).qp m) = g (s.qp m) := by
  by_cases hm : n = m
  · subst hm
    by_cases hn : n < s.qps.length
    · rw [State.qp_modQp_same s f hn, hf]
    · rw [State.qp, State.modQp_qps, List.modify_eq_self (by omega), State.qp]
  · rw [State.qp_modQp_other s f hm]

/-- Outside replay the head only leaves its announcements, and SQ_HEAD moves on. -/
theorem popHead_quiet (quiet : s.replay.state ≠ .running) :
    ∃ f : Qp → Qp, (∀ q, (f q).part = q.part ∧ (f q).enabled = q.enabled) ∧ s.popHead n = s.modQp n f := by
  simp only [State.popHead, beq_eq_false_iff_ne.2 quiet, Bool.false_and, Bool.false_eq_true, if_false]
  refine ⟨_, fun q => ?_, rfl⟩
  cases q.anns with
  | nil => exact ⟨rfl, rfl⟩
  | cons a rest => cases a <;> exact ⟨rfl, rfl⟩

/-- The state in which the head of queue pair `n` has left its queue, has its number and is traced, before its checks. -/
def State.taken (s : State) (n : Nat) (h : Head) : State :=
  let popped := s.popHead n
  { popped with
    jobs := { popped.jobs with nextUid := s.jobs.nextUid + 1, rr := popped.jobs.rr.set (dPrio h.words) n } }.tracePart 0x03
      (s.qp n).part n ([b2n h.pushed, 0, 0, 0] ++ tracedWords h.words)

/-- A head that fails its checks gets a record, any other becomes a job, while the device is well. -/
theorem takeHead_eq (well : (s.taken n h).dev.fault = false) (unhalted : (s.taken n h).dev.secureHalt = false) :
    s.takeHead n h = ((s.taken n h).validate n h.fn h.words).elim ((s.taken n h).acceptDesc n s.jobs.nextUid h) fun st =>
      (s.taken n h).refuseDesc n s.jobs.nextUid h.ts st h.words := by
  change (if ((s.taken n h).dev.fault || (s.taken n h).dev.secureHalt) = true then _ else _) = _
  rw [well, unhalted, Bool.or_false, if_neg Bool.false_ne_true]
  change (match (s.taken n h).validate n h.fn h.words with
    | some st => (s.taken n h).refuseDesc n s.jobs.nextUid h.ts st h.words
    | none => (s.taken n h).acceptDesc n s.jobs.nextUid h) = _
  cases (s.taken n h).validate n h.fn h.words <;> rfl

section
variable (quiet : s.replay.state ≠ .running)
include quiet

theorem taken_keeps : Keeps ⟨Touch.nothing.qps.jobs.mems.dram.trace, s⟩ (s.taken n h) := by
  obtain ⟨f, -, popped⟩ := popHead_quiet (n := n) quiet
  rw [State.taken, popped]
  exact tracePart_keeps rfl
    (Keeps.upd rfl (modQp_keeps rfl (Keeps.refl _ s)) (g := Touch.nothing.jobs) rfl rfl ⟨rfl, rfl⟩ rfl)

theorem taken_jobs : (s.taken n h).jobs =
    { s.jobs with nextUid := s.jobs.nextUid + 1, rr := s.jobs.rr.set (dPrio h.words) n } := by
  obtain ⟨f, -, popped⟩ := popHead_quiet (n := n) quiet
  rw [State.taken, popped, (tracePart_keeps (Touch.Le.refl _) (Keeps.refl _ _)).jobs_eq rfl]
  rfl

theorem taken_qp (m : Nat) : ((s.taken n h).qp m).part = (s.qp m).part ∧ ((s.taken n h).qp m).enabled = (s.qp m).enabled := by
  obtain ⟨f, same, popped⟩ := popHead_quiet (n := n) quiet
  rw [State.taken, popped, (tracePart_keeps (Touch.Le.refl _) (Keeps.refl _ _)).qp_eq rfl]
  exact ⟨qp_modQp_field Qp.part (fun q => (same q).1) m, qp_modQp_field Qp.enabled (fun q => (same q).2) m⟩

/-- The checks of R30 read nothing that taking the head changes. -/
theorem taken_validate (fn : Fn) (ws : List Nat) : (s.taken n h).validate n fn ws = s.validate n fn ws := by
  have parts : (s.taken n h).part = s.part := by
    funext p
    rw [State.part, (taken_keeps quiet).parts_eq rfl, State.part]
  have engines : (s.taken n h).eng = s.eng := by
    funext e
    rw [State.eng, (taken_keeps quiet).engines_eq rfl, State.eng]
  simp only [State.validate, (taken_qp quiet n).1, parts, engines, taken_jobs quiet]

theorem takeHead_checked (well : s.dev.fault = false) (unhalted : s.dev.secureHalt = false) :
    s.takeHead n h = (s.validate n h.fn h.words).elim ((s.taken n h).acceptDesc n s.jobs.nextUid h) fun st =>
      (s.taken n h).refuseDesc n s.jobs.nextUid h.ts st h.words := by
  have dev : (s.taken n h).dev = s.dev := (taken_keeps quiet).dev_eq rfl
  rw [takeHead_eq (dev ▸ well) (dev ▸ unhalted), taken_validate quiet]

end

theorem exec_takeDescriptor (able : s.canTake = true) (taken : s.takeFrom (List.range 64) = some (n, h)) :
    exec .takeDescriptor s = .next (s.takeHead n h).replaySettle := by
  simp only [exec, execTakeDescriptor, State.takeAmong, able, if_true, taken]

/-! ## A descriptor that passes becomes a job -/

/-- A job as the descriptor at `h` makes it. -/
structure Job.MadeOf (j : Job) (uid n p : Nat) (h : Head) : Prop where
  uid : j.uid = uid
  qp : j.qp = n
  part : j.part = p
  words : j.words = h.words
  jobId : j.jobId = dJobId h.words
  opcode : j.opcode = dOpcode h.words
  startTs : j.startTs = h.ts
  queued : j.state = .queued
  unfinished : j.finished = false

/-- The new job is put last, and then the parked groups of its sequences come back where units are free. -/
theorem acceptDesc_quiet (quiet : t.replay.state ≠ .running) (n uid : Nat) (h : Head) :
    ∃ (j : Job) (u : State), j.MadeOf uid n (t.qp n).part h ∧ u.replay = t.replay ∧
      u.jobs.list = t.jobs.list ++ [j] ∧ u.jobs.nextUid = t.jobs.nextUid ∧
      (t.acceptDesc n uid h = u ∨ ∃ p seqs, u.unparkSeqs p uid seqs = some (t.acceptDesc n uid h)) := by
  delta State.acceptDesc
  extract_lets -merge ws p op sp cp replayed j jobs new unparked noted uncertain
  have kept : Keeps ⟨Touch.nothing.jobs.parts.kvs, t⟩ new :=
    Keeps.upd rfl (Keeps.refl _ t) (g := Touch.nothing.jobs) rfl rfl ⟨rfl, rfl⟩ rfl
  have back : Keeps ⟨Touch.nothing.jobs.parts.kvs, t⟩ unparked := KOpt.getD (unparkSeqs_keeps rfl kept) kept
  have still : unparked.replay = t.replay := back.replay_eq rfl
  have notReplayed : noted = unparked := if_neg (by simp [replayed, quiet])
  have notCancelled : unparked.replayCancelled p uid j.jobId = false := by simp [State.replayCancelled, still, quiet]
  rw [notReplayed, notCancelled, if_neg Bool.false_ne_true]
  refine ⟨j, new, ⟨rfl, rfl, rfl, rfl, rfl, rfl, rfl, rfl, rfl⟩, rfl, rfl, rfl, ?_⟩
  unfold unparked
  cases back : new.unparkSeqs p uid (new.namedSeqs p ws ++ new.tileSeqs p ws) with
  | none => exact .inl rfl
  | some u => exact .inr ⟨_, _, back⟩

/-- Of the jobs of `s`, job `uid` may have another QUALITY in `t`. -/
def State.Marked (s : State) (uid : Nat) (t : State) : Prop :=
  ∃ g : Job → Job, (∀ j, g j = { j with quality := (g j).quality }) ∧
    (t.jobs.list = s.jobs.list.map fun j => if j.uid == uid then g j else j) ∧ t.jobs.nextUid = s.jobs.nextUid

theorem State.Marked.of_jobs (h : t.jobs = s.jobs) : s.Marked uid t := ⟨id, fun _ => rfl, by simp [h], by rw [h]⟩

theorem unparkSeqs_marked {p : Nat} {seqs : List Nat} (h : s.unparkSeqs p uid seqs = some t) : s.Marked uid t := by
  rcases unparkSeqs_jobs h with jobs | jobs
  · exact .of_jobs jobs
  · exact ⟨fun j => { j with quality := j.quality ||| qStaging }, fun _ => rfl, by rw [jobs]; rfl, by rw [jobs]; rfl⟩

/-- The job as it stands after the parked groups have come back: STAGING_USED may be set. -/
theorem Job.MadeOf.staged {j : Job} {p : Nat} (made : j.MadeOf uid n p h) (q : Nat) :
    Job.MadeOf { j with quality := q } uid n p h :=
  ⟨made.uid, made.qp, made.part, made.words, made.jobId, made.opcode, made.startTs, made.queued, made.unfinished⟩

theorem acceptDesc_jobs (quiet : t.replay.state ≠ .running) (n uid : Nat) (h : Head) :
    ∃ j : Job, j.MadeOf uid n (t.qp n).part h ∧ (t.acceptDesc n uid h).jobs.list.getLast? = some j ∧
      (t.acceptDesc n uid h).jobs.list.map Job.uid = t.jobs.list.map Job.uid ++ [uid] ∧
      (∀ k ∈ t.jobs.list, k.uid ≠ uid → k ∈ (t.acceptDesc n uid h).jobs.list) ∧
      (t.acceptDesc n uid h).jobs.nextUid = t.jobs.nextUid ∧ (t.acceptDesc n uid h).replay = t.replay := by
  obtain ⟨j, u, made, replay, list, nextUid, accepted⟩ := acceptDesc_quiet quiet n uid h
  obtain ⟨⟨g, marks, list', next'⟩, replay'⟩ :
      u.Marked uid (t.acceptDesc n uid h) ∧ (t.acceptDesc n uid h).replay = u.replay := by
    rcases accepted with e | ⟨p, seqs, unparked⟩
    · rw [e]
      exact ⟨.of_jobs rfl, rfl⟩
    · exact ⟨unparkSeqs_marked unparked,
        Keeps.replay_eq (unparkSeqs_keeps (Touch.Le.refl _) (Keeps.refl _ u) _ unparked) rfl⟩
  have uids : (Job.uid ∘ fun j => if j.uid == uid then g j else j) = Job.uid := by
    funext k
    by_cases hk : k.uid = uid <;> simp only [Function.comp, hk, beq_self_eq_true, if_true, beq_eq_false_iff_ne.2, ne_eq,
      not_false_eq_true, Bool.false_eq_true, if_false]
    rw [marks, hk]
  refine ⟨g j, marks j ▸ made.staged _, ?_, ?_, fun k hk other => ?_, next'.trans nextUid, replay'.trans replay⟩
  · rw [list', list, List.map_append]
    simp [made.uid]
  · rw [list', List.map_map, uids, list, List.map_append, List.map_singleton, made.uid]
  · rw [list', list]
    exact List.mem_map.2 ⟨k, List.mem_append_left _ hk, by simp [other]⟩

/-- Settles O11: the checks see the state before, and outside replay the accepted job only takes its groups back. -/
theorem descriptorTaken : Obligations.DescriptorTaken := by
  unfold Obligations.DescriptorTaken
  refine ⟨fun n h s able taken well unhalted quiet passes => ?passes, fun n st h s able taken well unhalted quiet fails => ?fails⟩
  all_goals
    have replay : (s.taken n h).replay = s.replay := (taken_keeps quiet).replay_eq rfl
    have jobs := taken_jobs (n := n) (h := h) quiet
    have checked := takeHead_checked (n := n) (h := h) quiet well unhalted
  case passes =>
    obtain ⟨j, made, last, uids, others, next, still⟩ :=
      acceptDesc_jobs (t := s.taken n h) (replay ▸ quiet) n s.jobs.nextUid h
    refine answers_of (exec_takeDescriptor able taken) ?_
    rw [checked, passes, Option.elim_none, replaySettle_quiet (by rw [still, replay]; exact quiet)]
    rw [jobs] at uids others next
    exact ⟨j, last, uids, others, made.uid, made.qp, made.part.trans (taken_qp quiet n).1, made.words, made.jobId, made.opcode,
      made.startTs, made.queued, made.unfinished, next⟩
  case fails =>
    have kept := refuseDesc_keeps (s := s.taken n h) (qp := n) (uid := s.jobs.nextUid) (ts := h.ts) (status := st)
      (ws := h.words) (Touch.Le.refl _) (Keeps.refl _ _)
    have on : ((s.taken n h).qp n).enabled = true := (taken_qp quiet n).2.trans (head?_enabled (takeFrom_head taken))
    refine answers_of (exec_takeDescriptor able taken) ?_
    rw [checked, fails, Option.elim_some, replaySettle_quiet (by rw [kept.replay_eq rfl, replay]; exact quiet)]
    refine ⟨by rw [kept.jobs_eq rfl, jobs], ?_⟩
    obtain ⟨r, -, e⟩ := queueComp_qp_same _ (State.enabled_in_range on)
    rw [State.refuseDesc, e]
    exact ⟨_, List.mem_append_right _ (List.mem_singleton_self _), rfl, rfl, rfl, (taken_keeps quiet).now_eq rfl⟩

end Sys2Proof.Machine
end

section
/-! SUPPORT. WRITE_COMPLETION and HOST_ACCESS_RETURNS (R19, R33, R46, R459): words written to memory read back, and a waiting
record goes to its slot of the ring. -/

namespace Sys2Proof.Machine

variable {s t u v : State} {n m : Nat} {c : Comp} {fn : Fn}

/-! ## Words written to memory (R4) -/

theorem leBytes_length (n v : Nat) : (leBytes n v).length = n := by
  induction n generalizing v with
  | zero => rfl
  | succ n ih => rw [leBytes, List.length_cons, ih]

theorem leNat_leBytes (n v : Nat) : leNat (leBytes n v) = v % 256 ^ n := by
  induction n generalizing v with
  | zero => simp [leBytes, leNat, Nat.mod_one]
  | succ n ih =>
    rw [leBytes, leNat, ih, BitVec.toNat_ofNat, pow_succ' 256 n, Nat.mod_mul (a := 256)]

theorem wordsBytes_length (ws : List Nat) : (wordsBytes ws).length = 4 * ws.length := by
  induction ws with
  | nil => rfl
  | cons w ws ih =>
    rw [wordsBytes, List.flatMap_cons, List.length_append, leBytes_length, ← wordsBytes, ih, List.length_cons]
    omega

/-- Bytes 4i to 4i + 3 of a list of words are word `i`. -/
theorem wordsBytes_word (ws : List Nat) {i : Nat} (hi : i < ws.length) :
    ((wordsBytes ws).drop (4 * i)).take 4 = leBytes 4 ws[i] := by
  induction ws generalizing i with
  | nil => exact absurd hi (Nat.not_lt_zero i)
  | cons w ws ih =>
    have split : wordsBytes (w :: ws) = leBytes 4 w ++ wordsBytes ws := List.flatMap_cons
    rw [split]
    cases i with
    | zero => exact List.take_left' (leBytes_length 4 w)
    | succ i =>
      have past : 4 * (i + 1) = (leBytes 4 w).length + 4 * i := by rw [leBytes_length]; omega
      rw [past, List.drop_length_add_append]
      exact ih (Nat.lt_of_succ_lt_succ hi)

theorem put_bytesAt (s : State) (a : Nat) (bs : List Byte) {i k : Nat} (h : i + k ≤ bs.length) :
    (s.put a bs).bytesAt (a + i) k = (bs.drop i).take k := by
  change Mem.read s.blank (Mem.put s.blank a bs s.mems.bytes) (a + i) k = _
  rw [Mem.read_eq]
  refine List.ext_getElem (by simp; omega) fun x hx _ => ?_
  have hx : x < k := by simpa using hx
  rw [List.getElem_map, List.getElem_range, Nat.add_assoc, Mem.get_put_in _ _ _ _ (by omega), List.getElem_take, List.getElem_drop]

theorem reportWords_keeps_mems (s : State) (ws : List Nat) : (s.reportWords ws).mems = s.mems :=
  (reportWords_keeps (Touch.Le.refl _) (Keeps.refl _ s)).mems_eq rfl

theorem storeWords_wordsAt (s : State) (a : Nat) (ws : List Nat) :
    (s.storeWords a ws).wordsAt a ws.length = ws.map (· % 2 ^ 32) := by
  refine List.ext_getElem (by simp [State.wordsAt]) fun i hi _ => ?_
  have hi : i < ws.length := by simpa [State.wordsAt] using hi
  have here : 4 * i + 4 ≤ (wordsBytes ws).length := by rw [wordsBytes_length]; omega
  simp only [State.wordsAt, List.getElem_map, List.getElem_range]
  rw [State.readN, State.storeWords, State.store, put_bytesAt _ _ _ here, wordsBytes_word ws hi, leNat_leBytes]
  rfl

theorem wordsAt_congr (h : t.mems = s.mems) (a n : Nat) : t.wordsAt a n = s.wordsAt a n := by
  have bytes : t.bytesAt = s.bytesAt := by
    funext a n
    change Mem.read t.mems.blank t.mems.bytes a n = Mem.read s.mems.blank s.mems.bytes a n
    rw [h]
  simp only [State.wordsAt, State.readN, bytes]

/-! ## The slot of a record (R19, R33) -/

/-- The record `c` is in slot CQ_TAIL of the ring, waits no more, and counts for moderation. -/
def State.slotWritten (s : State) (n : Nat) (c : Comp) : State :=
  let q := s.qp n
  let stored := s.storeWords (hostBase + q.cqBase + 32 * q.cqTail) (c.words q.sqHead n q.cqPhase)
  let last := q.cqTail + 1 == ringLen q.cqLog
  stored.modQp n fun q =>
    { q with
      cqTail := if last then 0 else q.cqTail + 1, cqPhase := if last then !q.cqPhase else q.cqPhase
      waiting := q.waiting.erase c, unsignalled := q.unsignalled + 1
      unsignalledSince := if q.unsignalledSince.isNone then some stored.now else q.unsignalledSince }

theorem slotWritten_keeps : Keeps ⟨Touch.nothing.qps.mems.dram.record, s⟩ (s.slotWritten n c) :=
  modQp_keeps rfl (storeWords_keeps rfl (Keeps.refl _ s))

theorem slotWritten_qp_same (hn : n < s.qps.length) :
    (s.slotWritten n c).qp n = { s.qp n with
      cqTail := if (s.qp n).cqTail + 1 = 2 ^ (s.qp n).cqLog then 0 else (s.qp n).cqTail + 1
      cqPhase := if (s.qp n).cqTail + 1 = 2 ^ (s.qp n).cqLog then !(s.qp n).cqPhase else (s.qp n).cqPhase
      waiting := (s.qp n).waiting.erase c, unsignalled := (s.qp n).unsignalled + 1
      unsignalledSince := if (s.qp n).unsignalledSince.isNone then some s.now else (s.qp n).unsignalledSince } := by
  have stored := storeWords_keeps (Touch.Le.refl _) (Keeps.refl _ s) (a := hostBase + (s.qp n).cqBase + 32 * (s.qp n).cqTail)
    (ws := c.words (s.qp n).sqHead n (s.qp n).cqPhase)
  rw [State.slotWritten, State.qp_modQp_same _ _ (by rw [stored.qps_eq rfl]; exact hn), stored.qp_eq rfl, stored.now_eq rfl]
  simp [ringLen]

theorem slotWritten_qp_other (h : m ≠ n) : (s.slotWritten n c).qp m = s.qp m := by
  rw [State.slotWritten, State.qp_modQp_other _ _ h.symm, (storeWords_keeps (Touch.Le.refl _) (Keeps.refl _ s)).qp_eq rfl]

theorem slotWritten_wordsAt :
    (s.slotWritten n c).wordsAt (hostBase + (s.qp n).cqBase + 32 * (s.qp n).cqTail) 8 =
      (c.words (s.qp n).sqHead n (s.qp n).cqPhase).map (· % 2 ^ 32) :=
  storeWords_wordsAt s _ (c.words (s.qp n).sqHead n (s.qp n).cqPhase)

theorem slotWritten_traced (p : Nat) : (s.slotWritten n c).traced p = s.traced p := by
  simp only [State.traced, State.conf, State.part, slotWritten_keeps.trace_eq rfl, slotWritten_keeps.parts_eq rfl]

/-! ## What follows the slot (R37, R384, R386) -/

theorem tracePart_untraced {type p qp : Nat} {words : List Nat} (h : s.traced p = false) : s.tracePart type p qp words = s := by
  simp [State.tracePart, h]

theorem replayCompare_state (s : State) (p : Nat) (key rest : List Nat) :
    (s.replayCompare p key rest).replay.state = s.replay.state := by
  simp only [State.replayCompare]
  repeat' split
  all_goals rfl

/-- A job whose final record is written is finished. -/
def State.endRecorded (s : State) (c : Comp) : State :=
  if c.final then
    match s.job? c.uid with
    | some j => s.retireJob j
    | none => s
  else s

theorem endRecorded_keeps : Keeps ⟨Touch.nothing.jobs.counters.ctrBlocks, s⟩ (s.endRecorded c) := by
  unfold State.endRecorded
  split
  · split
    · exact retireJob_keeps (Touch.Le.refl _) (Keeps.refl _ s)
    · exact Keeps.refl _ s
  · exact Keeps.refl _ s

/-- The state once the record is in its slot, traced, compared with a replayed one, and its job finished. -/
def State.recordOut (s : State) (n : Nat) (c : Comp) : State :=
  let q := s.qp n
  let ws := c.words q.sqHead n q.cqPhase
  (((s.slotWritten n c).tracePart 0x09 q.part n ([0, 0, 0, 0] ++ ws)).replayCompare q.part [0x09, c.jobId]
    [wordAt ws 1, wordAt ws 2, wordAt ws 7]).endRecorded c

theorem recordOut_keeps :
    Keeps ⟨Touch.nothing.jobs.counters.ctrBlocks.mems.dram.trace.replay, s.slotWritten n c⟩ (s.recordOut n c) :=
  (replayCompare_keeps (b := ⟨Touch.nothing.jobs.counters.ctrBlocks.mems.dram.trace.replay, s.slotWritten n c⟩) rfl
    (tracePart_keeps rfl (Keeps.refl _ _))).trans (endRecorded_keeps.widen rfl)

theorem recordOut_mems (untraced : s.traced (s.qp n).part = false) : (s.recordOut n c).mems = (s.slotWritten n c).mems := by
  rw [State.recordOut, endRecorded_keeps.mems_eq rfl, (replayCompare_keeps (Touch.Le.refl _) (Keeps.refl _ _)).mems_eq rfl,
    tracePart_untraced (by rwa [slotWritten_traced])]

theorem recordOut_replay : (s.recordOut n c).replay.state = s.replay.state := by
  rw [State.recordOut, endRecorded_keeps.replay_eq rfl, replayCompare_state,
    (tracePart_keeps (Touch.Le.refl _) (Keeps.refl _ _)).replay_eq rfl, slotWritten_keeps.replay_eq rfl]

/-! ## WRITE_COMPLETION -/

section
variable (found : (s.qp n).waiting.find? (fun c => !s.compHeld c) = some c) (on : (s.qp n).enabled = true)
  (reach : s.hostOk (s.qp n).part = true) (room : (s.qp n).room = true)
include found on reach room

theorem writeComp_written : s.writeComp n = s.recordOut n c ∨ s.writeComp n = (s.recordOut n c).raiseVector n := by
  have e : s.writeComp n =
      if c.notify || raisesAtOnce c.status || (s.qp n).modTime == 0 ||
        decide ((s.qp n).modCount ≤ ((s.recordOut n c).qp n).unsignalled) then (s.recordOut n c).raiseVector n
      else s.recordOut n c := by
    simp only [State.writeComp, found, on, reach, room]
    rfl
  rw [e]
  split
  · exact .inr rfl
  · exact .inl rfl

theorem writeComp_qp_same : ∃ since count, (s.writeComp n).qp n = { s.qp n with
    cqTail := if (s.qp n).cqTail + 1 = 2 ^ (s.qp n).cqLog then 0 else (s.qp n).cqTail + 1
    cqPhase := if (s.qp n).cqTail + 1 = 2 ^ (s.qp n).cqLog then !(s.qp n).cqPhase else (s.qp n).cqPhase
    waiting := (s.qp n).waiting.erase c, unsignalled := count, unsignalledSince := since } := by
  have hn := State.enabled_in_range on
  have out : (s.recordOut n c).qp n = _ := (recordOut_keeps.qp_eq rfl n).trans (slotWritten_qp_same hn)
  rcases writeComp_written found on reach room with e | e
  · exact ⟨_, _, by rw [e, out]⟩
  · refine ⟨none, 0, ?_⟩
    rw [e, raiseVector_qp_same, out]
    rwa [recordOut_keeps.qps_eq rfl, State.slotWritten, State.modQp_qps, List.length_modify,
      (storeWords_keeps (Touch.Le.refl _) (Keeps.refl _ s)).qps_eq rfl]

theorem writeComp_qp_other (h : m ≠ n) : (s.writeComp n).qp m = s.qp m := by
  have out : (s.recordOut n c).qp m = s.qp m := (recordOut_keeps.qp_eq rfl m).trans (slotWritten_qp_other h)
  rcases writeComp_written found on reach room with e | e
  · rw [e, out]
  · rw [e, raiseVector_qp_other h, out]

theorem writeComp_wordsAt (untraced : s.traced (s.qp n).part = false) :
    (s.writeComp n).wordsAt (hostBase + (s.qp n).cqBase + 32 * (s.qp n).cqTail) 8 =
      (c.words (s.qp n).sqHead n (s.qp n).cqPhase).map (· % 2 ^ 32) := by
  have mems : (s.writeComp n).mems = (s.slotWritten n c).mems := by
    rcases writeComp_written found on reach room with e | e
    · rw [e, recordOut_mems untraced]
    · rw [e, (raiseVector_keeps (Touch.Le.refl _) (Keeps.refl _ _)).mems_eq rfl, recordOut_mems untraced]
  rw [wordsAt_congr mems, slotWritten_wordsAt]

end

/-- Without a record that can be written nothing changes. -/
theorem writeComp_kept
    (h : ∀ c, (s.qp n).waiting.find? (fun c => !s.compHeld c) = some c →
      ¬((s.qp n).enabled = true ∧ (s.qp n).room = true ∧ s.hostOk (s.qp n).part = true)) : s.writeComp n = s := by
  simp only [State.writeComp]
  split
  next => rfl
  next c found =>
    have blocked : ((s.qp n).enabled && (s.qp n).room && s.hostOk (s.qp n).part) = false := by
      rw [← Bool.not_eq_true, Bool.and_eq_true, Bool.and_eq_true, and_assoc]
      exact h c found
    exact if_pos (by rw [blocked]; rfl)

theorem writeComp_cases (s : State) (n : Nat) :
    s.writeComp n = s ∨ ∃ c, (s.qp n).waiting.find? (fun c => !s.compHeld c) = some c ∧ (s.qp n).enabled = true ∧
      (s.qp n).room = true ∧ s.hostOk (s.qp n).part = true := by
  by_cases h : ∃ c, (s.qp n).waiting.find? (fun c => !s.compHeld c) = some c ∧ (s.qp n).enabled = true ∧
      (s.qp n).room = true ∧ s.hostOk (s.qp n).part = true
  · exact .inr h
  · exact .inl (writeComp_kept fun c found ready => h ⟨c, found, ready⟩)

theorem writeComp_replay (s : State) (n : Nat) : (s.writeComp n).replay.state = s.replay.state := by
  rcases writeComp_cases s n with e | ⟨c, found, on, room, reach⟩
  · rw [e]
  · rcases writeComp_written found on reach room with e | e
    · rw [e, recordOut_replay]
    · rw [e, (raiseVector_keeps (Touch.Le.refl _) (Keeps.refl _ _)).replay_eq rfl, recordOut_replay]

theorem writeComp_anns (s : State) (n : Nat) : ((s.writeComp n).qp n).anns = (s.qp n).anns := by
  rcases writeComp_cases s n with e | ⟨c, found, on, room, reach⟩
  · rw [e]
  · obtain ⟨since, count, e⟩ := writeComp_qp_same found on reach room
    rw [e]

/-! ## HOST_ACCESS_RETURNS (R459) -/

/-- With one record in one reachable queue pair and nothing announced, it is WRITE_COMPLETION of that queue pair. -/
theorem exec_hostAccessReturns_single (quiet : s.replay.state ≠ .running)
    (mine : ((List.range 64).filter fun m => s.ownFn (s.qp m).part == fn && s.hostOk (s.qp m).part) = [n])
    (one : (s.qp n).waiting.length = 1) (silent : (s.qp n).anns = []) :
    exec (.hostAccessReturns fn) s = exec (.writeCompletion n) s := by
  have settled : (s.writeComp n).replaySettle = s.writeComp n := replaySettle_quiet (by rwa [writeComp_replay])
  simp [exec, execHostAccessReturns, execWriteCompletion, mine, one, writeComp_anns, silent, settled]

theorem room_of_free (free : ((s.qp n).cqTail + 1) % 2 ^ (s.qp n).cqLog ≠ (s.qp n).cqHead) : (s.qp n).room = true :=
  bne_iff_ne.2 free

/-- Settles O12: the ring's free slot decides whether the record goes out, and the host access follows WRITE_COMPLETION. -/
theorem completionRecordWritten : Obligations.CompletionRecordWritten := by
  unfold Obligations.CompletionRecordWritten
  refine ⟨fun n c s found on reach free => ?written, fun n s quiet full => ?full,
    fun fn n s quiet mine one silent => exec_hostAccessReturns_single quiet mine one silent,
    fun fn n c s quiet mine waiting silent ready on free => ?returns⟩
  case written =>
    have room := room_of_free free
    have settled := replaySettle_keeps (Touch.Le.refl _) (Keeps.refl _ (s.writeComp n))
    obtain ⟨since, count, same⟩ := writeComp_qp_same found on reach room
    refine answers_of rfl ?_
    simp only [settled.qp_eq rfl, wordsAt_congr (settled.mems_eq rfl), same, true_and]
    exact ⟨writeComp_wordsAt found on reach room, fun m hm => writeComp_qp_other found on reach room hm⟩
  case full =>
    have kept : s.writeComp n = s := writeComp_kept fun c _ ⟨_, room, _⟩ => absurd full (bne_iff_ne.1 room)
    simp [exec, execWriteCompletion, kept, replaySettle_quiet quiet]
  case returns =>
    have room := room_of_free free
    have found : (s.qp n).waiting.find? (fun c => !s.compHeld c) = some c := by simp [waiting, ready]
    have reach : s.hostOk (s.qp n).part = true := by
      have : n ∈ (List.range 64).filter fun m => s.ownFn (s.qp m).part == fn && s.hostOk (s.qp m).part := by simp [mine]
      exact (Bool.and_eq_true_iff.1 (List.mem_filter.1 this).2).2
    have settled : (s.writeComp n).replaySettle = s.writeComp n := replaySettle_quiet (by rwa [writeComp_replay])
    obtain ⟨since, count, same⟩ := writeComp_qp_same found on reach room
    refine answers_of ((exec_hostAccessReturns_single quiet mine (by simp [waiting]) silent).trans rfl) ?_
    simp only [settled, same, true_and]
    exact ⟨by simp [waiting], writeComp_wordsAt found on reach room⟩

end Sys2Proof.Machine
end

section
/-! SUPPORT. SAFE_POINT, DEADLINE_TICK and WITHDRAWAL_END (R40 to R43, R116, R211, R212): what suspension leaves of a job's tasks and
of its record, what a late job becomes, and the length that a withdrawn entry leaves its sequence. -/

namespace Sys2Proof.Machine

variable {s t u : State} {n uid : Nat} {j k : Job} {e : Ent}

/-! ## Contexts of a withdrawn job (R116) -/

theorem wakeSlots_ctxs {g h : Engine} {now : Nat} {x : Ctx} (hx : x ∈ (g.wakeSlots now h).ctxs) :
    ∃ y ∈ h.ctxs, x.uid = y.uid ∧ (x = y ∨ y.state = .waitMem) := by
  unfold Engine.wakeSlots at hx
  split at hx
  next =>
    obtain ⟨y, hy, rfl⟩ := List.mem_map.1 hx
    split
    next woken => exact ⟨y, hy, rfl, .inr (by simpa using (Bool.and_eq_true_iff.1 woken).2)⟩
    next => exact ⟨y, hy, rfl, .inl rfl⟩
  next => exact ⟨x, hx, rfl, .inl rfl⟩

theorem withdrawTasks_ctxs {g : Engine} {x : Ctx} (hg : g ∈ (s.withdrawTasks uid).engines) (hx : x ∈ g.ctxs)
    (mine : x.uid = uid) : x.state = .faulted := by
  obtain ⟨g, -, rfl⟩ := List.mem_map.1 hg
  obtain ⟨y, hy, same, woken⟩ := wakeSlots_ctxs hx
  have kept := (List.mem_filter.1 hy).2
  have faulted : y.state = .faulted := by simpa [← same, mine] using kept
  rcases woken with rfl | waiting
  · exact faulted
  · rw [faulted] at waiting
    cases waiting

theorem withdraw_engines (s : State) (uid : Nat) : (s.withdraw uid).engines = (s.withdrawTasks uid).engines := by
  simp only [State.withdraw]
  split <;> rfl

/-! ## SAFE_POINT (R40) -/

theorem withdrawOwn_keeps_rest (s : State) (j : Job) :
    Keeps ⟨Touch.nothing.jobs.merges, s.withdraw j.uid⟩ (s.withdrawOwn j) :=
  modJob_keeps rfl (Keeps.upd rfl (Keeps.refl _ _) (g := Touch.nothing.merges) rfl rfl ⟨rfl, rfl⟩ rfl)

theorem withdrawOwn_alters (s : State) (j : Job) : State.Alters j.uid s (s.withdrawOwn j) := by
  have withdrawn : (s.withdraw j.uid).jobs = s.jobs := (withdraw_keeps (Touch.Le.refl _) (Keeps.refl _ s)).jobs_eq rfl
  refine (State.Alters.of_jobs withdrawn).trans
    ⟨fun k => { k with redo := k.redo ++ s.engines.flatMap fun g => g.tasks.filter fun w => w.uid == j.uid },
      fun k => .work k k.state k.ext _ k.unitWait k.epoch, rfl⟩

/-- The job's work is withdrawn and its place noted; then the job, as it now stands, suspends. -/
theorem safePoint_eq (found : s.job? j.uid = some j) :
    ∃ t k, Keeps ⟨Touch.nothing.jobs.merges.mems.dram.passage.record, s.withdraw j.uid⟩ t ∧ t.job? j.uid = some k ∧
      Job.Like j k ∧ s.safePoint j = t.suspendNow k := by
  delta State.safePoint
  extract_lets -merge own noted
  have ownKept : Keeps ⟨Touch.nothing.jobs.merges.mems.dram.passage.record, s.withdraw j.uid⟩ own :=
    (withdrawOwn_keeps_rest s j).widen rfl
  have ownAltered : State.Alters j.uid s own := withdrawOwn_alters s j
  have ⟨kept, altered⟩ : Keeps ⟨Touch.nothing.jobs.merges.mems.dram.passage.record, s.withdraw j.uid⟩ noted ∧
      State.Alters j.uid s noted := by
    unfold noted
    split
    next x area _ =>
      have saved : (own.saveSearch j x area).jobs = own.jobs :=
        (saveSearch_keeps (Touch.Le.refl _) (Keeps.refl _ own)).jobs_eq rfl
      exact ⟨modJob_keeps rfl (saveSearch_keeps rfl ownKept), ownAltered.trans ((State.Alters.of_jobs saved).trans (.ext _ _ _))⟩
    next => exact ⟨modJob_keeps rfl ownKept, ownAltered.trans (.ext _ _ _)⟩
    next sh _ =>
      extract_lets placed
      have placedKept : Keeps ⟨Touch.nothing.jobs.merges.mems.dram.passage.record, s.withdraw j.uid⟩ placed :=
        modJob_keeps rfl ownKept
      have placedAltered : State.Alters j.uid s placed := ownAltered.trans (.ext _ _ _)
      split
      next =>
        exact ⟨sendControl_keeps rfl placedKept,
          placedAltered.trans (.of_jobs ((sendControl_keeps (Touch.Le.refl _) (Keeps.refl _ placed)).jobs_eq rfl))⟩
      next => exact ⟨placedKept, placedAltered⟩
    next => exact ⟨ownKept, ownAltered⟩
  obtain ⟨k, found', like⟩ := altered.job?_same found
  exact ⟨noted, k, kept, found', like, by rw [found']⟩

theorem exec_safePoint (found : s.job? uid = some j) (suspending : j.state = .suspending) (unfinished : j.finished = false)
    (idle : s.busyAt j = false) : exec (.safePoint uid) s = .next (s.safePoint j) := by
  simp [exec, execSafePoint, found, suspending, unfinished, idle]

/-! ## DEADLINE_TICK (R42, R43) -/

theorem isLate_iff {deadlineUs used : Nat} : isLate deadlineUs used = true ↔ deadlineUs ≠ 0 ∧ deadlineUs * 100 < used := by
  rw [isLate, Bool.and_eq_true, bne_iff_ne, decide_eq_true_eq]
  rfl

theorem exec_deadlineTick_kept (found : s.job? uid = some j) (early : j.deadlineUs = 0 ∨ s.now ≤ j.startTs + j.deadlineUs * 100) :
    exec (.deadlineTick uid) s = .next s := by
  have notLate : isLate j.deadlineUs (s.now - j.startTs) = false := by
    rw [← Bool.not_eq_true, isLate_iff]
    omega
  simp [exec, execDeadlineTick, found, notLate]

/-- The state in which the lateness of job `j` is noted and reported. -/
def State.lateNoted (s : State) (j : Job) : State :=
  (s.modJob j.uid fun j => { j with lateRaised := true }).raise j.deadlineSource 8 0x17 (some j.part) 0 j.jobId

theorem lateNoted_jobs (s : State) (j : Job) :
    (s.lateNoted j).jobs = (s.modJob j.uid fun j => { j with lateRaised := true }).jobs :=
  (raise_keeps (Touch.Le.refl _) (Keeps.refl _ _)).jobs_eq rfl

/-- A CANCEL that was taken is seen whether or not the lateness is noted. -/
theorem lateNoted_cancelTaken (s : State) (j k : Job) : (s.lateNoted j).cancelTaken k = s.cancelTaken k := by
  rw [State.cancelTaken, lateNoted_jobs, State.modJob_jobs, List.any_map, State.cancelTaken]
  congr 1
  funext c
  by_cases hc : c.uid = j.uid <;> simp [hc]

theorem exec_deadlineTick_late (found : s.job? uid = some j) (unfinished : j.finished = false) (first : j.lateRaised = false)
    (timed : j.deadlineUs ≠ 0) (late : j.startTs + j.deadlineUs * 100 < s.now) :
    exec (.deadlineTick uid) s = .next
      (if j.policy = 2 ∧ j.state ≠ .cancelling ∧ s.cancelTaken j = false then (s.lateNoted j).startEnding j.uid .abort
        else s.lateNoted j) := by
  obtain rfl := State.job?_uid found
  have isLate' : isLate j.deadlineUs (s.now - j.startTs) = true := isLate_iff.2 ⟨timed, by omega⟩
  have after : ¬s.now < j.startTs := by omega
  simp only [exec, execDeadlineTick, found, unfinished, first, isLate', after, Bool.or_self, Bool.not_true, decide_false, Bool.false_eq_true, if_false]
  change Host.Outcome.next (if (j.policy == 2 && j.state != .cancelling && !(s.lateNoted j).cancelTaken j) = true then
    (s.lateNoted j).startEnding j.uid .abort else s.lateNoted j) = _
  rw [lateNoted_cancelTaken]
  simp [and_assoc]

/-! ## WITHDRAWAL_END (R38, R41) -/

theorem exec_withdrawalEnd (found : s.job? uid = some j) (cancelling : j.state = .cancelling) (unfinished : j.finished = false)
    (ended : s.stillOut uid = false) : exec (.withdrawalEnd uid) s = .next ((s.cancelEffects j).finishJob j j.progress) := by
  simp [exec, execWithdrawalEnd, found, cancelling, unfinished, ended, State.endWithdrawal]

/-- Every sequence of index `i` has length `n`. -/
def State.lengthIs (s : State) (i n : Nat) : Prop := ∀ q ∈ s.seqs, q.idx = i → q.len = n

theorem setLength_seqs (s : State) (i n : Nat) :
    ∃ g : Seq → Seq, (∀ q, (g q).idx = q.idx ∧ (g q).len = n) ∧
      (s.setLength i n).seqs = s.seqs.map fun q => if q.idx == i then g q else q := by
  unfold State.setLength
  split
  next gone =>
    refine ⟨fun q => { q with len := n }, fun _ => ⟨rfl, rfl⟩, (List.map_id _).symm.trans (List.map_congr_left fun q hq => ?_)⟩
    rw [if_neg (List.find?_eq_none.1 gone q hq), id]
  next q _ =>
    have freed (chunks : List Nat) : (chunks.foldl (fun s a => s.freeFrame q.part a) s).seqs = s.seqs :=
      (keepsFold (Q := Keeps ⟨Touch.nothing.kvs, s⟩) (Keeps.refl _ s) fun _ _ h => freeFrame_keeps rfl h).seqs_eq rfl
    exact ⟨fun r => { r with len := n, chunks := r.chunks.take (ceilDiv n chunkLen) }, fun _ => ⟨rfl, rfl⟩,
      by simp only [State.modSeq_seqs, freed]⟩

theorem setLength_lengthIs (s : State) (i n : Nat) : (s.setLength i n).lengthIs i n := by
  obtain ⟨g, hg, e⟩ := setLength_seqs s i n
  intro q hq hi
  rw [e] at hq
  obtain ⟨r, -, rfl⟩ := List.mem_map.1 hq
  by_cases hr : r.idx = i
  · simp [hr, (hg r).2]
  · exact absurd hi (by simp [hr])

theorem setLength_other {i m : Nat} (hm : m ≠ i) (h : s.lengthIs i n) (len : Nat) : (s.setLength m len).lengthIs i n := by
  obtain ⟨g, hg, e⟩ := setLength_seqs s m len
  intro q hq hi
  rw [e] at hq
  obtain ⟨r, hr, rfl⟩ := List.mem_map.1 hq
  by_cases same : r.idx = m
  · exact absurd hi (by simp [same, (hg r).1, hm])
  · simp only [same, beq_iff_eq, if_false] at hi ⊢
    exact h r hr hi

theorem releaseSeq_seqs (s : State) (q : Seq) : (s.releaseSeq q).seqs = s.seqs.filter fun x => x.idx != q.idx := by
  delta State.releaseSeq
  extract_lets -merge p dropped ungrouped unchunked
  have h1 : Keeps ⟨Touch.nothing.parts.kvs.mems.dram.record, s⟩ dropped :=
    keepsFold (Q := Keeps _) (Keeps.refl _ s) fun _ _ h => dropRef_keeps rfl h
  have h2 : Keeps ⟨Touch.nothing.parts.kvs.mems.dram.record, s⟩ ungrouped := dropGroups_keeps rfl h1
  have h3 : Keeps ⟨Touch.nothing.parts.kvs.mems.dram.record, s⟩ unchunked :=
    keepsFold (Q := Keeps _) (freeSums_keeps rfl h2) fun _ _ h => freeFrame_keeps rfl h
  exact congrArg (List.filter _) (h3.seqs_eq rfl)

theorem restoreEnt_own (s : State) (kept : e.created = false) : (s.restoreEnt e).lengthIs e.seqIdx e.oldLen := by
  rw [State.restoreEnt, kept, if_neg Bool.false_ne_true]
  exact setLength_lengthIs s e.seqIdx e.oldLen

theorem restoreEnt_other {x : Ent} (hx : x.seqIdx ≠ e.seqIdx) (h : s.lengthIs e.seqIdx n) : (s.restoreEnt x).lengthIs e.seqIdx n := by
  unfold State.restoreEnt
  split
  · split
    next q found =>
      intro r hr
      rw [releaseSeq_seqs] at hr
      exact h r (List.mem_of_mem_filter hr)
    next => exact h
  · exact setLength_other hx h _

theorem restoreEnts_lengthIs {ents : List Ent} (kept : e.created = false) (alone : ∀ x ∈ ents, x.seqIdx = e.seqIdx → x = e)
    (h : e ∈ ents ∨ s.lengthIs e.seqIdx e.oldLen) : (ents.foldl State.restoreEnt s).lengthIs e.seqIdx e.oldLen := by
  induction ents generalizing s with
  | nil => exact h.resolve_left (List.not_mem_nil)
  | cons x ents ih =>
    refine ih (fun y hy => alone y (List.mem_cons_of_mem _ hy)) ?_
    by_cases hx : x.seqIdx = e.seqIdx
    · obtain rfl := alone x List.mem_cons_self hx
      exact .inr (restoreEnt_own s kept)
    · rcases h with h | h
      · exact .inl ((List.mem_cons.1 h).resolve_left fun same => hx (same ▸ rfl))
      · exact .inr (restoreEnt_other hx h)

theorem cancelEffects_lengthIs {ents : List Ent} {chunk step : Nat} {wait : Option Nat}
    (ext : j.ext = .serve ents chunk step wait) (here : e ∈ ents) (kept : e.created = false)
    (alone : ∀ x ∈ ents, x.seqIdx = e.seqIdx → x = e) : (s.cancelEffects j).lengthIs e.seqIdx e.oldLen := by
  simp only [State.cancelEffects, ext]
  exact restoreEnts_lengthIs kept alone (.inl here)

/-- Settles O19: each command's rule, then what its state holds of the job, its record, its contexts and its sequences. -/
theorem jobsSuspendLateAndWithdrawn : Obligations.JobsSuspendLateAndWithdrawn := by
  unfold Obligations.JobsSuspendLateAndWithdrawn
  refine ⟨fun uid j s found hr suspending idle => ?safePoint, fun uid j s found unfinished first timed late => ?late,
    fun uid j s found early => exec_deadlineTick_kept found early, fun uid j s found hr cancelling ended => ?withdrawn,
    fun uid chunk step wait ents e j s found unfinished cancelling ended ext here kept alone => ?lengths⟩
  case safePoint =>
    obtain rfl := State.job?_uid found
    obtain ⟨-, spoken, -, unfinished, on⟩ := hr
    obtain ⟨t, k, kept, seen, like, e⟩ := safePoint_eq found
    have withdrawn := withdraw_keeps (uid := j.uid) (Touch.Le.refl _) (Keeps.refl _ s)
    have on' : (t.qp k.qp).enabled = true := by rw [like.qp, kept.qp_eq rfl, withdrawn.qp_eq rfl, on]
    refine answers_of (exec_safePoint found suspending unfinished idle) ?_
    rw [e]
    refine ⟨⟨_, suspendNow_job? like.uid seen, rfl, like.finished.trans unfinished⟩, ?_, fun g hg x hx mine => ?_⟩
    · obtain ⟨c, waits, isK, jobId, suspended, ended, notFinal⟩ := suspendNow_record (like.silent.trans spoken) on'
      exact ⟨c, like.qp ▸ waits, isK.trans like.uid, jobId.trans like.jobId, suspended,
        ended.trans ((kept.now_eq rfl).trans (withdrawn.now_eq rfl)), notFinal⟩
    · rw [(suspendNow_keeps (Touch.Le.refl _) (Keeps.refl _ t)).engines_eq rfl, kept.engines_eq rfl, withdraw_engines] at hg
      exact withdrawTasks_ctxs hg hx mine
  case late =>
    obtain rfl := State.job?_uid found
    have seen : (s.lateNoted j).job? j.uid = some { j with lateRaised := true } := by
      rw [State.job?_congr (lateNoted_jobs s j), State.job_modJob_same s _ _ (by exact fun _ => rfl), found]
      rfl
    refine answers_of (exec_deadlineTick_late found unfinished first timed late) ?_
    split
    next aborts =>
      have ending := startEnding_keeps (uid := j.uid) (k := .abort) (Touch.Le.refl _) (Keeps.refl _ (s.lateNoted j))
      refine ⟨?_, { j with lateRaised := true, state := .cancelling, ending := some .abort }, ?_, rfl, unfinished,
        fun _ _ _ => ⟨rfl, rfl⟩, fun runs => absurd aborts.1 runs⟩
      · rw [State.reported, ending.faults_eq rfl, ending.now_eq rfl]
        exact raise_reported ..
      · rw [State.job?_congr (startEnding_jobs _ _ _), State.job_modJob_same _ _ _ (by exact fun _ => rfl), seen]
        rfl
    next runs =>
      exact ⟨raise_reported .., _, seen, rfl, unfinished, fun abort state free => absurd ⟨abort, state, free⟩ runs, fun _ => rfl⟩
  case withdrawn =>
    obtain ⟨-, -, -, unfinished, -⟩ := id hr
    have effects := cancelEffects_keeps (j := j) (Touch.Le.refl _) (Keeps.refl _ s)
    refine answers_of (exec_withdrawalEnd found cancelling unfinished ended) ?_
    rw [← effects.now_eq rfl]
    exact finishJob_recordWaits (hr.willRecord.of_qps (effects.qps_eq rfl)) j.progress
  case lengths =>
    refine answers_of (exec_withdrawalEnd found cancelling unfinished ended) ?_
    rw [(finishJob_keeps (Touch.Le.refl _) (Keeps.refl _ _)).seqs_eq rfl]
    exact cancelEffects_lengthIs ext here kept alone

end Sys2Proof.Machine
end

section
/-! SUPPORT. The contexts of an engine by number (R96, R99, R100), and which engines are mapped out (R416): what is read after
each operation that changes a context or an engine. -/

namespace Sys2Proof.Machine

variable {s t : State} {e c n uid : Nat} {x y : Ctx} {g h : Engine} {f : Ctx → Ctx}

/-! ## A context by its number -/

theorem State.ctx?_idx (found : s.ctx? e c = some x) : x.idx = c := by
  simpa using List.find?_some found

theorem State.ctx?_congr (same : t.engines = s.engines) (e c : Nat) : t.ctx? e c = s.ctx? e c := by
  rw [State.ctx?, State.ctx?, State.eng, State.eng, same]

theorem State.ctx?_modEng (he : e < s.engines.length) (f : Engine → Engine) :
    (s.modEng e f).ctx? e c = (f (s.eng e)).ctxs.find? fun x => x.idx == c := by
  rw [State.ctx?, State.eng_modEng_same s f he]

/-- Slots that become free wake only a context that waits for them (R100). -/
theorem wakeSlots_find? {now : Nat} (found : (h.ctxs.find? fun x => x.idx == c) = some x)
    (awake : x.starved = false ∨ x.state ≠ .waitMem) : ((g.wakeSlots now h).ctxs.find? fun x => x.idx == c) = some x := by
  unfold Engine.wakeSlots
  split
  next =>
    have idx : ((fun x : Ctx => x.idx == c) ∘ fun x => if x.starved && x.state == .waitMem then
        { x with state := .ready, starved := false, readySince := now } else x) = fun x => x.idx == c := by
      funext x
      dsimp only [Function.comp]
      split <;> rfl
    have keeps : ¬(x.starved && x.state == .waitMem) = true := by
      rw [Bool.and_eq_true, beq_iff_eq]
      exact fun ⟨st, wait⟩ => awake.elim (by simp [st]) fun other => other wait
    rw [List.find?_map, idx, found, Option.map_some, if_neg keeps]
  next => exact found

/-- The context of number `c` is replaced: it reads back where it does not wait for slots. -/
theorem State.ctx?_setCtx (he : e < s.engines.length) (found : s.ctx? e c = some x)
    (idx : ∀ y : Ctx, y.idx = c → (f y).idx = c) (awake : (f x).starved = false ∨ (f x).state ≠ .waitMem) :
    (s.setCtx e c f).ctx? e c = some (f x) := by
  have same : ((fun x : Ctx => x.idx == c) ∘ fun x => if x.idx == c then f x else x) = fun x => x.idx == c := by
    funext y
    by_cases hy : y.idx = c <;> simp [hy, idx]
  rw [State.setCtx, State.ctx?_modEng he]
  refine wakeSlots_find? ?_ awake
  rw [List.find?_map, same, ← State.ctx?, found, Option.map_some, if_pos (by simp [State.ctx?_idx found])]

/-! ## What the wake of slots leaves of an engine -/

@[simp] theorem wakeSlots_ramp (now : Nat) : (g.wakeSlots now h).ramp = h.ramp := by
  unfold Engine.wakeSlots
  split <;> rfl

/-! ## Withdrawn work (R116) -/

theorem keepCtxs_find? {now : Nat} {keep : Ctx → Bool} (found : (g.ctxs.find? fun x => x.idx == c) = some x)
    (kept : keep x = true) (awake : x.starved = false ∨ x.state ≠ .waitMem) :
    ((g.keepCtxs now keep).ctxs.find? fun x => x.idx == c) = some x := by
  refine wakeSlots_find? ?_ awake
  obtain ⟨isC, before, after, split, other⟩ := List.find?_eq_some_iff_append.1 found
  refine List.find?_eq_some_iff_append.2 ⟨isC, before.filter keep, after.filter keep, ?_,
    fun y hy => other y (List.mem_of_mem_filter hy)⟩
  simp [split, kept]

/-! ## Which engines are mapped out (R416) -/

/-- Whether an engine is mapped out, and why. -/
def Engine.outState (g : Engine) : Bool × OutCause := (g.mappedOut, g.outCause)

/-- The same of every engine. -/
def State.mapOuts (s : State) : List (Bool × OutCause) := s.engines.map Engine.outState

@[simp] theorem wakeSlots_outState (now : Nat) : (g.wakeSlots now h).outState = h.outState := by
  unfold Engine.wakeSlots
  split <;> rfl

theorem keepCtxs_outState (now : Nat) (keep : Ctx → Bool) : (g.keepCtxs now keep).outState = g.outState :=
  wakeSlots_outState now

theorem mapOuts_getD (s : State) (e : Nat) : s.mapOuts.getD e (false, .none) = (s.eng e).outState :=
  List.getD_map s.engines Engine.reset Engine.outState

theorem mapOuts_congr (same : t.engines = s.engines) : t.mapOuts = s.mapOuts := by rw [State.mapOuts, State.mapOuts, same]

theorem mapOuts_length (s : State) : s.mapOuts.length = s.engines.length := List.length_map ..

theorem mapOuts_map {l : List Engine} {f : Engine → Engine} (same : ∀ g, (f g).outState = g.outState) :
    (l.map f).map Engine.outState = l.map Engine.outState := by
  rw [List.map_map]
  exact List.map_congr_left fun g _ => same g

theorem mapOuts_modEng {f : Engine → Engine} {out : Bool × OutCause → Bool × OutCause}
    (same : ∀ g, (f g).outState = out g.outState) : (s.modEng e f).mapOuts = s.mapOuts.modify e out := by
  refine List.ext_getElem? fun i => ?_
  simp only [State.mapOuts, State.modEng_engines, List.getElem?_map, List.getElem?_modify]
  cases s.engines[i]? with
  | none => rfl
  | some g => by_cases hi : e = i <;> simp [hi, same]

theorem mapOuts_modEng_same {f : Engine → Engine} (same : ∀ g, (f g).outState = g.outState) :
    (s.modEng e f).mapOuts = s.mapOuts :=
  (mapOuts_modEng (out := id) same).trans (List.modify_id ..)

theorem mapOuts_setCtx (s : State) (e c : Nat) (f : Ctx → Ctx) : (s.setCtx e c f).mapOuts = s.mapOuts :=
  mapOuts_modEng_same fun _ => wakeSlots_outState ..

theorem mapOuts_dropCtx (s : State) (e c : Nat) : (s.dropCtx e c).mapOuts = s.mapOuts :=
  mapOuts_modEng_same fun _ => keepCtxs_outState ..

end Sys2Proof.Machine
end

section
/-! SUPPORT. A job that ends with an error (R36, R115, R142): its record, and what its end leaves of the engines. -/

namespace Sys2Proof.Machine

variable {s t : State} {e c n uid st result : Nat} {x : Ctx} {j k : Job} {cause : CtxCause} {f : Ctx → Ctx}

/-! ## The record of an error (R36) -/

theorem firstError_ne_zero (old : Nat) (h : st ≠ 0) : firstError old st ≠ 0 := by
  unfold firstError
  split <;> assumption

theorem endStatus_of_error (h : j.status ≠ 0) (now : Nat) : j.endStatus now = j.status := if_pos h

/-- A job as it stands once an error is noted. -/
def Job.failed (j : Job) (st : Nat) : Job := { j with status := firstError j.status st }

theorem failed_recordWaits (hr : s.recorded j) (err : st ≠ 0) (qps : t.qps = s.qps) (result : Nat) :
    (t.finishJob (j.failed st) result).recordWaits j (firstError j.status st) result := by
  have will : s.WillRecord (j.failed st) := ⟨hr.willRecord.spoken, hr.willRecord.loud, hr.willRecord.enabled⟩
  have waits := finishJob_recordWaits (will.of_qps qps) result
  rwa [endStatus_of_error (firstError_ne_zero _ err)] at waits

theorem jobError_job? (found : s.job? uid = some j) : (s.jobError uid st).job? uid = some (j.failed st) := by
  rw [State.jobError, State.job_modJob_same s _ _ (by exact fun _ => rfl), found]
  rfl

/-- The job's work is withdrawn, and its error is noted. -/
theorem withdraw_jobError_job? (found : s.job? uid = some j) :
    ((s.jobError uid st).withdraw uid).job? uid = some (j.failed st) := by
  rw [State.job?_congr ((withdraw_keeps (Touch.Le.refl _) (Keeps.refl _ _)).jobs_eq rfl), jobError_job? found]

theorem withdraw_jobError_qps : ((s.jobError uid st).withdraw uid).qps = s.qps :=
  (withdraw_keeps (Touch.Le.refl _) (Keeps.refl _ (s.jobError uid st))).qps_eq rfl

theorem failJob_recordWaits (hr : s.recorded j) (err : st ≠ 0) (result : Nat) :
    (s.failJob j.uid st result).recordWaits j (firstError j.status st) result := by
  obtain ⟨found, -, -, unfinished, -⟩ := id hr
  have live : (j.failed st).finished = false := unfinished
  simp only [State.failJob, withdraw_jobError_job? found, live, Bool.false_eq_true, if_false]
  refine failed_recordWaits hr err ?_ result
  split
  · rw [(cancelEffects_keeps (Touch.Le.refl _) (Keeps.refl _ _)).qps_eq rfl, withdraw_jobError_qps]
  · exact withdraw_jobError_qps

theorem failJob'_recordWaits (hr : s.recorded j) (err : st ≠ 0) :
    (s.failJob' j.uid st).recordWaits j (firstError j.status st) j.progress := by
  rw [State.failJob', hr.1]
  exact failJob_recordWaits hr err j.progress

theorem exhaustJob_recordWaits (hr : s.recorded j) :
    (s.exhaustJob j.uid).recordWaits j (firstError j.status stExhausted) j.progress := by
  obtain ⟨found, -, -, unfinished, -⟩ := id hr
  have live : (j.failed stExhausted).finished = false := unfinished
  simp only [State.exhaustJob, withdraw_jobError_job? found, live, Bool.false_eq_true, if_false]
  refine failed_recordWaits hr (by decide) ?_ j.progress
  rw [(cancelEffects_keeps (Touch.Le.refl _) (Keeps.refl _ _)).qps_eq rfl, withdraw_jobError_qps]

theorem State.recorded.of_eq (hr : s.recorded j) (jobs : t.jobs = s.jobs) (qps : t.qps = s.qps) : t.recorded j := by
  obtain ⟨found, spoken, loud, unfinished, on⟩ := hr
  exact ⟨by rw [State.job?_congr jobs, found], spoken, loud, unfinished, by rw [State.qp, qps]; exact on⟩

/-! ## The engines after a job's end (R37, R116) -/

/-- Steps of the job that were still in the pipeline count no more. -/
def Engine.leftBy (uid : Nat) (g : Engine) : Engine := { g with leaving := g.leaving.filter fun x => x.uid != uid }

theorem finishJob_engines (s : State) (j : Job) (result : Nat) :
    (s.finishJob j result).engines = s.engines.map (Engine.leftBy j.uid) := by
  delta State.finishJob
  extract_lets -merge left settled served freed q
  have h2 : Keeps ⟨Touch.nothing.kvs.slots, left⟩ settled :=
    keepsFold (Q := Keeps _) (settleAppends_keeps rfl (Keeps.refl _ left)) fun _ _ h => freeFrame_keeps rfl h
  have h3 : Keeps ⟨Touch.nothing.kvs.slots, left⟩ served := by
    unfold served
    split
    · exact advanceEpoch_keeps rfl h2
    · exact h2
  have h4 : Keeps ⟨Touch.nothing.kvs.slots, left⟩ freed := by
    unfold freed
    split
    · exact Keeps.upd rfl h3 (g := Touch.nothing.slots) rfl rfl ⟨rfl, rfl⟩ rfl
    · exact h3
  have same : freed.engines = left.engines := h4.engines_eq rfl
  split
  · rw [(retireJob_keeps (Touch.Le.refl _) (Keeps.refl _ freed)).engines_eq rfl, same]
    rfl
  · rw [State.modJob_engines, (queueComp_keeps (Touch.Le.refl _) (Keeps.refl _ freed)).engines_eq rfl, same]
    rfl

/-- A job's end with an error takes its work off the engines, and nothing else. -/
theorem failJob_engines (s : State) (uid st result : Nat) :
    (s.failJob uid st result).engines = (s.withdrawTasks uid).engines ∨
      ∃ u, (s.failJob uid st result).engines = (s.withdrawTasks uid).engines.map (Engine.leftBy u) := by
  have withdrawn : ((s.jobError uid st).withdraw uid).engines = (s.withdrawTasks uid).engines := withdraw_engines _ _
  simp only [State.failJob]
  split
  next => exact .inl withdrawn
  next j _ =>
    split
    next => exact .inl withdrawn
    next =>
      refine .inr ⟨j.uid, ?_⟩
      rw [finishJob_engines]
      congr 1
      split
      · rw [(cancelEffects_keeps (Touch.Le.refl _) (Keeps.refl _ _)).engines_eq rfl, withdrawn]
      · exact withdrawn

theorem mapOuts_withdrawTasks (s : State) (uid : Nat) : (s.withdrawTasks uid).mapOuts = s.mapOuts :=
  mapOuts_map fun _ => keepCtxs_outState ..

theorem mapOuts_failJob (s : State) (uid st result : Nat) : (s.failJob uid st result).mapOuts = s.mapOuts := by
  rw [← mapOuts_withdrawTasks s uid]
  rcases failJob_engines s uid st result with same | ⟨u, same⟩
  · exact mapOuts_congr same
  · rw [State.mapOuts, same]
    exact mapOuts_map fun _ => rfl

theorem mapOuts_failJob' (s : State) (uid st : Nat) : (s.failJob' uid st).mapOuts = s.mapOuts := by
  unfold State.failJob'
  split
  · rfl
  · exact mapOuts_failJob ..

/-- A FAULTED context keeps its record and its cause for Kadon, whatever job ends (R115, R116). -/
theorem failJob_ctx? (found : s.ctx? e c = some x) (faulted : x.state = .faulted) :
    (s.failJob uid st result).ctx? e c = some x := by
  have he : e < s.engines.length := by
    by_contra out
    rw [State.ctx?, State.eng, List.getD_eq_default _ _ (by omega)] at found
    cases found
  have withdrawn : (s.withdrawTasks uid).ctx? e c = some x := by
    have eng : (s.withdrawTasks uid).eng e = _ :=
      (List.getD_eq_getElem _ _ (by simpa [State.withdrawTasks] using he)).trans (List.getElem_map _)
    rw [State.ctx?, eng]
    refine keepCtxs_find? ?_ (by simp [faulted]) (.inr (by simp [faulted]))
    rwa [State.ctx?, State.eng, List.getD_eq_getElem _ _ he] at found
  rcases failJob_engines s uid st result with same | ⟨u, same⟩
  · rw [State.ctx?_congr (t := s.failJob uid st result) same, withdrawn]
  · rw [← withdrawn, State.ctx?, State.ctx?, State.eng, same]
    exact congrArg (fun g : Engine => g.ctxs.find? fun x => x.idx == c) (List.getD_map _ Engine.reset (Engine.leftBy u))

theorem failJob'_ctx? (found : s.ctx? e c = some x) (faulted : x.state = .faulted) :
    (s.failJob' uid st).ctx? e c = some x := by
  unfold State.failJob'
  split
  · exact found
  · exact failJob_ctx? found faulted

/-! ## A context's fault (R115) -/

/-- The context as its fault leaves it: its fetch-pool slots are free. -/
def Ctx.faultedBy (x : Ctx) (cause : CtxCause) : Ctx := { x with state := .faulted, cause := cause, slotsHeld := 0 }

theorem setCtx_keeps_rest (s : State) (e c : Nat) (f : Ctx → Ctx) : Keeps ⟨Touch.nothing.engines, s⟩ (s.setCtx e c f) :=
  setCtx_keeps rfl (Keeps.refl _ s)

theorem faultCtx_ctx? (he : e < s.engines.length) (found : s.ctx? e x.idx = some x) :
    (s.faultCtx e x cause st).ctx? e x.idx = some (x.faultedBy cause) :=
  failJob'_ctx? (State.ctx?_setCtx he found (f := fun x => x.faultedBy cause) (fun _ h => h) (.inr (by simp [Ctx.faultedBy]))) rfl

theorem faultCtx_recordWaits (hr : s.recorded j) (mine : x.uid = j.uid) (err : st ≠ 0) :
    (s.faultCtx e x cause st).recordWaits j (firstError j.status st) j.progress := by
  have kept := setCtx_keeps_rest s e x.idx fun x => x.faultedBy cause
  change ((s.setCtx e x.idx fun x => x.faultedBy cause).failJob' x.uid st).recordWaits _ _ _
  rw [mine]
  exact failJob'_recordWaits (hr.of_eq (kept.jobs_eq rfl) (kept.qps_eq rfl)) err

end Sys2Proof.Machine
end

section
/-! SUPPORT. Steps of a context (R102, R106, R142): the context that a finished step leaves, and what a step of an ARRAY task and
one of a span task do to it and to the engine. -/

namespace Sys2Proof.Machine

variable {s t : State} {e c n epoch : Nat} {x y : Ctx} {met : StepMet}

/-! ## The context after a step -/

/-- `y` is `x` in another state of its scheduling, and waits for no fetch-pool slots. -/
structure Ctx.Rescheduled (x y : Ctx) : Prop where
  idx : y.idx = x.idx
  words : y.words = x.words
  done : y.done = x.done
  acc : y.acc = x.acc
  written : y.written = x.written
  awaitUnit : y.awaitUnit = x.awaitUnit
  fed : y.starved = false

theorem Ctx.Rescheduled.trans {z : Ctx} (h : x.Rescheduled y) (h' : y.Rescheduled z) : x.Rescheduled z :=
  ⟨h'.idx.trans h.idx, h'.words.trans h.words, h'.done.trans h.done, h'.acc.trans h.acc, h'.written.trans h.written,
    h'.awaitUnit.trans h.awaitUnit, h'.fed⟩

theorem Ctx.Rescheduled.wake (h : x.Rescheduled y) (now : Nat) (val : Nat → Nat) : x.Rescheduled (y.wake now val) := by
  refine h.trans ?_
  unfold Ctx.wake
  repeat' split
  all_goals exact ⟨rfl, rfl, rfl, rfl, rfl, rfl, h.fed⟩

theorem afterStep_rescheduled (s : State) (x : Ctx) : x.Rescheduled (s.afterStep x) := by
  delta State.afterStep
  extract_lets fed total base combining
  have here : x.Rescheduled fed := ⟨rfl, rfl, rfl, rfl, rfl, rfl, rfl⟩
  split
  · exact here.trans ⟨rfl, rfl, rfl, rfl, rfl, rfl, rfl⟩
  split
  · have waiting : x.Rescheduled combining := here.trans ⟨rfl, rfl, rfl, rfl, rfl, rfl, rfl⟩
    exact waiting.wake _ _
  repeat' split
  all_goals exact here.trans ⟨rfl, rfl, rfl, rfl, rfl, rfl, rfl⟩

theorem runStep_done (result : s.stepResult e x = .done t y) :
    s.runStep e x = t.setCtx e x.idx fun _ => t.afterStep { y with slotsHeld := y.slotsHeld - t.stepSlots y.words x.done } := by
  simp only [State.runStep, result]

/-- A step that is done: the context of that number holds what the step made of it. -/
theorem runStep_ctx? (result : s.stepResult e x = .done t y) (he : e < t.engines.length) (found : t.ctx? e x.idx = some x)
    (idx : y.idx = x.idx) : ∃ z, (s.runStep e x).ctx? e x.idx = some z ∧ y.Rescheduled z := by
  let held : Ctx := { y with slotsHeld := y.slotsHeld - t.stepSlots y.words x.done }
  have next : held.Rescheduled (t.afterStep held) := afterStep_rescheduled t held
  have left : y.Rescheduled (t.afterStep held) :=
    ⟨next.idx, next.words, next.done, next.acc, next.written, next.awaitUnit, next.fed⟩
  refine ⟨_, ?_, left⟩
  rw [runStep_done result]
  exact State.ctx?_setCtx he found (fun _ _ => left.idx.trans idx) (.inl left.fed)

/-! ## What a step does to its engine -/

/-- Of the engines, only the counts of saturations of `e` differ (R60). -/
theorem ctx?_countSat (s : State) (e dec pack c : Nat) : (s.countSat e dec pack).ctx? e c = s.ctx? e c := by
  by_cases he : e < s.engines.length
  · exact State.ctx?_modEng he _
  · exact State.ctx?_congr (List.modify_eq_self (by omega)) e c

theorem countSat_length (s : State) (e dec pack : Nat) : (s.countSat e dec pack).engines.length = s.engines.length :=
  List.length_modify ..

theorem dataFaults_engines (s : State) (e k : Nat) (x : Ctx) : (s.dataFaults e k x).engines = s.engines :=
  (keepsFold (Q := Keeps ⟨Touch.nothing.record, s⟩) (Keeps.refl _ s) fun _ _ h => raise_keeps rfl h).engines_eq rfl

theorem beat_ctx? (he : e < s.engines.length) : (s.beat e).ctx? e c = s.ctx? e c := by
  rw [State.beat, State.ctx?_modEng he, Engine.rampUp]
  split <;> rfl

/-! ## A step of an ARRAY task (R64, R102, R132) -/

/-- The steps of a task without attention are counted from its record alone. -/
theorem totalSteps_of_not_attn {w : List Nat} (plain : isAttn w = false) (s t : State) : s.totalSteps w = t.totalSteps w := by
  simp [State.totalSteps, State.baseSteps, plain]

/-- The sums that a step's groups add to, the saturations and the DATA occurrences of DECODE, in R64's order. -/
def State.arraySums (s : State) (epoch : Nat) (x : Ctx) : List F32 × Nat × Nat :=
  (stepGroups x.words x.done).foldl (fun (a : List F32 × Nat × Nat) g =>
    let b := s.arrayGroup x.words x.part epoch g a.1
    (b.1, a.2.1 + b.2.1, a.2.2 + b.2.2)) (x.acc, 0, 0)

theorem arraySums_acc (s : State) (epoch : Nat) (x : Ctx) :
    (s.arraySums epoch x).1 = (stepGroups x.words x.done).foldl (fun a g => (s.arrayGroup x.words x.part epoch g a).1) x.acc :=
  (List.foldl_hom Prod.fst fun _ _ => rfl).symm

/-- The state in which such a step has run: a beat, its saturations and its occurrences. -/
def State.arrayRun (s : State) (e epoch : Nat) (x : Ctx) : State :=
  ((s.beat e).countSat e (s.arraySums epoch x).2.1 0).dataFaults e (s.arraySums epoch x).2.2 x

theorem arrayStep_done (plain : isAttn x.words = false) (more : x.done < s.baseSteps x.words)
    (notLast : x.done + 1 ≠ s.totalSteps x.words) :
    s.arrayStep e epoch x = .done (s.arrayRun e epoch x) { x with acc := (s.arraySums epoch x).1, done := x.done + 1 } := by
  simp only [State.arrayStep, more, if_true]
  exact if_neg (totalSteps_of_not_attn plain _ s ▸ notLast)

theorem arrayRun_ctx? (he : e < s.engines.length) : (s.arrayRun e epoch x).ctx? e c = s.ctx? e c := by
  rw [State.arrayRun, State.ctx?_congr (dataFaults_engines ..), ctx?_countSat, beat_ctx? he]

theorem arrayRun_length : (s.arrayRun e epoch x).engines.length = s.engines.length := by
  rw [State.arrayRun, dataFaults_engines, countSat_length, State.beat, State.modEng_engines, List.length_modify]

theorem arrayRun_ramp (he : e < s.engines.length) : ((s.arrayRun e epoch x).eng e).ramp = ((s.eng e).rampUp s.now).ramp := by
  rw [State.arrayRun, State.eng, dataFaults_engines, ← State.eng, State.countSat,
    State.eng_modEng_same _ _ (by rw [State.beat, State.modEng_engines, List.length_modify]; exact he), State.beat,
    State.eng_modEng_same _ _ he]

theorem rampUp_ramp (g : Engine) (now : Nat) :
    (g.rampUp now).ramp = if g.ramp.up then g.ramp else
      { up := true, len := if g.rowsOn now = 0 then g.rampCycles else g.ramp.len, base := g.rowsOn now, since := now } := by
  unfold Engine.rampUp
  split <;> rfl

theorem setCtx_ramp (s : State) (c : Nat) (f : Ctx → Ctx) : ((s.setCtx e c f).eng e).ramp = (s.eng e).ramp := by
  by_cases he : e < s.engines.length
  · rw [State.setCtx, State.eng_modEng_same _ _ he, wakeSlots_ramp]
  · rw [State.eng, State.setCtx, State.modEng_engines, List.modify_eq_self (by omega), State.eng]

/-! ## A span of a ROW or GATHER task (R106, R107, R141) -/

theorem appendStep_done {i : Nat} {v : List F32} (result : s.appendStep e x i v = .done t y) :
    y = { x with awaitUnit := none } ∧ ∃ (u : State) (pack : Nat), u.engines = s.engines ∧ t = u.countSat e 0 pack := by
  delta State.appendStep at result
  extract_lets w q pos old at result
  split at result
  · cases result
  split at result
  · cases result
  · split at result <;> cases result
  next u staged taken =>
    cases result
    have kept : Keeps ⟨Touch.nothing.parts.kvs, s⟩ u := KApp.of taken (appendTok_keeps (Touch.Le.refl _) (Keeps.refl _ s))
    refine ⟨rfl, _, _, ?_, rfl⟩
    split
    · exact kept.engines_eq rfl
    · exact kept.engines_eq rfl

theorem spanStep_done (result : s.spanStep e x = .done t y) :
    y = { x with
      awaitUnit := if tWMode x.words = 1 then none else x.awaitUnit, done := x.done + 1
      written := decide (x.done + 1 = tTokens x.words) } ∧
    t.engines.length = s.engines.length ∧ ∀ c, t.ctx? e c = s.ctx? e c := by
  have counted (u : State) (same : u.engines = s.engines) (pack k : Nat) :
      ((u.countSat e 0 pack).dataFaults e k x).engines.length = s.engines.length ∧
        ∀ c, ((u.countSat e 0 pack).dataFaults e k x).ctx? e c = s.ctx? e c := by
    refine ⟨by rw [dataFaults_engines, countSat_length, same], fun c => ?_⟩
    rw [State.ctx?_congr (dataFaults_engines ..), ctx?_countSat, State.ctx?_congr same]
  delta State.spanStep at result
  extract_lets w i r stored out at result
  split at result
  · cases result
  split at result
  · simp [State.outsideTask] at result
  split at result
  · cases result
  cases made : out with
  | fault | wait =>
    rw [made] at result
    cases result
  | done u z =>
    rw [made] at result
    cases result
    unfold out at made
    split at made
    next append =>
      obtain ⟨rfl, v, pack, same, rfl⟩ := appendStep_done made
      exact ⟨by rw [if_pos append], counted v same pack _⟩
    next store =>
      cases made
      have kept : Keeps ⟨Touch.nothing.mems.dram.record, s⟩ stored.1 :=
        storeSpan_keeps (Touch.Le.refl _) (Keeps.refl _ s)
      exact ⟨by rw [if_neg store], counted stored.1 (kept.engines_eq rfl) _ _⟩

theorem stepResult_span (span : tKind x.words ≠ 0) : s.stepResult e x = s.spanStep e x := by
  simp [State.stepResult, span]

theorem runStep_span (he : e < s.engines.length) (found : s.ctx? e x.idx = some x) (span : tKind x.words ≠ 0)
    (isDone : (s.spanStep e x).isDone = true) :
    ∃ y, (s.runStep e x).ctx? e x.idx = some y ∧ y.done = x.done + 1 ∧
      y.written = decide (x.done + 1 = tTokens x.words) ∧ (tWMode x.words = 1 → y.awaitUnit = none) := by
  cases result : s.spanStep e x with
  | fault => simp [result, StepRes.isDone] at isDone
  | wait => simp [result, StepRes.isDone] at isDone
  | done t y =>
    obtain ⟨rfl, length, same⟩ := spanStep_done result
    obtain ⟨z, here, left⟩ :=
      runStep_ctx? ((stepResult_span span).trans result) (length.symm ▸ he) ((same _).trans found) rfl
    exact ⟨z, here, left.done, left.written, fun append => left.awaitUnit.trans (if_pos append)⟩

theorem stepResult_array (array : tKind x.words = 0) (plain : isAttn x.words = false) :
    s.stepResult e x = s.arrayStep e (((s.job? x.uid).map Job.epoch).getD 0) x := by
  simp [State.stepResult, array, plain]

theorem runStep_array (he : e < s.engines.length) (found : s.ctx? e x.idx = some x) (array : tKind x.words = 0)
    (plain : isAttn x.words = false) (more : x.done < s.baseSteps x.words) (notLast : x.done + 1 ≠ s.totalSteps x.words) :
    (∃ y, (s.runStep e x).ctx? e x.idx = some y ∧ y.done = x.done + 1 ∧ y.words = x.words ∧
      y.acc = (stepGroups x.words x.done).foldl
        (fun a g => (s.arrayGroup x.words x.part (((s.job? x.uid).map Job.epoch).getD 0) g a).1) x.acc) ∧
    ((s.runStep e x).eng e).ramp = ((s.eng e).rampUp s.now).ramp := by
  have result := (stepResult_array (s := s) (e := e) array plain).trans (arrayStep_done plain more notLast)
  obtain ⟨z, here, left⟩ := runStep_ctx? result (arrayRun_length.symm ▸ he) ((arrayRun_ctx? he).trans found) rfl
  refine ⟨⟨z, here, left.done, left.words, left.acc.trans (arraySums_acc ..)⟩, ?_⟩
  rw [runStep_done result, setCtx_ramp, arrayRun_ramp he]

/-! ## A step that completes without an error (R115, R416) -/

theorem cleanStep_runs (reads : ((s.stepReads x).all fun r => (s.badWords r.1 r.2).isEmpty) = true)
    (sound : (s.readGroups x).any Group.poisoned = false) (reach : s.fetchReach x = true) (inside : s.readsOk e x = true) :
    s.cleanStep e x = s.runStep e x := by
  have good : ((s.stepReads x).flatMap fun r => s.badWords r.1 r.2) = [] := by
    simpa using reads
  simp [State.cleanStep, inside, good, sound, reach]

theorem exec_fetchStepComplete (found : s.ctx? e c = some x) (on : (s.eng e).domain.powered = true) (well : x.state ≠ .faulted)
    (inHand : x.done < x.steps) (free : x.awaitUnit = none) :
    exec (.fetchStepComplete e c met) s = .next (s.completeStep e x met) := by
  simp [exec, execFetchStepComplete, found, on, well, inHand, free]

end Sys2Proof.Machine
end

section
/-! SUPPORT. The checksums of a group (R129): what the edge forms are sums over the 64 rows, so the checker's equalities hold of
the cells' sums, and one wrong cell stands in exactly one of them on one side. -/

namespace Sys2Proof.Machine

variable {n i j k row col : Nat} {delta : Int} {stripe : Bool} {a b m : List (List Int)} {cell : Nat → Nat → Int}

/-! ## Sums -/

theorem dot_eq_sum {u v : List Int} (hv : v.length ≤ n) : dot u v = ∑ k ∈ Finset.range n, u.getD k 0 * v.getD k 0 := by
  induction u generalizing v n with
  | nil => simp [dot]
  | cons x u ih =>
    cases v with
    | nil => simp [dot]
    | cons y v =>
      obtain ⟨n, rfl⟩ : ∃ p, n = p + 1 := ⟨n - 1, by simp at hv; omega⟩
      rw [dot, ih (Nat.le_of_succ_le_succ hv), Finset.sum_range_succ']
      simp [add_comm]

/-- A list of at most `n` rows, summed by row number: rows that are not there count nothing. -/
theorem sum_map_eq_sum_getD {α : Type} {l : List α} {d : α} (f : α → Int) (hl : l.length ≤ n) (hd : f d = 0) :
    (l.map f).sum = ∑ i ∈ Finset.range n, f (l.getD i d) := by
  induction l generalizing n with
  | nil => simp [hd]
  | cons x l ih =>
    obtain ⟨n, rfl⟩ : ∃ p, n = p + 1 := ⟨n - 1, by simp at hl; omega⟩
    rw [List.map_cons, List.sum_cons, ih (Nat.le_of_succ_le_succ hl), Finset.sum_range_succ']
    simp [add_comm]

/-! ## What the edge forms (R129) -/

/-- At most 64 rows of images, all of the group's `n` elements. -/
structure Images (n : Nat) (m : List (List Int)) : Prop where
  rows : m.length ≤ 64
  width : ∀ r ∈ m, r.length = n

theorem edgeRow_length (h : Images n m) (i : Nat) : (edgeRow m i).length ≤ n := by
  have row (r : List Int) (hr : r ∈ m ∨ r = []) : r.length ≤ n :=
    hr.elim (fun hr => (h.width r hr).le) fun hr => by simp [hr]
  unfold edgeRow
  split
  · refine row _ ?_
    by_cases hi : i < m.length
    · exact .inl (by rw [List.getD_eq_getElem _ _ hi]; exact List.getElem_mem hi)
    · exact .inr (List.getD_eq_default _ _ (by omega))
  · rw [List.length_map, List.length_range]
    cases m with
    | nil => simp
    | cons r m => exact row r (.inl List.mem_cons_self)

theorem edgeRow_sum_getD (h : Images n m) (k : Nat) :
    (edgeRow m 64).getD k 0 = ∑ i ∈ Finset.range 64, (edgeRow m i).getD k 0 := by
  have rows : ∑ i ∈ Finset.range 64, (edgeRow m i).getD k 0 = (m.map fun r => r.getD k 0).sum := by
    rw [sum_map_eq_sum_getD (d := []) _ h.rows (by simp)]
    exact Finset.sum_congr rfl fun i hi => by rw [edgeRow, if_pos (Finset.mem_range.1 hi)]
  rw [rows, edgeRow, if_neg (by omega)]
  cases m with
  | nil => simp
  | cons r m =>
    have width : ((r :: m).headD []).length = n := h.width r List.mem_cons_self
    rw [width]
    by_cases hk : k < n
    · simp [List.getD_eq_getElem?_getD, hk]
    · have short (q : List Int) (hq : q ∈ r :: m) : q.getD k 0 = 0 := List.getD_eq_default _ _ (by rw [h.width q hq]; omega)
      rw [List.getD_eq_default _ _ (by simpa using hk), List.map_congr_left short]
      simp

theorem cellSum_eq_sum (hb : Images n b) (i j : Nat) :
    cellSum a b i j = ∑ k ∈ Finset.range n, (edgeRow a i).getD k 0 * (edgeRow b j).getD k 0 :=
  dot_eq_sum (edgeRow_length hb j)

/-- The checksum column of a row, and of the checksum row. -/
theorem cellSum_row (hb : Images n b) (i : Nat) : ∑ j ∈ Finset.range 64, cellSum a b i j = cellSum a b i 64 := by
  simp only [cellSum_eq_sum hb]
  rw [Finset.sum_comm]
  exact Finset.sum_congr rfl fun k _ => by rw [← Finset.mul_sum, edgeRow_sum_getD hb]

/-- The checksum row of a column, and of the checksum column. -/
theorem cellSum_col (ha : Images n a) (hb : Images n b) (j : Nat) :
    ∑ i ∈ Finset.range 64, cellSum a b i j = cellSum a b 64 j := by
  simp only [cellSum_eq_sum hb]
  rw [Finset.sum_comm]
  exact Finset.sum_congr rfl fun k _ => by rw [← Finset.sum_mul, edgeRow_sum_getD ha]

/-! ## The checker -/

theorem checksHold_iff :
    checksHold stripe cell = true ↔
      (∀ i < 64, ∑ j ∈ Finset.range 64, cell i j = cell i 64) ∧
        (stripe = true ∨ (∀ j < 64, ∑ i ∈ Finset.range 64, cell i j = cell 64 j) ∧
          ∑ i ∈ Finset.range 64, cell i 64 = cell 64 64 ∧ ∑ j ∈ Finset.range 64, cell 64 j = cell 64 64) := by
  have sum (f : Nat → Int) : ((List.range 64).map f).sum = ∑ i ∈ Finset.range 64, f i := rfl
  simp only [checksHold, sum, Bool.and_eq_true, Bool.or_eq_true, List.all_eq_true, List.mem_range, beq_iff_eq, and_assoc]

theorem checksWith_zero (ha : Images n a) (hb : Images n b) : checksWith stripe a b row col 0 = true := by
  simp only [checksWith, ite_self, add_zero]
  exact checksHold_iff.2 ⟨fun i _ => cellSum_row hb i,
    .inr ⟨fun j _ => cellSum_col ha hb j, cellSum_col ha hb 64, cellSum_row hb 64⟩⟩

/-- The sum of a row of the grid in which cell (row, col) is off. -/
theorem off_row (i : Nat) : ∑ j ∈ Finset.range 64, (cell i j + if i = row ∧ j = col then delta else 0) =
    (∑ j ∈ Finset.range 64, cell i j) + if i = row ∧ col < 64 then delta else 0 := by
  rw [Finset.sum_add_distrib]
  by_cases hi : i = row <;> simp [hi]

theorem off_col (j : Nat) : ∑ i ∈ Finset.range 64, (cell i j + if i = row ∧ j = col then delta else 0) =
    (∑ i ∈ Finset.range 64, cell i j) + if row < 64 ∧ j = col then delta else 0 := by
  rw [Finset.sum_add_distrib]
  by_cases hj : j = col <;> simp [hj]

/-- A wrong cell of a row shows in the row's equality, one of the checksum row in its column's, the corner in the column's sum. -/
theorem checksWith_off (ha : Images n a) (hb : Images n b) (hrow : row ≤ 64) (hcol : col ≤ 64)
    (seen : stripe = false ∨ row < 64) (off : delta ≠ 0) : checksWith stripe a b row col delta = false := by
  rw [← Bool.not_eq_true, checksWith, checksHold_iff]
  simp only [Bool.and_eq_true, decide_eq_true_eq, off_row, off_col, cellSum_row hb, cellSum_col ha hb]
  rintro ⟨rows, tile⟩
  refine off ?_
  by_cases hr : row < 64
  · by_cases hc : col < 64
    · simpa [hc, hc.ne'] using rows row hr
    · obtain rfl : col = 64 := by omega
      simpa using rows row hr
  · obtain rfl : row = 64 := by omega
    have whole : stripe = false := seen.resolve_right (by omega)
    obtain ⟨cols, corner, -⟩ := tile.resolve_left (by simp [whole])
    by_cases hc : col < 64
    · simpa using cols col hc
    · obtain rfl : col = 64 := by omega
      simpa using corner

end Sys2Proof.Machine
end

section
/-! SUPPORT. Checksum mismatches and map-out (R130, R131, R416), the faults of a step (R115), and appends that wait (R142). -/

namespace Sys2Proof.Machine

variable {s t : State} {e c n uid st : Nat} {x : Ctx} {j : Job} {met : StepMet} {cause : CtxCause} {out : OutCause}

/-! ## What leaves every engine mapped out or not as it was -/

theorem mapOuts_faultCtx (s : State) (e : Nat) (x : Ctx) (cause : CtxCause) (st : Nat) :
    (s.faultCtx e x cause st).mapOuts = s.mapOuts :=
  (mapOuts_failJob' ..).trans (mapOuts_setCtx ..)

theorem mapOuts_noteMismatch (s : State) (e : Nat) (x : Ctx) : (s.noteMismatch e x).mapOuts = s.mapOuts := by
  have raised : (s.recordOf e x 3 0 0).engines = s.engines :=
    (recordOf_keeps (Touch.Le.refl _) (Keeps.refl _ s)).engines_eq rfl
  rw [State.noteMismatch, mapOuts_modEng_same (by exact fun _ => rfl), mapOuts_congr raised]

theorem mapOuts_rerun (s : State) (e : Nat) (w : Placed) : (s.rerun e w).mapOuts = s.mapOuts := by
  simp only [State.rerun]
  split
  · rfl
  split
  · rfl
  split
  · exact mapOuts_failJob' ..
  split
  · exact mapOuts_failJob' ..
  · rfl

theorem mapOuts_failEngineless (s : State) : s.failEngineless.mapOuts = s.mapOuts :=
  keepsFold (Q := fun t : State => t.mapOuts = s.mapOuts) rfl fun t _ same => (mapOuts_failJob' t ..).trans same

/-! ## Map-out (R416) -/

/-- The engine is out with its cause, and whatever follows for its tasks and their jobs, no other engine goes out with it. -/
theorem mapOuts_mapOutEngine (on : (s.eng e).mappedOut = false) :
    (s.mapOutEngine e out).mapOuts = s.mapOuts.modify e fun _ => (true, out) := by
  delta State.mapOutEngine
  extract_lets -merge g tasks gone queue counted recorded traced moved ended
  have h1 : gone.mapOuts = s.mapOuts.modify e fun _ => (true, out) := mapOuts_modEng fun _ => rfl
  have h2 : recorded.engines = gone.engines := by
    unfold recorded
    split
    · exact (raise_keeps (Touch.Le.refl _) (Keeps.refl _ counted)).engines_eq rfl
    · rfl
  have h3 : traced.engines = gone.engines :=
    ((traceEvent_keeps (Touch.Le.refl _) (Keeps.refl _ recorded)).engines_eq rfl).trans h2
  have h4 : moved.mapOuts = gone.mapOuts :=
    keepsFold (Q := fun t : State => t.mapOuts = gone.mapOuts) (mapOuts_congr h3) fun t _ same => (mapOuts_rerun t ..).trans same
  have h5 : ended.mapOuts = _ := (mapOuts_failEngineless moved).trans (h4.trans h1)
  rw [on, if_neg Bool.false_ne_true]
  split
  · rw [← h5]
    exact mapOuts_congr ((setFault_keeps (Touch.Le.refl _) (Keeps.refl _ ended)).engines_eq rfl)
  · exact h5

theorem mapOutEngine_out (he : e < s.engines.length) (on : (s.eng e).mappedOut = false) :
    ((s.mapOutEngine e out).eng e).mappedOut = true ∧ ((s.mapOutEngine e out).eng e).outCause = out := by
  have read := mapOuts_getD (s.mapOutEngine e out) e
  rw [mapOuts_mapOutEngine on, getD_modify_same _ _ _ (by rwa [mapOuts_length])] at read
  exact ⟨congrArg Prod.fst read.symm, congrArg Prod.snd read.symm⟩

/-! ## Mismatches (R130, R131) -/

/-- Mismatches of an engine within the 10 ms before now. -/
def State.recentMismatches (s : State) (e : Nat) : List Nat := (s.eng e).mismatches.filter fun t => decide (s.now ≤ t + 1000000)

theorem noteMismatch_now : (s.noteMismatch e x).now = s.now :=
  (noteMismatch_keeps (Touch.Le.refl _) (Keeps.refl _ s)).now_eq rfl

theorem noteMismatch_length : (s.noteMismatch e x).engines.length = s.engines.length := by
  rw [← mapOuts_length, mapOuts_noteMismatch, mapOuts_length]

theorem noteMismatch_reported : (s.noteMismatch e x).reported e 3 := raise_reported ..

theorem noteMismatch_eng (he : e < s.engines.length) :
    (s.noteMismatch e x).eng e = { s.eng e with mismatches := s.now :: s.recentMismatches e } := by
  have raised := raise_keeps (source := e) (cls := 3) (detail := 0) (part := some x.part) (tag := tTag x.words) (info := 0)
    (Touch.Le.refl _) (Keeps.refl _ s)
  have same : (s.recordOf e x 3 0 0).engines = s.engines := raised.engines_eq rfl
  rw [State.noteMismatch, State.eng_modEng_same _ _ (by rwa [same])]
  simp only [State.eng, same, State.recentMismatches]

theorem noteMismatch_ctx? (he : e < s.engines.length) : (s.noteMismatch e x).ctx? e c = s.ctx? e c := by
  rw [State.ctx?, noteMismatch_eng he, State.ctx?]

/-- The third mismatch within 10 ms is the one that finds two others. -/
theorem thirdIn_noteMismatch (he : e < s.engines.length) :
    thirdIn ((s.noteMismatch e x).eng e).mismatches (s.noteMismatch e x).now = decide (2 ≤ (s.recentMismatches e).length) := by
  have again : (s.recentMismatches e).filter (fun t => decide (s.now ≤ t + 1000000)) = s.recentMismatches e := by
    simp [State.recentMismatches]
  rw [noteMismatch_eng he, noteMismatch_now, thirdIn, List.filter_cons_of_pos (by simp), again, List.length_cons]
  simp

theorem mismatch_restarts (he : e < s.engines.length) (fresh : x.lastChance = false) (first : x.runs = 0)
    (few : (s.recentMismatches e).length < 2) : s.mismatch e x = (s.noteMismatch e x).restartCtx e x := by
  have notThird : thirdIn ((s.noteMismatch e x).eng e).mismatches (s.noteMismatch e x).now = false := by
    simp [thirdIn_noteMismatch he, few]
  simp only [State.mismatch, notThird, fresh, first]
  rfl

theorem mismatch_third (he : e < s.engines.length) (third : 2 ≤ (s.recentMismatches e).length) :
    ∃ t : State, t.mapOuts = s.mapOuts ∧ s.mismatch e x = t.mapOutEngine e .checksum := by
  have isThird : thirdIn ((s.noteMismatch e x).eng e).mismatches (s.noteMismatch e x).now = true := by
    simp [thirdIn_noteMismatch he, third]
  have noted := mapOuts_noteMismatch s e x
  delta State.mismatch
  extract_lets -merge marked out ended w pool resident moved
  have isOut : out = true := isThird
  have h1 : ended.mapOuts = s.mapOuts := (mapOuts_faultCtx ..).trans noted
  have h2 : moved.mapOuts = s.mapOuts := by
    unfold moved
    split
    · exact (mapOuts_faultCtx ..).trans noted
    · exact (mapOuts_rerun ..).trans ((mapOuts_dropCtx ..).trans noted)
  simp only [isOut, Bool.not_true, Bool.false_and, Bool.false_eq_true, if_true, if_false]
  split
  · exact ⟨ended, h1, rfl⟩
  · exact ⟨moved, h2, rfl⟩

/-- The context as a retry on the same engine begins it. -/
def Ctx.restarted (x : Ctx) (now : Nat) : Ctx :=
  { x.clear with
    state := .ready, starved := false, combining := false, steps := 0, done := 0, slotsHeld := 0, written := false
    readySince := now, runs := x.runs + 1 }

theorem restartCtx_ctx? (he : e < s.engines.length) (found : s.ctx? e x.idx = some x) :
    (s.restartCtx e x).ctx? e x.idx = some (x.restarted s.now) :=
  State.ctx?_setCtx he found (f := fun x => x.restarted s.now) (fun _ h => h) (.inl rfl)

theorem checkStep_mismatch {group row col : Nat} {delta : Int} {a b : List (List Int)}
    (images : s.stepImages (((s.job? x.uid).map Job.epoch).getD 0) x group = some (a, b))
    (shown : checksWith (tStripe x.words) a b row col delta = false) : s.checkStep e x group row col delta = s.mismatch e x := by
  simp [State.checkStep, images, shown]

/-! ## The faults of a step (R115) -/

/-- What the step met, the cause that its context keeps, and the status of its job. -/
def stepFaults : List (StepMet × CtxCause × Nat) :=
  [(.uncorrectable, .dataUncorrected, 0x50), (.linkDown, .link, 0x80), (.parity, .none, 0x60), (.writeError, .writeError, 0x60)]

theorem completeStep_faults (met_cause : (met, cause, st) ∈ stepFaults) :
    st ≠ 0 ∧ ∃ t : State, t.engines = s.engines ∧ t.jobs = s.jobs ∧ t.qps = s.qps ∧
      s.completeStep e x met = t.faultCtx e x cause st := by
  simp only [stepFaults, List.mem_cons, Prod.mk.injEq, List.not_mem_nil, or_false] at met_cause
  rcases met_cause with ⟨rfl, rfl, rfl⟩ | ⟨rfl, rfl, rfl⟩ | ⟨rfl, rfl, rfl⟩ | ⟨rfl, rfl, rfl⟩
  · have kept := poisonRead_keeps (x := x) (Touch.Le.refl _) (Keeps.refl _ s)
    exact ⟨by decide, _, kept.engines_eq rfl, kept.jobs_eq rfl, kept.qps_eq rfl, rfl⟩
  · exact ⟨by decide, s, rfl, rfl, rfl, rfl⟩
  · have kept := recordOf_keeps (e := e) (x := x) (cls := 5) (detail := 0) (info := 0) (Touch.Le.refl _) (Keeps.refl _ s)
    exact ⟨by decide, _, kept.engines_eq rfl, kept.jobs_eq rfl, kept.qps_eq rfl, rfl⟩
  · exact ⟨by decide, s, rfl, rfl, rfl, rfl⟩

/-! ## Appends that wait (R142) -/

theorem exec_sumpUnitGrant {part : Nat} (first : minBy (fun w => w.2.awaitUnit.getD 0) (s.waitingAppends part) = some (e, x)) :
    exec (.sumpUnitGrant part) s = .next (s.runStep e x) := by
  simp [exec, execSumpUnitGrant, first]

theorem exec_appendTimeout {since : Nat} (found : s.ctx? e c = some x) (waits : x.awaitUnit = some since) :
    exec (.appendTimeout e c) s =
      .next (if since + 100000 ≤ s.now ∧ x.state ≠ .faulted then s.exhaustJob x.uid else s) := by
  simp [exec, execAppendTimeout, found, waits, show msTicks = 100000 from rfl]

/-- Settles O45: each way a step ends has its rule, the checker's equalities are sums over the cells, and a mismatch counts
those of the 10 ms before it. -/
theorem stepsCompleteOrFault : Obligations.StepsCompleteOrFault := by
  unfold Obligations.StepsCompleteOrFault
  refine ⟨fun e c x s he on found well inHand free array plain reads sound reach inside more notLast => ?array,
    fun e c x s he on found well inHand free span reads sound reach inside isDone => ?span,
    fun e c met cause st x j s he on found well inHand free which job hr => ?faults,
    fun stripe n row col delta a b ha hb width hrow hcol seen off => ?checks,
    fun e c group row col delta a b x s he on found well inHand free images shown fresh first few => ?retried,
    fun e c group row col delta a b x s he on found well inHand free images shown third mapped => ?mappedOut,
    fun part e x s first he found span append isDone => ?granted,
    fun e c since x j s found waits due well job hr => ?exhausted, fun e c since x s found waits early => ?early⟩
  case array =>
    obtain rfl := State.ctx?_idx found
    obtain ⟨⟨y, here, done, words, acc⟩, ramp⟩ := runStep_array he found array plain more notLast
    refine answers_of ((exec_fetchStepComplete found on well inHand free).trans
      (congrArg _ (cleanStep_runs reads sound reach inside))) ⟨y, here, done, words, acc, ?_⟩
    rw [ramp, rampUp_ramp]
  case span =>
    obtain rfl := State.ctx?_idx found
    obtain ⟨y, here, done, written, -⟩ := runStep_span he found span isDone
    exact answers_of ((exec_fetchStepComplete found on well inHand free).trans
      (congrArg _ (cleanStep_runs reads sound reach inside))) ⟨y, here, done, written⟩
  case faults =>
    obtain rfl := State.ctx?_idx found
    obtain ⟨err, t, engines, jobs, qps, faulted⟩ := completeStep_faults (s := s) (e := e) (x := x) which
    refine answers_of ((exec_fetchStepComplete found on well inHand free).trans (congrArg _ faulted))
      ⟨?_, x.faultedBy cause, ?_, rfl, rfl, rfl⟩
    · exact faultCtx_recordWaits (hr.of_eq jobs qps) (State.job?_uid job).symm err
    · exact faultCtx_ctx? (engines ▸ he) ((State.ctx?_congr engines ..).trans found)
  case checks =>
    have ia : Images n a := ⟨ha, fun r hr => width r (List.mem_append_left _ hr)⟩
    have ib : Images n b := ⟨hb, fun r hr => width r (List.mem_append_right _ hr)⟩
    exact ⟨checksWith_zero ia ib, checksWith_off ia ib hrow hcol seen off⟩
  case retried =>
    obtain rfl := State.ctx?_idx found
    have restarts := (checkStep_mismatch (e := e) images shown).trans (mismatch_restarts he fresh first few)
    refine answers_of ((exec_fetchStepComplete found on well inHand free).trans (congrArg _ restarts)) ⟨?_, _, ?_, rfl⟩
    · exact noteMismatch_reported
    · rw [restartCtx_ctx? (noteMismatch_length.symm ▸ he) ((noteMismatch_ctx? he).trans found), noteMismatch_now,
        Ctx.restarted, first]
  case mappedOut =>
    obtain ⟨t, same, gone⟩ := mismatch_third (x := x) he third
    refine answers_of ((exec_fetchStepComplete found on well inHand free).trans
      (congrArg _ ((checkStep_mismatch (e := e) images shown).trans gone))) (mapOutEngine_out ?_ ?_)
    · rwa [← mapOuts_length, same, mapOuts_length]
    · exact (congrArg Prod.fst ((mapOuts_getD t e).symm.trans (same ▸ mapOuts_getD s e))).trans mapped
  case granted =>
    obtain ⟨y, here, done, -, taken⟩ := runStep_span he found span isDone
    exact answers_of (exec_sumpUnitGrant first) ⟨y, here, done, taken append⟩
  case exhausted =>
    refine answers_of ((exec_appendTimeout found waits).trans (congrArg _ (if_pos ⟨due, well⟩))) ?_
    rw [← State.job?_uid job]
    exact exhaustJob_recordWaits hr
  case early =>
    rw [exec_appendTimeout found waits, if_neg fun ⟨due, _⟩ => absurd early due.not_gt]

end Sys2Proof.Machine
end

section
/-! SUPPORT. Refutations: states in which TILE_LIST, CONTEXT_RELEASE and MERGE_FOLD do not do what their statements say, because
the statements range over states that the spec's own rules exclude. -/

namespace Sys2Proof.Machine

variable {s : State} {c : Instr} {P : State → Prop}

/-- The state that a command answers with. -/
def stateAfter (c : Instr) (s : State) : State :=
  match exec c s with
  | .next t => t
  | _ => s

theorem answers_stateAfter (h : answers c s P) : P (stateAfter c s) := by
  obtain ⟨t, ran, p⟩ := h
  rwa [stateAfter, ran]

/-! ## TILE_LIST of no record -/

/-- A TILE_LIST whose TASKS is 0. R113 has TASKS from 1 to 4,096, so TAKE_DESCRIPTOR refuses such a descriptor (R30). -/
def emptyTileList : Job :=
  { uid := 0, qp := 0, part := 0, jobId := 0, opcode := 0x30, expert := true, prio := 0, notify := false
    fence := false, words := [], startTs := 0, deadlineUs := 0, policy := 0, cp := 0, takenBy := 0, pool := []
    state := .queued, ending := none, epoch := 0, quality := 0, lateRaised := false, status := 0, finished := false
    silent := false, ctrs := none, window := none, unitWait := none, redo := [], partsOn := [], areas := [], shadowed := []
    ext := .none }

/-- That job in a partition without DRAM and without engines. -/
def emptyTileListState : State := { State.reset with
  qps := [{ Qp.reset with enabled := true }]
  jobs := { Jobs.reset with list := [emptyTileList] }
  kadon := { Kadon.reset with cps := [{ Cp.reset with state := .running }] } }

/-- Refutes O43: a list of no bytes has none outside the partition, so a TILE_LIST with TASKS = 0 goes on to its engines, and
without one it ends INVALID_DESCRIPTOR, where the first clause says DEVICE_FAULT. The clause lacks R113's TASKS of at least 1. -/
theorem not_tileListStarts : ¬ Obligations.TileListStarts := by
  unfold Obligations.TileListStarts
  rintro ⟨outside, -⟩
  have faulted := answers_stateAfter
    (outside 0 emptyTileList emptyTileListState (by decide +kernel) (by decide +kernel) (by decide +kernel))
  exact absurd faulted (by decide +kernel)

/-! ## CONTEXT_RELEASE of a context that still holds fetch-pool slots -/

/-- Context 0 of an engine, FAULTED with a fetch-pool slot. A fault gives up the slots of its context (`State.faultCtx`). -/
def faultedHolder : Ctx :=
  { Ctx.fresh 0 0 (Placed.first 0 0 [] []) [] with state := .faulted, slotsHeld := 1 }

/-- Context 1, which waits for slots. -/
def slotWaiter : Ctx :=
  { Ctx.fresh 1 1 (Placed.first 0 0 [] []) [] with state := .waitMem, starved := true }

def faultedHolderState : State :=
  { State.reset with engines := [{ Engine.reset with ctxs := [faultedHolder, slotWaiter] }] }

/-- Refutes O44: the release of a FAULTED context that holds a slot frees the slot, and the context that waits for one becomes
READY (R100), where the sixth clause says that every other context stays as it is. The clause lacks that a FAULTED context holds
no slots. The tenth clause fails too: it is an equivalence between the whole implication and r len / 64 < c, as `↔` binds weaker
than `→`, and at len = 0 and c = 0 its left side is true and its right side false. -/
theorem not_contextsScheduled : ¬ Obligations.ContextsScheduled := by
  unfold Obligations.ContextsScheduled
  rintro ⟨-, -, -, -, -, release, -⟩
  have ⟨_, _, others⟩ := answers_stateAfter
    (release 0 0 faultedHolder faultedHolderState (by decide +kernel) (by decide +kernel) (by decide +kernel))
  exact absurd (others 1 (by decide)) (by decide +kernel)

/-! ## MERGE_FOLD where two fault records have one number -/

/-- A merge whose fold reads an uncorrectable word. -/
def oneMerge : Merge :=
  { uid := 0, offset := 0, parts := 1, tokens := 0, dim := 0, retired := [0], folded := 0, dest := 0, pitch := 0, f32 := false
    signal := none }

/-- A sequence entry that its job created, so that the job's end releases the sequence (R41). -/
def createdEntry : Ent :=
  { index := 0, seqIdx := 0, handle := 0, created := true, oldLen := 0, ntok := 0, tokens := [], input := 0, sample := false
    logits := false, retrieval := 0, samplerAddr := 0, logitsAddr := 0, parents := [], path := [], node := none, ready := false
    rows := [], token := 0, tokenValid := false, allMasked := false, nanLogits := false, done := false }

/-- A sequence with one page, so that its release writes the page's table entry. -/
def onePageSeq : Seq :=
  { idx := 0, gen := 0, part := 0, slot := 0, variant := none, seed := [], prefillPool := false, len := 0, chunks := []
    dir := [(0, 0, 0, 0)] }

/-- A record of DRAM channel 0, of this moment, under the number that the next record will get. -/
def earlyRecord : Nat × FaultRec :=
  (0, { cls := 5, source := 0x20, part := none, mixed := false, afterLoss := false, continued := false, count := 1, firstTs := 0
        lastTs := 0, detail := 1, tag := 0, info := 0 })

/-- A serving job with the merge and the sequence; the page table's first word is poisoned and is written in part. -/
def doubledRecordState : State := { State.reset with
  qps := [{ Qp.reset with enabled := true }]
  jobs := { Jobs.reset with list :=
    [{ emptyTileList with opcode := 0x03, state := .running, ext := .serve [createdEntry] 0 0 none }] }
  merges := [oneMerge]
  seqs := [onePageSeq]
  parts := [{ Part.absent with pageTable := 1 }]
  dram := { Dram.reset with poisoned := [0] }
  faults := { State.reset.faults with recs := [earlyRecord] } }

/-- That state once the fold has met the error in bank group `g`. -/
def mergeFailed (g : Nat) : State :=
  ((doubledRecordState.sramError g (some 0) (Config.freeNat 1 % 0x600000)).drawFree.drawFree).failJob' 0 stData

theorem stateAfter_mergeFold : stateAfter (.mergeFold 0 true) doubledRecordState = mergeFailed (Config.freeNat 0 % 8) := rfl

/-- Refutes O46: the record of the shared-SRAM error gets the number of a record that stands in the queue already; the end of the
job then meets a poisoned word, its occurrence folds into that earlier record, and every record of the number becomes it
(`State.raise`). The fifth clause lacks that the records of the queue have numbers below FAULT_HEAD. -/
theorem not_tasksRetireAndMerge : ¬ Obligations.TasksRetireAndMerge := by
  unfold Obligations.TasksRetireAndMerge
  rintro ⟨-, -, -, -, uncorrectable, -⟩
  have lost : ∀ g < 8, ¬∃ h, h < 8 ∧ (mergeFailed g).reported (0x78 + h) 5 := by decide +kernel
  have ⟨_, _, recorded⟩ := answers_stateAfter (uncorrectable 0 oneMerge _ doubledRecordState
    (by decide +kernel) rfl (by decide +kernel) (by decide +kernel))
  rw [stateAfter_mergeFold] at recorded
  exact lost _ (Nat.mod_lt _ (by decide)) recorded

end Sys2Proof.Machine
end

section
/-! SUPPORT. Partitions, their caches and their page tables by number, and the epoch and the reclamation of an idle partition
(R148, R153, R154). -/

namespace Sys2Proof.Machine

variable {s t : State} {p n m i : Nat}

/-! ## Partitions and caches by number -/

theorem Keeps.kvs_eq {may : Touch} (h : Keeps ⟨may, s⟩ t) (hm : may.tKvs = false) : t.kvs = s.kvs := by
  rw [h.only]; simp [Touch.ow, hm]

theorem Keeps.moves_eq {may : Touch} (h : Keeps ⟨may, s⟩ t) (hm : may.tMoves = false) : t.moves = s.moves := by
  rw [h.only]; simp [Touch.ow, hm]

theorem shaped_kvs (h : s.shaped = true) : s.kvs.length = 8 := by
  simp only [State.shaped, Bool.and_eq_true, beq_iff_eq] at h
  omega

theorem kv_modKv_field {α : Type} (g : Kv → α) {f : Kv → Kv} (hf : ∀ k, g (f k) = g k) (m : Nat) :
    g ((s.modKv n f).kv m) = g (s.kv m) := by
  by_cases hm : n = m
  · subst hm
    by_cases hn : n < s.kvs.length
    · rw [State.kv_modKv_same s f hn, hf]
    · rw [State.kv, State.modKv_kvs, List.modify_eq_self (by omega), State.kv]
  · rw [State.kv_modKv_other s f hm]

/-- A change that leaves an absent cache absent reads back for every number. -/
theorem kv_modKv_of_empty {f : Kv → Kv} (hf : f Kv.empty = Kv.empty) : (s.modKv n f).kv n = f (s.kv n) := by
  by_cases hn : n < s.kvs.length
  · exact State.kv_modKv_same s f hn
  · rw [State.kv, State.modKv_kvs, List.modify_eq_self (by omega), State.kv, List.getD_eq_default _ _ (by omega), hf]

theorem part_modPart_of_absent {f : Part → Part} (hf : f Part.absent = Part.absent) : (s.modPart n f).part n = f (s.part n) := by
  by_cases hn : n < s.parts.length
  · exact State.part_modPart_same s f hn
  · rw [State.part, State.modPart_parts, List.modify_eq_self (by omega), State.part, List.getD_eq_default _ _ (by omega), hf]

/-! ## Entries of a page table (R148) -/

theorem pteAddr_congr (parts : t.parts = s.parts) (more : (t.kv p).ptMore = (s.kv p).ptMore) (i : Nat) :
    t.pteAddr p i = s.pteAddr p i := by
  simp only [State.pteAddr, State.part, parts, more]

theorem pte_congr (parts : t.parts = s.parts) (more : (t.kv p).ptMore = (s.kv p).ptMore) (mems : t.mems = s.mems) (i : Nat) :
    t.pte p i = s.pte p i := by
  rw [State.pte, pteAddr_congr parts more, wordsAt_congr mems, State.pte]

/-- An entry that is written reads back, field by field as its words hold them. -/
theorem pte_setPte_same (s : State) (p i : Nat) (e : Pte) :
    (s.setPte p i e).pte p i = Pte.ofWords (e.toWords.map (· % 2 ^ 32)) := by
  have kept := setPte_keeps (part := p) (i := i) (e := e) (Touch.Le.refl _) (Keeps.refl _ s)
  have more : ((s.setPte p i e).kv p).ptMore = (s.kv p).ptMore := by rw [State.kv, kept.kvs_eq rfl, State.kv]
  rw [State.pte, pteAddr_congr (kept.parts_eq rfl) more]
  exact congrArg Pte.ofWords (storeWords_wordsAt s (s.pteAddr p i) e.toWords)

/-! ## Reclamation (R154) -/

theorem freeFrame_ptMore (s : State) (p a m : Nat) : ((s.freeFrame p a).kv m).ptMore = (s.kv m).ptMore :=
  kv_modKv_field Kv.ptMore (by exact fun _ => rfl) m

theorem reclaimStale_ptMore (s : State) (p m : Nat) : ((s.reclaimStale p).kv m).ptMore = (s.kv m).ptMore := by
  delta State.reclaimStale
  extract_lets -merge safe gone unstaled untailed
  have h1 : (unstaled.kv m).ptMore = (s.kv m).ptMore :=
    keepsFold (Q := fun t : State => (t.kv m).ptMore = (s.kv m).ptMore) rfl fun _ _ h => by
      rw [freeFrame_ptMore, freeFrame_ptMore, h]
  have h2 : (untailed.kv m).ptMore = (s.kv m).ptMore :=
    keepsFold (Q := fun t : State => (t.kv m).ptMore = (s.kv m).ptMore) h1 fun _ _ h => by rw [freeFrame_ptMore, h]
  exact (kv_modKv_field Kv.ptMore (by exact fun _ => rfl) m).trans h2

theorem startMoves_of_started (h : ∀ m ∈ s.moves, m.started = true) (p : Nat) : s.startMoves p = s := by
  have none_waits : (s.moves.filter fun m => m.part == p && !m.started) = [] :=
    List.filter_eq_nil_iff.2 fun m hm => by simp [h m hm]
  rw [State.startMoves, none_waits, List.foldl_nil]

/-- The page whose EPOCH the safe epoch exceeds has given its frames back. -/
def State.framesFreed (s : State) (p i : Nat) : State :=
  if (s.pte p i).sidecar = 0 then s else (s.freeFrame p (s.pte p i).payload).freeFrame p (s.pte p i).sidecar

theorem framesFreed_keeps (s : State) (p i : Nat) : Keeps ⟨Touch.nothing.kvs, s⟩ (s.framesFreed p i) := by
  unfold State.framesFreed
  split
  · exact Keeps.refl _ s
  · exact freeFrame_keeps rfl (freeFrame_keeps rfl (Keeps.refl _ s))

theorem reclaimOne_found (found : (List.range (s.kv p).pages).find? (fun i => s.reclaimable p i) = some i) :
    s.reclaimOne p = (((s.framesFreed p i).setPte p i (Pte.ofWords [])).reclaimStale p).startMoves p := by
  simp only [State.reclaimOne, found]
  rfl

theorem reclaimOne_pte_free (found : (List.range (s.kv p).pages).find? (fun i => s.reclaimable p i) = some i)
    (started : ∀ m ∈ s.moves, m.started = true) : ((s.reclaimOne p).pte p i).state = 0 := by
  have written : Keeps ⟨Touch.nothing.kvs.mems.dram.record, s⟩ ((s.framesFreed p i).setPte p i (Pte.ofWords [])) :=
    setPte_keeps rfl ((framesFreed_keeps s p i).widen rfl)
  have stale := reclaimStale_keeps (p := p) (Touch.Le.refl _) (Keeps.refl _ ((s.framesFreed p i).setPte p i (Pte.ofWords [])))
  rw [reclaimOne_found found, startMoves_of_started (by rw [stale.moves_eq rfl, written.moves_eq rfl]; exact started),
    pte_congr (stale.parts_eq rfl) (reclaimStale_ptMore ..) (stale.mems_eq rfl), pte_setPte_same]
  rfl

/-! ## Epochs (R153) -/

theorem exec_idleEpochTick (s : State) (p : Nat) : exec (.idleEpochTick p) s =
    .next (if (s.part p).valid && s.idlePart p && decide ((s.kv p).lastAdvance + 5000 ≤ s.now) then s.advanceEpoch p else s) :=
  rfl

/-- Settles O24: the tick advances the epoch exactly when it is due, and the freed entry reads back as FREE through what else is
reclaimed with it. -/
theorem epochsAndReclaim : Obligations.EpochsAndReclaim := by
  unfold Obligations.EpochsAndReclaim
  refine ⟨fun p s valid idle due => ?ticks, fun p s early => ?waits, fun p i s found started => ?reclaims⟩
  case ticks =>
    rw [exec_idleEpochTick, if_pos (by simp [valid, idle, due])]
    rfl
  case waits =>
    rw [exec_idleEpochTick, if_neg]
    rcases early with busy | early
    · simp [busy]
    · simp [early]
  case reclaims => exact answers_of rfl (reclaimOne_pte_free found started)

end Sys2Proof.Machine
end

section
/-! SUPPORT. Groups in units (R139, R143 to R145): what a park, a flush and the freeing of flushed groups leave of the cache, of the
counters and of the sequence. -/

namespace Sys2Proof.Machine

variable {s t : State} {p n a : Nat} {g : Group} {q : Seq}

theorem minBy_mem {α : Type} {key : α → Nat} {l : List α} {x : α} (h : minBy key l = some x) : x ∈ l := by
  induction l generalizing x with
  | nil => cases h
  | cons y l ih =>
    simp only [minBy] at h
    split at h
    next => exact Option.some.inj h ▸ List.mem_cons_self
    next z least =>
      split at h
      · exact Option.some.inj h ▸ List.mem_cons_of_mem _ (ih least)
      · exact Option.some.inj h ▸ List.mem_cons_self

/-! ## PARK_GROUP (R143) -/

/-- The group as it stands in the tail frame at `a`. -/
def Group.parkedAt (g : Group) (a : Nat) : Group := { g with sump := 0, stag := 0, tail := some a }

theorem park_parked (hk : p < s.kvs.length) (hp : p < s.parts.length) (frame : s.findFrame p (128 * g.dim + 256) = some a) :
    ∃ t, s.park p g = some t ∧
      t.kv p = { s.kv p with
        groups := g.parkedAt a :: (s.kv p).groups.filter fun h => h != g
        frames := (a, 128 * g.dim + 256) :: (s.kv p).frames } ∧
      (t.part p).ctr = { (s.part p).ctr with
        sumpUsed := (s.part p).ctr.sumpUsed - g.sump, stagUsed := (s.part p).ctr.stagUsed - g.stag
        parks := satInc top32 (s.part p).ctr.parks 1 } := by
  simp only [State.park, State.allocFrame, frame]
  refine ⟨_, rfl, ?_, ?_⟩
  · simp [State.kv, State.dropGroup, State.freeUnits, Group.parkedAt, hk]
  · simp [State.part, State.dropGroup, State.freeUnits, hp]

theorem exec_parkGroup (wants : s.wantsPark p = true) (up : s.cpRunning 2 = true)
    (least : minBy Group.last ((s.kv p).groups.filter fun g => s.parkable p g) = some g) (parked : s.park p g = some t) :
    exec (.parkGroup p) s = .next t := by
  simp [exec, execParkGroup, wants, up, least, parked]

/-! ## GROUP_FLUSH (R144) -/

/-- What a flush finds of the cache again after it has taken its frames and its entry. -/
def Kv.held (k : Kv) : List Group × Nat := (k.groups, k.epoch)

/-- The caches hold the same groups at the same epochs. -/
def State.HeldAs (s t : State) : Prop := ∀ m, (t.kv m).held = (s.kv m).held

theorem State.HeldAs.refl (s : State) : s.HeldAs s := fun _ => rfl

theorem State.HeldAs.modKv {f : Kv → Kv} (h : s.HeldAs t) (hf : ∀ k, (f k).held = k.held) : s.HeldAs (t.modKv n f) :=
  fun m => (kv_modKv_field Kv.held hf m).trans (h m)

theorem State.HeldAs.of_kvs {u : State} (h : s.HeldAs t) (kvs : u.kvs = t.kvs) : s.HeldAs u := fun m => by
  rw [State.kv, kvs]
  exact h m

theorem State.HeldAs.allocFrame (h : s.HeldAs t) : KOpt (fun r => s.HeldAs r.2) (t.allocFrame p n) := by
  unfold State.allocFrame
  split
  · exact KOpt.some (h.modKv (by exact fun _ => rfl))
  · exact KOpt.none

theorem store_kvs (s : State) (a : Nat) (bs : List Byte) : (s.store a bs).kvs = s.kvs :=
  (store_keeps (Touch.Le.refl _) (Keeps.refl _ s)).kvs_eq rfl

theorem State.HeldAs.newPte {e : Pte} (h : s.HeldAs t) : KOpt (fun r => s.HeldAs r.2) (t.newPte p e) := by
  have used (u : State) (hu : s.HeldAs u) :
      s.HeldAs ((u.setPte p (t.freePte p) e).modKv p fun k => { k with pages := max k.pages (t.freePte p + 1) }) :=
    (hu.of_kvs (store_kvs ..)).modKv (by exact fun _ => rfl)
  delta State.newPte
  extract_lets -merge i use
  split
  · exact KOpt.some (used t h)
  · refine KOpt.map (Q := fun u => s.HeldAs u) (fun u extended => ?_) used
    unfold State.extendTable at extended
    split at extended
    · cases extended
    · cases extended
      exact State.HeldAs.modKv (t := t.fill _ _ _) h (by exact fun _ => rfl)

theorem State.HeldAs.needSum {seq layer head block d : Nat} (h : s.HeldAs t) :
    KOpt (fun r => s.HeldAs r.2) (t.needSum p seq layer head block d) := by
  unfold State.needSum
  split
  · exact KOpt.some h
  · refine KOpt.map h.allocFrame fun r hr => ?_
    exact (hr.of_kvs (store_kvs ..)).modKv (by exact fun _ => rfl)

/-- A flush first takes frames, a table entry and a summary frame, in `u`; then the directory, the counters and the group change. -/
theorem flushGroup_installed (found : s.seq? g.seq = some q) (flushed : s.flushGroup p g = some t) :
    ∃ u i f r old sat, Keeps ⟨Touch.nothing.kvs.mems.dram.record, s⟩ u ∧ s.HeldAs u ∧
      t = ((((u.modSeq g.seq fun q => { q with dir := q.dir ++ [(g.layer, g.head, g.page, i)] }).modPart p fun q => { q with
        ctr := { q.ctr with flushes := satInc top32 q.ctr.flushes 1, flushSat := satInc top32 q.ctr.flushSat sat } }).writeL1
          f (g.page / 16) r).modKv p fun k => { k with
        groups := k.groups.map fun h => if h == g then { h with flushed := some k.epoch, l1Was := some old } else h }) := by
  simp only [State.flushGroup, found] at flushed
  split at flushed
  next => cases flushed
  next pay s1 frame1 =>
    split at flushed
    next => cases flushed
    next side s2 frame2 =>
      split at flushed
      next => cases flushed
      next entry =>
        obtain ⟨⟨i, s3⟩, newEntry, sums⟩ := Option.bind_eq_some_iff.1 entry
        obtain ⟨⟨f, u⟩, sum, e⟩ := Option.map_eq_some_iff.1 sums
        cases e
        have k1 : Keeps ⟨Touch.nothing.kvs.mems.dram.record, s⟩ s1 := KOpt.ofSnd frame1 (allocFrame_keeps rfl (Keeps.refl _ s))
        have k2 : Keeps ⟨Touch.nothing.kvs.mems.dram.record, s⟩ s2 := KOpt.ofSnd frame2 (allocFrame_keeps rfl k1)
        have k3 : Keeps ⟨Touch.nothing.kvs.mems.dram.record, s⟩ s3 :=
          KOpt.ofSnd newEntry (newPte_keeps rfl (store_keeps rfl (store_keeps rfl k2)))
        have k4 : Keeps ⟨Touch.nothing.kvs.mems.dram.record, s⟩ u := KOpt.ofSnd sum (needSum_keeps rfl k3)
        have h1 : s.HeldAs s1 := (State.HeldAs.refl s).allocFrame _ frame1
        have h2 : s.HeldAs s2 := h1.allocFrame _ frame2
        have h3 : s.HeldAs s3 := ((h2.of_kvs (store_kvs ..)).of_kvs (store_kvs ..)).newPte _ newEntry
        have h4 : s.HeldAs u := h3.needSum _ sum
        exact ⟨u, i, f, _, _, _, k4, h4, (Option.some.inj flushed).symm⟩

theorem writeL1_kept (s : State) (f : SumFrame) (block : Nat) (r : L1) :
    Keeps ⟨Touch.nothing.mems.dram.record, s⟩ (s.writeL1 f block r) :=
  writeL1_keeps (Touch.Le.refl _) (Keeps.refl _ s)

theorem flushGroup_seq (found : s.seq? g.seq = some q) (flushed : s.flushGroup p g = some t) :
    ∃ i, t.seq? g.seq = some { q with dir := q.dir ++ [(g.layer, g.head, g.page, i)] } := by
  obtain ⟨u, i, f, r, old, sat, kept, -, rfl⟩ := flushGroup_installed found flushed
  refine ⟨i, ?_⟩
  rw [State.seq?, State.modKv_seqs, (writeL1_kept ..).seqs_eq rfl, State.modPart_seqs, ← State.seq?,
    State.seq_modSeq_same _ _ _ (by exact fun _ => rfl), State.seq?, kept.seqs_eq rfl, ← State.seq?, found]
  rfl

theorem flushGroup_group (mem : g ∈ (s.kv p).groups) (found : s.seq? g.seq = some q)
    (flushed : s.flushGroup p g = some t) :
    ∃ old, { g with flushed := some (s.kv p).epoch, l1Was := some old } ∈ (t.kv p).groups := by
  obtain ⟨u, i, f, r, old, sat, kept, held, rfl⟩ := flushGroup_installed found flushed
  refine ⟨old, ?_⟩
  have written := writeL1_kept
    ((u.modSeq g.seq fun q => { q with dir := q.dir ++ [(g.layer, g.head, g.page, i)] }).modPart p fun q => { q with
      ctr := { q.ctr with flushes := satInc top32 q.ctr.flushes 1, flushSat := satInc top32 q.ctr.flushSat sat } })
    f (g.page / 16) r
  have ⟨groups, epoch⟩ := Prod.mk.inj ((held.of_kvs (written.kvs_eq rfl)) p)
  rw [kv_modKv_of_empty rfl]
  refine List.mem_map.2 ⟨g, groups ▸ mem, ?_⟩
  rw [if_pos (beq_self_eq_true g), epoch]

theorem flushGroup_flushes (hp : p < s.parts.length) (found : s.seq? g.seq = some q) (flushed : s.flushGroup p g = some t) :
    (t.part p).ctr.flushes = satInc top32 (s.part p).ctr.flushes 1 := by
  obtain ⟨u, i, f, r, old, sat, kept, -, rfl⟩ := flushGroup_installed found flushed
  have parts : u.parts = s.parts := kept.parts_eq rfl
  rw [State.part, State.modKv_parts, (writeL1_kept ..).parts_eq rfl, ← State.part,
    State.part_modPart_same _ _ (by rw [State.modSeq_parts, parts]; exact hp), State.part, State.modSeq_parts, parts, ← State.part]

theorem exec_groupFlush (first : minBy Group.order ((s.kv p).groups.filter fun g => g.full && g.tail.isNone) = some g)
    (flushed : s.flushGroup p g = some t) : exec (.groupFlush p) s = .next t := by
  simp [exec, execGroupFlush, first, flushed]

/-! ## UNITS_FREED (R145) -/

theorem dropGroup_groups (s : State) (p : Nat) (g : Group) :
    ((s.dropGroup p g).kv p).groups = (s.kv p).groups.filter fun h => h != g :=
  congrArg Kv.groups (kv_modKv_of_empty rfl)

theorem freeUnits_ctr (s : State) (p sump stag : Nat) :
    ((s.freeUnits p sump stag).part p).ctr = { (s.part p).ctr with
      sumpUsed := (s.part p).ctr.sumpUsed - sump, stagUsed := (s.part p).ctr.stagUsed - stag } :=
  congrArg Part.ctr (part_modPart_of_absent (by simp [Part.absent, PartCtr.reset]))

theorem freeFlushed_all (s : State) (p : Nat) (gs : List Group) :
    ((gs.foldl (fun s g => s.freeFlushed p g) s).kv p).groups = (s.kv p).groups.filter (fun g => !gs.contains g) ∧
      ((gs.foldl (fun s g => s.freeFlushed p g) s).part p).ctr.sumpUsed = (s.part p).ctr.sumpUsed - (gs.map Group.sump).sum ∧
      ((gs.foldl (fun s g => s.freeFlushed p g) s).part p).ctr.stagUsed = (s.part p).ctr.stagUsed - (gs.map Group.stag).sum := by
  induction gs generalizing s with
  | nil => simp
  | cons g gs ih =>
    obtain ⟨groups, sump, stag⟩ := ih (s.freeFlushed p g)
    have dropped : ((s.freeFlushed p g).kv p).groups = (s.kv p).groups.filter fun h => h != g := dropGroup_groups s p g
    have freed : ((s.freeFlushed p g).part p).ctr = _ := freeUnits_ctr (s.dropGroup p g) p g.sump g.stag
    refine ⟨?_, ?_, ?_⟩
    · rw [List.foldl_cons, groups, dropped, List.filter_filter]
      refine List.filter_congr fun h _ => ?_
      rw [Bool.eq_iff_iff]
      simp [and_comm]
    · rw [List.foldl_cons, sump, freed, List.map_cons, List.sum_cons, Nat.sub_add_eq]
      rfl
    · rw [List.foldl_cons, stag, freed, List.map_cons, List.sum_cons, Nat.sub_add_eq]
      rfl

/-- A group is gone from a list exactly when it is one of the list's that `f` picks. -/
theorem filter_not_picked (l : List Group) (f : Group → Bool) :
    l.filter (fun g => !(l.filter f).contains g) = l.filter fun g => !f g :=
  List.filter_congr fun g hg => by simp [hg]

/-- Settles O23: each command's group is the one that its rule picks, and each operation leaves the cache, the counters and the
sequence as its lemma says. -/
theorem sumpGroupsKept : Obligations.SumpGroupsKept := by
  unfold Obligations.SumpGroupsKept
  refine ⟨fun p a g s shaped hp wants up least frame => ?parks, fun p g q s shaped hp first found flushes => ?flushes,
    fun p s => ?frees⟩
  case parks =>
    obtain ⟨t, parked, kv, ctr⟩ := park_parked ((shaped_kvs shaped).symm ▸ hp) ((shaped_counts shaped).parts.symm ▸ hp) frame
    refine answers_of (exec_parkGroup wants up least parked) ?_
    rw [kv, ctr]
    exact ⟨List.mem_cons_self, List.mem_cons_self, rfl, rfl, rfl⟩
  case flushes =>
    obtain ⟨t, flushed⟩ := Option.isSome_iff_exists.1 flushes
    have mem := List.mem_of_mem_filter (minBy_mem first)
    exact answers_of (exec_groupFlush first flushed) ⟨flushGroup_seq found flushed,
      flushGroup_group mem found flushed,
      flushGroup_flushes ((shaped_counts shaped).parts.symm ▸ hp) found flushed⟩
  case frees =>
    obtain ⟨groups, sump, stag⟩ := freeFlushed_all s p ((s.kv p).groups.filter (s.flushedDone p))
    exact answers_of rfl ⟨groups.trans (filter_not_picked _ _), sump, stag⟩

end Sys2Proof.Machine
end

section
/-! SUPPORT. KV_MOVE (R159 to R161): its end at an entry that is invalid, and its last entry, whatever the action. -/

namespace Sys2Proof.Machine

variable {s t : State} {uid done op i action : Nat} {bad : Bool} {j : Job} {q : Seq}

/-! ## An invalid entry (R161) -/

/-- A job that has begun differs from the queued one in its state, its epoch and STAGING_USED alone. -/
theorem State.Began.job? (h : s.Began uid op j t) (light : expands op = false) :
    ∃ e quality, t.job? uid = some { j with state := .running, unitWait := none, epoch := e, quality := quality } := by
  have free : s.giveCounters j = some s := by simp [State.giveCounters, h.opcode, light]
  have starting := h.starting
  simp only [State.starting, h.found, free, Option.bind_some] at starting
  split at starting
  next =>
    split at starting
    next => cases starting
    next u unparked =>
      cases starting
      obtain ⟨g, marks, list, -⟩ := unparkSeqs_marked unparked
      have marked : u.job? uid = some (g j) := by
        rw [State.job?, list, find_map_same s.jobs.list Job.uid uid g (fun k => by rw [marks]), ← State.job?, h.found]
        rfl
      refine ⟨(u.kv (g j).part).epoch, (g j).quality, ?_⟩
      rw [State.run, State.job_modJob_same _ _ _ (by exact fun _ => rfl), marked, Option.map_some, marks j]
  next => cases starting

theorem State.Began.started (h : s.Began uid op j t) : s.started uid op = t := by
  rw [State.started, h.starting]
  rfl

/-- A job of an opcode that changes no sequences ends with an error and leaves the memory as it was. -/
theorem failJob_mems (found : s.job? uid = some j) (plain : servingOp j.opcode = false) (st result : Nat) :
    (s.failJob uid st result).mems = s.mems := by
  have withdrawn : ((s.jobError uid st).withdraw uid).mems = s.mems :=
    (withdraw_keeps (Touch.Le.refl _) (Keeps.refl _ (s.jobError uid st))).mems_eq rfl
  have plain' : servingOp (j.failed st).opcode = false := plain
  simp only [State.failJob, withdraw_jobError_job? found, plain', Bool.false_and, Bool.false_eq_true, if_false]
  split
  · exact withdrawn
  · rw [(finishJob_keeps (Touch.Le.refl _) (Keeps.refl _ _)).mems_eq rfl, withdrawn]

theorem answers_kvMove_invalid (h : s.Began uid 0x06 j t) (hr : s.recorded j)
    (reads : t.blocked j (dArg j.words) (16 * dCount j.words) = none)
    (first : t.kmBad j.part 0 0 ((List.range (dCount j.words)).map (t.kmEntry j)) = some i) :
    answers (.kvMove uid bad) s fun u => u.recordWaits j (firstError j.status 0x30) i ∧ u.mems = t.mems := by
  obtain ⟨e, quality, running⟩ := h.job? rfl
  obtain ⟨-, spoken, loud, unfinished, -⟩ := id hr
  obtain rfl := h.isUid
  refine answers_of (t := t.failJob j.uid stInvalid i) ?_ ⟨?_, failJob_mems running (by simp [h.opcode, servingOp]) ..⟩
  · simp [exec, execKvMove, h.starting, State.startKvMove, reads, first]
  · exact failJob_recordWaits (j := { j with state := .running, unitWait := none, epoch := e, quality := quality })
      ⟨running, spoken, loud, unfinished, (h.willRecord hr).enabled⟩ (st := stInvalid) (by decide) i

/-! ## An entry that is applied changes nothing of its job but STAGING_USED -/

theorem jobQuality_if_alters (staged : Bool) (uid : Nat) (s : State) :
    State.Alters uid s (if staged then s.jobQuality uid qStaging else s) := by
  cases staged
  · exact .of_jobs rfl
  · exact .modJob s Job.Like.staged

theorem reopenAll_alters {n : Nat} {dir : List (Nat × Nat × Nat × Nat)} (reopened : s.reopenAll uid q n dir = .done t) :
    State.Alters uid s t := by
  induction dir generalizing s with
  | nil => exact .of_jobs (congrArg State.jobs (ItemRes.done.inj reopened).symm)
  | cons x rest ih =>
    simp only [State.reopenAll] at reopened
    split at reopened
    next => cases reopened
    next =>
      split at reopened
      next => cases reopened
      next =>
        split at reopened
        next => cases reopened
        next s1 fetched =>
          have here : Keeps ⟨Touch.nothing.kvs.mems.dram.flash.record, s⟩ s1 := by
            split at fetched
            · exact fetchPage_keeps (Touch.Le.refl _) (Keeps.refl _ s) s1 fetched
            · exact Option.some.inj fetched ▸ Keeps.refl _ s
          split at reopened
          next => cases reopened
          next s2 staged back =>
            have there := KOpt.ofFst back (reopen_keeps (Touch.Le.refl _) (Keeps.refl _ s1))
            exact ((State.Alters.of_jobs ((there.jobs_eq rfl).trans (here.jobs_eq rfl))).trans
              (jobQuality_if_alters staged uid s2)).trans (ih reopened)

theorem truncate_done {n : Nat} (cut : s.truncate uid q n = .done t) :
    ∃ u, State.Alters uid s u ∧ t = u.setLength q.idx n := by
  simp only [State.truncate] at cut
  split at cut
  next u reopened =>
    have kept : Keeps ⟨Touch.nothing.parts.kvs.seqs.mems.dram.record, s⟩ ((s.cutPages q n).cutGroups q n) :=
      cutGroups_keeps rfl (cutPages_keeps rfl (Keeps.refl _ s))
    exact ⟨u, (State.Alters.of_jobs (kept.jobs_eq rfl)).trans (reopenAll_alters reopened), (ItemRes.done.inj cut).symm⟩
  next other => exact absurd cut (other t)

theorem truncate_alters {n : Nat} (cut : s.truncate uid q n = .done t) : State.Alters uid s t := by
  obtain ⟨u, altered, rfl⟩ := truncate_done cut
  exact altered.trans (.of_jobs ((setLength_keeps (Touch.Le.refl _) (Keeps.refl _ u)).jobs_eq rfl))

/-- A fork makes its sequence, writes the history to it, copies the rest and writes the handle. -/
theorem forkSeq_done (forked : s.forkSeq j i q = .done t) : ∃ (x : Seq) (made filled copied : State) (staged : Bool),
    s.newSeq q.part q.slot q.variant q.seed true q.len q.dir = some (x, made) ∧
      made.putTokens x.idx 0 (made.history q) = some filled ∧ Keeps ⟨Touch.nothing.parts.kvs.mems.dram.record, filled⟩ copied ∧
      t = (if staged then copied.jobQuality j.uid qStaging else copied).storeN (dOut j.words + 4 * i) 4 x.handle := by
  unfold State.forkSeq at forked
  extract_lets -merge p at forked
  split at forked
  next => cases forked
  next x made new =>
    split at forked
    next => cases forked
    next summed copies =>
      obtain ⟨filled, put, sums⟩ := Option.bind_eq_some_iff.1 copies
      extract_lets -merge held at forked
      split at forked
      next => cases forked
      next copied staged groups =>
        have h1 := copySums_keeps (b := ⟨Touch.nothing.parts.kvs.mems.dram.record, filled⟩) rfl (Keeps.refl _ filled) summed sums
        have h2 : Keeps ⟨Touch.nothing.parts.kvs.mems.dram.record, filled⟩ held :=
          keepsFold (Q := Keeps _) h1 fun _ _ h => addRef_keeps rfl h
        exact ⟨x, made, filled, copied, staged, new, put, KOpt.ofFst groups (copyGroups_keeps rfl h2),
          (ItemRes.done.inj forked).symm⟩

theorem forkSeq_alters (forked : s.forkSeq j i q = .done t) : State.Alters j.uid s t := by
  obtain ⟨x, made, filled, copied, staged, new, put, kept, rfl⟩ := forkSeq_done forked
  have h1 := KOpt.ofSnd new (newSeq_keeps (Touch.Le.refl _) (Keeps.refl _ s))
  have h2 := putTokens_keeps (Touch.Le.refl _) (Keeps.refl _ made) filled put
  have stored := storeN_keeps (a := dOut j.words + 4 * i) (n := 4) (v := x.handle) (Touch.Le.refl _)
    (Keeps.refl _ (if staged then copied.jobQuality j.uid qStaging else copied))
  exact ((State.Alters.of_jobs ((kept.jobs_eq rfl).trans ((h2.jobs_eq rfl).trans (h1.jobs_eq rfl)))).trans
    (jobQuality_if_alters staged j.uid copied)).trans (.of_jobs (stored.jobs_eq rfl))

theorem kmApply_alters (applied : s.kmApply j i bad = .done t) : State.Alters j.uid s t := by
  simp only [State.kmApply] at applied
  split at applied
  next => cases applied
  next q named =>
    split at applied
    next => exact ItemRes.done.inj applied ▸ .of_jobs rfl
    next => exact .of_jobs ((KItem.of applied (spillSeq_keeps (Touch.Le.refl _) (Keeps.refl _ s))).jobs_eq rfl)
    next => exact .of_jobs ((KItem.of applied (fetchSeq_keeps (Touch.Le.refl _) (Keeps.refl _ s))).jobs_eq rfl)
    next =>
      split at applied
      · cases applied
      · exact truncate_alters applied
    next => exact forkSeq_alters applied
    next => exact ItemRes.done.inj applied ▸ .of_jobs ((releaseSeq_keeps (Touch.Le.refl _) (Keeps.refl _ s)).jobs_eq rfl)
    next => exact ItemRes.done.inj applied ▸ .of_jobs ((storeWords_keeps (Touch.Le.refl _) (Keeps.refl _ s)).jobs_eq rfl)

/-! ## The last entry of a job -/

theorem starting_none_of_running (found : s.job? uid = some j) (running : j.state = .running) (op : Nat) :
    s.starting uid op = none := by
  simp [State.starting, found, State.startable, running]

section
variable (h : s.lastMove uid done j q action)
include h

theorem exec_kvMove_lastMove : exec (.kvMove uid bad) s = .next (s.kmStep j done none bad) := by
  obtain ⟨⟨found, isOp, running, unfinished, up⟩, -, up2, ext, -, -, -⟩ := h
  simp [exec, execKvMove, starting_none_of_running found running, found, ext, isOp, running, unfinished, up, up2]

theorem kmTarget_lastMove : s.kmTarget j done =
    if action = 4 then (dOut j.words + 4 * done, 4)
    else if action = 6 then (kmDest (s.kmEntry j done), 4 * (s.handleList q).length) else (0, 0) := by
  obtain ⟨-, -, -, -, -, named, rfl⟩ := h
  simp only [State.kmTarget, named]

/-- FORK and LIST alone write to memory. -/
theorem lastMove_writes_nothing (a4 : action ≠ 4) (a6 : action ≠ 6) :
    s.blockedOut j (s.kmTarget j done).1 (s.kmTarget j done).2 = none := by
  rw [kmTarget_lastMove h, if_neg a4, if_neg a6]
  exact if_pos rfl

/-- SPILL, TRUNCATE and FORK alone read pages, history or summaries. -/
theorem lastMove_reads_nothing (a1 : action ≠ 1) (a3 : action ≠ 3) (a4 : action ≠ 4) :
    s.anyBlocked j (s.kmReads j done) = none := by
  obtain ⟨-, -, -, -, -, named, rfl⟩ := h
  have none_read : s.kmReads j done = [] := by simp [State.kmReads, named, a1, a3, a4]
  rw [none_read]
  rfl

variable (writes : s.blockedOut j (s.kmTarget j done).1 (s.kmTarget j done).2 = none)
  (reads : s.anyBlocked j (s.kmReads j done) = none)
include writes reads

/-- The last entry is applied: the record waits, and what the action left of sequences and memory stays. -/
theorem answers_lastMove_done (applied : s.kmApply j done bad = .done t) :
    answers (.kvMove uid bad) s fun u => u.recordWaits j (j.endStatus s.now) (done + 1) ∧ u.seqs = t.seqs ∧ u.mems = t.mems := by
  have step : s.kmStep j done none bad =
      (t.modJob j.uid fun j => { j with ext := .items (done + 1) none }).finishUid j.uid (done + 1) := by
    obtain ⟨-, -, -, -, last, -, -⟩ := h
    simp [State.kmStep, last, writes, reads, applied]
  have ended := finishUid_keeps (uid := j.uid) (result := done + 1) (Touch.Le.refl _)
    (Keeps.refl _ (t.modJob j.uid fun j => { j with ext := .items (done + 1) none }))
  refine answers_of ((exec_kvMove_lastMove h).trans (congrArg _ step)) ⟨?_, ended.seqs_eq rfl, ended.mems_eq rfl⟩
  obtain ⟨-, hr, -⟩ := h
  have kept := KItem.of applied (kmApply_keeps (Touch.Le.refl _) (Keeps.refl _ s))
  obtain ⟨k, found, like⟩ := ((kmApply_alters applied).trans (.ext t _ (.items (done + 1) none))).job?_same hr.1
  have waits := finishUid_recordWaits found like (hr.willRecord.of_qps (kept.qps_eq rfl)) (done + 1)
  rwa [State.modJob_now, kept.now_eq rfl] at waits

/-- The last entry finds no room: the job ends with the number of entries applied before it. -/
theorem answers_lastMove_exhausted (failed : s.kmApply j done bad = .fail stExhausted) :
    answers (.kvMove uid bad) s fun u => u.recordWaits j (firstError j.status stExhausted) done := by
  have step : s.kmStep j done none bad = s.failJob j.uid stExhausted done := by
    obtain ⟨-, -, -, -, last, -, -⟩ := h
    simp [State.kmStep, last, writes, reads, failed, stExhausted, stData]
  obtain ⟨-, hr, -⟩ := id h
  exact answers_of ((exec_kvMove_lastMove h).trans (congrArg _ step)) (failJob_recordWaits hr (by decide) done)

end

end Sys2Proof.Machine
end

section
/-! SUPPORT. What the actions of KV_MOVE leave of the sequences and the memory (R160). -/

namespace Sys2Proof.Machine

variable {s t : State} {uid done n p i : Nat} {bad : Bool} {j : Job} {q x : Seq}

/-! ## FLIP, TRUNCATE, RELEASE and LIST -/

theorem kmApply_flip (h : s.lastMove uid done j q 0) :
    s.kmApply j done bad = .done (s.modSeq q.idx fun q => { q with prefillPool := !q.prefillPool }) := by
  obtain ⟨-, -, -, -, -, named, act⟩ := h
  simp only [State.kmApply, named, act]

theorem kmApply_truncate (h : s.lastMove uid done j q 3) (fits : kmLength (s.kmEntry j done) ≤ q.len) :
    s.kmApply j done bad = s.truncate j.uid q (kmLength (s.kmEntry j done)) := by
  obtain ⟨-, -, -, -, -, named, act⟩ := h
  simp only [State.kmApply, named, act]
  exact if_neg fits.not_gt

theorem kmApply_fork (h : s.lastMove uid done j q 4) : s.kmApply j done bad = s.forkSeq j done q := by
  obtain ⟨-, -, -, -, -, named, act⟩ := h
  simp only [State.kmApply, named, act]

theorem kmApply_release (h : s.lastMove uid done j q 5) : s.kmApply j done bad = .done (s.releaseSeq q) := by
  obtain ⟨-, -, -, -, -, named, act⟩ := h
  simp only [State.kmApply, named, act]

theorem kmApply_list (h : s.lastMove uid done j q 6) :
    s.kmApply j done bad = .done (s.storeWords (kmDest (s.kmEntry j done)) (s.handleList q)) := by
  obtain ⟨-, -, -, -, -, named, act⟩ := h
  simp only [State.kmApply, named, act]

theorem ItemRes.isDone_iff {r : ItemRes} : r.isDone = true ↔ ∃ t, r = .done t := by
  cases r <;> simp [ItemRes.isDone]

theorem truncate_lengthIs (cut : s.truncate uid q n = .done t) : t.lengthIs q.idx n := by
  obtain ⟨u, -, rfl⟩ := truncate_done cut
  exact setLength_lengthIs u q.idx n

/-! ## SPILL and FETCH -/

/-- Neither of the two writes to memory. -/
theorem lastMove_spill_or_fetch (h : s.lastMove uid done j q 1 ∨ s.lastMove uid done j q 2) :
    ∃ action, s.lastMove uid done j q action ∧ action ≠ 4 ∧ action ≠ 6 := by
  rcases h with h | h
  · exact ⟨1, h, by decide, by decide⟩
  · exact ⟨2, h, by decide, by decide⟩

/-! ## FORK -/

theorem storeN_readN (s : State) (a n v : Nat) : (s.storeN a n v).readN a n = v % 256 ^ n := by
  have back : (s.storeN a n v).bytesAt a n = ((leBytes n v).drop 0).take n :=
    put_bytesAt _ a (leBytes n v) (i := 0) (by rw [leBytes_length, Nat.zero_add])
  rw [State.readN, back, List.drop_zero, List.take_of_length_le (leBytes_length n v).le, leNat_leBytes]

theorem readN_congr (h : t.mems = s.mems) (a n : Nat) : t.readN a n = s.readN a n := by
  change leNat (Mem.read t.mems.blank t.mems.bytes a n) = leNat (Mem.read s.mems.blank s.mems.bytes a n)
  rw [h]

theorem freeSeqIdx_free (free : s.freeSeqIdx = some i) : ∀ y ∈ s.seqs, y.idx ≠ i := by
  unfold State.freeSeqIdx at free
  have unused : (s.seqs.all fun q => q.idx != i) = true :=
    List.find?_some (p := fun i => s.seqs.all fun q => q.idx != i) free
  exact fun y hy => by simpa using List.all_eq_true.1 unused y hy

theorem newSeq_made {slot len : Nat} {variant : Option Nat} {seed : List Byte} {pool : Bool}
    {dir : List (Nat × Nat × Nat × Nat)}
    (new : s.newSeq p slot variant seed pool len dir = some (x, t)) :
    (∀ y ∈ s.seqs, y.idx ≠ x.idx) ∧ t.seq? x.idx = some x ∧ x.part = p ∧ x.slot = slot ∧ x.len = len ∧ x.chunks = [] ∧
      x.dir = dir := by
  unfold State.newSeq at new
  split at new
  · cases new
  next i free =>
    cases new
    exact ⟨freeSeqIdx_free free, by simp [State.seq?], rfl, rfl, rfl, rfl, rfl⟩

theorem growHistory_seq? (found : s.seq? i = some x) (grown : s.growHistory p i n = some t) :
    ∃ cs, cs.length = n ∧ t.seq? i = some { x with chunks := x.chunks ++ cs } := by
  induction n generalizing s x with
  | zero =>
    cases grown
    exact ⟨[], rfl, by simp [found]⟩
  | succ n ih =>
    simp only [State.growHistory] at grown
    split at grown
    · cases grown
    next a s1 frame =>
      have kept := KOpt.ofSnd frame (allocFrame_keeps (Touch.Le.refl _) (Keeps.refl _ s))
      have found' : (s1.modSeq i fun q => { q with chunks := q.chunks ++ [a] }).seq? i =
          some { x with chunks := x.chunks ++ [a] } := by
        rw [State.seq_modSeq_same _ _ _ (by exact fun _ => rfl), State.seq?, kept.seqs_eq rfl, ← State.seq?, found]
        rfl
      obtain ⟨cs, len, there⟩ := ih found' grown
      exact ⟨a :: cs, by simp [len], by simpa using there⟩

theorem putTokens_seq? {at_ : Nat} {toks : List Nat} (found : s.seq? i = some x) (put : s.putTokens i at_ toks = some t) :
    ∃ cs, cs.length = ceilDiv (at_ + toks.length) chunkLen - x.chunks.length ∧
      t.seq? i = some { x with chunks := x.chunks ++ cs } := by
  simp only [State.putTokens, found] at put
  obtain ⟨u, grown, rfl⟩ := Option.map_eq_some_iff.1 put
  obtain ⟨cs, len, there⟩ := growHistory_seq? found grown
  refine ⟨cs, len, ?_⟩
  have written (r : Seq) : (toks.zipIdx.foldl (fun s x => s.storeN (r.tokenAddr (at_ + x.2)) 4 x.1) u).seqs = u.seqs :=
    (keepsFold (Q := Keeps ⟨Touch.nothing.mems.dram.record, u⟩) (Keeps.refl _ u) fun _ _ h => storeN_keeps rfl h).seqs_eq rfl
  simp only [there]
  rw [State.seq?, written, ← State.seq?, there]

theorem forkSeq_seq (forked : s.forkSeq j i q = .done t) : ∃ x ∈ t.seqs, (∀ y ∈ s.seqs, y.idx ≠ x.idx) ∧
    x.part = q.part ∧ x.slot = q.slot ∧ x.len = q.len ∧ x.chunks.length = ceilDiv q.len 16384 ∧ x.dir = q.dir ∧
    t.readN (dOut j.words + 4 * i) 4 = x.handle % 2 ^ 32 := by
  obtain ⟨x, made, filled, copied, staged, new, put, kept, rfl⟩ := forkSeq_done forked
  obtain ⟨fresh, found, part, slot, len, chunks, dir⟩ := newSeq_made new
  obtain ⟨cs, count, there⟩ := putTokens_seq? found put
  have stored := storeN_keeps (a := dOut j.words + 4 * i) (n := 4) (v := x.handle) (Touch.Le.refl _)
    (Keeps.refl _ (if staged then copied.jobQuality j.uid qStaging else copied))
  have marked : (if staged then copied.jobQuality j.uid qStaging else copied).seqs = copied.seqs := by cases staged <;> rfl
  refine ⟨{ x with chunks := x.chunks ++ cs }, ?_, fresh, part, slot, len, ?_, dir, storeN_readN ..⟩
  · rw [stored.seqs_eq rfl, marked, kept.seqs_eq rfl]
    exact List.mem_of_find?_eq_some there
  · simpa [chunks, State.history, chunkLen] using count

end Sys2Proof.Machine
end

section
/-! SUPPORT. The statement on KV_MOVE (R159 to R161). -/

namespace Sys2Proof.Machine

/-- Settles O22: the last entry's action is applied, and the end of the job keeps what it left. -/
theorem kvMoveEntriesApplied : Obligations.KvMoveEntriesApplied := by
  unfold Obligations.KvMoveEntriesApplied
  refine ⟨fun uid bad j i s hs hr reads first => ?invalid, fun uid done bad j q s h => ?flip,
    fun uid done bad j q s h reads fits isDone => ?truncate, fun uid done bad j q s h writes reads isDone => ?fork,
    fun uid done bad j q s h => ?release, fun uid done bad j q s h writes => ?list,
    fun uid done bad j q s h reads isDone => ?moved, fun uid done bad j q s h reads failed => ?exhausted⟩
  case invalid =>
    obtain ⟨t, began⟩ := starts_began (by decide) hs
    rw [began.started] at reads first ⊢
    exact answers_kvMove_invalid began hr reads first
  case flip =>
    obtain ⟨u, ran, record, seqs, -⟩ := answers_lastMove_done h (lastMove_writes_nothing h (by decide) (by decide))
      (lastMove_reads_nothing h (by decide) (by decide) (by decide)) (kmApply_flip (bad := bad) h)
    exact ⟨u, ran, record, seqs⟩
  case truncate =>
    obtain ⟨t, cut⟩ := ItemRes.isDone_iff.1 isDone
    obtain ⟨⟨found, -⟩, -⟩ := id h
    obtain rfl := State.job?_uid found
    obtain ⟨u, ran, record, seqs, -⟩ := answers_lastMove_done h (lastMove_writes_nothing h (by decide) (by decide)) reads
      ((kmApply_truncate (bad := bad) h fits).trans cut)
    exact ⟨u, ran, record, by rw [seqs]; exact truncate_lengthIs cut⟩
  case fork =>
    obtain ⟨t, forked⟩ := ItemRes.isDone_iff.1 isDone
    obtain ⟨u, ran, record, seqs, mems⟩ := answers_lastMove_done h
      (by rw [kmTarget_lastMove h, if_pos rfl]; exact writes) reads ((kmApply_fork (bad := bad) h).trans forked)
    refine ⟨u, ran, record, ?_⟩
    rw [seqs, readN_congr mems]
    exact forkSeq_seq forked
  case release =>
    obtain ⟨u, ran, record, seqs, -⟩ := answers_lastMove_done h (lastMove_writes_nothing h (by decide) (by decide))
      (lastMove_reads_nothing h (by decide) (by decide) (by decide)) (kmApply_release (bad := bad) h)
    refine ⟨u, ran, record, fun x hx => ?_⟩
    rw [seqs, releaseSeq_seqs] at hx
    simpa using (List.mem_filter.1 hx).2
  case list =>
    obtain ⟨u, ran, record, seqs, mems⟩ := answers_lastMove_done h
      (by rw [kmTarget_lastMove h, if_neg (by decide), if_pos rfl]; exact writes)
      (lastMove_reads_nothing h (by decide) (by decide) (by decide)) (kmApply_list (bad := bad) h)
    refine ⟨u, ran, record, ?_, ?_⟩
    · rw [seqs, (storeWords_keeps (Touch.Le.refl _) (Keeps.refl _ s)).seqs_eq rfl]
    · rw [wordsAt_congr mems, storeWords_wordsAt]
  case moved =>
    obtain ⟨t, applied⟩ := ItemRes.isDone_iff.1 isDone
    obtain ⟨action, h, a4, a6⟩ := lastMove_spill_or_fetch h
    obtain ⟨u, ran, record, -⟩ := answers_lastMove_done h (lastMove_writes_nothing h a4 a6) reads applied
    exact ⟨u, ran, record⟩
  case exhausted =>
    obtain ⟨action, h, a4, a6⟩ := lastMove_spill_or_fetch h
    exact answers_lastMove_exhausted h (lastMove_writes_nothing h a4 a6) reads failed

end Sys2Proof.Machine
end

section
/-! SUPPORT. Groups read by their halves (R139, R141): what an append makes of the halves of its group, and what stays of every
other half. -/

namespace Sys2Proof.Machine

variable {s t u : State} {p n uid seq layer head pos base d : Nat} {spec values : Bool} {g : Group} {j : Job}

/-! ## One half of a position in a group -/

theorem find?_insertBy_new {α : Type} {before : α → α → Bool} {q : α → Bool} {a : α} {l : List α} (new : q a = true)
    (none : l.find? q = none) : (insertBy before a l).find? q = some a := by
  induction l with
  | nil => simp [insertBy, new]
  | cons b l ih =>
    have other : ¬q b = true := fun h => by simp [h] at none
    unfold insertBy
    split
    · simp [new]
    · rw [List.find?_cons_of_neg other] at none ⊢
      exact ih none

theorem find?_insertBy_other {α : Type} {before : α → α → Bool} {q : α → Bool} {a : α} (l : List α)
    (other : ¬q a = true) :
    (insertBy before a l).find? q = l.find? q := by
  induction l with
  | nil => simp [insertBy, other]
  | cons b l ih =>
    unfold insertBy
    split
    · rw [List.find?_cons_of_neg other]
    · rw [List.find?_cons, List.find?_cons, ih]

/-- The token of a position with one half set. -/
def setHalf (toks : List Tok) (pos : Nat) (values : Bool) (v : Nat × List Byte) : Tok :=
  let old := (toks.find? fun t => t.pos == pos).getD { pos := pos, key := none, val := none }
  if values then { old with val := some v } else { old with key := some v }

theorem setHalf_pos (toks : List Tok) (pos : Nat) (values : Bool) (v : Nat × List Byte) :
    (setHalf toks pos values v).pos = pos := by
  have old : ((toks.find? fun t => t.pos == pos).getD { pos := pos, key := none, val := none }).pos = pos := by
    cases found : toks.find? fun t => t.pos == pos with
    | none => rfl
    | some t => simpa using List.find?_some found
  cases values <;> exact old

theorem putHalf_some (toks : List Tok) (pos : Nat) (values : Bool) (v : Nat × List Byte) : putHalf toks pos values (some v) =
    insertBy (fun a b => decide (a.pos < b.pos)) (setHalf toks pos values v) (toks.filter fun t => t.pos != pos) := by
  cases values <;> simp [putHalf, setHalf]

/-- What is read at the position is the token that was set. -/
theorem putHalf_find? (toks : List Tok) (pos : Nat) (values : Bool) (v : Nat × List Byte) :
    (putHalf toks pos values (some v)).find? (fun t => t.pos == pos) = some (setHalf toks pos values v) := by
  rw [putHalf_some, find?_insertBy_new (by simpa using setHalf_pos ..) (by simp)]

theorem halfOf_putHalf_same (toks : List Tok) (pos : Nat) (values : Bool) (v : Nat × List Byte) :
    halfOf (putHalf toks pos values (some v)) pos values = some v := by
  rw [halfOf, putHalf_find?]
  cases values <;> rfl

/-- The other half of the position is kept, and so is every other position. -/
theorem halfOf_putHalf_other (toks : List Tok) (pos : Nat) (values : Bool) (v : Nat × List Byte) {pos' : Nat} {values' : Bool}
    (other : ¬(pos' = pos ∧ values' = values)) :
    halfOf (putHalf toks pos values (some v)) pos' values' = halfOf toks pos' values' := by
  by_cases here : pos' = pos
  · subst here
    obtain rfl : values' = !values := by cases values <;> cases values' <;> simp at other ⊢
    rw [halfOf, putHalf_find?, halfOf, setHalf]
    cases toks.find? fun t => t.pos == pos' <;> cases values <;> rfl
  · have apart : ¬((setHalf toks pos values v).pos == pos') = true := by simpa [setHalf_pos] using Ne.symm here
    rw [putHalf_some, halfOf, find?_insertBy_other (q := fun t : Tok => t.pos == pos') _ apart, List.find?_filter, halfOf]
    congr 2
    funext t
    by_cases there : t.pos = pos' <;> simp [there, here]

/-! ## The open group of a position -/

theorem Group.at_of_at {h : Group} {seq' layer' head' page' : Nat} {spec' : Bool}
    (own : h.at g.seq g.layer g.head g.page g.spec = true) (there : h.at seq' layer' head' page' spec' = true) :
    g.at seq' layer' head' page' spec' = true := by
  simp only [Group.at, Bool.and_eq_true, Bool.or_eq_true, beq_iff_eq] at *
  obtain ⟨⟨⟨⟨h1, h2⟩, h3⟩, h4⟩, h5⟩ := own
  obtain ⟨⟨⟨⟨k1, k2⟩, k3⟩, k4⟩, k5⟩ := there
  refine ⟨⟨⟨⟨h1 ▸ k1, h2 ▸ k2⟩, h3 ▸ k3⟩, h4 ▸ k4⟩, ?_⟩
  rcases k5 with k5 | k5
  · exact .inl k5
  · rcases h5 with h5 | h5
    · exact .inl (k4 ▸ h4 ▸ h5)
    · exact .inr (h5 ▸ k5)

/-- A group that is kept becomes the open one of its place. -/
theorem setGroup_findGroup_same (hp : p < s.kvs.length) (fresh : g.flushed = none) {page : Nat}
    (own : g.at seq layer head page spec = true) :
    ∃ full, (s.setGroup p g).findGroup p seq layer head page spec = some { g with fullAt := full } := by
  rw [State.findGroup, State.setGroup, State.kv_modKv_same s _ hp]
  exact ⟨_, List.find?_cons_of_pos (by rw [fresh]; simpa [Group.at] using own)⟩

/-- The open group of every other place stays. -/
theorem setGroup_findGroup_other (hp : p < s.kvs.length) {page : Nat} (other : ¬g.at seq layer head page spec = true) :
    (s.setGroup p g).findGroup p seq layer head page spec = s.findGroup p seq layer head page spec := by
  rw [State.findGroup, State.setGroup, State.kv_modKv_same s _ hp]
  refine (List.find?_cons_of_neg ?_).trans ?_
  · rw [Bool.and_eq_true]
    exact fun h => other h.1
  rw [List.find?_filter, State.findGroup]
  congr 1
  funext h
  by_cases there : h.at seq layer head page spec = true
  · have apart : h.at g.seq g.layer g.head g.page g.spec = false :=
      Bool.eq_false_iff.2 fun own => other (Group.at_of_at own there)
    cases h.flushed <;> simp [there, apart]
  · simp [there]

theorem growGroup_group {n fuel : Nat} {staged : Bool} {g' : Group} (grown : s.growGroup p g n fuel = some (t, g', staged)) :
    ∃ sump stag, g' = { g with sump := sump, stag := stag } := by
  induction fuel generalizing s g staged with
  | zero =>
    simp only [State.growGroup] at grown
    split at grown
    · cases grown
      exact ⟨_, _, rfl⟩
    · cases grown
  | succ fuel ih =>
    simp only [State.growGroup] at grown
    split at grown
    · cases grown
      exact ⟨_, _, rfl⟩
    · split at grown
      · cases grown
      next st s1 taken =>
        split at grown
        · cases grown
        next s2 g2 b more =>
          cases grown
          obtain ⟨sump, stag, e⟩ := ih more
          refine ⟨sump, stag, e.trans ?_⟩
          cases st <;> rfl

/-! ## A half by its sequence, layer, KV head and position -/

/-- What stands in one half of a position, or of a draft, in the open group that holds it. -/
def State.half? (s : State) (p seq layer head pos : Nat) (spec values : Bool) : Option (Nat × List Byte) :=
  (s.findGroup p seq layer head (if spec then 0 else pos / 64) spec).bind fun g =>
    halfOf g.toks (if spec then pos else pos % 64) values

theorem State.half?_group {v : Nat × List Byte} (here : s.half? p seq layer head pos spec false = some v)
    {w : Nat × List Byte} (there : s.half? p seq layer head pos spec true = some w) : ∃ g ∈ (s.kv p).groups,
      g.at seq layer head (if spec then 0 else pos / 64) spec = true ∧
        halfOf g.toks (if spec then pos else pos % 64) false = some v ∧
        halfOf g.toks (if spec then pos else pos % 64) true = some w := by
  obtain ⟨g, found, key⟩ := Option.bind_eq_some_iff.1 here
  obtain ⟨g', found', val⟩ := Option.bind_eq_some_iff.1 there
  cases found.symm.trans found'
  have own := List.find?_some found
  rw [Bool.and_eq_true] at own
  exact ⟨g, List.mem_of_find?_eq_some found, own.1, key, val⟩

/-- An append replaces its group by one that holds the half too. -/
theorem appendTok_group {v : Nat × List Byte} {staged : Bool}
    (taken : s.appendTok p uid seq layer head pos base spec values d v = .ok t staged) :
    ∃ (u : State) (g g' : Group), u.kvs = s.kvs ∧ t = u.setGroup p g' ∧ g'.flushed = none ∧
      g = (s.findGroup p seq layer head (if spec then 0 else pos / 64) spec).getD
        (Group.empty seq layer head (if spec then 0 else pos / 64) spec d s.now) ∧
      g'.at seq layer head (if spec then 0 else pos / 64) spec = true ∧
      g'.toks = putHalf g.toks (if spec then pos else pos % 64) values (some v) := by
  delta State.appendTok at taken
  extract_lets page old at_ toks undo at taken
  split at taken
  · cases taken
  extract_lets flushed at taken
  split at taken
  · cases taken
  split at taken
  · cases taken
  next u g' b grown =>
    cases taken
    have kept := KOpt.ofFst grown (growGroup_keeps (Touch.Le.refl _) (Keeps.refl _ s))
    obtain ⟨sump, stag, rfl⟩ := growGroup_group grown
    have own : old.flushed = none ∧ old.at seq layer head page spec = true := by
      unfold old
      cases found : s.findGroup p seq layer head page spec with
      | none => exact ⟨rfl, by simp [Group.at, Group.empty]⟩
      | some g =>
        have isOpen := List.find?_some found
        rw [Bool.and_eq_true, Option.isNone_iff_eq_none] at isOpen
        exact isOpen.symm
    exact ⟨u, old, _, kept.kvs_eq rfl, rfl, own.1, rfl, own.2, rfl⟩

section
variable {v : Nat × List Byte} {staged : Bool} (hp : p < s.kvs.length)
  (taken : s.appendTok p uid seq layer head pos base spec values d v = .ok t staged)
include hp taken

theorem appendTok_half?_same : t.half? p seq layer head pos spec values = some v := by
  obtain ⟨u, g, g', kvs, rfl, fresh, -, own, toks⟩ := appendTok_group taken
  obtain ⟨full, found⟩ := setGroup_findGroup_same (kvs ▸ hp) fresh own
  rw [State.half?, found, Option.bind_some, toks, halfOf_putHalf_same]

theorem appendTok_half?_other {head' pos' : Nat} {spec' values' : Bool}
    (other : ¬(head' = head ∧ pos' = pos ∧ spec' = spec ∧ values' = values)) :
    t.half? p seq layer head' pos' spec' values' = s.half? p seq layer head' pos' spec' values' := by
  obtain ⟨u, g, g', kvs, rfl, fresh, was, own, toks⟩ := appendTok_group taken
  have same (page : Nat) : u.findGroup p seq layer head' page spec' = s.findGroup p seq layer head' page spec' := by
    rw [State.findGroup, State.kv, kvs, ← State.kv, ← State.findGroup]
  by_cases here : g'.at seq layer head' (if spec' then 0 else pos' / 64) spec' = true
  · obtain ⟨full, found⟩ := setGroup_findGroup_same (s := u) (kvs ▸ hp) fresh here
    simp only [Group.at, Bool.and_eq_true, beq_iff_eq] at own here
    obtain ⟨⟨⟨-, rfl⟩, rfl⟩, page⟩ := own
    obtain ⟨⟨⟨-, rfl⟩, rfl⟩, page'⟩ := here
    have place : (if g'.spec then 0 else pos' / 64) = if g'.spec then 0 else pos / 64 := by
      cases spec : g'.spec <;> simp_all
    have apart : ¬((if g'.spec then pos' else pos' % 64) = (if g'.spec then pos else pos % 64) ∧ values' = values) := by
      rintro ⟨slot, rfl⟩
      refine other ⟨rfl, ?_, rfl, rfl⟩
      cases spec : g'.spec <;> simp only [spec, if_true, Bool.false_eq_true, if_false] at slot place <;> omega
    rw [State.half?, found, Option.bind_some, toks, halfOf_putHalf_other _ _ _ _ apart, was, State.half?, place]
    cases s.findGroup p seq layer g'.head (if g'.spec then 0 else pos / 64) g'.spec <;> rfl
  · rw [State.half?, setGroup_findGroup_other (kvs ▸ hp) here, same, State.half?]

end

/-! ## The pairs of a layer (R141) -/

/-- Where a pair stands among those of its sequence and layer. -/
def Pair.place (x : Pair) : Nat × Bool × Nat := (x.head, x.spec, x.pos)

/-- Both halves of a pair stand in an open group. -/
def State.holds (s : State) (p seq layer : Nat) (x : Pair) : Prop :=
  s.half? p seq layer x.head x.pos x.spec false = some x.key ∧ s.half? p seq layer x.head x.pos x.spec true = some x.val

theorem appendTok_kvs_length {v : Nat × List Byte} {staged : Bool}
    (taken : s.appendTok p uid seq layer head pos base spec values d v = .ok t staged) : t.kvs.length = s.kvs.length := by
  obtain ⟨u, g, g', kvs, rfl, -⟩ := appendTok_group taken
  rw [State.setGroup, State.modKv_kvs, List.length_modify, kvs]

theorem appendPair_ok {x : Pair} {staged : Bool} (taken : s.appendPair p uid seq layer base d x = .ok t staged) :
    ∃ (u : State) (a b : Bool), s.appendTok p uid seq layer x.head x.pos base x.spec false d x.key = .ok u a ∧
      u.appendTok p uid seq layer x.head x.pos base x.spec true d x.val = .ok t b := by
  simp only [State.appendPair] at taken
  split at taken
  next u a keys =>
    split at taken
    next v b vals =>
      cases taken
      exact ⟨u, a, b, keys, vals⟩
    next other => exact absurd taken (other _ _)
  next other => exact absurd taken (other _ _)

section
variable {x : Pair} {staged : Bool} (hp : p < s.kvs.length) (taken : s.appendPair p uid seq layer base d x = .ok t staged)
include hp taken

theorem appendPair_kvs_length : p < t.kvs.length := by
  obtain ⟨u, a, b, keys, vals⟩ := appendPair_ok taken
  rwa [appendTok_kvs_length vals, appendTok_kvs_length keys]

theorem appendPair_holds : t.holds p seq layer x := by
  obtain ⟨u, a, b, keys, vals⟩ := appendPair_ok taken
  have hu : p < u.kvs.length := by rwa [appendTok_kvs_length keys]
  refine ⟨?_, appendTok_half?_same hu vals⟩
  rw [appendTok_half?_other hu vals (by simp), appendTok_half?_same hp keys]

theorem appendPair_holds_other {y : Pair} (apart : y.place ≠ x.place) (held : s.holds p seq layer y) :
    t.holds p seq layer y := by
  obtain ⟨u, a, b, keys, vals⟩ := appendPair_ok taken
  have hu : p < u.kvs.length := by rwa [appendTok_kvs_length keys]
  have other (values values' : Bool) : ¬(y.head = x.head ∧ y.pos = x.pos ∧ y.spec = x.spec ∧ values' = values) :=
    fun ⟨hh, hq, hs, _⟩ => apart (by rw [Pair.place, Pair.place, hh, hs, hq])
  exact ⟨by rw [appendTok_half?_other hu vals (other _ _), appendTok_half?_other hp keys (other _ _), held.1],
    by rw [appendTok_half?_other hu vals (other _ _), appendTok_half?_other hp keys (other _ _), held.2]⟩

end

/-- Appends at places of their own: each pair stands in an open group at the end, and a pair elsewhere stays. -/
theorem appendAll_holds {xs : List Pair} {staged : Bool} (hp : p < s.kvs.length) (own : (xs.map Pair.place).Nodup)
    (taken : State.appendAll p uid seq layer base d xs s = .ok t staged) :
    (∀ y ∈ xs, t.holds p seq layer y) ∧
      ∀ y : Pair, y.place ∉ xs.map Pair.place → s.holds p seq layer y → t.holds p seq layer y := by
  induction xs generalizing s staged with
  | nil =>
    cases taken
    exact ⟨fun y hy => (nomatch hy), fun y _ held => held⟩
  | cons x rest ih =>
    rw [List.map_cons, List.nodup_cons] at own
    simp only [State.appendAll] at taken
    split at taken
    next u a first =>
      split at taken
      next v b more =>
        cases taken
        obtain ⟨inside, outside⟩ := ih (appendPair_kvs_length hp first) own.2 more
        refine ⟨fun y hy => ?_, fun y away held => ?_⟩
        · rcases List.mem_cons.1 hy with rfl | hy
          · exact outside y own.1 (appendPair_holds hp first)
          · exact inside y hy
        · rw [List.map_cons, List.mem_cons, not_or] at away
          exact outside y away.2 (appendPair_holds_other hp first away.1 held)
      next other => exact absurd taken (other _ _)
    next other => exact absurd taken (other _ _)

/-- The caches hold the same groups: the same halves are read. -/
theorem State.HeldAs.holds {x : Pair} (h : s.HeldAs t) (held : s.holds p seq layer x) : t.holds p seq layer x := by
  have same (head page : Nat) (spec : Bool) :
      t.findGroup p seq layer head page spec = s.findGroup p seq layer head page spec := by
    have groups : (t.kv p).groups = (s.kv p).groups := congrArg Prod.fst (h p)
    rw [State.findGroup, groups, State.findGroup]
  simpa only [State.holds, State.half?, same] using held

end Sys2Proof.Machine
end

section
/-! SUPPORT. The rows and pairs of a serving entry (R192, R193, R204), and what the building of a layer's lists leaves: the
groups as they are (R174, R180). -/

namespace Sys2Proof.Machine

variable {s t : State} {p n : Nat} {e : Ent} {j : Job} {m : Slot} {a : Adapt}

/-! ## The rows and the pairs of an entry (R192, R193, R204) -/

/-- What tells a row from the others of its entry: whether it is a draft, and the position or the index. -/
def RowId.place (r : RowId) : Bool × Nat := (r.draft.isSome, r.draft.getD r.pos)

theorem nodup_map_zipIdx {α β : Type} (l : List α) {f : α × Nat → β} (inj : ∀ x y, f x = f y → x.2 = y.2) :
    (l.zipIdx.map f).Nodup := by
  refine List.Nodup.map_on (fun x hx y hy h => ?_) (List.Nodup.of_map Prod.snd (List.nodup_zipIdx_map_snd l))
  obtain ⟨-, hx⟩ := List.mem_zipIdx' hx
  obtain ⟨-, hy⟩ := List.mem_zipIdx' hy
  have idx := inj x y h
  refine Prod.ext ?_ idx
  simp only [hx, hy, idx]

theorem rowIds_nodup (op k : Nat) (e : Ent) : ((e.rowIds op k).map RowId.place).Nodup := by
  unfold Ent.rowIds
  split
  · rw [List.map_map]
    exact nodup_map_zipIdx _ fun x y h => by simpa [RowId.place] using h
  · rw [List.map_cons, List.map_map, List.nodup_cons]
    refine ⟨?_, nodup_map_zipIdx _ fun x y h => by simpa [RowId.place] using h⟩
    simp [RowId.place]

/-- The rows that are zipped with others are the first ones. -/
theorem map_zip_fst_nodup {α β γ : Type} {f : α → γ} {l : List α} (nodup : (l.map f).Nodup) (l' : List β) :
    ((l.zip l').map fun x => f x.1).Nodup := by
  induction l generalizing l' with
  | nil => simp
  | cons x l ih =>
    cases l' with
    | nil => simp
    | cons y l' =>
      rw [List.map_cons, List.nodup_cons] at nodup
      rw [List.zip_cons_cons, List.map_cons, List.nodup_cons]
      refine ⟨fun h => nodup.1 ?_, ih nodup.2 l'⟩
      obtain ⟨z, hz, e⟩ := List.mem_map.1 h
      exact e ▸ List.mem_map_of_mem (List.of_mem_zip hz).1

theorem pairs_nodup (t : Slot) (a : Adapt) (op k layer : Nat) (e : Ent) :
    ((e.pairs t a op k layer).map Pair.place).Nodup := by
  rw [Ent.pairs, List.map_flatMap, List.nodup_flatMap]
  refine ⟨fun h _ => ?_, List.Pairwise.imp (fun {h h'} apart => ?_) List.nodup_range⟩
  · rw [List.map_map]
    have own := map_zip_fst_nodup (rowIds_nodup op k e) e.rows
    have headed := List.Nodup.map (f := fun r : Bool × Nat => (h, r)) (fun _ _ e => (Prod.mk.inj e).2) own
    rwa [List.map_map] at headed
  · rw [Function.onFun, List.disjoint_left]
    rintro _ hx hy
    simp only [List.map_map, List.mem_map, Function.comp] at hx hy
    obtain ⟨x, -, rfl⟩ := hx
    obtain ⟨y, -, e⟩ := hy
    exact apart (congrArg Prod.fst e).symm

/-! ## The lists of a layer leave the groups as they are (R174, R180) -/

theorem State.HeldAs.pageFrames {e : Pte} (h : s.HeldAs t) : KOpt (fun r => s.HeldAs r.2.2) (t.pageFrames p e) := by
  delta State.pageFrames
  extract_lets c
  split
  · exact KOpt.none
  next pay t1 first =>
    have h1 : s.HeldAs t1 := h.allocFrame _ first
    split
    · exact KOpt.none
    next side t2 second => exact KOpt.some (h1.allocFrame (p := p) _ second)

theorem State.HeldAs.startPageMove {m : Move} {prio : Nat} (h : s.HeldAs t) : s.HeldAs (t.startPageMove m prio) := by
  delta State.startPageMove
  split
  · split
    · exact h
    · split
      · exact h
      next pay side t1 frames =>
        have h1 : s.HeldAs t1 := h.pageFrames _ frames
        extract_lets pg moving
        have h2 : s.HeldAs moving := h1.of_kvs (store_kvs ..)
        have placed {v : State} {a len : Nat} : (v.placeOwn m.part m.id prio a len).kvs = v.kvs :=
          (placeOwn_keeps (Touch.Le.refl _) (Keeps.refl _ v)).kvs_eq rfl
        exact (h2.of_kvs placed).of_kvs placed
  · exact h

theorem State.HeldAs.wantPage {i : Nat} {w : Waiter} (h : s.HeldAs t) : s.HeldAs (t.wantPage p i w) := by
  have joined (v : State) (id : Nat) : (v.joinMove id w).kvs = v.kvs :=
    (joinMove_keeps (Touch.Le.refl _) (Keeps.refl _ v)).kvs_eq rfl
  unfold State.wantPage
  split
  · exact h.of_kvs (joined ..)
  · split
    · exact h
    · refine State.HeldAs.of_kvs (State.HeldAs.startPageMove ?_) (joined ..)
      exact h

theorem State.HeldAs.fullList {q : Seq} {layer head : Nat} (h : s.HeldAs t) :
    KOpt (fun v => s.HeldAs v) (t.fullList j q layer head n) := by
  delta State.fullList State.placeList
  extract_lets pages words
  refine KOpt.map (Q := fun r => s.HeldAs r.2) (KOpt.map (h.allocFrame) fun r hr => ?_) fun r hr => hr
  exact State.HeldAs.of_kvs (t := r.2) hr (store_kvs ..)

theorem State.HeldAs.signalRow {k : Nat} (h : s.HeldAs t) : s.HeldAs (t.signalRow j k) :=
  h.of_kvs ((signalRow_keeps (Touch.Le.refl _) (Keeps.refl _ t)).kvs_eq rfl)

theorem State.HeldAs.layerLists {k layer : Nat} (h : s.HeldAs t) :
    KOpt (fun v => s.HeldAs v) (t.layerLists j m a k layer e) := by
  refine keepsFold (Q := KOpt fun v => s.HeldAs v) (KOpt.some h) fun o head ho => KOpt.bind ho fun v hv => ?_
  unfold State.headList
  split
  · exact KOpt.some hv
  · split
    · exact KOpt.some hv.signalRow
    · refine KOpt.map hv.fullList fun w hw => ?_
      exact keepsFold (Q := fun w => s.HeldAs w) hw.signalRow fun _ _ h => h.wantPage

end Sys2Proof.Machine
end

section
/-! SUPPORT. The kind-specific part of a job that ends with an error or waits for a unit (R36, R142): it stands as it stood. -/

namespace Sys2Proof.Machine

variable {s t : State} {uid : Nat} {j : Job} {ext : Ext}

/-- Where the job is still there, it stands where it stood. -/
def State.ExtIs (s : State) (uid : Nat) (ext : Ext) : Prop := ∀ i, s.job? uid = some i → i.ext = ext

theorem State.ExtIs.of_jobs (h : s.ExtIs uid ext) (jobs : t.jobs = s.jobs) : t.ExtIs uid ext := fun i hi =>
  h i (by rwa [← State.job?_congr jobs])

theorem State.ExtIs.modJob {f : Job → Job} (h : s.ExtIs uid ext) (isUid : ∀ j, (f j).uid = j.uid)
    (same : ∀ j, (f j).ext = j.ext) :
    (s.modJob uid f).ExtIs uid ext := fun i hi => by
  rw [State.job_modJob_same s uid f isUid] at hi
  obtain ⟨k, hk, rfl⟩ := Option.map_eq_some_iff.1 hi
  rw [same, h k hk]

theorem State.ExtIs.finishJob (h : s.ExtIs j.uid ext) (result : Nat) : (s.finishJob j result).ExtIs j.uid ext := by
  obtain ⟨t, kept, e⟩ := finishJob_eq s j result
  have ht : t.ExtIs j.uid ext := h.of_jobs (kept.jobs_eq rfl)
  rw [e]
  split
  · exact fun i hi => nomatch retireJob_gone.symm.trans hi
  · exact (ht.of_jobs ((queueComp_keeps (Touch.Le.refl _) (Keeps.refl _ t)).jobs_eq rfl)).modJob (fun _ => rfl) fun _ => rfl

/-- Noting an error and withdrawing the work leaves the job where it stood. -/
theorem State.ExtIs.withdrawn (h : s.ExtIs uid ext) (st : Nat) : ((s.jobError uid st).withdraw uid).ExtIs uid ext := by
  have noted : (s.jobError uid st).ExtIs uid ext := h.modJob (by exact fun _ => rfl) (by exact fun _ => rfl)
  exact noted.of_jobs ((withdraw_keeps (Touch.Le.refl _) (Keeps.refl _ _)).jobs_eq rfl)

theorem State.ExtIs.failJob (h : s.ExtIs uid ext) (st result : Nat) : (s.failJob uid st result).ExtIs uid ext := by
  have hw := h.withdrawn st
  simp only [State.failJob]
  split
  · exact hw
  next k found =>
    obtain rfl := State.job?_uid found
    split
    · exact hw
    · refine State.ExtIs.finishJob ?_ result
      split
      · exact hw.of_jobs ((cancelEffects_keeps (Touch.Le.refl _) (Keeps.refl _ _)).jobs_eq rfl)
      · exact hw

theorem State.ExtIs.failJob' (h : s.ExtIs uid ext) (st : Nat) : (s.failJob' uid st).ExtIs uid ext := by
  unfold State.failJob'
  split
  · exact h
  · exact h.failJob st _

theorem State.ExtIs.exhaustJob (h : s.ExtIs uid ext) : (s.exhaustJob uid).ExtIs uid ext := by
  have hw := h.withdrawn stExhausted
  simp only [State.exhaustJob]
  split
  · exact hw
  next k found =>
    obtain rfl := State.job?_uid found
    split
    · exact hw
    · exact (hw.of_jobs ((cancelEffects_keeps (Touch.Le.refl _) (Keeps.refl _ _)).jobs_eq rfl)).finishJob _

/-- A job that waits for a unit stands where it stood, or waits from now on. -/
theorem State.ExtIs.waitUnit (h : s.ExtIs j.uid ext) (since : Option Nat) (set : Option Nat → Ext) :
    (s.waitUnit j since set).ExtIs j.uid ext ∨ (s.waitUnit j since set).ExtIs j.uid (set (some s.now)) := by
  unfold State.waitUnit
  split
  · split
    · exact .inl h.exhaustJob
    · exact .inl h
  · refine .inr fun i hi => ?_
    rw [State.job_modJob_same _ _ _ (by exact fun _ => rfl)] at hi
    obtain ⟨k, -, rfl⟩ := Option.map_eq_some_iff.1 hi
    rfl


theorem State.ExtIs.apart (h : s.ExtIs uid ext) {i : Job} (found : s.job? uid = some i) {ext' : Ext} (is : i.ext = ext')
    (other : ext ≠ ext') {P : Prop} : P :=
  absurd ((h i found).symm.trans is) other

end Sys2Proof.Machine
end

section
/-! SUPPORT. One command of a serving job (R174, R192, R193, R204): the half of a layer that it runs, and what each half can come
to. -/

namespace Sys2Proof.Machine

variable {s t : State} {uid op : Nat} {c : Instr} {e : Ent} {j k : Job} {m : Slot} {x : Place} {ext : Ext}

/-! ## One step of a serving job -/

/-- The opcodes of the commands that take a serving job a step further. -/
def servingSteps (uid : Nat) : List (Instr × Nat) :=
  [(.prefillChunk uid, 0x03), (.decodeStep uid, 0x04), (.verifyTree uid, 0x05)]

theorem waitStart_of_running (found : s.job? uid = some j) (running : j.state = .running) (op : Nat) :
    s.waitStart uid op = s := by
  simp only [State.waitStart, found]
  split
  · rfl
  · simp [State.startable, running]

section
variable (cmd : (c, op) ∈ servingSteps uid) (h : s.serves uid op j m x.ents x.chunk x.step x.since)
  (unready : (x.ents.all fun e => !e.ready) = true) (idle : s.workOut uid = false)
include h

theorem serves_not_starting (op' : Nat) : s.startStep uid op' = s.serveOn uid op' := by
  obtain ⟨⟨found, -, running, -⟩, -, -⟩ := h
  simp only [State.startStep, starting_none_of_running found running, waitStart_of_running found running]

include cmd unready idle

theorem exec_serving : exec c s = .next (s.serveStep j m x) := by
  have on : s.serveOn uid op = s.serveStep j m x := by
    obtain ⟨⟨found, isOp, running, unfinished, up⟩, ext, slot⟩ := h
    simp [State.serveOn, found, ext, slot, isOp, running, unfinished, up, unready, idle]
  simp only [servingSteps, List.mem_cons, Prod.mk.injEq, List.not_mem_nil, or_false] at cmd
  rcases cmd with ⟨rfl, rfl⟩ | ⟨rfl, rfl⟩ | ⟨rfl, rfl⟩
  · exact congrArg _ on
  · exact congrArg _ ((serves_not_starting h 0x04).trans on)
  · exact congrArg _ ((serves_not_starting h 0x05).trans on)

variable (turn : x.entry op = some e) (rows : e.rowIds op x.chunk ≠ [])
include turn rows

theorem exec_serving_entry : exec c s = .next (if x.step % 2 = 0 then s.beginLayer j m x e else s.endLayer j m x e) := by
  obtain ⟨⟨-, rfl, -⟩, -⟩ := id h
  rw [exec_serving cmd h unready idle, State.serveStep, turn]
  simp [rows]

end

/-! ## The first half of a layer (R141, R174) -/

/-- The entry as the layer's first half takes it: in layer 0 its rows enter. -/
def Place.entering (x : Place) (op : Nat) (t : Slot) (e : Ent) : Ent :=
  if x.layer = 0 then { e with rows := (e.rowIds op x.chunk).map fun r => embedRow t r.token } else e

/-- The pass goes on after its appends: STAGING_USED where they took staging units, and what PACK met. -/
def State.passBegun (s : State) (j : Job) (staged : Bool) (met : Nat × Nat) : State :=
  (if staged then s.jobQuality j.uid qStaging else s).countPass j met

/-- What the first half of a layer can come to: the job ends or waits as it stood; or all pairs are appended, and then the lists
are built or no frame is free for them. -/
theorem beginLayer_cases {d : Ent} (enters : x.entering j.opcode m e = d) :
    (∃ st, s.beginLayer j m x e = s.failJob' j.uid st) ∨
      s.beginLayer j m x e = s.waitUnit j x.since (Ext.serve x.ents x.chunk x.step) ∨
      ∃ (s1 s2 : State) (staged : Bool) (met : Nat × Nat),
        Keeps ⟨Touch.nothing.kvs.seqs.mems.dram.record, s⟩ s1 ∧
        State.appendAll j.part j.uid d.seqIdx x.layer (d.oldLen + chunkTokens * x.chunk) m.dim
          (d.pairs m (s.adaptOf j m d) j.opcode x.chunk x.layer) s1 = .ok s2 staged ∧
        (s.beginLayer j m x e = (s2.passBegun j staged met).failJob' j.uid stExhausted ∨
          ∃ v, (s2.passBegun j staged met).layerLists j m (s.adaptOf j m d) x.chunk x.layer d = some v ∧
            s.beginLayer j m x e = v.setServe j.uid (putEnt x.ents d) x.chunk (x.step + 1)) := by
  have isEnt : (if x.layer = 0 then { e with rows := (e.rowIds j.opcode x.chunk).map fun r => embedRow m r.token } else e) = d :=
    enters
  simp only [State.beginLayer, isEnt]
  split
  next => exact .inl ⟨_, rfl⟩
  next s1 history =>
    have kept := chunkHistory_keeps (Touch.Le.refl _) (Keeps.refl _ s) s1 history
    split
    next => exact .inr (.inl rfl)
    next => exact .inl ⟨_, rfl⟩
    next s2 staged taken =>
      refine .inr (.inr ⟨s1, s2, staged,
        sumMet (((e.rowIds j.opcode x.chunk).zip d.rows).map fun r => beginMet m (s.adaptOf j m d) x.layer r.1.pos r.2),
        kept, taken, ?_⟩)
      split
      next => exact .inl rfl
      next v lists => exact .inr ⟨v, lists, rfl⟩

theorem State.ExtIs.passBegun (h : s.ExtIs uid ext) (j : Job) (staged : Bool) (met : Nat × Nat) :
    (s.passBegun j staged met).ExtIs uid ext := by
  have marked : (if staged then s.jobQuality j.uid qStaging else s).ExtIs uid ext := by
    cases staged
    · exact h
    · by_cases own : j.uid = uid
      · subst own
        exact h.modJob (by exact fun _ => rfl) (by exact fun _ => rfl)
      · exact fun i hi => h i (by
          rwa [if_pos rfl, State.jobQuality, State.job_modJob_other _ _ (by exact fun _ => rfl) own] at hi)
  exact marked.of_jobs ((countPass_keeps (Touch.Le.refl _) (Keeps.refl _ _)).jobs_eq rfl)

theorem passBegun_kvs (s : State) (j : Job) (staged : Bool) (met : Nat × Nat) : (s.passBegun j staged met).kvs = s.kvs := by
  refine ((countPass_keeps (Touch.Le.refl _) (Keeps.refl _ _)).kvs_eq rfl).trans ?_
  cases staged <;> rfl

/-- Where the job goes on to the second half, the pairs of all rows stand in open groups. -/
theorem beginLayer_holds {d : Ent} (enters : x.entering j.opcode m e = d) (shaped : s.shaped = true) (hp : j.part < 8)
    (ext : j.ext = .serve x.ents x.chunk x.step x.since) (found : s.job? j.uid = some j) {i : Job}
    (after : (s.beginLayer j m x e).job? j.uid = some i)
    (goesOn : i.ext = .serve (putEnt x.ents d) x.chunk (x.step + 1) none) :
    ∀ y ∈ d.pairs m (s.adaptOf j m d) j.opcode x.chunk x.layer, (s.beginLayer j m x e).holds j.part d.seqIdx x.layer y := by
  have stood : s.ExtIs j.uid (.serve x.ents x.chunk x.step x.since) := fun k hk => by
    cases hk.symm.trans found
    exact ext
  have elsewhere (since : Option Nat) :
      Ext.serve x.ents x.chunk x.step since ≠ .serve (putEnt x.ents d) x.chunk (x.step + 1) none := by simp
  rcases beginLayer_cases enters with ⟨st, e⟩ | e | ⟨s1, s2, staged, met, k1, taken, e | ⟨v, lists, e⟩⟩
  all_goals rw [e] at after ⊢
  · exact (stood.failJob' st).apart after goesOn (elsewhere _)
  · rcases stood.waitUnit x.since (Ext.serve x.ents x.chunk x.step) with stays | waits
    · exact stays.apart after goesOn (elsewhere _)
    · exact waits.apart after goesOn (elsewhere _)
  · have k2 := KApp.of taken (appendAll_keeps (Touch.Le.refl _) (Keeps.refl _ s1))
    have stood2 := (stood.of_jobs (k1.jobs_eq rfl)).of_jobs (k2.jobs_eq rfl)
    exact ((stood2.passBegun j staged met).failJob' stExhausted).apart after goesOn (elsewhere _)
  · have room : j.part < s1.kvs.length := by rwa [shaped_kvs (k1.shaped shaped)]
    have held : s2.HeldAs v := ((State.HeldAs.refl s2).of_kvs (passBegun_kvs ..)).layerLists v lists
    exact fun y hy => held.holds ((appendAll_holds room (pairs_nodup ..) taken).1 y hy)

/-! ## The second half of a layer (R115, R165, R174) -/

theorem blockedOut_eq_none_iff {a n : Nat} : s.blockedOut j a n = none ↔
    (n == 0 || (s.inDramHost j.part a n && (decide (a < hostBase) || s.hostOk j.part))) = true := by
  unfold State.blockedOut
  by_cases empty : n = 0
  · simp [empty]
  · cases s.inDramHost j.part a n <;> cases s.hostOk j.part <;> simp [empty]

/-- Every block can be reached, and a word of one of them cannot be read: the job ends with DATA_UNCORRECTED. -/
theorem anyBlocked_bad {reads : List (Nat × Nat)}
    (reach : reads.all (fun r => r.2 == 0 ||
      (s.inDramHost j.part r.1 r.2 && (decide (r.1 < hostBase) || s.hostOk j.part))) = true)
    (bad : ∃ r ∈ reads, s.badWords r.1 r.2 ≠ []) :
    ∃ ws, s.anyBlocked j reads = some ((s.reportWords ws).failJob' j.uid stData) := by
  induction reads with
  | nil => simp at bad
  | cons r rest ih =>
    rw [List.all_cons, Bool.and_eq_true] at reach
    by_cases here : s.badWords r.1 r.2 = []
    · obtain ⟨ws, e⟩ := ih reach.2 (by simpa [here] using bad)
      exact ⟨ws, by simp [State.anyBlocked, State.blocked, blockedOut_eq_none_iff.2 reach.1, here, e]⟩
    · exact ⟨s.badWords r.1 r.2, by
        simp only [State.anyBlocked, State.blocked, blockedOut_eq_none_iff.2 reach.1, List.isEmpty_iff, here, if_false]⟩

theorem reportWords_record (s : State) (ws : List Nat) : Keeps ⟨Touch.nothing.dram.record, s⟩ (s.reportWords ws) :=
  reportWords_keeps (Touch.Le.refl _) (Keeps.refl _ s)

theorem endLayer_bad (hr : s.recorded j)
    (reach : (s.layerReads j m x.layer e).all (fun r => r.2 == 0 ||
      (s.inDramHost j.part r.1 r.2 && (decide (r.1 < hostBase) || s.hostOk j.part))) = true)
    (bad : ∃ r ∈ s.layerReads j m x.layer e, s.badWords r.1 r.2 ≠ []) :
    (s.endLayer j m x e).recordWaits j (firstError j.status stData) j.progress := by
  obtain ⟨ws, blocked⟩ := anyBlocked_bad reach bad
  have kept := reportWords_record s ws
  simp only [State.endLayer, blocked]
  exact failJob'_recordWaits (hr.of_eq (kept.jobs_eq rfl) (kept.qps_eq rfl)) (by decide)

/-- The lists' frames leave the job's area; the rest of the job is as it was. -/
theorem freeLists_job? (found : s.job? j.uid = some k) (seq layer : Nat) :
    ∃ areas, (s.freeLists j seq layer).job? j.uid = some { k with areas := areas } := by
  delta State.freeLists
  extract_lets mine gone freed cleared dropped
  have k1 : Keeps ⟨Touch.nothing.counters.kvs, s⟩ freed :=
    keepsFold (Q := Keeps _) (Keeps.refl _ s) fun _ _ h => freeFrame_keeps rfl h
  have k2 : Keeps ⟨Touch.nothing.counters.kvs, s⟩ cleared := by
    unfold cleared
    split
    · exact setCounter_keeps rfl (setCounter_keeps rfl k1)
    · exact k1
  refine ⟨k.areas.filter fun a => !gone.contains a, ?_⟩
  change dropped.job? j.uid = _
  rw [State.job_modJob_same _ _ _ (by exact fun _ => rfl), State.job?_congr (k2.jobs_eq rfl), found]
  rfl

/-- The entry with the rows that leave the layer. -/
def State.leaving (s : State) (j : Job) (t : Slot) (x : Place) (e : Ent) : Ent :=
  { e with
    rows := ((e.rowIds j.opcode x.chunk).zip e.rows).map fun r =>
      layerEnd t (s.adaptOf j t e) x.layer ((j.shadowed.filter fun z => z.1 == x.layer).map Prod.snd) r.2
        (s.rowAttn j t (s.adaptOf j t e) e x.layer r.1 r.2) }

theorem putEnt_length (ents : List Ent) (e : Ent) : (putEnt ents e).length = ents.length := List.length_map ..

/-- Saturations and occurrences are counted, the lists are freed, and the job goes on to its next step. -/
theorem endLayer_next (reads : s.anyBlocked j (s.layerReads j m x.layer e) = none)
    (more : x.step + 1 < 2 * m.manifest.layers * x.ents.length) :
    ∃ u, Keeps ⟨Touch.nothing.engines.record, s⟩ u ∧ s.endLayer j m x e =
      (u.freeLists j e.seqIdx x.layer).setServe j.uid (putEnt x.ents (s.leaving j m x e)) x.chunk (x.step + 1) := by
  simp only [State.endLayer, reads, State.nextStep, putEnt_length, if_pos more, List.map_map, State.leaving]
  exact ⟨_, passData_keeps rfl (countPass_keeps rfl (Keeps.refl _ s)), rfl⟩

theorem endLayer_goes_on (found : s.job? j.uid = some j) (reads : s.anyBlocked j (s.layerReads j m x.layer e) = none)
    (more : x.step + 1 < 2 * m.manifest.layers * x.ents.length) :
    (s.endLayer j m x e).seqs = s.seqs ∧ ∃ areas, (s.endLayer j m x e).job? j.uid =
      some { j with areas := areas, ext := .serve (putEnt x.ents (s.leaving j m x e)) x.chunk (x.step + 1) none } := by
  obtain ⟨u, kept, step⟩ := endLayer_next reads more
  have here : u.job? j.uid = some j := by rw [State.job?_congr (kept.jobs_eq rfl), found]
  obtain ⟨areas, freed⟩ := freeLists_job? here e.seqIdx x.layer
  rw [step]
  refine ⟨?_, areas, ?_⟩
  · exact ((freeLists_keeps (Touch.Le.refl _) (Keeps.refl _ u)).seqs_eq rfl).trans (kept.seqs_eq rfl)
  · rw [State.setServe, State.job_modJob_same _ _ _ (by exact fun _ => rfl), freed]
    rfl

end Sys2Proof.Machine
end

section
/-! SUPPORT. The statement on the passes of serving jobs (R167, R174, R192, R193, R204). -/

namespace Sys2Proof.Machine

/-- Settles O26: the first half's pairs are appended at places of their own, and nothing after the appends changes a group; the
second half writes nothing but the entry's rows, and a word that it cannot read ends the job. -/
theorem servingPassGoesLayerByLayer : Obligations.ServingPassGoesLayerByLayer := by
  unfold Obligations.ServingPassGoesLayerByLayer
  refine ⟨fun uid op c x e j t s cmd h unready idle turn rows even shaped hp => ?first,
    fun uid op c x e j t s cmd h unready idle turn rows odd reads more => ?second,
    fun uid op c x e j t s cmd h unready idle hr turn rows odd reach bad => ?unreadable⟩
  all_goals
    have step := exec_serving_entry cmd h unready idle turn rows
    obtain ⟨⟨found, rfl, running, -⟩, ext, -⟩ := h
    obtain rfl := State.job?_uid found
  case first =>
    rw [if_pos even] at step
    refine answers_of step fun i after goesOn y hy => ?_
    obtain ⟨key, val⟩ := beginLayer_holds rfl shaped hp ext found after goesOn y hy
    exact State.half?_group key val
  case second =>
    rw [if_neg (by omega)] at step
    obtain ⟨seqs, areas, after⟩ := endLayer_goes_on found reads more
    exact answers_of step ⟨seqs, _, after, running, rfl⟩
  case unreadable =>
    rw [if_neg (by omega)] at step
    obtain ⟨r, hr', -, there⟩ := bad
    exact answers_of step ⟨_, endLayer_bad hr reach ⟨r, hr', there⟩⟩

end Sys2Proof.Machine
end

section
/-! SUPPORT. What an occurrence leaves (R410): a job that could reach host memory still does, and the blocks
that it writes. What is stored reads back. -/

namespace Sys2Proof.Machine

variable {s t : State} {j : Job} {p : Nat}

theorem Keeps.echo_eq {may : Touch} (h : Keeps ⟨may, s⟩ t) (hm : may.tEcho = false) : t.echo = s.echo := by
  rw [h.only]; simp [Touch.ow, hm]

theorem Keeps.dram_eq {may : Touch} (h : Keeps ⟨may, s⟩ t) (hm : may.tDram = false) : t.dram = s.dram := by
  rw [h.only]; simp [Touch.ow, hm]

/-- A change of the PF's interrupts is none of what a partition's function reaches. -/
theorem hostOk_modFn_pf {f : FnSt → FnSt} (same : ∀ g, (f g).busMaster = g.busMaster) (p : Nat) :
    (s.modFn .pf f).hostOk p = s.hostOk p := by
  have bus : ((s.modFn .pf f).fnSt (s.ownFn p)).busMaster = (s.fnSt (s.ownFn p)).busMaster := by
    cases s.ownFn p with
    | pf => exact same _
    | vf v => rfl
  exact congrArg (fun b => s.linkUp && b && (!s.conf p || (s.ownFn p == .vf p && s.link.ide.getD p false))) bus

theorem raiseMsix_pf_hostOk (e p : Nat) : (s.raiseMsix .pf e).hostOk p = s.hostOk p := by
  unfold State.raiseMsix
  split
  · rfl
  · split
    · rfl
    · exact hostOk_modFn_pf (by exact fun _ => rfl) p

theorem enterFault_hostOk (r : FaultRec) (p : Nat) : (s.enterFault r).hostOk p = s.hostOk p := by
  simp only [State.enterFault]
  split
  · rfl
  · exact raiseMsix_pf_hostOk ..

theorem raise_hostOk (source cls detail : Nat) (part : Option Nat) (tag info p : Nat) :
    (s.raise source cls detail part tag info).hostOk p = s.hostOk p := by
  simp only [State.raise]
  split
  · exact enterFault_hostOk ..
  split
  · exact enterFault_hostOk ..
  · split
    · exact enterFault_hostOk ..
    split <;> rfl

theorem raiseMany_hostOk (k source cls detail : Nat) (part : Option Nat) (tag info p : Nat) :
    (s.raiseMany k source cls detail part tag info).hostOk p = s.hostOk p :=
  keepsFold (Q := fun t : State => t.hostOk p = s.hostOk p) rfl fun _ _ h => (raise_hostOk ..).trans h

theorem inDramHost_congr (parts : t.parts = s.parts) (dram : t.dram = s.dram) (p a n : Nat) :
    t.inDramHost p a n = s.inDramHost p a n := by
  simp only [State.inDramHost, State.inDram, State.granuleOwned, State.part, parts, dram]

theorem blockedOut_none_congr (parts : t.parts = s.parts) (dram : t.dram = s.dram) (host : t.hostOk j.part = s.hostOk j.part)
    {a n : Nat} (free : s.blockedOut j a n = none) : t.blockedOut j a n = none := by
  rw [blockedOut_eq_none_iff] at *
  rwa [inDramHost_congr parts dram, host]

theorem bytesAt_congr (h : t.mems = s.mems) (a n : Nat) : t.bytesAt a n = s.bytesAt a n := by
  change Mem.read t.mems.blank t.mems.bytes a n = Mem.read s.mems.blank s.mems.bytes a n
  rw [h]

/-- What is stored reads back. -/
theorem store_bytesAt (s : State) (a : Nat) (bs : List Byte) : (s.store a bs).bytesAt a bs.length = bs := by
  have back := put_bytesAt (s.reportWords ((s.badWords a bs.length).filter fun w => !covers a bs.length w)) a bs
    (i := 0) (k := bs.length) (Nat.zero_add _).le
  rwa [List.drop_zero, List.take_length] at back

end Sys2Proof.Machine
end

section
/-! SUPPORT. ECHO_SEARCH (R181, R182): a search that is refused, and one that begins. -/

namespace Sys2Proof.Machine

variable {s t u : State} {uid a : Nat} {j : Job}

theorem exec_echoSearch (h : s.Began uid 0x0E j t) (fresh : j.ext = .none) :
    exec (.echoSearch uid) s = .next (t.startSearch j) := by
  simp [exec, execEchoSearch, h.starting, fresh]

theorem startSearch_refused (reads : t.blocked j (dArg j.words) 64 = none) (bad : t.searchOk j = false) :
    t.startSearch j = t.failJob j.uid stInvalid noResult := by
  simp [State.startSearch, reads, bad]

/-- A search that begins: row 0 of pass 0, every list empty. -/
def SearchSt.start (count : Nat) : SearchSt := { pass := 0, row := 0, scanned := 0, tops := List.replicate count [] }

/-- The frame for the saved scan is taken, and the first unit waits. -/
theorem startSearch_begins (reads : t.blocked j (dArg j.words) 64 = none) (good : t.searchOk j = true)
    (frame : t.allocFrame j.part (saveBytes j) = some (a, u)) :
    t.startSearch j =
      (u.modJob j.uid fun k => { k with ext := .search (.start (dCount j.words)) a, areas := a :: k.areas }).queueSearch j := by
  simp only [State.startSearch, reads, good, frame, Bool.not_true, Bool.false_eq_true, if_false]
  rfl

theorem answers_echoSearch_refused (h : s.Began uid 0x0E j t) (hr : s.recorded j) (fresh : j.ext = .none)
    (reads : t.blocked j (dArg j.words) 64 = none) (bad : t.searchOk j = false) :
    answers (.echoSearch uid) s fun u => u.recordWaits j (firstError j.status stInvalid) noResult := by
  obtain ⟨e, quality, running⟩ := h.job? rfl
  obtain ⟨-, spoken, loud, unfinished, -⟩ := id hr
  obtain rfl := h.isUid
  refine answers_of ((exec_echoSearch h fresh).trans (congrArg _ (startSearch_refused reads bad))) ?_
  exact failJob_recordWaits (j := { j with state := .running, unitWait := none, epoch := e, quality := quality })
    ⟨running, spoken, loud, unfinished, (h.willRecord hr).enabled⟩ (st := stInvalid) (by decide) noResult

/-- The search stands at row 0 of pass 0, and its unit waits in Echo's queue. -/
theorem answers_echoSearch_begins (h : s.Began uid 0x0E j t) (fresh : j.ext = .none)
    (reads : t.blocked j (dArg j.words) 64 = none) (good : t.searchOk j = true)
    (frame : t.allocFrame j.part (saveBytes j) = some (a, u)) :
    answers (.echoSearch uid) s fun v =>
      (∃ k x a, v.job? uid = some k ∧ k.state = .running ∧ k.ext = .search x a ∧ a ∈ k.areas ∧
        x.pass = 0 ∧ x.row = 0 ∧ x.scanned = 0) ∧
      ∃ y ∈ v.echo.queue, y.uid = uid ∧ y.part = j.part ∧ y.prio = j.prio ∧ y.arrived = s.now ∧ y.kind = .search := by
  obtain ⟨e, quality, running⟩ := h.job? rfl
  have kept := KOpt.ofSnd frame (allocFrame_keeps (Touch.Le.refl _) (Keeps.refl _ t))
  obtain rfl := h.isUid
  have found : u.job? j.uid = _ := (State.job?_congr (kept.jobs_eq rfl) _).trans running
  have searching := State.job_modJob_same u j.uid
    (fun k => { k with ext := .search (.start (dCount j.words)) a, areas := a :: k.areas }) (by exact fun _ => rfl)
  rw [found, Option.map_some] at searching
  refine answers_of ((exec_echoSearch h fresh).trans (congrArg _ (startSearch_begins reads good frame))) ⟨?_, ?_⟩
  · exact ⟨_, _, a, searching, rfl, rfl, List.mem_cons_self, rfl, rfl, rfl⟩
  · refine ⟨_, List.mem_append_right _ (List.mem_singleton_self _), rfl, rfl, rfl, ?_, rfl⟩
    exact (kept.now_eq rfl).trans (h.kept.now_eq rfl)

end Sys2Proof.Machine
end

section
/-! SUPPORT. ECHO_WORK_UNIT (R179, R180, R183): the unit in turn leaves the queue, and runs a chunk of its search or a scan of
level 1. -/

namespace Sys2Proof.Machine

variable {s t : State} {uid area : Nat} {j k : Job} {y : EchoUnit} {x : SearchSt} {run : EchoRun}

/-! ## The unit in turn (R180) -/

/-- The unit has left the queue. -/
def State.unitTaken (s : State) (y : EchoUnit) : State :=
  { s with echo :=
    { s.echo with queue := s.echo.queue.erase y, lastKind := y.kind.code, lastPrio := y.effPrio, lastPart := y.part } }

theorem exec_echoWorkUnit (turn : maxBy EchoUnit.effPrio s.echo.queue = some y) :
    ∃ d, exec (.echoWorkUnit run) s = .next ((s.unitTaken y).runUnit y run.met d) := by
  refine ⟨fetchTick (s.part y.part).ratePct run.t0 run.planned run.unissued, ?_⟩
  simp only [exec, execEchoWorkUnit, turn]
  rfl

theorem runUnit_search {met : EchoMet} {d : Nat} (kind : y.kind = .search) (found : s.job? y.uid = some j)
    (ext : j.ext = .search x area) (inside : met ≠ .outside) : s.runUnit y met d = s.searchUnit j x area met := by
  cases met with
  | outside => exact absurd rfl inside
  | clean | badSummary | badTable => simp only [State.runUnit, kind, found, ext]

theorem exec_echoWorkUnit_search (turn : maxBy EchoUnit.effPrio s.echo.queue = some y) (kind : y.kind = .search)
    (found : s.job? y.uid = some j) (ext : j.ext = .search x area) (inside : run.met ≠ .outside) :
    exec (.echoWorkUnit run) s = .next ((s.unitTaken y).searchUnit j x area run.met) := by
  obtain ⟨d, e⟩ := exec_echoWorkUnit (run := run) turn
  exact e.trans (congrArg _ (runUnit_search (s := s.unitTaken y) kind found ext inside))

/-! ## One chunk of a search (R183) -/

theorem blocked_eq_none_iff {b : Nat} : s.blocked j a b = none ↔ s.blockedOut j a b = none ∧ s.badWords a b = [] := by
  unfold State.blocked
  cases s.blockedOut j a b <;> simp

theorem scanChunk_row (s : State) (j : Job) (h : SearchHdr) (x : SearchSt) :
    (s.scanChunk j h x).1.row = x.row + min h.chunk (h.rows - x.row) := rfl

theorem scanChunk_pass (s : State) (j : Job) (h : SearchHdr) (x : SearchSt) : (s.scanChunk j h x).1.pass = x.pass := rfl

/-- A chunk's saturations are counted, and its rows without a scale are occurrences. -/
def State.chunkCounted (s : State) (j : Job) (x : SearchSt) : State :=
  { s with echo := { s.echo with
    satCount := satInc top32 s.echo.satCount (if x.row = 0 then s.querySats j (s.searchHdr j) x.pass else 0) } }.raiseMany
      (s.scanChunk j (s.searchHdr j) x).2 0x69 2 0x19 (some j.part) 0 0

theorem searchUnit_clean (reads : s.blocked j (s.searchHdr j).query (2 * (s.searchHdr j).dim * dCount j.words) = none)
    (good : s.badSearchRows (s.searchHdr j) x = []) : s.searchUnit j x area .clean =
      (s.chunkCounted j x).afterChunk j (s.searchHdr j) (s.scanChunk j (s.searchHdr j) x).1 area := by
  simp only [State.searchUnit, reads, good, List.isEmpty_nil, Bool.not_true, Bool.false_eq_true, if_false]
  rfl

theorem chunkCounted_keeps (s : State) (j : Job) (x : SearchSt) : Keeps ⟨Touch.nothing.echo.record, s⟩ (s.chunkCounted j x) :=
  raiseMany_keeps rfl (Keeps.upd rfl (Keeps.refl _ s) (g := Touch.nothing.echo) rfl rfl ⟨rfl, rfl⟩ rfl)

theorem chunkCounted_echo (s : State) (j : Job) (x : SearchSt) :
    ∃ sat, (s.chunkCounted j x).echo = { s.echo with satCount := sat } :=
  ⟨_, (raiseMany_keeps (Touch.Le.refl _) (Keeps.refl _ _)).echo_eq rfl⟩

/-- A chunk that is not the last: the scan stands after it, and its next unit waits. -/
theorem afterChunk_more {h : SearchHdr} (more : x.row < h.rows) (passes : 16 * x.pass < dCount j.words)
    (running : j.state = .running) (found : s.job? j.uid = some j) :
    (s.afterChunk j h x area).job? j.uid = some { j with ext := .search x area } ∧
      ∃ v ∈ (s.afterChunk j h x area).echo.queue, v.uid = j.uid ∧ v.kind = .search := by
  have step : s.afterChunk j h x area = (s.modJob j.uid fun k => { k with ext := .search x area }).queueSearch j := by
    simp only [State.afterChunk, if_pos more, if_pos passes, running, beq_self_eq_true, if_true]
  have scanned := State.job_modJob_same s j.uid (fun k => { k with ext := .search x area }) (by exact fun _ => rfl)
  rw [found, Option.map_some] at scanned
  rw [step]
  exact ⟨scanned, _, List.mem_append_right _ (List.mem_singleton_self _), rfl, rfl⟩

/-- The lists are written and the record waits; the queue of Echo stays. -/
theorem endSearch_ends (found : s.job? j.uid = some k) (like : Job.Like j k) (will : s.WillRecord j)
    (free : s.blockedOut j (dOut j.words) (8 * searchK j * dCount j.words) = none) :
    (s.endSearch j x).recordWaits j (j.endStatus s.now) x.scanned ∧ (s.endSearch j x).echo = s.echo ∧
      (s.endSearch j x).bytesAt (dOut j.words) (x.tops.flatMap (topBytes (searchK j))).length =
        x.tops.flatMap (topBytes (searchK j)) := by
  have step : s.endSearch j x = (s.store (dOut j.words) (x.tops.flatMap (topBytes (searchK j)))).finishUid j.uid x.scanned := by
    simp only [State.endSearch, free]
  rw [step]
  generalize x.tops.flatMap (topBytes (searchK j)) = bs
  have stored : Keeps ⟨Touch.nothing.mems.dram.record, s⟩ (s.store (dOut j.words) bs) :=
    store_keeps (Touch.Le.refl _) (Keeps.refl _ s)
  have ended := finishUid_keeps (uid := j.uid) (result := x.scanned) (Touch.Le.refl _) (Keeps.refl _ (s.store (dOut j.words) bs))
  refine ⟨?_, (ended.echo_eq rfl).trans (stored.echo_eq rfl), ?_⟩
  · rw [← stored.now_eq rfl]
    exact finishUid_recordWaits (by rw [State.job?_congr (stored.jobs_eq rfl), found]) like (will.of_qps (stored.qps_eq rfl)) _
  · rw [bytesAt_congr (ended.mems_eq rfl), store_bytesAt]

/-- The scan at the start of its next pass. -/
def SearchSt.nextPass (x : SearchSt) : SearchSt := { x with pass := x.pass + 1, row := 0 }

/-- The last chunk of the last pass ends the search. -/
theorem afterChunk_last {h : SearchHdr} (last : h.rows ≤ x.row) (passes : dCount j.words ≤ 16 * (x.pass + 1))
    (found : s.job? j.uid = some j) (will : s.WillRecord j)
    (free : s.blockedOut j (dOut j.words) (8 * searchK j * dCount j.words) = none) :
    (s.afterChunk j h x area).recordWaits j (j.endStatus s.now) x.scanned ∧ (s.afterChunk j h x area).echo = s.echo ∧
      (s.afterChunk j h x area).bytesAt (dOut j.words) (x.tops.flatMap (topBytes (searchK j))).length =
        x.tops.flatMap (topBytes (searchK j)) := by
  have step : s.afterChunk j h x area =
      (s.modJob j.uid fun k => { k with ext := .search x.nextPass area }).endSearch j x.nextPass := by
    simp only [State.afterChunk, if_neg (not_lt.2 last), if_neg (not_lt.2 passes), SearchSt.nextPass]
  obtain ⟨k, here, like⟩ := (State.Alters.ext s j.uid (.search x.nextPass area)).job?_same found
  rw [step]
  exact endSearch_ends (x := x.nextPass) here like (will.of_qps rfl)
    (blockedOut_none_congr (s := s) (t := s.modJob j.uid _) rfl rfl rfl free)

/-! ## ECHO_WORK_UNIT on a search -/

section
variable (turn : maxBy EchoUnit.effPrio s.echo.queue = some y) (kind : y.kind = .search) (runs : s.runs y.uid 0x0E j)
  (ext : j.ext = .search x area)
include turn kind runs ext

theorem answers_searchUnit_badTable (met : run.met = .badTable) (hr : s.recorded j) :
    answers (.echoWorkUnit run) s fun u => u.recordWaits j (firstError j.status stData) j.progress := by
  obtain ⟨found, -⟩ := runs
  refine answers_of (exec_echoWorkUnit_search turn kind found ext (by simp [met])) ?_
  rw [met]
  have kept : Keeps ⟨Touch.nothing.echo.dram.record, s⟩ ((s.unitTaken y).dramWordError
      ((s.searchHdr j).table + ((s.searchHdr j).first + x.row) * (s.searchHdr j).rowBytes)) :=
    dramWordError_keeps rfl (Keeps.upd rfl (Keeps.refl _ s) (g := Touch.nothing.echo) rfl rfl ⟨rfl, rfl⟩ rfl)
  exact failJob'_recordWaits (hr.of_eq (kept.jobs_eq rfl) (kept.qps_eq rfl)) (by decide)

variable (met : run.met = .clean)
  (reads : s.blocked j (s.searchHdr j).query (2 * (s.searchHdr j).dim * dCount j.words) = none)
  (good : s.badSearchRows (s.searchHdr j) x = [])
include met reads good

theorem exec_searchUnit_clean : exec (.echoWorkUnit run) s =
    .next (((s.unitTaken y).chunkCounted j x).afterChunk j (s.searchHdr j) (s.scanChunk j (s.searchHdr j) x).1 area) := by
  obtain ⟨found, -⟩ := runs
  obtain ⟨free, clean⟩ := blocked_eq_none_iff.1 reads
  have reads' : (s.unitTaken y).blocked j (s.searchHdr j).query (2 * (s.searchHdr j).dim * dCount j.words) = none :=
    blocked_eq_none_iff.2 ⟨blockedOut_none_congr (s := s) (t := s.unitTaken y) rfl rfl rfl free, clean⟩
  rw [exec_echoWorkUnit_search turn kind found ext (by simp [met]), met]
  exact congrArg _ (searchUnit_clean reads' good)

/-- A chunk that is not the last of its pass. -/
theorem answers_searchUnit_more (more : x.row + (s.searchHdr j).chunk < (s.searchHdr j).rows)
    (passes : 16 * x.pass < dCount j.words) :
    answers (.echoWorkUnit run) s fun u =>
      (∃ k v, u.job? y.uid = some k ∧ k.finished = false ∧ k.ext = .search v area ∧ v.pass = x.pass ∧
        v.row = x.row + (s.searchHdr j).chunk) ∧ ∃ v ∈ u.echo.queue, v.uid = y.uid ∧ v.kind = .search := by
  have step := exec_searchUnit_clean turn kind runs ext met reads good
  obtain ⟨found, -, running, unfinished, -⟩ := runs
  have isUid := State.job?_uid found
  have row : (s.scanChunk j (s.searchHdr j) x).1.row = x.row + (s.searchHdr j).chunk := by
    rw [scanChunk_row, Nat.min_eq_left (by omega)]
  have counted : ((s.unitTaken y).chunkCounted j x).job? j.uid = some j := by
    rw [State.job?_congr ((chunkCounted_keeps (s.unitTaken y) j x).jobs_eq rfl), isUid]
    exact found
  obtain ⟨scanned, unit, waits, own, search⟩ := afterChunk_more (area := area) (x := (s.scanChunk j (s.searchHdr j) x).1)
    (row ▸ more) ((scanChunk_pass s j _ x).symm ▸ passes) running counted
  rw [isUid] at scanned own
  exact answers_of step ⟨⟨_, _, scanned, unfinished, rfl, scanChunk_pass s j _ x, row⟩, unit, waits, own, search⟩

/-- The last chunk of the last pass. -/
theorem answers_searchUnit_last (hr : s.recorded j)
    (free : s.blockedOut j (dOut j.words) (8 * searchK j * dCount j.words) = none)
    (last : (s.searchHdr j).rows ≤ x.row + min (s.searchHdr j).chunk ((s.searchHdr j).rows - x.row))
    (passes : dCount j.words ≤ 16 * (x.pass + 1)) :
    answers (.echoWorkUnit run) s fun u =>
      let r := (s.scanChunk j (s.searchHdr j) x).1
      u.recordWaits j (j.endStatus s.now) r.scanned ∧ u.echo.queue = s.echo.queue.erase y ∧ u.echo.lastPart = y.part ∧
        u.bytesAt (dOut j.words) (r.tops.flatMap (topBytes (searchK j))).length = r.tops.flatMap (topBytes (searchK j)) := by
  have step := exec_searchUnit_clean turn kind runs ext met reads good
  have kept := chunkCounted_keeps (s.unitTaken y) j x
  have counted : ((s.unitTaken y).chunkCounted j x).job? j.uid = some j := (State.job?_congr (kept.jobs_eq rfl) _).trans hr.1
  have reach : ((s.unitTaken y).chunkCounted j x).hostOk j.part = s.hostOk j.part := raiseMany_hostOk ..
  obtain ⟨sat, echo⟩ := chunkCounted_echo (s.unitTaken y) j x
  obtain ⟨waits, same, written⟩ := afterChunk_last (area := area) (x := (s.scanChunk j (s.searchHdr j) x).1)
    ((scanChunk_row s j _ x).symm ▸ last) ((scanChunk_pass s j _ x).symm ▸ passes) counted
    (hr.willRecord.of_qps (kept.qps_eq rfl)) (blockedOut_none_congr (s := s) (kept.parts_eq rfl) (kept.dram_eq rfl) reach free)
  rw [kept.now_eq rfl] at waits
  rw [echo] at same
  refine answers_of step ⟨waits, ?_, ?_, written⟩ <;> rw [same]
  all_goals rfl

end

/-! ## ECHO_WORK_UNIT on a retrieval of level 1 (R179) -/

/-- A level-1 scan keeps its best blocks, at most a block for each eight pages of the setting, and queues its level-0 unit. -/
theorem level1Scan_queues {seq layer head : Nat} {q : Seq} {r : Retrieval} (found : s.seq? seq = some q)
    (retrieval : (s.echo.retrievals.find? fun r => r.isFor y.uid seq layer head) = some r) (met : EchoMet) :
    ∃ (u : State) (kept : List (Nat × F32)), kept.length ≤ ceilDiv (rPages (s.unitSetting y)) 8 ∧
      s.level1Scan y seq layer head met = (u.modRetrieval y.uid seq layer head fun r => { r with blocks := kept }).queueUnit
        { y with kind := .level0 seq layer head, arrived := u.now, aged := false } := by
  simp only [State.level1Scan, found, retrieval]
  refine ⟨_, _, ?_, rfl⟩
  rw [topScores, List.length_take]
  omega

theorem modRetrieval_blocks {seq layer head : Nat} {kept : List (Nat × F32)} {v : Retrieval}
    (mem : v ∈ (s.modRetrieval uid seq layer head fun r => { r with blocks := kept }).echo.retrievals)
    (own : v.isFor uid seq layer head = true) : v.blocks = kept := by
  obtain ⟨r, -, rfl⟩ := List.mem_map.1 mem
  by_cases mine : r.isFor uid seq layer head = true
  · rw [if_pos mine]
  · rw [if_neg mine] at own
    exact absurd own mine

theorem answers_level1Unit {seq layer head : Nat} {q : Seq} {r : Retrieval}
    (turn : maxBy EchoUnit.effPrio s.echo.queue = some y) (kind : y.kind = .level1 seq layer head) (found : s.seq? seq = some q)
    (retrieval : (s.echo.retrievals.find? fun r => r.isFor y.uid seq layer head) = some r) (met : run.met = .clean) :
    answers (.echoWorkUnit run) s fun u =>
      (∃ v ∈ u.echo.queue, v.uid = y.uid ∧ v.part = y.part ∧ v.prio = y.prio ∧ v.kind = .level0 seq layer head) ∧
      ∀ v ∈ u.echo.retrievals, v.isFor y.uid seq layer head = true →
        v.blocks.length ≤ ceilDiv (rPages (s.unitSetting y)) 8 := by
  obtain ⟨d, step⟩ := exec_echoWorkUnit (run := run) turn
  obtain ⟨u, kept, few, scan⟩ := level1Scan_queues (s := s.unitTaken y) (y := y) found retrieval .clean
  simp only [State.runUnit, met, kind, scan] at step
  refine answers_of step ⟨⟨_, List.mem_append_right _ (List.mem_singleton_self _), rfl, rfl, rfl, rfl⟩,
    fun v mem own => ?_⟩
  rw [modRetrieval_blocks mem own]
  exact few

end Sys2Proof.Machine
end

section
/-! SUPPORT. The statement on Echo's table search and its work units (R179 to R185). -/

namespace Sys2Proof.Machine

/-- Settles O33: a search begins or is refused by its header, each unit of it runs one chunk, a level-1 unit keeps its best
blocks, and ageing marks a unit by its time of arrival alone. -/
theorem echoSearchScansItsTable : Obligations.EchoSearchScansItsTable := by
  unfold Obligations.EchoSearchScansItsTable
  refine ⟨fun uid j s hs hr fresh reads bad => ?refused, fun uid j s hs fresh reads good frame => ?begins,
    fun t0 planned unissued area x y j s turn kind runs hr ext reads good free last passes => ?last,
    fun t0 planned unissued area x y j s turn kind runs ext reads good more passes => ?more,
    fun t0 planned unissued area x y j s turn kind runs hr ext => ?badTable,
    fun seq layer head t0 planned unissued y q r s turn kind found retrieval => ?level1, fun s => ?aging⟩
  case refused =>
    obtain ⟨t, began⟩ := starts_began (by decide) hs
    rw [began.started] at reads bad
    exact answers_echoSearch_refused began hr fresh reads bad
  case begins =>
    obtain ⟨t, began⟩ := starts_began (by decide) hs
    rw [began.started] at reads good frame
    obtain ⟨⟨a, u⟩, taken⟩ := Option.isSome_iff_exists.1 frame
    exact answers_echoSearch_begins began fresh reads good taken
  case last => exact answers_searchUnit_last turn kind runs ext rfl reads good hr free last passes
  case more => exact answers_searchUnit_more turn kind runs ext rfl reads good more passes
  case badTable => exact answers_searchUnit_badTable turn kind runs ext rfl hr
  case level1 => exact answers_level1Unit turn kind found retrieval rfl
  case aging =>
    refine answers_of rfl ⟨List.length_map .., fun x mem => ⟨fun young => ?_, fun old => ?_⟩⟩
    · exact List.mem_map.2 ⟨x, mem, if_neg (not_le.2 young)⟩
    · exact List.mem_map.2 ⟨x, mem, if_pos old⟩

end Sys2Proof.Machine
end

section
/-! SUPPORT. The order of FP32 values (R56) and the greatest logit of a greedy draw (R205, R207). -/

namespace Sys2Proof.Machine

/-! ## FP32 values in order (R56) -/

/-- The numerator of a finite value, with its sign. -/
def signedNum (neg : Bool) (n : Nat) : Int := if neg then -(n : Int) else n

/-- Where a value stands in the order. NaN has no place; it is put lowest. -/
noncomputable def FV.rank : FV → EReal
  | .nan => ⊥
  | .inf neg => if neg then ⊥ else ⊤
  | .fin neg n d => ((signedNum neg n / d : ℝ) : EReal)

/-- A denominator is not zero. -/
def FV.proper : FV → Prop
  | .fin _ _ d => 0 < d
  | _ => True

theorem f32Val_proper (w : F32) : (f32Val w).proper := by
  simp only [f32Val]
  split
  · exact Nat.two_pow_pos _
  · split <;> trivial

theorem signedNum_mul (neg : Bool) (n d : Nat) :
    (if neg then -((n * d : Nat) : Int) else ((n * d : Nat) : Int)) = signedNum neg n * d := by
  cases neg <;> simp [signedNum]

theorem FV.lt_iff_rank {x y : FV} (hx : x.isNaN = false) (hy : y.isNaN = false) (px : x.proper) (py : y.proper) :
    x.lt y = true ↔ x.rank < y.rank := by
  cases x with
  | nan => cases hx
  | inf s =>
    cases y with
    | nan => cases hy
    | inf t => cases s <;> cases t <;> simp [FV.lt, FV.rank]
    | fin t c d => cases s <;> simp [FV.lt, FV.rank, EReal.bot_lt_coe]
  | fin s a b =>
    cases y with
    | nan => cases hy
    | inf t => cases t <;> simp [FV.lt, FV.rank, EReal.coe_lt_top]
    | fin t c d =>
      have hb : (0 : ℝ) < b := Nat.cast_pos.2 px
      have hd : (0 : ℝ) < d := Nat.cast_pos.2 py
      simp only [FV.lt, FV.rank, signedNum_mul, decide_eq_true_eq, EReal.coe_lt_coe_iff, div_lt_div_iff₀ hb hd]
      exact_mod_cast Iff.rfl

theorem flt_iff_rank {v w : F32} (hv : fIsNaN v = false) (hw : fIsNaN w = false) :
    flt v w = true ↔ (f32Val v).rank < (f32Val w).rank :=
  FV.lt_iff_rank hv hw (f32Val_proper v) (f32Val_proper w)

/-! ## The least index of the greatest element (R207) -/

/-- `m` is an element of the list with its index, greater than those before it and exceeded by none. -/
structure Greatest (x : List F32) (m : F32 × Nat) : Prop where
  inside : m.2 < x.length
  value : x.getD m.2 0 = m.1
  top : ∀ k, k < x.length → flt m.1 (x.getD k 0) = false
  first : ∀ k, k < m.2 → flt (x.getD k 0) m.1 = true

/-- The choice between the greatest element so far and the next one. -/
def greater (m y : F32 × Nat) : F32 × Nat := if flt m.1 y.1 then y else m

theorem Greatest.append {x : List F32} {m : F32 × Nat} {v : F32} (h : Greatest x m)
    (numbers : ∀ w ∈ x ++ [v], fIsNaN w = false) : Greatest (x ++ [v]) (greater m (v, x.length)) := by
  have old {k : Nat} (hk : k < x.length) : (x ++ [v]).getD k 0 = x.getD k 0 := by
    simp [List.getD_eq_getElem?_getD, List.getElem?_append_left hk]
  have new : (x ++ [v]).getD x.length 0 = v := by simp [List.getD_eq_getElem?_getD]
  have number {k : Nat} (hk : k < x.length) : fIsNaN (x.getD k 0) = false := by
    rw [List.getD_eq_getElem _ _ hk]
    exact numbers _ (List.mem_append_left _ (List.getElem_mem hk))
  have mine : fIsNaN m.1 = false := h.value ▸ number h.inside
  have last : fIsNaN v = false := numbers v (by simp)
  unfold greater
  split
  next exceeds =>
    rw [flt_iff_rank mine last] at exceeds
    have above {k : Nat} (hk : k < x.length) : flt (x.getD k 0) v = true := by
      rw [flt_iff_rank (number hk) last]
      have := h.top k hk
      rw [Bool.eq_false_iff, Ne, flt_iff_rank mine (number hk), not_lt] at this
      exact this.trans_lt exceeds
    refine ⟨by simp, new, fun k hk => ?_, fun k hk => (old hk).symm ▸ above hk⟩
    rw [Bool.eq_false_iff, Ne]
    rcases Nat.lt_succ_iff_lt_or_eq.1 (by simpa using hk) with hk | rfl
    · rw [old hk, flt_iff_rank last (number hk), not_lt]
      exact ((flt_iff_rank (number hk) last).1 (above hk)).le
    · rw [new, flt_iff_rank last last]
      exact lt_irrefl _
  next stays =>
    refine ⟨by simpa using Nat.lt_succ_of_lt h.inside, (old h.inside).trans h.value, fun k hk => ?_,
      fun k hk => (old (hk.trans h.inside)).symm ▸ h.first k hk⟩
    rcases Nat.lt_succ_iff_lt_or_eq.1 (by simpa using hk) with hk | rfl
    · exact (old hk).symm ▸ h.top k hk
    · rw [new]
      exact Bool.eq_false_iff.2 stays

theorem greatest_foldl {x y : List F32} {m : F32 × Nat} (h : Greatest x m) (numbers : ∀ w ∈ x ++ y, fIsNaN w = false) :
    Greatest (x ++ y) ((y.zipIdx x.length).foldl greater m) := by
  induction y generalizing x m with
  | nil => simpa using h
  | cons v y ih =>
    have whole : x ++ v :: y = (x ++ [v]) ++ y := by simp
    rw [whole] at numbers ⊢
    have step := ih (h.append fun w hw => numbers w (List.mem_append_left _ hw)) numbers
    simpa using step

theorem argmax_greatest {x : List F32} (nonempty : x ≠ []) (numbers : ∀ w ∈ x, fIsNaN w = false) :
    ∃ m, Greatest x m ∧ argmax x = m.2 := by
  obtain ⟨v, y, rfl⟩ := List.exists_cons_of_ne_nil nonempty
  have number := numbers v List.mem_cons_self
  have self : flt v v = false := by
    rw [Bool.eq_false_iff, Ne, flt_iff_rank number number]
    exact lt_irrefl _
  have alone : Greatest [v] (v, 0) := by
    refine ⟨Nat.one_pos, rfl, fun k hk => ?_, fun k hk => absurd hk k.not_lt_zero⟩
    obtain rfl := Nat.lt_one_iff.1 hk
    exact self
  refine ⟨_, greatest_foldl alone numbers, ?_⟩
  have first : (v :: y).zipIdx.foldl greater (v, 0) = (y.zipIdx 1).foldl greater (v, 0) := by
    rw [List.zipIdx_cons, List.foldl_cons, greater, self]
    rfl
  exact congrArg Prod.snd first

/-! ## The greedy draw (R205, R207) -/

theorem prepare_greedy {x : List F32} (numbers : ∀ w ∈ x, fIsNaN w = false) (allow : Nat → Bool) (history : List Nat) :
    prepare Settings.greedy allow history x = (x, false) := by
  have same : (x.map fun v => if fIsNaN v then f32NegInf else v) = x :=
    (List.map_congr_left fun v hv => by simp [numbers v hv]).trans (List.map_id x)
  have none_recent : (history.drop (history.length - 0)).eraseDups = [] := by simp
  have clean : x.any fIsNaN = false := List.any_eq_false.2 fun v hv => by simp [numbers v hv]
  simp only [prepare, Settings.greedy, List.foldl_nil, same, none_recent, clean, Option.isSome_none, Bool.false_eq_true, if_false]

theorem drawToken_greedy {x : List F32} (numbers : ∀ w ∈ x, fIsNaN w = false) (allow : Nat → Bool) (history : List Nat)
    (u : F32) : (drawToken Settings.greedy allow history u x).token =
      if x.all fun v => v == f32NegInf then none else some (argmax x) := by
  have cold : (f32Val Settings.greedy.temperature).isZero = true := by decide
  simp only [drawToken, prepare_greedy numbers, cold, if_true]

/-- Settles O29: without NaN the comparison of FP32 codes is that of a linear order, in which the fold of `argmax` keeps the first
greatest element. -/
theorem greedyDrawTakesTheGreatestLogit : Obligations.GreedyDrawTakesTheGreatestLogit := by
  unfold Obligations.GreedyDrawTakesTheGreatestLogit
  refine ⟨fun allow history u x numbers above => ?greatest, fun allow history u x bottom => ?none⟩
  case greatest =>
    have numbers : ∀ w ∈ x, fIsNaN w = false := by simpa using numbers
    obtain ⟨v, hv, higher⟩ := List.any_eq_true.1 above
    have notAll : ¬(x.all fun v => v == f32NegInf) = true := fun all => by
      simp [eq_of_beq (List.all_eq_true.1 all v hv)] at higher
    obtain ⟨m, best, isArg⟩ := argmax_greatest (List.ne_nil_of_mem hv) numbers
    refine ⟨m.2, ?_, best.inside, fun k hk => best.value.symm ▸ best.top k hk, fun k hk => best.value.symm ▸ best.first k hk⟩
    rw [drawToken_greedy numbers, if_neg notAll, isArg]
  case none =>
    have numbers (w : F32) (hw : w ∈ x) : fIsNaN w = false := by
      rw [eq_of_beq (List.all_eq_true.1 bottom w hw)]
      decide
    rw [drawToken_greedy numbers, if_pos bottom]

end Sys2Proof.Machine
end

section
/-! SUPPORT. Jobs that apply one entry a command (R196 to R201): the entry in turn, and the end of the job after the last one.
What a write of memory leaves elsewhere. -/

namespace Sys2Proof.Machine

variable {s t u : State} {uid op done a b n : Nat} {w : Option Nat} {j : Job}

theorem Keeps.slots_eq {may : Touch} (h : Keeps ⟨may, s⟩ t) (hm : may.tSlots = false) : t.slots = s.slots := by
  rw [h.only]; simp [Touch.ow, hm]

/-! ## Memory (R4) -/

theorem bytesAt_length (s : State) (a n : Nat) : (s.bytesAt a n).length = n := by
  rw [State.bytesAt, Mem.read_eq, List.length_map, List.length_range]

/-- A write leaves the bytes that it does not cover. -/
theorem store_bytesAt_apart (s : State) {bs : List Byte} (apart : b + n ≤ a ∨ a + bs.length ≤ b) :
    (s.store a bs).bytesAt b n = s.bytesAt b n := by
  have reported : (s.reportWords ((s.badWords a bs.length).filter fun w => !covers a bs.length w)).mems = s.mems :=
    reportWords_keeps_mems ..
  refine Eq.trans ?_ (bytesAt_congr reported b n)
  rw [State.bytesAt, State.bytesAt, Mem.read_eq, Mem.read_eq]
  refine List.map_congr_left fun i hi => Mem.get_put_out _ _ _ _ ?_
  have := List.mem_range.1 hi
  omega

theorem storeWords_bytesAt_apart (s : State) {ws : List Nat} (apart : b + n ≤ a ∨ a + 4 * ws.length ≤ b) :
    (s.storeWords a ws).bytesAt b n = s.bytesAt b n :=
  store_bytesAt_apart s (by rwa [wordsBytes_length])

theorem leNat_lt (bs : List Byte) : leNat bs < 256 ^ bs.length := by
  induction bs with
  | nil => exact Nat.one_pos
  | cons b bs ih =>
    have := b.isLt
    rw [leNat, List.length_cons, pow_succ']
    omega

theorem readN_lt (s : State) (a n : Nat) : s.readN a n < 256 ^ n := by
  have := leNat_lt (s.bytesAt a n)
  rwa [bytesAt_length] at this

/-! ## The entry in turn -/

theorem itemJob_runs (h : s.runs uid op j) (ext : j.ext = .items done w) : s.itemJob uid op = some (j, done) := by
  obtain ⟨found, isOp, running, unfinished, up⟩ := h
  simp [State.itemJob, found, ext, isOp, running, unfinished, up]

/-- What applying an entry may touch: none of the jobs, the queue pairs and the time. -/
def itemTouch : Touch := Touch.nothing.kvs.seqs.gens.mems.dram.trace.record

/-- After the last entry the record waits; sequences, memory and partitions are as the entry left them. -/
theorem itemDone_last (hr : s.recorded j) (kept : Keeps ⟨itemTouch, s⟩ t) (last : done + 1 = dCount j.words) (result : Nat) :
    (t.itemDone j done result).recordWaits j (j.endStatus s.now) result ∧ (t.itemDone j done result).seqs = t.seqs ∧
      (t.itemDone j done result).mems = t.mems ∧ (t.itemDone j done result).parts = t.parts := by
  have step : t.itemDone j done result =
      (t.modJob j.uid fun j => { j with ext := .items (done + 1) none }).finishUid j.uid result := if_pos last
  obtain ⟨found, -⟩ := id hr
  obtain ⟨k, here, like⟩ := (State.Alters.ext t j.uid (.items (done + 1) none)).job?_same
    ((State.job?_congr (kept.jobs_eq rfl) _).trans found)
  have ended := finishUid_keeps (uid := j.uid) (result := result) (Touch.Le.refl _)
    (Keeps.refl _ (t.modJob j.uid fun j => { j with ext := .items (done + 1) none }))
  have waits := finishUid_recordWaits here like (hr.willRecord.of_qps (kept.qps_eq rfl)) result
  rw [State.modJob_now, kept.now_eq rfl] at waits
  rw [step]
  exact ⟨waits, ended.seqs_eq rfl, ended.mems_eq rfl, ended.parts_eq rfl⟩

end Sys2Proof.Machine
end

section
/-! SUPPORT. The variant table (R200) and the statement on VARIANT_LOAD (R200, R201). -/

namespace Sys2Proof.Machine

variable {s t u : State} {uid done p v a n : Nat} {w : Option Nat} {j : Job} {m : Slot} {x : Variant}

/-! ## Entries of the variant table (R200) -/

theorem variant_congr (mems : t.mems = s.mems) (parts : t.parts = s.parts) (p v : Nat) : t.variant p v = s.variant p v := by
  simp only [State.variant, State.part, parts, wordsAt_congr mems]

/-- The fields of an entry's first word. -/
theorem variantWord_fields (valid scales : Bool) (slot : Nat) :
    bit 0 ((b2n valid + 2 * b2n scales + 4 * slot) % 2 ^ 32) = valid ∧
      bit 1 ((b2n valid + 2 * b2n scales + 4 * slot) % 2 ^ 32) = scales ∧
      bits 5 2 ((b2n valid + 2 * b2n scales + 4 * slot) % 2 ^ 32) = slot % 16 := by
  cases valid <;> cases scales <;> simp only [bit, bits, b2n, beq_iff_eq, beq_eq_false_iff_ne, if_true, if_false,
    Bool.false_eq_true] <;> omega

/-- An entry that is written reads back, its slot and address as its fields hold them. -/
theorem variant_setVariant_same (s : State) (p v : Nat) (x : Variant) :
    (s.setVariant p v x).variant p v = { x with slot := x.slot % 16, data := x.data % 2 ^ 48 } := by
  have kept := setVariant_keeps (p := p) (v := v) (x := x) (Touch.Le.refl _) (Keeps.refl _ s)
  have words : (s.setVariant p v x).wordsAt ((s.part p).variants + 16 * v) 4 = _ :=
    storeWords_wordsAt s _ [b2n x.valid + 2 * b2n x.scales + 4 * x.slot, 0, x.data % 2 ^ 32, x.data / 2 ^ 32]
  obtain ⟨valid, scales, slot⟩ := variantWord_fields x.valid x.scales x.slot
  have data : x.data % 2 ^ 32 % 2 ^ 32 + 2 ^ 32 * bits 15 0 (x.data / 2 ^ 32 % 2 ^ 32) = x.data % 2 ^ 48 := by
    simp only [bits]
    omega
  simp only [State.variant, State.part, kept.parts_eq rfl]
  rw [← State.part, words, Variant.mk.injEq]
  exact ⟨valid, scales, slot, data⟩

theorem dropVariant_invalid (s : State) (p v : Nat) : ((s.dropVariant p v).variant p v).valid = false := by
  simp only [State.dropVariant]
  split
  next =>
    have freed := freeFrame_keeps (p := p) (a := (s.variant p v).data) (Touch.Le.refl _)
      (Keeps.refl _ (s.setVariant p v { s.variant p v with valid := false }))
    rw [variant_congr (freed.mems_eq rfl) (freed.parts_eq rfl), variant_setVariant_same]
  next absent => exact Bool.eq_false_iff.2 absent

theorem dropVariant_kept (s : State) (p v : Nat) : Keeps ⟨itemTouch, s⟩ (s.dropVariant p v) :=
  dropVariant_keeps rfl (Keeps.refl _ s)

/-! ## VARIANT_LOAD (R201) -/

section
variable (h : s.runs uid 0x0B j) (ext : j.ext = .items done w) (free : s.variantBusy j (vlVariant (s.entry16 j done)) = false)
include h ext free

theorem exec_variantLoad_unload (action : vlAction (s.entry16 j done) = 1) : exec (.variantLoad uid) s =
    .next ((s.dropVariant j.part (vlVariant (s.entry16 j done))).itemDone j done noResult) := by
  have item := itemJob_runs h ext
  obtain ⟨found, -, running, -⟩ := h
  simp [exec, execVariantLoad, starting_none_of_running found running, State.variantStep, item, free, action]

theorem exec_variantLoad_load (action : vlAction (s.entry16 j done) = 0) (slot : s.namedSlot j.part (dSlot j.words) = .inl m) :
    exec (.variantLoad uid) s = .next (s.loadVariant j m done) := by
  have item := itemJob_runs h ext
  obtain ⟨found, -, running, -⟩ := h
  simp [exec, execVariantLoad, starting_none_of_running found running, State.variantStep, item, free, action, slot]

end

theorem namedSlot_idx (named : s.namedSlot p n = .inl m) : m.idx = n := by
  unfold State.namedSlot at named
  split at named
  · cases named
  next t found =>
    split at named
    · cases named
    · split at named
      · cases named
        simpa using List.find?_some found
      · cases named

/-- The table entry that a LOAD writes. -/
def loadedEntry (m : Slot) (e : List Nat) (a : Nat) : Variant := { valid := true, scales := vlScales e, slot := m.idx, data := a }

/-- A LOAD with room copies the vectors into a frame, in `t`, and then writes the entry. -/
theorem loadVariant_loads {e : List Nat} (entry : s.entry16 j done = e)
    (size : n = m.layerRecs.length * m.manifest.width * 2 * (if vlScales e then 2 else 1))
    (reads : s.blocked j (addr48 e 2) n = none) (room : (s.dropVariant j.part (vlVariant e)).totalVariants < 4096)
    (frame : (s.dropVariant j.part (vlVariant e)).allocFrame j.part n = some (a, t)) :
    s.loadVariant j m done = ((t.store a (s.bytesAt (addr48 e 2) n)).setVariant j.part (vlVariant e)
      (loadedEntry m e a)).itemDone j done noResult := by
  simp only [State.loadVariant, entry, ← size, reads, if_neg room.not_ge, frame]
  rfl

/-- Settles O31: both actions write the entry in the table, where it reads back after the end of the job; a frame apart from the
entry keeps what was copied. -/
theorem variantsLoadedAndUnloaded : Obligations.VariantsLoadedAndUnloaded := by
  unfold Obligations.VariantsLoadedAndUnloaded
  refine ⟨fun uid done w j s h hr ext last free action => ?unload,
    fun uid done n w j t s h hr ext last free action slot size reads frame => ?load⟩
  case unload =>
    obtain ⟨waits, -, mems, parts⟩ := itemDone_last hr (dropVariant_kept s j.part (vlVariant (s.entry16 j done))) last noResult
    refine answers_of (exec_variantLoad_unload h ext free action) ⟨waits, ?_⟩
    rw [variant_congr mems parts, dropVariant_invalid]
  case load =>
    obtain ⟨⟨a, u⟩, taken⟩ := Option.isSome_iff_exists.1 frame
    refine answers_of (exec_variantLoad_load h ext free action slot) fun room => ?_
    generalize entry : s.entry16 j done = e at *
    have dropped := dropVariant_kept s j.part (vlVariant e)
    have framed : Keeps ⟨itemTouch, s⟩ u := KOpt.ofSnd taken (allocFrame_keeps rfl dropped)
    have copied : Keeps ⟨itemTouch, s⟩ (u.store a (s.bytesAt (addr48 e 2) n)) := store_keeps rfl framed
    have written : Keeps ⟨itemTouch, s⟩ ((u.store a (s.bytesAt (addr48 e 2) n)).setVariant j.part (vlVariant e) (loadedEntry t e a)) :=
      setVariant_keeps rfl copied
    obtain ⟨waits, -, mems, parts⟩ := itemDone_last hr written last noResult
    rw [loadVariant_loads entry size reads room taken]
    have fits : t.idx % 16 = t.idx := by
      rw [namedSlot_idx slot, dSlot, bits]
      omega
    refine ⟨waits, a, _, rfl, ?_⟩
    rw [variant_congr mems parts, variant_setVariant_same, bytesAt_congr mems]
    refine ⟨rfl, rfl, fits, rfl, fun apart => ?_⟩
    have table : (u.store a (s.bytesAt (addr48 e 2) n)).part j.part = s.part j.part :=
      congrArg (·.getD j.part Part.absent) (copied.parts_eq rfl)
    rw [State.setVariant, table, storeWords_bytesAt_apart _ apart]
    have whole := store_bytesAt u a (s.bytesAt (addr48 e 2) n)
    rwa [bytesAt_length] at whole

end Sys2Proof.Machine
end

section
/-! SUPPORT. PREFIX_LOOKUP and PREFIX_INSERT (R196 to R199): one entry of each, with the counts that it writes and the sequence that
an attach makes. -/

namespace Sys2Proof.Machine

variable {s t u : State} {uid op done p n i h : Nat} {w slot : Option Nat} {j : Job} {m : Slot} {x q : Seq}

/-! ## Lengths and words that fit (R4, R198) -/

theorem chunksOf_length {α : Type} (n k : Nat) (l : List α) : (chunksOf n k l).length = k := by
  induction k generalizing l with
  | zero => rfl
  | succ k ih => rw [chunksOf, List.length_cons, ih]

theorem wordsAt_length (s : State) (a n : Nat) : (s.wordsAt a n).length = n := by
  rw [State.wordsAt, List.length_map, List.length_range]

theorem blocksOf_length (tokens : List Nat) : (blocksOf tokens).length = tokens.length / 64 := chunksOf_length ..

theorem bits_lt (hi lo w : Nat) : bits hi lo w < 2 ^ (hi + 1 - lo) := Nat.mod_lt _ (Nat.two_pow_pos _)

theorem wordAt_wordsAt_lt (s : State) (a n i : Nat) : wordAt (s.wordsAt a n) i < 2 ^ 32 := by
  unfold wordAt
  by_cases inside : i < (s.wordsAt a n).length
  · rw [List.getD_eq_getElem _ _ inside]
    simp only [State.wordsAt, List.getElem_map]
    exact (readN_lt s _ 4).trans_eq (by norm_num)
  · rw [List.getD_eq_default _ _ (not_lt.1 inside)]
    exact Nat.two_pow_pos 32

theorem matchBlocks_length_le (s : State) (p slot : Nat) (variant prev : Option Nat) (parent : Nat) (blocks : List (List Nat)) :
    (s.matchBlocks p slot variant prev parent blocks).length ≤ blocks.length := by
  induction blocks generalizing prev parent with
  | nil => exact Nat.le_refl 0
  | cons b rest ih =>
    simp only [State.matchBlocks]
    split
    · exact Nat.zero_le _
    · exact Nat.succ_le_succ (ih ..)

/-- The nodes that match an entry's leading blocks. -/
def State.entryNodes (s : State) (j : Job) (t : Slot) (w : List Nat) : List Nat :=
  s.matchBlocks j.part t.idx (plVariant w) none noNode (blocksOf (s.wordsAt (addr48 w 2) (plNtok w)))

theorem entryNodes_lt (s : State) (j : Job) (t : Slot) (w : List Nat) : (s.entryNodes j t w).length < 2 ^ 32 := by
  have few : (s.entryNodes j t w).length ≤ _ := matchBlocks_length_le ..
  have ntok : plNtok w < 2 ^ 21 := bits_lt ..
  rw [blocksOf_length, wordsAt_length] at few
  omega

/-! ## The command of an index job (R199) -/

section
variable (runs : s.runs uid op j) (ext : j.ext = .items done w)
include runs ext

theorem indexStep_busy (busy : s.indexBusy j = true) (apply : State → Job → Slot → Nat → State) :
    s.indexStep uid op apply = s := by
  simp only [State.indexStep, itemJob_runs runs ext, busy, if_true]

theorem indexStep_free (free : s.indexBusy j = false) (named : s.slot? (dSlot j.words) = some m)
    (apply : State → Job → Slot → Nat → State) :
    s.indexStep uid op apply = apply s j m done := by
  simp only [State.indexStep, itemJob_runs runs ext, free, named, Bool.false_eq_true, if_false]

end

theorem exec_prefixLookup (runs : s.runs uid op j) :
    exec (.prefixLookup uid) s = .next (s.indexStep uid 0x09 State.lookupEntry) := by
  obtain ⟨found, -, running, -⟩ := runs
  simp only [exec, execPrefixLookup, starting_none_of_running found running]

theorem exec_prefixInsert (runs : s.runs uid op j) :
    exec (.prefixInsert uid) s = .next (s.indexStep uid 0x0A State.insertEntry) := by
  obtain ⟨found, -, running, -⟩ := runs
  simp only [exec, execPrefixInsert, starting_none_of_running found running, waitStart_of_running found running]

/-! ## PREFIX_LOOKUP (R198) -/

/-- The matched nodes are used at the present epoch. -/
def State.nodesUsed (s : State) (p : Nat) (nodes : List Nat) : State := nodes.foldl (fun s n => s.touchNode p n) s

theorem nodesUsed_keeps (s : State) (p : Nat) (nodes : List Nat) :
    Keeps ⟨Touch.nothing.mems.dram.record, s⟩ (s.nodesUsed p nodes) :=
  keepsFold (Q := Keeps _) (Keeps.refl _ s) fun _ _ h => touchNode_keeps rfl h

section
variable (reads : s.blocked j (addr48 (s.entry16 j done) 2) (4 * plNtok (s.entry16 j done)) = none)
  (writes : s.blockedOut j (dOut j.words + 8 * done) 8 = none)
  (index : s.anyBlocked j (s.nodeReads j.part m.heads.length (plAttach (s.entry16 j done))
    (s.entryNodes j m (s.entry16 j done))) = none)
include reads writes index

theorem lookupEntry_counts (plain : plAttach (s.entry16 j done) = false) : s.lookupEntry j m done =
    ((s.nodesUsed j.part (s.entryNodes j m (s.entry16 j done))).storeWords (dOut j.words + 8 * done)
      [(s.entryNodes j m (s.entry16 j done)).length, 0]).itemDone j done noResult := by
  rw [plain] at index
  unfold State.entryNodes at index
  simp only [State.lookupEntry, reads, writes, Option.or_none, index, plain, Bool.false_eq_true, if_false]
  rfl

theorem lookupEntry_attaches (attach : plAttach (s.entry16 j done) = true)
    (made : (s.nodesUsed j.part (s.entryNodes j m (s.entry16 j done))).attach j m (plVariant (s.entry16 j done))
      (s.entryNodes j m (s.entry16 j done)) = some (h, t)) : s.lookupEntry j m done =
    (t.storeWords (dOut j.words + 8 * done) [(s.entryNodes j m (s.entry16 j done)).length, h]).itemDone j done noResult := by
  rw [attach] at index
  unfold State.entryNodes at index made
  unfold State.nodesUsed at made
  simp only [State.lookupEntry, reads, writes, Option.or_none, index, attach, if_true, made]
  rfl

end

/-- An entry's two output words are stored after `t`, and the job ends: they read back. -/
theorem itemDone_words (hr : s.recorded j) (kept : Keeps ⟨itemTouch, s⟩ t) (last : done + 1 = dCount j.words) {a c h : Nat}
    (hc : c < 2 ^ 32) :
    ((t.storeWords a [c, h]).itemDone j done noResult).recordWaits j (j.endStatus s.now) noResult ∧
      ((t.storeWords a [c, h]).itemDone j done noResult).seqs = t.seqs ∧
      ((t.storeWords a [c, h]).itemDone j done noResult).wordsAt a 2 = [c, h % 2 ^ 32] := by
  have stored : Keeps ⟨Touch.nothing.mems.dram.record, t⟩ (t.storeWords a [c, h]) := storeWords_keeps rfl (Keeps.refl _ t)
  obtain ⟨waits, seqs, mems, -⟩ := itemDone_last hr (storeWords_keeps (a := a) (ws := [c, h]) rfl kept) last noResult
  refine ⟨waits, seqs.trans (stored.seqs_eq rfl), (wordsAt_congr mems a 2).trans ?_⟩
  have back : (t.storeWords a [c, h]).wordsAt a 2 = [c % 2 ^ 32, h % 2 ^ 32] := storeWords_wordsAt t a [c, h]
  rwa [Nat.mod_eq_of_lt hc] at back

theorem newSeq_some {slot len : Nat} {variant : Option Nat} {seed : List Byte} {pool : Bool}
    {dir : List (Nat × Nat × Nat × Nat)} (new : s.newSeq p slot variant seed pool len dir = some (x, t)) :
    s.freeSeqIdx = some x.idx ∧ t.seqs = x :: s.seqs ∧ x.part = p ∧ x.slot = slot ∧ x.variant = variant ∧
      x.prefillPool = pool ∧ x.len = len := by
  unfold State.newSeq at new
  split at new
  · cases new
  next i free =>
    cases new
    exact ⟨free, rfl, rfl, rfl, rfl, rfl, rfl⟩

theorem freeSeqIdx_congr (seqs : t.seqs = s.seqs) : t.freeSeqIdx = s.freeSeqIdx := by
  rw [State.freeSeqIdx, seqs, State.freeSeqIdx]

theorem nodeTokens_length (s : State) (p : Nat) (nodes : List Nat) :
    (nodes.flatMap fun n => (s.node p n).tokens).length = 64 * nodes.length := by
  induction nodes with
  | nil => rfl
  | cons n nodes ih =>
    have own : (s.node p n).tokens.length = 64 := wordsAt_length ..
    rw [List.flatMap_cons, List.length_append, ih, own, List.length_cons]
    omega

/-- An attach makes one sequence, of 64 tokens for each node. -/
theorem attach_seq {variant : Option Nat} {nodes : List Nat} (made : s.attach j m variant nodes = some (h, t)) :
    ∃ q ∈ t.seqs, s.freeSeqIdx = some q.idx ∧ q.part = j.part ∧ q.slot = m.idx ∧ q.variant = variant ∧
      q.prefillPool = true ∧ q.len = 64 * nodes.length ∧ q.handle = h := by
  delta State.attach at made
  extract_lets -merge p rows toks at made
  split at made
  next => cases made
  next x s1 new =>
    extract_lets -merge add at made
    obtain ⟨u, summed, result⟩ := Option.map_eq_some_iff.1 made
    cases result
    obtain ⟨-, found, -⟩ := newSeq_made new
    obtain ⟨free, -, part, slot, variant, pool, len⟩ := newSeq_some new
    cases filling : s1.putTokens x.idx 0 toks with
    | none =>
      rw [filling] at summed
      exact nomatch (keepsFold (Q := fun o => o = none) rfl (fun o y h => by subst h; rfl)).symm.trans summed
    | some filled =>
      rw [filling] at summed
      obtain ⟨cs, -, there⟩ := putTokens_seq? found filling
      have kept : KOpt (Keeps ⟨Touch.nothing.kvs.mems.dram.record, filled⟩) (rows.foldl add (some filled)) :=
        keepsFold (Q := KOpt _) (KOpt.some (Keeps.refl _ filled)) fun o y ho =>
          KOpt.bind ho fun v hv => sumOf_keeps rfl (addRef_keeps rfl hv)
      have traced := tracePart_keeps (type := 0x04) (p := p) (qp := j.qp) (words := [x.handle, 0, 0, 0, 0, 0, 0, 0])
        (Touch.Le.refl _) (Keeps.refl _ u)
      refine ⟨{ x with chunks := x.chunks ++ cs }, ?_, free, part, slot, variant, pool, ?_, rfl⟩
      · rw [traced.seqs_eq rfl, (kept u summed).seqs_eq rfl]
        exact List.mem_of_find?_eq_some there
      · exact len.trans (nodeTokens_length ..)

/-! ## PREFIX_INSERT (R198, R199) -/

theorem onto_count (a : InsertAt) (hash n : Nat) : (a.onto hash n).count = a.count + 1 := rfl

theorem insertBlock_count_le (q : Seq) (m : Slot) (r : State × InsertAt) (toks : List Nat) :
    (State.insertBlock q m r toks).2.count ≤ r.2.count + 1 := by
  unfold State.insertBlock
  split
  · exact Nat.le_succ _
  · split
    · exact Nat.le_succ _
    · dsimp only
      split
      · exact Nat.le_of_eq (onto_count ..)
      · split
        · exact Nat.le_succ _
        · exact Nat.le_of_eq (onto_count ..)

theorem insertBlocks_count_le (s : State) (q : Seq) (m : Slot) (blocks : List (List Nat)) :
    (s.insertBlocks q m blocks).2 ≤ blocks.length := by
  have counted (r : State × InsertAt) : (blocks.foldl (State.insertBlock q m) r).2.count ≤ r.2.count + blocks.length := by
    induction blocks generalizing r with
    | nil => exact Nat.le_refl _
    | cons b rest ih =>
      have one := insertBlock_count_le q m r b
      have more := ih (State.insertBlock q m r b)
      rw [List.foldl_cons, List.length_cons]
      omega
  exact (counted _).trans_eq (Nat.zero_add _)

theorem insertEntry_counts (named : s.resident j.part (wordAt (s.entry16 j done) 0) = some q)
    (writes : s.blockedOut j (dOut j.words + 8 * done) 8 = none)
    (reads : s.anyBlocked j (q.historyReads ++ s.insertReads q m) = none) {r : State × Nat}
    (inserted : s.insertBlocks q m ((blocksOf (s.history q)).take (bits 14 0 (wordAt (s.entry16 j done) 1))) = r) :
    s.insertEntry j m done =
      (r.1.storeWords (dOut j.words + 8 * done) [r.2, wordAt (s.entry16 j done) 0]).itemDone j done noResult := by
  simp only [State.insertEntry, named, writes, reads, Option.or_none, inserted]

/-! ## The statement -/

/-- Settles O30: the entry's output words are stored last and read back after the end of the job; an attach makes its sequence
before, at the lowest free index. -/
theorem prefixJobsApplied : Obligations.PrefixJobsApplied := by
  unfold Obligations.PrefixJobsApplied
  refine ⟨fun uid done w j t s runs hr ext last free named reads writes index plain => ?counts,
    fun uid done w j t i s runs hr ext last free named reads writes index attach lowest room => ?attaches,
    fun uid done w j t q s runs hr ext last free named seq writes reads => ?inserts,
    fun uid op done c w j s cmd runs ext busy => ?waits⟩
  case counts =>
    have used := (nodesUsed_keeps s j.part (s.entryNodes j t (s.entry16 j done))).widen (f := itemTouch) rfl
    obtain ⟨waits, seqs, words⟩ := itemDone_words (a := dOut j.words + 8 * done) (h := 0) hr used last
      (entryNodes_lt s j t (s.entry16 j done))
    refine answers_of (exec_prefixLookup runs) ?_
    rw [indexStep_free runs ext free named, lookupEntry_counts reads writes index plain]
    rw [Nat.zero_mod] at words
    exact ⟨waits, seqs.trans ((nodesUsed_keeps ..).seqs_eq rfl), words⟩
  case attaches =>
    obtain ⟨⟨h, u⟩, made⟩ : ∃ r, (s.nodesUsed j.part (s.entryNodes j t (s.entry16 j done))).attach j t
        (plVariant (s.entry16 j done)) (s.entryNodes j t (s.entry16 j done)) = some r := Option.isSome_iff_exists.1 room
    have used := nodesUsed_keeps s j.part (s.entryNodes j t (s.entry16 j done))
    have attached : Keeps ⟨itemTouch, s⟩ u := KOpt.ofSnd made (attach_keeps rfl (used.widen rfl))
    obtain ⟨q, mem, own, part, slot, variant, pool, len, rfl⟩ := attach_seq made
    obtain ⟨waits, seqs, words⟩ := itemDone_words (a := dOut j.words + 8 * done) (h := q.handle) hr attached last
      (entryNodes_lt s j t (s.entry16 j done))
    have idx : q.idx = i := by
      rw [freeSeqIdx_congr (used.seqs_eq rfl), lowest] at own
      exact (Option.some.inj own).symm
    refine answers_of (exec_prefixLookup runs) ?_
    rw [indexStep_free runs ext free named, lookupEntry_attaches reads writes index attach made]
    rw [← seqs] at mem
    exact ⟨waits, q, mem, idx, part, slot, variant, pool, len, words⟩
  case inserts =>
    generalize inserted : s.insertBlocks q t ((blocksOf (s.history q)).take (bits 14 0 (wordAt (s.entry16 j done) 1))) = r
    have few : r.2 < 2 ^ 32 := by
      have := insertBlocks_count_le s q t ((blocksOf (s.history q)).take (bits 14 0 (wordAt (s.entry16 j done) 1)))
      have small := bits_lt 14 0 (wordAt (s.entry16 j done) 1)
      rw [inserted, List.length_take] at this
      omega
    have kept : Keeps ⟨itemTouch, s⟩ r.1 := inserted ▸ insertBlocks_keeps rfl (Keeps.refl _ s)
    obtain ⟨waits, -, words⟩ := itemDone_words (a := dOut j.words + 8 * done) (h := wordAt (s.entry16 j done) 0) hr kept last few
    rw [Nat.mod_eq_of_lt (show wordAt (s.entry16 j done) 0 < 2 ^ 32 from wordAt_wordsAt_lt ..)] at words
    refine answers_of (exec_prefixInsert runs) ?_
    rw [indexStep_free runs ext free named, insertEntry_counts seq writes reads inserted]
    exact ⟨waits, words⟩
  case waits =>
    simp only [List.mem_cons, Prod.mk.injEq, List.not_mem_nil, or_false] at cmd
    rcases cmd with ⟨rfl, rfl⟩ | ⟨rfl, rfl⟩
    · rw [exec_prefixLookup runs, indexStep_busy runs ext busy]
    · rw [exec_prefixInsert runs, indexStep_busy runs ext busy]

end Sys2Proof.Machine
end

section
/-! SUPPORT. A job that Kadon expands enters RUNNING (R104, R143, R153), and a serving job that ends before it has entries
(R190). -/

namespace Sys2Proof.Machine

variable {s t u : State} {uid op : Nat} {j : Job}

/-- Job `j` of any opcode has begun, and the state is now `t`: of its own fields, the state, the epoch, STAGING_USED and its sync
counters may differ. -/
structure State.Entered (s : State) (uid op : Nat) (j : Job) (t : State) : Prop where
  starting : s.starting uid op = some (j, t)
  found : s.job? uid = some j
  opcode : j.opcode = op
  kept : Keeps ⟨Touch.nothing.jobs.counters.ctrBlocks.parts.kvs, s⟩ t
  running : ∃ epoch quality ctrs, t.job? uid =
    some { j with state := .running, unitWait := none, epoch := epoch, quality := quality, ctrs := ctrs }

theorem State.Entered.isUid (h : s.Entered uid op j t) : j.uid = uid := State.job?_uid h.found

theorem State.Entered.started (h : s.Entered uid op j t) : s.started uid op = t := by
  rw [State.started, h.starting]
  rfl

theorem giveCounters_job? (found : s.job? j.uid = some j) (given : s.giveCounters j = some t) :
    ∃ ctrs, t.job? j.uid = some { j with ctrs := ctrs } := by
  unfold State.giveCounters at given
  split at given
  · obtain ⟨b, -, rfl⟩ := Option.map_eq_some_iff.1 given
    refine ⟨some (16 * b, 1), ?_⟩
    rw [State.takeBlocks, State.job_modJob_same _ _ _ (by exact fun _ => rfl)]
    exact congrArg (Option.map _) found
  · cases given
    exact ⟨j.ctrs, found⟩

theorem starts_entered (h : s.starts uid op j) : ∃ t, s.Entered uid op j t := by
  obtain ⟨⟨_, t⟩, starting, rfl⟩ := Option.map_eq_some_iff.1 h
  refine ⟨t, ?_⟩
  have kept := KOpt.ofSnd starting (starting_keeps (Touch.Le.refl _) (Keeps.refl _ s))
  have result := starting
  unfold State.starting at starting
  split at starting
  next => cases starting
  next k found =>
    split at starting
    next ready =>
      rw [Bool.and_eq_true, beq_iff_eq] at ready
      split at starting
      next => cases starting
      next u unparked =>
        obtain ⟨rfl, rfl⟩ := Prod.mk.inj (Option.some.inj starting)
        obtain rfl := State.job?_uid found
        obtain ⟨v, given, back⟩ := Option.bind_eq_some_iff.1 unparked
        obtain ⟨ctrs, counted⟩ := giveCounters_job? found given
        obtain ⟨g, marks, list, -⟩ := unparkSeqs_marked back
        have marked : u.job? k.uid = some (g { k with ctrs := ctrs }) := by
          rw [State.job?, list, find_map_same v.jobs.list Job.uid k.uid g (fun j => by rw [marks]), ← State.job?, counted]
          rfl
        refine ⟨result, found, ready.1, kept, (u.kv k.part).epoch, (g { k with ctrs := ctrs }).quality, ctrs, ?_⟩
        rw [State.run, State.job_modJob_same _ _ _ (by exact fun _ => rfl), marked, Option.map_some, marks]
    next => cases starting

/-- A job without a kind-specific part ends with an error and leaves the sequences as they were. -/
theorem failJob_seqs (found : s.job? uid = some j) (fresh : j.ext = .none) (st result : Nat) :
    (s.failJob uid st result).seqs = s.seqs := by
  have withdrawn : ((s.jobError uid st).withdraw uid).seqs = s.seqs :=
    (withdraw_keeps (Touch.Le.refl _) (Keeps.refl _ (s.jobError uid st))).seqs_eq rfl
  have fresh' : (j.failed st).ext = .none := fresh
  simp only [State.failJob, withdraw_jobError_job? found, fresh', bne_self_eq_false, Bool.and_false, Bool.false_eq_true, if_false]
  split
  · exact withdrawn
  · rw [(finishJob_keeps (Touch.Le.refl _) (Keeps.refl _ _)).seqs_eq rfl, withdrawn]

end Sys2Proof.Machine
end

section
/-! SUPPORT. The checks of a serving job's entries (R188, R190) and the sequences that it opens (R193, R195). -/

namespace Sys2Proof.Machine

variable {s t u : State} {uid op i : Nat} {c : Instr} {j : Job} {m : Slot} {e : Ent} {ents before : List Ent} {w : List Nat}
  {ws : List (List Nat)}

/-! ## Checked entries (R190) -/

/-- A resident sequence has the index. -/
def State.hasSeq (s : State) (i : Nat) : Prop := ∃ q ∈ s.seqs, q.idx = i

theorem EntRes.of_guard {r : EntRes} {p : Prop} [Decidable p] (good : (if p then .bad else r) = .ok e) : ¬p ∧ r = .ok e := by
  split at good
  · cases good
  next passed => exact ⟨passed, good⟩

theorem checkEntry_names (good : s.checkEntry j m i w before = .ok e) : e.created = true ∨ s.hasSeq e.seqIdx := by
  delta State.checkEntry at good
  extract_lets op vocab q len tokens parents grow at good
  have resident {x : Seq} (found : q = some x) : x ∈ s.seqs := by
    simp only [q, State.entrySeq, State.resident] at found
    split at found
    · cases found
    · exact List.mem_of_find?_eq_some found
  clear_value len tokens parents grow q op vocab
  obtain ⟨named, good⟩ := EntRes.of_guard good
  obtain ⟨-, good⟩ := EntRes.of_guard good
  obtain ⟨-, good⟩ := EntRes.of_guard good
  split at good
  next => cases good
  split at good
  next => cases good
  obtain rfl := EntRes.ok.inj (EntRes.of_guard good).2
  cases q with
  | none =>
    refine .inl (?_ : seCreate w = true)
    simpa using (not_or.1 (mt Bool.or_eq_true_iff.2 named)).2
  | some x => exact .inr ⟨x, resident rfl, rfl⟩

theorem nextEntry_stopped (x : State) (ws : List (List Nat)) : ws.foldl (s.nextEntry j m) (.inr x) = .inr x := by
  induction ws with
  | nil => rfl
  | cons w ws ih => exact ih

theorem nextEntry_of {acc : List Ent} (r : EntRes) : s.checkEntry j m acc.length w acc = r →
    s.nextEntry j m (.inl acc) w = match r with
      | .bad => .inr (s.failJob j.uid stInvalid acc.length)
      | .stop x => .inr x
      | .ok e => .inl (acc ++ [e]) := by
  rintro rfl
  rfl

theorem nextEntry_ok {acc : List Ent} (good : s.nextEntry j m (.inl acc) w = .inl before) :
    ∃ e, s.checkEntry j m acc.length w acc = .ok e ∧ before = acc ++ [e] := by
  generalize checked : s.checkEntry j m acc.length w acc = r
  rw [nextEntry_of r checked] at good
  cases r with
  | bad => cases good
  | stop x => cases good
  | ok e => exact ⟨e, rfl, (Sum.inl.inj good).symm⟩

theorem nextEntry_inl {acc : List Ent} (named : ∀ e ∈ acc, e.created = true ∨ s.hasSeq e.seqIdx)
    (good : ws.foldl (s.nextEntry j m) (.inl acc) = .inl ents) :
    ents.length = acc.length + ws.length ∧ ∀ e ∈ ents, e.created = true ∨ s.hasSeq e.seqIdx := by
  induction ws generalizing acc with
  | nil =>
    obtain rfl := Sum.inl.inj good
    exact ⟨rfl, named⟩
  | cons w ws ih =>
    rw [List.foldl_cons] at good
    cases step : s.nextEntry j m (.inl acc) w with
    | inr x =>
      rw [step, nextEntry_stopped] at good
      exact absurd good Sum.inr_ne_inl
    | inl before =>
      rw [step] at good
      obtain ⟨e, checked, rfl⟩ := nextEntry_ok step
      have named' : ∀ d ∈ acc ++ [e], d.created = true ∨ s.hasSeq d.seqIdx := by
        simp only [List.mem_append, List.mem_singleton]
        rintro d (old | rfl)
        · exact named d old
        · exact checkEntry_names checked
      obtain ⟨len, all⟩ := ih named' good
      refine ⟨?_, all⟩
      rw [len, List.length_append, List.length_cons, List.length_cons, List.length_nil]
      omega

theorem checkEntries_inl (good : s.checkEntries j m ws = .inl ents) :
    ents.length = ws.length ∧ ∀ e ∈ ents, e.created = true ∨ s.hasSeq e.seqIdx := by
  simpa using nextEntry_inl (fun _ h => absurd h List.not_mem_nil) good

theorem checkEntries_bad (bad : s.checkEntry j m 0 w [] = .bad) :
    s.checkEntries j m (w :: ws) = .inr (s.failJob j.uid stInvalid 0) := by
  rw [State.checkEntries, List.foldl_cons, nextEntry_of (acc := []) .bad bad, nextEntry_stopped]
  rfl

/-! ## Opened sequences (R188, R195) -/

theorem freeSeqIdx_of_room (room : s.seqs.length < 1024) : ∃ i, s.freeSeqIdx = some i := by
  by_contra none_free
  have taken : List.range 1024 ⊆ s.seqs.map Seq.idx := fun i hi => by
    have used := List.find?_eq_none.1 (Option.eq_none_iff_forall_ne_some.2 fun i h => none_free ⟨i, h⟩) i hi
    simpa using used
  have := (List.nodup_range.subperm taken).length_le
  rw [List.length_range, List.length_map] at this
  omega

theorem newSeq_of_room {p slot len : Nat} {variant : Option Nat} {seed : List Byte} {pool : Bool}
    {dir : List (Nat × Nat × Nat × Nat)} (room : s.seqs.length < 1024) :
    ∃ x t, s.newSeq p slot variant seed pool len dir = some (x, t) := by
  obtain ⟨i, free⟩ := freeSeqIdx_of_room room
  cases new : s.newSeq p slot variant seed pool len dir with
  | some r => exact ⟨r.1, r.2, rfl⟩
  | none =>
    unfold State.newSeq at new
    split at new
    next full => cases full.symm.trans free
    next => cases new

/-- A sequence of the index is owned by the prefill pool. -/
def State.pooled (s : State) (i : Nat) : Prop := ∃ q ∈ s.seqs, q.idx = i ∧ q.prefillPool = true

/-- The sequence of an entry of a PREFILL with its pool and its seed. -/
def adopt (i : Nat) (seed : Option (List Byte)) (q : Seq) : Seq :=
  if q.idx == i then { q with prefillPool := true, seed := seed.getD q.seed } else q

theorem adopt_idx (i : Nat) (seed : Option (List Byte)) (q : Seq) : (adopt i seed q).idx = q.idx := by
  unfold adopt
  split <;> rfl

theorem adopt_pool {seed : Option (List Byte)} {q : Seq} (h : q.prefillPool = true ∨ q.idx = i) :
    (adopt i seed q).prefillPool = true := by
  unfold adopt
  split
  · rfl
  next other => exact h.resolve_right (by simpa using other)

/-- The state and the entry after the sequence of an entry with CREATE is made. -/
def State.makeSeq (s : State) (j : Job) (w : List Nat) (e : Ent) : State × Ent :=
  if e.created then
    match s.newSeq j.part (dSlot j.words) (seVariant w) (List.replicate 16 0) true 0 [] with
    | some (q, s) => (s, { e with seqIdx := q.idx, handle := q.handle })
    | none => (s, e)
  else (s, e)

/-- The state and the entry once its sequence has its pool and its seed. -/
def openedAs (j : Job) (seed : Option (List Byte)) (r : State × Ent) : State × Ent :=
  let s := r.1.modSeq r.2.seqIdx fun q => { q with prefillPool := j.opcode == 0x03, seed := seed.getD q.seed }
  (match seed with
    | some b => s.tracePart 0x04 j.part j.qp ([r.2.handle, 0, 0, 0] ++ bytesWords 4 b)
    | none => s, r.2)

/-- What opening an entry of a PREFILL does to the sequences. -/
theorem openEnt_eq (prefill : j.opcode = 0x03) :
    (s.openEnt j w e).2 = (s.makeSeq j w e).2 ∧
      (s.openEnt j w e).1.seqs = (s.makeSeq j w e).1.seqs.map (adopt (s.makeSeq j w e).2.seqIdx (s.entrySeed w)) := by
  have traced (seed : Option (List Byte)) (x : State) (h : Nat) :
      (match seed with
        | some b => x.tracePart 0x04 j.part j.qp ([h, 0, 0, 0] ++ bytesWords 4 b)
        | none => x).seqs = x.seqs := by
    cases seed with
    | none => rfl
    | some b => exact (tracePart_keeps (Touch.Le.refl _) (Keeps.refl _ x)).seqs_eq rfl
  have opened : s.openEnt j w e = openedAs j (s.entrySeed w) (s.makeSeq j w e) := by
    delta State.openEnt openedAs State.makeSeq
    generalize s.newSeq j.part (dSlot j.words) (seVariant w) (List.replicate 16 0) true 0 [] = new
    cases new <;> cases e.created <;> rfl
  rw [opened]
  refine ⟨rfl, (traced _ _ _).trans ?_⟩
  rw [prefill]
  rfl

theorem makeSeq_made (room : e.created = true → s.seqs.length < 1024) :
    ∃ made : List Seq, (s.makeSeq j w e).1.seqs = made ++ s.seqs ∧ made.length = b2n e.created ∧
      (e.created = true → ∃ q ∈ made, q.idx = (s.makeSeq j w e).2.seqIdx) ∧
      (e.created = false → (s.makeSeq j w e).2.seqIdx = e.seqIdx) := by
  unfold State.makeSeq
  cases created : e.created with
  | false => exact ⟨[], rfl, rfl, (nomatch ·), fun _ => rfl⟩
  | true =>
    obtain ⟨q, t, new⟩ := newSeq_of_room (room created)
    rw [if_pos rfl, new]
    exact ⟨[q], (newSeq_some new).2.1, rfl, fun _ => ⟨q, List.mem_singleton.2 rfl, rfl⟩, (nomatch ·)⟩

/-- Opening an entry of a PREFILL makes its sequence if it asks for one, and pools what has its index. -/
theorem openEnt_pools (prefill : j.opcode = 0x03) (room : e.created = true → s.seqs.length < 1024) :
    (s.openEnt j w e).1.seqs.length = s.seqs.length + b2n e.created ∧
      (∀ k, s.hasSeq k → (s.openEnt j w e).1.hasSeq k) ∧ (∀ k, s.pooled k → (s.openEnt j w e).1.pooled k) ∧
      (e.created = true ∨ s.hasSeq e.seqIdx → (s.openEnt j w e).1.pooled (s.openEnt j w e).2.seqIdx) := by
  obtain ⟨made, seqs, count, new, old⟩ := makeSeq_made (j := j) (w := w) room
  obtain ⟨ent, adopted⟩ := openEnt_eq (s := s) (w := w) (e := e) prefill
  rw [seqs] at adopted
  rw [← ent] at adopted new old
  generalize s.openEnt j w e = r at adopted new old ⊢
  have put {q : Seq} (hq : q ∈ made ++ s.seqs) : adopt r.2.seqIdx (s.entrySeed w) q ∈ r.1.seqs :=
    adopted ▸ List.mem_map_of_mem hq
  refine ⟨by rw [adopted, List.length_map, List.length_append, count, Nat.add_comm], ?_, ?_, ?_⟩
  · rintro k ⟨q, hq, rfl⟩
    exact ⟨_, put (List.mem_append_right _ hq), adopt_idx ..⟩
  · rintro k ⟨q, hq, rfl, pool⟩
    exact ⟨_, put (List.mem_append_right _ hq), adopt_idx .., adopt_pool (.inl pool)⟩
  · intro named
    obtain ⟨q, hq, idx⟩ : ∃ q ∈ made ++ s.seqs, q.idx = r.2.seqIdx := by
      cases created : e.created with
      | true =>
        obtain ⟨q, hq, idx⟩ := new created
        exact ⟨q, List.mem_append_left _ hq, idx⟩
      | false =>
        obtain ⟨q, hq, idx⟩ := named.resolve_left (by rw [created]; decide)
        exact ⟨q, List.mem_append_right _ hq, idx.trans (old created).symm⟩
    exact ⟨_, put hq, (adopt_idx ..).trans idx, adopt_pool (.inr idx)⟩

/-- Every entry of a PREFILL is opened, in order, and has a sequence in the prefill pool. -/
theorem openAll_pools (prefill : j.opcode = 0x03) (fit : ents.length = ws.length)
    (named : ∀ e ∈ ents, e.created = true ∨ s.hasSeq e.seqIdx)
    (room : s.seqs.length + (ents.filter Ent.created).length ≤ 1024) :
    (s.openAll j ws ents).2.length = ents.length ∧ (∀ k, s.pooled k → (s.openAll j ws ents).1.pooled k) ∧
      ∀ e ∈ (s.openAll j ws ents).2, (s.openAll j ws ents).1.pooled e.seqIdx := by
  induction ws generalizing s ents with
  | nil =>
    obtain rfl := List.length_eq_zero_iff.1 fit
    exact ⟨rfl, fun _ h => h, fun _ h => absurd h List.not_mem_nil⟩
  | cons w ws ih =>
    cases ents with
    | nil => cases fit
    | cons e es =>
      have all : (e :: es |>.filter Ent.created).length = b2n e.created + (es.filter Ent.created).length := by
        cases created : e.created <;> simp [created, b2n, Nat.add_comm]
      rw [all] at room
      obtain ⟨count, has, pooled, own⟩ := openEnt_pools (s := s) (w := w) (e := e) prefill fun created => by
        simp only [created, b2n] at room
        simp at room
        omega
      obtain ⟨len, kept, each⟩ := ih (s := (s.openEnt j w e).1) (ents := es) (Nat.succ.inj fit)
        (fun d hd => (named d (List.mem_cons_of_mem _ hd)).imp_right (has _)) (by omega)
      refine ⟨congrArg Nat.succ len, fun k h => kept k (pooled k h), fun d hd => ?_⟩
      rcases List.mem_cons.1 hd with rfl | hd
      · exact kept _ (own (named e List.mem_cons_self))
      · exact each d hd

end Sys2Proof.Machine
end

section
/-! O25: the start of a serving job (R188, R190, R195). -/

namespace Sys2Proof.Machine

variable {s t u : State} {uid op : Nat} {c : Instr} {j : Job} {m : Slot} {ents : List Ent} {ws : List (List Nat)}

/-- The entries' descriptors. -/
def State.descriptors (t : State) (j : Job) : List (List Nat) :=
  (List.range (dCount j.words)).map fun i => t.wordsAt (dArg j.words + 64 * i) 16

section
variable (reads : t.blocked j (dArg j.words) (64 * dCount j.words) = none)
  (writes : t.blockedOut j (dOut j.words) (32 * dCount j.words) = none)
  (slot : t.namedSlot j.part (dSlot j.words) = .inl m)
include reads writes slot

theorem startServe_stopped (checked : t.checkEntries j m (t.descriptors j) = .inr u) : t.startServe j = u := by
  rw [State.descriptors] at checked
  simp only [State.startServe, reads, writes, slot, Option.or_none, checked]

theorem startServe_opened (checked : t.checkEntries j m (t.descriptors j) = .inl ents)
    (room : t.seqs.length + (ents.filter Ent.created).length ≤ 1024)
    (clean : ∀ e ∈ ents, e.created = true ∨ t.poisonedSeq j.part e.seqIdx = false) :
    t.startServe j = (t.openAll j (t.descriptors j) ents).1.setServe j.uid (t.openAll j (t.descriptors j) ents).2 0 0 := by
  have unpoisoned : (ents.any fun e => !e.created && t.poisonedSeq j.part e.seqIdx) = false :=
    List.any_eq_false.2 fun e he => by rcases clean e he with h | h <;> simp [h]
  rw [State.descriptors] at checked ⊢
  simp only [State.startServe, reads, writes, slot, Option.or_none, checked]
  rw [if_neg (by omega), unpoisoned, if_neg Bool.false_ne_true]

end

/-- The three serving opcodes start alike. -/
theorem exec_startServe (cmd : (c, op) ∈ [(Instr.prefill uid, 0x03), (.decodeStep uid, 0x04), (.verifyTree uid, 0x05)])
    (starting : s.starting uid op = some (j, t)) (fresh : j.ext = .none) : exec c s = .next (t.startServe j) := by
  simp only [List.mem_cons, Prod.mk.injEq, List.not_mem_nil, or_false] at cmd
  rcases cmd with ⟨rfl, rfl⟩ | ⟨rfl, rfl⟩ | ⟨rfl, rfl⟩
  · simp only [exec, execPrefill, starting, fresh]
  · simp only [exec, execDecodeStep, State.startStep, starting]
  · simp only [exec, execVerifyTree, State.startStep, starting]

theorem descriptors_cons (t : State) (some_entry : 0 < dCount j.words) :
    ∃ ws, t.descriptors j = t.wordsAt (dArg j.words) 16 :: ws := by
  obtain ⟨k, count⟩ := Nat.exists_eq_add_of_lt some_entry
  rw [State.descriptors, count, Nat.zero_add, List.range_succ_eq_map, List.map_cons]
  exact ⟨_, rfl⟩

theorem setServe_job? (found : s.job? uid = some j) (es : List Ent) (chunk step : Nat) :
    (s.setServe uid es chunk step).job? uid = some { j with ext := .serve es chunk step none } := by
  obtain rfl := State.job?_uid found
  rw [State.setServe, State.job_modJob_same _ _ _ (by exact fun _ => rfl), found]
  rfl

theorem answers_prefill_opened (start : s.Entered uid 0x03 j t) (fresh : j.ext = .none)
    (reads : t.blocked j (dArg j.words) (64 * dCount j.words) = none)
    (writes : t.blockedOut j (dOut j.words) (32 * dCount j.words) = none)
    (slot : t.namedSlot j.part (dSlot j.words) = .inl m)
    (checked : t.checkEntries j m (t.descriptors j) = .inl ents)
    (room : t.seqs.length + (ents.filter Ent.created).length ≤ 1024)
    (clean : ∀ e ∈ ents, e.created = true ∨ t.poisonedSeq j.part e.seqIdx = false) :
    answers (.prefill uid) s fun u => ∃ k es, u.job? uid = some k ∧ k.state = .running ∧ k.ext = .serve es 0 0 none ∧
      es.length = ents.length ∧ ∀ e ∈ es, u.pooled e.seqIdx := by
  obtain rfl := start.isUid
  obtain ⟨e, quality, ctrs, running⟩ := start.running
  obtain ⟨count, named⟩ := checkEntries_inl checked
  have ran := startServe_opened reads writes slot checked room clean
  obtain ⟨len, -, pools⟩ := openAll_pools start.opcode count named room
  have jobs : (t.openAll j (t.descriptors j) ents).1.jobs = t.jobs :=
    (openAll_keeps (Touch.Le.refl _) (Keeps.refl _ t)).jobs_eq rfl
  refine answers_of ((exec_startServe (by simp) start.starting fresh).trans (congrArg _ ran)) ?_
  generalize t.openAll j (t.descriptors j) ents = r at len pools jobs ⊢
  exact ⟨_, r.2, setServe_job? ((State.job?_congr jobs _).trans running) .., rfl, rfl, len, pools⟩

theorem answers_serving_invalid
    (cmd : (c, op) ∈ [(Instr.prefill uid, 0x03), (.decodeStep uid, 0x04), (.verifyTree uid, 0x05)])
    (start : s.Entered uid op j t) (hr : s.recorded j) (fresh : j.ext = .none) (some_entry : 0 < dCount j.words)
    (reads : t.blocked j (dArg j.words) (64 * dCount j.words) = none)
    (writes : t.blockedOut j (dOut j.words) (32 * dCount j.words) = none)
    (slot : t.namedSlot j.part (dSlot j.words) = .inl m)
    (bad : t.checkEntry j m 0 (t.wordsAt (dArg j.words) 16) [] = .bad) :
    answers c s fun u => u.recordWaits j (firstError j.status 0x30) 0 ∧ u.seqs = s.seqs := by
  obtain rfl := start.isUid
  obtain ⟨e, quality, ctrs, running⟩ := start.running
  obtain ⟨-, spoken, loud, unfinished, -⟩ := id hr
  obtain ⟨ws, first⟩ := descriptors_cons t some_entry
  have ran := startServe_stopped reads writes slot ((congrArg _ first).trans (checkEntries_bad bad))
  refine answers_of ((exec_startServe cmd start.starting fresh).trans (congrArg _ ran)) ?_
  exact ⟨failJob_recordWaits
    (j := { j with state := .running, unitWait := none, epoch := e, quality := quality, ctrs := ctrs })
    ⟨running, spoken, loud, unfinished, (hr.willRecord.of_qps (start.kept.qps_eq rfl)).enabled⟩ (st := stInvalid) (by decide) 0,
    (failJob_seqs running fresh ..).trans (start.kept.seqs_eq rfl)⟩

/-- Settles O25: a job's checks pass over its entries one by one, so each good one names a sequence or asks for one; opening an
entry pools what has its index and leaves pooled what was. A job that ends before it has entries keeps its sequences. -/
theorem prefillStartsWithItsSequences : Obligations.PrefillStartsWithItsSequences := by
  unfold Obligations.PrefillStartsWithItsSequences
  refine ⟨fun uid j m ents s starts fresh reads writes slot checked room clean => ?_,
    fun uid op c j m s cmd starts hr fresh some_entry reads writes slot bad => ?_⟩
  · obtain ⟨t, start⟩ := starts_entered starts
    rw [start.started] at reads writes slot checked room clean
    exact answers_prefill_opened start fresh reads writes slot checked room clean
  · obtain ⟨t, start⟩ := starts_entered starts
    rw [start.started] at reads writes slot bad
    exact answers_serving_invalid cmd start hr fresh some_entry reads writes slot bad

end Sys2Proof.Machine
end

section
/-! O27 fails: a state in which two entries of a PREFILL have one number (R193). -/

namespace Sys2Proof.Machine

/-! ## The last step of a PREFILL whose entries have one number -/

/-- Slot 0, with a model of one layer. -/
def oneLayerSlot : Slot :=
  { idx := 0, part := 0, loaded := true
    manifest := { imageBytes := 0, dirFirst := 0, dirCount := 0, payFirst := 0, payUnits := 0, sideFirst := 0, width := 0
                  vocab := 0, layers := 1, headDim := 0, experts := 0, active := 0 }
    layerRecs := [], digest := [], source := .dram, granules := [], pinned := [], cache := [], experts := [], retired := []
    ents := [] }

/-- An entry of one prompt token for sequence `i`, with number 0 whatever the sequence. -/
def sameNumber (i : Nat) : Ent := { createdEntry with seqIdx := i, created := false, ntok := 1, tokens := [0] }

/-- A PREFILL of two such entries at the second half of its one layer for the second of them. -/
def sameNumberPrefill : Job :=
  { emptyTileList with opcode := 0x03, state := .running, ext := .serve [sameNumber 0, sameNumber 1] 0 3 none }

def sameNumberState : State := { State.reset with
  qps := [{ Qp.reset with enabled := true }]
  jobs := { Jobs.reset with list := [sameNumberPrefill] }
  slots := [oneLayerSlot]
  seqs := [{ onePageSeq with dir := [] }, { onePageSeq with idx := 1, dir := [] }]
  kadon := { Kadon.reset with cps := [{ Cp.reset with state := .running }] } }

/-- Refutes O27: at the end of a step the entry in turn takes the place of every entry of its number (`putEnt`), so where two
entries have one number the commit sees one of them twice, and the other's sequence keeps its length. The second clause lacks that
the entries have the numbers that R190's checks give them. -/
theorem not_lastServingStepCommits : ¬ Obligations.LastServingStepCommits := by
  unfold Obligations.LastServingStepCommits
  rintro ⟨-, commits, -⟩
  have ⟨lengths, _⟩ := answers_stateAfter (commits 0 ⟨[sameNumber 0, sameNumber 1], 0, 3, none⟩ (sameNumber 1)
    sameNumberPrefill oneLayerSlot sameNumberState (by decide +kernel) (by decide +kernel) (by decide +kernel)
    (by decide +kernel) (by decide +kernel) (by decide +kernel) (by decide +kernel) (by decide +kernel) (by decide +kernel)
    (by decide +kernel))
  exact absurd lengths (by decide +kernel)

end Sys2Proof.Machine
end

section
/-! SUPPORT. What a job reaches (R34, R322): its partition's granules, those of DRAM, and the host window. A job's own writes,
appends and occurrences leave it. -/

namespace Sys2Proof.Machine

variable {s t u : State} {p : Nat} {j : Job}

/-- In `t` a job reaches what it reaches in `s`: the partitions differ in their counters only, and DRAM has the same granules. -/
structure State.SameReach (s t : State) : Prop where
  parts : ∀ p, ∃ c, t.part p = { s.part p with ctr := c }
  backed : t.dram.granulesBacked = s.dram.granulesBacked
  host : ∀ p, t.hostOk p = s.hostOk p

theorem State.SameReach.refl (s : State) : s.SameReach s := ⟨fun _ => ⟨_, rfl⟩, rfl, fun _ => rfl⟩

theorem State.SameReach.trans (h : s.SameReach t) (k : t.SameReach u) : s.SameReach u where
  parts p := by
    obtain ⟨c, hc⟩ := h.parts p
    obtain ⟨d, hd⟩ := k.parts p
    exact ⟨d, by rw [hd, hc]⟩
  backed := k.backed.trans h.backed
  host p := (k.host p).trans (h.host p)

theorem hostOk_of_parts (link : t.link = s.link) (parts : ∃ c, t.part p = { s.part p with ctr := c }) :
    t.hostOk p = s.hostOk p := by
  obtain ⟨c, hc⟩ := parts
  simp only [State.hostOk, State.linkUp, State.ownFn, State.fnSt, State.conf, link, hc]

theorem State.SameReach.of_parts (parts : ∀ p, ∃ c, t.part p = { s.part p with ctr := c })
    (backed : t.dram.granulesBacked = s.dram.granulesBacked) (link : t.link = s.link) : s.SameReach t :=
  ⟨parts, backed, fun p => hostOk_of_parts link (parts p)⟩

theorem State.SameReach.of_keeps {may : Touch} (h : Keeps ⟨may, s⟩ t) (parts : may.tParts = false) (dram : may.tDram = false)
    (link : may.tLink = false) : s.SameReach t :=
  .of_parts (fun p => ⟨(s.part p).ctr, by rw [State.part, h.parts_eq parts, State.part]⟩) (by rw [h.dram_eq dram])
    (h.link_eq link)

theorem State.SameReach.blockedOut (h : s.SameReach t) {a n : Nat} (free : s.blockedOut j a n = none) :
    t.blockedOut j a n = none := by
  obtain ⟨c, hc⟩ := h.parts j.part
  rw [blockedOut_eq_none_iff] at *
  have dram : t.inDramHost j.part a n = s.inDramHost j.part a n := by
    simp only [State.inDramHost, State.inDram, State.granuleOwned, hc, h.backed]
  rwa [dram, h.host]

/-! ## Occurrences and writes -/

theorem raise_sameReach (s : State) (source cls detail : Nat) (part : Option Nat) (tag info : Nat) :
    s.SameReach (s.raise source cls detail part tag info) where
  parts p := ⟨(s.part p).ctr, by
    rw [State.part, (raise_keeps (Touch.Le.refl _) (Keeps.refl _ s)).parts_eq rfl, State.part]⟩
  backed := by rw [(raise_keeps (Touch.Le.refl _) (Keeps.refl _ s)).dram_eq rfl]
  host p := raise_hostOk ..

theorem dramWordError_sameReach (s : State) (a : Nat) : s.SameReach (s.dramWordError a) :=
  (raise_sameReach ..).trans (.of_parts (fun _ => ⟨_, rfl⟩) rfl rfl)

theorem reportWords_sameReach (s : State) (ws : List Nat) : s.SameReach (s.reportWords ws) :=
  keepsFold (Q := s.SameReach) (.refl s) fun _ _ h => h.trans (dramWordError_sameReach ..)

theorem put_sameReach (s : State) (a : Nat) (bs : List Byte) : s.SameReach (s.put a bs) :=
  .of_parts (fun _ => ⟨_, rfl⟩) rfl rfl

theorem store_sameReach (s : State) (a : Nat) (bs : List Byte) : s.SameReach (s.store a bs) :=
  (reportWords_sameReach ..).trans (put_sameReach ..)

/-! ## The trace -/

theorem trace_sameReach (s : State) (tr : Trace) : s.SameReach { s with trace := tr } :=
  .of_parts (fun _ => ⟨_, rfl⟩) rfl rfl

theorem traceWrite_sameReach (s : State) (r : TraceRec) : s.SameReach (s.traceWrite r) := by
  unfold State.traceWrite
  extract_lets ws h base w
  exact .trans (keepsFold (Q := s.SameReach) (.refl s) fun _ _ h => h.trans (put_sameReach ..)) (trace_sameReach w _)

theorem traceDrain_sameReach (s : State) (n : Nat) : s.SameReach (s.traceDrain n) := by
  induction n generalizing s with
  | zero => exact .refl s
  | succ n ih =>
    unfold State.traceDrain
    split
    next r rest _ =>
      split
      · exact (traceWrite_sameReach s r).trans ((trace_sameReach ..).trans (ih _))
      · exact .refl s
    next =>
      split
      · exact (traceWrite_sameReach ..).trans (trace_sameReach ..)
      · exact .refl s

theorem traceEmit_sameReach (s : State) (r : TraceRec) : s.SameReach (s.traceEmit r) := by
  unfold State.traceEmit
  extract_lets u
  refine State.SameReach.trans (t := u) (traceDrain_sameReach ..) ?_
  split
  · exact traceWrite_sameReach ..
  · split <;> exact trace_sameReach ..

theorem tracePart_sameReach (s : State) (type p qp : Nat) (ws : List Nat) : s.SameReach (s.tracePart type p qp ws) := by
  unfold State.tracePart
  split
  · exact traceEmit_sameReach ..
  · exact .refl s

/-! ## A draw, and the count of a pass -/

theorem countPass_sameReach (s : State) (j : Job) (n : Nat × Nat) : s.SameReach (s.countPass j n) :=
  .of_keeps (countPass_keeps (Touch.Le.refl _) (Keeps.refl _ s)) rfl rfl rfl

theorem noteDraw_sameReach (s : State) (j : Job) (e : Ent) (pos : Nat) (d : Draw) : s.SameReach (s.noteDraw j e pos d).1 := by
  unfold State.noteDraw
  extract_lets e w traced compared
  have here : s.SameReach compared :=
    (tracePart_sameReach ..).trans (.of_keeps (replayCompare_keeps (Touch.Le.refl _) (Keeps.refl _ traced)) rfl rfl rfl)
  clear_value compared
  change s.SameReach (ite _ _ _)
  split
  · exact here.trans (raise_sameReach ..)
  · exact here

end Sys2Proof.Machine
end

section
/-! SUPPORT. The commit of a walk (R204 step 5): which chunks of history it takes depends on the frames in use alone, and its
appends leave those. -/

namespace Sys2Proof.Machine

variable {s t u : State} {p uid i n : Nat} {j k : Job} {e e' : Ent} {g : Group}

/-! ## Frames in use (R151) -/

/-- What the search for a frame reads of a cache. -/
def Kv.framesUsed (k : Kv) : List (Nat × Nat) × List Nat × List (Nat × Nat) := (k.frames, k.ptMore, k.freed)

/-- In `t` a search for a frame finds what it finds in `s`, and the sequences are the same. -/
structure State.SameFrames (s t : State) : Prop where
  parts : ∀ p, (t.part p).granules = (s.part p).granules ∧ (t.part p).staging = (s.part p).staging
  count : t.kvs.length = s.kvs.length
  kvs : ∀ p, (t.kv p).framesUsed = (s.kv p).framesUsed
  slots : t.slots = s.slots
  seqs : t.seqs = s.seqs

theorem State.SameFrames.refl (s : State) : s.SameFrames s := ⟨fun _ => ⟨rfl, rfl⟩, rfl, fun _ => rfl, rfl, rfl⟩

theorem State.SameFrames.trans (h : s.SameFrames t) (k : t.SameFrames u) : s.SameFrames u :=
  ⟨fun p => ⟨(k.parts p).1.trans (h.parts p).1, (k.parts p).2.trans (h.parts p).2⟩, k.count.trans h.count,
    fun p => (k.kvs p).trans (h.kvs p), k.slots.trans h.slots, k.seqs.trans h.seqs⟩

theorem State.SameFrames.symm (h : s.SameFrames t) : t.SameFrames s :=
  ⟨fun p => ⟨(h.parts p).1.symm, (h.parts p).2.symm⟩, h.count.symm, fun p => (h.kvs p).symm, h.slots.symm, h.seqs.symm⟩

theorem State.SameFrames.of_eq (parts : t.parts = s.parts) (kvs : t.kvs = s.kvs) (slots : t.slots = s.slots)
    (seqs : t.seqs = s.seqs) : s.SameFrames t :=
  ⟨fun p => by rw [State.part, parts, State.part]; exact ⟨rfl, rfl⟩, by rw [kvs],
    fun p => by rw [State.kv, kvs, State.kv], slots, seqs⟩

theorem State.SameFrames.findFrame (h : s.SameFrames t) (p n : Nat) : t.findFrame p n = s.findFrame p n := by
  obtain ⟨granules, staging⟩ := h.parts p
  obtain ⟨frames, more, freed⟩ : (t.kv p).frames = (s.kv p).frames ∧ (t.kv p).ptMore = (s.kv p).ptMore ∧
      (t.kv p).freed = (s.kv p).freed := by
    simpa [Kv.framesUsed] using h.kvs p
  simp only [State.findFrame, State.frameGranules, State.reserve, granules, staging, frames, more, freed, h.slots]
  rfl

theorem State.SameFrames.modKv (h : s.SameFrames t) (p : Nat) {f : Kv → Kv}
    {f' : List (Nat × Nat) × List Nat × List (Nat × Nat) → List (Nat × Nat) × List Nat × List (Nat × Nat)}
    (shape : ∀ k : Kv, (f k).framesUsed = f' k.framesUsed) : (s.modKv p f).SameFrames (t.modKv p f) := by
  refine ⟨h.parts, by simpa [State.modKv] using h.count, fun q => ?_, h.slots, h.seqs⟩
  by_cases same : p = q
  · subst same
    by_cases there : p < s.kvs.length
    · rw [State.kv_modKv_same s f there, State.kv_modKv_same t f (h.count ▸ there), shape, shape, h.kvs]
    · rw [State.kv, State.kv, State.modKv_kvs, State.modKv_kvs, List.modify_eq_self (by rw [h.count]; omega),
        List.modify_eq_self (by omega)]
      exact h.kvs p
  · rw [State.kv_modKv_other s f same, State.kv_modKv_other t f same, h.kvs]

theorem State.SameFrames.modSeq (h : s.SameFrames t) (i : Nat) (f : Seq → Seq) : (s.modSeq i f).SameFrames (t.modSeq i f) :=
  ⟨h.parts, h.count, h.kvs, h.slots, by rw [State.modSeq, State.modSeq, h.seqs]⟩

/-- A change of a cache that leaves its frames. -/
theorem modKv_sameFrames (s : State) (p : Nat) {f : Kv → Kv} (same : ∀ k : Kv, (f k).framesUsed = k.framesUsed) :
    s.SameFrames (s.modKv p f) :=
  ⟨fun _ => ⟨rfl, rfl⟩, by simp [State.modKv], fun q => kv_modKv_field Kv.framesUsed same q, rfl, rfl⟩

theorem growHistory_isSome (h : s.SameFrames t) : (t.growHistory p i n).isSome = (s.growHistory p i n).isSome := by
  induction n generalizing s t with
  | zero => rfl
  | succ n ih =>
    simp only [State.growHistory, State.allocFrame, h.findFrame]
    cases s.findFrame p 0x10000 with
    | none => rfl
    | some a => exact ih ((h.modKv p (f' := fun k => ((a, 0x10000) :: k.1, k.2)) fun _ => rfl).modSeq i _)

theorem putTokens_isSome (h : s.SameFrames t) {at_ : Nat} {toks : List Nat} :
    (t.putTokens i at_ toks).isSome = (s.putTokens i at_ toks).isSome := by
  have same : t.seq? i = s.seq? i := by rw [State.seq?, h.seqs, State.seq?]
  rw [State.putTokens, State.putTokens, same]
  cases s.seq? i with
  | none => rfl
  | some q => simp only [Option.isSome_map, growHistory_isSome h]

/-! ## Appends -/

/-- A change of a partition's counters. -/
theorem modPart_ctr (s : State) (p : Nat) {f : Part → Part} (only : ∀ q : Part, ∃ c, f q = { q with ctr := c }) (m : Nat) :
    ∃ c, (s.modPart p f).part m = { s.part m with ctr := c } := by
  by_cases same : p = m
  · subst same
    by_cases there : p < s.parts.length
    · rw [State.part_modPart_same s f there]
      exact only _
    · refine ⟨(s.part p).ctr, ?_⟩
      rw [State.part, State.modPart_parts, List.modify_eq_self (by omega), State.part]
  · exact ⟨(s.part m).ctr, by rw [State.part_modPart_other s f same]⟩

/-- In `t` a job reaches, and a search for a frame finds, what it does in `s`. -/
def State.SamePlaces (s t : State) : Prop := s.SameReach t ∧ s.SameFrames t

theorem State.SamePlaces.refl (s : State) : s.SamePlaces s := ⟨.refl s, .refl s⟩

theorem State.SamePlaces.trans (h : s.SamePlaces t) (k : t.SamePlaces u) : s.SamePlaces u := ⟨h.1.trans k.1, h.2.trans k.2⟩

theorem modPart_samePlaces (s : State) (p : Nat) {f : Part → Part} (only : ∀ q : Part, ∃ c, f q = { q with ctr := c }) :
    s.SamePlaces (s.modPart p f) := by
  refine ⟨.of_parts (modPart_ctr s p only) rfl rfl, fun m => ?_, rfl, fun _ => rfl, rfl, rfl⟩
  obtain ⟨c, hc⟩ := modPart_ctr s p only m
  rw [hc]
  exact ⟨rfl, rfl⟩

theorem modKv_samePlaces (s : State) (p : Nat) {f : Kv → Kv} (same : ∀ k : Kv, (f k).framesUsed = k.framesUsed) :
    s.SamePlaces (s.modKv p f) :=
  ⟨.of_parts (fun _ => ⟨_, rfl⟩) rfl rfl, modKv_sameFrames s p same⟩

theorem takeUnit_samePlaces {b : Bool} (taken : s.takeUnit p = some (b, t)) : s.SamePlaces t := by
  simp only [State.takeUnit] at taken
  split at taken
  · cases taken
    exact modPart_samePlaces s p fun _ => ⟨_, rfl⟩
  · split at taken
    · cases taken
      exact modPart_samePlaces s p fun _ => ⟨_, rfl⟩
    · cases taken

theorem growGroup_samePlaces {fuel : Nat} {g' : Group} {b : Bool} (grown : s.growGroup p g n fuel = some (t, g', b)) :
    s.SamePlaces t := by
  induction fuel generalizing s g b with
  | zero =>
    simp only [State.growGroup] at grown
    split at grown
    · cases grown
      exact .refl _
    · cases grown
  | succ fuel ih =>
    simp only [State.growGroup] at grown
    split at grown
    · cases grown
      exact .refl _
    split at grown
    · cases grown
    next st u taken =>
      split at grown
      · cases grown
      next v h c further =>
        cases grown
        exact (takeUnit_samePlaces taken).trans (ih further)

theorem appendTok_samePlaces {seq layer head pos base d : Nat} {spec values b : Bool} {v : Nat × List Byte}
    (taken : s.appendTok p uid seq layer head pos base spec values d v = .ok t b) : s.SamePlaces t := by
  delta State.appendTok at taken
  extract_lets page old at_ toks undo at taken
  split at taken
  · cases taken
  extract_lets flushed at taken
  split at taken
  · cases taken
  split at taken
  · cases taken
  next u h c grown =>
    cases taken
    exact (growGroup_samePlaces grown).trans (modKv_samePlaces _ _ fun _ => rfl)

theorem appendPair_samePlaces {seq layer base d : Nat} {x : Pair} {b : Bool}
    (taken : s.appendPair p uid seq layer base d x = .ok t b) : s.SamePlaces t := by
  obtain ⟨u, a, c, keys, vals⟩ := appendPair_ok taken
  exact (appendTok_samePlaces keys).trans (appendTok_samePlaces vals)

/-! ## The commit of a walk -/

theorem freeUnits_samePlaces (s : State) (p sump stag : Nat) : s.SamePlaces (s.freeUnits p sump stag) :=
  modPart_samePlaces s p fun _ => ⟨_, rfl⟩

theorem dropGroup_samePlaces (s : State) (p : Nat) (g : Group) : s.SamePlaces (s.dropGroup p g) :=
  modKv_samePlaces s p fun _ => rfl

theorem dropGroups_sameReach (s : State) (p : Nat) (gs : List Group) : s.SameReach (s.dropGroups p gs) := by
  refine keepsFold (Q := s.SameReach) (.refl s) fun u g h => ?_
  have given := h.trans ((dropGroup_samePlaces u p g).trans (freeUnits_samePlaces _ p g.sump g.stag)).1
  dsimp only
  split
  · exact given.trans (.of_keeps (freeFrame_keeps (Touch.Le.refl _) (Keeps.refl _ _)) rfl rfl rfl)
  · exact given

theorem State.SameFrames.dropGroups (h : s.SameFrames t) (p : Nat) (gs : List Group) :
    (s.dropGroups p gs).SameFrames (t.dropGroups p gs) := by
  unfold State.dropGroups
  induction gs generalizing s t with
  | nil => exact h
  | cons g gs ih =>
    rw [List.foldl_cons, List.foldl_cons]
    refine ih ?_
    have given (s : State) := ((dropGroup_samePlaces s p g).trans (freeUnits_samePlaces _ p g.sump g.stag)).2
    have same := (given s).symm.trans (h.trans (given t))
    dsimp only
    split
    next a _ => exact same.modKv p (f' := fun k => (k.1.filter fun f => f.1 != a, k.2)) fun _ => rfl
    next => exact same

theorem quality_samePlaces (s : State) (staged : Bool) (uid : Nat) :
    s.SamePlaces (if staged then s.jobQuality uid qStaging else s) := by
  split
  · exact ⟨.of_parts (fun _ => ⟨_, rfl⟩) rfl rfl, .of_eq rfl rfl rfl rfl⟩
  · exact .refl s

/-- The speculative groups of an entry's sequence. -/
def State.drafts (s : State) (j : Job) (e : Ent) : List Group :=
  (s.kv j.part).groups.filter fun g => g.seq == e.seqIdx && g.spec

/-- A walk's commit writes the history in a state that has the places of the one without the drafts, and whose job may have
STAGING_USED. -/
theorem commitPath_places (s : State) (j : Job) (e : Ent) :
    ∃ u, (s.dropGroups j.part (s.drafts j e)).SamePlaces u ∧ State.Alters j.uid s u ∧
      s.commitPath j e =
        (u.putTokens e.seqIdx (e.oldLen + 1) e.pathTokens).map fun v => v.setLength e.seqIdx (e.oldLen + 1 + e.path.length) := by
  delta State.commitPath
  extract_lets specs dropped put committed
  have jobs : dropped.jobs = s.jobs := (dropGroups_keeps (Touch.Le.refl _) (Keeps.refl _ s)).jobs_eq rfl
  have one (u : State) (g : Group) (k d : Nat) (h : dropped.SamePlaces u ∧ State.Alters j.uid s u) :
      dropped.SamePlaces (put u g k d) ∧ State.Alters j.uid s (put u g k d) := by
    unfold put
    split
    · split
      next v staged taken =>
        have same := (appendPair_keeps (Touch.Le.refl _) (Keeps.refl _ u) v staged taken).jobs_eq rfl
        exact ⟨(h.1.trans (appendPair_samePlaces taken)).trans (quality_samePlaces ..),
          (h.2.trans (.of_jobs same)).trans (jobQuality_if_alters ..)⟩
      next => exact h
    · exact h
  have all : dropped.SamePlaces committed ∧ State.Alters j.uid s committed :=
    keepsFold (Q := fun u => dropped.SamePlaces u ∧ State.Alters j.uid s u) ⟨.refl _, .of_jobs jobs⟩ fun u g h =>
      keepsFold (Q := fun u => dropped.SamePlaces u ∧ State.Alters j.uid s u) h fun v (x : Nat × Nat) k => one v g x.2 x.1 k
  exact ⟨committed, all.1, all.2, rfl⟩

/-- Whether there are frames for a walk's history does not depend on the entry's draw, nor on what the draw leaves in the
trace. -/
theorem commitPath_isSome (h : s.SameFrames t) (kvs : t.kvs = s.kvs) (seq : e'.seqIdx = e.seqIdx) (len : e'.oldLen = e.oldLen)
    (path : e'.pathTokens = e.pathTokens) : (t.commitPath j e').isSome = (s.commitPath j e).isSome := by
  obtain ⟨u, places, -, committed⟩ := commitPath_places s j e
  obtain ⟨u', places', -, committed'⟩ := commitPath_places t j e'
  have drafts : t.drafts j e' = s.drafts j e := by simp only [State.drafts, State.kv, kvs, seq]
  rw [drafts] at places'
  rw [committed, committed', Option.isSome_map, Option.isSome_map, seq, len, path]
  exact putTokens_isSome (places.2.symm.trans ((h.dropGroups ..).trans places'.2))

theorem growHistory_sameReach (grown : s.growHistory p i n = some t) : s.SameReach t :=
  .of_keeps (growHistory_keeps (Touch.Le.refl _) (Keeps.refl _ s) t grown) rfl rfl rfl

theorem putTokens_sameReach {at_ : Nat} {toks : List Nat} (put : s.putTokens i at_ toks = some t) : s.SameReach t := by
  unfold State.putTokens at put
  split at put
  · cases put
    exact .refl _
  · obtain ⟨u, grown, rfl⟩ := Option.map_eq_some_iff.1 put
    refine (growHistory_sameReach grown).trans ?_
    split
    · exact .refl _
    · exact keepsFold (Q := u.SameReach) (.refl u) fun _ _ h => h.trans (store_sameReach ..)

/-- What a walk's commit leaves: the job's reach, its job but for STAGING_USED, and the sequence's length. -/
theorem commitPath_done (done : s.commitPath j e = some t) :
    s.SameReach t ∧ State.Alters j.uid s t ∧ t.lengthIs e.seqIdx (e.oldLen + 1 + e.path.length) := by
  obtain ⟨u, places, altered, committed⟩ := commitPath_places s j e
  obtain ⟨v, put, rfl⟩ := Option.map_eq_some_iff.1 (committed.symm.trans done)
  have jobs : (v.setLength e.seqIdx (e.oldLen + 1 + e.path.length)).jobs = u.jobs :=
    ((setLength_keeps (Touch.Le.refl _) (Keeps.refl _ v)).jobs_eq rfl).trans
      ((putTokens_keeps (Touch.Le.refl _) (Keeps.refl _ u) v put).jobs_eq rfl)
  exact ⟨(dropGroups_sameReach ..).trans (places.1.trans ((putTokens_sameReach put).trans
      (.of_keeps (setLength_keeps (Touch.Le.refl _) (Keeps.refl _ v)) rfl rfl rfl))),
    altered.trans (.of_jobs jobs), setLength_lengthIs _ _ _⟩

end Sys2Proof.Machine
end

section
/-! O28: a draw of the sampler (R191, R204 to R210) for a job of one entry: what it reads after the pass is counted, and what the
result of the entry leaves. -/

namespace Sys2Proof.Machine

variable {s t v w : State} {uid op k i : Nat} {since : Option Nat} {j l : Job} {m : Slot} {e : Ent}

/-! ## The count of the pass -/

/-- The count of a pass changes engines only. -/
theorem countPass_engines (s : State) (j : Job) (n : Nat × Nat) : ∃ g, s.countPass j n = { s with engines := g } := by
  unfold State.countPass
  split
  · exact ⟨_, rfl⟩
  · exact ⟨_, rfl⟩

theorem blocked_engines (s : State) (j : Job) (g : List Engine) {a n : Nat} :
    ({ s with engines := g }).blocked j a n = none ↔ s.blocked j a n = none := by
  rw [blocked_eq_none_iff, blocked_eq_none_iff, blockedOut_eq_none_iff, blockedOut_eq_none_iff]
  exact Iff.rfl

theorem anyBlocked_engines (s : State) (j : Job) (g : List Engine) {rs : List (Nat × Nat)} (free : s.anyBlocked j rs = none) :
    ({ s with engines := g }).anyBlocked j rs = none := by
  induction rs with
  | nil => rfl
  | cons r rs ih =>
    unfold State.anyBlocked at free ⊢
    split at free
    · cases free
    next first => rw [(blocked_engines s j g).2 first, ih free]

theorem samplerBlocked_engines (s : State) (j : Job) (g : List Engine) {vocab a : Nat}
    (free : s.samplerBlocked j vocab a = none) :
    ({ s with engines := g }).samplerBlocked j vocab a = none := by
  unfold State.samplerBlocked at free ⊢
  split at free
  next zero => rw [if_pos zero]
  next named =>
    rw [if_neg named]
    split at free
    · cases free
    next first =>
      rw [(blocked_engines s j g).2 first]
      exact anyBlocked_engines s j g free

/-! ## The entry's turn -/

theorem exec_samplerDraw (h : s.drawsFor uid op j m e k i since) : exec (.samplerDraw uid) s = .next (s.drawEnt j m [e] k e) := by
  obtain ⟨⟨⟨found, rfl, running, unfinished, -⟩, ext, slot⟩, serving, idle, undone, ready⟩ := h
  simp [exec, execSamplerDraw, found, ext, slot, serving, running, unfinished, idle, undone, ready]

/-- The entry after a draw. -/
def Ent.drawn (e : Ent) (d : Draw) : Ent :=
  { e with token := d.token.getD 0, tokenValid := d.token.isSome, allMasked := d.token.isNone, nanLogits := e.nanLogits || d.nan }

/-- The entry once the walk has moved to draft `c`. -/
def Ent.moved (e : Ent) (d : Draw) (c : Nat) : Ent := { e.drawn d with path := e.path ++ [c], node := some c }

/-- A job's only entry is replaced. -/
theorem putEnt_only {x : Ent} (same : x.index = e.index) : putEnt [e] x = [x] := by simp [putEnt, same]

theorem readyToDraw_quiet (quiet : e.logits = false) {x : List F32}
    (free : e.sample = true → s.samplerBlocked j m.manifest.vocab e.samplerAddr = none) : s.readyToDraw j m e x = .inl s := by
  unfold State.readyToDraw State.writeLogits
  rw [quiet]
  cases sample : e.sample with
  | false => rfl
  | true => simp [free sample]

/-- The draw of an entry in a state. -/
def State.drawOf (s : State) (op : Nat) (m : Slot) (e : Ent) : Draw := s.drawFor e (Ent.drawPos op e) (logitsOf m op e)

/-- The state after the draw of an entry without LOGITS is noted. -/
def State.drawnState (s : State) (j : Job) (m : Slot) (e : Ent) : State :=
  ((s.countPass j (Config.netSats m.digest m.manifest.layers [finalRow j.opcode e])).noteDraw j e (Ent.drawPos j.opcode e)
    (s.drawOf j.opcode m e)).1

/-- An entry without LOGITS that draws: the walk goes on, or its result is written. -/
theorem drawEnt_draws (quiet : e.logits = false)
    (free : e.sample = true → s.samplerBlocked j m.manifest.vocab e.samplerAddr = none)
    (draws : e.sample = true ∨ j.opcode = 0x05) :
    s.drawEnt j m [e] k e =
      match if j.opcode == 0x05 && (s.drawOf j.opcode m e).token.isSome then e.child ((s.drawOf j.opcode m e).token.getD 0)
        else none with
      | some c => (s.drawnState j m e).setServe j.uid
          (putEnt [e] (e.moved (s.drawOf j.opcode m e) c)) k 0
      | none => (s.drawnState j m e).endEnt j [e] k (e.drawn (s.drawOf j.opcode m e)) := by
  obtain ⟨g, counted⟩ := countPass_engines s j (Config.netSats m.digest m.manifest.layers [finalRow j.opcode e])
  have ready := readyToDraw_quiet (s := { s with engines := g }) (j := j) (m := m) (x := logitsOf m j.opcode e) quiet
    fun sample => samplerBlocked_engines s j g (free sample)
  have draw : (!e.sample && j.opcode != 0x05) = false := by rcases draws with h | h <;> simp [h]
  unfold State.drawEnt State.drawnState
  rw [counted]
  dsimp only
  rw [ready]
  dsimp only
  rw [draw, if_neg Bool.false_ne_true]
  rfl

theorem drawnState_keeps (s : State) (j : Job) (m : Slot) (e : Ent) :
    Keeps ⟨Touch.nothing.engines.mems.dram.trace.replay.record, s⟩ (s.drawnState j m e) :=
  noteDraw_keeps (Touch.Le.refl _) (countPass_keeps rfl (Keeps.refl _ s))

theorem drawnState_sameReach (s : State) (j : Job) (m : Slot) (e : Ent) : s.SameReach (s.drawnState j m e) :=
  (countPass_sameReach ..).trans (noteDraw_sameReach ..)

/-! ## The entry's result (R191, R210) -/

/-- The address of the entry's result. -/
def Ent.resultAt (e : Ent) (j : Job) : Nat := dOut j.words + 32 * e.index

/-- The state once the result of a job's only entry is written in `w`. -/
def State.ended (w : State) (j : Job) (k : Nat) (e : Ent) : State :=
  ((w.storeWords (e.resultAt j) (w.resultWords e)).setServe j.uid [{ e with done := true }] k 0).finishUid j.uid
    (e.token + 2 ^ 18 * b2n e.tokenValid)

theorem endEnt_single {e₀ : Ent} (same : e.index = e₀.index)
    (commit : (if j.opcode == 0x05 then v.commitPath j e else some v) = some w)
    (free : w.blockedOut j (e.resultAt j) 32 = none) : v.endEnt j [e₀] k e = w.ended j k e := by
  have only : putEnt [e₀] { e with done := true } = [{ e with done := true }] := putEnt_only same
  rw [Ent.resultAt] at free
  unfold State.endEnt
  rw [commit]
  dsimp only
  rw [free, only]
  rfl

theorem ended_recordWaits (found : w.job? j.uid = some l) (like : Job.Like j l) (will : w.WillRecord j) (now : w.now = s.now) :
    (w.ended j k e).recordWaits j (j.endStatus s.now) (e.token + 2 ^ 18 * b2n e.tokenValid) := by
  have stored : Keeps ⟨Touch.nothing.mems.dram.record, w⟩ (w.storeWords (e.resultAt j) (w.resultWords e)) :=
    storeWords_keeps rfl (Keeps.refl _ w)
  obtain ⟨l', found', like'⟩ := (State.Alters.ext (w.storeWords (e.resultAt j) (w.resultWords e)) j.uid
    (.serve [{ e with done := true }] k 0 none)).job?_same ((State.job?_congr (stored.jobs_eq rfl) _).trans found)
  have waits := finishUid_recordWaits found' (like.trans like') (will.of_qps (stored.qps_eq rfl))
    (e.token + 2 ^ 18 * b2n e.tokenValid)
  have time : (w.storeWords (e.resultAt j) (w.resultWords e)).now = s.now := (stored.now_eq rfl).trans now
  rw [← time]
  exact waits

theorem ended_keeps (w : State) (j : Job) (k : Nat) (e : Ent) :
    Keeps ⟨Touch.nothing.jobs.free.qps.engines.counters.ctrBlocks.kvs.slots, w.storeWords (e.resultAt j) (w.resultWords e)⟩
      (w.ended j k e) :=
  finishUid_keeps rfl (setServe_keeps rfl (Keeps.refl _ _))

theorem ended_seqs (w : State) (j : Job) (k : Nat) (e : Ent) : (w.ended j k e).seqs = w.seqs :=
  ((ended_keeps w j k e).seqs_eq rfl).trans
    ((storeWords_keeps (Touch.Le.refl _) (Keeps.refl _ w)).seqs_eq rfl)

theorem ended_word (w : State) (j : Job) (k : Nat) (e : Ent) :
    (w.ended j k e).readN (e.resultAt j + 4) 4 =
      (e.token + 2 ^ 18 * b2n e.tokenValid + 2 ^ 19 * b2n e.allMasked + 2 ^ 20 * b2n e.nanLogits) % 2 ^ 32 := by
  have back : (w.ended j k e).wordsAt (e.resultAt j) 8 = (w.resultWords e).map (· % 2 ^ 32) :=
    (wordsAt_congr ((ended_keeps w j k e).mems_eq rfl) ..).trans (storeWords_wordsAt w (e.resultAt j) (w.resultWords e))
  have second := congrArg (·[1]?) back
  simpa [State.wordsAt, State.resultWords] using second

/-! ## The three cases -/

theorem answers_drawn (h : s.drawsFor uid op j m e k i since) (hr : s.recorded j) (plain : op ≠ 0x05) (sample : e.sample = true)
    (free : s.samplerBlocked j m.manifest.vocab e.samplerAddr = none) (quiet : e.logits = false)
    (writes : s.blockedOut j (e.resultAt j) 32 = none) :
    answers (.samplerDraw uid) s fun u =>
      u = (s.drawnState j m e).ended j k (e.drawn (s.drawOf op m e)) ∧
      u.recordWaits j (j.endStatus s.now)
        ((s.drawOf op m e).token.getD 0 + 2 ^ 18 * b2n (s.drawOf op m e).token.isSome) := by
  obtain ⟨⟨⟨found, rfl, -⟩, -⟩, -⟩ := id h
  obtain rfl := State.job?_uid found
  have other : (j.opcode == 0x05) = false := by simpa using plain
  have kept := drawnState_keeps s j m e
  have ran := drawEnt_draws (k := k) quiet (fun _ => free) (.inl sample)
  rw [other, Bool.false_and, if_neg Bool.false_ne_true] at ran
  have ended := endEnt_single (k := k) (j := j) (v := s.drawnState j m e) (w := s.drawnState j m e) (e₀ := e)
    (e := e.drawn (s.drawOf j.opcode m e)) rfl (by rw [other, if_neg Bool.false_ne_true])
    ((drawnState_sameReach s j m e).blockedOut writes)
  exact answers_of ((exec_samplerDraw h).trans (congrArg _ (ran.trans ended))) ⟨rfl,
    ended_recordWaits ((State.job?_congr (kept.jobs_eq rfl) _).trans found) (.refl j)
      (hr.willRecord.of_qps (kept.qps_eq rfl)) (kept.now_eq rfl)⟩

theorem logitsOf_length (m : Slot) (op : Nat) (e : Ent) : (logitsOf m op e).length = m.manifest.vocab := by
  rw [logitsOf, headLogits, fitRow, List.length_map, List.length_range]

theorem f32Bytes_length (x : List F32) : (f32Bytes x).length = 4 * x.length := by
  induction x with
  | nil => rfl
  | cons v x ih =>
    rw [f32Bytes, List.flatMap_cons, List.length_append, leBytes_length, List.length_cons, ← f32Bytes, ih]
    omega

theorem answers_undrawn (h : s.drawsFor uid op j m e k i since) (hr : s.recorded j) (plain : op ≠ 0x05)
    (sample : e.sample = false) (loud : e.logits = true) (root : e.path = [])
    (room : s.blockedOut j e.logitsAddr (4 * m.manifest.vocab) = none)
    (writes : s.blockedOut j (e.resultAt j) 32 = none)
    (apart : e.resultAt j + 32 ≤ e.logitsAddr ∨ e.logitsAddr + 4 * m.manifest.vocab ≤ e.resultAt j) :
    answers (.samplerDraw uid) s fun u =>
      u.recordWaits j (j.endStatus s.now) (e.token + 2 ^ 18 * b2n e.tokenValid) ∧
      u.bytesAt e.logitsAddr (4 * m.manifest.vocab) = f32Bytes (logitsOf m op e) := by
  obtain ⟨⟨⟨found, rfl, -⟩, -⟩, -⟩ := id h
  obtain rfl := State.job?_uid found
  have other : (j.opcode == 0x05) = false := by simpa using plain
  have len : (f32Bytes (logitsOf m j.opcode e)).length = 4 * m.manifest.vocab := by rw [f32Bytes_length, logitsOf_length]
  generalize counted : s.countPass j (Config.netSats m.digest m.manifest.layers [finalRow j.opcode e]) = t
  have reach : s.SameReach t := counted ▸ countPass_sameReach ..
  have kept : Keeps ⟨Touch.nothing.engines.mems.dram.record, s⟩ (t.store e.logitsAddr (f32Bytes (logitsOf m j.opcode e))) :=
    store_keeps (Touch.Le.refl _) (counted ▸ countPass_keeps rfl (Keeps.refl _ s))
  have ready : t.readyToDraw j m e (logitsOf m j.opcode e) = .inl (t.store e.logitsAddr (f32Bytes (logitsOf m j.opcode e))) := by
    simp [State.readyToDraw, State.writeLogits, loud, root, sample, logitsOf_length, reach.blockedOut room]
  have ran : s.drawEnt j m [e] k e =
      (t.store e.logitsAddr (f32Bytes (logitsOf m j.opcode e))).ended j k e := by
    refine Eq.trans ?_ (endEnt_single (v := t.store e.logitsAddr (f32Bytes (logitsOf m j.opcode e))) (e₀ := e) rfl
      (by rw [other, if_neg Bool.false_ne_true]) ((reach.trans (store_sameReach ..)).blockedOut writes))
    simp [State.drawEnt, counted, ready, sample, plain]
  refine answers_of ((exec_samplerDraw h).trans (congrArg _ ran)) ⟨?_, ?_⟩
  · exact ended_recordWaits ((State.job?_congr (kept.jobs_eq rfl) _).trans found) (.refl j)
      (hr.willRecord.of_qps (kept.qps_eq rfl)) (kept.now_eq rfl)
  · have words : (State.resultWords (t.store e.logitsAddr (f32Bytes (logitsOf m j.opcode e))) e).length = 8 := rfl
    rw [bytesAt_congr ((ended_keeps ..).mems_eq rfl), storeWords_bytesAt_apart _ (by rw [words]; omega), ← len, store_bytesAt]

/-- The child of the present node that a draw is for. -/
theorem next_child (d : Draw) : (if d.token.isSome then e.child (d.token.getD 0) else none) = d.token.bind e.child := by
  cases d.token <;> rfl

theorem answers_walk (h : s.drawsFor uid 0x05 j m e k i since) (hr : s.recorded j) (quiet : e.logits = false)
    (free : e.sample = true → s.samplerBlocked j m.manifest.vocab e.samplerAddr = none)
    (writes : s.blockedOut j (e.resultAt j) 32 = none) (frames : (s.commitPath j e).isSome = true) :
    answers (.samplerDraw uid) s fun u =>
      match (s.drawOf 0x05 m e).token.bind e.child with
      | some c => ∃ i x, u.job? uid = some i ∧ i.finished = false ∧ i.ext = .serve [x] k 0 none ∧ x.path = e.path ++ [c] ∧
          x.node = some c ∧ x.done = false
      | none => u.recordWaits j (j.endStatus s.now)
            ((s.drawOf 0x05 m e).token.getD 0 + 2 ^ 18 * b2n (s.drawOf 0x05 m e).token.isSome) ∧
          ∀ q ∈ u.seqs, q.idx = e.seqIdx → q.len = e.oldLen + 1 + e.path.length := by
  obtain ⟨⟨⟨found, isVerify, -, unfinished, -⟩, -⟩, -, -, undone, -⟩ := id h
  obtain rfl := State.job?_uid found
  have kept := drawnState_keeps s j m e
  have found' := (State.job?_congr (kept.jobs_eq rfl) _).trans found
  have ran := drawEnt_draws (k := k) quiet free (.inr isVerify)
  rw [isVerify, beq_self_eq_true, Bool.true_and, next_child] at ran
  refine answers_of ((exec_samplerDraw h).trans (congrArg _ ran)) ?_
  cases child : (s.drawOf 0x05 m e).token.bind e.child with
  | some c =>
    have only : putEnt [e] (e.moved (s.drawOf 0x05 m e) c) = [e.moved (s.drawOf 0x05 m e) c] := putEnt_only rfl
    dsimp only
    rw [only]
    exact ⟨_, _, setServe_job? found' .., unfinished, rfl, rfl, rfl, undone⟩
  | none =>
    have same : s.SameFrames (s.drawnState j m e) :=
      .of_eq (kept.parts_eq rfl) (kept.kvs_eq rfl) (kept.slots_eq rfl) (kept.seqs_eq rfl)
    have fits : ((s.drawnState j m e).commitPath j (e.drawn (s.drawOf 0x05 m e))).isSome = true :=
      (commitPath_isSome same (kept.kvs_eq rfl) rfl rfl rfl).trans frames
    obtain ⟨w, committed⟩ := Option.isSome_iff_exists.1 fits
    obtain ⟨reach, altered, lengths⟩ := commitPath_done committed
    obtain ⟨l, found'', like⟩ := altered.job?_same found'
    have touched := commitPath_keeps (Touch.Le.refl _) (Keeps.refl _ (s.drawnState j m e)) w committed
    have ended := endEnt_single (k := k) (e₀ := e) (e := e.drawn (s.drawOf 0x05 m e)) (j := j)
      (v := s.drawnState j m e) (w := w) rfl (by rw [isVerify]; exact committed) (((drawnState_sameReach s j m e).trans reach).blockedOut writes)
    dsimp only
    rw [ended]
    refine ⟨ended_recordWaits found'' like ?_ ((touched.now_eq rfl).trans (kept.now_eq rfl)), ?_⟩
    · exact hr.willRecord.of_qps ((touched.qps_eq rfl).trans (kept.qps_eq rfl))
    · rw [ended_seqs]
      exact lengths

/-- Settles O28: counting the pass and noting the draw leave what the job reaches and the frames in use, so the result is written
where it could be written before, and a walk that had frames for its history still has them. -/
theorem samplerDrawsAndWritesResults : Obligations.SamplerDrawsAndWritesResults := by
  unfold Obligations.SamplerDrawsAndWritesResults
  refine ⟨fun uid op k i since j m e s h hr plain sample free quiet writes => ?_,
    fun uid op k i since j m e s h hr plain sample loud root room writes apart =>
      answers_undrawn h hr plain sample loud root room writes apart,
    fun uid k i since j m e s h hr quiet free writes frames => answers_walk h hr quiet free writes frames⟩
  obtain ⟨u, ran, rfl, waits⟩ := answers_drawn h hr plain sample free quiet writes
  exact ⟨_, ran, waits, ended_word ..⟩

end Sys2Proof.Machine
end

section
/-! SUPPORT. What a job reaches once it has begun (R34, R143): groups that go back into units change its partition's counters
only. -/

namespace Sys2Proof.Machine

variable {s t : State} {p uid op : Nat} {j : Job} {g : Group}

theorem unpark_sameReach {staged : Bool} (back : s.unpark p g = some (t, staged)) : s.SameReach t := by
  unfold State.unpark at back
  split at back
  · cases back
    exact .refl s
  · split at back
    · cases back
    next u h c grown =>
      cases back
      exact ((dropGroup_samePlaces s p g).trans (growGroup_samePlaces grown)).1.trans (.of_parts (fun _ => ⟨_, rfl⟩) rfl rfl)

theorem unparkSeqs_sameReach {seqs : List Nat} (back : s.unparkSeqs p uid seqs = some t) : s.SameReach t := by
  have each : KOpt s.SameReach (s.unparkSeqs p uid seqs) := by
    refine keepsFold (Q := KOpt s.SameReach) (KOpt.some (.refl s)) fun o g reached => ?_
    refine KOpt.bind reached fun u hu => ?_
    refine KOpt.map (Q := fun r : State × Bool => u.SameReach r.1) (fun r moved => unpark_sameReach moved) fun r hr => ?_
    split
    · exact (hu.trans hr).trans (.of_keeps (jobQuality_keeps (Touch.Le.refl _) (Keeps.refl _ r.1)) rfl rfl rfl)
    · exact hu.trans hr
  exact each t back

theorem State.Entered.sameReach (h : s.Entered uid op j t) : s.SameReach t := by
  have starting := h.starting
  simp only [State.starting, h.found] at starting
  split at starting
  next =>
    split at starting
    next => cases starting
    next u begun =>
      cases starting
      obtain ⟨v, given, back⟩ := Option.bind_eq_some_iff.1 begun
      have counted : s.SameReach v := .of_keeps (giveCounters_keeps (Touch.Le.refl _) (Keeps.refl _ s) v given) rfl rfl rfl
      exact (counted.trans (unparkSeqs_sameReach back)).trans
        (.of_keeps (run_keeps (Touch.Le.refl _) (Keeps.refl _ u)) rfl rfl rfl)
  next => cases starting

theorem State.SameReach.inDram (h : s.SameReach t) (p a n : Nat) : t.inDram p a n = s.inDram p a n := by
  obtain ⟨c, hc⟩ := h.parts p
  simp only [State.inDram, State.granuleOwned, hc, h.backed]

end Sys2Proof.Machine
end

section
/-! SUPPORT. The header of a training state (R216): what is written in it reads back, and what leaves it as it is. -/

namespace Sys2Proof.Machine

variable {s t : State} {a c n : Nat} {b : List Nat} {m : Slot} {h : TrainHead}

/-! ## Words of memory (R4) -/

theorem storeWords_readN_apart (s : State) {ws : List Nat} (apart : c + n ≤ a ∨ a + 4 * ws.length ≤ c) :
    (s.storeWords a ws).readN c n = s.readN c n := by
  rw [State.readN, storeWords_bytesAt_apart s apart, State.readN]

theorem storeWords_wordsAt_apart (s : State) {ws : List Nat} (apart : c + 4 * n ≤ a ∨ a + 4 * ws.length ≤ c) :
    (s.storeWords a ws).wordsAt c n = s.wordsAt c n := by
  refine List.map_congr_left fun i hi => storeWords_readN_apart s ?_
  have := List.mem_range.1 hi
  omega

theorem wordsAt_take (s : State) (a : Nat) {k n : Nat} (fewer : k ≤ n) : (s.wordsAt a n).take k = s.wordsAt a k := by
  rw [State.wordsAt, ← List.map_take, List.take_range, Nat.min_eq_left fewer, State.wordsAt]

/-! ## The header (R216) -/

/-- The sixteen words of a header. -/
def TrainHead.words (h : TrainHead) (m : Slot) (b : List Nat) : List Nat :=
  imageTag m ++ [h.step % 2 ^ 32, h.step / 2 ^ 32 % 2 ^ 32, h.epoch, h.next, h.pow1.toNat, h.pow2.toNat,
    h.active + 2 * tbTrain b + 16 * tbRank b, layerWord b, copyBytesOf m b % 2 ^ 32, copyBytesOf m b / 2 ^ 32, 0, 0, 0, 0]

theorem putTrainHead_trainHeader (s : State) (m : Slot) (b : List Nat) (h : TrainHead) :
    (s.putTrainHead m b h).trainHeader b = (h.words m b).map (· % 2 ^ 32) :=
  storeWords_wordsAt s (tbState b) (h.words m b)

theorem trainHead_congr (mems : t.mems = s.mems) (b : List Nat) : t.trainHead b = s.trainHead b := by
  simp only [State.trainHead, State.trainHeader, wordsAt_congr mems]

/-- A write that does not touch the header leaves it. -/
theorem storeWords_trainHead_apart (s : State) {ws : List Nat} (apart : tbState b + 64 ≤ a ∨ a + 4 * ws.length ≤ tbState b) :
    (s.storeWords a ws).trainHead b = s.trainHead b := by
  simp only [State.trainHead, State.trainHeader, storeWords_wordsAt_apart s (n := 16) apart]

/-- The header's next batch and epoch are those of `h`. -/
def TrainHead.At (k h : TrainHead) : Prop := k.next = h.next ∧ k.epoch = h.epoch

theorem putTrainHead_at (s : State) (m : Slot) (next : h.next < 2 ^ 32) (epoch : h.epoch < 2 ^ 32) :
    ((s.putTrainHead m b h).trainHead b).At h := by
  rw [TrainHead.At, State.trainHead, putTrainHead_trainHeader]
  exact ⟨Nat.mod_eq_of_lt next, Nat.mod_eq_of_lt epoch⟩

/-- Each word of the tag is that of four bytes of the digest. -/
theorem imageTag_words (m : Slot) : (imageTag m).map (· % 2 ^ 32) = imageTag m := by
  refine (List.map_congr_left fun w hw => ?_).trans (List.map_id _)
  obtain ⟨i, -, rfl⟩ := List.mem_map.1 hw
  generalize (m.digest.take 8).drop (4 * i) = bs
  have fits : 256 ^ (bs.take 4).length ≤ 256 ^ 4 := Nat.pow_le_pow_right (by decide) (List.length_take_le 4 bs)
  exact Nat.mod_eq_of_lt ((leNat_lt _).trans_le fits)

/-- The first six words of a header that is written: the tag, the step, the epoch and the next batch. -/
theorem putTrainHead_start (s : State) (m : Slot) (next : h.next < 2 ^ 32) (epoch : h.epoch < 2 ^ 32) (step : h.step = 0) :
    (s.putTrainHead m b h).wordsAt (tbState b) 6 = imageTag m ++ [0, 0, h.epoch, h.next] := by
  rw [← wordsAt_take _ _ (show 6 ≤ 16 by decide), ← State.trainHeader, putTrainHead_trainHeader, TrainHead.words,
    List.map_append, imageTag_words]
  refine (List.take_length_add_append (l₁ := imageTag m) 4).trans ?_
  simpa [step] using And.intro epoch next

/-- INIT writes the header last (R215, R219). -/
theorem initTrain_start (s : State) (m : Slot) (epoch : tbStartEpoch b < 2 ^ 32) (next : tbStartBatch b < 2 ^ 32) :
    (s.initTrain m b).wordsAt (tbState b) 6 = imageTag m ++ [0, 0, tbStartEpoch b, tbStartBatch b] :=
  putTrainHead_start
    (h := { step := 0, epoch := tbStartEpoch b, next := tbStartBatch b, pow1 := f32One, pow2 := f32One, active := 0 })
    _ m next epoch rfl

/-! ## The next batch (R222, R226) -/

theorem epochBatches_lt (b : List Nat) : epochBatches b < 2 ^ 32 := by
  have samples : tbSamples b < 2 ^ 25 := bits_lt 24 0 _
  have batch : tbBatch b < 2 ^ 9 := bits_lt 28 20 _
  have := Nat.div_le_self (tbSamples b + tbBatch b - 1) (tbBatch b)
  rw [epochBatches, ceilDiv]
  omega

/-- The advanced place in the epoch fits its two words. -/
theorem advance_fits (b : List Nat) (epoch : h.epoch < 2 ^ 32) : (h.advance b).next < 2 ^ 32 ∧ (h.advance b).epoch < 2 ^ 32 := by
  have batches := epochBatches_lt b
  unfold TrainHead.advance
  split
  next => exact ⟨Nat.two_pow_pos 32, Nat.mod_lt _ (Nat.two_pow_pos 32)⟩
  next more => exact ⟨(not_le.1 more).trans batches, epoch⟩

theorem trainHead_epoch_lt (s : State) (b : List Nat) : (s.trainHead b).epoch < 2 ^ 32 :=
  wordAt_wordsAt_lt s (tbState b) 16 4

end Sys2Proof.Machine
end

section
/-! SUPPORT. TRAIN_STEP (R214 to R219): a block that is refused, and a good one that starts from INIT_ADDR. -/

namespace Sys2Proof.Machine

variable {s t : State} {uid p st r : Nat} {b : List Nat} {j : Job} {m : Slot}

theorem exec_trainStep (start : s.Entered uid 0x0C j t) (fresh : j.ext = .none) :
    exec (.trainStep uid) s = .next (t.startTrain j) := by
  simp only [exec, execTrainStep, start.starting, fresh]

/-! ## The checks (R214, R218, R219) -/

/-- A check that refuses with an error, before others that do. -/
theorem error_or_else {c : Prop} [Decidable c] {o : Option (Nat × Nat)} (error : st ≠ 0) (rest : KOpt (·.1 ≠ 0) o) :
    KOpt (·.1 ≠ 0) (if c then some (st, r) else o) := by
  split
  · exact KOpt.some error
  · exact rest

theorem trainRefused_error (refused : s.trainRefused p m b = some (st, r)) : st ≠ 0 := by
  have checks : KOpt (·.1 ≠ 0) (s.trainRefused p m b) :=
    error_or_else (by decide) <| error_or_else (by decide) <| error_or_else (by decide) <| error_or_else (by decide) <|
      error_or_else (by decide) <| error_or_else (by decide) KOpt.none
  exact checks _ refused

/-- A block that meets every check and starts from INIT_ADDR is not refused. -/
theorem trainRefused_none (fields : trainFields m b = true)
    (regions : ((trainRegions m b).all fun r => r.2 == 0 || s.inDram p r.1 r.2) = true)
    (clear : ((trainRegions m b).any fun r => s.onImage r.1 r.2) = false)
    (apart : apart (tbState b, 256 + 2 * copyBytesOf m b) (tbWorkAddr b, tbWorkMib b * 2 ^ 20) = true)
    (init : tbInit b = true) (room : workNeed m b ≤ tbWorkMib b) : s.trainRefused p m b = none := by
  have regions' : ((trainRegions m b).all fun r => decide (r.2 = 0) || s.inDram p r.1 r.2) = true := regions
  simp only [State.trainRefused, fields, regions', clear, apart, init, Bool.not_true, Bool.false_and, Bool.false_eq_true, if_false,
    if_neg (not_lt.2 room)]

/-! ## The start -/

section
variable (reads : t.blocked j (dArg j.words) 128 = none) (writes : t.blockedOut j (dOut j.words) (8 * dCount j.words) = none)
  (slot : t.namedSlot j.part (dSlot j.words) = .inl m)
include reads writes slot

theorem startTrain_refused (refused : t.trainRefused j.part m (t.trainBlock j) = some (st, r)) :
    t.startTrain j = t.failJob j.uid st r := by
  simp only [State.startTrain, reads, writes, slot, Option.or_none, refused]

theorem startTrain_initialises (good : t.trainRefused j.part m (t.trainBlock j) = none) (init : tbInit (t.trainBlock j) = true)
    (masters : t.blocked j (tbInitAddr (t.trainBlock j)) (masterBytes m (t.trainBlock j)) = none) :
    t.startTrain j = (t.initTrain m (t.trainBlock j)).modJob j.uid fun j =>
      { j with ext := .train { started := true, batches := 0 } } := by
  simp only [State.startTrain, reads, writes, slot, Option.or_none, good, init, if_true, masters]

theorem answers_trainStep_refused (start : s.Entered uid 0x0C j t) (hr : s.recorded j) (fresh : j.ext = .none)
    (refused : t.trainRefused j.part m (t.trainBlock j) = some (st, r)) :
    answers (.trainStep uid) s fun u => u.recordWaits j (firstError j.status st) r := by
  obtain rfl := start.isUid
  obtain ⟨e, quality, ctrs, running⟩ := start.running
  obtain ⟨-, spoken, loud, unfinished, -⟩ := id hr
  refine answers_of ((exec_trainStep start fresh).trans (congrArg _ (startTrain_refused reads writes slot refused))) ?_
  exact failJob_recordWaits
    (j := { j with state := .running, unitWait := none, epoch := e, quality := quality, ctrs := ctrs })
    ⟨running, spoken, loud, unfinished, (hr.willRecord.of_qps (start.kept.qps_eq rfl)).enabled⟩ (trainRefused_error refused) r

/-- The job stands at batch 0, and the state that INIT makes starts where the block says. -/
theorem answers_trainStep_initialises (start : s.Entered uid 0x0C j t) (fresh : j.ext = .none)
    (good : t.trainRefused j.part m (t.trainBlock j) = none) (init : tbInit (t.trainBlock j) = true)
    (masters : t.blocked j (tbInitAddr (t.trainBlock j)) (masterBytes m (t.trainBlock j)) = none) :
    answers (.trainStep uid) s fun u =>
      (∃ k, u.job? uid = some k ∧ k.state = .running ∧ k.ext = .train { started := true, batches := 0 }) ∧
        u.wordsAt (tbState (t.trainBlock j)) 6 =
          imageTag m ++ [0, 0, tbStartEpoch (t.trainBlock j), tbStartBatch (t.trainBlock j)] := by
  obtain rfl := start.isUid
  obtain ⟨e, quality, ctrs, running⟩ := start.running
  have kept : Keeps ⟨Touch.nothing.mems.dram.record, t⟩ (t.initTrain m (t.trainBlock j)) :=
    initTrain_keeps (Touch.Le.refl _) (Keeps.refl _ t)
  have found : (t.initTrain m (t.trainBlock j)).job? j.uid = _ := (State.job?_congr (kept.jobs_eq rfl) _).trans running
  refine answers_of
    ((exec_trainStep start fresh).trans (congrArg _ (startTrain_initialises reads writes slot good init masters))) ⟨?_, ?_⟩
  · rw [State.job_modJob_same _ _ _ (by exact fun _ => rfl), found]
    exact ⟨_, rfl, rfl, rfl⟩
  · rw [wordsAt_congr (State.modJob_mems ..)]
    exact initTrain_start t m (wordAt_wordsAt_lt t _ 32 9) (wordAt_wordsAt_lt t _ 32 10)

end

end Sys2Proof.Machine
end

section
/-! O32: one batch of a TRAIN_STEP (R222 to R226), and the statement. -/

namespace Sys2Proof.Machine

variable {s t : State} {uid done : Nat} {b : List Nat} {j : Job} {m : Slot} {h : TrainHead} {rows : List Row} {r : TrainSt}

/-- The targets of a batch. -/
def targetCount (rows : List Row) : Nat := (rows.map fun r => r.targets.length).sum

/-- What a batch computes from the passes of its rows: the state after it, LOSS, and whether it was non-finite. Without targets
only the work area and the header are written. -/
def State.batchUpdate (s : State) (j : Job) (m : Slot) (b : List Nat) (h : TrainHead) (rows : List Row) (passes : List Pass)
    (kv : List Byte) : State × F32 × Bool :=
  if targetCount rows = 0 then ((s.putWork b kv []).putTrainHead m b (h.advance b), 0, false)
  else s.trainUpdate j m b h passes kv

theorem batchUpdate_keeps (s : State) (j : Job) (m : Slot) (b : List Nat) (h : TrainHead) (rows : List Row)
    (passes : List Pass) (kv : List Byte) :
    KFst ⟨Touch.nothing.engines.mems.dram.record, s⟩ (s.batchUpdate j m b h rows passes kv) := by
  unfold State.batchUpdate
  split
  · exact keepsMkFst (putTrainHead_keeps rfl (putWork_keeps rfl (Keeps.refl _ s)))
  · exact trainUpdate_keeps rfl (Keeps.refl _ s)

/-- A finite update and a non-finite one move on in the epoch alike. -/
theorem trainUpdate_at (s : State) (j : Job) (m : Slot) {passes : List Pass} {kv : List Byte}
    (epoch : h.epoch < 2 ^ 32) : ((s.trainUpdate j m b h passes kv).1.trainHead b).At (h.advance b) := by
  obtain ⟨next, epoch⟩ := advance_fits b epoch
  unfold State.trainUpdate
  extract_lets p1 p2 run updated advanced
  split
  · rw [trainHead_congr ((raise_keeps (Touch.Le.refl _) (Keeps.refl _ _)).mems_eq rfl)]
    exact putTrainHead_at updated m next epoch
  · exact putTrainHead_at (h := { advanced with step := h.step + 1, pow1 := p1, pow2 := p2, active := 1 - h.active })
      updated m next epoch

theorem batchUpdate_at (s : State) (j : Job) (m : Slot) {passes : List Pass} {kv : List Byte} (epoch : h.epoch < 2 ^ 32) :
    ((s.batchUpdate j m b h rows passes kv).1.trainHead b).At (h.advance b) := by
  unfold State.batchUpdate
  split
  · obtain ⟨next, epoch⟩ := advance_fits b epoch
    exact putTrainHead_at _ m next epoch
  · exact trainUpdate_at s j m epoch

/-- The loss is a function of the passes: it does not see what the state holds. -/
theorem batchUpdate_loss (s t : State) (j : Job) (m : Slot) (passes : List Pass) (kv : List Byte) :
    (t.batchUpdate j m b h rows passes kv).2.1 = if targetCount rows = 0 then 0 else
      (s.batchRun m b h passes (fmul h.pow1 (tbF32 b 15)) (fmul h.pow2 (tbF32 b 16))).loss := by
  unfold State.batchUpdate
  split
  · rfl
  · unfold State.trainUpdate
    extract_lets p1 p2 run updated advanced
    split <;> rfl

/-! ## The output entry (R225) -/

theorem trainOut_loss (s : State) (a : Nat) (loss : F32) (targets : Nat) (nonfinite cut bad : Bool) :
    (s.storeWords a (trainOut loss targets nonfinite cut bad)).readN a 4 = loss.toNat := by
  have back := congrArg (·[0]?) (storeWords_wordsAt s a (trainOut loss targets nonfinite cut bad))
  have word : (s.storeWords a (trainOut loss targets nonfinite cut bad)).readN a 4 = loss.toNat % 2 ^ 32 := by
    simpa [State.wordsAt, trainOut] using back
  rw [word, Nat.mod_eq_of_lt loss.isLt]

/-- NONFINITE and the flags above it lie above the count and NO_TARGETS. -/
theorem trainOut_targets (s : State) (a : Nat) (loss : F32) (targets : Nat) (nonfinite cut bad : Bool) :
    (s.storeWords a (trainOut loss targets nonfinite cut bad)).readN (a + 4) 4 % 2 ^ 23 =
      targets % 2 ^ 22 + 2 ^ 22 * b2n (targets == 0) := by
  have back := congrArg (·[1]?) (storeWords_wordsAt s a (trainOut loss targets nonfinite cut bad))
  have word : (s.storeWords a (trainOut loss targets nonfinite cut bad)).readN (a + 4) 4 =
      (targets % 2 ^ 22 + 2 ^ 22 * b2n (targets == 0) + 2 ^ 23 * b2n nonfinite + 2 ^ 24 * b2n cut + 2 ^ 25 * b2n bad) % 2 ^ 32 := by
    simpa [State.wordsAt, trainOut] using back
  have flag : b2n (targets == 0) ≤ 1 := by unfold b2n; split <;> omega
  omega

/-! ## The last batch of a job -/

/-- What a batch reads of memory: the state, and the samples with their tokens. -/
def State.batchReads (s : State) (m : Slot) (b : List Nat) (h : TrainHead) : List (Nat × Nat) :=
  trainReads m b h ++ (((s.batchSamples b h).filterMap id).filter sampleFields).map fun w => (addr48 w 0, 4 * sampleLen w)

/-- The rows of the next batch. -/
def State.batchRows (s : State) (m : Slot) (b : List Nat) (h : TrainHead) : List Row :=
  (s.batchSamples b h).map fun w => (w.map (s.row m b)).getD Row.empty

/-- The bad samples are occurrences, and the passes' saturations are counted. -/
def State.batchMet (s : State) (j : Job) (m : Slot) (b : List Nat) (h : TrainHead) : State :=
  (s.raiseMany ((s.batchRows m b h).filter Row.bad).length (0x58 + j.cp) 2 0x19 (some j.part) 0 0).countPass j
    (sumMet ((s.forward m b h (s.batchRows m b h)).map fun x => passMet m (s.trainAdapt m b (copyAddr m b h.active)) x.2))

/-- The next batch of a job, with its passes. -/
def State.batchDone (s : State) (j : Job) (m : Slot) (b : List Nat) (h : TrainHead) : State × F32 × Bool :=
  (s.batchMet j m b h).batchUpdate j m b h (s.batchRows m b h) (s.forward m b h (s.batchRows m b h))
    ((s.forward m b h (s.batchRows m b h)).flatMap fun x => passKv m (s.trainAdapt m b (copyAddr m b h.active)) x.2)

theorem batchDone_keeps (s : State) (j : Job) (m : Slot) (b : List Nat) (h : TrainHead) :
    Keeps ⟨Touch.nothing.engines.mems.dram.record, s⟩ (s.batchDone j m b h).1 :=
  Keeps.trans (countPass_keeps rfl (raiseMany_keeps rfl (Keeps.refl _ s))) (batchUpdate_keeps ..)

theorem runBatch_last (blk : s.trainBlock j = b) (head : s.trainHead b = h) (reads : s.anyBlocked j (s.batchReads m b h) = none)
    (writes : s.blockedOut j (dOut j.words + 8 * done) 8 = none) (last : done + 1 = dCount j.words) :
    s.runBatch j m done = (((s.batchDone j m b h).1.storeWords (dOut j.words + 8 * done)
      (trainOut (s.batchDone j m b h).2.1 (targetCount (s.batchRows m b h)) (s.batchDone j m b h).2.2
        ((s.batchRows m b h).any Row.cut) ((s.batchRows m b h).any Row.bad))).modJob j.uid fun j =>
          { j with ext := .train { started := true, batches := done + 1 } }).finishUid j.uid (done + 1) := by
  subst blk head
  unfold State.batchReads at reads
  simp only [State.runBatch, reads, writes, Option.or_none, if_pos last]
  rfl

theorem exec_trainBatch (runs : s.runs uid 0x0C j) (ext : j.ext = .train r) (cp2 : s.cpRunning 2 = true)
    (idle : s.workOut uid = false) (slot : s.slot? (dSlot j.words) = some m) (more : r.batches < dCount j.words) :
    exec (.trainBatch uid) s = .next (s.runBatch j m r.batches) := by
  obtain ⟨found, isOp, running, unfinished, up⟩ := runs
  simp [exec, execTrainBatch, found, ext, slot, isOp, running, unfinished, up, cp2, idle, more]

/-- Once the output entry is written, the job's record waits, and the memory stays as it is. -/
theorem batch_ends (hr : s.recorded j) (kept : Keeps ⟨Touch.nothing.engines.mems.dram.record, s⟩ t) (e : Ext) (result : Nat) :
    ((t.modJob j.uid fun j => { j with ext := e }).finishUid j.uid result).recordWaits j (j.endStatus s.now) result ∧
      ((t.modJob j.uid fun j => { j with ext := e }).finishUid j.uid result).mems = t.mems := by
  obtain ⟨k, here, like⟩ := (State.Alters.ext t j.uid e).job?_same ((State.job?_congr (kept.jobs_eq rfl) _).trans hr.1)
  have waits := finishUid_recordWaits here like (hr.willRecord.of_qps (kept.qps_eq rfl)) result
  rw [State.modJob_now, kept.now_eq rfl] at waits
  exact ⟨waits, (finishUid_keeps (Touch.Le.refl _) (Keeps.refl _ _)).mems_eq rfl⟩

theorem answers_trainBatch_last (runs : s.runs uid 0x0C j) (hr : s.recorded j) (ext : j.ext = .train r)
    (cp2 : s.cpRunning 2 = true) (idle : s.workOut uid = false) (slot : s.slot? (dSlot j.words) = some m)
    (blk : s.trainBlock j = b) (head : s.trainHead b = h) (last : r.batches + 1 = dCount j.words)
    (reads : s.anyBlocked j (s.batchReads m b h) = none)
    (writes : s.blockedOut j (dOut j.words + 8 * r.batches) 8 = none)
    (apart : dOut j.words + 8 * r.batches + 8 ≤ tbState b ∨ tbState b + 64 ≤ dOut j.words + 8 * r.batches) :
    answers (.trainBatch uid) s fun u => u.recordWaits j (j.endStatus s.now) (r.batches + 1) ∧
      (u.trainHead b).At (h.advance b) ∧
      u.readN (dOut j.words + 8 * r.batches) 4 = (s.batchDone j m b h).2.1.toNat ∧
      u.readN (dOut j.words + 8 * r.batches + 4) 4 % 2 ^ 23 =
        targetCount (s.batchRows m b h) % 2 ^ 22 + 2 ^ 22 * b2n (targetCount (s.batchRows m b h) == 0) := by
  obtain rfl := State.job?_uid runs.1
  have epoch : h.epoch < 2 ^ 32 := head ▸ trainHead_epoch_lt s b
  have moved : ((s.batchDone j m b h).1.trainHead b).At (h.advance b) := batchUpdate_at _ j m epoch
  have kept := batchDone_keeps s j m b h
  refine answers_of ((exec_trainBatch runs ext cp2 idle slot (by omega)).trans
    (congrArg _ (runBatch_last blk head reads writes last))) ?_
  generalize s.batchDone j m b h = x at moved kept ⊢
  obtain ⟨waits, mems⟩ := batch_ends hr
    (storeWords_keeps (a := dOut j.words + 8 * r.batches)
      (ws := trainOut x.2.1 (targetCount (s.batchRows m b h)) x.2.2 ((s.batchRows m b h).any Row.cut)
        ((s.batchRows m b h).any Row.bad)) rfl kept) (.train { started := true, batches := r.batches + 1 }) (r.batches + 1)
  refine ⟨waits, ?_, ?_, ?_⟩
  · rw [trainHead_congr mems, storeWords_trainHead_apart _ (apart.symm)]
    exact moved
  · rw [readN_congr mems, trainOut_loss]
  · rw [readN_congr mems, trainOut_targets]

/-- Settles O32: the header is the last that INIT writes; each kind of batch writes the advanced header before the output entry,
which lies apart from it, and the end of the job leaves the memory. -/
theorem trainStepAndBatch : Obligations.TrainStepAndBatch := by
  unfold Obligations.TrainStepAndBatch
  refine ⟨fun uid st r j m s starts hr fresh reads writes slot refused => ?refused,
    fun uid b j m s starts fresh reads writes slot blk fields regions clear apart init masters => ?initialises,
    fun uid b h rows r j m s runs hr ext cp2 idle slot blk head batch last reads writes apart => ?batch⟩
  case refused =>
    obtain ⟨t, start⟩ := starts_entered starts
    rw [start.started] at reads writes slot refused
    exact answers_trainStep_refused reads writes slot start hr fresh refused
  case initialises =>
    obtain ⟨t, start⟩ := starts_entered starts
    rw [start.started] at reads writes slot blk clear masters
    by_cases short : tbWorkMib b < workNeed m b
    · exact answers_of (exec_trainStep start fresh) (.inl short)
    · subst blk
      have regions' : ((trainRegions m (t.trainBlock j)).all fun r => r.2 == 0 || t.inDram j.part r.1 r.2) = true := by
        simpa only [start.sameReach.inDram] using regions
      have good := trainRefused_none fields regions' clear apart init (not_lt.1 short)
      obtain ⟨u, ran, started⟩ := answers_trainStep_initialises reads writes slot start fresh good init masters
      exact ⟨u, ran, .inr started⟩
  case batch =>
    subst batch
    obtain ⟨u, ran, waits, ⟨next, epoch⟩, loss, targets⟩ :=
      answers_trainBatch_last runs hr ext cp2 idle slot blk head last reads writes apart
    refine ⟨u, ran, waits, next, epoch, loss.trans ?_, targets⟩
    rw [State.batchDone, batchUpdate_loss s]
    exact apply_ite BitVec.toNat ..

end Sys2Proof.Machine
end

section
/-! SUPPORT. Rows of a plane that are copied in turn (R235): each arrives as it stood in the source, where every row that is
written ends at or below the source. -/

namespace Sys2Proof.Machine

variable {s : State} {src dst stride n a b k y c m : Nat} {v : VHdr}

/-- Row `y` of a plane is copied. -/
def State.copyRow (src dst stride n : Nat) (s : State) (y : Nat) : State :=
  s.store (dst + stride * y) (s.bytesAt (src + stride * y) n)

/-- `k` rows of a plane are copied, from row `a` on. -/
def State.copyPlane (s : State) (src dst stride n a k : Nat) : State :=
  (List.range' a k).foldl (State.copyRow src dst stride n) s

/-- A burst copies the pixel rows, then for NV12 the UV rows. -/
theorem copyRows_eq (s : State) (v : VHdr) (a b : Nat) :
    s.copyRows v a b =
      if v.rgb then s.copyPlane v.src v.stage v.stride v.rowBytes a (b - a)
      else (s.copyPlane v.src v.stage v.stride v.rowBytes a (b - a)).copyPlane v.uv v.stageUv v.uvStride v.w (a / 2)
        (b / 2 - a / 2) := rfl

theorem copyPlane_succ :
    s.copyPlane src dst stride n a (k + 1) = State.copyRow src dst stride n (s.copyPlane src dst stride n a k) (a + k) := by
  simp [State.copyPlane, List.range'_1_concat]

/-- What lies above the rows that are written stays. -/
theorem copyPlane_bytesAt_above (room : ∀ y < a + k, dst + stride * y + n ≤ c) :
    (s.copyPlane src dst stride n a k).bytesAt c m = s.bytesAt c m := by
  induction k with
  | zero => rfl
  | succ k ih =>
    have last := room (a + k) (by omega)
    rw [copyPlane_succ, State.copyRow, store_bytesAt_apart _ (.inr (by rwa [bytesAt_length])), ih fun y hy => room y (by omega)]

/-- Each row arrives as it stood in the source. -/
theorem copyPlane_row (wide : n ≤ stride) (room : ∀ y < a + k, dst + stride * y + n ≤ src) (first : a ≤ y) (last : y < a + k) :
    (s.copyPlane src dst stride n a k).bytesAt (dst + stride * y) n = s.bytesAt (src + stride * y) n := by
  induction k with
  | zero => omega
  | succ k ih =>
    have room' : ∀ y < a + k, dst + stride * y + n ≤ src := fun y hy => room y (by omega)
    rw [copyPlane_succ, State.copyRow]
    rcases (show y < a + k ∨ y = a + k by omega) with before | rfl
    · have next : stride * y + stride ≤ stride * (a + k) := Nat.mul_le_mul_left stride before
      rw [store_bytesAt_apart _ (.inl (by omega)), ih room' before]
    · have source : (s.copyPlane src dst stride n a k).bytesAt (src + stride * (a + k)) n = s.bytesAt (src + stride * (a + k)) n :=
        copyPlane_bytesAt_above fun y hy => (room' y hy).trans (Nat.le_add_right ..)
      have stored := store_bytesAt (s.copyPlane src dst stride n a k) (dst + stride * (a + k)) (s.bytesAt (src + stride * (a + k)) n)
      rw [source]
      rwa [bytesAt_length] at stored

/-- The pixel rows of an RGB frame from a source above the staging buffer. -/
theorem copyRows_rgb (rgb : v.rgb = true) (wide : v.rowBytes ≤ v.stride) (room : v.stage + v.stride * b ≤ v.src) (first : a ≤ y)
    (last : y < b) :
    (s.copyRows v a b).bytesAt (v.stage + v.stride * y) v.rowBytes = s.bytesAt (v.src + v.stride * y) v.rowBytes := by
  rw [copyRows_eq, if_pos rgb]
  refine copyPlane_row wide (fun z hz => ?_) first (by omega)
  have next : v.stride * z + v.stride ≤ v.stride * b := Nat.mul_le_mul_left v.stride (show z + 1 ≤ b by omega)
  omega

/-- The UV rows of an NV12 frame from a source above both parts of the staging buffer. -/
theorem copyRows_uv (nv12 : v.rgb = false) (wide : v.w ≤ v.uvStride) (pixels : v.stage + v.stride * b + v.w ≤ v.uv)
    (room : v.stageUv + v.uvStride * (b / 2) ≤ v.uv) (more : a ≤ b) (first : a / 2 ≤ y) (last : y < b / 2) :
    (s.copyRows v a b).bytesAt (v.stageUv + v.uvStride * y) v.w = s.bytesAt (v.uv + v.uvStride * y) v.w := by
  have row : v.rowBytes = v.w := by simp [VHdr.rowBytes, nv12]
  rw [copyRows_eq, nv12, if_neg Bool.false_ne_true, copyPlane_row wide (fun z hz => ?room) first (by omega)]
  case room =>
    have next : v.uvStride * z + v.uvStride ≤ v.uvStride * (b / 2) := Nat.mul_le_mul_left v.uvStride (show z + 1 ≤ b / 2 by omega)
    omega
  refine copyPlane_bytesAt_above fun z hz => ?_
  have past : v.stride * z ≤ v.stride * b := Nat.mul_le_mul_left v.stride (show z ≤ b by omega)
  omega

end Sys2Proof.Machine
end

section
/-! SUPPORT. The intake's job (R231): where it stands, and that its end, with or without an error, leaves the intake free. -/

namespace Sys2Proof.Machine

variable {s t : State} {uid st result : Nat} {j : Job}

theorem Keeps.vision_eq {may : Touch} (h : Keeps ⟨may, s⟩ t) (hm : may.tVision = false) : t.vision = s.vision := by
  rw [h.only]; simp [Touch.ow, hm]

theorem visionJob_found (running : s.visionJob = some j) : s.vision.job = some j.uid ∧ s.job? j.uid = some j := by
  obtain ⟨uid, job, found⟩ := Option.bind_eq_some_iff.1 running
  obtain rfl := State.job?_uid found
  exact ⟨job, found⟩

/-- The intake runs no job but `uid`, if any. -/
def Vision.OnlyRuns (i : Vision) (uid : Nat) : Prop := i.job = none ∨ i.job = some uid

theorem withdraw_frees_intake (only : s.vision.OnlyRuns uid) : (s.withdraw uid).vision.job = none := by
  unfold State.withdraw
  extract_lets -merge moved sec dropped x
  have same : dropped.vision = s.vision := rfl
  rw [same]
  rcases only with idle | runs
  · rw [if_neg (by simp [idle]), same, idle]
  · rw [if_pos (by simp [runs])]

/-- A job that ends with an error: the operations on the way to its record leave the intake as the withdrawal left it. -/
theorem failJob_frees_intake (only : s.vision.OnlyRuns uid) (st result : Nat) :
    (s.failJob uid st result).vision.job = none := by
  have only' : (s.jobError uid st).vision.OnlyRuns uid := only
  have withdrawn := withdraw_frees_intake only'
  unfold State.failJob
  extract_lets x
  split
  next => exact withdrawn
  next =>
    split
    next => exact withdrawn
    next =>
      rw [(finishJob_keeps (Touch.Le.refl _) (Keeps.refl _ _)).vision_eq rfl]
      split
      · rwa [(cancelEffects_keeps (Touch.Le.refl _) (Keeps.refl _ _)).vision_eq rfl]
      · exact withdrawn

/-- The intake's job ends with an error: its record waits, and the intake is free. -/
theorem failJob'_ends_intake (hr : s.recorded j) (runs : s.vision.job = some j.uid) (err : st ≠ 0) :
    (s.failJob' j.uid st).recordWaits j (firstError j.status st) j.progress ∧ (s.failJob' j.uid st).vision.job = none := by
  refine ⟨failJob'_recordWaits hr err, ?_⟩
  rw [State.failJob', hr.1]
  exact failJob_frees_intake (.inr runs) st j.progress

/-- The intake's job ends: its record waits, and the intake is free; nothing else of the intake and no fault record changes. -/
theorem endVision_ends (hr : s.recorded j) (result : Nat) :
    (s.endVision j.uid result).recordWaits j (j.endStatus s.now) result ∧
      (s.endVision j.uid result).vision = { s.vision with job := none } ∧
      (s.endVision j.uid result).faults = s.faults ∧ (s.endVision j.uid result).now = s.now := by
  have ended := finishUid_keeps (uid := j.uid) (result := result) (Touch.Le.refl _)
    (Keeps.refl _ { s with vision := { s.vision with job := none } })
  refine ⟨?_, ended.vision_eq rfl, ended.faults_eq rfl, ended.now_eq rfl⟩
  exact finishUid_recordWaits (s := { s with vision := { s.vision with job := none } }) hr.1 (.refl j)
    (hr.willRecord.of_qps rfl) result

end Sys2Proof.Machine
end

section
/-! SUPPORT. VISION_FRAME (R231 to R233): a block that is refused, and a good one, which the intake takes. -/

namespace Sys2Proof.Machine

variable {s t : State} {uid st : Nat} {j : Job}

theorem exec_visionFrame (free : s.visionBusy uid = false) (h : s.Began uid 0x0D j t) :
    exec (.visionFrame uid) s = .next (t.startVision j) := by
  simp [exec, execVisionFrame, free, h.starting]

theorem visionBusy_idle (free : s.visionBusy uid = false) : s.vision.job = none :=
  Option.isNone_iff_eq_none.1 (by simpa using (Bool.or_eq_false_iff.1 free).1)

/-- Every check that refuses a block gives an error. -/
theorem visionRefused_error (refused : s.visionRefused j = some st) : st ≠ 0 := by
  unfold State.visionRefused at refused
  extract_lets w v out at refused
  split at refused
  next => cases refused; decide
  split at refused
  next => cases refused; decide
  split at refused
  next => cases refused; decide
  next => cases refused

theorem answers_visionFrame_refused (free : s.visionBusy uid = false) (h : s.Began uid 0x0D j t) (hr : s.recorded j)
    (reads : t.blocked j (dArg j.words) 128 = none) (refused : t.visionRefused j = some st) :
    answers (.visionFrame uid) s fun u => u.recordWaits j (firstError j.status st) noResult ∧ u.vision.job = none := by
  obtain ⟨e, quality, running⟩ := h.job? rfl
  obtain ⟨-, spoken, loud, unfinished, -⟩ := id hr
  have idle : t.vision.job = none := by rw [h.kept.vision_eq rfl, visionBusy_idle free]
  obtain rfl := h.isUid
  have step : t.startVision j = t.failJob j.uid st noResult := by simp only [State.startVision, reads, refused]
  refine answers_of ((exec_visionFrame free h).trans (congrArg _ step)) ⟨?_, failJob_frees_intake (.inl idle) st noResult⟩
  exact failJob_recordWaits (j := { j with state := .running, unitWait := none, epoch := e, quality := quality })
    ⟨running, spoken, loud, unfinished, (h.willRecord hr).enabled⟩ (visionRefused_error refused) noResult

theorem answers_visionFrame_taken (free : s.visionBusy uid = false) (h : s.Began uid 0x0D j t)
    (reads : t.blocked j (dArg j.words) 128 = none) (good : t.visionRefused j = none)
    (clean : t.badWords (vhdr (t.vwords j)).mesh (vhdr (t.vwords j)).meshBytes = [])
    (finite : t.meshOk (vhdr (t.vwords j)) = true) :
    answers (.visionFrame uid) s fun u => u.vision.job = some uid ∧ u.vision.block = t.vwords j ∧
      u.vision.frameSeq = wordAt j.words 8 ∧ u.vision.copied = 0 ∧ ∃ k, u.job? uid = some k ∧ k.state = .running := by
  obtain ⟨e, quality, running⟩ := h.job? rfl
  obtain rfl := h.isUid
  refine answers_of (exec_visionFrame free h) ?_
  simp only [State.startVision, reads, good, clean, finite, List.isEmpty_nil, Bool.not_true, Bool.false_eq_true, if_false, true_and]
  refine ⟨rfl, rfl, ?_⟩
  have kept := State.job_modJob_same t j.uid (fun k => { k with ext := .vision (t.vwords j) }) (by exact fun _ => rfl)
  rw [running] at kept
  exact ⟨_, kept, rfl⟩

end Sys2Proof.Machine
end

section
/-! O34: the commands of the intake while it runs a job (R234 to R240), and the statement. -/

namespace Sys2Proof.Machine

variable {s : State} {b : Nat} {j : Job}

/-! ## PROGRESS_POLL (R234) -/

/-- ROWS_READY is taken from a progress word of the frame when it is more than before and no more than the frame has. -/
theorem answers_progressPoll (running : s.visionJob = some j) (polled : s.visionHdr.progress ≠ 0)
    (more : s.vision.copied < s.visionHdr.h) (due : s.vision.lastPoll + 200 ≤ s.now)
    (reach : s.readable j.part s.visionHdr.progress = true) :
    answers .progressPoll s fun u => u.vision.lastPoll = s.now ∧ u.vision.copied = s.vision.copied ∧
      u.vision.current = decide (bits 31 0 (s.readN s.visionHdr.progress 8) = s.vision.frameSeq) ∧
      let w := s.readN s.visionHdr.progress 8
      u.vision.ready =
        if bits 31 0 w = s.vision.frameSeq ∧ s.vision.ready < bits 45 32 w ∧ bits 45 32 w ≤ s.visionHdr.h then bits 45 32 w
        else s.vision.ready := by
  have polls : ¬(decide (s.visionHdr.progress = 0) || decide (s.visionHdr.h ≤ s.vision.copied) ||
      decide (s.now < s.vision.lastPoll + 200)) = true := by
    simp [polled, more, due]
  refine answers_of rfl ?_
  simp only [running, if_neg polls, reach, Bool.not_true, Bool.false_eq_true, if_false]
  split
  next taken =>
    refine ⟨rfl, rfl, rfl, (if_pos ?_).symm⟩
    simpa [and_assoc] using taken
  next left =>
    refine ⟨rfl, rfl, rfl, (if_neg ?_).symm⟩
    simpa [and_assoc] using left

/-! ## VISION_BURST (R235) -/

/-- One past the last row of the next burst. -/
def State.burstEnd (s : State) : Nat := min s.vision.ready (min s.visionHdr.h ((s.vision.copied / 16 + 1) * 16))

/-- Rows are ready. -/
theorem burst_ready (more : s.vision.copied < s.burstEnd) :
    ¬min s.vision.ready (min s.visionHdr.h ((s.vision.copied / 16 + 1) * 16)) ≤ s.vision.copied :=
  not_le.2 more

/-- The state once the rows below `b` are copied. -/
def State.rowsCopied (s : State) (b : Nat) : State :=
  let t := s.copyRows s.visionHdr s.vision.copied b
  { t with vision := { t.vision with copied := b, stallFrom := t.now } }

theorem exec_visionBurst_copies (running : s.visionJob = some j) (burst : s.burstEnd = b) (more : s.vision.copied < b)
    (current : s.vision.current = true) (clean : s.badRows s.visionHdr s.vision.copied b = [])
    (reach : s.visionHdr.usesHost = false ∨ s.hostOk j.part = true) :
    exec (.visionBurst false) s = .next (s.rowsCopied b) := by
  subst burst
  have reach' : (s.visionHdr.usesHost && !s.hostOk j.part) = false := by
    rcases reach with apart | host
    · rw [apart, Bool.false_and]
    · rw [host, Bool.not_true, Bool.and_false]
  rw [State.burstEnd] at clean
  simp only [exec, execVisionBurst, running, burst_ready more, current, decide_false, Bool.false_or, reach', clean,
    List.isEmpty_nil, Bool.not_true, Bool.false_eq_true, if_false, State.rowsCopied, State.burstEnd]

theorem rowsCopied_stallFrom (s : State) (b : Nat) : (s.rowsCopied b).vision.stallFrom = s.now :=
  (copyRows_keeps (Touch.Le.refl _) (Keeps.refl _ s)).now_eq rfl

theorem exec_visionBurst_linkDown (running : s.visionJob = some j) (current : s.vision.current = true)
    (more : s.vision.copied < s.burstEnd) (host : s.visionHdr.usesHost = true) :
    exec (.visionBurst true) s = .next (s.failJob' j.uid stLink) := by
  simp only [exec, execVisionBurst, running, burst_ready more, current, host, decide_false, Bool.not_true, Bool.or_self,
    Bool.true_or, Bool.and_self, Bool.false_eq_true, if_false, if_true]

theorem answers_visionBurst_linkDown (running : s.visionJob = some j) (hr : s.recorded j) (current : s.vision.current = true)
    (more : s.vision.copied < s.burstEnd) (op : j.opcode = 0x0D) (host : s.visionHdr.usesHost = true) :
    answers (.visionBurst true) s fun u => u.recordWaits j (firstError j.status stLink) j.progress ∧ u.vision.job = none ∧
      u.mems = s.mems := by
  obtain ⟨runs, found⟩ := visionJob_found running
  obtain ⟨waits, idle⟩ := failJob'_ends_intake (st := stLink) hr runs (by decide)
  refine answers_of (exec_visionBurst_linkDown running current more host) ⟨waits, idle, ?_⟩
  rw [State.failJob', found]
  exact failJob_mems found (by rw [op]; decide) stLink j.progress

/-! ## WARP_PATCH (R239, R240) -/

/-- Every patch row is written. -/
def State.writePatches (s : State) (j : Job) : State :=
  (List.range s.visionHdr.rows).foldl (fun t k => t.writePatch s.visionHdr (dOut j.words) k) s

theorem exec_warpPatch_clean (running : s.visionJob = some j) (staged : s.visionHdr.h ≤ s.vision.copied)
    (clean : s.badWords s.visionHdr.stage s.visionHdr.stageBytes = []) :
    exec (.warpPatch false) s = .next ((s.writePatches j).endVision j.uid (2 * s.visionHdr.h)) := by
  simp only [exec, execWarpPatch, running, if_neg (not_lt.2 staged), clean, List.isEmpty_nil, Bool.not_true, Bool.false_eq_true,
    if_false, State.writePatches]

theorem exec_warpPatch_uncorrectable (running : s.visionJob = some j) (staged : s.visionHdr.h ≤ s.vision.copied) :
    exec (.warpPatch true) s = .next (((s.dramWordError s.visionHdr.stage).scramblePatches j).failJob' j.uid stData) := by
  simp only [exec, execWarpPatch, running, if_neg (not_lt.2 staged), if_true]

theorem answers_warpPatch_clean (running : s.visionJob = some j) (hr : s.recorded j) (staged : s.visionHdr.h ≤ s.vision.copied)
    (clean : s.badWords s.visionHdr.stage s.visionHdr.stageBytes = []) :
    answers (.warpPatch false) s fun u => u.recordWaits j (j.endStatus s.now) (2 * s.visionHdr.h) ∧ u.vision.job = none := by
  have kept : Keeps ⟨Touch.nothing.mems.vision.dram.record, s⟩ (s.writePatches j) :=
    keepsFold (Q := Keeps _) (Keeps.refl _ s) fun _ _ h => writePatch_keeps rfl h
  obtain ⟨waits, idle, -, -⟩ := endVision_ends (hr.of_eq (kept.jobs_eq rfl) (kept.qps_eq rfl)) (2 * s.visionHdr.h)
  rw [kept.now_eq rfl] at waits
  exact answers_of (exec_warpPatch_clean running staged clean) ⟨waits, by rw [idle]⟩

theorem answers_warpPatch_uncorrectable (running : s.visionJob = some j) (hr : s.recorded j)
    (staged : s.visionHdr.h ≤ s.vision.copied) :
    answers (.warpPatch true) s fun u => u.recordWaits j (firstError j.status stData) j.progress ∧ u.vision.job = none := by
  have kept : Keeps ⟨Touch.nothing.free.mems.dram.record, s⟩ ((s.dramWordError s.visionHdr.stage).scramblePatches j) :=
    scramblePatches_keeps rfl (dramWordError_keeps rfl (Keeps.refl _ s))
  refine answers_of (exec_warpPatch_uncorrectable running staged)
    (failJob'_ends_intake (hr.of_eq (kept.jobs_eq rfl) (kept.qps_eq rfl)) ?_ (by decide))
  rw [kept.vision_eq rfl, (visionJob_found running).1]

/-! ## STALL_TIMEOUT (R236) -/

/-- The occurrence of a frame that is dropped, with its reads in flight. -/
def State.frameDropped (s : State) (j : Job) : State :=
  { s.raise 0x68 2 0x19 (some j.part) 0 0 with vision := { s.vision with inFlight := s.vision.frameSeq :: s.vision.inFlight } }

theorem exec_stallTimeout_due (running : s.visionJob = some j) (more : s.vision.copied < s.visionHdr.h)
    (due : s.vision.stallFrom + s.vision.timeoutMs * msTicks ≤ s.now) :
    exec .stallTimeout s = .next ((s.frameDropped j).endVision j.uid (1 + 2 * s.vision.copied)) := by
  have kept : Keeps ⟨Touch.nothing.record, s⟩ (s.raise 0x68 2 0x19 (some j.part) 0 0) :=
    raise_keeps (Touch.Le.refl _) (Keeps.refl _ s)
  simp [exec, execStallTimeout, running, more, due, State.frameDropped, kept.vision_eq rfl]

theorem exec_stallTimeout_early (running : s.visionJob = some j)
    (early : s.now < s.vision.stallFrom + s.vision.timeoutMs * msTicks) : exec .stallTimeout s = .next s := by
  simp [exec, execStallTimeout, running, early]

theorem answers_stallTimeout_due (running : s.visionJob = some j) (hr : s.recorded j) (more : s.vision.copied < s.visionHdr.h)
    (due : s.vision.stallFrom + s.vision.timeoutMs * msTicks ≤ s.now) :
    answers .stallTimeout s fun u => u.recordWaits j (j.endStatus s.now) (1 + 2 * s.vision.copied) ∧ u.vision.job = none ∧
      u.vision.inFlight = s.vision.frameSeq :: s.vision.inFlight ∧ u.reported 0x68 2 := by
  have kept : Keeps ⟨Touch.nothing.record, s⟩ (s.raise 0x68 2 0x19 (some j.part) 0 0) :=
    raise_keeps (Touch.Le.refl _) (Keeps.refl _ s)
  have hr' : (s.frameDropped j).recorded j := hr.of_eq (kept.jobs_eq rfl) (kept.qps_eq rfl)
  have now : (s.frameDropped j).now = s.now := kept.now_eq rfl
  obtain ⟨waits, intake, faults, time⟩ := endVision_ends hr' (1 + 2 * s.vision.copied)
  rw [now] at waits
  refine answers_of (exec_stallTimeout_due running more due) ⟨waits, by rw [intake], by rw [intake]; rfl, ?_⟩
  rw [State.reported, faults, time]
  exact raise_reported 0x68 2 0x19 (some j.part) 0 0

/-! ## The statement -/

/-- Settles O34: a burst's rows end below the host window, so each arrives as the host holds it; every end of the intake's job
queues its record and frees the intake. -/
theorem visionFrameTakenIn : Obligations.VisionFrameTakenIn := by
  unfold Obligations.VisionFrameTakenIn
  refine ⟨fun uid st j s free starts hr reads refused => ?refused,
    fun uid j s free starts reads good clean finite => ?taken,
    fun j s running polled more due reach => answers_progressPoll running polled more due reach,
    fun b j s running burst more current clean rgb host reach wide room => ?rgb,
    fun b j s running burst more current clean reach => ?nv12,
    fun j s running hr current more op host => answers_visionBurst_linkDown running hr current more op host,
    fun j s running hr staged clean => answers_warpPatch_clean running hr staged clean,
    fun j s running hr staged => answers_warpPatch_uncorrectable running hr staged,
    fun j s running hr more due => answers_stallTimeout_due running hr more due,
    fun j s running early => exec_stallTimeout_early running early,
    fun s => answers_of rfl ⟨List.length_dropLast, rfl⟩⟩
  case refused =>
    obtain ⟨t, began⟩ := starts_began rfl starts
    rw [began.started] at reads refused
    exact answers_visionFrame_refused free began hr reads refused
  case taken =>
    obtain ⟨t, began⟩ := starts_began rfl starts
    rw [began.started] at reads good clean finite ⊢
    exact answers_visionFrame_taken free began reads good clean finite
  case rgb =>
    exact answers_of (exec_visionBurst_copies running burst more current clean (.inr reach))
      ⟨rfl, fun y first last => copyRows_rgb rgb wide (room.trans host) first last⟩
  case nv12 =>
    exact answers_of (exec_visionBurst_copies running burst more current clean reach)
      ⟨rfl, rowsCopied_stallFrom s b, fun nv12 host wide pixels room y first last =>
        copyRows_uv nv12 wide (pixels.trans host) (room.trans host) more.le first last⟩

end Sys2Proof.Machine
end

section
/-! SUPPORT. LOAD_MODEL (R255): the commands of a running load, and what the end of a job leaves of the model slots. -/

namespace Sys2Proof.Machine

variable {s t : State} {uid n pos st op : Nat} {bad : Option Nat} {hash : List Nat} {j : Job} {m v : Slot}

/-! ## The model slots after a job's end (R255) -/

/-- Of the slots, the end of a LOAD_MODEL frees one that it was still loading. -/
theorem finishJob_slots (s : State) (j : Job) (result : Nat) :
    (s.finishJob j result).slots = if j.opcode == 0x01 then
        s.slots.filter fun v => v.loaded || v.part != j.part || v.idx != dSlot j.words
      else s.slots := by
  delta State.finishJob
  extract_lets -merge left settled served freed q
  have h2 : Keeps ⟨Touch.nothing.kvs, left⟩ settled :=
    keepsFold (Q := Keeps _) (settleAppends_keeps rfl (Keeps.refl _ left)) fun _ _ h => freeFrame_keeps rfl h
  have h3 : Keeps ⟨Touch.nothing.kvs, left⟩ served := by
    unfold served
    split
    · exact advanceEpoch_keeps rfl h2
    · exact h2
  have held : served.slots = s.slots := h3.slots_eq rfl
  have e : freed.slots = _ := apply_ite State.slots (j.opcode == 0x01) _ _
  rw [held] at e
  rw [← e]
  split
  · exact (retireJob_keeps (Touch.Le.refl _) (Keeps.refl _ freed)).slots_eq rfl
  · exact (queueComp_keeps (Touch.Le.refl _) (Keeps.refl _ freed)).slots_eq rfl

theorem finishJob_keeps_loaded {result : Nat} (here : v ∈ s.slots) (loaded : v.loaded = true) :
    v ∈ (s.finishJob j result).slots := by
  rw [finishJob_slots]
  split
  · exact List.mem_filter.2 ⟨here, by simp [loaded]⟩
  · exact here

theorem finishJob_slots_sub {result : Nat} (here : v ∈ (s.finishJob j result).slots) : v ∈ s.slots := by
  rw [finishJob_slots] at here
  split at here
  · exact List.mem_of_mem_filter here
  · exact here

/-! ## Slots by number -/

/-- A slot of number `n` is taken. -/
def State.hasSlot (s : State) (n : Nat) : Prop := ∃ v ∈ s.slots, v.idx = n

theorem State.hasSlot.modSlot {i : Nat} {f : Slot → Slot} (h : s.hasSlot n) (hf : ∀ v, (f v).idx = v.idx) :
    (s.modSlot i f).hasSlot n := by
  obtain ⟨v, here, isN⟩ := h
  refine ⟨_, List.mem_map_of_mem here, ?_⟩
  split
  · rw [hf, isN]
  · exact isN

theorem firstExperts_hasSlot (h : s.hasSlot n) (m : Slot) (ram : Nat) : (s.firstExperts m ram).hasSlot n := by
  unfold State.firstExperts
  refine keepsFold (Q := fun t : State => t.hasSlot n) h fun t x ht => ?_
  split
  next => exact ht
  next v _ =>
    split
    next => exact ht
    next frames _ =>
      have copied := copyTrus_keeps (t := v) (ram := ram) (trus := x.trus) (frames := frames) (Touch.Le.refl _) (Keeps.refl _ t)
      refine State.hasSlot.modSlot ?_ fun _ => rfl
      rwa [State.hasSlot, copied.slots_eq rfl]

/-! ## A running load -/

theorem exec_loadModel_running (found : s.job? uid = some j) (isOp : j.opcode = 0x01) (running : j.state = .running)
    (unfinished : j.finished = false) (ext : j.ext = .load pos hash) (up : s.cpRunning j.cp = true)
    (up2 : s.cpRunning 2 = true) : exec (.loadModel uid bad) s = .next (s.loadMore j pos hash bad) := by
  simp [exec, execLoadModel, starting_none_of_running found running, found, isOp, running, unfinished, ext, up, up2]

section
variable (slot : s.slots.find? (fun v => v.idx == dSlot j.words && v.part == j.part) = some m)
include slot

/-- Once every byte is read and hashed, the load ends. -/
theorem loadMore_all (hashed : (s.sec.crypto.any fun c => c.uid == some j.uid) = false) :
    s.loadMore j m.manifest.imageBytes hash bad = s.endLoad j m hash := by
  simp [State.loadMore, slot, hashed]

theorem loadMore_next (more : pos < m.manifest.imageBytes) (up : s.sourceUp j.part m.source = true)
    (len : n = min 0x1000000 (m.manifest.imageBytes - pos)) (whole : s.sourceTorn m.source pos n = false)
    (free : s.sourceHeld m.source pos n = false) : s.loadMore j pos hash none =
      ((s.sourceThrough m.source pos n).scatter m pos (s.imageBytes m.source (dArg j.words) pos n)).modJob j.uid fun k =>
        { k with ext := .load (pos + n) (shaBlocks (n / 128) hash (s.imageBytes m.source (dArg j.words) pos n)) } := by
  have some_left : n ≠ 0 := by omega
  simp [State.loadMore, slot, ← len, some_left, up, whole, free]

end

theorem answers_loadModel_next (found : s.job? uid = some j) (isOp : j.opcode = 0x01) (running : j.state = .running)
    (unfinished : j.finished = false) (ext : j.ext = .load pos hash) (cp : s.cpRunning j.cp = true) (cp2 : s.cpRunning 2 = true)
    (slot : s.slots.find? (fun v => v.idx == dSlot j.words && v.part == j.part) = some m)
    (more : pos < m.manifest.imageBytes) (up : s.sourceUp j.part m.source = true)
    (len : n = min 0x1000000 (m.manifest.imageBytes - pos)) (whole : s.sourceTorn m.source pos n = false)
    (free : s.sourceHeld m.source pos n = false) :
    answers (.loadModel uid none) s fun u => ∃ k hash', u.job? uid = some k ∧
      k.ext = .load (min m.manifest.imageBytes (pos + 0x1000000)) hash' ∧ k.finished = false := by
  obtain rfl := State.job?_uid found
  have advanced : pos + n = min m.manifest.imageBytes (pos + 0x1000000) := by omega
  have read : Keeps ⟨Touch.nothing.flash.mems.dram.record, s⟩
      ((s.sourceThrough m.source pos n).scatter m pos (s.imageBytes m.source (dArg j.words) pos n)) :=
    scatter_keeps rfl (sourceThrough_keeps rfl (Keeps.refl _ s))
  refine answers_of ((exec_loadModel_running found isOp running unfinished ext cp cp2).trans
    (congrArg _ (loadMore_next slot more up len whole free))) ?_
  rw [State.job_modJob_same _ _ _ (by exact fun _ => rfl), State.job?_congr (read.jobs_eq rfl), found, advanced]
  exact ⟨_, _, rfl, rfl, unfinished⟩

/-! ## The end of a load (R255 steps 5 and 6) -/

/-- The first experts are in the cache, the digest stands at OUT_ADDR, and the slot is loaded. -/
def State.loadEnded (s : State) (j : Job) (m : Slot) (hash : List Nat) : State :=
  ((s.firstExperts m (dArg j.words)).store (dOut j.words) (shaFinish hash [] m.manifest.imageBytes)).modSlot m.idx fun v =>
    { v with loaded := true, digest := shaFinish hash [] m.manifest.imageBytes }

theorem endLoad_ends (out : dOut j.words < hostBase ∨ s.hostOk j.part = true)
    (source : m.experts = [] ∨ s.sourceUp j.part m.source = true ∧ s.sourceHeld m.source 0 m.manifest.imageBytes = false) :
    s.endLoad j m hash = (s.loadEnded j m hash).finishUid j.uid m.granules.length := by
  have reached : (hostBase ≤ dOut j.words && !s.hostOk j.part) = false := by
    rcases out with low | up
    · simp [low]
    · simp [up]
  rcases source with none_moves | ⟨up, free⟩
  · simp [State.endLoad, reached, none_moves, State.loadEnded]
  · simp [State.endLoad, reached, up, free, State.loadEnded]

theorem loadEnded_keeps : Keeps ⟨Touch.nothing.slots.mems.dram.flash.record, s⟩ (s.loadEnded j m hash) :=
  modSlot_keeps rfl (store_keeps rfl (firstExperts_keeps rfl (Keeps.refl _ s)))

theorem loadEnded_bytesAt : (s.loadEnded j m hash).bytesAt (dOut j.words) (shaFinish hash [] m.manifest.imageBytes).length =
    shaFinish hash [] m.manifest.imageBytes :=
  (bytesAt_congr (State.modSlot_mems _ _ _) _ _).trans (store_bytesAt ..)

theorem loadEnded_slot (there : m ∈ s.slots) : ∃ v ∈ (s.loadEnded j m hash).slots,
    v.idx = m.idx ∧ v.loaded = true ∧ v.digest = shaFinish hash [] m.manifest.imageBytes := by
  obtain ⟨v, here, isM⟩ := firstExperts_hasSlot ⟨m, there, rfl⟩ m (dArg j.words)
  have stored := store_keeps (a := dOut j.words) (bs := shaFinish hash [] m.manifest.imageBytes) (Touch.Le.refl _)
    (Keeps.refl _ (s.firstExperts m (dArg j.words)))
  refine ⟨{ v with loaded := true, digest := shaFinish hash [] m.manifest.imageBytes }, ?_, isM, rfl, rfl⟩
  rw [State.loadEnded, State.modSlot_slots, stored.slots_eq rfl]
  exact List.mem_map.2 ⟨v, here, by simp [isM]⟩

theorem answers_loadModel_ends (hr : s.recorded j) (isOp : j.opcode = 0x01) (running : j.state = .running)
    (ext : j.ext = .load m.manifest.imageBytes hash) (cp : s.cpRunning j.cp = true) (cp2 : s.cpRunning 2 = true)
    (slot : s.slots.find? (fun v => v.idx == dSlot j.words && v.part == j.part) = some m)
    (hashed : (s.sec.crypto.any fun c => c.uid == some j.uid) = false)
    (out : dOut j.words < hostBase ∨ s.hostOk j.part = true)
    (source : m.experts = [] ∨ s.sourceUp j.part m.source = true ∧ s.sourceHeld m.source 0 m.manifest.imageBytes = false) :
    answers (.loadModel j.uid bad) s fun u =>
      u.recordWaits j (j.endStatus s.now) m.granules.length ∧
      u.bytesAt (dOut j.words) (shaFinish hash [] m.manifest.imageBytes).length = shaFinish hash [] m.manifest.imageBytes ∧
      ∃ v ∈ u.slots, v.idx = m.idx ∧ v.loaded = true ∧ v.digest = shaFinish hash [] m.manifest.imageBytes := by
  obtain ⟨found, -, -, unfinished, -⟩ := id hr
  have ended : Keeps _ (s.loadEnded j m hash) := loadEnded_keeps
  have found' : (s.loadEnded j m hash).job? j.uid = some j := (State.job?_congr (ended.jobs_eq rfl) _).trans found
  have waits := finishUid_recordWaits found' (.refl j) (hr.willRecord.of_qps (ended.qps_eq rfl)) m.granules.length
  have finished := finishUid_keeps (uid := j.uid) (result := m.granules.length) (Touch.Le.refl _)
    (Keeps.refl _ (s.loadEnded j m hash))
  obtain ⟨v, here, isM, loaded, digest⟩ := loadEnded_slot (j := j) (hash := hash) (List.mem_of_find?_eq_some slot)
  rw [ended.now_eq rfl] at waits
  refine answers_of ((exec_loadModel_running found isOp running unfinished ext cp cp2).trans
    (congrArg _ ((loadMore_all slot hashed).trans (endLoad_ends out source)))) ⟨waits, ?_, v, ?_, isM, loaded, digest⟩
  · rw [bytesAt_congr (finished.mems_eq rfl), loadEnded_bytesAt]
  · rw [finishUid_eq found']
    exact finishJob_keeps_loaded here loaded

/-! ## A load whose slot is taken (R255 step 1, R256) -/

/-- A job that has just begun ends with an error. -/
theorem State.Began.failJob_recordWaits (h : s.Began uid op j t) (light : expands op = false) (hr : s.recorded j)
    (err : st ≠ 0) (result : Nat) : (t.failJob j.uid st result).recordWaits j (firstError j.status st) result := by
  obtain ⟨e, quality, running⟩ := h.job? light
  obtain ⟨-, spoken, loud, unfinished, -⟩ := id hr
  obtain rfl := h.isUid
  exact Machine.failJob_recordWaits
    (j := { j with state := .running, unitWait := none, epoch := e, quality := quality })
    ⟨running, spoken, loud, unfinished, (h.willRecord hr).enabled⟩ err result

theorem exec_loadModel_taken (h : s.Began uid 0x01 j t) (fresh : j.ext = .none)
    (taken : t.slots.find? (fun v => v.idx == dSlot j.words) = some m) :
    exec (.loadModel uid bad) s = .next (t.failJob j.uid (if m.part = j.part then stInvalid else stDenied) noResult) := by
  have any : (t.slots.any fun v => v.idx == dSlot j.words) = true :=
    List.any_eq_true.2 ⟨m, List.mem_of_find?_eq_some taken, by simpa using List.find?_some taken⟩
  simp [exec, execLoadModel, h.starting, fresh, State.loadHeld, any, State.startLoad, taken]

theorem answers_loadModel_taken (h : s.Began uid 0x01 j t) (hr : s.recorded j) (fresh : j.ext = .none)
    (taken : s.slots.find? (fun v => v.idx == dSlot j.words) = some m) :
    answers (.loadModel uid bad) s fun u =>
      u.recordWaits j (firstError j.status (if m.part = j.part then 0x30 else 0x31)) noResult := by
  rw [← h.kept.slots_eq rfl] at taken
  exact answers_of (exec_loadModel_taken h fresh taken) (h.failJob_recordWaits rfl hr (by split <;> decide) noResult)

end Sys2Proof.Machine
end

section
/-! SUPPORT. UNLOAD_MODEL (R257), and the statement on LOAD_MODEL and UNLOAD_MODEL (R255 to R257). -/

namespace Sys2Proof.Machine

variable {s t : State} {uid : Nat} {j : Job} {m : Slot} {q : Seq}

/-! ## What leaves with a slot (R257) -/

theorem releaseSeqs_seqs {l : List Seq} (left : q ∈ (l.foldl (fun s q => s.releaseSeq q) s).seqs) :
    q ∈ s.seqs ∧ ∀ x ∈ l, q.idx ≠ x.idx := by
  induction l generalizing s with
  | nil => exact ⟨left, fun _ => (nomatch ·)⟩
  | cons x l ih =>
    obtain ⟨here, others⟩ := ih left
    rw [releaseSeq_seqs, List.mem_filter, bne_iff_ne] at here
    exact ⟨here.1, List.forall_mem_cons.2 ⟨here.2, others⟩⟩

/-- The slot and its sequences are gone. -/
theorem unloadSlot_gone (s : State) (m : Slot) :
    (s.unloadSlot m).slots = (s.slots.filter fun v => v.idx != m.idx) ∧
      ∀ q ∈ (s.unloadSlot m).seqs, ¬(q.slot = m.idx ∧ q.part = m.part) := by
  delta State.unloadSlot
  extract_lets -merge p released dropped ofSlot taken
  have h1 : Keeps ⟨Touch.nothing.parts.kvs.seqs.mems.dram.record, s⟩ released :=
    keepsFold (Q := Keeps _) (Keeps.refl _ s) fun _ _ h => releaseSeq_keeps rfl h
  have h2 : Keeps ⟨Touch.nothing.kvs.mems.dram.record, released⟩ dropped :=
    dropSlotVariants_keeps rfl (dropSlotNodes_keeps rfl (Keeps.refl _ released))
  have slots : dropped.slots = s.slots := (h2.slots_eq rfl).trans (h1.slots_eq rfl)
  have seqs : ∀ q ∈ dropped.seqs, ¬(q.slot = m.idx ∧ q.part = m.part) := by
    rw [h2.seqs_eq rfl]
    intro q left ⟨slot, part⟩
    obtain ⟨here, others⟩ := releaseSeqs_seqs left
    exact others q (List.mem_filter.2 ⟨here, by simp [p, slot, part]⟩) rfl
  clear_value dropped
  exact ⟨congrArg (List.filter _) slots, seqs⟩

/-! ## UNLOAD_MODEL -/

theorem State.Began.slotJobs_nil (h : s.Began uid 0x02 j t) (idle : s.slotJobs j = []) : t.slotJobs j = [] := by
  obtain ⟨g, hg, list⟩ := h.altered
  rw [State.slotJobs, List.filter_eq_nil_iff] at idle ⊢
  intro k hk
  rw [list] at hk
  obtain ⟨i, hi, rfl⟩ := List.mem_map.1 hk
  split
  next same =>
    have own : (g i).uid = j.uid := (hg i).uid.trans ((beq_iff_eq.1 same).trans h.isUid.symm)
    simp [own]
  next => exact idle i hi

theorem find?_and {α : Type} {l : List α} {p q : α → Bool} {x : α} (first : l.find? p = some x) (hq : q x = true) :
    l.find? (fun y => p y && q y) = some x := by
  obtain ⟨hp, before, after, rfl, others⟩ := List.find?_eq_some_iff_append.1 first
  exact List.find?_eq_some_iff_append.2 ⟨by simp [hp, hq], before, after, rfl, fun y hy => by simp [others y hy]⟩

theorem exec_unloadModel (h : s.Began uid 0x02 j t) (slot : t.slots.find? (fun v => v.idx == dSlot j.words) = some m)
    (own : m.part = j.part) (loaded : m.loaded = true) (idle : t.slotJobs j = []) :
    exec (.unloadModel uid) s = .next ((t.unloadSlot m).finishUid j.uid noResult) := by
  have named : t.namedSlot j.part (dSlot j.words) = .inl m := by simp [State.namedSlot, slot, own, loaded]
  have ours := find?_and (q := fun v => v.part == j.part) slot (by simp [own])
  simp [exec, execUnloadModel, h.starting, State.startUnload, named, idle, State.unloadRest, ours]

theorem answers_unloadModel (h : s.Began uid 0x02 j t) (hr : s.recorded j)
    (slot : s.slots.find? (fun v => v.idx == dSlot j.words) = some m) (own : m.part = j.part) (loaded : m.loaded = true)
    (idle : s.slotJobs j = []) :
    answers (.unloadModel uid) s fun u => u.recordWaits j (j.endStatus s.now) noResult ∧
      (∀ v ∈ u.slots, v.idx ≠ m.idx) ∧ ∀ q ∈ u.seqs, ¬(q.slot = m.idx ∧ q.part = m.part) := by
  have unloaded := unloadSlot_keeps (t := m) (Touch.Le.refl _) (Keeps.refl _ t)
  obtain ⟨slots, seqs⟩ := unloadSlot_gone t m
  obtain ⟨k, found, like⟩ := h.altered.job?_same h.found
  obtain rfl := h.isUid
  have found' : (t.unloadSlot m).job? j.uid = some k := (State.job?_congr (unloaded.jobs_eq rfl) _).trans found
  have waits := finishUid_recordWaits found' like ((h.willRecord hr).of_qps (unloaded.qps_eq rfl)) noResult
  rw [unloaded.now_eq rfl, h.kept.now_eq rfl] at waits
  rw [← h.kept.slots_eq rfl] at slot
  refine answers_of (exec_unloadModel h slot own loaded (h.slotJobs_nil idle)) ⟨waits, fun v hv => ?_, ?_⟩
  · rw [finishUid_eq found'] at hv
    have here := finishJob_slots_sub hv
    rw [slots, List.mem_filter, bne_iff_ne] at here
    exact here.2
  · rwa [(finishUid_keeps (Touch.Le.refl _) (Keeps.refl _ (t.unloadSlot m))).seqs_eq rfl]

/-! ## The statement -/

/-- Settles O20: what the last bytes of an image leave in the slot and at OUT_ADDR stays through the end of the job; the slot
that an UNLOAD_MODEL drops, and its sequences, are gone before the job's end, which brings none back. -/
theorem modelLoadedAndUnloaded : Obligations.ModelLoadedAndUnloaded := by
  unfold Obligations.ModelLoadedAndUnloaded
  refine ⟨fun uid bad hash j m s found hr isOp running ext cp cp2 slot hashed out source => ?ends,
    fun uid pos hash j m s found isOp running unfinished ext cp cp2 slot more up whole free =>
      answers_loadModel_next found isOp running unfinished ext cp cp2 slot more up rfl whole free,
    fun uid bad j m s starts hr fresh slot => ?taken, fun uid j m s starts hr slot own loaded idle => ?unload⟩
  case ends =>
    obtain rfl := State.job?_uid found
    exact answers_loadModel_ends hr isOp running ext cp cp2 slot hashed out source
  case taken =>
    obtain ⟨t, began⟩ := starts_began rfl starts
    exact answers_loadModel_taken began hr fresh slot
  case unload =>
    obtain ⟨t, began⟩ := starts_began rfl starts
    exact answers_unloadModel began hr slot own loaded idle

end Sys2Proof.Machine
end

section
/-! SUPPORT. PROMOTION and MOVE_LANDED (R243, R259, R260): the move that a need starts, and what the landing of an expert leaves. -/

namespace Sys2Proof.Machine

variable {s : State} {uid id mv n layer number need planned unissued d : Nat} {j : Job} {m : Move} {v : Slot} {x : Expert}
  {w : Waiter}

/-! ## A move starts (R259) -/

theorem startExpertMove_keeps_rest (s : State) (m : Move) (prio : Nat) :
    Keeps ⟨Touch.nothing.slots.moves.siphon, s⟩ (s.startExpertMove m prio) :=
  startExpertMove_keeps (Touch.Le.refl _) (Keeps.refl _ s)

/-- Of the moves, only this one can have changed: its frames are reserved, or it still waits for them. -/
theorem startExpertMove_moves (s : State) (m : Move) (prio : Nat) :
    (s.startExpertMove m prio).moves = s.moves ∨
      (s.startExpertMove m prio).moves = (s.modMove m.id fun k => { k with started := true }).moves := by
  unfold State.startExpertMove
  split
  next => exact .inl rfl
  next slot layer number _ =>
    split
    next => exact .inl rfl
    next v _ =>
      split
      next => exact .inl rfl
      next x _ =>
        extract_lets r
        split
        next => exact .inl rfl
        next =>
          split
          next => exact .inl rfl
          next frames _ =>
            extract_lets reserved
            refine .inr ?_
            have placed : Keeps ⟨Touch.nothing.siphon, reserved.modMove m.id fun k => { k with started := true }⟩ _ :=
              keepsFold (f := fun (s : State) a =>
                  (s.placeOwn m.part m.id prio a slotBytes).placeOwn m.part m.id prio (sidecarOf a) 1024) (l := frames)
                (Q := Keeps _) (Keeps.refl _ _) fun _ _ h => placeOwn_keeps rfl (placeOwn_keeps rfl h)
            exact placed.moves_eq rfl

/-! ## A job joins a move (R260) -/

/-- The first to wait on a move, before its deadline, has nothing decided for it yet. -/
theorem joinMove_first (found : s.job? w.uid = some j) (move : s.moves.find? (fun k => k.id == id) = some m)
    (first : m.waiters = []) (quiet : s.replay.state ≠ .running) (inexact : w.exact = false) (undecided : w.path = .undecided)
    (due : w.deadline = some d) (early : s.now ≤ d) :
    s.joinMove id w = s.modMove id fun k => { k with waiters := k.waiters ++ [w] } := by
  obtain ⟨uid, deadline, exact, path, layer, seq, head, index⟩ := w
  obtain rfl : exact = false := inexact
  obtain rfl : path = .undecided := undecided
  obtain rfl : deadline = some d := due
  have apart : (s.replay.state == .running && s.replay.part == j.part) = false := by simp [quiet]
  have now : ∀ f, (s.modMove id f).now = s.now := fun _ => rfl
  simp [State.joinMove, found, move, first, apart, now, Move.decision, early.not_gt]

/-! ## PROMOTION -/

theorem exec_promotion (found : s.job? uid = some j) (needs : (servingOp j.opcode || j.opcode == 0x0C) = true)
    (running : j.state = .running) (unfinished : j.finished = false) (up : s.cpRunning 2 = true)
    (slot : s.namedSlot j.part (dSlot j.words) = .inl v) :
    exec (.promotion uid layer number need planned unissued) s =
      .next (s.needExpert j v layer number need planned unissued) := by
  simp [exec, execPromotion, found, needs, running, unfinished, up, slot]

/-- The move of an expert that nothing has moved before, and the job that needs it. -/
def expertMove (id : Nat) (j : Job) (v : Slot) (layer number : Nat) : Move :=
  { id := id, part := j.part, what := .expert v.idx layer number, started := false, frames := [], waiters := [] }

def expertWaiter (j : Job) (layer number d : Nat) : Waiter :=
  { uid := j.uid, deadline := some d, exact := false, path := .undecided, layer := layer, seq := 0, head := 0, index := number }

/-- The state with the new move, before its frames are sought. -/
def State.moveMade (s : State) (j : Job) (v : Slot) (layer number : Nat) : State :=
  { s.modSlot v.idx fun v => v.modExpert layer number fun x => { x with lastUse := s.now } with
    moves := [expertMove s.nextMove j v layer number] }

theorem needExpert_starts_move (expert : v.experts.find? (fun x => x.layer == layer && x.number == number) = some x)
    (away : x.cached = false) (idle : s.moves = []) : s.needExpert j v layer number need planned unissued =
      ((s.moveMade j v layer number).startExpertMove (expertMove s.nextMove j v layer number) j.prio).joinMove s.nextMove
        (expertWaiter j layer number (fetchTick (s.part j.part).ratePct need planned unissued)) := by
  simp only [State.needExpert, expert, away, State.modSlot_moves, idle]
  rfl

theorem answers_promotion (found : s.job? uid = some j) (needs : (servingOp j.opcode || j.opcode == 0x0C) = true)
    (running : j.state = .running) (unfinished : j.finished = false) (up : s.cpRunning 2 = true)
    (quiet : s.replay.state ≠ .running) (slot : s.namedSlot j.part (dSlot j.words) = .inl v)
    (expert : v.experts.find? (fun x => x.layer == layer && x.number == number) = some x) (away : x.cached = false)
    (idle : s.moves = []) (early : s.now ≤ fetchTick (s.part j.part).ratePct need planned unissued) :
    answers (.promotion uid layer number need planned unissued) s fun u => ∃ m, u.moves = [m] ∧
      m.part = j.part ∧ m.what = .expert v.idx layer number ∧ ∃ w ∈ m.waiters, w.uid = uid ∧
        w.deadline = some (fetchTick (s.part j.part).ratePct need planned unissued) := by
  obtain rfl := State.job?_uid found
  refine answers_of ((exec_promotion found needs running unfinished up slot).trans
    (congrArg _ (needExpert_starts_move expert away idle))) ?_
  have kept := startExpertMove_keeps_rest (s.moveMade j v layer number) (expertMove s.nextMove j v layer number) j.prio
  obtain ⟨b, moves⟩ : ∃ b, ((s.moveMade j v layer number).startExpertMove (expertMove s.nextMove j v layer number)
      j.prio).moves = [{ expertMove s.nextMove j v layer number with started := b }] := by
    rcases startExpertMove_moves (s.moveMade j v layer number) (expertMove s.nextMove j v layer number) j.prio with e | e
    · exact ⟨false, e⟩
    · exact ⟨true, e.trans (by simp [State.modMove, State.moveMade])⟩
  generalize (s.moveMade j v layer number).startExpertMove (expertMove s.nextMove j v layer number) j.prio = t at *
  have joined := joinMove_first (s := t) (id := s.nextMove)
    (w := expertWaiter j layer number (fetchTick (s.part j.part).ratePct need planned unissued))
    (m := { expertMove s.nextMove j v layer number with started := b })
    ((State.job?_congr (kept.jobs_eq rfl) _).trans found) (by simp [moves, expertMove]) rfl
    (by rw [kept.replay_eq rfl]; exact quiet) rfl rfl rfl (by rw [kept.now_eq rfl]; exact early)
  rw [joined]
  refine ⟨_, congrArg (List.map _) moves, ?_⟩
  simp [expertMove, expertWaiter]

/-! ## MOVE_LANDED (R243) -/

theorem slot?_modSlot_same (n : Nat) {f : Slot → Slot} (hf : ∀ v, (f v).idx = v.idx ∧ (f v).loaded = v.loaded) :
    (s.modSlot n f).slot? n = (s.slot? n).map f := by
  have same : ((fun v : Slot => v.idx == n && v.loaded) ∘ fun v => if v.idx == n then f v else v) =
      fun v => v.idx == n && v.loaded := by
    funext v
    by_cases isN : v.idx = n <;> simp [isN, hf]
  rw [State.slot?, State.modSlot_slots, List.find?_map, same, ← State.slot?]
  cases found : s.slot? n with
  | none => rfl
  | some v =>
    have isN : v.idx = n := by
      have := List.find?_some found
      simp only [Bool.and_eq_true, beq_iff_eq] at this
      exact this.1
    simp [isN]

/-- The expert is in its frames, and the move is gone. -/
def State.expertLanded (s : State) (m : Move) (n layer number : Nat) (v : Slot) (x : Expert) : State :=
  ({ s with moves := s.moves.filter fun k => k.id != m.id }.copyTrus v 0 x.trus x.frames).modSlot n fun v =>
    v.modExpert layer number fun x => { x with cached := true, moving := false, lastUse := s.now }

theorem expertLanded_copies (s : State) (m : Move) (n layer number : Nat) (v : Slot) (x : Expert) :
    Keeps ⟨Touch.nothing.slots.mems.dram.flash.record, { s with moves := s.moves.filter fun k => k.id != m.id }⟩
      (s.expertLanded m n layer number v x) :=
  modSlot_keeps rfl (copyTrus_keeps rfl (Keeps.refl _ _))

/-- The landed move's waiting jobs have their counters signalled (R105). -/
def State.landSignalled (s : State) (m : Move) : State :=
  (s.moveCounters m).foldl (fun s c => s.signal c 0x5A (some m.part)) s

theorem landSignalled_keeps (s : State) (m : Move) : Keeps ⟨Touch.nothing.engines.counters.record, s⟩ (s.landSignalled m) :=
  keepsFold (Q := Keeps _) (Keeps.refl _ s) fun _ _ h => signal_keeps rfl h

section
variable (what : m.what = .expert n layer number) (slot : s.slot? n = some v)
  (expert : v.experts.find? (fun x => x.layer == layer && x.number == number) = some x)
include slot expert

/-- The landed expert is in T2. -/
theorem expertLanded_slot : ∃ v', (s.expertLanded m n layer number v x).slot? n = some v' ∧ ∃ y ∈ v'.experts,
    y.layer = layer ∧ y.number = number ∧ y.cached = true ∧ y.moving = false ∧ y.lastUse = s.now := by
  have copied := copyTrus_keeps (t := v) (ram := 0) (trus := x.trus) (frames := x.frames) (Touch.Le.refl _)
    (Keeps.refl _ { s with moves := s.moves.filter fun k => k.id != m.id })
  have slot' : ({ s with moves := s.moves.filter fun k => k.id != m.id }.copyTrus v 0 x.trus x.frames).slot? n = some v := by
    rw [State.slot?, copied.slots_eq rfl]
    exact slot
  have named := List.find?_some expert
  simp only [Bool.and_eq_true, beq_iff_eq] at named
  refine ⟨_, (slot?_modSlot_same n (by exact fun _ => ⟨rfl, rfl⟩)).trans (congrArg _ slot'),
    { x with cached := true, moving := false, lastUse := s.now },
    List.mem_map.2 ⟨x, List.mem_of_find?_eq_some expert, by simp [named]⟩, named.1, named.2, rfl, rfl, rfl⟩

include what

theorem landMove_expert :
    s.landMove m = ((s.expertLanded m n layer number v x).landSignalled m).startMoves m.part := by
  have slot' : { s with moves := s.moves.filter fun k => k.id != m.id }.slot? n = some v := slot
  simp only [State.landMove, what, slot', expert]
  rfl

end

theorem exec_moveLanded (move : s.moves.find? (fun m => m.id == mv && m.started) = some m) (whole : s.moveTorn m = false)
    (free : s.moveHeld m = false) (done : s.ownOut mv = false) (up : s.cpRunning 2 = true) (source : s.moveSourceUp m = true) :
    exec (.moveLanded mv) s = .next (s.landMove m) := by
  simp [exec, execMoveLanded, move, whole, free, done, up, source]

theorem answers_moveLanded (move : s.moves.find? (fun m => m.id == mv && m.started) = some m)
    (what : m.what = .expert n layer number) (slot : s.slot? n = some v) (source : s.sourceUp m.part v.source = true)
    (expert : v.experts.find? (fun x => x.layer == layer && x.number == number) = some x) (whole : s.moveTorn m = false)
    (free : s.moveHeld m = false) (done : s.ownOut mv = false) (up : s.cpRunning 2 = true)
    (started : ∀ k ∈ s.moves, k.started = true) :
    answers (.moveLanded mv) s fun u => (∀ k ∈ u.moves, k.id ≠ mv) ∧
      ∃ v, u.slot? n = some v ∧ ∃ y ∈ v.experts, y.layer = layer ∧ y.number = number ∧ y.cached = true ∧ y.moving = false ∧
        y.lastUse = s.now := by
  have isMv : m.id = mv := by
    have := List.find?_some move
    simp only [Bool.and_eq_true, beq_iff_eq] at this
    exact this.1
  have signalled := landSignalled_keeps (s.expertLanded m n layer number v x) m
  have moves : ((s.expertLanded m n layer number v x).landSignalled m).moves = s.moves.filter fun k => k.id != m.id :=
    (signalled.moves_eq rfl).trans ((expertLanded_copies s m n layer number v x).moves_eq rfl)
  have reachable : s.moveSourceUp m = true := by simp [State.moveSourceUp, what, slot, source]
  refine answers_of (exec_moveLanded move whole free done up reachable) ?_
  rw [landMove_expert what slot expert, startMoves_of_started (by
    rw [moves]
    exact fun k hk => started k (List.mem_of_mem_filter hk))]
  refine ⟨fun k hk => ?_, ?_⟩
  · rw [moves, List.mem_filter, bne_iff_ne, isMv] at hk
    exact hk.2
  · rw [State.slot?, signalled.slots_eq rfl]
    exact expertLanded_slot slot expert

end Sys2Proof.Machine
end

section
/-! SUPPORT. FETCH_DEADLINE (R260, R261): the path that a missed deadline gives a job, and the statement on moves between tiers. -/

namespace Sys2Proof.Machine

variable {s : State} {mv uid : Nat} {j : Job} {m n : Move} {w v : Waiter} {path : WaitPath}

/-! ## The path of a job's waiters (R261) -/

theorem setPath_path (here : n ∈ (s.setPath m w path).moves) (isM : n.id = m.id) (hv : v ∈ n.waiters) (same : w.with v = true) :
    v.path = path := by
  obtain ⟨k, -, rfl⟩ := List.mem_map.1 here
  by_cases isK : k.id = m.id
  · simp only [isK, beq_self_eq_true, if_true] at hv
    obtain ⟨x, -, rfl⟩ := List.mem_map.1 hv
    by_cases mine : w.with x = true
    · simp [mine]
    · rw [if_neg mine] at same
      exact absurd same mine
  · simp [isK] at isM

theorem setPath_waiter (there : m ∈ s.moves) (waits : w ∈ m.waiters) (inexact : w.exact = false) :
    ∃ n ∈ (s.setPath m w path).moves, n.id = m.id ∧ { w with path := path } ∈ n.waiters := by
  refine ⟨_, List.mem_map_of_mem there, ?_⟩
  simp only [beq_self_eq_true, if_true, true_and]
  exact List.mem_map.2 ⟨w, waits, by simp [Waiter.with, inexact]⟩

/-! ## The cheaper path (R261) -/

/-- The job reads the expert's shadow from now on, or did without the page. -/
def Job.cheaper (j : Job) : MoveWhat → Job
  | .expert _ layer number => { j with shadowed := (layer, number) :: j.shadowed, quality := j.quality ||| qShadow }
  | .page _ => { j with quality := j.quality ||| qDropped }

theorem takeCheap_moves (s : State) (m : Move) (w : Waiter) (j : Job) :
    (s.takeCheap m w j).moves = (s.setPath m w .cheap).moves := by
  delta State.takeCheap
  extract_lets traced
  have same : traced.moves = (s.setPath m w .cheap).moves :=
    (tracePart_keeps (Touch.Le.refl _) (Keeps.refl _ (s.setPath m w .cheap))).moves_eq rfl
  split <;> exact same

theorem takeCheap_job? (found : s.job? j.uid = some j) : (s.takeCheap m w j).job? j.uid = some (j.cheaper m.what) := by
  delta State.takeCheap
  extract_lets traced
  have found' : traced.job? j.uid = some j := (State.job?_congr
    ((tracePart_keeps (Touch.Le.refl _) (Keeps.refl _ (s.setPath m w .cheap))).jobs_eq rfl) _).trans found
  split
  next slot layer number what =>
    rw [what]
    exact (State.job_modJob_same _ _ _ (by exact fun _ => rfl)).trans
      (congrArg _ ((State.job_modJob_same _ _ _ (by exact fun _ => rfl)).trans (congrArg _ found')))
  next i what =>
    rw [what]
    exact (State.job_modJob_same _ _ _ (by exact fun _ => rfl)).trans (congrArg _ found')

theorem decidePath_cheap (found : s.job? w.uid = some j) (may : s.cheapOk j = true) : s.decidePath m w = s.takeCheap m w j := by
  simp [State.decidePath, found, may]

/-! ## The late fetch (R261) -/

theorem decidePath_late (found : s.job? w.uid = some j) (must : s.cheapOk j = false) : s.decidePath m w = s.waitLate m w j := by
  simp [State.decidePath, found, must]

/-- The job waits on, and its partition counts the late fetch. -/
theorem waitLate_counts (shaped : s.shaped = true) (there : j.part < 8) : (s.waitLate m w j).jobs = s.jobs ∧
    (s.waitLate m w j).moves = (s.setPath m w .late).moves ∧
    ((s.waitLate m w j).part j.part).ctr.lateFetches = min (2 ^ 32 - 1) ((s.part j.part).ctr.lateFetches + 1) := by
  delta State.waitLate
  extract_lets traced
  have kept : Keeps _ traced := tracePart_keeps (Touch.Le.refl _) (Keeps.refl _ (s.setPath m w .late))
  have parts : traced.parts = s.parts := kept.parts_eq rfl
  refine ⟨kept.jobs_eq rfl, kept.moves_eq rfl, ?_⟩
  rw [State.part_modPart_same _ _ (by rw [parts, (shaped_counts shaped).parts]; exact there), State.part, parts, ← State.part]
  rfl

/-! ## FETCH_DEADLINE -/

section
variable (move : s.moves.find? (fun m => m.id == mv) = some m)
include move

theorem exec_fetchDeadline_due
    (due : (m.waiters.filter fun w => w.uid == uid && w.path != .cheap).find? (fun w => w.path == .undecided &&
      w.deadline.any fun d => decide (d ≤ s.now)) = some w) :
    exec (.fetchDeadline mv uid false) s = .next (s.decidePath m w) := by
  simp only [exec, execFetchDeadline, move, due, Bool.false_eq_true, if_false]

theorem exec_fetchDeadline_early (early : ∀ w ∈ m.waiters, w.uid = uid → ∀ d ∈ w.deadline, s.now < d) :
    exec (.fetchDeadline mv uid false) s = .next s := by
  have none_due : (m.waiters.filter fun w => w.uid == uid && w.path != .cheap).find? (fun w => w.path == .undecided &&
      w.deadline.any fun d => decide (d ≤ s.now)) = none := by
    refine List.find?_eq_none.2 fun w hw => ?_
    obtain ⟨waits, mine⟩ := List.mem_filter.1 hw
    simp only [Bool.and_eq_true, beq_iff_eq] at mine
    have later := early w waits mine.1
    cases dl : w.deadline with
    | none => simp
    | some d => simp [later d dl]
  simp only [exec, execFetchDeadline, move, none_due, Bool.false_eq_true, if_false]

end

/-- The waiter that a missed deadline decides for is one of the job's. -/
theorem due_waiter {now : Nat} (due : (m.waiters.filter fun w => w.uid == uid && w.path != .cheap).find? (fun w =>
      w.path == .undecided && w.deadline.any fun d => decide (d ≤ now)) = some w) : w ∈ m.waiters ∧ w.uid = uid := by
  obtain ⟨waits, mine⟩ := List.mem_filter.1 (List.mem_of_find?_eq_some due)
  simp only [Bool.and_eq_true, beq_iff_eq] at mine
  exact ⟨waits, mine.1⟩

section
variable (move : s.moves.find? (fun m => m.id == mv) = some m)
  (due : (m.waiters.filter fun w => w.uid == uid && w.path != .cheap).find? (fun w => w.path == .undecided &&
    w.deadline.any fun d => decide (d ≤ s.now)) = some w) (found : s.job? uid = some j)
include move due found

theorem answers_fetchDeadline_cheap (may : s.cheapOk j = true) :
    answers (.fetchDeadline mv uid false) s fun u => u.job? uid = some (j.cheaper m.what) ∧
      ∀ n ∈ u.moves, n.id = mv → ∀ v ∈ n.waiters, w.with v = true → v.path = .cheap := by
  obtain ⟨-, mine⟩ := due_waiter due
  obtain rfl := State.job?_uid found
  obtain rfl : m.id = mv := by simpa using List.find?_some move
  refine answers_of ((exec_fetchDeadline_due move due).trans
    (congrArg _ (decidePath_cheap (by rw [mine, found]) may))) ⟨takeCheap_job? found, ?_⟩
  rw [takeCheap_moves]
  exact fun n hn isM v hv same => setPath_path hn isM hv same

theorem answers_fetchDeadline_late (inexact : w.exact = false) (must : s.cheapOk j = false) (shaped : s.shaped = true)
    (there : j.part < 8) : answers (.fetchDeadline mv uid false) s fun u => u.jobs = s.jobs ∧
      (u.part j.part).ctr.lateFetches = min (2 ^ 32 - 1) ((s.part j.part).ctr.lateFetches + 1) ∧
      ∃ n ∈ u.moves, n.id = mv ∧ ∃ v ∈ n.waiters, v = { w with path := .late } := by
  obtain ⟨waits, mine⟩ := due_waiter due
  obtain rfl : m.id = mv := by simpa using List.find?_some move
  obtain ⟨jobs, moves, counted⟩ := waitLate_counts (m := m) (w := w) shaped there
  obtain ⟨n, hn, isM, late⟩ := setPath_waiter (path := .late) (List.mem_of_find?_eq_some move) waits inexact
  rw [← moves] at hn
  exact answers_of ((exec_fetchDeadline_due move due).trans
    (congrArg _ (decidePath_late (by rw [mine, found]) must))) ⟨jobs, counted, n, hn, isM, _, late, rfl⟩

end

/-! ## The statement -/

/-- Settles O21: the move that a need starts is the only one, and the job joins it undecided; a landing changes the expert in
place, and its signals leave slots and moves alone; at the deadline `cheapOk` decides the path, which `setPath` notes. -/
theorem expertsAndPagesMoved : Obligations.ExpertsAndPagesMoved := by
  unfold Obligations.ExpertsAndPagesMoved
  refine ⟨fun uid layer number need planned unissued j v x s found needs running unfinished up quiet slot expert away idle early =>
      answers_promotion found needs running unfinished up quiet slot expert away idle early,
    fun mv n layer number m v x s move what slot source expert whole free done up started =>
      answers_moveLanded move what slot source expert whole free done up started,
    fun mv uid m w j s move due inexact found may => ?cheap,
    fun mv uid m w j s move due inexact found must shaped there =>
      answers_fetchDeadline_late move due found inexact must shaped there,
    fun mv uid m s move early => exec_fetchDeadline_early move early⟩
  case cheap =>
    obtain ⟨u, step, job, paths⟩ := answers_fetchDeadline_cheap move due found may
    refine ⟨u, step, job.trans ?_, paths⟩
    cases m.what <;> rfl

end Sys2Proof.Machine
end

section
/-! SUPPORT. What every operation but the DRAM controller's own leaves of the controller (R266 to R287): its ports and its
channels, apart from the times of uncorrectable errors (R276), the granules that are backed, and the count of channels mapped
out. -/

namespace Sys2Proof.Machine

variable {s t u : State} {may : Touch}

/-- In `t` the DRAM controller stands as in `s`, but for the times at which its channels met uncorrectable errors. -/
structure State.SameDram (s t : State) : Prop where
  ports : t.dram.ports = s.dram.ports
  chans : ∀ n, ∃ ts, t.chan n = { s.chan n with errTimes := ts }
  backed : t.dram.granulesBacked = s.dram.granulesBacked
  mapped : t.faults.channelsOut = s.faults.channelsOut

theorem State.SameDram.refl (s : State) : s.SameDram s := ⟨rfl, fun _ => ⟨_, rfl⟩, rfl, rfl⟩

theorem State.SameDram.trans (h : s.SameDram t) (k : t.SameDram u) : s.SameDram u where
  ports := k.ports.trans h.ports
  chans n := by
    obtain ⟨ts, ht⟩ := h.chans n
    obtain ⟨us, hu⟩ := k.chans n
    exact ⟨us, by rw [hu, ht]⟩
  backed := k.backed.trans h.backed
  mapped := k.mapped.trans h.mapped

theorem State.SameDram.of_chans (ports : t.dram.ports = s.dram.ports) (chans : t.dram.chans = s.dram.chans)
    (backed : t.dram.granulesBacked = s.dram.granulesBacked) (mapped : t.faults.channelsOut = s.faults.channelsOut) :
    s.SameDram t :=
  ⟨ports, fun n => ⟨(s.chan n).errTimes, by rw [State.chan, chans, State.chan]⟩, backed, mapped⟩

theorem State.SameDram.of_dram (dram : t.dram = s.dram) (mapped : t.faults.channelsOut = s.faults.channelsOut) :
    s.SameDram t :=
  .of_chans (by rw [dram]) (by rw [dram]) (by rw [dram]) mapped

theorem State.SameDram.of_keeps (h : Keeps ⟨may, s⟩ t) (dram : may.tDram = false) (faults : may.tFaults = false) :
    s.SameDram t :=
  .of_dram (h.dram_eq dram) (by rw [h.faults_eq faults])

theorem State.SameDram.dport (h : s.SameDram t) (n : Nat) : t.dport n = s.dport n := by
  rw [State.dport, h.ports, State.dport]

/-! ## The active channels -/

theorem activeChans_congr (h : ∀ n, (t.chan n).active = (s.chan n).active) : t.activeChans = s.activeChans := by
  simp only [State.activeChans, h]

theorem reqChan_congr (h : ∀ n, (t.chan n).active = (s.chan n).active) (r : Req) : t.reqChan r = s.reqChan r := by
  rw [State.reqChan, activeChans_congr h, State.reqChan]

theorem State.SameDram.active (h : s.SameDram t) (n : Nat) : (t.chan n).active = (s.chan n).active := by
  obtain ⟨ts, ht⟩ := h.chans n
  rw [ht]

/-- A change of one channel, as any channel shows it. -/
theorem chan_modChan_cases (s : State) (c n : Nat) (f : Chan → Chan) :
    (s.modChan c f).chan n = s.chan n ∨ (s.modChan c f).chan n = f (s.chan n) := by
  by_cases h : c = n
  · subst h
    by_cases hc : c < s.dram.chans.length
    · exact .inr (State.chan_modChan_same s f hc)
    · have out : (s.modChan c f).chan c = Chan.reset := List.getD_eq_default _ _ (by simpa using hc)
      exact .inl (out.trans (List.getD_eq_default _ _ (by omega)).symm)
  · exact .inl (State.chan_modChan_other s f h)

/-- A change of one port, as any port shows it. -/
theorem dport_modDport_cases (s : State) (c n : Nat) (f : Port → Port) :
    (s.modDport c f).dport n = s.dport n ∨ (s.modDport c f).dport n = f (s.dport n) := by
  by_cases h : c = n
  · subst h
    by_cases hc : c < s.dram.ports.length
    · exact .inr (State.dport_modDport_same s f hc)
    · have out : (s.modDport c f).dport c = Port.reset 0 := List.getD_eq_default _ _ (by simpa using hc)
      exact .inl (out.trans (List.getD_eq_default _ _ (by omega)).symm)
  · exact .inl (State.dport_modDport_other s f h)

/-- What no change of one channel alters, no channel has altered. -/
theorem chan_modChan_field {α : Type} (field : Chan → α) {f : Chan → Chan} (kept : ∀ c, field (f c) = field c) (s : State)
    (c n : Nat) : field ((s.modChan c f).chan n) = field (s.chan n) := by
  rcases chan_modChan_cases s c n f with h | h <;> rw [h]
  exact kept _

theorem dport_modDport_field {α : Type} (field : Port → α) {f : Port → Port} (kept : ∀ p, field (f p) = field p) (s : State)
    (c n : Nat) : field ((s.modDport c f).dport n) = field (s.dport n) := by
  rcases dport_modDport_cases s c n f with h | h <;> rw [h]
  exact kept _

/-! ## Occurrences and writes -/

theorem enterFault_channelsOut (r : FaultRec) : (s.enterFault r).faults.channelsOut = s.faults.channelsOut := by
  simp only [State.enterFault]
  split
  · rfl
  · rw [State.raiseMsix_faults]

theorem raise_channelsOut (source cls detail : Nat) (part : Option Nat) (tag info : Nat) :
    (s.raise source cls detail part tag info).faults.channelsOut = s.faults.channelsOut := by
  simp only [State.raise]
  split
  · exact enterFault_channelsOut _
  split
  · exact enterFault_channelsOut _
  · split
    · exact enterFault_channelsOut _
    split <;> rfl

theorem raise_dram (s : State) (source cls detail : Nat) (part : Option Nat) (tag info : Nat) :
    (s.raise source cls detail part tag info).dram = s.dram :=
  (raise_keeps (Touch.Le.refl _) (Keeps.refl _ s)).dram_eq rfl

theorem raise_sameDram (s : State) (source cls detail : Nat) (part : Option Nat) (tag info : Nat) :
    s.SameDram (s.raise source cls detail part tag info) :=
  .of_dram (raise_dram ..) (raise_channelsOut ..)

theorem dramWordError_sameDram (s : State) (a : Nat) : s.SameDram (s.dramWordError a) := by
  refine (raise_sameDram ..).trans ⟨rfl, fun n => ?_, rfl, rfl⟩
  rcases chan_modChan_cases _ _ n _ with h | h
  · exact ⟨_, h⟩
  · exact ⟨_, h⟩

theorem reportWords_sameDram (s : State) (ws : List Nat) : s.SameDram (s.reportWords ws) :=
  keepsFold (Q := s.SameDram) (.refl s) fun _ _ h => h.trans (dramWordError_sameDram ..)

theorem put_sameDram (s : State) (a : Nat) (bs : List Byte) : s.SameDram (s.put a bs) := .of_chans rfl rfl rfl rfl

theorem store_sameDram (s : State) (a : Nat) (bs : List Byte) : s.SameDram (s.store a bs) :=
  (reportWords_sameDram ..).trans (put_sameDram ..)

theorem fill_sameDram (s : State) (a n : Nat) (b : Byte) : s.SameDram (s.fill a n b) := .of_chans rfl rfl rfl rfl

theorem loseGranule_sameDram (s : State) (g : Nat) : s.SameDram (s.loseGranule g) := .of_chans rfl rfl rfl rfl

/-! ## The trace -/

theorem traceWrite_sameDram (s : State) (r : TraceRec) : s.SameDram (s.traceWrite r) := by
  unfold State.traceWrite
  extract_lets ws h base w
  have put : s.SameDram w := keepsFold (Q := s.SameDram) (.refl s) fun _ _ h => h.trans (put_sameDram ..)
  exact put.trans (.of_dram rfl rfl)

theorem traceDrain_sameDram (s : State) (n : Nat) : s.SameDram (s.traceDrain n) := by
  induction n generalizing s with
  | zero => exact .refl s
  | succ n ih =>
    unfold State.traceDrain
    split
    next r rest _ =>
      split
      · have kept : (s.traceWrite r).SameDram ((s.traceWrite r).keepStore rest) := .of_dram rfl rfl
        exact ((traceWrite_sameDram s r).trans kept).trans (ih _)
      · exact .refl s
    next =>
      split
      · exact (traceWrite_sameDram ..).trans (.of_dram rfl rfl)
      · exact .refl s

theorem traceEmit_sameDram (s : State) (r : TraceRec) : s.SameDram (s.traceEmit r) := by
  unfold State.traceEmit
  extract_lets u
  refine State.SameDram.trans (t := u) (traceDrain_sameDram ..) ?_
  split
  · exact traceWrite_sameDram ..
  · split <;> exact .of_dram rfl rfl

theorem traceEvent_sameDram (s : State) (unit code : Nat) : s.SameDram (s.traceEvent unit code) := by
  unfold State.traceEvent
  split
  · exact traceEmit_sameDram ..
  · exact .refl s

/-! ## What the end of a job leaves (R41, R145) -/

theorem dropRef_sameDram (s : State) (p i : Nat) : s.SameDram (s.dropRef p i) := store_sameDram ..

theorem dropGroups_sameDram (s : State) (p : Nat) (gs : List Group) : s.SameDram (s.dropGroups p gs) :=
  .of_keeps (dropGroups_keeps (Touch.Le.refl _) (Keeps.refl _ s)) rfl rfl

theorem releaseSeq_sameDram (s : State) (q : Seq) : s.SameDram (s.releaseSeq q) := by
  unfold State.releaseSeq
  extract_lets p unreferenced ungrouped freed
  have references : s.SameDram unreferenced := keepsFold (Q := s.SameDram) (.refl s) fun _ _ h => h.trans (dropRef_sameDram ..)
  have groups : unreferenced.SameDram ungrouped := dropGroups_sameDram ..
  have frames : ungrouped.SameDram freed :=
    .of_keeps (keepsFold (Q := Keeps ⟨Touch.nothing.kvs, ungrouped⟩) (freeSums_keeps (Touch.Le.refl _) (Keeps.refl _ _))
      fun _ _ h => freeFrame_keeps (Touch.Le.refl _) h) rfl rfl
  exact ((references.trans groups).trans frames).trans (.of_dram rfl rfl)

theorem restoreEnt_sameDram (s : State) (e : Ent) : s.SameDram (s.restoreEnt e) := by
  unfold State.restoreEnt
  split
  · split
    · exact releaseSeq_sameDram ..
    · exact .refl s
  · exact .of_keeps (setLength_keeps (Touch.Le.refl _) (Keeps.refl _ s)) rfl rfl

theorem writeL1_sameDram (s : State) (f : SumFrame) (block : Nat) (r : L1) : s.SameDram (s.writeL1 f block r) :=
  (store_sameDram ..).trans (store_sameDram ..)

theorem rewiden_sameDram (s : State) (p : Nat) (q : Seq) (g : Group) : s.SameDram (s.rewiden p q g) := by
  unfold State.rewiden
  extract_lets block later
  split
  · extract_lets out
    have widened : s.SameDram out.1 :=
      keepsFold (Q := fun a : State × L1 => s.SameDram a.1) (.refl s) fun a x h => h.trans (.of_dram rfl rfl)
    exact widened.trans (writeL1_sameDram ..)
  · exact .refl s

theorem undoGroup_sameDram (s : State) (p uid : Nat) (g : Group) : s.SameDram (s.undoGroup p uid g) := by
  unfold State.undoGroup
  extract_lets unflushed r g' marked
  have page : s.SameDram unflushed := by
    unfold unflushed
    split
    · split
      · exact .refl s
      · extract_lets widened unreferenced
        have references : widened.SameDram unreferenced :=
          keepsFold (Q := widened.SameDram) (.refl _) fun _ _ h => h.trans (dropRef_sameDram ..)
        exact ((rewiden_sameDram ..).trans references).trans (.of_dram rfl rfl)
    · exact .refl s
  have noted : unflushed.SameDram marked := .of_dram rfl rfl
  exact (page.trans noted).trans (.of_keeps (shrinkGroup_keeps (Touch.Le.refl _) (Keeps.refl _ _)) rfl rfl)

theorem undoAppends_sameDram (s : State) (p uid : Nat) : s.SameDram (s.undoAppends p uid) := by
  refine keepsFold (Q := s.SameDram) (.refl s) fun t g h => ?_
  split
  · exact h.trans (undoGroup_sameDram ..)
  · exact h

theorem scrambleOut_sameDram (s : State) (p a n : Nat) : s.SameDram (s.scrambleOut p a n) := by
  unfold State.scrambleOut
  split
  · exact (put_sameDram ..).trans (.of_dram rfl rfl)
  · exact .refl s

theorem scramblePatches_sameDram (s : State) (j : Job) : s.SameDram (s.scramblePatches j) := by
  unfold State.scramblePatches
  extract_lets area rows
  have scrambled : s.SameDram rows := scrambleOut_sameDram ..
  split
  · exact keepsFold (Q := s.SameDram) scrambled fun _ _ h => h.trans (scrambleOut_sameDram ..)
  · exact scrambled

theorem cancelEffects_sameDram (s : State) (j : Job) : s.SameDram (s.cancelEffects j) := by
  unfold State.cancelEffects
  extract_lets out patches undone
  have first : s.SameDram patches := by
    unfold patches
    split
    · exact (scrambleOut_sameDram ..).trans (scramblePatches_sameDram ..)
    · exact scrambleOut_sameDram ..
  have second : s.SameDram undone := by
    unfold undone
    split
    · exact first.trans (undoAppends_sameDram ..)
    · exact first
  split
  · exact keepsFold (Q := s.SameDram) second fun _ _ h => h.trans (restoreEnt_sameDram ..)
  · split
    · exact second.trans (.of_dram rfl rfl)
    · exact second
  · exact second

theorem failJob_sameDram (s : State) (uid status result : Nat) : s.SameDram (s.failJob uid status result) := by
  unfold State.failJob
  extract_lets out
  have withdrawn : s.SameDram out :=
    (.of_keeps (jobError_keeps (Touch.Le.refl _) (Keeps.refl _ s)) rfl rfl : s.SameDram (s.jobError uid status)).trans
      (.of_keeps (withdraw_keeps (Touch.Le.refl _) (Keeps.refl _ _)) rfl rfl)
  split
  · exact withdrawn
  · next j _ =>
    extract_lets undone
    have effects : out.SameDram undone := by
      unfold undone
      split
      · exact cancelEffects_sameDram ..
      · exact .refl _
    split
    · exact withdrawn
    · exact (withdrawn.trans effects).trans (.of_keeps (finishJob_keeps (Touch.Le.refl _) (Keeps.refl _ undone)) rfl rfl)

theorem failJob'_sameDram (s : State) (uid status : Nat) : s.SameDram (s.failJob' uid status) := by
  unfold State.failJob'
  split
  · exact .refl s
  · exact failJob_sameDram ..

theorem failAllJobs_sameDram (s : State) : s.SameDram s.failAllJobs :=
  keepsFold (Q := s.SameDram) (.refl s) fun _ _ h => h.trans (failJob'_sameDram ..)

end Sys2Proof.Machine
end

section
/-! SUPPORT. The DRAM controller's own operations (R281 to R286), each once: the evaluation of urgency and what it revokes, the
entry of a request into its queue, the filling of freed places, and an answer to a port. -/

namespace Sys2Proof.Machine

variable {s t : State} {ch n port : Nat} {r : Req}

/-! ## Urgency (R281, R286) -/

theorem evalUrgency_dport (h : n < s.dram.ports.length) :
    s.evalUrgency.dport n = { s.dport n with urgency := s.urgencyNow n } := by
  simp [State.dport, State.evalUrgency, List.getD_eq_getElem?_getD, h]

theorem evalUrgency_dport_out (h : s.dram.ports.length ≤ n) : s.evalUrgency.dport n = s.dport n := by
  rw [State.dport, State.dport, List.getD_eq_default _ _ h, List.getD_eq_default _ _ (by simpa [State.evalUrgency] using h)]

/-- Without its grant. -/
def Chan.ungranted (c : Chan) : Chan := { c with grant := none }

theorem revoke_cases (s : State) (ch : Nat) : s.revoke ch = s ∨ s.revoke ch = s.modChan ch Chan.ungranted := by
  unfold State.revoke
  split
  · exact .inl rfl
  · split
    · exact .inl rfl
    · extract_lets critical
      split
      · exact .inr rfl
      · exact .inl rfl

/-- `t` is `s` but for grants that were revoked. -/
structure State.Revoked (s t : State) : Prop where
  only : t = { s with dram := { s.dram with chans := t.dram.chans } }
  count : t.dram.chans.length = s.dram.chans.length
  chans : ∀ n, t.chan n = s.chan n ∨ t.chan n = (s.chan n).ungranted

theorem State.Revoked.refl (s : State) : s.Revoked s := ⟨rfl, rfl, fun _ => .inl rfl⟩

theorem State.Revoked.revoke (h : s.Revoked t) (ch : Nat) : s.Revoked (t.revoke ch) := by
  rcases revoke_cases t ch with e | e <;> rw [e]
  · exact h
  · refine ⟨by rw [h.only]; rfl, by simpa using h.count, fun n => ?_⟩
    rcases chan_modChan_cases t ch n Chan.ungranted with same | bare
    · rw [same]
      exact h.chans n
    · rw [bare]
      rcases h.chans n with k | k <;> rw [k] <;> exact .inr rfl

theorem revokes_revoked (s : State) (l : List Nat) : s.Revoked (l.foldl (fun s ch => s.revoke ch) s) :=
  keepsFold (Q := s.Revoked) (.refl s) fun _ ch h => h.revoke ch

theorem reconsider_revoked (s : State) : s.evalUrgency.Revoked s.reconsider := revokes_revoked ..

/-- A grant that R286 revokes is gone, and one that is gone stays so. -/
theorem revoke_grant (hc : ch < s.dram.chans.length) {g : Grant} (unreserved : g.reserved = false)
    (granted : (s.chan ch).queue.find? (fun x => x.id == g.req) = some r) (normal : s.reqUrgency r = 0)
    (critical : ((s.chan ch).queue.any fun q => s.reqUrgency q == 3) = true) (left : 64 < bytesLeft r g s.now)
    (h : (s.chan ch).grant = some g ∨ (s.chan ch).grant = none) : ((s.revoke ch).chan ch).grant = none := by
  rcases h with h | h
  · have fires : s.revoke ch = s.modChan ch Chan.ungranted := by
      simp [State.revoke, h, granted, unreserved, normal, critical, left]
      rfl
    rw [fires, State.chan_modChan_same s _ hc]
    rfl
  · have idle : s.revoke ch = s := by simp [State.revoke, h]
    rw [idle, h]

section
variable (h : s.Revoked t)
include h

theorem State.Revoked.now : t.now = s.now := by rw [h.only]
theorem State.Revoked.mems : t.mems = s.mems := by rw [h.only]
theorem State.Revoked.ports : t.dram.ports = s.dram.ports := by rw [h.only]
theorem State.Revoked.nextReq : t.dram.nextReq = s.dram.nextReq := by rw [h.only]
theorem State.Revoked.poisoned : t.dram.poisoned = s.dram.poisoned := by rw [h.only]

end

theorem State.Revoked.reqUrgency (h : s.Revoked t) (r : Req) : t.reqUrgency r = s.reqUrgency r := by
  rw [State.reqUrgency, State.dport, h.ports, State.reqUrgency, State.dport]

theorem State.Revoked.grant_none (h : s.Revoked t) (bare : (s.chan n).grant = none) : (t.chan n).grant = none := by
  rcases h.chans n with k | k <;> rw [k]
  · exact bare
  · rfl

/-- The round over all channels revokes what R286 names on each. -/
theorem reconsider_grant (hc : ch < 24) (count : s.dram.chans.length = 24) {g : Grant} (unreserved : g.reserved = false)
    (held : (s.chan ch).grant = some g) (granted : (s.chan ch).queue.find? (fun x => x.id == g.req) = some r)
    (normal : s.evalUrgency.reqUrgency r = 0)
    (critical : ((s.chan ch).queue.any fun q => s.evalUrgency.reqUrgency q == 3) = true)
    (left : 64 < bytesLeft r g s.now) : (s.reconsider.chan ch).grant = none := by
  obtain ⟨before, after, split⟩ := List.append_of_mem (List.mem_range.2 hc)
  have first : s.evalUrgency.Revoked (before.foldl (fun s ch => s.revoke ch) s.evalUrgency) := revokes_revoked ..
  have round : s.reconsider = after.foldl (fun s ch => s.revoke ch)
      ((before.foldl (fun s ch => s.revoke ch) s.evalUrgency).revoke ch) := by
    rw [State.reconsider, split, List.foldl_append, List.foldl_cons]
  rw [round]
  refine (revokes_revoked _ after).grant_none ?_
  generalize before.foldl (fun s ch => s.revoke ch) s.evalUrgency = t at first
  have now : t.now = s.now := first.now
  have chan : (t.chan ch).queue = (s.chan ch).queue ∧ ((t.chan ch).grant = some g ∨ (t.chan ch).grant = none) := by
    rcases first.chans ch with k | k <;> rw [k]
    · exact ⟨rfl, .inl held⟩
    · exact ⟨rfl, .inr rfl⟩
  exact revoke_grant (first.count ▸ count ▸ hc) unreserved (by rw [chan.1, granted]) (by rw [first.reqUrgency, normal])
    (by simpa only [chan.1, first.reqUrgency] using critical) (by rwa [now]) chan.2

section
variable (s) (n)

theorem reconsider_chan : ∃ g, s.reconsider.chan n = { s.chan n with grant := g } := by
  rcases (reconsider_revoked s).chans n with h | h
  · exact ⟨_, h⟩
  · exact ⟨none, h⟩

theorem reconsider_dport : ∃ u, s.reconsider.dport n = { s.dport n with urgency := u } := by
  have ports : s.reconsider.dport n = s.evalUrgency.dport n := by
    rw [State.dport, (reconsider_revoked s).ports, State.dport]
  rw [ports]
  by_cases h : n < s.dram.ports.length
  · exact ⟨_, evalUrgency_dport h⟩
  · exact ⟨_, evalUrgency_dport_out (by omega)⟩

@[simp] theorem reconsider_queue : (s.reconsider.chan n).queue = (s.chan n).queue := by
  obtain ⟨g, h⟩ := reconsider_chan s n; rw [h]

@[simp] theorem reconsider_powerDown : (s.reconsider.chan n).powerDown = (s.chan n).powerDown := by
  obtain ⟨g, h⟩ := reconsider_chan s n; rw [h]

@[simp] theorem reconsider_corrected : (s.reconsider.chan n).corrected = (s.chan n).corrected := by
  obtain ⟨g, h⟩ := reconsider_chan s n; rw [h]

@[simp] theorem reconsider_scrubNext : (s.reconsider.chan n).scrubNext = (s.chan n).scrubNext := by
  obtain ⟨g, h⟩ := reconsider_chan s n; rw [h]

@[simp] theorem reconsider_held : (s.reconsider.dport n).held = (s.dport n).held := by
  obtain ⟨g, h⟩ := reconsider_dport s n; rw [h]

@[simp] theorem reconsider_order : (s.reconsider.dport n).order = (s.dport n).order := by
  obtain ⟨g, h⟩ := reconsider_dport s n; rw [h]

@[simp] theorem reconsider_answered : (s.reconsider.dport n).answered = (s.dport n).answered := by
  obtain ⟨g, h⟩ := reconsider_dport s n; rw [h]

@[simp] theorem reconsider_mems : s.reconsider.mems = s.mems := (reconsider_revoked s).mems
@[simp] theorem reconsider_nextReq : s.reconsider.dram.nextReq = s.dram.nextReq := (reconsider_revoked s).nextReq
@[simp] theorem reconsider_poisoned : s.reconsider.dram.poisoned = s.dram.poisoned :=
  (reconsider_revoked s).poisoned
@[simp] theorem reconsider_chans_length : s.reconsider.dram.chans.length = s.dram.chans.length := (reconsider_revoked s).count

theorem reconsider_grant_none (bare : (s.chan n).grant = none) : (s.reconsider.chan n).grant = none :=
  (reconsider_revoked s).grant_none bare

end

/-! ## A request enters its queue (R281, R283) -/

/-- The request as its queue holds it: a read with the bytes that it returns. -/
def State.accepted (s : State) (r : Req) : Req := if r.write.isNone then { r with snap := s.bytesAt r.addr r.len } else r

theorem acceptReq_read (h : r.write = none) : s.acceptReq ch r = s.modChan ch fun c => c.enter s.now (s.accepted r) := by
  simp [State.acceptReq, State.accepted, h]

theorem acceptReq_write {bs : List Byte} (h : r.write = some bs) :
    s.acceptReq ch r = (s.put r.addr bs).modChan ch fun c => c.enter s.now (s.accepted r) := by
  simp [State.acceptReq, State.accepted, h]

theorem acceptReq_chan_same (hc : ch < s.dram.chans.length) :
    (s.acceptReq ch r).chan ch = (s.chan ch).enter s.now (s.accepted r) := by
  cases h : r.write with
  | none =>
    rw [acceptReq_read h]
    exact State.chan_modChan_same s _ hc
  | some bs =>
    rw [acceptReq_write h]
    exact State.chan_modChan_same (s.put r.addr bs) _ hc

/-- What the entry of a request leaves of every channel. -/
theorem acceptReq_chan_field {α : Type} (field : Chan → α) (kept : ∀ c x, field (Chan.enter c s.now x) = field c) :
    field ((s.acceptReq ch r).chan n) = field (s.chan n) := by
  cases h : r.write with
  | none =>
    rw [acceptReq_read h]
    exact chan_modChan_field field (kept · _) s ch n
  | some bs =>
    rw [acceptReq_write h]
    exact chan_modChan_field field (kept · _) (s.put r.addr bs) ch n

theorem acceptReq_ports : (s.acceptReq ch r).dram.ports = s.dram.ports := by
  cases h : r.write with
  | none => rw [acceptReq_read h]; rfl
  | some bs => rw [acceptReq_write h]; rfl

theorem acceptReq_dport : (s.acceptReq ch r).dport n = s.dport n := by rw [State.dport, acceptReq_ports, State.dport]

theorem present_accepted (first : ((s.dport r.port).held.any fun h => s.reqChan h == s.reqChan r) = false)
    (room : (s.chan (s.reqChan r)).room r = true) : s.present r = s.acceptReq (s.reqChan r) r := by
  simp [State.present, first, room]

theorem present_held (full : (s.chan (s.reqChan r)).room r = false) :
    s.present r = s.modDport r.port fun p => { p with held := p.held ++ [r] } := by
  simp [State.present, full]

/-- A request joins its queue or waits at its port. -/
theorem present_cases (s : State) (r : Req) : s.present r = s.acceptReq (s.reqChan r) r ∨
    s.present r = s.modDport r.port fun p => { p with held := p.held ++ [r] } := by
  unfold State.present
  extract_lets ch behind
  split
  · exact .inr rfl
  · exact .inl rfl

/-- The state in which a port's new request has its number. -/
def State.numbered (s : State) (port : Nat) : State :=
  { s with dram := { s.dram with nextReq := s.dram.nextReq + 1 } }.modDport port fun p =>
    { p with order := p.order ++ [s.dram.nextReq] }

theorem numbered_dport (hp : port < s.dram.ports.length) :
    (s.numbered port).dport port = { s.dport port with order := (s.dport port).order ++ [s.dram.nextReq] } :=
  State.dport_modDport_same { s with dram := { s.dram with nextReq := s.dram.nextReq + 1 } } _ hp

theorem reqChan_lt (s : State) (r : Req) : s.reqChan r < 24 := by
  unfold State.reqChan dramLoc
  by_cases h : (r.addr / 256 % (16 * s.activeChans.length) + foldBits (r.addr / 256 / (16 * s.activeChans.length))) %
      s.activeChans.length < s.activeChans.length
  · have mem := List.getElem_mem h
    simp only [List.getD_eq_getElem _ _ h]
    exact List.mem_range.1 (List.mem_filter.1 mem).1
  · simp only [List.getD_eq_default _ _ (Nat.not_lt.1 h)]
    decide

/-! ## A freed place is filled (R282) -/

/-- What the filling of a channel's freed places leaves of every channel. -/
theorem admitHeld_chan_field {α : Type} (field : Chan → α) (kept : ∀ c now x, field (Chan.enter c now x) = field c)
    (s : State) (ch fuel : Nat) : field ((s.admitHeld ch fuel).chan n) = field (s.chan n) := by
  induction fuel generalizing s with
  | zero => rfl
  | succ fuel ih =>
    unfold State.admitHeld
    extract_lets held
    split
    · rfl
    · rw [ih, acceptReq_chan_field field fun c => kept c _]
      rfl

theorem admitHeld_dport_field {α : Type} (field : Port → α) (kept : ∀ (p : Port) l, field { p with held := l } = field p)
    (s : State) (ch fuel : Nat) : field ((s.admitHeld ch fuel).dport n) = field (s.dport n) := by
  induction fuel generalizing s with
  | zero => rfl
  | succ fuel ih =>
    unfold State.admitHeld
    extract_lets held
    split
    · rfl
    · rw [ih, acceptReq_dport]
      exact dport_modDport_field field (fun p => kept p _) s _ n

/-- No request of the channel is held at any port. -/
def State.noneHeld (s : State) (ch : Nat) : Prop := ∀ p ∈ s.dram.ports, ∀ h ∈ p.held, s.reqChan h ≠ ch

theorem admitHeld_noneHeld (none : s.noneHeld ch) (fuel : Nat) : s.admitHeld ch fuel = s := by
  cases fuel with
  | zero => rfl
  | succ fuel =>
    have held : (s.dram.ports.flatMap fun p => (p.held.find? fun r => s.reqChan r == ch).toList) = [] := by
      refine List.flatMap_eq_nil_iff.2 fun p hp => ?_
      rw [Option.toList_eq_nil_iff, List.find?_eq_none]
      exact fun h hh => by simpa using none p hp h hh
    simp [State.admitHeld, held, minBy]

section
variable (s ch r)

/-- Without a request that has been served. -/
def Chan.leave (c : Chan) (now : Nat) (r : Req) : Chan := { c with queue := c.queue.erase r, grant := none, idleSince := now }

/-- The state in which a request has left its queue, before the place is filled. -/
def State.dequeued : State := s.modChan ch fun c => c.leave s.now r

theorem leaveQueue_eq : s.leaveQueue ch r = ((s.dequeued ch r).admitHeld ch 64).reconsider := rfl

theorem leaveQueue_answered : ((s.leaveQueue ch r).dport n).answered = (s.dport n).answered := by
  rw [leaveQueue_eq, reconsider_answered, admitHeld_dport_field Port.answered fun _ _ => rfl]
  rfl

theorem leaveQueue_grant (hc : ch < s.dram.chans.length) : ((s.leaveQueue ch r).chan ch).grant = none := by
  refine reconsider_grant_none _ _ ?_
  rw [admitHeld_chan_field Chan.grant fun _ _ _ => rfl]
  exact congrArg Chan.grant (State.chan_modChan_same s _ hc)

theorem dequeued_chan_field {α : Type} (field : Chan → α) (kept : ∀ c now x, field (Chan.leave c now x) = field c) :
    field ((s.dequeued ch r).chan n) = field (s.chan n) :=
  chan_modChan_field field (f := fun c => c.leave s.now r) (fun c => kept c _ _) s ch n

theorem leaveQueue_corrected : ((s.leaveQueue ch r).chan n).corrected = (s.chan n).corrected := by
  rw [leaveQueue_eq, reconsider_corrected, admitHeld_chan_field Chan.corrected fun _ _ _ => rfl,
    dequeued_chan_field s ch r Chan.corrected fun _ _ _ => rfl]

theorem leaveQueue_noneHeld (none : s.noneHeld ch) : s.leaveQueue ch r = (s.dequeued ch r).reconsider := by
  rw [leaveQueue_eq, admitHeld_noneHeld]
  intro p hp h hh
  rw [reqChan_congr fun _ => dequeued_chan_field s ch r Chan.active fun _ _ _ => rfl]
  exact none p hp h hh

end

/-! ## Answers (R282) -/

theorem deliver_held (n : Nat) (p : Port) : (Port.deliver n p).held = p.held := by
  induction n generalizing p with
  | zero => rfl
  | succ n ih =>
    unfold Port.deliver
    split
    · rfl
    · split
      · rfl
      · rw [ih]

theorem mem_deliver_answered {n : Nat} {p : Port} {e : Nat × Option (List Byte)} (h : e ∈ p.answered) :
    e ∈ (Port.deliver n p).answered := by
  induction n generalizing p with
  | zero => exact h
  | succ n ih =>
    unfold Port.deliver
    split
    · exact h
    · split
      · exact h
      · exact ih (List.mem_cons_of_mem _ h)

/-- The answer that a port expects next goes to it at once. -/
theorem answer_answered {id : Nat} (hp : port < s.dram.ports.length) (next : (s.dport port).order.head? = some id)
    (fresh : ((s.dport port).early.all fun e => e.1 != id) = true) (data : Option (List Byte)) :
    (id, data) ∈ ((s.answer port id data).dport port).answered := by
  obtain ⟨rest, order⟩ := List.head?_eq_some_iff.1 next
  have none : ((s.dport port).early.find? fun e => e.1 == id) = none := by
    simpa [List.find?_eq_none, List.all_eq_true] using fresh
  rw [State.answer, State.dport_modDport_same s _ hp, Port.deliver]
  simp only [order, List.find?_append, none, Option.none_or, List.find?_cons, beq_self_eq_true]
  exact mem_deliver_answered List.mem_cons_self

theorem answer_chan (port id : Nat) (data : Option (List Byte)) : (s.answer port id data).chan n = s.chan n := rfl

theorem answer_noneHeld (none : s.noneHeld ch) (port id : Nat) (data : Option (List Byte)) :
    (s.answer port id data).noneHeld ch := by
  intro p hp
  obtain ⟨i, hi, rfl⟩ := List.mem_iff_getElem.1 hp
  have same : ((s.answer port id data).dram.ports[i]).held = (s.dram.ports[i]'(by simpa [State.answer] using hi)).held := by
    simp only [State.answer, State.modDport_dram, List.getElem_modify]
    split
    · exact deliver_held ..
    · rfl
  rw [same]
  exact none _ (List.getElem_mem _)

end Sys2Proof.Machine
end

section
/-! SUPPORT. The crossing (R283 to R285): which requests a grant may go to, and which of them it goes to. -/

namespace Sys2Proof.Machine

variable {s : State} {ch : Nat} {r q a b c : Req}

/-! ## The oldest -/

theorem minBy_isSome {α : Type} {key : α → Nat} {l : List α} (h : l ≠ []) : ∃ x, minBy key l = some x := by
  cases l with
  | nil => exact absurd rfl h
  | cons a l =>
    simp only [minBy]
    split
    · exact ⟨a, rfl⟩
    · split
      · exact ⟨_, rfl⟩
      · exact ⟨a, rfl⟩

theorem minBy_least {α : Type} {key : α → Nat} {l : List α} {x : α} (h : minBy key l = some x) : ∀ y ∈ l, key x ≤ key y := by
  induction l generalizing x with
  | nil => exact fun _ hy => absurd hy List.not_mem_nil
  | cons a l ih =>
    simp only [minBy] at h
    split at h
    next none =>
      have empty : l = [] := by
        by_contra full
        obtain ⟨y, hy⟩ := minBy_isSome (key := key) full
        exact absurd (hy.symm.trans none) (by simp)
      cases h
      simp [empty]
    next b some =>
      refine List.forall_mem_cons.2 ?_
      split at h
      next younger => cases h; exact ⟨younger.le, ih some⟩
      next older => cases h; exact ⟨Nat.le_refl _, fun y hy => (Nat.not_lt.1 older).trans (ih some y hy)⟩

/-! ## The rank (R284) -/

/-- `r` is served no later than `q`: the more urgent, among equals a row hit, then the older. -/
structure State.ServedFirst (s : State) (ch : Nat) (r q : Req) : Prop where
  urgency : s.reqUrgency q ≤ s.reqUrgency r
  hit : s.reqUrgency q = s.reqUrgency r → s.hits ch q = true → s.hits ch r = true
  age : s.reqUrgency q = s.reqUrgency r → s.hits ch q = s.hits ch r → r.arrival ≤ q.arrival

theorem State.ServedFirst.refl (r : Req) : s.ServedFirst ch r r := ⟨Nat.le_refl _, fun _ h => h, fun _ _ => Nat.le_refl _⟩

theorem State.ServedFirst.trans (h : s.ServedFirst ch a b) (k : s.ServedFirst ch b c) : s.ServedFirst ch a c := by
  have hu := h.urgency
  have ku := k.urgency
  refine ⟨by omega, fun e hit => h.hit (by omega) (k.hit (by omega) hit), fun e same => ?_⟩
  have hits : s.hits ch c = s.hits ch b := by
    cases hc : s.hits ch c with
    | true => exact (k.hit (by omega) hc).symm
    | false =>
      cases hb : s.hits ch b with
      | true => exact absurd (h.hit (by omega) hb) (by simp [← same, hc])
      | false => rfl
  exact (h.age (by omega) (hits.symm.trans same)).trans (k.age (by omega) hits)

theorem servedFirst_of_outranks (h : s.outranks ch a b = true) : s.ServedFirst ch a b := by
  simp only [State.outranks, Bool.or_eq_true, Bool.and_eq_true, decide_eq_true_eq, beq_iff_eq, Bool.not_eq_true'] at h
  rcases h with more | ⟨equal, ⟨hit, miss⟩ | ⟨same, older | ⟨equal', -⟩⟩⟩
  · exact ⟨more.le, fun e => absurd e more.ne, fun e => absurd e more.ne⟩
  · exact ⟨equal.ge, fun _ _ => hit, fun _ e => absurd (miss.symm.trans (e.trans hit)) (by decide)⟩
  · exact ⟨equal.ge, fun _ hb => same.trans hb, fun _ _ => older.le⟩
  · exact ⟨equal.ge, fun _ hb => same.trans hb, fun _ _ => equal'.le⟩

theorem servedFirst_of_not_outranks (h : s.outranks ch b a = false) : s.ServedFirst ch a b := by
  simp only [State.outranks, Bool.or_eq_false_iff, Bool.and_eq_false_iff, decide_eq_false_iff_not, beq_eq_false_iff_ne,
    Bool.not_eq_false'] at h
  obtain ⟨notMore, rest⟩ := h
  refine ⟨Nat.not_lt.1 notMore, fun equal hit => ?_, fun equal same => ?_⟩
  · rcases rest with unequal | ⟨noHit, -⟩
    · exact absurd equal unequal
    · exact noHit.resolve_left (by simp [hit])
  · rcases rest with unequal | ⟨-, unlike | ⟨notOlder, -⟩⟩
    · exact absurd equal unequal
    · exact absurd same unlike
    · exact Nat.not_lt.1 notOlder

theorem best_isSome {l : List Req} (h : l ≠ []) : ∃ r, s.best ch l = some r := by
  cases l with
  | nil => exact absurd rfl h
  | cons a l =>
    simp only [State.best]
    split
    · exact ⟨a, rfl⟩
    · split
      · exact ⟨_, rfl⟩
      · exact ⟨a, rfl⟩

theorem best_spec {l : List Req} (h : s.best ch l = some r) : r ∈ l ∧ ∀ q ∈ l, s.ServedFirst ch r q := by
  induction l generalizing r with
  | nil => exact absurd h (by simp [State.best])
  | cons a l ih =>
    simp only [State.best] at h
    split at h
    next none =>
      have empty : l = [] := by
        by_contra full
        obtain ⟨y, hy⟩ := best_isSome (s := s) (ch := ch) full
        exact absurd (hy.symm.trans none) (by simp)
      cases h
      simpa [empty] using State.ServedFirst.refl _
    next b some =>
      obtain ⟨mem, first⟩ := ih some
      split at h
      next better =>
        cases h
        exact ⟨List.mem_cons_of_mem _ mem, List.forall_mem_cons.2 ⟨servedFirst_of_outranks better, first⟩⟩
      next worse =>
        cases h
        have ahead := servedFirst_of_not_outranks (Bool.not_eq_true _ ▸ worse)
        exact ⟨List.mem_cons_self, List.forall_mem_cons.2 ⟨.refl _, fun q hq => ahead.trans (first q hq)⟩⟩

/-! ## What may be granted (R283; log entry 93) -/

/-- A request that a grant may go to has its place in the queue, and overlaps none before it where it is a write. -/
theorem grantable_place {before l : List Req} (h : r ∈ grantable before l) :
    ∃ front back, l = front ++ r :: back ∧ (r.write.isSome = true → ∀ q ∈ before ++ front, r.conflicts q = false) := by
  induction l generalizing before with
  | nil => exact absurd h List.not_mem_nil
  | cons x l ih =>
    have later (h : r ∈ grantable (before ++ [x]) l) :
        ∃ front back, x :: l = front ++ r :: back ∧ (r.write.isSome = true → ∀ q ∈ before ++ front, r.conflicts q = false) := by
      obtain ⟨front, back, place, clear⟩ := ih h
      exact ⟨x :: front, back, by rw [place, List.cons_append], fun w q hq => clear w q (by simpa using hq)⟩
    unfold grantable at h
    split at h
    next => exact later h
    next free =>
      rcases List.mem_cons.1 h with rfl | h
      · refine ⟨[], l, rfl, fun w q hq => ?_⟩
        have clear : before.any r.conflicts = false := by simpa [w] using free
        exact List.any_eq_false.1 clear q (by simpa using hq) |> Bool.eq_false_iff.2
      · exact later h

theorem mem_of_mem_takeWhile_ne {front back : List Req} (h : q ∈ (front ++ r :: back).takeWhile fun q => q != r) :
    q ∈ front := by
  induction front with
  | nil => simp at h
  | cons x front ih =>
    rw [List.cons_append, List.takeWhile_cons] at h
    split at h
    · rcases List.mem_cons.1 h with rfl | h
      · exact List.mem_cons_self
      · exact List.mem_cons_of_mem _ (ih h)
    · exact absurd h List.not_mem_nil

/-- A grant's request is queued, and a write overlaps none that stands before it. -/
theorem grantable_queued {l : List Req} (h : r ∈ grantable [] l) :
    r ∈ l ∧ (r.write.isSome = true → ∀ q ∈ l.takeWhile fun q => q != r, r.conflicts q = false) := by
  obtain ⟨front, back, rfl, clear⟩ := grantable_place h
  exact ⟨by simp, fun w q hq => clear w q (mem_of_mem_takeWhile_ne hq)⟩

theorem grantable_ne_nil {l : List Req} (h : l ≠ []) : grantable [] l ≠ [] := by
  cases l with
  | nil => exact absurd rfl h
  | cons x l => simp [grantable]

/-! ## The grant (R285) -/

/-- What a grant makes of its channel. -/
def Chan.granting (c : Chan) (g : Grant) (place : Nat × Nat × Nat) : Chan :=
  { c with
    grant := some g, grantCount := c.grantCount + 1
    openRows := place :: c.openRows.filter fun o => !(o.1 == place.1 && o.2.1 == place.2.1) }

theorem exec_crossingGrant {reserved : Bool} (idle : (s.chan ch).grant = none) (active : (s.chan ch).active = true)
    (turn : ((s.chan ch).grantCount % 8 == 7) = reserved)
    (choice : (if reserved then minBy Req.arrival (grantable [] (s.chan ch).queue)
      else s.evalUrgency.best ch (grantable [] (s.chan ch).queue)) = some r) :
    exec (.crossingGrant ch) s = .next (s.evalUrgency.modChan ch fun c =>
      c.granting { req := r.id, reserved := reserved, started := s.now } (dramPlace (dramLoc s.activeChans r.addr).block)) := by
  have chan : s.evalUrgency.chan ch = s.chan ch := rfl
  have picked : (if (s.evalUrgency.chan ch).grantCount % 8 == 7 then
      minBy Req.arrival (grantable [] (s.evalUrgency.chan ch).queue)
      else s.evalUrgency.best ch (grantable [] (s.evalUrgency.chan ch).queue)) = some r := by
    rw [chan, turn, choice]
  subst turn
  simp only [exec, execCrossingGrant, idle, active, picked]
  rfl

theorem answers_crossingGrant {reserved : Bool} {P : State → Prop} (count : s.dram.chans.length = 24) (hc : ch < 24)
    (idle : (s.chan ch).grant = none) (active : (s.chan ch).active = true) (turn : ((s.chan ch).grantCount % 8 == 7) = reserved)
    (choice : (if reserved then minBy Req.arrival (grantable [] (s.chan ch).queue)
      else s.evalUrgency.best ch (grantable [] (s.chan ch).queue)) = some r)
    (leads : ∀ u : State, (u.chan ch).grant = some { req := r.id, reserved := reserved, started := s.now } →
      (u.chan ch).grantCount = (s.chan ch).grantCount + 1 → P u) : answers (.crossingGrant ch) s P := by
  have chan := State.chan_modChan_same s.evalUrgency (n := ch) (fun c =>
    c.granting { req := r.id, reserved := reserved, started := s.now } (dramPlace (dramLoc s.activeChans r.addr).block))
    (by exact count ▸ hc)
  exact answers_of (exec_crossingGrant idle active turn choice) (leads _ (by rw [chan]; rfl) (by rw [chan]; rfl))

end Sys2Proof.Machine
end

section
/-! SUPPORT. DRAM_REQUEST, DRAM_READ_COMPLETE and DRAM_WRITE_COMPLETE (R270, R281 to R283), each as its controller operations,
and the statement DramRequestsServed. -/

namespace Sys2Proof.Machine

variable {s t : State} {ch n port addr len : Nat} {write : Option (List Byte)} {r : Req} {single bad lost ws : List Nat}
  {bs : List Byte}

/-! ## A request (R281, R283) -/

/-- Request `r` is what DRAM_REQUEST makes of its operands, within one interleave unit and the backed granules. -/
structure State.Issues (s : State) (port addr len : Nat) (write : Option (List Byte)) (r : Req) : Prop where
  port_lt : port < 44
  some_bytes : 1 ≤ len
  one_unit : addr / 256 = (addr + len - 1) / 256
  backed : (addr + len - 1) / granuleBytes < s.dram.granulesBacked
  data : (write.all fun bs => bs.length == len) = true
  shaped : s.shaped = true
  req : r = { id := s.dram.nextReq, port := port, addr := addr, len := len, write := write, arrival := s.now, scrub := false }

theorem numbered_held (s : State) (port n : Nat) : ((s.numbered port).dport n).held = (s.dport n).held :=
  dport_modDport_field Port.held (f := fun p => { p with order := p.order ++ [s.dram.nextReq] }) (fun _ => rfl)
    { s with dram := { s.dram with nextReq := s.dram.nextReq + 1 } } port n

theorem byte_congr (h : t.mems = s.mems) (a : Nat) : t.byte a = s.byte a := by
  change Mem.get t.mems.blank t.mems.bytes a = Mem.get s.mems.blank s.mems.bytes a
  rw [h]

/-- A write leaves every byte outside its range. -/
theorem put_byte_out (s : State) {a x : Nat} (bs : List Byte) (out : x < a ∨ a + bs.length ≤ x) :
    (s.put a bs).byte x = s.byte x :=
  Mem.get_put_out s.mems.bytes a bs x out

section
variable (h : s.Issues port addr len write r)
include h

theorem exec_dramRequest : exec (.dramRequest port addr len write) s = .next ((s.numbered port).present r).reconsider := by
  have guards : (decide (port < 44) && decide (1 ≤ len) && addr / 256 == (addr + len - 1) / 256 &&
      decide ((addr + len - 1) / granuleBytes < s.dram.granulesBacked) && (write.all fun bs => bs.length == len)) = true := by
    simp only [h.port_lt, h.some_bytes, h.data, h.backed, ← h.one_unit, beq_self_eq_true, decide_true, Bool.and_self]
  obtain rfl := h.req
  exact congrArg Host.Outcome.next (if_pos guards)

/-- A request with a place and no held one before it joins its queue. -/
theorem exec_dramRequest_accepted (first : ((s.dport port).held.any fun h => s.reqChan h == s.reqChan r) = false)
    (room : (s.chan (s.reqChan r)).room r = true) : exec (.dramRequest port addr len write) s =
      .next ((s.numbered port).acceptReq (s.reqChan r) r).reconsider := by
  have isPort : r.port = port := by rw [h.req]
  rw [exec_dramRequest h, present_accepted (s := s.numbered port) (by rw [isPort, numbered_held]; exact first) room]
  rfl

theorem answers_dramRequest_read (first : ((s.dport port).held.any fun h => s.reqChan h == s.reqChan r) = false)
    (room : (s.chan (s.reqChan r)).room r = true) (read : write = none) :
    answers (.dramRequest port addr len write) s fun u => u.dram.nextReq = s.dram.nextReq + 1 ∧ u.mems = s.mems ∧
      (u.chan (s.reqChan r)).queue = (s.chan (s.reqChan r)).queue ++ [{ r with snap := s.bytesAt addr len }] ∧
      (u.chan (s.reqChan r)).powerDown = false ∧
      (u.dport port).order = (s.dport port).order ++ [r.id] ∧ (u.dport port).held = (s.dport port).held := by
  have isRead : r.write = none := by rw [h.req, read]
  have counts := shaped_counts h.shaped
  have chan := acceptReq_chan_same (s := s.numbered port) (r := r) (ch := s.reqChan r) (counts.chans ▸ reqChan_lt s r)
  have snap : (s.numbered port).accepted r = { r with snap := s.bytesAt addr len } := by
    rw [State.accepted, if_pos (by rw [isRead]; rfl)]
    obtain rfl := h.req
    rfl
  have dport := numbered_dport (counts.dports ▸ h.port_lt)
  refine answers_of (exec_dramRequest_accepted h first room) ⟨?_, ?_, ?_, ?_, ?_, ?_⟩
  · rw [reconsider_nextReq, acceptReq_read isRead]
    rfl
  · rw [reconsider_mems, acceptReq_read isRead]
    rfl
  · rw [reconsider_queue, chan, snap]
    rfl
  · rw [reconsider_powerDown, chan]
    rfl
  · rw [reconsider_order, acceptReq_dport, dport, h.req]
  · rw [reconsider_held, acceptReq_dport, dport]

theorem answers_dramRequest_write (first : ((s.dport port).held.any fun h => s.reqChan h == s.reqChan r) = false)
    (room : (s.chan (s.reqChan r)).room r = true) (isWrite : write = some bs) :
    answers (.dramRequest port addr len write) s fun u =>
      (u.chan (s.reqChan r)).queue = (s.chan (s.reqChan r)).queue ++ [r] ∧ u.bytesAt addr len = bs ∧
      (∀ a, (a < addr ∨ addr + len ≤ a) → u.byte a = s.byte a) ∧
      (∀ w ∈ u.dram.poisoned, covers addr len w = false) ∧ (u.dport port).order = (s.dport port).order ++ [r.id] := by
  have writes : r.write = some bs := by rw [h.req, isWrite]
  have isLen : bs.length = len := by simpa [isWrite] using h.data
  have isAddr : r.addr = addr := by rw [h.req]
  have counts := shaped_counts h.shaped
  have chan := acceptReq_chan_same (s := s.numbered port) (r := r) (ch := s.reqChan r) (counts.chans ▸ reqChan_lt s r)
  have kept : (s.numbered port).accepted r = r := if_neg (by simp [writes])
  have mems : ((s.numbered port).acceptReq (s.reqChan r) r).reconsider.mems = (s.put addr bs).mems := by
    rw [reconsider_mems, acceptReq_write writes, isAddr]
    rfl
  refine answers_of (exec_dramRequest_accepted h first room) ⟨?_, ?_, fun a out => ?_, fun w hw => ?_, ?_⟩
  · rw [reconsider_queue, chan, kept]
    rfl
  · have back := put_bytesAt s addr bs (i := 0) (k := bs.length) (Nat.zero_add _).le
    rw [bytesAt_congr mems, ← isLen]
    rwa [List.drop_zero, List.take_length] at back
  · exact (byte_congr mems a).trans (put_byte_out s bs (isLen ▸ out))
  · rw [reconsider_poisoned, acceptReq_write writes, isAddr, ← isLen] at *
    simpa using (List.mem_filter.1 hw).2
  · rw [reconsider_order, acceptReq_dport, numbered_dport (counts.dports ▸ h.port_lt), h.req]

theorem answers_dramRequest_held (full : (s.chan (s.reqChan r)).room r = false) :
    answers (.dramRequest port addr len write) s fun u => (u.dport port).held = (s.dport port).held ++ [r] ∧
      (u.chan (s.reqChan r)).queue = (s.chan (s.reqChan r)).queue := by
  have isPort : r.port = port := by rw [h.req]
  have waits : (s.numbered port).present r = (s.numbered port).modDport port fun p => { p with held := p.held ++ [r] } := by
    rw [present_held (s := s.numbered port) full, isPort]
  have count : port < (s.numbered port).dram.ports.length := by
    simpa [State.numbered, (shaped_counts h.shaped).dports] using h.port_lt
  refine answers_of ((exec_dramRequest h).trans (by rw [waits])) ⟨?_, ?_⟩
  · rw [reconsider_held, State.dport_modDport_same _ _ count, ← numbered_held s port port]
  · rw [reconsider_queue]
    rfl

end

/-! ## Urgency (R281, R286) -/

theorem exec_urgencyChange (hp : port < 44) : exec (.urgencyChange port) s = .next s.reconsider :=
  congrArg Host.Outcome.next (if_pos hp)

theorem reconsider_urgency (count : s.dram.ports.length = 44) (hp : port < 44) :
    (s.reconsider.dport port).urgency = s.urgencyNow port := by
  rw [State.dport, (reconsider_revoked s).ports]
  exact congrArg Port.urgency (evalUrgency_dport (count ▸ hp))

theorem urgencyOf_levels (target ticks : Nat) : (urgencyOf target ticks = 3 ↔ target ≤ 10 * ticks) ∧
    (2 ≤ urgencyOf target ticks ↔ 3 * target ≤ 40 * ticks ∨ target ≤ 10 * ticks) ∧
    (urgencyOf target ticks = 0 ↔ 20 * ticks < target) := by
  unfold urgencyOf
  extract_lets age
  unfold age
  split
  · omega
  · split
    · omega
    · split <;> omega

/-- The level of a request that is not the scrubber's is its port's of this cycle. -/
theorem evalUrgency_reqUrgency (count : s.dram.ports.length = 44) (hp : r.port < 44) (own : r.scrub = false) :
    s.evalUrgency.reqUrgency r = s.urgencyNow r.port := by
  rw [State.reqUrgency, if_neg (by simp [own]), evalUrgency_dport (count ▸ hp)]

/-- A request of the scrubber, or of a port whose level is NORMAL, competes at NORMAL. -/
theorem evalUrgency_normal (normal : r.scrub = true ∨ s.urgencyNow r.port = 0) : s.evalUrgency.reqUrgency r = 0 := by
  unfold State.reqUrgency
  split
  · rfl
  · next own =>
    by_cases hp : r.port < s.dram.ports.length
    · rw [evalUrgency_dport hp]
      exact normal.resolve_left own
    · rw [evalUrgency_dport_out (by omega), State.dport, List.getD_eq_default _ _ (by omega)]
      rfl

/-! ## What the errors of a read leave (R270) -/

theorem dramWordError_poisoned (s : State) (a : Nat) : (s.dramWordError a).dram.poisoned = s.dram.poisoned := by
  simp only [State.dramWordError, State.modChan_dram, raise_dram]

theorem reportWords_poisoned (s : State) (ws : List Nat) : (s.reportWords ws).dram.poisoned = s.dram.poisoned :=
  keepsFold (Q := fun t : State => t.dram.poisoned = s.dram.poisoned) rfl fun _ _ h => (dramWordError_poisoned ..).trans h

section
variable (s ch n lost)

theorem wordErrors_sameDram :
    (s.modChan ch fun c => { c with corrected := satInc top32 c.corrected n }).SameDram (s.wordErrors ch n lost) :=
  reportWords_sameDram ..

theorem wordErrors_ports : (s.wordErrors ch n lost).dram.ports = s.dram.ports := (wordErrors_sameDram ..).ports

theorem wordErrors_active (m : Nat) : ((s.wordErrors ch n lost).chan m).active = (s.chan m).active :=
  ((wordErrors_sameDram ..).active m).trans
    (chan_modChan_field Chan.active (f := fun c => { c with corrected := satInc top32 c.corrected n }) (fun _ => rfl) s ch m)

theorem wordErrors_mems : (s.wordErrors ch n lost).mems = s.mems := reportWords_keeps_mems ..

theorem wordErrors_poisoned : (s.wordErrors ch n lost).dram.poisoned = s.dram.poisoned := reportWords_poisoned ..

theorem wordErrors_corrected (hc : ch < s.dram.chans.length) :
    ((s.wordErrors ch n lost).chan ch).corrected = min top32 ((s.chan ch).corrected + n) := by
  obtain ⟨ts, h⟩ := (wordErrors_sameDram s ch n lost).chans ch
  rw [h, State.chan_modChan_same s _ hc]
  rfl

end

/-! ## The completion of a read (R270, R283) -/

/-- The words whose read from the array is uncorrectable. -/
def State.lostWords (s : State) (bad : List Nat) (r : Req) (ws : List Nat) : List Nat :=
  ws.filter fun w => bad.contains w || r.bad.contains w || s.dram.poisoned.contains w

/-- A granted request and its answer: one that its port expects next. -/
structure State.Answerable (s : State) (ch : Nat) (r : Req) : Prop where
  shaped : s.shaped = true
  chan_lt : ch < 24
  granted : s.granted ch = some r
  port_lt : r.port < 44
  next : (s.dport r.port).order.head? = some r.id
  fresh : ((s.dport r.port).early.all fun e => e.1 != r.id) = true

theorem exec_dramReadComplete (granted : s.granted ch = some r) (read : r.write = none)
    (array : arrayWords ((s.chan ch).queue.takeWhile fun q => q.id != r.id) r = ws) (met : s.lostWords bad r ws = lost) :
    exec (.dramReadComplete ch single bad) s = .next (((((s.wordErrors ch
      (ws.filter fun w => (single.contains w || r.single.contains w) && !lost.contains w).length lost).answer r.port r.id
        (if lost.isEmpty then some r.snap else none)).leaveQueue ch r).answerVision r.port lost)) := by
  subst array met
  simp only [exec, execDramReadComplete, granted, read, Option.isSome_none, Bool.false_eq_true, if_false]
  rfl

theorem answerVision_sameDram (s : State) (port : Nat) (lost : List Nat) : s.SameDram (s.answerVision port lost) := by
  unfold State.answerVision
  split
  · exact .refl s
  · extract_lets v touches
    split
    · exact (scramblePatches_sameDram ..).trans (failJob'_sameDram ..)
    · exact .refl s

theorem answerVision_nil (s : State) (port : Nat) : s.answerVision port [] = s := by
  unfold State.answerVision
  split <;> rfl

/-- The answer stands at the port once the request has left its queue. -/
theorem State.Answerable.answered (h : s.Answerable ch r) (ports : t.dram.ports = s.dram.ports) (data : Option (List Byte)) :
    (r.id, data) ∈ ((((t.answer r.port r.id data).leaveQueue ch r)).dport r.port).answered := by
  have dport : t.dport r.port = s.dport r.port := by rw [State.dport, ports, State.dport]
  have count : r.port < t.dram.ports.length := by rw [ports, (shaped_counts h.shaped).dports]; exact h.port_lt
  rw [leaveQueue_answered]
  exact answer_answered count (dport ▸ h.next) (dport ▸ h.fresh) data

theorem answers_dramReadComplete (h : s.Answerable ch r) (read : r.write = none)
    (array : arrayWords ((s.chan ch).queue.takeWhile fun q => q.id != r.id) r = ws) (met : s.lostWords bad r ws = lost) :
    answers (.dramReadComplete ch single bad) s fun u =>
      (r.id, if lost.isEmpty then some r.snap else none) ∈ (u.dport r.port).answered := by
  refine answers_of (exec_dramReadComplete h.granted read array met) ?_
  rw [(answerVision_sameDram ..).dport]
  exact h.answered (wordErrors_ports ..) _

/-- Every word that a request touches has one of its bytes. -/
theorem arrayWords_nil (some_bytes : 1 ≤ r.len) : arrayWords [] r = wordsOf r.addr r.len := by
  refine List.filter_eq_self.2 fun w hw => ?_
  simp only [wordsOf, List.mem_range'_1] at hw
  refine List.any_eq_true.2 ⟨r.addr - 32 * w, List.mem_range.2 (by omega), ?_⟩
  simp only [pendingAt, List.reverse_nil, List.findSome?_nil, Option.isNone_none, Bool.and_true, Bool.and_eq_true,
    decide_eq_true_eq]
  omega

theorem answers_dramReadComplete_clean (h : s.Answerable ch r) (some_bytes : 1 ≤ r.len) (read : r.write = none)
    (clean : ((wordsOf r.addr r.len).all fun w => !(bad.contains w || r.bad.contains w || s.dram.poisoned.contains w)) = true)
    (first : (s.chan ch).queue.head? = some r) :
    answers (.dramReadComplete ch single bad) s fun u =>
      (r.id, some r.snap) ∈ (u.dport r.port).answered ∧ (u.chan ch).grant = none ∧
      (u.chan ch).corrected = min 0xFFFFFFFF ((s.chan ch).corrected +
        ((wordsOf r.addr r.len).filter fun w => single.contains w || r.single.contains w).length) := by
  obtain ⟨rest, queue⟩ := List.head?_eq_some_iff.1 first
  have array : arrayWords ((s.chan ch).queue.takeWhile fun q => q.id != r.id) r = wordsOf r.addr r.len := by
    simp [queue, arrayWords_nil some_bytes]
  have met : s.lostWords bad r (wordsOf r.addr r.len) = [] :=
    List.filter_eq_nil_iff.2 fun w hw => by simpa using List.all_eq_true.1 clean w hw
  have counts := shaped_counts h.shaped
  have count : ch < s.dram.chans.length := counts.chans ▸ h.chan_lt
  have count' (k : Nat) : ch < (s.wordErrors ch k []).dram.chans.length := by
    simpa [State.wordErrors, State.reportWords] using count
  refine answers_of (exec_dramReadComplete h.granted read array met) ?_
  rw [answerVision_nil]
  refine ⟨h.answered (wordErrors_ports ..) _, leaveQueue_grant _ _ _ (count' _), ?_⟩
  rw [leaveQueue_corrected, answer_chan, wordErrors_corrected _ _ _ _ count]
  simp [top32]

/-! ## The completion of a write (R270, R283) -/

/-- The words that a write covers in part and whose read is uncorrectable. -/
def State.partLost (s : State) (bad : List Nat) (r : Req) : List Nat :=
  ((wordsOf r.addr r.len).filter fun w => !covers r.addr r.len w).filter fun w => bad.contains w || s.dram.poisoned.contains w

/-- Words become poisoned. -/
def State.poison (s : State) (lost : List Nat) : State :=
  { s with dram := { s.dram with poisoned := lost ++ s.dram.poisoned.filter fun w => !lost.contains w } }

theorem exec_dramWriteComplete (granted : s.granted ch = some r) (isWrite : r.write = some bs) :
    ∃ n, exec (.dramWriteComplete ch single bad) s = .next ((((s.wordErrors ch n (s.partLost bad r)).poison
      (s.partLost bad r)).answer r.port r.id (some [])).leaveQueue ch r) := by
  refine ⟨(((wordsOf r.addr r.len).filter fun w => !covers r.addr r.len w).filter fun w =>
    single.contains w && !(s.partLost bad r).contains w).length, ?_⟩
  simp only [exec, execDramWriteComplete, granted, isWrite]
  rfl

/-- The end of a write without a held request of its channel: the words lost are poisoned, and nothing is written. -/
theorem leave_poisoned (none : t.noneHeld ch) (lost : List Nat) (data : Option (List Byte)) :
    ((((t.poison lost).answer r.port r.id data).leaveQueue ch r).mems = t.mems) ∧
    (((t.poison lost).answer r.port r.id data).leaveQueue ch r).dram.poisoned =
      lost ++ t.dram.poisoned.filter fun w => !lost.contains w := by
  have bare : (t.poison lost).noneHeld ch := none
  rw [leaveQueue_noneHeld _ ch r (answer_noneHeld bare r.port r.id data), reconsider_mems, reconsider_poisoned]
  exact ⟨rfl, rfl⟩

theorem mem_partLost (w : Nat) : w ∈ s.partLost bad r ++ s.dram.poisoned.filter (fun w => !(s.partLost bad r).contains w) ↔
    w ∈ s.dram.poisoned ∨ w ∈ wordsOf r.addr r.len ∧ covers r.addr r.len w = false ∧ bad.contains w = true := by
  have lost : w ∈ s.partLost bad r ↔
      (w ∈ wordsOf r.addr r.len ∧ covers r.addr r.len w = false) ∧ (bad.contains w = true ∨ w ∈ s.dram.poisoned) := by
    simp only [State.partLost, List.mem_filter, Bool.not_eq_true', Bool.or_eq_true, List.contains_iff_mem]
  have joined : w ∈ s.partLost bad r ++ s.dram.poisoned.filter (fun w => !(s.partLost bad r).contains w) ↔
      w ∈ s.partLost bad r ∨ w ∈ s.dram.poisoned := by
    by_cases hw : w ∈ s.partLost bad r <;> simp [hw]
  rw [joined, lost]
  tauto

theorem answers_dramWriteComplete (h : s.Answerable ch r) (isWrite : r.write = some bs)
    (none : (s.dram.ports.all fun p => p.held.all fun h => s.reqChan h != ch) = true) :
    answers (.dramWriteComplete ch single bad) s fun u => u.mems = s.mems ∧ (r.id, some []) ∈ (u.dport r.port).answered ∧
      ∀ w, w ∈ u.dram.poisoned ↔
        w ∈ s.dram.poisoned ∨ w ∈ wordsOf r.addr r.len ∧ covers r.addr r.len w = false ∧ bad.contains w = true := by
  obtain ⟨n, step⟩ := exec_dramWriteComplete (single := single) (bad := bad) h.granted isWrite
  have ports := wordErrors_ports s ch n (s.partLost bad r)
  have bare : (s.wordErrors ch n (s.partLost bad r)).noneHeld ch := by
    intro p hp x hx
    rw [reqChan_congr (wordErrors_active s ch n _) x]
    simpa using List.all_eq_true.1 (List.all_eq_true.1 none p (ports ▸ hp)) x hx
  obtain ⟨mems, poisoned⟩ := leave_poisoned (r := r) bare (s.partLost bad r) (some [])
  refine answers_of step ⟨?_, h.answered (t := (s.wordErrors ch n (s.partLost bad r)).poison _) ports _, fun w => ?_⟩
  · rw [mems, wordErrors_mems]
  · rw [poisoned, wordErrors_poisoned, mem_partLost]

/-! ## The statement -/

/-- Settles O47: DRAM_REQUEST is the entry of its request or its wait at the port; CROSSING_GRANT takes the first of the rank
among what acceptance order leaves; a completion is the answer of the port's next request, and what the request's leaving
changes after it is neither an answer nor, with no request held, a byte. -/
theorem dramRequestsServed : Obligations.DramRequestsServed := by
  unfold Obligations.DramRequestsServed
  refine ⟨?read, ?write, ?held, ?urgency, ?revoked, ?granted, ?reserved, ?clean, ?pending, ?lost, ?written⟩
  case read =>
    exact fun port addr len write r s hp hl unit backed data shaped req _ first room isRead =>
      answers_dramRequest_read ⟨hp, hl, unit, backed, data, shaped, req⟩ first room isRead
  case write =>
    exact fun port addr len write bs r s hp hl unit backed data shaped req _ first room isWrite =>
      answers_dramRequest_write ⟨hp, hl, unit, backed, data, shaped, req⟩ first room isWrite
  case held =>
    exact fun port addr len write r s hp hl unit backed data shaped req _ full =>
      answers_dramRequest_held ⟨hp, hl, unit, backed, data, shaped, req⟩ full
  case urgency =>
    intro port r s shaped hp oldest
    refine answers_of (exec_urgencyChange hp) ?_
    rw [reconsider_urgency (shaped_counts shaped).dports hp, State.urgencyNow, oldest]
    exact urgencyOf_levels ..
  case revoked =>
    intro port ch g r q s shaped hp hc critical held granted normal unreserved left queued isPort own
    have counts := shaped_counts shaped
    have competes : s.evalUrgency.reqUrgency q = 3 := by
      rw [evalUrgency_reqUrgency counts.dports (isPort ▸ hp) own, isPort, critical]
    have some_critical : ((s.chan ch).queue.any fun q => s.evalUrgency.reqUrgency q == 3) = true :=
      List.any_eq_true.2 ⟨q, List.contains_iff_mem.1 queued, beq_iff_eq.2 competes⟩
    exact answers_of (exec_urgencyChange hp) ⟨(reconsider_urgency counts.dports hp).trans critical,
      reconsider_grant hc counts.chans unreserved held granted (evalUrgency_normal normal) some_critical left⟩
  case granted =>
    intro ch s shaped hc idle active queue turn
    obtain ⟨r, choice⟩ := best_isSome (s := s.evalUrgency) (ch := ch) (grantable_ne_nil queue)
    obtain ⟨mem, first⟩ := best_spec choice
    obtain ⟨queued, clear⟩ := grantable_queued mem
    refine answers_crossingGrant (reserved := false) (shaped_counts shaped).chans hc idle active (by simpa using turn) choice
      fun u grant count => ⟨r, queued, grant, count, clear, fun q hq => ?_⟩
    exact ⟨(first q hq).urgency, (first q hq).hit, (first q hq).age⟩
  case reserved =>
    intro ch s shaped hc idle active queue turn
    obtain ⟨r, choice⟩ := minBy_isSome (key := Req.arrival) (grantable_ne_nil queue)
    obtain ⟨queued, clear⟩ := grantable_queued (minBy_mem choice)
    exact answers_crossingGrant (reserved := true) (shaped_counts shaped).chans hc idle active (by simpa using turn) choice
      fun u grant _ => ⟨r, queued, grant, clear, minBy_least choice⟩
  case clean =>
    exact fun ch single bad r s shaped hc granted hp some_bytes next fresh read clean first =>
      answers_dramReadComplete_clean ⟨shaped, hc, granted, hp, next, fresh⟩ some_bytes read clean first
  case pending =>
    exact fun ch single bad r s shaped hc granted hp _ next fresh read array =>
      answers_dramReadComplete ⟨shaped, hc, granted, hp, next, fresh⟩ read array rfl
  case lost =>
    intro ch w single bad r s shaped hc granted hp _ next fresh read array wBad
    obtain ⟨u, step, answered⟩ := answers_dramReadComplete (single := single) (bad := bad)
      ⟨shaped, hc, granted, hp, next, fresh⟩ read rfl rfl
    have met : w ∈ s.lostWords bad r (arrayWords ((s.chan ch).queue.takeWhile fun q => q.id != r.id) r) :=
      List.mem_filter.2 ⟨array, wBad⟩
    rw [if_neg (by simpa using List.ne_nil_of_mem met)] at answered
    exact ⟨u, step, answered⟩
  case written =>
    exact fun ch single bad bs r s shaped hc granted hp _ next fresh isWrite _ none =>
      answers_dramWriteComplete ⟨shaped, hc, granted, hp, next, fresh⟩ isWrite none

end Sys2Proof.Machine
end

section
/-! SUPPORT. The upkeep of a DRAM channel (R270, R272, R273, R276, R287): the scrub read, the refreshes, the temperature readout
and the steps of training. -/

namespace Sys2Proof.Machine

variable {s t : State} {ch n port : Nat} {r : Req} {steps : List (List Sweep)} {ws : List Sweep}

/-- No channel beyond the last one is active. -/
theorem chan_active_lt (active : (s.chan ch).active = true) : ch < s.dram.chans.length := by
  by_contra out
  rw [State.chan, List.getD_eq_default _ _ (Nat.not_lt.1 out)] at active
  exact absurd active (by decide)

/-! ## The patrol scrub (R270) -/

theorem mem_outstanding : r ∈ s.outstanding port ↔
    r ∈ (s.dport port).held ∨ r.port = port ∧ ∃ n < s.dram.chans.length, r ∈ (s.chan n).queue := by
  have queued : (∃ c ∈ s.dram.chans, r ∈ c.queue) ↔ ∃ n < s.dram.chans.length, r ∈ (s.chan n).queue := by
    simp only [List.mem_iff_getElem (l := s.dram.chans)]
    constructor
    · rintro ⟨_, ⟨n, hn, rfl⟩, mem⟩
      exact ⟨n, hn, by rwa [State.chan, List.getD_eq_getElem _ _ hn]⟩
    · rintro ⟨n, hn, mem⟩
      exact ⟨_, ⟨n, hn, rfl⟩, by rwa [State.chan, List.getD_eq_getElem _ _ hn] at mem⟩
  rw [← queued]
  simp only [State.outstanding, List.mem_append, List.mem_flatMap, List.mem_filter, beq_iff_eq]
  exact or_congr_right ⟨fun ⟨c, hc, mem, same⟩ => ⟨same, c, hc, mem⟩, fun ⟨same, c, hc, mem⟩ => ⟨c, hc, mem, same⟩⟩

/-- A request that has been issued is outstanding at its port. -/
theorem present_outstanding (count : s.dram.chans.length = 24) (hp : r.port < s.dram.ports.length) :
    ∃ bs, { r with snap := bs } ∈ (s.present r).outstanding r.port := by
  rcases present_cases s r with e | e <;> rw [e]
  · have hc : s.reqChan r < s.dram.chans.length := count ▸ reqChan_lt s r
    have hc' : s.reqChan r < (s.acceptReq (s.reqChan r) r).dram.chans.length := by
      cases h : r.write with
      | none => simpa [acceptReq_read h] using hc
      | some bs => simpa [acceptReq_write h] using hc
    have asHeld : { r with snap := (s.accepted r).snap } = s.accepted r := by
      unfold State.accepted
      split <;> rfl
    refine ⟨(s.accepted r).snap, mem_outstanding.2 (.inr ⟨rfl, _, hc', ?_⟩)⟩
    rw [asHeld, acceptReq_chan_same hc]
    exact List.mem_append_right _ List.mem_cons_self
  · refine ⟨r.snap, mem_outstanding.2 (.inl ?_)⟩
    rw [State.dport_modDport_same s _ hp]
    exact List.mem_append_right _ List.mem_cons_self

/-- The scrubber moves on to a unit. -/
def Chan.scrubFrom (c : Chan) (unit : Nat) : Chan := { c with scrubNext := unit }

/-- The read that the patrol scrubber issues on port 42. -/
def State.scrubRead (s : State) (ch : Nat) (single bad : List Nat) : Req :=
  { id := s.dram.nextReq, port := 42
    addr := unitAddr s.activeChans ((s.activeChans.findIdx? fun n => n == ch).getD 0) (s.chan ch).scrubNext, len := 256
    write := none, arrival := s.now, scrub := true, single := single, bad := bad }

theorem numbered_shaped (shaped : s.shaped = true) (port : Nat) : (s.numbered port).shaped = true :=
  (modDport_keeps (Touch.Le.refl _)
    (Keeps.refl _ { s with dram := { s.dram with nextReq := s.dram.nextReq + 1 } })).shaped shaped

theorem exec_patrolScrub (active : (s.chan ch).active = true) (single bad : List Nat) :
    exec (.patrolScrub ch (s.chan ch).scrubNext single bad) s =
      .next ((((s.numbered 42).present (s.scrubRead ch single bad)).modChan ch fun c =>
        c.scrubFrom (((s.chan ch).scrubNext + 1) % chanUnits)).reconsider) :=
  congrArg Host.Outcome.next (if_pos (by simp [active]))

theorem answers_patrolScrub (shaped : s.shaped = true) (active : (s.chan ch).active = true) (single bad : List Nat) :
    answers (.patrolScrub ch (s.chan ch).scrubNext single bad) s fun u =>
      (u.chan ch).scrubNext = ((s.chan ch).scrubNext + 1) % 15728640 ∧
        ∃ bs, { s.scrubRead ch single bad with snap := bs } ∈ u.outstanding 42 := by
  have counts := shaped_counts shaped
  obtain ⟨bs, issued⟩ := present_outstanding (s := s.numbered 42) (r := s.scrubRead ch single bad) counts.chans
    (by simp [State.numbered, counts.dports, State.scrubRead])
  have kept := (present_keeps (r := s.scrubRead ch single bad) (Touch.Le.refl _) (Keeps.refl _ (s.numbered 42))).shaped
    (numbered_shaped shaped 42)
  have count := (shaped_counts kept).chans
  have step := exec_patrolScrub active single bad
  generalize (s.numbered 42).present (s.scrubRead ch single bad) = t at issued count step
  have same (n : Nat) : ((t.modChan ch fun c => c.scrubFrom (((s.chan ch).scrubNext + 1) % chanUnits)).chan n).queue =
      (t.chan n).queue :=
    chan_modChan_field Chan.queue (f := fun c => c.scrubFrom (((s.chan ch).scrubNext + 1) % chanUnits)) (fun _ => rfl) t ch n
  refine answers_of step ⟨?_, bs, mem_outstanding.2 ?_⟩
  · rw [reconsider_scrubNext, State.chan_modChan_same t _ (count ▸ counts.chans ▸ chan_active_lt active)]
    rfl
  · rcases mem_outstanding.1 issued with held | ⟨isPort, n, hn, queued⟩
    · exact .inl (by rw [reconsider_held]; exact held)
    · exact .inr ⟨isPort, n, by simpa using hn, by rwa [reconsider_queue, same]⟩

/-! ## Refresh (R272) -/

/-- The next bank is refreshed. -/
def Chan.refreshed (c : Chan) (now : Nat) : Chan :=
  { c with
    openRows := c.openRows.filter fun o => o.2.1 != c.nextBank, nextBank := (c.nextBank + 1) % 16, lastRefresh := now
    refreshes := c.refreshes + 1 }

theorem exec_perBankRefresh_due (active : (s.chan ch).active = true)
    (due : 488 ≤ 10 * (s.now - (s.chan ch).lastRefresh) * s.dram.mult.getD (ch / 4) 1) :
    exec (.perBankRefresh ch) s = .next (s.modChan ch fun c => c.refreshed s.now) :=
  congrArg Host.Outcome.next (if_pos (by rw [active, decide_eq_true due]; rfl))

theorem exec_perBankRefresh_early (early : 10 * (s.now - (s.chan ch).lastRefresh) * s.dram.mult.getD (ch / 4) 1 < 488) :
    exec (.perBankRefresh ch) s = .next s :=
  congrArg Host.Outcome.next (if_neg (by rw [decide_eq_false (Nat.not_le.2 early), Bool.and_false]; decide))

/-- A package's request for a bank is honoured. -/
def Chan.managed (c : Chan) (bank : Nat) : Chan :=
  { c with rfm := c.rfm + 1, openRows := c.openRows.filter fun o => !(o.2.1 == bank % 16 && o.1 == bank / 16) }

theorem exec_refreshManagement (active : (s.chan ch).active = true) (bank : Nat) :
    exec (.refreshManagement ch bank) s = .next (s.modChan ch fun c => c.managed bank) :=
  congrArg Host.Outcome.next (if_pos active)

/-! ## The temperature readout (R273) -/

theorem map_range_getD {α β : Type} (f : α → β) (d : α) {n : Nat} {l : List α} (h : l.length = n) :
    ((List.range n).map fun i => f (l.getD i d)) = l.map f := by
  refine List.ext_getElem (by simp [h]) fun i _ hi => ?_
  have hi : i < l.length := by simpa using hi
  simp [hi]

theorem answers_tempReadout {readings : List (Nat × Bool)} {k : Nat} (six : readings.length = 6)
    (newly : ((List.range 6).filter fun i => (readings.getD i (1, false)).2 && !s.dram.overTemp.getD i false) = [k]) :
    answers (.tempReadout readings) s fun u => u.dram.overTemp = readings.map Prod.snd ∧
      u.dram.mult = readings.map (fun x => max 1 x.1) ∧ u.power.dramHot = true ∧ u.reported (0x20 + 4 * k) 0xB := by
  have hot : k ∈ (List.range 6).filter fun i => (readings.getD i (1, false)).2 && !s.dram.overTemp.getD i false := by
    rw [newly]
    exact List.mem_singleton_self k
  obtain ⟨lt, isHot⟩ := List.mem_filter.1 hot
  have step : exec (.tempReadout readings) s = .next { s.raise (0x20 + 4 * k) 0xB 0 none 0 0 with
      dram := { (s.raise (0x20 + 4 * k) 0xB 0 none 0 0).dram with
        mult := (List.range 6).map fun k => max 1 (readings.getD k (1, false)).1
        overTemp := (List.range 6).map fun k => (readings.getD k (1, false)).2 }
      power := { (s.raise (0x20 + 4 * k) 0xB 0 none 0 0).power with
        dramHot := ((List.range 6).map fun k => (readings.getD k (1, false)).2).any id } } := by
    simp only [exec, execTempReadout, newly]
    rfl
  refine answers_of step ⟨map_range_getD Prod.snd (1, false) six, map_range_getD (fun x => max 1 x.1) (1, false) six, ?_,
    raise_reported (s := s) ..⟩
  refine List.any_eq_true.2 ⟨_, List.mem_map.2 ⟨k, lt, rfl⟩, ?_⟩
  simpa using (Bool.and_eq_true_iff.1 isHot).1

/-! ## Training steps (R274 to R276) -/

theorem trainStep_passes {step : Nat} {attempts : List Sweep} {w : Sweep} (h : trainStep step attempts = some w) :
    Sweep.passes w = true := by
  unfold trainStep at h
  have good := List.find?_some h
  exact (Bool.and_eq_true_iff.1 good).2

theorem trainStep_fails {step : Nat} {attempts : List Sweep}
    (h : ((attempts.take 2).any fun w => Sweep.shaped w step && Sweep.passes w) = false) : trainStep step attempts = none :=
  List.find?_eq_none.2 fun w hw => by simpa using List.any_eq_false.1 h w hw

/-- Retraining runs steps 2 to 4. -/
theorem trainSteps_two (steps : List (List Sweep)) : trainSteps 2 steps =
    (trainStep 2 (steps.getD 0 [])).bind fun a => (trainStep 3 (steps.getD 1 [])).bind fun b =>
      (trainStep 4 (steps.getD 2 [])).map fun c => [a, b, c] := by
  simp only [trainSteps, List.range', List.mapM_cons, List.mapM_nil]
  cases trainStep 2 (steps.getD 0 []) <;> cases trainStep 3 (steps.getD 1 []) <;> cases trainStep 4 (steps.getD 2 []) <;> rfl

theorem trainSteps_two_ranges (h : trainSteps 2 steps = some ws) :
    ws.length = 3 ∧ ∀ w ∈ ws, ∀ x ∈ w.delays, 26 ≤ x.2 - x.1 := by
  rw [trainSteps_two] at h
  obtain ⟨a, first, h⟩ := Option.bind_eq_some_iff.1 h
  obtain ⟨b, second, h⟩ := Option.bind_eq_some_iff.1 h
  obtain ⟨c, third, rfl⟩ := Option.map_eq_some_iff.1 h
  have wide {w : Sweep} (passes : Sweep.passes w = true) : ∀ x ∈ w.delays, 26 ≤ x.2 - x.1 := fun x hx => by
    simpa using List.all_eq_true.1 (Bool.and_eq_true_iff.1 passes).1 x hx
  refine ⟨rfl, fun w hw => ?_⟩
  simp only [List.mem_cons, List.not_mem_nil, or_false] at hw
  rcases hw with rfl | rfl | rfl
  · exact wide (trainStep_passes first)
  · exact wide (trainStep_passes second)
  · exact wide (trainStep_passes third)

theorem trainSteps_two_fails {k : Nat} (hk : k < 3)
    (h : (((steps.getD k []).take 2).any fun w => Sweep.shaped w (k + 2) && Sweep.passes w) = false) :
    trainSteps 2 steps = none := by
  have fails := trainStep_fails h
  rw [trainSteps_two]
  match k, hk with
  | 0, _ =>
    rw [show trainStep 2 (steps.getD 0 []) = none from fails]
    rfl
  | 1, _ =>
    rw [show trainStep 3 (steps.getD 1 []) = none from fails]
    cases trainStep 2 (steps.getD 0 []) <;> rfl
  | 2, _ =>
    rw [show trainStep 4 (steps.getD 2 []) = none from fails]
    cases trainStep 2 (steps.getD 0 []) <;> cases trainStep 3 (steps.getD 1 []) <;> rfl

section
variable (active : (s.chan ch).active = true) (runs : s.cpRunning 2 = true) (must : s.mustRetrain ch = true)
include active runs must

theorem exec_channelRetrain_passed (passed : trainSteps 2 steps = some ws) :
    exec (.channelRetrain ch steps) s = .next (s.modChan ch fun c =>
      { c with drift := 0, errTimes := [], retrains := c.retrains + 1, trained := c.trained.take 1 ++ ws }) := by
  simp [exec, execChannelRetrain, active, runs, must, passed]

theorem exec_channelRetrain_failed (failed : trainSteps 2 steps = none) :
    exec (.channelRetrain ch steps) s = .next (s.mapOutChannel ch) := by
  simp [exec, execChannelRetrain, active, runs, must, failed]

end

theorem drifted_of_delay {lo hi : Int} {c : Chan} (mem : (lo, hi) ∈ c.rwDelays)
    (near : (lo + hi) / 2 + c.drift < lo + 8 ∨ hi - 8 < (lo + hi) / 2 + c.drift) : c.drifted = true :=
  List.any_eq_true.2 ⟨_, mem, by simpa using near⟩

/-! ## Training at start-up (R274, R278, R423) -/

/-- What the training of a channel leaves, none for a channel that was not found working. -/
def foundAt (found : List ChanTraining) (n : Nat) : Option (List Sweep) := found[n]?.bind ChanTraining.result

/-- The channels after DRAM_TRAINING. -/
def State.trainedChans (s : State) (found : List ChanTraining) : List Chan :=
  s.dram.chans.zipIdx.map fun x => { x.1 with
    active := (foundAt found x.2).isSome, trained := (foundAt found x.2).getD [], drift := 0, idleSince := s.now
    lastRefresh := s.now }

/-- The channels that training does not find working. -/
def unfound (found : List ChanTraining) : List Nat := (List.range 24).filter fun n => (foundAt found n).isNone

/-- The device with its channels trained and the interleave set. -/
def State.trainedTo (s : State) (found : List ChanTraining) : State :=
  State.setBacked { s.loseDram with
    dram := { s.dram with chans := s.trainedChans found, trained := true }
    faults := { s.faults with channelsOut := (unfound found).length } }

theorem exec_dramTraining {found : List ChanTraining} (stage : s.dev.stage = .training) (untrained : s.dram.trained = false)
    (runs : s.cpRunning 2 = true) : exec (.dramTraining found) s = .next
      (((unfound found).foldl (fun s c => s.later (0x20 + c) 5 2 0) (s.trainedTo found)).faultIfFew) :=
  congrArg Host.Outcome.next (if_pos (by rw [stage, untrained, runs]; rfl))

theorem faultIfFew_keeps_rest (s : State) : Keeps ⟨Touch.nothing.dev.smbus, s⟩ s.faultIfFew :=
  faultIfFew_keeps (Touch.Le.refl _) (Keeps.refl _ s)

theorem faultIfFew_fault (few : s.activeChans.length < 16) : s.faultIfFew.dev.fault = true := by
  rw [State.faultIfFew, if_pos few, State.setFault]
  split
  · assumption
  · rfl

theorem activeChans_of_dram (h : t.dram = s.dram) : t.activeChans = s.activeChans :=
  activeChans_congr fun n => by rw [State.chan, h, State.chan]

theorem trainedTo_activeChans (count : s.dram.chans.length = 24) (found : List ChanTraining) :
    (s.trainedTo found).activeChans = (List.range 24).filter fun n => (foundAt found n).isSome := by
  refine List.filter_congr fun n hn => ?_
  have hn : n < s.dram.chans.length := count ▸ List.mem_range.1 hn
  simp [State.chan, State.trainedTo, State.setBacked, State.trainedChans, List.getD_eq_getElem?_getD, hn]

theorem answers_dramTraining {found : List ChanTraining} (shaped : s.shaped = true) (stage : s.dev.stage = .training)
    (untrained : s.dram.trained = false) (runs : s.cpRunning 2 = true) :
    answers (.dramTraining found) s fun u => u.dram.trained = true ∧
      u.activeChans = ((List.range 24).filter fun n => (found[n]?.bind ChanTraining.result).isSome) ∧
      u.faults.channelsOut = ((List.range 24).filter fun n => (found[n]?.bind ChanTraining.result).isNone).length ∧
      u.dram.granulesBacked = backedGranules u.activeChans.length ∧ (u.activeChans.length < 16 → u.dev.fault = true) := by
  have noted : Keeps ⟨Touch.nothing.dev, s.trainedTo found⟩
      ((unfound found).foldl (fun s c => s.later (0x20 + c) 5 2 0) (s.trainedTo found)) :=
    keepsFold (Q := Keeps ⟨Touch.nothing.dev, s.trainedTo found⟩) (Keeps.refl _ _) fun _ _ h =>
      later_keeps (Touch.Le.refl _) h
  have step := exec_dramTraining (found := found) stage untrained runs
  generalize (unfound found).foldl (fun s c => s.later (0x20 + c) 5 2 0) (s.trainedTo found) = t at noted step
  have kept := faultIfFew_keeps_rest t
  have dram : t.faultIfFew.dram = (s.trainedTo found).dram := (kept.dram_eq rfl).trans (noted.dram_eq rfl)
  have chans := activeChans_of_dram dram
  refine answers_of step ⟨?_, chans.trans (trainedTo_activeChans (shaped_counts shaped).chans found), ?_, ?_, fun few => ?_⟩
  · rw [dram]
    rfl
  · rw [kept.faults_eq rfl, noted.faults_eq rfl]
    rfl
  · rw [chans, dram]
    rfl
  · refine faultIfFew_fault ?_
    rwa [activeChans_of_dram (kept.dram_eq rfl)] at few

end Sys2Proof.Machine
end

section
/-! SUPPORT. Mapping a channel out while the device runs (R278, R279), DRAM_TRAIN_GO (R277, R440), and the statement
DramUpkeep. -/

namespace Sys2Proof.Machine

variable {s t u : State} {ch n : Nat} {v : Nat}

/-! ## Mapping a channel out (R278, R279) -/

/-- A channel whose requests have failed. -/
def Chan.emptied (c : Chan) : Chan := { c with queue := [], grant := none }

theorem failRequests_chans (s : State) (ch : Nat) :
    (s.failRequests ch).dram.chans = s.dram.chans.modify ch Chan.emptied ∧
      (s.failRequests ch).faults.channelsOut = s.faults.channelsOut := by
  unfold State.failRequests
  extract_lets mine failed ports
  have answered : failed.dram.chans = s.dram.chans ∧ failed.faults.channelsOut = s.faults.channelsOut := by
    refine keepsFold (Q := fun t : State => t.dram.chans = s.dram.chans ∧ t.faults.channelsOut = s.faults.channelsOut)
      ⟨rfl, rfl⟩ fun t r h => ⟨?_, (raise_channelsOut (s := t) ..).trans h.2⟩
    rw [← h.1, ← congrArg Dram.chans (raise_dram t (0x20 + ch) 5 0 none 0 0)]
    rfl
  exact ⟨congrArg (fun l => List.modify l ch Chan.emptied) answered.1, answered.2⟩

/-- Every job has failed after the requests of a channel. -/
def State.channelFailed (s : State) (ch : Nat) : State := ((s.raise (0x20 + ch) 5 2 none 0 0).failRequests ch).failAllJobs

theorem channelFailed_chan (active : (s.chan ch).active = true) (n : Nat) :
    ((s.channelFailed ch).chan n).active = (s.chan n).active ∧
      (n = ch → ((s.channelFailed ch).chan n).queue = [] ∧ ((s.channelFailed ch).chan n).grant = none) := by
  obtain ⟨ts, jobs⟩ := (failAllJobs_sameDram ((s.raise (0x20 + ch) 5 2 none 0 0).failRequests ch)).chans n
  have requests : ((s.raise (0x20 + ch) 5 2 none 0 0).failRequests ch).chan n = (s.modChan ch Chan.emptied).chan n := by
    rw [State.chan, (failRequests_chans ..).1, raise_dram]
    rfl
  rw [State.channelFailed, jobs, requests]
  refine ⟨chan_modChan_field Chan.active (f := Chan.emptied) (fun _ => rfl) s ch n, ?_⟩
  rintro rfl
  rw [State.chan_modChan_same s _ (chan_active_lt active)]
  exact ⟨rfl, rfl⟩

theorem channelFailed_channelsOut (s : State) (ch : Nat) :
    (s.channelFailed ch).faults.channelsOut = s.faults.channelsOut :=
  (failAllJobs_sameDram _).mapped.trans ((failRequests_chans ..).2.trans (raise_channelsOut ..))

/-- A channel that is out of use. -/
def Chan.retired (c : Chan) : Chan := { c with active := false }

theorem leaveActive_chan (active : (s.chan ch).active = true) (n : Nat) :
    ((s.leaveActive ch).chan n).active = ((s.chan n).active && n != ch) ∧
      ((s.leaveActive ch).chan n).queue = (s.chan n).queue ∧ ((s.leaveActive ch).chan n).grant = (s.chan n).grant := by
  refine ⟨?_, chan_modChan_field Chan.queue (f := Chan.retired) (fun _ => rfl) s ch n,
    chan_modChan_field Chan.grant (f := Chan.retired) (fun _ => rfl) s ch n⟩
  by_cases h : n = ch
  · subst h
    rw [bne_self_eq_false, Bool.and_false]
    exact congrArg Chan.active (State.chan_modChan_same s Chan.retired (chan_active_lt active))
  · rw [bne_iff_ne.2 h, Bool.and_true]
    exact congrArg Chan.active (State.chan_modChan_other s Chan.retired (Ne.symm h))

theorem reserveTables_sameDram (s : State) (p : Nat) : s.SameDram (s.reserveTables p) := by
  unfold State.reserveTables
  split
  · exact .of_dram rfl rfl
  · extract_lets b filled
    have tables : s.SameDram filled := (fill_sameDram ..).trans (fill_sameDram ..)
    clear_value filled
    exact tables.trans (.of_dram rfl rfl)

/-- The structures that are reserved anew leave the controller with the interleave that has been set. -/
theorem rebuildDram_sameDram (s : State) : s.setBacked.SameDram s.rebuildDram := by
  unfold State.rebuildDram
  extract_lets backed lost parts cleaned
  have granules : s.setBacked.SameDram lost := keepsFold (Q := s.setBacked.SameDram) (.refl _) fun _ _ h =>
    h.trans (loseGranule_sameDram ..)
  have trimmed : s.setBacked.SameDram cleaned := granules.trans (.of_chans rfl rfl rfl rfl)
  refine keepsFold (Q := s.setBacked.SameDram) trimmed fun t p h => ?_
  split
  · have dropped : t.SameDram (t.dropObjects p) := .of_dram rfl rfl
    exact (h.trans dropped).trans (reserveTables_sameDram ..)
  · exact h

/-- Channel `ch` of `s` is mapped out in `t`. -/
structure State.MappedOut (s : State) (ch : Nat) (t : State) : Prop where
  active : ∀ n, (t.chan n).active = ((s.chan n).active && n != ch)
  queue : (t.chan ch).queue = []
  grant : (t.chan ch).grant = none
  counted : t.faults.channelsOut = s.faults.channelsOut + 1
  backed : t.dram.granulesBacked = backedGranules t.activeChans.length
  fault : t.activeChans.length < 16 → t.dev.fault = true

/-- A channel has left the active set, what DRAM held is lost, and the loss is noted. -/
def State.removed (s : State) (ch : Nat) : State := ((s.leaveActive ch).rebuildDram.faultIfFew).traceEvent (0x20 + ch) 2

theorem removed_sameDram (s : State) (ch : Nat) : (s.leaveActive ch).setBacked.SameDram (s.removed ch) := by
  have checked : (s.leaveActive ch).rebuildDram.SameDram (s.leaveActive ch).rebuildDram.faultIfFew :=
    .of_keeps (faultIfFew_keeps_rest _) rfl rfl
  exact ((rebuildDram_sameDram _).trans checked).trans (traceEvent_sameDram ..)

theorem removed_activeChans (s : State) (ch : Nat) : (s.removed ch).activeChans = (s.leaveActive ch).activeChans :=
  activeChans_congr (removed_sameDram s ch).active

theorem removed_fault (few : (s.removed ch).activeChans.length < 16) : (s.removed ch).dev.fault = true := by
  have rebuilt : (s.leaveActive ch).rebuildDram.activeChans = (s.leaveActive ch).activeChans :=
    activeChans_congr (rebuildDram_sameDram _).active
  have noted := (traceEvent_keeps (unit := 0x20 + ch) (code := 2) (Touch.Le.refl _)
    (Keeps.refl _ (s.leaveActive ch).rebuildDram.faultIfFew)).dev_eq rfl
  rw [State.removed, noted]
  exact faultIfFew_fault (by rwa [rebuilt, ← removed_activeChans])

theorem mapOutChannel_mappedOut (active : (s.chan ch).active = true) : s.MappedOut ch (s.mapOutChannel ch) := by
  have out : s.mapOutChannel ch = (s.channelFailed ch).removed ch := if_pos active
  have failed := channelFailed_chan active
  have counted := channelFailed_channelsOut s ch
  rw [out]
  generalize s.channelFailed ch = t at failed counted
  have left := leaveActive_chan (s := t) (ch := ch) ((failed ch).1.trans active)
  have same := removed_sameDram t ch
  obtain ⟨ts, chan⟩ := same.chans ch
  refine ⟨fun n => ?_, ?_, ?_, ?_, ?_, removed_fault⟩
  · rw [same.active, ← (failed n).1]
    exact (left n).1
  · rw [chan]
    exact (left ch).2.1.trans ((failed ch).2 rfl).1
  · rw [chan]
    exact (left ch).2.2.trans ((failed ch).2 rfl).2
  · rw [same.mapped, ← counted]
    rfl
  · rw [same.backed, removed_activeChans]
    rfl

section
variable (h : s.MappedOut ch t)
include h

theorem State.MappedOut.activeChans : t.activeChans = s.activeChans.filter fun c => c != ch := by
  simp only [State.activeChans, List.filter_filter, h.active, Bool.and_comm]

theorem State.MappedOut.count (active : (s.chan ch).active = true) (hc : ch < 24) :
    t.activeChans.length = s.activeChans.length - 1 := by
  have mem : ch ∈ s.activeChans := List.mem_filter.2 ⟨List.mem_range.2 hc, active⟩
  have nodup : s.activeChans.Nodup := List.nodup_range.filter _
  rw [h.activeChans, ← nodup.erase_eq_filter, List.length_erase_of_mem mem]

end

/-! ## The training helpers (R277, R440) -/

theorem exec_dramTrainGo (reaches : s.reaches .pf = true) (value : Word) :
    exec (.dramTrainGo .pf value) s = .next (s.trainCommand value.toNat) :=
  congrArg Host.Outcome.next (if_pos (by rw [reaches]; rfl))

theorem trainCommand_unprivileged (expert : (s.part 0).expert = false) (v : Nat) : s.trainCommand v = s :=
  if_pos (by rw [expert]; rfl)

/-- The state with DRAM_TRAIN_CMD written. -/
def State.commanded (s : State) (v : Nat) : State :=
  { s with dram := { s.dram with trainCmd := BitVec.ofNat 32 (trainCmdOf s.dram.trainCmd.toNat v) } }

theorem trainCommand_go (expert : (s.part 0).expert = true) (go : bit 31 v = true) :
    s.trainCommand v = if decide (24 ≤ bits 4 0 v) ||
        ((s.chan (bits 4 0 v)).active && (trainArray v || bit 31 s.dram.trainOffset.toNat)) then
      { s.commanded v with dram := { (s.commanded v).dram with trainResult := 2 ^ 17 } }
    else (s.commanded v).runHelper (bits 4 0 v) v := by
  unfold State.trainCommand
  rw [expert, go]
  rfl

/-- The lane bits of a result, from lane `k` on: below `2 ^ (k + lanes)`, and 0 where no lane has an error. -/
theorem lane_bits (l : List Nat) (k : Nat) :
    ((l.zipIdx k).map fun c => if c.1 = 0 then 0 else 2 ^ c.2).sum + 2 ^ k ≤ 2 ^ (k + l.length) ∧
      (((l.zipIdx k).map fun c => if c.1 = 0 then 0 else 2 ^ c.2).sum = 0 ↔ l.sum = 0) := by
  induction l generalizing k with
  | nil => simp
  | cons a l ih =>
    obtain ⟨bound, zero⟩ := ih (k + 1)
    have double : 2 ^ (k + 1) = 2 * 2 ^ k := pow_succ' 2 k
    have positive : 0 < 2 ^ k := Nat.two_pow_pos k
    have length : k + (a :: l).length = k + 1 + l.length := by rw [List.length_cons]; omega
    rw [length, List.zipIdx_cons, List.map_cons, List.sum_cons, List.sum_cons]
    dsimp only
    split <;> omega

theorem runHelper_result (s : State) (ch v : Nat) : ∃ lanes errors : Nat, lanes < 2 ^ 16 ∧ (lanes = 0 ↔ errors = 0) ∧
    (s.runHelper ch v).dram.trainResult = BitVec.ofNat 32 (lanes + 2 ^ 16 + 2 ^ 18 * min 16383 errors) := by
  obtain ⟨bound, zero⟩ := lane_bits ((List.range 16).map (s.laneCount v (s.helperRun ch v))) 0
  rw [List.length_map, List.length_range] at bound
  exact ⟨_, _, by omega, zero, rfl⟩

/-- The fields of a helper's result. -/
theorem helper_fields {lanes errors : Nat} (small : lanes < 2 ^ 16) (zero : lanes = 0 ↔ errors = 0) :
    let w := (BitVec.ofNat 32 (lanes + 2 ^ 16 + 2 ^ 18 * min 16383 errors)).toNat
    bit 16 w = true ∧ bit 17 w = false ∧ (bits 15 0 w = 0 ↔ bits 31 18 w = 0) := by
  have whole : (BitVec.ofNat 32 (lanes + 2 ^ 16 + 2 ^ 18 * min 16383 errors)).toNat =
      lanes + 2 ^ 16 + 2 ^ 18 * min 16383 errors := by
    rw [BitVec.toNat_ofNat, Nat.mod_eq_of_lt]
    omega
  simp only [whole, bit, bits, beq_iff_eq, beq_eq_false_iff_ne]
  omega

/-! ## The statement -/

/-- Settles O48: each upkeep command is one change of its channel, and leaves the others by the rules of the state; a map-out is
followed through its steps, of which only the failing of requests and the leaving of the active set change a channel. -/
theorem dramUpkeep : Obligations.DramUpkeep := by
  unfold Obligations.DramUpkeep
  refine ⟨?scrub, ?otherUnit, ?refresh, ?early, ?management, ?temperature, ?drift, ?retrained, ?retrainFailed, ?stepFails,
    ?noRetrain, ?drifted, ?mapOut, ?powerDown, ?busy, ?refused, ?helper, ?unprivileged, ?training⟩
  case scrub =>
    intro ch single bad s shaped active _
    obtain ⟨u, step, next, bs, issued⟩ := answers_patrolScrub shaped active single bad
    exact ⟨u, step, next, _, issued, rfl, rfl, rfl, rfl, rfl, rfl, rfl⟩
  case otherUnit =>
    exact fun ch unit single bad s other => congrArg Host.Outcome.next (if_neg (by simp [other]))
  case refresh =>
    intro ch s shaped active due
    refine answers_of (exec_perBankRefresh_due active due) ?_
    rw [State.chan_modChan_same s _ (chan_active_lt active)]
    exact ⟨rfl, rfl, rfl, fun o ho => by simpa using (List.mem_filter.1 ho).2⟩
  case early => exact fun ch s early => exec_perBankRefresh_early early
  case management =>
    intro ch bank s shaped active
    refine answers_of (exec_refreshManagement active bank) ?_
    rw [State.chan_modChan_same s _ (chan_active_lt active)]
    exact ⟨rfl, fun o ho ⟨sameBank, sameRank⟩ => by simpa [sameBank, sameRank] using (List.mem_filter.1 ho).2⟩
  case temperature => exact fun readings k s six newly => answers_tempReadout six newly
  case drift =>
    intro ch drift s shaped active runs
    refine answers_of (congrArg Host.Outcome.next (if_pos (by rw [active, runs]; rfl))) ?_
    rw [State.chan_modChan_same s _ (chan_active_lt active)]
  case retrained =>
    intro ch steps ws s _ active runs must passed
    exact ⟨exec_channelRetrain_passed active runs must passed, trainSteps_two_ranges passed⟩
  case retrainFailed =>
    intro ch steps s _ active runs must failed
    exact answers_of (exec_channelRetrain_failed active runs must failed) (mapOutChannel_mappedOut active).activeChans
  case stepFails => exact fun k steps hk fails => trainSteps_two_fails hk fails
  case noRetrain =>
    exact fun ch steps s may => congrArg Host.Outcome.next (if_neg (by simp [may]))
  case drifted => exact fun lo hi c mem near => drifted_of_delay mem near
  case mapOut =>
    intro ch s shaped active ready
    have out := mapOutChannel_mappedOut active
    have count := out.count active ((shaped_counts shaped).chans ▸ chan_active_lt active)
    refine answers_of (congrArg Host.Outcome.next (if_pos ready)) ⟨out.activeChans, out.queue, out.grant, out.counted,
      by rw [out.backed, count], fun few => out.fault ?_⟩
    have mem : ch ∈ s.activeChans :=
      List.mem_filter.2 ⟨List.mem_range.2 ((shaped_counts shaped).chans ▸ chan_active_lt active), active⟩
    have positive := List.length_pos_of_mem mem
    omega
  case powerDown =>
    intro ch s shaped active queue idle
    refine answers_of (congrArg Host.Outcome.next (if_pos (by simp [active, queue, usTicks, idle]))) ?_
    rw [State.chan_modChan_same s _ (chan_active_lt active)]
  case busy =>
    intro ch s early
    have short : ¬ (s.chan ch).idleSince + usTicks ≤ s.now := Nat.not_le.2 early
    exact congrArg Host.Outcome.next (if_neg (by simp [short]))
  case refused =>
    intro value s reaches expert go beyond
    refine answers_of ((exec_dramTrainGo reaches value).trans
      (congrArg _ ((trainCommand_go expert go).trans (if_pos (by simp [beyond]))))) ⟨rfl, rfl⟩
  case helper =>
    intro value s reaches expert go within out
    obtain ⟨lanes, errors, small, zero, result⟩ :=
      runHelper_result (s.commanded value.toNat) (bits 4 0 value.toNat) value.toNat
    refine answers_of ((exec_dramTrainGo reaches value).trans
      (congrArg _ ((trainCommand_go expert go).trans (if_neg (by simp [within, out]))))) ?_
    rw [result]
    exact helper_fields small zero
  case unprivileged =>
    intro value s expert
    have kept := trainCommand_unprivileged expert value.toNat
    change Host.Outcome.next (if Fn.pf == Fn.pf && s.reaches .pf then s.trainCommand value.toNat else s) = .next s
    rw [kept, ite_self]
  case training => exact fun found s shaped stage untrained runs => answers_dramTraining shaped stage untrained runs

end Sys2Proof.Machine
end

section
/-! SUPPORT. Refutations: states in which FLASH_READ, FLASH_PROTECT and FLASH_OPERATION_DONE do not do what their statements say,
because the statements range over states in which dies, opcodes or fault records are as no run of the device leaves them. -/

namespace Sys2Proof.Machine

/-! ## A refused job whose uid has an operation waiting at a die -/

/-- A read of job `uid` at a die. -/
def readOf (uid : Nat) : FOp :=
  { kind := .read, uid := uid, slot := 0, block := 0, page := 0, band := (0, 0), wp := none, fast := false, data := []
    suspended := false, started := none, windowFrom := none, starved := 0 }

/-- A flash job of opcode `op` that has not begun, in a partition without a volume. -/
def newFlashJob (op : Nat) : Job := { emptyTileList with opcode := op, expert := false }

/-- That job, and a die that runs another job's read and has one under the new job's uid waiting behind it. A job brings no
operation to a die before it begins. -/
def readWaitsState (op : Nat) (lockout : Bool) : State := { State.reset with
  qps := [{ Qp.reset with enabled := true }]
  jobs := { Jobs.reset with list := [newFlashJob op] }
  flash := { Flash.shipped with dies := [{ Die.shipped with ops := [readOf 1, readOf 0] }], lockout := lockout }
  kadon := { Kadon.reset with cps := List.replicate 3 { Cp.reset with state := .running } } }

/-- Refutes O39: a job that is refused ends with its work withdrawn, and an operation that waits at a die under its uid goes with
it (R305), where the first clause says that the flash stays as it was. The clause lacks that a job that has not begun has no
operation at a die. -/
theorem not_flashJobsStart : ¬ Obligations.FlashJobsStart := by
  unfold Obligations.FlashJobsStart
  rintro ⟨refused, -⟩
  have ⟨_, kept⟩ := answers_stateAfter (refused 0 0x20 0x31 (.flashRead 0) (newFlashJob 0x20) (readWaitsState 0x20 false)
    List.mem_cons_self (by decide +kernel) (by decide +kernel) rfl (by decide +kernel))
  exact absurd (congrArg Flash.dies kept) (by decide +kernel)

/-- Refutes O40: under lockout the job ends with its work withdrawn, and an operation that waits at a die under its uid goes with
it (R305), where the last clause says that the flash stays as it was. The clause lacks that a FLASH_PROTECT job has no operation
at a die. -/
theorem not_flashProtectActions : ¬ Obligations.FlashProtectActions := by
  unfold Obligations.FlashProtectActions
  rintro ⟨-, -, -, -, -, lockedOut⟩
  have ⟨_, kept⟩ := answers_stateAfter (lockedOut 0 (newFlashJob 0x23) (readWaitsState 0x23 true)
    (by decide +kernel) (by decide +kernel) rfl)
  exact absurd (congrArg Flash.dies kept) (by decide +kernel)

/-! ## A serving job that reads flash, where two fault records have one number -/

/-- A flushed group to which job 0 appended the page of `onePageSeq`: undoing it drops the page's reference. -/
def flushedGroup : Group :=
  { Group.empty 0 0 0 0 false 64 0 with jobs := [0], flushed := some 0 }

/-- A running job of a serving opcode, with pages to read from flash as only a FLASH_READ or FLASH_PROGRAM has. -/
def servingReader : Job := { emptyTileList with opcode := 0x03, state := .running, ext := .flash 1 0 }

/-- A die that reads a programmed page for that job; the page table's first word is poisoned and is written in part. -/
def servingReadState : State := { State.reset with
  qps := [{ Qp.reset with enabled := true }]
  jobs := { Jobs.reset with list := [servingReader] }
  seqs := [onePageSeq]
  parts := [{ Part.absent with pageTable := 1 }]
  kvs := [{ Kv.empty with groups := [flushedGroup] }]
  dram := { Dram.reset with poisoned := [0] }
  flash := { Flash.shipped with dies := [{ Die.shipped with
    ops := [readOf 0], blocks := [{ FBlock.blank 0 with pages := 1 }] }] }
  faults := { State.reset.faults with recs := [earlyRecord] } }

/-- Refutes O41: the failed read's record gets the number of a record that stands in the queue already; the end of the job, which
has a serving opcode, undoes its appends and meets a poisoned word, whose occurrence folds into that earlier record, and every
record of the number becomes it (`State.raise`). The second clause lacks that the job has a flash opcode, and that the records of
the queue have numbers below FAULT_HEAD. -/
theorem not_flashOperationsEnd : ¬ Obligations.FlashOperationsEnd := by
  unfold Obligations.FlashOperationsEnd
  rintro ⟨-, uncorrectable, -⟩
  have ⟨_, recorded⟩ := answers_stateAfter (uncorrectable 0 0 1 servingReader (readOf 0) servingReadState
    (by decide +kernel) rfl rfl (by decide +kernel) (by decide +kernel) rfl (by decide +kernel))
  exact absurd recorded (by decide +kernel)

end Sys2Proof.Machine
end

section
/-! SUPPORT. Wear levelling (R291) through the controller's own programs and erases, the erase at the head of a die (R302), and the
statement on gap moves, suspended erases and mounting (R291, R302, R303, R306). -/

namespace Sys2Proof.Machine

variable {s t u : State} {die block n : Nat} {d : Die} {o : FOp}

theorem Keeps.flash_eq {may : Touch} (h : Keeps ⟨may, s⟩ t) (hm : may.tFlash = false) : t.flash = s.flash := by
  rw [h.only]; simp [Touch.ow, hm]

theorem shaped_dies (h : s.shaped = true) : s.flash.dies.length = 32 := by
  simp only [State.shaped, Bool.and_eq_true, beq_iff_eq] at h
  omega

/-! ## Dies by number -/

theorem die_congr (h : t.flash = s.flash) (n : Nat) : t.die n = s.die n := by rw [State.die, State.die, h]

theorem raise_die (s : State) (source cls detail : Nat) (part : Option Nat) (tag info n : Nat) :
    (s.raise source cls detail part tag info).die n = s.die n :=
  die_congr ((raise_keeps (Touch.Le.refl _) (Keeps.refl _ s)).flash_eq rfl) n

theorem die_modDie_field {α : Type} (g : Die → α) {f : Die → Die} (hf : ∀ d, g (f d) = g d) (s : State) (n m : Nat) :
    g ((s.modDie n f).die m) = g (s.die m) := by
  by_cases hm : n = m
  · subst hm
    by_cases hn : n < s.flash.dies.length
    · rw [State.die_modDie_same s f hn, hf]
    · rw [State.die, State.modDie_flash, List.modify_eq_self (by omega), ← State.die]
  · rw [State.die_modDie_other s f hm]

/-! ## Where a die stands in its wear levelling (R291) -/

/-- The gap, the start of the ring, and the erases since the last move. -/
def Die.turn (d : Die) : Nat × Nat × Nat := (d.gap, d.start, d.sinceMove)

/-- No gap has moved, and no erase has been counted for a move. -/
structure State.SameTurns (s t : State) : Prop where
  count : t.flash.dies.length = s.flash.dies.length
  turn : ∀ n, (t.die n).turn = (s.die n).turn

theorem State.SameTurns.of_dies (h : t.flash.dies = s.flash.dies) : s.SameTurns t :=
  ⟨by rw [h], fun n => by rw [State.die, State.die, h]⟩

theorem State.SameTurns.refl (s : State) : s.SameTurns s := .of_dies rfl

theorem State.SameTurns.trans (h : s.SameTurns t) (k : t.SameTurns u) : s.SameTurns u :=
  ⟨k.count.trans h.count, fun n => (k.turn n).trans (h.turn n)⟩

theorem State.SameTurns.modDie (s : State) (n : Nat) {f : Die → Die} (hf : ∀ d, (f d).turn = d.turn) :
    s.SameTurns (s.modDie n f) :=
  ⟨by simp, die_modDie_field Die.turn hf s n⟩

theorem raise_sameTurns (s : State) (source cls detail : Nat) (part : Option Nat) (tag info : Nat) :
    s.SameTurns (s.raise source cls detail part tag info) :=
  .of_dies (congrArg Flash.dies ((raise_keeps (Touch.Le.refl _) (Keeps.refl _ s)).flash_eq rfl))

theorem copyBlock_sameTurns (s : State) (die old new : Nat) : s.SameTurns (s.copyBlock die old new) := by
  unfold State.copyBlock
  extract_lets b copied
  have pages : s.SameTurns copied := keepsFold (Q := s.SameTurns) (.refl s) fun _ _ h => h.trans (.of_dies rfl)
  exact pages.trans (.modDie copied die fun _ => rfl)

theorem eraseBlock_sameTurns (s : State) (die block : Nat) (fast : Bool) : s.SameTurns (s.eraseBlock die block fast) := by
  unfold State.eraseBlock
  extract_lets cleared counted
  have erased : s.SameTurns counted := State.SameTurns.trans (t := cleared) (.of_dies rfl) (.modDie cleared die fun _ => rfl)
  split
  · exact (erased.trans (.modDie counted die (f := fun d => { d with wearRaised := true }) fun _ => rfl)).trans
      (raise_sameTurns ..)
  · exact erased

/-! ## Retirement (R299, R300) -/

theorem retireBlock_sameTurns (s : State) (die old : Nat) : s.SameTurns (s.retireBlock die old).2 := by
  unfold State.retireBlock
  extract_lets -lift d
  split
  · split
    · exact .refl s
    · exact (State.SameTurns.modDie s die (f := fun d => { d with worn := true }) fun _ => rfl).trans (.of_dies rfl)
  next new rest _ =>
    have swapped := State.SameTurns.modDie s die (f := fun e => { e with
        pool := rest
        remap := assocSet e.remap (((List.range (ringSlots + 1)).find? fun p => (assoc d.remap p).getD p == old).getD 0) new
        retired := e.retired + 1 }) fun _ => rfl
    exact (swapped.trans (raise_sameTurns ..)).trans (.of_dies rfl)

/-- No spare block is left, and the die is worn. -/
def State.wornOut (s : State) (die : Nat) : Prop := (s.die die).worn = true ∧ (s.die die).pool = []

theorem retireBlock_none {old : Nat} (here : die < s.flash.dies.length) (out : s.retireBlock die old = (none, t)) :
    t.wornOut die := by
  unfold State.retireBlock at out
  extract_lets -lift d at out
  split at out
  next empty =>
    split at out
    next worn =>
      cases out
      exact ⟨worn, empty⟩
    next =>
      cases out
      have wears := State.die_modDie_same s (fun d => { d with worn := true }) here
      exact ⟨congrArg Die.worn wears, (congrArg Die.pool wears).trans empty⟩
  next => cases out

/-! ## The controller's own programs and erases -/

theorem drawFree_sameTurns (s : State) : s.SameTurns s.drawFree := .of_dies rfl

theorem ownTrains_sameTurns (fuel : Nat) (s : State) (die block : Nat) : s.SameTurns (State.ownTrains fuel s die block).2 := by
  induction fuel generalizing s block with
  | zero => exact .refl s
  | succ fuel ih =>
    have retired := (drawFree_sameTurns s).trans (retireBlock_sameTurns s.drawFree die block)
    rw [State.ownTrains]
    split
    · exact drawFree_sameTurns s
    · split
      next t e => rwa [e] at retired
      next new t e =>
        rw [e] at retired
        exact retired.trans (ih t new)

theorem ownTrains_none (fuel : Nat) (here : die < s.flash.dies.length) (out : State.ownTrains fuel s die block = (none, t)) :
    t.wornOut die := by
  induction fuel generalizing s block with
  | zero => cases out
  | succ fuel ih =>
    rw [State.ownTrains] at out
    split at out
    · cases out
    · split at out
      next u e =>
        cases out
        exact retireBlock_none (s := s.drawFree) here e
      next new u e =>
        have count := (retireBlock_sameTurns s.drawFree die block).count
        rw [e] at count
        exact ih (count.symm ▸ here) out

theorem ownProgram_sameTurns (s : State) (die block : Nat) : s.SameTurns (s.ownProgram die block).2 := by
  unfold State.ownProgram
  split
  · exact .refl s
  · exact ownTrains_sameTurns ..

theorem ownProgram_none (here : die < s.flash.dies.length) (sound : (s.die die).worn = false)
    (out : s.ownProgram die block = (none, t)) : t.wornOut die := by
  rw [State.ownProgram, sound] at out
  exact ownTrains_none _ here out

theorem ownErase_sameTurns (s : State) (die block : Nat) (fast : Bool) : s.SameTurns (s.ownErase die block fast).2 := by
  unfold State.ownErase
  split
  · exact .refl s
  · extract_lets begun
    have start : s.SameTurns begun.drawFree := .of_dies rfl
    have retired := start.trans (retireBlock_sameTurns begun.drawFree die block)
    split
    · exact (start.trans (eraseBlock_sameTurns ..)).trans (.of_dies rfl)
    · split
      next t e => rwa [e] at retired
      next new t e =>
        rw [e] at retired
        exact retired.trans (.of_dies rfl)

/-! ## The gap move (R291) -/

/-- Where a die stands after one move. -/
def Die.nextTurn (d : Die) : Nat × Nat × Nat :=
  (d.gapSource, if d.gap = 0 then (d.start + 1) % ringSlots else d.start, d.sinceMove - 100)

/-- What programs the copy of the block that moves: nothing, where it has no programmed page. -/
def State.gapCopy (s : State) (die : Nat) : Option Nat × State :=
  let d := s.die die
  let begun := s.journalNow (.gapIntent die d.gapSource)
  if (d.block ((assoc d.remap d.gapSource).getD d.gapSource)).pages = 0 then (some d.gapBlock, begun)
  else begun.ownProgram die d.gapBlock

theorem gapCopy_sameTurns (s : State) (die : Nat) : s.SameTurns (s.gapCopy die).2 := by
  unfold State.gapCopy
  extract_lets d begun
  have start : s.SameTurns begun := .of_dies rfl
  split
  · exact start
  · exact start.trans (ownProgram_sameTurns ..)

theorem gapCopy_none (here : die < s.flash.dies.length) (sound : (s.die die).worn = false)
    (out : s.gapCopy die = (none, t)) : t.wornOut die := by
  unfold State.gapCopy at out
  extract_lets d begun at out
  split at out
  · cases out
  · exact ownProgram_none (s := begun) here sound out

/-- The gap moves, or the copy cannot be programmed and the die wears out. -/
theorem moveGap_turn (here : die < s.flash.dies.length) (sound : (s.die die).worn = false) :
    ((s.moveGap die).die die).turn = (s.die die).nextTurn ∨
      (s.moveGap die).wornOut die ∧ ((s.moveGap die).die die).turn = (s.die die).turn := by
  have copy := gapCopy_sameTurns s die
  unfold State.moveGap
  extract_lets -lift d source block fast begun
  split
  next t e =>
    have e : s.gapCopy die = (none, t) := e
    rw [e] at copy
    exact .inr ⟨gapCopy_none here sound e, copy.turn die⟩
  next new t e =>
    have e : s.gapCopy die = (some new, t) := e
    rw [e] at copy
    extract_lets copied moved
    have same : s.SameTurns copied := copy.trans ((copyBlock_sameTurns t die block new).trans (.of_dies rfl))
    have turn := same.turn die
    simp only [Die.turn, Prod.mk.injEq] at turn
    obtain ⟨gap, start, since⟩ := turn
    refine .inl ?_
    rw [(ownErase_sameTurns moved die block fast).turn, State.die_modDie_same copied _ (same.count ▸ here)]
    simp only [Die.turn, Die.nextTurn, gap, start, since]
    rfl

/-! ## The erase at the head of a die (R302) -/

theorem Die.ops_of_erasing (h : d.erasing = some o) : d.ops = o :: d.ops.tail := by
  obtain ⟨head, -⟩ := Option.filter_eq_some_iff.1 h
  exact (List.cons_head?_tail head).symm

theorem modHead_die (here : die < s.flash.dies.length) (erasing : (s.die die).erasing = some o) (f : FOp → FOp) :
    (s.modHead die f).die die = { s.die die with ops := f o :: (s.die die).ops.tail } := by
  rw [State.modHead, State.die_modDie_same s _ here, Die.ops_of_erasing erasing]
  rfl

/-! ## Mounting (R306) -/

theorem mountFlash_idle (s : State) : ∀ d ∈ s.mountFlash.flash.dies, d.ops = [] := by
  intro d hd
  obtain ⟨e, -, rfl⟩ := List.mem_map.1 hd
  rfl

/-- Settles O42: GAP_MOVE by what its copy and its erase leave of the dies' turns; each command of R302 changes the erase at the
head of its die, and nothing else of it. -/
theorem gapMovesAndSuspendedErases : Obligations.GapMovesAndSuspendedErases := by
  unfold Obligations.GapMovesAndSuspendedErases
  refine ⟨fun die s shaped hd due idle sound free power => ?moves, fun die s not_due => ?stays,
    fun die o s shaped hd erasing runs open_ read => ?suspends, fun die o s shaped hd erasing suspended noRead => ?resumes,
    fun die t o s shaped hd erasing window past => ?windowEnds, fun die t o s shaped hd erasing began late => ?starves,
    fun s stage unmounted => ?mounts⟩
  case moves =>
    have ran : exec (.gapMove die) s = .next (s.moveGap die) := by simp [exec, execGapMove, due, idle, sound, free, power]
    refine answers_of ran ?_
    rcases moveGap_turn (shaped_dies shaped ▸ hd) sound with moved | ⟨⟨worn, pool⟩, same⟩
    · simp only [Die.turn, Die.nextTurn, Prod.mk.injEq] at moved
      obtain ⟨gap, start, since⟩ := moved
      exact .inl ⟨gap, start, since⟩
    · simp only [Die.turn, Prod.mk.injEq] at same
      obtain ⟨gap, start, since⟩ := same
      exact .inr ⟨worn, pool, gap, start, since⟩
  case stays =>
    have no : ¬(100 ≤ (s.die die).sinceMove ∧ (s.die die).ops = [] ∧ (s.die die).worn = false ∧ s.gapHeld die = false) := by
      rintro ⟨due, idle, sound, free⟩
      rcases not_due with early | busy | worn | held
      · omega
      · exact busy idle
      · rw [sound] at worn
        cases worn
      · rw [free] at held
        cases held
    simp only [exec, execGapMove]
    rw [if_neg]
    simpa [and_assoc] using fun due idle sound free => absurd ⟨due, idle, sound, free⟩ no
  case suspends =>
    refine answers_of (t := s.modHead die fun o => { o with suspended := true }) ?_
      (modHead_die (shaped_dies shaped ▸ hd) erasing _)
    simp [exec, execEraseSuspend, erasing, runs, open_, read]
  case resumes =>
    refine answers_of (t := s.modHead die fun o =>
        { o with suspended := false, windowFrom := if s.flash.windowUs = 0 then none else some s.now }) ?_
      (modHead_die (shaped_dies shaped ▸ hd) erasing _)
    simp [exec, execEraseResume, erasing, suspended, noRead]
  case windowEnds =>
    refine answers_of (t := s.modHead die fun o => { o with windowFrom := none }) ?_
      (modHead_die (shaped_dies shaped ▸ hd) erasing _)
    simp [exec, execEraseWindowEnd, erasing, window, usTicks, past]
  case starves =>
    have ran : exec (.eraseStarved die) s = .next ((s.modHead die fun o => { o with starved := o.starved + 1 }).raise
        (0x40 + die / 2) 5 5 ((s.job? o.uid).map Job.part) 0 (die + 2 ^ 8 * o.block)) := by
      simp [exec, execEraseStarved, erasing, began, msTicks, late]
    refine answers_of ran ⟨raise_reported .., ?_⟩
    rw [raise_die]
    exact modHead_die (shaped_dies shaped ▸ hd) erasing _
  case mounts =>
    refine answers_of (t := { s.mountFlash with drip := { s.drip with plannedDay := s.flash.dripHours / 24 } }) ?_
      ⟨rfl, rfl, rfl, rfl, mountFlash_idle s⟩
    simp [exec, execFlashMount, stage, unmounted]

end Sys2Proof.Machine
end

section
/-! SUPPORT. What every command answers, leaves and keeps: the statements on steps, on the queue of waiting commands, on frames
and on soundness. -/

namespace Sys2Proof.Machine

/-- No command has an arm that ends in a fault or a refusal. -/
theorem exec_next (c : Instr) (s : State) : ∃ t, exec c s = .next t := by
  cases c <;> exact ⟨_, rfl⟩

/-- Each command touches only what `touches` names for it, and keeps the state sound. -/
theorem exec_keeps (c : Instr) (s : State) : KOut ⟨touches c, s⟩ (exec c s) := by
  cases c with
  | ringDoorbell => exact execRingDoorbell_keeps rfl (Keeps.refl _ s)
  | pushDoorbell => exact execPushDoorbell_keeps rfl (Keeps.refl _ s)
  | takeDescriptor => exact execTakeDescriptor_keeps rfl (Keeps.refl _ s)
  | writeCompletion => exact execWriteCompletion_keeps rfl (Keeps.refl _ s)
  | moderationTimeout => exact execModerationTimeout_keeps rfl (Keeps.refl _ s)
  | hostAccessReturns => exact execHostAccessReturns_keeps rfl (Keeps.refl _ s)
  | qpEnable => exact execQpEnable_keeps rfl (Keeps.refl _ s)
  | qpDisable => exact execQpDisable_keeps rfl (Keeps.refl _ s)
  | loadModel => exact execLoadModel_keeps rfl (Keeps.refl _ s)
  | unloadModel => exact execUnloadModel_keeps rfl (Keeps.refl _ s)
  | prefill => exact execPrefill_keeps rfl (Keeps.refl _ s)
  | prefillChunk => exact execPrefillChunk_keeps rfl (Keeps.refl _ s)
  | decodeStep => exact execDecodeStep_keeps rfl (Keeps.refl _ s)
  | verifyTree => exact execVerifyTree_keeps rfl (Keeps.refl _ s)
  | samplerDraw => exact execSamplerDraw_keeps rfl (Keeps.refl _ s)
  | kvMove => exact execKvMove_keeps rfl (Keeps.refl _ s)
  | kvShipOut => exact execKvShipOut_keeps rfl (Keeps.refl _ s)
  | kvShipIn => exact execKvShipIn_keeps rfl (Keeps.refl _ s)
  | prefixLookup => exact execPrefixLookup_keeps rfl (Keeps.refl _ s)
  | prefixInsert => exact execPrefixInsert_keeps rfl (Keeps.refl _ s)
  | variantLoad => exact execVariantLoad_keeps rfl (Keeps.refl _ s)
  | trainStep => exact execTrainStep_keeps rfl (Keeps.refl _ s)
  | trainBatch => exact execTrainBatch_keeps rfl (Keeps.refl _ s)
  | visionFrame => exact execVisionFrame_keeps rfl (Keeps.refl _ s)
  | echoSearch => exact execEchoSearch_keeps rfl (Keeps.refl _ s)
  | suspend => exact execSuspend_keeps rfl (Keeps.refl _ s)
  | resume => exact execResume_keeps rfl (Keeps.refl _ s)
  | cancel => exact execCancel_keeps rfl (Keeps.refl _ s)
  | query => exact execQuery_keeps rfl (Keeps.refl _ s)
  | flashRead => exact execFlashRead_keeps rfl (Keeps.refl _ s)
  | flashProgram => exact execFlashProgram_keeps rfl (Keeps.refl _ s)
  | flashErase => exact execFlashErase_keeps rfl (Keeps.refl _ s)
  | flashProtect => exact execFlashProtect_keeps rfl (Keeps.refl _ s)
  | tileList => exact execTileList_keeps rfl (Keeps.refl _ s)
  | dmaRaw => exact execDmaRaw_keeps rfl (Keeps.refl _ s)
  | createPartition => exact execCreatePartition_keeps rfl (Keeps.refl _ s)
  | destroyPartition => exact execDestroyPartition_keeps rfl (Keeps.refl _ s)
  | attest => exact execAttest_keeps rfl (Keeps.refl _ s)
  | fwUpdate => exact execFwUpdate_keeps rfl (Keeps.refl _ s)
  | safePoint => exact execSafePoint_keeps rfl (Keeps.refl _ s)
  | deadlineTick => exact execDeadlineTick_keeps rfl (Keeps.refl _ s)
  | withdrawalEnd => exact execWithdrawalEnd_keeps rfl (Keeps.refl _ s)
  | tileTaskLoad => exact execTileTaskLoad_keeps rfl (Keeps.refl _ s)
  | slotGrant => exact execSlotGrant_keeps rfl (Keeps.refl _ s)
  | fetchStepIssue => exact execFetchStepIssue_keeps rfl (Keeps.refl _ s)
  | fetchStepComplete => exact execFetchStepComplete_keeps rfl (Keeps.refl _ s)
  | stopRamp => exact execStopRamp_keeps rfl (Keeps.refl _ s)
  | taskRetire => exact execTaskRetire_keeps rfl (Keeps.refl _ s)
  | priorityAging => exact execPriorityAging_keeps rfl (Keeps.refl _ s)
  | contextRelease => exact execContextRelease_keeps rfl (Keeps.refl _ s)
  | engineMapOut => exact execEngineMapOut_keeps rfl (Keeps.refl _ s)
  | sumpUnitGrant => exact execSumpUnitGrant_keeps rfl (Keeps.refl _ s)
  | appendTimeout => exact execAppendTimeout_keeps rfl (Keeps.refl _ s)
  | parkGroup => exact execParkGroup_keeps rfl (Keeps.refl _ s)
  | groupFlush => exact execGroupFlush_keeps rfl (Keeps.refl _ s)
  | unitsFreed => exact execUnitsFreed_keeps rfl (Keeps.refl _ s)
  | idleEpochTick => exact execIdleEpochTick_keeps rfl (Keeps.refl _ s)
  | pageReclaim => exact execPageReclaim_keeps rfl (Keeps.refl _ s)
  | mergeFold => exact execMergeFold_keeps rfl (Keeps.refl _ s)
  | echoWorkUnit => exact execEchoWorkUnit_keeps rfl (Keeps.refl _ s)
  | echoAging => exact execEchoAging_keeps rfl (Keeps.refl _ s)
  | progressPoll => exact execProgressPoll_keeps rfl (Keeps.refl _ s)
  | visionBurst => exact execVisionBurst_keeps rfl (Keeps.refl _ s)
  | stallTimeout => exact execStallTimeout_keeps rfl (Keeps.refl _ s)
  | lateDataDiscard => exact execLateDataDiscard_keeps rfl (Keeps.refl _ s)
  | warpPatch => exact execWarpPatch_keeps rfl (Keeps.refl _ s)
  | promotion => exact execPromotion_keeps rfl (Keeps.refl _ s)
  | moveLanded => exact execMoveLanded_keeps rfl (Keeps.refl _ s)
  | fetchDeadline => exact execFetchDeadline_keeps rfl (Keeps.refl _ s)
  | dramRequest => exact execDramRequest_keeps rfl (Keeps.refl _ s)
  | urgencyChange => exact execUrgencyChange_keeps rfl (Keeps.refl _ s)
  | crossingGrant => exact execCrossingGrant_keeps rfl (Keeps.refl _ s)
  | dramReadComplete => exact execDramReadComplete_keeps rfl (Keeps.refl _ s)
  | patrolScrub => exact execPatrolScrub_keeps rfl (Keeps.refl _ s)
  | perBankRefresh => exact execPerBankRefresh_keeps rfl (Keeps.refl _ s)
  | tempReadout => exact execTempReadout_keeps rfl (Keeps.refl _ s)
  | driftTrack => exact execDriftTrack_keeps rfl (Keeps.refl _ s)
  | channelRetrain => exact execChannelRetrain_keeps rfl (Keeps.refl _ s)
  | channelMapOut => exact execChannelMapOut_keeps rfl (Keeps.refl _ s)
  | powerDownEntry => exact execPowerDownEntry_keeps rfl (Keeps.refl _ s)
  | dramTrainGo => exact execDramTrainGo_keeps rfl (Keeps.refl _ s)
  | dramTraining => exact execDramTraining_keeps rfl (Keeps.refl _ s)
  | flashMount => exact execFlashMount_keeps rfl (Keeps.refl _ s)
  | gapMove => exact execGapMove_keeps rfl (Keeps.refl _ s)
  | eraseSuspend => exact execEraseSuspend_keeps rfl (Keeps.refl _ s)
  | eraseResume => exact execEraseResume_keeps rfl (Keeps.refl _ s)
  | eraseWindowEnd => exact execEraseWindowEnd_keeps rfl (Keeps.refl _ s)
  | eraseStarved => exact execEraseStarved_keeps rfl (Keeps.refl _ s)
  | powerLoss => exact execPowerLoss_keeps rfl (Keeps.refl _ s)
  | siphonBurstIssue => exact execSiphonBurstIssue_keeps rfl (Keeps.refl _ s)
  | siphonTransferComplete => exact execSiphonTransferComplete_keeps rfl (Keeps.refl _ s)
  | siphonAging => exact execSiphonAging_keeps rfl (Keeps.refl _ s)
  | siphonError => exact execSiphonError_keeps rfl (Keeps.refl _ s)
  | linkTrained => exact execLinkTrained_keeps rfl (Keeps.refl _ s)
  | linkLoss => exact execLinkLoss_keeps rfl (Keeps.refl _ s)
  | flrVf => exact execFlrVf_keeps rfl (Keeps.refl _ s)
  | flrPf => exact execFlrPf_keeps rfl (Keeps.refl _ s)
  | hotReset => exact execHotReset_keeps rfl (Keeps.refl _ s)
  | bar4Access => exact execBar4Access_keeps rfl (Keeps.refl _ s)
  | owningFunctionChange => exact execOwningFunctionChange_keeps rfl (Keeps.refl _ s)
  | msixUnmask => exact execMsixUnmask_keeps rfl (Keeps.refl _ s)
  | busMasterEnable => exact execBusMasterEnable_keeps rfl (Keeps.refl _ s)
  | ideIntegrityFail => exact execIdeIntegrityFail_keeps rfl (Keeps.refl _ s)
  | ideKm => exact execIdeKm_keeps rfl (Keeps.refl _ s)
  | doeDiscovery => exact execDoeDiscovery_keeps rfl (Keeps.refl _ s)
  | getVersion => exact execGetVersion_keeps rfl (Keeps.refl _ s)
  | getCapabilities => exact execGetCapabilities_keeps rfl (Keeps.refl _ s)
  | negotiateAlgorithms => exact execNegotiateAlgorithms_keeps rfl (Keeps.refl _ s)
  | getDigests => exact execGetDigests_keeps rfl (Keeps.refl _ s)
  | getCertificate => exact execGetCertificate_keeps rfl (Keeps.refl _ s)
  | challenge => exact execChallenge_keeps rfl (Keeps.refl _ s)
  | getMeasurements => exact execGetMeasurements_keeps rfl (Keeps.refl _ s)
  | keyExchange => exact execKeyExchange_keeps rfl (Keeps.refl _ s)
  | finish => exact execFinish_keeps rfl (Keeps.refl _ s)
  | heartbeat => exact execHeartbeat_keeps rfl (Keeps.refl _ s)
  | keyUpdate => exact execKeyUpdate_keeps rfl (Keeps.refl _ s)
  | endSession => exact execEndSession_keeps rfl (Keeps.refl _ s)
  | data => exact execData_keeps rfl (Keeps.refl _ s)
  | ack => exact execAck_keeps rfl (Keeps.refl _ s)
  | nak => exact execNak_keeps rfl (Keeps.refl _ s)
  | credit => exact execCredit_keeps rfl (Keeps.refl _ s)
  | probe => exact execProbe_keeps rfl (Keeps.refl _ s)
  | probeReply => exact execProbeReply_keeps rfl (Keeps.refl _ s)
  | keyx => exact execKeyx_keeps rfl (Keeps.refl _ s)
  | discover => exact execDiscover_keeps rfl (Keeps.refl _ s)
  | portLinkUp => exact execPortLinkUp_keeps rfl (Keeps.refl _ s)
  | portDown => exact execPortDown_keeps rfl (Keeps.refl _ s)
  | replayTimeout => exact execReplayTimeout_keeps rfl (Keeps.refl _ s)
  | ackTimer => exact execAckTimer_keeps rfl (Keeps.refl _ s)
  | creditTimer => exact execCreditTimer_keeps rfl (Keeps.refl _ s)
  | rekeyThreshold => exact execRekeyThreshold_keeps rfl (Keeps.refl _ s)
  | portLocked => exact execPortLocked_keeps rfl (Keeps.refl _ s)
  | keyxRetry => exact execKeyxRetry_keeps rfl (Keeps.refl _ s)
  | xferReady => exact execXferReady_keeps rfl (Keeps.refl _ s)
  | readyResend => exact execReadyResend_keeps rfl (Keeps.refl _ s)
  | e2eAck => exact execE2eAck_keeps rfl (Keeps.refl _ s)
  | xferHold => exact execXferHold_keeps rfl (Keeps.refl _ s)
  | holdTimer => exact execHoldTimer_keeps rfl (Keeps.refl _ s)
  | xferAbort => exact execXferAbort_keeps rfl (Keeps.refl _ s)
  | shipProgressTimeout => exact execShipProgressTimeout_keeps rfl (Keeps.refl _ s)
  | probeTimeout => exact execProbeTimeout_keeps rfl (Keeps.refl _ s)
  | passageRekey => exact execPassageRekey_keeps rfl (Keeps.refl _ s)
  | passageEnable => exact execPassageEnable_keeps rfl (Keeps.refl _ s)
  | rngHealthFail => exact execRngHealthFail_keeps rfl (Keeps.refl _ s)
  | rngRetestEnd => exact execRngRetestEnd_keeps rfl (Keeps.refl _ s)
  | rngRetest => exact execRngRetest_keeps rfl (Keeps.refl _ s)
  | drbgReseed => exact execDrbgReseed_keeps rfl (Keeps.refl _ s)
  | cryptoSegment => exact execCryptoSegment_keeps rfl (Keeps.refl _ s)
  | quantumExpiry => exact execQuantumExpiry_keeps rfl (Keeps.refl _ s)
  | cpBootGo => exact execCpBootGo_keeps rfl (Keeps.refl _ s)
  | cpWatchdog => exact execCpWatchdog_keeps rfl (Keeps.refl _ s)
  | cpRestartDone => exact execCpRestartDone_keeps rfl (Keeps.refl _ s)
  | spWatchdog => exact execSpWatchdog_keeps rfl (Keeps.refl _ s)
  | traceEnable => exact execTraceEnable_keeps rfl (Keeps.refl _ s)
  | traceTailWrite => exact execTraceTailWrite_keeps rfl (Keeps.refl _ s)
  | replayGo => exact execReplayGo_keeps rfl (Keeps.refl _ s)
  | replayStop => exact execReplayStop_keeps rfl (Keeps.refl _ s)
  | powerCapEval => exact execPowerCapEval_keeps rfl (Keeps.refl _ s)
  | pwrCapWrite => exact execPwrCapWrite_keeps rfl (Keeps.refl _ s)
  | pwrbrkN => exact execPwrbrkN_keeps rfl (Keeps.refl _ s)
  | thermalSample => exact execThermalSample_keeps rfl (Keeps.refl _ s)
  | thermalTrip => exact execThermalTrip_keeps rfl (Keeps.refl _ s)
  | domainRamp => exact execDomainRamp_keeps rfl (Keeps.refl _ s)
  | rampComplete => exact execRampComplete_keeps rfl (Keeps.refl _ s)
  | idleGate => exact execIdleGate_keeps rfl (Keeps.refl _ s)
  | domainShort => exact execDomainShort_keeps rfl (Keeps.refl _ s)
  | sectorFault => exact execSectorFault_keeps rfl (Keeps.refl _ s)
  | clockLoss => exact execClockLoss_keeps rfl (Keeps.refl _ s)
  | timebaseLoRead => exact execTimebaseLoRead_keeps rfl (Keeps.refl _ s)
  | dripPoll => exact execDripPoll_keeps rfl (Keeps.refl _ s)
  | dripReplan => exact execDripReplan_keeps rfl (Keeps.refl _ s)
  | faultOccurrence => exact execFaultOccurrence_keeps rfl (Keeps.refl _ s)
  | continuedRecord => exact execContinuedRecord_keeps rfl (Keeps.refl _ s)
  | faultTailWrite => exact execFaultTailWrite_keeps rfl (Keeps.refl _ s)
  | powerOn => exact execPowerOn_keeps rfl (Keeps.refl _ s)
  | fullReset => exact execFullReset_keeps rfl (Keeps.refl _ s)
  | warmReset => exact execWarmReset_keeps rfl (Keeps.refl _ s)
  | perstN => exact execPerstN_keeps rfl (Keeps.refl _ s)
  | deviceReady => exact execDeviceReady_keeps rfl (Keeps.refl _ s)
  | shutdown => exact execShutdown_keeps rfl (Keeps.refl _ s)
  | d3hotEntry => exact execD3hotEntry_keeps rfl (Keeps.refl _ s)
  | d3hotExit => exact execD3hotExit_keeps rfl (Keeps.refl _ s)
  | railsValid => exact execRailsValid_keeps rfl (Keeps.refl _ s)
  | p12vOvervoltage => exact execP12vOvervoltage_keeps rfl (Keeps.refl _ s)
  | strapSample => exact execStrapSample_keeps rfl (Keeps.refl _ s)
  | status => exact execStatus_keeps rfl (Keeps.refl _ s)
  | tempHottest => exact execTempHottest_keeps rfl (Keeps.refl _ s)
  | tempModule => exact execTempModule_keeps rfl (Keeps.refl _ s)
  | powerIn => exact execPowerIn_keeps rfl (Keeps.refl _ s)
  | capSet => exact execCapSet_keeps rfl (Keeps.refl _ s)
  | emergency => exact execEmergency_keeps rfl (Keeps.refl _ s)
  | clearAlert => exact execClearAlert_keeps rfl (Keeps.refl _ s)
  | fruOffset => exact execFruOffset_keeps rfl (Keeps.refl _ s)
  | fruRead => exact execFruRead_keeps rfl (Keeps.refl _ s)
  | alertResponse => exact execAlertResponse_keeps rfl (Keeps.refl _ s)
  | registerWrite => exact execRegisterWrite_keeps rfl (Keeps.refl _ s)
  | flashOperationDone => exact execFlashOperationDone_keeps rfl (Keeps.refl _ s)
  | dramWriteComplete => exact execDramWriteComplete_keeps rfl (Keeps.refl _ s)
  | sramPatrolScrub => exact execSramPatrolScrub_keeps rfl (Keeps.refl _ s)
  | auxRailLoss => exact execAuxRailLoss_keeps rfl (Keeps.refl _ s)
  | referenceClockRestored => exact execReferenceClockRestored_keeps rfl (Keeps.refl _ s)
  | refreshManagement => exact execRefreshManagement_keeps rfl (Keeps.refl _ s)

theorem exec_pending {c : Instr} {s t : State} (h : exec c s = .next t) : t.pending = s.pending :=
  (exec_keeps c s t h).queue

theorem step_cons (c : Instr) (rest : List Instr) (s : State) :
    step { s with pending := c :: rest } = exec c { s with pending := rest } := rfl

theorem step_idle {s : State} (h : s.pending = []) : step s = .next s.idle := by
  simp only [step, h]

/-- Settles O1: it is how `step` takes the command in front. -/
theorem stepRunsFrontCommand : Obligations.StepRunsFrontCommand := step_cons

/-- Settles O3: by the arms of `exec`. -/
theorem everyCommandAnswersNext : Obligations.EveryCommandAnswersNext := by
  unfold Obligations.EveryCommandAnswersNext
  intro c s
  obtain ⟨t, h⟩ := exec_next c s
  exact ⟨t, h, trivial⟩

/-- Settles O4: the queue is no part that `touches` names. -/
theorem queueKeptByExec : Obligations.QueueKeptByExec := by
  unfold Obligations.QueueKeptByExec
  refine ⟨fun c s t => exec_pending, fun c rest s t front h => ?_⟩
  have ran : exec c { s with pending := rest } = .next t := by simpa only [step, front] using h
  exact exec_pending ran

/-- Settles O7: what `Keeps` says of the parts that a command does not touch. -/
theorem untouchedPartsKept : Obligations.UntouchedPartsKept := by
  unfold Obligations.UntouchedPartsKept
  exact fun c s t h => (exec_keeps c s t h).only

/-- The queue of waiting commands is no part of soundness. -/
theorem sound_pending (s : State) (rest : List Instr) : { s with pending := rest }.sound = s.sound := rfl

theorem idle_sound {s : State} (h : s.sound = true) : s.idle.sound = true :=
  (idle_keeps (Touch.Le.refl _) (Keeps.refl _ s)).sound h

theorem exec_sound {c : Instr} {s t : State} (h : s.sound = true) (ran : exec c s = .next t) : t.sound = true :=
  (exec_keeps c s t ran).sound h

/-- Settles O5: an idle tick and every command keep soundness. -/
theorem soundnessKeptByEveryStep : Obligations.SoundnessKeptByEveryStep := by
  unfold Obligations.SoundnessKeptByEveryStep
  intro s t sound h
  unfold step at h
  split at h
  next => exact Host.Outcome.next.inj h ▸ idle_sound sound
  next c rest front => exact exec_sound ((sound_pending s rest).trans sound) h

/-- Settles O6: the memories are empty, no fault record stands, and each list of units has its number. -/
theorem resetStateIsSound : Obligations.ResetStateIsSound := by
  unfold Obligations.ResetStateIsSound
  exact ⟨by decide +kernel, rfl⟩

/-! ## An idle tick with a journal record that waits -/

/-- A device at reset with a journal record that waits to be written. -/
def journalWaitsState : State := { State.reset with flash := { State.reset.flash with pendingJ := [.gapDone 0] } }

/-- Refutes O2: an idle tick also writes the journal records that wait (`State.flushJournal`), where the first clause says that
nothing but the time changes. The clause lacks that none waits. -/
theorem not_emptyQueueTicks : ¬ Obligations.EmptyQueueTicks := by
  unfold Obligations.EmptyQueueTicks
  rintro ⟨ticks, -⟩
  have next := ticks journalWaitsState rfl (by decide +kernel) rfl
  rw [step_idle rfl] at next
  have same := congrArg (fun t => t.flash.pendingJ.length) (Host.Outcome.next.inj next)
  exact absurd same (by decide +kernel)

end Sys2Proof.Machine
end

section
/-! SUPPORT. More of what `Keeps` says of one part of the state, and of records that are raised and stay (R410 to R412). -/

namespace Sys2Proof.Machine

variable {s t : State} {may : Touch}

section
variable (h : Keeps ⟨may, s⟩ t)
include h

theorem Keeps.free_eq (hm : may.tFree = false) : t.free = s.free := by rw [h.only]; simp [Touch.ow, hm]
theorem Keeps.merges_eq (hm : may.tMerges = false) : t.merges = s.merges := by rw [h.only]; simp [Touch.ow, hm]
theorem Keeps.siphon_eq (hm : may.tSiphon = false) : t.siphon = s.siphon := by rw [h.only]; simp [Touch.ow, hm]
theorem Keeps.passage_eq (hm : may.tPassage = false) : t.passage = s.passage := by rw [h.only]; simp [Touch.ow, hm]
theorem Keeps.sec_eq (hm : may.tSec = false) : t.sec = s.sec := by rw [h.only]; simp [Touch.ow, hm]
theorem Keeps.kadon_eq (hm : may.tKadon = false) : t.kadon = s.kadon := by rw [h.only]; simp [Touch.ow, hm]
theorem Keeps.power_eq (hm : may.tPower = false) : t.power = s.power := by rw [h.only]; simp [Touch.ow, hm]
theorem Keeps.drip_eq (hm : may.tDrip = false) : t.drip = s.drip := by rw [h.only]; simp [Touch.ow, hm]
theorem Keeps.smbus_eq (hm : may.tSmbus = false) : t.smbus = s.smbus := by rw [h.only]; simp [Touch.ow, hm]
theorem Keeps.out_eq (hm : may.tOut = false) : t.out = s.out := by rw [h.only]; simp [Touch.ow, hm]

end

theorem raise_keeps_rest (s : State) (source cls detail : Nat) (part : Option Nat) (tag info : Nat) :
    Keeps ⟨Touch.nothing.record, s⟩ (s.raise source cls detail part tag info) :=
  raise_keeps (Touch.Le.refl _) (Keeps.refl _ s)

/-- An occurrence stays reported while neither the fault queue nor the time changes. -/
theorem State.reported.of_eq {source cls : Nat} (h : s.reported source cls) (faults : t.faults = s.faults) (now : t.now = s.now) :
    t.reported source cls := by
  simpa only [State.reported, faults, now] using h

/-- A message stays signalled while neither the functions nor the messages sent change. -/
theorem State.signalled.of_eq {fn : Fn} {e : Nat} (h : s.signalled fn e) (link : t.link = s.link) (out : t.out = s.out) :
    t.signalled fn e := by
  unfold State.signalled at h ⊢
  cases fn <;> simpa only [State.fnSt, link, out] using h

end Sys2Proof.Machine
end

section
/-! SUPPORT. The random number generator and the crypto engine (R370 to R373): the statement on RNG_HEALTH_FAIL, RNG_RETEST_END,
RNG_RETEST, DRBG_RESEED and CRYPTO_SEGMENT. -/

namespace Sys2Proof.Machine

variable {s t : State}

@[simp] theorem State.modRng_sec (f : Rng → Rng) : (s.modRng f).sec = { s.sec with rng := f s.sec.rng } := rfl
@[simp] theorem State.modRng_faults (f : Rng → Rng) : (s.modRng f).faults = s.faults := rfl
@[simp] theorem State.modRng_now (f : Rng → Rng) : (s.modRng f).now = s.now := rfl

/-- SP's own work waits at the crypto engine and takes nothing from the generator. -/
@[simp] theorem sendKeyx_rng (s : State) (n d : Nat) : (s.sendKeyx n d).sec.rng = s.sec.rng := by
  rw [State.sendKeyx, (sendPlain_keeps (Touch.Le.refl _) (Keeps.refl _ _)).sec_eq rfl]
  rfl

/-- Only the generator's own change is left of it when its queue has been served (R371 step 3). -/
theorem serveQueue_rng (s : State) : s.serveQueue.sec.rng = s.sec.rng.serve s.now := by
  unfold State.serveQueue
  refine keepsFold (Q := fun t : State => t.sec.rng = s.sec.rng.serve s.now) rfl fun t u ht => ?_
  split
  next n _ =>
    split
    next => rw [(tryKeys_keeps (Touch.Le.refl _) (Keeps.refl _ _)).sec_eq rfl, sendKeyx_rng, ht]
    next => exact ht
  next => exact ht

theorem rngFails_rng (s : State) :
    s.rngFails.sec.rng = { s.sec.rng with state := .failed, failed := true, queue := [] } := by
  simp only [State.rngFails, State.modRng_sec, (raise_keeps_rest ..).sec_eq rfl]

/-- Settles O52: each command is one change of the generator or of the crypto engine's queue, and a record keeps both. -/
theorem randomnessAndCrypto : Obligations.RandomnessAndCrypto := by
  unfold Obligations.RandomnessAndCrypto
  refine ⟨fun s serving => ?healthFail, fun s other => ?healthKept, fun s testing => ?passed, fun s testing few => ?again,
    fun s testing third => ?fails, fun s reaches ready failed => ?retest, fun fn s no => ?retestKept,
    fun s serving due => ?reseeds, fun s requests early => ?reseedKept, fun r c s turn next => ?segment⟩
  case healthFail =>
    refine answers_of (congrArg Host.Outcome.next (if_pos (by simp [serving]))) ⟨?_, ?_⟩
    · simp only [State.modRng_sec, (raise_keeps_rest ..).sec_eq rfl]
    · exact (raise_reported ..).of_eq rfl rfl
  case healthKept => exact congrArg Host.Outcome.next (if_neg (by simpa using other))
  case passed =>
    refine answers_of (t := s.serveQueue) (by simp [exec, execRngRetestEnd, testing]) ?_
    rw [serveQueue_rng]
    exact ⟨rfl, rfl, rfl, rfl, rfl⟩
  case again => simp [exec, execRngRetestEnd, testing, few]
  case fails =>
    refine answers_of (t := s.rngFails) (by simp [exec, execRngRetestEnd, testing, Nat.not_lt.2 third]) ⟨rngFails_rng s, ?_⟩
    exact (raise_reported ..).of_eq rfl rfl
  case retest =>
    exact answers_of (t := s.modRng fun r => { r with state := .retesting, retests := 3 })
      (by simp [exec, execRngRetest, reaches, State.rngRetest, ready, failed]) rfl
  case retestKept =>
    refine congrArg Host.Outcome.next ?_
    rcases no with pf | off | standing
    · exact if_neg (by simp [pf])
    · simp [State.rngRetest, off]
    · simp [State.rngRetest, standing]
  case reseeds =>
    refine answers_of (congrArg Host.Outcome.next (if_pos ?_)) rfl
    rw [Bool.and_eq_true, Bool.or_eq_true, decide_eq_true_eq, decide_eq_true_eq]
    exact ⟨by simp [serving], due⟩
  case reseedKept =>
    refine congrArg Host.Outcome.next (if_neg ?_)
    rw [Bool.and_eq_true, Bool.or_eq_true, decide_eq_true_eq, decide_eq_true_eq]
    exact fun ⟨_, due⟩ => due.elim requests.not_ge early.not_ge
  case segment =>
    have mine : c.requester = r := by
      have := List.find?_some next
      simp only [Bool.and_eq_true, beq_iff_eq] at this
      exact this.1
    refine answers_of (t := { s with sec := s.sec.segment c }) (by simp [exec, execCryptoSegment, turn, next]) ⟨mine, ?_⟩
    simp only [Sec.segment]
    split <;> simp

end Sys2Proof.Machine
end

section
/-! SUPPORT. The SPDM responder (R328, R369, R371): one rule for each carrier of a request, then the statement on its answers. -/

namespace Sys2Proof.Machine

variable {s t : State} {via : SpdmVia} {sid : Nat}

@[simp] theorem doeAnswer_doe (m : DoeMsg) : (s.doeAnswer m).out.doe = m :: s.out.doe := rfl
@[simp] theorem doeAnswer_link (m : DoeMsg) : (s.doeAnswer m).link = s.link := rfl

/-- A request on an agreed connection, over a carrier that is valid. -/
theorem spdm_agreed (up : s.doeUp = true) (agreed : s.link.negotiated = true) (valid : s.viaOk via = true) (f : State → State) :
    s.spdm via f = f s := by
  simp [State.spdm, up, agreed, valid]

theorem spdm_not_agreed (up : s.doeUp = true) (new : s.link.negotiated = false) (f : State → State) :
    s.spdm via f = s.doeAnswer .errorInvalid := by
  simp [State.spdm, up, new]

theorem spdm_down (down : s.doeUp = false) (f : State → State) : s.spdm via f = s := by
  simp [State.spdm, down]

/-- A message in a session that stands. -/
theorem inSession_standing (up : s.doeUp = true) (stands : s.link.sessions.contains sid = true) (f : Nat → State → State) :
    s.inSession (.session sid) f = f sid s := by
  simp only [State.inSession, up, Bool.not_true, Bool.false_eq_true, if_false, stands, if_true]

theorem inSession_down (down : s.doeUp = false) (f : Nat → State → State) : s.inSession via f = s := by
  simp [State.inSession, down]

theorem rngAsk_serving (u : RngUse) (serving : s.sec.rng.state = .serving) :
    ∃ t, s.rngAsk u = (some s.sec.rng.draws, t) ∧ t.link = s.link ∧ t.out = s.out := by
  simp only [State.rngAsk, serving]
  exact ⟨_, rfl, rfl, rfl⟩

theorem rngAsk_waits (u : RngUse) (other : s.sec.rng.state ≠ .serving) : ∃ t, s.rngAsk u = (none, t) := by
  cases state : s.sec.rng.state with
  | serving => exact absurd state other
  | _ =>
    simp only [State.rngAsk, state]
    split <;> exact ⟨_, rfl⟩

theorem openSession_full (key : List Byte) (full : 4 ≤ s.link.sessions.length + s.link.handshakes.length) :
    s.openSession key = s.doeAnswer .errorSessions := if_pos full

theorem openSession_waits (key : List Byte) (room : s.link.sessions.length + s.link.handshakes.length < 4)
    (other : s.sec.rng.state ≠ .serving) :
    s.openSession key = s.doeAnswer (if s.sec.rng.failed then .errorUnspecified else .errorBusy) := by
  obtain ⟨t, ask⟩ := rngAsk_waits .spdm other
  simp only [State.openSession, Nat.not_le.2 room, if_false, ask]

/-- A handshake begins under the next number, with SP's fresh value. -/
theorem openSession_opens (key : List Byte) (room : s.link.sessions.length + s.link.handshakes.length < 4)
    (serving : s.sec.rng.state = .serving) :
    (s.openSession key).out.doe = .keyExchangeRsp s.link.nextSid (exchangeBytes s.sec.rng.draws) :: s.out.doe ∧
      (s.openSession key).link.sessKeys =
        (s.link.nextSid, Config.sessionKey (Config.ecdheSecret s.sec.rng.draws key) key) :: s.link.sessKeys ∧
      (s.openSession key).link.handshakes = s.link.handshakes ++ [s.link.nextSid] ∧
      (s.openSession key).link.nextSid = s.link.nextSid + 1 := by
  obtain ⟨t, ask, link, out⟩ := rngAsk_serving .spdm serving
  simp only [State.openSession, Nat.not_le.2 room, if_false, ask]
  refine ⟨?_, ?_, ?_, ?_⟩ <;> simp [State.spWork, link, out]

/-- Settles O54: a request is answered by the rule of its carrier, and the answers are SP's own messages. -/
theorem spdmAnswered : Obligations.SpdmAnswered := by
  unfold Obligations.SpdmAnswered
  refine ⟨fun s up => ?version, fun s up => ?capabilities, fun s up => ?algorithms, fun via s up agreed valid => ?digests,
    fun via offset len s up agreed valid => ?certificate, fun via nonce s up agreed valid => ?challenge,
    fun via i nonce s up agreed valid lo hi => ?measurements, fun key s up agreed room serving => ?opens,
    fun key s up agreed full => ?full, fun key s up agreed room other => ?waits, fun sid s up held => ?finished,
    fun sid s up held => ?refused, fun sid s up stands => ?heartbeat, fun sid s up stands => ?update,
    fun sid s up stands => ?ends, fun via slot nonce key c s up new mem => ?before, fun via c s down mem => ?down⟩
  case version => exact answers_of rfl (by simp [up])
  case capabilities => exact answers_of rfl (by simp [up])
  case algorithms => exact answers_of rfl (by simp [up])
  case digests => exact answers_of rfl (by rw [spdm_agreed up agreed valid]; rfl)
  case certificate => exact answers_of rfl (by rw [spdm_agreed up agreed valid]; simp)
  case challenge => exact answers_of rfl (by rw [spdm_agreed up agreed valid]; rfl)
  case measurements =>
    refine answers_of rfl ?_
    have notCount : i ≠ 0 := by omega
    have notAll : i ≠ 255 := by omega
    have block : i < 10 := by omega
    rw [spdm_agreed up agreed valid]
    simp only [doeAnswer_doe, notCount, notAll, block, if_false, true_or, if_true]
    rfl
  case opens =>
    refine answers_of rfl ?_
    rw [spdm_agreed up agreed rfl]
    exact openSession_opens key room serving
  case full =>
    refine answers_of rfl ?_
    rw [spdm_agreed up agreed rfl]
    simp [openSession_full key full]
  case waits =>
    refine answers_of rfl ?_
    rw [spdm_agreed up agreed rfl]
    simp [openSession_waits key room other]
  case finished =>
    have held : sid ∈ s.link.handshakes := by simpa using held
    exact answers_of rfl (by simp [up, held])
  case refused =>
    have held : sid ∈ s.link.handshakes := by simpa using held
    exact answers_of rfl (by simp [up, held, Link.dropKey])
  case heartbeat => exact answers_of rfl (by rw [inSession_standing up stands]; exact ⟨rfl, rfl⟩)
  case update => exact answers_of rfl (by rw [inSession_standing up stands]; exact ⟨rfl, rfl, rfl⟩)
  case ends =>
    refine answers_of rfl ?_
    rw [inSession_standing up stands]
    simp [Link.dropKey]
  case before =>
    simp only [List.mem_cons, List.not_mem_nil, or_false] at mem
    rcases mem with rfl | rfl | rfl | rfl | rfl <;> exact answers_of rfl (by rw [spdm_not_agreed up new]; exact ⟨rfl, rfl⟩)
  case down =>
    simp only [List.mem_cons, List.not_mem_nil, or_false] at mem
    rcases mem with rfl | rfl | rfl | rfl | rfl | rfl
    · simp [exec, execGetVersion, down]
    · simp [exec, execGetCapabilities, down]
    · exact congrArg _ (spdm_down down _)
    · exact congrArg _ (inSession_down down _)
    · exact congrArg _ (inSession_down down _)
    · exact congrArg _ (inSession_down down _)

end Sys2Proof.Machine
end

section
/-! SUPPORT. Refutations: states in which the record of a shorted domain, of a failed bank group or of an expired watchdog is gone
again when the jobs that it ends have ended, and states in which a job that ends takes a transfer or another job along. -/

namespace Sys2Proof.Machine

/-- Engine 0 while its domain ramps, since tick 0. -/
def rampingEngine : Engine := { Engine.reset with domain := { Domain.reset with ramping := true } }

/-- A partition without engines, whose page table stands at word 1 of DRAM channel 0's first page. -/
def enginelessPart : Part := { Part.absent with pageTable := 1 }

/-- A running serving job that created the sequence which it serves. -/
def creatingJob : Job :=
  { emptyTileList with opcode := 0x03, state := .running, ext := .serve [createdEntry] 0 0 none }

/-- The job runs in that partition while the domain of engine 0 has ramped too long; the page table's first word is poisoned, and
the first record of the queue has the number that the next one will get. -/
def rampOverdueState : State := { State.reset with
  now := 1501
  qps := State.reset.qps.modify 0 fun q => { q with enabled := true }
  jobs := { Jobs.reset with list := [creatingJob] }
  seqs := [onePageSeq]
  parts := State.reset.parts.modify 0 fun _ => enginelessPart
  engines := State.reset.engines.modify 0 fun _ => rampingEngine
  dram := { Dram.reset with poisoned := [0] }
  faults := { State.reset.faults with recs := [earlyRecord] } }

/-- Refutes O57: the short is recorded before the engine is mapped out, under the number of a record that stands in the queue
already. A job whose partition has no engine left then ends (R416), meets a poisoned word, its occurrence folds into that earlier
record, and every record of the number becomes it (`State.raise`). The fifteenth clause lacks that the records of the queue have
numbers below FAULT_HEAD. -/
theorem not_powerThermalAndDomains : ¬ Obligations.PowerThermalAndDomains := by
  unfold Obligations.PowerThermalAndDomains
  rintro ⟨-, -, -, -, -, -, -, -, -, -, -, -, -, -, short, -⟩
  have ⟨_, _, recorded⟩ := answers_stateAfter (short 0 rampOverdueState (by decide +kernel) (by decide) (by decide +kernel)
    (by decide +kernel) (by decide +kernel))
  exact absurd recorded (by decide +kernel)

/-! ## A bank group that fails -/

/-- A sequence with two pages, whose table entries lie in different DRAM channels. -/
def twoPageSeq : Seq := { onePageSeq with dir := [(0, 0, 0, 0), (0, 0, 1, 8)] }

/-- A record of DRAM channel 1, of this moment, under the number after that of `earlyRecord`. -/
def laterRecord : Nat × FaultRec := (1, { earlyRecord.2 with source := 0x21 })

/-- Bank group 0 has had 15 errors within the second; both page-table entries of the job's sequence are poisoned, and the first
two records of the queue have the numbers that the next ones will get. -/
def failingGroupState : State := { State.reset with
  qps := State.reset.qps.modify 0 fun q => { q with enabled := true }
  jobs := { Jobs.reset with list := [creatingJob] }
  seqs := [twoPageSeq]
  parts := State.reset.parts.modify 0 fun _ => enginelessPart
  dram := { Dram.reset with poisoned := [0, 8], chans := List.replicate 24 { Chan.reset with active := true } }
  faults := { State.reset.faults with recs := [earlyRecord, laterRecord], sramErrs := List.replicate 15 (0, 0) } }

/-- Refutes O60: the sixteenth error and the failure of its group are recorded before the jobs end (R415), under the numbers of
records that stand in the queue already. The end of a job then meets two poisoned words, their occurrences fold into those earlier
records, and every record of their numbers becomes one of them (`State.raise`). The ninth clause lacks that the records of the
queue have numbers below FAULT_HEAD. -/
theorem not_faultsAndManagement : ¬ Obligations.FaultsAndManagement := by
  unfold Obligations.FaultsAndManagement
  rintro ⟨-, -, -, -, -, -, -, -, badWord, -⟩
  have ⟨recorded, _⟩ := answers_stateAfter (badWord 0 0 0x100000 failingGroupState (by decide +kernel) (by decide) (by decide))
  exact absurd recorded (by decide +kernel)

/-! ## A watchdog that expires -/

/-- Control processor 0 has run for 10 ms; the job is its own, the page table's first word is poisoned, and the first record of
the queue, of this moment, has the number that the next one will get. -/
def expiringState : State := { State.reset with
  now := 1000000
  qps := State.reset.qps.modify 0 fun q => { q with enabled := true }
  jobs := { Jobs.reset with list := [creatingJob] }
  seqs := [onePageSeq]
  parts := State.reset.parts.modify 0 fun _ => enginelessPart
  kadon := { Kadon.reset with cps := Kadon.reset.cps.modify 0 fun c => { c with state := .running } }
  dram := { Dram.reset with poisoned := [0] }
  faults := { State.reset.faults with recs := [(0, { earlyRecord.2 with firstTs := 1000000, lastTs := 1000000 })] } }

/-- Refutes O51: the expiry is recorded before the processor's jobs end (R377), under the number of a record that stands in the
queue already. The end of the job then meets a poisoned word, its occurrence folds into that earlier record, and every record of
the number becomes it (`State.raise`). The tenth clause lacks that the records of the queue have numbers below FAULT_HEAD. -/
theorem not_kadonBootsAndUpdates : ¬ Obligations.KadonBootsAndUpdates := by
  unfold Obligations.KadonBootsAndUpdates
  rintro ⟨-, -, -, -, -, -, -, -, -, expires, -⟩
  have ⟨_, recorded, _⟩ := answers_stateAfter (expires 0 expiringState (by decide) (by decide +kernel) (by decide +kernel)
    (by decide +kernel) (by decide +kernel))
  exact absurd recorded (by decide +kernel)

/-! ## A transfer whose job ends while the error of its read is recorded -/

/-- A transfer of job 0 from the resident area of engine 0 that has read nothing yet. -/
def residentXfer : Xfer :=
  { uid := 0, part := 0, prio := 0, src := localBase 0, dst := 0, len := 4096, transform := 0, issued := 0, acked := 0
    failed := none, start := 0, stopped := false, own := none }

/-- That transfer is active in channel 0; engine 0 has had two errors of its local store within 10 ms, and job 0 needs an
engine, while its partition has none left. -/
def thirdErrorState : State := { State.reset with
  jobs := { Jobs.reset with list := [emptyTileList] }
  engines := State.reset.engines.modify 0 fun g => { g with storeErrs := [0, 0] }
  siphon := { Siphon.reset with chans := Siphon.reset.chans.modify 0 fun c => { c with active := some residentXfer } } }

/-- Refutes O49: an uncorrectable read from a resident area is an occurrence of its engine, the third of which maps the engine
out (R416). A job whose partition has no engine left ends with that, its transfers are withdrawn (R319), and no transfer of it is
left to take the status (`State.storeError`, `State.failEngineless`). The thirteenth clause lacks that the transfer's job is one
that needs no engines. -/
theorem not_dmaRawAndBursts : ¬ Obligations.DmaRawAndBursts := by
  unfold Obligations.DmaRawAndBursts
  rintro ⟨-, -, -, -, -, -, -, -, -, -, -, -, failed, -⟩
  obtain ⟨y, here, -⟩ := answers_stateAfter (failed 0 .readBad residentXfer thirdErrorState (by decide +kernel) (by decide)
    (by decide +kernel) (.inl rfl))
  have active : ((stateAfter (.siphonError 0 .readBad) thirdErrorState).sch 0).active = none := by decide +kernel
  have draining : ((stateAfter (.siphonError 0 .readBad) thirdErrorState).sch 0).draining = none := by decide +kernel
  rw [active, draining] at here
  exact here.elim nofun nofun

/-! ## Two jobs of one number -/

/-- A DESTROY_PARTITION of partition 1 that has not begun. -/
def destroyJob : Job := { emptyTileList with opcode := 0x41, words := [0, 0, 0, 1], cp := 3 }

/-- A finished job of the same number, taken from queue pair 1. -/
def finishedTwin : Job := { destroyJob with qp := 1, finished := true }

/-- Partition 1 owns queue pair 1. -/
def twinState : State := { State.reset with
  qps := State.reset.qps.modify 0 (fun q => { q with enabled := true }) |>.modify 1 fun q => { q with part := 1 }
  jobs := { Jobs.reset with list := [destroyJob, finishedTwin] }
  parts := State.reset.parts.modify 1 fun q => { q with valid := true }
  kadon := { Kadon.reset with cps := Kadon.reset.cps.map fun c => { c with state := .running } } }

/-- Refutes O50: the queue pairs of the partition are disabled first, which drops the finished jobs taken from them (R17, R38). The
DESTROY_PARTITION goes with its namesake, and no record of it waits. The fourth clause lacks that no two jobs have one number. -/
theorem not_partitionsMadeAndEnded : ¬ Obligations.PartitionsMadeAndEnded := by
  unfold Obligations.PartitionsMadeAndEnded
  rintro ⟨-, -, -, destroyed, -⟩
  obtain ⟨⟨n, c, waits, -⟩, -⟩ := answers_stateAfter (destroyed 0 1 destroyJob twinState (by decide +kernel) (by decide +kernel)
    (by decide +kernel) (by decide +kernel) (by decide) (by decide +kernel) (by decide) (by decide +kernel))
  have none : ((stateAfter (.destroyPartition 0) twinState).qp 0).waiting = [] := by decide +kernel
  exact absurd (none ▸ waits) List.not_mem_nil

/-! ## A stream that the end of its job overwrites -/

/-- The first of two entries, an IN buffer entry of one byte at address 0, of which nothing has arrived. -/
def awaitedEntry : ShipSt :=
  { out := false, port := 0, hops := 1, entry := 0, count := 2, probed := true, probeSent := none, ready := true, lastReady := 0
    sent := 0, acked := 0, total := 1, image := [], lastProgress := 0, lastHold := 0, held := false, words := [0, 1] }

/-- A job of a serving opcode with that entry, as only a KV_SHIP_IN has. -/
def servingReceiver : Job := { emptyTileList with opcode := 0x03, state := .running, ext := .ship awaitedEntry }

/-- A frame in order with the byte, which is 0. -/
def lastByte : Frame := mkFrame typeDATA 1 1 (transport 0 0 0 false ++ [0])

/-- The job appended the page of `onePageSeq`, whose entry in the page table is at address 0 too; the next entry of the job lies
outside its partition. -/
def overwritingState : State := { State.reset with
  jobs := { Jobs.reset with list := [servingReceiver] }
  seqs := [onePageSeq]
  kvs := [{ Kv.empty with groups := [flushedGroup] }]
  passage := { State.reset.passage with ports := State.reset.passage.ports.modify 0 fun p => { p with state := .ready } } }

/-- Refutes O37: the stream is written and its entry done, the next entry cannot be read, and the job ends. Having a serving
opcode, it undoes its appends, which writes the page's table entry over the stream (R41, R185). The second clause lacks that the
job has a shipping opcode. -/
theorem not_passageFramesReceived : ¬ Obligations.PassageFramesReceived := by
  unfold Obligations.PassageFramesReceived
  rintro ⟨-, landed, -⟩
  have written := answers_stateAfter (landed 0 lastByte (overwritingState.accept 0 lastByte).2 servingReceiver awaitedEntry
    overwritingState rfl (Prod.ext (by decide +kernel) rfl) (by decide +kernel) (by decide +kernel) (by decide +kernel)
    (by decide +kernel) (by decide +kernel) (by decide +kernel) (by decide) (by decide +kernel) (by decide +kernel))
  exact absurd written (by decide +kernel)

end Sys2Proof.Machine
end

section
/-! SUPPORT. What occurrences and the end of jobs leave as it is (R36 to R41, R410 to R412): of the link all but the pending
messages of the physical function, of the fault registers all but the queue, of the partitions all but their counters. -/

namespace Sys2Proof.Machine

variable {s t u : State} {may : Touch}

/-- In `t` occurrences were noted since `s`, and counters of partitions have moved. -/
structure State.Noted (s t : State) : Prop where
  link : ∃ pend, t.link = { s.link with pf := { s.link.pf with pending := pend } }
  out : ∃ sent, t.out = { s.out with msix := sent }
  faults : ∃ h o l a r g, t.faults =
    { s.faults with head := h, overflow := o, lost := l, afterLoss := a, recs := r, gathered := g }
  parts : ∀ p, ∃ c, t.part p = { s.part p with ctr := c }
  signalled : ∀ fn e, s.signalled fn e → t.signalled fn e

theorem State.Noted.of_eq (link : t.link = s.link) (out : t.out = s.out) (faults : t.faults = s.faults)
    (parts : ∀ p, ∃ c, t.part p = { s.part p with ctr := c }) : s.Noted t :=
  ⟨⟨s.link.pf.pending, link⟩, ⟨s.out.msix, out⟩, ⟨_, _, _, _, _, _, faults⟩, parts, fun _ _ h => h.of_eq link out⟩

theorem State.Noted.refl (s : State) : s.Noted s := .of_eq rfl rfl rfl fun _ => ⟨_, rfl⟩

theorem State.Noted.trans (h : s.Noted t) (k : t.Noted u) : s.Noted u where
  link := by
    obtain ⟨p, hp⟩ := h.link
    obtain ⟨q, hq⟩ := k.link
    exact ⟨q, by rw [hq, hp]⟩
  out := by
    obtain ⟨m, hm⟩ := h.out
    obtain ⟨n, hn⟩ := k.out
    exact ⟨n, by rw [hn, hm]⟩
  faults := by
    obtain ⟨_, _, _, _, _, _, hf⟩ := h.faults
    obtain ⟨_, _, _, _, _, _, kf⟩ := k.faults
    exact ⟨_, _, _, _, _, _, by rw [kf, hf]⟩
  parts p := by
    obtain ⟨c, hc⟩ := h.parts p
    obtain ⟨d, hd⟩ := k.parts p
    exact ⟨d, by rw [hd, hc]⟩
  signalled fn e hs := k.signalled fn e (h.signalled fn e hs)

theorem State.Noted.of_reach (h : Keeps ⟨may, s⟩ t) (link : may.tLink = false) (out : may.tOut = false)
    (faults : may.tFaults = false) (reach : s.SameReach t) : s.Noted t :=
  .of_eq (h.link_eq link) (h.out_eq out) (h.faults_eq faults) reach.parts

theorem State.Noted.of_keeps (h : Keeps ⟨may, s⟩ t) (link : may.tLink = false) (out : may.tOut = false)
    (faults : may.tFaults = false) (parts : may.tParts = false) : s.Noted t :=
  .of_eq (h.link_eq link) (h.out_eq out) (h.faults_eq faults) fun p =>
    ⟨(s.part p).ctr, by rw [State.part, h.parts_eq parts, State.part]⟩

/-! ## Occurrences and writes -/

theorem raiseMsix_noted (s : State) (e : Nat) : s.Noted (s.raiseMsix .pf e) := by
  unfold State.raiseMsix
  split
  · exact ⟨⟨_, rfl⟩, ⟨_, rfl⟩, ⟨_, _, _, _, _, _, rfl⟩, fun _ => ⟨_, rfl⟩, fun fn e h =>
      h.imp (List.mem_cons_of_mem _) id⟩
  · split
    · exact .refl s
    · refine ⟨⟨_, rfl⟩, ⟨_, rfl⟩, ⟨_, _, _, _, _, _, rfl⟩, fun _ => ⟨_, rfl⟩, fun fn e h => h.imp id fun pending => ?_⟩
      cases fn
      · exact List.mem_cons_of_mem _ pending
      · exact pending

theorem faults_noted (s : State) (h : Nat) (o : Bool) (l : Nat) (a : Bool) (r g : List (Nat × FaultRec)) :
    s.Noted { s with faults :=
      { s.faults with head := h, overflow := o, lost := l, afterLoss := a, recs := r, gathered := g } } :=
  ⟨⟨_, rfl⟩, ⟨_, rfl⟩, ⟨_, _, _, _, _, _, rfl⟩, fun _ => ⟨_, rfl⟩, fun _ _ h => h⟩

theorem enterFault_noted (s : State) (r : FaultRec) : s.Noted (s.enterFault r) := by
  unfold State.enterFault
  extract_lets q old counted
  split
  · exact faults_noted ..
  · exact (faults_noted s ..).trans (raiseMsix_noted ..)

theorem raise_noted (s : State) (source cls detail : Nat) (part : Option Nat) (tag info : Nat) :
    s.Noted (s.raise source cls detail part tag info) := by
  unfold State.raise
  extract_lets hide fresh q
  split
  · exact enterFault_noted ..
  split
  · exact enterFault_noted ..
  split
  · exact enterFault_noted ..
  split
  · exact faults_noted s ..
  · exact faults_noted s ..

theorem dramWordError_noted (s : State) (a : Nat) : s.Noted (s.dramWordError a) :=
  (raise_noted ..).trans (.of_eq rfl rfl rfl fun _ => ⟨_, rfl⟩)

theorem reportWords_noted (s : State) (ws : List Nat) : s.Noted (s.reportWords ws) :=
  keepsFold (Q := s.Noted) (.refl s) fun _ _ h => h.trans (dramWordError_noted ..)

theorem store_noted (s : State) (a : Nat) (bs : List Byte) : s.Noted (s.store a bs) :=
  (reportWords_noted ..).trans (.of_eq rfl rfl rfl fun _ => ⟨_, rfl⟩)

/-! ## What the end of a job leaves (R41, R145) -/

theorem dropRef_noted (s : State) (p i : Nat) : s.Noted (s.dropRef p i) := store_noted ..

theorem dropGroups_noted (s : State) (p : Nat) (gs : List Group) : s.Noted (s.dropGroups p gs) :=
  .of_reach (dropGroups_keeps (Touch.Le.refl _) (Keeps.refl _ s)) rfl rfl rfl (dropGroups_sameReach s p gs)

theorem releaseSeq_noted (s : State) (q : Seq) : s.Noted (s.releaseSeq q) := by
  unfold State.releaseSeq
  extract_lets p unreferenced ungrouped freed
  have references : s.Noted unreferenced := keepsFold (Q := s.Noted) (.refl s) fun _ _ h => h.trans (dropRef_noted ..)
  have groups : unreferenced.Noted ungrouped := dropGroups_noted ..
  have frames : ungrouped.Noted freed :=
    .of_keeps (keepsFold (Q := Keeps ⟨Touch.nothing.kvs, ungrouped⟩) (freeSums_keeps (Touch.Le.refl _) (Keeps.refl _ _))
      fun _ _ h => freeFrame_keeps (Touch.Le.refl _) h) rfl rfl rfl rfl
  exact ((references.trans groups).trans frames).trans (.of_eq rfl rfl rfl fun _ => ⟨_, rfl⟩)

theorem restoreEnt_noted (s : State) (e : Ent) : s.Noted (s.restoreEnt e) := by
  unfold State.restoreEnt
  split
  · split
    · exact releaseSeq_noted ..
    · exact .refl s
  · exact .of_keeps (setLength_keeps (Touch.Le.refl _) (Keeps.refl _ s)) rfl rfl rfl rfl

theorem rewiden_noted (s : State) (p : Nat) (q : Seq) (g : Group) : s.Noted (s.rewiden p q g) := by
  unfold State.rewiden
  extract_lets block later
  split
  · extract_lets out
    have widened : s.Noted out.1 :=
      keepsFold (Q := fun a : State × L1 => s.Noted a.1) (.refl s) fun a x h =>
        h.trans (.of_eq rfl rfl rfl fun _ => ⟨_, rfl⟩)
    exact widened.trans ((store_noted ..).trans (store_noted ..))
  · exact .refl s

theorem shrinkGroup_sameReach (s : State) (p : Nat) (g : Group) (toks : List Tok) :
    s.SameReach (s.shrinkGroup p g toks) := by
  unfold State.shrinkGroup
  extract_lets need stag sump freed
  have given : s.SameReach freed := ((dropGroup_samePlaces s p g).trans (freeUnits_samePlaces _ p sump stag)).1
  split
  · split
    · exact given.trans (.of_parts (fun _ => ⟨_, rfl⟩) rfl rfl)
    · exact given
  · exact given.trans (.of_parts (fun _ => ⟨_, rfl⟩) rfl rfl)

theorem undoGroup_noted (s : State) (p uid : Nat) (g : Group) : s.Noted (s.undoGroup p uid g) := by
  unfold State.undoGroup
  extract_lets unflushed r g' marked
  have page : s.Noted unflushed := by
    unfold unflushed
    split
    · split
      · exact .refl s
      · extract_lets widened unreferenced
        have references : widened.Noted unreferenced :=
          keepsFold (Q := widened.Noted) (.refl _) fun _ _ h => h.trans (dropRef_noted ..)
        exact ((rewiden_noted ..).trans references).trans (.of_eq rfl rfl rfl fun _ => ⟨_, rfl⟩)
    · exact .refl s
  have marks : unflushed.Noted marked := .of_eq rfl rfl rfl fun _ => ⟨_, rfl⟩
  exact (page.trans marks).trans
    (.of_reach (shrinkGroup_keeps (Touch.Le.refl _) (Keeps.refl _ _)) rfl rfl rfl (shrinkGroup_sameReach ..))

theorem undoAppends_noted (s : State) (p uid : Nat) : s.Noted (s.undoAppends p uid) := by
  refine keepsFold (Q := s.Noted) (.refl s) fun t g h => ?_
  split
  · exact h.trans (undoGroup_noted ..)
  · exact h

theorem scrambleOut_noted (s : State) (p a n : Nat) : s.Noted (s.scrambleOut p a n) := by
  unfold State.scrambleOut
  split
  · exact .of_eq rfl rfl rfl fun _ => ⟨_, rfl⟩
  · exact .refl s

theorem scramblePatches_noted (s : State) (j : Job) : s.Noted (s.scramblePatches j) := by
  unfold State.scramblePatches
  extract_lets area rows
  have scrambled : s.Noted rows := scrambleOut_noted ..
  split
  · exact keepsFold (Q := s.Noted) scrambled fun _ _ h => h.trans (scrambleOut_noted ..)
  · exact scrambled

theorem cancelEffects_noted (s : State) (j : Job) : s.Noted (s.cancelEffects j) := by
  unfold State.cancelEffects
  extract_lets out patches undone
  have first : s.Noted patches := by
    unfold patches
    split
    · exact (scrambleOut_noted ..).trans (scramblePatches_noted ..)
    · exact scrambleOut_noted ..
  have second : s.Noted undone := by
    unfold undone
    split
    · exact first.trans (undoAppends_noted ..)
    · exact first
  split
  · exact keepsFold (Q := s.Noted) second fun _ _ h => h.trans (restoreEnt_noted ..)
  · split
    · exact second.trans (.of_eq rfl rfl rfl fun _ => ⟨_, rfl⟩)
    · exact second
  · exact second

theorem finishJob_noted (s : State) (j : Job) (result : Nat) : s.Noted (s.finishJob j result) :=
  .of_keeps (finishJob_keeps (Touch.Le.refl _) (Keeps.refl _ s)) rfl rfl rfl rfl

theorem withdraw_noted (s : State) (uid : Nat) : s.Noted (s.withdraw uid) :=
  .of_keeps (withdraw_keeps (Touch.Le.refl _) (Keeps.refl _ s)) rfl rfl rfl rfl

theorem failJob_noted (s : State) (uid status result : Nat) : s.Noted (s.failJob uid status result) := by
  unfold State.failJob
  extract_lets out
  have withdrawn : s.Noted out :=
    (.of_keeps (jobError_keeps (Touch.Le.refl _) (Keeps.refl _ s)) rfl rfl rfl rfl : s.Noted (s.jobError uid status)).trans
      (withdraw_noted ..)
  split
  · exact withdrawn
  · next j _ =>
    extract_lets undone
    have effects : out.Noted undone := by
      unfold undone
      split
      · exact cancelEffects_noted ..
      · exact .refl _
    split
    · exact withdrawn
    · exact (withdrawn.trans effects).trans (finishJob_noted ..)

theorem failJob'_noted (s : State) (uid status : Nat) : s.Noted (s.failJob' uid status) := by
  unfold State.failJob'
  split
  · exact .refl s
  · exact failJob_noted ..

theorem failAllJobs_noted (s : State) : s.Noted s.failAllJobs :=
  keepsFold (Q := s.Noted) (.refl s) fun _ _ h => h.trans (failJob'_noted ..)

end Sys2Proof.Machine
end

section
/-! SUPPORT. What a Passage port sends (R332 to R335): a frame that has been given to it waits there or has left. -/

namespace Sys2Proof.Machine

variable {s t : State} {p q r : PPort} {n m : Nat} {f g : Frame}

/-- `g` is `f` as it travels: only a PROBE_REPLY is written in again when it leaves (R340). -/
structure Carries (f g : Frame) : Prop where
  type : g.type = f.type
  vc : g.vc = f.vc
  hops : g.hops = f.hops
  payload : f.type ≠ typeREPLY → g.payload = f.payload

theorem Carries.refl (f : Frame) : Carries f f := ⟨rfl, rfl, rfl, fun _ => rfl⟩

theorem Carries.trans {h : Frame} (a : Carries f g) (b : Carries g h) : Carries f h :=
  ⟨b.type.trans a.type, b.vc.trans a.vc, b.hops.trans a.hops, fun other =>
    (b.payload (a.type ▸ other)).trans (a.payload other)⟩

/-- The frame waits at the port, or has left it. -/
def PPort.Holds (p : PPort) (f : Frame) : Prop := ∃ g ∈ p.waiting ++ p.sent, Carries f g

/-- From `p` to `q` the port did nothing but send: no frame is lost, and its registers stay. -/
structure PPort.Sends (p q : PPort) : Prop where
  enable : q.enable = p.enable
  state : q.state = p.state
  events : q.events = p.events
  control : q.control = p.control
  holds : ∀ f, p.Holds f → q.Holds f

theorem PPort.Sends.refl (p : PPort) : p.Sends p := ⟨rfl, rfl, rfl, rfl, fun _ h => h⟩

theorem PPort.Sends.trans (h : p.Sends q) (k : q.Sends r) : p.Sends r :=
  ⟨k.enable.trans h.enable, k.state.trans h.state, k.events.trans h.events, k.control.trans h.control,
    fun f held => k.holds f (h.holds f held)⟩

theorem stamp_carries (p : PPort) (now : Nat) (f : Frame) : Carries f (p.stamp now f) := by
  unfold PPort.stamp
  split
  next r found =>
    have isReply := List.find?_some found
    simp only [Bool.and_eq_true, beq_iff_eq] at isReply
    exact ⟨rfl, rfl, rfl, fun other => absurd isReply.1 other⟩
  next => exact .refl f

/-- The first waiting frame leaves. -/
theorem emit_sends (p : PPort) (dir now : Nat) (f : Frame) :
    p.Sends (({ p with waiting := p.waiting.erase f } : PPort).emit dir now f) := by
  refine ⟨rfl, rfl, rfl, rfl, fun g ⟨h, among, carried⟩ => ?_⟩
  rcases List.mem_append.1 among with waits | left
  · by_cases first : h = f
    · subst first
      exact ⟨_, List.mem_append_right _ (List.mem_cons_self ..), carried.trans
        ((stamp_carries { p with waiting := p.waiting.erase h } now h).trans ⟨rfl, rfl, rfl, fun _ => rfl⟩)⟩
    · exact ⟨h, List.mem_append_left _ ((List.mem_erase_of_ne first).2 waits), carried⟩
  · exact ⟨h, List.mem_append_right _ (List.mem_cons_of_mem _ left), carried⟩

theorem pump_sends (dir now fuel : Nat) (p : PPort) : p.Sends (p.pump dir now fuel) := by
  induction fuel generalizing p with
  | zero => exact .refl p
  | succ fuel ih =>
    unfold PPort.pump
    extract_lets first
    split
    · exact .refl p
    · exact (emit_sends p dir now _).trans (ih _)

/-! ## Ports by number -/

theorem pport_congr (h : t.passage = s.passage) (n : Nat) : t.pport n = s.pport n := by rw [State.pport, State.pport, h]

/-- A change of one port, as any port shows it. -/
theorem pport_modPport_cases (s : State) (n m : Nat) (f : PPort → PPort) :
    (s.modPport n f).pport m = s.pport m ∨ (s.modPport n f).pport m = f (s.pport m) := by
  by_cases h : n = m
  · subst h
    by_cases hn : n < s.passage.ports.length
    · exact .inr (State.pport_modPport_same s f hn)
    · rw [State.pport, State.modPport_passage, List.modify_eq_self (by omega)]
      exact .inl rfl
  · exact .inl (State.pport_modPport_other s f h)

theorem pport_modPport_sends {f : PPort → PPort} (hf : ∀ p, PPort.Sends p (f p)) (s : State) (n m : Nat) :
    (s.pport m).Sends ((s.modPport n f).pport m) := by
  rcases pport_modPport_cases s n m f with h | h <;> rw [h]
  · exact .refl _
  · exact hf _

theorem freeRx_sends (s : State) (n m : Nat) (f : Frame) : (s.pport m).Sends ((s.freeRx n f).pport m) :=
  pport_modPport_sends (by exact fun _ => ⟨rfl, rfl, rfl, rfl, fun _ h => h⟩) s n m

theorem settleRelays_sends (s : State) (n m : Nat) : (s.pport m).Sends ((s.settleRelays n).pport m) := by
  unfold State.settleRelays
  extract_lets p gone buffered moved
  refine keepsFold (Q := fun t : State => (s.pport m).Sends (t.pport m)) ?_ fun t f h => h.trans (freeRx_sends ..)
  exact pport_modPport_sends (by exact fun _ => ⟨rfl, rfl, rfl, rfl, fun _ h => h⟩) s n m

theorem pumpPort_sends (s : State) (n m : Nat) : (s.pport m).Sends ((s.pumpPort n).pport m) :=
  (pport_modPport_sends (fun p => pump_sends _ _ _ p) s n m).trans (settleRelays_sends ..)

theorem sendFrame_sends (s : State) (n m : Nat) (f : Frame) : (s.pport m).Sends ((s.sendFrame n f).pport m) := by
  refine (pport_modPport_sends ?_ s n m).trans (pumpPort_sends ..)
  refine fun p => ⟨rfl, rfl, rfl, rfl, fun g ⟨h, among, carried⟩ => ⟨h, ?_, carried⟩⟩
  rw [List.append_assoc]
  exact (List.mem_append.1 among).elim (List.mem_append_left _) fun left =>
    List.mem_append_right _ (List.mem_append_right _ left)

theorem sendFrame_holds (hn : n < s.passage.ports.length) (f : Frame) : ((s.sendFrame n f).pport n).Holds f := by
  refine (pumpPort_sends _ n n).holds f ?_
  rw [State.pport_modPport_same _ _ hn]
  exact ⟨f, List.mem_append_left _ (List.mem_append_right _ (List.mem_singleton_self f)), .refl f⟩

theorem pport_in_range (h : (s.pport n).state = .ready) : n < s.passage.ports.length := by
  by_contra out
  rw [State.pport, List.getD_eq_default _ _ (by omega)] at h
  exact absurd h (by decide)

/-! ## End-to-end control and probes of a shipment (R343, R345) -/

theorem settleRelays_ports (s : State) (n : Nat) :
    (s.settleRelays n).passage.ports.length = s.passage.ports.length := by
  unfold State.settleRelays
  extract_lets p gone buffered moved
  refine keepsFold (Q := fun t : State => t.passage.ports.length = s.passage.ports.length) ?_ fun t f h => ?_
  · simp
  · simpa [State.freeRx] using h

theorem sendFrame_ports (s : State) (n : Nat) (f : Frame) :
    (s.sendFrame n f).passage.ports.length = s.passage.ports.length := by
  rw [State.sendFrame, State.pumpPort, settleRelays_ports]
  simp

theorem shipControl_control {j : Job} {sh : ShipSt} {msg : ShipMsg} (hn : sh.port < s.passage.ports.length) :
    ((s.shipControl j sh msg).pport sh.port).control = (msg, shPeer sh.words, shTag sh.words) :: (s.pport sh.port).control := by
  unfold State.shipControl State.sendControl
  extract_lets f
  rw [State.pport_modPport_same _ _ (by rwa [sendFrame_ports])]
  exact congrArg _ (sendFrame_sends ..).control

theorem shipControl_jobs (s : State) (j : Job) (sh : ShipSt) (msg : ShipMsg) : (s.shipControl j sh msg).jobs = s.jobs :=
  (shipControl_keeps (Touch.Le.refl _) (Keeps.refl _ s)).jobs_eq rfl

theorem probePath_jobs (s : State) (j : Job) (sh : ShipSt) : (s.probePath j sh).jobs = s.jobs :=
  (probePath_keeps (Touch.Le.refl _) (Keeps.refl _ s)).jobs_eq rfl

theorem probePath_control (s : State) (j : Job) (sh : ShipSt) (m : Nat) :
    ((s.probePath j sh).pport m).control = (s.pport m).control := (sendFrame_sends ..).control

/-- The PROBE along an entry's path. -/
theorem probePath_sent {j : Job} {sh : ShipSt} (hn : sh.port < s.passage.ports.length) :
    ∃ f ∈ ((s.probePath j sh).pport sh.port).waiting ++ ((s.probePath j sh).pport sh.port).sent,
      f.type = 4 ∧ f.vc = 0 ∧ f.hops = sh.hops ∧
        f.payload = transport s.passage.id (shTag sh.words) sh.hops (s.conf j.part) := by
  obtain ⟨g, among, carried⟩ := sendFrame_holds hn
    (mkFrame typePROBE 0 sh.hops (transport s.passage.id (shTag sh.words) sh.hops (s.conf j.part)))
  exact ⟨g, among, carried.type, carried.vc, carried.hops, carried.payload (show typePROBE ≠ typeREPLY by decide)⟩

/-! ## The entry in progress of a job -/

theorem setShip_job? {uid : Nat} {j : Job} (found : s.job? uid = some j) (sh : ShipSt) :
    (s.setShip uid sh).job? uid = some { j with ext := .ship sh } := by
  rw [State.setShip, State.job_modJob_same _ _ _ (by exact fun _ => rfl), found]
  rfl

theorem ship_of_ship? {j : Job} {sh : ShipSt} (h : j.ship? = some sh) : j.ext = .ship sh := by
  unfold Job.ship? at h
  split at h
  next found => rw [found, Option.some.inj h]
  next => cases h

theorem shipFor_port {out : Bool} {port peer tag : Nat} {j : Job} {sh : ShipSt}
    (h : s.shipFor out port peer tag = some (j, sh)) : sh.out = out ∧ sh.port = port ∧ j.ship? = some sh := by
  obtain ⟨k, -, found⟩ := List.exists_of_findSome?_eq_some h
  split at found
  next x hx =>
    simp only [Option.ite_none_right_eq_some, Bool.and_eq_true, beq_iff_eq] at found
    obtain ⟨fits, same⟩ := found
    obtain ⟨rfl, rfl⟩ := Prod.mk.inj (Option.some.inj same)
    simp_all
  next => cases found

/-- The job of `shipOf`, its entry in progress. -/
theorem shipOf_eq {uid : Nat} {j : Job} {sh : ShipSt} (h : s.shipOf uid = some (j, sh)) :
    s.job? uid = some j ∧ j.ship? = some sh ∧ j.finished = false := by
  unfold State.shipOf at h
  split at h
  · cases h
  split at h
  next x hx =>
    simp only [Option.ite_none_right_eq_some, Bool.and_eq_true, Bool.not_eq_true'] at h
    obtain ⟨⟨unfinished, -⟩, same⟩ := h
    obtain ⟨rfl, rfl⟩ := Prod.mk.inj (Option.some.inj same)
    exact ⟨‹_›, hx, unfinished⟩
  next => cases h

end Sys2Proof.Machine
end

section
/-! SUPPORT. The statement on the control messages and the timers of shipments (R343, R345, R348, R349). -/

namespace Sys2Proof.Machine

variable {s t : State} {uid : Nat} {j : Job} {sh : ShipSt}

/-- A CANCEL's record is rewritten where it waits; the queue pairs stay on. -/
theorem cancelLate_enabled (s : State) (uid n : Nat) : ((s.cancelLate uid).qp n).enabled = (s.qp n).enabled := by
  simp only [State.qp, State.cancelLate, List.getD_eq_getElem?_getD, List.getElem?_map]
  cases s.qps[n]? <;> rfl

theorem finishJob_recordWaits_like {k : Job} (like : Job.Like j k) (h : s.WillRecord j) (result : Nat) :
    (s.finishJob k result).recordWaits j (j.endStatus s.now) result := by
  obtain ⟨c, waits, fields⟩ := finishJob_recordWaits (like.willRecord h) result
  rw [like.uid, like.jobId, like.opcode, like.startTs, like.endStatus] at fields
  exact ⟨c, like.qp ▸ waits, fields⟩

/-- The last entry is applied: the job's record waits, its withdrawal forgotten (R349). -/
theorem entryDone_last {k : Job} (found : s.job? j.uid = some k) (like : Job.Like j k) (will : s.WillRecord j)
    (plain : j.ending = none) (last : sh.entry + 1 = sh.count) :
    (s.entryDone j sh).recordWaits j (j.endStatus s.now) (sh.entry + 1) := by
  unfold State.entryDone
  simp only [last, if_true, setShip_job? found]
  have done : Job.Like k { k with ext := .ship { sh with entry := sh.count }, ending := none } :=
    ⟨rfl, rfl, rfl, rfl, rfl, rfl, rfl, (like.ending.trans plain).symm, rfl, fun now => by
      simp [Job.endStatus, Job.quality', like.ending, plain]⟩
  exact finishJob_recordWaits_like (like.trans done)
    ⟨will.spoken, will.loud, by rw [cancelLate_enabled]; exact will.enabled⟩ sh.count

/-- What an acknowledgement makes of an OUT entry: it goes on from the receiver's offset where it was held (R345). -/
def ShipSt.acknowledged (sh : ShipSt) (offset now : Nat) : ShipSt :=
  { sh with
    acked := max sh.acked offset, sent := if sh.held then offset else sh.sent, held := false, lastProgress := now }

/-- The sequence that an entry moved is released once the whole stream is acknowledged (R347). -/
def State.shippedAway (s : State) (j : Job) (sh : ShipSt) : State :=
  match s.resident j.part (shSeq sh.words) with
  | some q => if shMove sh.words && !shBuffer sh.words then s.releaseSeq q else s
  | none => s

theorem shippedAway_keeps (s : State) (j : Job) (sh : ShipSt) :
    Keeps ⟨Touch.nothing.parts.kvs.seqs.mems.dram.record, s⟩ (s.shippedAway j sh) := by
  unfold State.shippedAway
  split
  · split
    · exact releaseSeq_keeps (Touch.Le.refl _) (Keeps.refl _ s)
    · exact Keeps.refl _ s
  · exact Keeps.refl _ s

theorem exec_e2eAck (offset : Nat) (final : Bool) (here : s.shipOf uid = some (j, sh)) (out : sh.out = true)
    (probed : sh.probed = true) (within : offset ≤ sh.sent) :
    exec (.e2eAck uid offset final) s = .next
      (if final && offset == sh.total && (sh.acknowledged offset s.now).sent == sh.total then
        ((s.setShip uid (sh.acknowledged offset s.now)).shippedAway j sh).entryDone j (sh.acknowledged offset s.now)
      else s.setShip uid (sh.acknowledged offset s.now)) := by
  have taken : (!sh.out || !sh.probed || decide (sh.sent < offset)) = false := by simp [out, probed, within]
  change execE2eAck uid offset final s = _
  simp only [execE2eAck, here, taken, Bool.false_eq_true, if_false]
  rfl

/-- The final acknowledgement of a whole last entry. -/
theorem answers_lastAck {offset : Nat} (here : s.shipOf uid = some (j, sh)) (hr : s.recorded j) (plain : j.ending = none)
    (out : sh.out = true) (probed : sh.probed = true) (sent : sh.sent = sh.total) (whole : offset = sh.total)
    (last : sh.entry + 1 = sh.count) :
    answers (.e2eAck uid offset true) s fun u => u.recordWaits j (j.endStatus s.now) (sh.entry + 1) := by
  obtain ⟨found, -, -⟩ := shipOf_eq here
  have isUid := State.job?_uid found
  subst isUid
  have finished : (true && offset == sh.total && (sh.acknowledged offset s.now).sent == sh.total) = true := by
    simp [ShipSt.acknowledged, whole, sent]
  refine answers_of ((exec_e2eAck offset true here out probed (by omega)).trans (congrArg _ (if_pos finished))) ?_
  have kept := shippedAway_keeps (s.setShip j.uid (sh.acknowledged offset s.now)) j sh
  have found' := (State.job?_congr (kept.jobs_eq rfl) j.uid).trans (setShip_job? found (sh.acknowledged offset s.now))
  have now : ((s.setShip j.uid (sh.acknowledged offset s.now)).shippedAway j sh).now = s.now := kept.now_eq rfl
  have will : ((s.setShip j.uid (sh.acknowledged offset s.now)).shippedAway j sh).WillRecord j :=
    (hr.willRecord.of_qps (t := s.setShip j.uid (sh.acknowledged offset s.now)) rfl).of_qps (kept.qps_eq rfl)
  have ends := entryDone_last (sh := sh.acknowledged offset s.now) found'
    (.work j j.state _ j.redo j.unitWait j.epoch) will plain last
  rwa [now] at ends

/-! ## READY, HOLD and ABORT -/

/-- READY for a waiting OUT entry: the entry notes it, and probes its path. -/
theorem exec_xferReady {port tag : Nat} {ids : ShipIds} (mine : ids.peer = s.passage.id)
    (named : s.shipFor true port ids.origin tag = some (j, sh)) (waits : sh.ready = false) (running : j.state = .running)
    (up : (s.pport port).state = .ready) :
    exec (.xferReady port ids tag) s = .next
      ((s.setShip j.uid { sh with ready := true, probeSent := some s.now, lastProgress := s.now }).probePath j sh) := by
  change execXferReady port ids tag s = _
  simp [execXferReady, mine, named, waits, running, up]

theorem exec_readyResend (here : s.shipOf uid = some (j, sh)) (inward : sh.out = false) (waits : sh.ready = false)
    (running : j.state = .running) (due : sh.lastReady + 10000 ≤ s.now) :
    exec (.readyResend uid) s = .next ((s.setShip uid { sh with lastReady := s.now }).shipControl j sh .ready) := by
  change execReadyResend uid s = _
  simp [execReadyResend, here, inward, waits, running, due]

theorem exec_holdTimer (here : s.shipOf uid = some (j, sh)) (suspended : j.state = .suspended)
    (due : sh.lastHold + 100000 ≤ s.now) :
    exec (.holdTimer uid) s = .next ((s.setShip uid { sh with lastHold := s.now }).shipControl j sh .hold) := by
  change execHoldTimer uid s = _
  simp [execHoldTimer, here, suspended, msTicks, due]

theorem exec_xferAbort (here : s.shipOf uid = some (j, sh)) (confMismatch : Bool) (going : j.state ≠ .cancelling) :
    exec (.xferAbort uid confMismatch) s = .next
      (if confMismatch then s.failJob uid stDenied sh.entry
      else (s.withdraw uid).modJob uid fun j => { j with state := .cancelling, ending := some .cancel }) := by
  change execXferAbort uid confMismatch s = _
  simp [execXferAbort, here, going]

/-- A control message of a job that goes on: its entry is as set, and the message leaves by its port. -/
theorem shipControl_answers {sh' : ShipSt} {msg : ShipMsg} (found : s.job? uid = some j)
    (hn : sh.port < s.passage.ports.length) :
    (∃ k, ((s.setShip uid sh').shipControl j sh msg).job? uid = some k ∧ k.ship? = some sh') ∧
      (((s.setShip uid sh').shipControl j sh msg).pport sh.port).control =
        (msg, shPeer sh.words, shTag sh.words) :: (s.pport sh.port).control :=
  ⟨⟨_, (State.job?_congr (shipControl_jobs ..) uid).trans (setShip_job? found sh'), rfl⟩,
    shipControl_control (s := s.setShip uid sh') hn⟩

/-! ## The timers -/

theorem exec_shipProgressTimeout (here : s.shipOf uid = some (j, sh)) :
    exec (.shipProgressTimeout uid) s = .next
      (if (j.state == .running || j.state == .suspending) && sh.ready && decide (sh.lastProgress + 1000000 ≤ s.now) then
        s.failJob uid stLink sh.entry
      else s) := by
  change execShipProgressTimeout uid s = _
  simp only [execShipProgressTimeout, here]
  rfl

theorem exec_probeTimeout {t : Nat} (here : s.shipOf uid = some (j, sh)) (sent : sh.probeSent = some t) :
    exec (.probeTimeout uid) s = .next
      (if !sh.probed && decide (t + 100000 ≤ s.now) then s.failJob uid stLink sh.entry else s) := by
  change execProbeTimeout uid s = _
  simp only [execProbeTimeout, here, sent]
  rfl

/-- Settles O36: each message or timer sets the entry in progress, sends, or ends the job. -/
theorem shipControlMessages : Obligations.ShipControlMessages := by
  unfold Obligations.ShipControlMessages
  refine ⟨fun port ids tag j sh s mine named found waits running up => ?ready,
    fun uid j sh s here inward waits running due hn => ?resend,
    fun uid offset j sh s here hr plain out probed sent whole last =>
      answers_lastAck here hr plain out probed sent whole last,
    fun uid offset j sh s here out probed within => ?acknowledged,
    fun uid j sh s here => ?hold,
    fun uid j sh s here suspended due hn => ?holdTimer,
    fun uid j sh s here going => ?abort,
    fun uid j sh s here hr => ?denied,
    fun uid j sh s here hr state ready due => ?noProgress,
    fun uid t j sh s here hr unanswered sent due => ?noAnswer,
    fun uid t j sh s here progress sent soon => ?early⟩
  case ready =>
    obtain ⟨-, rfl, -⟩ := shipFor_port named
    refine answers_of (exec_xferReady mine named waits running up) ⟨⟨_,
      (State.job?_congr (probePath_jobs ..) j.uid).trans (setShip_job? found _), rfl⟩, ?_⟩
    exact probePath_sent (s := s.setShip j.uid _) (pport_in_range up)
  case resend =>
    exact answers_of (exec_readyResend here inward waits running due) (shipControl_answers (shipOf_eq here).1 hn)
  case acknowledged =>
    refine answers_of ((exec_e2eAck offset false here out probed within).trans (by rw [Bool.false_and])) ?_
    exact ⟨_, setShip_job? (shipOf_eq here).1 _, rfl⟩
  case hold =>
    have ran : exec (.xferHold uid) s = .next (s.setShip uid { sh with lastProgress := s.now, held := sh.out }) := by
      change execXferHold uid s = _
      simp only [execXferHold, here]
    exact answers_of ran ⟨_, setShip_job? (shipOf_eq here).1 _, rfl⟩
  case holdTimer =>
    exact answers_of (exec_holdTimer here suspended due) (shipControl_answers (shipOf_eq here).1 hn)
  case abort =>
    refine answers_of (exec_xferAbort here false going) ⟨_, ?_, rfl⟩
    have withdrawn : (s.withdraw uid).job? uid = some j :=
      (State.job?_congr ((withdraw_keeps (Touch.Le.refl _) (Keeps.refl _ s)).jobs_eq rfl) uid).trans (shipOf_eq here).1
    exact (State.job_modJob_same _ uid _ (by exact fun _ => rfl)).trans (congrArg (Option.map _) withdrawn)
  case denied =>
    have ran : exec (.xferAbort uid true) s = .next (s.failJob uid stDenied sh.entry) := by
      change execXferAbort uid true s = _
      simp only [execXferAbort, here, if_true]
    refine answers_of ran ?_
    rw [← State.job?_uid (shipOf_eq here).1]
    exact failJob_recordWaits hr (by decide) _
  case noProgress =>
    refine answers_of ((exec_shipProgressTimeout here).trans (congrArg _ (if_pos ?_))) ?_
    · rcases state with state | state <;> simp [state, ready, due]
    · rw [← State.job?_uid (shipOf_eq here).1]
      exact failJob_recordWaits hr (by decide) _
  case noAnswer =>
    refine answers_of ((exec_probeTimeout here sent).trans (congrArg _ (if_pos ?_))) ?_
    · simp [unanswered, due]
    · rw [← State.job?_uid (shipOf_eq here).1]
      exact failJob_recordWaits hr (by decide) _
  case early =>
    rw [exec_shipProgressTimeout here, exec_probeTimeout here sent]
    simp [progress.not_ge, soon.not_ge]

end Sys2Proof.Machine
end

section
/-! SUPPORT. The statement on how shipping jobs start and send (R343, R344, R345, R348). -/

namespace Sys2Proof.Machine

variable {s t : State} {uid op : Nat} {j : Job} {c : Instr}

/-- The command of a shipping opcode. -/
theorem exec_ship (h : (c, op) ∈ [(Instr.kvShipOut uid, 0x07), (.kvShipIn uid, 0x08)]) :
    exec c s = .next (s.runShip uid op) ∧ (op = 0x07 ∨ op = 0x08) := by
  simp only [List.mem_cons, List.not_mem_nil, or_false, Prod.mk.injEq] at h
  rcases h with ⟨rfl, rfl⟩ | ⟨rfl, rfl⟩
  · exact ⟨rfl, .inl rfl⟩
  · exact ⟨rfl, .inr rfl⟩

theorem runShip_starts (starting : s.starting uid op = some (j, t)) (new : j.ship? = none) :
    s.runShip uid op = t.startShip j := by
  simp only [State.runShip, starting, new]

/-- A job of a partition that PART_MASK leaves out (R348). -/
theorem startShip_denied (reads : t.blocked j (dArg j.words) (32 * dCount j.words) = none)
    (writes : t.blockedOut j (dOut j.words) (if j.opcode == 0x07 then 0 else 4 * dCount j.words) = none)
    (masked : bit j.part t.passage.partMask = false) :
    t.startShip j = t.failJob j.uid stDenied 0 := by
  simp only [State.startShip, reads, writes, masked, Option.or_none, Bool.not_false, Bool.true_or, if_true]

/-- The checks of R344 and R348 that a job of buffer entries passes. -/
theorem startShip_begins (reads : t.blocked j (dArg j.words) (32 * dCount j.words) = none)
    (writes : t.blockedOut j (dOut j.words) (if j.opcode == 0x07 then 0 else 4 * dCount j.words) = none)
    (unmasked : bit j.part t.passage.partMask = true) (plain : t.conf j.part = false) (hops : dHops j.words ≠ 0)
    (good : ∀ w ∈ (List.range (dCount j.words)).map (t.shipEntry j), shBuffer w = true ∧
      t.shipOk j.part (j.opcode == 0x07) w = true ∧ t.inDram j.part (shAddr w) (shLength w) = true)
    (up : (t.pport (dPort j.words)).state = .ready) :
    t.startShip j = t.beginEntry j 0 := by
  have valid : ((List.range (dCount j.words)).map (t.shipEntry j)).findIdx?
      (fun w => !t.shipOk j.part (j.opcode == 0x07) w) = none :=
    List.findIdx?_eq_none_iff.2 fun w hw => by rw [(good w hw).2.1]; rfl
  have inside : (((List.range (dCount j.words)).map (t.shipEntry j)).any fun w =>
      shBuffer w && !t.inDram j.part (shAddr w) (shLength w)) = false :=
    List.any_eq_false.2 fun w hw => by rw [(good w hw).2.2]; simp
  have buffers : ((List.range (dCount j.words)).map (t.shipEntry j)).all shBuffer = true :=
    List.all_eq_true.2 fun w hw => (good w hw).1
  unfold State.startShip
  extract_lets n out ws
  rw [reads, writes]
  simp [n, out, ws, unmasked, plain, hops, valid, inside, buffers, up]

/-- What a job's first entry is as it begins (R343, R345). -/
def firstEntry (s : State) (j : Job) : ShipSt :=
  { out := j.opcode == 0x07, port := dPort j.words, hops := dHops j.words, entry := 0, count := dCount j.words, probed := false
    probeSent := if j.opcode == 0x07 then none else some s.now, ready := false, lastReady := s.now, sent := 0, acked := 0
    total := if shBuffer (s.shipEntry j 0) then shLength (s.shipEntry j 0) else 0, image := [], lastProgress := s.now
    lastHold := 0, held := false, words := s.shipEntry j 0 }

theorem beginEntry_first (reads : t.blocked j (dArg j.words) 32 = none) :
    t.beginEntry j 0 =
      if j.opcode == 0x07 then t.setShip j.uid (firstEntry t j)
      else ((t.setShip j.uid (firstEntry t j)).shipControl j (firstEntry t j) .ready).probePath j (firstEntry t j) := by
  unfold State.beginEntry
  rw [Nat.mul_zero, Nat.add_zero, reads]
  rfl

theorem State.SameReach.conf (h : s.SameReach t) (p : Nat) : t.conf p = s.conf p := by
  obtain ⟨c, hc⟩ := h.parts p
  rw [State.conf, hc, State.conf]

/-- A job of buffer entries begins its first entry. -/
theorem answers_firstEntry (h : (c, op) ∈ [(Instr.kvShipOut uid, 0x07), (.kvShipIn uid, 0x08)]) (began : s.Entered uid op j t)
    (new : j.ship? = none) (starts : t.startShip j = t.beginEntry j 0) (reads : t.blocked j (dArg j.words) 32 = none)
    (hn : dPort j.words < s.passage.ports.length) :
    answers c s fun u => (∃ k sh, u.job? uid = some k ∧ k.state = .running ∧ k.ship? = some sh ∧ sh.entry = 0 ∧ sh.sent = 0 ∧
        sh.count = dCount j.words ∧ sh.port = dPort j.words) ∧
      (op = 0x08 → (ShipMsg.ready, shPeer (t.shipEntry j 0), shTag (t.shipEntry j 0)) ∈ (u.pport (dPort j.words)).control ∧
        ∃ f ∈ (u.pport (dPort j.words)).waiting ++ (u.pport (dPort j.words)).sent,
          f.type = 4 ∧ f.vc = 0 ∧ f.hops = dHops j.words) := by
  obtain ⟨epoch, quality, ctrs, running⟩ := began.running
  obtain rfl := began.isUid
  have ran : exec c s = .next (t.beginEntry j 0) := by
    rw [(exec_ship h).1, runShip_starts began.starting new, starts]
  rw [beginEntry_first reads] at ran
  have set := setShip_job? running (firstEntry t j)
  rcases (exec_ship (s := s) h).2 with rfl | rfl
  · rw [began.opcode, if_pos (by rfl)] at ran
    exact answers_of ran ⟨⟨_, firstEntry t j, set, rfl, rfl, rfl, rfl, rfl, rfl⟩, fun other => absurd other (by decide)⟩
  · rw [began.opcode, if_neg (by decide)] at ran
    have hn' : (firstEntry t j).port < t.passage.ports.length := by rwa [began.kept.passage_eq rfl]
    have ready := shipControl_control (s := t.setShip j.uid (firstEntry t j)) (j := j) (msg := .ready) hn'
    have here := (State.job?_congr (probePath_jobs ((t.setShip j.uid (firstEntry t j)).shipControl j (firstEntry t j) .ready) j
      (firstEntry t j)) j.uid).trans ((State.job?_congr (shipControl_jobs ..) _).trans set)
    refine answers_of ran ⟨⟨_, firstEntry t j, here, rfl, rfl, rfl, rfl, rfl, rfl⟩, fun _ => ⟨?_, ?_⟩⟩
    · rw [probePath_control]
      exact ready ▸ List.mem_cons_self ..
    · have kept : ((t.setShip j.uid (firstEntry t j)).shipControl j (firstEntry t j) .ready).passage.ports.length =
          t.passage.ports.length := by
        unfold State.shipControl State.sendControl
        extract_lets f
        simp [sendFrame_ports, State.setShip]
      obtain ⟨f, among, type, vc, hops, -⟩ := probePath_sent (j := j) (kept ▸ hn')
      exact ⟨f, among, type, vc, hops⟩

/-! ## The next frame of an OUT entry -/

theorem runShip_running {sh : ShipSt} (h : s.runs uid 0x07 j) (ship : j.ship? = some sh) :
    s.runShip uid 0x07 = s.goShip j sh := by
  obtain ⟨found, isOp, running, unfinished, cp⟩ := h
  have begun : s.startable j = false := by simp [State.startable, running]
  have notStarting : s.starting uid 0x07 = none := by simp [State.starting, found, begun]
  have waits : s.waitStart uid 0x07 = s := by
    have free : s.giveCounters j = some s := by simp [State.giveCounters, isOp, expands, servingOp]
    simp [State.waitStart, found, free, begun]
  simp [State.runShip, notStarting, waits, found, isOp, running, unfinished, cp, ship]

theorem transport_length (origin tag offset : Nat) (conf : Bool) : (transport origin tag offset conf).length = 16 := by
  simp [transport, leBytes]

/-- The bytes of an entry's stream that leave next. -/
def ShipSt.chunk (sh : ShipSt) : List Byte := (sh.image.drop sh.sent).take 2032

/-- The DATA frame that carries them (R345). -/
def dataFrame (s : State) (j : Job) (sh : ShipSt) : Frame :=
  mkFrame typeDATA 1 sh.hops (transport s.passage.id (shTag sh.words) sh.sent (s.conf j.part) ++
    (sh.chunk ++ List.replicate (ceilDiv sh.chunk.length 16 * 16 - sh.chunk.length) 0))

/-- The state once that frame was sent. -/
def sentData (s : State) (j : Job) (sh : ShipSt) : State :=
  (s.sendFrame sh.port (dataFrame s j sh)).setShip j.uid { sh with sent := sh.sent + sh.chunk.length }

/-- Settles O35: a start is refused or begins the first entry; a running entry sends its next frame. -/
theorem shipJobsStartAndSend : Obligations.ShipJobsStartAndSend := by
  unfold Obligations.ShipJobsStartAndSend
  refine ⟨fun uid op c j s hc hs hr new reads writes masked => ?denied,
    fun uid op c j s hc hs new shaped reads writes unmasked plain hops good first up => ?begins,
    fun uid j sh s runs ship out probed loose more free hn => ?sends⟩
  case denied =>
    have light : expands op = false := by
      rcases (exec_ship (s := s) hc).2 with rfl | rfl <;> decide
    obtain ⟨t, began⟩ := starts_began light hs
    rw [began.started] at reads writes
    refine answers_of (t := t.failJob j.uid stDenied 0) ?_ (began.failJob_recordWaits light hr (by decide) 0)
    rw [(exec_ship hc).1, runShip_starts began.starting new, startShip_denied reads writes]
    rwa [began.kept.passage_eq rfl]
  case begins =>
    obtain ⟨t, began⟩ := starts_entered hs
    rw [began.started] at reads writes good first
    rw [began.started]
    have starts : t.startShip j = t.beginEntry j 0 := by
      refine startShip_begins reads writes ?_ ?_ hops ?_ ?_
      · rwa [began.kept.passage_eq rfl]
      · rwa [began.sameReach.conf]
      · intro w hw
        have := List.all_eq_true.1 good w hw
        simp only [Bool.and_eq_true] at this
        exact ⟨this.1.1, this.1.2, this.2⟩
      · rwa [pport_congr (began.kept.passage_eq rfl)]
    exact answers_firstEntry hc began new starts first (pport_in_range up)
  case sends =>
    have ran : exec (.kvShipOut uid) s = .next (sentData s j sh) := by
      have data : s.goShip j sh = sentData s j sh := by
        have sends : (!sh.out || !sh.probed || sh.held || decide (sh.total ≤ sh.sent) ||
            (s.pport sh.port).waiting.any fun f => f.vc == 1) = false := by
          simp only [out, probed, loose, decide_eq_false more.not_ge, free, Bool.not_true, Bool.or_false]
        have part : sh.whole = false := by rw [ShipSt.whole, out]; rfl
        rw [State.goShip, part, if_neg Bool.false_ne_true, State.sendData, if_neg (by simp [sends])]
        rfl
      rw [← data]
      exact congrArg Host.Outcome.next (runShip_running runs ship)
    obtain ⟨g, among, carried⟩ := sendFrame_holds hn (dataFrame s j sh)
    have payload := carried.payload (show typeDATA ≠ typeREPLY by decide)
    refine answers_of ran ⟨⟨{ j with ext := .ship { sh with sent := sh.sent + sh.chunk.length } }, ?_, rfl⟩,
      g, among, carried.type, carried.vc, carried.hops, ?_, ?_⟩
    · obtain rfl := State.job?_uid runs.1
      exact setShip_job? ((State.job?_congr ((sendFrame_keeps (Touch.Le.refl _) (Keeps.refl _ s)).jobs_eq rfl) j.uid).trans
        runs.1) _
    · rw [payload]
      exact List.take_left' (transport_length ..)
    · rw [payload, dataFrame, mkFrame, List.drop_left' (transport_length ..)]
      exact List.take_left' rfl

end Sys2Proof.Machine
end

section
/-! SUPPORT. The statement on the upkeep of Passage ports (R332 to R339). -/

namespace Sys2Proof.Machine

variable {s t : State} {port : Nat} {p : PPort}

/-- What no change of one port alters, no port has altered. -/
theorem pport_modPport_field {α : Type} (field : PPort → α) {f : PPort → PPort} (kept : ∀ p, field (f p) = field p) (s : State)
    (n m : Nat) : field ((s.modPport n f).pport m) = field (s.pport m) := by
  rcases pport_modPport_cases s n m f with h | h <;> rw [h]
  exact kept _

/-! ## Exchanges (R337, R339) -/

/-- Where an exchange of keys stands. -/
def PPort.exchange (p : PPort) : Bool × Nat × Nat := (p.rekeying, p.lastKeyx, p.keyGen)

theorem sendKeyx_exchange (s : State) (n d m : Nat) : ((s.sendKeyx n d).pport m).exchange = (s.pport m).exchange := by
  rw [State.sendKeyx, State.sendPlain, if_pos rfl]
  refine (pport_modPport_field PPort.exchange ?_ _ n m).trans (pport_modPport_field PPort.exchange ?_ s n m)
  · exact fun _ => rfl
  · exact fun _ => rfl

theorem rngAsk_passage (s : State) (u : RngUse) : (s.rngAsk u).2.passage = s.passage :=
  Keeps.passage_eq (rngAsk_keeps (Touch.Le.refl _) (Keeps.refl _ s)) rfl

theorem startKeyx_exchange (hn : port < s.passage.ports.length) :
    ((s.startKeyx port).pport port).exchange = (true, s.now, (s.pport port).keyGen) := by
  unfold State.startKeyx
  extract_lets u
  have begun : (u.pport port).exchange = (true, s.now, (s.pport port).keyGen) :=
    congrArg PPort.exchange (State.pport_modPport_same s _ hn)
  have asked := pport_congr (rngAsk_passage u (.passage port)) port
  split
  next d v drawn =>
    rw [sendKeyx_exchange, ← begun, ← asked, drawn]
  next v drawn =>
    rw [← begun, ← asked, drawn]

theorem startKeyx_begins (hn : port < s.passage.ports.length) :
    ((s.startKeyx port).pport port).rekeying = true ∧ ((s.startKeyx port).pport port).lastKeyx = s.now ∧
      ((s.startKeyx port).pport port).keyGen = (s.pport port).keyGen := by
  simpa only [PPort.exchange, Prod.mk.injEq] using startKeyx_exchange hn

/-! ## Frames without a sequence number -/

theorem sendPlain_leaves (hn : port < s.passage.ports.length) {type : Nat} (payload : List Byte) (other : type ≠ typeKEYX)
    (unlocked : (s.pport port).state ≠ .locked) (few : (s.pport port).txCtr < 2 ^ 48) :
    (s.sendPlain port type payload).pport port =
      { (s.pport port).leave (s.linkDir port) ((s.pport port).seal (mkFrame type 0 1 payload)) with
        txCtr := (s.pport port).txCtr + 1 } := by
  rw [State.sendPlain, if_neg other, State.pport_modPport_same _ _ hn, if_neg]
  have below : ¬ctrLimit ≤ (s.pport port).txCtr := few.not_ge
  simp [unlocked, below]

theorem sendPlain_ports (s : State) (n type : Nat) (payload : List Byte) :
    (s.sendPlain n type payload).passage.ports.length = s.passage.ports.length := by
  unfold State.sendPlain
  extract_lets f
  split <;> simp

theorem live_unlocked (h : p.live = true) : p.state ≠ .locked := by
  intro locked
  simp [PPort.live, locked] at h

/-! ## A port goes down (R336) -/

/-- The jobs that use a port are failed, and occurrences noted: the ports stay. -/
theorem failShips_passage (s : State) (n : Nat) : (s.failShips n).passage = s.passage :=
  (failShips_keeps (Touch.Le.refl _) (Keeps.refl _ s)).passage_eq rfl

theorem failShips_now (s : State) (n : Nat) : (s.failShips n).now = s.now :=
  (failShips_keeps (Touch.Le.refl _) (Keeps.refl _ s)).now_eq rfl

theorem failShips_noted (s : State) (n : Nat) : s.Noted (s.failShips n) :=
  keepsFold (Q := s.Noted) (.refl s) fun _ _ h => h.trans (failJob'_noted ..)

/-- The port as it fails: nothing of its link is left, and the event is counted. -/
def PPort.fails (p : PPort) (next : PState) : PPort :=
  { p.fresh with state := next, events := satInc 0xFFFF p.events 1 }

/-- The registers of a port that its failing does not clear. -/
def PPort.registers (p : PPort) : Bool × Nat := (p.enable, p.events)

/-- The state once both ports have lost what the link of one held, and before its jobs end. -/
theorem portFails_eq (s : State) (n code : Nat) (next : PState) : ∃ u : State,
    u.jobs = s.jobs ∧ u.qps = s.qps ∧ u.now = s.now ∧ u.faults = s.faults ∧
    (n < s.passage.ports.length → ∃ p : PPort, u.pport n = p.fails next ∧
      p.enable = (s.pport n).enable ∧ p.events = (s.pport n).events) ∧
    s.portFails n code next = (u.failShips n).linkRecord n 6 0xE code := by
  unfold State.portFails
  extract_lets settled parted failed
  have k1 : Keeps ⟨Touch.nothing.passage, s⟩ settled :=
    settleRelays_keeps (Touch.Le.refl _) (modPport_keeps (Touch.Le.refl _) (Keeps.refl _ s))
  have kept : Keeps ⟨Touch.nothing.passage, s⟩ failed :=
    modPport_keeps (Touch.Le.refl _) (modPport_keeps (Touch.Le.refl _) k1)
  refine ⟨failed, kept.jobs_eq rfl, kept.qps_eq rfl, kept.now_eq rfl, kept.faults_eq rfl, fun hn => ?_, rfl⟩
  have count : settled.passage.ports.length = s.passage.ports.length := by simp [settled, settleRelays_ports]
  have registers : (parted.pport n).registers = (s.pport n).registers := by
    have sends := settleRelays_sends (s.modPport n fun p => { p with waiting := [], buffered := [] }) n n
    exact (pport_modPport_field PPort.registers (by exact fun _ => rfl) settled (1 - n) n).trans
      ((Prod.ext sends.enable sends.events).trans (pport_modPport_field PPort.registers (by exact fun _ => rfl) s n n))
  exact ⟨parted.pport n, State.pport_modPport_same _ _ (by simpa [parted, count] using hn), congrArg Prod.fst registers,
    congrArg Prod.snd registers⟩

/-- A port that has failed, with the record of it. -/
theorem portFails_port (hn : port < s.passage.ports.length) (code : Nat) (next : PState) :
    (∃ p : PPort, (s.portFails port code next).pport port = p.fails next ∧ p.enable = (s.pport port).enable ∧
      p.events = (s.pport port).events) ∧ (s.portFails port code next).reported (0x51 + port) 6 := by
  obtain ⟨u, -, -, -, -, ports, ran⟩ := portFails_eq s port code next
  obtain ⟨p, here, registers⟩ := ports hn
  rw [ran]
  refine ⟨⟨p, ?_, registers⟩, raise_reported ..⟩
  rw [State.linkRecord, pport_congr ((raise_keeps_rest ..).passage_eq rfl), pport_congr (failShips_passage u port), here]

/-- The only shipping job of a port that fails ends with its link (R336). -/
theorem portFails_recordWaits {uid : Nat} {j : Job} (found : s.job? uid = some j) (hr : s.recorded j)
    (only : (s.shipJobs port).map Job.uid = [uid]) (code : Nat) (next : PState) :
    (s.portFails port code next).recordWaits j (firstError j.status 0x80) j.progress := by
  obtain ⟨u, jobs, qps, -, -, -, ran⟩ := portFails_eq s port code next
  have isUid := State.job?_uid found
  have ends : u.failShips port = u.failJob' j.uid stLink := by
    have list : u.shipJobs port = s.shipJobs port := by rw [State.shipJobs, State.shipJobs, jobs]
    obtain ⟨k, alone, rfl⟩ := List.map_eq_singleton_iff.1 only
    rw [State.failShips, list, alone, isUid]
    rfl
  have waits := failJob'_recordWaits (hr.of_eq jobs qps) (st := stLink) (by decide)
  rw [← ends] at waits
  rw [ran, State.linkRecord]
  have kept := raise_keeps_rest (u.failShips port) (0x51 + port) 6 0xE none 0 code
  obtain ⟨c, waiting, fields⟩ := waits
  refine ⟨c, ?_, ?_⟩
  · rwa [kept.qp_eq rfl]
  · rwa [kept.now_eq rfl]

/-! ## Replays (R335) -/

/-- A frame that is sent again. -/
def PPort.resend (dir : Nat) (p : PPort) (f : Frame) : PPort :=
  if ctrLimit ≤ p.txCtr then p else
    { p.leave dir (p.seal f) with
      txCtr := p.txCtr + 1, retry := p.retry.map fun (h : Frame) => if h.seq == (p.seal f).seq then p.seal f else h }

theorem replay_eq {dir now : Nat} (some_ : p.retry ≠ []) (few : p.replays < 16) (unlocked : p.state ≠ .locked) :
    p.replay dir now = p.retry.foldl (PPort.resend dir) { p with replays := p.replays + 1, lastProgress := now } := by
  rw [PPort.replay, if_neg (by simp [some_, few, unlocked])]
  rfl

theorem resends_all (dir : Nat) (fs : List Frame) (p : PPort) (few : p.txCtr + fs.length ≤ 2 ^ 48) :
    (fs.foldl (PPort.resend dir) p).replays = p.replays ∧ (fs.foldl (PPort.resend dir) p).lastProgress = p.lastProgress ∧
      (fs.foldl (PPort.resend dir) p).sent.length = p.sent.length + fs.length := by
  induction fs generalizing p with
  | nil => exact ⟨rfl, rfl, rfl⟩
  | cons f fs ih =>
    rw [List.length_cons] at few
    have below : ¬ctrLimit ≤ p.txCtr := by
      unfold ctrLimit
      omega
    rw [List.foldl_cons, PPort.resend, if_neg below]
    obtain ⟨replays, progress, sent⟩ := ih { p.leave dir (p.seal f) with
      txCtr := p.txCtr + 1, retry := p.retry.map fun (h : Frame) => if h.seq == (p.seal f).seq then p.seal f else h }
      (show p.txCtr + 1 + fs.length ≤ 2 ^ 48 by omega)
    refine ⟨replays, progress, sent.trans ?_⟩
    simp only [PPort.leave, List.length_cons]
    omega

/-! ## The lock (R339) -/

/-- The bits of FAULT_STATUS for locked ports. -/
def Faults.locks (q : Faults) : Bool × Bool := (q.portALocked, q.portBLocked)

theorem State.Noted.locks (h : s.Noted t) : t.faults.locks = s.faults.locks := by
  obtain ⟨_, _, _, _, _, _, faults⟩ := h.faults
  rw [faults]
  rfl

/-- A port as it locks. -/
def PPort.lock (p : PPort) : PPort := { p with state := .locked, rekeying := false, ephemeral := none, peerKeyx := none }

def State.noteLock (s : State) (port : Nat) : State :=
  { s with faults := if port = 0 then { s.faults with portALocked := true } else { s.faults with portBLocked := true } }

theorem exec_portLocked (up : (s.pport port).state = .ready) (spent : 2 ^ 48 ≤ (s.pport port).txCtr) :
    exec (.portLocked port) s = .next
      ((((s.modPport port PPort.lock).noteLock port).failShips port).linkRecord port 7 0x12 0) := by
  change execPortLocked port s = _
  have due : ((s.pport port).state == .ready && decide (ctrLimit ≤ (s.pport port).txCtr)) = true := by
    have over' : ctrLimit ≤ (s.pport port).txCtr := spent
    simp [up, over']
  simp only [execPortLocked, due, if_true]
  rfl

theorem answers_portLocked (hn : port < s.passage.ports.length) (up : (s.pport port).state = .ready)
    (spent : 2 ^ 48 ≤ (s.pport port).txCtr) :
    answers (.portLocked port) s fun u => (u.pport port).state = .locked ∧ (u.pport port).rekeying = false ∧
      u.reported (0x51 + port) 7 ∧ (if port = 0 then u.faults.portALocked else u.faults.portBLocked) = true := by
  have ports : ((((s.modPport port PPort.lock).noteLock port).failShips port).linkRecord port 7 0x12 0).pport port =
      (s.pport port).lock := by
    rw [State.linkRecord, pport_congr ((raise_keeps_rest ..).passage_eq rfl), pport_congr (failShips_passage ..)]
    exact State.pport_modPport_same s _ hn
  refine answers_of (exec_portLocked up spent) ⟨by rw [ports]; rfl, by rw [ports]; rfl, raise_reported .., ?_⟩
  have locks := ((failShips_noted ((s.modPport port PPort.lock).noteLock port) port).trans
    (raise_noted _ (0x51 + port) 7 0x12 none 0 0)).locks
  rw [Faults.locks, Faults.locks, Prod.mk.injEq] at locks
  obtain ⟨a, b⟩ := locks
  by_cases first : port = 0
  · rw [if_pos first]
    exact a.trans (by simp [State.noteLock, first])
  · rw [if_neg first]
    exact b.trans (by simp [State.noteLock, first])

/-- Both VCs' credits as a CREDIT frame carries them (R334). -/
def PPort.owedWord (p : PPort) : Nat := p.owed.getD 0 0 % 2 ^ 16 + 2 ^ 16 * (p.owed.getD 1 0 % 2 ^ 16)

theorem owedWord_field (p : PPort) : fieldAt (leBytes 4 p.owedWord ++ leBytes 12 0) 0 4 = p.owedWord := by
  rw [fieldAt, List.drop_zero, List.take_left' (leBytes_length ..), leNat_leBytes]
  unfold PPort.owedWord
  omega

/-- Settles O38: each command is one change of its port, a frame that leaves it, or its failing. -/
theorem passagePortUpkeep : Obligations.PassagePortUpkeep := by
  unfold Obligations.PassagePortUpkeep
  refine ⟨fun port s hn enabled down sp alive unlocked => ?up, fun port s hn up => ?phy, fun port uid j s up found hr only => ?jobs,
    fun port s some_ due live few hn room => ?replay, fun port s hn live owes due few => ?ack,
    fun port s hn live owes due few => ?credit, fun port s progress acked few told => ?early,
    fun port s hn up still spent => ?rekey, fun port s small hn up spent => answers_portLocked hn up spent,
    fun port s hn keying up due => ?retry, fun port s hn reaches keyed => ?ordered, fun port s hn reaches up => ?disabled,
    fun port s hn reaches off => ?enabled, fun fn port e s other => ?refused⟩
  case up =>
    have ran : exec (.portLinkUp port) s = .next
        ((s.modPport port fun p => { p.fresh with state := .discovery, hopNs := 0 }).sendPlain port typeDISCOVER
          (leBytes 2 s.passage.id ++ leBytes 1 port ++ leBytes 13 0)) := by
      change execPortLinkUp port s = _
      have due : ((s.pport port).enable && ((s.pport port).state == .down || (s.pport port).state == .training) && s.spKeys &&
          !s.dev.shutdownDone) = true := by
        rcases down with down | down <;> simp [enabled, down, State.spKeys, sp, alive]
      simp only [execPortLinkUp, due, if_true]
    refine answers_of ran ?_
    have hn' : port < (s.modPport port fun p => { p.fresh with state := .discovery, hopNs := 0 }).passage.ports.length := by
      simpa using hn
    rw [State.sendPlain, if_neg (by decide), State.pport_modPport_same _ _ hn', State.pport_modPport_same s _ hn]
    split
    · exact ⟨rfl, rfl, rfl, rfl, rfl, rfl, le_rfl⟩
    · exact ⟨rfl, rfl, rfl, rfl, rfl, rfl, Nat.le_succ _⟩
  case phy =>
    have ran : exec (.portDown port .phy) s = .next (s.portFails port 0 .training) := by
      change execPortDown port .phy s = _
      simp [execPortDown, up]
    obtain ⟨⟨p, here, -, events⟩, recorded⟩ := portFails_port hn 0 .training
    refine answers_of ran ⟨by rw [here]; rfl, ?_, by rw [here]; rfl, by rw [here]; rfl, recorded⟩
    rw [here, ← events]
    rfl
  case jobs =>
    have ran : exec (.portDown port .phy) s = .next (s.portFails port 0 .training) := by
      change execPortDown port .phy s = _
      simp [execPortDown, up]
    exact answers_of ran (portFails_recordWaits found hr only 0 .training)
  case replay =>
    have ran : exec (.replayTimeout port) s = .next (s.modPport port fun p => p.replay (s.linkDir port) s.now) := by
      change execReplayTimeout port s = _
      simp [execReplayTimeout, some_, due, live]
    refine answers_of ran ?_
    rw [State.pport_modPport_same s _ hn, replay_eq some_ few (live_unlocked live)]
    exact resends_all _ _ { s.pport port with replays := (s.pport port).replays + 1, lastProgress := s.now } room
  case ack =>
    have ran : exec (.ackTimer port) s = .next ((s.sendPlain port typeACK []).modPport port fun p =>
        { p with unacked := 0, lastAck := s.now }) := by
      change execAckTimer port s = _
      simp [execAckTimer, live, owes, due]
    refine answers_of ran ?_
    rw [State.pport_modPport_same _ _ (by rwa [sendPlain_ports]), sendPlain_leaves hn [] (by decide) (live_unlocked live) few]
    exact ⟨rfl, rfl, _, rfl, rfl, rfl, rfl⟩
  case credit =>
    have ran : exec (.creditTimer port) s = .next
        ((s.sendPlain port typeCREDIT (leBytes 4 (s.pport port).owedWord ++ leBytes 12 0)).modPport port fun p =>
          { p with told := p.owed, lastCredit := s.now }) := by
      change execCreditTimer port s = _
      simp [execCreditTimer, live, owes, due]
      rfl
    refine answers_of ran ?_
    rw [State.pport_modPport_same _ _ (by rwa [sendPlain_ports]), sendPlain_leaves hn _ (by decide) (live_unlocked live) few]
    exact ⟨rfl, rfl, _, rfl, rfl, owedWord_field _⟩
  case early =>
    refine ⟨?_, ?_, ?_⟩
    · change execReplayTimeout port s = _
      simp [execReplayTimeout, progress.not_ge]
    · change execAckTimer port s = _
      simp [execAckTimer, acked.not_ge, few.not_ge]
    · change execCreditTimer port s = _
      simp [execCreditTimer, told.not_ge]
  case rekey =>
    have ran : exec (.rekeyThreshold port) s = .next (s.startKeyx port) := by
      change execRekeyThreshold port s = _
      simp only [execRekeyThreshold, up, still, spent, BEq.rfl, Bool.not_false, Bool.and_self, decide_true, if_true]
    exact answers_of ran (startKeyx_begins hn)
  case retry =>
    have ran : exec (.keyxRetry port) s = .next (s.startKeyx port) := by
      change execKeyxRetry port s = _
      have due' : (s.pport port).lastKeyx + 100 * msTicks ≤ s.now := due
      rcases keying with keying | keying <;> simp [execKeyxRetry, keying, up, due']
    obtain ⟨rekeying, last, -⟩ := startKeyx_begins hn
    exact answers_of ran ⟨last, rekeying⟩
  case ordered =>
    have ran : exec (.passageRekey .pf port) s = .next (s.startKeyx port) := by
      change execPassageRekey .pf port s = _
      rcases keyed with keyed | keyed <;> simp [execPassageRekey, reaches, State.rekeyPort, keyed]
    obtain ⟨rekeying, last, -⟩ := startKeyx_begins hn
    exact answers_of ran ⟨rekeying, last⟩
  case disabled =>
    have ran : exec (.passageEnable .pf port false) s = .next
        ((s.modPport port fun p => { p with enable := false }).portFails port 2 .disabled) := by
      change execPassageEnable .pf port false s = _
      simp only [PPort.isUp, Bool.not_eq_true', Bool.or_eq_false_iff] at up
      simp [execPassageEnable, reaches, State.enablePort, up]
    obtain ⟨⟨p, here, enable, -⟩, recorded⟩ := portFails_port (s := s.modPport port fun p => { p with enable := false })
      (by simpa using hn) 2 .disabled
    rw [State.pport_modPport_same s _ hn] at enable
    exact answers_of ran ⟨by rw [here]; exact enable, by rw [here]; rfl, recorded⟩
  case enabled =>
    have ran : exec (.passageEnable .pf port true) s = .next
        ((s.modPport port fun p => { p with enable := true }).modPport port fun p => { p with state := .training }) := by
      change execPassageEnable .pf port true s = _
      simp [execPassageEnable, reaches, State.enablePort, off]
    refine answers_of ran ?_
    rw [State.pport_modPport_same _ _ (by simpa using hn), State.pport_modPport_same s _ hn]
    exact ⟨rfl, rfl⟩
  case refused =>
    constructor
    · change execPassageRekey fn port s = _
      simp [execPassageRekey, other]
    · change execPassageEnable fn port e s = _
      simp [execPassageEnable, other]

end Sys2Proof.Machine
end

section
/-! SUPPORT. Queue pairs that are disabled, and jobs that end without a record (R17, R38, R305, R319). -/

namespace Sys2Proof.Machine

variable {s t u : State} {n m uid : Nat} {j k : Job}

/-! ## Disabled queue pairs (R17) -/

/-- A queue pair once the device has disabled it. -/
def Qp.off (q : Qp) : Qp :=
  { q with enabled := false, anns := [], waiting := [], unsignalled := 0, unsignalledSince := none, refuse := 0 }

theorem disableQp_qp (s : State) (n m : Nat) : (s.disableQp n true).qp m = if n = m then (s.qp m).off else s.qp m := by
  have same (m : Nat) : (s.disableQp n true).qp m = _ := congrArg (·.getD m Qp.reset) (disableQp_qps n true)
  rw [same]
  by_cases hm : n = m
  · subst hm
    rw [if_pos rfl]
    by_cases hn : n < s.qps.length
    · exact State.qp_modQp_same s _ hn
    · have out : s.qp n = Qp.reset := List.getD_eq_default _ _ (by omega)
      rw [State.modQp_qps, List.modify_eq_self (by omega), out]
      exact out
  · rw [if_neg hm]
    exact State.qp_modQp_other s _ hm

theorem disableQps_qp (ns : List Nat) (s : State) (m : Nat) :
    (ns.foldl (fun s n => s.disableQp n true) s).qp m = if m ∈ ns then (s.qp m).off else s.qp m := by
  induction ns generalizing s with
  | nil => simp
  | cons n ns ih =>
    rw [List.foldl_cons, ih, disableQp_qp]
    by_cases same : n = m
    · subst same
      by_cases again : n ∈ ns <;> simp [again, Qp.off]
    · simp [same, Ne.symm same]

theorem disableQps_keeps (ns : List Nat) (s : State) :
    Keeps ⟨Touch.nothing.qps.jobs.counters.ctrBlocks, s⟩ (ns.foldl (fun s n => s.disableQp n true) s) :=
  keepsFold (Q := Keeps _) (Keeps.refl _ s) fun _ _ h => disableQp_keeps (Touch.Le.refl _) h

/-! ## The end without a record (R38) -/

/-- A job while its withdrawal goes on, which will have no record. -/
def Job.silenced (j : Job) : Job := { j with state := .cancelling, ending := some .silent, silent := true }

theorem endSilently_eq (s : State) (j : Job) : s.endSilently j =
    if j.finished then ((s.withdraw j.uid).retireJob j)
    else if ((s.abortPeer j.uid).withdraw j.uid).stillOut j.uid then
      ((s.abortPeer j.uid).withdraw j.uid).modJob j.uid fun _ => j.silenced
    else (((s.abortPeer j.uid).withdraw j.uid).cancelEffects j.silenced).finishJob j.silenced noResult := by
  unfold State.endSilently
  split <;> rfl

theorem finishJob_silenced (s : State) (j : Job) :
    ∃ t, Keeps ⟨Touch.nothing.engines.kvs.slots, s⟩ t ∧ s.finishJob j.silenced noResult = t.retireJob j.silenced :=
  finishJob_unrecorded (.inl rfl) noResult

theorem abortPeer_keeps_rest (s : State) (uid : Nat) : Keeps ⟨Touch.nothing.passage, s⟩ (s.abortPeer uid) :=
  abortPeer_keeps (Touch.Le.refl _) (Keeps.refl _ s)

theorem withdraw_keeps_rest (s : State) (uid : Nat) :
    Keeps ⟨Touch.nothing.engines.merges.moves.echo.vision.flash.siphon.sec, s⟩ (s.withdraw uid) :=
  withdraw_keeps (Touch.Le.refl _) (Keeps.refl _ s)

theorem cancelEffects_keeps_rest (s : State) (j : Job) :
    Keeps ⟨Touch.nothing.free.parts.kvs.seqs.mems.dram.flash.record, s⟩ (s.cancelEffects j) :=
  cancelEffects_keeps (Touch.Le.refl _) (Keeps.refl _ s)

theorem retireJob_keeps_rest (s : State) (j : Job) : Keeps ⟨Touch.nothing.jobs.counters.ctrBlocks, s⟩ (s.retireJob j) :=
  retireJob_keeps (Touch.Le.refl _) (Keeps.refl _ s)

theorem endSilently_qps (s : State) (j : Job) : (s.endSilently j).qps = s.qps := by
  have withdrawn : ((s.abortPeer j.uid).withdraw j.uid).qps = s.qps := by
    rw [(withdraw_keeps_rest ..).qps_eq rfl, (abortPeer_keeps_rest ..).qps_eq rfl]
  rw [endSilently_eq]
  split
  · rw [(retireJob_keeps_rest ..).qps_eq rfl, (withdraw_keeps_rest ..).qps_eq rfl]
  split
  · exact withdrawn
  · obtain ⟨t, kept, ended⟩ := finishJob_silenced (((s.abortPeer j.uid).withdraw j.uid).cancelEffects j.silenced) j
    rw [ended, (retireJob_keeps_rest ..).qps_eq rfl, kept.qps_eq rfl, (cancelEffects_keeps_rest ..).qps_eq rfl, withdrawn]

theorem endSilently_noted (s : State) (j : Job) : s.Noted (s.endSilently j) := by
  have withdrawn : s.Noted ((s.abortPeer j.uid).withdraw j.uid) :=
    (.of_keeps (abortPeer_keeps_rest s j.uid) rfl rfl rfl rfl : s.Noted (s.abortPeer j.uid)).trans (withdraw_noted ..)
  rw [endSilently_eq]
  split
  · exact (withdraw_noted s j.uid).trans (.of_keeps (retireJob_keeps_rest ..) rfl rfl rfl rfl)
  split
  · exact withdrawn.trans (.of_eq rfl rfl rfl fun _ => ⟨_, rfl⟩)
  · exact (withdrawn.trans (cancelEffects_noted ..)).trans (finishJob_noted ..)

theorem endSilentlys_qps (js : List Job) (s : State) : (js.foldl State.endSilently s).qps = s.qps :=
  keepsFold (Q := fun t : State => t.qps = s.qps) rfl fun _ _ h => (endSilently_qps ..).trans h

theorem endSilentlys_noted (js : List Job) (s : State) : s.Noted (js.foldl State.endSilently s) :=
  keepsFold (Q := s.Noted) (.refl s) fun _ _ h => h.trans (endSilently_noted ..)

/-! ## Work that has not ended yet (R305, R319) -/

theorem stillOut_congr (dies : t.flash.dies = s.flash.dies) (siphon : t.siphon = s.siphon) (n : Nat) :
    t.stillOut n = s.stillOut n := by
  rw [State.stillOut, State.stillOut, State.xferOut, State.xferOut, dies, siphon]

/-- A channel awaits responses for a transfer that `mine` names. -/
def SChan.out (mine : Xfer → Bool) (c : SChan) : Bool := c.active.any mine || c.draining.any mine

theorem settle_draining (c : SChan) : c.settle.draining = c.draining := by
  unfold SChan.settle
  extract_lets a b
  have first : a.draining = c.draining := by unfold a; split <;> rfl
  have second : b.draining = c.draining := by rw [← first]; unfold b; split <;> rfl
  rw [← second]
  split <;> rfl

theorem settle_active {c : SChan} {x : Xfer} (h : c.active = some x) : c.settle.active = some x := by
  unfold SChan.settle
  simp only [h, Option.isNone_some, Bool.false_eq_true, if_false]
  split
  · rfl
  · exact h

theorem promote_out {mine : Xfer → Bool} {c : SChan} (h : c.out mine = true) : c.promote.out mine = true := by
  unfold SChan.promote
  cases active : c.active with
  | none =>
    simp only [SChan.out, active, Option.any_none, Bool.false_or] at h
    simp only [SChan.out, settle_draining, h, Bool.or_true]
  | some x =>
    cases draining : c.draining with
    | none =>
      simp only [SChan.out, active, draining, Option.any_some, Option.any_none, Bool.or_false] at h
      simp only
      split
      · simp only [SChan.out, settle_draining, Option.any_some, h, Bool.or_true]
      · simp only [SChan.out, settle_active active, Option.any_some, h, Bool.true_or]
    | some d =>
      simp only [SChan.out, settle_active active, settle_draining, draining]
      simpa only [SChan.out, active, draining] using h

theorem withdraw_out {mine gone : Xfer → Bool} (apart : ∀ x, mine x = true → gone x = false) {c : SChan}
    (h : c.out mine = true) : (c.withdraw gone).out mine = true := by
  unfold SChan.withdraw
  refine promote_out ?_
  rw [SChan.out, Bool.or_eq_true] at h ⊢
  refine h.imp (fun active => ?_) id
  obtain ⟨x, here, isMine⟩ := (Option.any_eq_true _ _).1 active
  simp [here, isMine, apart x isMine, Option.filter]

/-- The withdrawal of one job leaves what another still has to do. -/
theorem withdraw_stillOut (other : n ≠ uid) (h : s.stillOut n = true) : (s.withdraw uid).stillOut n = true := by
  have chans : (s.withdraw uid).siphon.chans = s.siphon.chans.map (SChan.withdraw (Xfer.isOf uid)) := by
    unfold State.withdraw
    extract_lets a b
    split <;> rfl
  have dies : (s.withdraw uid).flash.dies = s.flash.dies.map fun d =>
      { d with ops := d.ops.filter fun o => o.uid != uid || d.running o } := by
    unfold State.withdraw
    extract_lets a b
    split <;> rfl
  rw [State.stillOut, Bool.or_eq_true, State.xferOut, chans, dies]
  rw [State.stillOut, Bool.or_eq_true, State.xferOut] at h
  refine h.imp (fun ops => ?_) fun xfers => ?_
  · obtain ⟨d, hd, op⟩ := List.any_eq_true.1 ops
    obtain ⟨o, ho, mine⟩ := List.any_eq_true.1 op
    rw [beq_iff_eq] at mine
    refine List.any_eq_true.2 ⟨_, List.mem_map_of_mem hd, List.any_eq_true.2 ⟨o, List.mem_filter.2 ⟨ho, ?_⟩, by simp [mine]⟩⟩
    simp [mine, other]
  · obtain ⟨c, hc, out⟩ := List.any_eq_true.1 xfers
    refine List.any_eq_true.2 ⟨_, List.mem_map_of_mem hc, withdraw_out (fun x isMine => ?_) out⟩
    simp only [Xfer.isOf, Bool.and_eq_true, beq_iff_eq] at isMine
    simp [Xfer.isOf, isMine, other]

theorem cancelEffects_dies (s : State) (j : Job) : (s.cancelEffects j).flash.dies = s.flash.dies := by
  unfold State.cancelEffects
  extract_lets out patches undone
  have first : patches.flash = s.flash := by
    have scrambled : out.flash = s.flash := (scrambleOut_keeps (Touch.Le.refl _) (Keeps.refl _ s)).flash_eq rfl
    unfold patches
    split
    · rw [(scramblePatches_keeps (Touch.Le.refl _) (Keeps.refl _ out)).flash_eq rfl, scrambled]
    · exact scrambled
  have second : undone.flash = s.flash := by
    unfold undone
    split
    · rw [(undoAppends_keeps (Touch.Le.refl _) (Keeps.refl _ patches)).flash_eq rfl, first]
    · exact first
  split
  · refine keepsFold (Q := fun t : State => t.flash.dies = s.flash.dies) (by rw [second]) fun t e h => ?_
    rw [(restoreEnt_keeps (Touch.Le.refl _) (Keeps.refl _ t)).flash_eq rfl, h]
  · split
    · exact (congrArg Flash.dies second : undone.flash.dies = s.flash.dies)
    · rw [second]
  · rw [second]

end Sys2Proof.Machine
end

section
/-! SUPPORT. The loss of the host link, and the reset of a function (R17, R38, R326, R331). -/

namespace Sys2Proof.Machine

variable {s t u : State} {n m v uid : Nat} {j k : Job}

/-! ## What is left of the jobs of a function (R38) -/

/-- Of the job only work that is ending is left, and no record will be written for it. -/
def State.Ending (s : State) (j : Job) : Prop := j.silent = true ∧ j.state = .cancelling ∧ s.stillOut j.uid = true

theorem retireJob_list (s : State) (j : Job) : (s.retireJob j).jobs.list = s.jobs.list.filter fun k => k.uid != j.uid := by
  unfold State.retireJob
  extract_lets t
  split <;> rfl

/-- A job that ends silently is gone, or is replaced by what is left of it. -/
theorem endSilently_jobs (s : State) (j : Job) :
    (s.endSilently j).jobs.list = s.jobs.list.filter (fun k => k.uid != j.uid) ∨
      ((s.endSilently j).stillOut j.uid = true ∧
        (s.endSilently j).jobs.list = s.jobs.list.map fun k => if k.uid == j.uid then j.silenced else k) := by
  have withdrawn : ((s.abortPeer j.uid).withdraw j.uid).jobs = s.jobs := by
    rw [(withdraw_keeps_rest ..).jobs_eq rfl, (abortPeer_keeps_rest ..).jobs_eq rfl]
  rw [endSilently_eq]
  split
  · rw [retireJob_list, (withdraw_keeps_rest ..).jobs_eq rfl]
    exact .inl rfl
  split
  next out =>
    refine .inr ⟨out, ?_⟩
    rw [State.modJob_jobs, withdrawn]
  next =>
    obtain ⟨t, kept, ended⟩ := finishJob_silenced (((s.abortPeer j.uid).withdraw j.uid).cancelEffects j.silenced) j
    rw [ended, retireJob_list, kept.jobs_eq rfl, (cancelEffects_keeps_rest ..).jobs_eq rfl, withdrawn]
    exact .inl rfl

/-- What another job still has to do stays. -/
theorem endSilently_stillOut (other : n ≠ j.uid) (h : s.stillOut n = true) : (s.endSilently j).stillOut n = true := by
  have aborted : (s.abortPeer j.uid).stillOut n = true := by
    have kept := abortPeer_keeps_rest s j.uid
    rwa [stillOut_congr (by rw [kept.flash_eq rfl]) (kept.siphon_eq rfl)]
  rw [endSilently_eq]
  split
  · have kept := retireJob_keeps_rest (s.withdraw j.uid) j
    rw [stillOut_congr (by rw [kept.flash_eq rfl]) (kept.siphon_eq rfl)]
    exact withdraw_stillOut other h
  split
  · exact withdraw_stillOut other aborted
  · have kept := finishJob_keeps (result := noResult) (j := j.silenced) (Touch.Le.refl _)
      (Keeps.refl _ (((s.abortPeer j.uid).withdraw j.uid).cancelEffects j.silenced))
    rw [stillOut_congr (by rw [kept.flash_eq rfl]) (kept.siphon_eq rfl),
      stillOut_congr (cancelEffects_dies ..) ((cancelEffects_keeps_rest ..).siphon_eq rfl)]
    exact withdraw_stillOut other aborted

/-- Once every job of a list has ended silently, those of partition `v` have only ending work left. -/
theorem endSilentlys_ending (js : List Job) (s : State)
    (listed : ∀ k ∈ s.jobs.list, k.part = v → s.Ending k ∨ ∃ l ∈ js, l.uid = k.uid) :
    ∀ k ∈ (js.foldl State.endSilently s).jobs.list, k.part = v → (js.foldl State.endSilently s).Ending k := by
  induction js generalizing s with
  | nil => exact fun k hk mine => (listed k hk mine).resolve_right fun ⟨l, hl, _⟩ => absurd hl List.not_mem_nil
  | cons j js ih =>
    have others (k : Job) (hk : k ∈ s.jobs.list) (other : k.uid ≠ j.uid) (mine : k.part = v) :
        (s.endSilently j).Ending k ∨ ∃ l ∈ js, l.uid = k.uid := by
      rcases listed k hk mine with ⟨silent, cancelling, out⟩ | ⟨l, hl, same⟩
      · exact .inl ⟨silent, cancelling, endSilently_stillOut other out⟩
      · rcases List.mem_cons.1 hl with rfl | later
        · exact absurd same.symm other
        · exact .inr ⟨l, later, same⟩
    refine ih (s.endSilently j) fun k hk mine => ?_
    rcases endSilently_jobs s j with gone | ⟨out, replaced⟩
    · rw [gone, List.mem_filter] at hk
      exact others k hk.1 (by simpa using hk.2) mine
    · rw [replaced, List.mem_map] at hk
      obtain ⟨l, hl, rfl⟩ := hk
      by_cases same : l.uid = j.uid
      · rw [if_pos (by simpa using same)]
        exact .inl ⟨rfl, rfl, out⟩
      · rw [if_neg (by simpa using same)] at mine ⊢
        exact others l hl same mine

/-! ## FLR of a virtual function (R331) -/

/-- The state of a function reset once its queue pairs are disabled and its jobs have ended. -/
def State.flrEnds (s : State) (v : Nat) : State :=
  let t := (s.qpsOf v).foldl (fun s n => s.disableQp n true) s
  (t.jobs.list.filter fun j => j.part == v).foldl State.endSilently t

/-- A configuration request that is taken shows no retry status (R330). -/
def State.asked (s : State) : State := { s with out := { s.out with cfgRetry := false } }

theorem fnSt_modFn_same {fn : Fn} (f : FnSt → FnSt) (h : ∀ v, fn = .vf v → v < s.link.vfs.length) :
    (s.modFn fn f).fnSt fn = f (s.fnSt fn) := by
  cases fn with
  | pf => rfl
  | vf v => simp [State.modFn, State.fnSt, List.getD_eq_getElem?_getD, h v rfl]

theorem fnSt_modFn_cases (s : State) (fn : Fn) (f : FnSt → FnSt) :
    (s.modFn fn f).fnSt fn = s.fnSt fn ∨ (s.modFn fn f).fnSt fn = f (s.fnSt fn) := by
  cases fn with
  | pf => exact .inr rfl
  | vf v =>
    by_cases hv : v < s.link.vfs.length
    · exact .inr (fnSt_modFn_same f fun w same => Fn.vf.inj same ▸ hv)
    · refine .inl ?_
      simp only [State.modFn, State.fnSt, List.modify_eq_self (Nat.not_lt.1 hv)]

theorem configure_reaches {fn : Fn} (h : s.reaches fn = true) (f : State → State) :
    s.configure fn f = f s.asked := by
  simp only [State.reaches, Bool.and_eq_true, Bool.not_eq_true'] at h
  obtain ⟨⟨⟨up, ready⟩, -⟩, has⟩ := h
  simp [State.configure, State.asked, up, ready, has]

theorem mem_qpsOf : n ∈ s.qpsOf v ↔ n < 64 ∧ (s.qp n).part = v := by simp [State.qpsOf]

theorem flrEnds_qp (s : State) (v n : Nat) : (s.flrEnds v).qp n = if n ∈ s.qpsOf v then (s.qp n).off else s.qp n := by
  unfold State.flrEnds
  extract_lets t
  rw [State.qp, endSilentlys_qps, ← State.qp]
  exact disableQps_qp ..

theorem flrEnds_noted (s : State) (v : Nat) : s.Noted (s.flrEnds v) :=
  (State.Noted.of_keeps (disableQps_keeps (s.qpsOf v) s) rfl rfl rfl rfl).trans (endSilentlys_noted ..)

theorem flrEnds_ending (s : State) (v : Nat) : ∀ k ∈ (s.flrEnds v).jobs.list, k.part = v → (s.flrEnds v).Ending k := by
  unfold State.flrEnds
  extract_lets t
  exact endSilentlys_ending _ t fun k hk mine => .inr ⟨k, List.mem_filter.2 ⟨hk, by simpa using mine⟩, rfl⟩

theorem shaped_vfs (h : s.shaped = true) : s.link.vfs.length = 8 := by
  simp only [State.shaped, Bool.and_eq_true, beq_iff_eq] at h
  omega

/-- The function's table is masked, and its stream insecure. -/
def State.flrMasked (s : State) (v : Nat) : State :=
  (s.modFn (.vf v) fun f => { f with masked := List.range 8 }).setIde v false

theorem exec_flrVf (h : s.reaches (.vf v) = true) :
    exec (.flrVf v) s = .next ((s.asked.flrEnds v).flrMasked v) := by
  have still : s.asked.reaches (.vf v) = true := h
  change execFlrVf v s = _
  rw [execFlrVf, configure_reaches h, if_pos still]
  rfl

theorem set_false_getD (l : List Bool) (n : Nat) : (l.set n false).getD n false = false := by
  rw [List.getD_eq_getElem?_getD, List.getElem?_set_self']
  cases l[n]? <;> rfl

theorem flrVf_answers (shaped : s.shaped = true) (hv : v < 8) (h : s.reaches (.vf v) = true) :
    answers (.flrVf v) s fun u => (∀ n, n < 64 → (s.qp n).part = v → (u.qp n).enabled = false) ∧
      (∀ j ∈ u.jobs.list, j.part = v → j.silent = true ∧ j.state = .cancelling ∧ u.stillOut j.uid = true) ∧
      (u.fnSt (.vf v)).masked = List.range 8 ∧ u.link.ide.getD v false = false := by
  refine answers_of (exec_flrVf h) ⟨fun n hn mine => ?_, fun j hj mine => ?_, ?_, ?_⟩
  · have off := flrEnds_qp s.asked v n
    rw [if_pos (mem_qpsOf.2 ⟨hn, mine⟩ : n ∈ s.asked.qpsOf v)] at off
    exact congrArg Qp.enabled off
  · exact flrEnds_ending _ v j hj mine
  · obtain ⟨pend, link⟩ := (flrEnds_noted s.asked v).link
    have functions : v < (s.asked.flrEnds v).link.vfs.length := by
      rw [link, State.asked, shaped_vfs shaped]
      exact hv
    exact congrArg FnSt.masked (fnSt_modFn_same (fn := .vf v) (fun f : FnSt => { f with masked := List.range 8 })
      fun w same => Fn.vf.inj same ▸ functions)
  · exact set_false_getD _ v

/-! ## The link (R326, R331) -/

/-- The pending messages that a function may send (R326). -/
def State.toSend (s : State) (fn : Fn) : List Nat := (s.fnSt fn).pending.filter (s.fnSt fn).sendable

/-- What a function keeps once its messages have left. -/
def FnSt.sent (go : List Nat) (f : FnSt) : FnSt := { f with pending := f.pending.filter fun e => !go.contains e }

def State.withSent (s : State) (fn : Fn) (go : List Nat) : State :=
  { s with out := { s.out with msix := go.map (fun e => (fn, e)) ++ s.out.msix } }

theorem flushMsix_up (up : s.linkUp = true) (fn : Fn) :
    s.flushMsix fn = (s.withSent fn (s.toSend fn)).modFn fn (FnSt.sent (s.toSend fn)) := by
  rw [State.flushMsix, if_pos up]
  rfl

theorem flushMsix_down (down : s.linkUp = false) (fn : Fn) : s.flushMsix fn = s := by
  rw [State.flushMsix, if_neg (by simp [down])]

theorem modFn_out (s : State) (fn : Fn) (f : FnSt → FnSt) : (s.modFn fn f).out = s.out := by cases fn <;> rfl

theorem flushMsix_link (s : State) (fn : Fn) : ∃ pf vfs, (s.flushMsix fn).link = { s.link with pf := pf, vfs := vfs } := by
  by_cases up : s.linkUp = true
  · rw [flushMsix_up up]
    cases fn <;> exact ⟨_, _, rfl⟩
  · rw [flushMsix_down (by simpa using up)]
    exact ⟨_, _, rfl⟩

/-- A message that may be sent has been. -/
theorem flushMsix_sends {fn : Fn} {e : Nat} (up : s.linkUp = true) (go : e ∈ s.toSend fn) : (fn, e) ∈ (s.flushMsix fn).out.msix := by
  rw [flushMsix_up up, modFn_out]
  exact List.mem_append_left _ (List.mem_map_of_mem go)

/-- A message stays sent, or still to be sent, when the pending ones are sent. -/
theorem flushMsix_signalled {fn : Fn} {e : Nat} (h : s.signalled fn e) : (s.flushMsix fn).signalled fn e := by
  by_cases up : s.linkUp = true
  · by_cases go : e ∈ s.toSend fn
    · exact .inl (flushMsix_sends up go)
    rw [flushMsix_up up]
    rcases h with sent | pending
    · refine .inl ?_
      rw [modFn_out]
      exact List.mem_append_right _ sent
    · refine .inr ?_
      have pending' : e ∈ ((s.withSent fn (s.toSend fn)).fnSt fn).pending := by
        cases fn <;> exact pending
      rcases fnSt_modFn_cases (s.withSent fn (s.toSend fn)) fn (FnSt.sent (s.toSend fn)) with same | same <;> rw [same]
      · exact pending'
      · exact List.mem_filter.2 ⟨pending', by simpa using go⟩
  · rwa [flushMsix_down (by simpa using up)]

/-- The link as it is trained. -/
def State.linked (s : State) : State :=
  { s with link := { s.link with up := true, fnReady := s.dev.stage != Stage.selfTest, cfg := s.link.cfg.trained s.free } }

theorem answers_linkTrained (alive : s.alive = true) (released : s.link.perst = false) (down : s.link.up = false) :
    answers .linkTrained s fun u => u.link.up = true ∧ u.link.fnReady = (s.dev.stage != .selfTest) ∧ u.signalled .pf 63 := by
  have ran : exec .linkTrained s = .next ((s.linked.drawFree.drawFree.raiseMsix .pf 63).flushMsix .pf) := by
    change execLinkTrained s = _
    simp [execLinkTrained, State.linked, alive, released, down]
  obtain ⟨pend, raised⟩ := (raiseMsix_noted s.linked.drawFree.drawFree 63).link
  obtain ⟨pf, vfs, flushed⟩ := flushMsix_link (s.linked.drawFree.drawFree.raiseMsix .pf 63) .pf
  refine answers_of ran ⟨by rw [flushed, raised]; rfl, by rw [flushed, raised]; rfl, flushMsix_signalled ?_⟩
  exact raiseMsix_signalled fun v other => nomatch other

/-- The loss of the link as it is noted, and the queue pairs disabled. -/
def State.linkGone (s : State) : State :=
  { s with link := { s.link with up := false, lost := true }, dev := { s.dev with linkLost := true, noTake := true } }.disableAllQps

theorem endAllJobs_qps (s : State) : s.endAllJobs.qps = s.qps := endSilentlys_qps _ s

theorem endAllJobs_noted (s : State) : s.Noted s.endAllJobs := endSilentlys_noted _ s

theorem disableAllQps_qp (s : State) (n : Nat) : s.disableAllQps.qp n = if n < 64 then (s.qp n).off else s.qp n := by
  exact (disableQps_qp (List.range 64) s n).trans (by simp only [List.mem_range])

theorem disableAllQps_keeps_rest (s : State) : Keeps ⟨Touch.nothing.qps.jobs.counters.ctrBlocks, s⟩ s.disableAllQps :=
  disableQps_keeps _ s

theorem answers_linkLoss (alive : s.alive = true) (up : s.link.up = true) :
    answers .linkLoss s fun u => u.link.up = false ∧ u.link.lost = true ∧ u.dev.noTake = true ∧
      ∀ n, n < 64 → (u.qp n).enabled = false ∧ (u.qp n).waiting = [] := by
  have ran : exec .linkLoss s = .next (s.linkGone.endAllJobs.raiseMsix .pf 63) := by
    change execLinkLoss s = _
    simp only [execLinkLoss, alive, up, Bool.and_self, if_true]
    rfl
  have gone : Keeps _ s.linkGone := disableAllQps_keeps_rest _
  obtain ⟨pend, link⟩ := ((endAllJobs_noted s.linkGone).trans (raiseMsix_noted s.linkGone.endAllJobs 63)).link
  have ended : Keeps ⟨Touch.nothing.jobEnd.passage, s.linkGone⟩ s.linkGone.endAllJobs :=
    endAllJobs_keeps (Touch.Le.refl _) (Keeps.refl _ _)
  have raised : Keeps ⟨Touch.nothing.link.out, s.linkGone.endAllJobs⟩ (s.linkGone.endAllJobs.raiseMsix .pf 63) :=
    raiseMsix_keeps (Touch.Le.refl _) (Keeps.refl _ _)
  refine answers_of ran ⟨?_, ?_, ?_, fun n hn => ?_⟩
  · rw [link, gone.link_eq rfl]
  · rw [link, gone.link_eq rfl]
  · rw [raised.dev_eq rfl, ended.dev_eq rfl, gone.dev_eq rfl]
  · rw [raised.qp_eq rfl, State.qp, endAllJobs_qps, ← State.qp, State.linkGone, disableAllQps_qp, if_pos hn]
    exact ⟨rfl, rfl⟩

end Sys2Proof.Machine
end

section
/-! SUPPORT. Accesses to BAR4 (R324, R270): the pieces of an access, what it reads and what it writes. -/

namespace Sys2Proof.Machine

variable {s t u : State} {fn : Fn} {offset len : Nat} {met : Bar4Met} {ps : List (Nat × Nat)}

/-! ## The pieces of an access -/

/-- Where piece `i` begins and ends in the window. -/
def pieceLo (o i : Nat) : Nat := max o ((o / granuleBytes + i) * granuleBytes)
def pieceHi (o len i : Nat) : Nat := min (o + len) ((o / granuleBytes + i + 1) * granuleBytes)

/-- How many granules of the window an access reaches. -/
def pieceCount (o len : Nat) : Nat := (o + len - 1) / granuleBytes + 1 - o / granuleBytes

theorem foldr_collect {α : Type} (l : List (Option α)) (ps : List α)
    (h : l.foldr (fun x l => x.bind fun p => l.map fun ps => p :: ps) (some []) = some ps) : l = ps.map some := by
  induction l generalizing ps with
  | nil => cases h; rfl
  | cons x l ih =>
    obtain ⟨p, rfl, rest⟩ := Option.bind_eq_some_iff.1 h
    obtain ⟨qs, further, rfl⟩ := Option.map_eq_some_iff.1 rest
    rw [ih qs further, List.map_cons]

/-- The lengths of an access's pieces. -/
theorem bar4Target_lengths {ide : Bool} (h : s.bar4Target fn offset len ide = some ps) :
    ps.map Prod.snd = (List.range (pieceCount offset len)).map fun i => pieceHi offset len i - pieceLo offset i := by
  have pieces := foldr_collect _ _ h
  have length : (List.range (pieceCount offset len)).length = ps.length := by
    simpa [pieceCount] using congrArg List.length pieces
  refine List.ext_getElem (by simp [length]) fun i hi hi' => ?_
  have at_ := congrArg (·[i]?) pieces
  have inside : i < ps.length := by simpa using hi
  have inside' : i < pieceCount offset len := by simpa using hi'
  rw [pieceCount] at inside'
  simp only [List.getElem?_map, List.getElem?_range inside', List.getElem?_eq_getElem inside, Option.map_some,
    Option.some.injEq, Option.map_eq_some_iff] at at_
  obtain ⟨a, -, same⟩ := at_
  rw [List.getElem_map, List.getElem_map, List.getElem_range, ← same]
  rfl

theorem piece_pos (some_ : 1 ≤ len) {i : Nat} (hi : i < pieceCount offset len) :
    pieceLo offset i < pieceHi offset len i := by
  unfold pieceCount at hi
  unfold pieceLo pieceHi
  unfold granuleBytes at *
  omega

/-- The first pieces reach from the offset to the end of a granule, or of the access. -/
theorem pieces_sum (some_ : 1 ≤ len) (k : Nat) (within : k < pieceCount offset len) :
    ((List.range (k + 1)).map fun i => pieceHi offset len i - pieceLo offset i).sum = pieceHi offset len k - offset := by
  induction k with
  | zero =>
    unfold pieceLo pieceHi granuleBytes
    simp
    omega
  | succ k ih =>
    have before := ih (by omega)
    rw [List.range_succ, List.map_append, List.sum_append, before]
    unfold pieceCount at within
    simp only [pieceLo, pieceHi, List.map_cons, List.map_nil, List.sum_cons, List.sum_nil]
    unfold granuleBytes at *
    omega

/-- The pieces of an access are not empty, and make it up. -/
theorem bar4Target_pieces {ide : Bool} (some_ : 1 ≤ len) (h : s.bar4Target fn offset len ide = some ps) :
    (∀ p ∈ ps, 0 < p.2) ∧ (ps.map Prod.snd).sum = len := by
  have lengths := bar4Target_lengths h
  constructor
  · intro p hp
    have mem := List.mem_map_of_mem (f := Prod.snd) hp
    rw [lengths, List.mem_map] at mem
    obtain ⟨i, hi, same⟩ := mem
    have pos := piece_pos some_ (List.mem_range.1 hi)
    omega
  · obtain ⟨k, hk⟩ : ∃ k, pieceCount offset len = k + 1 := by
      refine ⟨pieceCount offset len - 1, ?_⟩
      unfold pieceCount granuleBytes
      omega
    rw [lengths, hk, pieces_sum some_ k (by omega)]
    unfold pieceCount at hk
    unfold pieceHi
    unfold granuleBytes at *
    omega

/-! ## What a write leaves -/

theorem store_byte_out {a x : Nat} (bs : List Byte) (out : x < a ∨ a + bs.length ≤ x) : (s.store a bs).byte x = s.byte x :=
  (put_byte_out _ bs out).trans (byte_congr (reportWords_keeps_mems ..) x)

theorem store_poisoned (s : State) (a : Nat) (bs : List Byte) :
    (s.store a bs).dram.poisoned = s.dram.poisoned.filter fun w => !covers a bs.length w :=
  congrArg (List.filter _) (reportWords_poisoned ..)

theorem bytesAt_of_bytes {a n : Nat} (h : ∀ x, a ≤ x → x < a + n → t.byte x = s.byte x) : t.bytesAt a n = s.bytesAt a n := by
  rw [State.bytesAt, State.bytesAt, Mem.read_eq, Mem.read_eq]
  refine List.map_congr_left fun i hi => h (a + i) (Nat.le_add_right ..) ?_
  have := List.mem_range.1 hi
  omega

theorem bar4Write_byte_out (ps : List (Nat × Nat)) (bs : List Byte) (s : State) {x : Nat}
    (out : ∀ p ∈ ps, x < p.1 ∨ p.1 + p.2 ≤ x) : (s.bar4Write ps bs).byte x = s.byte x := by
  induction ps generalizing s bs with
  | nil => rfl
  | cons p ps ih =>
    rw [State.bar4Write, ih _ _ fun q hq => out q (List.mem_cons_of_mem _ hq)]
    refine store_byte_out _ ?_
    have short := List.length_take_le p.2 bs
    have here := out p List.mem_cons_self
    omega

/-- Pieces that do not overlap read back what was written. -/
theorem bar4Write_back (ps : List (Nat × Nat)) (bs : List Byte) (s : State) (apart : ps.Pairwise fun p q => disjoint p q = true)
    (whole : (ps.map Prod.snd).sum = bs.length) :
    (ps.flatMap fun p => (s.bar4Write ps bs).bytesAt p.1 p.2) = bs := by
  induction ps generalizing s bs with
  | nil => exact (List.eq_nil_of_length_eq_zero (by simpa using whole.symm)).symm
  | cons p ps ih =>
    obtain ⟨here, later⟩ := List.pairwise_cons.1 apart
    rw [List.map_cons, List.sum_cons] at whole
    have length : (bs.take p.2).length = p.2 := by
      rw [List.length_take]
      omega
    have first : ((s.store p.1 (bs.take p.2)).bar4Write ps (bs.drop p.2)).bytesAt p.1 p.2 = bs.take p.2 := by
      have stored := store_bytesAt s p.1 (bs.take p.2)
      rw [length] at stored
      refine (bytesAt_of_bytes fun x low high => ?_).trans stored
      refine bar4Write_byte_out _ _ _ fun q hq => ?_
      have := here q hq
      simp only [disjoint, Bool.or_eq_true, decide_eq_true_eq] at this
      omega
    have rest := ih (bs.drop p.2) (s.store p.1 (bs.take p.2)) later (by rw [List.length_drop]; omega)
    rw [List.flatMap_cons, State.bar4Write, first, rest, List.take_append_drop]

/-- A poisoned word that no piece covers stays poisoned. -/
theorem bar4Write_poisoned (ps : List (Nat × Nat)) (bs : List Byte) (s : State) {w : Nat} (bad : w ∈ s.dram.poisoned)
    (partly : ∀ p ∈ ps, covers p.1 p.2 w = false) : w ∈ (s.bar4Write ps bs).dram.poisoned := by
  induction ps generalizing s bs with
  | nil => exact bad
  | cons p ps ih =>
    rw [State.bar4Write]
    refine ih _ _ ?_ fun q hq => partly q (List.mem_cons_of_mem _ hq)
    rw [store_poisoned, List.mem_filter]
    refine ⟨bad, ?_⟩
    have short := List.length_take_le p.2 bs
    have here := partly p List.mem_cons_self
    simp only [covers, Bool.and_eq_false_iff, decide_eq_false_iff_not, Bool.not_eq_true'] at here ⊢
    omega

theorem mem_wordsOf {a n w : Nat} (some_ : 0 < n) : w ∈ wordsOf a n ↔ a < 32 * w + 32 ∧ 32 * w < a + n := by
  rw [wordsOf, List.mem_range'_1]
  omega

theorem mem_bar4Words {write : Bool} {w : Nat} :
    w ∈ State.bar4Words ps write ↔ ∃ p ∈ ps, w ∈ wordsOf p.1 p.2 ∧ (write && covers p.1 p.2 w) = false := by
  simp only [State.bar4Words, List.mem_flatMap, List.mem_filter, Bool.not_eq_true']

/-- A word that one of the pieces covers in part is covered by none, where they do not overlap. -/
theorem partly_covered {w : Nat} (pos : ∀ p ∈ ps, 0 < p.2) (apart : ps.Pairwise fun p q => disjoint p q = true)
    (partly : w ∈ State.bar4Words ps true) : ∀ p ∈ ps, covers p.1 p.2 w = false := by
  obtain ⟨p, hp, touched, uncovered⟩ := mem_bar4Words.1 partly
  rw [mem_wordsOf (pos p hp)] at touched
  have symm : Std.Symm fun a b : Nat × Nat => disjoint a b = true := ⟨fun a b h => by rwa [disjoint, Bool.or_comm] at h⟩
  intro q hq
  by_cases same : p = q
  · rwa [same, Bool.true_and] at uncovered
  · have outside := apart.forall hp hq same
    simp only [disjoint, Bool.or_eq_true, decide_eq_true_eq] at outside
    simp only [covers, Bool.and_eq_false_iff, decide_eq_false_iff_not]
    omega

/-! ## What a read meets -/

theorem countCorrected_keeps_rest (s : State) (ws : List Nat) : Keeps ⟨Touch.nothing.dram, s⟩ (s.countCorrected ws) :=
  countCorrected_keeps (Touch.Le.refl _) (Keeps.refl _ s)

theorem countCorrected_poisoned (s : State) (ws : List Nat) : (s.countCorrected ws).dram.poisoned = s.dram.poisoned :=
  keepsFold (Q := fun t : State => t.dram.poisoned = s.dram.poisoned) rfl fun _ _ h => h

/-- The words that an access meets as bad. -/
theorem bar4Meet_poisoned {write : Bool} {w : Nat} (here : w ∈ State.bar4Words ps write) :
    w ∈ (s.bar4Meet ps met write).dram.poisoned ↔ w ∈ met.bad ∨ w ∈ s.dram.poisoned := by
  have poisoned (ws : List Nat) : (s.countCorrected ws).dram.poisoned = s.dram.poisoned := countCorrected_poisoned s ws
  simp only [State.bar4Meet, poisoned, List.mem_append, List.mem_filter, here, true_and, Bool.and_eq_true,
    List.contains_iff_mem, Bool.not_eq_true', ← Bool.not_eq_true]
  tauto

theorem bar4Meet_mems (write : Bool) : (s.bar4Meet ps met write).mems = s.mems :=
  (countCorrected_keeps_rest ..).mems_eq rfl

theorem bar4Meet_out (write : Bool) : (s.bar4Meet ps met write).out = s.out :=
  (countCorrected_keeps_rest ..).out_eq rfl

theorem mem_badWords {a n w : Nat} : w ∈ s.badWords a n ↔ 0 < n ∧ w ∈ wordsOf a n ∧ w ∈ s.dram.poisoned := by
  unfold State.badWords
  split
  next none_ =>
    simp only [Bool.or_eq_true, List.isEmpty_iff, decide_eq_true_eq] at none_
    rcases none_ with rfl | none_
    · simp
    · simp [none_]
  next some_ =>
    simp only [Bool.or_eq_true, not_or, decide_eq_true_eq] at some_
    simp [List.mem_filter, Nat.pos_of_ne_zero some_.1]

/-- The bad words of a read of several pieces. -/
theorem mem_bad {w : Nat} (pos : ∀ p ∈ ps, 0 < p.2) :
    w ∈ (ps.flatMap fun p => t.badWords p.1 p.2) ↔ w ∈ State.bar4Words ps false ∧ w ∈ t.dram.poisoned := by
  simp only [List.mem_flatMap, mem_badWords, mem_bar4Words, Bool.false_and, and_true]
  constructor
  · rintro ⟨p, hp, -, touched, bad⟩
    exact ⟨⟨p, hp, touched⟩, bad⟩
  · rintro ⟨⟨p, hp, touched⟩, bad⟩
    exact ⟨p, hp, pos p hp, touched, bad⟩

theorem bar4Read_good (good : (ps.flatMap fun p => s.badWords p.1 p.2) = []) : s.bar4Read ps =
    { s with out := { s.out with bar4 := some (ps.flatMap fun p => s.bytesAt p.1 p.2), bar4Poisoned := false } } := by
  simp only [State.bar4Read, good, List.isEmpty_nil, if_true]

theorem bar4Read_bad (bad : (ps.flatMap fun p => s.badWords p.1 p.2) ≠ []) :
    (s.bar4Read ps).out.bar4Poisoned = true ∧ (s.bar4Read ps).mems = s.mems := by
  have some_ : (ps.flatMap fun p => s.badWords p.1 p.2).isEmpty = false := by simpa using bad
  simp only [State.bar4Read, some_, Bool.false_eq_true, if_false]
  refine ⟨?_, reportWords_keeps_mems ..⟩
  obtain ⟨sent, out⟩ := (reportWords_noted
    { s with out := { s.out with bar4 := some (s.freeBytes (ps.map Prod.snd).sum), bar4Poisoned := true } }.drawFree
    (ps.flatMap fun p => s.badWords p.1 p.2)).out
  rw [out]
  rfl

/-! ## Accesses -/

/-- An access arrives at the device. -/
structure State.Bar4Arrives (s : State) (fn : Fn) (offset len : Nat) : Prop where
  reaches : s.reaches fn = true
  some_bytes : 1 ≤ len
  within : offset + len ≤ s.bar4Size fn

theorem exec_bar4Access (h : s.Bar4Arrives fn offset len) (write : Option (List Byte)) :
    exec (.bar4Access fn offset len met write) s = .next (match s.bar4Target fn offset len met.ide, write with
      | none, w => s.bar4Refuse fn len w.isSome
      | some ps, none =>
        let t := (s.bar4Meet ps met false).bar4Read ps
        { t with dram := { t.dram with poisoned := s.dram.poisoned } }
      | some ps, some bs => (s.bar4Meet ps met true).bar4Write ps bs) := by
  refine congrArg Host.Outcome.next (if_neg ?_)
  simp [h.reaches, h.some_bytes, h.within]

theorem exec_bar4Access_beyond (beyond : s.bar4Size fn < offset + len) (write : Option (List Byte)) :
    exec (.bar4Access fn offset len met write) s = .next s := by
  refine congrArg Host.Outcome.next (if_pos ?_)
  simp [beyond]

section
variable (h : s.Bar4Arrives fn offset len)
include h

theorem answers_bar4Read (target : s.bar4Target fn offset len met.ide = some ps)
    (good : ∀ w ∈ State.bar4Words ps false, w ∉ met.bad ∧ w ∉ s.dram.poisoned) :
    answers (.bar4Access fn offset len met none) s fun u =>
      u.out.bar4 = some (ps.flatMap fun p => s.bytesAt p.1 p.2) ∧ u.out.bar4Poisoned = false ∧ u.mems = s.mems ∧
      u.dram.poisoned = s.dram.poisoned := by
  obtain ⟨pos, -⟩ := bar4Target_pieces h.some_bytes target
  have none_ : (ps.flatMap fun p => (s.bar4Meet ps met false).badWords p.1 p.2) = [] := by
    refine List.eq_nil_iff_forall_not_mem.2 fun w hw => ?_
    obtain ⟨touched, bad⟩ := (mem_bad pos).1 hw
    exact ((bar4Meet_poisoned touched).1 bad).elim (good w touched).1 (good w touched).2
  have ran := exec_bar4Access h (met := met) none
  rw [target] at ran
  simp only [bar4Read_good none_, bytesAt_congr (bar4Meet_mems (s := s) (ps := ps) (met := met) false)] at ran
  exact answers_of ran ⟨rfl, rfl, bar4Meet_mems false, rfl⟩

theorem answers_bar4Read_bad (target : s.bar4Target fn offset len met.ide = some ps)
    (bad : ∃ w ∈ State.bar4Words ps false, w ∈ met.bad ∨ w ∈ s.dram.poisoned) :
    answers (.bar4Access fn offset len met none) s fun u => u.out.bar4Poisoned = true ∧ u.mems = s.mems ∧
      u.dram.poisoned = s.dram.poisoned := by
  obtain ⟨pos, -⟩ := bar4Target_pieces h.some_bytes target
  obtain ⟨w, touched, hw⟩ := bad
  have some_ : (ps.flatMap fun p => (s.bar4Meet ps met false).badWords p.1 p.2) ≠ [] :=
    List.ne_nil_of_mem ((mem_bad pos).2 ⟨touched, (bar4Meet_poisoned touched).2 hw⟩)
  have ran := exec_bar4Access h (met := met) none
  rw [target] at ran
  obtain ⟨poisoned, mems⟩ := bar4Read_bad some_
  exact answers_of ran ⟨poisoned, mems.trans (bar4Meet_mems false), rfl⟩

theorem answers_bar4Refuse_read (target : s.bar4Target fn offset len met.ide = none) :
    answers (.bar4Access fn offset len met none) s fun u =>
      u.out.bar4 = some (List.replicate len 0xFF) ∧ u.reported 0x50 1 := by
  have ran := exec_bar4Access h (met := met) none
  rw [target] at ran
  exact answers_of ran ⟨rfl, State.reported.of_eq (raise_reported ..) rfl rfl⟩

theorem answers_bar4Refuse_write (target : s.bar4Target fn offset len met.ide = none) (bs : List Byte) :
    answers (.bar4Access fn offset len met (some bs)) s fun u =>
      u.mems = s.mems ∧ u.out.bar4 = s.out.bar4 ∧ u.reported 0x50 1 := by
  have ran := exec_bar4Access h (met := met) (some bs)
  simp only [target, State.bar4Refuse, Option.isSome_some, if_true] at ran
  obtain ⟨sent, out⟩ := (raise_noted s 0x50 1 0 (Fn.part fn) 0 0).out
  exact answers_of ran ⟨(raise_keeps_rest ..).mems_eq rfl, congrArg (·.bar4) out, raise_reported ..⟩

end

theorem answers_bar4Write {bs : List Byte} (h : s.Bar4Arrives fn offset bs.length)
    (target : s.bar4Target fn offset bs.length met.ide = some ps) :
    answers (.bar4Access fn offset bs.length met (some bs)) s fun u =>
      (∀ x, (∀ p ∈ ps, x < p.1 ∨ p.1 + p.2 ≤ x) → u.byte x = s.byte x) ∧
      (ps.Pairwise (fun p q => disjoint p q = true) → (ps.flatMap fun p => u.bytesAt p.1 p.2) = bs ∧
        ∀ w ∈ State.bar4Words ps true, w ∈ met.bad → w ∈ u.dram.poisoned) := by
  obtain ⟨pos, whole⟩ := bar4Target_pieces h.some_bytes target
  have ran := exec_bar4Access h (met := met) (some bs)
  rw [target] at ran
  refine answers_of ran ⟨fun x out => ?_, fun apart => ⟨bar4Write_back ps bs _ apart whole, fun w touched bad => ?_⟩⟩
  · exact (bar4Write_byte_out ps bs _ out).trans (byte_congr (bar4Meet_mems true) x)
  · exact bar4Write_poisoned ps bs _ ((bar4Meet_poisoned touched).2 (.inl bad)) (partly_covered pos apart touched)

end Sys2Proof.Machine
end

section
/-! SUPPORT. Configuration requests, owning functions, interrupts, IDE streams and the DOE mailbox (R322, R325 to R328, R330). -/

namespace Sys2Proof.Machine

variable {s t u : State} {fn : Fn} {n k : Nat}

/-! ## Configuration requests -/

/-- A function that is not ready answers a configuration request with retry status (R330). -/
theorem configure_retries (up : s.link.up = true) (starting : s.link.fnReady = false) (f : State → State) :
    s.configure .pf f = { s with out := { s.out with cfgRetry := true } } := by
  simp [State.configure, State.hasFn, up, starting]

theorem exec_retries {en : Bool} {found : SelfTest} {c : Instr} (up : s.link.up = true) (starting : s.link.fnReady = false)
    (asks : c ∈ [.owningFunctionChange en k, .busMasterEnable .pf, .msixUnmask .pf .enable, .flrPf found, .d3hotEntry,
      .d3hotExit found]) :
    exec c s = .next { s with out := { s.out with cfgRetry := true } } := by
  simp only [List.mem_cons, List.not_mem_nil, or_false] at asks
  rcases asks with rfl | rfl | rfl | rfl | rfl | rfl <;>
    exact congrArg Host.Outcome.next (configure_retries up starting _)

/-! ## Owning functions (R322) -/

theorem mem_flatMap_qpsOf {ps : List Nat} : n ∈ ps.flatMap s.qpsOf ↔ n < 64 ∧ (s.qp n).part ∈ ps := by
  simp only [List.mem_flatMap, mem_qpsOf]
  exact ⟨fun ⟨p, hp, hn, same⟩ => ⟨hn, same ▸ hp⟩, fun ⟨hn, hp⟩ => ⟨_, hp, hn, rfl⟩⟩

theorem ownFn_congr (link : t.link = s.link) (p : Nat) : t.ownFn p = s.ownFn p := by
  rw [State.ownFn, State.ownFn, link]

/-- The state in which the functions are counted anew. -/
def State.refunctioned (s : State) (en : Bool) (k : Nat) : State :=
  { s with link := { s.link with vfEnable := en, numVfs := min 8 k } }

theorem changeFns_link (s : State) (en : Bool) (k : Nat) : (s.changeFns en k).link = (s.refunctioned en k).link :=
  (disableQps_keeps ..).link_eq rfl

theorem changeFns_enabled (s : State) (en : Bool) (hn : n < 64) (hp : (s.qp n).part < 8) :
    ((s.changeFns en k).qp n).enabled =
      ((s.qp n).enabled && (s.changeFns en k).ownFn (s.qp n).part == s.ownFn (s.qp n).part) := by
  rw [ownFn_congr (changeFns_link s en k)]
  have off := disableQps_qp (((List.range 8).filter fun p => s.ownFn p != (s.refunctioned en k).ownFn p).flatMap s.qpsOf)
    (s.refunctioned en k) n
  simp only [mem_flatMap_qpsOf, hn, true_and, List.mem_filter, List.mem_range, hp, bne_iff_ne] at off
  change ((s.changeFns en k).qp n) = _ at off
  rw [off]
  by_cases same : s.ownFn (s.qp n).part = (s.refunctioned en k).ownFn (s.qp n).part
  · rw [if_neg (not_not_intro same), same, beq_self_eq_true, Bool.and_true]
    rfl
  · rw [if_pos same, beq_false_of_ne (Ne.symm same), Bool.and_false]
    rfl

theorem answers_owningFunctionChange {en : Bool} (h : s.reaches .pf = true) :
    answers (.owningFunctionChange en k) s fun u => u.link.vfEnable = en ∧ u.link.numVfs = min 8 k ∧
      ∀ n, n < 64 → (s.qp n).part < 8 →
        (u.qp n).enabled = ((s.qp n).enabled && u.ownFn (s.qp n).part == s.ownFn (s.qp n).part) := by
  have still : s.asked.reaches .pf = true := h
  have ran : exec (.owningFunctionChange en k) s = .next (s.asked.changeFns en k) := by
    change execOwningFunctionChange en k s = _
    rw [execOwningFunctionChange, configure_reaches h, if_pos still]
  refine answers_of ran ⟨?_, ?_, fun n hn hp => changeFns_enabled s.asked en hn hp⟩ <;> rw [changeFns_link] <;> rfl

/-! ## Interrupts (R325, R326) -/

theorem linkUp_of_reaches (h : s.reaches fn = true) (carries : s.link.lost = false) : s.linkUp = true := by
  simp only [State.reaches, Bool.and_eq_true, Bool.not_eq_true'] at h
  obtain ⟨⟨⟨up, -⟩, awake⟩, -⟩ := h
  simp [State.linkUp, up, carries, awake]

/-- The functions that the tables of a sound state describe. -/
def State.described (s : State) (fn : Fn) : Prop := ∀ v, fn = .vf v → v < s.link.vfs.length

theorem described_of_shaped (shaped : s.shaped = true)
    (one : (match fn with | .pf => true | .vf v => decide (v < 8)) = true) : s.described fn := by
  rintro v rfl
  rw [shaped_vfs shaped]
  exact of_decide_eq_true one

theorem described_withSent {go : List Nat} (h : s.described fn) : (s.withSent fn go).described fn := h

/-- What a function shows once its pending messages have been sent. -/
theorem flushMsix_fnSt (up : s.linkUp = true) (h : s.described fn) :
    (s.flushMsix fn).fnSt fn = (s.fnSt fn).sent (s.toSend fn) := by
  rw [flushMsix_up up, fnSt_modFn_same _ (described_withSent h)]
  cases fn <;> rfl

theorem modFn_described (f : FnSt → FnSt) (h : s.described fn) : (s.modFn fn f).described fn := by
  rintro v rfl
  change v < (s.link.vfs.modify v f).length
  rw [List.length_modify]
  exact h v rfl

theorem modFn_linkUp (s : State) (fn : Fn) (f : FnSt → FnSt) : (s.modFn fn f).linkUp = s.linkUp := by cases fn <;> rfl

/-- A function changes, keeps what waits, and sends what it may. -/
theorem flush_after_change {f : FnSt → FnSt} (up : s.linkUp = true) (h : s.described fn)
    (pending : (f (s.fnSt fn)).pending = (s.fnSt fn).pending) :
    ((s.modFn fn f).flushMsix fn).fnSt fn = (f (s.fnSt fn)).sent ((s.fnSt fn).pending.filter (f (s.fnSt fn)).sendable) ∧
      ∀ e ∈ (s.fnSt fn).pending, (f (s.fnSt fn)).sendable e = true → (fn, e) ∈ ((s.modFn fn f).flushMsix fn).out.msix := by
  have changed : (s.modFn fn f).fnSt fn = f (s.fnSt fn) := fnSt_modFn_same f h
  have up' : (s.modFn fn f).linkUp = true := (modFn_linkUp ..).trans up
  refine ⟨?_, fun e he may => flushMsix_sends up' ?_⟩
  · rw [flushMsix_fnSt up' (modFn_described f h), State.toSend, changed, pending]
  · rw [State.toSend, changed, pending]
    exact List.mem_filter.2 ⟨he, may⟩

theorem unmask_pending (f : FnSt) (target : MsixTarget) : (f.unmask target).pending = f.pending := by cases target <;> rfl

/-- A configuration request, or an access to the table, unmasks. -/
theorem exec_msixUnmask (h : s.reaches fn = true) (target : MsixTarget) : ∃ t, (t = s ∨ t = s.asked) ∧
    exec (.msixUnmask fn target) s = .next ((t.modFn fn fun f => f.unmask target).flushMsix fn) := by
  have still : s.asked.reaches fn = true := h
  change ∃ t, _ ∧ execMsixUnmask fn target s = _
  cases target with
  | entry e => exact ⟨s, .inl rfl, congrArg Host.Outcome.next (if_pos h)⟩
  | function => exact ⟨_, .inr rfl, congrArg Host.Outcome.next ((configure_reaches h _).trans (if_pos still))⟩
  | enable => exact ⟨_, .inr rfl, congrArg Host.Outcome.next ((configure_reaches h _).trans (if_pos still))⟩

theorem exec_busMasterEnable (h : s.reaches fn = true) :
    exec (.busMasterEnable fn) s = .next ((s.asked.modFn fn fun f => { f with busMaster := true }).flushMsix fn) := by
  have still : s.asked.reaches fn = true := h
  exact congrArg Host.Outcome.next ((configure_reaches h _).trans (if_pos still))

theorem asked_fnSt (s : State) (fn : Fn) : s.asked.fnSt fn = s.fnSt fn := by cases fn <;> rfl

theorem answers_msixUnmask {target : MsixTarget} (described : s.described fn) (h : s.reaches fn = true)
    (carries : s.link.lost = false) :
    answers (.msixUnmask fn target) s fun u => (u.fnSt fn).masked = ((s.fnSt fn).unmask target).masked ∧
      ∀ e ∈ (s.fnSt fn).pending, ((s.fnSt fn).unmask target).sendable e = true →
        (fn, e) ∈ u.out.msix ∧ e ∉ (u.fnSt fn).pending := by
  obtain ⟨t, same, ran⟩ := exec_msixUnmask h target
  have up : t.linkUp = true := by rcases same with rfl | rfl <;> exact linkUp_of_reaches h carries
  have table : t.described fn := by rcases same with rfl | rfl <;> exact described
  have before : t.fnSt fn = s.fnSt fn := by rcases same with rfl | rfl; exacts [rfl, asked_fnSt s fn]
  obtain ⟨after, sends⟩ := flush_after_change (f := fun f => f.unmask target) up table (unmask_pending ..)
  rw [before] at after sends
  refine answers_of ran ⟨by rw [after]; rfl, fun e he may => ⟨sends e he may, ?_⟩⟩
  rw [after]
  intro left
  have := (List.mem_filter.1 left).2
  simp [he, may] at this

theorem answers_busMasterEnable (described : s.described fn) (h : s.reaches fn = true) (carries : s.link.lost = false) :
    answers (.busMasterEnable fn) s fun u => (u.fnSt fn).busMaster = true ∧
      ∀ e ∈ (s.fnSt fn).pending, { s.fnSt fn with busMaster := true }.sendable e = true → (fn, e) ∈ u.out.msix := by
  have up : s.asked.linkUp = true := linkUp_of_reaches h carries
  obtain ⟨after, sends⟩ := flush_after_change (f := fun f => { f with busMaster := true }) up
    (described : s.asked.described fn) rfl
  rw [asked_fnSt] at after sends
  exact answers_of (exec_busMasterEnable h) ⟨by rw [after]; rfl, sends⟩

/-! ## IDE streams and the mailbox (R327, R328) -/

theorem answers_ideIntegrityFail (secure : s.link.ide.getD k false = true) :
    answers (.ideIntegrityFail k) s fun u => u.link.ide = s.link.ide.set k false ∧ u.reported 0x50 7 := by
  have ran : exec (.ideIntegrityFail k) s = .next ((s.setIde k false).raise 0x50 7 0x13 none 0 k) :=
    congrArg Host.Outcome.next (if_pos secure)
  obtain ⟨pend, link⟩ := (raise_noted (s.setIde k false) 0x50 7 0x13 none 0 k).link
  exact answers_of ran ⟨congrArg (·.ide) link, raise_reported ..⟩

theorem answers_ideKm {sid : Nat} {key : List Byte} (up : s.doeUp = true) (session : s.link.sessions.contains sid = true)
    (hk : k < 8) :
    answers (.ideKm (.session sid) { stream := k, key := key }) s fun u => u.out.doe = .ideKmAck k :: s.out.doe ∧
      u.link.ide = s.link.ide.set k true ∧ u.link.ideKeys = s.link.ideKeys.set k key := by
  change ∃ t, execIdeKm (.session sid) { stream := k, key := key } s = .next t ∧ _
  simp only [execIdeKm, up, session, hk, Bool.not_true, Bool.false_eq_true, decide_true, Bool.and_self, if_true, if_false]
  exact ⟨_, rfl, rfl, rfl, rfl⟩

theorem answers_ideKm_clear {key : IdeKey} (up : s.doeUp = true) :
    answers (.ideKm .clear key) s fun u => u.out.doe = .errorInvalid :: s.out.doe ∧ u.link = s.link := by
  refine answers_of (congrArg Host.Outcome.next (if_neg ?_)) ⟨rfl, rfl⟩
  simp [up]

theorem answers_doeDiscovery {i : Nat} (up : s.doeUp = true) :
    answers (.doeDiscovery i) s fun u => u.out.doe = (if i < 3 then .discovery [0, 1, 2] else .errorInvalid) :: s.out.doe :=
  answers_of (congrArg Host.Outcome.next (if_pos up)) rfl

end Sys2Proof.Machine
end

section
/-! O53 settled. -/

namespace Sys2Proof.Machine

/-- Settles O53: the loss of the link and the reset of a function through what a job's silent end leaves, the accesses to BAR4
through the pieces that make an access up, the interrupts through what one flush sends. -/
theorem hostLinkEvents : Obligations.HostLinkEvents := by
  refine ⟨fun s alive released down => answers_linkTrained alive released down, fun s no => ?untrained,
    fun s alive up => answers_linkLoss alive up, fun v s shaped hv reached => flrVf_answers shaped hv reached,
    fun fn o n met ps s reached one within target good => answers_bar4Read ⟨reached, one, within⟩ target good,
    fun fn o n met ps s reached one within target bad => answers_bar4Read_bad ⟨reached, one, within⟩ target bad,
    fun fn o met ps bs s reached one within target => answers_bar4Write ⟨reached, one, within⟩ target,
    fun fn o n met s reached one within refused => answers_bar4Refuse_read ⟨reached, one, within⟩ refused,
    fun fn o n met bs s reached one within refused => answers_bar4Refuse_write ⟨reached, one, within⟩ refused bs,
    fun fn o n met w s beyond => exec_bar4Access_beyond beyond w,
    fun en k found c s up starting asks => exec_retries up starting asks,
    fun en k s reached => answers_owningFunctionChange reached,
    fun fn target s shaped reached carries one => answers_msixUnmask (described_of_shaped shaped one) reached carries,
    fun fn s shaped reached carries one => answers_busMasterEnable (described_of_shaped shaped one) reached carries,
    fun k s secure => answers_ideIntegrityFail secure, fun k s insecure => ?insecure,
    fun sid k key s up session hk => answers_ideKm up session hk, fun key s up => answers_ideKm_clear up,
    fun i s up => answers_doeDiscovery up⟩
  case untrained =>
    refine congrArg Host.Outcome.next (if_neg ?_)
    rcases no with no | no | no <;> simp [no]
  case insecure =>
    exact congrArg Host.Outcome.next (if_neg (by rw [insecure]; exact Bool.false_ne_true))

end Sys2Proof.Machine
end

section
/-! SUPPORT. The records of a trace in the ring, and the trace and replay registers (R383 to R386, R442). -/

namespace Sys2Proof.Machine

variable {s t u : State} {r : TraceRec} {v n i p : Nat} {value : Word}

/-! ## The units of a record -/

theorem put_mems_congr (h : t.mems = s.mems) (a : Nat) (bs : List Byte) : (t.put a bs).mems = (s.put a bs).mems := by
  change { t.mems with bytes := Mem.put t.mems.blank a bs t.mems.bytes } = { s.mems with bytes := Mem.put s.mems.blank a bs s.mems.bytes }
  rw [h]

theorem putWords_mems (s : State) (a : Nat) (ws : List Nat) : (s.putWords a ws).mems = (s.storeWords a ws).mems :=
  (put_mems_congr (reportWords_keeps_mems ..) a _).symm

theorem putWords_wordsAt (s : State) (a : Nat) (ws : List Nat) :
    (s.putWords a ws).wordsAt a ws.length = ws.map (· % 2 ^ 32) :=
  (wordsAt_congr (putWords_mems s a ws) ..).trans (storeWords_wordsAt ..)

theorem putWords_wordsAt_apart (s : State) {ws : List Nat} {a c : Nat} (apart : c + 4 * n ≤ a ∨ a + 4 * ws.length ≤ c) :
    (s.putWords a ws).wordsAt c n = s.wordsAt c n :=
  (wordsAt_congr (putWords_mems s a ws) ..).trans (storeWords_wordsAt_apart s apart)

theorem traceWords_length (s : State) (r : TraceRec) : (s.traceWords r).length = 8 * r.units := by
  have fits : 4 + r.words.length ≤ 8 * r.units := by
    unfold TraceRec.units ceilDiv
    split <;> omega
  simp only [State.traceWords, List.length_append, List.length_cons, List.length_nil, List.length_replicate]
  omega

/-- The first `n` units of a record put into the ring, each at its slot. -/
def State.putUnits (s : State) (base h : Nat) (ws : List Nat) (n : Nat) : State :=
  (List.range n).foldl
    (fun s i => s.putWords (base + 32 * ((h + i) % 2 ^ s.trace.size)) ((ws.drop (8 * i)).take 8)) s

theorem putUnits_trace (s : State) (base h : Nat) (ws : List Nat) (n : Nat) : (s.putUnits base h ws n).trace = s.trace :=
  keepsFold (Q := fun t : State => t.trace = s.trace) rfl fun _ _ h => h

theorem putUnits_succ (s : State) (base h : Nat) (ws : List Nat) (n : Nat) : s.putUnits base h ws (n + 1) =
    (s.putUnits base h ws n).putWords (base + 32 * ((h + n) % 2 ^ s.trace.size)) ((ws.drop (8 * n)).take 8) := by
  rw [State.putUnits, List.range_succ, List.foldl_append, List.foldl_cons, List.foldl_nil]
  change (s.putUnits base h ws n).putWords (base + 32 * ((h + n) % 2 ^ (s.putUnits base h ws n).trace.size)) _ = _
  rw [putUnits_trace]

/-- No two units of a record that the ring holds lie at the same slot. -/
theorem slots_apart {h j m : Nat} (one : i < n) (many : n ≤ j) (few : j < m) : (h + i) % m ≠ (h + j) % m := by
  intro same
  have shift : i ≡ j [MOD m] := Nat.ModEq.add_left_cancel' h same
  have := Nat.le_of_dvd (by omega) ((Nat.modEq_iff_dvd' (by omega)).1 shift)
  omega

theorem putUnits_wordsAt (s : State) (base h : Nat) (ws : List Nat) (n : Nat) (whole : 8 * n ≤ ws.length)
    (fits : n ≤ 2 ^ s.trace.size) (hi : i < n) :
    (s.putUnits base h ws n).wordsAt (base + 32 * ((h + i) % 2 ^ s.trace.size)) 8 =
      ((ws.drop (8 * i)).take 8).map (· % 2 ^ 32) := by
  induction n with
  | zero => exact absurd hi (Nat.not_lt_zero i)
  | succ n ih =>
    have eight : ((ws.drop (8 * n)).take 8).length = 8 := by
      rw [List.length_take, List.length_drop]
      omega
    rw [putUnits_succ]
    rcases Nat.lt_succ_iff_lt_or_eq.1 hi with before | rfl
    · rw [putWords_wordsAt_apart, ih (by omega) (by omega) before]
      have := slots_apart (h := h) before le_rfl fits
      rw [eight]
      omega
    · have written := putWords_wordsAt (s.putUnits base h ws i) (base + 32 * ((h + i) % 2 ^ s.trace.size)) ((ws.drop (8 * i)).take 8)
      rwa [eight] at written

theorem traceWrite_eq (s : State) (r : TraceRec) : s.traceWrite r =
    { s.putUnits (hostBase + s.trace.base) s.trace.head (s.traceWords r) r.units with
      trace := { s.trace with head := s.trace.head + r.units, seqno := s.trace.seqno + 1 } } := by
  have kept := putUnits_trace s (hostBase + s.trace.base) s.trace.head (s.traceWords r) r.units
  change { s.putUnits (hostBase + s.trace.base) s.trace.head (s.traceWords r) r.units with
    trace := { (s.putUnits (hostBase + s.trace.base) s.trace.head (s.traceWords r) r.units).trace with
      head := s.trace.head + r.units
      seqno := (s.putUnits (hostBase + s.trace.base) s.trace.head (s.traceWords r) r.units).trace.seqno + 1 } } = _
  rw [kept]

/-- Each unit of a record written lies at its own slot. -/
theorem traceWrite_unit (s : State) (hi : i < r.units) (fits : r.units ≤ 2 ^ s.trace.size) :
    (s.traceWrite r).wordsAt (hostBase + s.trace.base + 32 * ((s.trace.head + i) % 2 ^ s.trace.size)) 8 =
      (((s.traceWords r).drop (8 * i)).take 8).map fun w => w % 2 ^ 32 := by
  rw [traceWrite_eq]
  exact putUnits_wordsAt s _ _ _ _ (traceWords_length s r).ge fits hi

/-! ## What writing a record leaves of the registers -/

/-- The ring, the records that wait for it and the counts have moved; what the host set has not. -/
def State.TraceMoved (s t : State) : Prop :=
  ∃ h q st l pl, t.trace = { s.trace with head := h, seqno := q, store := st, lost := l, pendingLost := pl }

theorem State.TraceMoved.trans (h : s.TraceMoved t) (k : t.TraceMoved u) : s.TraceMoved u := by
  obtain ⟨_, _, _, _, _, ht⟩ := h
  obtain ⟨_, _, _, _, _, hu⟩ := k
  exact ⟨_, _, _, _, _, by rw [hu, ht]⟩

theorem traceWrite_moved (s : State) (r : TraceRec) : s.TraceMoved (s.traceWrite r) := by
  rw [traceWrite_eq]
  exact ⟨_, _, _, _, _, rfl⟩

theorem traceDrain_moved (s : State) (n : Nat) : s.TraceMoved (s.traceDrain n) := by
  induction n generalizing s with
  | zero => exact ⟨_, _, _, _, _, rfl⟩
  | succ n ih =>
    unfold State.traceDrain
    split
    next r rest _ =>
      split
      · obtain ⟨_, _, _, _, _, written⟩ := traceWrite_moved s r
        exact .trans (t := (s.traceWrite r).keepStore rest) ⟨_, _, _, _, _, by rw [State.keepStore, written]⟩ (ih _)
      · exact ⟨_, _, _, _, _, rfl⟩
    next =>
      split
      · exact (traceWrite_moved s _).trans ⟨_, _, _, _, _, rfl⟩
      · exact ⟨_, _, _, _, _, rfl⟩

theorem traceEmit_moved (s : State) (r : TraceRec) : s.TraceMoved (s.traceEmit r) := by
  unfold State.traceEmit
  extract_lets u
  refine State.TraceMoved.trans (t := u) (traceDrain_moved ..) ?_
  split
  · exact traceWrite_moved ..
  · split <;> exact ⟨_, _, _, _, _, rfl⟩

theorem traceRoom_closed (closed : s.pfHostOk = false) (n : Nat) : s.traceRoom n = false := by
  rw [State.traceRoom, closed, Bool.and_false]

/-- Where the host cannot be reached nothing is written. -/
theorem traceDrain_closed (closed : s.pfHostOk = false) (n : Nat) : s.traceDrain n = s := by
  cases n with
  | zero => rfl
  | succ n =>
    unfold State.traceDrain
    split <;> simp [traceRoom_closed closed]

theorem traceEmit_closed (closed : s.pfHostOk = false) : (s.traceEmit r).trace.head = s.trace.head := by
  simp only [State.traceEmit, traceDrain_closed closed, traceRoom_closed closed, Bool.and_false, Bool.false_eq_true, if_false]
  split <;> rfl

theorem traceDrain_idle (none_ : s.trace.store = []) (noLost : s.trace.pendingLost = 0) (n : Nat) : s.traceDrain n = s := by
  cases n with
  | zero => rfl
  | succ n => simp [State.traceDrain, none_, noLost]

theorem traceEmit_written (none_ : s.trace.store = []) (noLost : s.trace.pendingLost = 0) (room : s.traceRoom r.units = true) :
    s.traceEmit r = s.traceWrite r := by
  simp [State.traceEmit, traceDrain_idle none_ noLost, none_, noLost, room]

/-! ## TRACE_CTL -/

theorem exec_traceEnable (h : s.reaches .pf = true) : exec (.traceEnable .pf value) s = .next (s.writeTraceCtl value.toNat) :=
  congrArg Host.Outcome.next (if_pos h)

/-- The state in which capture begins, and its first record. -/
def State.traceBegun (s : State) (v : Nat) : State := { s with trace := { s.trace.control v with head := 0, tail := 0 } }

def State.startRec (s : State) : TraceRec := { type := 0x01, part := 0, qp := 0, ts := s.now, words := s.startWords }

theorem writeTraceCtl_begins (on : bit 0 v = true) (off : s.trace.enable = false) :
    s.writeTraceCtl v = (s.traceBegun v).traceEmit (s.traceBegun v).startRec := by
  have enabled : (s.trace.control v).enable = true := on
  simp only [State.writeTraceCtl, enabled, off, Bool.not_false, Bool.and_self, if_true]
  rfl

theorem writeTraceCtl_running (on : s.trace.enable = true) : s.writeTraceCtl v = { s with trace := s.trace.control v } := by
  simp [State.writeTraceCtl, on]

theorem startRec_units (s : State) : s.startRec.units = 3 := by
  simp [State.startRec, TraceRec.units, State.startWords, ceilDiv]

theorem control_size (off : s.trace.enable = false) : (s.trace.control v).size = max 11 (min 25 (bits 6 2 v)) := by
  simp [Trace.control, off]

theorem wordsAt_first (s : State) (a n : Nat) : (s.wordsAt a (n + 1))[0]? = some (s.readN a 4) := by
  simp [State.wordsAt, List.range_succ_eq_map]

theorem answers_traceEnable_start (reached : s.reaches .pf = true) (on : bit 0 value.toNat = true) (off : s.trace.enable = false)
    (none_ : s.trace.store = []) (noLost : s.trace.pendingLost = 0) (host : s.pfHostOk = true) :
    answers (.traceEnable .pf value) s fun u => u.trace.enable = true ∧ u.trace.tail = 0 ∧ u.trace.head = 3 ∧
      u.trace.stall = bit 1 value.toNat ∧ u.trace.partMask = bits 15 8 value.toNat ∧
      u.trace.size = max 11 (min 25 (bits 6 2 value.toNat)) ∧ u.readN (hostBase + s.trace.base) 4 = 0x8201 := by
  have wide : 3 ≤ 2 ^ (s.trace.control value.toNat).size := by
    rw [control_size off]
    exact le_trans (by norm_num) (Nat.pow_le_pow_right (n := 2) (by decide) (le_max_left 11 _))
  have room : (s.traceBegun value.toNat).traceRoom (s.traceBegun value.toNat).startRec.units = true := by
    rw [startRec_units, State.traceRoom, Bool.and_eq_true]
    refine ⟨decide_eq_true ?_, host⟩
    change 0 + 3 ≤ 0 + 2 ^ (s.trace.control value.toNat).size
    omega
  have emitted := traceEmit_written (s := s.traceBegun value.toNat) none_ noLost room
  have ran := exec_traceEnable (value := value) reached
  rw [writeTraceCtl_begins on off, emitted] at ran
  have unit := traceWrite_unit (i := 0) (s.traceBegun value.toNat) (r := (s.traceBegun value.toNat).startRec)
    (by rw [startRec_units]; decide) (by rw [startRec_units]; exact wide)
  have first := congrArg (·[0]?) unit
  rw [wordsAt_first] at first
  refine answers_of ran ?_
  have trace := congrArg State.trace (traceWrite_eq (s.traceBegun value.toNat) (s.traceBegun value.toNat).startRec)
  refine ⟨by rw [trace]; exact on, by rw [trace]; rfl, ?_, by rw [trace]; rfl, by rw [trace]; rfl,
    by rw [trace]; exact control_size off, ?_⟩
  · rw [trace]
    exact (Nat.zero_add _).trans (startRec_units _)
  · have empty : (s.traceBegun value.toNat).trace.head = 0 := rfl
    have base : (s.traceBegun value.toNat).trace.base = s.trace.base := rfl
    have start : (s.traceBegun value.toNat).startRec.type = 1 ∧ (s.traceBegun value.toNat).startRec.part = 0 ∧
      (s.traceBegun value.toNat).startRec.qp = 0 := ⟨rfl, rfl, rfl⟩
    simpa [State.traceWords, startRec_units, empty, base, start] using first

theorem answers_traceEnable_begins (reached : s.reaches .pf = true) (on : bit 0 value.toNat = true) (off : s.trace.enable = false) :
    answers (.traceEnable .pf value) s fun u =>
      u.trace.enable = true ∧ u.trace.tail = 0 ∧ (s.pfHostOk = false → u.trace.head = 0) := by
  have ran := exec_traceEnable (value := value) reached
  rw [writeTraceCtl_begins on off] at ran
  obtain ⟨_, _, _, _, _, trace⟩ := traceEmit_moved (s.traceBegun value.toNat) (s.traceBegun value.toNat).startRec
  exact answers_of ran ⟨by rw [trace]; exact on, by rw [trace]; rfl, fun closed => traceEmit_closed closed⟩

theorem answers_traceEnable_running (reached : s.reaches .pf = true) (on : s.trace.enable = true) :
    answers (.traceEnable .pf value) s fun u => u.trace.size = s.trace.size ∧ u.trace.head = s.trace.head ∧
      u.trace.enable = bit 0 value.toNat ∧ u.mems = s.mems := by
  have ran := exec_traceEnable (value := value) reached
  rw [writeTraceCtl_running on] at ran
  exact answers_of ran ⟨by simp [Trace.control, on], rfl, rfl, rfl⟩

/-! ## TRACE_TAIL -/

theorem tailAt_low (t : Trace) (hv : v < 2 ^ 32) : t.tailAt v % 2 ^ 32 = v := by
  unfold Trace.tailAt
  omega

theorem tail_le_tailAt (t : Trace) (v : Nat) : t.tail ≤ t.tailAt v := Nat.le_add_right ..

/-- The state with the tail moved, which frees room in the ring. -/
def State.tailMoved (s : State) (tail : Nat) : State := { s with trace := { s.trace with tail := tail } }

theorem writeTraceTail_within (within : s.trace.tailAt v ≤ s.trace.head) : s.writeTraceTail v =
    (s.tailMoved (s.trace.tailAt v)).traceDrain ((s.tailMoved (s.trace.tailAt v)).trace.store.length + 1) := by
  rw [State.writeTraceTail, if_pos within]
  rfl

theorem tailMoved_idle (none_ : s.trace.store = []) (noLost : s.trace.pendingLost = 0) (tail n : Nat) :
    (s.tailMoved tail).traceDrain n = s.tailMoved tail := traceDrain_idle (s := s.tailMoved tail) none_ noLost n

theorem tail_within {tail : Nat} (low : tail % 2 ^ 32 = v) (forward : s.trace.tail ≤ tail) (within : tail ≤ s.trace.head) :
    (s.tailMoved tail).trace.tail % 2 ^ 32 = v ∧ s.trace.tail ≤ (s.tailMoved tail).trace.tail ∧
      (s.tailMoved tail).trace.tail ≤ (s.tailMoved tail).trace.head ∧ (s.tailMoved tail).trace.head = s.trace.head :=
  ⟨low, forward, within, rfl⟩

theorem answers_traceTailWrite (reached : s.reaches .pf = true) (none_ : s.trace.store = []) (noLost : s.trace.pendingLost = 0)
    (within : s.trace.tailAt value.toNat ≤ s.trace.head) :
    answers (.traceTailWrite .pf value) s fun u => u.trace.tail % 2 ^ 32 = value.toNat ∧ s.trace.tail ≤ u.trace.tail ∧
      u.trace.tail ≤ u.trace.head ∧ u.trace.head = s.trace.head :=
  answers_of (congrArg Host.Outcome.next ((if_pos reached).trans 
      ((writeTraceTail_within within).trans (tailMoved_idle none_ noLost ..))))
    (tail_within (tailAt_low _ value.isLt) (tail_le_tailAt ..) within)

theorem exec_traceTailWrite_beyond (beyond : s.trace.head < s.trace.tailAt value.toNat) :
    exec (.traceTailWrite .pf value) s = .next s := by
  change execTraceTailWrite .pf value s = _
  rw [execTraceTailWrite, State.writeTraceTail, if_neg (Nat.not_le.2 beyond), ite_self]

/-! ## The replay registers -/

theorem pfWrite_trace {o r : Nat} {f : SelfTest} {ok : Bool} (hr : r < 0x10000) (ho : o = 0x90000 + r) :
    s.pfWrite o v f ok = s.writeTrace r v := by
  obtain ⟨hb, hm⟩ := place_in_map (b := 9) hr ho
  rw [State.pfWrite, if_neg (by omega)]
  simp only [hb, hm]

/-- While capture is on the base of the ring stays. -/
theorem writeTrace_base_kept (on : s.trace.enable = true) (ho : n = 4 ∨ n = 8) : s.writeTrace n v = s := by
  have trace : s.trace.writeReg n v = s.trace := by rcases ho with rfl | rfl <;> exact if_pos on
  have replay : s.replay.writeReg n v = s.replay := by rcases ho with rfl | rfl <;> exact ite_self _
  have written : s.writeTrace n v = { s with trace := s.trace.writeReg n v, replay := s.replay.writeReg n v } := by
    rcases ho with rfl | rfl <;> rfl
  rw [written, trace, replay]

theorem writeReplay_kept (running : s.replay.state = .running) (ho : n = 0x104 ∨ n = 0x108 ∨ n = 0x10C) :
    s.writeTrace n v = s := by
  have trace : s.trace.writeReg n v = s.trace := by rcases ho with rfl | rfl | rfl <;> rfl
  have replay : s.replay.writeReg n v = s.replay := if_pos (by rw [running]; rfl)
  have written : s.writeTrace n v = { s with trace := s.trace.writeReg n v, replay := s.replay.writeReg n v } := by
    rcases ho with rfl | rfl | rfl <;> rfl
  rw [written, trace, replay]

theorem replayStore_running (running : s.replay.state = .running) : s.replayStore v = s := if_pos (by rw [running]; rfl)

theorem writeTrace_replayCtl_kept (running : s.replay.state = .running) (noStop : bit 1 v = false) : s.writeTrace 0x100 v = s := by
  change (if s.replay.state == .running then if bit 1 v then s.replayHalt else s else s.replayStore v) = s
  simp [running, noStop]

theorem exec_replayGo_running (running : s.replay.state = .running) : exec (.replayGo .pf value) s = .next s := by
  change execReplayGo .pf value s = _
  rw [execReplayGo, replayStore_running running, ite_self]

/-! ## GO and STOP -/

/-- The state with PARTITION written. -/
def State.replayOf (s : State) (p : Nat) : State := { s with replay := { s.replay with part := p } }

theorem exec_replayGo (reached : s.reaches .pf = true) (still : s.replay.state ≠ .running) :
    exec (.replayGo .pf value) s = .next (if bit 0 value.toNat then (s.replayOf (bits 4 2 value.toNat)).startReplay
      else s.replayOf (bits 4 2 value.toNat)) :=
  congrArg Host.Outcome.next ((if_pos reached).trans (if_neg (by simpa using still)))

theorem traceRecords_replayOf (s : State) (p a units fuel pos : Nat) :
    (s.replayOf p).traceRecords a units fuel pos = s.traceRecords a units fuel pos := by
  induction fuel generalizing pos with
  | zero => rfl
  | succ fuel ih => simp only [State.traceRecords, ih]; rfl

/-- The trace that the replay registers name. -/
def State.replayTrace (s : State) : List (List Nat) := s.traceRecords s.replay.addr s.replay.units s.replay.units 0

theorem startReplay_runs (valid : s.replayable p = true) (readable : s.traceReadable = true)
    (same : s.sameStart s.replayTrace = true) : (s.replayOf p).startReplay =
      { s with replay := { s.replay with
        part := p, state := .running, pos := 0, stopping := false, mismatch := false, mismatchSeq := 0, uncertain := false
        expect := s.replayTrace.filterMap (expectOf p), tiers := s.replayTrace.filterMap (tierOf p), origin := [] } } := by
  have valid' : (s.replayOf p).replayable (s.replayOf p).replay.part = true := valid
  have readable' : (s.replayOf p).traceReadable = true := readable
  have trace : (s.replayOf p).traceRecords (s.replayOf p).replay.addr (s.replayOf p).replay.units (s.replayOf p).replay.units 0 =
    s.replayTrace := traceRecords_replayOf ..
  have same' : (s.replayOf p).sameStart s.replayTrace = true := same
  simp only [State.startReplay, valid', readable', trace, same', Bool.not_true, Bool.false_eq_true, if_false, if_true]
  rfl

theorem sameStart_nil (s : State) : s.sameStart [] = false := rfl

theorem startReplay_refused (valid : s.replayable p = true) (other : s.sameStart s.replayTrace = false) :
    (s.replayOf p).startReplay = { s with replay := { s.replay with part := p, state := .refused } } := by
  have valid' : (s.replayOf p).replayable (s.replayOf p).replay.part = true := valid
  have trace : (s.replayOf p).traceRecords (s.replayOf p).replay.addr (s.replayOf p).replay.units (s.replayOf p).replay.units 0 =
    s.replayTrace := traceRecords_replayOf ..
  have refused : (s.replayOf p).sameStart (if (s.replayOf p).traceReadable = true then s.replayTrace else []) = false := by
    split
    · exact other
    · exact sameStart_nil _
  simp only [State.startReplay, valid', trace, refused, Bool.not_true, Bool.false_eq_true, if_false]
  rfl

theorem startReplay_invalid (invalid : s.replayable p = false) : (s.replayOf p).startReplay = s.replayOf p := by
  have invalid' : (s.replayOf p).replayable (s.replayOf p).replay.part = false := invalid
  simp [State.startReplay, invalid']

theorem answers_replayStop (reached : s.reaches .pf = true) (running : s.replay.state = .running) :
    answers (.replayStop .pf) s fun u =>
      u.replay.state = (if (s.jobs.list.any fun j => j.part == s.replay.part) = true then .running else .stopped) ∧
      u.replay.stopping = true := by
  have ran : exec (.replayStop .pf) s = .next { s with replay := { s.replay with stopping := true } }.replaySettle :=
    congrArg Host.Outcome.next ((if_pos reached).trans (if_pos (by rw [running]; rfl)))
  refine answers_of ran ?_
  cases left : s.jobs.list.any fun j => j.part == s.replay.part
  · simp [State.replaySettle, running, left]
  · simp [State.replaySettle, running, left]

end Sys2Proof.Machine
end

section
/-! O55 settled. -/

namespace Sys2Proof.Machine

/-- Settles O55: records through the distinct slots of their units, the registers through the access rule and the place of their
block in the map. -/
theorem traceAndReplayRegisters : Obligations.TraceAndReplayRegisters := by
  refine ⟨fun i r s hi fits => traceWrite_unit s hi fits,
    fun value s reached on off none_ noLost host => answers_traceEnable_start reached on off none_ noLost host,
    fun value s reached on off => answers_traceEnable_begins reached on off,
    fun value s reached on => answers_traceEnable_running reached on, fun o value f ok s on ho => ?base,
    fun value s reached none_ noLost within => answers_traceTailWrite reached none_ noLost within,
    fun value s beyond => exec_traceTailWrite_beyond beyond, fun value v o f ok s running ho => ?replayRegs,
    fun v f ok s running noStop => ?replayCtl, fun value p s reached still go hp valid readable same => ?goes,
    fun value p s reached still go hp valid other => ?refused, fun value s reached still no => ?stays,
    fun s reached running => answers_replayStop reached running⟩
  case base =>
    refine exec_registerWrite_of_kept ?_
    change s.pfWrite o _ f ok = s
    rcases ho with rfl | rfl
    · exact (pfWrite_trace (r := 4) (by decide) rfl).trans (writeTrace_base_kept on (.inl rfl))
    · exact (pfWrite_trace (r := 8) (by decide) rfl).trans (writeTrace_base_kept on (.inr rfl))
  case replayRegs =>
    refine ⟨exec_registerWrite_of_kept ?_, exec_replayGo_running running⟩
    change s.pfWrite o _ f ok = s
    have place : o = 0x90000 + (o - 0x90000) := by omega
    exact (pfWrite_trace (by omega) place).trans (writeReplay_kept running (by omega))
  case replayCtl =>
    exact exec_registerWrite_of_kept
      ((pfWrite_trace (r := 0x100) (f := f) (ok := ok) (by decide) rfl).trans (writeTrace_replayCtl_kept running noStop))
  case goes =>
    subst hp
    have ran := exec_replayGo (value := value) reached still
    rw [if_pos go, startReplay_runs valid readable same] at ran
    exact answers_of ran ⟨rfl, rfl, rfl, rfl, rfl⟩
  case refused =>
    subst hp
    have ran := exec_replayGo (value := value) reached still
    rw [if_pos go, startReplay_refused valid other] at ran
    exact answers_of ran ⟨rfl, rfl⟩
  case stays =>
    refine (exec_replayGo reached still).trans (congrArg Host.Outcome.next ?_)
    split
    · exact startReplay_invalid (no.resolve_left (by simp [*]))
    · rfl

end Sys2Proof.Machine
end

section
/-! SUPPORT. A refutation: a device in a warm reset whose control processors have no verified images. -/

namespace Sys2Proof.Machine

/-- A warm reset has been released while no control processor has an image, as before any bundle was installed. -/
def imagelessWarmState : State := { State.reset with
  smbus := { State.reset.smbus with dieOn := true }
  dev := { State.reset.dev with stage := .warmReset, released := true } }

/-- Refutes O59: at READY a control processor starts from SP's verified copy of its image, and only from it (R375): one without
an image stays held (`Cp.start`). The eleventh clause lacks that the first three processors have images. -/
theorem not_resetsReadyAndShutdown : ¬ Obligations.ResetsReadyAndShutdown := by
  unfold Obligations.ResetsReadyAndShutdown
  rintro ⟨-, -, -, -, -, -, -, -, -, -, warm, -⟩
  obtain ⟨-, -, -, running, -⟩ := answers_stateAfter (warm imagelessWarmState (by decide +kernel) (by decide +kernel)
    (by decide +kernel) (by decide +kernel) (by decide +kernel))
  exact absurd (running 0 (by decide)) (by decide +kernel)

end Sys2Proof.Machine
end

section
/-! SUPPORT. What the self-test leaves of the device and of its power (R422), and the rails (R402, R445, R452). -/

namespace Sys2Proof.Machine

variable {s t u : State} {may : Touch} {found : SelfTest}

/-! ## The self-test -/

/-- In `t` the self-test has noted records and faults since `s`; LAST_RESET, the stage and the clock's state are as they were. -/
structure State.SelfTested (s t : State) : Prop where
  dev : ∃ fault recs, t.dev = { s.dev with fault := fault, startFaults := recs }
  loss : t.power.lossSeen = s.power.lossSeen

theorem State.SelfTested.of_eq (dev : t.dev = s.dev) (loss : t.power.lossSeen = s.power.lossSeen) : s.SelfTested t :=
  ⟨⟨_, _, dev⟩, loss⟩

theorem State.SelfTested.refl (s : State) : s.SelfTested s := .of_eq rfl rfl

theorem State.SelfTested.trans (h : s.SelfTested t) (k : t.SelfTested u) : s.SelfTested u where
  dev := by
    obtain ⟨_, _, hd⟩ := h.dev
    obtain ⟨_, _, kd⟩ := k.dev
    exact ⟨_, _, by rw [kd, hd]⟩
  loss := k.loss.trans h.loss

theorem State.SelfTested.of_keeps (h : Keeps ⟨may, s⟩ t) (dev : may.tDev = false) (power : may.tPower = false) : s.SelfTested t :=
  .of_eq (h.dev_eq dev) (by rw [h.power_eq power])

theorem later_tested (s : State) (source cls detail info : Nat) : s.SelfTested (s.later source cls detail info) :=
  ⟨⟨_, _, rfl⟩, rfl⟩

theorem drawFree_tested (s : State) : s.SelfTested s.drawFree := .of_eq rfl rfl

theorem setFault_tested (s : State) : s.SelfTested s.setFault := by
  unfold State.setFault
  split
  · exact .refl s
  · exact ⟨⟨_, _, rfl⟩, rfl⟩

theorem report_tested (s : State) (source cls detail info : Nat) : s.SelfTested (s.report source cls detail info) := by
  unfold State.report
  split
  · exact later_tested ..
  · exact .of_keeps (raise_keeps_rest ..) rfl rfl

theorem rngStartup_tested (s : State) (ok : Bool) (rest : List Bool) : s.SelfTested (s.rngStartup ok rest) := by
  have power := (rngStartup_keeps (ok := ok) (x2 := rest) (Touch.Le.refl _) (Keeps.refl _ s)).power_eq rfl
  refine ⟨?_, by rw [power]⟩
  unfold State.rngStartup
  extract_lets serve t
  split
  · exact ⟨_, _, rfl⟩
  · split <;> exact ⟨_, _, rfl⟩

theorem groupFails_tested (s : State) (g : Nat) : s.SelfTested (s.groupFails g) :=
  .trans (t := { s with faults := { s.faults with groupFailed := g :: s.faults.groupFailed } }) (.of_eq rfl rfl)
    ((setFault_tested _).trans (later_tested ..))

theorem mapOutEngine_tested (s : State) (e : Nat) (cause : OutCause) : s.SelfTested (s.mapOutEngine e cause) := by
  unfold State.mapOutEngine
  split
  · exact .refl s
  extract_lets -merge g tasks a q b c d f h
  have hF : Touch.nothing.jobEnd.trace.Le Touch.nothing.jobEnd.trace := Touch.Le.refl _
  have removed : Keeps ⟨Touch.nothing.jobEnd.trace, s⟩ b :=
    .upd hF (modEng_keeps (hF.sub rfl) (Keeps.refl _ s)) rfl rfl ⟨rfl, rfl⟩ (by simp +zetaDelta [State.shaped])
  have recorded : Keeps ⟨Touch.nothing.jobEnd.trace, s⟩ c := by
    unfold c
    split
    · exact raise_keeps (hF.sub rfl) removed
    · exact removed
  have rerun : Keeps ⟨Touch.nothing.jobEnd.trace, s⟩ f :=
    keepsFold (Q := Keeps ⟨Touch.nothing.jobEnd.trace, s⟩) (traceEvent_keeps (hF.sub rfl) recorded)
      fun _ _ kept => rerun_keeps (hF.sub rfl) kept
  have ended : s.SelfTested h := .of_keeps (failEngineless_keeps (hF.sub rfl) rerun) rfl rfl
  split
  · exact ended.trans (setFault_tested h)
  · exact ended

theorem riseAll_loss (n most watts : Nat) (given : List Nat) (s : State) :
    (State.riseAll n most watts given s).power.lossSeen = s.power.lossSeen := by
  induction n generalizing watts given s with
  | zero => rfl
  | succ n ih =>
    unfold State.riseAll
    split
    · rfl
    · split
      · rfl
      · exact (ih ..).trans rfl

theorem rise_loss (s : State) : s.rise.power.lossSeen = s.power.lossSeen := by
  unfold State.rise
  extract_lets dt t
  exact riseAll_loss _ _ _ _ s

theorem ramped_tested (s : State) (e : Nat) : s.SelfTested (s.ramped e) := by
  refine .of_eq ((ramped_keeps (Touch.Le.refl _) (Keeps.refl _ s)).dev_eq rfl) ?_
  unfold State.ramped
  extract_lets limit t
  have domain : t.power = s.rise.power := State.modEng_power ..
  rw [State.modEng_power, domain]
  exact rise_loss s

theorem testEngine_tested (s : State) (f : SelfTest) (e : Nat) : s.SelfTested (s.testEngine f e) := by
  unfold State.testEngine
  split
  · exact (later_tested s 0x70 0xA 8 e).trans (mapOutEngine_tested ..)
  extract_lets t
  have ramped : s.SelfTested t := ramped_tested s e
  split
  · exact ramped.trans ((later_tested ..).trans ((drawFree_tested _).trans (mapOutEngine_tested ..)))
  · exact ramped

theorem dripJudge_tested (s : State) : s.SelfTested s.dripJudge := by
  unfold State.dripJudge
  extract_lets -merge polls k broken fresh lost news q a b c
  split
  · exact .refl s
  have marked : s.SelfTested b := .of_eq rfl rfl
  have told : s.SelfTested c := by
    unfold c
    split
    · exact marked.trans (report_tested ..)
    · exact marked
  exact keepsFold (Q := s.SelfTested) told fun _ _ h => h.trans (report_tested ..)

theorem dripPoll_tested (s : State) (frames : List DripFrame) : s.SelfTested (s.dripPoll frames) := by
  unfold State.dripPoll
  extract_lets -merge drip polled
  have judged : s.SelfTested polled :=
    .trans (t := { s with drip := { s.drip with polls := (frames :: s.drip.polls).take 3 } }) (.of_eq rfl rfl) (dripJudge_tested _)
  refine keepsFold (Q := s.SelfTested) judged fun _ _ h => h.trans ?_
  exact .of_keeps (dripRaise_keeps (Touch.Le.refl _) (Keeps.refl _ _)) rfl rfl

theorem testDrip_tested (s : State) (polls : List (List DripFrame)) : s.SelfTested (s.testDrip polls) :=
  keepsFold (Q := s.SelfTested) (.of_eq rfl rfl) fun _ _ h => h.trans (dripPoll_tested ..)

theorem enterLevel_tested (s : State) (l : Level) : s.SelfTested (s.enterLevel l) := by
  unfold State.enterLevel
  extract_lets -merge was p a l' rise cap' p' b c
  have warned : s.SelfTested b := by
    unfold b
    split <;> exact .of_eq rfl rfl
  have slowed : s.SelfTested c := by
    unfold c
    split
    · exact warned.trans (.of_eq rfl rfl)
    · exact warned
  split
  · exact slowed.trans (report_tested ..)
  · exact slowed

theorem setLevel_tested (s : State) (hot sensor : Nat) : s.SelfTested (s.setLevel hot sensor) := by
  unfold State.setLevel
  extract_lets -merge p a l
  have kept : s.SelfTested a := .of_eq rfl rfl
  split
  · exact kept
  · exact kept.trans (enterLevel_tested ..)

theorem noteStart_tested (s : State) : s.SelfTested s.noteStart := by
  unfold State.noteStart
  extract_lets a
  have noted : s.SelfTested a := by
    unfold a
    split
    · exact later_tested ..
    · exact .refl s
  split
  · exact noted.trans (later_tested ..)
  · exact noted

/-- The self-test ends in WAIT_KADON. -/
theorem selfTest_tested (s : State) (f : SelfTest) :
    (∃ fault recs, (s.selfTest f).dev = { s.dev with fault := fault, startFaults := recs, stage := .waitKadon }) ∧
      (s.selfTest f).power.lossSeen = s.power.lossSeen := by
  unfold State.selfTest
  extract_lets -merge p a b c q d e g h i
  have begun : s.SelfTested b := .trans (t := a) (.of_eq rfl rfl) (rngStartup_tested ..)
  have crypto : s.SelfTested d := by
    unfold d
    split
    · exact begun
    · exact begun.trans (((later_tested ..).trans (setFault_tested _)).trans (.of_eq rfl rfl))
  have groups : s.SelfTested e := keepsFold (Q := s.SelfTested) crypto fun _ _ h => h.trans (groupFails_tested ..)
  have engines : s.SelfTested g := keepsFold (Q := s.SelfTested) groups fun _ _ h => h.trans (testEngine_tested ..)
  obtain ⟨⟨fault, recs, dev⟩, loss⟩ : s.SelfTested i :=
    engines.trans ((testDrip_tested ..).trans ((setLevel_tested ..).trans (noteStart_tested _)))
  exact ⟨⟨fault, recs, congrArg (fun d : Dev => { d with stage := .waitKadon }) dev⟩, loss⟩

end Sys2Proof.Machine
end

section
/-! SUPPORT. The rails, the straps, the clock and the timebase (R389, R391, R402, R419, R445, R447, R452). -/

namespace Sys2Proof.Machine

variable {s t u : State} {found : SelfTest} {c : Instr}

/-! ## The rails -/

theorem tripHolds_none (none_ : s.smbus.tripOff = false) : s.tripHolds = false := by
  rw [State.tripHolds, none_, Bool.false_and]

/-- The die once its rails have started. -/
def State.railsUp (s : State) : State :=
  let m := s.smbus
  let lost := s.dev.clockLost
  let held := lost && !s.power.rootLock
  let t := (if m.tripOff then s.drawFree else s).dieDown false
  { t with
    smbus := { t.smbus with p12v := true, dieOn := true, tripOff := false }
    flash := { t.flash with fails := 0, lockout := false }
    dev := { t.dev with lastReset := if lost then 2 else 0, clockLost := held, fullWanted := held }
    power := { t.power with tripped := m.tripOff, lossSeen := lost && !held } }

theorem exec_railsValid (off : s.smbus.dieOn = false) (aux : s.smbus.aux = true) :
    exec .railsValid s = .next (if s.tripHolds then { s with smbus := { s.smbus with p12v := true } }.drawFree else s.railsUp) := by
  refine congrArg Host.Outcome.next (if_neg ?_)
  simp [off, aux]

theorem answers_railsValid (off : s.smbus.dieOn = false) (aux : s.smbus.aux = true) (noTrip : s.smbus.tripOff = false) :
    answers .railsValid s fun u => u.smbus.dieOn = true ∧ u.smbus.p12v = true ∧ u.smbus.tripOff = false ∧ u.flash.lockout = false ∧
      u.flash.fails = 0 ∧ u.dev.lastReset = if s.dev.clockLost then 2 else 0 := by
  have ran := exec_railsValid off aux
  rw [tripHolds_none noTrip] at ran
  exact answers_of ran ⟨rfl, rfl, rfl, rfl, rfl, rfl⟩

theorem answers_railsValid_tripped (off : s.smbus.dieOn = false) (aux : s.smbus.aux = true) (trip : s.smbus.tripOff = true) :
    answers .railsValid s fun u => u.smbus.p12v = true ∧
      ((u.smbus.dieOn = true ∧ u.smbus.tripOff = false ∧ u.power.tripped = true) ∨
        (u.smbus.dieOn = false ∧ u.smbus.tripOff = true ∧ u.dev = s.dev)) := by
  have ran := exec_railsValid off aux
  cases holds : s.tripHolds <;> rw [holds] at ran
  · exact answers_of ran ⟨rfl, .inl ⟨rfl, rfl, trip⟩⟩
  · exact answers_of ran ⟨rfl, .inr ⟨off, trip, rfl⟩⟩

theorem answers_railsValid_held (off : s.smbus.dieOn = false) (aux : s.smbus.aux = true) (trip : s.smbus.tripOff = true)
    (there : s.smbus.p12v = true) :
    answers .railsValid s fun u => u.smbus = s.smbus ∧ u.dev = s.dev ∧ u.jobs = s.jobs := by
  have ran := exec_railsValid off aux
  rw [State.tripHolds, trip, there, Bool.true_or, Bool.and_self, if_pos rfl] at ran
  refine answers_of ran ⟨?_, rfl, rfl⟩
  change { s.smbus with p12v := true } = s.smbus
  rw [← there]

theorem reset_qp_enabled (n : Nat) : (State.reset.qp n).enabled = false := by
  by_cases hn : n < 64
  · exact congrArg Qp.enabled (List.getD_replicate Qp.reset hn)
  · exact congrArg Qp.enabled (List.getD_eq_default State.reset.qps Qp.reset (by simpa [State.reset] using hn))

theorem dieDown_qps (s : State) (keepLink : Bool) : (s.dieDown keepLink).qps = State.reset.qps := rfl

theorem powerOff_on (on : s.smbus.dieOn = true) : s.powerOff.smbus.dieOn = false ∧ s.powerOff.dev.ready = false ∧
    s.powerOff.jobs.list = [] ∧ ∀ n, (s.powerOff.qp n).enabled = false := by
  rw [State.powerOff, if_pos on]
  refine ⟨rfl, rfl, rfl, fun n => ?_⟩
  have qps := dieDown_qps s.flashLoss false
  rw [State.qp]
  change ((s.flashLoss.dieDown false).qps.getD n Qp.reset).enabled = false
  rw [qps]
  exact reset_qp_enabled n

theorem powerOff_off (off : s.smbus.dieOn = false) : s.powerOff = s := if_neg (by simp [off])

theorem powerOff_dieOn (s : State) : s.powerOff.smbus.dieOn = false := by
  cases on : s.smbus.dieOn
  · rwa [powerOff_off on]
  · exact (powerOff_on on).1

/-- The two ways in which P12V goes away. -/
theorem exec_p12vAway (away : c ∈ [Instr.powerLoss, .p12vOvervoltage]) :
    exec c s = .next { s.powerOff with smbus := { s.powerOff.smbus with p12v := false } } := by
  simp only [List.mem_cons, List.not_mem_nil, or_false] at away
  rcases away with rfl | rfl <;> rfl

theorem answers_p12vAway (away : c ∈ [Instr.powerLoss, .p12vOvervoltage]) (on : s.smbus.dieOn = true) :
    answers c s fun u => u.smbus.dieOn = false ∧ u.smbus.p12v = false ∧ u.dev.ready = false ∧ u.jobs.list = [] ∧
      ∀ n, (u.qp n).enabled = false := by
  obtain ⟨die, ready, jobs, qps⟩ := powerOff_on on
  exact answers_of (exec_p12vAway away) ⟨die, rfl, ready, jobs, qps⟩

theorem answers_auxRailLoss (s : State) :
    answers .auxRailLoss s fun u => u.smbus.aux = false ∧ u.smbus.capSet = 0 ∧ u.smbus.emergency = false ∧ u.smbus.alert = false ∧
      u.smbus.fruOff = 0 ∧ u.smbus.dieOn = false :=
  ⟨_, rfl, rfl, rfl, rfl, rfl, rfl, powerOff_dieOn s⟩

theorem answers_strapSample {mid : Nat} (dark : s.smbus.aux = false) :
    answers (.strapSample mid) s fun u => u.smbus.aux = true ∧ u.smbus.mid = mid % 16 ∧ u.smbus.addr = 0x20 + mid % 16 ∧
      u.passage.id = mid % 16 :=
  answers_of (congrArg Host.Outcome.next (if_neg (by simp [dark]))) ⟨rfl, rfl, rfl, rfl⟩

/-! ## The clock -/

theorem answers_clockLoss (alive : s.alive = true) :
    answers .clockLoss s fun u => u.dev.clockLost = true ∧ u.smbus.clockLoss = true ∧ u.smbus.alert = true ∧ u.dev.ready = false ∧
      u.jobs.list = [] :=
  answers_of (congrArg Host.Outcome.next (if_pos alive)) ⟨rfl, rfl, rfl, rfl, rfl⟩

/-- The reference clock is back, and the PLL has locked. -/
def State.relocked (s : State) : State := { s with power := { s.power with rootLock := true } }

theorem exec_referenceClockRestored (lost : s.dev.clockLost = true) :
    exec (.referenceClockRestored found) s = .next (s.relocked.recoverClock found) :=
  congrArg Host.Outcome.next (if_pos lost)

theorem answers_clockRestored (lost : s.dev.clockLost = true) (noReset : s.dev.fullWanted = false) :
    answers (.referenceClockRestored found) s fun u => u.power.rootLock = true ∧ u.dev = s.dev := by
  have ran := exec_referenceClockRestored (found := found) lost
  have waits : s.relocked.recoverClock found = s.relocked := if_neg (by simp [State.relocked, noReset])
  rw [waits] at ran
  exact answers_of ran ⟨rfl, rfl⟩

/-- The state in which the full reset that waited for the clock begins. -/
def State.clockReset (s : State) : State := { s.relocked with
  dev := { s.dev with clockLost := false, fullWanted := false, lastReset := 2 }
  power := { s.relocked.power with lossSeen := true } }

theorem answers_clockRestored_reset (lost : s.dev.clockLost = true) (wanted : s.dev.fullWanted = true) (high : s.link.perst = false)
    (on : s.smbus.dieOn = true) :
    answers (.referenceClockRestored found) s fun u => u.dev.clockLost = false ∧ u.dev.stage = .waitKadon ∧ u.dev.lastReset = 2 ∧
      u.power.lossSeen = true := by
  have ran := exec_referenceClockRestored (found := found) lost
  have goes : s.relocked.recoverClock found = s.clockReset.selfTest found := by
    refine if_pos ?_
    simp [State.relocked, lost, wanted, high, on]
  rw [goes] at ran
  obtain ⟨⟨fault, recs, dev⟩, loss⟩ := selfTest_tested s.clockReset found
  exact answers_of ran ⟨by rw [dev]; rfl, by rw [dev], by rw [dev]; rfl, loss⟩

/-! ## The timebase -/

theorem answers_timebaseLoRead (reached : s.reaches .pf = true) (early : s.now < 2 ^ 64) :
    answers (.timebaseLoRead .pf) s fun u => u.power.tbLatch.toNat * 2 ^ 32 + u.out.regRead.toNat = s.now ∧ u.now = s.now ∧
      u.regRead .pf 0x30404 = s.now / 2 ^ 32 := by
  have upper : (BitVec.ofNat 32 (s.now / 2 ^ 32)).toNat = s.now / 2 ^ 32 := by
    rw [BitVec.toNat_ofNat]
    omega
  have lower : (BitVec.ofNat 32 s.now).toNat = s.now % 2 ^ 32 := BitVec.toNat_ofNat ..
  refine answers_of (congrArg Host.Outcome.next (if_pos reached)) ⟨?_, rfl, ?_⟩
  · change (BitVec.ofNat 32 (s.now / 2 ^ 32)).toNat * 2 ^ 32 + (BitVec.ofNat 32 s.now).toNat = s.now
    rw [upper, lower]
    omega
  · exact upper

end Sys2Proof.Machine
end

section
/-! SUPPORT. The dripline's polls and the daily plan of its margins (R403 to R405). -/

namespace Sys2Proof.Machine

variable {s t u : State} {frames : List DripFrame} {d e m : Nat}

/-! ## The immediate raise -/

theorem report_drip (s : State) (source cls detail info : Nat) : (s.report source cls detail info).drip = s.drip :=
  (report_keeps (Touch.Le.refl _) (Keeps.refl _ s)).drip_eq rfl

/-- Between `s` and `t` other domains' margins were raised: of domain `d` nothing has moved. -/
structure State.SameMargin (d : Nat) (s t : State) : Prop where
  margin : t.flash.margins.getD d 0 = s.flash.margins.getD d 0
  margins : t.flash.margins.length = s.flash.margins.length
  raised : t.drip.lastRaise.getD d 0 = s.drip.lastRaise.getD d 0
  raises : t.drip.lastRaise.length = s.drip.lastRaise.length
  drip : ∃ l, t.drip = { s.drip with lastRaise := l }
  now : t.now = s.now

theorem State.SameMargin.refl (d : Nat) (s : State) : s.SameMargin d s := ⟨rfl, rfl, rfl, rfl, ⟨_, rfl⟩, rfl⟩

theorem State.SameMargin.trans (h : State.SameMargin d s t) (k : State.SameMargin d t u) : State.SameMargin d s u where
  margin := k.margin.trans h.margin
  margins := k.margins.trans h.margins
  raised := k.raised.trans h.raised
  raises := k.raises.trans h.raises
  drip := by
    obtain ⟨_, hl⟩ := h.drip
    obtain ⟨_, kl⟩ := k.drip
    exact ⟨_, by rw [kl, hl]⟩
  now := k.now.trans h.now

theorem getD_set_other {l : List Nat} {x : Nat} (other : e ≠ d) : (l.set e x).getD d 0 = l.getD d 0 := by
  rw [List.getD_eq_getElem?_getD, List.getElem?_set_ne other, List.getD_eq_getElem?_getD]

theorem getD_set_same {l : List Nat} {x : Nat} (inside : d < l.length) : (l.set d x).getD d 0 = x := by
  rw [List.getD_eq_getElem?_getD, List.getElem?_set_self inside, Option.getD_some]

theorem dripRaise_other (s : State) (frames : List DripFrame) (other : e ≠ d) : State.SameMargin d s (s.dripRaise frames e) := by
  unfold State.dripRaise
  extract_lets last t
  split
  · exact ⟨getD_set_other other, List.length_set, getD_set_other other, List.length_set, ⟨_, rfl⟩, rfl⟩
  · exact .refl d s

theorem dripRaises_other (ds : List Nat) (s : State) (frames : List DripFrame) (others : d ∉ ds) :
    State.SameMargin d s (ds.foldl (fun s e => s.dripRaise frames e) s) := by
  induction ds generalizing s with
  | nil => exact .refl d s
  | cons e ds ih =>
    obtain ⟨other, rest⟩ := List.ne_and_not_mem_of_not_mem_cons others
    exact (dripRaise_other s frames (Ne.symm other)).trans (ih _ rest)

theorem dripRaise_drip (s : State) (frames : List DripFrame) (d : Nat) :
    ∃ l, (s.dripRaise frames d).drip = { s.drip with lastRaise := l } := by
  unfold State.dripRaise
  extract_lets last t
  split <;> exact ⟨_, rfl⟩

theorem dripRaises_drip (ds : List Nat) (s : State) (frames : List DripFrame) :
    ∃ l, (ds.foldl (fun s d => s.dripRaise frames d) s).drip = { s.drip with lastRaise := l } :=
  keepsFold (Q := fun t : State => ∃ l, t.drip = { s.drip with lastRaise := l }) ⟨_, rfl⟩ fun x d ⟨_, h⟩ => by
    obtain ⟨l, raised⟩ := dripRaise_drip x frames d
    exact ⟨l, by rw [raised, h]⟩

theorem margin_same (h : State.SameMargin d s t) : t.margin d = s.margin d := by
  obtain ⟨_, drip⟩ := h.drip
  rw [State.margin, State.margin, drip, h.margin]

theorem dripAsks_same (h : State.SameMargin d s t) : t.dripAsks frames d = s.dripAsks frames d := by
  obtain ⟨_, drip⟩ := h.drip
  rw [State.dripAsks, State.dripAsks, margin_same h, drip]

/-- What one domain's raise needs. -/
structure State.RaiseDue (s : State) (frames : List DripFrame) (d : Nat) : Prop where
  inside : d < s.flash.margins.length
  free : s.drip.fallback = []
  asks : s.dripAsks frames d = true
  due : s.drip.lastRaise.getD d 0 = 0 ∨ s.drip.lastRaise.getD d 0 + 1000000 ≤ s.now + 1

theorem State.RaiseDue.same (h : s.RaiseDue frames d) (k : State.SameMargin d s t) : t.RaiseDue frames d where
  inside := k.margins ▸ h.inside
  free := by
    obtain ⟨_, drip⟩ := k.drip
    rw [drip]
    exact h.free
  asks := (dripAsks_same k).trans h.asks
  due := by
    rw [k.raised, k.now]
    exact h.due

theorem margin_free (free : s.drip.fallback = []) : s.margin d = s.flash.margins.getD d 0 := by
  rw [State.margin, free]
  rfl

theorem dripRaise_due (h : s.RaiseDue frames d) :
    (s.dripRaise frames d).flash.margins.getD d 0 = min (Config.maxMargin d) (s.flash.margins.getD d 0 + 1) := by
  have goes : (!s.drip.fallback.contains d && s.dripAsks frames d &&
      (s.drip.lastRaise.getD d 0 == 0 || decide (s.drip.lastRaise.getD d 0 + 10 * msTicks ≤ s.now + 1))) = true := by
    have due := h.due
    rw [h.free, h.asks]
    simpa [msTicks] using due
  unfold State.dripRaise
  extract_lets last t
  rw [if_pos goes]
  change (s.flash.margins.set d (min (Config.maxMargin d) (s.margin d + 1))).getD d 0 = _
  rw [getD_set_same h.inside, margin_free h.free]

/-- A poll raises a domain that asks for it once. -/
theorem dripRaises_due (ds : List Nat) (once : ds.Nodup) (here : d ∈ ds) (h : s.RaiseDue frames d) :
    (ds.foldl (fun s e => s.dripRaise frames e) s).flash.margins.getD d 0 =
      min (Config.maxMargin d) (s.flash.margins.getD d 0 + 1) := by
  obtain ⟨before, after, rfl⟩ := List.append_of_mem here
  rw [List.nodup_append] at once
  obtain ⟨-, later, apart⟩ := once
  have earlier := dripRaises_other before s frames fun hd => apart d hd d List.mem_cons_self rfl
  rw [List.foldl_append, List.foldl_cons, (dripRaises_other after _ frames (List.nodup_cons.1 later).1).margin,
    dripRaise_due (h.same earlier), earlier.margin]

/-! ## Polls -/

/-- The state in which a poll is kept. -/
def State.polled (s : State) (frames : List DripFrame) : State :=
  { s with drip := { s.drip with polls := (frames :: s.drip.polls).take 3 } }

theorem exec_dripPoll (alive : s.alive = true) : exec (.dripPoll frames) s =
    .next ((List.range 8).foldl (fun s d => s.dripRaise frames d) (s.polled frames).dripJudge) :=
  congrArg Host.Outcome.next (if_pos alive)

theorem dripJudge_few (few : s.drip.polls.length < 3) : s.dripJudge = s := if_pos few

theorem answers_dripPoll_raise (alive : s.alive = true) (few : s.drip.polls.length < 2) (hd : d < 8)
    (due : s.RaiseDue frames d) :
    answers (.dripPoll frames) s fun u => u.flash.margins.getD d 0 = min (Config.maxMargin d) (s.flash.margins.getD d 0 + 1) ∧
      u.drip.polls = frames :: s.drip.polls := by
  have all : (frames :: s.drip.polls).take 3 = frames :: s.drip.polls := List.take_of_length_le (by simp; omega)
  have ran := exec_dripPoll (frames := frames) alive
  have unjudged : (s.polled frames).dripJudge = s.polled frames := dripJudge_few (by rw [State.polled, all]; simp; omega)
  rw [unjudged] at ran
  obtain ⟨_, drip⟩ := dripRaises_drip (List.range 8) (s.polled frames) frames
  have due' : (s.polled frames).RaiseDue frames d := ⟨due.inside, due.free, due.asks, due.due⟩
  exact answers_of ran ⟨dripRaises_due _ List.nodup_range (List.mem_range.2 hd) due', by rw [drip]; exact all⟩

/-- The domains in fallback once more are added. -/
theorem setFallback_mem {ds : List Nat} (hd : d < 8) (here : d ∈ ds) : d ∈ (s.setFallback ds).drip.fallback := by
  refine List.mem_filter.2 ⟨List.mem_range.2 hd, ?_⟩
  simp [here]

/-- A monitor that fails three polls alike is marked, and its domain falls back. -/
theorem dripJudge_faulty (many : s.drip.polls.length = 3) (hm : m < 96) (fresh : s.drip.faulty.contains m = false)
    (failed : dripFaulty s.drip.polls m = true) :
    m ∈ s.dripJudge.drip.faulty ∧ s.dripJudge.drip.polls = s.drip.polls ∧
      ∀ d, dripDomain m = some d → d < 8 → d ∈ s.dripJudge.drip.fallback := by
  unfold State.dripJudge
  extract_lets -merge polls k broken news' lost news q a b c
  rw [if_neg (Nat.not_lt.2 many.ge)]
  have here : m ∈ news' := List.mem_filter.2 ⟨List.mem_range.2 hm, by rw [fresh, failed]; rfl⟩
  have told : c.drip = b.drip := by
    unfold c
    split
    · exact report_drip ..
    · rfl
  have all : (news'.foldl (fun s m => s.report 0x72 0xA 0xC m) c).drip = b.drip :=
    keepsFold (Q := fun t : State => t.drip = b.drip) told fun _ _ h => (report_drip ..).trans h
  rw [all]
  exact ⟨List.mem_append_right _ here, rfl, fun d domain hd =>
    setFallback_mem hd (List.mem_filterMap.2 ⟨m, List.mem_append_right _ here, domain⟩)⟩

theorem answers_dripPoll_faulty (alive : s.alive = true) (many : 2 ≤ s.drip.polls.length) (hm : m < 96)
    (fresh : s.drip.faulty.contains m = false) (failed : dripFaulty ((frames :: s.drip.polls).take 3) m = true) :
    answers (.dripPoll frames) s fun u => m ∈ u.drip.faulty ∧ u.drip.polls = (frames :: s.drip.polls).take 3 ∧
      ∀ d, dripDomain m = some d → d < 8 → d ∈ u.drip.fallback ∧ u.margin d = Config.maxMargin d := by
  have three : (s.polled frames).drip.polls.length = 3 := by
    change ((frames :: s.drip.polls).take 3).length = 3
    rw [List.length_take, List.length_cons]
    omega
  obtain ⟨marked, polls, falls⟩ := dripJudge_faulty (s := s.polled frames) three hm fresh failed
  obtain ⟨_, drip⟩ := dripRaises_drip (List.range 8) (s.polled frames).dripJudge frames
  refine answers_of (exec_dripPoll alive) ⟨by rw [drip]; exact marked, by rw [drip]; exact polls, fun d domain hd => ?_⟩
  have fallen := falls d domain hd
  refine ⟨by rw [drip]; exact fallen, ?_⟩
  rw [State.margin, drip, if_pos (by simpa using fallen)]

/-! ## The daily plan -/

/-- The margin that a day's plan gives a domain. -/
def State.replanned (s : State) (needs : List Nat) (d : Nat) : Nat :=
  if s.drip.fallback.contains d then s.flash.margins.getD d 0
  else replanStep (s.flash.margins.getD d 0) (max (Config.minMargin d) (min (Config.maxMargin d) (needs.getD d 0 + 1)))

theorem replanStep_near (now goal : Nat) : replanStep now goal ≤ now + 1 ∧ now ≤ replanStep now goal + 1 := by
  unfold replanStep
  split
  · omega
  · split <;> omega

theorem replanned_near (s : State) (needs : List Nat) (d : Nat) :
    s.replanned needs d ≤ s.flash.margins.getD d 0 + 1 ∧ s.flash.margins.getD d 0 ≤ s.replanned needs d + 1 := by
  unfold State.replanned
  split
  · omega
  · exact replanStep_near ..

theorem exec_dripReplan {needs : List Nat} (alive : s.alive = true) (mounted : s.flash.mounted = true)
    (due : s.drip.plannedDay < s.hours / 24) : exec (.dripReplan needs) s = .next { s with
      flash := { s.flash with margins := (List.range 8).map (s.replanned needs) }
      drip := { s.drip with plannedDay := s.hours / 24 } } := by
  refine congrArg Host.Outcome.next (if_pos ?_)
  simp [alive, mounted, due]

theorem getD_map_range (f : Nat → Nat) (hd : d < 8) : ((List.range 8).map f).getD d 0 = f d := by
  simp [List.getD_eq_getElem?_getD, hd]

theorem answers_dripReplan {needs : List Nat} (alive : s.alive = true) (mounted : s.flash.mounted = true)
    (due : s.drip.plannedDay < s.hours / 24) (hd : d < 8) :
    answers (.dripReplan needs) s fun u => u.drip.plannedDay = s.hours / 24 ∧
      (s.drip.fallback.contains d = true → u.flash.margins.getD d 0 = s.flash.margins.getD d 0) ∧
      u.flash.margins.getD d 0 ≤ s.flash.margins.getD d 0 + 1 ∧ s.flash.margins.getD d 0 ≤ u.flash.margins.getD d 0 + 1 := by
  have planned := getD_map_range (s.replanned needs) hd
  obtain ⟨up, down⟩ := replanned_near s needs d
  refine answers_of (exec_dripReplan alive mounted due) ⟨rfl, fun fallback => ?_, planned.trans_le up, ?_⟩
  · exact planned.trans (if_pos fallback)
  · exact down.trans_eq (congrArg (· + 1) planned.symm)

theorem exec_dripReplan_planned {needs : List Nat} (planned : s.hours / 24 ≤ s.drip.plannedDay) :
    exec (.dripReplan needs) s = .next s := by
  refine congrArg Host.Outcome.next (if_neg ?_)
  simp [planned]

end Sys2Proof.Machine
end

section
/-! O58 settled. -/

namespace Sys2Proof.Machine

/-- Settles O58: the rails and the clock through what dieDown resets and the self-test leaves, a poll through the one raise that
each domain gets of it and the records that leave the dripline alone. -/
theorem railsClockAndDripline : Obligations.RailsClockAndDripline := by
  refine ⟨fun s off aux noTrip => answers_railsValid off aux noTrip,
    fun s off aux trip _ => answers_railsValid_tripped off aux trip,
    fun s off aux trip there => answers_railsValid_held off aux trip there, fun s no => ?stays,
    fun c s away on => answers_p12vAway away on, fun c s away off => ?alreadyOff, fun s => answers_auxRailLoss s,
    fun mid s dark => answers_strapSample dark, fun mid s lit => congrArg Host.Outcome.next (if_pos lit),
    fun s alive => answers_clockLoss alive, fun f s lost noReset => answers_clockRestored lost noReset,
    fun f s lost wanted high on => answers_clockRestored_reset lost wanted high on,
    fun f s running => congrArg Host.Outcome.next (if_neg (by simp [running])),
    fun s reached early => answers_timebaseLoRead reached early,
    fun frames d s alive few hd margins raises free asks due => ?raise,
    fun frames m s alive many hm fresh failed => answers_dripPoll_faulty alive many hm fresh failed,
    fun needs d s alive mounted due hd => answers_dripReplan alive mounted due hd,
    fun needs s planned => exec_dripReplan_planned planned⟩
  case stays =>
    refine congrArg Host.Outcome.next (if_pos ?_)
    rcases no with on | dark
    · rw [on, Bool.true_or]
    · rw [dark, Bool.not_false, Bool.or_true]
  case alreadyOff =>
    rw [exec_p12vAway away, powerOff_off off]
  case raise => exact answers_dripPoll_raise alive few hd ⟨margins ▸ hd, free, asks, due⟩

end Sys2Proof.Machine
end
